-- ==== Sys2Proof/Word.lean ====
section
/-! DEFINITION. The word types of the ZB-1040 block model (R4: bit 0 is the least significant bit). -/

namespace Sys2Proof

/-- A 64-bit control-space register (R352). -/
abbrev Word := BitVec 64

/-- One byte. -/
abbrev Byte := BitVec 8

/-- A 512-bit row: one scratchpad row, one vector-network payload, one matrix chunk (R31, R40). -/
abbrev Row := BitVec 512

/-- A table of values by number: (key, value) pairs, keys strictly rising, no entry equal to the table's default. -/
abbrev Tbl (α : Type) := List (Nat × α)

end Sys2Proof
end

