-- ==== Sys2Proof/Syntax.lean ====
section
/-! DEFINITION. The commands of the block: one constructor of Instr per row of spec/opcode_table.json, in the table's
order, and the plain data types of their operands. The table gives its rows no bit fields; the operands are what the row's
rule names. Units are numbered as R1, R11 and R351 do: a tile is 256*d + 16*c + t, a cluster 16*d + c. -/

namespace Sys2Proof

/-- The matrix slot's BLOCK fields (R43). -/
structure BlockArgs where
  mode  : BitVec 2
  stat  : BitVec 2
  sbank : BitVec 1
  ssel  : BitVec 2
  chk   : Bool
  fmtA  : BitVec 4
  fmtB  : BitVec 4
  src   : BitVec 2
  base  : BitVec 6
  depth : BitVec 6
  kch   : BitVec 8
  ltag  : BitVec 12
  deriving DecidableEq, Repr

/-- The vector slot's fields other than OPC (R137). -/
structure VecArgs where
  var   : BitVec 4
  rm    : BitVec 2
  sat   : Bool
  cen   : Bool
  dst   : BitVec 8
  srcA  : BitVec 8
  srcB  : BitVec 8
  srcC  : BitVec 8
  mask  : BitVec 8
  offen : BitVec 4
  offc  : BitVec 3
  ctag  : BitVec 12
  imm   : BitVec 32
  deriving DecidableEq, Repr

/-- One word of a static network with its sideband (the table of "The three networks"). A scalar payload is bits 31..0, a
control token bits 7..0; a scalar or control word uses parity bit 0. -/
structure NetWord where
  payload : Row
  ctx     : BitVec 2
  seq     : Bool
  parity  : BitVec 8
  deriving DecidableEq, Repr

/-- The source class of a window writer (R171). -/
inductive WClass where
  | loc
  | fabric
  deriving DecidableEq, Repr

/-- What a window write carries for the admission of R172 and the count of R173. -/
structure WinRef where
  window : Nat
  cls    : WClass
  tag    : BitVec 12
  jepoch : BitVec 16
  key    : BitVec 24
  msg    : Nat
  last   : Bool
  deriving DecidableEq, Repr

/-- Where an asynchronous row or a window lies: a tile's scratchpad or a cluster's carafe. -/
inductive Store where
  | sp (tile : Nat)
  | car (cluster : Nat)
  deriving DecidableEq, Repr

/-- A DMA descriptor in flight: its cluster, its ring and its number (R297). -/
structure DescRef where
  cluster : Nat
  ring    : Nat
  count   : BitVec 32
  deriving DecidableEq, Repr

/-- An asynchronous write (R161): one row with a byte mask. A scratchpad row uses the low 64 bytes, a carafe row all 128.
A write from a window writer carries its reference; a plain DMA row carries none. -/
structure AsyncRow where
  row  : Nat
  mask : BitVec 128
  data : BitVec 1024
  win  : Option WinRef
  desc : Option DescRef
  deriving DecidableEq, Repr

/-- A private write on the I3C bus: the target address and the bytes (R441). -/
structure I3cWrite where
  addr  : Nat
  bytes : List Byte
  deriving DecidableEq, Repr
/-- A private read on the I3C bus: the target address and the number of bytes (R441). -/
structure I3cRead where
  addr : Nat
  n    : Nat
  deriving DecidableEq, Repr

/-- The master of a control-space access (R352). The barista of a cluster addresses its own space (R120), with 64 bits or, as `baristaPart`,
with 1, 2, 4 or 8 bytes by `size`. -/
inductive Master where
  | barista (cluster : Nat)
  | baristaPart (cluster : Nat) (size : BitVec 2)
  | mgmt
  | host (port : Nat)
  deriving DecidableEq, Repr

/-- An access of a barista to a work counter (R124). -/
inductive WcAccess where
  | amoAddD
  | amoAddW
  | load
  | store
  | otherAmo
  deriving DecidableEq, Repr

/-- A Lerpel message as its headers give it (R310, R311), with its data bytes. `cls` and `op` are the fields of R310 and of
R311's table. -/
structure Msg where
  op     : Nat
  cls    : Nat
  src    : Nat
  dst    : Nat
  shub   : Nat
  cred   : Bool
  epoch  : BitVec 16
  psn    : BitVec 32
  fseq   : BitVec 16
  addr   : BitVec 64
  key    : BitVec 24
  jepoch : BitVec 16
  tag    : BitVec 12
  opa    : BitVec 64
  opb    : BitVec 64
  data   : List Byte
  deriving DecidableEq, Repr

/-- What a collective message carries beside the transport's header (R323 to R331): the sender's rank and attempt; for data the
partial of node `node` of piece `piece`, or with `gather` a finished piece, with its poison bits, the sums of squares of R327, the
VETO and ORIGIN of R326 and, for a leased gather, the owner's version or refusal status; for READY the digest; for a lease release
the shard and step. -/
structure CollData where
  group   : Nat
  collId  : Nat
  attempt : Nat
  rank    : Nat
  piece   : Nat
  node    : Nat
  gather  : Bool
  data    : List Byte
  poison  : List Bool
  sumsq   : List (BitVec 64)
  veto    : Bool
  origin  : Option (Nat × Nat)
  version : BitVec 32
  status  : BitVec 16
  digest  : BitVec 32
  shard   : BitVec 24
  step    : BitVec 48
  deriving DecidableEq, Repr

/-- A RoCEv2 RC request packet on a queue pair (R336, R340 to R344). `va`, `rkey` and `len` are of the RETH or AtomicETH;
`first` and `last` tell first, middle, last and only packets; `immediate` marks an opcode with immediate or invalidate. `qp` is the QPN it
names; for an atomic `swap` is the value swapped in or added. `cls` is the traffic class of its frame (R335) and `bytes` what the frame takes in
the receive buffer (R345). -/
structure Packet where
  qp    : Nat
  port  : Nat
  psn   : BitVec 24
  rkey  : BitVec 32
  va    : BitVec 64
  len   : Nat
  data  : List Byte
  first : Bool
  last  : Bool
  immediate : Bool
  swap  : BitVec 64
  compare : BitVec 64
  ce    : Bool
  cls   : BitVec 3
  bytes : Nat
  deriving DecidableEq, Repr

/-- Where a message of connection management arrives: its host port, and the traffic class of its frame (R335). -/
structure MadPort where
  port : BitVec 2
  cls  : BitVec 3
  deriving DecidableEq, Repr

/-- A MAD to QPN 1 (R339): a connection-management message, or one of another class. -/
inductive Mad where
  | req (service : BitVec 64) (gid : BitVec 128) (qpn psn : BitVec 24)
  | rtu
  | dreq (gid : BitVec 128) (qpn : BitVec 24)
  | other
  deriving DecidableEq, Repr

/-- What an Ethernet frame carries, as far as R334 to R336 tell frames apart. -/
inductive FrameKind where
  | request (p : Packet) (op : Nat)
  | cnp (qp : Nat)
  | mad (m : Mad)
  | pfc (classes : BitVec 8) (quanta : List Nat)
  | pause
  | unsupported
  deriving DecidableEq, Repr

/-- An Ethernet frame arriving at a host port (R334 to R336). -/
structure Frame where
  len   : Nat
  fcsOk : Bool
  icrcOk : Bool
  fragment : Bool
  multicast : Bool
  pcp   : Option (BitVec 3)
  dscp  : BitVec 6
  kind  : FrameKind
  deriving DecidableEq, Repr

/-- Counts of one census event (R230). -/
structure CensusCounts where
  elem   : Nat
  zero   : Nat
  sat    : Nat
  nonfin : Nat
  uflow  : Nat
  deriving DecidableEq, Repr

/-- The closing record of a step as it is delivered (R330). The SL and SR sums are binary64, one triple per layer group. -/
structure StepRecord where
  step    : BitVec 48
  veto    : Bool
  poison  : Bool
  originDev : BitVec 16
  originBlk : BitVec 32
  tokens  : BitVec 32
  groups  : List (Nat × BitVec 64 × BitVec 64 × Nat)
  deriving DecidableEq, Repr

/-- The three cases of R194 and R215 in which `LEASE_TMO` acts. -/
inductive LeaseWait where
  | deferredNew
  | waitingCommit
  | heldContribution
  deriving DecidableEq, Repr

/-- Which input of the sideband an input event names (R387 to R390). -/
inductive InputPin where
  | wake
  | sync
  | tamper
  deriving DecidableEq, Repr

/-- A direction of a bridge (R14, R18): `back` runs from its upper end to its lower one. -/
structure BridgeDir where
  bridge : Nat
  back   : Bool
  deriving DecidableEq, Repr

/-- An instruction shifted into the JTAG TAP (R423). -/
inductive JtagIr where
  | idcode
  | bypass
  | other
  deriving DecidableEq, Repr

/-- What the lockstep row reports: the mismatch of a pair (R402, R398), or the uncorrectable error that a read of the SRAM of one of those cores
meets, which no row of its own reports (R398, R408). DESIGN CHOICE: log 159. -/
inductive LockPair where
  | barista (cluster : Nat)
  | mgmt
  | roast
  | baristaSram (cluster : Nat)
  | mgmtSram
  | rotSram
  deriving DecidableEq, Repr

/-- The commands (spec/opcode_table.json, one constructor per row, in the table's order). -/
inductive Instr where
  /-- BUNDLE_ISSUE (R35). -/
  | bundleIssue (c : Nat)
  /-- NOP (R38). -/
  | seqNop (t : Nat)
  /-- LOOP (R39). -/
  | loop (t : Nat) (n : BitVec 3) (l : BitVec 9)
  /-- CSET (R38). -/
  | cset (t : Nat) (n : BitVec 3) (imm : BitVec 9)
  /-- CADD (R38). -/
  | cadd (t : Nat) (n : BitVec 3) (imm : BitVec 9)
  /-- CTX (R105). -/
  | ctx (t : Nat) (k : BitVec 2)
  /-- PHASE_END (R116). -/
  | phaseEnd (t : Nat)
  /-- BLOCK (R453). -/
  | block (t : Nat) (a : BlockArgs)
  /-- STAT_RESET (R49). -/
  | statReset (t : Nat) (bank : BitVec 1)
  /-- MATRIX_NOP (R43). -/
  | matrixNop (t : Nat)
  /-- MAT_CHUNK_TAKE (R453). -/
  | matChunkTake (t : Nat)
  /-- ABFT_COMPARE (R58). -/
  | abftCompare (t : Nat)
  /-- READ_ROW (R40). -/
  | readRow (t : Nat) (port : BitVec 1) (route : BitVec 3) (row : BitVec 15)
  /-- WRITE_ROW (R160). -/
  | writeRow (t : Nat) (port : BitVec 1) (row : BitVec 15)
  /-- READ_THROUGH_GENERATOR (R163). -/
  | readThroughGenerator (t : Nat) (port : BitVec 1) (route : BitVec 3) (gen : BitVec 2)
  /-- PORT_READ_DELIVER (R40). -/
  | portReadDeliver (t : Nat)
  /-- TAKE_MS (R94). -/
  | takeMs (t : Nat)
  /-- TAKE_SS (R94). -/
  | takeSs (t : Nat)
  /-- DROP (R93). -/
  | drop (t : Nat)
  /-- SCALAR_SEND_C (R93). -/
  | scalarSendC (t : Nat) (n : BitVec 3)
  /-- SCALAR_TAKE_C (R93). -/
  | scalarTakeC (t : Nat) (n : BitVec 3)
  /-- PUT_SUM (R93). -/
  | putSum (t : Nat)
  /-- WFA (R123). -/
  | wfa (t : Nat) (n : BitVec 3)
  /-- WFA_RESULT (R123). -/
  | wfaResult (t : Nat)
  /-- SEND_SV (R93). -/
  | sendSv (t : Nat)
  /-- SEND_I (R93). -/
  | sendI (t : Nat) (imm : BitVec 5)
  /-- CONTROL_SEND_C (R93). -/
  | controlSendC (t : Nat) (n : BitVec 3)
  /-- CONTROL_TAKE_C (R93). -/
  | controlTakeC (t : Nat) (n : BitVec 3)
  /-- NET_WORD_ARRIVE (R88). -/
  | netWordArrive (t : Nat) (net : BitVec 2) (inp : BitVec 3) (w : NetWord)
  /-- STEER_TOKEN_ARRIVE (R101). -/
  | steerTokenArrive (t : Nat) (k : BitVec 2) (u : BitVec 2) (token : BitVec 8) (seq : Bool)
  /-- STEER_DATA_WORD (R101). -/
  | steerDataWord (t : Nat) (k : BitVec 2) (u : BitVec 2) (inputB : Bool) (w : NetWord)
  /-- STEER_TOKEN_EXPIRED (R101). -/
  | steerTokenExpired (t : Nat) (k : BitVec 2) (u : BitVec 2)
  /-- ADD (R142). -/
  | vecAdd (t : Nat) (a : VecArgs)
  /-- SUB (R142). -/
  | vecSub (t : Nat) (a : VecArgs)
  /-- MUL (R142). -/
  | vecMul (t : Nat) (a : VecArgs)
  /-- FMA (R142). -/
  | vecFma (t : Nat) (a : VecArgs)
  /-- MIN (R142). -/
  | vecMin (t : Nat) (a : VecArgs)
  /-- MAX (R142). -/
  | vecMax (t : Nat) (a : VecArgs)
  /-- ABS (R142). -/
  | vecAbs (t : Nat) (a : VecArgs)
  /-- SIGN (R142). -/
  | vecSign (t : Nat) (a : VecArgs)
  /-- CMP (R145). -/
  | vecCmp (t : Nat) (a : VecArgs)
  /-- SEL (R145). -/
  | vecSel (t : Nat) (a : VecArgs)
  /-- CVT (R147). -/
  | vecCvt (t : Nat) (a : VecArgs)
  /-- MLOG (R145). -/
  | vecMlog (t : Nat) (a : VecArgs)
  /-- SFU (R146). -/
  | vecSfu (t : Nat) (a : VecArgs)
  /-- RSUM (R151). -/
  | vecRsum (t : Nat) (a : VecArgs)
  /-- RMAX (R151). -/
  | vecRmax (t : Nat) (a : VecArgs)
  /-- RMIN (R151). -/
  | vecRmin (t : Nat) (a : VecArgs)
  /-- RARGMAX (R151). -/
  | vecRargmax (t : Nat) (a : VecArgs)
  /-- RARGMIN (R151). -/
  | vecRargmin (t : Nat) (a : VecArgs)
  /-- RLSE (R151). -/
  | vecRlse (t : Nat) (a : VecArgs)
  /-- RSUMSQ (R151). -/
  | vecRsumsq (t : Nat) (a : VecArgs)
  /-- RMEAN (R151). -/
  | vecRmean (t : Nat) (a : VecArgs)
  /-- SCAN (R152). -/
  | vecScan (t : Nat) (a : VecArgs)
  /-- PERM (R153). -/
  | vecPerm (t : Nat) (a : VecArgs)
  /-- TOPK (R154). -/
  | vecTopk (t : Nat) (a : VecArgs)
  /-- BSCALE (R148). -/
  | vecBscale (t : Nat) (a : VecArgs)
  /-- CENSUS (R149). -/
  | vecCensus (t : Nat) (a : VecArgs)
  /-- VECTOR_NOP (R137). -/
  | vectorNop (t : Nat)
  /-- VECTOR_INSTR_COMPLETE (R155). -/
  | vectorInstrComplete (t : Nat)
  /-- PHASE_COMPLETE (R112). -/
  | phaseComplete (c : Nat)
  /-- WALKER_SAMPLE (R113). -/
  | walkerSample (c : Nat)
  /-- BARRIER_RELEASE (R24). -/
  | barrierRelease (die : Nat) (channel : BitVec 4) (tag : BitVec 12)
  /-- PHASE_START (R115). -/
  | phaseStart (c : Nat)
  /-- GATE_TIMEOUT (R117). -/
  | gateTimeout (c : Nat)
  /-- START (R121). -/
  | start (c : Nat) (entry : BitVec 8)
  /-- STOP (R121). -/
  | stop (c : Nat)
  /-- RESUME (R121). -/
  | resume (c : Nat) (entry : BitVec 8)
  /-- CLEAR_DONE (R121). -/
  | clearDone (c : Nat)
  /-- WORK_COUNTER_AMO (R124). -/
  | workCounterAmo (c : Nat) (access : WcAccess) (n : BitVec 6) (v : BitVec 64)
  /-- ASYNC_WRITE_ARRIVE (R161). -/
  | asyncWriteArrive (at_ : Store) (w : AsyncRow)
  /-- ASYNC_WRITE_LAND (R161). -/
  | asyncWriteLand (at_ : Store) (bank : Nat)
  /-- BANK_STATE_WRITE (R170). -/
  | bankStateWrite (at_ : Store) (m : BitVec 2) (v : BitVec 64)
  /-- BANK_TRANSITION_DONE (R170). -/
  | bankTransitionDone (at_ : Store) (bank : Nat)
  /-- CARAFE_READ_RETURN (R166). -/
  | carafeReadReturn (c : Nat) (cupping : Bool) (ring : BitVec 6) (row : Nat)
  /-- OPEN (R174). -/
  | winOpen (c : Nat) (target : BitVec 5) (window : BitVec 6) (epoch : BitVec 16)
  /-- CLOSE (R174). -/
  | winClose (c : Nat) (target : BitVec 5) (window : BitVec 6)
  /-- SET_EPOCH (R174). -/
  | winSetEpoch (c : Nat) (target : BitVec 5) (window : BitVec 6) (epoch : BitVec 16)
  /-- CREDIT_CLAIM (R176). -/
  | creditClaim (c : Nat) (q : BitVec 4) (units : Nat)
  /-- RQ_RETURN (R178). -/
  | rqReturn (c : Nat) (q : BitVec 4) (v : BitVec 64)
  /-- RQ_CFG_WRITE (R175). -/
  | rqCfgWrite (c : Nat) (q : BitVec 4) (v : BitVec 64)
  /-- LEASE_RELEASE (R192). -/
  | leaseRelease (m : Msg) (d : CollData)
  /-- SHARD_COMMIT (R217). -/
  | shardCommit (tag : BitVec 12) (shard : BitVec 24)
  /-- LEASE_TIMEOUT (R194). -/
  | leaseTimeout (tag : BitVec 12) (shard : BitVec 24) (kind : LeaseWait)
  /-- LEASE_QUERY (R200). -/
  | leaseQuery (tag : BitVec 12) (shard : BitVec 24)
  /-- FORCE_RELEASE_CUR (R200). -/
  | forceReleaseCur (tag : BitVec 12) (shard : BitVec 24)
  /-- FORCE_RELEASE_RET (R200). -/
  | forceReleaseRet (tag : BitVec 12) (shard : BitVec 24)
  /-- LAYOUT_QUERY (R200). -/
  | layoutQuery (tag : BitVec 12) (entry : BitVec 4)
  /-- RUN (R202). -/
  | run (c : Nat) (shard : BitVec 24)
  /-- RUN_WAIT_END (R202). -/
  | runWaitEnd (c : Nat)
  /-- RUN_COMPLETE (R203). -/
  | runComplete (c : Nat)
  /-- UPD_ADD (R210). -/
  | updAdd (c : Nat)
  /-- UPD_SUB (R210). -/
  | updSub (c : Nat)
  /-- UPD_MUL (R210). -/
  | updMul (c : Nat)
  /-- UPD_FMA (R210). -/
  | updFma (c : Nat)
  /-- UPD_SIGN (R210). -/
  | updSign (c : Nat)
  /-- UPD_ABS (R210). -/
  | updAbs (c : Nat)
  /-- UPD_MAX (R210). -/
  | updMax (c : Nat)
  /-- UPD_MIN (R210). -/
  | updMin (c : Nat)
  /-- UPD_RSQRT (R210). -/
  | updRsqrt (c : Nat)
  /-- UPD_SEL (R210). -/
  | updSel (c : Nat)
  /-- UPD_CVT (R210). -/
  | updCvt (c : Nat)
  /-- RENORM (R210). -/
  | renorm (c : Nat)
  /-- STEP_SUMMARY (R217). -/
  | stepSummary (tag : BitVec 12) (r : StepRecord)
  /-- CLEAN_INTERVAL_END (R215). -/
  | cleanIntervalEnd (tag : BitVec 12) (step : BitVec 48)
  /-- ROAST_QUERY (R220). -/
  | roastQuery (tag : BitVec 12) (step : BitVec 48)
  /-- CUPPING_COMPARE (R228). -/
  | cuppingCompare (c : Nat)
  /-- CUP_HSEL_WRITE (R238). -/
  | cupHselWrite (c : Nat) (v : BitVec 64)
  /-- CENSUS_EVENT (R231). -/
  | censusEvent (tag : BitVec 12) (ctag : BitVec 12) (n : CensusCounts)
  /-- SNAP_CLEAR (R231). -/
  | snapClear (tag : BitVec 12) (ctag : BitVec 12)
  /-- SNAP_CLEAR_JOB (R239). -/
  | snapClearJob (tag : BitVec 12)
  /-- CEN_QUERY (R239). -/
  | cenQuery (tag : BitVec 12) (snap : Bool) (ctag : BitVec 12)
  /-- LOSS_IN (R233). -/
  | lossIn (v : BitVec 64)
  /-- PQ_DOORBELL (R243). -/
  | pqDoorbell (hub : Nat) (q : BitVec 6) (row : BitVec 18)
  /-- FWD (R245). -/
  | fwd (hub : Nat) (q : BitVec 6)
  /-- BWD (R252). -/
  | bwd (hub : Nat) (q : BitVec 6)
  /-- RETURN (R249). -/
  | pourReturn (hub : Nat) (q : BitVec 6)
  /-- POUR_CLAIM_RETRY (R247). -/
  | pourClaimRetry (hub : Nat) (q : BitVec 6)
  /-- POUR_TIMEOUT (R253). -/
  | pourTimeout (hub : Nat) (q : BitVec 6)
  /-- POUR_RESUME (R255). -/
  | pourResume (hub : Nat) (q : BitVec 6)
  /-- READ_WALK (R262). -/
  | readWalk (c : Nat) (ring : BitVec 6)
  /-- APPEND_WALK (R263). -/
  | appendWalk (c : Nat) (ring : BitVec 6)
  /-- WALK_ENTRY_START (R267). -/
  | walkEntryStart (c : Nat) (ring : BitVec 6)
  /-- APPEND_END (R265). -/
  | appendEnd (c : Nat) (ring : BitVec 6)
  /-- KV_RING_QUERY (R273). -/
  | kvRingQuery (tag : BitVec 12)
  /-- MAP (R278). -/
  | tierMap (tag : BitVec 12) (addr : BitVec 48) (sz : BitVec 4) (hint : BitVec 3)
  /-- MAP_FILL_DONE (R278). -/
  | mapFillDone (addr : BitVec 48)
  /-- UNMAP (R278). -/
  | tierUnmap (tag : BitVec 12) (addr : BitVec 48)
  /-- HINT (R278). -/
  | tierHint (tag : BitVec 12) (addr : BitVec 48) (hint : BitVec 3)
  /-- PROMOTE (R281). -/
  | promote (tag : BitVec 12) (addr : BitVec 48)
  /-- TIER_RELEASE (R281). -/
  | tierRelease (tag : BitVec 12) (addr : BitVec 48)
  /-- EVICT (R281). -/
  | evict (tag : BitVec 12) (addr : BitVec 48)
  /-- MOVE_COMMIT (R284). -/
  | moveCommit (addr : BitVec 48)
  /-- TIER_AGE (R283). -/
  | tierAge
  /-- TIER_PROMOTE_TMO (R280). -/
  | tierPromoteTmo (c : Nat) (ring : BitVec 6)
  /-- HOLD_RETRY (R281). -/
  | holdRetry (c : Nat) (ring : BitVec 6)
  /-- TIER_QUERY (R300). -/
  | tierQuery (addr : BitVec 48)
  /-- DMA_DOORBELL (R289). -/
  | dmaDoorbell (c : Nat) (ring : BitVec 6) (count : BitVec 16)
  /-- DMA_DESC_DATA (R289). -/
  | dmaDescData (c : Nat) (v : BitVec 64)
  /-- DMA_RESUME (R298). -/
  | dmaResume (c : Nat) (ring : BitVec 6)
  /-- SKIP (R298). -/
  | dmaSkip (c : Nat) (ring : BitVec 6)
  /-- ABORT (R298). -/
  | dmaAbort (c : Nat) (ring : BitVec 6)
  /-- DMA_RING_CFG_WRITE (R288). -/
  | dmaRingCfgWrite (c : Nat) (ring : BitVec 6) (v : BitVec 64)
  /-- COPY (R292). -/
  | copy (c : Nat) (ring : BitVec 6)
  /-- CURVE (R294). -/
  | curve (c : Nat) (ring : BitVec 6)
  /-- COMPLETE (R295). -/
  | complete (c : Nat) (ring : BitVec 6)
  /-- FENCE (R296). -/
  | fence (c : Nat) (ring : BitVec 6)
  /-- DESC_COMPLETE (R297). -/
  | descComplete (c : Nat) (ring : BitVec 6)
  /-- DMA_WAIT_TMO (R298). -/
  | dmaWaitTmo (c : Nat) (ring : BitVec 6)
  /-- DMA_CLAIM_RETRY (R292). -/
  | dmaClaimRetry (c : Nat) (ring : BitVec 6)
  /-- REDUCE_SCATTER (R324). -/
  | reduceScatter (c : Nat) (ring : BitVec 6)
  /-- ALL_GATHER (R322). -/
  | allGather (c : Nat) (ring : BitVec 6)
  /-- ALL_REDUCE (R322). -/
  | allReduce (c : Nat) (ring : BitVec 6)
  /-- ALL_TO_ALL (R322). -/
  | allToAll (c : Nat) (ring : BitVec 6)
  /-- VOTE (R328). -/
  | vote (c : Nat) (ring : BitVec 6)
  /-- COLL_RELEASE (R329). -/
  | collRelease (c : Nat) (ring : BitVec 6)
  /-- COLL_CLOSE (R330). -/
  | collClose (c : Nat) (ring : BitVec 6)
  /-- COLL_READY (R323). -/
  | collReady (m : Msg) (d : CollData)
  /-- COLL_READY_TIMEOUT (R323). -/
  | collReadyTimeout (tag : BitVec 12) (group : Nat) (collId : Nat)
  /-- COLL_DONE (R331). -/
  | collDone (m : Msg) (d : CollData)
  /-- COLL_FINISH (R331). -/
  | collFinish (m : Msg) (d : CollData)
  /-- COLL_ABORT (R331). -/
  | collAbort (m : Msg) (d : CollData)
  /-- LASER_FAIL (R15). -/
  | laserFail (ls : BitVec 1) (channel : Option (BitVec 3))
  /-- FLIT_RECEIVE (R303). -/
  | flitReceive (port : BitVec 4) (flit : BitVec 2048)
  /-- LOSS_OF_LIGHT (R304). -/
  | lossOfLight (port : BitVec 4)
  /-- ACK_STALL (R304). -/
  | ackStall (port : BitVec 4)
  /-- PORT_RETRAIN (R304). -/
  | portRetrain (port : BitVec 4)
  /-- PORT_TRAINING_DONE (R305). -/
  | portTrainingDone (port : BitVec 4) (peer : BitVec 16) (peerPort : BitVec 4)
  /-- BRIDGE_WORD_RECEIVE (R18). -/
  | bridgeWordReceive (bridge : BridgeDir) (crcOk : Bool) (word : Nat)
  /-- WRITE (R312). -/
  | fabWrite (m : Msg)
  /-- SEND (R177). -/
  | fabSend (m : Msg)
  /-- READ_REQ (R314). -/
  | readReq (m : Msg)
  /-- FADD (R314). -/
  | fadd (m : Msg)
  /-- CSWAP (R314). -/
  | cswap (m : Msg)
  /-- COLL (R324). -/
  | coll (m : Msg) (d : CollData)
  /-- READ_RESP (R314). -/
  | readResp (m : Msg)
  /-- ATOMIC_RESP (R314). -/
  | atomicResp (m : Msg)
  /-- ACK (R316). -/
  | ack (m : Msg)
  /-- NAK (R316). -/
  | nak (m : Msg)
  /-- NOT_READY (R332). -/
  | notReady (m : Msg)
  /-- GAP (R317). -/
  | gap (m : Msg)
  /-- RESYNC (R317). -/
  | resync (m : Msg)
  /-- RESYNC_RESP_READY (R317). -/
  | resyncRespReady (src : BitVec 16) (shub : BitVec 1) (cls : BitVec 2)
  /-- RESYNC_RESP (R317). -/
  | resyncResp (m : Msg)
  /-- FAB_ACK_TMO (R317). -/
  | fabAckTmo (hub : BitVec 1) (dst : BitVec 16) (cls : BitVec 2)
  /-- RESYNC_TIMEOUT (R318). -/
  | resyncTimeout (hub : BitVec 1) (dst : BitVec 16) (cls : BitVec 2)
  /-- NR_RETRY (R332). -/
  | nrRetry (hub : BitVec 1) (dst : BitVec 16) (cls : BitVec 2)
  /-- FAB_NR_TMO (R332). -/
  | fabNrTmo (hub : BitVec 1) (dst : BitVec 16) (cls : BitVec 2)
  /-- APPLY (R306). -/
  | apply
  /-- FAB_PAIR_QUERY (R333). -/
  | fabPairQuery (v : BitVec 64)
  /-- FAB_AMO_GO (R314). -/
  | fabAmoGo (c : Nat)
  /-- HOST_FRAME (R334). -/
  | hostFrame (port : BitVec 2) (f : Frame)
  /-- HOST_LINK_CHANGE (R347). -/
  | hostLinkChange (port : BitVec 2) (up : Bool)
  /-- RC_SEND (R343). -/
  | rcSend (p : Packet)
  /-- RDMA_WRITE (R341). -/
  | rdmaWrite (p : Packet)
  /-- RDMA_READ (R341). -/
  | rdmaRead (p : Packet)
  /-- COMPARE_SWAP (R341). -/
  | compareSwap (p : Packet)
  /-- FETCH_ADD (R341). -/
  | fetchAdd (p : Packet)
  /-- REQ (R339). -/
  | cmReq (port : MadPort) (service : BitVec 64) (gid : BitVec 128) (qpn : BitVec 24) (psn : BitVec 24)
  /-- RTU (R339). -/
  | cmRtu (port : BitVec 2)
  /-- DREQ (R339). -/
  | cmDreq (port : MadPort) (gid : BitVec 128) (qpn : BitVec 24)
  /-- CNP (R346). -/
  | cnp (q : BitVec 12)
  /-- CNP_RATE_TIMER (R346). -/
  | cnpRateTimer (q : BitVec 12)
  /-- QP_CTX_WRITE (R337). -/
  | qpCtxWrite (q : BitVec 12) (off : BitVec 12) (v : BitVec 64)
  /-- QP_RQ_RETURN (R343). -/
  | qpRqReturn (q : BitVec 12) (n : BitVec 32)
  /-- STAGE (R363). -/
  | stage (tag : BitVec 12)
  /-- BIND (R367). -/
  | bind (tag : BitVec 12)
  /-- ATTACH (R367). -/
  | attach (tag : BitVec 12)
  /-- DETACH (R368). -/
  | detach (tag : BitVec 12)
  /-- KILL (R368). -/
  | kill (tag : BitVec 12)
  /-- QUIESCE_END (R369). -/
  | quiesceEnd (tag : BitVec 12)
  /-- QUIESCE_TMO (R369). -/
  | quiesceTmo (tag : BitVec 12)
  /-- CLUSTER_RINSE_DONE (R371). -/
  | clusterRinseDone (c : Nat)
  /-- FRAME_RINSE_DONE (R371). -/
  | frameRinseDone (tag : BitVec 12) (frame : Nat)
  /-- SOFT_RESET (R355). -/
  | softReset (page : BitVec 14)
  /-- ERR_STATUS_CLEAR (R356). -/
  | errStatusClear (page : BitVec 14) (v : BitVec 64)
  /-- ERR_INJECT (R410). -/
  | errInject (page : BitVec 14) (v : BitVec 64)
  /-- BLK_LOCK (R5). -/
  | blkLock (page : BitVec 14)
  /-- CTR_SNAP (R357). -/
  | ctrSnap (page : BitVec 14) (hold : Bool)
  /-- REGISTER_WRITE (R5). -/
  | registerWrite (m : Master) (addr : BitVec 26) (v : BitVec 64)
  /-- ACTIVE (R380). -/
  | pwrActive
  /-- LISTEN (R380). -/
  | pwrListen
  /-- STANDBY (R380). -/
  | pwrStandby
  /-- POWER_MOVE_DONE (R380). -/
  | powerMoveDone
  /-- QUARTER_POWER_ON (R375). -/
  | quarterPowerOn
  /-- WAKE (R381). -/
  | wake
  /-- SYNC (R391). -/
  | sync
  /-- TAMPER (R425). -/
  | tamper
  /-- RESET_ASSERT (R390). -/
  | resetAssert
  /-- RESET_RELEASE (R392). -/
  | resetRelease
  /-- INPUT_STUCK (R389). -/
  | inputStuck (pin : InputPin)
  /-- REARM (R389). -/
  | rearm (pin : InputPin)
  /-- SYNC_OUT_CMD (R391). -/
  | syncOutCmd
  /-- PLL_LOCK (R377). -/
  | pllLock (domain : Nat)
  /-- PWR_EN_ASSERT (R435). -/
  | pwrEnAssert
  /-- PWR_EN_DEASSERT (R436). -/
  | pwrEnDeassert
  /-- VIN_FAULT (R434). -/
  | vinFault (high : Bool)
  /-- VIN_COLLAPSE (R434). -/
  | vinCollapse
  /-- CLOCK_MON (R404). -/
  | clockMon (domain : Nat) (count : Nat)
  /-- VOLT_MON (R405). -/
  | voltMon (page : BitVec 14) (deviation : Int)
  /-- THERM_SAMPLE (R406). -/
  | thermSample (temps : List Int)
  /-- BRIDGE_FAIL (R407). -/
  | bridgeFail (bridge : Nat)
  /-- BRIDGE_RETRAIN (R407). -/
  | bridgeRetrain (bridge : Nat) (passed : Bool)
  /-- SELFTEST_SLICE (R403). -/
  | selftestSlice (t : Nat) (differs : Bool)
  /-- SELFTEST_STARVE (R403). -/
  | selftestStarve (t : Nat)
  /-- LOCKSTEP_MISMATCH (R402). -/
  | lockstepMismatch (pair : LockPair)
  /-- MGMT_RELOAD_DONE (R402). -/
  | mgmtReloadDone
  /-- GET_NONCE (R419). -/
  | getNonce (m : Master)
  /-- GET_CERT (R419). -/
  | getCert (m : Master)
  /-- QUOTE (R418). -/
  | quote (m : Master)
  /-- EXTEND (R417). -/
  | extend (m : Master)
  /-- COMMIT_SVN (R416). -/
  | commitSvn (m : Master)
  /-- GET_LOG (R419). -/
  | getLog (m : Master)
  /-- POLICY_UPDATE (R421). -/
  | policyUpdate (m : Master)
  /-- POLICY_TAKE_EFFECT (R421). -/
  | policyTakeEffect
  /-- DEBUG_UNLOCK (R424). -/
  | debugUnlock (m : Master)
  /-- ALARM_CLEAR (R427). -/
  | alarmClear (m : Master)
  /-- INJECT (R428). -/
  | inject (m : Master)
  /-- GLITCH (R425). -/
  | glitch (rail : Bool)
  /-- JTAG_INSTRUCTION (R423). -/
  | jtagInstruction (ir : JtagIr)
  /-- DRBG_RESEED (R412). -/
  | drbgReseed
  /-- I3C_PRIVATE_WRITE (R441). -/
  | i3cPrivateWrite (w : I3cWrite)
  /-- I3C_PRIVATE_READ (R441). -/
  | i3cPrivateRead (r : I3cRead)
  /-- BRING_UP_STEP_END (R392). -/
  | bringUpStepEnd (step : Nat) (unit : Nat) (passed : Bool)
  /-- INPUT_DEASSERT (R389). -/
  | inputDeassert (pin : InputPin)
  /-- SYNC_OUT_PULSE_END (R391). -/
  | syncOutPulseEnd
  /-- PFC_PAUSE_END (R345). -/
  | pfcPauseEnd (port : BitVec 2) (cls : BitVec 3)
  /-- INPUT_POWER_RETURN (R433). -/
  | inputPowerReturn
  deriving DecidableEq, Repr

end Sys2Proof
end

