-- ==== Sys2Proof/Config.lean ====
section
/-! DEFINITION. The free values: what the spec leaves open. Each is a constant without a body, so no proof can see what it is. -/

namespace Sys2Proof.Config

/-- Free value number n: a value that the spec does not give (State.free numbers the draws; DESIGN CHOICE, log 1). -/
opaque freeValue : Nat → BitVec 64

/-- Byte i of the n-th request to the DRBG of the root of trust (R412; DESIGN CHOICE, log 2). -/
opaque drbgByte : Nat → Nat → BitVec 8

/-- The unique device secret that the SRAM PUF gives with helper data (R412; DESIGN CHOICE, log 3). -/
opaque puf : List (BitVec 8) → BitVec 256

/-- The bytes that the KDF authenticates for its inputs: counter, label, context and length (R412; DESIGN CHOICE, log 3). -/
opaque kdfInput : List (List (BitVec 8)) → List (BitVec 8)

/-- The private number of P-384 that 384 derived bits give (R412; DESIGN CHOICE, log 3). -/
opaque keyScalar : BitVec 384 → Nat

/-- The secret number that a signature of a private key over a digest uses (R418; DESIGN CHOICE, log 3). -/
opaque signNonce : Nat → List (BitVec 8) → Nat

/-- The DeviceID certificate of a part whose MRAM lists none (R412, R419; DESIGN CHOICE, log 3). -/
opaque deviceCert : List (BitVec 8)

/-- What an alias certificate signs: its fields with the alias public key, PCR1 and PCR3 (R412; DESIGN CHOICE, log 3). -/
opaque certFields : List (BitVec 8) → List (BitVec 8) → List (BitVec 8) → List (BitVec 8)

/-- The bytes of a certificate with those fields and a signature (R412; DESIGN CHOICE, log 3). -/
opaque certBytes : List (BitVec 8) → List (BitVec 8) → List (BitVec 8)

/-- The frame from which the tier manager's search for free frames starts, by tier, stack or controller, and page (R283; DESIGN CHOICE, log 4). -/
opaque frameHint : Nat → Nat → Nat

/-- The events that merge at the crossings of clock domain k in cycle n (R386; DESIGN CHOICE, log 107). -/
opaque merges : Nat → Nat → Nat

/-- The telemetry reading of I3C register r at AON time n (R441; DESIGN CHOICE, log 5). -/
opaque telemetry : Nat → Nat → BitVec 16

/-- TERM of `STALL_FIRST` of cluster c where the first stall cycle, n, finds no unmet term (R114; DESIGN CHOICE, log 120). -/
opaque stallTerm : Nat → Nat → BitVec 2

/-- The FP32 result of special function f at an FP32 operand where 600 bits of the exact value do not decide the rounding; no such
operand is known (R146; DESIGN CHOICE, log 8). -/
opaque hardCase : Nat → BitVec 64 → BitVec 64

/-- The four parity bytes, lowest first, of the 124 data bytes of an RS(128,124) codeword; the polynomials of its field and of the code are
not given (R302; DESIGN CHOICE, log 17). -/
opaque rsParity : List (BitVec 8) → BitVec 32

/-- How many credits beyond the first a receiver grants VC v of port p when training ends (R303, R308; DESIGN CHOICE, log 142). -/
opaque moreCredits : Nat → Nat → Nat

/-- The firmware-key hash in the boot ROM, 48 bytes (R415; DESIGN CHOICE, log 3). -/
opaque fwKeyHash : List (BitVec 8)

end Sys2Proof.Config
end

