-- ==== Sys2Proof/Machine/Table.lean ====
section
/-! DEFINITION. Tables and byte stores in canonical form: (key, value) pairs with keys strictly rising and no pair whose value is
the default of its key. Everything that reads or writes a table goes through these functions. -/

namespace Sys2Proof.Machine

/-- The value of key k, `d` where none is listed. -/
def tblGet {α : Type} (d : α) : Tbl α → Nat → α
  | [], _ => d
  | (j, v) :: r, k => if k < j then d else if j = k then v else tblGet d r k

/-- The table without key k. -/
def tblDel {α : Type} : Tbl α → Nat → Tbl α
  | [], _ => []
  | (j, v) :: r, k => if k < j then (j, v) :: r else if j = k then r else (j, v) :: tblDel r k

/-- The table with (k, v) listed, whatever v is. -/
def tblIns {α : Type} : Tbl α → Nat → α → Tbl α
  | [], k, v => [(k, v)]
  | (j, w) :: r, k, v =>
    if k < j then (k, v) :: (j, w) :: r else if j = k then (k, v) :: r else (j, w) :: tblIns r k v

/-- Writes v to key k: the pair is listed only where v is not the default. -/
def tblSet {α : Type} [DecidableEq α] (d : α) (t : Tbl α) (k : Nat) (v : α) : Tbl α :=
  if v = d then tblDel t k else tblIns t k v

/-- The keys strictly rise and no listed value is the default `d` of its key. -/
def tblWf {α : Type} [DecidableEq α] (d : Nat → α) : Tbl α → Bool
  | [] => true
  | (k, v) :: r => decide (v ≠ d k) && (r.all (fun p => decide (k < p.1)) && tblWf d r)

/-- The value of key k in a table whose absent keys have no value. -/
def tblFind {α : Type} : Tbl α → Nat → Option α
  | [], _ => none
  | (j, v) :: r, k => if k < j then none else if j = k then some v else tblFind r k

/-- The keys of a table, in rising order. -/
def tblKeys {α : Type} (t : Tbl α) : List Nat := t.map (·.1)

/-- The table with only the pairs whose key satisfies p. -/
def tblKeep {α : Type} (p : Nat → Bool) (t : Tbl α) : Tbl α := t.filter (fun q => p q.1)

/-- The byte at an address of a byte store; an unlisted byte reads zero. -/
def memGet (m : Tbl Byte) (a : Nat) : Byte := tblGet 0 m a

/-- Writes one byte. -/
def memSet (m : Tbl Byte) (a : Nat) (b : Byte) : Tbl Byte := tblSet 0 m a b

/-- The n bytes from address a, lowest first. -/
def memRead (m : Tbl Byte) (a : Nat) : Nat → List Byte
  | 0 => []
  | n + 1 => memGet m a :: memRead m (a + 1) n

/-- Writes a list of bytes from address a on. -/
def memWrite (m : Tbl Byte) (a : Nat) : List Byte → Tbl Byte
  | [] => m
  | b :: r => memWrite (memSet m a b) (a + 1) r

/-- Zeroes the n bytes from address a (unlisted bytes read zero). -/
def memZero (m : Tbl Byte) (a n : Nat) : Tbl Byte := tblKeep (fun k => decide (k < a) || decide (a + n ≤ k)) m

/-- The little-endian number of a list of bytes (R4). -/
def leNat : List Byte → Nat
  | [] => 0
  | b :: r => b.toNat + 256 * leNat r

/-- The n little-endian bytes of a number (R4). -/
def leBytes : Nat → Nat → List Byte
  | 0, _ => []
  | n + 1, v => BitVec.ofNat 8 v :: leBytes n (v / 256)

/-- The n bytes from address a as a little-endian number. -/
def memNat (m : Tbl Byte) (a n : Nat) : Nat := leNat (memRead m a n)

/-- Writes a number as n little-endian bytes. -/
def memSetNat (m : Tbl Byte) (a n v : Nat) : Tbl Byte := memWrite m a (leBytes n v)

/-- Bits hi to lo of a number. -/
def fld (v hi lo : Nat) : Nat := v / 2 ^ lo % 2 ^ (hi + 1 - lo)

/-- Bit i of a number. -/
def bit (v i : Nat) : Bool := v / 2 ^ i % 2 == 1

/-- A number with bits hi to lo replaced by those of x. -/
def putFld (v hi lo x : Nat) : Nat :=
  v / 2 ^ (hi + 1) * 2 ^ (hi + 1) + x % 2 ^ (hi + 1 - lo) * 2 ^ lo + v % 2 ^ lo

/-- Bits hi to lo of a register. -/
def wfld (w : Word) (hi lo : Nat) : Nat := fld w.toNat hi lo

/-- Bit i of a register. -/
def wbit (w : Word) (i : Nat) : Bool := w.getLsbD i

/-- A register with bits hi to lo replaced. -/
def wput (w : Word) (hi lo x : Nat) : Word := BitVec.ofNat 64 (putFld w.toNat hi lo x)

/-- 1 for true. -/
def b2n (b : Bool) : Nat := if b then 1 else 0

/-- The two's complement value of the low w bits of v. -/
def sext (w v : Nat) : Int :=
  let x := v % 2 ^ w
  if w = 0 then 0 else if 2 ^ (w - 1) ≤ x then (x : Int) - 2 ^ w else x

/-- The low w bits of an integer, as a natural number. -/
def wrapInt (w : Nat) (v : Int) : Nat := (v % (2 ^ w : Int)).toNat

/-- Rounding a quotient up. -/
def ceilDiv (a b : Nat) : Nat := (a + b - 1) / b

/-- floor(log2 n), 0 for n = 0. -/
def ilog2 (n : Nat) : Nat := Nat.log2 n

/-- List element with a default. -/
def nth {α : Type} (d : α) (l : List α) (i : Nat) : α := l.getD i d

/-- Replaces element i of a list. -/
def listSet {α : Type} (l : List α) (i : Nat) (v : α) : List α := l.set i v

/-- Cuts a list into pieces of n elements (n > 0); `fuel` bounds the pieces. -/
def chunksOf {α : Type} (n : Nat) : Nat → List α → List (List α)
  | 0, _ => []
  | f + 1, l => if l.isEmpty then [] else l.take n :: chunksOf n f (l.drop n)

/-- Applies a state change once per element, in order. -/
def forAll {α σ : Type} (l : List α) (s : σ) (f : α → σ → σ) : σ := l.foldl (fun a x => f x a) s

end Sys2Proof.Machine
end

