-- ==== Sys2Proof/Machine/Codes.lean ====
section
/-! DEFINITION. Check codes and digests: CRC-32 (R206, R256) and SHA-384 (R412). -/

namespace Sys2Proof.Machine

/-- One byte into a reflected CRC-32. -/
def crc32Byte (c : Nat) (b : Byte) : Nat :=
  (List.range 8).foldl (fun x _ => if x % 2 = 1 then Nat.xor (x / 2) 0xEDB8_8320 else x / 2) (Nat.xor c b.toNat)
/-- CRC-32: IEEE 802.3 polynomial, reflected, initial value and final XOR 0xFFFF_FFFF. -/
def crc32 (l : List Byte) : Nat := Nat.xor (l.foldl crc32Byte 0xFFFF_FFFF) 0xFFFF_FFFF

/-! ### SHA-384 -/

/-- The big-endian number of bytes. -/
def beNat (l : List Byte) : Nat := leNat l.reverse
/-- The n big-endian bytes of a number. -/
def beBytes (n v : Nat) : List Byte := (leBytes n v).reverse

/-- The largest number whose k-th power does not exceed n, found bit by bit from bit `top` down. -/
def rootDown (k n : Nat) : Nat → Nat → Nat
  | 0, r => r
  | top + 1, r => rootDown k n top (if (r + 2 ^ top) ^ k ≤ n then r + 2 ^ top else r)
/-- The first 64 bits of the fractional part of the k-th root of p. -/
def rootBits (k p : Nat) : BitVec 64 := BitVec.ofNat 64 (rootDown k (p * 2 ^ (64 * k)) 72 0)
/-- The primes below a bound, in order. -/
def primesBelow (n : Nat) : List Nat := (List.range n).filter (fun p => decide (2 ≤ p) && (List.range p).all (fun d => decide (d < 2) || p % d != 0))
/-- The constants of the eighty rounds: cube roots of the first eighty primes. -/
def roundConstants : List (BitVec 64) := (primesBelow 410).map (rootBits 3)

/-- The exclusive or of a word rotated right by each amount of a list. -/
def spin (x : BitVec 64) (l : List Nat) : BitVec 64 := l.foldl (fun acc n => acc ^^^ x.rotateRight n) 0

/-- The digest while a block is taken in: the last sixteen schedule words, and the last four values of each of the two word sequences that
the rounds make; of each the newest stands first. -/
structure Digest where
  sched : List (BitVec 64)
  head  : List (BitVec 64)
  tail  : List (BitVec 64)

/-- Element i of a word list. -/
def wordAt (l : List (BitVec 64)) (i : Nat) : BitVec 64 := l.getD i 0
/-- The schedule word that follows sixteen others. -/
def schedNext (w : List (BitVec 64)) : BitVec 64 :=
  let near := wordAt w 1
  let far := wordAt w 14
  wordAt w 15 + (spin far [1, 8] ^^^ far >>> 7) + wordAt w 6 + (spin near [19, 61] ^^^ near >>> 6)
/-- A round: it takes the oldest schedule word in. -/
def Digest.round (s : Digest) (k : BitVec 64) : Digest :=
  let e := wordAt s.tail 0
  let a := wordAt s.head 0
  let pick := wordAt s.tail 2 ^^^ (e &&& (wordAt s.tail 1 ^^^ wordAt s.tail 2))
  let most := (a &&& (wordAt s.head 1 ||| wordAt s.head 2)) ||| (wordAt s.head 1 &&& wordAt s.head 2)
  let sum := wordAt s.tail 3 + spin e [14, 18, 41] + pick + k + wordAt s.sched 15
  { sched := schedNext s.sched :: s.sched.take 15
    head := (sum + spin a [28, 34, 39] + most) :: s.head.take 3
    tail := (wordAt s.head 3 + sum) :: s.tail.take 3 }
/-- A 128-byte block changes the eight words of a hash. -/
def hashBlock (h : List (BitVec 64)) (blk : List Byte) : List (BitVec 64) :=
  let words := (chunksOf 8 16 blk).map (fun b => BitVec.ofNat 64 (beNat b))
  let d := roundConstants.foldl Digest.round { sched := words.reverse, head := h.take 4, tail := h.drop 4 }
  List.zipWith (· + ·) h (d.head ++ d.tail)
/-- What SHA-384 appends to a message of n bytes: a one bit, zeroes up to 16 bytes short of a block, and the length in bits. -/
def hashTail (n : Nat) : List Byte := 0x80 :: (List.replicate ((111 + 128 - n % 128) % 128) 0 ++ beBytes 16 (8 * n))
/-- The SHA-384 digest of bytes: 48 bytes. Its initial hash comes from the square roots of the ninth to the sixteenth prime. -/
def sha384 (m : List Byte) : List Byte :=
  let msg := m ++ hashTail m.length
  let h := (chunksOf 128 (msg.length / 128) msg).foldl hashBlock (((primesBelow 54).drop 8).map (rootBits 2))
  ((h.take 6).map (fun x => beBytes 8 x.toNat)).flatten

end Sys2Proof.Machine
end

