-- ==== Sys2Proof/Machine/Ecdsa.lean ====
section
/-! DEFINITION. The key engines of the root of trust (R412, R415, R418, R421): HMAC and key derivation with SHA-384, and ECDSA over the curve
P-384. The spec names the standards; the constants and steps here are theirs (PRESUMED, log 171). -/

namespace Sys2Proof.Machine

/-! ### HMAC and key derivation -/

/-- HMAC with SHA-384, for a key of at most 128 bytes. -/
def hmac384 (key m : List Byte) : List Byte :=
  let k := key ++ List.replicate (128 - key.length) 0
  let inner := sha384 (k.map (· ^^^ 0x36) ++ m)
  sha384 (k.map (· ^^^ 0x5C) ++ inner)
/-- The KDF of NIST SP 800-108 in counter mode: one iteration gives the 384 bits of every derived key. The layout of its input is the
opaque `Config.kdfInput`. -/
def kdf (key : List Byte) (parts : List (List Byte)) : BitVec 384 := BitVec.ofNat 384 (beNat (hmac384 key (Config.kdfInput parts)))

/-! ### The curve P-384 -/

/-- The prime of the field. -/
def curveP : Nat := 2 ^ 384 - 2 ^ 128 - 2 ^ 96 + 2 ^ 32 - 1
/-- The order of the base point. -/
def curveN : Nat := 0xFFFFFFFFFFFFFFFFFFFFFFFFFFFFFFFFFFFFFFFFFFFFFFFFC7634D81F4372DDF581A0DB248B0A77AECEC196ACCC52973
/-- The constant term of the curve y² = x³ - 3x + b. -/
def curveB : Nat := 0xB3312FA7E23EE7E4988E056BE3F82D19181D9C6EFE8141120314088F5013875AC656398D8A2ED19D2A85C8EDD3EC2AEF
/-- A point of the curve; none is the neutral element. -/
abbrev Point := Option (Nat × Nat)
/-- The base point. -/
def curveG : Point :=
  some (0xAA87CA22BE8B05378EB1C71EF320AD746E1D3B628BA79B9859F741E082542A385502F25DBF55296C3A545E3872760AB7,
    0x3617DE4A96262C6F5D9E98BF9292DC29F8F41DBD289A147CE9DA3113B5F0B8C00A60B1CE1D7E819D7A431D7C90EA0E5F)

/-- b to the power of the low k bits of e, modulo m. -/
def powMod (m b e : Nat) : Nat → Nat
  | 0 => 1
  | k + 1 =>
    let h := powMod m b (e / 2) k
    if e % 2 = 1 then h * h % m * b % m else h * h % m
/-- The inverse of a number that a prime m does not divide. -/
def invMod (m a : Nat) : Nat := powMod m (a % m) (m - 2) 384
/-- a - b modulo the field's prime. -/
def subP (a b : Nat) : Nat := (a + curveP - b % curveP) % curveP
/-- The point on the line of slope l through (x, y) and a point with coordinate x', mirrored. -/
def pointOn (l x y x' : Nat) : Point :=
  let u := subP (subP (l * l) x) x'
  some (u, subP (l * subP x u) y)
/-- The sum of two points. -/
def pointAdd (a b : Point) : Point :=
  match a, b with
  | none, _ => b
  | _, none => a
  | some (x, y), some (x', y') =>
    if x ≠ x' then pointOn (subP y' y * invMod curveP (subP x' x) % curveP) x y x'
    else if (y + y') % curveP = 0 then none
    else pointOn (subP (3 * x * x) 3 * invMod curveP (2 * y) % curveP) x y x'
/-- The multiple of a point by the low k bits of e. -/
def pointMul (a : Point) (e : Nat) : Nat → Point
  | 0 => none
  | k + 1 =>
    let h := pointMul a (e / 2) k
    let d := pointAdd h h
    if e % 2 = 1 then pointAdd d a else d

/-! ### Keys and signatures -/

/-- The two 48-byte numbers of a public key or signature, little-endian as the header of R414 is (DEDUCED, log 172). -/
def keyPair (l : List Byte) : Nat × Nat := (leNat (l.take 48), leNat ((l.drop 48).take 48))
/-- The point of a public key; none where it is not on the curve. -/
def keyPoint (l : List Byte) : Point :=
  let q := keyPair l
  if q.1 < curveP ∧ q.2 < curveP ∧ q.2 * q.2 % curveP = (subP (q.1 * q.1 * q.1) (3 * q.1) + curveB) % curveP then some q else none
/-- The public key of a private one. -/
def publicKey (d : Nat) : List Byte :=
  let q := (pointMul curveG d 384).getD (0, 0)
  leBytes 48 q.1 ++ leBytes 48 q.2
/-- The number of a digest. -/
def digestNat (m : List Byte) : Nat := beNat m
/-- Whether an ECDSA signature over a digest is that of a public key. -/
def ecdsaVerify (pub digest sig : List Byte) : Bool :=
  let q := keyPair sig
  let w := invMod curveN q.2
  let sum := pointAdd (pointMul curveG (digestNat digest * w % curveN) 384) (pointMul (keyPoint pub) (q.1 * w % curveN) 384)
  pub.length == 96 && sig.length == 96 && decide (0 < q.1) && decide (q.1 < curveN) && decide (0 < q.2) && decide (q.2 < curveN)
    && (keyPoint pub).isSome && (match sum with
      | some x => x.1 % curveN == q.1
      | none => false)
/-- The ECDSA signature of a private key over a digest: 96 bytes. Its secret number is the opaque `Config.signNonce`. -/
def ecdsaSign (d : Nat) (digest : List Byte) : List Byte :=
  let k := Config.signNonce d digest
  let r := ((pointMul curveG k 384).getD (0, 0)).1 % curveN
  leBytes 48 r ++ leBytes 48 (invMod curveN k * (digestNat digest + r * d) % curveN)
/-- The private key that a derived key gives. -/
def privateKey (k : BitVec 384) : Nat := Config.keyScalar k

end Sys2Proof.Machine
end

