-- ==== Sys2Proof/Machine/RegMap.lean ====
section
/-! DEFINITION. Control space: the page map of R351, the common header of R353 and R354, and every register table of the
chapters as rows of offset, access code (R5), reset value (R7) and writable bits (R8). -/

namespace Sys2Proof.Machine

/-- The access codes of R5. -/
inductive Access where
  | ro
  | rw
  | w1c
  | w1s
  | wo
  | rwl
  deriving DecidableEq, Repr

/-- The kinds of page of R351. -/
inductive PageType where
  | device | mailbox | mgmt | install | roast | host | hostPort | fabric | fabPort | optGroup | laser | bulk | pour | coll
  | lease | update | numerics | kv | tier | spine | cluster | dma | carafe | carWin | phase | tile
  deriving DecidableEq, Repr

/-- One row of a register table: `n` registers from `off`, `stride` bytes apart. `mask` holds the bits a write can change. -/
structure RegRow where
  off    : Nat
  n      : Nat
  stride : Nat
  acc    : Access
  reset  : Nat
  mask   : Nat
  deriving DecidableEq, Repr

/-- A register that only the device writes. -/
def roRow (off n : Nat) (reset : Nat := 0) : RegRow := ⟨off, n, 8, .ro, reset, 0⟩
/-- A write-only register (R5): reads zero. -/
def woRow (off : Nat) : RegRow := ⟨off, 1, 8, .wo, 0, 2 ^ 64 - 1⟩
/-- A read-write register with its writable bits. -/
def rwRow (off n : Nat) (mask : Nat) (reset : Nat := 0) : RegRow := ⟨off, n, 8, .rw, reset, mask⟩
/-- A run of counters (R357). -/
def ctrRow (off n : Nat) : RegRow := ⟨off, n, 8, .ro, 0, 0⟩

/-- The bits `hi` to `lo` of a mask. -/
def bits (hi lo : Nat) : Nat := (2 ^ (hi + 1 - lo) - 1) * 2 ^ lo

/-- All 64 bits. -/
def all64 : Nat := 2 ^ 64 - 1
/-- The bits of word w of a phase-table entry that are not reserved (R8, R107). -/
def phaseMask : Nat → Nat
  | 0 => bits 63 60 + bits 57 0
  | 1 => bits 55 27 + bits 23 0
  | 3 | 4 => bits 41 33 + bits 31 0
  | 5 => bits 63 32 + bits 21 21 + bits 19 0
  | 6 => bits 35 0
  | _ => all64

/-- The common header (R353, R354). -/
def headerRows : List RegRow :=
  [ roRow 0x000 1, roRow 0x008 1, rwRow 0x010 1 0xF 0x1, roRow 0x018 1, roRow 0x020 1,
    ⟨0x028, 1, 8, .w1c, 0, 0xFFFE⟩, rwRow 0x030 1 0xFFFE, rwRow 0x038 1 0xFFFF_FFFC 0x5555_5554, woRow 0x040, roRow 0x048 1,
    ⟨0x050, 1, 8, .w1c, 0, all64⟩, rwRow 0x058 1 all64, ⟨0x060, 1, 8, .w1s, 0, 1⟩, rwRow 0x080 1 1 ]

/-- Device page (R373 and its register table). -/
def deviceRows : List RegRow :=
  [ roRow 0x100 3, rwRow 0x180 1 0xFFF, roRow 0x188 3, rwRow 0x1A0 1 (bits 47 0), woRow 0x1A8, rwRow 0x1B0 1 all64,
    woRow 0x1B8, roRow 0x1C0 1, rwRow 0x1C8 1 (bits 31 0) 0x64, rwRow 0x1D0 8 0xBFBFBFBFBFBFBFBF, ctrRow 0x800 5 ]

/-- Root-of-trust mailbox page (R429). -/
def mailboxRows : List RegRow :=
  [ woRow 0x100, roRow 0x108 6, rwRow 0x200 192 all64, ctrRow 0x800 5 ]

/-- Management page: power, clocks and inputs (R396), safety (R411) and input monitor (R448). -/
def mgmtRows : List RegRow :=
  [ roRow 0x100 1, woRow 0x108, roRow 0x110 1 1, roRow 0x118 1 1, roRow 0x120 1,
    rwRow 0x128 1 (bits 47 32 + bits 15 0) 0x0000_2710_0000_0064, roRow 0x130 1, woRow 0x138, roRow 0x140 1,
    rwRow 0x148 1 0x3F, roRow 0x150 1, roRow 0x160 7, roRow 0x198 1,
    rwRow 0x200 1 0xFFF, roRow 0x208 4, rwRow 0x228 1 (bits 39 32 + bits 7 0) 0x0000_000A_0000_0014,
    rwRow 0x230 1 (bits 23 0) 0x0078_6E5F, roRow 0x238 2, ctrRow 0x800 14 ]

/-- Installation page (R306). -/
def installRows : List RegRow := [ woRow 0x100, roRow 0x108 1, rwRow 0x200 192 all64, ctrRow 0x800 2 ]

/-- Roast page (R221). -/
def roastRows : List RegRow := [ woRow 0x100, roRow 0x108 4, roRow 0x140 8, ctrRow 0x800 1 ]

/-- Host page (R350). The per-QP and per-region registers show the selected context. -/
def hostRows : List RegRow :=
  [ rwRow 0x100 1 0xFFF, rwRow 0x108 1 (bits 63 59 + bits 57 46 + bits 23 0), rwRow 0x110 1 (bits 23 0), rwRow 0x118 2 all64,
    rwRow 0x128 1 (bits 47 12), rwRow 0x130 1 (bits 31 0), roRow 0x138 1, woRow 0x140, roRow 0x148 1,
    rwRow 0x180 1 0xFFFF, rwRow 0x188 1 (bits 63 60 + bits 57 46 + bits 7 0), rwRow 0x190 1 all64, rwRow 0x198 1 (bits 41 0),
    rwRow 0x1A0 1 (bits 47 0), ⟨0x1C0, 1, 8, .rwl, 0, bits 23 0⟩,
    rwRow 0x1C8 1 (bits 20 16 + bits 12 8 + bits 4 0) 0x0017_0E0E, rwRow 0x1D0 1 0xFFFF 0x40,
    rwRow 0x1D8 1 (bits 18 16 + bits 11 8 + bits 7 0) 0x0006_0832, ctrRow 0x800 3 ]

/-- Host port page. -/
def hostPortRows : List RegRow :=
  [ roRow 0x100 1, rwRow 0x108 1 0xFF, rwRow 0x110 1 (bits 47 32 + bits 15 0) 0x0000_3000_0000_2800,
    rwRow 0x118 1 (bits 47 32 + bits 15 0) 0x0000_3000_0000_2000, rwRow 0x120 8 0x7777_7777, rwRow 0x160 1 (bits 31 0),
    rwRow 0x168 2 all64, ctrRow 0x800 4 ]

/-- Fabric page (R333). -/
def fabricRows : List RegRow :=
  [ ⟨0x100, 1, 8, .rwl, 0, bits 63 63 + bits 15 0⟩, rwRow 0x108 1 (bits 31 0) 0x64, rwRow 0x110 1 (bits 31 0) 0x7D0,
    rwRow 0x118 1 0xFFFF 0x2710, rwRow 0x120 1 0xFFF, rwRow 0x128 1 0xFFFF, woRow 0x130, roRow 0x138 3,
    rwRow 0x180 16 (bits 39 30 + bits 19 0), rwRow 0x200 64 (bits 12 8 + bits 4 0),
    rwRow 0x400 64 (bits 31 31 + bits 20 0), ctrRow 0x800 10 ]

/-- Fabric port page (R333). -/
def fabPortRows : List RegRow :=
  [ rwRow 0x100 1 (bits 63 63 + bits 49 48 + bits 35 32 + bits 15 0), roRow 0x108 1, ctrRow 0x800 6 ]

/-- Pour page (R255). -/
def pourRows : List RegRow :=
  [ rwRow 0x100 1 0x3F, rwRow 0x108 1 (bits 63 63 + bits 51 26), roRow 0x110 1, woRow 0x118, woRow 0x120, roRow 0x128 1,
    ctrRow 0x800 7 ]

/-- Collective page (R333). -/
def collRows : List RegRow :=
  [ rwRow 0x100 1 (bits 31 0) 0xF_4240, rwRow 0x108 1 0xF 0x3, roRow 0x110 2, ctrRow 0x800 4 ]

/-- Lease and layout page (R200). Its CMD_IGNORED_CNT, which R200 names and no table places, is taken at 0x838 (DESIGN CHOICE, log 12). -/
def leaseRows : List RegRow :=
  [ rwRow 0x100 1 (bits 31 0) 0x0393_8700, woRow 0x108, roRow 0x110 3, woRow 0x128, roRow 0x130 1, woRow 0x140, roRow 0x148 5,
    ctrRow 0x800 8 ]

/-- Update page (R221). -/
def updateRows : List RegRow := [ rwRow 0x100 1 0xFFF, rwRow 0x108 1 0x7, roRow 0x110 3, ctrRow 0x800 5 ]

/-- Numerics page (R239). -/
def numericsRows : List RegRow :=
  [ woRow 0x100, roRow 0x108 6, woRow 0x138, rwRow 0x200 1 0xFFF, woRow 0x208,
    rwRow 0x210 1 (bits 63 32 + bits 23 16 + bits 8 8 + bits 4 0) 0x40C0_0000_0020_0106, roRow 0x218 4,
    rwRow 0x300 1 (bits 17 0), roRow 0x308 5, ctrRow 0x800 8 ]

/-- Key/value page (R273). -/
def kvRows : List RegRow := [ woRow 0x100, roRow 0x108 5, ctrRow 0x800 7 ]

/-- Tier page (R300). -/
def tierRows : List RegRow :=
  [ rwRow 0x100 1 (bits 63 63 + bits 47 32 + bits 5 0) 0x8000_0064_0000_0004, rwRow 0x108 1 (bits 31 0) 0x64, rwRow 0x110 1 0xFFF,
    rwRow 0x118 1 (bits 22 0), roRow 0x120 1, rwRow 0x128 1 (bits 55 52 + bits 50 0), woRow 0x130, roRow 0x138 1, woRow 0x140,
    roRow 0x148 3, ctrRow 0x800 11 ]

/-- Cluster page (R78, R125, R180, R221, R238, R289, R333, R373, R411). -/
def clusterRows : List RegRow :=
  [ rwRow 0x100 1 0x3FF, roRow 0x108 1, woRow 0x110, rwRow 0x118 1 (bits 31 0) 0x4190_AB00, ⟨0x120, 1, 8, .w1c, 0, all64⟩,
    roRow 0x128 4, roRow 0x148 2, roRow 0x180 16, roRow 0x200 64, roRow 0x400 16, woRow 0x480,
    rwRow 0x4A0 1 (bits 47 0), woRow 0x4A8, roRow 0x4B0 2, rwRow 0x4C0 1 (bits 40 40 + bits 37 20 + bits 17 0),
    rwRow 0x500 1 (bits 47 32 + bits 20 16 + bits 9 8 + bits 4 0) 0x000C_0210, roRow 0x508 2, rwRow 0x518 1 0x11F, roRow 0x520 8,
    rwRow 0x560 16 0x1FFF, roRow 0x600 1, rwRow 0x608 1 (bits 47 0), roRow 0x610 1,
    woRow 0x620, woRow 0x628, woRow 0x630, rwRow 0x638 1 (bits 27 16 + bits 10 8 + bits 5 0),
    rwRow 0x640 1 all64, rwRow 0x648 1 (bits 47 32 + bits 25 0), rwRow 0x650 2 all64, woRow 0x660, roRow 0x668 2, roRow 0x680 1,
    ctrRow 0x800 17, ctrRow 0x900 1 ]

/-- DMA page (R300). -/
def dmaRows : List RegRow :=
  [ rwRow 0x100 1 0x3F, rwRow 0x108 1 (bits 63 63 + bits 51 40 + bits 23 20 + bits 17 0), roRow 0x110 3, woRow 0x128,
    rwRow 0x130 1 (bits 31 0) 0xF_4240, woRow 0x138, rwRow 0x140 1 (bits 27 16 + bits 10 8 + bits 5 0), woRow 0x148,
    ctrRow 0x800 5 ]

/-- Carafe page (R180). -/
def carafeRows : List RegRow :=
  [ rwRow 0x100 4 (bits 40 40 + bits 37 20 + bits 17 0), rwRow 0x120 3 all64, roRow 0x138 1 0xFFFF_FFFF_FFFF_FFFF,
    roRow 0x140 1 0xFFFF_FFFF, roRow 0x148 1,
    ⟨0x200, 16, 32, .rw, 0, bits 63 18 + bits 16 0⟩, ⟨0x208, 16, 32, .ro, 0, 0⟩, ⟨0x210, 16, 32, .ro, 0, 0⟩,
    ⟨0x218, 16, 32, .wo, 0, all64⟩, ctrRow 0x800 5 ]

/-- The writable bits of a window control register (R180): OPEN and EPOCH are RO. -/
def winCtrlMask : Nat := bits 62 56 + bits 51 40 + bits 23 0

/-- Carafe window page (R171, R180). -/
def carWinRows : List RegRow :=
  [ ⟨0x100, 64, 24, .rw, 0, bits 24 6⟩, ⟨0x108, 64, 24, .rw, 0, bits 25 6⟩, ⟨0x110, 64, 24, .rw, 0, winCtrlMask⟩ ]

/-- Tile page (R61, R62, R126, R157, R180). -/
def tileRows : List RegRow :=
  [ roRow 0x100 4, rwRow 0x120 4 (bits 31 0), ⟨0x140, 4, 8, .w1c, 0, all64⟩, rwRow 0x160 4 (bits 15 15 + bits 13 8 + bits 5 0),
    roRow 0x180 11, rwRow 0x1D8 4 (bits 31 16 + bits 14 0), rwRow 0x1F8 1 (bits 47 0), roRow 0x200 1 0x00FF_FFFF, roRow 0x208 1,
    rwRow 0x210 4 (bits 63 18 + bits 14 0), ⟨0x240, 16, 24, .rw, 0, bits 20 6⟩, ⟨0x248, 16, 24, .rw, 0, bits 21 6⟩,
    ⟨0x250, 16, 24, .rw, 0, winCtrlMask⟩, ctrRow 0x800 18 ]

/-- The register rows of a page beyond the header. The optical-group, laser, bulk and spine pages have none. -/
def pageRows : PageType → List RegRow
  | .device => deviceRows
  | .mailbox => mailboxRows
  | .mgmt => mgmtRows
  | .install => installRows
  | .roast => roastRows
  | .host => hostRows
  | .hostPort => hostPortRows
  | .fabric => fabricRows
  | .fabPort => fabPortRows
  | .optGroup | .laser | .bulk | .spine => []
  | .pour => pourRows
  | .coll => collRows
  | .lease => leaseRows
  | .update => updateRows
  | .numerics => numericsRows
  | .kv => kvRows
  | .tier => tierRows
  | .cluster => clusterRows
  | .dma => dmaRows
  | .carafe => carafeRows
  | .carWin => carWinRows
  | .phase => (List.range 8).map (fun w => ⟨8 * w, 64, 64, .rw, 0, phaseMask w⟩)
  | .tile => tileRows

/-- `BLK_ID.TYPE` (R351). -/
def blkType : PageType → Nat
  | .device => 0x0001 | .mailbox => 0x0002 | .mgmt => 0x0003 | .roast => 0x0004 | .install => 0x0005
  | .host => 0x0010 | .hostPort => 0x0011 | .fabric => 0x0020 | .fabPort => 0x0021 | .optGroup => 0x0022 | .laser => 0x0023
  | .bulk => 0x0030 | .pour => 0x0040 | .coll => 0x0041 | .lease => 0x0042 | .update => 0x0043 | .numerics => 0x0044
  | .kv => 0x0045 | .tier => 0x0046 | .spine => 0x0050 | .cluster => 0x0051 | .dma => 0x0052 | .carafe => 0x0053
  | .carWin => 0x0054 | .tile => 0x0055 | .phase => 0

/-- The address of spine page S(d) (R351). -/
def spineBase (d : Nat) : Nat := 0x100_0000 + d * 0x40_0000
/-- The address of cluster page K(d, c) of cluster 16*d + c (R351). -/
def clusterBase (c : Nat) : Nat := spineBase (c / 16) + 0x1_0000 + (c % 16) * 0x2_0000
/-- The address of a cluster's DMA page. -/
def dmaBase (c : Nat) : Nat := clusterBase c + 0x1000
/-- The address of a cluster's carafe page. -/
def carafeBase (c : Nat) : Nat := clusterBase c + 0x2000
/-- The address of a cluster's carafe window page. -/
def carWinBase (c : Nat) : Nat := clusterBase c + 0x3000
/-- The address of word w of phase-table entry e (R107). -/
def phaseWordAddr (c e w : Nat) : Nat := clusterBase c + 0x4000 + 64 * e + 8 * w
/-- The address of the page of tile 256*d + 16*c + t (R351). -/
def tileBase (t : Nat) : Nat := clusterBase (t / 16) + 0x1_0000 + (t % 16) * 0x1000

/-- The device page (R351). -/
def devicePage : Nat := 0x000_0000
/-- The mailbox page. -/
def mailboxPage : Nat := 0x001_0000
/-- The management page. -/
def mgmtPage : Nat := 0x010_0000
/-- The installation page. -/
def installPage : Nat := 0x010_1000
/-- The roast page. -/
def roastPage : Nat := 0x011_0000
/-- The host page. -/
def hostPage : Nat := 0x020_0000
/-- The page of host port Hp. -/
def hostPortPage (p : Nat) : Nat := 0x020_1000 + 0x1000 * p
/-- The fabric page. -/
def fabricPage : Nat := 0x030_0000
/-- The page of fabric port Fp. -/
def fabPortPage (p : Nat) : Nat := 0x030_1000 + 0x1000 * p
/-- The page of laser source LSk. -/
def laserPage (k : Nat) : Nat := 0x032_4000 + 0x1000 * k
/-- The page of bulk controller 0 BULK_W, 1 BULK_E. -/
def bulkPage (h : Nat) : Nat := 0x040_0000 + 0x1_0000 * h
/-- The page of the pour unit of hub 0 HW, 1 HE. -/
def pourPage (h : Nat) : Nat := 0x050_0000 + 0x2_0000 * h
/-- The page of the collective engine of hub 0 HW, 1 HE. -/
def collPage (h : Nat) : Nat := 0x051_0000 + 0x2_0000 * h
/-- The lease and layout page. -/
def leasePage : Nat := 0x05F_0000
/-- The update page. -/
def updatePage : Nat := 0x05F_1000
/-- The numerics page. -/
def numericsPage : Nat := 0x05F_2000
/-- The key/value page. -/
def kvPage : Nat := 0x05F_3000
/-- The tier page. -/
def tierPage : Nat := 0x05F_4000

/-- The page of the compute dies (R351) at an address of 0x100_0000 and above, with its instance as R354 numbers it. -/
def diePageOf (addr : Nat) : Option (PageType × Nat) :=
  let d := (addr - 0x100_0000) / 0x40_0000
  let o := (addr - 0x100_0000) % 0x40_0000
  if 4 ≤ d then none
  else if o < 0x1000 then some (.spine, 256 * d)
  else if o < 0x1_0000 then none
  else
    let c := (o - 0x1_0000) / 0x2_0000
    let k := (o - 0x1_0000) % 0x2_0000
    if 16 ≤ c then none
    else
      let i := 256 * d + 16 * c
      if 0x1_0000 ≤ k then some (.tile, i + (k - 0x1_0000) / 0x1000)
      else match k / 0x1000 with
        | 0 => some (.cluster, i)
        | 1 => some (.dma, i)
        | 2 => some (.carafe, i)
        | 3 => some (.carWin, i)
        | 4 | 5 | 6 | 7 => some (.phase, i)
        | _ => none

/-- The page of an address below 0x100_0000 (R351). -/
def hubPageOf (addr : Nat) : Option (PageType × Nat) :=
  match addr / 0x1000 with
  | 0x000 => some (.device, 0)
  | 0x010 => some (.mailbox, 0)
  | 0x100 => some (.mgmt, 0)
  | 0x101 => some (.install, 0)
  | 0x110 => some (.roast, 0)
  | 0x200 => some (.host, 0)
  | 0x300 => some (.fabric, 0)
  | 0x324 => some (.laser, 0)
  | 0x325 => some (.laser, 1)
  | 0x400 => some (.bulk, 0)
  | 0x410 => some (.bulk, 1)
  | 0x500 => some (.pour, 0)
  | 0x520 => some (.pour, 1)
  | 0x510 => some (.coll, 0)
  | 0x530 => some (.coll, 1)
  | 0x5F0 => some (.lease, 0)
  | 0x5F1 => some (.update, 0)
  | 0x5F2 => some (.numerics, 0)
  | 0x5F3 => some (.kv, 0)
  | 0x5F4 => some (.tier, 0)
  | p =>
    if 0x201 ≤ p ∧ p < 0x205 then some (.hostPort, p - 0x201)
    else if 0x301 ≤ p ∧ p < 0x311 then some (.fabPort, p - 0x301)
    else if 0x320 ≤ p ∧ p < 0x324 then some (.optGroup, p - 0x320)
    else none

/-- The page that holds a control-space address, with its instance (R351, R354). -/
def pageOf (addr : Nat) : Option (PageType × Nat) :=
  if addr < 0x100_0000 then hubPageOf addr else diePageOf addr

/-- Whether a row covers an offset. -/
def RegRow.covers (r : RegRow) (off : Nat) : Bool :=
  decide (r.off ≤ off) && decide ((off - r.off) % r.stride = 0) && decide ((off - r.off) / r.stride < r.n)

/-- The row of a page type that covers an offset. -/
def regRow (p : PageType) (off : Nat) : Option RegRow :=
  if p = .phase then (pageRows p).find? (·.covers off)
  else (headerRows ++ pageRows p).find? (·.covers off)

/-- The value of a register at reset (R7); zero where no register is. DESIGN CHOICE: log 39. -/
def resetVal (addr : Nat) : Word :=
  match pageOf addr with
  | none => 0
  | some (p, _) => match regRow p (addr % 0x1000) with
    | none => 0
    | some r => BitVec.ofNat 64 r.reset

/-- The counters of a page (R357): how many registers its table lists from 0x800. -/
def counterCount (p : PageType) : Nat :=
  ((pageRows p).filter (fun r => 0x800 ≤ r.off)).foldl (fun a r => a + r.n) 0

/-- Class of a fault code (R358). -/
def codeClass (code : Nat) : Nat := code / 0x1000 % 16

end Sys2Proof.Machine
end

