-- ==== Sys2Proof/Machine/State.lean ====
section
/-! DEFINITION. The state of the ZB-1040 block as plain data: its control registers, byte stores, and the typed records of
every unit the chapters name. A register that control space reads back as stored has its one home in `regs`, by address;
registers that show a selected entry (a ring, a job, a queue pair) and status registers have their home in the typed records. -/

namespace Sys2Proof.Machine

/-- A byte store: (address, byte) pairs, addresses rising, no zero byte listed. An unlisted byte reads zero: SRAM and crema are
written to zero at bring-up (R392 steps 5 and 6) and a mapped page is filled with zeros (R278). -/
abbrev Mem := List Host.Cell

/-- An exact dyadic number m * 2^e, as the exact sums of R34 and R56 need. -/
structure Dy where
  m : Int
  e : Int
  deriving DecidableEq, Repr

/-- An exact value: NaN, a signed infinity, or plus or minus m * 2^e. -/
inductive Fp where
  | nan
  | inf (neg : Bool)
  | fin (neg : Bool) (m : Nat) (e : Int)
  deriving DecidableEq, Repr

/-- Byte stores, one per kind of memory: tensor space by tensor address; the others by unit number times unit size plus offset. -/
structure Stores where
  tensor : Mem
  sp     : Mem
  car    : Mem
  ctx    : Mem
  vdesc  : Mem
  stat   : Mem
  scale  : Mem
  acc    : Mem
  bar    : Mem
  deriving DecidableEq, Repr

/-- What every unit sees in a cycle (R10): the byte stores and the registers as they stood when the cycle began. -/
structure Seen where
  mem  : Stores
  regs : Tbl Word
  deriving DecidableEq, Repr

/-! ### The vector engine's records -/

/-- A tensor descriptor (R128). `resv` tells whether a reserved bit is set. -/
structure TDesc where
  base   : Nat
  ty     : Nat
  space  : Nat
  sb     : Bool
  rank   : Nat
  ext    : List Nat
  str    : List Int
  scale  : Nat
  offstep : Int
  target : Nat
  window : Nat
  remote : Nat
  resv   : Bool
  deriving DecidableEq, Repr

/-- How an operation walks its operands. -/
inductive VKind where
  | ew | red | scan | perm | topk | bscale | census
  deriving DecidableEq, Repr

/-- One group: its pass and the ordinals of its elements. -/
structure VGroup where
  pass : Nat
  ords : List Nat
  deriving DecidableEq, Repr

/-- The plan of an instruction: everything its descriptors and latched values fix before any element is read. `outExt` is the
shape of the outputs of a reduction or top-k; `setN` the elements of a set, `per` the outputs of a set. -/
structure VPlan where
  opc    : Nat
  var    : Nat
  kind   : VKind
  zt     : Bool
  carafe : Bool
  ds     : List (Option TDesc)
  offs   : List Int
  rank   : Nat
  ext    : List Nat
  outExt : List Nat
  setN   : Nat
  per    : Nat
  groups : List VGroup
  deriving DecidableEq, Repr

/-- One write: space, bit address, width and bits; `elem` tells it from the write of a scale (R148). A remote write (space 3) keeps its operand
role, and its bit offset in the window that `remote` names (R128, R136). -/
structure VWrite where
  space : Nat
  remote : Nat
  role  : Nat
  elem  : Bool
  bitA  : Nat
  width : Nat
  val   : Nat
  deriving DecidableEq, Repr

/-- The gathered flags, counts and partial results of a running instruction. `vals` holds the elements of the set, row or block in
progress (none for a masked-off element), `maxes` the maxima of RLSE's first pass, `codes` a loaded PERM row, `cover` the
accumulator entries written, by slice and group. -/
structure VAcc where
  under   : Bool
  sat     : Bool
  nonfin  : Bool
  range   : Bool
  empty   : Bool
  live    : Bool
  written : Nat
  ones    : Nat
  draws   : Nat
  elems   : Nat
  value   : Nat
  census  : CensusCounts
  vals    : List (Option Fp)
  maxes   : List Fp
  codes   : List Fp
  run     : Option Fp
  outs    : List (Nat × Nat)
  cover   : Tbl Nat
  deriving DecidableEq, Repr

/-- A started instruction (R139): its plan, the window message of its remote writes, what it has gathered, the writes that wait
for their write cycle, the groups whose carafe operands are still to be read, with the cycle of that access and what every space
held in their read cycle (R135, R165), and whether a remote row has been offered and the message is still open (R136). -/
structure VecRun where
  plan : VPlan
  msg  : Nat
  acc  : VAcc
  wait : List (Nat × List VWrite)
  late : List (Nat × VGroup × Seen)
  sent : Bool
  shut : Bool
  deriving DecidableEq, Repr

/-! ### Tile records -/

/-- An active hardware loop (R39): body from `first` to `last`, `left` iterations still to start after this one. -/
structure LoopFrame where
  first : Nat
  last  : Nat
  left  : Nat
  deriving DecidableEq, Repr

/-- The exact sums of one result column (R56) and what R57 needs to know of it. -/
structure ColSum where
  p     : Dy
  m     : Dy
  s0    : Dy
  s1    : Dy
  a     : Dy
  skip  : Bool
  wnan  : Bool
  winf  : Bool
  deriving DecidableEq, Repr

/-- One chunk step captured for cupping (R224): streamed rows, the stationary rows of the quads, and their scales. -/
structure ChunkCap where
  a  : Row
  b  : List Row
  sa : Row
  sb : List Row
  deriving DecidableEq, Repr

/-- A cupping sample (R224, R228). -/
structure CupSample where
  tile    : Nat
  args    : BlockArgs
  start   : List (BitVec 32)
  written : List (BitVec 32)
  chunks  : List ChunkCap
  due     : Option Nat
  deriving DecidableEq, Repr

/-- A running block (R45, R453). `taken` counts the chunks taken; `fly` holds those whose products are not yet applied, with their
number and the cycle of the application; `open_` the row groups begun and not finished, with the cycle that reads their start values;
`run` the running values of the group that applications work on, cell 64*i + f; `pend` the chunks of an unfinished ZT1 group of 16
products (R83), and `held` the finished row groups whose write is still to come, with its cycle. -/
structure Block where
  args     : BlockArgs
  mscale   : BitVec 32
  bundle   : BitVec 32
  cycle    : Nat
  taken    : Nat
  fly      : List (Nat × Nat × ChunkCap)
  open_    : List (Nat × Nat)
  run      : List (BitVec 32)
  scaleRow : Row
  pend     : List (Nat × ChunkCap)
  held     : List (Nat × Nat × List (BitVec 32))
  cols     : List ColSum
  sample   : Bool
  deriving DecidableEq, Repr

/-- A port read on its way (R40): delivered six cycles after its issue. -/
structure Delivery where
  port  : BitVec 1
  route : BitVec 3
  row   : Row
  ctx   : BitVec 2
  due   : Nat
  deriving DecidableEq, Repr

/-- An entry of the vector queue (R42, R138, R139). Once started it holds its start cycle, its last cycle and its run. -/
structure VecEntry where
  opc     : Nat
  args    : VecArgs
  ctx     : BitVec 2
  cval    : BitVec 16
  started : Option Nat
  last    : Nat
  run     : Option VecRun
  deriving DecidableEq, Repr

/-- A control token held by a steering unit (R101). -/
structure HeldToken where
  value : BitVec 8
  seq   : Bool
  since : Nat
  deriving DecidableEq, Repr

/-- A steering unit of one context (R101): its token, its last paired token for the SELECT discard, and the MERGE holds. -/
structure SteerUnit where
  token   : Option HeldToken
  paired  : Option HeldToken
  holdA   : Option NetWord
  holdB   : Option NetWord
  deriving DecidableEq, Repr

/-- A work-counter fetch-and-add whose result is on its way (R123). -/
structure WfaPending where
  n     : BitVec 3
  value : BitVec 16
  due   : Nat
  deriving DecidableEq, Repr

/-- A word on an output of a node: the network, the output (0 N, 1 E, 2 S, 3 W, 4 D) and the word (R90). -/
structure NodeOut where
  net  : Nat
  out  : Nat
  word : NetWord
  deriving DecidableEq, Repr

/-- A row waiting for a bank, and whether it has entered the bank's buffer (R161). -/
structure BankRow where
  inBuf : Bool
  row   : AsyncRow
  deriving DecidableEq, Repr

/-- A tile (Tile and Matrix Engine; Spatial Networks, Contexts and Phases; Vector Engine). Tables default to zero or empty.
`pc` is the program counter and `pcs` the saved one of each context (R105).
Chunks and rows waiting for the matrix engine stand with the cycle of their delivery (R48). `vecFree` is the cycle from which the
vector engine holds no ended instruction (R139). `outs` are the words on the node's outputs in this cycle, `leaving` the paired words
with the cycle in which they leave, and `steerIn` the data words that have reached steering units in this cycle, as context, unit, whether
on input B, and word (R90, R101).
`access` holds the scratchpad rows that the ports accessed, with the cycle and whether it was a read (R160, R162), `clash` the cycle
and the banks in which a bundle of that cycle conflicted (R41), and `bankUsed` the banks whose landing of a cycle is done, with whether the row had waited in the buffer (R161). `wfaDone` are the
counter writes of work-counter results that arrive in this cycle (R95), and `past` is a block that ended or was abandoned, with the cycle to whose edge it
still holds the engine and its row groups (R48, R53). `steerRec` tells that `STEER_FAULT` holds a record (R126), and
`blockRow` is the view row that the first `SP_BOUNDS` of a BLOCK carried (R52). -/
structure Tile where
  part     : Bool
  active   : BitVec 2
  pc       : BitVec 10
  pcs      : Tbl (BitVec 10)
  ctrs     : Tbl (BitVec 16)
  loops    : List LoopFrame
  seqBits  : BitVec 3
  ctxState : Tbl (BitVec 2)
  srKey    : BitVec 64
  loadBank : BitVec 1
  loadPtr  : Tbl Nat
  scalePtr : Tbl Nat
  streams  : Tbl (List (Nat × Row))
  ssFifo   : List (Nat × Row)
  block    : Option Block
  delivers : List Delivery
  agenUse  : Tbl (BitVec 32)
  vq       : List VecEntry
  vecFree  : Nat
  parts    : Tbl (List NetWord)
  steer    : Tbl SteerUnit
  outs     : List NodeOut
  leaving  : List (Nat × NodeOut)
  steerIn  : List (BitVec 2 × Nat × Bool × NetWord)
  wfas     : List WfaPending
  wbuf     : Tbl (List BankRow)
  bankFrom : Tbl (BitVec 2)
  access   : List (Nat × Nat × Bool)
  clash    : Nat × List Nat
  bankUsed : List (Nat × Nat × Bool)
  wfaDone  : List (BitVec 3 × BitVec 16)
  past     : Option (Nat × Block)
  steerRec : Bool
  blockRow : Option Nat
  abftInj  : Bool
  parInj   : Bool
  eccInj   : Bool
  stInj    : Bool
  stNext   : Nat
  deriving DecidableEq, Repr

/-! ### Cluster records -/

/-- The walker's states (R125). -/
inductive WalkSt where
  | idle | sampling | running | barrier | call | stopped | done
  deriving DecidableEq, Repr

/-- The phase walker of a cluster (R107 to R122). `chosen` is an entry sampled to start at the next edge, with its fill flag;
`cyc` is the cycle of the running phase. `stopAt` is the cycle of the stop and `stopTile` the tile it records, and `issued` the cycle of
the last bundles, plus one (R119, R452). `skip` tells that the entry taken has its DONE bit set, so that the walker moves on in the next
cycle (R112). -/
structure Walker where
  st       : WalkSt
  cur      : BitVec 8
  wait     : BitVec 8
  fill     : Bool
  unmet    : BitVec 4
  chosen   : Option (BitVec 8 × Bool)
  cyc      : Nat
  waitFrom : Option Nat
  waitCnt  : Nat
  stalled  : Bool
  stopReq  : Bool
  stopAt   : Option Nat
  stopTile : Nat
  issued   : Nat
  skip     : Bool
  deriving DecidableEq, Repr

/-- A walk in progress (R262 to R268): the header as read at its start, the list entries that an append has read for its positions
(R263), the next position, the positions left, the next list entry with its base, the rows done, the holds as (entry, page), and the window
message that its rows belong to. -/
structure WalkState where
  append : Bool
  hdr    : Nat
  head   : List Byte
  list   : List Nat
  pos    : Nat
  left   : Nat
  entry  : Nat
  base   : Nat
  done   : Nat
  holds  : List (Nat × Nat)
  msg    : Nat
  deriving DecidableEq, Repr

/-- What a descriptor in flight waits for (R280, R292, R296, R297, R316); `write` tells that writes of it wait for a page. -/
inductive DescWait where
  | landed
  | write
  | claim
  | ack
  | fence
  | walk
  | coll
  deriving DecidableEq, Repr

/-- A descriptor in flight (R297): the 64 bytes and the job tag with which it started, which nothing that is written to its ring
afterwards changes. `bytes` are those landed; `seen` are the
slots whose entries it has read (R277), `wrote` the pages it has written (R282) and `cen` what it counts under its census tag; `loading` tells that it has made contexts LOADING (R103). -/
structure Desc where
  count : BitVec 32
  tag   : BitVec 12
  raw   : List Byte
  op    : Nat
  wait  : DescWait
  bytes : Nat
  seen  : List Nat
  wrote : List Nat
  cen   : CensusCounts
  walk  : Option WalkState
  loading : Bool
  deriving DecidableEq, Repr

/-- A DMA ring (R288, R298). -/
structure Ring where
  cfg    : Word
  prod   : BitVec 32
  cons   : BitVec 32
  error  : Bool
  err    : Word
  flight : List Desc
  deriving DecidableEq, Repr

/-- A shard header as read at step 2 of R202 (R206). -/
structure ShardHeader where
  lastStep : BitVec 48
  cur      : Bool
  prog     : Nat
  version  : BitVec 32
  nelem    : Nat
  buf0     : Nat
  buf1     : Nat
  grad     : Nat
  poison   : Nat
  frozen   : Nat
  deriving DecidableEq, Repr

/-- An executing update run (R202, R203): the block `blk` and instruction `pc` it stands at. `vals` holds the codes of the block's
operands by operand code of R209 and `scales` their scale codes; `loaded` tells that the block has been read, `frozen` that it is
copied. `zeroed` is the last poisoned 4 KiB block counted, `dropped` that the step's summary came without a commit. -/
structure UpdRun where
  tag     : BitVec 12
  shard   : BitVec 24
  step    : BitVec 48
  hdrAddr : Nat
  hdr     : ShardHeader
  waiting : Bool
  since   : Nat
  scalars : List (BitVec 32)
  blk     : Nat
  pc      : Nat
  loaded  : Bool
  vals    : Tbl (List Nat)
  scales  : Tbl Nat
  zeroed  : Option Nat
  dropped : Bool
  deriving DecidableEq, Repr

/-- A cluster (`barRet` and `claimRet` hold the value returned to the last work-counter access and the last credit claim; `phaseCmds` are the commands that control space has
written in this cycle, which follow the barista's (R121); `amoNow` the work-counter additions of the barista, as cycle, counter, value and whether of a word, which follow those of the
tiles in a cycle (R123); `doneNow` the `DMA_DONE` bits that completions set, with their cycle (R111); `reqUsed` the bank cycles of requesters (R166);
`barRinsed` that the cluster has been rinsed since its barista pair was held in reset (R402)): walker, barista, DMA engine, carafe side, cupping unit, update run (R20, R120, R166, R201, R223). -/
structure Cluster where
  walker   : Walker
  barCause : BitVec 16
  barIrq   : Bool
  barReset : Bool
  barRinsed : Bool
  barTrap  : BitVec 4
  rings    : Tbl Ring
  wbuf     : Tbl (List BankRow)
  bankFrom : Tbl (BitVec 2)
  bankUsed : List (Nat × Nat × Bool)
  reqUsed  : List (Nat × Nat)
  reqData  : Tbl (BitVec 1024)
  reqWait  : List (Bool × Nat)
  rrLast   : Bool
  run      : Option UpdRun
  heldStart : Option (BitVec 8)
  cupOrd   : Nat
  cupSlots : List CupSample
  cupHist  : Tbl (BitVec 32)
  cupInj   : Bool
  barRet   : BitVec 64
  claimRet : BitVec 64
  phaseCmds : List Word
  amoNow   : List (Nat × Nat × Word × Bool)
  doneNow  : Nat × Word
  deriving DecidableEq, Repr

/-- A cluster that has arrived on a die barrier channel (R118). -/
structure Arrival where
  die     : Nat
  channel : BitVec 4
  tag     : BitVec 12
  mask    : BitVec 16
  cluster : Nat
  cycle   : Nat
  deriving DecidableEq, Repr

/-- A word in a node's output register on its way to input `inp` of node `tile` (R88). -/
structure Flying where
  tile : Nat
  net  : BitVec 2
  inp  : BitVec 3
  word : NetWord
  deriving DecidableEq, Repr

/-- Where the rows of a window message or of a copy come from, for the answer that follows their landing (R173, R297, R316): a DMA
descriptor, a message of a fabric receive sequence, a pour queue, or a unit that awaits no answer. -/
inductive MsgFrom where
  | desc (c r : Nat) (count : BitVec 32)
  | rx (at_ src shub cls : Nat) (psn : BitVec 32)
  | pour (hub q : Nat)
  | unit
  deriving DecidableEq, Repr

/-- What the device knows of a window message (R172, R173): whether a row was refused and with which code, the admitted rows that
have not landed, whether its last row has arrived, and the counter its completion counts in. A `muted` message neither counts nor is answered
any more (R315, R317). A fabric atomic is a message of one row that carries its request in `amo`, with the cluster that issued it on this
module, and the value `old` that it has read once it has been performed (R314). -/
structure WinMsg where
  refused : Bool
  code    : Nat
  waiting : Nat
  lastIn  : Bool
  counter : Option (Nat × Nat)
  origin  : MsgFrom
  live    : Bool
  muted   : Bool
  amo     : Option (Option Nat × Msg)
  old     : BitVec 64
  deriving DecidableEq, Repr

/-! ### Tensor space -/

/-- A page's residency state (R275). -/
inductive PageSt where
  | free | resident | promoting | evicting | rinsing
  deriving DecidableEq, Repr

/-- A mapped page (R275, R281), or with `st` FREE and `filling` a MAP that waits for frames. `want` marks an automatic promotion that
waits for room, `wantDie` the die whose access asked for the promotion that waits, and `prefetch` that a walk asked for it (R267, R283);
`counted` that the promotion of its holds has been counted as waiting for frames (R283); `newHint` is a hint that waits for a move or for room, and `hintCmd` that a HINT command waits with it (R278). `frame` is its home, `copy` the frame of a clean crema copy, `dest` the destination
of a move in progress and `destCopy` whether that move makes a copy. Frames are numbered as FRAME is; `bulk` tells whether the home is in bulk. -/
structure Page where
  sz      : Nat
  tag     : BitVec 12
  hint    : BitVec 3
  st      : PageSt
  closed  : Bool
  bulk    : Bool
  frame   : BitVec 25
  copy    : Option (BitVec 25)
  dest    : Option (BitVec 25)
  destCopy : Bool
  filling : Bool
  acc     : BitVec 6
  holds   : Nat
  pendEv  : Bool
  want    : Bool
  wantDie : Nat
  prefetch : Bool
  newHint : Option (BitVec 3)
  hintCmd : Bool
  counted : Bool
  deriving DecidableEq, Repr

/-- Who makes a tensor-space access: a descriptor of a ring, an update run, the commit of a shard, a queue pair, or another unit. -/
inductive TOwner where
  | ring (c r : Nat) (count : BitVec 32)
  | run (c : Nat)
  | commit (tag : BitVec 12) (shard : BitVec 24)
  | host (qp : Nat)
  | unit
  deriving DecidableEq, Repr

/-- A write to a bulk page that waits for its move to crema (R280, R281). `page` is the page's first slot. -/
structure TWrite where
  owner : TOwner
  page  : Nat
  addr  : Nat
  data  : List Byte
  die   : Nat
  held  : Bool
  since : Nat
  deriving DecidableEq, Repr

/-! ### Jobs -/

/-- The states of a job entry (R361). -/
inductive JobSt where
  | free | binding | bound | quiescing | rinsing | stuck | staged
  deriving DecidableEq, Repr

/-- A retained buffer with its leases (R193). -/
structure RetBuf where
  version : BitVec 32
  step    : BitVec 48
  n       : Nat
  deriving DecidableEq, Repr

/-- A deferred NEW (R190, R205), with the collective it belongs to. -/
structure DeferredNew where
  step   : BitVec 48
  n      : Nat
  group  : Nat
  collId : Nat
  deriving DecidableEq, Repr

/-- A pending run of a shard (R205). `waits` tells that its commit waits under R193. -/
structure PendRun where
  step    : BitVec 48
  cluster : Nat
  hdrAddr : Nat
  hdr     : ShardHeader
  waits   : Bool
  deriving DecidableEq, Repr

/-- A lease record (R189 to R193): CUR's LSTEP and N (its version stands in the shard header), RET, the deferred NEWs and the
pending run. `late` is the header of a commit whose write has not landed (R193, R217). `served` holds the deferred NEWs that have been answered, as group, collective and the version served (none: refused);
`applied` the collectives whose lease operation has been applied (R329). -/
structure LeaseRec where
  step     : BitVec 48
  n        : Nat
  ret      : Option RetBuf
  defer    : List DeferredNew
  served   : List (Nat × Nat × Option (BitVec 32))
  applied  : List (Nat × Nat)
  pend     : Option PendRun
  late     : Option ShardHeader
  deriving DecidableEq, Repr

/-- A census record: live and snapshot counters (R229, R231). -/
structure CensusRec where
  live : CensusCounts
  snap : CensusCounts
  deriving DecidableEq, Repr

/-- The loss record of a job (R232, R233); mean and variance in binary64. -/
structure LossRec where
  cfg    : Word
  mean   : BitVec 64
  var    : BitVec 64
  count  : Nat
  last   : Option (BitVec 32)
  spike  : Bool
  nonfin : Bool
  spikeStep : BitVec 32
  deriving DecidableEq, Repr

/-- Published gradient-noise statistics of a layer group (R237). -/
structure NoiseRec where
  sl   : BitVec 64
  sr   : BitVec 64
  bn   : BitVec 64
  info : Word
  step : BitVec 48
  deriving DecidableEq, Repr

/-- Kept sums of one reduce-scatter (R327), until the step's CLOSE. -/
structure KeptSum where
  step   : BitVec 48
  lgrp   : Nat
  group  : Nat
  collId : Nat
  sl     : BitVec 64
  sr     : BitVec 64
  n      : Nat
  deriving DecidableEq, Repr

/-- The open step window of a job (R400) and the hold of its closing contribution (R401): the step of the last contribution, the `DEV_TIME` at
which its clean interval ends, the step whose clean interval has ended, and the closing reduction that is held. -/
structure StepWindow where
  alarm   : Bool
  opened  : BitVec 48
  first   : Word
  held    : Bool
  release : BitVec 48
  heldStep : BitVec 48
  clean    : Option (BitVec 48)
  closeKey : Option (Nat × Nat)
  deriving DecidableEq, Repr

/-- A BIND that waits for crema frames (R367): its latched map as (logical, physical) clusters, the PAGES records done and the pages mapped. -/
structure BindWait where
  map   : List (Nat × Nat)
  done  : Nat
  pages : List Nat
  deriving DecidableEq, Repr

/-- A job entry with everything binding loads for the tag (R361 to R373). Sections are kept as the records they hold; `cup` holds the cupping
defaults. -/
structure Job where
  st       : JobSt
  seed     : BitVec 64
  image    : BitVec 48
  fault    : Word
  status   : Word
  jepoch   : BitVec 16
  cmdBusy  : Option Nat
  policy   : BitVec 3
  quota    : BitVec 23
  stages   : List (List Byte)
  division : List Byte
  ringRec  : List Byte
  groups   : Tbl (List Nat)
  maps     : Tbl (List Byte)
  mapHubs  : List Nat
  shards   : Tbl Nat
  programs : List (List Byte)
  profile  : List Byte
  leases   : Tbl LeaseRec
  vetoed   : List (BitVec 48)
  ran      : List (BitVec 48 × BitVec 24)
  halted   : Bool
  dmaHeld  : Bool
  stepLast : Word
  origin   : Word
  mismatch : Word
  census   : Tbl CensusRec
  loss     : LossRec
  noise    : Tbl NoiseRec
  kept     : List KeptSum
  poisoned : List (BitVec 48 × (Nat × Nat))
  window   : Option StepWindow
  sealOrder : List Nat
  cup      : List Word
  bindAt   : Option BindWait
  deriving DecidableEq, Repr

/-! ### Pour units -/

/-- A pour request in progress (R244 to R253). Entries of the token list are kept as (expert, outcome, candidate, weight, map
entry); `back` marks the rows that have returned. -/
structure PourReq where
  op      : Nat
  number  : BitVec 32
  k       : Nat
  kreq    : Nat
  tokens  : Nat
  step    : BitVec 48
  recd    : List Byte
  entries : List (Nat × Nat × Nat × BitVec 32 × BitVec 64)
  back    : List Nat
  groupsLeft : List (Nat × Nat)
  claiming : Bool
  firstSend : Option Nat
  ks      : List (BitVec 24 × BitVec 16)
  deriving DecidableEq, Repr

/-- A pour queue (R243, R255). `ending` is a request that is over but for its status record, which waits until the rows that the
request wrote have landed, with the fault code of the record (R244). -/
structure PourQ where
  cfg    : Word
  fifo   : List (BitVec 18)
  req    : Option PourReq
  ending : Option (PourReq × Nat)
  error  : Bool
  fault  : Word
  step   : BitVec 48
  number : BitVec 32
  scnt   : Tbl Nat
  deriving DecidableEq, Repr

/-! ### Collectives -/

/-- What a collective message is (R323 to R331). -/
inductive CollKind where
  | ready
  | data
  | done
  | finish
  | abort
  | release
  deriving DecidableEq, Repr

/-- The partial of one piece at this participant (R324 to R328): its values, the poison bit and the sum of squares of each 4 KiB block,
the ORIGIN, the width `level` of the next combine, whether it has left or become the result, and the census counts of its last combine. -/
structure CollPart where
  vals   : List Byte
  poison : List Bool
  sumsq  : List (BitVec 64)
  origin : Option (Nat × Nat)
  level  : Nat
  sent   : Bool
  cen    : CensusCounts
  deriving DecidableEq, Repr

/-- A collective in progress on this module (R320 to R331): its descriptor, the attempt, the ranks whose
READY has arrived, the partials by piece, the data received and not combined, the messages that wait for a READY, the pieces delivered, those
kept until all are there (R195), the census events of the attempt's steps (R231), the poison bits, the ranks whose DONE has arrived, the owners that have acknowledged a release, the contribution to a closing reduction once
its window has closed, whether the step summary has been delivered, whether a deferred NEW delays the owner's piece, and the attempt that is to
be abandoned. -/
structure Coll where
  tag      : BitVec 12
  group    : Nat
  collId   : Nat
  cluster  : Nat
  ring     : Nat
  count    : BitVec 32
  desc     : List Byte
  attempt  : Nat
  ready    : List Nat
  parts    : Tbl CollPart
  got      : List CollData
  waiting  : List (Nat × CollData)
  placed   : List Nat
  pieces   : Tbl (List Byte)
  counts   : List CensusCounts
  bits     : Tbl (List Bool)
  done     : List Nat
  doneSent : Bool
  acks     : List Nat
  mine     : List Byte
  summed   : Bool
  leaseWait : Bool
  broken   : Option Nat
  deriving DecidableEq, Repr

/-! ### Fabric -/

/-- A send sequence (R315 to R318, R332), one per hub, destination and class. `held` are the messages without ACK or NAK, oldest
first; `emit` is the PSN of the next one to leave and `top` that of the first one that has never left. `nrPsn` is the message that was last answered
NOT_READY, and `nrWait` tells that it waits for its retry. `floor` lies above every abandoned message (R332). -/
structure TxSeq where
  epoch   : BitVec 16
  psn     : BitVec 32
  emit    : BitVec 32
  top     : BitVec 32
  fseq    : BitVec 16
  held    : List Msg
  syncing : Bool
  tries   : Nat
  unreach : Bool
  synced  : Bool
  nrPsn   : Option (BitVec 32)
  nrWait  : Bool
  floor   : BitVec 32
  deriving DecidableEq, Repr

/-- A receive sequence (R315 to R317), one per source, source hub and class. `asm` holds the payloads of the flits of a message that
is partly received, `winMsg` the window message that those of a WRITE have opened, and `asked` the address that the last RESYNC was sent to. -/
structure RxSeq where
  epoch    : BitVec 16
  expected : BitVec 32
  fseq     : BitVec 16
  synced   : Bool
  gapSent  : Bool
  refused  : List (BitVec 32 × Nat)
  nrPsn    : Option (BitVec 32)
  respDue  : Bool
  asm      : List (List Byte)
  winMsg   : Option Nat
  asked    : Nat
  deriving DecidableEq, Repr

/-- Who sent a message that waits for its answer, so that the answer reaches it (R314, R316). -/
inductive MsgOwner where
  | ring (cluster ring : Nat) (count : BitVec 32)
  | amo (cluster : Nat)
  | pour (hub q : Nat)
  | coll (group collId : Nat) (tag : BitVec 12)
  | none
  deriving DecidableEq, Repr

/-- A sent message whose answer is awaited. An operation with a response waits for that (R314). -/
structure Awaited where
  hub   : Nat
  dst   : Nat
  cls   : Nat
  psn   : BitVec 32
  op    : Nat
  owner : MsgOwner
  deriving DecidableEq, Repr

/-- A fabric port (R302 to R305, R333). `replay` holds the flits sent and not acknowledged, oldest first; `skipping` tells that
arriving flits are discarded until the replay begins; `replays` counts the replays in a row of flit `replayOf`; `credits` counts
per VC the DATA flits sent whose credit has not come back; `queue` are the payloads that wait for a credit or for room in the replay buffer, with
their VC; `sent` is every flit that the port has sent, oldest first (DESIGN CHOICE, log 114); `holds` are the messages that this port has answered NOT_READY for want
of relaying, by sequence and epoch (R332). -/
structure FabPort where
  st       : BitVec 2
  cause    : BitVec 8
  peer     : BitVec 16
  peerPort : BitVec 4
  txSeq    : BitVec 12
  rxSeq    : BitVec 12
  replay   : List (BitVec 2048)
  skipping : Bool
  replays  : Nat
  replayOf : BitVec 12
  credits  : Tbl Nat
  laser    : Bool
  queue    : List (Nat × List Byte)
  sent     : List (BitVec 2048)
  holds    : List (Nat × BitVec 32)
  deriving DecidableEq, Repr

/-! ### Host Ethernet -/

/-- The RC request opcodes of R336; `bad` is any other, or one with immediate or invalidate. -/
inductive HostOp where
  | send
  | write
  | read
  | cas
  | faa
  | bad
  deriving DecidableEq, Repr

/-- A queue pair (R337 to R349). `cursor` is the next tensor address of a WRITE in progress with the bytes left, `sendBytes` the bytes of a SEND
in progress, `due` the request whose bytes have not all landed, with the tensor address of an atomic, `queue` the packets
behind it (R341), and `was` the cycle in which its state last changed with the state before that (R337). -/
structure QP where
  ctx0    : Word
  expPsn  : BitVec 24
  gid     : BitVec 128
  rqBase  : Word
  rqCfg   : Word
  wp      : BitVec 32
  rp      : BitVec 32
  fault   : Word
  atomics : List (BitVec 24 × BitVec 64)
  rc      : BitVec 64
  rt      : BitVec 64
  alpha   : BitVec 64
  cnpN    : Nat
  cnpSeen : Bool
  cnpSent : Option Nat
  admitted : Bool
  nakSent : Bool
  cursor  : Option (Nat × Nat)
  sendBytes : Option Nat
  due     : Option (HostOp × Packet × Nat)
  queue   : List (HostOp × Packet)
  was     : Option (Nat × Nat)
  deriving DecidableEq, Repr

/-- A memory region (R340, R350). -/
structure MR where
  cfg : Word
  va  : Word
  len : Word
  ta  : Word
  deriving DecidableEq, Repr

/-- The connection-management endpoint of an unowned port (R339). -/
structure Endpoint where
  gid : BitVec 128
  qpn : BitVec 24
  psn : BitVec 24
  deriving DecidableEq, Repr

/-- Why a REQ is rejected (R339): an endpoint is held, or the service is none of the device's. -/
inductive RejReason where
  | consumer
  | service
  deriving DecidableEq, Repr

/-- What the device answers on a host port (R340 to R349, R339). -/
inductive Answer where
  | ack
  | nakSequence
  | nakInvalid
  | nakAccess
  | nakOperational
  | rnr (code : BitVec 5)
  | readData (d : List Byte)
  | atomic (old : BitVec 64)
  | cnp
  | cmRep
  | cmRej (why : RejReason)
  | cmDrep
  | xoff
  | xon
  deriving DecidableEq, Repr

/-- An answer with its port, queue pair, PSN and traffic class (R335). -/
structure Reply where
  port : Nat
  qp   : Nat
  psn  : BitVec 24
  cls  : BitVec 3
  ans  : Answer
  deriving DecidableEq, Repr

/-- A host port (R334, R345, R347, R348): link, receive buffer, classes for which X-off was sent, quanta of the classes paused by the partner,
the busy watermark, the endpoint held by connection management, the first requests admitted in one millisecond, and the answers that wait for a
paused class. -/
structure HPort where
  link   : Bool
  occ    : Nat
  classOcc : Tbl Nat
  xoff   : BitVec 8
  paused : Tbl Nat
  high   : Bool
  held   : Option Endpoint
  msNum  : Nat
  msUsed : Nat
  txWait : List Reply
  deriving DecidableEq, Repr

/-! ### Bridges, power, inputs -/

/-- One direction of a package bridge (R18, R407): the replays in a row of the word that is next to be forwarded, the words forwarded, the
replays asked for, and at the sending endpoint the replay buffer (words sent and not yet forwarded, in order) and the words put on the link again. -/
structure BridgeLink where
  replays : Nat
  passed  : List Nat
  asked   : Nat
  buffer  : List Nat
  resent  : List Nat
  deriving DecidableEq, Repr

/-- A package bridge (R14, R407): whether it is down, and its two directions. -/
structure Bridge where
  down : Bool
  out  : BridgeLink
  back : BridgeLink
  deriving DecidableEq, Repr

/-- Power, straps, input filters and pins (R379 to R393, R434 to R441). `input` is an input within 40 to 60 V; `strapBoot` and `strapAddr` are
the strap pins and `i3cAddr` what bring-up step 1 read of the address (`PWR_STATE` holds BOOT_LISTEN); `steps` holds the bring-up steps that run, as 32 * step + unit;
`pllBad` the clock domains whose PLL has not locked; `lastIn` the time of the last accepted assertion of each input, plus one; `rdyAt` the time at
which each ready bit last set; `i3cOut` the bytes of the last private read and `i3cAck` whether the last private transfer was acknowledged; `cycled`
tells that RESET_N has been asserted since the input fault that holds FAULT_N low (R434), `failed` holds the bring-up units whose self-test failed (R392), as
`steps` does, and `softAt` is the cycle of the last soft reset of the management page (R386, R448). -/
structure Power where
  pgood    : Bool
  inReset  : Bool
  input    : Bool
  pwrEn    : Bool
  strapBoot : Bool
  strapAddr : BitVec 2
  i3cAddr  : BitVec 2
  wakeHeld : Bool
  steps    : List Nat
  pllBad   : List Nat
  therm    : Bool
  faultPin : Bool
  syncOut  : Bool
  lastIn   : Tbl Nat
  i3cPtr   : BitVec 8
  i3cOut   : List Byte
  mgmtDown : Bool
  rdyAt    : Tbl Nat
  i3cAck   : Bool
  cycled   : Bool
  failed   : List Nat
  softAt   : Nat
  deriving DecidableEq, Repr

/-! ### Root of trust -/

/-- One copy of an MRAM record: sequence number, CRC-32 and data (R413). -/
structure MramCopy where
  seq   : Nat
  crc   : BitVec 32
  data  : List Byte
  deriving DecidableEq, Repr

/-- An MRAM record: its two copies (R413). -/
structure MramRec where
  a : MramCopy
  b : MramCopy
  deriving DecidableEq, Repr

/-- The causes of `SIG_INVALID` (R415). -/
inductive SigCause where
  | signature
  | rollback
  deriving DecidableEq, Repr

/-- The root of trust (R412 to R428). An MRAM record that is not listed stands as manufactured. `lastEvt` holds the time of the last alarm of
each event, plus one; `flash` is the 64 MiB part (R446); `policy` is the installed policy, read at boot, and `policyWas` the one before it with
the cycle in which it was replaced (R421); `sigCause` is the cause of the last SIG_INVALID
(R415), `deviceKey` the DeviceID key, `cdi`, `aliasKey` and `aliasCert` what the boot derived from it (R412); `sinceSeed` the DRBG requests since the last seed; `tapReg` the data register that the last JTAG instruction selected. -/
structure Rot where
  mram     : Tbl MramRec
  pcrs     : Tbl (List Byte)
  nonce    : Option (List Byte × Nat)
  newPolicy : Option (List Byte)
  level    : BitVec 2
  lastEvt  : Tbl Nat
  flash    : Mem
  policy   : List Byte
  policyWas : Option (Nat × List Byte)
  sigCause : Option SigCause
  deviceKey : Option (BitVec 384)
  aliasKey : Option (BitVec 384)
  aliasCert : List Byte
  cdi      : Option (BitVec 384)
  pufOk    : Bool
  dbg    : BitVec 2
  unlocking : Bool
  unlockPaths : BitVec 2
  drbgReqs : Nat
  sinceSeed : Nat
  tapReg   : BitVec 32
  deriving DecidableEq, Repr

/-- What faults and events do to the management core and the pins (R353, R356): `held` keeps, by page address, the classes that hold ALERT_N
low in bits [15:0] and those that hold FAULT_N low in bits [31:16]; `irqs` counts the interrupts of the management core. -/
structure Alerts where
  held : Tbl Word
  irqs : Nat
  deriving DecidableEq, Repr

/-! ### The device -/

/-- What else every unit sees in a cycle (R10): the tiles and the pages as they stood when the cycle began. -/
structure Units where
  tiles : Tbl Tile
  pages : Tbl Page
  deriving DecidableEq, Repr

/-- The state of the device. `cycle` counts CORE cycles, `seen` and `units` are what its units see in the present one (R10), and `t0` is the cycle of the last device reset (DEV_TIME). `free` is the
model's own field, not the spec's: it numbers the free values drawn from Config. `census` holds the census events on their way to
their records (R231). `armed` holds the (page, code) pairs of injected
faults that act at the next access of their mechanism (R410). `lost` holds the frame runs that invalid map entries name, as (bulk, first frame, frames) (R408). `bulkKeys` holds
the key tables of the two bulk controllers (R286): slot 4,096 i + tag is that of a tag in controller i; `flips` the granules of tensor space, by address / 64, that hold a single-bit error (R287). `collIn` holds the collective messages whose collective or attempt has not begun here. `out` holds the Lerpel messages sent and not yet
taken by the fabric, `replies` the answers given to hosts. -/
structure State where
  pending  : List Instr
  cycle    : Nat
  t0       : Nat
  free     : Nat
  regs     : Tbl Word
  snaps    : Tbl (Tbl Word)
  mem      : Stores
  seen     : Seen
  units    : Units
  tiles    : Tbl Tile
  clusters : Tbl Cluster
  arrivals : List Arrival
  flying   : List Flying
  msgs     : Tbl WinMsg
  census   : List (BitVec 12 × BitVec 12 × CensusCounts)
  pages    : Tbl Page
  badSlots : List Nat
  lost     : List (Bool × Nat × Nat)
  bulkKeys : Tbl (BitVec 512)
  flips    : List Nat
  writes   : List TWrite
  armed    : List (Nat × Nat)
  jobs     : Tbl Job
  pour     : Tbl PourQ
  colls    : List Coll
  collIn   : List (BitVec 12 × CollKind × CollData)
  tx       : Tbl TxSeq
  rx       : Tbl RxSeq
  awaited  : List Awaited
  out      : List Msg
  fab      : Tbl FabPort
  qps      : Tbl QP
  mrs      : Tbl MR
  hports   : Tbl HPort
  replies  : List Reply
  bridges  : Tbl Bridge
  alerts   : Alerts
  power    : Power
  rot      : Rot
  deriving DecidableEq, Repr

/-! ### Values at reset -/

/-- A tile after reset: everything zero, empty or off (R7, R49, R103). -/
def Tile.reset : Tile :=
  { part := false, active := 0, pc := 0, pcs := [], ctrs := [], loops := [], seqBits := 0, ctxState := [], srKey := 0,
    loadBank := 0, loadPtr := [], scalePtr := [], streams := [], ssFifo := [], block := none, delivers := [], agenUse := [],
    vq := [], vecFree := 0, parts := [], steer := [], outs := [], leaving := [], steerIn := [], wfas := [], wbuf := [], bankFrom := [], access := [],
    clash := (0, []), bankUsed := [], wfaDone := [], past := none, steerRec := false, blockRow := none, abftInj := false, parInj := false,
    eccInj := false, stInj := false, stNext := 0 }

/-- A steering unit with nothing held. -/
def SteerUnit.reset : SteerUnit := { token := none, paired := none, holdA := none, holdB := none }

/-- The walker after reset: IDLE (R125). -/
def Walker.reset : Walker :=
  { st := .idle, cur := 0, wait := 0, fill := false, unmet := 0, chosen := none, cyc := 0, waitFrom := none, waitCnt := 0,
    stalled := false, stopReq := false, stopAt := none, stopTile := 0, issued := 0, skip := false }

/-- A ring after reset: disabled (R288). -/
def Ring.reset : Ring :=
  { cfg := 0, prod := 0, cons := 0, error := false, err := 0, flight := [] }

/-- A cluster after reset. -/
def Cluster.reset : Cluster :=
  { walker := Walker.reset, barCause := 0, barIrq := false, barReset := false, barRinsed := false, barTrap := 0, rings := [], wbuf := [], bankFrom := [],
    bankUsed := [], reqUsed := [], reqData := [], reqWait := [], rrLast := false, run := none, heldStart := none, cupOrd := 0, cupSlots := [], cupHist := [], cupInj := false,
    barRet := 0, claimRet := 0, phaseCmds := [], amoNow := [], doneNow := (0, 0) }

/-- A window message of which nothing has arrived. -/
def WinMsg.reset : WinMsg :=
  { refused := false, code := 0, waiting := 0, lastIn := false, counter := none, origin := .unit, live := false,
    muted := false, amo := none, old := 0 }

/-- A page that is not mapped. -/
def Page.reset : Page :=
  { sz := 0, tag := 0, hint := 0, st := .free, closed := false, bulk := false, frame := 0, copy := none, dest := none,
    destCopy := false, filling := false, acc := 0, holds := 0, pendEv := false, want := false, wantDie := 0, prefetch := false, newHint := none, hintCmd := false,
    counted := false }

/-- The loss record after binding: no loss seen (R232). -/
def LossRec.reset : LossRec :=
  { cfg := 0x40C0_0000_0020_0106, mean := 0, var := 0, count := 0, last := none, spike := false, nonfin := false, spikeStep := 0 }

/-- No census counts. -/
def CensusCounts.zero : CensusCounts := { elem := 0, zero := 0, sat := 0, nonfin := 0, uflow := 0 }

/-- A census record with nothing counted. -/
def CensusRec.reset : CensusRec := { live := CensusCounts.zero, snap := CensusCounts.zero }

/-- No published noise statistics. -/
def NoiseRec.reset : NoiseRec := { sl := 0, sr := 0, bn := 0, info := 0, step := 0 }

/-- A lease record of a shard with no lease (R189). -/
def LeaseRec.reset : LeaseRec :=
  { step := 0, n := 0, ret := none, defer := [], served := [], applied := [], pend := none, late := none }

/-- A FREE job entry (R361). -/
def Job.reset : Job :=
  { st := .free, seed := 0, image := 0, fault := 0, status := 0, jepoch := 0, cmdBusy := none, policy := 0, quota := 0,
    stages := [], division := [], ringRec := [], groups := [], maps := [], mapHubs := [], shards := [], programs := [], profile := [], leases := [],
    vetoed := [], ran := [], halted := false, dmaHeld := false, stepLast := 0, origin := 0, mismatch := 0, census := [],
    loss := LossRec.reset, noise := [], kept := [], poisoned := [], window := none, sealOrder := [], cup := [], bindAt := none }

/-- A pour queue after reset: disabled (R243, R255). -/
def PourQ.reset : PourQ :=
  { cfg := 0, fifo := [], req := none, ending := none, error := false, fault := 0, step := 0, number := 0, scnt := [] }

/-- A partial to which nothing has been added. -/
def CollPart.reset : CollPart :=
  { vals := [], poison := [], sumsq := [], origin := none, level := 1, sent := false, cen := CensusCounts.zero }

/-- A send sequence at reset: epoch and numbers zero, not yet synchronised (R315). -/
def TxSeq.reset : TxSeq :=
  { epoch := 0, psn := 0, emit := 0, top := 0, fseq := 0, held := [], syncing := false, tries := 0, unreach := false, synced := false, nrPsn := none, nrWait := false,
    floor := 0 }

/-- A receive sequence at reset. -/
def RxSeq.reset : RxSeq :=
  { epoch := 0, expected := 0, fseq := 0, synced := false, gapSent := false, refused := [], nrPsn := none,
    respDue := false, asm := [], winMsg := none, asked := 0 }

/-- A fabric port after reset: DARK, as its ROLE is OFF (R301, R305, R333). -/
def FabPort.reset : FabPort :=
  { st := 0, cause := 0, peer := 0, peerPort := 0, txSeq := 0, rxSeq := 0, replay := [], skipping := false, replays := 0,
    replayOf := 0, credits := [], laser := true, queue := [], sent := [], holds := [] }

/-- A queue pair after reset: RESET (R337); rates at 400e9 bit/s and alpha 1.0 in binary64 (R346). -/
def QP.reset : QP :=
  { ctx0 := 0, expPsn := 0, gid := 0, rqBase := 0, rqCfg := 0, wp := 0, rp := 0, fault := 0, atomics := [], rc := 0x42574876e8000000, rt := 0x42574876e8000000, alpha := 0x3ff0000000000000,
    cnpN := 0, cnpSeen := false, cnpSent := none, admitted := false, nakSent := false, cursor := none, sendBytes := none,
    due := none, queue := [], was := none }

/-- A memory region after reset: not valid (R350). -/
def MR.reset : MR := { cfg := 0, va := 0, len := 0, ta := 0 }

/-- A host port after reset: link down. -/
def HPort.reset : HPort :=
  { link := false, occ := 0, classOcc := [], xoff := 0, paused := [], high := false, held := none, msNum := 0, msUsed := 0, txWait := [] }

/-- A bridge after reset: up, nothing replayed. -/
def BridgeLink.reset : BridgeLink := { replays := 0, passed := [], asked := 0, buffer := [], resent := [] }
/-- A bridge after reset. -/
def Bridge.reset : Bridge := { down := false, out := BridgeLink.reset, back := BridgeLink.reset }

/-- Power and inputs while RESET_N is held: input power good, AON only, the straps open and not yet read (R390, R392, R439). -/
def Power.reset : Power :=
  { pgood := true, inReset := true, input := true, pwrEn := true, strapBoot := true, strapAddr := 3, i3cAddr := 0,
    wakeHeld := false, steps := [], pllBad := [], therm := false, faultPin := false, syncOut := false, lastIn := [], i3cPtr := 0,
    i3cOut := [], mgmtDown := false, rdyAt := [], i3cAck := false, cycled := false, failed := [], softAt := 0 }

/-- The factory policy (R420): VERSION 0, no owner keys, the levels of R425 and all other fields zero. -/
def factoryPolicy : List Byte := List.replicate 16 0 ++ [2, 2, 2, 1, 1, 1, 2] ++ List.replicate 489 0

/-- The root of trust after reset: MRAM records as a new part holds them (none), no PCR extended, no nonce. DESIGN CHOICE: log 32. -/
def Rot.reset : Rot :=
  { mram := [], pcrs := [], nonce := none, newPolicy := none, level := 0, lastEvt := [], flash := [],
    policy := factoryPolicy, policyWas := none, sigCause := none, deviceKey := none, aliasKey := none, aliasCert := [], cdi := none, pufOk := true, dbg := 0, unlocking := false, unlockPaths := 0, drbgReqs := 0,
    sinceSeed := 0, tapReg := 0x1B10_4A5D }

/-- Every byte store zero. -/
def Stores.reset : Stores :=
  { tensor := [], sp := [], car := [], ctx := [], vdesc := [], stat := [], scale := [], acc := [], bar := [] }

/-- The device in reset (R7, R390): every register at its reset value, every store zero, no command waiting. DESIGN CHOICE: log 31. -/
def State.reset : State :=
  { pending := [], cycle := 0, t0 := 0, free := 0, regs := [], snaps := [], mem := Stores.reset, seen := { mem := Stores.reset, regs := [] }, units := { tiles := [], pages := [] }, tiles := [], clusters := [],
    arrivals := [], flying := [], msgs := [], census := [], pages := [], badSlots := [], lost := [], bulkKeys := [], flips := [], writes := [], armed := [], jobs := [], pour := [], colls := [], collIn := [],
    tx := [], rx := [], awaited := [], out := [], fab := [], qps := [], mrs := [], hports := [], replies := [], bridges := [], alerts := { held := [], irqs := 0 },
    power := Power.reset, rot := Rot.reset }

/-- The named faults of the model itself. Device faults (R359) are recorded in State and never end a step. DESIGN CHOICE: log 11. -/
inductive Fault where
  /-- Raised by a command with an operand that its field cannot hold: a Lerpel message whose source, destination, hub or class is too
  large, or a thermal sample without its 76 readings. Safe: no such command can be sent. -/
  | operandRange
  deriving DecidableEq, Repr

/-- The named refusals. -/
inductive Refusal where
  /-- Raised by no meaning: the arm of a command that has no meaning yet. Safe: the machine stops. -/
  | notModelled (mnemonic : String)
  deriving DecidableEq, Repr

end Sys2Proof.Machine
end

