-- ==== Sys2Proof/Machine/Ops.lean ====
section
/-! DEFINITION. The operations that every family shares: units, registers, counters, byte stores, bank states, faults (R356),
alarms (R399, R400), a stopped phase (R119) and the barista's interrupt (R120). -/

namespace Sys2Proof.Machine

/-- The outcome of a command. -/
abbrev Result := Host.Outcome State Fault Refusal

/-! ### Units -/

/-- Tile t. -/
def getTile (s : State) (t : Nat) : Tile := tblGet Tile.reset s.tiles t
/-- Replaces tile t. -/
def putTile (s : State) (t : Nat) (v : Tile) : State := { s with tiles := tblSet Tile.reset s.tiles t v }
/-- Cluster c. -/
def getClu (s : State) (c : Nat) : Cluster := tblGet Cluster.reset s.clusters c
/-- Replaces cluster c. -/
def putClu (s : State) (c : Nat) (v : Cluster) : State := { s with clusters := tblSet Cluster.reset s.clusters c v }
/-- The walker of cluster c. -/
def getWalker (s : State) (c : Nat) : Walker := (getClu s c).walker
/-- Replaces the walker of cluster c. -/
def putWalker (s : State) (c : Nat) (w : Walker) : State := putClu s c { getClu s c with walker := w }
/-- The job entry of a tag. -/
def getJob (s : State) (tag : BitVec 12) : Job := tblGet Job.reset s.jobs tag.toNat
/-- Replaces the job entry of a tag. -/
def putJob (s : State) (tag : BitVec 12) (j : Job) : State := { s with jobs := tblSet Job.reset s.jobs tag.toNat j }
/-- Ring r of a cluster. -/
def getRing (s : State) (c r : Nat) : Ring := tblGet Ring.reset (getClu s c).rings r
/-- Replaces ring r of a cluster. -/
def putRing (s : State) (c r : Nat) (v : Ring) : State :=
  let k := getClu s c
  putClu s c { k with rings := tblSet Ring.reset k.rings r v }

/-- Runs a meaning where the unit that a command names exists; a command that names none reaches nothing. DESIGN CHOICE: log 11. -/
def onUnit (exists_ : Prop) [Decidable exists_] (s : State) (f : State → State) : Result := .next (if exists_ then f s else s)
/-- Runs a meaning on a tile of the device. -/
def onTile (t : Nat) (s : State) (f : State → State) : Result := onUnit (t < 1024) s f
/-- Runs a meaning on a cluster of the device. -/
def onCluster (c : Nat) (s : State) (f : State → State) : Result := onUnit (c < 64) s f
/-- Runs a meaning on hub 0 or 1. -/
def onHub (h : Nat) (s : State) (f : State → State) : Result := onUnit (h < 2) s f

/-- The tiles of cluster c, in tile-number order. -/
def tilesOf (c : Nat) : List Nat := (List.range 16).map (16 * c + ·)

/-! ### Bridges (R16, R18, R407) -/

/-- A bridge: 0 D0-D1, 1 D2-D3, 2 D0-D2, 3 D1-D3, 4 HW-D0, 5 HW-D2, 6 HE-D1, 7 HE-D3. -/
def getBridge (s : State) (b : Nat) : Bridge := tblGet Bridge.reset s.bridges b
/-- Replaces a bridge. -/
def putBridge (s : State) (b : Nat) (v : Bridge) : State := { s with bridges := tblSet Bridge.reset s.bridges b v }
/-- The bridge of hub h to die d. -/
def hubBridge (h d : Nat) : Nat := 4 + 2 * h + d / 2
/-- The bridges of a route (R16). Ends 0 to 3 are dies, 4 is HW and 5 is HE. Both hub routes cross the row of their first die. -/
def bridgeRoute (a b : Nat) : List Nat :=
  if a = b then []
  else if a < 4 ∧ b < 4 then
    (if a / 2 = b / 2 then [a / 2] else if a % 2 = b % 2 then [2 + a % 2] else [2 + a % 2, b / 2])
  else if 4 ≤ a ∧ 4 ≤ b then (if a = 4 then [4, 0, 6] else [7, 1, 5])
  else
    let d := min a b
    let h := max a b - 4
    if d % 2 = h then [hubBridge h d] else [d / 2, hubBridge h d]
/-- `BRIDGE_FAIL`. -/
def bridgeFailCode : Nat := 0x7007
/-- Whether a route crosses a bridge that is down: every transfer over it fails at its source (R407). -/
def cutOff (s : State) (a b : Nat) : Bool := (bridgeRoute a b).any (fun x => (getBridge s x).down)

/-! ### What is visible in a cycle (R10) -/

/-- The state as the units see it in the present cycle: byte stores and registers as they stood when it began. -/
def seenState (s : State) : State := { s with mem := s.seen.mem, regs := s.seen.regs }
/-- Ends the cycle for the eye: what the stores and registers hold now is visible from here on. -/
def refresh (s : State) : State :=
  { s with seen := { mem := s.mem, regs := s.regs }, units := { tiles := s.tiles, pages := s.pages } }
/-- The state as seen, with the tiles, the pages and the queue pairs as well. -/
def seenUnits (s : State) : State := { seenState s with tiles := s.units.tiles, pages := s.units.pages }

/-! ### Registers and counters -/

/-- The stored value of the register at a control-space address. -/
def reg (s : State) (a : Nat) : Word := tblGet (resetVal a) s.regs a
/-- Writes a register. -/
def setReg (s : State) (a : Nat) (v : Word) : State := { s with regs := tblSet (resetVal a) s.regs a v }
/-- Bits hi to lo of a register. -/
def regF (s : State) (a hi lo : Nat) : Nat := wfld (reg s a) hi lo
/-- Writes bits hi to lo of a register. -/
def setRegF (s : State) (a hi lo v : Nat) : State := setReg s a (wput (reg s a) hi lo v)
/-- Adds n to a counter, which wraps at 2^64 (R357). -/
def addCtr (s : State) (a n : Nat) : State := if n = 0 then s else setReg s a (reg s a + BitVec.ofNat 64 n)
/-- Counts one event. -/
def bump (s : State) (a : Nat) : State := addCtr s a 1
/-- An access to a control-space address of no page (R351). -/
def unmapped (s : State) : State := bump s (devicePage + 0x818)
/-- Sets bit i of a register. -/
def setBit (s : State) (a i : Nat) : State := setReg s a (reg s a ||| BitVec.ofNat 64 (2 ^ i))
/-- An interrupt of the management core (R353, R356). DESIGN CHOICE: log 146. -/
def mgmtIrq (s : State) : State := { s with alerts := { s.alerts with irqs := s.alerts.irqs + 1 } }
/-- Sets the event bit i of a page; an enabled event interrupts the management core (R353). PRESUMED: log 60. -/
def raiseEvent (page i : Nat) (s : State) : State :=
  let s := setBit s (page + 0x50) i
  if wbit (reg s (page + 0x58)) i then mgmtIrq s else s
/-- The classes of a page that hold its pins low, in one of the two halves of a mask. -/
def pinMask (classes : Word) : Word := classes &&& 0xFFFF ||| (classes &&& 0xFFFF) <<< 16
/-- A fault of class c whose severity is ALERT or above (R356): it interrupts the management core, and holds ALERT_N low, and FAULT_N where
the severity is DEVICE, while its bit stays set. -/
def alert (page c : Nat) (device_ : Bool) (s : State) : State :=
  let v := BitVec.ofNat 64 (2 ^ c + if device_ then 2 ^ (16 + c) else 0)
  mgmtIrq { s with alerts := { s.alerts with held := tblSet 0 s.alerts.held page (tblGet 0 s.alerts.held page ||| v) } }
/-- Class bits of a page are cleared, and no longer hold the pins. -/
def alertClear (page : Nat) (classes : Word) (s : State) : State :=
  { s with alerts := { s.alerts with held := tblSet 0 s.alerts.held page (tblGet 0 s.alerts.held page &&& ~~~ pinMask classes) } }
/-- Whether a block is enabled (R354): one with EN 0 starts no work. DEDUCED: log 46. -/
def blkEn (s : State) (base : Nat) : Bool := wbit (reg s (base + 0x10)) 0
/-- Writes a record that holds only the first of its kind. -/
def recordFirst (s : State) (a : Nat) (v : Word) : State := if reg s a = 0 then setReg s a v else s

/-- `DEV_TIME`: AON cycles of 20 ns since device reset, 22 CORE cycles each (R10, R377; DEDUCED, log 6). -/
def devTime (s : State) : Nat := (s.cycle - s.t0) / 22
/-- Microseconds in CORE cycles (1.1 GHz, R21). -/
def usCycles (n : Nat) : Nat := 1100 * n

/-- A word from a list of (bit position, value) fields. -/
def packWord (l : List (Nat × Nat)) : Word := BitVec.ofNat 64 (l.foldl (fun a p => a + p.2 * 2 ^ p.1) 0)

/-! ### Readiness (R360, R377, R393) -/

/-- The clock domains that the function of a `DEV_READY` bit needs. -/
def readyClocks (i : Nat) : List Nat :=
  if i = 0 then [1] else if i = 1 then [2] else if i < 6 then [15 + i] else if i < 12 then [i - 5]
  else if i = 12 then [7, 8, 9, 10, 11, 12, 13, 14] else if i < 17 then [15, 16] else [21 + (i - 32) / 4]
/-- The bring-up unit whose end sets a ready bit, as 32 * step + unit (R392). -/
def readyStep (i : Nat) : Nat :=
  if i = 0 then 64 else if i = 1 then 96 else if i < 6 then 126 + i else if i < 12 then 152 + i else if i = 12 then 192
  else if i < 16 then 224 else if i = 16 then 256 else 256 + i
/-- Whether a move down to LISTEN or STANDBY runs, after which the function of a ready bit is off (R380). -/
def readyLeaves (s : State) (i : Nat) : Bool :=
  let w := reg s (mgmtPage + 0x100)
  wbit w 63 && (wfld w 10 8 == 1 || (wfld w 10 8 == 2 && decide (6 ≤ i)))
/-- A ready bit sets at the edge at which its function can be used; one whose PLL has not locked, whose self-test has failed or which a move
down clears stays clear. -/
def setReady (i : Nat) (s : State) : State :=
  if (readyClocks i).any (s.power.pllBad.contains ·) ∨ s.power.failed.contains (readyStep i) ∨ readyLeaves s i
      ∨ wbit (reg s (devicePage + 0x100)) i then s
  else
    let s := setBit s (devicePage + 0x100) i
    { s with power := { s.power with rdyAt := tblSet 0 s.power.rdyAt i (devTime s) } }
/-- Clears ready bits. -/
def clearReady (l : List Nat) (s : State) : State :=
  setReg s (devicePage + 0x100) (reg s (devicePage + 0x100) &&& ~~~ packWord (l.eraseDups.map (fun i => (i, 1))))

/-! ### Bindings -/

/-- The job tag to which cluster c is bound (`CLU_BIND`, R361, R373); none when it is not bound. -/
def cluTag (s : State) (c : Nat) : Option (BitVec 12) :=
  let w := reg s (clusterBase c + 0x680)
  if wfld w 63 61 = 2 then some (BitVec.ofNat 12 (wfld w 51 40)) else none
/-- The tag a cluster shows whatever its state: bound, quiescing, rinsing or stuck. -/
def cluOwner (s : State) (c : Nat) : Option (BitVec 12) :=
  let w := reg s (clusterBase c + 0x680)
  if wfld w 63 61 = 0 then none else some (BitVec.ofNat 12 (wfld w 51 40))
/-- Whether a cluster's resources refuse under R368: quiescing, rinsing or stuck. -/
def cluBlocked (s : State) (c : Nat) : Bool :=
  let st := wfld (reg s (clusterBase c + 0x680)) 63 61
  st == 3 || st == 4 || st == 5
/-- Counts an access that is refused with a code, where the code is `RINSE_BLOCKED` (R368). -/
def rinseCount (code : Nat) (s : State) : State := if code = 0x2006 then bump s (devicePage + 0x810) else s
/-- Whether a power domain is on (R376, R396). -/
def domainOn (s : State) (d : Nat) : Bool := wbit (reg s (mgmtPage + 0x110)) d
/-- The power domain of a cluster (R375). -/
def cluDomain (c : Nat) : Nat := 14 + 4 * (c / 16) + c % 16 / 4
/-- An access to a page of a power domain: to one that is off it has no effect and counts (R376). -/
def inDomain (d : Nat) (s : State) (f : State → State) : State := if domainOn s d then f s else bump s (mgmtPage + 0x808)
/-- The `DMA_DONE` bits of cluster c that completions set in the present cycle (R111). -/
def doneSet (s : State) (c : Nat) : Word :=
  let k := getClu s c
  if k.doneNow.1 = s.cycle then k.doneNow.2 else 0
/-- The clusters bound to a tag. -/
def clustersOf (s : State) (tag : BitVec 12) : List Nat := (List.range 64).filter (fun c => cluTag s c == some tag)
/-- Whether a job is in use: BOUND, or BOUND until an ATTACH began whose rinse still runs (R361). -/
def Job.inUse (j : Job) : Bool := j.st == .bound || (j.st == .binding && j.cmdBusy == some 2)
/-- The tags of every job in use. -/
def boundTags (s : State) : List (BitVec 12) :=
  s.jobs.filterMap (fun p => if p.2.inUse then some (BitVec.ofNat 12 p.1) else none)
/-- The physical cluster that holds a logical cluster number of a job (R364, R373). -/
def physOf (s : State) (tag : BitVec 12) (logical : Nat) : Option Nat :=
  (clustersOf s tag).find? (fun c => wfld (reg s (clusterBase c + 0x680)) 5 0 == logical)
/-- The logical number of cluster c. -/
def logicalOf (s : State) (c : Nat) : Nat := regF s (clusterBase c + 0x680) 5 0
/-- Whether the cluster runs in ZT1 mode (R81). -/
def zt1 (s : State) (c : Nat) : Bool := wbit (reg s (clusterBase c + 0x600)) 0

/-! ### MRAM records (R413) and the policy (R420) -/

/-- The data of MRAM record i as manufactured: 0 helper data, 1 DeviceID certificate, 2 MAC addresses, 3 FW_SVN, 4 policy, 5 alarm log,
6 boot count. -/
def factoryData : Nat → List Byte
  | 3 => List.replicate 8 0
  | 4 => factoryPolicy
  | 6 => List.replicate 4 0
  | _ => []
/-- A copy of a record with its CRC-32 (R206, R413). -/
def mramCopy (seq : Nat) (d : List Byte) : MramCopy := { seq := seq, crc := BitVec.ofNat 32 (crc32 d), data := d }
/-- Whether a copy of a record passes its CRC-32. -/
def MramCopy.valid (c : MramCopy) : Bool := crc32 c.data == c.crc.toNat
/-- MRAM record i. -/
def mramRec (s : State) (i : Nat) : MramRec :=
  match tblFind s.rot.mram i with
  | some r => r
  | none => { a := mramCopy 0 (factoryData i), b := { seq := 0, crc := 1, data := [] } }
/-- The copy a read of an MRAM record takes: the valid one with the higher sequence number. -/
def mramPick (r : MramRec) : Option MramCopy :=
  if r.a.valid ∧ (r.b.valid → r.b.seq ≤ r.a.seq) then some r.a else if r.b.valid then some r.b else none
/-- The data of MRAM record i; none where neither copy is valid. -/
def mramData (s : State) (i : Nat) : Option (List Byte) := (mramPick (mramRec s i)).map (·.data)
/-- The policy that MRAM holds; the factory policy where the record cannot be read (DESIGN CHOICE, log 164). -/
def mramPolicy (r : Rot) : List Byte := match tblFind r.mram 4 with
  | some c => ((mramPick c).map (·.data)).getD factoryPolicy
  | none => factoryPolicy
/-- The installed policy record. -/
def policyBytes (s : State) : List Byte := s.rot.policy
/-- A field of the installed policy record. -/
def policyField (s : State) (off n : Nat) : Nat := leNat (((policyBytes s).drop off).take n)
/-- The policy's REQUIRE_KEY flag. -/
def requireKey (s : State) : Bool := bit (policyField s 10 1) 1
/-- The policy's HIDE_KEY flag. -/
def hideKey (s : State) : Bool := bit (policyField s 10 1) 2

/-! ### Free values -/

/-- Draws the next free value (DESIGN CHOICE, log 1). -/
def drawFree (s : State) : BitVec 64 × State := (Config.freeValue s.free, { s with free := s.free + 1 })

/-! ### Alarms (R398 to R400) -/

/-- The scopes of R399. -/
inductive Scope where
  | resource (tag : Option (BitVec 12))
  | die (d : Nat)
  | device
  deriving DecidableEq, Repr

/-- The scope's code in `SAFE_JOB_FIRST` (R411). -/
def scopeCode : Scope → Nat
  | .resource _ => 0
  | .die _ => 1
  | .device => 2

/-- Whether a job has a cluster, a page, a clean copy or a move destination on die d (R399). Bits 21 to 20 of a crema
frame are its stack (R275). -/
def jobOnDie (s : State) (tag : BitVec 12) (d : Nat) : Bool :=
  (clustersOf s tag).any (fun c => c / 16 == d) ||
  s.pages.any (fun p => p.2.tag == tag && p.2.st != .free &&
    ((!p.2.bulk && p.2.frame.toNat / 0x10_0000 == d)
      || (match p.2.copy with | some f => f.toNat / 0x10_0000 == d | none => false)
      || (p.2.st != .evicting && (match p.2.dest with | some f => f.toNat / 0x10_0000 == d | none => false))))

/-- Whether a scope reaches a job (R399). -/
def scopeHas (s : State) (sc : Scope) (tag : BitVec 12) : Bool :=
  match sc with
  | .resource t => t == some tag
  | .die d => jobOnDie s tag d
  | .device => true

/-- Records an alarm in one job's open window (R400). -/
def alarmJob (page code : Nat) (sc : Scope) (tag : BitVec 12) (s : State) : State :=
  let j := getJob s tag
  match j.window with
  | none => s
  | some w =>
    if w.alarm then s
    else putJob s tag { j with window := some { w with
      alarm := true, first := packWord [(48, code), (46, scopeCode sc), (0, page / 0x1000)] } }

/-- Raises an alarm: the counter, `SAFE_FIRST` and the open windows of the bound jobs in its scope (R399, R400). -/
def alarm (page code : Nat) (sc : Scope) (s : State) : State :=
  let s := bump s (mgmtPage + 0x830)
  let s := recordFirst s (mgmtPage + 0x220) (packWord [(48, code), (0, devTime s % 2 ^ 48)])
  forAll ((boundTags s).filter (scopeHas s sc)) s (alarmJob page code sc)

/-! ### A stopped phase (R119) -/

/-- Interrupts the barista of cluster c with a cause and an entry (R120). -/
def baristaIrq (c cause entry : Nat) (s : State) : State :=
  let k := getClu s c
  putClu s c { k with barCause := BitVec.ofNat 16 (entry % 256 * 256 + cause), barIrq := true }

/-- Sets the poison bits of row groups base to base + depth in the slices a block writes (R54, R58, R119): all four, or slice 0
with STAT 00. -/
def poisonBlock (t : Nat) (a : BlockArgs) (s : State) : State :=
  let m := bits (min 63 (a.base.toNat + a.depth.toNat)) a.base.toNat
  let slices := if a.stat = 0 then [0] else [0, 1, 2, 3]
  forAll slices s (fun q s => setReg s (tileBase t + 0x140 + 8 * q) (reg s (tileBase t + 0x140 + 8 * q) ||| BitVec.ofNat 64 m))

/-- A block abandoned under R119 frees its cupping slot without a compare (R228). -/
def abandonSample (t : Nat) (s : State) : State :=
  let c := t / 16
  let k := getClu s c
  let keep := k.cupSlots.filter (fun p => !(p.tile == t && p.due.isNone))
  addCtr (putClu s c { k with cupSlots := keep }) (clusterBase c + 0x870) (k.cupSlots.length - keep.length)

/-- Byte address of view element (row r, column f) of a tile's accumulators (R51). -/
def accAt (t r f : Nat) : Nat := t * 0x4_0000 + 4 * (64 * r + f)
/-- Result columns of a block: 64, or 16 with STAT 00 (R47). -/
def blockCols (a : BlockArgs) : Nat := if a.stat = 0 then 16 else 64

/-- Writes a finished row group (R53, R54): the accumulator entries, and the poison bits an overwrite clears. -/
def writeGroup (t : Nat) (a : BlockArgs) (g : Nat) (run : List (BitVec 32)) (s : State) : State :=
  let cols := blockCols a
  let m := run.zipIdx.foldl (fun m p => memSetNat m (accAt t (16 * g + p.2 / cols) (p.2 % cols)) 4 p.1.toNat) s.mem.acc
  let s := { s with mem := { s.mem with acc := m } }
  if a.mode = 0 then
    forAll (List.range (if a.stat = 0 then 1 else 4)) s (fun q s => setRegF s (tileBase t + 0x140 + 8 * q) g g 0)
  else s

/-- The row groups whose write cycle has come are written (R53, R453). -/
def flushAcc (t : Nat) (s : State) : State :=
  match (getTile s t).block with
  | none => s
  | some b =>
    let keep : Block := { b with held := b.held.filter (fun q => decide (s.cycle < q.2.1)) }
    forAll (b.held.filter (fun q => decide (q.2.1 ≤ s.cycle))) (putTile s t { getTile s t with block := some keep })
      (fun q s => writeGroup t b.args q.1 q.2.2 s)

/-- The block that holds the matrix engine in the present cycle: the running one, or one that ended or was abandoned in it, which holds
the engine and its row groups up to the edge that ends the cycle (R48, R53). -/
def heldBlock (s : State) (t : Nat) : Option Block :=
  match (getTile s t).block with
  | some b => some b
  | none => ((getTile s t).past.filter (fun p => p.1 == s.cycle)).map (·.2)

/-- What a stop does in one tile (R119): a running block is abandoned and its groups poisoned
once the writes of the cycle are made, vector instructions that have not
started are discarded, and deliveries to the matrix engine in flight are discarded. The tile takes part in the phase up to the edge that
ends the cycle (R452). -/
def stopTile (t : Nat) (s : State) : State :=
  let x := getTile s t
  let s := match x.block with
    | some b => abandonSample t (poisonBlock t b.args (flushAcc t s))
    | none => s
  putTile s t { x with block := none, past := (x.block.map (fun b => (s.cycle, b))).orElse (fun _ => x.past),
                       vq := x.vq.filter (fun e => e.started.isSome),
                       delivers := x.delivers.filter (fun d => d.route == 4) }

/-- Withdraws the arrivals of cluster c at die barriers (R98, R117, R121). -/
def withdraw (c : Nat) (s : State) : State := { s with arrivals := s.arrivals.filter (fun a => a.cluster != c) }

/-- The entry a stop records (R98, R125): the running entry, the waiting entry, or the last entry. -/
def stopEntry (w : Walker) : BitVec 8 :=
  match w.st with
  | .sampling | .barrier | .call => w.wait
  | _ => w.cur

/-- Whether cluster c has been STOPPED since an earlier cycle: a further stopping fault then updates only `ERR_STATUS` (R119). -/
def stoppedBefore (s : State) (c : Nat) : Bool :=
  let w := getWalker s c
  decide (w.st = .stopped) && decide (w.stopAt ≠ some s.cycle)

/-- The cluster enters STOPPED with a fault (R98, R119), which ends its wait (R114). Of the faults of one cycle `PHASE_FAULT` keeps that
of the lowest-numbered tile (R452), and a fault of no tile, whose number here is 16, takes the place of none; a cluster STOPPED earlier changes nothing. A fault that stops a phase stops the walker in every other
state as well. DESIGN CHOICE: log 122. -/
def stopCluster (c code tile : Nat) (s : State) : State :=
  let w := getWalker s c
  let a := clusterBase c + 0x148
  if w.st = .stopped then
    if w.stopAt = some s.cycle ∧ tile < w.stopTile then
      putWalker (setReg s a (wput (wput (reg s a) 31 16 code) 7 4 (tile % 16))) c { w with stopTile := tile % 16 }
    else s
  else
    let entry := stopEntry w
    let s := forAll (tilesOf c) (withdraw c s) stopTile
    let s := setReg s a (packWord [(32, wfld (reg s (clusterBase c + 0x800)) 31 0), (16, code), (8, entry.toNat), (4, tile % 16)])
    let s := putWalker s c { getWalker s c with st := .stopped, chosen := none, waitFrom := none, stopReq := false,
                                                stopAt := some s.cycle, stopTile := tile % 16 }
    baristaIrq c 2 entry.toNat s

/-! ### Faults (R356) -/

/-- Records the first fault of a job in `JB_FAULT` (R371, R373). -/
def jobFault (tag : Option (BitVec 12)) (code : Nat) (s : State) : State :=
  match tag with
  | none => s
  | some g =>
    let j := getJob s g
    if j.st = .free then s
    else if wfld j.fault 63 48 = 0 then putJob s g { j with fault := wput j.fault 63 48 code } else s

/-- Severity JOB (R356): every cluster of the job stops and its rings start no further descriptors. DEDUCED: log 48. -/
def severeJob (code : Nat) (tag : BitVec 12) (s : State) : State :=
  let s := forAll (clustersOf s tag) s (fun c s => stopCluster c code 16 s)
  putJob s tag { getJob s tag with dmaHeld := true }

/-- The severity of class c on a page (R353). -/
def severity (s : State) (page c : Nat) : Nat := regF s (page + 0x38) (2 * c + 1) (2 * c)

/-- A block raises a fault (R356): `ERR_STATUS`, `ERR_FIRST`, `DEV_ERR_FIRST`, the job's first fault and the severity's action.
DEDUCED: log 47. -/
def raiseFault (page code : Nat) (tag : Option (BitVec 12)) (s : State) : State :=
  let c := codeClass code
  let s := jobFault tag code (setBit s (page + 0x28) c)
  if wbit (reg s (page + 0x30)) c then s
  else
    let s := if regF s (page + 0x48) 63 48 = 0
      then setReg s (page + 0x48) (packWord [(48, code), (0, devTime s % 2 ^ 48)]) else s
    let s := recordFirst s (devicePage + 0x110) (packWord [(48, code), (0, page / 0x1000)])
    match severity s page c with
    | 2 => match tag with
      | some g => severeJob code g (alert page c false s)
      | none => alert page c false s
    | 3 => forAll (boundTags s) (alert page c true s) (severeJob code)
    | 1 => alert page c false s
    | _ => s

/-- Raises a fault on a page of cluster c's own pages, for the job bound to the cluster. -/
def raiseClu (page c code : Nat) (s : State) : State := raiseFault page code (cluTag s c) s

/-- Sets the class bit of a code in a page's `ERR_STATUS` and nothing else (R119). -/
def errOnly (page code : Nat) (s : State) : State := setBit s (page + 0x28) (codeClass code)

/-- Whether an injected fault of a code on a page acts now, and the state without it (R410). -/
def takeArmed (page code : Nat) (s : State) : Bool × State :=
  if s.armed.contains (page, code) then (true, { s with armed := s.armed.erase (page, code) }) else (false, s)
/-- A resource-scope alarm of a page of cluster c (R398, R399). -/
def resAlarm (page code c : Nat) (s : State) : State := raiseClu page c code (alarm page code (.resource (cluTag s c)) s)
/-- Whether an SRAM read of cluster c that a page's ECC covers meets an injected `SRAM_ECC_UE` of the page, and its alarm (R408, R410). -/
def pageEcc (page c : Nat) (s : State) : Bool × State :=
  let r := takeArmed page 0x2004 s
  if r.1 then (true, resAlarm page 0x2004 c r.2) else (false, s)
/-- The same of a DMA or requester read of the carafe: injected on the DMA page or the carafe page. -/
def carEcc (c : Nat) (s : State) : Bool × State :=
  let r := pageEcc (dmaBase c) c s
  if r.1 then r else pageEcc (carafeBase c) c s

/-- A fault of tile t that stops its cluster's phase; of a cluster STOPPED earlier it updates only `ERR_STATUS` (R119). `MAT_FAULT` keeps
the first fault of class 1 (R62). -/
def faultTile (t code sub group : Nat) (s : State) : State :=
  let b := tileBase t
  if stoppedBefore s (t / 16) then errOnly b code s
  else
    let s := if codeClass code = 1 then
        recordFirst s (b + 0x180) (packWord [(32, wfld (reg s (b + 0x800)) 31 0), (16, code), (8, sub % 256),
          (6, (getTile s t).active.toNat), (0, group % 64)])
      else s
    raiseClu b (t / 16) code (stopCluster (t / 16) code (t % 16) s)

/-- A fault of tile t that stops its cluster's phase and writes a record of its own first, where the cluster was not STOPPED earlier. -/
def faultWith (t code sub group : Nat) (note : State → State) (s : State) : State :=
  faultTile t code sub group (if stoppedBefore s (t / 16) then s else note s)

/-- A network fault of tile t (R126) that stops its cluster's phase. -/
def faultNet (t code net port ctx cause : Nat) (s : State) : State :=
  let b := tileBase t
  faultWith t code 0 0 (fun s => recordFirst s (b + 0x1A0) (packWord [(32, wfld (reg s (b + 0x800)) 31 0), (16, code), (12, cause),
    (10, net), (7, port), (5, ctx)])) s

/-! ### Byte stores -/

/-- Byte address of a tile's scratchpad in the store. -/
def spAt (t off : Nat) : Nat := t * 0x18_0000 + off
/-- Byte address of a cluster's carafe in the store. -/
def carAt (c off : Nat) : Nat := c * 0x180_0000 + off
/-- Byte address of context k's space of a tile: 32,768 bundle bytes and the switch configuration from 0x8000 (R103). -/
def ctxAt (t k off : Nat) : Nat := (4 * t + k) * 0x1_0000 + off
/-- Byte address of a tile's descriptor file. -/
def vdAt (t off : Nat) : Nat := t * 4096 + off
/-- Byte address of row r of quad q of a stationary bank. -/
def statAt (t bank q r : Nat) : Nat := ((2 * t + bank) * 4 + q) * 16384 + 64 * r
/-- Byte address of row r of quad q of a scale store. -/
def scaleAt (t bank q r : Nat) : Nat := ((2 * t + bank) * 4 + q) * 1024 + 64 * r
/-- Byte address of a barista's SRAM (R120). -/
def barAt (c off : Nat) : Nat := c * 0x2_0000 + off

/-- The scratchpad and carafe bytes of a store. -/
def storeMem (s : State) : Store → Mem
  | .sp _ => s.mem.sp
  | .car _ => s.mem.car
/-- The byte address of an offset in a scratchpad or carafe. -/
def storeAt : Store → Nat → Nat
  | .sp t, off => spAt t off
  | .car c, off => carAt c off
/-- Bytes of the space: 1.5 MiB or 24 MiB. -/
def storeSize : Store → Nat
  | .sp _ => 0x18_0000
  | .car _ => 0x180_0000
/-- Bytes of a row: 64 or 128. -/
def storeRow : Store → Nat
  | .sp _ => 64
  | .car _ => 128
/-- The cluster a store belongs to. -/
def storeClu : Store → Nat
  | .sp t => t / 16
  | .car c => c
/-- Whether the store exists. -/
def storeOk : Store → Bool
  | .sp t => decide (t < 1024)
  | .car c => decide (c < 64)
/-- The bank of a row (R159, R164). -/
def storeBank : Store → Nat → Nat
  | .sp _, r => 4 * (r / 4096) + r % 4
  | .car _, r => 8 * (r / 16384) + r % 8
/-- The number of banks. -/
def storeBanks : Store → Nat
  | .sp _ => 24
  | .car _ => 96
/-- The bytes of a masked row: (offset in the row, byte). -/
def maskedBytes (n : Nat) (w : AsyncRow) : List (Nat × Byte) :=
  (List.range n).filterMap (fun i => if w.mask.getLsbD i then some (i, (w.data >>> (8 * i)).setWidth 8) else none)
/-- A store's bytes with those of a masked row written. -/
def rowInto (a : Store) (w : AsyncRow) (m : Mem) : Mem :=
  forAll (maskedBytes (storeRow a) w) m (fun p m => memSet m (storeAt a (w.row * storeRow a) + p.1) p.2)
/-- The value that FADD or CSWAP leaves where it finds `old` (R314). -/
def atomicNew (m : Msg) (old : BitVec 64) : BitVec 64 :=
  if m.op = 4 then old + m.opa else if old = m.opa then m.opb else old
/-- The record of a window message. -/
def getMsg (s : State) (m : Nat) : WinMsg := tblGet WinMsg.reset s.msgs m
/-- The atomic that a row stands for. -/
def rowAmo (s : State) (w : AsyncRow) : Option Msg := w.win.bind (fun r => (getMsg s r.msg).amo.map (·.2))
/-- The address in its store of the 8 bytes of an atomic's row. -/
def amoAddr (a : Store) (w : AsyncRow) : Nat :=
  storeAt a (w.row * storeRow a) + ((maskedBytes (storeRow a) w).map (·.1)).headD 0
/-- A store's bytes with a row landed: its masked bytes, or the new value of its atomic. -/
def rowLand (s : State) (a : Store) (w : AsyncRow) (m : Mem) : Mem :=
  match rowAmo s w with
  | some x => memSetNat m (amoAddr a w) 8 (atomicNew x (BitVec.ofNat 64 (memNat m (amoAddr a w) 8))).toNat
  | none => rowInto a w m
/-- The rows waiting for a bank, oldest first: up to two in its buffer, the others held at their source (R161). -/
def bankQueue (s : State) (a : Store) (b : Nat) : List BankRow :=
  match a with
  | .sp t => tblGet [] (getTile s t).wbuf b
  | .car c => tblGet [] (getClu s c).wbuf b
/-- Replaces the rows waiting for a bank. -/
def putBankQueue (s : State) (a : Store) (b : Nat) (l : List BankRow) : State :=
  match a with
  | .sp t => let x := getTile s t; putTile s t { x with wbuf := tblSet [] x.wbuf b l }
  | .car c => let k := getClu s c; putClu s c { k with wbuf := tblSet [] k.wbuf b l }
/-- A store's bytes with the rows that wait for rows r to r + n - 1 landed in their order: what a requester reads, as a bank serves its
buffered writes before a requester (R166). -/
def drained (s : State) (a : Store) (r n : Nat) : Mem :=
  forAll ((List.range n).map (r + ·)) (storeMem s a) (fun r m =>
    forAll ((bankQueue s a (storeBank a r)).filter (fun w => w.row.row == r)) m (fun w => rowLand s a w.row))
/-- Bytes of the store from an offset, as a requester reads them. -/
def storeRead (s : State) (a : Store) (off n : Nat) : List Byte :=
  memRead (drained s a (off / storeRow a) ((off + n + storeRow a - 1) / storeRow a - off / storeRow a)) (storeAt a off) n
/-- Writes the bytes of a store. -/
def storePut (s : State) (a : Store) (m : Mem) : State :=
  match a with
  | .sp _ => { s with mem := { s.mem with sp := m } }
  | .car _ => { s with mem := { s.mem with car := m } }
/-- Writes bytes into a store from an offset. -/
def storeWrite (s : State) (a : Store) (off : Nat) (l : List Byte) : State :=
  storePut s a (memWrite (storeMem s a) (storeAt a off) l)

/-- A 64-byte row of a byte store. -/
def rowAt (m : Mem) (a : Nat) : Row := BitVec.ofNat 512 (memNat m a 64)
/-- Writes a 64-byte row. -/
def setRow (m : Mem) (a : Nat) (r : Row) : Mem := memSetNat m a 64 r.toNat
/-- Scratchpad row r of tile t. -/
def spRow (s : State) (t r : Nat) : Row := rowAt s.mem.sp (spAt t (64 * r))

/-! ### Bank states (R169, R170) -/

/-- The register that holds a bank's requested state and the bank's field number in it. -/
def bankStateReg : Store → Nat → Nat × Nat
  | .sp t, b => (tileBase t + 0x1F8, b)
  | .car c, b => (carafeBase c + 0x120 + 8 * (b / 32), b % 32)
/-- The register that holds a bank's ready bit and the bit's number. -/
def bankReadyReg : Store → Nat → Nat × Nat
  | .sp t, b => (tileBase t + 0x200, b)
  | .car c, b => (carafeBase c + 0x138 + 8 * (b / 64), b % 64)
/-- A bank's requested state: 0 ON, 1 RETAIN, 2 OFF. -/
def bankReq (s : State) (a : Store) (b : Nat) : Nat :=
  let r := bankStateReg a b
  regF s r.1 (2 * r.2 + 1) (2 * r.2)
/-- A bank's ready bit. -/
def bankReady (s : State) (a : Store) (b : Nat) : Bool :=
  let r := bankReadyReg a b
  wbit (reg s r.1) r.2
/-- Sets or clears a bank's ready bit. -/
def setBankReady (s : State) (a : Store) (b : Nat) (v : Bool) : State :=
  let r := bankReadyReg a b
  setRegF s r.1 r.2 r.2 (b2n v)
/-- A bank that accepts accesses: ON with its ready bit set (R169). -/
def bankOn (s : State) (a : Store) (b : Nat) : Bool := bankReq s a b == 0 && bankReady s a b
/-- Whether every bank that rows r to r + n - 1 touch is ON. -/
def rowsOn (s : State) (a : Store) (r n : Nat) : Bool :=
  (List.range n).all (fun i => bankOn s a (storeBank a (r + i)))

/-! ### Cycle counts -/

/-- The low 32 bits of a tile's `BUNDLE_CNT`. DEDUCED: log 57. -/
def bundleLow (s : State) (t : Nat) : Nat := regF s (tileBase t + 0x800) 31 0
/-- The low 32 bits of a cluster's `CLU_CYCLE`. -/
def cluLow (s : State) (c : Nat) : Nat := regF s (clusterBase c + 0x800) 31 0

/-- Word w of phase-table entry e of cluster c (R107). -/
def phaseWord (s : State) (c e w : Nat) : Word := reg s (phaseWordAddr c e w)

/-- Counter n of a tile (C0 to C7). -/
def ctrOf (x : Tile) (n : BitVec 3) : BitVec 16 := tblGet 0 x.ctrs n.toNat
/-- Writes counter n of a tile. -/
def setCtr (x : Tile) (n : BitVec 3) (v : BitVec 16) : Tile := { x with ctrs := tblSet 0 x.ctrs n.toNat v }
/-- The saved program counter of context k (R105). -/
def pcOf (x : Tile) (k : BitVec 2) : BitVec 10 := tblGet 0 x.pcs k.toNat
/-- The state of context k: 0 EMPTY, 1 LOADING, 2 LOADED, 3 INVALID (R103). -/
def ctxSt (x : Tile) (k : BitVec 2) : BitVec 2 := tblGet 0 x.ctxState k.toNat
/-- The state of context k of tile t as the present cycle sees it (R10). -/
def ctxSeen (s : State) (t : Nat) (k : BitVec 2) : BitVec 2 := ctxSt (tblGet Tile.reset s.units.tiles t) k

end Sys2Proof.Machine
end

