-- ==== Sys2Proof/Machine/Route.lean ====
section
/-! DEFINITION. Lerpel addresses, routing (R307), flits as a port sends them (R302, R310, R311) and the control messages of a receive
sequence (R316). -/

namespace Sys2Proof.Machine

/-- `LINK_DOWN`. -/
def linkDown : Nat := 0x5001

/-- The device address (`FAB_ADDR`, R305). -/
def ownAddr (s : State) : Nat := regF s (fabricPage + 0x100) 15 0
/-- Whether the device address is valid. -/
def addrValid (s : State) : Bool := wbit (reg s (fabricPage + 0x100)) 63
/-- Whether an address is this module's own (R19). -/
def isOwn (s : State) (a : Nat) : Bool := addrValid s && a == ownAddr s

/-- A fabric port. -/
def getPort (s : State) (p : Nat) : FabPort := tblGet FabPort.reset s.fab p
/-- Replaces a fabric port. -/
def putPort (s : State) (p : Nat) (v : FabPort) : State := { s with fab := tblSet FabPort.reset s.fab p v }
/-- Whether a port is UP. -/
def portUp (s : State) (p : Nat) : Bool := (getPort s p).st == 2

/-- Row of a device address (R305). -/
def addrRow (a : Nat) : Nat := a / 1024 % 64
/-- Group of a device address. -/
def addrGroup (a : Nat) : Nat := a / 16 % 64
/-- Member of a device address. -/
def addrMember (a : Nat) : Nat := a % 16

/-! ### Routing (R307) -/

/-- `FAB_GRP_ROUTEm`. -/
def grpRoute (s : State) (m : Nat) : Word := reg s (fabricPage + 0x180 + 8 * m)
/-- The first listed port toward member m that is UP. -/
def directPort (s : State) (m : Nat) : Option Nat :=
  let w := grpRoute s m
  ((List.range 4).map (fun i => wfld w (5 * i + 4) (5 * i))).findSome? (fun e =>
    if bit e 4 ∧ portUp s (e % 16) then some (e % 16) else none)
/-- The group rule: a direct port, else the first relay that an UP port reaches. -/
def groupPort (s : State) (m : Nat) (relay : Bool) : Option Nat :=
  match directPort s m with
  | some p => some p
  | none =>
    if relay then [wfld (grpRoute s m) 34 30, wfld (grpRoute s m) 39 35].findSome? (fun e =>
      if bit e 4 then directPort s (e % 16) else none)
    else none
/-- The row rule: the exit member's ROW port, or the way to that member. -/
def rowPort (s : State) (g : Nat) : Option Nat :=
  let w := reg s (fabricPage + 0x200 + 8 * g)
  if ¬ wbit w 12 then none
  else if wfld w 11 8 = addrMember (ownAddr s) then (if wbit w 4 ∧ portUp s (wfld w 3 0) then some (wfld w 3 0) else none)
  else groupPort s (wfld w 11 8) true
/-- The rules inside this row, for a flit that came from another module or from this one. -/
def inRowPort (s : State) (dst : Nat) (foreign : Bool) : Option Nat :=
  if addrGroup dst = addrGroup (ownAddr s) then groupPort s (addrMember dst) (!foreign) else rowPort s (addrGroup dst)
/-- The port a flit for `dst` takes; none where no route is UP. -/
def routePort (s : State) (dst : Nat) (foreign : Bool) : Option Nat :=
  if addrRow dst = addrRow (ownAddr s) then inRowPort s dst foreign
  else
    let w := reg s (fabricPage + 0x400 + 8 * addrRow dst)
    if ¬ wbit w 31 then none
    else if wfld w 15 0 = ownAddr s then (if wbit w 20 ∧ portUp s (wfld w 19 16) then some (wfld w 19 16) else none)
    else inRowPort s (wfld w 15 0) false

/-! ### Messages as flits (R310, R311) -/

/-- The flits of a message with n data bytes. -/
def flitCount (n : Nat) : Nat := 1 + ceilDiv (n - 184) 232

/-- The route header of flit i of n. -/
def routeHeader (m : Msg) (i n : Nat) : Nat :=
  m.dst % 65536 * 2 ^ 48 + m.src % 65536 * 2 ^ 32 + m.shub % 2 * 2 ^ 31 + m.cls % 4 * 2 ^ 29 + b2n (i == 0) * 2 ^ 28
    + b2n (i + 1 == n) * 2 ^ 27 + m.epoch.toNat % 256 * 2 ^ 19 + (if m.cls = 2 then 0 else (m.fseq.toNat + i) % 65536)
/-- The message header. -/
def msgHeader (m : Msg) : List Byte :=
  leBytes 1 m.op ++ leBytes 1 (b2n m.cred) ++ leBytes 2 m.epoch.toNat ++ leBytes 4 m.psn.toNat ++ leBytes 4 m.data.length
    ++ leBytes 8 m.addr.toNat ++ leBytes 4 m.key.toNat ++ leBytes 2 m.jepoch.toNat ++ leBytes 2 m.tag.toNat ++ leBytes 8 m.opa.toNat
    ++ leBytes 8 m.opb.toNat ++ leBytes 4 0
/-- The payloads of a message's flits, 240 bytes each. -/
def msgPayloads (m : Msg) : List (List Byte) :=
  let n := flitCount m.data.length
  let pieces := (m.data.take 184) :: chunksOf 232 n (m.data.drop 184)
  pieces.zipIdx.map (fun p =>
    let l := leBytes 8 (routeHeader m p.2 n) ++ (if p.2 = 0 then msgHeader m else []) ++ p.1
    l ++ List.replicate (240 - l.length) 0)

/-! ### The FEC (R302) -/

/-- Every second byte of a flit: codeword 0 holds the even-numbered bytes and codeword 1 the odd-numbered ones. -/
def rsWord (k : Nat) (l : List Byte) : List Byte := (l.zipIdx.filter (fun p => p.2 % 2 == k)).map (·.1)
/-- The parity bytes of both codewords of a flit's bytes 0 to 247, interleaved as bytes 248 to 255. -/
def fecParity (l : List Byte) : List Byte :=
  let par := fun (k : Nat) => leBytes 4 (Config.rsParity (rsWord k l)).toNat
  ((par 0).zip (par 1)).flatMap (fun p => [p.1, p.2])
/-- Whether 128 bytes are a codeword. -/
def rsFits (w : List Byte) : Bool := leBytes 4 (Config.rsParity (w.take 124)).toNat == w.drop 124
/-- The words that differ from a word in one byte. -/
def rsNear (w : List Byte) : List (List Byte) :=
  (List.range w.length).flatMap (fun i => (List.range 255).map (fun d => w.set i (nth 0 w i ^^^ BitVec.ofNat 8 (d + 1))))
/-- A received word with up to two byte errors corrected, and their number; one with more stays as it is. -/
def rsCorrect (w : List Byte) : List Byte × Nat :=
  if rsFits w then (w, 0)
  else match (rsNear w).find? rsFits with
    | some v => (v, 1)
    | none => match ((rsNear w).flatMap rsNear).find? rsFits with
      | some v => (v, 2)
      | none => (w, 0)
/-- The 256 bytes of a received flit after FEC, and how many of them it corrected. -/
def fecDecode (l : List Byte) : List Byte × Nat :=
  let even := rsCorrect (rsWord 0 l)
  let odd := rsCorrect (rsWord 1 l)
  ((even.1.zip odd.1).flatMap (fun p => [p.1, p.2]), even.2 + odd.2)

/-! ### The sending side of a port (R302, R303) -/

/-- A flit (R302): link header, payload, CRC and the FEC parity. -/
def mkFlit (seq ack vc ty : Nat) (payload : List Byte) : BitVec 2048 :=
  let body := leBytes 4 (seq % 4096 * 2 ^ 20 + ack % 4096 * 2 ^ 8 + vc % 64 * 4 + ty % 4) ++ payload
  let body := body ++ leBytes 4 (crc32 body)
  BitVec.ofNat 2048 (leNat (body ++ fecParity body))

/-- A port sends a flit. -/
def portFlit (p : Nat) (f : BitVec 2048) (s : State) : State :=
  bump (putPort s p { getPort s p with sent := (getPort s p).sent ++ [f] }) (fabPortPage p + 0x800)
/-- A port sends a link-control flit: REPLAY (2) names the SEQ that it expects, CREDIT (3) a VC (R303). -/
def portCtl (p ty seq vc : Nat) (s : State) : State :=
  portFlit p (mkFlit seq ((getPort s p).rxSeq.toNat + 4095) vc ty (List.replicate 240 0)) s
/-- Whether a port may send a DATA flit on a VC: it holds a credit, and its replay buffer of 1,024 flits has room. DESIGN CHOICE: log 142. -/
def portMay (x : FabPort) (p vc : Nat) : Bool :=
  decide (tblGet 0 x.credits vc ≤ Config.moreCredits p vc) && decide (x.replay.length < 1024)
/-- A port sends one DATA flit on a VC, which takes the next SEQ, a credit and a place in the replay buffer; or the flit waits for these.
DEDUCED: log 88. -/
def portSend (p vc : Nat) (payload : List Byte) (s : State) : State :=
  let x := getPort s p
  if portMay x p vc then
    let f := mkFlit x.txSeq.toNat (x.rxSeq.toNat + 4095) vc 1 payload
    portFlit p f (putPort s p { x with txSeq := x.txSeq + 1, replay := x.replay ++ [f], credits := tblSet 0 x.credits vc (tblGet 0 x.credits vc + 1) })
  else putPort s p { x with queue := x.queue ++ [(vc, payload)] }
/-- The flits that wait at a port leave, those of one VC in their order, as far as credits and the replay buffer allow. -/
def portPump (p : Nat) (s : State) : State :=
  let x := getPort s p
  if x.queue.isEmpty then s else forAll x.queue (putPort s p { x with queue := [] }) (fun q => portSend p q.1 q.2)

/-- The hub that holds a fabric port (R13). -/
def portHub (p : Nat) : Nat := p / 8
/-- Whether what hub h sends to a device must cross a bridge that is down to reach its port (R309, R407). -/
def hubCut (s : State) (h dst : Nat) : Bool :=
  match routePort s dst false with
  | some p => cutOff s (4 + h) (4 + portHub p)
  | none => false

/-- A message leaves on its route (R307, R308); without a route its flits are discarded and counted, and one whose way to the port is cut
goes no further. DEDUCED: log 86. DESIGN CHOICE: log 114. -/
def emitMsg (m : Msg) (s : State) : State :=
  match routePort s m.dst false with
  | none => addCtr s (fabricPage + 0x848) (flitCount m.data.length)
  | some p =>
    if cutOff s (4 + m.shub % 2) (4 + portHub p) then s
    else forAll (msgPayloads m) { s with out := s.out ++ [m] } (portSend p (12 * m.cls))

/-! ### Control messages (R311, R316) -/

/-- A control message about the sequence of class `cls` of a sending hub: SHUB is the hub that sends the message (R310), `hub` the
sequence's, which stands in ADDR with its class (DESIGN CHOICE, log 18). -/
def ctlMsg (s : State) (op at_ dst hub cls : Nat) (epoch : BitVec 16) (opa opb : Nat) : Msg :=
  { op := op, cls := 2, src := ownAddr s, dst := dst, shub := at_, cred := false, epoch := epoch, psn := 0, fseq := 0,
    addr := BitVec.ofNat 64 (4 * hub + cls), key := 0, jepoch := 0, tag := 0, opa := BitVec.ofNat 64 opa, opb := BitVec.ofNat 64 opb, data := [] }
/-- REF_PSN of a control message. -/
def refPsn (m : Msg) : BitVec 32 := m.opa.setWidth 32
/-- CODE of a control message. -/
def ctlCode (m : Msg) : Nat := (m.opa >>> 32).toNat % 65536
/-- RETRY_US of a control message. -/
def ctlRetry (m : Msg) : Nat := (m.opa >>> 48).toNat % 65536
/-- The class of the sequence a control message is about. -/
def ctlCls (m : Msg) : Nat := m.addr.toNat % 4
/-- The sending hub of the sequence that a control message is about. -/
def ctlHub (m : Msg) : Nat := m.addr.toNat / 4 % 2

/-- The key of a receive sequence, which both hubs of the module share. DEDUCED: log 140. -/
def rxKey (src shub cls : Nat) : Nat := (src * 2 + shub) * 4 + cls
/-- A receive sequence. -/
def getRx (s : State) (src shub cls : Nat) : RxSeq := tblGet RxSeq.reset s.rx (rxKey src shub cls)
/-- Replaces a receive sequence. -/
def putRx (s : State) (src shub cls : Nat) (r : RxSeq) : State := { s with rx := tblSet RxSeq.reset s.rx (rxKey src shub cls) r }

/-- Records the first fabric refusal or failure (R333). -/
def fabFault (code peer : Nat) (psn : BitVec 32) (s : State) : State :=
  recordFirst s (fabricPage + 0x148) (packWord [(48, code), (32, peer % 65536), (0, psn.toNat)])

/-- The answer of hub `at_` to a sequenced message (R316): ACK, or NAK with the refusal code. -/
def answerMsg (at_ src shub cls : Nat) (psn : BitVec 32) (code : Nat) (s : State) : State :=
  let r := getRx s src shub cls
  if code = 0 then emitMsg (ctlMsg s 0x21 at_ src shub cls r.epoch psn.toNat 0) s
  else
    let s := fabFault code src psn (bump s (fabricPage + 0x810))
    let s := putRx s src shub cls { r with refused := ((psn, code) :: r.refused).take 64 }
    emitMsg (ctlMsg s 0x22 at_ src shub cls r.epoch (psn.toNat + code * 2 ^ 32) 0) s

end Sys2Proof.Machine
end

