-- ==== Sys2Proof/Machine/Tiers.lean ====
section
/-! DEFINITION. Tensor space (R274 to R287): the tier map, frames and quotas, moves, holds, evictions, every read and write of tensor
space, and the tier manager's commands (R278, R300). Contents are kept by tensor address: a move never changes what an access
sees (R284). -/

namespace Sys2Proof.Machine

/-- Fault codes of the memory class that this chapter raises (R359). -/
def tierMapInvalid : Nat := 0x3001
/-- `RINSE_BLOCKED`. -/
def rinseBlocked : Nat := 0x2006
/-- `DESC_MALFORMED`. -/
def descMalformed : Nat := 0x3003
/-- `TIER_FULL`. -/
def tierFull : Nat := 0x300A

/-- The first byte of the tier map: the top 288 MiB of tensor space (R274). -/
def mapBase : Nat := 0x023F_EE00_0000
/-- Whether bytes a to a + n - 1 reach the tier map or lie beyond tensor space. -/
def hitsMap (a n : Nat) : Bool := decide (mapBase < a + max n 1)
/-- The spine that owns a slot's entry: a quarter is 576 GiB (R274). -/
def slotSpine (slot : Nat) : Nat := slot / 0x90_0000
/-- The slots that bytes a to a + n - 1 touch. -/
def slotsOf (a n : Nat) : List Nat := if n = 0 then [] else (List.range ((a + n - 1) / 65536 + 1 - a / 65536)).map (a / 65536 + ·)

/-! ### Pages -/

/-- The page that covers a slot, with its first slot. -/
def pageAt (s : State) (slot : Nat) : Option (Nat × Page) :=
  s.pages.find? (fun p => decide (p.1 ≤ slot) && decide (slot < p.1 + 2 ^ p.2.sz))
/-- A page by its first slot. -/
def getPage (s : State) (k : Nat) : Page := tblGet Page.reset s.pages k
/-- Replaces a page. -/
def putPage (s : State) (k : Nat) (p : Page) : State := { s with pages := tblSet Page.reset s.pages k p }
/-- Frames of a page. -/
def pageFrames (p : Page) : Nat := 2 ^ p.sz
/-- Whether the page's entries show it: not FREE, and its zero fill complete. -/
def pageLive (p : Page) : Bool := p.st != .free && !p.filling

/-- The number of a page state in an entry (R275). -/
def pageStCode : PageSt → Nat
  | .free => 0
  | .resident => 1
  | .promoting => 2
  | .evicting => 3
  | .rinsing => 4

/-- One step of CRC-8 with polynomial 0x07 (R276). -/
def crc8Byte (c b : Nat) : Nat :=
  (List.range 8).foldl (fun x _ => if x < 128 then 2 * x else Nat.xor (2 * x % 256) 7) (Nat.xor c b)
/-- The CRC of an entry: over its bytes 0 to 6, byte 0 first. -/
def entryCrc (v : Nat) : Nat := (leBytes 7 v).foldl (fun c b => crc8Byte c b.toNat) 0

/-- The entry of a slot of a page (R275). DEDUCED: log 77. -/
def entryWord (k slot : Nat) (p : Page) : Word :=
  let v := [(50, if slot = k then p.acc.toNat else 0), (47, p.hint.toNat), (44, pageStCode p.st), (43, b2n p.copy.isSome),
    (42, b2n p.closed), (38, p.sz), (26, p.tag.toNat), (25, b2n (p.bulk && p.copy.isNone)),
    (0, (p.copy.getD p.frame).toNat)].foldl (fun a q => a + q.2 * 2 ^ q.1) 0
  BitVec.ofNat 64 (v + entryCrc v * 2 ^ 56)

/-- Records the first tier fault (R300). DEDUCED: log 80. -/
def tierFault (code addr : Nat) (s : State) : State :=
  recordFirst s (tierPage + 0x158) (packWord [(48, code), (0, addr % 2 ^ 48)])

/-! ### Frames (R274, R283) -/

/-- The side of a die: 0 BULK_W, 1 BULK_E (R13). -/
def dieSide (d : Nat) : Nat := d % 2
/-- Whether page p's home frames are in use: a MAP that still waits for frames has none. -/
def hasHome (p : Page) : Bool := p.st != .free
/-- The crema frame runs a page occupies: home, copy and destination. -/
def cremaRuns (p : Page) : List Nat :=
  (if hasHome p && !p.bulk then [p.frame.toNat] else []) ++ (p.copy.map (·.toNat)).toList
    ++ (if p.st == .evicting then [] else (p.dest.map (·.toNat)).toList)
/-- The bulk frame runs a page occupies. -/
def bulkRuns (p : Page) : List Nat :=
  (if hasHome p && p.bulk then [p.frame.toNat] else []) ++ (if p.st == .evicting then (p.dest.map (·.toNat)).toList else [])

/-- Whether frames a to a + n - 1 overlap a run of a list of (first frame, frames). -/
def overlapsRun (l : List (Nat × Nat)) (a n : Nat) : Bool := l.any (fun r => decide (r.1 < a + n) && decide (a < r.1 + r.2))

/-- A free aligned run of n frames among `limit` frames from frame number `base` on, starting the search at `hint`. -/
def freeRun (used : List (Nat × Nat)) (base limit n hint : Nat) : Option Nat :=
  let up := fun (x : Nat) => ceilDiv (x - base) n * n
  let cands := (hint % limit / n * n) :: 0 :: used.map (fun r => up (r.1 + r.2))
  (cands.find? (fun x => decide (x + n ≤ limit) && !overlapsRun used (base + x) n)).map (base + ·)

/-- Free frames of a page of 2^sz frames in crema stack u (false) or bulk controller u (true); those that an invalid entry names are never
free (R408). -/
def frameIn (s : State) (bulk : Bool) (u sz key : Nat) : Option (BitVec 25) :=
  let runs := s.pages.flatMap (fun p => ((if bulk then bulkRuns p.2 else cremaRuns p.2).map (fun f => (f, pageFrames p.2))))
  let runs := runs ++ (s.lost.filter (fun l => l.1 == bulk)).map (·.2)
  let r := if bulk then freeRun runs (u * 0x100_0000) 16777216 (2 ^ sz) (Config.frameHint (4 + u) key)
    else freeRun runs (u * 0x10_0000) 1047424 (2 ^ sz) (Config.frameHint u key)
  r.map (BitVec.ofNat 25)

/-- Free frames in the preferred stack or controller, else in another (R283). -/
def framePick (s : State) (bulk : Bool) (pref sz key : Nat) : Option (BitVec 25) :=
  let n := if bulk then 2 else 4
  (((List.range n).map (fun i => (pref + i) % n)).findSome? (fun u => frameIn s bulk u sz key))

/-! ### Quota and eviction ranks (R282, R283) -/

/-- Crema frames in use by a job. -/
def jobUse (s : State) (tag : BitVec 12) : Nat :=
  s.pages.foldl (fun a p => if p.2.tag = tag then a + (cremaRuns p.2).length * pageFrames p.2 else a) 0
/-- Pinned frames of a job (R300). -/
def jobPinned (s : State) (tag : BitVec 12) : Nat :=
  s.pages.foldl (fun a p => if p.2.tag = tag ∧ p.2.hint = 4 then a + (cremaRuns p.2).length * pageFrames p.2 else a) 0
/-- Crema frames that the evictions in progress of a job will free. -/
def jobOutgo (s : State) (tag : BitVec 12) : Nat :=
  s.pages.foldl (fun a p => if p.2.tag = tag ∧ p.2.st = .evicting then a + pageFrames p.2 else a) 0
/-- The quota of a job. -/
def jobQuota (s : State) (tag : BitVec 12) : Nat := (getJob s tag).quota.toNat

/-- A page's eviction rank: (rank, order in the rank); none where it is never evicted. DEDUCED: log 81. -/
def evictRank (s : State) (k : Nat) (p : Page) : Option (Nat × Nat) :=
  if p.bulk && p.copy.isSome && p.holds == 0 then some (1, p.acc.toNat)
  else match p.hint.toNat with
    | 6 => if p.closed then some (2, ((getJob s p.tag).sealOrder.findIdx (· == k))) else none
    | 2 => some (3, 0)
    | 3 => some (4, 0)
    | 0 => some (5, p.acc.toNat)
    | 1 => some (6, p.acc.toNat)
    | _ => none

/-- Whether a page can be picked for eviction: it holds crema frames, no eviction of it runs or is pending, and it is mapped. -/
def evictable (p : Page) : Bool :=
  pageLive p && (p.st == .resident || p.st == .promoting) && !p.pendEv && !(cremaRuns p).isEmpty

/-- The next page of a job to evict: lowest rank, then lowest order, then lowest address. -/
def evictNext (s : State) (tag : BitVec 12) : Option Nat :=
  let l := s.pages.filterMap (fun p => if p.2.tag = tag ∧ evictable p.2 then (evictRank s p.1 p.2).map (fun r => (r, p.1)) else none)
  (l.foldl (fun (b : Option ((Nat × Nat) × Nat)) q => match b with
    | none => some q
    | some c => if q.1.1 < c.1.1 ∨ (q.1.1 = c.1.1 ∧ q.1.2 < c.1.2) then some q else b) none).map (·.2)

/-- Drops a clean copy: its entry is written with COPY 0 and no data moves (R279). -/
def dropCopy (k : Nat) (s : State) : State :=
  let p := getPage s k
  if p.copy.isSome then bump (putPage s k { p with copy := none }) (tierPage + 0x810) else s

/-- Performs the eviction of a page with no hold and no pin: a copy is dropped, a crema page starts its move to bulk. -/
def evictGo (k : Nat) (s : State) : State :=
  let p := getPage s k
  let s := putPage s k { p with pendEv := false }
  if p.st ≠ .resident then s
  else if p.bulk then dropCopy k s
  else match framePick s true (dieSide (p.frame.toNat / 0x10_0000)) p.sz k with
    | some f => putPage s k { getPage s k with st := .evicting, dest := some f }
    | none => s

/-- An eviction meets its page (R281, R284): performed, or pending while the page holds holds or is being promoted. -/
def evictMeets (k : Nat) (s : State) : State :=
  let p := getPage s k
  if p.holds ≠ 0 ∨ p.st = .promoting then
    raiseEvent tierPage 0 (bump (putPage s k { p with pendEv := true }) (tierPage + 0x818))
  else evictGo k s

/-- Evicts pages of a job in rank order until its use, less what running evictions free, is at most `goal` (R283 steps 1 and 2). -/
def evictUntil (tag : BitVec 12) (goal : Nat) : Nat → State → State
  | 0, s => s
  | n + 1, s =>
    if jobUse s tag - jobOutgo s tag ≤ goal then s
    else match evictNext s tag with
      | some k => evictUntil tag goal n (evictMeets k s)
      | none => s

/-- R283 step 1 for one job. A quota of 0 sets no bound. -/
def quotaShed (tag : BitVec 12) (s : State) : State :=
  let q := jobQuota s tag
  if q = 0 then s else evictUntil tag q s.pages.length s
/-- R283 step 1 for every job. -/
def shedAll (s : State) : State := forAll (tblKeys s.jobs) s (fun k s => quotaShed (BitVec.ofNat 12 k) s)

/-- The answers to a request for crema frames. -/
inductive Room where
  | got (f : BitVec 25)
  | wait
  | short
  deriving DecidableEq, Repr

/-- A placement or promotion asks for crema frames (R283 steps 2 and 3): the frames, `wait` for the commit of an eviction that makes
the room, or `short`. -/
def cremaRoom (tag : BitVec 12) (sz key pref : Nat) (s : State) : Room × State :=
  let q := jobQuota s tag
  let n := 2 ^ sz
  let tooMuch := fun (s : State) => q ≠ 0 ∧ q < jobUse s tag + n
  let s := if tooMuch s then evictUntil tag (q - n) s.pages.length s else s
  if tooMuch s then (if n ≤ q ∧ jobUse s tag - jobOutgo s tag + n ≤ q then .wait else .short, s)
  else match framePick s false pref sz key with
    | some f => (.got f, s)
    | none =>
      let s := shedAll s
      match framePick s false pref sz key with
      | some f => (.got f, s)
      | none =>
        let shedding := s.jobs.any (fun j => let t := BitVec.ofNat 12 j.1
          j.2.quota != 0 && decide (jobQuota s t < jobUse s t) && decide (0 < jobOutgo s t))
        (if shedding then .wait else .short, s)

/-! ### Promotions, holds, evictions -/

/-- The stack that a request names no die for (DESIGN CHOICE, log 4): the tier manager's own choice. -/
def ownStack (k : Nat) : Nat := Config.frameHint 6 k % 4

/-- Starts the promotion of a bulk page with frames: a move, or a copy, which counts where a walk asked for it (R267). -/
def promoteGo (k : Nat) (f : BitVec 25) (copy : Bool) (s : State) : State :=
  let p := getPage s k
  let s := if p.prefetch && copy then bump s (kvPage + 0x818) else s
  putPage s k { getPage s k with st := .promoting, dest := some f, destCopy := copy, want := false, prefetch := false }

/-- Whether a write waits for a page. -/
def writeWaits (s : State) (k : Nat) : Bool := s.writes.any (fun w => w.page == k && w.held)

/-- Tries to start the promotion that a page's holds ask for (R281): for a write a move, else a clean copy. `first` is the first
try of a hold, which keeps the die whose access asked; a hold that has to wait for frames under step 4 of R283 is counted once. -/
def holdPromote (k die : Nat) (first : Bool) (s : State) : State :=
  let s := if first then putPage s k { getPage s k with wantDie := die, counted := false } else s
  let p := getPage s k
  if p.holds = 0 ∨ p.bulk = false ∨ p.copy.isSome ∨ p.st ≠ .resident ∨ p.hint = 5 ∨ p.filling then s
  else
    let copy := !(writeWaits s k) || (p.hint == 6 && p.closed)
    match cremaRoom p.tag p.sz k die s with
    | (.got f, s) => promoteGo k f copy s
    | (.wait, s) => s
    | (.short, s) => if (getPage s k).counted then s else bump (putPage s k { getPage s k with counted := true }) (tierPage + 0x838)

/-- Pages of a spine that hold holds. -/
def heldPages (s : State) (q : Nat) : Nat := (s.pages.filter (fun p => p.2.holds != 0 && slotSpine p.1 == q)).length

/-- Gives up one hold. A pending eviction follows at the next edge. -/
def giveHold (k : Nat) (s : State) : State :=
  let p := getPage s k
  putPage s k { p with holds := p.holds - 1, prefetch := p.prefetch && decide (1 < p.holds) }

/-- The edge after the last hold's release (R281): a pending eviction is performed if the page is then unpinned and not OPEN. -/
def pendingEvictions (s : State) : State :=
  forAll (tblKeys s.pages) s (fun k s =>
    let p := getPage s k
    if p.pendEv && p.holds == 0 && p.st == .resident && p.hint != 4 && !(p.hint == 6 && !p.closed) then evictGo k s else s)

/-- Automatic promotion of a read bulk page for an access of a die (R282, R283, R300); one that must wait for the commit of an eviction
keeps its die. DEDUCED: log 78. -/
def autoPromote (k die : Nat) (s : State) : State :=
  let p := getPage s k
  let pol := reg s (tierPage + 0x100)
  let due := p.hint == 1 || ((p.hint == 0 || (p.hint == 6 && p.closed)) && decide (wfld pol 5 0 ≤ p.acc.toNat))
  if !wbit pol 63 || !p.bulk || p.copy.isSome || p.st != .resident || !due then s
  else match cremaRoom p.tag p.sz k die s with
    | (.got f, s) => promoteGo k f true s
    | (.wait, s) => putPage s k { getPage s k with want := true, wantDie := die }
    | (.short, s) => putPage s k { getPage s k with want := false }

/-! ### Sealing and hints (R278, R282) -/

/-- A page becomes CLOSED and takes its place in its job's close order. -/
def closePage (k : Nat) (s : State) : State :=
  let p := getPage s k
  if p.closed then s
  else
    let s := putPage s k { p with closed := true }
    let j := getJob s p.tag
    putJob s p.tag { j with sealOrder := j.sealOrder ++ [k] }
/-- A page is no longer CLOSED. -/
def unclosePage (k : Nat) (s : State) : State :=
  let p := getPage s k
  if p.closed then
    let s := putPage s k { p with closed := false }
    let j := getJob s p.tag
    putJob s p.tag { j with sealOrder := j.sealOrder.filter (· != k) }
  else s
/-- A page that a descriptor with SEAL wrote closes at its completion edge (R282). -/
def sealWritten (k : Nat) (s : State) : State :=
  let p := getPage s k
  if p.hint = 6 ∧ pageLive p then closePage k s else s
/-- Sealing of a stream's page (R265): the page takes WRITE_ONCE, CLOSED, at one edge. -/
def sealPage (k : Nat) (s : State) : State :=
  closePage k (putPage s k { getPage s k with hint := 6 })

/-- A page takes a hint: 0, or the code that refuses it; none where it waits for room. A pinned page must lie in crema. -/
def setHint (k : Nat) (h : BitVec 3) (s : State) : Option Nat × State :=
  let p := getPage s k
  let take := fun (s : State) => (some 0, putPage (unclosePage k s) k { getPage (unclosePage k s) k with hint := h, newHint := none })
  if h = 4 ∧ p.bulk then
    match p.copy with
    | some f => take (putPage s k { p with bulk := false, frame := f, copy := none })
    | none => match cremaRoom p.tag p.sz k (ownStack k) s with
      | (.got f, s) => take (promoteGo k f false s)
      | (.wait, s) => (none, putPage s k { getPage s k with newHint := some h })
      | (.short, s) =>
        (some tierFull, tierFault tierFull (65536 * k) (raiseFault tierPage tierFull (some p.tag) (putPage s k { getPage s k with newHint := none })))
  else if h = 5 then take (dropCopy k s)
  else take s

/-- `TIER_CMD_STATUS` at the end of a command: a refusal sets FAIL and is counted (R278). -/
def tierStatus (code : Nat) (refused : Bool) (s : State) : State :=
  let s := setReg s (tierPage + 0x138) (packWord [(62, b2n refused), (0, code)])
  if refused then bump s (tierPage + 0x850) else s

/-- A hint that waits is taken where it can be, and the command that gave it completes (R278). -/
def hintDue (k : Nat) (s : State) : State :=
  let p := getPage s k
  match p.newHint with
  | none => s
  | some h =>
    match setHint k h (putPage s k { p with newHint := none }) with
    | (some c, s) =>
      let s := putPage s k { getPage s k with hintCmd := false }
      if p.hintCmd then tierStatus c (c != 0) s else s
    | (none, s) => s

/-- Cancels a running eviction (R284): the bulk frames are freed, the page stays in crema, and the end of the move lets a HINT issued
meanwhile take effect (R278, R282). -/
def evictCancel (k : Nat) (s : State) : State :=
  let p := getPage s k
  if p.st = .evicting then
    hintDue k (bump (putPage s k { p with st := .resident, dest := none }) (tierPage + 0x820))
  else s

/-- Takes a hold (R281): false where the hint forbids it or the spine's hold table is full. -/
def takeHold (k : Nat) (s : State) : Bool × State :=
  let p := getPage s k
  if p.hint = 5 then (false, s)
  else if p.holds = 0 ∧ 16384 ≤ heldPages s (slotSpine k) then (false, bump s (tierPage + 0x830))
  else (true, evictCancel k (putPage s k { p with holds := p.holds + 1, pendEv := false }))

/-! ### Placement (R278, R282, R283) -/

/-- A job whose pages can be mapped. -/
def mappable (s : State) (tag : BitVec 12) : Bool :=
  match (getJob s tag).st with
  | .staged | .binding | .bound => true
  | _ => false

/-- Whether slots k to k + n - 1 are all FREE. -/
def slotsFree (s : State) (k n : Nat) : Bool :=
  s.pages.all (fun p => decide (p.1 + pageFrames p.2 ≤ k) || decide (k + n ≤ p.1)) && s.badSlots.all (fun b => decide (b < k) || decide (k + n ≤ b))

/-- Places a page: 0 placed and filling, a refusal code, or none where it waits for room. -/
def placePage (k : Nat) (s : State) : Option Nat × State :=
  let p := getPage s k
  let bulkIt := fun (s : State) => match framePick s true (Config.frameHint 7 k % 2) p.sz k with
    | some f => (some 0, putPage s k { p with st := .resident, bulk := true, frame := f, filling := true })
    | none => (some tierFull, putPage s k Page.reset)
  if p.hint = 3 ∨ p.hint = 5 then bulkIt s
  else match cremaRoom p.tag p.sz k (ownStack k) s with
    | (.got f, s) => (some 0, putPage s k { p with st := .resident, bulk := false, frame := f, filling := true })
    | (.wait, s) => (none, s)
    | (.short, s) =>
      -- frames of a rinse in progress come free at its end (R367, R371)
      if s.pages.any (fun q => q.2.st == .rinsing && (getJob s q.2.tag).st == .rinsing && !(cremaRuns q.2).isEmpty) && !(decide (jobQuota s p.tag ≠ 0 ∧ jobQuota s p.tag < jobUse s p.tag + 2 ^ p.sz))
      then (none, s)
      else if p.hint = 4 then
        (some tierFull, tierFault tierFull (65536 * k) (raiseFault tierPage tierFull (some p.tag) (putPage s k Page.reset)))
      else bulkIt s

/-- MAP of a page (R278): none where it waits for room, some 0 where it is placed, else refused with a code or with 1. -/
def mapPage (tag : BitVec 12) (addr sz : Nat) (hint : BitVec 3) (s : State) : Option Nat × State :=
  let k := addr / 65536
  if 15 ≤ sz ∨ hint = 7 ∨ addr % (65536 * 2 ^ sz) ≠ 0 ∨ hitsMap addr (65536 * 2 ^ sz) ∨ ¬ slotsFree s k (2 ^ sz)
    ∨ ¬ mappable s tag ∨ ¬ wbit (reg s (devicePage + 0x100)) 12 then (some 1, s)
  else placePage k (putPage s k { Page.reset with sz := sz, tag := tag, hint := hint, filling := true })

/-- The granules of a range of tensor space that hold a single-bit error. -/
def flipsIn (s : State) (addr n : Nat) : List Nat := s.flips.filter (fun g => decide (addr < 64 * (g + 1)) && decide (64 * g < addr + n))
/-- A range of tensor space is written, and holds no error any more. -/
def clearFlips (addr n : Nat) (s : State) : State := { s with flips := s.flips.filter (fun g => !(flipsIn s addr n).contains g) }
/-- A read of a range corrects its single-bit errors and counts them by the tier that serves them (R287). DESIGN CHOICE: log 145. -/
def countCorrected (addr n : Nat) (s : State) : State :=
  let inBulk := fun (g : Nat) => match pageAt s (g / 1024) with
    | some (_, p) => p.bulk && p.copy.isNone
    | none => false
  let l := flipsIn s addr n
  if l.isEmpty then s
  else addCtr (addCtr s (tierPage + 0x840) (l.filter (fun g => !inBulk g)).length) (tierPage + 0x848) (l.filter inBulk).length

/-- The end of a page's zero fill: its bytes read zero and its entries show it. -/
def fillDone (k : Nat) (s : State) : State :=
  let p := getPage s k
  if p.st = .resident ∧ p.filling then
    let s := putPage s k { p with filling := false }
    let s := clearFlips (65536 * k) (65536 * pageFrames p) s
    { s with mem := { s.mem with tensor := memZero s.mem.tensor (65536 * k) (65536 * pageFrames p) } }
  else s

/-! ### Reads and writes of tensor space (R277, R279, R280, R282, R284, R287) -/

/-- A die's own alarm for a code on a page (R287, R408). -/
def dieAlarm (page code die : Nat) (tag : BitVec 12) (s : State) : State :=
  alarm page code (.die die) (raiseFault page code (some tag) s)

/-- The ECC check of a read of page p from the tier that serves it (R279, R287); a bulk error is an alarm of the die whose access read
it (R398). -/
def readEcc (p : Page) (die addr : Nat) (s : State) : Nat × State :=
  let inBulk := p.bulk && p.copy.isNone
  let code := if inBulk then 0x3006 else 0x3005
  let stack := (p.copy.getD p.frame).toNat / 0x10_0000
  let page := if inBulk then bulkPage (p.frame.toNat / 0x100_0000) else spineBase stack
  match takeArmed page code s with
  | (true, s) => (code, dieAlarm page code (if inBulk then die else stack) p.tag (tierFault code addr s))
  | (false, s) => (0, s)

/-- The descriptor in flight that an accessor is. -/
def ownerDesc (s : State) : TOwner → Option (Nat × Nat × Desc)
  | .ring c r n => ((getRing s c r).flight.find? (fun d => d.count == n)).map (fun d => (c, r, d))
  | _ => none
/-- Replaces a descriptor in flight. -/
def putDesc (c r : Nat) (d : Desc) (s : State) : State :=
  let g := getRing s c r
  putRing s c r { g with flight := g.flight.map (fun e => if e.count = d.count then d else e) }

/-- A descriptor reads the entry of a slot (R277): counted, and the page's ACC is raised once per descriptor. -/
def countEntryRead (own : TOwner) (slot : Nat) (s : State) : State :=
  match ownerDesc s own with
  | none => s
  | some (c, r, d) =>
    if d.seen.contains slot then s
    else
      let s := bump (putDesc c r { d with seen := slot :: d.seen } s) (dmaBase c + 0x810)
      match pageAt s slot with
      | some (k, p) =>
        if !pageLive p || d.seen.any (fun x => decide (k ≤ x) && decide (x < k + pageFrames p)) || p.st == .rinsing then s
        else putPage s k { p with acc := if p.acc = 63 then 63 else p.acc + 1 }
      | none => s

/-- The entry of a slot fails its CRC (R276): the slot stays invalid, and the frames that the entry names are never free again (R408). -/
def slotBad (slot : Nat) (s : State) : State :=
  let runs := match pageAt s slot with
    | some (_, p) => (cremaRuns p).map (fun f => (false, f, pageFrames p)) ++ (bulkRuns p).map (fun f => (true, f, pageFrames p))
    | none => []
  if s.badSlots.contains slot then s else { s with badSlots := slot :: s.badSlots, lost := runs ++ s.lost }
/-- Checks the entry of a slot for an access of a job (R277): 0 or the fault code. A CRC failure is an alarm of the device (R398). -/
def entryCheck (tag : BitVec 12) (slot : Nat) (s : State) : Nat × State :=
  let page := spineBase (slotSpine slot)
  let s := match takeArmed page tierMapInvalid s with
    | (true, s) => alarm page tierMapInvalid .device (raiseFault page tierMapInvalid (some tag) (slotBad slot s))
    | (false, s) => s
  let code := if s.badSlots.contains slot then tierMapInvalid
    else match pageAt s slot with
      | none => tierMapInvalid
      | some (_, p) =>
        if ¬ pageLive p then tierMapInvalid
        else if p.st = .rinsing then rinseBlocked
        else if p.tag ≠ tag then tierMapInvalid else 0
  (code, if code = 0 then s else rinseCount code (tierFault code (65536 * slot) s))

/-- Where an accessor stands among the ends of R16: a queue pair on HW, else its die. -/
def ownerEnd (own : TOwner) (die : Nat) : Nat := match own with
  | .host _ => 4
  | _ => die
/-- The end at which the bytes of a page are served. -/
def pageEnd (p : Page) : Nat :=
  if p.bulk && p.copy.isNone then 4 + p.frame.toNat / 0x100_0000 else (p.copy.getD p.frame).toNat / 0x10_0000
/-- The code of an access whose route to a page's entry or bytes is cut (R407): 0 where none is. -/
def routeCode (s : State) (own : TOwner) (die slot : Nat) : Nat :=
  let a := ownerEnd own die
  let cut := cutOff s a (slotSpine slot) || (match pageAt s slot with
    | some (_, p) => cutOff s a (pageEnd p)
    | none => false)
  if cut then bridgeFailCode else 0

/-- The entry read and read checks of one slot; a bulk page may start its promotion (R282). -/
def readSlot (own : TOwner) (tag : BitVec 12) (die addr slot : Nat) (q : Nat × State) : Nat × State :=
  if q.1 ≠ 0 then q
  else if routeCode q.2 own die slot ≠ 0 then (routeCode q.2 own die slot, q.2)
  else
    let r := entryCheck tag slot (countEntryRead own slot q.2)
    if r.1 ≠ 0 then r
    else match pageAt r.2 slot with
      | some (k, p) =>
        let e := readEcc p die (max addr (65536 * slot)) r.2
        if e.1 ≠ 0 then e else (0, autoPromote k die e.2)
      | none => r

/-- Reads n bytes of tensor space for a job: 0 and the bytes, or the fault code. -/
def tensorRead (own : TOwner) (tag : BitVec 12) (die addr n : Nat) (s : State) : Nat × List Byte × State :=
  if hitsMap addr n then (descMalformed, [], s)
  else
    let q := (slotsOf addr n).foldl (fun q slot => readSlot own tag die addr slot q) (0, s)
    if q.1 ≠ 0 then (q.1, [], q.2) else (0, memRead q.2.mem.tensor addr n, countCorrected addr n q.2)

/-- Stores bytes at a tensor address. -/
def tensorStore (addr : Nat) (l : List Byte) (s : State) : State :=
  let s := clearFlips addr l.length s
  { s with mem := { s.mem with tensor := memWrite s.mem.tensor addr l } }

/-- A write waits for its page (R280, R281): it takes a hold and asks for the move. -/
def writeWait (own : TOwner) (die k addr : Nat) (l : List Byte) (s : State) : State :=
  let again := s.writes.any (fun w => w.owner == own && w.page == k)
  let w : TWrite := { owner := own, page := k, addr := addr, data := l, die := die, held := false, since := s.cycle }
  if again then { s with writes := s.writes ++ [w] }
  else
    let h := takeHold k (bump s (tierPage + 0x828))
    holdPromote k die true { h.2 with writes := h.2.writes ++ [{ w with held := h.1 }] }

/-- One piece of a write within a slot whose entry has passed its checks (R280, R282, R284): 0 landed or waiting, else its code. -/
def writePiece (own : TOwner) (die k addr : Nat) (l : List Byte) (s : State) : Nat × State :=
  let p := getPage s k
  if p.bulk ∧ p.hint = 5 then (0x3002, tierFault 0x3002 addr s)
  else if p.closed then (0x300B, tierFault 0x300B addr s)
  else
    let s := evictCancel k s
    let p := getPage s k
    match p.bulk, p.copy with
    | true, some f =>
      if p.st = .resident then (0, tensorStore addr l (putPage s k { p with bulk := false, frame := f, copy := none }))
      else (0, writeWait own die k addr l s)
    | true, none => (0, writeWait own die k addr l s)
    | false, _ => (0, tensorStore addr l s)

/-- Notes that a descriptor wrote a page (R282). -/
def noteWrote (own : TOwner) (k : Nat) (s : State) : State :=
  match ownerDesc s own with
  | some (c, r, d) => if d.wrote.contains k then s else putDesc c r { d with wrote := d.wrote ++ [k] } s
  | none => s

/-- The part of a write that falls into one slot. -/
def writeSlot (own : TOwner) (tag : BitVec 12) (die addr : Nat) (l : List Byte) (slot : Nat) (q : Nat × State) : Nat × State :=
  if q.1 ≠ 0 then q
  else if routeCode q.2 own die slot ≠ 0 then (routeCode q.2 own die slot, q.2)
  else
    let r := entryCheck tag slot (countEntryRead own slot q.2)
    if r.1 ≠ 0 then r
    else match pageAt r.2 slot with
      | some (k, _) =>
        let lo := max addr (65536 * slot)
        let hi := min (addr + l.length) (65536 * (slot + 1))
        let e := writePiece own die k lo ((l.drop (lo - addr)).take (hi - lo)) r.2
        if e.1 = 0 then (0, noteWrote own k e.2) else e
      | none => r

/-- Writes bytes to tensor space for a job: 0, or the fault code; the bytes before a failing slot have landed. -/
def tensorWrite (own : TOwner) (tag : BitVec 12) (die addr : Nat) (l : List Byte) (s : State) : Nat × State :=
  if hitsMap addr l.length then (descMalformed, s)
  else (slotsOf addr l.length).foldl (fun q slot => writeSlot own tag die addr l slot q) (0, s)

/-- Whether a write of an accessor still waits. -/
def writesOf (s : State) (own : TOwner) : List TWrite := s.writes.filter (fun w => w.owner == own)

/-- An accessor gives up its waiting writes and their holds (R280, R298). -/
def dropWrites (own : TOwner) (s : State) : State :=
  let l := writesOf s own
  let s := { s with writes := s.writes.filter (fun w => w.owner != own) }
  forAll (l.filter (·.held)) s (fun w s => giveHold w.page s)

/-- A commit's header has landed: the owner's view of the shard stands in tensor space again, and the commit counts (R217). -/
def commitLanded (tag : BitVec 12) (shard : BitVec 24) (s : State) : State :=
  let j := getJob s tag
  let r := tblGet LeaseRec.reset j.leases shard.toNat
  bump (putJob s tag { j with leases := tblSet LeaseRec.reset j.leases shard.toNat { r with late := none } }) (updatePage + 0x800)

/-- A waiting write lands. -/
def writeLand (w : TWrite) (s : State) : State :=
  let s := tensorStore w.addr w.data s
  match w.owner with
  | .commit tag shard => commitLanded tag shard s
  | _ => s

/-- The writes that wait for a page proceed once it lies in crema (R280); each then releases its hold. -/
def landWrites (k : Nat) (s : State) : State :=
  let p := getPage s k
  if p.st ≠ .resident ∨ (p.bulk ∧ p.copy.isNone) then s
  else
    let l := s.writes.filter (fun w => w.page == k)
    if l.isEmpty then s
    else
      let s := match p.copy with
        | some f => putPage s k { p with bulk := false, frame := f, copy := none }
        | none => s
      let s := { s with writes := s.writes.filter (fun w => w.page != k) }
      forAll l s (fun w s => let s := writeLand w s; if w.held then giveHold k s else s)

/-! ### Retries when frames come free -/

/-- What a page waits for is tried again: a MAP, a hint, a hold's promotion, an automatic promotion, for the die that asked (R283). -/
def retryPage (k : Nat) (s : State) : State :=
  let p := getPage s k
  if p.st = .free ∧ p.filling then
    (match placePage k s with
     | (some c, s) => if c = 0 then s else tierStatus c true s
     | (none, s) => s)
  else if p.st ≠ .resident then s
  else if p.newHint.isSome then hintDue k s
  else
    let s := holdPromote k p.wantDie false s
    if (getPage s k).want then autoPromote k p.wantDie s else s

/-- Frames have come free, a page can be evicted again or a bound has changed: jobs above their quota shed (R283 step 1), and what waits
for frames is tried again. -/
def tierSettle (s : State) : State :=
  let s := shedAll s
  forAll (tblKeys s.pages) s retryPage

/-- The tier manager at an edge: pending evictions whose last hold has gone (R281), quotas, and what waits for frames (R283). -/
def tierTick (s : State) : State := tierSettle (pendingEvictions s)

/-- The end of a move (R278, R284): a HINT issued meanwhile takes effect, waiting writes proceed and what waits is tried again. -/
def moveEnd (k : Nat) (s : State) : State := tierSettle (landWrites k (hintDue k s))

/-- The die and the hub between which a move runs (R284). -/
def moveCut (s : State) (p : Page) (f : BitVec 25) : Bool :=
  let ends := if p.st = .promoting then (f.toNat / 0x10_0000, 4 + p.frame.toNat / 0x100_0000)
    else (4 + f.toNat / 0x100_0000, p.frame.toNat / 0x10_0000)
  cutOff s ends.2 ends.1
/-- A move commits (R284); an uncorrectable granule or a bridge that is down abandons it (R287, R407). -/
def moveCommit (k : Nat) (s : State) : State :=
  let p := getPage s k
  match p.dest with
  | none => s
  | some f =>
    if p.st ≠ .promoting ∧ p.st ≠ .evicting then s
    else
      let e := readEcc { p with copy := none } (f.toNat / 0x10_0000 % 4) (65536 * k) s
      let done := fun (q : Page) => { q with st := .resident, dest := none, destCopy := false }
      let s := e.2
      let s :=
        if e.1 ≠ 0 ∨ moveCut s p f then putPage s k (done p)
        else
        let s := clearFlips (65536 * k) (65536 * pageFrames p) (countCorrected (65536 * k) (65536 * pageFrames p) s)
        if p.st = .promoting then
          bump (putPage s k (if p.destCopy then done { p with copy := some f } else done { p with bulk := false, frame := f })) (tierPage + 0x800)
        else bump (putPage s k (done { p with bulk := true, frame := f })) (tierPage + 0x808)
      moveEnd k s

/-! ### Commands (R278) -/

/-- Runs a command of a job on the page at an address: refused where the page is not the job's or is rinsing. -/
def onPage (tag : BitVec 12) (addr : Nat) (s : State) (f : Nat → Page → State → State) : State :=
  match pageAt s (addr / 65536) with
  | some (k, p) =>
    if ¬ pageLive p ∨ p.tag ≠ tag ∨ s.badSlots.contains (addr / 65536) then tierStatus 0 true s
    else if p.st = .rinsing then rinseCount rinseBlocked (tierStatus rinseBlocked true s)
    else f k p s
  | none => tierStatus 0 true s

/-- UNMAP. -/
def unmapPage (tag : BitVec 12) (addr : Nat) (s : State) : State :=
  onPage tag addr s (fun k p s =>
    if p.holds ≠ 0 ∨ p.hint = 4 ∨ p.st ≠ .resident then tierStatus 0 true s
    else
      let s := unclosePage k (dropCopy k s)
      tierSettle (tierStatus 0 false (putPage s k Page.reset)))

/-- HINT: BUSY until the hint is taken or refused, at once or at the edge at which a move of the page ends (R278). -/
def hintPage (tag : BitVec 12) (addr : Nat) (h : BitVec 3) (s : State) : State :=
  onPage tag addr s (fun k p s =>
    if h = 7 then tierStatus 0 true s
    else
      let s := putPage (setReg s (tierPage + 0x138) (packWord [(63, 1)])) k { p with newHint := some h, hintCmd := true }
      if p.st ≠ .resident then s else tierSettle (hintDue k s))

/-- PROMOTE. -/
def promotePage (tag : BitVec 12) (addr : Nat) (s : State) : State :=
  onPage tag addr s (fun k p s =>
    if p.hint = 5 then tierStatus 0 false s
    else match takeHold k s with
      | (true, s) => tierStatus 0 false (holdPromote k (ownStack k) true s)
      | (false, s) => tierStatus 0 true s)

/-- RELEASE. -/
def releasePage (tag : BitVec 12) (addr : Nat) (s : State) : State :=
  onPage tag addr s (fun k p s =>
    if p.holds = 0 then tierStatus 0 (p.hint != 5) s else tierStatus 0 false (giveHold k s))

/-- EVICT. -/
def evictPage (tag : BitVec 12) (addr : Nat) (s : State) : State :=
  onPage tag addr s (fun k p s =>
    if p.hint = 4 ∨ (p.hint = 6 ∧ ¬ p.closed) then tierStatus 0 true s else tierStatus 0 false (evictMeets k s))

/-- MAP. -/
def mapCommand (tag : BitVec 12) (addr sz : Nat) (hint : BitVec 3) (s : State) : State :=
  match mapPage tag addr sz hint s with
  | (some 0, s) => setReg s (tierPage + 0x138) (packWord [(63, 1)])
  | (some 1, s) => tierStatus 0 true s
  | (some c, s) => tierStatus c true s
  | (none, s) => setReg s (tierPage + 0x138) (packWord [(63, 1)])

/-- A write to `TIER_CMD` (R278, R300). DEDUCED: log 79. -/
def tierCmd (v : Word) (s : State) : State :=
  let tag := BitVec.ofNat 12 (wfld v 63 52)
  let arg := reg s (tierPage + 0x128)
  let addr := wfld arg 47 0
  let hint := BitVec.ofNat 3 (wfld arg 50 48)
  if ¬ blkEn s tierPage then s
  else match wfld v 7 0 with
  | 1 => mapCommand tag addr (wfld arg 55 52) hint s
  | 2 => unmapPage tag addr s
  | 3 => hintPage tag addr hint s
  | 4 => promotePage tag addr s
  | 5 => releasePage tag addr s
  | 6 => evictPage tag addr s
  | _ => tierStatus 0 true s

/-- A write of a job's quota (R283, R300). -/
def quotaWrite (tag : BitVec 12) (v : Nat) (s : State) : State :=
  tierSettle (putJob s tag { getJob s tag with quota := BitVec.ofNat 23 v })

/-- TIER_QUERY (R300). An entry that fails its CRC reads as invalid (R276). -/
def tierQuery (addr : Nat) (s : State) : State :=
  let slot := addr / 65536
  let show_ := fun (st e : Word) => setReg (setReg s (tierPage + 0x148) st) (tierPage + 0x150) e
  match pageAt s slot with
  | some (k, p) =>
    if pageLive p && !s.badSlots.contains slot then show_ (packWord [(62, 1), (61, b2n p.pendEv), (0, p.holds % 65536)]) (entryWord k slot p) else show_ 0 0
  | none => show_ 0 0

/-- TIER_AGE (R283 step 5): every ACC halves, while EN is 1 and AGE_MS is not 0. -/
def tierAge (s : State) : State :=
  let pol := reg s (tierPage + 0x100)
  if wbit pol 63 ∧ wfld pol 47 32 ≠ 0 then { s with pages := s.pages.map (fun p => (p.1, { p.2 with acc := p.2.acc >>> 1 })) } else s

/-- The waiting writes that found the hold table full, of those that satisfy a test, try again (R281). -/
def retryHolds (mine : TWrite → Bool) (s : State) : State :=
  let todo := s.writes.filter (fun w => mine w && !w.held && !(s.writes.any (fun v => v.owner == w.owner && v.page == w.page && v.held)))
  let firsts := todo.foldl (fun (l : List TWrite) w => if l.any (fun v => v.owner == w.owner && v.page == w.page) then l else l ++ [w]) []
  forAll firsts s (fun w s =>
    match takeHold w.page s with
    | (true, s) =>
      holdPromote w.page w.die true { s with writes := s.writes.map (fun v => if v = w then { v with held := true } else v) }
    | (false, s) => s)
/-- Whether a waiting write belongs to a ring. -/
def ringWrite (w : TWrite) : Bool := match w.owner with
  | .ring _ _ _ => true
  | _ => false
/-- HOLD_RETRY (R281): the waiting writes of a ring that found the hold table full try again. -/
def holdRetry (c r : Nat) (s : State) : State :=
  retryHolds (fun w => match w.owner with
    | .ring c' r' _ => c' == c && r' == r
    | _ => false) s

/-! ### Meanings -/

/-- MAP (R278). -/
def execTierMap (tag : BitVec 12) (addr : BitVec 48) (sz : BitVec 4) (hint : BitVec 3) (s : State) : Result :=
  .next (mapCommand tag addr.toNat sz.toNat hint s)
/-- MAP_FILL_DONE (R278): the command completes. -/
def execMapFillDone (addr : BitVec 48) (s : State) : Result :=
  .next (match pageAt s (addr.toNat / 65536) with
    | some (k, p) => if p.filling ∧ p.st = .resident then tierStatus 0 false (fillDone k s) else s
    | none => s)
/-- UNMAP (R278). -/
def execTierUnmap (tag : BitVec 12) (addr : BitVec 48) (s : State) : Result := .next (unmapPage tag addr.toNat s)
/-- HINT (R278). -/
def execTierHint (tag : BitVec 12) (addr : BitVec 48) (hint : BitVec 3) (s : State) : Result := .next (hintPage tag addr.toNat hint s)
/-- PROMOTE (R281). -/
def execPromote (tag : BitVec 12) (addr : BitVec 48) (s : State) : Result := .next (promotePage tag addr.toNat s)
/-- RELEASE (R281). -/
def execTierRelease (tag : BitVec 12) (addr : BitVec 48) (s : State) : Result := .next (releasePage tag addr.toNat s)
/-- EVICT (R281). -/
def execEvict (tag : BitVec 12) (addr : BitVec 48) (s : State) : Result := .next (evictPage tag addr.toNat s)
/-- MOVE_COMMIT (R284). -/
def execMoveCommit (addr : BitVec 48) (s : State) : Result :=
  .next (match pageAt s (addr.toNat / 65536) with
    | some (k, _) => moveCommit k s
    | none => s)
/-- TIER_AGE (R283). -/
def execTierAge (s : State) : Result := .next (tierAge s)
/-- HOLD_RETRY (R281). -/
def execHoldRetry (c : Nat) (ring : BitVec 6) (s : State) : Result := onCluster c s (holdRetry c ring.toNat)
/-- TIER_QUERY (R300). -/
def execTierQuery (addr : BitVec 48) (s : State) : Result := .next (tierQuery addr.toNat s)

end Sys2Proof.Machine
end

