-- ==== Sys2Proof/Machine/Lease.lean ====
section
/-! DEFINITION. Leases and layout (R184 to R200): the lease operations at an owner, commits of pending runs (R193, R205, R217), vetoed
steps (R195), queries and recovery commands. -/

namespace Sys2Proof.Machine

/-- `SHARD_STALE`. -/
def shardStale : Nat := 0x4001
/-- `LEASE_TIMEOUT`. -/
def leaseTimeoutCode : Nat := 0x4004

/-- The header address of an owned shard: none where the device owns no such shard of the job. -/
def shardHdr (s : State) (tag : BitVec 12) (shard : BitVec 24) : Option Nat := tblFind (getJob s tag).shards shard.toNat
/-- The lease record of a shard. -/
def getLease (s : State) (tag : BitVec 12) (shard : BitVec 24) : LeaseRec := tblGet LeaseRec.reset (getJob s tag).leases shard.toNat
/-- Replaces the lease record of a shard. -/
def putLease (s : State) (tag : BitVec 12) (shard : BitVec 24) (r : LeaseRec) : State :=
  let j := getJob s tag
  putJob s tag { j with leases := tblSet LeaseRec.reset j.leases shard.toNat r }
/-- A little-endian field of a record. -/
def recNat (b : List Byte) (off n : Nat) : Nat := leNat ((b.drop off).take n)

/-- The fields of a shard header. -/
def parseHdr (b : List Byte) : ShardHeader :=
  { lastStep := BitVec.ofNat 48 (recNat b 0 6), cur := bit (recNat b 6 1) 0, prog := recNat b 7 1, version := BitVec.ofNat 32 (recNat b 8 4),
    nelem := recNat b 12 4, buf0 := recNat b 16 6, buf1 := recNat b 22 6, grad := recNat b 28 6, poison := recNat b 34 6,
    frozen := recNat b 40 6 }

/-- The header of a shard as its owner knows it: the one that a commit has not landed yet, else the one in tensor space at an address
(R193, R206). DEDUCED: log 134. -/
def shardView (s : State) (tag : BitVec 12) (shard : BitVec 24) (a : Nat) : ShardHeader :=
  (getLease s tag shard).late.getD (parseHdr (memRead s.mem.tensor a 64))

/-- Whether a step is marked vetoed on the device (R195). -/
def stepVetoed (s : State) (tag : BitVec 12) (g : BitVec 48) : Bool := (getJob s tag).vetoed.contains g
/-- Marks a step vetoed. -/
def markVeto (tag : BitVec 12) (g : BitVec 48) (s : State) : State :=
  let j := getJob s tag
  if j.vetoed.contains g then s else putJob s tag { j with vetoed := g :: j.vetoed }

/-- A participant logs a lease-class fault (R195, R200). -/
def leaseFault (code owner : Nat) (g : BitVec 48) (shard : BitVec 24) (tag : BitVec 12) (s : State) : State :=
  raiseFault leasePage code (some tag)
    (recordFirst s (leasePage + 0x130) (packWord [(48, code), (32, owner % 65536), (24, g.toNat % 256), (0, shard.toNat)]))

/-! ### Lease operations (R189 to R192, R205) -/

/-- An owner's answer to a lease operation: the version of the buffer served and whether it is RET, a refusal, or a deferral. -/
inductive LeaseAns where
  | serve (ret : Bool) (version : BitVec 32)
  | stale
  | deferred
  deriving DecidableEq, Repr

/-- What R190 and R205 decide on NEW(g) for n participants, with the record where it is served. -/
def newDecide (s : State) (tag : BitVec 12) (shard : BitVec 24) (hdr : Nat) (g : BitVec 48) (n : Nat) : LeaseAns × LeaseRec :=
  let r := getLease s tag shard
  let older := match r.pend with
    | some p => decide (p.step.toNat < g.toNat)
    | none => false
  let h := shardView s tag shard hdr
  if g.toNat ≤ h.lastStep.toNat then (.stale, r)
  else if older then (.deferred, r)
  else if r.n = 0 ∨ r.step = g then (.serve false h.version, { r with step := g, n := r.n + n })
  else (.deferred, r)

/-- NEW(g) of a gather of n participants (R190). DEDUCED: log 65. -/
def leaseNew (tag : BitVec 12) (shard : BitVec 24) (g : BitVec 48) (n group collId : Nat) (s : State) : LeaseAns × State :=
  match shardHdr s tag shard with
  | none => (.stale, bump s (leasePage + 0x828))
  | some h =>
    match newDecide s tag shard h g n with
    | (.serve b v, r) => (.serve b v, bump (putLease s tag shard r) (leasePage + 0x800))
    | (.stale, _) => (.stale, bump s (leasePage + 0x828))
    | (.deferred, r) =>
      (.deferred, bump (putLease s tag shard { r with defer := r.defer ++ [⟨g, n, group, collId⟩] }) (leasePage + 0x818))

/-- AGAIN(g) (R191): never deferred. -/
def leaseAgain (tag : BitVec 12) (shard : BitVec 24) (g : BitVec 48) (s : State) : LeaseAns × State :=
  match shardHdr s tag shard with
  | none => (.stale, bump s (leasePage + 0x828))
  | some h =>
    let r := getLease s tag shard
    if r.step = g ∧ r.n ≠ 0 then (.serve false (shardView s tag shard h).version, bump s (leasePage + 0x808))
    else match r.ret with
      | some b => if b.step = g ∧ b.n ≠ 0 then (.serve true b.version, bump s (leasePage + 0x808)) else (.stale, bump s (leasePage + 0x828))
      | none => (.stale, bump s (leasePage + 0x828))

/-- Deferred NEWs are looked at again, oldest first (R190 rule 3, R205). -/
def leaseRecheck (tag : BitVec 12) (shard : BitVec 24) (s : State) : State :=
  match shardHdr s tag shard with
  | none => s
  | some h =>
    forAll (getLease s tag shard).defer s (fun d s =>
      let done := fun (r : LeaseRec) (v : Option (BitVec 32)) =>
        { r with defer := r.defer.erase d, served := r.served ++ [(d.group, d.collId, v)] }
      match newDecide s tag shard h d.step d.n with
      | (.serve _ v, r) => bump (putLease s tag shard (done r (some v))) (leasePage + 0x800)
      | (.stale, r) => bump (putLease s tag shard (done r none)) (leasePage + 0x828)
      | (.deferred, _) => s)

/-! ### Headers and commits (R193, R206, R217) -/

/-- The bytes of a shard header from its fields (R206). -/
def hdrBytes (tag : BitVec 12) (shard : BitVec 24) (h : ShardHeader) : List Byte :=
  let body := leBytes 6 h.lastStep.toNat ++ leBytes 1 (b2n h.cur) ++ leBytes 1 h.prog ++ leBytes 4 h.version.toNat ++ leBytes 4 h.nelem
    ++ leBytes 6 h.buf0 ++ leBytes 6 h.buf1 ++ leBytes 6 h.grad ++ leBytes 6 h.poison ++ leBytes 6 h.frozen ++ leBytes 2 0
    ++ leBytes 4 shard.toNat ++ leBytes 2 tag.toNat ++ leBytes 6 0
  body ++ leBytes 4 (crc32 body)

/-- The header that a commit writes: the header as read by the run, with its new step, CUR toggled and VERSION + 1. -/
def committedHdr (p : PendRun) : ShardHeader :=
  { p.hdr with lastStep := p.step, cur := !p.hdr.cur, version := p.hdr.version + 1 }

/-- The commit of R193 and R217, once RET is absent or holds no lease. The buffers change at once; the commit counts once the header
has landed, and a header that its page refuses stays the owner's view. DEDUCED: log 134. -/
def commitGo (tag : BitVec 12) (shard : BitVec 24) (p : PendRun) (s : State) : State :=
  let r := getLease s tag shard
  let kept : Option RetBuf := if r.n ≠ 0 then some { version := p.hdr.version, step := r.step, n := r.n } else none
  let s := putLease s tag shard { r with step := 0, n := 0, ret := kept, pend := none, late := some (committedHdr p) }
  let own := TOwner.commit tag shard
  let w := tensorWrite own tag (p.cluster / 16) p.hdrAddr (hdrBytes tag shard (committedHdr p)) (dropWrites own s)
  let s := if w.1 ≠ 0 then raiseFault updatePage w.1 (some tag) w.2
    else if (writesOf w.2 own).isEmpty then commitLanded tag shard w.2 else w.2
  leaseRecheck tag shard s

/-- Whether RET allows a commit (R193). -/
def retFree (r : LeaseRec) : Bool :=
  match r.ret with
  | some b => b.n == 0
  | none => true

/-- A commit that has been requested proceeds where R193 allows it. DEDUCED: log 69. -/
def commitTry (tag : BitVec 12) (shard : BitVec 24) (s : State) : State :=
  let r := getLease s tag shard
  match r.pend with
  | some p => if p.waits ∧ retFree r then commitGo tag shard p s else s
  | none => s

/-- A commit is requested (R217): it proceeds, or waits and is counted (R193). -/
def commitRequest (tag : BitVec 12) (shard : BitVec 24) (s : State) : State :=
  let r := getLease s tag shard
  match r.pend with
  | none => s
  | some p =>
    if retFree r then commitGo tag shard p s
    else if p.waits then s
    else bump (putLease s tag shard { r with pend := some { p with waits := true } }) (leasePage + 0x830)

/-- A pending run is discarded (R216, R218): header, counts and CUR stay, and deferred NEWs are looked at again. -/
def discardPend (tag : BitVec 12) (shard : BitVec 24) (s : State) : State :=
  leaseRecheck tag shard (putLease s tag shard { getLease s tag shard with pend := none })

/-- What follows a release: a waiting commit proceeds and deferred NEWs are looked at again. DEDUCED: log 66. -/
def afterRelease (tag : BitVec 12) (shard : BitVec 24) (s : State) : State := leaseRecheck tag shard (commitTry tag shard s)

/-- RELEASE(g) (R192). -/
def leaseRelease (tag : BitVec 12) (shard : BitVec 24) (g : BitVec 48) (s : State) : State :=
  let r := getLease s tag shard
  if r.step = g ∧ r.n ≠ 0 then
    afterRelease tag shard (bump (putLease s tag shard { r with n := r.n - 1 }) (leasePage + 0x810))
  else match r.ret with
    | some b =>
      if b.step = g ∧ b.n ≠ 0 then
        afterRelease tag shard (bump (putLease s tag shard { r with ret := if b.n = 1 then none else some { b with n := b.n - 1 } })
          (leasePage + 0x810))
      else bump s (leasePage + 0x820)
    | none => bump s (leasePage + 0x820)

/-- A commit that waits is abandoned (R194, R195): both buffers keep their contents and counts, and its step is marked vetoed. -/
def commitTimeout (tag : BitVec 12) (shard : BitVec 24) (s : State) : State :=
  match (getLease s tag shard).pend with
  | some p =>
    if p.waits then discardPend tag shard (markVeto tag p.step (leaseFault leaseTimeoutCode (ownAddr s) p.step shard tag s)) else s
  | none => s

/-! ### Queries and recovery commands (R200) -/

/-- LEASE_QUERY. DEDUCED: log 68. -/
def leaseQuery (tag : BitVec 12) (shard : BitVec 24) (s : State) : State :=
  let show_ := fun (a b c : Word) => setReg (setReg (setReg s (leasePage + 0x110) a) (leasePage + 0x118) b) (leasePage + 0x120) c
  match shardHdr s tag shard with
  | none => setRegF s (leasePage + 0x110) 62 62 0
  | some h =>
    let r := getLease s tag shard
    let waits := match r.pend with
      | some p => p.waits
      | none => false
    let ret := r.ret.getD ⟨0, 0, 0⟩
    show_ (packWord [(62, 1), (61, b2n r.ret.isSome), (60, b2n (!r.defer.isEmpty)), (59, b2n waits), (20, ret.n % 2 ^ 20), (0, r.n % 2 ^ 20)])
      (packWord [(32, ret.version.toNat), (0, (shardView s tag shard h).version.toNat)])
      (packWord [(32, ret.step.toNat % 2 ^ 32), (0, r.step.toNat % 2 ^ 32)])

/-- FORCE_RELEASE_CUR: CUR's N becomes 0. -/
def forceCur (tag : BitVec 12) (shard : BitVec 24) (s : State) : State :=
  if (shardHdr s tag shard).isNone then leaseQuery tag shard s
  else afterRelease tag shard (putLease s tag shard { getLease s tag shard with n := 0 })
/-- FORCE_RELEASE_RET: RET's N becomes 0 and RET is freed. -/
def forceRet (tag : BitVec 12) (shard : BitVec 24) (s : State) : State :=
  if (shardHdr s tag shard).isNone then leaseQuery tag shard s
  else afterRelease tag shard (putLease s tag shard { getLease s tag shard with ret := none })

/-- A write to `LEASE_CMD`. -/
def leaseCmd (v : Word) (s : State) : State :=
  let tag := BitVec.ofNat 12 (wfld v 63 52)
  let shard := BitVec.ofNat 24 (wfld v 23 0)
  match wfld v 51 48 with
  | 1 => forceCur tag shard s
  | 2 => forceRet tag shard s
  | _ => bump s (leasePage + 0x838)

/-- LAYOUT_QUERY: stage-table entries 0 to 7, or 8 for the division record. One that names no record sets VALID to 0 and changes nothing
else (R200). -/
def layoutQuery (tag : BitVec 12) (entry : Nat) (s : State) : State :=
  let j := getJob s tag
  let rec_ : Option (List Byte) :=
    if j.st = .free then none
    else if entry < 8 then j.stages[entry]?
    else if entry = 8 ∧ ¬ j.division.isEmpty then some j.division else none
  match rec_ with
  | none => setRegF s (leasePage + 0x148) 62 62 0
  | some l =>
    forAll (List.range 4) (setReg s (leasePage + 0x148) (packWord [(62, 1)])) (fun i s =>
      setReg s (leasePage + 0x150 + 8 * i) (BitVec.ofNat 64 (leNat ((l.drop (8 * i)).take 8))))

/-! ### Meanings -/

/-- LEASE_QUERY (R200). -/
def execLeaseQuery (tag : BitVec 12) (shard : BitVec 24) (s : State) : Result := .next (leaseQuery tag shard s)
/-- LAYOUT_QUERY (R200). -/
def execLayoutQuery (tag : BitVec 12) (entry : BitVec 4) (s : State) : Result := .next (layoutQuery tag entry.toNat s)

end Sys2Proof.Machine
end

