-- ==== Sys2Proof/Machine/Formats.lean ====
section
/-! DEFINITION. Number formats and rounding (Number Formats and Rounding, R63 to R86): decoding to exact values, exact arithmetic,
one rounding, and the conversion events of R77. Values are exact dyadic numbers; nothing here rounds but `roundQ`. -/

namespace Sys2Proof.Machine

/-- A floating type of R63. `kind`: 0 infinities and NaNs, 1 only the all-ones NaN (E4M3), 2 neither (MX elements of 6 and
4 bits). -/
structure FpFmt where
  eb   : Nat
  mb   : Nat
  bias : Int
  kind : Nat
  deriving DecidableEq, Repr

/-- FP32. -/
def fmt32 : FpFmt := ⟨8, 23, 127, 0⟩
/-- Binary64, for the loss, roast and noise units (R224, R232, R237, R218). -/
def fmt64 : FpFmt := ⟨11, 52, 1023, 0⟩

/-- The floating format of a type code; none for integers, masks and scales (R63). -/
def fmtOf (ty : Nat) : Option FpFmt :=
  match ty with
  | 0x0 => some fmt32
  | 0x1 => some ⟨8, 7, 127, 0⟩
  | 0x2 => some ⟨5, 10, 15, 0⟩
  | 0x3 | 0x5 => some ⟨4, 3, 7, 1⟩
  | 0x4 | 0x6 => some ⟨5, 2, 15, 0⟩
  | 0x7 => some ⟨3, 2, 3, 2⟩
  | 0x8 => some ⟨2, 3, 1, 2⟩
  | 0x9 => some ⟨2, 1, 1, 2⟩
  | _ => none

/-- Width in bits and signedness of an integer type. -/
def intOf (ty : Nat) : Option (Nat × Bool) :=
  match ty with
  | 0xA => some (8, true)
  | 0xB => some (16, true)
  | 0xC => some (32, true)
  | 0xD => some (32, false)
  | _ => none

/-- Element width in bits (R63). -/
def tyBits (ty : Nat) : Nat :=
  match ty with
  | 0x0 | 0xC | 0xD => 32
  | 0x1 | 0x2 | 0xB => 16
  | 0x7 | 0x8 => 6
  | 0x9 => 4
  | 0xE => 1
  | _ => 8

/-- An MX element type (0x05 to 0x09). -/
def isMx (ty : Nat) : Bool := 5 ≤ ty && ty ≤ 9
/-- A floating type that stands alone: FP32, BF16, FP16 or FP8. -/
def isFloat (ty : Nat) : Bool := ty ≤ 4
/-- An integer type. -/
def isInt (ty : Nat) : Bool := 0xA ≤ ty && ty ≤ 0xD
/-- An FP8 type. -/
def isFp8 (ty : Nat) : Bool := ty == 3 || ty == 4

/-! ### Decoding -/

/-- Decodes a code of a floating format (R63, R64). -/
def decodeFp (f : FpFmt) (code : Nat) : Fp :=
  let neg := bit code (f.eb + f.mb)
  let ex := fld code (f.eb + f.mb - 1) f.mb
  let m := code % 2 ^ f.mb
  let top := 2 ^ f.eb - 1
  if f.kind = 0 ∧ ex = top then (if m = 0 then .inf neg else .nan)
  else if f.kind = 1 ∧ ex = top ∧ m = 2 ^ f.mb - 1 then .nan
  else if ex = 0 then .fin neg m (1 - f.bias - f.mb)
  else .fin neg (m + 2 ^ f.mb) (ex - f.bias - f.mb)

/-- A subnormal code of a floating format. -/
def isSubnormal (f : FpFmt) (code : Nat) : Bool := fld code (f.eb + f.mb - 1) f.mb == 0 && code % 2 ^ f.mb != 0

/-- The zero of the sign of x. -/
def zeroLike : Fp → Fp
  | .fin n _ _ => .fin n 0 0
  | .inf n => .fin n 0 0
  | .nan => .nan

/-- Whether an exact value is zero. -/
def isZero : Fp → Bool
  | .fin _ m _ => m == 0
  | _ => false
/-- Whether an exact value is NaN or infinite. -/
def nonFinite : Fp → Bool
  | .fin _ _ _ => false
  | _ => true
/-- The sign of a value; a NaN counts as positive. -/
def isNeg : Fp → Bool
  | .fin n _ _ => n
  | .inf n => n
  | .nan => false
/-- A value multiplied by 2^k. -/
def scaleFp (x : Fp) (k : Int) : Fp :=
  match x with
  | .fin n m e => .fin n m (e + k)
  | y => y
/-- The negated value. -/
def negFp : Fp → Fp
  | .fin n m e => .fin (!n) m e
  | .inf n => .inf (!n)
  | .nan => .nan
/-- The magnitude. -/
def absFp : Fp → Fp
  | .fin _ m e => .fin false m e
  | .inf _ => .inf false
  | .nan => .nan

/-- Decodes an element of any type without its scale: floats by R63, integers and masks as exact numbers, E8M0 by R68. In ZT1
mode a subnormal reads as a zero of its sign (R84). -/
def decodeTy (ftz : Bool) (ty code : Nat) : Fp :=
  match fmtOf ty with
  | some f => if ftz && isSubnormal f code then zeroLike (decodeFp f code) else decodeFp f code
  | none =>
    match intOf ty with
    | some (w, true) => let v := sext w code
      .fin (decide (v < 0)) v.natAbs 0
    | some (_, false) => .fin false code 0
    | none => if ty = 0xE then .fin false (code % 2) 0
      else if code = 0xFF then .nan else .fin false 1 (code - 127)

/-- Applies the E8M0 scale of a block (R67): 0xFF reads as NaN. -/
def applyScale (x : Fp) (s : Nat) : Fp := if s = 0xFF then .nan else scaleFp x (s - 127)

/-! ### Exact arithmetic -/

/-- 2^e as a natural factor, for e ≥ 0; 1 otherwise. -/
def pow2 (e : Int) : Nat := 2 ^ e.toNat

/-- The sum of two dyadic numbers. -/
def Dy.add (a b : Dy) : Dy :=
  if a.m = 0 then b else if b.m = 0 then a
  else if a.e ≤ b.e then ⟨a.m + b.m * pow2 (b.e - a.e), a.e⟩ else ⟨a.m * pow2 (a.e - b.e) + b.m, b.e⟩
/-- The product of two dyadic numbers. -/
def Dy.mul (a b : Dy) : Dy := ⟨a.m * b.m, a.e + b.e⟩
/-- The difference of two dyadic numbers. -/
def Dy.sub (a b : Dy) : Dy := Dy.add a ⟨-b.m, b.e⟩
/-- The magnitude of a dyadic number. -/
def Dy.abs (a : Dy) : Dy := ⟨a.m.natAbs, a.e⟩
/-- Whether a ≤ b. -/
def Dy.le (a b : Dy) : Bool := decide ((Dy.sub a b).m ≤ 0)
/-- Whether a < b. -/
def Dy.lt (a b : Dy) : Bool := decide ((Dy.sub a b).m < 0)
/-- The dyadic zero. -/
def Dy.zero : Dy := ⟨0, 0⟩
/-- The dyadic value of a finite number; zero for the others. -/
def toDy : Fp → Dy
  | .fin n m e => ⟨if n then -(m : Int) else m, e⟩
  | _ => Dy.zero

/-- Exact product (R34, R142): NaN for 0 * infinity. -/
def mulFp (a b : Fp) : Fp :=
  match a, b with
  | .nan, _ => .nan
  | _, .nan => .nan
  | .fin n m e, .fin n' m' e' => .fin (n != n') (m * m') (e + e')
  | x, y => if isZero x || isZero y then .nan else .inf (isNeg x != isNeg y)

/-- Exact sum of a list of terms with the results of R72: an exact zero is -0 only when every term is -0. -/
def sumFp (l : List Fp) : Fp :=
  if l.any (fun x => x == .nan) then .nan
  else
    let pos := l.any (fun x => x == .inf false)
    let neg := l.any (fun x => x == .inf true)
    if pos && neg then .nan
    else if pos then .inf false
    else if neg then .inf true
    else
      let d := (l.map toDy).foldl Dy.add Dy.zero
      if d.m = 0 then .fin (!l.isEmpty && l.all (fun x => isZero x && isNeg x)) 0 0
      else .fin (decide (d.m < 0)) d.m.natAbs d.e

/-- Compares two numbers that are not NaN, with -0 below +0: -1, 0 or 1. -/
def cmpFp (a b : Fp) : Int :=
  let key : Fp → Int := fun x => match x with
    | .inf true => -2
    | .inf false => 2
    | _ => 0
  let ka := key a
  let kb := key b
  if ka < kb then -1 else if kb < ka then 1
  else if ka ≠ 0 then 0
  else
    let d := (Dy.sub (toDy a) (toDy b)).m
    if d < 0 then -1 else if 0 < d then 1
    else if isNeg a && !isNeg b then -1 else if isNeg b && !isNeg a then 1 else 0

/-- Compares as numbers: both zeros are equal. -/
def numCmp (a b : Fp) : Int := if isZero a && isZero b then 0 else cmpFp a b

/-! ### Rounding (R70 to R74) -/

/-- Rounding modes (R70): nearest-even, toward zero, stochastic with its 16-bit draw. -/
inductive Rm where
  | rne
  | rtz
  | sr (draw : Nat)
  deriving DecidableEq, Repr

/-- Rounds num / den to an integer. -/
def roundQ (num den : Nat) (rm : Rm) : Nat :=
  let q := num / den
  let r := num % den
  match rm with
  | .rtz => q
  | .rne => if den < 2 * r ∨ (2 * r = den ∧ q % 2 = 1) then q + 1 else q
  | .sr d => if 65536 ≤ r * 65536 / den + d then q + 1 else q

/-- floor(log2(num / den)) for num, den > 0. -/
def log2Q (num den : Nat) : Int :=
  let g : Int := (ilog2 num : Int) - ilog2 den
  -- the estimate is right or one too large
  if (if 0 ≤ g then decide (den * pow2 g ≤ num) else decide (den ≤ num * pow2 (-g))) then g else g - 1

/-- Rounds the magnitude num / den * 2^e (num > 0) to a format's precision with an unbounded exponent: the mantissa q and the
exponent of its last bit (R70). -/
def roundMag (f : FpFmt) (num den : Nat) (e : Int) (rm : Rm) : Nat × Int :=
  let k := log2Q num den + e
  let lsb := max k (1 - f.bias) - f.mb
  let d := e - lsb
  (if 0 ≤ d then roundQ (num * pow2 d) den rm else roundQ num (den * pow2 (-d)) rm, lsb)

/-- The largest finite value of a format as mantissa and exponent (R63). -/
def maxFin (f : FpFmt) : Nat × Int :=
  let top : Int := if f.kind = 0 then 2 ^ f.eb - 2 else 2 ^ f.eb - 1
  (if f.kind = 1 then 2 ^ (f.mb + 1) - 2 else 2 ^ (f.mb + 1) - 1, top - f.bias - f.mb)

/-- The code of a rounded magnitude q * 2^lsb that the format holds. -/
def encodeMag (f : FpFmt) (neg : Bool) (q : Nat) (lsb : Int) : Nat :=
  let q' := if 2 ^ (f.mb + 1) ≤ q then q / 2 else q
  let l' := if 2 ^ (f.mb + 1) ≤ q then lsb + 1 else lsb
  let body := if q' < 2 ^ f.mb then q' else (l' + f.mb + f.bias).toNat * 2 ^ f.mb + (q' - 2 ^ f.mb)
  b2n neg * 2 ^ (f.eb + f.mb) + body

/-- The canonical NaN (R64). -/
def nanCode (f : FpFmt) : Nat :=
  if f.kind = 1 then 2 ^ (f.eb + f.mb) - 1 else (2 ^ f.eb - 1) * 2 ^ f.mb + 2 ^ (f.mb - 1)
/-- The code of an infinity. -/
def infCode (f : FpFmt) (neg : Bool) : Nat := b2n neg * 2 ^ (f.eb + f.mb) + (2 ^ f.eb - 1) * 2 ^ f.mb
/-- The code of a signed zero. -/
def zeroCode (f : FpFmt) (neg : Bool) : Nat := b2n neg * 2 ^ (f.eb + f.mb)
/-- The code of the largest finite value of a sign. -/
def maxCode (f : FpFmt) (neg : Bool) : Nat := encodeMag f neg (maxFin f).1 (maxFin f).2

/-- A conversion's result: its code and its events (R77). -/
structure Conv where
  code   : Nat
  sat    : Bool
  uflow  : Bool
  nonfin : Bool
  deriving DecidableEq, Repr

/-- Whether q * 2^l exceeds m * 2^e. -/
def magGt (q : Nat) (l : Int) (m : Nat) (e : Int) : Bool := Dy.lt ⟨m, e⟩ ⟨q, l⟩

/-- Rounds and encodes num / den * 2^e of a sign into a floating format (R70, R73, R77). `fp8sat` is the saturate flag on an FP8
destination; `mx` marks an MX element. -/
def encodeRat (f : FpFmt) (fp8sat mx ftz : Bool) (rm : Rm) (neg : Bool) (num den : Nat) (e : Int) : Conv :=
  if num = 0 then ⟨zeroCode f neg, false, false, false⟩
  else
    let r := roundMag f num den e rm
    let mx' := maxFin f
    let above := magGt r.1 r.2 mx'.1 mx'.2
    let beyond := Dy.lt ⟨(mx'.1 : Int) * den, mx'.2⟩ ⟨num, e⟩
    if r.1 = 0 then ⟨zeroCode f neg, false, true, false⟩
    else if above then
      ⟨if mx || fp8sat || rm == .rtz then maxCode f neg else if f.kind = 1 then nanCode f else infCode f neg, true, false, false⟩
    else
      let c := encodeMag f neg r.1 r.2
      if ftz && isSubnormal f c then ⟨zeroCode f neg, beyond, true, false⟩ else ⟨c, beyond, false, false⟩

/-- Encodes an exact value into a floating format (R70, R73, R77). -/
def encodeFp (f : FpFmt) (fp8sat mx ftz : Bool) (rm : Rm) (x : Fp) : Conv :=
  match x with
  | .nan => ⟨if mx then 0 else nanCode f, false, false, true⟩
  | .inf n => ⟨if mx then 0 else if fp8sat then maxCode f n else if f.kind = 1 then nanCode f else infCode f n, false, false, true⟩
  | .fin n m e => encodeRat f fp8sat mx ftz rm n m 1 e

/-- A finite value rounded to an integer. -/
def intRound (rm : Rm) (n : Bool) (m : Nat) (e : Int) : Int :=
  let q : Nat := if 0 ≤ e then m * pow2 e else roundQ m (pow2 (-e)) rm
  if n then -(q : Int) else q

/-- Rounds an exact value to an integer type (R73, R85): clamps, or wraps in ZT1 mode; a NaN gives 0. A value is saturated where its
magnitude, exact or rounded, exceeds the type's largest value, and underflows where it is not zero and its code is (R77). An infinity
clamps in ZT1 mode as well. DESIGN CHOICE: log 131. DEDUCED: log 7. -/
def encodeInt (w : Nat) (signed zt1 : Bool) (rm : Rm) (x : Fp) : Conv :=
  let hi : Int := if signed then 2 ^ (w - 1) - 1 else 2 ^ w - 1
  let lo : Int := if signed then -(2 ^ (w - 1)) else 0
  match x with
  | .nan => ⟨0, false, false, true⟩
  | .inf n => ⟨wrapInt w (if n then lo else hi), false, false, true⟩
  | .fin n m e =>
    let v := intRound rm n m e
    let code := wrapInt w (if zt1 then v else if hi < v then hi else if v < lo then lo else v)
    ⟨code, Dy.lt ⟨hi, 0⟩ ⟨m, e⟩ || decide (hi < v.natAbs), m != 0 && code == 0, false⟩

/-- Whether a conversion writes an end of an integer type in place of a value beyond it (R73, R85, R155). -/
def intClamps (zt : Bool) (ty : Nat) (rm : Rm) (x : Fp) : Bool :=
  match intOf ty, x with
  | some _, .inf _ => true
  | some (w, sg), .fin n m e =>
    let v := intRound rm n m e
    !zt && (decide ((if sg then 2 ^ (w - 1) - 1 else 2 ^ w - 1 : Int) < v) || decide (v < if sg then -(2 ^ (w - 1)) else 0))
  | _, _ => false

/-- Conversion to E8M0 (R68): the rounding mode has no effect. -/
def encodeScale (x : Fp) : Conv :=
  match x with
  | .nan | .inf _ => ⟨0xFF, false, false, true⟩
  | .fin _ m e =>
    if m = 0 then ⟨0, false, false, false⟩
    else
      let k := (ilog2 m : Int) + e
      ⟨((max (-127) (min 127 k)) + 127).toNat, Dy.lt ⟨1, 127⟩ ⟨m, e⟩, false, false⟩

/-- Converts an exact value to a type (R70 to R74, R85). `sat` is the instruction's saturate flag. -/
def convTy (zt : Bool) (ty : Nat) (sat : Bool) (rm : Rm) (x : Fp) : Conv :=
  match fmtOf ty with
  | some f => encodeFp f (sat && isFp8 ty) (isMx ty) zt rm x
  | none =>
    match intOf ty with
    | some (w, sg) => encodeInt w sg zt rm x
    | none => if ty = 0xE then ⟨b2n (!isZero x), false, false, nonFinite x⟩ else encodeScale x

/-- Rounds an exact value to FP32, nearest-even, as a code (R71). In ZT1 mode subnormal results are flushed (R84). -/
def rne32 (ftz : Bool) (x : Fp) : BitVec 32 := BitVec.ofNat 32 (encodeFp fmt32 false false ftz .rne x).code
/-- The exact value of an FP32 code. -/
def val32 (b : BitVec 32) : Fp := decodeFp fmt32 b.toNat
/-- The exact value of an FP32 code, subnormals flushed in ZT1 mode (R84). -/
def val32z (ftz : Bool) (b : BitVec 32) : Fp := decodeTy ftz 0 b.toNat
/-- Rounds an exact value to binary64, nearest-even. -/
def rne64 (x : Fp) : BitVec 64 := BitVec.ofNat 64 (encodeFp fmt64 false false false .rne x).code
/-- The exact value of a binary64 code. -/
def val64 (b : BitVec 64) : Fp := decodeFp fmt64 b.toNat

/-- The quotient of two values rounded to a format, nearest-even. -/
def divTo (f : FpFmt) (ftz : Bool) (a b : Fp) : Nat :=
  match a, b with
  | .nan, _ | _, .nan => nanCode f
  | .inf _, .inf _ => nanCode f
  | .inf n, y => infCode f (n != isNeg y)
  | x, .inf n => zeroCode f (isNeg x != n)
  | .fin n m e, .fin n' m' e' =>
    if m' = 0 then (if m = 0 then nanCode f else infCode f (n != n'))
    else (encodeRat f false false ftz .rne (n != n') m m' (e - e')).code

/-- Integer square root, by Newton steps from above; `fuel` bounds them. -/
def isqrtAux : Nat → Nat → Nat → Nat
  | 0, _, x => x
  | k + 1, n, x => let y := (x + n / x) / 2
    if y < x then isqrtAux k n y else x
/-- floor(sqrt n). -/
def isqrt (n : Nat) : Nat := if n = 0 then 0 else isqrtAux (ilog2 n + 4) n (2 ^ (ilog2 n / 2 + 1))

/-! ### FP32 and binary64 arithmetic, nearest-even -/

/-- FP32 sum. -/
def add32 (ftz : Bool) (a b : BitVec 32) : BitVec 32 := rne32 ftz (sumFp [val32z ftz a, val32z ftz b])
/-- FP32 product. -/
def mul32 (ftz : Bool) (a b : BitVec 32) : BitVec 32 := rne32 ftz (mulFp (val32z ftz a) (val32z ftz b))
/-- FP32 fused multiply-add; in ZT1 mode the product is rounded first (R84). -/
def fma32 (ftz : Bool) (a b c : BitVec 32) : BitVec 32 :=
  if ftz then add32 true (mul32 true a b) c else rne32 false (sumFp [mulFp (val32 a) (val32 b), val32 c])
/-- FP32 difference. -/
def sub32 (ftz : Bool) (a b : BitVec 32) : BitVec 32 := rne32 ftz (sumFp [val32z ftz a, negFp (val32z ftz b)])
/-- Binary64 sum. -/
def add64 (a b : BitVec 64) : BitVec 64 := rne64 (sumFp [val64 a, val64 b])
/-- Binary64 difference. -/
def sub64 (a b : BitVec 64) : BitVec 64 := rne64 (sumFp [val64 a, negFp (val64 b)])
/-- Binary64 product. -/
def mul64 (a b : BitVec 64) : BitVec 64 := rne64 (mulFp (val64 a) (val64 b))
/-- Binary64 quotient. -/
def div64 (a b : BitVec 64) : BitVec 64 := BitVec.ofNat 64 (divTo fmt64 false (val64 a) (val64 b))

/-! ### Minimum and maximum (R142, R151) -/

/-- Minimum with NaN propagated and -0 below +0. -/
def minFp (a b : Fp) : Fp := if a = .nan ∨ b = .nan then .nan else if 0 < cmpFp a b then b else a
/-- Maximum with NaN propagated and -0 below +0. -/
def maxFp (a b : Fp) : Fp := if a = .nan ∨ b = .nan then .nan else if cmpFp a b < 0 then b else a

/-! ### The stochastic generator (R75) -/

/-- `mix64`. -/
def mix64 (z : BitVec 64) : BitVec 64 :=
  let z := (z ^^^ (z >>> 30)) * 0xBF58476D1CE4E5B9#64
  let z := (z ^^^ (z >>> 27)) * 0x94D049BB133111EB#64
  z ^^^ (z >>> 31)
/-- `tile_key`. -/
def tileKey (seed : BitVec 64) (ltile : Nat) (step : BitVec 48) : BitVec 64 :=
  mix64 (seed ^^^ mix64 (BitVec.ofNat 64 (ltile * 2 ^ 48) ||| step.setWidth 64))
/-- `sr_draw`. -/
def srDraw (key : BitVec 64) (stream : BitVec 32) (index : Nat) : Nat :=
  ((mix64 (mix64 (key ^^^ stream.setWidth 64) ^^^ BitVec.ofNat 64 index)) >>> 48).toNat

/-! ### Block scale (R69) -/

/-- The emax of an MX element type in R69. -/
def mxEmax (ty : Nat) : Int :=
  match ty with
  | 5 => 8
  | 6 => 15
  | 7 => 4
  | _ => 2

/-- One scale block (R69): the scale code and the element conversions. `live` marks the elements not masked off; the others take
no part and get code zero (R148). A block with nothing live has scale code 0. -/
def blockScale (ty : Nat) (rm : Nat → Rm) (xs : List (Fp × Bool)) : Nat × List Conv :=
  let live := xs.filter (·.2)
  if live.isEmpty then (0, xs.map (fun _ => ⟨0, false, false, false⟩))
  else if live.any (fun p => nonFinite p.1) then (0xFF, xs.map (fun p => ⟨0, false, false, p.2⟩))
  else
    let a := live.foldl (fun m p => maxFp m (absFp p.1)) (.fin false 0 0)
    let x : Int := match a with
      | .fin _ m e => if m = 0 then -127 else max (-127) (min 127 ((ilog2 m : Int) + e - mxEmax ty))
      | _ => -127
    ((x + 127).toNat,
     xs.zipIdx.map (fun p => if p.1.2 then convTy false ty true (rm p.2) (scaleFp p.1.1 (-x)) else ⟨0, false, false, false⟩))

end Sys2Proof.Machine
end

