-- ==== Sys2Proof/Machine/Operands.lean ====
section
/-! DEFINITION. The operands of the vector engine: tensor descriptors (R128, R129), iteration and addressing (R130, R131), element
reads and writes in every space (R132, R144), the checks of R133, and the groups of R141. -/

namespace Sys2Proof.Machine

/-- Reads a tensor descriptor from its 64 bytes (R128). -/
def parseTDesc (b : List Byte) : TDesc :=
  let at_ := fun (i n : Nat) => leNat ((b.drop i).take n)
  let flags := at_ 6 1
  let rem := at_ 62 2
  { base := at_ 0 5, ty := at_ 5 1, space := fld flags 5 4, sb := bit flags 3, rank := flags % 8,
    ext := (List.range 6).map (fun k => at_ (8 + 3 * k) 3), str := (List.range 6).map (fun k => sext 40 (at_ (26 + 5 * k) 5)),
    scale := at_ 56 4, offstep := sext 16 (at_ 60 2), target := fld rem 10 6, window := rem % 64, remote := rem,
    resv := fld flags 7 6 != 0 || at_ 7 1 != 0 || fld rem 15 11 != 0 }

/-- Entry i of tile t's descriptor file (R127). -/
def vdescOf (s : State) (t i : Nat) : TDesc := parseTDesc (memRead s.mem.vdesc (vdAt t (64 * i)) 64)

/-- Extent of dimension k. -/
def TDesc.extAt (d : TDesc) (k : Nat) : Nat := nth 0 d.ext k
/-- Stride of dimension k. -/
def TDesc.strAt (d : TDesc) (k : Nat) : Int := nth 0 d.str k

/-- Elements of a packing group of a sub-byte type (R66). -/
def packGroup (ty : Nat) : Nat :=
  match ty with
  | 7 | 8 => 4
  | 9 => 2
  | 0xE => 8
  | _ => 1

/-- A descriptor without a reserved encoding (R129); `dst` marks a destination. -/
def TDesc.ok (d : TDesc) (dst : Bool) : Bool :=
  decide (d.ty ≤ 0xF) && d.rank != 0 && d.rank != 7
  && (List.range 6).all (fun k => decide (k < d.rank) || (d.extAt k == 0 && d.strAt k == 0))
  && !d.resv
  && !(d.space == 2 && d.ty != 0)
  && !(d.scale != 0 && !isMx d.ty)
  && !(d.remote != 0 && d.space != 3) && decide (d.target ≤ 16)
  && !(d.sb && dst)
  && (packGroup d.ty == 1 ||
      (d.strAt 0 == 1 && d.base % packGroup d.ty == 0
        && (List.range d.rank).all (fun k => k == 0 || d.strAt k % (packGroup d.ty : Int) == 0)))

/-! ### Iteration -/

/-- The number of points of an iteration shape. -/
def shapeCount (rank : Nat) (ext : List Nat) : Nat := ((List.range rank).map (nth 0 ext)).foldl (· * ·) 1

/-- The index of dimension k of the point with a given ordinal, dimension 0 fastest (R130). -/
def pointIdx (ext : List Nat) (o k : Nat) : Nat :=
  o / ((List.range k).map (nth 0 ext)).foldl (· * ·) 1 % nth 1 ext k

/-- The element address of the iteration point with ordinal o (R130). -/
def elemAddr (d : TDesc) (ext : List Nat) (o : Nat) (off : Int) : Int :=
  (List.range d.rank).foldl (fun a k =>
    let i := pointIdx ext o k
    a + ((if k = 0 ∧ d.sb then i / 32 else i : Nat) : Int) * d.strAt k) ((d.base : Int) + off)

/-- The element address of the scale of the point with ordinal o (R130): dense, without the counter offset. -/
def scaleIdx (d : TDesc) (ext : List Nat) (o : Nat) : Nat :=
  let e0 := nth 1 ext 0
  d.scale + (o / e0) * ceilDiv (d.extAt 0) 32 + o % e0 / 32

/-! ### Element access -/

/-- The byte address in the store of a space's byte offset, for the local spaces. -/
def spaceBase (t space : Nat) : Nat :=
  match space with
  | 0 => spAt t 0
  | 1 => carAt (t / 16) 0
  | _ => accAt t 0 0
/-- The bytes of a space. -/
def spaceMem (s : State) (space : Nat) : Mem :=
  match space with
  | 0 => s.mem.sp
  | 1 => s.mem.car
  | _ => s.mem.acc
/-- Replaces the bytes of a space. -/
def putSpace (s : State) (space : Nat) (m : Mem) : State :=
  match space with
  | 0 => { s with mem := { s.mem with sp := m } }
  | 1 => { s with mem := { s.mem with car := m } }
  | _ => { s with mem := { s.mem with acc := m } }
/-- Size of a space in bytes. -/
def spaceSize (space : Nat) : Nat :=
  match space with
  | 0 => 0x18_0000
  | 1 => 0x180_0000
  | _ => 0x4_0000
/-- Bytes of a row of a space for banks and allocations. -/
def spaceRow (space : Nat) : Nat :=
  match space with
  | 0 => 64
  | 1 => 128
  | _ => 4096

/-- The n bits at a bit address of a byte store, least significant first (R65). -/
def bitsAt (m : Mem) (base a n : Nat) : Nat := memNat m (base + a / 8) ((a % 8 + n + 7) / 8) / 2 ^ (a % 8) % 2 ^ n
/-- Writes n bits at a bit address. -/
def setBits (m : Mem) (base a n v : Nat) : Mem :=
  let k := (a % 8 + n + 7) / 8
  memSetNat m (base + a / 8) k (putFld (memNat m (base + a / 8) k) (a % 8 + n - 1) (a % 8) v)

/-- The bytes of an element, or of the packing group that holds it, as first byte and count (R41, R65). -/
def elemBytes (ty : Nat) (a : Nat) : Nat × Nat :=
  let g := packGroup ty
  let first := a / g * g * tyBits ty / 8
  (first, max 1 (g * tyBits ty / 8))

/-- The accumulator slice and row group of a view element (R51). -/
def accPlace (a : Nat) : Nat × Nat := (a % 64 / 16, a / 1024)

/-- Whether an accumulator element's group is poisoned (R54). -/
def poisoned (s : State) (t a : Nat) : Bool :=
  let p := accPlace a
  wbit (reg s (tileBase t + 0x140 + 8 * p.1)) p.2

/-- What reading an element gives: its exact value, whether it read as poison and whether ZT1 mode flushed it (R84). -/
structure ElemRead where
  val     : Fp
  poison  : Bool
  flushed : Bool
  deriving DecidableEq, Repr

/-- Whether ZT1 mode reads a code as zero (R84). -/
def flushes (ftz : Bool) (ty code : Nat) : Bool :=
  ftz && (match fmtOf ty with
    | some f => isSubnormal f code
    | none => false)

/-- The exact value of an element of a local operand, by its type and its scale (R132). -/
def readElem (s : State) (t : Nat) (ftz : Bool) (d : TDesc) (a : Int) (sc : Nat) : ElemRead :=
  if d.space = 2 ∧ poisoned s t a.toNat then ⟨.nan, true, false⟩
  else
    let m := spaceMem s d.space
    let b := spaceBase t d.space
    let code := bitsAt m b (a.toNat * tyBits d.ty) (tyBits d.ty)
    let v := decodeTy ftz d.ty code
    if isMx d.ty then
      let x := applyScale v (bitsAt m b (sc * 8) 8)
      -- a scaled value beyond the FP32 range reads as an infinity of its sign
      ⟨match x with
        | .fin n mm e => if magGt mm e (maxFin fmt32).1 (maxFin fmt32).2 then .inf n else x
        | y => y, false, false⟩
    else ⟨v, false, flushes ftz d.ty code⟩

/-- The raw code of an element of a local operand. -/
def readCode (s : State) (t : Nat) (d : TDesc) (a : Int) : Nat :=
  bitsAt (spaceMem s d.space) (spaceBase t d.space) (a.toNat * tyBits d.ty) (tyBits d.ty)

/-- Performs one element write in a local space. -/
def applyWrite (t : Nat) (w : VWrite) (s : State) : State :=
  putSpace s w.space (setBits (spaceMem s w.space) (spaceBase t w.space) w.bitA w.width w.val)

/-! ### Checks (R133, R168, R169) -/

/-- First and last row of an allocation register, none where it gives no rows (R61, R180). -/
def allocOf (s : State) (t space : Nat) (k : BitVec 2) : Option (Nat × Nat) :=
  match space with
  | 0 =>
    let w := reg s (tileBase t + 0x1D8 + 8 * k.toNat)
    if wbit w 31 ∧ wfld w 14 0 ≤ wfld w 30 16 then some (wfld w 14 0, wfld w 30 16) else none
  | 1 =>
    let w := reg s (carafeBase (t / 16) + 0x100 + 8 * k.toNat)
    if wbit w 40 ∧ wfld w 17 0 ≤ wfld w 37 20 then some (wfld w 17 0, wfld w 37 20) else none
  | _ =>
    let w := reg s (tileBase t + 0x160 + 8 * k.toNat)
    if wbit w 15 ∧ wfld w 5 0 ≤ wfld w 13 8 then some (wfld w 5 0, wfld w 13 8) else none

/-- Whether a row lies in an allocation. -/
def inAlloc (al : Option (Nat × Nat)) (r : Nat) : Bool :=
  match al with
  | some (f, l) => decide (f ≤ r) && decide (r ≤ l)
  | none => false

/-- The store of a space of tile t. -/
def spaceStore (t space : Nat) : Store := if space = 0 then .sp t else .car (t / 16)

/-- Whether an element address passes the three limits of R133. -/
def addrOk (s : State) (t : Nat) (k : BitVec 2) (d : TDesc) (ty : Nat) (a : Int) : Bool :=
  if a < 0 then false
  else if d.space = 3 then true
  else
    let b := elemBytes ty a.toNat
    let r0 := b.1 / spaceRow d.space
    let r1 := (b.1 + b.2 - 1) / spaceRow d.space
    let al := allocOf s t d.space k
    decide (b.1 + b.2 ≤ spaceSize d.space) && inAlloc al r0 && inAlloc al r1
      && (d.space == 2 || rowsOn s (spaceStore t d.space) r0 (r1 + 1 - r0))

/-! ### Groups (R141) -/

/-- The cost in bytes per element of an operand in its space (R141). -/
def opCost (d : TDesc) : Nat :=
  if d.strAt 0 = 0 then 0
  else if d.strAt 0 = 1 then tyBits d.ty
  else (if d.space = 2 then 256 else 64) * 8

/-- floor(capacity / cost) with costs in bits; 0 cost sets no limit. -/
def capLimit (cap cost : Nat) : Nat := if cost = 0 then 4096 else cap * 8 / cost

/-- P of R141 from the lane rate, the source operands and the destination operand indexed by the iteration. -/
def laneWidth (rate : Nat) (srcs dsts : List TDesc) : Nat :=
  let cost := fun (sp : Nat) (l : List TDesc) => ((l.filter (fun d => d.space == sp)).map opCost).foldl (· + ·) 0
  max 1 ([rate, capLimit 256 (cost 0 (srcs ++ dsts)), capLimit 64 (cost 1 srcs), capLimit 64 (cost 1 dsts),
    capLimit 256 (cost 2 srcs), capLimit 256 (cost 2 dsts), capLimit 64 (cost 3 dsts)].foldl min 4096)

/-- The groups of an iteration: each innermost row of e0 points cut into lists of at most p ordinals (R141). -/
def groupsOf (rank : Nat) (ext : List Nat) (p : Nat) : List (List Nat) :=
  let n := shapeCount rank ext
  let e0 := nth 0 ext 0
  if e0 = 0 then [] else
  (List.range (n / e0)).flatMap (fun r => chunksOf p e0 ((List.range e0).map (r * e0 + ·)))

/-- The scratchpad or carafe rows that a list of points of an operand touches, each once. -/
def rowsTouched (d : TDesc) (ext : List Nat) (off : Int) (g : List Nat) : List Nat :=
  (g.flatMap (fun o =>
    let b := elemBytes d.ty (elemAddr d ext o off).toNat
    [b.1 / spaceRow d.space, (b.1 + b.2 - 1) / spaceRow d.space])).eraseDups

/-- The rows of the scales of an MX operand that a list of points touches. -/
def scaleRows (d : TDesc) (ext : List Nat) (g : List Nat) : List Nat :=
  if isMx d.ty then (g.map (fun o => scaleIdx d ext o / spaceRow d.space)).eraseDups else []

end Sys2Proof.Machine
end

