-- ==== Sys2Proof/Machine/Schedule.lean ====
section
/-! DEFINITION. What a vector instruction is before it runs: the operations of R141's table with the operands and variants they
take (R137), the plan of an instruction (its descriptors, shape, groups; R130, R131, R138, R141) and the rows that each of its
groups reads and writes, which give the bank occupancy of every cycle (R41, R139, R160, R165). -/

namespace Sys2Proof.Machine

/-- The kind of an operation. -/
def vKind (opc : Nat) : VKind :=
  if 0x20 ≤ opc ∧ opc ≤ 0x27 then .red
  else match opc with
    | 0x28 => .scan
    | 0x30 => .perm
    | 0x31 => .topk
    | 0x38 => .bscale
    | 0x39 => .census
    | _ => .ew

/-- The operand of a role: 0 DST, 1 A, 2 B, 3 C, 4 MASK. -/
def vOpnd (a : VecArgs) (role : Nat) : Nat :=
  match role with
  | 0 => a.dst.toNat
  | 1 => a.srcA.toNat
  | 2 => a.srcB.toNat
  | 3 => a.srcC.toNat
  | _ => a.mask.toNat

/-- The roles an operation needs (the operand table of the Vector Engine chapter). -/
def vNeeds (opc var : Nat) : List Nat :=
  match opc with
  | 0x01 | 0x02 | 0x03 | 0x05 | 0x06 | 0x09 => [0, 1, 2]
  | 0x04 => [0, 1, 2, 3]
  | 0x0A => [0, 1, 2, 4]
  | 0x0C => if var = 4 then [0, 1] else [0, 1, 2]
  | 0x30 => [0, 1, 2]
  | 0x31 => [0, 1, 3]
  | 0x39 => [1]
  | _ => if vKind opc = .red then [1] else [0, 1]

/-- The roles an operation may leave out: the mask of every operation but SEL, and DST of a reduction. -/
def vOptional (opc : Nat) : List Nat := (if opc = 0x0A then [] else [4]) ++ (if vKind opc = .red then [0] else [])

/-- The variants an operation lists. -/
def vVarOk (opc var : Nat) : Bool :=
  match opc with
  | 0x01 | 0x02 | 0x03 | 0x05 | 0x06 | 0x07 => decide (var ≤ 1)
  | 0x04 | 0x08 | 0x0A | 0x0B | 0x30 | 0x38 | 0x39 => var == 0
  | 0x09 => decide (var ≤ 6)
  | 0x0C => decide (var ≤ 4)
  | 0x10 => decide (var ≤ 8)
  | 0x20 => true
  | 0x21 | 0x22 | 0x23 | 0x24 | 0x25 | 0x26 | 0x27 => decide (var ≤ 7)
  | 0x28 => decide (var % 4 ≤ 2) && decide (var ≤ 7)
  | 0x31 => decide (var ≤ 7)
  | _ => false

/-- Whether an operand field holds a permitted value for an operation (R137). -/
def vFieldOk (opc var role v : Nat) : Bool :=
  if v < 0x40 then (vNeeds opc var).contains role || (vOptional opc).contains role
  else if v = 0xFE then decide (1 ≤ opc) && decide (opc ≤ 0x0A) && decide (1 ≤ role) && decide (role ≤ 3)
    && (vNeeds opc var).contains role
  else v == 0xFF && !(vNeeds opc var).contains role

/-- Whether a vector instruction is free of reserved encodings (R137). -/
def vEncOk (opc : Nat) (a : VecArgs) : Bool :=
  let conv := opc == 0x0B || opc == 0x38
  vVarOk opc a.var.toNat
  && (List.range 5).all (fun r => vFieldOk opc a.var.toNat r (vOpnd a r))
  && a.rm != 3 && (conv || a.rm == 0) && (conv || !a.cen)
  && (a.cen || opc == 0x39 || a.ctag == 0)

/-- The descriptor of a role, none where the operand is an immediate or absent. -/
def vDesc (s : State) (t : Nat) (a : VecArgs) (role : Nat) : Option TDesc :=
  if vOpnd a role < 0x40 then some (vdescOf s t (vOpnd a role)) else none

/-- Whether ZT1 mode reserves the instruction (R82): MX or scale types, stochastic rounding, saturating integer variants. -/
def vZt1Bad (s : State) (t opc : Nat) (a : VecArgs) : Bool :=
  let ds := (List.range 5).filterMap (vDesc s t a)
  let ints := ds.any (fun d => isInt d.ty)
  ds.any (fun d => isMx d.ty || d.ty == 0xF) || a.rm == 2 || opc == 0x38
  || (ints && ((decide (opc ≤ 7) && a.var.getLsbD 0) || (opc == 0x20 && a.var.getLsbD 3)))

/-- The descriptor of a role in a plan. -/
def VPlan.desc (p : VPlan) (role : Nat) : Option TDesc := nth none p.ds role
/-- The counter offset of a role (R138). -/
def VPlan.off (p : VPlan) (role : Nat) : Int := nth 0 p.offs role

/-- The lane rate of R141; the second pass of RLSE has 16. -/
def laneRate (opc pass : Nat) (narrow : Bool) : Nat :=
  if opc = 0x0C then 512
  else if opc ≤ 0x0B then (if narrow then 128 else 64)
  else match opc with
    | 0x10 | 0x28 => 16
    | 0x25 => if pass = 0 then 64 else 16
    | 0x38 => 32
    | _ => 64

/-- The plan of an instruction on tile t (R130, R131, R138, R141). A pass of PERM pays for the operands that it moves: A in the load,
the indices, the mask and the destination in the outputs. DEDUCED: log 54. -/
def vPlan (s : State) (t opc : Nat) (a : VecArgs) (cval : BitVec 16) : VPlan :=
  let ds := (List.range 5).map (vDesc s t a)
  let kind := vKind opc
  let dst := nth none ds 0
  let srcA := nth none ds 1
  let shape := match kind with
    | .ew | .bscale | .perm => dst
    | _ => srcA
  let rank := (shape.map (·.rank)).getD 0
  let ext := (shape.map (·.ext)).getD []
  let offs := (List.range 5).map (fun r => match nth none ds r with
    | some d => if r < 4 ∧ a.offen.getLsbD (3 - r) then (cval.toNat : Int) * d.offstep else 0
    | none => 0)
  let nred := a.var.toNat % 8 + 1
  let per := if kind = .topk then nred else 1
  let outExt := match kind with
    | .red => (List.range 6).map (fun k => if k < nred then (if k < rank then 1 else 0) else nth 0 ext k)
    | .topk => per :: ext.drop 1
    | _ => ext
  let setN := match kind with
    | .red => shapeCount (min nred rank) ext
    | .topk | .scan => nth 0 ext 0
    | _ => 1
  let itSrc := ([1, 2, 4].filterMap (fun r => nth none ds r)) ++ (if kind = .topk then [] else (nth none ds 3).toList)
  let itDst := match kind with
    | .ew | .bscale => dst.toList
    | _ => []
  let narrow := (ds.filterMap id).all (fun d => decide (tyBits d.ty ≤ 16))
  let p0 := laneWidth (laneRate opc 0 narrow) itSrc itDst
  let groups := match kind with
    | .perm =>
      let l := (srcA.map (fun d => d.extAt 0)).getD 0
      let e0 := nth 0 ext 0
      let rows := if e0 = 0 then 0 else shapeCount rank ext / e0
      let pLoad := laneWidth 64 srcA.toList []
      let pOut := laneWidth 64 ([2, 4].filterMap (fun r => nth none ds r)) dst.toList
      (List.range rows).flatMap (fun r =>
        (chunksOf pLoad l ((List.range l).map (r * l + ·))).map (VGroup.mk 0)
        ++ (chunksOf pOut e0 ((List.range e0).map (r * e0 + ·))).map (VGroup.mk 1))
    | _ =>
      (groupsOf rank ext p0).map (VGroup.mk 0)
      ++ (if opc = 0x25 then (groupsOf rank ext (laneWidth 16 itSrc itDst)).map (VGroup.mk 1) else [])
  { opc := opc, var := a.var.toNat, kind := kind, zt := zt1 s (t / 16), carafe := (ds.filterMap id).any (fun d => d.space == 1),
    ds := ds, offs := offs, rank := rank, ext := ext, outExt := outExt, setN := setN, per := per, groups := groups }

/-- G of R139 and R141: the groups of all passes, four times as many in ZT1 mode (R86). -/
def VPlan.g (p : VPlan) : Nat := p.groups.length * (if p.zt then 4 else 1)
/-- The extra latency of an instruction with a carafe operand (R141). -/
def VPlan.extra (p : VPlan) : Nat := if p.carafe then 14 else 0
/-- Cycles between the reads of two groups: four in ZT1 mode, where each group's write still follows its read by three cycles (R86).
DESIGN CHOICE: log 123. -/
def VPlan.pace (p : VPlan) : Nat := if p.zt then 4 else 1

/-- The shape in which a role's points are numbered. -/
def VPlan.shapeOf (p : VPlan) (role : Nat) : List Nat :=
  match p.kind with
  | .perm => if role = 1 then (match p.desc 1 with
      | some d => d.extAt 0 :: p.ext.drop 1
      | none => p.ext) else p.ext
  | .red | .topk => if role = 0 ∨ (role = 3 ∧ p.kind = .topk) then p.outExt else p.ext
  | _ => p.ext

/-- The roles a group reads. -/
def VPlan.readRoles (p : VPlan) (pass : Nat) : List Nat :=
  match p.kind with
  | .perm => if pass = 0 then [1] else [2, 4]
  | .topk => [1, 4]
  | _ => [1, 2, 3, 4]

/-- The rows of a space that a group reads (R41, R160). -/
def VPlan.readRows (p : VPlan) (space : Nat) (g : VGroup) : List Nat :=
  ((p.readRoles g.pass).flatMap (fun r => match p.desc r with
    | some d => if d.space = space
        then rowsTouched d (p.shapeOf r) (p.off r) g.ords ++ scaleRows d (p.shapeOf r) g.ords else []
    | none => [])).eraseDups

/-- The output ordinals that a group completes: its own points, the outputs of the sets that end in it, or its whole scan row. -/
def VPlan.outOrds (p : VPlan) (g : VGroup) : List Nat :=
  match p.kind with
  | .ew => g.ords
  | .bscale =>
    let e0 := nth 1 p.ext 0
    (g.ords.filter (fun o => o % e0 % 32 == 31 || o % e0 + 1 == e0)).flatMap
      (fun o => (List.range (o % e0 % 32 + 1)).map (o - o % e0 % 32 + ·))
  | .perm => if g.pass = 1 then g.ords else []
  | .census => []
  | .scan => (g.ords.filter (fun o => (o + 1) % p.setN == 0)).flatMap (fun o => (List.range p.setN).map (o + 1 - p.setN + ·))
  | .red | .topk =>
    if p.opc = 0x25 ∧ g.pass = 0 then []
    else (g.ords.filter (fun o => (o + 1) % p.setN == 0)).flatMap
      (fun o => (List.range p.per).map (o / p.setN * p.per + ·))

/-- The rows of a space that a group writes. -/
def VPlan.writeRows (p : VPlan) (space : Nat) (g : VGroup) : List Nat :=
  let outs := p.outOrds g
  ((if p.kind = .topk then [0, 3] else [0]).flatMap (fun r => match p.desc r with
    | some d => if d.space = space
        then rowsTouched d (p.shapeOf r) (p.off r) outs ++ (if p.kind = .bscale then scaleRows d p.ext outs else []) else []
    | none => [])).eraseDups

/-- The group read (or, with `lag` the write delay, written) at the k-th cycle after the start cycle (R139). -/
def VPlan.groupAt (p : VPlan) (k lag : Nat) : Option VGroup :=
  if k < 1 + lag then none
  else if (k - 1 - lag) % p.pace = 0 then p.groups[(k - 1 - lag) / p.pace]? else none

/-- The rows of a space that the outputs of an instruction without groups touch (R139). -/
def VPlan.emptyRows (p : VPlan) (space : Nat) : List Nat :=
  ((if p.kind = .topk then [0, 3] else [0]).flatMap (fun r => match p.desc r with
    | some d => if d.space = space ∧ (p.kind = .red ∨ p.kind = .topk)
        then rowsTouched d (p.shapeOf r) (p.off r) (List.range (shapeCount p.rank (p.shapeOf r))) else []
    | none => [])).eraseDups

/-- The rows of a space that a started instruction reads k cycles after its start: a carafe row seven cycles after the read cycle of its
group (R139, R160, R165). -/
def VPlan.readsAt (p : VPlan) (space k : Nat) : List Nat :=
  match p.groupAt k (if space = 1 then 7 else 0) with
  | some g => p.readRows space g
  | none => []
/-- The rows of a space that a started instruction writes k cycles after its start; without groups it writes at s + 3 (R139, R165). -/
def VPlan.writesAt (p : VPlan) (space k : Nat) : List Nat :=
  if p.groups.isEmpty then (if k = 3 + p.extra then p.emptyRows space else [])
  else match p.groupAt k (3 + p.extra) with
    | some g => p.writeRows space g
    | none => []
/-- The banks of a space that a started instruction occupies k cycles after its start: one entry for each row access (R41, R165). -/
def VPlan.banksAt (p : VPlan) (t space k : Nat) : List Nat :=
  (p.readsAt space k ++ p.writesAt space k).map (storeBank (spaceStore t space))

/-- The started instruction of tile t, with its start cycle. -/
def vecRunning (s : State) (t : Nat) : Option (Nat × VecRun) :=
  match (getTile s t).vq with
  | e :: _ => match e.started, e.run with
    | some st, some r => some (st, r)
    | _, _ => none
  | [] => none
/-- The rows of a space that the vector engine of tile t reads in the present cycle. -/
def vecReadRows (s : State) (t space : Nat) : List Nat :=
  match vecRunning s t with
  | some q => q.2.plan.readsAt space (s.cycle - q.1)
  | none => []
/-- The banks of a space that the vector engine of tile t occupies in the present cycle, one entry for each access. -/
def vecBanks (s : State) (t space : Nat) : List Nat :=
  match vecRunning s t with
  | some q => q.2.plan.banksAt t space (s.cycle - q.1)
  | none => []

end Sys2Proof.Machine
end

