-- ==== Sys2Proof/Machine/Stores.lean ====
section
/-! DEFINITION. Asynchronous writes and their bank buffers (R161, R162, R167), bank states (R169, R170), windows (R171 to R174) and
receive queues (R175 to R178), with the meanings of the commands that act on them. -/

namespace Sys2Proof.Machine

/-! ### Buffers and landing -/

/-- The tile-side reads of a row in the present cycle (R162, R167). -/
def readNow (s : State) (a : Store) (row : Nat) : Bool :=
  match a with
  | .sp t => (getTile s t).access.any (fun p => p.1 == s.cycle && p.2.1 == row && p.2.2) || (vecReadRows s t 0).contains row
  | .car c => (tilesOf c).any (fun t => (vecReadRows s t 1).contains row)

/-- Whether a tile-side accessor occupies a bank in the present cycle (R161, R167). -/
def bankBusy (s : State) (a : Store) (b : Nat) : Bool :=
  match a with
  | .sp t => (getTile s t).access.any (fun p => p.1 == s.cycle && storeBank a p.2.1 == b) || (vecBanks s t 0).contains b
  | .car c => (tilesOf c).any (fun t => (vecBanks s t 1).contains b)

/-- The bank cycles used by asynchronous writes, with their cycle and whether the row had waited in the buffer (R161). -/
def bankUses (s : State) : Store → List (Nat × Nat × Bool)
  | .sp t => (getTile s t).bankUsed
  | .car c => (getClu s c).bankUsed
/-- How an asynchronous write has used a bank's present cycle: whether the row had waited in the buffer. -/
def bankLanded (s : State) (a : Store) (b : Nat) : Option Bool := ((bankUses s a).find? (fun p => p.1 == s.cycle && p.2.1 == b)).map (·.2.2)
/-- Whether an asynchronous write has used a bank's present cycle. -/
def bankTaken (s : State) (a : Store) (b : Nat) : Bool := (bankLanded s a b).isSome
/-- An asynchronous write uses a bank's present cycle. -/
def takeBank (a : Store) (b : Nat) (waited : Bool) (s : State) : State :=
  let l := (bankUses s a).filter (fun p => p.1 == s.cycle) ++ [(s.cycle, b, waited)]
  match a with
  | .sp t => putTile s t { getTile s t with bankUsed := l }
  | .car c => putClu s c { getClu s c with bankUsed := l }

/-- The counters of a store: collisions, deferred writes, refused rows. -/
def collideCtr : Store → Nat
  | .sp t => tileBase t + 0x870
  | .car c => carafeBase c + 0x800
/-- The counter of deferred writes (R162, R167). -/
def deferCtr : Store → Nat
  | .sp t => tileBase t + 0x878
  | .car c => carafeBase c + 0x808
/-- The counter of rows that windows refused (R172). -/
def refuseCtr : Store → Nat
  | .sp t => tileBase t + 0x880
  | .car c => carafeBase c + 0x810

/-- Replaces the record of a window message. -/
def putMsg (s : State) (m : Nat) (v : WinMsg) : State := { s with msgs := tblSet WinMsg.reset s.msgs m v }
/-- A message number that no record uses. -/
def freshMsg (s : State) : Nat := (tblKeys s.msgs).foldl (fun a k => max a (k + 1)) 1

/-- Completes a message once its last row has arrived and no row waits: its counter increments (R173), and a message of the fabric
is answered (R316). An atomic that has been performed stays until its result leaves (amoSettle). -/
def msgSettle (m : Nat) (s : State) : State :=
  let r := getMsg s m
  if r.lastIn ∧ r.waiting = 0 ∧ r.amo = none then
    let s := putMsg s m WinMsg.reset
    if r.muted then s else
    let s := match r.counter with
      | some p => if r.refused then s else bump s (clusterBase p.1 + 0x180 + 8 * p.2)
      | none => s
    match r.origin with
    | .rx at_ src shub cls psn => answerMsg at_ src shub cls psn (if r.refused then r.code else 0) s
    | _ => s
  else s
/-- A message neither counts nor is answered any more; it ends with its rows. -/
def quietMsg (m : Option Nat) (s : State) : State :=
  match m with
  | some k => msgSettle k (putMsg s k { getMsg s k with muted := true, lastIn := true })
  | none => s
/-- Whether rows of a source have not landed. -/
def rowsWaitFrom (s : State) (f : MsgFrom) : Bool := s.msgs.any (fun p => p.2.origin == f)

/-- One row of a message has landed. -/
def msgLanded (w : Option WinRef) (s : State) : State :=
  match w with
  | none => s
  | some r => msgSettle r.msg (putMsg s r.msg { getMsg s r.msg with waiting := (getMsg s r.msg).waiting - 1 })

/-- An atomic notes the value that it finds (R314). -/
def noteOld (a : Store) (w : AsyncRow) (s : State) : State :=
  match w.win with
  | some r => putMsg s r.msg { getMsg s r.msg with old := BitVec.ofNat 64 (memNat (storeMem s a) (amoAddr a w) 8) }
  | none => s
/-- A row lands in the array (R161); an atomic is performed there (R314). -/
def landRow (a : Store) (w : AsyncRow) (s : State) : State :=
  let o := s
  let s := if (rowAmo s w).isSome then noteOld a w s
    else match a with
      | .sp t => bump s (tileBase t + 0x888)
      | .car _ => s
  msgLanded w.win (storePut s a (rowLand o a w (storeMem s a)))

/-- A row does not land in the cycle in which it reaches its bank: the deferral and the collision of R162 count. -/
def countEntry (a : Store) (w : AsyncRow) (s : State) : State :=
  let s := bump s (deferCtr a)
  if readNow s a w.row then bump s (collideCtr a) else s

/-- A row is offered to its bank (R161): whether it lands, enters the buffer or is held at its source is settled at the edge that ends
the cycle. -/
def enterBank (a : Store) (w : AsyncRow) (s : State) : State :=
  let b := storeBank a w.row
  putBankQueue s a b (bankQueue s a b ++ [⟨false, w⟩])

/-- The edge of a cycle at a bank (R161, R162): where no tile-side accessor and no earlier landing occupies the bank, its oldest row
lands. Of the others, those that find a free entry enter the buffer, and each of these counts its deferral. -/
def bankEdge (a : Store) (b : Nat) (s : State) : State :=
  match bankQueue s a b with
  | [] => s
  | w :: r =>
    let lands := !bankBusy s a b && !bankTaken s a b
    let rest := if lands then r else w :: r
    -- a row that lands on reaching an empty buffer needs no entry, and an entry that a landing leaves is free from the next cycle
    let room := if (lands && w.inBuf) || bankLanded s a b == some true then 1 else 2
    let late := (rest.take room).filter (fun q => !q.inBuf)
    let s := putBankQueue s a b (rest.zipIdx.map (fun q => if q.2 < room then { q.1 with inBuf := true } else q.1))
    let s := forAll late s (fun q s => countEntry a q.row s)
    if lands then landRow a w.row (takeBank a b w.inBuf s) else s

/-- The edge of a cycle at every bank of a store for which rows wait. -/
def storeEdge (a : Store) (s : State) : State :=
  let keys := match a with
    | .sp t => tblKeys (getTile s t).wbuf
    | .car c => tblKeys (getClu s c).wbuf
  forAll keys s (bankEdge a)

/-! ### Window admission (R171, R172, R312) -/

/-- The address of the three registers of a window: BASE, LIMIT and CTRL follow one another. -/
def winAddr : Store → Nat → Nat
  | .sp t, n => tileBase t + 0x240 + 24 * n
  | .car c, n => carWinBase c + 0x100 + 24 * n
/-- The number of windows: 16 of a tile, 64 of a carafe. -/
def winCount : Store → Nat
  | .sp _ => 16
  | .car _ => 64
/-- BASE of a window in bytes. -/
def winBase (s : State) (a : Store) (n : Nat) : Nat := (reg s (winAddr a n)).toNat
/-- LIMIT of a window in bytes. -/
def winLimit (s : State) (a : Store) (n : Nat) : Nat := (reg s (winAddr a n + 8)).toNat
/-- The control register of a window. -/
def winCtrl (s : State) (a : Store) (n : Nat) : Word := reg s (winAddr a n + 16)
/-- Whether a window is open. -/
def winOpened (s : State) (a : Store) (n : Nat) : Bool := wbit (winCtrl s a n) 63
/-- The store that TARGET of a window command or a remote descriptor names: 0 to 15 a tile of the cluster, 16 its carafe. -/
def winTarget (c target : Nat) : Store := if target < 16 then .sp (16 * c + target) else .car c

/-- The refusal code of a window access to bytes first to last - 1 of the space, 0 where it is admitted (R172, R312). A store whose
cluster quiesces or rinses refuses everything (R368). -/
def winCheck (s : State) (a : Store) (n : Nat) (cls : WClass) (tag : BitVec 12) (jepoch : BitVec 16) (key : BitVec 24)
    (first last : Nat) : Nat :=
  let v := seenState s
  let w := winCtrl v a n
  let fab := cls = .fabric
  if cluBlocked s (storeClu a) then 0x2006
  else if ¬ (n < winCount a) ∨ ¬ wbit w 63 then 0x2002
  else if ¬ wbit w (if fab then 61 else 62) then 0x2002
  else if wfld w 51 40 ≠ tag.toNat ∨ cluTag s (storeClu a) ≠ some tag then 0x2002
  else if first < winBase v a n ∨ winLimit v a n < last then 0x2002
  else if fab ∧ wfld w 39 24 ≠ jepoch.toNat then 0x5004
  else if fab ∧ wfld w 23 0 ≠ key.toNat then 0x5003
  else if rowsOn s a (first / storeRow a) (ceilDiv last (storeRow a) - first / storeRow a) then 0 else 0x2001

/-- The bytes a masked row covers, as first and one past the last offset in the space. -/
def rowSpan (a : Store) (w : AsyncRow) : Nat × Nat :=
  let l := (maskedBytes (storeRow a) w).map (·.1)
  (w.row * storeRow a + l.headD 0, w.row * storeRow a + (l.getLastD 0) + 1)

/-- A row of a window message arrives (R172): it is admitted into its bank, or refused with the message's later rows. DEDUCED: log 62. -/
def windowRow (a : Store) (w : AsyncRow) (r : WinRef) (s : State) : State :=
  let m := getMsg s r.msg
  let span := rowSpan a w
  let code := if m.refused then m.code else winCheck s a r.window r.cls r.tag r.jepoch r.key span.1 span.2
  let ctl := winCtrl s a r.window
  if code = 0 then
    let cnt := if r.last then (if wbit ctl 60 then some (storeClu a, wfld ctl 59 56) else none) else m.counter
    enterBank a w (putMsg s r.msg { m with waiting := m.waiting + 1, lastIn := m.lastIn || r.last, counter := cnt })
  else msgSettle r.msg (putMsg (rinseCount code (bump s (refuseCtr a))) r.msg { m with refused := true, code := code, lastIn := m.lastIn || r.last })

/-- Cuts bytes that start at an offset into masked rows of a store. -/
def asRows (a : Store) (off : Nat) (l : List Byte) (win : Option WinRef) : List AsyncRow :=
  let n := storeRow a
  let rows := if l.isEmpty then [] else (List.range ((off + l.length - 1) / n + 1 - off / n)).map (off / n + ·)
  rows.map (fun r =>
    let lo := max off (r * n)
    let hi := min (off + l.length) ((r + 1) * n)
    { row := r
      mask := BitVec.ofNat 128 ((2 ^ (hi - lo) - 1) * 2 ^ (lo - r * n))
      data := BitVec.ofNat 1024 (leNat ((l.drop (lo - off)).take (hi - lo)) * 2 ^ (8 * (lo - r * n)))
      win := win
      desc := none })

/-- Sends pieces (byte offset, bytes) of window message m, whose last row is among them where `final` is set (R173): 0, or the code of
the first refused row. -/
def windowPart (m : Nat) (final : Bool) (a : Store) (n : Nat) (cls : WClass) (tag : BitVec 12) (jepoch : BitVec 16) (key : BitVec 24)
    (pieces : List (Nat × List Byte)) (s : State) : Nat × State :=
  let ref : WinRef := { window := n, cls := cls, tag := tag, jepoch := jepoch, key := key, msg := m, last := false }
  let rows := pieces.flatMap (fun p => asRows a (winBase s a n + p.1) p.2 (some ref))
  let rows := rows.zipIdx.map (fun p => if final ∧ p.2 + 1 = rows.length
    then { p.1 with win := some { ref with last := true } } else p.1)
  let code := (rows.foldl (fun (c : Nat) w => if c = 0 then
    let span := rowSpan a w
    winCheck s a n cls tag jepoch key span.1 span.2 else c) 0)
  let s := if final ∧ rows.isEmpty then putMsg s m { getMsg s m with lastIn := true } else s
  (code, msgSettle m (forAll rows s (fun w s => match w.win with
    | some r => windowRow a w r s
    | none => s)))
/-- Opens the record of a new window message. -/
def openMessage (from_ : MsgFrom) (s : State) : Nat × State :=
  let m := freshMsg s
  (m, putMsg s m { WinMsg.reset with origin := from_ })
/-- Where the source of a window message stands; rows from the fabric reach their store from the hub on its side (R307). -/
def fromEnd (from_ : MsgFrom) (a : Store) : Nat := match from_ with
  | .desc c _ _ => c / 16
  | .pour h _ => 4 + h
  | _ => 4 + storeClu a / 16 % 2
/-- Sends the pieces of one whole message into a window; one whose route is cut fails at its source (R407). -/
def windowPieces (from_ : MsgFrom) (a : Store) (n : Nat) (cls : WClass) (tag : BitVec 12) (jepoch : BitVec 16) (key : BitVec 24)
    (pieces : List (Nat × List Byte)) (s : State) : Nat × State :=
  if cutOff s (fromEnd from_ a) (storeClu a / 16) then (bridgeFailCode, s) else
  let o := openMessage from_ s
  windowPart o.1 true a n cls tag jepoch key pieces o.2
/-- Sends the bytes of one whole message into a window at a byte offset. -/
def windowMessage (from_ : MsgFrom) (a : Store) (n : Nat) (cls : WClass) (tag : BitVec 12) (jepoch : BitVec 16) (key : BitVec 24)
    (off : Nat) (l : List Byte) (s : State) : Nat × State := windowPieces from_ a n cls tag jepoch key [(off, l)] s

/-- Bytes that a source writes to a store from an offset, outside any window (R161): its rows reach their banks as one message that
counts nowhere. -/
def plainMessage (from_ : MsgFrom) (a : Store) (off : Nat) (l : List Byte) (s : State) : State :=
  let m := freshMsg s
  let ref : WinRef := { window := 0, cls := .loc, tag := 0, jepoch := 0, key := 0, msg := m, last := true }
  let rows := asRows a off l (some ref)
  let s := putMsg s m { WinMsg.reset with waiting := rows.length, lastIn := true, origin := from_ }
  msgSettle m (forAll rows s (enterBank a))

/-! ### Receive queues (R175 to R178) -/

/-- The address of queue q's registers of cluster c: CFG, PTR, CREDIT and RETURN. -/
def rqAddr (c q : Nat) : Nat := carafeBase c + 0x200 + 32 * q
/-- The store in which a queue lies: tile LOC of the cluster, or the carafe. -/
def rqStore (c : Nat) (cfg : Word) : Store := winTarget c (wfld cfg 55 51)

/-- Records a carafe fault and raises it on the carafe page (R165, R170, R178, R180). -/
def faultCar (c code ta tb bank : Nat) (s : State) : State :=
  let b := carafeBase c
  raiseClu b c code (recordFirst s (b + 0x148) (packWord [(32, cluLow s c), (16, code), (12, ta), (8, tb), (0, bank)]))

/-- A credit claim of n units (R176): the AVAIL from before it, and the state in which the claim is applied if AVAIL suffices. -/
def rqClaim (c q n : Nat) (s : State) : Nat × State :=
  let a := rqAddr c q
  let w := reg s (a + 16)
  let avail := wfld w 31 0
  if cluBlocked s c then (0, rinseCount 0x2006 s)
  else if ¬ wbit (reg s a) 63 then (0, s)
  else if n ≤ avail then (avail, setReg s (a + 16) (packWord [(32, wfld w 63 32 + n), (0, avail - n)]))
  else (avail, s)

/-- The consumer returns the units that the low 32 bits of a written value name (R178, R180). A return beyond WP - RP is ignored and raises
`CREDIT_UNDERRUN`. -/
def rqGive (c q : Nat) (v : Word) (s : State) : State :=
  let n := wfld v 31 0
  let a := rqAddr c q
  let p := reg s (a + 8)
  let w := reg s (a + 16)
  if (wfld p 31 0 + 2 ^ 32 - wfld p 63 32) % 2 ^ 32 < n then
    faultCar c 0x2003 0 0 0 (bump s (carafeBase c + 0x818))
  else
    setReg (setReg s (a + 8) (packWord [(32, (wfld p 63 32 + n) % 2 ^ 32), (0, wfld p 31 0)]))
      (a + 16) (packWord [(32, wfld w 63 32), (0, wfld w 31 0 + n)])

/-- The rows of a ring, as first and one past the last carafe row (R288). -/
def ringRows (cfg : Word) : Nat × Nat := (wfld cfg 17 0, wfld cfg 17 0 + 2 ^ wfld cfg 23 20)
/-- Whether the rows of some enabled ring of cluster c other than `skip` overlap carafe bytes lo to hi - 1. -/
def ringOverlaps (s : State) (c lo hi : Nat) (skip : Nat) : Bool :=
  (getClu s c).rings.any (fun p => p.1 != skip && wbit p.2.cfg 63
    && decide ((ringRows p.2.cfg).1 * 128 < hi) && decide (lo < (ringRows p.2.cfg).2 * 128))

/-- Writes `RQn_CFG` (R175, R178, R180): ignored while EN is 1, except a write that clears EN. Enabling sets WP, RP and GRANT to 0
and AVAIL to SIZE + 1. -/
def rqConfig (c q : Nat) (v : Word) (s : State) : State :=
  let a := rqAddr c q
  let v := v &&& BitVec.ofNat 64 (bits 63 18 + bits 16 0)
  let loc := wfld v 55 51
  let size := wfld v 34 18 + 1
  let lo := wfld v 16 0 * 256
  let hi := lo + size * 256
  if wbit (reg s a) 63 ∧ wbit v 63 then s
  else if 16 < loc ∨ storeSize (winTarget c loc) < hi then faultCar c 0x2001 0 0 0 (setReg s a (wput v 63 63 0))
  else if ¬ wbit v 63 then setReg s a v
  else if loc = 16 ∧ ringOverlaps s c lo hi 64 then bump s (clusterBase c + 0x828)
  else setReg (setReg (setReg s a v) (a + 8) 0) (a + 16) (packWord [(0, size)])

/-- A SEND of bytes reaches queue q (R177): 0 where it is admitted, and then its units are reserved and its rows enter the banks as
one message; else the refusal code. -/
def rqSend (from_ : MsgFrom) (c q : Nat) (credited : Bool) (tag : BitVec 12) (cls : WClass) (jepoch : BitVec 16) (key : BitVec 24)
    (l : List Byte) (s : State) : Nat × State :=
  let a := rqAddr c q
  let cfg := reg s a
  let at_ := rqStore c cfg
  let size := wfld cfg 34 18 + 1
  let u := ceilDiv l.length 256
  let p := reg s (a + 8)
  let w := reg s (a + 16)
  let wp := wfld p 31 0
  let unitOff := fun (i : Nat) => (wfld cfg 16 0 + (wp + i) % size) * 256
  let pieces := chunksOf 256 l.length l
  let spans := pieces.zipIdx.map (fun x => (unitOff x.2, unitOff x.2 + x.1.length))
  let parts := pieces.zipIdx.flatMap (fun x => asRows at_ (unitOff x.2) x.1 none)
  let late := parts.dropWhile (fun w => winCheck s at_ (wfld cfg 61 56) cls tag jepoch key (rowSpan at_ w).1 (rowSpan at_ w).2 == 0)
  let on := spans.all (fun x => rowsOn s at_ (x.1 / storeRow at_) (ceilDiv x.2 (storeRow at_) - x.1 / storeRow at_))
  let code : Nat :=
    if cluBlocked s c then 0x2006
    else if ¬ wbit cfg 63 then 0x2002
    else if credited then
      (if wfld cfg 50 39 ≠ tag.toNat ∨ wfld w 63 32 < u then 0x2003 else if on then 0 else 0x2001)
    else if ¬ wbit cfg 62 then 0x2002
    else if ¬ late.isEmpty then 0x2002
    else if wfld w 31 0 < u then 0x2001 else 0
  if code ≠ 0 then
    let s := rinseCount code (if code = 0x2003 then bump s (carafeBase c + 0x818) else s)
    (code, if ¬ credited ∧ wbit cfg 63 ∧ wbit cfg 62 ∧ ¬ late.isEmpty ∧ code ≠ 0x2006 then addCtr s (refuseCtr at_) late.length
      else addCtr s (carafeBase c + 0x810) parts.length)
  else
    let s := setReg s (a + 8) (packWord [(32, wfld p 63 32), (0, (wp + u) % 2 ^ 32)])
    let s := setReg s (a + 16) (if credited then packWord [(32, wfld w 63 32 - u), (0, wfld w 31 0)]
      else packWord [(32, wfld w 63 32), (0, wfld w 31 0 - u)])
    let m := freshMsg s
    let ref : WinRef := { window := 0, cls := cls, tag := tag, jepoch := jepoch, key := key, msg := m, last := true }
    let rows := pieces.zipIdx.flatMap (fun x => asRows at_ (unitOff x.2) x.1 (some ref))
    let s := putMsg s m { WinMsg.reset with waiting := rows.length, lastIn := true, counter := some (c, wfld cfg 38 35), origin := from_ }
    (0, msgSettle m (forAll rows s (enterBank at_)))

/-! ### Bank states (R170) -/

/-- The bytes of a bank are lost: it reads as zero. -/
def zeroBank (a : Store) (b : Nat) (s : State) : State :=
  let base := storeAt a 0
  storePut s a (tblKeep (fun k => decide (k < base) || decide (base + storeSize a ≤ k)
    || storeBank a ((k - base) / storeRow a) != b) (storeMem s a))

/-- The state from which a bank in transition started. -/
def bankFromOf (s : State) (a : Store) (b : Nat) : BitVec 2 :=
  match a with
  | .sp t => tblGet 0 (getTile s t).bankFrom b
  | .car c => tblGet 0 (getClu s c).bankFrom b
/-- Records the state from which a bank's transition starts. -/
def setBankFrom (s : State) (a : Store) (b : Nat) (v : BitVec 2) : State :=
  match a with
  | .sp t => let x := getTile s t; putTile s t { x with bankFrom := tblSet 0 x.bankFrom b v }
  | .car c => let k := getClu s c; putClu s c { k with bankFrom := tblSet 0 k.bankFrom b v }

/-- Requests a state for one bank: a changed request clears the ready bit (R170). -/
def bankRequest (a : Store) (p : Nat × Nat) (s : State) : State :=
  let cur := bankReq s a p.1
  if cur = p.2 then s
  else
    let s := if bankReady s a p.1 then setBankFrom s a p.1 (BitVec.ofNat 2 cur) else s
    let r := bankStateReg a p.1
    setBankReady (setRegF s r.1 (2 * r.2 + 1) (2 * r.2) p.2) a p.1 false

/-- A write to `SP_BANK_STATE` or `CAR_BANK_STATEm` (R170): ignored whole, with `BANK_STATE` raised, where a field is 11. -/
def bankWrite (a : Store) (m : Nat) (v : Word) (s : State) : State :=
  let n := match a with
    | .sp _ => 24
    | .car _ => 32
  let first := match a with
    | .sp _ => 0
    | .car _ => 32 * m
  let fields := (List.range n).map (fun i => (first + i, wfld v (2 * i + 1) (2 * i)))
  match fields.find? (fun p => p.2 == 3) with
  | some p => match a with
    | .sp t => raiseClu (tileBase t) (t / 16) 0x2009 s
    | .car c => faultCar c 0x2009 0 0 p.1 s
  | none => forAll fields s (bankRequest a)

/-- A bank in transition reaches its requested state (R170): its ready bit sets, and it reads as zero where it was or becomes OFF.
A bank leaving ON first drains its write buffer. -/
def bankArrives (a : Store) (b : Nat) (s : State) : State :=
  let to_ := bankReq s a b
  let frm := bankFromOf s a b
  if bankReady s a b ∨ (frm = 0 ∧ ¬ (bankQueue s a b).isEmpty) then s
  else
    let s := if to_ = 2 ∨ frm = 2 then zeroBank a b s else s
    setBankReady (setBankFrom s a b 0) a b true

/-! ### Window commands (R174) -/

/-- A write that reaches cluster c's pages: blanked and counted while its resources refuse (R368), and without effect while its domain is
off (R376). -/
def cluWrite (c : Nat) (f : State → State) (s : State) : State :=
  inDomain (cluDomain c) s (fun s => if cluBlocked s c then bump s (devicePage + 0x810) else f s)

/-- A command that is a write of a register of cluster c's pages; a cluster that the device does not have has no page (R351). -/
def cluCommand (c : Nat) (s : State) (f : State → State) : Result := .next (if c < 64 then cluWrite c f s else unmapped s)

/-- Counts an ignored command of a cluster page (R121, R174). -/
def cluIgnore (c : Nat) (s : State) : State := bump s (clusterBase c + 0x828)

/-- OPEN (R174, R288, R422). DEDUCED: log 63. -/
def winOpen (c target n : Nat) (epoch : BitVec 16) (s : State) : State :=
  let a := winTarget c target
  let w := winCtrl s a n
  if 16 < target ∨ winCount a ≤ n then cluIgnore c s
  else if cluTag s c ≠ some (BitVec.ofNat 12 (wfld w 51 40)) then cluIgnore c s
  else if winLimit s a n ≤ winBase s a n ∨ storeSize a < winLimit s a n then cluIgnore c s
  else if requireKey s ∧ wbit w 61 ∧ wfld w 23 0 = 0 then cluIgnore c s
  else if target = 16 ∧ ringOverlaps s c (winBase s a n) (winLimit s a n) 64 then cluIgnore c s
  else setReg s (winAddr a n + 16) (wput (wput w 39 24 epoch.toNat) 63 63 1)

/-- CLOSE (R174). -/
def winClose (c target n : Nat) (s : State) : State :=
  let a := winTarget c target
  if 16 < target ∨ winCount a ≤ n then cluIgnore c s else setReg s (winAddr a n + 16) (wput (winCtrl s a n) 63 63 0)

/-- SET_EPOCH (R174). -/
def winEpoch (c target n : Nat) (epoch : BitVec 16) (s : State) : State :=
  let a := winTarget c target
  if 16 < target ∨ winCount a ≤ n then cluIgnore c s
  else setReg s (winAddr a n + 16) (wput (winCtrl s a n) 39 24 epoch.toNat)

/-- A write to `WIN_CMD` (R174, R180). -/
def winCmd (c : Nat) (v : Word) (s : State) : State :=
  let target := wfld v 12 8
  let n := wfld v 18 13
  let epoch := BitVec.ofNat 16 (wfld v 34 19)
  match wfld v 7 0 with
  | 1 => winOpen c target n epoch s
  | 2 => winClose c target n s
  | 3 => winEpoch c target n epoch s
  | _ => cluIgnore c s

/-! ### Meanings -/

/-- ASYNC_WRITE_LAND (R161): the edge at one bank. -/
def execAsyncWriteLand (a : Store) (bank : Nat) (s : State) : Result :=
  onUnit (storeOk a ∧ bank < storeBanks a) s (bankEdge a bank)
/-- BANK_STATE_WRITE (R170): a carafe has the registers 0 to 2. -/
def execBankStateWrite (a : Store) (m : BitVec 2) (v : BitVec 64) (s : State) : Result :=
  if storeOk a then cluCommand (storeClu a) s (if m = 3 then id else bankWrite a m.toNat v) else .next (unmapped s)
/-- BANK_TRANSITION_DONE (R170). -/
def execBankTransitionDone (a : Store) (bank : Nat) (s : State) : Result :=
  onUnit (storeOk a ∧ bank < storeBanks a) s (bankArrives a bank)
/-- OPEN (R174). -/
def execWinOpen (c : Nat) (target : BitVec 5) (window : BitVec 6) (epoch : BitVec 16) (s : State) : Result :=
  cluCommand c s (winOpen c target.toNat window.toNat epoch)
/-- CLOSE (R174). -/
def execWinClose (c : Nat) (target : BitVec 5) (window : BitVec 6) (s : State) : Result :=
  cluCommand c s (winClose c target.toNat window.toNat)
/-- SET_EPOCH (R174). -/
def execWinSetEpoch (c : Nat) (target : BitVec 5) (window : BitVec 6) (epoch : BitVec 16) (s : State) : Result :=
  cluCommand c s (winEpoch c target.toNat window.toNat epoch)
/-- CREDIT_CLAIM (R176): the returned AVAIL is kept for the claimant. A barista held in reset claims nothing (R402). -/
def execCreditClaim (c : Nat) (q : BitVec 4) (units : Nat) (s : State) : Result :=
  onCluster c s (fun s =>
    if (getClu s c).barReset then s
    else
      let r := rqClaim c q.toNat units s
      putClu r.2 c { getClu r.2 c with claimRet := BitVec.ofNat 64 r.1 })
/-- RQ_RETURN (R178). -/
def execRqReturn (c : Nat) (q : BitVec 4) (v : BitVec 64) (s : State) : Result :=
  cluCommand c s (rqGive c q.toNat v)
/-- RQ_CFG_WRITE (R175, R178). -/
def execRqCfgWrite (c : Nat) (q : BitVec 4) (v : BitVec 64) (s : State) : Result :=
  cluCommand c s (rqConfig c q.toNat v)

end Sys2Proof.Machine
end

