-- ==== Sys2Proof/Machine/Network.lean ====
section
/-! DEFINITION. The three static networks and the switch node (R87 to R98), isolation (R26), and the steering units (R99 to R102). -/

namespace Sys2Proof.Machine

/-! ### Words -/

/-- Bits of a word's payload on a network: 0 vector, 1 scalar, 2 control. -/
def netBits (net : Nat) : Nat :=
  match net with
  | 0 => 512
  | 1 => 32
  | _ => 8

/-- The parity of the low n bits of a number (even parity, DESIGN CHOICE, log 10). -/
def parityOf (v : Nat) : Nat → Bool
  | 0 => false
  | n + 1 => (v % 2 == 1) != parityOf (v / 2) n

/-- The parity bits a word must carry: one per 64 bits of a vector word, one bit for the others. -/
def parityBits (net : Nat) (p : Row) : BitVec 8 :=
  if net = 0 then BitVec.ofNat 8 (((List.range 8).map (fun i => b2n (parityOf (p.toNat / 2 ^ (64 * i)) 64) * 2 ^ i)).foldl (· + ·) 0)
  else BitVec.ofNat 8 (b2n (parityOf p.toNat (netBits net)))

/-- A word with its parity. -/
def mkWord (net : Nat) (p : Row) (ctx : BitVec 2) (seq : Bool) : NetWord :=
  let q := BitVec.ofNat 512 (p.toNat % 2 ^ netBits net)
  { payload := q, ctx := ctx, seq := seq, parity := parityBits net q }

/-- The depth of a partition. -/
def partDepth (net : Nat) : Nat := if net = 0 then 8 else 16
/-- The key of the partition of a network and context in a tile. -/
def partKey (net : Nat) (k : BitVec 2) : Nat := 4 * net + k.toNat
/-- A tile's partition. -/
def partOf (x : Tile) (net : Nat) (k : BitVec 2) : List NetWord := tblGet [] x.parts (partKey net k)
/-- Replaces a partition. -/
def putPart (x : Tile) (net : Nat) (k : BitVec 2) (l : List NetWord) : Tile :=
  { x with parts := tblSet [] x.parts (partKey net k) l }

/-! ### The mesh (R11, R12) -/

/-- Mesh column of tile 256*d + 16*c + t (R12). -/
def meshX (t : Nat) : Nat := 4 * (t / 16 % 16 % 4) + t % 16 % 4
/-- Mesh row of a tile. -/
def meshY (t : Nat) : Nat := 4 * (t / 16 % 16 / 4) + t % 16 / 4
/-- The tile at a mesh position of die d. -/
def meshTile (d x y : Nat) : Nat := 256 * d + 16 * (4 * (y / 4) + x / 4) + 4 * (y % 4) + x % 4
/-- The neighbour of a tile on output 0 N, 1 E, 2 S, 3 W; none at the die edge. -/
def neighbour (t out : Nat) : Option Nat :=
  let d := t / 256
  let x := meshX t
  let y := meshY t
  match out with
  | 0 => if y = 0 then none else some (meshTile d x (y - 1))
  | 1 => if x = 15 then none else some (meshTile d (x + 1) y)
  | 2 => if y = 15 then none else some (meshTile d x (y + 1))
  | _ => if x = 0 then none else some (meshTile d (x - 1) y)
/-- The input of the neighbour that faces an output. -/
def facing (out : Nat) : Nat := (out + 2) % 4

/-- Whether an output port is isolated (R26, R368): it faces the die edge, or a cluster not bound to the same tag. -/
def isolated (s : State) (t out : Nat) : Bool :=
  match neighbour t out with
  | none => true
  | some u => u / 16 != t / 16 && !(cluTag s (t / 16) != none && cluTag s (t / 16) == cluTag s (u / 16))

/-! ### Switch configuration (R91, R99) -/

/-- Byte i of the switch configuration of context k. -/
def cfgByte (s : State) (t : Nat) (k : BitVec 2) (i : Nat) : Nat := (memGet s.mem.ctx (ctxAt t k.toNat (0x8000 + i))).toNat
/-- The route mask of an input. -/
def routeMask (s : State) (t : Nat) (k : BitVec 2) (net inp : Nat) : Nat := cfgByte s t k (5 * net + inp) % 32
/-- The pairing window W. -/
def pairWin (s : State) (t : Nat) (k : BitVec 2) : Nat := cfgByte s t k 15 % 16
/-- The eight bytes of a steering unit. -/
def steerCfg (s : State) (t : Nat) (k : BitVec 2) (u : Nat) : Nat := memNat s.mem.ctx (ctxAt t k.toNat (0x8010 + 8 * u)) 8
/-- KIND of a steering unit: 0 off, 1 SELECT, 2 MERGE, 3 ROUTE. -/
def stKind (w : Nat) : Nat := fld w 1 0
/-- Output mask i of a steering unit. -/
def stOut (w i : Nat) : Nat := fld w (21 + 5 * i) (17 + 5 * i)
/-- The units that take their tokens from a control input. -/
def tokenUnits (s : State) (t : Nat) (k : BitVec 2) (inp : Nat) : List Nat :=
  (List.range 4).filter (fun u => let w := steerCfg s t k u; stKind w != 0 && fld w 16 14 == inp)
/-- The units that an input of the vector (0) or scalar (1) network feeds, and whether as input B. -/
def dataUnits (s : State) (t : Nat) (k : BitVec 2) (net inp : Nat) : List (Nat × Bool) :=
  ((List.range 4).filter (fun u => let w := steerCfg s t k u; stKind w != 0 && fld w 7 7 == net)).flatMap (fun u =>
    let w := steerCfg s t k u
    (if fld w 10 8 = inp then [(u, false)] else []) ++ (if stKind w ≠ 3 ∧ fld w 13 11 = inp then [(u, true)] else []))

/-- Whether a switch configuration carries a reserved encoding (R91, R92, R99). The input fields of a unit that is off, and INB of a ROUTE
unit, name nothing and are not checked. DESIGN CHOICE: log 124. -/
def cfgBad (m : Mem) (t k : Nat) : Bool :=
  let b := fun (i : Nat) => (memGet m (ctxAt t k (0x8000 + i))).toNat
  let st := fun (u : Nat) => memNat m (ctxAt t k (0x8010 + 8 * u)) 8
  (List.range 15).any (fun i => decide (32 ≤ b i)) || decide (16 ≤ b 15) || (List.range 16).any (fun i => b (48 + i) != 0)
  || (List.range 4).any (fun u =>
    let w := st u
    fld w 63 37 != 0 || fld w 6 2 != 0 ||
    (stKind w != 0 &&
      (decide (4 < fld w 16 14) || decide (4 < fld w 10 8) || (stKind w != 3 && decide (4 < fld w 13 11))
        || b (5 * fld w 7 7 + fld w 10 8) != 0 || (stKind w != 3 && b (5 * fld w 7 7 + fld w 13 11) != 0)
        || b (10 + fld w 16 14) != 0)))

/-! ### Delivery and forwarding (R88, R90, R97, R98) -/

/-- Counts a word discarded at a node. -/
def discard (t n : Nat) (s : State) : State := addCtr s (tileBase t + 0x840) n

/-- A word reaches D (R97, R98): it enters its partition, or is discarded at a full one and the receiving cluster stops. -/
def deliver (t net : Nat) (w : NetWord) (s : State) : State :=
  let x := getTile s t
  let l := partOf x net w.ctx
  if l.length < partDepth net then bump (putTile s t (putPart x net w.ctx (l ++ [w]))) (tileBase t + 0x838)
  else faultNet t 0x1001 net 4 w.ctx.toNat 0 (discard t 1 s)

/-- An output of a node takes a word in the present cycle (R90): it stands on the output until the edge. An isolated port discards it
and raises `ROUTE_ISOLATED` (R26). -/
def sendOut (t : Nat) (o : NodeOut) (s : State) : State :=
  if o.out < 4 ∧ isolated s t o.out then faultNet t 0x1006 o.net o.out o.word.ctx.toNat 0 (discard t 1 s)
  else putTile s t { getTile s t with outs := (getTile s t).outs ++ [o] }

/-- The words on one output of a node at the edge (R88, R90): a single word goes to the neighbour or into its partition; of several none
goes and the node raises `NET_ROUTE` with cause COLLIDE, with the context of the first. DESIGN CHOICE: log 152. -/
def outEdge (t : Nat) (l : List NodeOut) (s : State) : State :=
  match l with
  | [] => s
  | [o] =>
    if o.out = 4 then deliver t o.net o.word s
    else match neighbour t o.out with
      | none => s
      | some u => { s with flying := s.flying ++ [{ tile := u, net := BitVec.ofNat 2 o.net, inp := BitVec.ofNat 3 (facing o.out), word := o.word }] }
  | o :: r => faultNet t 0x100F o.net o.out o.word.ctx.toNat 1 (discard t (r.length + 1) s)

/-- Sends a word on every output of a mask. -/
def sendMask (t net mask : Nat) (w : NetWord) (s : State) : State :=
  forAll ((List.range 5).filter (bit mask)) s (fun o => sendOut t ⟨net, o, w⟩)

/-! ### Steering units (R100 to R102) -/

/-- The state of unit u of context k. -/
def getSteer (s : State) (t : Nat) (k : BitVec 2) (u : Nat) : SteerUnit := tblGet SteerUnit.reset (getTile s t).steer (4 * k.toNat + u)
/-- Replaces the state of a unit. -/
def putSteer (s : State) (t : Nat) (k : BitVec 2) (u : Nat) (v : SteerUnit) : State :=
  let x := getTile s t
  putTile s t { x with steer := tblSet SteerUnit.reset x.steer (4 * k.toNat + u) v }

/-- Raises `STEER_SKEW` (R102): 0 NOTOKEN, 1 OVERRUN, 2 EXPIRED, 3 HOLDFULL, 4 BADTOKEN. `STEER_FAULT` keeps the first record; TSEQ is the
sequence bit of the held token (R126). -/
def faultSteer (t : Nat) (k : BitVec 2) (u cause : Nat) (tseq wseq : Bool) (s : State) : State :=
  faultWith t 0x1002 0 0 (fun s =>
    if (getTile s t).steerRec then s
    else setReg (putTile s t { getTile s t with steerRec := true }) (tileBase t + 0x1A8)
      (packWord [(32, bundleLow s t), (10, b2n wseq), (9, b2n tseq), (6, cause), (4, k.toNat), (0, u)])) s

/-- Whether a token value is listed for a kind (R100). -/
def tokenOk (kind v : Nat) : Bool := if kind = 3 then decide (v ≤ 4) else decide (v ≤ 1)

/-- A word is paired with a token (R100, R101): it leaves on the outputs the token names at the end of the next cycle. -/
def steerPair (t : Nat) (k : BitVec 2) (u : Nat) (tok : HeldToken) (w : NetWord) (s : State) : State :=
  let c := steerCfg s t k u
  let st := getSteer s t k u
  let s := putSteer s t k u { st with token := none, paired := some tok }
  let s := bump s (tileBase t + 0x850)
  let v := tok.value.toNat
  if stKind c = 3 ∧ v = 4 then discard t 1 s
  else
    let outs := (List.range 5).filter (bit (stOut c (if stKind c = 3 then v else 0)))
    let x := getTile s t
    putTile s t { x with leaving := x.leaving ++ outs.map (fun o => (s.cycle + 1, ⟨fld c 7 7, o, w⟩)) }

/-- A token arrives at a unit (R100, R101 rules 1 and 4). A value that the kind does not list is tested before a held token. A token whose
bit differs from the held word's stays held. DESIGN CHOICE: log 151. -/
def steerToken (t : Nat) (k : BitVec 2) (u : Nat) (v : BitVec 8) (seq : Bool) (s : State) : State :=
  let c := steerCfg s t k u
  let st := getSteer s t k u
  if stKind c = 0 then s
  else if ¬ tokenOk (stKind c) v.toNat then faultSteer t k u 4 ((st.token.map (·.seq)).getD false) false s
  else match st.token with
    | some h => faultSteer t k u 1 h.seq false s
    | none =>
      let tok : HeldToken := { value := v, seq := seq, since := s.cycle }
      let hold := if v = 0 then st.holdA else st.holdB
      match (if stKind c = 2 then hold else none) with
      | some w =>
        if w.seq = seq then
          steerPair t k u tok w (putSteer s t k u { st with
            holdA := if v = 0 then none else st.holdA, holdB := if v = 0 then st.holdB else none })
        else faultSteer t k u 0 seq w.seq (putSteer s t k u { st with token := some tok })
      | none => putSteer s t k u { st with token := some tok }

/-- A word waits in its input's hold of a MERGE unit (R101 rule 3). -/
def steerHold (t : Nat) (k : BitVec 2) (u : Nat) (b : Bool) (w : NetWord) (tseq : Bool) (s : State) : State :=
  let st := getSteer s t k u
  if (if b then st.holdB else st.holdA).isSome then faultSteer t k u 3 tseq w.seq (discard t 1 s)
  else putSteer s t k u (if b then { st with holdB := some w } else { st with holdA := some w })

/-- A data word arrives at a unit (R101 rules 2 and 3). -/
def steerData (t : Nat) (k : BitVec 2) (u : Nat) (b : Bool) (w : NetWord) (s : State) : State :=
  let c := steerCfg s t k u
  let st := getSteer s t k u
  let win := pairWin s t k
  let named := fun (h : HeldToken) => if stKind c = 3 then !b else (h.value == 1) == b
  let live := fun (h : HeldToken) => decide (s.cycle ≤ h.since + win)
  let tseq := (st.token.map (·.seq)).getD false
  let passed : Bool := match st.paired with
    | some h => h.seq == w.seq && live h && !named h
    | none => false
  let noToken := fun (s : State) =>
    if stKind c = 2 then steerHold t k u b w tseq s
    else if stKind c = 1 ∧ passed then discard t 1 s
    else faultSteer t k u 0 tseq w.seq (discard t 1 s)
  if stKind c = 0 then s
  else match st.token with
    | none => noToken s
    | some h =>
      if h.seq = w.seq ∧ live h then
        if named h then steerPair t k u h w s
        else if stKind c = 1 then discard t 1 s
        else if stKind c = 2 then steerHold t k u b w tseq s
        else faultSteer t k u 0 tseq w.seq (discard t 1 s)
      else noToken s

/-- A token that is still held past its window (R101 rule 5) is released. DESIGN CHOICE: log 151. -/
def steerExpire (t : Nat) (k : BitVec 2) (u : Nat) (s : State) : State :=
  let st := getSteer s t k u
  match st.token with
  | none => s
  | some h =>
    if s.cycle ≤ h.since + pairWin s t k then s
    else faultSteer t k u 2 h.seq false (putSteer s t k u { st with token := none })

/-- A data word reaches a steering unit: it is paired, held, discarded or faulted at the edge, after the tokens of its cycle
(R101). -/
def steerWord (t : Nat) (k : BitVec 2) (u : Nat) (b : Bool) (w : NetWord) (s : State) : State :=
  putTile s t { getTile s t with steerIn := (getTile s t).steerIn ++ [(k, u, b, w)] }

/-- The edge of a cycle at a node (R88, R90, R101): the data words of the cycle meet their tokens, the paired words whose cycle it is
leave, and every output sends. -/
def netEdge (t : Nat) (s : State) : State :=
  let q := (getTile s t).steerIn
  let s := putTile s t { getTile s t with steerIn := [] }
  let s := forAll q s (fun p => steerData t p.1 p.2.1 p.2.2.1 p.2.2.2)
  let x := getTile s t
  let s := putTile s t { x with leaving := x.leaving.filter (fun p => decide (s.cycle < p.1)) }
  let s := forAll (x.leaving.filter (fun p => decide (p.1 ≤ s.cycle))) s (fun p => sendOut t p.2)
  let l := (getTile s t).outs
  let s := putTile s t { getTile s t with outs := [] }
  forAll ((l.map (fun o => (o.net, o.out))).eraseDups) s (fun k => outEdge t (l.filter (fun o => (o.net, o.out) == k)))

/-! ### Arrival at a node (R26, R87 to R90) -/

/-- A word reaches an input of a node: parity, then the steering units it feeds, else its route mask. -/
def netArrive (t net inp : Nat) (w : NetWord) (s : State) : State :=
  let x := getTile s t
  let bad := x.parInj || (if net = 0 then w.parity else w.parity &&& 1) != parityBits net w.payload
  let s := if x.parInj then putTile s t { x with parInj := false } else s
  if bad then
    let tag := cluTag s (t / 16)
    faultNet t 0x100E net inp w.ctx.toNat 0 (alarm (tileBase t) 0x100E (.resource tag) (discard t 1 s))
  else if net = 2 ∧ ¬ (tokenUnits s t w.ctx inp).isEmpty then
    forAll (tokenUnits s t w.ctx inp) s (fun u s => steerToken t w.ctx u (w.payload.setWidth 8) w.seq s)
  else if net < 2 ∧ ¬ (dataUnits s t w.ctx net inp).isEmpty then
    forAll (dataUnits s t w.ctx net inp) s (fun p s => steerWord t w.ctx p.1 p.2 w s)
  else
    let m := routeMask s t w.ctx net inp
    if m = 0 then faultNet t 0x100F net inp w.ctx.toNat 0 (discard t 1 s) else sendMask t net m w s

/-- The tile injects a word on its node's L input (R87, R96): it takes the network's sequence bit, which then toggles. -/
def inject (t net : Nat) (p : Row) (k : BitVec 2) (s : State) : State :=
  let x := getTile s t
  let seq := x.seqBits.getLsbD net
  netArrive t net 4 (mkWord net p k seq) (putTile s t { x with seqBits := x.seqBits ^^^ BitVec.ofNat 3 (2 ^ net) })

/-- Takes an arriving word out of the list of words in flight. -/
def land (t net inp : Nat) (w : NetWord) (s : State) : State :=
  { s with flying := s.flying.erase { tile := t, net := BitVec.ofNat 2 net, inp := BitVec.ofNat 3 inp, word := w } }

/-! ### Meanings -/

/-- NET_WORD_ARRIVE (R88): the networks are 0, 1 and 2, the inputs 0 to 4. -/
def execNetWordArrive (t : Nat) (net : BitVec 2) (inp : BitVec 3) (w : NetWord) (s : State) : Result :=
  onUnit (t < 1024 ∧ net ≠ 3 ∧ inp.toNat ≤ 4) s (fun s => netArrive t net.toNat inp.toNat w (land t net.toNat inp.toNat w s))
/-- STEER_TOKEN_ARRIVE (R101). -/
def execSteerTokenArrive (t : Nat) (k u : BitVec 2) (token : BitVec 8) (seq : Bool) (s : State) : Result :=
  onTile t s (steerToken t k u.toNat token seq)
/-- STEER_DATA_WORD (R101). -/
def execSteerDataWord (t : Nat) (k u : BitVec 2) (b : Bool) (w : NetWord) (s : State) : Result :=
  onTile t s (steerWord t k u.toNat b w)
/-- STEER_TOKEN_EXPIRED (R101). -/
def execSteerTokenExpired (t : Nat) (k u : BitVec 2) (s : State) : Result := onTile t s (steerExpire t k u.toNat)

end Sys2Proof.Machine
end

