-- ==== Sys2Proof/Machine/Matrix.lean ====
section
/-! DEFINITION. The matrix engine: stationary loads and stream inputs (R47 to R50), the block product (R34, R44 to R46, R83, R453),
its ABFT sums and compare (R56 to R58), and cupping sample selection (R223, R224, R228). -/

namespace Sys2Proof.Machine

/-! ### Rates (R32, R33, R86) -/

/-- Elements per chunk and cycles per chunk of a format pair; none for a pair that does not run (R33). -/
def pairInfo (fa fb : Nat) : Option (Nat × Nat) :=
  let isIn := fun (l : List Nat) => l.contains fa && l.contains fb
  if isIn [3, 4] || isIn [5, 6] || isIn [7, 8] then some (4, 1)
  else if isIn [9] then some (8, 1)
  else if isIn [1] || isIn [2] then some (2, 1)
  else if isIn [0] then some (1, 4)
  else none

/-- Elements per chunk of a block. -/
def blockK (a : BlockArgs) : Nat := ((pairInfo a.fmtA.toNat a.fmtB.toNat).map (·.1)).getD 1
/-- Cycles per chunk of a block, emulated in ZT1 mode (R86). -/
def blockC (zt : Bool) (a : BlockArgs) : Nat :=
  let c := ((pairInfo a.fmtA.toNat a.fmtB.toNat).map (·.2)).getD 1
  if zt then 8 * c else c
/-- Chunks of a block over all row groups. -/
def blockN (a : BlockArgs) : Nat := (a.depth.toNat + 1) * (a.kch.toNat + 1)
/-- Whether a block multiplies MX types. -/
def blockMx (a : BlockArgs) : Bool := isMx a.fmtA.toNat
/-- Whether a BLOCK is free of reserved encodings (R33, R43, R44, R82). -/
def blockEncOk (zt : Bool) (a : BlockArgs) : Bool :=
  a.mode != 3 && a.stat != 3 && a.src != 3 && (a.mode == 2 || a.ssel == 0)
  && (pairInfo a.fmtA.toNat a.fmtB.toNat).isSome
  && !(blockMx a && (a.kch.toNat + 1) * blockK a % 32 != 0)
  && !(a.stat == 0 && a.src != 0)
  && decide (blockN a * blockC zt a ≤ 8192)
  && !(zt && blockMx a)

/-- The issue fault of a BLOCK, in the order of R452: its code, subcode and row group; none where it may start. GROUP is BASE where no
single row group is concerned. DESIGN CHOICE: log 129. DEDUCED: log 56. -/
def blockFault (s : State) (t : Nat) (a : BlockArgs) : Option (Nat × Nat × Nat) :=
  let x := getTile s t
  let last := a.base.toNat + a.depth.toNat
  if (heldBlock s t).isSome then some (0x1009, 1, a.base.toNat)
  else if 63 < last then some (0x1003, 0, a.base.toNat)
  else
    let al := allocOf s t 2 x.active
    if inAlloc al a.base.toNat && inAlloc al last then none
    else some (0x2001, 0, ((List.range (a.depth.toNat + 1)).map (a.base.toNat + ·)).find? (fun g => !inAlloc al g) |>.getD 0)

/-! ### Cupping selection (R223, R224, R228) -/

/-- The cupping unit counts an issued block and decides whether it is sampled: the flag and the state with the ordinal advanced, the
slot taken or the miss counted. -/
def cupSelect (t : Nat) (a : BlockArgs) (s : State) : Bool × State :=
  let c := t / 16
  let k := getClu s c
  let cfg := reg s (clusterBase c + 0x500)
  let s1 := putClu s c { k with cupOrd := k.cupOrd + 1 }
  if wbit cfg 8 && (k.cupOrd + wfld cfg 47 32) % 2 ^ wfld cfg 4 0 == 0 then
    if 2 ≤ k.cupSlots.length then (false, bump s1 (clusterBase c + 0x858))
    else
      let smp : CupSample := { tile := t, args := a, start := [], written := [], chunks := [], due := none }
      (true, putClu s c { k with cupOrd := k.cupOrd + 1, cupSlots := k.cupSlots ++ [smp] })
  else (false, s1)

/-- The blocks issued in the present cycle take their ordinals at its edge, tile by tile (R223); a sampled one that was abandoned in that
cycle frees its slot (R228). -/
def cupPick (t : Nat) (s : State) : State :=
  match (heldBlock s t).filter (fun b => b.cycle == s.cycle) with
  | none => s
  | some b =>
    let r := cupSelect t b.args s
    let x := getTile r.2 t
    match x.block with
    | some b => putTile r.2 t { x with block := some { b with sample := r.1 } }
    | none => abandonSample t r.2

/-- Changes the sample of the running block of tile t. -/
def cupUpdate (t : Nat) (f : CupSample → CupSample) (s : State) : State :=
  let k := getClu s (t / 16)
  putClu s (t / 16) { k with cupSlots := k.cupSlots.map (fun p => if p.tile == t && p.due.isNone then f p else p) }

/-! ### Starting a block (R44, R48, R453) -/

/-- No sums yet in a column. -/
def ColSum.zero : ColSum :=
  { p := Dy.zero, m := Dy.zero, s0 := Dy.zero, s1 := Dy.zero, a := Dy.zero, skip := false, wnan := false, winf := false }

/-- Starts a block on tile t once its issue checks have passed (R46, R60). -/
def startBlock (t : Nat) (a : BlockArgs) (s : State) : State :=
  let s := if a.chk then s else bump s (tileBase t + 0x820)
  let b : Block :=
    { args := a, mscale := BitVec.ofNat 32 (regF s (tileBase t + 0x120 + 8 * a.ssel.toNat) 31 0)
      bundle := BitVec.ofNat 32 (bundleLow s t), cycle := s.cycle, taken := 0, fly := [], open_ := [], run := [], scaleRow := 0
      pend := [], held := []
      cols := if a.chk then List.replicate (blockCols a) ColSum.zero else [], sample := false }
  putTile s t { getTile s t with block := some b }

/-! ### Deliveries (R47 to R49) -/

/-- Chunks waiting in a stream input with the cycle of their delivery: 0 port 0, 1 port 1, 2 vector network. -/
def streamOf (x : Tile) (i : Nat) : List (Nat × Row) := tblGet [] x.streams i

/-- The cycle in which a block takes its next chunk (R453). -/
def takeCycle (zt : Bool) (b : Block) : Nat := b.cycle + 1 + blockC zt b.args * b.taken
/-- The running block of tile t where it takes a chunk in the present cycle. -/
def takingBlock (s : State) (t : Nat) : Option Block :=
  (getTile s t).block.filter (fun b => decide (b.taken < blockN b.args) && takeCycle (zt1 s (t / 16)) b == s.cycle)
/-- Whether a block takes from a stream input (R47, R48). -/
def usesStream (a : BlockArgs) (i : Nat) : Bool := if a.stat = 0 then decide (i < 2) else a.src.toNat == i
/-- Whether a block needs a stream-scale row with the next chunk it takes (R50). -/
def needsScale (b : Block) : Bool :=
  blockMx b.args && b.taken % (b.args.kch.toNat + 1) * blockK b.args % 128 == 0

/-- A chunk is delivered into a stream input (R48): one more than two may stand in it where the engine takes one in the same cycle. -/
def streamIn (t i : Nat) (r : Row) (s : State) : State :=
  let x := getTile s t
  let room := 2 + b2n ((takingBlock s t).any (fun b => usesStream b.args i))
  if room ≤ (streamOf x i).length then faultTile t 0x1009 7 0 s
  else putTile s t { x with streams := tblSet [] x.streams i (streamOf x i ++ [(s.cycle, r)]) }

/-- A row is delivered into the stream-scale FIFO (R48). -/
def scaleIn (t : Nat) (r : Row) (s : State) : State :=
  let x := getTile s t
  let room := 2 + b2n ((takingBlock s t).any needsScale)
  if room ≤ x.ssFifo.length then faultTile t 0x1009 7 0 s
  else putTile s t { x with ssFifo := x.ssFifo ++ [(s.cycle, r)] }

/-- Whether a running block forbids a stationary load (or, with `scale`, a scale load) into a bank (R47, R48 subcode 5). -/
def loadForbidden (s : State) (t bank : Nat) (scale : Bool) : Bool :=
  match heldBlock s t with
  | none => false
  | some b => b.args.sbank.toNat == bank && (b.args.stat != 0 || (scale && blockMx b.args))

/-- A stationary load delivery (R49). -/
def statLoad (t : Nat) (r : Row) (s : State) : State :=
  let x := getTile s t
  let bank := x.loadBank.toNat
  let p := tblGet 0 x.loadPtr bank
  if loadForbidden s t bank false then faultTile t 0x1009 5 0 s
  else if 1024 ≤ p then faultTile t 0x1009 8 0 s
  else
    let s := { s with mem := { s.mem with stat := setRow s.mem.stat (statAt t bank (p % 4) (p / 4)) r } }
    putTile s t { x with loadPtr := tblSet 0 x.loadPtr bank (p + 1) }

/-- A scale load delivery (R49). -/
def scaleLoad (t : Nat) (r : Row) (s : State) : State :=
  let x := getTile s t
  let bank := x.loadBank.toNat
  let p := tblGet 0 x.scalePtr bank
  if loadForbidden s t bank true then faultTile t 0x1009 5 0 s
  else if 64 ≤ p then faultTile t 0x1009 8 0 s
  else
    let s := { s with mem := { s.mem with scale := setRow s.mem.scale (scaleAt t bank (p % 4) (p / 4)) r } }
    putTile s t { x with scalePtr := tblSet 0 x.scalePtr bank (p + 1) }

/-- STAT_RESET (R49). -/
def statReset (t bank : Nat) (s : State) : State :=
  let x := getTile s t
  putTile s t { x with loadBank := BitVec.ofNat 1 bank, loadPtr := tblSet 0 x.loadPtr bank 0, scalePtr := tblSet 0 x.scalePtr bank 0 }

/-! ### One chunk (R34, R45, R50, R83) -/

/-- Element (line i, step j) of a chunk with k steps (R31). -/
def chunkElem (ty k : Nat) (r : Row) (i j : Nat) : Nat := r.toNat / 2 ^ ((i * k + j) * tyBits ty) % 2 ^ tyBits ty

/-- The exact value of an operand element, its MX scale applied (R34, R67). -/
def operand (zt : Bool) (ty k : Nat) (r : Row) (i j sc : Nat) : Fp :=
  let v := decodeTy zt ty (chunkElem ty k r i j)
  if isMx ty then applyScale v sc else v

/-- The type of the streamed and of the stationary operand (R43): with A stationary the stream is B. -/
def streamTy (a : BlockArgs) : Nat := if a.stat = 1 then a.fmtB.toNat else a.fmtA.toNat
/-- The type of the stationary operand, or of B with STAT 00. -/
def statTy (a : BlockArgs) : Nat := if a.stat = 1 then a.fmtA.toNat else a.fmtB.toNat

/-- The stationary rows of the quads for chunk c of a group, and their scale rows; with STAT 00 the second streamed chunk (R47). -/
def statRows (s : State) (t : Nat) (a : BlockArgs) (c : Nat) (second : Row) : List Row :=
  if a.stat = 0 then [second] else (List.range 4).map (fun q => rowAt s.mem.stat (statAt t a.sbank.toNat q c))
/-- The scale rows of the quads for scale block b of a group (R49). -/
def statScales (s : State) (t : Nat) (a : BlockArgs) (b : Nat) : List Row :=
  (List.range (if a.stat = 0 then 1 else 4)).map (fun q => rowAt s.mem.scale (scaleAt t a.sbank.toNat q (b / 4)))

/-- A captured chunk: its streamed row, the other rows, and the scale codes of line i and of column f. -/
def chunkProducts (zt : Bool) (a : BlockArgs) (c : Nat) (cap : ChunkCap) (i f : Nat) : List Fp :=
  let k := blockK a
  let b := c * k / 32
  let sa := cap.sa.toNat / 2 ^ (8 * (16 * (b % 4) + i)) % 256
  let sb := (nth 0 cap.sb (f / 16)).toNat / 2 ^ (8 * (16 * (b % 4) + f % 16)) % 256
  (List.range k).map (fun j =>
    mulFp (operand zt (streamTy a) k cap.a i j sa) (operand zt (statTy a) k (nth 0 cap.b (f / 16)) (f % 16) j sb))

/-- One application to a running value (R34): the exact sum, rounded once. -/
def cellStep (zt : Bool) (v : BitVec 32) (ps : List Fp) : BitVec 32 := rne32 zt (sumFp (val32z zt v :: ps))

/-- A chunk applied to a running value: one step, or two of four products for MXFP4 (R34). -/
def cellChunk (a : BlockArgs) (v : BitVec 32) (ps : List Fp) : BitVec 32 :=
  if a.fmtA = 9 then cellStep false (cellStep false v (ps.take 4)) (ps.drop 4) else cellStep false v ps

/-- The chunks of one ZT1 group of 16 products (R83). -/
def ztGroup (a : BlockArgs) : Nat := 16 / blockK a

/-- A start value (R46): +0, the accumulator entry, or the entry scaled by sigma. -/
def startValue (zt : Bool) (mode : Nat) (sigma entry : BitVec 32) : BitVec 32 :=
  match mode with
  | 0 => 0
  | 1 => entry
  | _ => mul32 zt sigma entry

/-- Adds the products of one column of a chunk to its sums (R56, R57). -/
def colAdd (c : ColSum) (ps : List Fp) : ColSum :=
  if ps.any nonFinite then { c with skip := true }
  else { c with p := (ps.map toDy).foldl Dy.add c.p, m := (ps.map (fun x => Dy.abs (toDy x))).foldl Dy.add c.m }

/-- Adds the start values of one column (R56), as the accumulators hold them in ZT1 mode too. DESIGN CHOICE: log 133. -/
def colStart (c : ColSum) (vs : List (BitVec 32)) : ColSum :=
  if vs.any (fun v => nonFinite (val32 v)) then { c with skip := true }
  else { c with s0 := (vs.map (fun v => toDy (val32 v))).foldl Dy.add c.s0,
                a := (vs.map (fun v => Dy.abs (toDy (val32 v)))).foldl Dy.add c.a }

/-- Adds the written values of one column (R56, R57). -/
def colWritten (c : ColSum) (vs : List (BitVec 32)) : ColSum :=
  { c with s1 := (vs.map (fun v => toDy (val32 v))).foldl Dy.add c.s1,
           wnan := c.wnan || vs.any (fun v => val32 v == .nan),
           winf := c.winf || vs.any (fun v => nonFinite (val32 v) && val32 v != .nan) }

/-- The values of column f of a group's running values. -/
def colOf (cols : Nat) (run : List (BitVec 32)) (f : Nat) : List (BitVec 32) := (List.range 16).map (fun i => nth 0 run (cols * i + f))

/-- The running values after the captured chunks of a step (one chunk, or in ZT1 mode a whole group of 16 products). -/
def applyChunks (zt : Bool) (a : BlockArgs) (caps : List (Nat × ChunkCap)) (run : List (BitVec 32)) : List (BitVec 32) :=
  let cols := blockCols a
  run.zipIdx.map (fun p =>
    let ps := caps.flatMap (fun q => chunkProducts zt a q.1 q.2 (p.2 / cols) (p.2 % cols))
    if zt then cellStep true p.1 ps else cellChunk a p.1 ps)

/-- The start values of row group g of a block, as the accumulators hold them in the present cycle (R46). -/
def startValues (s : State) (t : Nat) (b : Block) (g : Nat) : List (BitVec 32) :=
  let cols := blockCols b.args
  (List.range (16 * cols)).map (fun i =>
    startValue (zt1 s (t / 16)) b.args.mode.toNat b.mscale (BitVec.ofNat 32 (memNat s.seen.mem.acc (accAt t (16 * g + i / cols) (i % cols)) 4)))

/-- The engine takes a chunk (R45, R47, R48, R50, R453) that an earlier cycle delivered. Its products are applied c + 1 cycles later, and
the first chunk of a row group opens the group. A take behind its cycle moves the block's later cycles with it. With an empty stream input
and an empty stream-scale FIFO the subcode is that of the input; two chunks taken together count once. DESIGN CHOICE: log 126.
DESIGN CHOICE: log 128. -/
def takeChunk (t : Nat) (b : Block) (s : State) : State :=
  let a := b.args
  let x := getTile s t
  let c := blockC (zt1 s (t / 16)) a
  let per := a.kch.toNat + 1
  let k := b.taken % per
  let g := a.base.toNat + b.taken / per
  let src := if a.stat = 0 then 0 else a.src.toNat
  let old := fun (l : List (Nat × Row)) => (l.head?.filter (fun q => decide (q.1 < s.cycle))).map (·.2)
  match old (streamOf x src), (if a.stat = 0 then old (streamOf x 1) else some 0) with
  | some ra, some rb =>
    if needsScale b ∧ (old x.ssFifo).isNone then faultTile t 0x1009 3 g s
    else
      let sa := if needsScale b then (old x.ssFifo).getD 0 else b.scaleRow
      let streams := tblSet [] x.streams src ((streamOf x src).drop 1)
      let streams := if a.stat = 0 then tblSet [] streams 1 ((streamOf x 1).drop 1) else streams
      let cap : ChunkCap := { a := ra, b := statRows s t a k rb, sa := sa, sb := statScales s t a (k * blockK a / 32) }
      let nb : Block := { b with
        cycle := s.cycle - 1 - c * b.taken, taken := b.taken + 1, scaleRow := sa, fly := b.fly ++ [(b.taken, s.cycle + c + 1, cap)],
        open_ := if k = 0 then b.open_ ++ [(g, s.cycle + 1)] else b.open_ }
      bump (putTile s t { x with streams := streams, ssFifo := if needsScale b then x.ssFifo.drop 1 else x.ssFifo, block := some nb })
        (tileBase t + 0x810)
  | _, _ => faultTile t 0x1009 2 g s

/-- The products of chunk number j are applied (R34, R83, R453): with its group's last chunk the group is finished and is written in the next
cycle. -/
def chunkApply (t j : Nat) (cap : ChunkCap) (s : State) : State :=
  match (getTile s t).block with
  | none => s
  | some b =>
    let a := b.args
    let zt := zt1 s (t / 16)
    let per := a.kch.toNat + 1
    let k := j % per
    let g := a.base.toNat + j / per
    let ends := k + 1 == per
    let caps := b.pend ++ [(k, cap)]
    let full := !zt || caps.length == ztGroup a || ends
    let run := if full then applyChunks zt a caps b.run else b.run
    let cols := b.cols.zipIdx.map (fun p =>
      let q := (List.range 16).foldl (fun q i => colAdd q (chunkProducts zt a k cap i p.2)) p.1
      if ends then colWritten q (colOf (blockCols a) run p.2) else q)
    let nb : Block := { b with run := run, pend := if full then [] else caps, cols := cols,
                               open_ := if ends then b.open_.filter (fun q => q.1 != g) else b.open_,
                               held := if ends then b.held ++ [(g, s.cycle + 1, run)] else b.held }
    let s := putTile s t { getTile s t with block := some nb }
    if b.sample ∧ g = a.base.toNat then cupUpdate t (fun p =>
      { p with chunks := p.chunks ++ [cap], written := if ends then run else p.written }) s else s

/-- The block reads the start values of row group g (R46, R53, R453). -/
def groupStart (t g : Nat) (s : State) : State :=
  match (getTile s t).block with
  | none => s
  | some b =>
    let run := startValues s t b g
    let cols := b.cols.zipIdx.map (fun p => colStart p.1 (colOf (blockCols b.args) run p.2))
    let s := putTile s t { getTile s t with block := some { b with run := run, cols := cols } }
    if b.sample ∧ g = b.args.base.toNat then cupUpdate t (fun p => { p with start := run }) s else s

/-- The edge of a cycle in the matrix engine (R453): the row group whose cycle it is is written, the chunk whose cycle it is is applied, and the
start values of the group whose cycle it is are read. -/
def matEdge (t : Nat) (s : State) : State :=
  match (getTile s t).block with
  | none => s
  | some b =>
    let s := putTile (flushAcc t s) t { getTile (flushAcc t s) t with
      block := (getTile (flushAcc t s) t).block.map (fun b => { b with fly := b.fly.filter (fun q => decide (s.cycle < q.2.1)) }) }
    let s := forAll (b.fly.filter (fun q => decide (q.2.1 ≤ s.cycle))) s (fun q => chunkApply t q.1 q.2.2)
    forAll (b.open_.filter (fun q => q.2 == s.cycle)) s (fun q => groupStart t q.1)

/-- Whether a block holds row group g busy in the present cycle (R53): from the cycle that reads its start values to the cycle that writes
it. -/
def groupBusy (s : State) (t g : Nat) : Bool :=
  (heldBlock s t).any (fun b => b.open_.any (fun q => q.1 == g && decide (q.2 ≤ s.cycle)) || b.held.any (fun q => q.1 == g))

/-! ### ABFT (R56 to R58) -/

/-- Whether a column mismatches (R56, R57). -/
def colMismatch (zt : Bool) (c : ColSum) : Bool :=
  let ma := Dy.add c.m c.a
  if c.skip then false
  else if c.wnan then true
  else if c.winf then Dy.lt ma ⟨1, 127⟩
  else
    let d := Dy.abs (Dy.sub c.p (Dy.sub c.s1 c.s0))
    Dy.lt (Dy.add (Dy.mul ma ⟨1, -15⟩) ⟨1, if zt then -118 else -140⟩) d

/-- The compare at the end of a block (R58, R60, R228): counters, poison, the record and the alarm of a mismatch, the sample's
recomputation, and the end of the block. -/
def endBlock (t : Nat) (b : Block) (s : State) : State :=
  let x := getTile s t
  let zt := zt1 s (t / 16)
  let tb := tileBase t
  let a := b.args
  let inj := a.chk && x.abftInj
  let cols := b.cols.zipIdx.filter (fun p => colMismatch zt p.1)
  let first := if inj then some 0 else (cols.head?).map (·.2)
  let s := putTile s t { x with block := none, past := some (s.cycle, b), abftInj := x.abftInj && !inj }
  let s := bump s (tb + 0x808)
  let n := (a.kch.toNat + 1) * blockK a
  let due := s.cycle + 16 * blockCols a * n / 256 + 32
  let s := if b.sample then cupUpdate t (fun p => { p with due := some due }) s else s
  if ¬ a.chk then s
  else
    let s := addCtr (bump s (tb + 0x818)) (tb + 0x828) (b.cols.filter (·.skip)).length
    match first with
    | none => s
    | some col =>
      let s := recordFirst s (tb + 0x188)
        (packWord [(32, b.bundle.toNat), (20, a.ltag.toNat), (6, a.base.toNat), (0, col)])
      let s := recordFirst s (tb + 0x180) (packWord [(32, bundleLow s t), (16, 0x1005), (6, x.active.toNat), (0, a.base.toNat)])
      let s := bump (poisonBlock t a s) (tb + 0x830)
      raiseClu tb (t / 16) 0x1005 (alarm tb 0x1005 (.resource (cluTag s (t / 16))) s)

/-- The cycle of a block's ABFT compare, counted from its issue (R58). -/
def blockEnd (s : State) (t : Nat) (b : Block) : Nat := b.cycle + blockC (zt1 s (t / 16)) b.args * blockN b.args + 8

/-! ### Meanings -/

/-- Raises the issue fault of a BLOCK. The first `SP_BOUNDS` carries the view row where the block leaves its allocation (R52): the first row of
the group. -/
def faultBlock (t : Nat) (f : Nat × Nat × Nat) (s : State) : State :=
  faultWith t f.1 f.2.1 f.2.2 (fun s =>
    let x := getTile s t
    if f.1 = 0x2001 ∧ x.blockRow = none then putTile s t { x with blockRow := some (16 * f.2.2) } else s) s

/-- A BLOCK alone in a bundle: its encoding check, its issue faults, then its start. -/
def issueBlock (t : Nat) (a : BlockArgs) (s : State) : State :=
  if ¬ blockEncOk (zt1 s (t / 16)) a then faultTile t 0x1008 0 0 s
  else match blockFault s t a with
    | some f => faultBlock t f s
    | none => startBlock t a s

/-- BLOCK (R453). -/
def execBlock (t : Nat) (a : BlockArgs) (s : State) : Result := onTile t s (issueBlock t a)
/-- STAT_RESET (R49). -/
def execStatReset (t : Nat) (bank : BitVec 1) (s : State) : Result := onTile t s (statReset t bank.toNat)
/-- MATRIX_NOP (R43): no effect. -/
def execMatrixNop (t : Nat) (s : State) : Result := onTile t s id
/-- MAT_CHUNK_TAKE (R453): the running block takes its next chunk; nothing where no block has a chunk to take in the present cycle. -/
def execMatChunkTake (t : Nat) (s : State) : Result :=
  onTile t s (fun s => match (getTile s t).block with
    | some b => if b.taken < blockN b.args ∧ takeCycle (zt1 s (t / 16)) b ≤ s.cycle then takeChunk t b s else s
    | none => s)
/-- ABFT_COMPARE (R58): ends a block that has written all its groups, in the cycle of its compare. -/
def execAbftCompare (t : Nat) (s : State) : Result :=
  onTile t s (fun s => match (getTile s t).block with
    | some b => if b.taken = blockN b.args ∧ blockEnd s t b ≤ s.cycle then endBlock t b s else s
    | none => s)

end Sys2Proof.Machine
end

