-- ==== Sys2Proof/Machine/Census.lean ====
section
/-! DEFINITION. The tensor census (R229 to R231, R239): what a crossing and a conversion count, events on their way to their records,
snapshots and queries. -/

namespace Sys2Proof.Machine

/-- The sum of two counts; a record's counters wrap at 2^64 (R229). -/
def addCounts (a b : CensusCounts) : CensusCounts :=
  { elem := (a.elem + b.elem) % 2 ^ 64, zero := (a.zero + b.zero) % 2 ^ 64, sat := (a.sat + b.sat) % 2 ^ 64,
    nonfin := (a.nonfin + b.nonfin) % 2 ^ 64, uflow := (a.uflow + b.uflow) % 2 ^ 64 }

/-- What one converted element counts (R77, R230): `zero` tells whether its result is zero. -/
def convCounts (c : Conv) (zero : Bool) : CensusCounts :=
  { elem := 1, zero := b2n zero, sat := b2n c.sat, nonfin := b2n c.nonfin, uflow := b2n c.uflow }

/-- Whether a code of a floating type is finite with the type's largest magnitude (R230). -/
def isMaxFinite (ty code : Nat) : Bool :=
  match fmtOf ty with
  | some f => code % 2 ^ (f.eb + f.mb) == maxCode f false
  | none => false

/-- What one element moved unchanged counts (R230): its code and, for an MX element, its scale code. -/
def moveCounts (ty code sc : Nat) : CensusCounts :=
  let x := decodeTy false ty code
  let x := if isMx ty then applyScale x sc else x
  if (fmtOf ty).isSome then
    { elem := 1, zero := b2n (isZero x), sat := b2n (isMaxFinite ty code && !nonFinite x), nonfin := b2n (nonFinite x), uflow := 0 }
  else { CensusCounts.zero with elem := 1, zero := b2n (ty != 0xF && isZero x) }

/-- A counted event happens: it sets out for its record (R231). -/
def censusSend (tag : Option (BitVec 12)) (ctag : BitVec 12) (n : CensusCounts) (s : State) : State :=
  match tag with
  | some g => { s with census := s.census ++ [(g, ctag, n)] }
  | none => s

/-- An event reaches its record; without a record in the job it is dropped and counted (R229). -/
def censusLand (tag ctag : BitVec 12) (n : CensusCounts) (s : State) : State :=
  let s := { s with census := s.census.erase (tag, ctag, n) }
  let j := getJob s tag
  match tblFind j.census ctag.toNat with
  | some r => putJob s tag { j with census := tblIns j.census ctag.toNat { r with live := addCounts r.live n } }
  | none => bump s (numericsPage + 0x800)

/-- The result registers of the census show a record's counters, or zeros with VALID 0 (R239). -/
def cenShow (n : Option CensusCounts) (s : State) : State :=
  let c := n.getD CensusCounts.zero
  let s := setReg s (numericsPage + 0x108) (packWord [(62, b2n n.isSome)])
  forAll ([c.elem, c.zero, c.sat, c.nonfin, c.uflow].zipIdx) s (fun p s =>
    setReg s (numericsPage + 0x110 + 8 * p.2) (BitVec.ofNat 64 p.1))

/-- SNAP_CLEAR of one record (R231): the record is copied into its snapshot and its live counters are zeroed. -/
def snapClear (tag ctag : BitVec 12) (s : State) : State :=
  let j := getJob s tag
  match tblFind j.census ctag.toNat with
  | some r => putJob s tag { j with census := tblIns j.census ctag.toNat { live := CensusCounts.zero, snap := r.live } }
  | none => cenShow none s

/-- SNAP_CLEAR of every record of a job. -/
def snapClearJob (tag : BitVec 12) (s : State) : State :=
  let j := getJob s tag
  if j.census.isEmpty then cenShow none s
  else putJob s tag { j with census := j.census.map (fun p => (p.1, { live := CensusCounts.zero, snap := p.2.live })) }

/-- CEN_QUERY (R239). -/
def cenQuery (tag ctag : BitVec 12) (snap : Bool) (s : State) : State :=
  cenShow ((tblFind (getJob s tag).census ctag.toNat).map (fun r => if snap then r.snap else r.live)) s

/-- A write to `CEN_CMD` (R239). -/
def cenCmd (v : Word) (s : State) : State :=
  let tag := BitVec.ofNat 12 (wfld v 63 52)
  match wfld v 51 48 with
  | 1 => snapClear tag (BitVec.ofNat 12 (wfld v 11 0)) s
  | 2 => snapClearJob tag s
  | _ => bump s (numericsPage + 0x838)

/-! ### Meanings -/

/-- CENSUS_EVENT (R231). -/
def execCensusEvent (tag ctag : BitVec 12) (n : CensusCounts) (s : State) : Result := .next (censusLand tag ctag n s)
/-- SNAP_CLEAR (R231). -/
def execSnapClear (tag ctag : BitVec 12) (s : State) : Result := .next (snapClear tag ctag s)
/-- SNAP_CLEAR_JOB (R239). -/
def execSnapClearJob (tag : BitVec 12) (s : State) : Result := .next (snapClearJob tag s)
/-- CEN_QUERY (R239). -/
def execCenQuery (tag : BitVec 12) (snap : Bool) (ctag : BitVec 12) (s : State) : Result := .next (cenQuery tag ctag snap s)

end Sys2Proof.Machine
end

