-- ==== Sys2Proof/Machine/Flags.lean ====
section
/-! DEFINITION. The scalar summary of a vector instruction: its flags and its VALUE (R155, R156). -/

namespace Sys2Proof.Machine

/-- The flags of R155 and the value of R156 (`vint` tells an integer value). -/
structure VSummary where
  under  : Bool
  masked : Bool
  sat    : Bool
  nonfin : Bool
  range  : Bool
  empty  : Bool
  vint   : Bool
  value  : Nat
  deriving DecidableEq, Repr

/-- Bits 47 to 0 of the summary of an operation; SEQ is added when the summary is written (R155). -/
def summaryBits (opc : Nat) (v : VSummary) : BitVec 48 :=
  BitVec.ofNat 48 (opc * 2 ^ 40 + b2n v.vint * 2 ^ 38 + b2n v.under * 2 ^ 37 + b2n v.masked * 2 ^ 36 + b2n v.sat * 2 ^ 35
    + b2n v.nonfin * 2 ^ 34 + b2n v.range * 2 ^ 33 + b2n v.empty * 2 ^ 32 + v.value % 2 ^ 32)

/-- `VEC_SUMMARY` with the sequence number of the completed instruction. -/
def summaryWord (seq : Nat) (b : BitVec 48) : Word := BitVec.ofNat 64 (seq % 256 * 2 ^ 48 + b.toNat)

/-- NONFINITE_SEEN of a summary. -/
def summaryNonfinite (b : BitVec 48) : Bool := b.getLsbD 34

/-- A count that saturates at 2^32 - 1 (R156). -/
def satCount (n : Nat) : Nat := min n (2 ^ 32 - 1)

/-- An integer result in INT32, clamped (R156). -/
def clamp32 (v : Int) : Nat := wrapInt 32 (max (-(2 ^ 31)) (min (2 ^ 31 - 1) v))

end Sys2Proof.Machine
end

