-- ==== Sys2Proof/Machine/Special.lean ====
section
/-! DEFINITION. The special functions of R146, correctly rounded. A function is computed in fixed point with p fraction bits and an
error below 2^20 units of the last place; the two ends of that interval are rounded, and where they agree that is the result. -/

namespace Sys2Proof.Machine

/-- e^r for 0 ≤ r < 1 in fixed point, by its power series. -/
def fxExpLoop (p : Nat) (r : Int) : Nat → Nat → Int → Int → Int
  | 0, _, _, acc => acc
  | f + 1, i, t, acc =>
    let t' := t * r / ((2 : Int) ^ p * i)
    if t' = 0 then acc else fxExpLoop p r f (i + 1) t' (acc + t')

/-- The sum of z^(2i+1) / (2i+1), with signs alternating where `alt` is set. -/
def fxOddLoop (p : Nat) (alt : Bool) (z2 : Int) : Nat → Nat → Int → Int → Int
  | 0, _, _, acc => acc
  | f + 1, i, t, acc =>
    if t = 0 then acc
    else
      let term := t / (2 * i + 1)
      fxOddLoop p alt z2 f (i + 1) (t * z2 / (2 : Int) ^ p) (if alt && i % 2 == 1 then acc - term else acc + term)

/-- atanh z in fixed point. -/
def fxAtanh (p : Nat) (z : Int) : Int := fxOddLoop p false (z * z / (2 : Int) ^ p) p 0 z 0
/-- atan z in fixed point. -/
def fxAtan (p : Nat) (z : Int) : Int := fxOddLoop p true (z * z / (2 : Int) ^ p) p 0 z 0
/-- ln 2 in fixed point. -/
def fxLn2 (p : Nat) : Int := 2 * fxAtanh p ((2 : Int) ^ p / 3)
/-- pi in fixed point (Machin). -/
def fxPi (p : Nat) : Int := 16 * fxAtan p ((2 : Int) ^ p / 5) - 4 * fxAtan p ((2 : Int) ^ p / 239)

/-- e^x as a fixed-point number in [1, 2) and a power of two. -/
def fxExp (p : Nat) (x : Int) : Int × Int :=
  let k := x / fxLn2 p
  (fxExpLoop p (x - k * fxLn2 p) p 1 ((2 : Int) ^ p) ((2 : Int) ^ p), k)
/-- 2^x as a fixed-point number in [1, 2) and a power of two. -/
def fxExp2 (p : Nat) (x : Int) : Int × Int :=
  let k := x / (2 : Int) ^ p
  (fxExpLoop p ((x - k * (2 : Int) ^ p) * fxLn2 p / (2 : Int) ^ p) p 1 ((2 : Int) ^ p) ((2 : Int) ^ p), k)
/-- A fixed-point pair of `fxExp` as one fixed-point number. -/
def fxShift (v : Int × Int) : Int := if 0 ≤ v.2 then v.1 * pow2 v.2 else v.1 / pow2 (-v.2)

/-- ln of m * 2^e (m > 0) in fixed point. -/
def fxLn (p m : Nat) (e : Int) : Int :=
  let k := ilog2 m
  let u : Int := (m : Int) * 2 ^ p / (2 : Int) ^ k
  let half := decide ((2 : Int) ^ p * 4 ≤ u * 3)
  let u := if half then u / 2 else u
  let z := (u - (2 : Int) ^ p) * (2 : Int) ^ p / (u + (2 : Int) ^ p)
  2 * fxAtanh p z + (e + k + (if half then 1 else 0)) * fxLn2 p

/-- The series of erf without its factor: the sum of 2^n x^(2n+1) / (2n+1)!!. -/
def fxErfLoop (p : Nat) (x2 : Int) : Nat → Nat → Int → Int → Int
  | 0, _, _, acc => acc
  | f + 1, n, t, acc =>
    if t = 0 then acc else fxErfLoop p x2 f (n + 1) (2 * t * x2 / ((2 : Int) ^ p * (2 * n + 3))) (acc + t)

/-- erf x for 0 ≤ x < 4 in fixed point. -/
def fxErf (p : Nat) (x : Int) : Int :=
  let x2 := x * x / (2 : Int) ^ p
  let s := fxErfLoop p x2 (4 * p) 0 x 0
  let g := fxShift (fxExp p (-x2))
  let root : Int := isqrt (fxPi p * (2 : Int) ^ p).toNat
  2 * s * g / root

/-- cos x for 0 ≤ x ≤ 4 in fixed point. -/
def fxCosLoop (p : Nat) (x2 : Int) : Nat → Nat → Int → Int → Int
  | 0, _, _, acc => acc
  | f + 1, n, t, acc =>
    let t' := -(t * x2 / ((2 : Int) ^ p * ((2 * n + 1) * (2 * n + 2))))
    if t' = 0 ∨ t' = 1 ∨ t' = -1 then acc else fxCosLoop p x2 f (n + 1) t' (acc + t')
/-- cos x in fixed point. -/
def fxCos (p : Nat) (x : Int) : Int := fxCosLoop p (x * x / (2 : Int) ^ p) p 0 ((2 : Int) ^ p) ((2 : Int) ^ p)

/-- An interval of fixed-point values v ± 2^20, times 2^k, rounded to a format: the code where both ends agree. -/
def fxRound (f : FpFmt) (p : Nat) (neg : Bool) (v k : Int) : Option Nat :=
  let lo := (v - 2 ^ 20).toNat
  let hi := (v + 2 ^ 20).toNat
  let a := (encodeRat f false false false .rne neg lo 1 (k - p)).code
  let b := (encodeRat f false false false .rne neg hi 1 (k - p)).code
  if a = b then some a else none

/-- A dyadic number as a fixed-point integer. -/
def toFx (p : Nat) (m : Nat) (e : Int) : Int :=
  if 0 ≤ (p : Int) + e then (m : Int) * pow2 ((p : Int) + e) else (m : Int) / pow2 (-((p : Int) + e))

/-- The special functions of R141's table, VAR 0 to 8 (R146), in fixed point with p bits, for a finite non-zero operand in the
range where the result is neither exact nor decided by its size. `m`, `e` give the magnitude. -/
def fxFunc (p fn : Nat) (neg : Bool) (m : Nat) (e : Int) : Option Nat :=
  let ax := toFx p m e
  let x := if neg then -ax else ax
  let one := (2 : Int) ^ p
  match fn with
  | 0 => let v := fxExp2 p x; fxRound fmt32 p false v.1 v.2
  | 1 => let v := fxExp p x; fxRound fmt32 p false v.1 v.2
  | 2 => let v := fxLn p m e * one / fxLn2 p; fxRound fmt32 p (decide (v < 0)) v.natAbs 0
  | 3 => let v := fxLn p m e; fxRound fmt32 p (decide (v < 0)) v.natAbs 0
  | 6 => let t := fxShift (fxExp p (-2 * ax)); fxRound fmt32 p neg ((one - t) * one / (one + t)) 0
  | 7 =>
    let t := fxShift (fxExp p (-ax))
    fxRound fmt32 p false ((if neg then t else one) * one / (one + t)) 0
  | _ => fxRound fmt32 p neg (fxErf p ax) 0

/-- Tries 320 and then 600 fraction bits. -/
def fxDecide (fn : Nat) (neg : Bool) (m : Nat) (e : Int) : Nat :=
  match fxFunc 320 fn neg m e with
  | some c => c
  | none => match fxFunc 600 fn neg m e with
    | some c => c
    | none => (Config.hardCase fn (BitVec.ofNat 64 (b2n neg + 2 * m * 2 ^ (e + 149).toNat))).toNat % 2 ^ 32

/-- 1 / sqrt(m * 2^e), rounded to a format. -/
def rsqrtTo (f : FpFmt) (m : Nat) (e : Int) : Nat :=
  let m' := if e % 2 = 0 then m else 2 * m
  let j := if e % 2 = 0 then e / 2 else (e - 1) / 2
  let v := isqrt (2 ^ 400 / m')
  (encodeRat f false false false .rne false (2 * v + (if v * v * m' = 2 ^ 400 then 0 else 1)) 1 (-201 - j)).code

/-- sqrt(m * 2^e), rounded to a format. -/
def sqrtTo (f : FpFmt) (m : Nat) (e : Int) : Nat :=
  let m' := if e % 2 = 0 then m else 2 * m
  let j := if e % 2 = 0 then e / 2 else (e - 1) / 2
  let v := isqrt (m' * 2 ^ 200)
  (encodeRat f false false false .rne false (2 * v + (if v * v = m' * 2 ^ 200 then 0 else 1)) 1 (j - 101)).code

/-- m as a power of two: its exponent, where m = 2^k. -/
def exactLog2 (m : Nat) : Option Nat := if m = 2 ^ ilog2 m then some (ilog2 m) else none

/-- Special function fn of R141's table as an FP32 code, correctly rounded, with the edge results of R146. A signed zero operand of
the odd functions tanh and erf keeps its sign (DEDUCED, log 9). -/
def sfuCode (fn : Nat) (x : Fp) : Nat :=
  let one := 0x3F800000
  let pinf := 0x7F800000
  match x with
  | .nan => nanCode fmt32
  | .inf n =>
    match fn with
    | 0 | 1 => if n then 0 else pinf
    | 2 | 3 => if n then nanCode fmt32 else pinf
    | 4 => zeroCode fmt32 n
    | 5 => if n then nanCode fmt32 else 0
    | 7 => if n then 0 else one
    | _ => b2n n * 2 ^ 31 + one
  | .fin n m e =>
    if m = 0 then
      match fn with
      | 0 | 1 => one
      | 2 | 3 => infCode fmt32 true
      | 4 | 5 => infCode fmt32 n
      | 7 => 0x3F000000
      | _ => zeroCode fmt32 n
    else
      let big := Dy.le ⟨256, 0⟩ ⟨m, e⟩
      match fn with
      | 0 => if big then (if n then 0 else pinf)
        else if 0 ≤ e ∨ m % 2 ^ (-e).toNat = 0 then (encodeFp fmt32 false false false .rne (.fin false 1
          (let v : Int := if 0 ≤ e then (m : Int) * pow2 e else (m : Int) / pow2 (-e); if n then -v else v))).code
        else fxDecide 0 n m e
      | 1 => if big then (if n then 0 else pinf) else fxDecide 1 n m e
      | 2 => if n then nanCode fmt32
        else match exactLog2 m with
          | some k => (encodeFp fmt32 false false false .rne (.fin (decide ((k : Int) + e < 0)) ((k : Int) + e).natAbs 0)).code
          | none => fxDecide 2 n m e
      | 3 => if n then nanCode fmt32 else if (exactLog2 m).map (fun k => (k : Int) + e) = some 0 then 0 else fxDecide 3 n m e
      | 4 => divTo fmt32 false (.fin false 1 0) x
      | 5 => if n then nanCode fmt32 else rsqrtTo fmt32 m e
      | 6 => if Dy.le ⟨16, 0⟩ ⟨m, e⟩ then b2n n * 2 ^ 31 + one else fxDecide 6 n m e
      | 7 => if big then (if n then 0 else one) else fxDecide 7 n m e
      | _ => if Dy.le ⟨4, 0⟩ ⟨m, e⟩ then b2n n * 2 ^ 31 + one else fxDecide 8 n m e

/-- A special function in the tile: ZT1 mode flushes the operand and the result (R84). -/
def sfu (ftz : Bool) (fn : Nat) (x : Fp) : BitVec 32 :=
  let c := sfuCode fn x
  BitVec.ofNat 32 (if ftz && isSubnormal fmt32 c then c / 2 ^ 31 * 2 ^ 31 else c)

end Sys2Proof.Machine
end

