-- ==== Sys2Proof/Machine/Vector.lean ====
section
/-! DEFINITION. The vector engine (Vector Engine, R127 to R158): what each operation computes, the checks at an instruction's start,
its queue, how a started instruction reads and writes group by group at the edges of its cycles (R139), and its completion. -/

namespace Sys2Proof.Machine

/-! ### What an instruction gathers -/

/-- Nothing gathered yet. -/
def VAcc.start : VAcc :=
  { under := false, sat := false, nonfin := false, range := false, empty := false, live := false, written := 0, ones := 0,
    draws := 0, elems := 0, value := 0, census := CensusCounts.zero, vals := [], maxes := [], codes := [],
    run := none, outs := [], cover := [] }

/-- The flags of an element that was read (R54, R84, R155). -/
def VAcc.sawRead (c : VAcc) (r : ElemRead) : VAcc :=
  { c with nonfin := c.nonfin || nonFinite r.val, under := c.under || r.flushed }

/-- The flags of a result written in a type (R77, R155). DEDUCED: log 50. -/
def VAcc.sawConv (c : VAcc) (ty : Nat) (v : Conv) : VAcc :=
  { c with sat := c.sat || v.sat, under := c.under || v.uflow,
           nonfin := c.nonfin || v.nonfin || (isFloat ty && nonFinite (decodeTy false ty v.code)) }

/-- Whether a role is a destination. -/
def isDst (p : VPlan) (r : Nat) : Bool := r == 0 || (r == 3 && p.kind == .topk)

/-- What the groups of an instruction share: the tile, its operands and its latched values. `key` is the tile's generator key. -/
structure VEnv where
  t   : Nat
  a   : VecArgs
  p   : VPlan
  int : Bool
  key : BitVec 64
  deriving DecidableEq, Repr

/-- Whether an instruction is an integer operation (R143, R150): by its destination, for CMP and reductions by its source. -/
def vIsInt (p : VPlan) : Bool :=
  let d := if p.opc = 9 then (match p.desc 1 with
      | some d => some d
      | none => p.desc 2)
    else if p.kind = .red then p.desc 1 else p.desc 0
  match d with
  | some d => isInt d.ty
  | none => false

/-- The type of a role's descriptor, FP32 where it has none. -/
def VEnv.ty (e : VEnv) (role : Nat) : Nat := ((e.p.desc role).map (·.ty)).getD 0

/-- The element or immediate of a source role at the point with ordinal o (R130, R132, R137). -/
def VEnv.read (e : VEnv) (s : State) (role o : Nat) : ElemRead :=
  match e.p.desc role with
  | some d =>
    let sh := e.p.shapeOf role
    readElem s e.t e.p.zt d (elemAddr d sh o (e.p.off role)) (scaleIdx d sh o)
  | none =>
    if e.int then
      let v := sext 32 e.a.imm.toNat
      ⟨.fin (decide (v < 0)) v.natAbs 0, false, false⟩
    else ⟨val32z e.p.zt e.a.imm, false, flushes e.p.zt 0 e.a.imm.toNat⟩

/-- Whether the point with ordinal o is not masked off (R144). -/
def VEnv.unmasked (e : VEnv) (s : State) (o : Nat) : Bool :=
  match e.p.desc 4 with
  | some d => readCode s e.t d (elemAddr d e.p.ext o (e.p.off 4)) == 1
  | none => true

/-- The write of a code at an output point of a role. -/
def VEnv.write (e : VEnv) (role o code : Nat) : List VWrite :=
  match e.p.desc role with
  | some d =>
    let w := tyBits d.ty
    [{ space := d.space, remote := d.remote, role := role, bitA := (elemAddr d (e.p.shapeOf role) o (e.p.off role)).toNat * w, width := w, val := code, elem := true }]
  | none => []

/-- The integer of an exact value. -/
def fpInt : Fp → Int
  | .fin n m e => let v : Int := if 0 ≤ e then (m : Int) * pow2 e else (m : Int) / pow2 (-e); if n then -v else v
  | _ => 0

/-- An exact integer as a value. -/
def intFp (v : Int) : Fp := .fin (decide (v < 0)) v.natAbs 0

/-- An integer result in its type: wrapped, or clamped with a saturation (R143). -/
def intConv (ty : Nat) (sat : Bool) (v : Int) : Conv :=
  match intOf ty with
  | some (w, sg) =>
    let hi : Int := if sg then 2 ^ (w - 1) - 1 else 2 ^ w - 1
    let lo : Int := if sg then -(2 ^ (w - 1)) else 0
    if sat ∧ (v < lo ∨ hi < v) then ⟨wrapInt w (if v < lo then lo else hi), true, false, false⟩ else ⟨wrapInt w v, false, false, false⟩
  | none => ⟨0, false, false, false⟩

/-! ### Element-wise operations (R142 to R147) -/

/-- The sign function (R142). -/
def signFp : Fp → Fp
  | .nan => .nan
  | .inf n => .fin n 1 0
  | .fin n m _ => if m = 0 then .fin n 0 0 else .fin n 1 0

/-- The exact result of operations 0x01 to 0x08 on floating values (R142); in ZT1 mode FMA rounds its product first (R84), and a product
flushed there counts nothing. DESIGN CHOICE: log 132. -/
def floatOp (zt : Bool) (opc : Nat) (x y z : Fp) : Fp :=
  match opc with
  | 1 => sumFp [x, y]
  | 2 => sumFp [x, negFp y]
  | 3 => mulFp x y
  | 4 => sumFp [if zt then val32z true (rne32 true (mulFp x y)) else mulFp x y, z]
  | 5 => minFp x y
  | 6 => maxFp x y
  | 7 => absFp x
  | _ => signFp x

/-- The exact result of operations 0x01 to 0x08 on integers (R143). -/
def intOp (opc : Nat) (x y z : Int) : Int :=
  match opc with
  | 1 => x + y
  | 2 => x - y
  | 3 => x * y
  | 4 => x * y + z
  | 5 => min x y
  | 6 => max x y
  | 7 => x.natAbs
  | _ => if x < 0 then -1 else if x = 0 then 0 else 1

/-- The condition of CMP (R145). -/
def cmpHolds (var : Nat) (x y : Fp) : Bool :=
  if x = .nan ∨ y = .nan then var == 1 || var == 6
  else
    let c := numCmp x y
    match var with
    | 0 => c == 0
    | 1 => c != 0
    | 2 => decide (c < 0)
    | 3 => decide (c ≤ 0)
    | 4 => decide (0 < c)
    | 5 => decide (0 ≤ c)
    | _ => false

/-- Mask logic (R145). -/
def mlogBit (var : Nat) (x y : Bool) : Bool :=
  match var with
  | 0 => x && y
  | 1 => x || y
  | 2 => x != y
  | 3 => x && !y
  | _ => !x

/-- An FP32 code flushed in ZT1 mode, and whether it was (R84). -/
def flush32 (zt : Bool) (code : Nat) : BitVec 32 × Bool :=
  let f := zt && isSubnormal fmt32 code
  (BitVec.ofNat 32 (if f then code / 2 ^ 31 * 2 ^ 31 else code), f)

/-- The rounding mode of a conversion at an ordinal (R70, R75, R76). -/
def VEnv.rm (e : VEnv) (o : Nat) : Rm :=
  match e.a.rm.toNat with
  | 1 => .rtz
  | 2 => .sr (srDraw e.key e.a.imm o)
  | _ => .rne

/-- Whether a stochastic conversion of a value draws (R74): a finite non-zero value, into a type that rounds. -/
def drawsFor (ty : Nat) (x : Fp) : Bool := !nonFinite x && !isZero x && ((fmtOf ty).isSome || (intOf ty).isSome)

/-- A value of a source role moved to the destination (R145, R147, R153): one whose type does not change is copied and saturates nothing. -/
def moveConv (e : VEnv) (src : Nat) (rm : Rm) (x : Fp) : Conv :=
  let v := convTy e.p.zt (e.ty 0) e.a.sat rm x
  if e.p.opc ≠ 0x0B ∧ e.ty src = e.ty 0 then { v with sat := false } else v
/-- Whether moving a value of a source role clamps it to an end of an integer type (R155). -/
def moveClamps (e : VEnv) (src : Nat) (rm : Rm) (x : Fp) : Bool :=
  (e.p.opc == 0x0B || e.ty src != e.ty 0) && intClamps e.p.zt (e.ty 0) rm x

/-- The result of an element-wise operation on the values of A, B and C; `m` is the mask bit. -/
def ewResult (e : VEnv) (o : Nat) (m : Bool) (x y z : Fp) : Conv :=
  let opc := e.p.opc
  let ty := e.ty 0
  let sat := e.a.sat
  if opc = 0x09 then ⟨b2n (cmpHolds e.p.var x y), false, false, false⟩
  else if opc = 0x0C then ⟨b2n (mlogBit e.p.var (!isZero x) (!isZero y)), false, false, false⟩
  else if opc = 0x0A then moveConv e (if m then 1 else 2) .rne (if m then x else y)
  else if opc = 0x0B then moveConv e 1 (e.rm o) x
  else if opc = 0x10 then
    -- ZT1 mode flushes the function's FP32 value, and counts it (R84)
    let f := flush32 e.p.zt (sfu false e.p.var x).toNat
    let v := convTy e.p.zt ty sat .rne (val32 f.1)
    { v with uflow := v.uflow || f.2 }
  else if e.int then intConv ty (e.p.var % 2 == 1) (intOp opc (fpInt x) (fpInt y) (fpInt z))
  else convTy e.p.zt ty sat .rne (floatOp e.p.zt opc x y z)

/-- One point of an element-wise operation. -/
def ewPoint (e : VEnv) (s : State) (o : Nat) (c : VAcc) : VAcc × List VWrite :=
  let opc := e.p.opc
  let m := e.unmasked s o
  let c := { c with elems := c.elems + 1, live := c.live || m }
  if ¬ m ∧ opc ≠ 0x0A then (c, [])
  else
    let rd := fun (r : Nat) => if (vNeeds opc e.p.var).contains r then e.read s r o else ⟨.fin false 0 0, false, false⟩
    let x := rd 1
    let y := rd 2
    let z := rd 3
    let v := ewResult e o m x.val y.val z.val
    let c := ((c.sawRead x).sawRead y).sawRead z
    let c := c.sawConv (e.ty 0) v
    let c := { c with sat := c.sat || (opc == 0x0A && moveClamps e (if m then 1 else 2) .rne (if m then x.val else y.val))
                          || (opc == 0x0B && moveClamps e 1 (e.rm o) x.val),
                      draws := c.draws + (if opc = 0x0B ∧ e.a.rm = 2 ∧ drawsFor (e.ty 0) x.val then 1 else 0),
                      census := if opc = 0x0B ∧ e.a.cen then addCounts c.census
                          (convCounts { v with uflow := v.uflow || x.flushed } (isZero (decodeTy false (e.ty 0) v.code)))
                        else c.census }
    (c, e.write 0 o v.code)

/-! ### Reductions (R150, R151) -/

/-- Combines a list pairwise, adjacent elements first. -/
def pairUp {α : Type} (f : α → α → α) : List α → List α
  | x :: y :: r => f x y :: pairUp f r
  | l => l

/-- The fixed order of R151: 64 lanes in ordinal order, then six levels of fixed pairing. -/
def lanes {α β : Type} (ident : α) (step : α → β → α) (combine : α → α → α) (xs : List β) : α :=
  let l := xs.zipIdx.foldl (fun l p => listSet l (p.2 % 64) (step (nth ident l (p.2 % 64)) p.1)) (List.replicate 64 ident)
  nth ident ((List.range 6).foldl (fun l _ => pairUp combine l) l) 0

/-- An exact value rounded to FP32, and whether ZT1 mode flushed it. -/
def round32 (zt : Bool) (x : Fp) : BitVec 32 × Bool := flush32 zt (rne32 false x).toNat
/-- FP32 addition of the lanes; the flag tells that some step was flushed. DESIGN CHOICE: log 132. -/
def laneAdd (zt : Bool) (a : BitVec 32 × Bool) (x : Fp) : BitVec 32 × Bool :=
  let r := round32 zt (sumFp [val32 a.1, x])
  (r.1, a.2 || r.2)
/-- FP32 accumulation of a square (RSUMSQ); in ZT1 mode the product is rounded first (R84). -/
def laneSq (zt : Bool) (a : BitVec 32 × Bool) (x : Fp) : BitVec 32 × Bool :=
  laneAdd zt a (if zt then val32 (rne32 true (mulFp x x)) else mulFp x x)
/-- Two lanes combined. -/
def laneJoin (zt : Bool) (a b : BitVec 32 × Bool) : BitVec 32 × Bool := laneAdd zt (a.1, a.2 || b.2) (val32 b.1)
/-- The sum of the elements of a set; a masked-off element reads as +0. -/
def sumSet (zt : Bool) (step : BitVec 32 × Bool → Fp → BitVec 32 × Bool) (l : List (Option Fp)) : BitVec 32 × Bool :=
  lanes (0, false) step (laneJoin zt) (l.map (fun x => x.getD (.fin false 0 0)))

/-- ln of an FP32 sum added to m and rounded once (RLSE). -/
def lseResult (zt : Bool) (m : Fp) (sum : BitVec 32) : BitVec 32 × Bool :=
  match m, val32 sum with
  | .fin n mm me, .fin _ sm se =>
    if sm = 0 then round32 zt m
    else if (exactLog2 sm).map (fun k => (k : Int) + se) = some 0 then round32 zt m
    else
      let try_ := fun (p : Nat) =>
        let v := (if n then -(toFx p mm me) else toFx p mm me) + fxLn p sm se
        fxRound fmt32 p (decide (v < 0)) v.natAbs 0
      flush32 zt (match try_ 320 with
        | some c => c
        | none => match try_ 600 with
          | some c => c
          | none => (Config.hardCase 9 (BitVec.ofNat 64 ((rne32 zt m).toNat * 2 ^ 32 + sum.toNat))).toNat % 2 ^ 32)
  | x, .fin _ _ _ => round32 zt x
  | _, y => round32 zt y

/-- The maximum (or minimum) of a set with its identity. -/
def extremeSet (mx : Bool) (l : List (Option Fp)) : Fp :=
  (l.filterMap id).foldl (if mx then maxFp else minFp) (.inf mx)

/-- A floating reduction of a set as FP32 (R150, R151), and whether a step was flushed (R84). `m` is the maximum found by RLSE's first
pass. -/
def floatReduce (zt : Bool) (opc : Nat) (m : Fp) (l : List (Option Fp)) : BitVec 32 × Bool :=
  let n := (l.filterMap id).length
  match opc with
  | 0x21 => round32 zt (extremeSet true l)
  | 0x22 => round32 zt (extremeSet false l)
  | 0x25 =>
    if n = 0 then round32 zt (.inf true)
    else if nonFinite m then round32 zt m
    else
      let ds := l.map (Option.map (fun x => round32 zt (sumFp [x, negFp m])))
      let ex := ds.map (Option.map (fun d => flush32 zt (sfuCode 1 (val32 d.1))))
      let sum := sumSet zt (laneAdd zt) (ex.map (Option.map (fun y => val32 y.1)))
      let r := lseResult zt m sum.1
      (r.1, r.2 || sum.2 || (ds ++ ex).any (fun y => (y.map (·.2)).getD false))
  | 0x26 => sumSet zt (laneSq zt) l
  | 0x27 => if n = 0 then (0, false) else
    let sum := sumSet zt (laneAdd zt) l
    let q := flush32 zt (divTo fmt32 false (val32 sum.1) (.fin false n 0))
    (q.1, q.2 || sum.2)
  | _ => sumSet zt (laneAdd zt) l

/-- The ordinal that RARGMAX or RARGMIN returns: the first NaN, or the first extreme, or all ones (R150, R151). -/
def argReduce (mx : Bool) (l : List (Option Fp)) : Nat :=
  let ps := l.zipIdx.filterMap (fun p => p.1.map (fun x => (x, p.2)))
  match ps.find? (fun p => p.1 == .nan) with
  | some p => p.2
  | none =>
    match ps with
    | [] => 0xFFFF_FFFF
    | p :: r => (r.foldl (fun b q => let d := cmpFp q.1 b.1; if (if mx then decide (0 < d) else decide (d < 0)) then q else b) p).2

/-- An integer reduction of a set in INT64 (R150, R151); the identity of a maximum or minimum is of the type `ty`. -/
def intReduce (opc ty : Nat) (l : List (Option Fp)) : Int :=
  let xs := (l.filterMap id).map fpInt
  let w := (intOf ty).getD (32, true)
  match opc with
  | 0x21 => match xs with
    | [] => if w.2 then -(2 ^ (w.1 - 1)) else 0
    | x :: r => r.foldl max x
  | 0x22 => match xs with
    | [] => if w.2 then 2 ^ (w.1 - 1) - 1 else 2 ^ w.1 - 1
    | x :: r => r.foldl min x
  | _ => sext 64 (wrapInt 64 (xs.foldl (· + ·) 0))

/-- The result of one reduction set: its write, its flags and its VALUE (R150, R151, R156). DEDUCED: log 51. -/
def redSet (e : VEnv) (idx : Nat) (m : Fp) (l : List (Option Fp)) (c : VAcc) : VAcc × List VWrite :=
  let opc := e.p.opc
  let none_ := (l.filterMap id).isEmpty
  let c := { c with empty := c.empty || none_ }
  let dst := e.p.desc 0
  let w := fun (c : VAcc) (code : Nat) => (c, e.write 0 idx code)
  if opc = 0x23 ∨ opc = 0x24 then
    let v := argReduce (opc == 0x23) l
    w { c with value := v } v
  else if e.int then
    let v := intReduce opc (if dst.isSome then e.ty 0 else e.ty 1) l
    let k := intConv (e.ty 0) (opc == 0x20 && e.p.var / 8 == 1) v
    w { c with value := clamp32 v, sat := c.sat || (dst.isSome && k.sat) } k.code
  else
    let r := floatReduce e.p.zt opc m l
    let v := r.1
    let k := convTy e.p.zt (e.ty 0) e.a.sat .rne (val32 v)
    let c := { c with under := c.under || r.2, value := v.toNat, nonfin := c.nonfin || (!none_ && nonFinite (val32 v)) }
    w (if dst.isSome ∧ ¬ none_ then c.sawConv (e.ty 0) k else c) k.code

/-- One point of a reduction. -/
def redPoint (e : VEnv) (pass : Nat) (s : State) (o : Nat) (c : VAcc) : VAcc × List VWrite :=
  let m := e.unmasked s o
  let r := e.read s 1 o
  let c := { c with elems := c.elems + 1, live := c.live || m }
  let c := if m then c.sawRead r else c
  let l := c.vals ++ [if m then some r.val else none]
  if (o + 1) % e.p.setN ≠ 0 then ({ c with vals := l }, [])
  else
    let idx := o / e.p.setN
    if e.p.opc = 0x25 ∧ pass = 0 then ({ c with vals := [], maxes := c.maxes ++ [extremeSet true l] }, [])
    else redSet e idx (nth (.inf true) c.maxes idx) l { c with vals := [] }

/-! ### Scan, permute, top-k (R152 to R154) -/

/-- One point of SCAN: outputs are gathered until the row's end. An inclusive output holds its own element, whatever precedes it; the identity
is no term of a sum; and a row sets EMPTY where all its elements are masked off. DESIGN CHOICE: log 161. -/
def scanPoint (e : VEnv) (s : State) (o : Nat) (c : VAcc) : VAcc × List VWrite :=
  let op := e.p.var % 4
  let first := o % e.p.setN == 0
  let m := e.unmasked s o
  let r := e.read s 1 o
  let run := if first then none else c.run
  let c := { c with elems := c.elems + 1, live := c.live || m, outs := if first then [] else c.outs, run := run }
  let c := if ¬ m then c
    else
      let c := c.sawRead r
      let sum := round32 e.p.zt (sumFp (run.toList ++ [r.val]))
      let c := { c with under := c.under || (op == 0 && sum.2) }
      let nxt : Fp := match run with
        | none => val32 sum.1
        | some x => match op with
          | 0 => val32 sum.1
          | 1 => maxFp x r.val
          | _ => minFp x r.val
      let ident : Fp := match op with
        | 0 => .fin false 0 0
        | 1 => .inf true
        | _ => .inf false
      let out := if e.p.var / 4 = 1 then run.getD ident else nxt
      let k := convTy e.p.zt (e.ty 0) e.a.sat .rne out
      let c := if e.p.var / 4 = 1 ∧ run = none then c else c.sawConv (e.ty 0) k
      { c with run := some nxt, outs := c.outs ++ [(o, k.code)] }
  if (o + 1) % e.p.setN ≠ 0 then (c, [])
  else
    ({ c with empty := c.empty || c.run.isNone, run := none, outs := [] },
     c.outs.flatMap (fun q => e.write 0 q.1 q.2))

/-- A point of PERM's load of a row (pass 0) or of its outputs (pass 1). -/
def permPoint (e : VEnv) (pass : Nat) (s : State) (o : Nat) (c : VAcc) : VAcc × List VWrite :=
  let c := { c with elems := c.elems + 1 }
  match e.p.desc 1 with
  | none => (c, [])
  | some d =>
    let len := d.extAt 0
    if pass = 0 then
      let r := e.read s 1 o
      ({ c.sawRead r with codes := (if o % len = 0 then [] else c.codes) ++ [r.val] }, [])
    else
      let m := e.unmasked s o
      let c := { c with live := c.live || m }
      if ¬ m then (c, [])
      else
        let i := fpInt (e.read s 2 o).val
        if i < 0 ∨ (len : Int) ≤ i then ({ c with range := true }, e.write 0 o 0)
        else
          let x := nth (.fin false 0 0) c.codes i.toNat
          let k := moveConv e 1 .rne x
          let c := c.sawConv (e.ty 0) k
          ({ c with sat := c.sat || moveClamps e 1 .rne x }, e.write 0 o k.code)

/-- Whether candidate p ranks before candidate q in TOPK (R154); candidates are (position, value). -/
def ranksBefore (p q : Nat × Fp) : Bool :=
  if p.2 = .nan then q.2 != .nan || decide (p.1 < q.1)
  else if q.2 = .nan then false
  else
    let d := cmpFp p.2 q.2
    decide (0 < d) || (d == 0 && decide (p.1 < q.1))

/-- The first k of the candidates in rank order. -/
def topPick : Nat → List (Nat × Fp) → List (Nat × Fp)
  | 0, _ => []
  | _, [] => []
  | k + 1, p :: r =>
    let b := r.foldl (fun b q => if ranksBefore q b then q else b) p
    b :: topPick k ((p :: r).filter (fun q => q.1 != b.1))

/-- One row of TOPK (R154). -/
def topRow (e : VEnv) (row : Nat) (l : List (Option Fp)) (c : VAcc) : VAcc × List VWrite :=
  let k := e.p.per
  let top := topPick k (l.zipIdx.filterMap (fun p => p.1.map (fun x => (p.2, x))))
  let short := decide (top.length < k)
  let slots := top ++ List.replicate (k - top.length) (0xFFFF_FFFF, .inf true)
  let c := { c with empty := c.empty || short, value := (slots.headD (0, .nan)).1 }
  slots.zipIdx.foldl (fun (q : VAcc × List VWrite) p =>
    let cv := convTy e.p.zt (e.ty 0) e.a.sat .rne p.1.2
    let i := row * k + p.2
    let c := if p.2 < top.length then q.1.sawConv (e.ty 0) cv else q.1
    (c, q.2 ++ e.write 0 i cv.code ++ e.write 3 i (p.1.1 % 2 ^ tyBits (e.ty 3)))) (c, [])

/-- One point of TOPK. -/
def topPoint (e : VEnv) (s : State) (o : Nat) (c : VAcc) : VAcc × List VWrite :=
  let m := e.unmasked s o
  let r := e.read s 1 o
  let c := { c with elems := c.elems + 1, live := c.live || m }
  let c := if m then c.sawRead r else c
  let l := c.vals ++ [if m then some r.val else none]
  if (o + 1) % e.p.setN ≠ 0 then ({ c with vals := l }, []) else topRow e (o / e.p.setN) l { c with vals := [] }

/-! ### Block scaling and census (R148, R149) -/

/-- One point of BSCALE; the block is written when its last element has been read. -/
def bscalePoint (e : VEnv) (s : State) (o : Nat) (c : VAcc) : VAcc × List VWrite :=
  let m := e.unmasked s o
  let r := e.read s 1 o
  let e0 := nth 1 e.p.ext 0
  let i := o % e0
  let c := { c with elems := c.elems + 1, live := c.live || m }
  let c := if m then c.sawRead r else c
  let l := c.vals ++ [if m then some r.val else none]
  if i % 32 ≠ 31 ∧ i + 1 ≠ e0 then ({ c with vals := l }, [])
  else
    let from_ := o - i % 32
    let b := blockScale (e.ty 0) (fun k => e.rm (from_ + k)) (l.map (fun x => (x.getD (.fin false 0 0), x.isSome)))
    let n := ((l.filterMap id).filter (drawsFor (e.ty 0))).length
    let c := { c with vals := [], draws := c.draws + (if e.a.rm = 2 ∧ b.1 ≠ 0xFF then n else 0) }
    let c := (b.2.zip l).foldl (fun (c : VAcc) p =>
      if p.2.isNone then c
      else
        let c := c.sawConv 0xF p.1
        let n := convCounts p.1 (b.1 != 0xFF && isZero (decodeTy false (e.ty 0) p.1.code))
        if e.a.cen then { c with census := addCounts c.census n } else c) c
    let scale := match e.p.desc 0 with
      | some d => [({ space := d.space, remote := d.remote, role := 0, bitA := scaleIdx d e.p.ext o * 8, width := 8, val := b.1, elem := false } : VWrite)]
      | none => []
    (c, b.2.zipIdx.flatMap (fun p => e.write 0 (from_ + p.2) p.1.code) ++ scale)

/-- One point of CENSUS: zeros and non-finites of the source (R149). -/
def censusPoint (e : VEnv) (s : State) (o : Nat) (c : VAcc) : VAcc × List VWrite :=
  let m := e.unmasked s o
  let r := e.read s 1 o
  let c := { c with elems := c.elems + 1, live := c.live || m }
  if ¬ m then (c, [])
  else
    let c := c.sawRead r
    let n : CensusCounts := { CensusCounts.zero with elem := 1, zero := b2n (isZero r.val), nonfin := b2n (nonFinite r.val) }
    ({ c with value := c.value + b2n (nonFinite r.val), census := addCounts c.census n }, [])

/-- One point of an instruction. -/
def vecPoint (e : VEnv) (pass : Nat) (s : State) (o : Nat) (c : VAcc) : VAcc × List VWrite :=
  match e.p.kind with
  | .ew => ewPoint e s o c
  | .red => redPoint e pass s o c
  | .scan => scanPoint e s o c
  | .perm => permPoint e pass s o c
  | .topk => topPoint e s o c
  | .bscale => bscalePoint e s o c
  | .census => censusPoint e s o c

/-- The outputs of an instruction without groups: the identities of its empty sets and rows (R139, R150, R154). -/
def emptyOuts (e : VEnv) (c : VAcc) : VAcc × List VWrite :=
  let sets := shapeCount e.p.rank e.p.outExt / e.p.per
  (List.range sets).foldl (fun (q : VAcc × List VWrite) i =>
    let r := match e.p.kind with
      | .red => redSet e i (.inf true) [] q.1
      | .topk => topRow e i [] q.1
      | _ => (q.1, [])
    (r.1, q.2 ++ r.2)) (c, [])

/-! ### Writes (R53, R54, R136) -/

/-- Whether an accumulator element belongs to a busy group (R53). -/
def accBusy (s : State) (t a : Nat) : Bool := groupBusy s t (accPlace a).2

/-- Whether a local write goes to a busy accumulator group, which refuses it (R48 subcode 6, R53). -/
def VWrite.busy (s : State) (t : Nat) (w : VWrite) : Bool := w.space == 2 && accBusy s t (w.bitA / 32)

/-- One local element write; one that completes the cover of a group in a slice clears its poison (R54). -/
def localWrite (t : Nat) (q : State × Tbl Nat) (w : VWrite) : State × Tbl Nat :=
  if w.space = 2 then
    let a := w.bitA / 32
    let pl := accPlace a
    let key := 64 * pl.1 + pl.2
    let m := tblGet 0 q.2 key ||| 2 ^ (a / 64 % 16 * 16 + a % 16)
    let s := applyWrite t w q.1
    (if m = 2 ^ 256 - 1 then setRegF s (tileBase t + 0x140 + 8 * pl.1) pl.2 pl.2 0 else s, tblSet 0 q.2 key m)
  else (applyWrite t w q.1, q.2)

/-- Records the first vector fault of a tile (R157). -/
def recordVec (t code sub opnd : Nat) (place : Option (Nat × Int)) (s : State) : State :=
  let b := tileBase t
  if reg s (b + 0x1C8) = 0 then
    let s := setReg s (b + 0x1C8) (packWord [(32, bundleLow s t), (16, code), (8, sub), (5, opnd)])
    match place with
    | some p => setReg s (b + 0x1D0) (packWord [(40, p.1), (0, wrapInt 40 p.2)])
    | none => s
  else s

/-- A vector fault that stops the phase. -/
def faultVec (t code sub opnd : Nat) (place : Option (Nat × Int)) (s : State) : State :=
  faultWith t code 0 0 (recordVec t code sub opnd place) s

/-- The bytes of a window that a remote write touches. -/
def VWrite.bytes (off : Nat) (w : VWrite) : List Nat :=
  (List.range ((off + w.bitA + w.width - 1) / 8 + 1 - (off + w.bitA) / 8)).map ((off + w.bitA) / 8 + ·)

/-- The rows that the remote writes of one group make in a window, with the role of the first operand written in each (R136). -/
def remoteRows (s : State) (a : Store) (win : WinRef) (ws : List VWrite) : List (Nat × AsyncRow) :=
  let base := storeAt a 0
  let off := winBase s a win.window * 8
  let m := ws.foldl (fun m w => setBits m base (off + w.bitA) w.width w.val) (storeMem s a)
  let touched := (ws.flatMap (VWrite.bytes off)).eraseDups
  let n := storeRow a
  ((touched.map (· / n)).eraseDups).map (fun r =>
    (((ws.find? (fun w => (w.bytes off).any (fun b => b / n == r))).map (·.role)).getD 0,
     { row := r
       mask := BitVec.ofNat 128 (((touched.filter (fun b => b / n == r)).map (fun b => 2 ^ (b % n))).foldl (· + ·) 0)
       data := BitVec.ofNat 1024 (memNat m (base + r * n) n)
       win := some win
       desc := none }))

/-- Offers the remote writes of one group to their windows (R136): the writes in the rows that were admitted, and the state. A refused row
raises at the tile `SP_BOUNDS` where a bank's state refuses it (R169), and `SP_WINDOW` otherwise. -/
def remoteWrites (t msg : Nat) (ws : List VWrite) (s : State) : List VWrite × State :=
  let c := t / 16
  forAll ((ws.map (·.remote)).eraseDups) ([], s) (fun r q =>
    let a := winTarget c (r / 64)
    let off := winBase q.2 a (r % 64) * 8
    let mine := ws.filter (fun w => w.remote == r)
    let win : WinRef := { window := r % 64, cls := .loc, tag := (cluTag q.2 c).getD 0, jepoch := 0, key := 0, msg := msg, last := false }
    forAll (remoteRows q.2 a win mine) q (fun row q =>
      let s := windowRow a row.2 win q.2
      let m := getMsg s msg
      if m.refused then (q.1, faultVec t (if m.code = 0x2001 then 0x2001 else 0x2002) 0 row.1 none s)
      else (q.1 ++ mine.filter (fun w => (w.bytes off).headD 0 / storeRow a == row.2.row), s)))

/-! ### A started instruction, cycle by cycle (R139) -/

/-- Elements of a list that stand in it more than once. -/
def dupsOf (l : List Nat) : List Nat := (l.filter (fun b => decide (1 < l.count b))).eraseDups

/-- The carafe accesses that the tiles of cluster c make in the present cycle, as tile and bank (R165). -/
def carUses (s : State) (c : Nat) : List (Nat × Nat) := (tilesOf c).flatMap (fun t => (vecBanks s t 1).map (fun b => (t, b)))
/-- The carafe banks of cluster c that two accesses occupy in the present cycle (R165). -/
def carClash (s : State) (c : Nat) : List Nat := dupsOf ((carUses s c).map (·.2))
/-- The scratchpad banks of tile t in which accesses of the present cycle conflict: of the vector engine, and with a port (R41). -/
def spClash (s : State) (t : Nat) : List Nat :=
  let x := getTile s t
  dupsOf (vecBanks s t 0) ++ (if x.clash.1 = s.cycle then x.clash.2 else [])
/-- Whether one of some rows of a space lies in a bank whose accesses of the present cycle conflict: none of these takes effect
(R41, R165). DEDUCED: log 55. -/
def clashes (s : State) (t space : Nat) (rows : List Nat) : Bool :=
  let l := if space = 0 then spClash s t else if space = 1 then carClash s (t / 16) else []
  !l.isEmpty && rows.any (fun r => l.contains (storeBank (spaceStore t space) r))

/-- Whether a row of a scratchpad or carafe lies in a bank that is not ON in the present cycle: no access to it is performed (R169). -/
def rowDead (s : State) (t space r : Nat) : Bool :=
  decide (space < 2) && !bankOn (seenState s) (spaceStore t space) (storeBank (spaceStore t space) r)
/-- The first element that a group reads in a space from a bank that is not ON, with its role (R169). -/
def deadRead (s : State) (t space : Nat) (p : VPlan) (g : VGroup) : Option (Nat × Nat × Int) :=
  (p.readRoles g.pass).findSome? (fun r => (p.desc r).bind (fun d =>
    if d.space ≠ space then none
    else (g.ords.find? (fun o => (rowsTouched d (p.shapeOf r) (p.off r) [o] ++ scaleRows d (p.shapeOf r) [o]).any (rowDead s t space))).map
      (fun o => (r, space, elemAddr d (p.shapeOf r) o (p.off r)))))

/-- What the groups of the started instruction of a tile share. -/
def vecEnv (s : State) (t : Nat) (en : VecEntry) (p : VPlan) : VEnv :=
  { t := t, a := en.args, p := p, int := vIsInt p, key := (getTile s t).srKey }

/-- A group reads its sources from a state; its writes wait for their cycle. -/
def groupRead (e : VEnv) (s : State) (due : Nat) (g : VGroup) (r : VecRun) : VecRun :=
  let q := g.ords.foldl (fun (q : VAcc × List VWrite) o =>
    let n := vecPoint e g.pass s o q.1
    (n.1, q.2 ++ n.2)) (r.acc, [])
  { r with acc := q.1, wait := if q.2.isEmpty then r.wait else r.wait ++ [(due, q.2)] }

/-- Whether a source or the mask of an instruction lies in the carafe. -/
def VPlan.carafeRead (p : VPlan) : Bool := [1, 2, 3, 4].any (fun r => (p.desc r).any (fun d => d.space == 1 && !isDst p r))

/-- The reads of a cycle (R135, R139): the group whose read cycle it is reads what the cycle began with. One with a carafe source waits seven
cycles for its bank (R165). A group with a read that conflicts, or of a bank that is not ON, does nothing (R41, R169). DEDUCED: log 55. -/
def vecReads (s : State) (t st : Nat) (e : VEnv) (r : VecRun) : VecRun :=
  let p := r.plan
  let due := fun (n : Nat) => n + 3 + p.extra
  let r := match p.groupAt (s.cycle - st) 0 with
    | none => r
    | some g =>
      if clashes s t 0 (p.readRows 0 g) || (p.readRows 0 g).any (rowDead s t 0) then r
      else if p.carafeRead then { r with late := r.late ++ [(s.cycle + 7, g, s.seen)] }
      else groupRead e (seenState s) (due s.cycle) g r
  (r.late.filter (fun q => q.1 == s.cycle)).foldl (fun r q =>
    if clashes s t 1 (p.readRows 1 q.2.1) || (p.readRows 1 q.2.1).any (rowDead s t 1) then r
    else groupRead e { s with mem := q.2.2.mem, regs := q.2.2.regs } (due (s.cycle - 7)) q.2.1 r)
    { r with late := r.late.filter (fun q => q.1 != s.cycle) }

/-- The rows of a local write. -/
def VWrite.rows (w : VWrite) : List Nat := [w.bitA / 8 / spaceRow w.space, (w.bitA + w.width - 1) / 8 / spaceRow w.space]

/-- The writes whose cycle is the present one. -/
def dueWrites (s : State) (r : VecRun) : List VWrite := (r.wait.filter (fun q => q.1 == s.cycle)).flatMap (·.2)
/-- Whether a write goes to a bank that is not ON (R169). -/
def VWrite.dead (s : State) (t : Nat) (w : VWrite) : Bool := w.rows.any (rowDead s t w.space)
/-- The writes of the present cycle that do not conflict and whose bank is ON. -/
def vecWrites (s : State) (t : Nat) (r : VecRun) : List VWrite :=
  (dueWrites s r).filter (fun w => decide (1 < w.space) || (!clashes s t w.space w.rows && !w.dead s t))
/-- The first element of an access of the present cycle to a bank that is not ON, with its role (R169). -/
def vecDead (s : State) (t st : Nat) (r : VecRun) : Option (Nat × Nat × Int) :=
  let rd := fun (space lag : Nat) => (r.plan.groupAt (s.cycle - st) lag).bind (deadRead s t space r.plan)
  [rd 0 0, rd 1 7, ((dueWrites s r).find? (VWrite.dead s t)).map (fun w => (w.role, w.space, (w.bitA / max 1 w.width : Nat)))].findSome? id
/-- The writes that were made count as written elements (R156). -/
def VAcc.wrote (c : VAcc) (ws : List VWrite) : VAcc :=
  let n := ws.filter (fun w => w.elem && w.role == 0)
  { c with written := c.written + n.length, ones := c.ones + (n.filter (fun w => w.val == 1)).length }

/-- The remote destination of an instruction. -/
def VPlan.remoteDst (p : VPlan) : Option TDesc :=
  ((if p.kind = .topk then [p.desc 0, p.desc 3] else [p.desc 0]).filterMap id).find? (fun d => d.space == 3)

/-- Closes the window message of an instruction (R136, R173). -/
def closeMessage (t msg : Nat) (p : VPlan) (s : State) : State :=
  match p.remoteDst with
  | none => s
  | some d =>
    let a := winTarget (t / 16) d.target
    let ctl := winCtrl s a d.window
    let m := getMsg s msg
    let cnt := if wbit ctl 60 then some (storeClu a, wfld ctl 59 56) else none
    msgSettle msg (putMsg s msg { m with lastIn := true, counter := cnt })

/-- Whether no further row of an instruction can be offered k cycles after its start: every group has been read and no remote write waits. -/
def VecRun.offeredAll (r : VecRun) (k : Nat) : Bool :=
  (r.plan.groups.isEmpty || decide (1 + (r.plan.groups.length - 1) * r.plan.pace ≤ k)) && r.late.isEmpty
    && !r.wait.any (fun q => q.2.any (fun w => w.space == 3))

/-- Whether an instruction is a reduction or TOPK without any set or row: the spec states no VALUE for it (R156). -/
def VPlan.noSets (p : VPlan) : Bool := (p.kind == .red || p.kind == .topk) && shapeCount p.rank p.outExt == 0

/-- The VALUE and flags of a finished instruction (R155, R156). -/
def vecSummary (e : VEnv) (c : VAcc) : VSummary :=
  let opc := e.p.opc
  let own := e.p.kind = .red || e.p.kind = .topk || e.p.kind = .census
  { under := c.under, masked := (e.p.desc 4).isSome && opc != 0x0A && !c.live, sat := c.sat, nonfin := c.nonfin, range := c.range
    empty := c.empty, vint := !(e.p.kind == .red && opc != 0x23 && opc != 0x24 && !e.int)
    value := if e.p.kind = .census then satCount c.value else if own then c.value else satCount (if opc = 9 then c.ones else c.written) }

/-! ### Checks at the start (R129 to R133, R150, R153) -/

/-- The first role with a fault, in the order DST, A, B, C, MASK. -/
def firstRole (p : VPlan) (bad : Nat → TDesc → Bool) : Option Nat :=
  (List.range 5).find? (fun r => match p.desc r with
    | some d => bad r d
    | none => false)

/-- Whether an operand's shape differs from what its operation asks (R131, R150, R154). -/
def shapeBad (p : VPlan) (r : Nat) (d : TDesc) : Bool :=
  let want := if p.kind = .perm ∧ r = 1 then d.extAt 0 :: p.ext.drop 1 else p.shapeOf r
  let want := if d.sb then ceilDiv (nth 0 want 0) 32 :: want.drop 1 else want
  d.rank != p.rank || (List.range 6).any (fun k => d.extAt k != nth 0 want k
    && !(p.kind == .perm && r == 1 && k != 0 && decide (k < d.rank) && d.strAt k == 0))

/-- Whether an operand's type or space is not accepted (R131, R136, R142 to R154). DEDUCED: log 52. DEDUCED: log 53. -/
def typeBad (p : VPlan) (int : Bool) (r : Nat) (d : TDesc) : Bool :=
  let f3 := fun (ty : Nat) => decide (ty ≤ 2)
  let src := fun (ty : Nat) => decide (ty ≤ 9)
  let ok : Bool :=
    if r = 4 then d.ty == 0xE
    else match p.opc with
      | 0x09 => if r = 0 then d.ty == 0xE else if int then isInt d.ty else src d.ty
      | 0x0B => r != 0 || !isMx d.ty
      | 0x0C => d.ty == 0xE
      | 0x10 | 0x28 => if r = 0 then isFloat d.ty else src d.ty
      | 0x23 | 0x24 => if r = 0 then d.ty == 0xC || d.ty == 0xD else src d.ty || isInt d.ty
      | 0x20 | 0x21 | 0x22 => if int then isInt d.ty else if r = 0 then f3 d.ty else src d.ty
      | 0x25 | 0x26 | 0x27 => if r = 0 then f3 d.ty else src d.ty
      | 0x30 => if r = 2 then d.ty == 0xB || d.ty == 0xC || d.ty == 0xD
        else
          let a := ((p.desc 1).map (·.ty)).getD 0
          if r = 0 then !isMx d.ty && ((isFloat d.ty && src a) || (isInt d.ty && isInt a) || d.ty == a) else true
      | 0x31 => if r = 0 then isFloat d.ty else if r = 3 then d.ty == 0xB || d.ty == 0xC || d.ty == 0xD else src d.ty
      | 0x38 => if r = 0 then isMx d.ty else f3 d.ty
      | 0x39 => true
      | _ => if int then isInt d.ty else if r = 0 then isFloat d.ty else src d.ty
  !ok || (d.space == 3 && !isDst p r)

/-- The points of a role with the iteration ordinal each counts for (R133): an output of a set counts for the set's first element. -/
def rolePoints (p : VPlan) (r : Nat) : List (Nat × Nat) :=
  let sh := p.shapeOf r
  let n := shapeCount p.rank sh
  if (p.kind = .red ∧ r = 0) ∨ (p.kind = .topk ∧ (r = 0 ∨ r = 3)) then (List.range n).map (fun o => (o, o / p.per * p.setN))
  else (List.range n).map (fun o => (o, o))

/-- The offending elements of a role: iteration ordinal, role, space and element address (R133). -/
def roleOffends (s : State) (t : Nat) (k : BitVec 2) (p : VPlan) (r : Nat) : Option (Nat × Nat × Nat × Int) :=
  match p.desc r with
  | none => none
  | some d =>
    let sh := p.shapeOf r
    (rolePoints p r).findSome? (fun q =>
      let a := elemAddr d sh q.1 (p.off r)
      let sc := scaleIdx d sh q.1
      if ¬ addrOk s t k d d.ty a then some (q.2, r, d.space, a)
      else if isMx d.ty ∧ ¬ addrOk s t k d 0xF sc then some (q.2, r, d.space, (sc : Int))
      else none)

/-- The fault that refuses an instruction at its start: code, subcode, operand and address; none where it runs. -/
def startFault (s : State) (t : Nat) (k : BitVec 2) (p : VPlan) (nred : Nat) : Option (Nat × Nat × Nat × Option (Nat × Int)) :=
  let int := vIsInt p
  match firstRole p (fun r d => !d.ok (isDst p r)) with
  | some r => some (0x1014, 1, r, none)
  | none =>
    if p.kind = .red ∧ p.rank < nred then some (0x1014, 2, 1, none)
    else if p.kind = .red ∧ (p.desc 0).isNone ∧ nred ≠ p.rank then some (0x1014, 2, 0, none)
    else match firstRole p (shapeBad p) with
    | some r => some (0x1014, 2, r, none)
    | none =>
      match firstRole p (typeBad p int) with
      | some r => some (0x1014, 4, r, none)
      | none =>
        if p.kind = .perm ∧ 4096 < ((p.desc 1).map (fun d => d.extAt 0)).getD 0 then some (0x1014, 4, 1, none)
        else
          match ((List.range 5).filterMap (roleOffends s t k p)) with
          | [] => none
          | x :: l =>
            let b := l.foldl (fun b q => if q.1 < b.1 then q else b) x
            some (0x2001, 0, b.2.1, some (b.2.2.1, b.2.2.2))

/-! ### Starting (R139) -/

/-- An injected error of a scratchpad read (R408, R410): it stops the phase and raises an alarm. -/
def eccRead (t : Nat) (s : State) : State :=
  let x := getTile s t
  if x.eccInj then
    let tb := tileBase t
    faultTile t 0x2004 0 0 (alarm tb 0x2004 (.resource (cluTag s (t / 16))) (putTile s t { x with eccInj := false }))
  else s

/-- An injected error of the carafe that a vector engine's read meets (R408, R410): an alarm of the carafe page, and it stops the phase. -/
def eccCarafe (t : Nat) (s : State) : State :=
  let r := pageEcc (carafeBase (t / 16)) (t / 16) s
  if r.1 ∧ ¬ stoppedBefore s (t / 16) then stopCluster (t / 16) 0x2004 (t % 16) r.2 else r.2

/-- Replaces the run of the started instruction of a tile. -/
def putRun (t : Nat) (r : VecRun) (s : State) : State :=
  let x := getTile s t
  match x.vq with
  | [] => s
  | e :: l => putTile s t { x with vq := { e with run := some r } :: l }

/-- The run of the started instruction after the writes of a cycle: once no further row can be offered, its window message closes, where
a row was offered (R136). DEDUCED: log 149. -/
def runWritten (t st : Nat) (r : VecRun) (s : State) : State :=
  if r.shut ∨ ¬ r.offeredAll (s.cycle - st) then putRun t r s
  else
    let s := putRun t { r with shut := true } s
    if r.plan.remoteDst.isNone then s else if r.sent then closeMessage t r.msg r.plan s else putMsg s r.msg WinMsg.reset

/-- The edge of a cycle in the vector engine of a tile (R139): the reads and the writes of that cycle, with an injected scratchpad
error, the draws made, the write that a busy row group refuses (R48), the access that a bank's state refuses (R169), and the conflicts among
the engine's own accesses (R41, R141). DESIGN CHOICE: log 36. -/
def vecEdge (t : Nat) (s : State) : State :=
  match (getTile s t).vq with
  | [] => s
  | en :: _ => match en.started, en.run with
    | some st, some r0 =>
      let p := r0.plan
      let r := vecReads s t st (vecEnv s t en p) r0
      let ws := vecWrites s t r
      let near := ws.filter (fun w => w.space != 3 && !w.busy s t)
      let far := ws.filter (fun w => w.space == 3)
      let q := near.foldl (localWrite t) (s, r.acc.cover)
      let m := remoteWrites t r.msg far q.1
      let s1 := runWritten t st { r with acc := { r.acc.wrote (near ++ m.1) with cover := q.2 }
                                         wait := r.wait.filter (fun q => q.1 != s.cycle), sent := r.sent || !far.isEmpty } m.2
      let s1 := match ws.find? (VWrite.busy s t) with
        | some w => faultTile t 0x1009 6 (accPlace (w.bitA / 32)).2 s1
        | none => s1
      let s1 := match vecDead s t st r with
        | some f => faultVec t 0x2001 0 f.1 (some f.2) s1
        | none => s1
      let s1 := addCtr s1 (clusterBase (t / 16) + 0x900) (r.acc.draws - r0.acc.draws)
      let s1 := if (p.readsAt 0 (s.cycle - st)).isEmpty then s1 else eccRead t s1
      let s1 := if (p.readsAt 1 (s.cycle - st)).isEmpty then s1 else eccCarafe t s1
      if (dupsOf (vecBanks s t 0)).isEmpty then s1 else faultTile t 0x100A 0 0 s1
    | _, _ => s

/-- The conflicts of a cycle in the carafe of a cluster (R165): of several, the lowest bank's is recorded, with the two lowest tiles.
A cluster STOPPED earlier updates only `ERR_STATUS` (R119). -/
def carEdge (c : Nat) (uses : List (Nat × Nat)) (s : State) : State :=
  match (dupsOf (uses.map (·.2))).min? with
  | none => s
  | some b =>
    let ts := (uses.filter (fun q => q.2 == b)).map (fun q => q.1 % 16)
    if stoppedBefore s c then errOnly (carafeBase c) 0x1015 s
    else faultCar c 0x1015 (nth 0 ts 0) (nth 0 ts 1) b (stopCluster c 0x1015 (nth 0 ts 0) s)

/-- An instruction that passed its checks starts in the present cycle (R139, R141). Without groups its outputs wait for their cycle. -/
def vecBegin (t : Nat) (en : VecEntry) (p : VPlan) (s : State) : State :=
  let remote := p.remoteDst.isSome
  let msg := if remote then freshMsg s else 0
  let s := if remote then putMsg s msg { WinMsg.reset with live := true } else s
  let q := if p.groups.isEmpty then emptyOuts (vecEnv s t en p) VAcc.start else (VAcc.start, [])
  let wait := if q.2.isEmpty then [] else [(s.cycle + 3 + p.extra, q.2)]
  let run : VecRun := { plan := p, msg := msg, acc := q.1, wait := wait, late := [], sent := false, shut := false }
  let head : VecEntry := { en with started := some s.cycle, last := s.cycle + p.g + 4 + p.extra, run := some run }
  let x := getTile s t
  putTile s t { x with vq := head :: x.vq.drop 1 }

/-- Starts the head of the queue in the present cycle: its checks, then its run (R129, R139). -/
def vecStart (t : Nat) (s : State) : State :=
  let x := getTile s t
  match x.vq with
  | [] => s
  | en :: rest =>
    let p := vPlan s t en.opc en.args en.cval
    match startFault s t en.ctx p (en.args.var.toNat % 8 + 1) with
    | some f => faultVec t f.1 f.2.1 f.2.2.1 f.2.2.2 (putTile s t { x with vq := rest })
    | none => vecBegin t en p s

/-- Starts the head of the queue where the engine has been free since an earlier cycle (R139). -/
def vecHead (t : Nat) (s : State) : State :=
  let x := getTile s t
  if x.vecFree ≤ s.cycle ∧ x.vq.head?.any (fun e => e.started.isNone) then vecStart t s else s

/-- The queue entries held in the present cycle: that of an instruction which ends in it is still held (R139). -/
def vecHeld (s : State) (t : Nat) : Nat :=
  let x := getTile s t
  x.vq.length + (if s.cycle < x.vecFree then 1 else 0)

/-- Whether a vector instruction carries a reserved encoding for the tile (R82, R137). -/
def vecReserved (s : State) (t opc : Nat) (a : VecArgs) : Bool := !vEncOk opc a || (zt1 s (t / 16) && vZt1Bad s t opc a)

/-- The vector slot places an instruction in the queue (R42, R138, R139), its checks passed. -/
def vecEnqueue (t opc : Nat) (a : VecArgs) (s : State) : State :=
  let x := getTile s t
  let en : VecEntry := { opc := opc, args := a, ctx := x.active, cval := ctrOf x a.offc, started := none, last := 0, run := none }
  let s := putTile s t { x with vq := x.vq ++ [en] }
  if x.vq.isEmpty then vecHead t s else s

/-- A vector instruction alone in a bundle: its encoding check, the full queue, then the queue. -/
def vecIssue (opc t : Nat) (a : VecArgs) (s : State) : State :=
  if vecReserved s t opc a then faultTile t 0x1008 0 0 s
  else if 4 ≤ vecHeld s t then faultTile t 0x100C 0 0 s
  else vecEnqueue t opc a s

/-- The head of the queue reaches its last cycle (R139, R155, R231, R234): counters, the summary and the census event. The engine is free
from the next cycle. DEDUCED: log 115. -/
def vecComplete (t : Nat) (s : State) : State :=
  let x := getTile s t
  match x.vq with
  | [] => s
  | en :: rest => match en.started, en.run with
    | some _, some r =>
      if s.cycle < en.last then s
      else
        let b := tileBase t
        -- the spec states no VALUE where there is no set: a free value (DESIGN CHOICE, log 150)
        let f := if r.plan.noSets then drawFree s else (0, s)
        let v := vecSummary (vecEnv s t en r.plan) r.acc
        let sum := summaryBits r.plan.opc (if r.plan.noSets then { v with value := f.1.toNat } else v)
        let s := f.2
        let s := bump (putTile s t { x with vq := rest, vecFree := s.cycle + 1 }) (b + 0x858)
        let s := if s.cycle = en.last then bump s (b + 0x860) else s
        let s := setReg s (b + 0x1C0) (summaryWord (reg s (b + 0x858)).toNat sum)
        let s := addCtr s (b + 0x868) r.acc.elems
        let s := if summaryNonfinite sum then bump s (clusterBase (t / 16) + 0x878) else s
        if en.args.cen ∨ r.plan.kind = .census then censusSend (cluTag s (t / 16)) en.args.ctag r.acc.census s else s
    | _, _ => s

/-! ### Meanings: one operation each -/

/-- VECTOR_INSTR_COMPLETE (R155): nothing happens before the last cycle of a started instruction. -/
def execVectorInstrComplete (t : Nat) (s : State) : Result := onTile t s (vecComplete t)
/-- VECTOR_NOP (R137): no effect. -/
def execVectorNop (t : Nat) (s : State) : Result := onTile t s id
/-- ADD (R142). -/
def execVecAdd (t : Nat) (a : VecArgs) (s : State) : Result := onTile t s (vecIssue 0x01 t a)
/-- SUB (R142). -/
def execVecSub (t : Nat) (a : VecArgs) (s : State) : Result := onTile t s (vecIssue 0x02 t a)
/-- MUL (R142). -/
def execVecMul (t : Nat) (a : VecArgs) (s : State) : Result := onTile t s (vecIssue 0x03 t a)
/-- FMA (R142). -/
def execVecFma (t : Nat) (a : VecArgs) (s : State) : Result := onTile t s (vecIssue 0x04 t a)
/-- MIN (R142). -/
def execVecMin (t : Nat) (a : VecArgs) (s : State) : Result := onTile t s (vecIssue 0x05 t a)
/-- MAX (R142). -/
def execVecMax (t : Nat) (a : VecArgs) (s : State) : Result := onTile t s (vecIssue 0x06 t a)
/-- ABS (R142). -/
def execVecAbs (t : Nat) (a : VecArgs) (s : State) : Result := onTile t s (vecIssue 0x07 t a)
/-- SIGN (R142). -/
def execVecSign (t : Nat) (a : VecArgs) (s : State) : Result := onTile t s (vecIssue 0x08 t a)
/-- CMP (R145). -/
def execVecCmp (t : Nat) (a : VecArgs) (s : State) : Result := onTile t s (vecIssue 0x09 t a)
/-- SEL (R145). -/
def execVecSel (t : Nat) (a : VecArgs) (s : State) : Result := onTile t s (vecIssue 0x0A t a)
/-- CVT (R147). -/
def execVecCvt (t : Nat) (a : VecArgs) (s : State) : Result := onTile t s (vecIssue 0x0B t a)
/-- MLOG (R145). -/
def execVecMlog (t : Nat) (a : VecArgs) (s : State) : Result := onTile t s (vecIssue 0x0C t a)
/-- SFU (R146). -/
def execVecSfu (t : Nat) (a : VecArgs) (s : State) : Result := onTile t s (vecIssue 0x10 t a)
/-- RSUM (R151). -/
def execVecRsum (t : Nat) (a : VecArgs) (s : State) : Result := onTile t s (vecIssue 0x20 t a)
/-- RMAX (R151). -/
def execVecRmax (t : Nat) (a : VecArgs) (s : State) : Result := onTile t s (vecIssue 0x21 t a)
/-- RMIN (R151). -/
def execVecRmin (t : Nat) (a : VecArgs) (s : State) : Result := onTile t s (vecIssue 0x22 t a)
/-- RARGMAX (R151). -/
def execVecRargmax (t : Nat) (a : VecArgs) (s : State) : Result := onTile t s (vecIssue 0x23 t a)
/-- RARGMIN (R151). -/
def execVecRargmin (t : Nat) (a : VecArgs) (s : State) : Result := onTile t s (vecIssue 0x24 t a)
/-- RLSE (R151). -/
def execVecRlse (t : Nat) (a : VecArgs) (s : State) : Result := onTile t s (vecIssue 0x25 t a)
/-- RSUMSQ (R151). -/
def execVecRsumsq (t : Nat) (a : VecArgs) (s : State) : Result := onTile t s (vecIssue 0x26 t a)
/-- RMEAN (R151). -/
def execVecRmean (t : Nat) (a : VecArgs) (s : State) : Result := onTile t s (vecIssue 0x27 t a)
/-- SCAN (R152). -/
def execVecScan (t : Nat) (a : VecArgs) (s : State) : Result := onTile t s (vecIssue 0x28 t a)
/-- PERM (R153). -/
def execVecPerm (t : Nat) (a : VecArgs) (s : State) : Result := onTile t s (vecIssue 0x30 t a)
/-- TOPK (R154). -/
def execVecTopk (t : Nat) (a : VecArgs) (s : State) : Result := onTile t s (vecIssue 0x31 t a)
/-- BSCALE (R148). -/
def execVecBscale (t : Nat) (a : VecArgs) (s : State) : Result := onTile t s (vecIssue 0x38 t a)
/-- CENSUS (R149). -/
def execVecCensus (t : Nat) (a : VecArgs) (s : State) : Result := onTile t s (vecIssue 0x39 t a)

end Sys2Proof.Machine
end

