-- ==== Sys2Proof/Machine/Sequencer.lean ====
section
/-! DEFINITION. The tile sequencer: the bundle and its slots (R35 to R43), hardware loops (R39), the scratchpad ports with their address
generators (R40, R160, R163, R168), the switch slot (R93 to R96), the checks of R452 and BUNDLE_ISSUE. A slot's command alone is the
action of that slot; the program counter advances only with a whole bundle (DESIGN CHOICE, log 13). -/

namespace Sys2Proof.Machine

/-! ### Slots -/

/-- Sequencing operations (R38). -/
inductive SeqOp where
  | nop
  | loop (n : BitVec 3) (len : Nat)
  | cset (n : BitVec 3) (imm : Nat)
  | cadd (n : BitVec 3) (imm : Nat)
  | ctx (k : BitVec 2)
  | phaseEnd
  deriving DecidableEq, Repr

/-- Matrix operations (R43). -/
inductive MatOp where
  | nop
  | block (a : BlockArgs)
  | statReset (bank : Nat)
  deriving DecidableEq, Repr

/-- Scratchpad port operations (R40). -/
inductive PortOp where
  | idle
  | read (route row : Nat)
  | write (row : Nat)
  | gen (route g : Nat)
  deriving DecidableEq, Repr

/-- The switch slot's fields (R93). -/
structure SwOp where
  vop : Nat
  sop : Nat
  n   : BitVec 3
  cop : Nat
  imm : Nat
  deriving DecidableEq, Repr

/-- A decoded bundle. -/
structure Bundle where
  seq : SeqOp
  mat : MatOp
  p0  : PortOp
  p1  : PortOp
  sw  : SwOp
  vec : Option (Nat × VecArgs)
  deriving DecidableEq, Repr

/-- The sequencing slot (R38); none for a reserved encoding. -/
def seqDecode (v : Nat) : Option SeqOp :=
  let n := BitVec.ofNat 3 (fld v 11 9)
  match fld v 15 12 with
  | 0 => if fld v 11 0 = 0 then some .nop else none
  | 1 => some (.loop n (fld v 8 0 + 1))
  | 2 => some (.cset n (fld v 8 0))
  | 3 => some (.cadd n (fld v 8 0))
  | 4 => if fld v 11 2 = 0 then some (.ctx (BitVec.ofNat 2 v)) else none
  | 5 => if fld v 11 0 = 0 then some .phaseEnd else none
  | _ => none

/-- The matrix slot (R43). The other bits of a NOP are not looked at. DESIGN CHOICE: log 127. -/
def matDecode (v : Nat) : Option MatOp :=
  match fld v 55 52 with
  | 0 => some .nop
  | 1 => if fld v 13 12 ≠ 0 then none else some (.block {
      mode := BitVec.ofNat 2 (fld v 51 50), stat := BitVec.ofNat 2 (fld v 49 48), sbank := BitVec.ofNat 1 (fld v 47 47),
      ssel := BitVec.ofNat 2 (fld v 46 45), chk := bit v 44, fmtA := BitVec.ofNat 4 (fld v 43 40), fmtB := BitVec.ofNat 4 (fld v 39 36),
      src := BitVec.ofNat 2 (fld v 35 34), base := BitVec.ofNat 6 (fld v 33 28), depth := BitVec.ofNat 6 (fld v 27 22),
      kch := BitVec.ofNat 8 (fld v 21 14), ltag := BitVec.ofNat 12 (fld v 11 0) })
  | 2 => if fld v 51 48 = 0 ∧ fld v 46 0 = 0 then some (.statReset (fld v 47 47)) else none
  | _ => none

/-- A port slot (R40). -/
def portDecode (v : Nat) : Option PortOp :=
  let route := fld v 17 15
  match fld v 19 18 with
  | 0 => if v = 0 then some .idle else none
  | 1 => if route ≤ 4 then some (.read route (fld v 14 0)) else none
  | 2 => if route = 0 then some (.write (fld v 14 0)) else none
  | _ => if route ≤ 4 ∧ fld v 12 0 = 0 then some (.gen route (fld v 14 13)) else none

/-- The switch slot (R93, R95). -/
def swDecode (v : Nat) : Option SwOp :=
  let o : SwOp := { vop := fld v 15 13, sop := fld v 12 10, n := BitVec.ofNat 3 (fld v 9 7), cop := fld v 6 5, imm := fld v 4 0 }
  let usesN := o.sop == 1 || o.sop == 2 || o.sop == 4 || decide (2 ≤ o.cop)
  if 3 < o.vop ∨ 5 < o.sop ∨ (o.n ≠ 0 ∧ ¬ usesN) ∨ (o.sop = 2 ∧ o.cop = 3) then none else some o

/-- The vector slot (R137): nothing for a slot of zeros; none for reserved bits or an OPC of zero with other bits. Its operation's own
reserved encodings are those of `vecReserved`. -/
def vecDecode (v : Nat) : Option (Option (Nat × VecArgs)) :=
  if v = 0 then some none
  else if fld v 127 120 = 0 ∨ fld v 64 64 ≠ 0 ∨ fld v 51 32 ≠ 0 then none
  else some (some (fld v 127 120, {
    var := BitVec.ofNat 4 (fld v 119 116), rm := BitVec.ofNat 2 (fld v 115 114), sat := bit v 113, cen := bit v 112
    dst := BitVec.ofNat 8 (fld v 111 104), srcA := BitVec.ofNat 8 (fld v 103 96), srcB := BitVec.ofNat 8 (fld v 95 88)
    srcC := BitVec.ofNat 8 (fld v 87 80), mask := BitVec.ofNat 8 (fld v 79 72), offen := BitVec.ofNat 4 (fld v 71 68)
    offc := BitVec.ofNat 3 (fld v 67 65), ctag := BitVec.ofNat 12 (fld v 63 52), imm := BitVec.ofNat 32 (fld v 31 0) }))

/-- A whole bundle (R36); none where a slot's fields are reserved. -/
def bundleDecode (v : Nat) : Option Bundle :=
  match seqDecode (fld v 15 0), matDecode (fld v 127 72), portDecode (fld v 71 52), portDecode (fld v 51 32),
      swDecode (fld v 31 16), vecDecode (fld v 255 128) with
  | some q, some m, some p0, some p1, some w, some x => some { seq := q, mat := m, p0 := p0, p1 := p1, sw := w, vec := x }
  | _, _, _, _, _, _ => none

/-- A switch slot that issues nothing. -/
def SwOp.none_ : SwOp := { vop := 0, sop := 0, n := 0, cop := 0, imm := 0 }
/-- A bundle whose slots issue nothing. -/
def Bundle.none_ : Bundle := { seq := .nop, mat := .nop, p0 := .idle, p1 := .idle, sw := SwOp.none_, vec := none }

/-! ### Address generators (R163) -/

/-- One use of a generator: whether it is reserved, the rows it reads and, for a transposed read, j and the byte width. -/
structure GenUse where
  resv  : Bool
  first : Int
  count : Nat
  j     : Nat
  wide  : Nat
  deriving DecidableEq, Repr

/-- The use number u of generator g of a tile (R163). -/
def genUse (s : State) (t g u : Nat) : GenUse :=
  let w := reg s (tileBase t + 0x210 + 8 * g)
  let n := wfld w 61 50 + 1
  let i := u % n
  let o := u / n
  let is_ := sext 16 (wfld w 49 34)
  let g0 : Int := (wfld w 14 0 : Int) + o * sext 16 (wfld w 33 18)
  match wfld w 63 62 with
  | 0 => ⟨true, 0, 1, 0, 0⟩
  | 1 => ⟨false, g0 + i * is_, 1, 0, 0⟩
  | 2 => ⟨n != 16 || is_ != 0 || g0 % 16 != 0, g0, 16, i, 1⟩
  | _ => ⟨n != 8 || is_ != 0 || g0 % 8 != 0, g0, 8, i, 2⟩

/-- The use a port slot makes: a plain row, or its generator's next use; `ahead` counts the uses of the same cycle before it. -/
def portUse (s : State) (t : Nat) (op : PortOp) (ahead : Nat) : Option GenUse :=
  match op with
  | .idle => none
  | .read _ r | .write r => some ⟨false, r, 1, 0, 0⟩
  | .gen _ g => some (genUse s t g (((tblGet 0 (getTile s t).agenUse g).toNat + ahead) % 2 ^ 32))

/-- Uses that port 0 makes of the generator of port 1 (R163). -/
def aheadOf (p0 p1 : PortOp) : Nat :=
  match p0, p1 with
  | .gen _ g, .gen _ h => if g = h then 1 else 0
  | _, _ => 0

/-- The rows of a use. -/
def useRows (u : GenUse) : List Nat := (List.range u.count).map (u.first.toNat + ·)

/-- The banks a use occupies: a transposed read takes all four banks of its set once (R160). -/
def useBanks (t : Nat) (u : GenUse) : List Nat := ((useRows u).map (storeBank (.sp t))).eraseDups

/-- The first offending row of a use (R168, R169). -/
def useBad (s : State) (t : Nat) (u : GenUse) : Option Int :=
  let al := allocOf s t 0 (getTile s t).active
  let bad := (List.range u.count).any (fun i =>
    let r := u.first + i
    decide (r < 0) || decide (24575 < r) || !inAlloc al r.toNat || !bankOn s (.sp t) (storeBank (.sp t) r.toNat))
  if bad then some u.first else none

/-- The row a use delivers (R163), from what the array holds in the present cycle. -/
def useData (s : State) (t : Nat) (u : GenUse) : Row :=
  if u.wide = 0 then spRow s t u.first.toNat
  else
    let w := 8 * u.wide
    let n := 64 / u.wide
    BitVec.ofNat 512 (((List.range n).map (fun e =>
      let b := e / u.count
      let k := e % u.count
      (spRow s t (u.first.toNat + k)).toNat / 2 ^ (w * (u.count * b + u.j)) % 2 ^ w * 2 ^ (w * e))).foldl (· + ·) 0)

/-! ### Checks of a bundle (R37, R452) -/

/-- A fault of a bundle with what it records. -/
inductive IssueFault where
  | plain (code sub group : Nat)
  | block (f : Nat × Nat × Nat)
  | bank (l : List Nat)
  | port (p : Nat) (row : Int)
  | net (net : Nat)
  deriving DecidableEq, Repr

/-- Raises the fault of a bundle. The port of a partition found empty is that of its output D. DESIGN CHOICE: log 152. -/
def raiseIssue (t : Nat) (f : IssueFault) (s : State) : State :=
  match f with
  | .plain code sub group => faultTile t code sub group s
  | .block f => faultBlock t f s
  | .bank l => faultTile t 0x100A 0 0 (putTile s t { getTile s t with clash := (s.cycle, l) })
  | .port p row => faultWith t 0x2001 0 0 (fun s => recordFirst s (tileBase t + 0x208)
      (packWord [(32, bundleLow s t), (16, 0x2001), (15, p), (0, wrapInt 15 row)])) s
  | .net n => faultNet t 0x1010 n 4 (getTile s t).active.toNat 0 s

/-- Words that a bundle pops from the vector partition (R94). -/
def vecPops (b : Bundle) : Nat :=
  (match b.p0 with
    | .write _ => 1
    | _ => 0)
  + (match b.p1 with
    | .write _ => 1
    | _ => 0)
  + (if b.sw.vop = 0 then 0 else 1)

/-- Whether a bundle's slots carry reserved encodings that need the tile's state (R37, R44, R82, R105, R137, R163). -/
def bundleReserved (s : State) (t : Nat) (b : Bundle) : Bool :=
  let x := getTile s t
  (match b.seq with
    | .ctx _ => !x.loops.isEmpty
    | _ => false)
  || (match b.mat with
    | .block a => !blockEncOk (zt1 s (t / 16)) a
    | _ => false)
  || ((portUse s t b.p0 0).map (·.resv)).getD false
  || ((portUse s t b.p1 (aheadOf b.p0 b.p1)).map (·.resv)).getD false
  || (match b.vec with
    | some q => vecReserved s t q.1 q.2
    | none => false)

/-- Whether a LOOP breaks R39. -/
def loopBad (x : Tile) (len : Nat) : Bool :=
  decide (4 ≤ x.loops.length) || (match x.loops with
    | [] => false
    | f :: _ => decide (f.last < x.pc.toNat + len))

/-- The first fault of a bundle's slots in the order of R452, without its reserved fields and `PHASE_LENGTH`. -/
def slotFault (s : State) (t : Nat) (b : Bundle) : Option IssueFault :=
  let x := getTile s t
  let u0 := portUse s t b.p0 0
  let u1 := portUse s t b.p1 (aheadOf b.p0 b.p1)
  let banks := ((u0.toList ++ u1.toList).flatMap (useBanks t)) ++ vecBanks s t 0
  let loopB : Bool := match b.seq with
    | .loop _ len => loopBad x len
    | _ => false
  let ctxB : Bool := match b.seq with
    | .ctx k => ctxSeen s t k != 2
    | _ => false
  if loopB then some (.plain 0x100B 0 0)
  else if ctxB then some (.plain 0x1004 0 0)
  else match u0.bind (useBad s t), u1.bind (useBad s t) with
  | some r, _ => some (.port 0 r)
  | none, some r => some (.port 1 r)
  | none, none =>
    let ports := (u0.toList ++ u1.toList).flatMap (useBanks t)
    if ports.any (fun k => decide (1 < banks.count k)) then some (.bank (ports.filter (fun k => decide (1 < banks.count k))))
    else if (partOf x 0 x.active).length < vecPops b then some (.net 0)
    else if b.sw.sop = 2 ∧ (partOf x 1 x.active).isEmpty then some (.net 1)
    else if b.sw.cop = 3 ∧ (partOf x 2 x.active).isEmpty then some (.net 2)
    else if b.vec.isSome ∧ 4 ≤ vecHeld s t then some (.plain 0x100C 0 0)
    else match b.mat with
    | .block a => (blockFault s t a).map .block
    | _ => none

/-- Whether a bundle breaks the PHASE_END rule of R116 in cycle `cyc` of a phase of `len` cycles. -/
def phaseEndBad (b : Bundle) (cyc len : Nat) : Bool := decide (b.seq = .phaseEnd) != (cyc + 1 == len)

/-! ### Effects of slots -/

/-- Records the rows a port accessed in this cycle (R160, R161). -/
def noteAccess (t : Nat) (rows : List Nat) (isRead : Bool) (s : State) : State :=
  let x := getTile s t
  putTile s t { x with access := x.access.filter (fun p => p.1 == s.cycle) ++ rows.map (fun r => (s.cycle, r, isRead)) }

/-- A port read: its row sets out, to be delivered six cycles later (R40). -/
def portRead (t port route : Nat) (u : GenUse) (s : State) : State :=
  let d := useData (seenState s) t u
  let s := eccRead t (noteAccess t (useRows u) true s)
  let x := getTile s t
  putTile s t { x with delivers := x.delivers ++ [{ port := BitVec.ofNat 1 port, route := BitVec.ofNat 3 route, row := d, ctx := x.active,
                                                    due := s.cycle + 6 }] }

/-- Pops the head of a partition of the active context. -/
def popHead (t net : Nat) (s : State) : Option NetWord × State :=
  let x := getTile s t
  match partOf x net x.active with
  | [] => (none, s)
  | w :: r => (some w, putTile s t (putPart x net x.active r))

/-- A port write: the vector head is written to a row (R40, R94, R160). -/
def portWrite (t row : Nat) (s : State) : State :=
  let q := popHead t 0 s
  match q.1 with
  | none => s
  | some w =>
    let s := noteAccess t [row] false q.2
    { s with mem := { s.mem with sp := setRow s.mem.sp (spAt t (64 * row)) w.payload } }

/-- The effect of a port slot. -/
def portSlot (t port : Nat) (op : PortOp) (s : State) : State :=
  match op with
  | .idle => s
  | .read route r => portRead t port route ⟨false, r, 1, 0, 0⟩ s
  | .write r => portWrite t r s
  | .gen route g =>
    let x := getTile s t
    let u := tblGet 0 x.agenUse g
    portRead t port route (genUse s t g u.toNat) (putTile s t { x with agenUse := tblSet 0 x.agenUse g (u + 1) })

/-- The vector-network operation of the switch slot (R93, R94). -/
def swVector (t vop : Nat) (s : State) : State :=
  if vop = 0 then s
  else
    let q := popHead t 0 s
    match q.1, vop with
    | some w, 1 => streamIn t 2 w.payload q.2
    | some w, 2 => scaleIn t w.payload q.2
    | _, _ => q.2

/-- The address of a cluster's work counter n. -/
def wctrAddr (c n : Nat) : Nat := clusterBase c + 0x200 + 8 * n

/-- A fetch-and-add on a work counter (R123, R124). -/
def wctrAdd (c n : Nat) (v : Word) (s : State) : Word × State :=
  let old := reg s (wctrAddr c n)
  (old, setReg s (wctrAddr c n) (old + v))

/-- A WFA on a work counter (R123): a tile is served before the barista, whose additions of the same cycle it does not see; the value returned
to the barista counts it. -/
def wfaTake (c n : Nat) (s : State) : Word × State :=
  let k := getClu s c
  let adds := k.amoNow.filter (fun p => p.1 == s.cycle && p.2.1 == n)
  let q := wctrAdd c n 1 s
  let old := q.1 - adds.foldl (fun a p => a + p.2.2.1) 0
  match adds.getLast? with
  | none => (old, q.2)
  | some p => (old, putClu q.2 c { k with barRet := if p.2.2.2 then BitVec.ofInt 64 (sext 32 (k.barRet + 1).toNat) else k.barRet + 1 })

/-- The scalar-network operation of the switch slot (R93); `cn` is C_N as it stood at issue, and a summary is the one that the cycle began
with (R156). -/
def swScalar (t sop : Nat) (n : BitVec 3) (cn : BitVec 16) (k : BitVec 2) (s : State) : State :=
  match sop with
  | 1 => inject t 1 (cn.setWidth 512) k s
  | 2 =>
    let q := popHead t 1 s
    match q.1 with
    | some w => putTile q.2 t (setCtr (getTile q.2 t) n (w.payload.setWidth 16))
    | none => s
  | 3 => setReg s (clusterBase (t / 16) + 0x400 + 8 * (t % 16)) (reg (seenState s) (tileBase t + 0x1C0))
  | 4 =>
    let q := wfaTake (t / 16) (cn.toNat % 64) s
    let x := getTile q.2 t
    putTile q.2 t { x with wfas := x.wfas ++ [{ n := n, value := q.1.setWidth 16, due := s.cycle + 12 }] }
  | 5 => inject t 1 (BitVec.ofNat 512 (regF (seenState s) (tileBase t + 0x1C0) 31 0)) k s
  | _ => s

/-- The control-network operation of the switch slot (R93). -/
def swControl (t cop : Nat) (n : BitVec 3) (cn : BitVec 16) (imm : Nat) (k : BitVec 2) (s : State) : State :=
  match cop with
  | 1 => inject t 2 (BitVec.ofNat 512 imm) k s
  | 2 => inject t 2 (BitVec.ofNat 512 (cn.toNat % 256)) k s
  | 3 =>
    let q := popHead t 2 s
    match q.1 with
    | some w => putTile q.2 t (setCtr (getTile q.2 t) n (BitVec.ofNat 16 (w.payload.toNat % 256)))
    | none => s
  | _ => s

/-- The action of the sequencing slot (R38, R39, R105), without the advance of the program counter. `cn` is the counter it names. A loop
whose body or skip runs past bundle 1,023 keeps its last bundle's number unwrapped. DESIGN CHOICE: log 125. -/
def seqSlot (t : Nat) (op : SeqOp) (cn : BitVec 16) (s : State) : State :=
  let x := getTile s t
  let pc := x.pc.toNat
  match op with
  | .nop | .phaseEnd => s
  | .loop _ len =>
    if cn = 0 then putTile s t { x with pc := BitVec.ofNat 10 (pc + len) }
    else putTile s t { x with loops := { first := pc + 1, last := pc + len, left := cn.toNat - 1 } :: x.loops }
  | .cset n imm => putTile s t (setCtr x n (BitVec.ofNat 16 imm))
  | .cadd n imm => putTile s t (setCtr x n (cn + BitVec.ofInt 16 (sext 9 imm)))
  | .ctx k =>
    let x := { x with pcs := tblSet 0 x.pcs x.active.toNat (BitVec.ofNat 10 (pc + 1)) }
    bump (putTile s t { x with active := k, pc := pcOf x k }) (tileBase t + 0x848)

/-- The loops and the program counter after a bundle whose next address would be `next` (R35, R39): a body that ends starts again or is
left. -/
def loopNext : List LoopFrame → Nat → List LoopFrame × Nat
  | [], next => ([], next)
  | f :: r, next =>
    if next = f.last + 1 then
      (if 0 < f.left then ({ f with left := f.left - 1 } :: r, f.first) else loopNext r next)
    else (f :: r, next)

/-- Advances the program counter after a bundle (R35). -/
def advancePc (t : Nat) (s : State) : State :=
  let x := getTile s t
  let q := loopNext x.loops (x.pc.toNat + 1)
  putTile s t { x with loops := q.1, pc := BitVec.ofNat 10 q.2 }

/-- The counter that a sequencing operation reads. -/
def seqCtr (x : Tile) : SeqOp → BitVec 16
  | .loop n _ | .cset n _ | .cadd n _ => ctrOf x n
  | _ => 0

/-- The effect of the matrix slot. -/
def matSlot (t : Nat) (op : MatOp) (s : State) : State :=
  match op with
  | .nop => s
  | .block a => startBlock t a s
  | .statReset b => statReset t b s

/-- The effects of a bundle that raised no fault: every slot works with the counters and the context of the bundle's issue; counters
are written in the order of R95. -/
def bundleEffects (t : Nat) (b : Bundle) (s : State) : State :=
  let x := getTile s t
  let cn := ctrOf x b.sw.n
  let k := x.active
  let s := match b.vec with
    | some q => vecEnqueue t q.1 q.2 s
    | none => s
  let s := swVector t b.sw.vop (portSlot t 1 b.p1 (portSlot t 0 b.p0 s))
  let s := matSlot t b.mat s
  let s := swControl t b.sw.cop b.sw.n cn b.sw.imm k (swScalar t b.sw.sop b.sw.n cn k (match b.seq with
    | .cset n imm => seqSlot t (.cset n imm) (seqCtr x b.seq) s
    | .cadd n imm => seqSlot t (.cadd n imm) (seqCtr x b.seq) s
    | _ => s))
  match b.seq with
  | .ctx _ => seqSlot t b.seq 0 s
  | .loop _ _ => advancePc t (seqSlot t b.seq (seqCtr x b.seq) s)
  | _ => advancePc t s

/-! ### BUNDLE_ISSUE (R35, R452) -/

/-- The bundle at a tile's program counter. -/
def bundleAt (s : State) (t : Nat) : Nat :=
  let x := getTile s t
  memNat s.mem.ctx (ctxAt t x.active.toNat (32 * x.pc.toNat)) 32

/-- What a tile does with its bundle in cycle `cyc` of a phase of `len` cycles: its decoded bundle, or its fault. -/
def issueCheck (s : State) (t cyc len : Nat) : Bundle × Option IssueFault :=
  match bundleDecode (bundleAt s t) with
  | none => (Bundle.none_, some (.plain 0x1008 0 0))
  | some b =>
    if bundleReserved s t b then (b, some (.plain 0x1008 0 0))
    else if phaseEndBad b cyc len then (b, some (.plain 0x100D 0 0))
    else (b, slotFault s t b)

/-- The effects of one tile's bundle, whose checks are made on the state `s0` before any tile's effects: none where they find a fault. -/
def tileIssue (s0 : State) (cyc len t : Nat) (s : State) : State :=
  let q := issueCheck s0 t cyc len
  if q.2.isSome then s else bundleEffects t q.1 s

/-- What the phase's last cycle finds wrong in one tile: whether a vector instruction is still open (R140), and the first group of a block that
runs (R48 subcode 4). -/
def phaseEndOpen (t : Nat) (s : State) : Bool × Option Nat :=
  ((getTile s t).vq.any (fun e => e.started.isNone || decide (s.cycle < e.last)),
   ((heldBlock s t).filter (fun b => decide (s.cycle < blockEnd s t b))).map (·.args.base.toNat))

/-- The faults of one tile's bundle and, in the phase's last cycle, of what the tile then holds: both as they are without any other tile, so
that a stop that another tile raises hides none of them (R452). -/
def tileFaults (s0 : State) (cyc len t : Nat) (s : State) : State :=
  let s := match (issueCheck s0 t cyc len).2 with
    | some f => raiseIssue t f s
    | none => s
  if cyc + 1 ≠ len then s
  else
    let e := phaseEndOpen t (tileIssue s0 cyc len t s0)
    let s := if e.1 then faultVec t 0x1014 3 0 none s else s
    match e.2 with
    | some g => faultTile t 0x1009 4 g s
    | none => s

/-- BUNDLE_ISSUE: every participating tile issues its bundle in the same cycle; a stop then reaches all tiles (R119). The bundles of the cycle
in which something else stopped the phase still issue, and one tile's fault keeps no other tile's bundle from its effect (R452). After the
phase's last cycle no bundle issues. -/
def bundleIssue (c : Nat) (s : State) : State :=
  let w := getWalker s c
  let len := wfld (phaseWord s c w.cur.toNat 1) 23 0
  let stops := w.st = .stopped ∧ w.stopAt = some s.cycle ∧ w.issued ≠ s.cycle + 1
  if ¬ (w.st = .running ∨ stops) ∨ len ≤ w.cyc then s
  else
    let ts := (tilesOf c).filter (fun t => (getTile s t).part)
    let s0 := forAll ts s (fun t s => bump s (tileBase t + 0x800))
    let s := forAll ts (forAll ts s0 (tileIssue s0 w.cyc len)) (tileFaults s0 w.cyc len)
    let w' := getWalker s c
    let s := putWalker s c { w' with cyc := w.cyc + 1, issued := s.cycle + 1 }
    if w'.st = .stopped then forAll (tilesOf c) s stopTile else s

/-! ### Deliveries (R40, R47 to R49) -/

/-- The first delivery that is due takes its route. -/
def portDeliver (t : Nat) (s : State) : State :=
  let x := getTile s t
  match x.delivers with
  | [] => s
  | d :: r =>
    if s.cycle < d.due then s
    else
      let s := putTile s t { x with delivers := r }
      match d.route.toNat with
      | 0 => streamIn t d.port.toNat d.row s
      | 1 => statLoad t d.row s
      | 2 => scaleLoad t d.row s
      | 3 => scaleIn t d.row s
      | _ => inject t 0 d.row d.ctx s

/-- The oldest work-counter result that is due arrives: it is written at the edge that ends the cycle, after every other write of that edge
(R95, R123). -/
def wfaResult (t : Nat) (s : State) : State :=
  let x := getTile s t
  match x.wfas with
  | [] => s
  | f :: r => if s.cycle < f.due then s else putTile s t { x with wfas := r, wfaDone := x.wfaDone ++ [(f.n, f.value)] }
/-- The work-counter results that have arrived in the cycle are written. -/
def wfaEdge (t : Nat) (s : State) : State :=
  let x := getTile s t
  putTile s t { x.wfaDone.foldl (fun x p => setCtr x p.1 p.2) x with wfaDone := [] }

/-! ### Single slots -/

/-- The action of one slot alone, its checks made first. -/
def slotAlone (t : Nat) (b : Bundle) (act : State → State) (s : State) : State :=
  if bundleReserved s t b then faultTile t 0x1008 0 0 s
  else match slotFault s t b with
  | some f => raiseIssue t f s
  | none => act s

/-- A sequencing operation alone. -/
def seqAlone (t : Nat) (op : SeqOp) (s : State) : State :=
  slotAlone t { Bundle.none_ with seq := op } (seqSlot t op (seqCtr (getTile s t) op)) s
/-- A port operation alone; a route above 4 is reserved (R40). -/
def portAlone (t port : Nat) (op : PortOp) (s : State) : State :=
  let b : Bundle := if port = 0 then { Bundle.none_ with p0 := op } else { Bundle.none_ with p1 := op }
  let bad : Bool := match op with
    | .read r _ | .gen r _ => decide (4 < r)
    | _ => false
  if bad then faultTile t 0x1008 0 0 s else slotAlone t b (portSlot t port op) s
/-- A switch operation alone. -/
def swAlone (t : Nat) (w : SwOp) (s : State) : State :=
  let x := getTile s t
  let cn := ctrOf x w.n
  slotAlone t { Bundle.none_ with sw := w } (fun s =>
    swControl t w.cop w.n cn w.imm x.active (swScalar t w.sop w.n cn x.active (swVector t w.vop s))) s

/-- PHASE_END alone: early in a running phase it raises `PHASE_LENGTH` (R116). -/
def phaseEndAlone (t : Nat) (s : State) : State :=
  let w := getWalker s (t / 16)
  if w.st = .running ∧ w.cyc + 1 ≠ wfld (phaseWord s (t / 16) w.cur.toNat 1) 23 0 then faultTile t 0x100D 0 0 s else s

/-! ### Meanings -/

/-- BUNDLE_ISSUE (R35). -/
def execBundleIssue (c : Nat) (s : State) : Result := onCluster c s (bundleIssue c)
/-- NOP (R38): no effect. -/
def execSeqNop (t : Nat) (s : State) : Result := onTile t s id
/-- LOOP (R39): the operand holds L - 1. -/
def execLoop (t : Nat) (n : BitVec 3) (l : BitVec 9) (s : State) : Result := onTile t s (seqAlone t (.loop n (l.toNat + 1)))
/-- CSET (R38). -/
def execCset (t : Nat) (n : BitVec 3) (imm : BitVec 9) (s : State) : Result := onTile t s (seqAlone t (.cset n imm.toNat))
/-- CADD (R38). -/
def execCadd (t : Nat) (n : BitVec 3) (imm : BitVec 9) (s : State) : Result := onTile t s (seqAlone t (.cadd n imm.toNat))
/-- CTX (R105, R106). -/
def execCtx (t : Nat) (k : BitVec 2) (s : State) : Result := onTile t s (seqAlone t (.ctx k))
/-- PHASE_END (R116). -/
def execPhaseEnd (t : Nat) (s : State) : Result := onTile t s (phaseEndAlone t)
/-- READ_ROW (R40). -/
def execReadRow (t : Nat) (port : BitVec 1) (route : BitVec 3) (row : BitVec 15) (s : State) : Result :=
  onTile t s (portAlone t port.toNat (.read route.toNat row.toNat))
/-- WRITE_ROW (R160). -/
def execWriteRow (t : Nat) (port : BitVec 1) (row : BitVec 15) (s : State) : Result :=
  onTile t s (portAlone t port.toNat (.write row.toNat))
/-- READ_THROUGH_GENERATOR (R163). -/
def execReadThroughGenerator (t : Nat) (port : BitVec 1) (route : BitVec 3) (gen : BitVec 2) (s : State) : Result :=
  onTile t s (portAlone t port.toNat (.gen route.toNat gen.toNat))
/-- PORT_READ_DELIVER (R40). -/
def execPortReadDeliver (t : Nat) (s : State) : Result := onTile t s (portDeliver t)
/-- TAKE_MS (R94). -/
def execTakeMs (t : Nat) (s : State) : Result := onTile t s (swAlone t { SwOp.none_ with vop := 1 })
/-- TAKE_SS (R94). -/
def execTakeSs (t : Nat) (s : State) : Result := onTile t s (swAlone t { SwOp.none_ with vop := 2 })
/-- DROP (R93). -/
def execDrop (t : Nat) (s : State) : Result := onTile t s (swAlone t { SwOp.none_ with vop := 3 })
/-- SCALAR_SEND_C (R93). -/
def execScalarSendC (t : Nat) (n : BitVec 3) (s : State) : Result := onTile t s (swAlone t { SwOp.none_ with sop := 1, n := n })
/-- SCALAR_TAKE_C (R93). -/
def execScalarTakeC (t : Nat) (n : BitVec 3) (s : State) : Result := onTile t s (swAlone t { SwOp.none_ with sop := 2, n := n })
/-- PUT_SUM (R93). -/
def execPutSum (t : Nat) (s : State) : Result := onTile t s (swAlone t { SwOp.none_ with sop := 3 })
/-- WFA (R123). -/
def execWfa (t : Nat) (n : BitVec 3) (s : State) : Result := onTile t s (swAlone t { SwOp.none_ with sop := 4, n := n })
/-- WFA_RESULT (R123). -/
def execWfaResult (t : Nat) (s : State) : Result := onTile t s (wfaResult t)
/-- SEND_SV (R93). -/
def execSendSv (t : Nat) (s : State) : Result := onTile t s (swAlone t { SwOp.none_ with sop := 5 })
/-- SEND_I (R93). -/
def execSendI (t : Nat) (imm : BitVec 5) (s : State) : Result := onTile t s (swAlone t { SwOp.none_ with cop := 1, imm := imm.toNat })
/-- CONTROL_SEND_C (R93). -/
def execControlSendC (t : Nat) (n : BitVec 3) (s : State) : Result := onTile t s (swAlone t { SwOp.none_ with cop := 2, n := n })
/-- CONTROL_TAKE_C (R93). -/
def execControlTakeC (t : Nat) (n : BitVec 3) (s : State) : Result := onTile t s (swAlone t { SwOp.none_ with cop := 3, n := n })

end Sys2Proof.Machine
end

