-- ==== Sys2Proof/Machine/Phases.lean ====
section
/-! DEFINITION. The phase walker (R107 to R122), die barriers (R24, R25, R118), the start of a phase (R111, R115), the walker's commands
(R121) and the work counters (R123, R124). -/

namespace Sys2Proof.Machine

/-! ### Phase-table entries (R107, R108) -/

/-- A field of a phase-table entry. -/
def entryF (s : State) (c e w hi lo : Nat) : Nat := wfld (phaseWord s c e w) hi lo
/-- Whether an entry is a CALL entry. -/
def entryCall (s : State) (c e : Nat) : Bool := entryF s c e 0 62 62 == 1

/-- Whether an entry carries a reserved encoding (R107). -/
def entryReserved (s : State) (c e : Nat) : Bool :=
  let f := entryF s c e
  f 0 59 58 != 0 || f 1 63 56 != 0 || f 1 26 24 != 0 || decide (5 < f 1 29 27)
  || [3, 4].any (fun w => f w 63 42 != 0 || f w 32 32 != 0 || f w 40 39 == 3 || (f w 40 39 == 1 && decide (15 < f w 38 33)))
  || f 5 31 22 != 0 || f 5 20 20 != 0 || f 6 63 36 != 0

/-- The entries of the fill slots in use, in slot order. -/
def fillSlots (s : State) (c e : Nat) : List Nat :=
  ((List.range 4).filter (fun i => bit (entryF s c e 6 35 32) i)).map (fun i => entryF s c e 6 (8 * i + 7) (8 * i))

/-- Whether the walker refuses an entry with `PHASE_ENTRY` (R108). CHANNEL is no gate field of a CALL entry. DESIGN CHOICE: log 154. -/
def entryBad (s : State) (c e : Nat) : Bool :=
  let f := entryF s c e
  let call := entryCall s c e
  f 0 63 63 == 0 || entryReserved s c e
  || (call && f 0 47 32 != 0) || (!call && f 1 23 0 == 0)
  || (fillSlots s c e).any (fun g => entryF s c g 1 29 27 != 0 || entryF s c g 5 21 21 == 1 || entryCall s c g || entryF s c g 6 35 32 != 0)
  || (f 5 21 21 == 1 && !bit (f 5 15 0) (c % 16))
  || (call && (f 1 23 0 != 0 || f 0 31 0 != 0 || f 2 63 0 != 0 || f 3 63 0 != 0 || f 4 63 0 != 0 || f 5 21 21 != 0 || f 5 15 0 != 0))

/-- The DONE bit of an entry. -/
def doneBit (s : State) (c e : Nat) : Bool := wbit (reg s (clusterBase c + 0x128 + 8 * (e / 64))) (e % 64)
/-- Clears every DONE bit. -/
def clearDone (c : Nat) (s : State) : State :=
  forAll [0, 1, 2, 3] s (fun m s => setReg s (clusterBase c + 0x128 + 8 * m) 0)
/-- Sets the DONE bit of an entry. -/
def setDone (c e : Nat) (s : State) : State := setBit s (clusterBase c + 0x128 + 8 * (e / 64)) (e % 64)

/-! ### Gates (R110) -/

/-- The counter address of a gate term (window counter or work counter). -/
def termAddr (s : State) (c e w : Nat) : Nat :=
  clusterBase c + (if entryF s c e w 40 39 = 1 then 0x180 else 0x200) + 8 * entryF s c e w 38 33
/-- Whether a gate term holds. -/
def termHolds (s : State) (c e w : Nat) : Bool :=
  entryF s c e w 40 39 == 0 || decide (entryF s c e w 31 0 ≤ (reg s (termAddr s c e w)).toNat)
/-- The unmet terms of an entry's gate: [0] DMA, [1] term 0, [2] term 1, [3] barrier. -/
def unmetTerms (s : State) (c e : Nat) : Nat :=
  let mask := phaseWord s c e 2
  b2n (reg s (clusterBase c + 0x120) &&& mask != mask) + 2 * b2n (!termHolds s c e 3) + 4 * b2n (!termHolds s c e 4)
    + 8 * entryF s c e 5 21 21
/-- Whether an entry's gate holds apart from its barrier. -/
def gateOpen (s : State) (c e : Nat) : Bool := unmetTerms s c e % 8 == 0

/-! ### Faults of the walker -/

/-- A fault of the walker: the cluster enters STOPPED; one that was STOPPED earlier updates only `ERR_STATUS` (R119, R125). -/
def faultWalker (c code : Nat) (s : State) : State :=
  if stoppedBefore s c then errOnly (clusterBase c) code s else raiseClu (clusterBase c) c code (stopCluster c code 16 s)

/-- The walker waits for an entry, and samples it in the next cycle. -/
def waitFor (c e : Nat) (s : State) : State :=
  putWalker s c { getWalker s c with st := .sampling, wait := BitVec.ofNat 8 e, fill := false, chosen := none, waitFrom := none, waitCnt := 0,
                                     stalled := false, unmet := 0, skip := false }

/-- The walker enters CALL and interrupts the barista (R122). Its wait counts as that of an entry sampled in this cycle. DESIGN CHOICE: log 153. -/
def enterCall (c e : Nat) (s : State) : State :=
  let w := getWalker s c
  baristaIrq c 1 e (putWalker s c { w with st := .call, wait := BitVec.ofNat 8 e, chosen := none, waitFrom := some s.cycle, waitCnt := 0,
                                           stalled := false, unmet := 0, skip := false })

/-! ### The end of a phase (R112) -/

/-- The entry chosen by COND: none for END (R112). A NaN gives NEXT_F. -/
def nextEntry (s : State) (c e : Nat) : Option Nat :=
  let f := entryF s c e 1
  let sum := reg s (clusterBase c + 0x400 + 8 * f 33 30)
  let v := val32 (BitVec.ofNat 32 (wfld sum 31 0))
  let m := val32 (BitVec.ofNat 32 (entryF s c e 5 63 32))
  let num := v != .nan && m != .nan
  let pick := fun (b : Bool) => some (if b then f 47 40 else f 55 48)
  match f 29 27 with
  | 0 => some (f 47 40)
  | 1 => pick (wbit sum (f 39 34))
  | 2 => pick (!wbit sum (f 39 34))
  | 3 => pick (num && decide (numCmp v m < 0))
  | 4 => pick (num && decide (0 ≤ numCmp v m))
  | _ => none

/-- The walker takes the next main entry (R112): it waits for it, or enters CALL; from one with its DONE bit set it moves on in the next cycle. -/
def takeEntry (c e : Nat) (s : State) : State :=
  if doneBit s c e then
    let s := waitFor c e s
    putWalker s c { getWalker s c with skip := true }
  else if entryCall s c e then
    (if entryBad s c e then faultWalker c 0x1011 (waitFor c e s) else enterCall c e s)
  else waitFor c e s

/-- After a phase's last cycle (R112, R121, R125): IDLE on a pending STOP or with SINGLE, back to the waiting entry after a fill
phase, else the entry that COND chooses. -/
def phaseComplete (c : Nat) (s : State) : State :=
  let w := getWalker s c
  let cur := w.cur.toNat
  if w.st ≠ .running ∨ w.cyc < entryF s c cur 1 23 0 then s
  else
    let s := forAll (tilesOf c) s (fun t s => putTile s t { getTile s t with part := false })
    if w.stopReq ∨ wbit (reg s (clusterBase c + 0x100)) 9 then
      putWalker s c { w with st := .idle, stopReq := false, waitFrom := none, chosen := none, cyc := 0 }
    else if w.fill then putWalker s c { w with st := .sampling }
    else match nextEntry s c cur with
      | some e => takeEntry c e (putWalker s c { w with cyc := 0 })
      | none => baristaIrq c 3 cur (raiseEvent (clusterBase c) 0 (putWalker s c { w with st := .done, cyc := 0 }))

/-! ### Barriers (R24, R25, R118) -/

/-- The clusters of a mask on die d. -/
def maskClusters (d mask : Nat) : List Nat := ((List.range 16).filter (bit mask)).map (16 * d + ·)

/-- Cluster c arrives at its entry's barrier. -/
def arrive (c e : Nat) (s : State) : State :=
  let d := c / 16
  let mask := entryF s c e 5 15 0
  let ch := BitVec.ofNat 4 (entryF s c e 5 19 16)
  let s := putWalker s c { getWalker s c with st := .barrier }
  match cluTag s c with
  | none => faultWalker c 0x1007 s
  | some tag =>
    let a : Arrival := { die := d, channel := ch, tag := tag, mask := BitVec.ofNat 16 mask, cluster := c, cycle := s.cycle }
    let s := { s with arrivals := s.arrivals ++ [a] }
    if (maskClusters d mask).any (fun k => cluTag s k != some tag) then
      forAll ((maskClusters d mask).filter (fun k => cluTag s k == some tag)) s (fun k s => faultWalker k 0x1007 s)
    else
      let peers := s.arrivals.filter (fun b => b.die == d && b.channel == ch && b.tag == tag)
      if peers.any (fun b => b.mask != a.mask) then forAll peers s (fun b s => faultWalker b.cluster 0x1013 s) else s

/-! ### Sampling (R113, R117) -/

/-- What the walker has chosen not to sample: a DONE entry (R112), or anything while the cluster's block starts no work (R354). -/
def walkerHolds (s : State) (c : Nat) : Bool := (getWalker s c).skip || !blkEn s (clusterBase c)

/-- One sampling of the waiting main entry (R113): `GATE_TIMEOUT` where its count has reached `GATE_TMO`, then the entry's checks, its
gate, its barrier and its fill slots, as they stood when the cycle began (R10). While an update run executes on the cluster it waits (R201).
A fill entry that is refused stops the walker at the waiting entry. DESIGN CHOICE: log 154. -/
def walkerSample (c : Nat) (s : State) : State :=
  let w := getWalker s c
  let e := w.wait.toNat
  let v := seenState s
  let tmo := regF v (clusterBase c + 0x118) 31 0
  if w.st ≠ .sampling ∨ w.chosen.isSome ∨ (getClu s c).run.isSome ∨ walkerHolds s c then s
  else if tmo ≠ 0 ∧ tmo ≤ w.waitCnt then faultWalker c 0x1012 s
  else if entryBad v c e then faultWalker c 0x1011 s
  else if entryCall v c e then enterCall c e s
  else
    let w := { w with waitFrom := some (w.waitFrom.getD s.cycle), unmet := BitVec.ofNat 4 (unmetTerms v c e) }
    let s := putWalker s c w
    if gateOpen v c e then
      (if entryF v c e 5 21 21 = 1 then arrive c e s else putWalker s c { w with chosen := some (w.wait, false) })
    else
      let slots := (fillSlots v c e).filter (fun g => !doneBit v c g)
      match slots.find? (fun g => entryBad v c g || gateOpen v c g) with
      | some g => if entryBad v c g then faultWalker c 0x1011 s else putWalker s c { w with chosen := some (BitVec.ofNat 8 g, true) }
      | none => s

/-- A wait whose count has reached `GATE_TMO` (R117). DEDUCED: log 59. -/
def gateTimeout (c : Nat) (s : State) : State :=
  let w := getWalker s c
  let tmo := regF s (clusterBase c + 0x118) 31 0
  if (w.st = .sampling ∨ w.st = .barrier) ∧ tmo ≠ 0 ∧ tmo ≤ w.waitCnt then faultWalker c 0x1012 s else s

/-! ### The start edge (R76, R111, R115) -/

/-- The part of the start edge in a tile: a participant takes its context, its program counters, cleared counters and its generator
key; the others stay gated. -/
def tileStart (c e t : Nat) (s : State) : State :=
  let x := getTile s t
  if bit (entryF s c e 0 47 32) (t % 16) then
    let k := BitVec.ofNat 2 (entryF s c e 0 (2 * (t % 16) + 1) (2 * (t % 16)))
    let pc : BitVec 10 := BitVec.ofNat 10 (entryF s c e 0 57 48)
    let step := BitVec.ofNat 48 (regF s (clusterBase c + 0x608) 47 0)
    let seed := match cluTag s c with
      | some g => (getJob s g).seed
      | none => 0
    let key := tileKey seed (16 * logicalOf s c + t % 16) step
    let s := if x.active = k then s else bump s (tileBase t + 0x848)
    let s := putTile s t { x with part := true, active := k, pc := pc, pcs := [0, 1, 2, 3].foldl (fun m i => tblSet 0 m i pc) [], ctrs := [],
                                  loops := [], seqBits := 0, agenUse := [], srKey := key }
    if t % 16 = 0 then setReg s (clusterBase c + 0x610) (BitVec.ofNat 64 ((mix64 key).toNat % 65536)) else s
  else putTile s t { x with part := false }

/-- SUB of a gate term at the start edge (R111). -/
def subTerm (c e w : Nat) (s : State) : State :=
  if entryF s c e w 41 41 = 1 ∧ entryF s c e w 40 39 ≠ 0 then
    let a := termAddr s c e w
    setReg s a (reg s a - BitVec.ofNat 64 (entryF s c e w 31 0))
  else s

/-- The start edge of a phase of entry e; no phase starts while an update run executes (R201) or while the block starts no work (R354). A bit that
a completion sets at the edge stays set (R111). -/
def startPhase (c e : Nat) (fill : Bool) (s : State) : State :=
  let parts := (tilesOf c).filter (fun t => bit (entryF s c e 0 47 32) (t % 16))
  let named := fun (t : Nat) => BitVec.ofNat 2 (entryF s c e 0 (2 * (t % 16) + 1) (2 * (t % 16)))
  if (getClu s c).run.isSome ∨ ¬ blkEn s (clusterBase c) then s
  else if parts.any (fun t => ctxSeen s t (named t) != 2) then faultWalker c 0x1004 s
  else
    let s := if entryF s c e 0 61 61 = 1 then clearDone c s else s
    let s := if fill then bump (setDone c e s) (clusterBase c + 0x810) else s
    let d := clusterBase c + 0x120
    let s := if entryF s c e 0 60 60 = 1 then setReg s d (reg s d &&& ~~~ (phaseWord s c e 2 &&& ~~~ doneSet s c)) else s
    let s := subTerm c e 4 (subTerm c e 3 s)
    let s := forAll (tilesOf c) s (tileStart c e)
    let s := bump (withdraw c s) (clusterBase c + 0x808)
    putWalker s c { getWalker s c with st := .running, cur := BitVec.ofNat 8 e, fill := fill, chosen := none, cyc := 0 }

/-- PHASE_START: the entry chosen by sampling starts. -/
def phaseStart (c : Nat) (s : State) : State :=
  let w := getWalker s c
  match w.st, w.chosen with
  | .sampling, some q => startPhase c q.1.toNat q.2 s
  | _, _ => s

/-- BARRIER_RELEASE (R24): 32 cycles after the last named cluster's arrival every named cluster starts. -/
def barrierRelease (die : Nat) (ch : BitVec 4) (tag : BitVec 12) (s : State) : State :=
  let peers := s.arrivals.filter (fun a => a.die == die && a.channel == ch && a.tag == tag)
  match peers with
  | [] => s
  | a :: _ =>
    let named := maskClusters die a.mask.toNat
    let last := peers.foldl (fun m b => max m b.cycle) 0
    if named.all (fun k => peers.any (fun b => b.cluster == k) && blkEn s (clusterBase k)) ∧ last + 31 ≤ s.cycle then
      forAll named s (fun k s => startPhase k (getWalker s k).wait.toNat false s)
    else s

/-! ### Commands (R121) -/

/-- Whether the walker is in one of a list of states. -/
def walkerIn (s : State) (c : Nat) (l : List WalkSt) : Bool := l.contains (getWalker s c).st

/-- Clears `PHASE_FAULT`. -/
def clearPhaseFault (c : Nat) (s : State) : State := setReg s (clusterBase c + 0x148) 0

/-- START of an entry; one written while an update run executes is held (R201). -/
def walkerStart (c e : Nat) (s : State) : State :=
  if ¬ walkerIn s c [.idle, .call, .done] then cluIgnore c s
  else if ¬ blkEn s (clusterBase c) then s
  else
    let k := getClu s c
    if k.run.isSome then putClu s c { k with heldStart := some (BitVec.ofNat 8 e) }
    else waitFor c e (clearPhaseFault c s)

/-- STOP. -/
def walkerStop (c : Nat) (s : State) : State :=
  let w := getWalker s c
  match w.st with
  | .stopped => cluIgnore c s
  | .idle => s
  | .running => putWalker s c { w with stopReq := true }
  | _ => putWalker (withdraw c s) c { w with st := .idle, chosen := none, waitFrom := none }

/-- RESUME at an entry. -/
def walkerResume (c e : Nat) (s : State) : State :=
  if ¬ walkerIn s c [.stopped] then cluIgnore c s
  else if blkEn s (clusterBase c) then waitFor c e (clearPhaseFault c s) else s

/-- CLEAR_DONE. -/
def walkerClearDone (c : Nat) (s : State) : State :=
  if walkerIn s c [.idle, .stopped, .call, .done] then clearDone c (clearPhaseFault c s) else cluIgnore c s

/-- A command written to `BAR_CMD` or `PHASE_CMD`. -/
def walkerCmd (c : Nat) (v : Word) (s : State) : State :=
  match wfld v 7 0 with
  | 1 => walkerStart c (wfld v 15 8) s
  | 2 => walkerStop c s
  | 3 => walkerResume c (wfld v 15 8) s
  | 4 => walkerClearDone c s
  | _ => cluIgnore c s

/-- A write to `PHASE_CMD` from control space: it is applied at the edge that ends the cycle, after the barista's (R121). -/
def phaseCmdWrite (c : Nat) (v : Word) (s : State) : State :=
  putClu s c { getClu s c with phaseCmds := (getClu s c).phaseCmds ++ [v] }
/-- The commands of control space are applied. -/
def phaseCmdEdge (c : Nat) (s : State) : State :=
  forAll (getClu s c).phaseCmds (putClu s c { getClu s c with phaseCmds := [] }) (walkerCmd c)

/-- A write to `PHASE_CTRL` (R125): RUN rising starts FIRST, RUN falling stops, under the rules of the commands. -/
def phaseCtrl (c : Nat) (v : Word) (s : State) : State :=
  let a := clusterBase c + 0x100
  let was := wbit (reg s a) 8
  let s := setReg s a (v &&& 0x3FF)
  if wbit v 8 && !was then walkerStart c (wfld v 7 0) s
  else if !wbit v 8 && was then walkerStop c s
  else s

/-! ### Waiting cycles (R114) -/

/-- Adds one to a saturating 32-bit half of word 7 of an entry. -/
def countWord7 (c e hi lo : Nat) (s : State) : State :=
  let a := phaseWordAddr c e 7
  setRegF s a hi lo (min (regF s a hi lo + 1) (2 ^ 32 - 1))

/-- The walker moves from a DONE entry to that entry's NEXT_T (R112). -/
def walkerMove (c : Nat) (s : State) : State :=
  let w := getWalker s c
  if w.st = .sampling ∧ w.skip then takeEntry c (entryF s c w.wait.toNat 1 47 40) s else s

/-- What the end of a cycle counts for a waiting entry (R114, R122): every cycle from the second after the first sampling to the start
edge, as a fill cycle or a stall cycle. A fill phase's cycles end with its last bundle, whether PHASE_COMPLETE follows in that cycle or in
the next. `STALL_FIRST` names the lowest term unmet at the last sampling; where none was, its TERM is open. DESIGN CHOICE: log 120.
DEDUCED: log 58. -/
def walkerTick (c : Nat) (s : State) : State :=
  let w := getWalker s c
  match w.waitFrom with
  | none => s
  | some s0 =>
    let e := w.wait.toNat
    let len := entryF s c w.cur.toNat 1 23 0
    let s := if w.st = .barrier then bump s (clusterBase c + 0x820) else s
    let s :=
      if s.cycle < s0 + 3 then s
      else
        let s := putWalker s c { w with waitCnt := w.waitCnt + 1 }
        if w.fill ∧ 0 < w.cyc ∧ w.cyc ≤ len then countWord7 c e 63 32 s
        else
          let s := bump (countWord7 c e 31 0 s) (clusterBase c + 0x818)
          if w.stalled ∨ w.st = .call then s
          else
            let term := ((List.range 4).find? (fun i => w.unmet.getLsbD i)).getD (Config.stallTerm c s.cycle).toNat
            putWalker (setReg s (clusterBase c + 0x150) (packWord [(32, cluLow s c), (8, e), (0, term)])) c
              { getWalker s c with stalled := true }
    if w.st = .running then
      putWalker s c (if w.fill then { getWalker s c with cyc := if w.cyc = len then len + 1 else w.cyc } else { getWalker s c with waitFrom := none })
    else putWalker s c { getWalker s c with fill := false, cyc := 0 }

/-! ### Work counters (R124) -/

/-- AMOADD: adds and returns the previous value. AMOADD.W adds its sign-extended operand to the whole counter and returns the low word of the
previous value, sign-extended. DESIGN CHOICE: log 155. -/
def workAdd (c n : Nat) (word : Bool) (v : Word) (s : State) : State :=
  let low := fun (x : Word) => if word then BitVec.ofInt 64 (sext 32 x.toNat) else x
  let q := wctrAdd c n (low v) s
  let k := getClu s c
  putClu q.2 c { k with barRet := low q.1, amoNow := k.amoNow.filter (fun p => p.1 == s.cycle) ++ [(s.cycle, n, low v, word)] }

/-- A barista's access to a work counter: AMOADD is performed, anything else is refused. A pair held in reset accesses nothing (R402), and a
cluster that quiesces or rinses refuses every access (R368, R371). -/
def workCounter (c : Nat) (a : WcAccess) (n : Nat) (v : Word) (s : State) : State :=
  let ret := fun (x : Word) (s : State) => putClu s c { getClu s c with barRet := x }
  if (getClu s c).barReset then s
  else if cluBlocked s c then (if a = .store then rinseCount 0x2006 s else ret 0 (rinseCount 0x2006 s))
  else match a with
  | .amoAddD => workAdd c n false v s
  | .amoAddW => workAdd c n true v s
  | .load | .otherAmo => ret 0 (raiseClu (clusterBase c) c 0x2005 s)
  | .store => raiseClu (clusterBase c) c 0x2005 s

/-! ### Meanings -/

/-- PHASE_COMPLETE (R112). -/
def execPhaseComplete (c : Nat) (s : State) : Result := onCluster c s (phaseComplete c)
/-- WALKER_SAMPLE (R113). -/
def execWalkerSample (c : Nat) (s : State) : Result := onCluster c s (walkerSample c)
/-- BARRIER_RELEASE (R24). -/
def execBarrierRelease (die : Nat) (channel : BitVec 4) (tag : BitVec 12) (s : State) : Result :=
  onUnit (die < 4) s (barrierRelease die channel tag)
/-- PHASE_START (R115). -/
def execPhaseStart (c : Nat) (s : State) : Result := onCluster c s (phaseStart c)
/-- GATE_TIMEOUT (R117). -/
def execGateTimeout (c : Nat) (s : State) : Result := onCluster c s (gateTimeout c)
/-- START (R121). -/
def execStart (c : Nat) (entry : BitVec 8) (s : State) : Result := cluCommand c s (walkerStart c entry.toNat)
/-- STOP (R121). -/
def execStop (c : Nat) (s : State) : Result := cluCommand c s (walkerStop c)
/-- RESUME (R121). -/
def execResume (c : Nat) (entry : BitVec 8) (s : State) : Result := cluCommand c s (walkerResume c entry.toNat)
/-- CLEAR_DONE (R121). -/
def execClearDone (c : Nat) (s : State) : Result := cluCommand c s (walkerClearDone c)
/-- WORK_COUNTER_AMO (R124). -/
def execWorkCounterAmo (c : Nat) (access : WcAccess) (n : BitVec 6) (v : BitVec 64) (s : State) : Result :=
  onCluster c s (workCounter c access n.toNat v)

end Sys2Proof.Machine
end

