-- ==== Sys2Proof/Machine/Update.lean ====
section
/-! DEFINITION. Parameter updates (R201 to R218): update programs and shard headers, the run by scale blocks, the step summary; and the
roast profile engine (R219, R220). -/

namespace Sys2Proof.Machine

/-! ### Programs (R208 to R211) -/

/-- An update instruction (R209). -/
structure UpdInstr where
  op  : Nat
  dst : Nat
  a   : Nat
  b   : Nat
  c   : Nat
  rm  : Nat
  sat : Bool
  deriving DecidableEq, Repr

/-- Instruction i of a program. -/
def updInstr (p : List Byte) (i : Nat) : UpdInstr :=
  let w := recNat p (64 + 4 * i) 4
  ⟨fld w 31 28, fld w 27 23, fld w 22 18, fld w 17 13, fld w 12 8, fld w 7 6, bit w 5⟩
/-- NINSTR. -/
def progLen (p : List Byte) : Nat := recNat p 0 1
/-- NSTATE. -/
def progStates (p : List Byte) : Nat := recNat p 1 1
/-- The instructions of a program. -/
def progInstrs (p : List Byte) : List UpdInstr := (List.range (progLen p)).map (updInstr p)
/-- The types of W and of the states in use. -/
def progTypes (p : List Byte) : List Nat := recNat p 2 1 :: (List.range (progStates p)).map (fun k => recNat p (4 + k) 1)
/-- The type of an operand code: FP32 but for W, the states, the gradient and the outputs. -/
def operandTy (p : List Byte) (x : Nat) : Nat :=
  if x = 0 ∨ x = 5 then recNat p 2 1
  else if x = 4 then recNat p 3 1
  else if x < 4 then recNat p (3 + x) 1
  else if x < 9 then recNat p (x - 2) 1 else 0

/-- Which of A, B and C an operation uses (R210). -/
def updUses (op : Nat) : Option (Bool × Bool × Bool) :=
  match op with
  | 1 | 2 | 3 | 7 | 8 => some (true, true, false)
  | 4 | 10 => some (true, true, true)
  | 5 | 6 | 9 | 11 | 12 => some (true, false, false)
  | _ => none
/-- The sources of an instruction. -/
def updSources (i : UpdInstr) : List Nat :=
  match updUses i.op with
  | some u => (if u.1 then [i.a] else []) ++ (if u.2.1 then [i.b] else []) ++ (if u.2.2 then [i.c] else [])
  | none => []

/-- Whether an instruction keeps the rules of R209 to R211, given the operands already written. DEDUCED: log 72. -/
def updInstrOk (p : List Byte) (w : Nat) (done : List Nat) (i : UpdInstr) : Bool :=
  let ns := progStates p
  let ty := operandTy p i.dst
  let srcOk := fun (x : Nat) => decide (x ≤ 0x1C) && !(decide (1 ≤ x) && decide (x ≤ 3) && decide (ns < x))
    && (!((decide (5 ≤ x) && decide (x ≤ 8)) || decide (0x15 ≤ x)) || done.contains x)
  match updUses i.op with
  | none => false
  | some u =>
    w % 32 == 0 && i.rm != 3
    && [(u.1, i.a), (u.2.1, i.b), (u.2.2, i.c)].all (fun q => if q.1 then srcOk q.2 else q.2 == 0x1F)
    && ((decide (5 ≤ i.dst) && decide (i.dst ≤ 8) && decide (i.dst < 6 + ns) && !done.contains i.dst)
        || (decide (0x15 ≤ i.dst) && decide (i.dst ≤ 0x1C)))
    && (if i.op ≤ 10 then ty == 0 else if i.op = 11 then !isMx ty else decide (i.dst ≤ 8) && isMx ty)

/-- Whether an update program keeps every rule of R208 to R211. -/
def progOk (p : List Byte) : Bool :=
  let n := progLen p
  let ns := progStates p
  let order := (progInstrs p).zipIdx.foldl (fun (q : Bool × List Nat) x =>
    (q.1 && updInstrOk p (recNat p (64 + 4 * x.2) 4) q.2 x.1, x.1.dst :: q.2)) (true, [])
  decide (1 ≤ n) && decide (n ≤ 16) && decide (ns ≤ 3) && decide (recNat p 2 1 ≤ 9) && [0, 1, 2, 5].contains (recNat p 3 1)
    && [0, 1, 2].all (fun k => decide (recNat p (4 + k) 1 ≤ 9) && (decide (k < ns) || recNat p (4 + k) 1 == 0))
    && recNat p 7 1 == 0 && recNat p 40 24 == 0 && recNat p (64 + 4 * n) (64 - 4 * n) == 0 && order.1

/-- Whether a program uses stochastic rounding or RENORM (R211). -/
def progZt1Bad (p : List Byte) : Bool := (progInstrs p).any (fun i => i.rm == 2 || i.op == 12)

/-! ### Shard headers (R206, R207) -/

/-- Rounds up to a multiple of 64. -/
def up64 (n : Nat) : Nat := ceilDiv n 64 * 64
/-- Bytes of n elements of a type. -/
def elemSpan (n ty : Nat) : Nat := n * tyBits ty / 8
/-- Bytes of an operand of n elements: an MX operand adds its scales at the next 64-byte boundary. -/
def operandSpan (n ty : Nat) : Nat := if isMx ty then up64 (elemSpan n ty) + n / 32 else elemSpan n ty
/-- Offset of operand k of a buffer: W, then the states, each at the next 64-byte boundary. -/
def bufOffset (n : Nat) (tys : List Nat) (k : Nat) : Nat := (tys.take k).foldl (fun o ty => up64 (o + operandSpan n ty)) 0
/-- Bytes of a buffer. -/
def bufSpan (n : Nat) (tys : List Nat) : Nat := tys.foldl (fun o ty => up64 (o + operandSpan n ty)) 0

/-- The checks of R207 that fail with cause FIELD. -/
def hdrFieldBad (j : Job) (tag : BitVec 12) (shard : BitVec 24) (zt : Bool) (b : List Byte) : Bool :=
  let h := parseHdr b
  match j.programs[h.prog]? with
  | none => true
  | some p =>
    let n := h.nelem
    let len := bufSpan n (progTypes p)
    let spans := [(h.buf0, len), (h.buf1, len), (h.grad, operandSpan n (operandTy p 4)), (h.poison, ceilDiv (ceilDiv (elemSpan n (operandTy p 4)) 4096) 8)]
      ++ (if h.frozen = 0 then [] else [(h.frozen, ceilDiv (n / 32) 8)])
    recNat b 52 2 != tag.toNat || recNat b 48 4 != shard.toNat || decide (1 < recNat b 6 1) || recNat b 46 2 != 0 || recNat b 54 6 != 0
      || n == 0 || n % 32 != 0 || spans.any (fun q => q.1 % 64 != 0 || decide (0x0240_0000_0000 < q.1 + q.2))
      || (decide (h.buf0 < h.buf1 + len) && decide (h.buf1 < h.buf0 + len)) || (zt && progZt1Bad p)

/-! ### The roast profile engine (R219, R220) -/

/-- An FP32 field of a profile record in binary64. -/
def profF64 (p : List Byte) (off : Nat) : BitVec 64 := rne64 (val32 (BitVec.ofNat 32 (recNat p off 4)))
/-- An integer in binary64. -/
def nat64 (n : Nat) : BitVec 64 := rne64 (.fin false n 0)
/-- Whether a value is at least a and below b. -/
def inRange (x : Fp) (a b : Fp) : Bool := x != .nan && decide (0 ≤ numCmp x a) && decide (numCmp x b < 0)

/-- Whether a profile record keeps the rules of R219. -/
def profOk (p : List Byte) : Bool :=
  let kind := recNat p 32 1
  let flags := recNat p 34 1
  let beta := fun (o : Nat) => inRange (val32 (BitVec.ofNat 32 (recNat p o 4))) (.fin false 0 0) (.fin false 1 0)
  decide (kind ≤ 4) && !(recNat p 24 4 == 0 && decide (1 ≤ kind))
    && (recNat p 28 4 == 0 || (decide (1 ≤ recNat p 33 1) && decide (recNat p 33 1 ≤ 16)))
    && (!bit flags 1 || (beta 12 && beta 16)) && decide (flags < 4) && recNat p 35 29 == 0

/-- The position and length of the current period (R220): periods P, P*M, P*M^2, ..., at most 2^48 long. -/
def roastPeriod (mult : Nat) : Nat → Nat → Nat → Nat × Nat
  | 0, pos, len => (pos, len)
  | f + 1, pos, len => if len ≤ pos then roastPeriod mult f (pos - len) (min (len * mult) (2 ^ 48)) else (pos, len)

/-- Rounds an interval of fixed-point values v ± 2^80 to binary64; where 1,200 bits do not decide it the value is free (DESIGN CHOICE, log 8). -/
def fx64 (fn : Nat) (x : BitVec 64) (v k : Int) : BitVec 64 :=
  let neg := decide (v < 0)
  let a := (encodeRat fmt64 false false false .rne neg (v.natAbs - 2 ^ 80) 1 (k - 1200)).code
  let b := (encodeRat fmt64 false false false .rne neg (v.natAbs + 2 ^ 80) 1 (k - 1200)).code
  if a = b then BitVec.ofNat 64 a else Config.hardCase fn x

/-- cos of a binary64 value between 0 and pi. -/
def cos64 (x : BitVec 64) : BitVec 64 :=
  match val64 x with
  | .fin _ m e => if m = 0 then nat64 1 else fx64 10 x (fxCos 1200 (toFx 1200 m e)) 0
  | _ => BitVec.ofNat 64 (nanCode fmt64)
/-- 2^x for a binary64 value x at most 0. -/
def exp264 (x : BitVec 64) : BitVec 64 :=
  match val64 x with
  | .fin n m e =>
    if Dy.le ⟨1100, 0⟩ ⟨m, e⟩ then 0
    else if m = 0 then nat64 1
    else
      let v : Int := toFx 1200 m e
      if v % (2 : Int) ^ 1200 = 0 then rne64 (.fin false 1 (-(v / (2 : Int) ^ 1200)))
      else let r := fxExp2 1200 (if n then -v else v); fx64 11 x r.1 r.2
  | .inf _ => 0
  | .nan => BitVec.ofNat 64 (nanCode fmt64)
/-- b^n for a binary64 value b in [0, 1) and n at least 1. -/
def pow64 (b : BitVec 64) (n : Nat) : BitVec 64 :=
  match val64 b with
  | .fin _ m e =>
    if m = 0 then 0
    else
      let o := m / 2 ^ (Nat.gcd m (2 ^ 64)).log2
      let oe : Int := e + (Nat.gcd m (2 ^ 64)).log2
      if o = 1 ∨ n * (ilog2 o + 1) ≤ 128 then
        (if oe * n < -1300 ∧ o = 1 then 0 else rne64 (.fin false (o ^ (if o = 1 then 1 else n)) (oe * n)))
      else
        let l := fxLn 1200 m e * n
        if l < -((2 : Int) ^ 1200 * 800) then 0
        else let r := fxExp 1200 l; fx64 12 b r.1 r.2
  | _ => BitVec.ofNat 64 (nanCode fmt64)
/-- The square root in binary64. -/
def sqrt64 (x : BitVec 64) : BitVec 64 :=
  match val64 x with
  | .fin n m e => if m = 0 then x else if n then BitVec.ofNat 64 (nanCode fmt64) else BitVec.ofNat 64 (sqrtTo fmt64 m e)
  | .inf false => x
  | _ => BitVec.ofNat 64 (nanCode fmt64)
/-- The larger of two binary64 values. -/
def max64 (a b : BitVec 64) : BitVec 64 := rne64 (maxFp (val64 a) (val64 b))
/-- The smaller of two binary64 values. -/
def min64 (a b : BitVec 64) : BitVec 64 := rne64 (minFp (val64 a) (val64 b))

/-- `roast_lr` (R220). -/
def roastLr (p : List Byte) (t : Nat) : BitVec 64 :=
  let lmax := profF64 p 0
  let lmin := profF64 p 4
  let warm := recNat p 20 4
  if t < warm then div64 (mul64 lmax (nat64 (t + 1))) (nat64 warm)
  else
    let pos := t - warm
    let period := recNat p 28 4
    let mult := recNat p 33 1
    let q := if period = 0 then (pos, recNat p 24 4)
      else if mult = 1 then (pos % period, period)
      else roastPeriod mult 64 pos period
    let ratio := div64 (nat64 q.1) (nat64 q.2)
    let x := min64 ratio (nat64 1)
    match recNat p 32 1 with
    | 0 => lmax
    | 1 =>
      let pi := fx64 13 0 (fxPi 1200) 0
      add64 lmin (div64 (mul64 (sub64 lmax lmin) (add64 (nat64 1) (cos64 (mul64 pi x)))) (nat64 2))
    | 2 => add64 lmin (mul64 (sub64 lmax lmin) (sub64 (nat64 1) x))
    | 3 => max64 lmin (div64 lmax (sqrt64 (add64 (nat64 1) ratio)))
    | _ => max64 lmin (mul64 lmax (exp264 (rne64 (negFp (val64 ratio)))))

/-- The four roast values of a step as FP32: LR, WD, BC1 and BC2 (R220). -/
def roastValues (p : List Byte) (t : Nat) : List (BitVec 32) :=
  let flags := recNat p 34 1
  let lr := roastLr p t
  let one := nat64 1
  let wd := mul64 (profF64 p 8) (if bit flags 0 then div64 lr (profF64 p 0) else one)
  let bc := fun (o : Nat) => if bit flags 1 then div64 one (sub64 one (pow64 (profF64 p o) (t + 1))) else one
  [lr, wd, bc 12, bc 16].map (fun x => rne32 false (val64 x))

/-- One evaluation of the engine, counted. -/
def roastEval (tag : BitVec 12) (g : Nat) (s : State) : List (BitVec 32) × State :=
  (roastValues (getJob s tag).profile g, bump s (roastPage + 0x800))

/-- ROAST_QUERY (R220). -/
def roastQuery (tag : BitVec 12) (g : BitVec 48) (s : State) : State :=
  let p := (getJob s tag).profile
  let q := if p.isEmpty then ([0, 0, 0, 0], s) else roastEval tag g.toNat s
  let v := fun (i : Nat) => (nth (0 : BitVec 32) q.1 i).toNat
  let s := setReg q.2 (roastPage + 0x108) (packWord [(62, b2n !p.isEmpty)])
  let s := setReg (setReg s (roastPage + 0x110) (packWord [(0, v 0)])) (roastPage + 0x118) (packWord [(0, v 1)])
  let s := setReg s (roastPage + 0x120) (packWord [(32, v 3), (0, v 2)])
  forAll (List.range 8) s (fun i s => setReg s (roastPage + 0x140 + 8 * i) (BitVec.ofNat 64 (recNat p (8 * i) 8)))

/-! ### The end of a run (R201, R202, R215) -/

/-- AON cycles of 10 ms: the clean interval (R401). -/
def cleanInterval : Nat := 500000

/-- The last contribution of a step has happened: the clean interval starts (R401). -/
def lastContribution (tag : BitVec 12) (g : BitVec 48) (s : State) : State :=
  let j := getJob s tag
  match j.window with
  | some w => putJob s tag { j with window := some { w with release := BitVec.ofNat 48 (devTime s + cleanInterval), heldStep := g, clean := none } }
  | none => s

/-- A run of a shard has completed or been refused (R215). -/
def runCounted (tag : BitVec 12) (shard : BitVec 24) (g : BitVec 48) (s : State) : State :=
  let j := getJob s tag
  if (tblFind j.shards shard.toNat).isNone then s
  else
    let ran := if j.ran.contains (g, shard) then j.ran else (g, shard) :: j.ran
    let s := putJob s tag { j with ran := ran }
    if j.shards.all (fun p => ran.contains (g, BitVec.ofNat 24 p.1)) then lastContribution tag g s else s

/-- The end of a run on a cluster: its status, the barista's interrupt of cause 4, and a held START, which the walker takes or ignores
as it then stands (R201, R121). -/
def runEnd (c : Nat) (s : State) : State :=
  let k := getClu s c
  let s := setRegF (setRegF s (clusterBase c + 0x4B0) 63 62 0) (clusterBase c + 0x4B0) 31 8
    (match k.run with
     | some r => r.shard.toNat
     | none => regF s (clusterBase c + 0x4B0) 31 8)
  let s := putClu s c { k with run := none, heldStart := none }
  let s := baristaIrq c 4 0 s
  match k.heldStart with
  | some e => walkerStart c e.toNat s
  | none => s

/-- A run is refused or faults (R202, R203): recorded, its step vetoed, the run ended. -/
def runRefuse (c : Nat) (tag : BitVec 12) (shard : BitVec 24) (g : BitVec 48) (code cause : Nat) (s : State) : State :=
  let s := recordFirst s (clusterBase c + 0x4B8) (packWord [(48, code), (44, cause), (0, shard.toNat)])
  let s := if code = leaseTimeoutCode then leaseFault code (ownAddr s) g shard tag s else raiseFault (clusterBase c) code (some tag) s
  let s := dropWrites (.run c) s
  runEnd c (runCounted tag shard g (markVeto tag g s))

/-! ### Executing a run (R203, R209 to R216) -/

/-- The program of a run. -/
def runProg (s : State) (r : UpdRun) : List Byte := nth [] (getJob s r.tag).programs r.hdr.prog
/-- Scale blocks of a run. -/
def runBlocks (r : UpdRun) : Nat := r.hdr.nelem / 32
/-- The start of CUR or of the target buffer. -/
def runBuf (r : UpdRun) (target : Bool) : Nat := if r.hdr.cur != target then r.hdr.buf1 else r.hdr.buf0
/-- The start of a stored operand: W and the states in a buffer, or the gradient. -/
def operandBase (p : List Byte) (r : UpdRun) (x : Nat) : Nat :=
  if x = 4 then r.hdr.grad else runBuf r false + bufOffset r.hdr.nelem (progTypes p) x

/-- A run in progress together with the first code that ended it. -/
structure URun where
  code : Nat
  run  : UpdRun
  st   : State
  deriving DecidableEq, Repr

/-- Reads tensor bytes for a run. -/
def uRead (c a n : Nat) (q : URun) : List Byte × URun :=
  if q.code ≠ 0 then ([], q)
  else
    let r := tensorRead (.run c) q.run.tag (c / 16) a n q.st
    (r.2.1, { q with code := r.1, st := r.2.2 })
/-- Writes tensor bytes for a run. -/
def uWrite (c a : Nat) (l : List Byte) (q : URun) : URun :=
  if q.code ≠ 0 then q
  else
    let r := tensorWrite (.run c) q.run.tag (c / 16) a l q.st
    { q with code := r.1, st := r.2 }

/-- The 32 codes of a block from its bytes, packed as in R65. -/
def unpackBlock (ty : Nat) (b : List Byte) : List Nat :=
  let v := leNat b
  (List.range 32).map (fun i => v / 2 ^ (i * tyBits ty) % 2 ^ tyBits ty)
/-- The bytes of a block of 32 codes. -/
def packBlock (ty : Nat) (l : List Nat) : List Byte :=
  leBytes (4 * tyBits ty) (l.foldr (fun x a => x % 2 ^ tyBits ty + 2 ^ tyBits ty * a) 0)

/-- Reads the codes and the scale of operand x of the current block. -/
def loadOperand (c : Nat) (p : List Byte) (x : Nat) (q : URun) : URun :=
  let ty := operandTy p x
  let base := operandBase p q.run x
  let a := uRead c (base + q.run.blk * 4 * tyBits ty) (4 * tyBits ty) q
  let b := if isMx ty then uRead c (base + up64 (elemSpan q.run.hdr.nelem ty) + q.run.blk) 1 a.2 else ([], a.2)
  let q := b.2
  { q with run := { q.run with vals := tblIns q.run.vals x (unpackBlock ty a.1), scales := tblIns q.run.scales x (leNat b.1) } }

/-- One bit of a mask in tensor space, packed as in R65. -/
def maskBit (c base i : Nat) (q : URun) : Bool × URun :=
  let r := uRead c (base + i / 8) 1 q
  (bit (leNat r.1) (i % 8), r.2)

/-- Writes one output of the current block: as computed, or copied from CUR (R203). -/
def storeOutput (c : Nat) (p : List Byte) (k : Nat) (q : URun) : URun :=
  let ty := operandTy p (5 + k)
  let q := if (tblFind q.run.vals (5 + k)).isSome then q else loadOperand c p k q
  let src := if (tblFind q.run.vals (5 + k)).isSome then 5 + k else k
  let base := runBuf q.run true + bufOffset q.run.hdr.nelem (progTypes p) k
  let q := uWrite c (base + q.run.blk * 4 * tyBits ty) (packBlock ty (tblGet [] q.run.vals src)) q
  if isMx ty then
    uWrite c (base + up64 (elemSpan q.run.hdr.nelem ty) + q.run.blk) [BitVec.ofNat 8 (tblGet 0 q.run.scales src)] q
  else q

/-- Writes every output of the current block and goes on to the next. -/
def updBlockEnd (c : Nat) (p : List Byte) (q : URun) : URun :=
  let q := (List.range (progTypes p).length).foldl (fun q k => storeOutput c p k q) q
  if q.code ≠ 0 then q
  else { q with run := { q.run with blk := q.run.blk + 1, pc := 0, loaded := false, vals := [], scales := [] } }

/-- Zeroes the gradient of a poisoned block under ZERO_BLOCK (R216): every element reads +0.0, whatever scale its block has. -/
def zeroBlock (c : Nat) (p : List Byte) (q : URun) : URun :=
  let job := getJob q.st q.run.tag
  if (tblFind q.run.vals 4).isNone ∨ job.policy.toNat % 4 ≠ 1 then q
  else
    let i := q.run.blk * 4 * tyBits (operandTy p 4) / 4096
    let m := maskBit c q.run.hdr.poison i q
    let q := m.2
    if ¬ m.1 ∨ q.code ≠ 0 then q
    else
      let q := if q.run.zeroed = some i then q else { q with st := bump q.st (clusterBase c + 0x848) }
      { q with run := { q.run with vals := tblIns q.run.vals 4 (List.replicate 32 0), scales := tblIns q.run.scales 4 0, zeroed := some i } }

/-- Reads the next block that is not frozen: its frozen bit, its operands, its poison (R203, R214, R216). Frozen blocks are copied. -/
def loadBlock (c : Nat) (p : List Byte) : Nat → URun → URun
  | 0, q => q
  | f + 1, q =>
    if q.code ≠ 0 ∨ q.run.loaded ∨ runBlocks q.run ≤ q.run.blk then q
    else
      let m := if q.run.hdr.frozen = 0 then (false, q) else maskBit c q.run.hdr.frozen q.run.blk q
      let q := m.2
      if q.code ≠ 0 then q
      else if m.1 then loadBlock c p f (updBlockEnd c p { q with st := bump q.st (clusterBase c + 0x840) })
      else
        let reads := ((progInstrs p).flatMap updSources).filter (fun x => decide (x ≤ 4))
        let q := reads.eraseDups.foldl (fun q x => loadOperand c p x q) q
        let q := zeroBlock c p q
        if q.code ≠ 0 then q else { q with run := { q.run with loaded := true } }

/-- The exact value of element e of an operand (R132): MX elements with their scale; broadcast scalars and constants. -/
def operandVal (p : List Byte) (zt : Bool) (r : UpdRun) (x e : Nat) : Fp :=
  if 9 ≤ x ∧ x ≤ 0xC then val32z zt (nth 0 r.scalars (x - 9))
  else if 0xD ≤ x ∧ x ≤ 0x14 then decodeTy zt 0 (recNat p (8 + 4 * (x - 0xD)) 4)
  else
    let ty := operandTy p x
    let v := decodeTy zt ty (nth 0 (tblGet [] r.vals x) e)
    if isMx ty then
      (match applyScale v (tblGet 0 r.scales x) with
       | .fin n m k => if magGt m k (maxFin fmt32).1 (maxFin fmt32).2 then .inf n else .fin n m k
       | y => y)
    else v

/-- The exact result of operations 0x1 to 0xA (R210). -/
def updResult (zt : Bool) (op : Nat) (x y z : Fp) : Fp :=
  match op with
  | 1 => floatOp zt 1 x y z
  | 2 => floatOp zt 2 x y z
  | 3 => floatOp zt 3 x y z
  | 4 => floatOp zt 4 x y z
  | 5 => signFp x
  | 6 => absFp x
  | 7 => maxFp x y
  | 8 => minFp x y
  | 9 => val32 (sfu zt 5 x)
  | _ => if z != .nan && decide (0 < numCmp z (.fin false 0 0)) then x else y

/-- The rounding mode of an instruction at an element (R209, R212). -/
def updRm (s : State) (c : Nat) (r : UpdRun) (i : UpdInstr) (e : Nat) : Rm :=
  match i.rm with
  | 1 => .rtz
  | 2 =>
    let seed := match cluTag s c with
      | some g => (getJob s g).seed
      | none => 0
    .sr (srDraw (tileKey seed 0xFFFF r.step) (BitVec.ofNat 32 (r.shard.toNat * 256 + r.pc)) (r.blk * 32 + e))
  | _ => .rne

/-- The draws of an instruction on a block (R74): one per element converted stochastically, none for a block that reads as NaN. -/
def updDraws (i : UpdInstr) (ty : Nat) (scale : Nat) (xs : List Fp) : Nat :=
  if i.rm = 2 ∧ (i.op = 11 ∨ (i.op = 12 ∧ scale ≠ 0xFF)) then (xs.filter (drawsFor ty)).length else 0

/-- One instruction on the current block. Its draws count as the cluster's (R77). -/
def updStep (c : Nat) (p : List Byte) (i : UpdInstr) (q : URun) : URun :=
  let zt := zt1 q.st c
  let r := q.run
  let ty := operandTy p i.dst
  let val := fun (x e : Nat) => if x = 0x1F then Fp.fin false 0 0 else operandVal p zt r x e
  let out : Nat × List Nat :=
    if i.op = 12 then
      let b := blockScale ty (updRm q.st c r i) ((List.range 32).map (fun e => (val i.a e, true)))
      (b.1, b.2.map (·.code))
    else if i.op = 11 then (0, (List.range 32).map (fun e => (convTy zt ty i.sat (updRm q.st c r i e) (val i.a e)).code))
    else (0, (List.range 32).map (fun e => (convTy zt 0 false .rne (updResult zt i.op (val i.a e) (val i.b e) (val i.c e))).code))
  let draws := updDraws i ty out.1 ((List.range 32).map (val i.a))
  { q with st := addCtr q.st (clusterBase c + 0x900) draws,
           run := { r with vals := tblIns r.vals i.dst out.2, scales := tblIns r.scales i.dst out.1, pc := r.pc + 1 } }

/-- After an instruction: the block ends once its last instruction is done. -/
def afterInstr (c : Nat) (p : List Byte) (q : URun) : URun :=
  if q.code = 0 ∧ q.run.loaded ∧ progLen p ≤ q.run.pc then
    updBlockEnd c p { q with st := bump q.st (clusterBase c + 0x838) }
  else q

/-- The rest of the run. -/
def runAll (c : Nat) (p : List Byte) : Nat → URun → URun
  | 0, q => q
  | f + 1, q =>
    let q := loadBlock c p (runBlocks q.run) q
    if q.code ≠ 0 ∨ runBlocks q.run ≤ q.run.blk then q
    else
      let q := ((progInstrs p).drop q.run.pc).foldl (fun q i => if q.code = 0 then updStep c p i q else q) q
      runAll c p f (afterInstr c p q)

/-- Keeps a run that goes on, or ends it with the fault that stopped it (R203). -/
def runKeep (c : Nat) (q : URun) : State :=
  if q.code ≠ 0 then runRefuse c q.run.tag q.run.shard q.run.step q.code 0 q.st
  else putClu q.st c { getClu q.st c with run := some q.run }

/-- The run that executes on a cluster, past its wait. -/
def runningRun (s : State) (c : Nat) : Option UpdRun :=
  match (getClu s c).run with
  | some r => if r.waiting then none else some r
  | none => none

/-- UPD_op: the run's next instruction, where it is that operation, on the run's present block. -/
def updOp (op c : Nat) (s : State) : State :=
  match runningRun s c with
  | none => s
  | some r =>
    let p := runProg s r
    let q := loadBlock c p (runBlocks r) { code := 0, run := r, st := s }
    if q.code ≠ 0 ∨ ¬ q.run.loaded then runKeep c q
    else
      let i := updInstr p q.run.pc
      if i.op = op then runKeep c (afterInstr c p (updStep c p i q)) else s

/-- The staging rows of a run hold what it read; the spec does not place it there, so their bytes are free (DESIGN CHOICE, log 14). -/
def stageBytes (c first last : Nat) (s : State) : State :=
  let n := (last + 1 - first) * 16
  let m := forAll (List.range n) s.mem.car (fun i m => memSetNat m (carAt c (first * 128 + 8 * i)) 8 (Config.freeValue (s.free + i)).toNat)
  { s with mem := { s.mem with car := m }, free := s.free + n }

/-- Step 7 of R202: the roast scalars; the run then executes. -/
def runGo (c : Nat) (r : UpdRun) (s : State) : State :=
  let v := roastEval r.tag r.step.toNat s
  let st := reg s (clusterBase c + 0x4C0)
  let s := setRegF (stageBytes c (wfld st 17 0) (wfld st 37 20) v.2) (clusterBase c + 0x4B0) 62 62 0
  putClu s c { getClu s c with run := some { r with waiting := false, scalars := v.1 } }

/-- Whether a run of a shard is pending, or executes on another cluster (R202 step 3, R205). -/
def runPending (s : State) (c : Nat) (tag : BitVec 12) (shard : BitVec 24) : Bool :=
  (getLease s tag shard).pend.isSome
    || s.clusters.any (fun k => k.1 != c && (match k.2.run with
      | some r => r.tag == tag && r.shard == shard
      | none => false))

/-- Whether the management firmware runs, which step 7 needs (R402). -/
def mgmtRuns (s : State) : Bool := wbit (reg s (devicePage + 0x100)) 1

/-- The steps 5 and 6 of R202, and the start of the run; while `DEV_READY.MGMT` is clear it waits at step 7 (R402). -/
def runCheckStep (c : Nat) (tag : BitVec 12) (shard : BitVec 24) (g : BitVec 48) (a : Nat) (b : List Byte) (s : State) : State :=
  let h := parseHdr b
  let j := getJob s tag
  let ok := decide (g.toNat = h.lastStep.toNat + 1)
  let miss := packWord [(40, shard.toNat), (20, h.lastStep.toNat % 2 ^ 20), (0, g.toNat % 2 ^ 20)]
  let s := if ok then s else putJob s tag { j with mismatch := miss }
  if !ok && !j.policy.getLsbD 2 then runRefuse c tag shard g 0x4002 0 s
  else
    let s := if ok then s else bump s (updatePage + 0x818)
    let r : UpdRun :=
      { tag := tag, shard := shard, step := g, hdrAddr := a, hdr := h, waiting := true, since := s.cycle, scalars := [],
        blk := 0, pc := 0, loaded := false, vals := [], scales := [], zeroed := none, dropped := false }
    if retFree (getLease s tag shard) then (if mgmtRuns s then runGo c r s else putClu s c { getClu s c with run := some r })
    else
      let s := setRegF (bump s (updatePage + 0x820)) (clusterBase c + 0x4B0) 62 62 1
      putClu s c { getClu s c with run := some r }

/-- The header of a shard, read as l: the one that a commit writes and that waits for its page, where there is one (R217). -/
def headerNow (s : State) (tag : BitVec 12) (shard : BitVec 24) (l : List Byte) : List Byte := match (getLease s tag shard).late with
  | some h => hdrBytes tag shard h
  | none => l
/-- The steps 1 to 4 of R202, on the header as the owner holds it: that of a commit whose write has not landed stands (R193, R217). Staging rows beyond the carafe's last, 196,607 (R164), are not carafe rows. DEDUCED: log 71.
DEDUCED: log 73. -/
def runSteps (c : Nat) (tag : BitVec 12) (shard : BitVec 24) (g : BitVec 48) (s : State) : State :=
  let refuse := runRefuse c tag shard g
  if (getJob s tag).halted then refuse 0x4003 0 s
  else match shardHdr s tag shard with
    | none => refuse 0x4009 3 s
    | some a =>
      let r := tensorRead (.run c) tag (c / 16) a 64 s
      let s := r.2.2
      let b := headerNow s tag shard r.2.1
      let st := reg s (clusterBase c + 0x4C0)
      if r.1 ≠ 0 then refuse r.1 0 s
      else if crc32 (b.take 60) ≠ recNat b 60 4 then refuse 0x4009 0 s
      else if hdrFieldBad (getJob s tag) tag shard (zt1 s c) b then refuse 0x4009 1 s
      else if runPending s c tag shard then refuse 0x4009 2 s
      else if ¬ wbit st 40 ∨ wfld st 37 20 < wfld st 17 0 ∨ wfld st 37 20 - wfld st 17 0 < 511 ∨ 196607 < wfld st 37 20 then refuse 0x4009 4 s
      else runCheckStep c tag shard g a b s

/-- RUN (R201). -/
def runStart (c : Nat) (shard : BitVec 24) (s : State) : State :=
  let b := clusterBase c
  match cluTag s c with
  | none => cluIgnore c s
  | some tag =>
    if (getClu s c).run.isSome ∨ ¬ walkerIn s c [.idle, .call, .done] then cluIgnore c s
    else if ¬ blkEn s b then s
    else
      let g := BitVec.ofNat 48 (regF s (b + 0x4A0) 47 0)
      runSteps c tag shard g (setReg s (b + 0x4B0) (packWord [(63, 1), (8, shard.toNat)]))

/-- A write to `UPD_CMD`. DEDUCED: log 70. -/
def updCmd (c : Nat) (v : Word) (s : State) : State :=
  if wfld v 7 0 = 1 then runStart c (BitVec.ofNat 24 (wfld v 31 8)) s else cluIgnore c s

/-- The wait of step 6 ends: the other buffer is free, or `LEASE_TMO` has passed (R194, R202). -/
def runWaitEnd (c : Nat) (s : State) : State :=
  match (getClu s c).run with
  | none => s
  | some r =>
    let tmo := regF s (leasePage + 0x100) 31 0
    if ¬ r.waiting then s
    else if retFree (getLease s r.tag r.shard) then
      (if mgmtRuns s then runGo c r s else setRegF s (clusterBase c + 0x4B0) 62 62 0)
    else if tmo ≠ 0 ∧ r.since + usCycles tmo ≤ s.cycle then runRefuse c r.tag r.shard r.step leaseTimeoutCode 0 s
    else s

/-- RUN_COMPLETE (R203, R205): the run does what is left and becomes pending, unless its step's summary came without a commit. A
write to a bulk page that still waits holds the run. -/
def runComplete (c : Nat) (s : State) : State :=
  match runningRun s c with
  | none => s
  | some r =>
    let p := runProg s r
    let q := runAll c p (runBlocks r + 1) { code := 0, run := r, st := s }
    if q.code ≠ 0 ∨ ¬ (writesOf q.st (.run c)).isEmpty then runKeep c q
    else
      let s := bump q.st (clusterBase c + 0x830)
      let s := if r.dropped then s
        else
          let run : PendRun := { step := r.step, cluster := c, hdrAddr := r.hdrAddr, hdr := r.hdr, waits := false }
          putLease s r.tag r.shard { getLease s r.tag r.shard with pend := some run }
      runEnd c (runCounted r.tag r.shard r.step s)

/-! ### The step summary (R216 to R218) -/

/-- The shards of a job with a pending run of step g. -/
def pendingOf (s : State) (tag : BitVec 12) (g : BitVec 48) : List (BitVec 24) :=
  (getJob s tag).leases.filterMap (fun p => match p.2.pend with
    | some r => if r.step = g then some (BitVec.ofNat 24 p.1) else none
    | none => none)

/-- The executing runs of step g of a job are not to become pending. -/
def dropRuns (tag : BitVec 12) (g : BitVec 48) (s : State) : State :=
  { s with clusters := s.clusters.map (fun k => (k.1, match k.2.run with
    | some r => if r.tag = tag ∧ r.step = g then { k.2 with run := some { r with dropped := true } } else k.2
    | none => k.2)) }

/-- HALT stops every cluster of the job; the device refuses its further runs until it is rinsed (R216). -/
def haltJob (tag : BitVec 12) (s : State) : State :=
  forAll (clustersOf s tag) (putJob s tag { getJob s tag with halted := true }) (fun c s => stopCluster c 0x4003 16 s)

/-- The update side of a step summary. A device that has seen the veto of the step in any reduction commits none of its shards (R195),
whatever the summary says; DEDUCED: log 135. A step that does not commit may be retried under its number, so its marks end here (DEDUCED, log 15). -/
def summaryAct (tag : BitVec 12) (r : StepRecord) (s : State) : State :=
  let j := getJob s tag
  let pol := j.policy.toNat % 4
  let g := r.step
  let s := putJob s tag { j with stepLast := packWord [(63, 1), (62, b2n r.veto), (61, b2n r.poison), (0, g.toNat)] }
  let vetoed := r.veto || stepVetoed s tag g
  let commit := !vetoed && (!r.poison || pol == 1)
  let s :=
    if r.veto then bump s (updatePage + 0x808)
    else if vetoed then s
    else if r.poison then
      let s := putJob s tag { getJob s tag with origin := packWord [(48, r.originDev.toNat), (0, r.originBlk.toNat)] }
      let s := raiseFault updatePage 0x4003 (some tag) s
      let s := if pol = 1 then s else bump s (updatePage + 0x810)
      if pol = 2 then haltJob tag s else s
    else s
  let pend := pendingOf s tag g
  if commit then forAll pend s (commitRequest tag)
  else
    let s := dropRuns tag g (forAll pend s (discardPend tag))
    let j := getJob s tag
    putJob s tag { j with vetoed := j.vetoed.filter (· != g), ran := j.ran.filter (fun p => p.1 != g) }

/-- A write of a job's `UPD_POLICY` (R221): ignored while a run of the job is pending or executing, and with NF_POLICY 11. -/
def updPolicy (tag : BitVec 12) (v : Word) (s : State) : State :=
  let j := getJob s tag
  let busy := j.leases.any (fun p => p.2.pend.isSome) || s.clusters.any (fun k => match k.2.run with
    | some r => r.tag == tag
    | none => false)
  if busy || wfld v 1 0 == 3 then s else putJob s tag { j with policy := BitVec.ofNat 3 (wfld v 2 0) }

/-! ### Meanings -/

/-- RUN (R202). -/
def execRun (c : Nat) (shard : BitVec 24) (s : State) : Result := cluCommand c s (runStart c shard)
/-- RUN_WAIT_END (R202). -/
def execRunWaitEnd (c : Nat) (s : State) : Result := onCluster c s (runWaitEnd c)
/-- RUN_COMPLETE (R203). -/
def execRunComplete (c : Nat) (s : State) : Result := onCluster c s (runComplete c)
/-- UPD_ADD (R210). -/
def execUpdAdd (c : Nat) (s : State) : Result := onCluster c s (updOp 0x1 c)
/-- UPD_SUB (R210). -/
def execUpdSub (c : Nat) (s : State) : Result := onCluster c s (updOp 0x2 c)
/-- UPD_MUL (R210). -/
def execUpdMul (c : Nat) (s : State) : Result := onCluster c s (updOp 0x3 c)
/-- UPD_FMA (R210). -/
def execUpdFma (c : Nat) (s : State) : Result := onCluster c s (updOp 0x4 c)
/-- UPD_SIGN (R210). -/
def execUpdSign (c : Nat) (s : State) : Result := onCluster c s (updOp 0x5 c)
/-- UPD_ABS (R210). -/
def execUpdAbs (c : Nat) (s : State) : Result := onCluster c s (updOp 0x6 c)
/-- UPD_MAX (R210). -/
def execUpdMax (c : Nat) (s : State) : Result := onCluster c s (updOp 0x7 c)
/-- UPD_MIN (R210). -/
def execUpdMin (c : Nat) (s : State) : Result := onCluster c s (updOp 0x8 c)
/-- UPD_RSQRT (R210). -/
def execUpdRsqrt (c : Nat) (s : State) : Result := onCluster c s (updOp 0x9 c)
/-- UPD_SEL (R210). -/
def execUpdSel (c : Nat) (s : State) : Result := onCluster c s (updOp 0xA c)
/-- UPD_CVT (R210). -/
def execUpdCvt (c : Nat) (s : State) : Result := onCluster c s (updOp 0xB c)
/-- RENORM (R210). -/
def execRenorm (c : Nat) (s : State) : Result := onCluster c s (updOp 0xC c)
/-- ROAST_QUERY (R220). -/
def execRoastQuery (tag : BitVec 12) (step : BitVec 48) (s : State) : Result := .next (roastQuery tag step s)

end Sys2Proof.Machine
end

