-- ==== Sys2Proof/Machine/Transport.lean ====
section
/-! DEFINITION. The sending side of the Lerpel transport (R315 to R319): send sequences, resynchronisation, ports going DOWN (R304), and
what a request message does at its destination unit (R312 to R314, R177). -/

namespace Sys2Proof.Machine

/-! ### Send sequences (R315, R317, R318) -/

/-- The key of a send sequence. -/
def txKey (hub dst cls : Nat) : Nat := (hub * 65536 + dst) * 4 + cls
/-- A send sequence. -/
def getTx (s : State) (hub dst cls : Nat) : TxSeq := tblGet TxSeq.reset s.tx (txKey hub dst cls)
/-- Replaces a send sequence. -/
def putTx (s : State) (hub dst cls : Nat) (t : TxSeq) : State := { s with tx := tblSet TxSeq.reset s.tx (txKey hub dst cls) t }

/-- Whether sequence number a lies below b, in their wrapping order. -/
def psnBelow (a b : BitVec 32) : Bool := a != b && decide ((b - a).toNat < 2 ^ 31)

/-- One held message leaves under the sequence's epoch. -/
def txEmit (hub dst cls : Nat) (m : Msg) (s : State) : State :=
  let t := getTx s hub dst cls
  let n := BitVec.ofNat 16 (flitCount m.data.length)
  let first := !psnBelow m.psn t.top
  let s := putTx s hub dst cls { t with emit := m.psn + 1, fseq := t.fseq + n, top := if first then m.psn + 1 else t.top }
  emitMsg { m with epoch := t.epoch, fseq := t.fseq } (if first then bump s (fabricPage + 0x800) else s)

/-- The messages of a synchronised sequence leave in PSN order while at most 64 are unacknowledged (R315). -/
def txPump (hub dst cls : Nat) (s : State) : State :=
  let t := getTx s hub dst cls
  if ¬ t.synced ∨ t.syncing ∨ t.unreach ∨ t.nrWait then s
  else forAll ((t.held.take 64).filter (fun m => !psnBelow m.psn t.emit)) s (txEmit hub dst cls)

/-- A RESYNC with the next epoch (R317): new messages are held, and every held message leaves again afterwards. FSEQ starts over
at zero (DESIGN CHOICE, log 19). -/
def txResyncSend (hub dst cls : Nat) (s : State) : State :=
  let t := getTx s hub dst cls
  let low := match t.held with
    | [] => t.psn
    | m :: _ => m.psn
  let floor := if psnBelow low t.floor then t.floor else low
  let s := putTx s hub dst cls { t with epoch := t.epoch + 1, syncing := true, synced := false, emit := floor, fseq := 0,
                                        nrPsn := none, nrWait := false }
  emitMsg (ctlMsg s 0x25 hub dst hub cls (t.epoch + 1) 0 floor.toNat) s

/-- A sender resynchronises a sequence (R317). DEDUCED: log 87. -/
def txResync (hub dst cls : Nat) (s : State) : State :=
  let s := putTx s hub dst cls { getTx s hub dst cls with tries := 0 }
  txResyncSend hub dst cls (bump s (fabricPage + 0x818))

/-- Sends a sequenced message (R315): 0, `LINK_DOWN` for an UNREACHABLE sequence (R318), or `BRIDGE_FAIL` where a bridge on its way to
the port is down (R309, R407). -/
def sendSeq (hub dst cls : Nat) (m : Msg) (owner : MsgOwner) (s : State) : Nat × State :=
  let t := getTx s hub dst cls
  if t.unreach then (linkDown, fabFault linkDown dst t.psn s)
  else if hubCut s hub dst then (bridgeFailCode, fabFault bridgeFailCode dst t.psn s)
  else
    let m := { m with src := ownAddr s, dst := dst, shub := hub, cls := cls, psn := t.psn }
    let s := putTx s hub dst cls { t with psn := t.psn + 1, held := t.held ++ [m] }
    let s := { s with awaited := s.awaited ++ [⟨hub, dst, cls, m.psn, m.op, owner⟩] }
    (0, if ¬ t.synced ∧ ¬ t.syncing then txResync hub dst cls s else txPump hub dst cls s)

/-- One sequence after a change of ports or tables (R317, R318): UNREACHABLE ends, and a sequence whose path changed resynchronises. -/
def repathOne (old : State) (k : Nat) (s : State) : State :=
  let cls := k % 4
  let dst := k / 4 % 65536
  let hub := k / 4 / 65536
  let t := getTx s hub dst cls
  if t.unreach then putTx s hub dst cls { t with unreach := false, tries := 0, synced := false, syncing := false }
  else if (t.synced ∨ t.syncing) ∧ routePort old dst false ≠ routePort s dst false then txResync hub dst cls s
  else s
/-- Every sequence after a change of ports or tables from `old`. -/
def repath (old s : State) : State := forAll (tblKeys s.tx) s (repathOne old)

/-! ### Ports (R304, R305) -/

/-- The causes of `FAB_PORT_STATUS` (R333). -/
def portCause (n : Nat) : BitVec 8 := BitVec.ofNat 8 n

/-- A port goes DOWN (R304): its buffers are discarded, `LINK_DOWN` is raised and the sequences of its paths resynchronise. A port that is
DARK or DOWN already changes nothing. -/
def portDown (p cause : Nat) (s : State) : State :=
  let x := getPort s p
  if x.st = 0 ∨ x.st = 3 then s
  else
    let old := s
    let s := putPort s p { x with st := 3, cause := portCause cause, replay := [], queue := [], skipping := false, replays := 0 }
    let s := setRegF s (devicePage + 0x100) (32 + p) (32 + p) 0
    let s := raiseFault (fabPortPage p) linkDown none (bump s (fabPortPage p + 0x828))
    repath old s

/-- The light of a port's laser channel is gone (R15, R301): `LINK_DOWN` with cause LASER, also where the port was DOWN or DARK already. -/
def laserDown (p : Nat) (s : State) : State :=
  let x := getPort s p
  if x.st = 1 ∨ x.st = 2 then portDown p 4 s
  else raiseFault (fabPortPage p) linkDown none (putPort s p { x with cause := portCause 4 })

/-! ### Request messages at their destination (R312 to R314, R177) -/

/-- What a request message does at its unit: a refusal code or 0, and for READ_REQ and claims the response (its OP, the previous value
and the data). An atomic that is admitted answers later (amoSettle). -/
structure Performed where
  code : Nat
  resp : Option (Nat × BitVec 64 × List Byte)
  st   : State

/-- DIE and CLUSTER of a fabric or window address word. -/
def addrClu (a : BitVec 64) : Nat := 16 * wfld a 47 46 + wfld a 45 42
/-- TARGET. -/
def addrTarget (a : BitVec 64) : Nat := wfld a 41 37
/-- WINDOW. -/
def addrWindow (a : BitVec 64) : Nat := wfld a 36 31
/-- The byte offset. -/
def addrOff (a : BitVec 64) : Nat := wfld a 24 0

/-- The code of a request that no rule admits: a reserved TARGET, an unaligned atomic, or a claim that is no claim (DESIGN CHOICE, log 20). -/
def spWindow : Nat := 0x2002

/-- An access to a window of n bytes: its store, byte address in it, and refusal code (R172, R312). -/
def windowAccess (s : State) (m : Msg) (n : Nat) : Store × Nat × Nat :=
  let at_ := winTarget (addrClu m.addr) (addrTarget m.addr)
  let first := winBase s at_ (addrWindow m.addr) + addrOff m.addr
  (at_, first, if 16 < addrTarget m.addr then spWindow
    else winCheck s at_ (addrWindow m.addr) .fabric m.tag m.jepoch m.key first (first + n))

/-- WRITE (R312). -/
def performWrite (from_ : MsgFrom) (m : Msg) (s : State) : Performed :=
  if 16 < addrTarget m.addr then ⟨spWindow, none, s⟩
  else
    let r := windowMessage from_ (winTarget (addrClu m.addr) (addrTarget m.addr)) (addrWindow m.addr) .fabric m.tag m.jepoch m.key
      (addrOff m.addr) m.data s
    ⟨r.1, none, r.2⟩
/-- SEND into a receive queue (R177). -/
def performSend (from_ : MsgFrom) (m : Msg) (s : State) : Performed :=
  if addrTarget m.addr ≠ 0 then ⟨spWindow, none, s⟩
  else
    let r := rqSend from_ (addrClu m.addr) (wfld m.addr 34 31) m.cred m.tag .fabric m.jepoch m.key m.data s
    ⟨r.1, none, r.2⟩
/-- READ_REQ (R314): the length stands in OPA (DESIGN CHOICE, log 21). -/
def performRead (m : Msg) (s : State) : Performed :=
  let n := m.opa.toNat
  let a := windowAccess s m n
  if a.2.2 ≠ 0 then ⟨a.2.2, none, s⟩ else ⟨0, some (0x11, 0, storeRead s a.1 a.2.1 n), s⟩
/-- FADD and CSWAP (R314): admitted, the atomic waits as a row for the first free cycle of its bank, behind the rows that came before it. And
the claim of R176 on a credit register (R313). `who` is the cluster of this module that issued it. -/
def performAtomic (from_ : MsgFrom) (who : Option Nat) (m : Msg) (s : State) : Performed :=
  if addrTarget m.addr = 17 then
    (if cluBlocked s (addrClu m.addr) then ⟨0x2006, none, s⟩
    else if m.op = 4 ∧ m.opa.msb then
      let r := rqClaim (addrClu m.addr) (wfld m.addr 34 31) (0 - m.opa).toNat s
      ⟨0, some (0x12, BitVec.ofNat 64 r.1, []), r.2⟩
    else ⟨spWindow, none, s⟩)
  else
    let a := windowAccess s m 8
    if addrOff m.addr % 8 ≠ 0 then ⟨spWindow, none, s⟩
    else if a.2.2 ≠ 0 then ⟨a.2.2, none, s⟩
    else
      let k := freshMsg s
      let ref : WinRef := { window := addrWindow m.addr, cls := .fabric, tag := m.tag, jepoch := m.jepoch, key := m.key, msg := k, last := true }
      let s := putMsg s k { WinMsg.reset with waiting := 1, lastIn := true, origin := from_, amo := some (who, m) }
      ⟨0, none, forAll (asRows a.1 a.2.1 (List.replicate 8 0) (some ref)) s (enterBank a.1)⟩

/-- A request message for a cluster's stores, whatever its source. -/
def performAt (from_ : MsgFrom) (who : Option Nat) (m : Msg) (s : State) : Performed :=
  if cutOff s (fromEnd from_ (.car (addrClu m.addr))) (addrClu m.addr / 16) then ⟨bridgeFailCode, none, s⟩
  else match m.op with
  | 1 => performWrite from_ m s
  | 2 => performSend from_ m s
  | 3 => performRead m s
  | 4 | 5 => performAtomic from_ who m s
  | _ => ⟨spWindow, none, s⟩

/-- A request message as its sender builds it. -/
def reqMsg (op : Nat) (addr : BitVec 64) (key : BitVec 24) (jepoch : BitVec 16) (tag : BitVec 12) (cred : Bool) (opa opb : BitVec 64)
    (data : List Byte) : Msg :=
  { op := op, cls := 0, src := 0, dst := 0, shub := 0, cred := cred, epoch := 0, psn := 0, fseq := 0, addr := addr, key := key,
    jepoch := jepoch, tag := tag, opa := opa, opb := opb, data := data }

/-- The hub on the side of a die (R13). -/
def dieHub (d : Nat) : Nat := d % 2
/-- The job epoch of a tag (R312). -/
def jobEpoch (s : State) (tag : BitVec 12) : BitVec 16 := (getJob s tag).jepoch

end Sys2Proof.Machine
end

