-- ==== Sys2Proof/Machine/Pour.lean ====
section
/-! DEFINITION. Pour (R240 to R255): pour queues and their requests, assignment of tokens to experts, groups, the token list, returns and
combine, the backward pass, failures, with the meanings of the commands that act on them. -/

namespace Sys2Proof.Machine

/-- `EXPERT_MAP_INVALID`. -/
def expertMapInvalid : Nat := 0x4005
/-- `POUR_TIMEOUT`. -/
def pourTimeoutCode : Nat := 0x400B
/-- `POUR_LIST_STALE`. -/
def pourListStale : Nat := 0x400C

/-- Pour queue q of a hub. -/
def getPq (s : State) (h q : Nat) : PourQ := tblGet PourQ.reset s.pour (64 * h + q)
/-- Replaces a pour queue. -/
def putPq (s : State) (h q : Nat) (v : PourQ) : State := { s with pour := tblSet PourQ.reset s.pour (64 * h + q) v }
/-- The tag of a pour queue. -/
def pqTag (p : PourQ) : BitVec 12 := BitVec.ofNat 12 (wfld p.cfg 51 40)
/-- The cluster of a pour queue. -/
def pqClu (p : PourQ) : Nat := 16 * wfld p.cfg 39 38 + wfld p.cfg 37 34

/-! ### The expert map (R240 to R242) -/

/-- The bytes of a pour queue's map. -/
def pqMap (s : State) (p : PourQ) : List Byte := tblGet [] (getJob s (pqTag p)).maps (wfld p.cfg 33 26)
/-- A field of n bytes at an offset of a record. -/
def recF (b : List Byte) (off n : Nat) : Nat := leNat ((b.drop off).take n)
/-- NEXPERT. -/
def mapN (m : List Byte) : Nat := recF m 0 2
/-- CAP. -/
def mapCap (m : List Byte) : Nat := recF m 2 2
/-- STEP_CAP. -/
def mapStepCap (m : List Byte) : Nat := recF m 4 4
/-- POLICY. -/
def mapPolicy (m : List Byte) : Nat := recF m 8 1
/-- ROW_TYPE. -/
def mapType (m : List Byte) : Nat := recF m 9 1
/-- Bytes of a token row. -/
def mapRow (m : List Byte) : Nat := 64 * recF m 10 2
/-- Elements of a token row. -/
def mapElems (m : List Byte) : Nat := mapRow m * 8 / tyBits (mapType m)
/-- Entry e of a map. -/
def mapEntry (m : List Byte) (e : Nat) : BitVec 64 := BitVec.ofNat 64 (recF m (64 + 8 * e) 8)
/-- The destination queue of an entry: (DEV, DIE, CLUSTER, RQ) as one number. -/
def destOf (e : BitVec 64) : Nat := wfld e 63 38
/-- The experts of a map that exist. -/
def mapValid (m : List Byte) : List Nat := (List.range (mapN m)).filter (fun e => wbit (mapEntry m e) 0)
/-- Inserts into a rising list without repeats. -/
def insNat (k : Nat) : List Nat → List Nat
  | [] => [k]
  | j :: r => if k < j then k :: j :: r else if k = j then j :: r else j :: insNat k r
/-- The destination queues of a map, in increasing order. -/
def mapDests (m : List Byte) : List Nat := (mapValid m).foldl (fun l e => insNat (destOf (mapEntry m e)) l) []
/-- The experts of a destination queue, by increasing SLOT (one section each). -/
def mapSections (m : List Byte) (d : Nat) : List Nat :=
  let slots := ((mapValid m).filter (fun e => destOf (mapEntry m e) == d)).foldl
    (fun l e => insNat (wfld (mapEntry m e) 37 24 * 65536 + e) l) []
  slots.map (· % 65536)
/-- The group size of a destination queue (R242). -/
def groupBytes (m : List Byte) (d : Nat) : Nat := 64 + (mapSections m d).length * mapCap m * (64 + mapRow m)

/-! ### Request records (R244) -/

/-- A carafe row field of a record. -/
def rowF (b : List Byte) (off : Nat) : Nat := recF b off 4
/-- Whether an array of n bytes from a carafe row lies in the carafe. -/
def arrayOk (row n : Nat) : Bool := decide (row < 2 ^ 18) && decide (128 * row + n ≤ 0x180_0000)
/-- Whether a byte is a carafe window number. -/
def winOk (b : List Byte) (off : Nat) : Bool := decide (recF b off 1 < 64)

/-- The checks of R244 on a record, for a map. -/
def pourRecOk (b m : List Byte) : Bool :=
  let op := recF b 0 1
  let k := recF b 1 1
  let kreq := recF b 2 1
  let n := recF b 4 4
  let reserved := recF b 3 1 == 0 && recF b 14 2 == 0 && recF b 47 1 == 0 && recF b 52 8 == 0 && recF b 60 4 == 0
  let ranks := decide (1 ≤ k) && decide (k ≤ 8) && decide (1 ≤ n) && decide (n ≤ 65536)
  let done := winOk b 46 && arrayOk (rowF b 48) 64
  reserved && done && (
    if op = 1 then ranks && decide (k ≤ kreq) && decide (kreq ≤ 8) && arrayOk (rowF b 16) (4 * n * kreq) && arrayOk (rowF b 20) (4 * n * kreq)
      && arrayOk (rowF b 24) (n * mapRow m) && arrayOk (rowF b 28) (64 + 16 * n * k) && arrayOk (rowF b 32) (n * k * mapRow m)
      && arrayOk (rowF b 40) (4 * n * mapElems m) && winOk b 44 && winOk b 45
    else if op = 2 then ranks && arrayOk (rowF b 24) (4 * n * mapElems m) && arrayOk (rowF b 28) (64 + 16 * n * k)
      && arrayOk (rowF b 32) (n * k * mapRow m) && arrayOk (rowF b 36) (4 * n * k) && arrayOk (rowF b 40) (4 * n * mapElems m)
      && winOk b 44 && winOk b 45
    else decide (op = 3) && decide (rowF b 24 < 2 ^ 18) && decide (rowF b 40 < 2 ^ 18))

/-! ### Reads and writes in the cluster's carafe -/

/-- Bytes of the queue's carafe from a row and an offset. -/
def pqRead (s : State) (c row off n : Nat) : List Byte := storeRead s (.car c) (128 * row + off) n
/-- Whether the banks of a span of the carafe are ON (R169). -/
def pqOn (s : State) (c row n : Nat) : Bool := rowsOn s (.car c) row (ceilDiv n 128)
/-- A write through carafe window w of the cluster, with KEY and EPOCH as at the start of the request (R243): 0 or the refusal. -/
def pqWrite (h q w row off : Nat) (ke : BitVec 24 × BitVec 16) (l : List Byte) (s : State) : Nat × State :=
  let p := getPq s h q
  let c := pqClu p
  let a := 128 * row + off
  if a < winBase s (.car c) w then (spWindow, bump s (refuseCtr (.car c)))
  else windowMessage (.pour h q) (.car c) w .fabric (pqTag p) ke.2 ke.1 (a - winBase s (.car c) w) l s
/-- A write to the cluster's carafe outside any window; a bank that is not ON refuses it (R169). -/
def pqPlain (h q row : Nat) (l : List Byte) (s : State) : Nat × State :=
  let c := pqClu (getPq s h q)
  if pqOn s c row l.length then (0, plainMessage (.pour h q) (.car c) (128 * row) l s) else (0x2001, s)
/-- KEY and EPOCH of a carafe window. -/
def winKe (s : State) (c w : Nat) : BitVec 24 × BitVec 16 :=
  (BitVec.ofNat 24 (wfld (winCtrl s (.car c) w) 23 0), BitVec.ofNat 16 (wfld (winCtrl s (.car c) w) 39 24))

/-! ### The end of a request (R244, R251, R253) -/

/-- The outcome codes of a token-list entry (R248): 0 NONE, 1 SENT, 2 SUB, 3 WAITED, 4 DROPPED. -/
def delivered (e : Nat × Nat × Nat × BitVec 32 × BitVec 64) : Bool := e.2.1 == 1 || e.2.1 == 2 || e.2.1 == 3
/-- How many entries have an outcome. -/
def outcomeCount (r : PourReq) (o : Nat) : Nat := (r.entries.filter (fun e => e.2.1 == o)).length

/-- The status record (R244). -/
def statusRec (r : PourReq) (code : Nat) : List Byte :=
  let l := leBytes 4 r.number.toNat ++ leBytes 2 r.op ++ leBytes 2 code ++ leBytes 4 (outcomeCount r 1) ++ leBytes 4 (outcomeCount r 2)
    ++ leBytes 4 (outcomeCount r 3) ++ leBytes 4 (outcomeCount r 4)
  l ++ List.replicate (64 - l.length) 0

/-- The counters of the pour page: completed requests at 0x800. -/
def pourCtr (h i : Nat) : Nat := pourPage h + 0x800 + 8 * i

/-- The status record of a request that is over leaves once every row that the request wrote has landed (R244), so that a gate on its
counter covers them all. -/
def pourStatus (h q : Nat) (s : State) : State :=
  let p := getPq s h q
  match p.ending with
  | none => s
  | some (r, code) =>
    if rowsWaitFrom s (.pour h q) then s
    else
      let s := putPq s h q { p with ending := none }
      let s := (pqWrite h q (recF r.recd 46 1) (rowF r.recd 48) 0 (r.ks.getD 2 (0, 0)) (statusRec r code) s).2
      if code = 0 then bump s (pourCtr h 0) else s

/-- The answers that a request awaits are no longer its own: one that comes after its end is for no request. -/
def pourForget (h q : Nat) (s : State) : State :=
  { s with awaited := s.awaited.map (fun a => if a.owner = .pour h q then { a with owner := .none } else a) }

/-- A request is over (R244, R251); a non-zero code is a failure, which is recorded and vetoes its step (R253). -/
def pourEnd (h q code expert : Nat) (s : State) : State :=
  let p := getPq s h q
  match p.req with
  | none => s
  | some r =>
    let p := { p with req := none, ending := some (r, code) }
    if code = 0 then pourStatus h q (putPq s h q p)
    else
      let flt := if p.fault = 0 then packWord [(48, code), (32, expert % 16384), (0, r.number.toNat)] else p.fault
      let s := pourForget h q (putPq s h q { p with error := true, fault := flt })
      let s := raiseFault (pourPage h) code (some (pqTag p)) s
      pourStatus h q (if r.op = 3 then s else markVeto (pqTag p) r.step s)

/-- Census counts of a row of codes of a type (R230). -/
def rowCounts (ty : Nat) (l : List Byte) : CensusCounts :=
  let w := tyBits ty / 8
  (chunksOf (max w 1) l.length l).foldl (fun a c => addCounts a (moveCounts ty (leNat c) 0)) CensusCounts.zero
/-- The element values of a row of a type, exactly. -/
def rowVals (ty : Nat) (l : List Byte) : List Fp := (chunksOf (max (tyBits ty / 8) 1) l.length l).map (fun c => decodeTy false ty (leNat c))
/-- The bytes of FP32 values. -/
def fp32Bytes (l : List (BitVec 32)) : List Byte := l.flatMap (fun x => leBytes 4 x.toNat)

/-- One combine row of a FWD request (R251) or one input-gradient row of a BWD request (R252). -/
def combineRow (s : State) (m : List Byte) (c t : Nat) (r : PourReq) : List (BitVec 32) :=
  let ret := rowF r.recd 32
  let rows := (List.range r.k).filterMap (fun i =>
    let e := r.entries.getD (t * r.k + i) (0, 0, 0, 0, 0)
    if delivered e then some (e.2.2.2.1, rowVals (mapType m) (pqRead s c ret ((t * r.k + i) * mapRow m) (mapRow m))) else none)
  (List.range (mapElems m)).map (fun j => rows.foldl (fun acc x =>
    let v := x.2.getD j (.fin false 0 0)
    rne32 false (sumFp [val32 acc, if r.op = 1 then mulFp (val32 x.1) v else v])) 0)

/-- When every expected row is back: the combine rows, then the status record. -/
def pourCombine (h q : Nat) (s : State) : State :=
  let p := getPq s h q
  match p.req with
  | none => s
  | some r =>
    let want := (r.entries.filter delivered).length
    if ¬ r.groupsLeft.isEmpty ∨ r.back.length < want then s
    else
      let m := pqMap s p
      let c := pqClu p
      let rows := (List.range r.tokens).map (fun t => fp32Bytes (combineRow s m c t r))
      let w := pqWrite h q (recF r.recd 44 1) (rowF r.recd 40) 0 (r.ks.getD 0 (0, 0)) rows.flatten s
      if w.1 ≠ 0 then pourEnd h q w.1 0 w.2
      else
        let n := rows.foldl (fun a l => addCounts a (rowCounts 0 l)) CensusCounts.zero
        pourEnd h q 0 0 (censusSend (some (pqTag p)) (BitVec.ofNat 12 (recF m 16 2 % 4096)) n w.2)

/-! ### Groups (R246, R247) -/

/-- The entries of a request with their tokens and ranks in the order of their taking: rank by rank, token by token. -/
def takenOrder (r : PourReq) : List (Nat × Nat × (Nat × Nat × Nat × BitVec 32 × BitVec 64)) :=
  (List.range r.k).flatMap (fun i => (List.range r.tokens).map (fun t => (t, i, r.entries.getD (t * r.k + i) (0, 0, 0, 0, 0))))
/-- Whether an entry is sent in a pass. -/
def inPass (pass : Nat) (e : Nat × Nat × Nat × BitVec 32 × BitVec 64) : Bool :=
  if pass = 1 then e.2.1 == 1 || e.2.1 == 2 else e.2.1 == 3

/-- The weighted output gradient of token t, narrowed to ROW_TYPE (R252). -/
def gradConvs (s : State) (m : List Byte) (c t : Nat) (w : BitVec 32) (r : PourReq) : List Conv :=
  let g := rowVals 0 (pqRead s c (rowF r.recd 24) (4 * t * mapElems m) (4 * mapElems m))
  g.map (fun x => convTy false (mapType m) false .rne (val32 (rne32 false (mulFp (val32 w) x))))
/-- The row that record (t, i) carries: the token's row, or its weighted output gradient (R252). -/
def sendRow (s : State) (m : List Byte) (c t : Nat) (w : BitVec 32) (r : PourReq) : List Byte :=
  if r.op = 1 then pqRead s c (rowF r.recd 24) (t * mapRow m) (mapRow m)
  else (gradConvs s m c t w r).flatMap (fun x => leBytes (tyBits (mapType m) / 8) x.code)
/-- What the census counts of such a row: the codes of a token's row, the conversions of a gradient's (R77, R230). -/
def sendCounts (s : State) (m : List Byte) (c t : Nat) (w : BitVec 32) (r : PourReq) : CensusCounts :=
  if r.op = 1 then rowCounts (mapType m) (sendRow s m c t w r)
  else (gradConvs s m c t w r).foldl (fun a x => addCounts a (convCounts x (isZero (decodeTy false (mapType m) x.code)))) CensusCounts.zero

/-- SRC_PQ of a pour queue. -/
def srcPq (h q : Nat) : Nat := q + 64 * h

/-- One record of a group. -/
def groupRecord (s : State) (m : List Byte) (h q pass : Nat) (r : PourReq) (x : Nat × Nat × (Nat × Nat × Nat × BitVec 32 × BitVec 64)) :
    List Byte :=
  let e := x.2.2
  let hd := leBytes 2 (wfld e.2.2.2.2 37 24) ++ leBytes 1 x.2.1 ++ leBytes 1 (1 + 2 * (pass - 1)) ++ leBytes 4 x.1 ++ leBytes 2 (ownAddr s)
    ++ leBytes 2 (srcPq h q) ++ leBytes 4 r.number.toNat
  hd ++ List.replicate (64 - hd.length) 0 ++ sendRow s m (pqClu (getPq s h q)) x.1 e.2.2.2.1 r

/-- The entries that a group carries, in order. -/
def groupMine (d pass : Nat) (r : PourReq) : List (Nat × Nat × (Nat × Nat × Nat × BitVec 32 × BitVec 64)) :=
  (takenOrder r).filter (fun x => inPass pass x.2.2 && destOf x.2.2.2.2.2.2 == d)
/-- The records of a group, by section. -/
def groupSections (s : State) (m : List Byte) (h q d pass : Nat) (r : PourReq) : List (List (List Byte)) :=
  (mapSections m d).map (fun e => ((groupMine d pass r).filter (fun x => x.2.2.1 == e)).map (groupRecord s m h q pass r))
/-- What the census counts of a group's records. -/
def groupCounts (s : State) (m : List Byte) (h q d pass : Nat) (r : PourReq) : CensusCounts :=
  ((groupMine d pass r).filter (fun x => (mapSections m d).contains x.2.2.1)).foldl (fun a x =>
    addCounts a (sendCounts s m (pqClu (getPq s h q)) x.1 x.2.2.2.2.2.1 r)) CensusCounts.zero

/-- The bytes of a group (R246). -/
def groupData (s : State) (m : List Byte) (h q d pass : Nat) (r : PourReq) : List Byte :=
  let secs := groupSections s m h q d pass r
  let hd := leBytes 2 (ownAddr s) ++ leBytes 1 (srcPq h q) ++ leBytes 1 r.op ++ leBytes 4 r.number.toNat ++ leBytes 6 r.step.toNat
    ++ leBytes 2 pass ++ leBytes 2 secs.length ++ leBytes 2 (mapCap m) ++ leBytes 2 (mapRow m / 64) ++ leBytes 2 (secs.flatten.length)
  hd ++ List.replicate (64 - hd.length) 0 ++ secs.flatMap (fun l =>
    l.flatten ++ List.replicate ((mapCap m - l.length) * (64 + mapRow m)) 0)

/-- The address word of a destination queue: its device and the SEND form of R291. -/
def destAddr (d : Nat) : Nat × BitVec 64 :=
  (d / 1024, BitVec.ofNat 64 (3 * 2 ^ 60 + fld d 9 8 * 2 ^ 46 + fld d 7 4 * 2 ^ 42 + fld d 3 0 * 2 ^ 31))
/-- Whether a destination queue takes credited SENDs. -/
def destCred (m : List Byte) (d : Nat) : Bool := (mapSections m d).any (fun e => wbit (mapEntry m e) 3)

/-- Sends the group at the front of the list. -/
def groupSend (h q d pass : Nat) (s : State) : State :=
  let p := getPq s h q
  match p.req with
  | none => s
  | some r =>
    let m := pqMap s p
    let a := destAddr d
    let data := groupData s m h q d pass r
    let msg := reqMsg 2 a.2 0 (jobEpoch s (pqTag p)) (pqTag p) (destCred m d) 0 0 data
    let n := groupCounts s m h q d pass r
    let r := { r with groupsLeft := r.groupsLeft.filter (· != (d, pass)), claiming := false, firstSend := some (r.firstSend.getD s.cycle) }
    let s := censusSend (some (pqTag p)) (BitVec.ofNat 12 (recF m 16 2 % 4096)) n (putPq s h q { p with req := some r })
    if isOwn s a.1 then
      -- over the bridges (R19): one that is down fails it at its source (R407)
      let w := performAt (.pour h q) none msg s
      if w.code = bridgeFailCode then pourEnd h q bridgeFailCode 0 w.st else w.st
    else (sendSeq h a.1 0 msg (.pour h q) s).2

/-- Whether every pass-1 record of a destination queue is back (R247). -/
def passOneBack (r : PourReq) (d : Nat) : Bool :=
  r.entries.zipIdx.all (fun x => !(inPass 1 x.1 && destOf x.1.2.2.2.2 == d) || r.back.contains x.2)
/-- The group to send next. -/
def groupNext (r : PourReq) : Option (Nat × Nat) := r.groupsLeft.find? (fun g => g.2 == 1 || passOneBack r g.1)

/-- Claims the units of a credited group (R176, R247): sends it where the claim succeeds at once, else waits. -/
def groupClaim (h q d pass : Nat) (s : State) : State :=
  let p := getPq s h q
  match p.req with
  | none => s
  | some r =>
    let m := pqMap s p
    let u := ceilDiv (groupBytes m d) 256
    let a := destAddr d
    let r := { r with claiming := true, groupsLeft := (d, pass) :: r.groupsLeft.filter (· != (d, pass)), firstSend := some (r.firstSend.getD s.cycle) }
    let s := putPq s h q { p with req := some r }
    if isOwn s a.1 then
      if cutOff s (4 + h) (addrClu a.2 / 16) then pourEnd h q bridgeFailCode 0 s else
      let c := rqClaim (addrClu a.2) (wfld a.2 34 31) u s
      if u ≤ c.1 then groupSend h q d pass c.2 else c.2
    else
      let addr := a.2 ||| BitVec.ofNat 64 (17 * 2 ^ 37)
      (sendSeq h a.1 0 (reqMsg 4 addr 0 (jobEpoch s (pqTag p)) (pqTag p) false (0 - BitVec.ofNat 64 u) 0 []) (.pour h q) s).2

/-- The request goes on as far as it can: groups leave in order until a claim has to wait; then the combine. -/
def pourAdvance (h q : Nat) : Nat → State → State
  | 0, s => pourCombine h q s
  | n + 1, s =>
    let p := getPq s h q
    match p.req with
    | none => s
    | some r =>
      if r.claiming then s
      else match groupNext r with
        | none => pourCombine h q s
        | some g =>
          if destCred (pqMap s p) g.1 then pourAdvance h q n (groupClaim h q g.1 g.2 s)
          else pourAdvance h q n (groupSend h q g.1 g.2 s)

/-- Groups that a queue's request can still send. -/
def pourFuel (s : State) (h q : Nat) : Nat := match (getPq s h q).req with
  | some r => r.groupsLeft.length
  | none => 0

/-- The answer to a claim of the request (R176, R247): AVAIL from before it. -/
def pourClaimed (h q : Nat) (avail : Nat) (s : State) : State :=
  let p := getPq s h q
  match p.req with
  | none => s
  | some r =>
    match r.claiming, r.groupsLeft with
    | true, g :: _ =>
      if ceilDiv (groupBytes (pqMap s p) g.1) 256 ≤ avail then
        let s := groupSend h q g.1 g.2 s
        pourAdvance h q (pourFuel s h q) s
      else s
    | _, _ => s

/-- A failed claim is tried again (R247), unless its answer is still awaited. -/
def pourRetry (h q : Nat) (s : State) : State :=
  match (getPq s h q).req with
  | none => s
  | some r =>
    match r.claiming, r.groupsLeft with
    | true, g :: _ =>
      if s.awaited.any (fun a => a.owner == .pour h q && a.op == 4) then s
      else
        let s := groupClaim h q g.1 g.2 s
        pourAdvance h q (pourFuel s h q) s
    | _, _ => s

/-! ### Assignment (R245) -/

/-- The counters of an assignment: cnt, cnt2 and scnt per expert. -/
structure Assign where
  cnt  : Tbl Nat
  cnt2 : Tbl Nat
  scnt : Tbl Nat
  out  : Tbl (Nat × Nat × Nat × BitVec 32 × BitVec 64)

/-- Whether a count of expert e and its step count leave room. -/
def roomIn (m : List Byte) (a : Assign) (c : Tbl Nat) (e : Nat) : Bool :=
  decide (tblGet 0 c e < mapCap m) && (mapStepCap m == 0 || decide (tblGet 0 a.scnt e < mapStepCap m))
/-- Takes a record for expert e in pass 1. -/
def takeOne (a : Assign) (e : Nat) : Assign :=
  { a with cnt := tblSet 0 a.cnt e (tblGet 0 a.cnt e + 1), scnt := tblSet 0 a.scnt e (tblGet 0 a.scnt e + 1) }
/-- Takes a record for expert e in pass 2. -/
def takeTwo (a : Assign) (e : Nat) : Assign :=
  { a with cnt2 := tblSet 0 a.cnt2 e (tblGet 0 a.cnt2 e + 1), scnt := tblSet 0 a.scnt e (tblGet 0 a.scnt e + 1) }

/-- The empty top-k slot. -/
def noExpert : Nat := 0xFFFF_FFFF

/-- Rank r of token t: the decision of R245. -/
def assignOne (m : List Byte) (k kreq : Nat) (idx : Nat → Nat → Nat) (wgt : Nat → Nat → BitVec 32) (r t : Nat) (a : Assign) : Assign :=
  let note := fun (a : Assign) (o e c : Nat) =>
    let keep := o != 0 && o != 4
    { a with out := tblIns a.out (t * k + r) (e, o, c, if keep then wgt t c else 0, if o = 0 then 0 else mapEntry m e) }
  let e := idx t r
  if e = noExpert then note a 0 e r
  else if roomIn m a a.cnt e then note (takeOne a e) 1 e r
  else
    let orig := (List.range k).map (idx t)
    let assigned := fun (x : Nat) => (List.range k).any (fun i => match tblFind a.out (t * k + i) with
      | some y => delivered y && y.1 == x
      | none => false)
    let spare := if mapPolicy m = 1 then ((List.range kreq).drop k).find? (fun c =>
      let e2 := idx t c
      e2 != noExpert && !orig.contains e2 && !assigned e2 && roomIn m a a.cnt e2) else none
    match spare with
    | some c => note (takeOne a (idx t c)) 2 (idx t c) c
    | none => if mapPolicy m = 2 ∧ roomIn m a a.cnt2 e then note (takeTwo a e) 3 e r else note a 4 e r

/-- The whole assignment: rank 0 of every token, then rank 1, and so on. -/
def assignAll (m : List Byte) (n k kreq : Nat) (idx : Nat → Nat → Nat) (wgt : Nat → Nat → BitVec 32) (scnt : Tbl Nat) : Assign :=
  forAll ((List.range k).flatMap (fun r => (List.range n).map (fun t => (r, t)))) ⟨[], [], scnt, []⟩
    (fun x a => assignOne m k kreq idx wgt x.1 x.2 a)

/-! ### Starts of requests -/

/-- The bytes of one token-list entry (R248). -/
def listEntry (e : Nat × Nat × Nat × BitVec 32 × BitVec 64) : List Byte :=
  leBytes 2 (e.1 % 16384) ++ leBytes 2 (e.2.1 + 16 * e.2.2.1) ++ leBytes 4 e.2.2.2.1.toNat ++ leBytes 8 e.2.2.2.2.toNat
/-- The token list. -/
def tokenList (r : PourReq) (map : Nat) : List Byte :=
  let es := r.entries.flatMap listEntry
  let hd := leBytes 4 r.number.toNat ++ leBytes 6 r.step.toNat ++ leBytes 1 r.k ++ leBytes 1 map ++ leBytes 4 r.tokens ++ leBytes 4 (crc32 es)
  hd ++ List.replicate (64 - hd.length) 0 ++ es
/-- One entry of a token list as read back. -/
def parseEntry (b : List Byte) : Nat × Nat × Nat × BitVec 32 × BitVec 64 :=
  (recF b 0 2 % 16384, recF b 2 1 % 8, recF b 2 1 / 16 % 8, BitVec.ofNat 32 (recF b 4 4), BitVec.ofNat 64 (recF b 8 8))

/-- The next posted row becomes the running request; its number is the queue's count of requests (DESIGN CHOICE, log 22). -/
def pourTake (h q : Nat) (b : List Byte) (s : State) : State :=
  let p := getPq s h q
  let c := pqClu p
  let op := recF b 0 1
  let step : BitVec 48 := if op = 3 then p.step else BitVec.ofNat 48 (recF b 8 6)
  let r : PourReq := { op := op, number := p.number, k := recF b 1 1, kreq := recF b 2 1, tokens := recF b 4 4, step := step, recd := b,
                       entries := [], back := [], groupsLeft := [], claiming := false, firstSend := none,
                       ks := [winKe s c (recF b 44 1), winKe s c (recF b 45 1), winKe s c (recF b 46 1)] }
  putPq s h q { p with fifo := p.fifo.drop 1, req := some r, number := p.number + 1, step := step,
                       scnt := if step = p.step then p.scnt else [] }

/-- Sets the running request. -/
def setReq (h q : Nat) (r : PourReq) (s : State) : State := putPq s h q { getPq s h q with req := some r }

/-- The groups of a request, in order: every destination queue, twice under WAIT. -/
def allGroups (m : List Byte) : List (Nat × Nat) :=
  (mapDests m).map (fun d => (d, 1)) ++ (if mapPolicy m = 2 then (mapDests m).map (fun d => (d, 2)) else [])

/-- FWD after its checks of R244 (R245 to R248). -/
def pourForward (h q : Nat) (r : PourReq) (m : List Byte) (s : State) : State :=
  let p := getPq s h q
  let c := pqClu p
  let idxB := pqRead s c (rowF r.recd 16) 0 (4 * r.tokens * r.kreq)
  let wgtB := pqRead s c (rowF r.recd 20) 0 (4 * r.tokens * r.kreq)
  let idx := fun (t j : Nat) => recF idxB (4 * (t * r.kreq + j)) 4
  let wgt := fun (t j : Nat) => BitVec.ofNat 32 (recF wgtB (4 * (t * r.kreq + j)) 4)
  let bad := ((List.range (r.tokens * r.kreq)).map (fun i => recF idxB (4 * i) 4)).find? (fun e =>
    e != noExpert && (decide (mapN m ≤ e) || !wbit (mapEntry m e) 0))
  if ¬ (pqOn s c (rowF r.recd 16) idxB.length && pqOn s c (rowF r.recd 20) wgtB.length
      && pqOn s c (rowF r.recd 24) (r.tokens * mapRow m)) then pourEnd h q 0x2001 0 s
  else match bad with
  | some e => pourEnd h q expertMapInvalid e s
  | none =>
    let a := assignAll m r.tokens r.k r.kreq idx wgt p.scnt
    let r := { r with entries := (List.range (r.tokens * r.k)).map (fun i => tblGet (0, 0, 0, 0, 0) a.out i), groupsLeft := allGroups m }
    let s := putPq s h q { p with req := some r, scnt := a.scnt }
    let s := forAll [1, 2, 3, 4] s (fun o s => addCtr s (pourCtr h o) (outcomeCount r o))
    let w := pqPlain h q (rowF r.recd 28) (tokenList r (wfld p.cfg 33 26)) s
    if w.1 ≠ 0 then pourEnd h q w.1 0 w.2 else pourAdvance h q r.groupsLeft.length w.2

/-- Whether a token list matches a BWD request (R252). -/
def listMatches (l : List Byte) (r : PourReq) (map : Nat) : Bool :=
  recF l 10 1 == r.k && recF l 11 1 == map && recF l 12 4 == r.tokens && recF l 16 4 == crc32 (l.drop 64)

/-- The weight gradient of rank i of token t (R252), in the order of R151. Each product and its addition round once, as one fused operation.
DESIGN CHOICE: log 160. -/
def weightGrad (s : State) (m : List Byte) (c t i : Nat) (r : PourReq) : BitVec 32 :=
  let e := r.entries.getD (t * r.k + i) (0, 0, 0, 0, 0)
  if ¬ delivered e then 0
  else
    let g := rowVals 0 (pqRead s c (rowF r.recd 24) (4 * t * mapElems m) (4 * mapElems m))
    let v := rowVals (mapType m) (pqRead s c (rowF r.recd 32) ((t * r.k + i) * mapRow m) (mapRow m))
    (sumSet false (laneAdd false) ((g.zip v).map (fun x => some (mulFp x.1 x.2)))).1

/-- BWD after its checks of R244 (R252). -/
def pourBackward (h q : Nat) (r : PourReq) (m : List Byte) (s : State) : State :=
  let p := getPq s h q
  let c := pqClu p
  let l := pqRead s c (rowF r.recd 28) 0 (64 + 16 * r.tokens * r.k)
  if ¬ (pqOn s c (rowF r.recd 28) l.length && pqOn s c (rowF r.recd 24) (4 * r.tokens * mapElems m)
      && pqOn s c (rowF r.recd 32) (r.tokens * r.k * mapRow m)) then pourEnd h q 0x2001 0 s
  else if ¬ listMatches l r (wfld p.cfg 33 26) then pourEnd h q pourListStale 0 s
  else
    let r := { r with entries := (chunksOf 16 (r.tokens * r.k) (l.drop 64)).map parseEntry, groupsLeft := allGroups m }
    let gw := (List.range (r.tokens * r.k)).map (fun i => weightGrad s m c (i / r.k) (i % r.k) r)
    let w := pqPlain h q (rowF r.recd 36) (fp32Bytes gw) (setReq h q r s)
    if w.1 ≠ 0 then pourEnd h q w.1 0 w.2 else pourAdvance h q r.groupsLeft.length w.2

/-! ### Returns (R249, R250) -/

/-- A returned row reaches its pour queue (R250): placed through RET_WIN, or stray. The answer to its SEND. -/
def pourAccept (h q : Nat) (tag : BitVec 12) (d : List Byte) (s : State) : Nat × State :=
  let p := getPq s h q
  let stray := (0, bump s (pourCtr h 5))
  match p.req with
  | none => stray
  | some r =>
    let m := pqMap s p
    let i := recF d 4 4 * r.k + recF d 2 1 % 8
    let e := r.entries.getD i (0, 0, 0, 0, 0)
    if r.op = 3 ∨ pqTag p ≠ tag ∨ recF d 12 4 ≠ r.number.toNat ∨ r.tokens ≤ recF d 4 4 ∨ r.k ≤ recF d 2 1 % 8 ∨ ¬ delivered e
      ∨ r.back.contains i then stray
    else
      let w := pqWrite h q (recF r.recd 45 1) (rowF r.recd 32) (i * mapRow m) (r.ks.getD 1 (0, 0)) ((d.drop 64).take (mapRow m)) s
      if w.1 ≠ 0 then w
      else
        let s := setReq h q { r with back := i :: r.back } w.2
        (0, pourAdvance h q (pourFuel s h q) s)

/-- The address word of a pour queue (R313). -/
def pqAddr (h q : Nat) : BitVec 64 := BitVec.ofNat 64 (3 * 2 ^ 60 + h * 2 ^ 46 + 18 * 2 ^ 37 + q * 2 ^ 31)

/-- RETURN after its checks of R244 (R249): each valid record goes back as one SEND, in slot order. -/
def pourBack (h q : Nat) (r : PourReq) (m : List Byte) (s : State) : State :=
  let p := getPq s h q
  let c := pqClu p
  let g := pqRead s c (rowF r.recd 24) 0 64
  let size := 64 + 64 * recF g 20 2
  let n := recF g 16 2 * recF g 18 2
  if 0x180_0000 < 128 * rowF r.recd 24 + 64 + n * size ∨ 0x180_0000 < 128 * rowF r.recd 40 + 64 + n * size then pourEnd h q descMalformed 0 s
  else if ¬ (pqOn s c (rowF r.recd 24) (64 + n * size) && pqOn s c (rowF r.recd 40) (64 + n * size)) then pourEnd h q 0x2001 0 s
  else
    let s := forAll (List.range n) s (fun i s =>
      let hd := pqRead s c (rowF r.recd 24) (64 + i * size) 64
      if ¬ bit (recF hd 3 1) 0 ∨ (getPq s h q).req.isNone then s
      else
        let d := hd ++ pqRead s c (rowF r.recd 40) (64 + i * size + 64) (size - 64)
        let dev := recF hd 8 2
        let hub := recF hd 10 1 / 64 % 2
        let a := pqAddr hub (recF hd 10 1 % 64)
        -- the row is pour traffic (R222), counted as it is sent (R230)
        let s := censusSend (some (pqTag p)) (BitVec.ofNat 12 (recF m 16 2 % 4096)) (rowCounts (mapType m) (d.drop 64)) s
        if isOwn s dev then
          (if cutOff s (4 + h) (4 + hub) then pourEnd h q bridgeFailCode 0 s
           else (pourAccept hub (recF hd 10 1 % 64) (pqTag p) d s).2)
        else (sendSeq h dev 0 (reqMsg 2 a 0 (jobEpoch s (pqTag p)) (pqTag p) false 0 0 d) .none s).2)
    pourEnd h q 0 0 s

/-! ### Commands -/

/-- A post to a pour queue (R243). -/
def pourPost (h q : Nat) (row : BitVec 18) (s : State) : State :=
  let p := getPq s h q
  if 8 ≤ p.fifo.length ∨ ¬ wbit p.cfg 63 ∨ p.error then bump s (pourCtr h 6)
  else putPq s h q { p with fifo := p.fifo ++ [row] }

/-- Whether a queue's job runs. -/
def pqRuns (s : State) (p : PourQ) : Bool := (getJob s (pqTag p)).inUse

/-- A queue starts its next posted request where its record carries operation `op`; a record with a reserved OP is refused by whichever
start meets it. -/
def pourStart (op h q : Nat) (s : State) : State :=
  let p := getPq s h q
  match p.fifo with
  | [] => s
  | row :: _ =>
    if p.req.isSome ∨ p.ending.isSome ∨ p.error ∨ ¬ wbit p.cfg 63 ∨ ¬ pqRuns s p ∨ ¬ blkEn s (pourPage h) then s
    else
      let c := pqClu p
      let on := pqOn s c row.toNat 64
      let b := if on then pqRead s c row.toNat 0 64 else List.replicate 64 0
      let o := recF b 0 1
      if o ≠ op ∧ 1 ≤ o ∧ o ≤ 3 then s
      else
        let m := pqMap s p
        let s := pourTake h q b s
        match (getPq s h q).req with
        | none => s
        | some r =>
          if ¬ on then pourEnd h q 0x2001 0 s
          else if ¬ pourRecOk b m then pourEnd h q descMalformed 0 s
          else match op with
            | 1 => pourForward h q r m s
            | 2 => pourBackward h q r m s
            | _ => pourBack h q r m s

/-- A request's time is over (R253). -/
def pourTimeout (h q : Nat) (s : State) : State :=
  match (getPq s h q).req with
  | some r => if r.firstSend.isSome then pourEnd h q pourTimeoutCode 0 s else s
  | none => s

/-- RESUME (R255). -/
def pourResume (h q : Nat) (s : State) : State := putPq s h q { getPq s h q with error := false }

/-- A write of `PQ_CFG` (R254): ignored while the queue is busy, where it names a die that the unit does not serve, and where it would bind the
queue to a STAGED tag (R363). -/
def pqCfgWrite (h q : Nat) (v : Word) (s : State) : State :=
  let p := getPq s h q
  let v := v &&& BitVec.ofNat 64 (bits 63 63 + bits 51 26)
  let staged := wbit v 63 && (getJob s (BitVec.ofNat 12 (wfld v 51 40))).st == .staged
  if p.req.isSome ∨ p.ending.isSome ∨ dieHub (wfld v 39 38) ≠ h ∨ staged then bump s (pourCtr h 6) else putPq s h q { p with cfg := v }

/-- A write of `PQ_CMD`. -/
def pqCommand (h q : Nat) (v : Word) (s : State) : State :=
  if wfld v 7 0 = 1 then pourResume h q s else bump s (pourCtr h 6)

/-- `PQ_STATUS` (R255). -/
def pqStatus (p : PourQ) : Word :=
  packWord [(63, b2n (p.req.isSome || p.ending.isSome)), (62, b2n p.error), (58, p.fifo.length), (0, p.step.toNat)]

/-! ### Meanings -/

/-- PQ_DOORBELL (R243). -/
def execPqDoorbell (hub : Nat) (q : BitVec 6) (row : BitVec 18) (s : State) : Result := .next (if hub < 2 then inDomain (4 + hub) s (pourPost hub q.toNat row) else unmapped s)
/-- FWD (R245). -/
def execFwd (hub : Nat) (q : BitVec 6) (s : State) : Result := onHub hub s (pourStart 1 hub q.toNat)
/-- BWD (R252). -/
def execBwd (hub : Nat) (q : BitVec 6) (s : State) : Result := onHub hub s (pourStart 2 hub q.toNat)
/-- RETURN (R249). -/
def execPourReturn (hub : Nat) (q : BitVec 6) (s : State) : Result := onHub hub s (pourStart 3 hub q.toNat)
/-- POUR_CLAIM_RETRY (R247). -/
def execPourClaimRetry (hub : Nat) (q : BitVec 6) (s : State) : Result := onHub hub s (pourRetry hub q.toNat)
/-- POUR_TIMEOUT (R253). -/
def execPourTimeout (hub : Nat) (q : BitVec 6) (s : State) : Result := onHub hub s (pourTimeout hub q.toNat)
/-- RESUME of a pour queue (R255). -/
def execPourResume (hub : Nat) (q : BitVec 6) (s : State) : Result := .next (if hub < 2 then inDomain (4 + hub) s (pourResume hub q.toNat) else unmapped s)

end Sys2Proof.Machine
end

