-- ==== Sys2Proof/Machine/Dma.lean ====
section
/-! DEFINITION. The DMA engines (R288 to R299, R179): rings, descriptors, address words, local and remote places, COPY, CURVE, COMPLETE and
FENCE, completion and failure, with the meanings of the commands that act on them. -/

namespace Sys2Proof.Machine

/-! ### Rings (R288) -/

/-- Descriptors of a ring. -/
def ringSize (cfg : Word) : Nat := 2 ^ (wfld cfg 23 20 + 1)
/-- The job tag of a ring. -/
def ringTag (cfg : Word) : BitVec 12 := BitVec.ofNat 12 (wfld cfg 51 40)
/-- The carafe byte of slot k of a ring. -/
def slotAt (cfg : Word) (k : Nat) : Nat := 128 * (wfld cfg 17 0 + k / 2) + 64 * (k % 2)
/-- The slot of a descriptor count. -/
def descSlot (cfg : Word) (n : BitVec 32) : Nat := n.toNat % ringSize cfg
/-- A descriptor in flight by its count. -/
def findDesc (s : State) (c r : Nat) (n : BitVec 32) : Option Desc := (getRing s c r).flight.find? (fun d => d.count == n)
/-- The 64 bytes of the descriptor with count n: as it started with them, or as its slot holds them. -/
def descBytes (s : State) (c r : Nat) (n : BitVec 32) : List Byte :=
  match findDesc s c r n with
  | some d => d.raw
  | none =>
    let cfg := (getRing s c r).cfg
    storeRead s (.car c) (slotAt cfg (descSlot cfg n)) 64
/-- The job tag of the descriptor with count n: as it started with it, or its ring's. -/
def descTag (s : State) (c r : Nat) (n : BitVec 32) : BitVec 12 :=
  match findDesc s c r n with
  | some d => d.tag
  | none => ringTag (getRing s c r).cfg
/-- The count of the next descriptor to start: those in flight run from CONS. -/
def ringNext (g : Ring) : BitVec 32 := g.cons + BitVec.ofNat 32 g.flight.length
/-- The command counter of a DMA page. -/
def dmaIgnore (c : Nat) (s : State) : State := bump s (dmaBase c + 0x820)

/-- Whether the rows of a configuration may be enabled for ring r (R288). -/
def ringEnableOk (s : State) (c r : Nat) (cfg : Word) : Bool :=
  let lo := 128 * wfld cfg 17 0
  let hi := lo + 64 * ringSize cfg
  decide (hi ≤ 0x180_0000) && !ringOverlaps s c lo hi r
    && (List.range 64).all (fun n => !winOpened s (.car c) n || decide (hi ≤ winBase s (.car c) n) || decide (winLimit s (.car c) n ≤ lo))
    && (List.range 16).all (fun q =>
      let w := reg s (rqAddr c q)
      let qlo := wfld w 16 0 * 256
      !wbit w 63 || wfld w 55 51 != 16 || decide (hi ≤ qlo) || decide (qlo + (wfld w 34 18 + 1) * 256 ≤ lo))
    && cluTag s c == some (ringTag cfg)

/-- A write of `DMA_RING_CFG` (R288). -/
def ringConfig (c r : Nat) (v : Word) (s : State) : State :=
  let g := getRing s c r
  let v := v &&& BitVec.ofNat 64 (bits 63 63 + bits 51 40 + bits 23 20 + bits 17 0)
  if 12 ≤ wfld v 23 20 then dmaIgnore c s
  else if wbit g.cfg 63 then (if wbit v 63 then dmaIgnore c s else putRing s c r { g with cfg := v })
  else if wbit v 63 ∧ ¬ ringEnableOk s c r v then dmaIgnore c s
  else putRing s c r { g with cfg := v }

/-- A doorbell (R289). -/
def ringBell (c r n : Nat) (s : State) : State :=
  let g := getRing s c r
  let prod := g.prod + BitVec.ofNat 32 n
  if ringSize g.cfg < (g.prod - g.cons).toNat + n then dmaIgnore c s else putRing s c r { g with prod := prod }

/-- A write to `DMA_DESC_DATA` (R289); a bank that is not ON refuses it (R169). -/
def descData (c : Nat) (v : Word) (s : State) : State :=
  let a := reg s (dmaBase c + 0x140)
  let g := getRing s c (wfld a 5 0)
  let size := ringSize g.cfg
  let k := wfld a 27 16 % size
  let held := decide ((k + size - descSlot g.cfg g.cons) % size < (g.prod - g.cons).toNat)
  let at_ := slotAt g.cfg k
  if held ∨ 0x180_0000 < at_ + 64 then dmaIgnore c s
  else if ¬ rowsOn s (.car c) (at_ / 128) 1 then raiseClu (dmaBase c) c 0x2001 s
  else
    let s := storeWrite s (.car c) (at_ + 8 * wfld a 10 8) (leBytes 8 v.toNat)
    let word := (wfld a 10 8 + 1) % 8
    let slot := if word = 0 then (k + 1) % size else k
    setReg s (dmaBase c + 0x140) (wput (wput a 10 8 word) 27 16 slot)

/-! ### Completion and failure (R297, R298) -/

/-- The accessor that a descriptor is. -/
def descOwner (c r : Nat) (n : BitVec 32) : TOwner := .ring c r n
/-- Changes a descriptor in flight. -/
def editDesc (c r : Nat) (n : BitVec 32) (f : Desc → Desc) (s : State) : State :=
  match findDesc s c r n with
  | some d => putDesc c r (f d) s
  | none => s
/-- The last byte of a descriptor has been moved: it lands once its rows and its waiting writes have. -/
def descLand (c r : Nat) (n : BitVec 32) (s : State) : State := editDesc c r n (fun d => { d with wait := .landed }) s
/-- A descriptor begins to wait. -/
def descWait (c r : Nat) (n : BitVec 32) (w : DescWait) (s : State) : State :=
  editDesc c r n (fun d => { d with wait := w }) s
/-- Counts the bytes that a descriptor has moved. -/
def descMoved (c r : Nat) (n : BitVec 32) (k : Nat) (s : State) : State := editDesc c r n (fun d => { d with bytes := d.bytes + k }) s

/-- The address word that a descriptor writes to, with its TILE_MASK: DST of COPY and CURVE, LOC of a read walk, TARGET of COMPLETE and
DST of a COLLECTIVE (R292 to R295, R320). -/
def descDest (b : List Byte) : BitVec 64 × Nat :=
  match recF b 0 1 % 16 with
  | 1 => (BitVec.ofNat 64 (recF b 16 8), recF b 32 2)
  | 2 => (if bit (recF b 4 1) 0 then 0 else BitVec.ofNat 64 (recF b 16 8), 0)
  | 3 => (BitVec.ofNat 64 (recF b 16 8), 0)
  | 4 => (BitVec.ofNat 64 (recF b 8 8), 0)
  | 6 => (BitVec.ofNat 64 (recF b 24 8), 0)
  | _ => (0, 0)
/-- The tiles whose context a descriptor loads, with the context (R103, R291). -/
def ctxLoads (c : Nat) (b : List Byte) : List (Nat × Nat) :=
  let w := (descDest b).1
  if wfld w 63 60 = 1 ∧ wfld w 47 44 = 2 then
    let mask := (descDest b).2
    let ts := if mask = 0 then [wfld w 43 40] else (List.range 16).filter (fun t => bit mask t)
    ts.map (fun t => (16 * c + t, wfld w 17 16))
  else []
/-- Sets the state of a context (R103). -/
def setCtxSt (t k : Nat) (v : BitVec 2) (s : State) : State :=
  let x := getTile s t
  putTile s t { x with ctxState := tblSet 0 x.ctxState k v }
/-- A context load that was under way ends (R103): the context is INVALID where the descriptor fails or the switch configuration carries a
reserved encoding (R92), else LOADED. A context rinsed meanwhile stays EMPTY, and one that another load left INVALID stays so. -/
def ctxLoadEnd (c : Nat) (d : Desc) (failed : Bool) (s : State) : State :=
  if ¬ d.loading then s else
  forAll (ctxLoads c d.raw) s (fun p s =>
    let st := ctxSt (getTile s p.1) (BitVec.ofNat 2 p.2)
    if st = 0 ∨ st = 3 then s else setCtxSt p.1 p.2 (if failed || cfgBad s.mem.ctx p.1 p.2 then 3 else 2) s)

/-- Bytes of a descriptor's writes that still wait. -/
def waitingBytes (s : State) (o : TOwner) : Nat := (writesOf s o).foldl (fun a w => a + w.data.length) 0

/-- A descriptor in flight is given up (R298): bytes already landed stay and count, but for a message without its ACK, its waiting writes, holds and claims end, the contexts that it
was loading become INVALID, and its collective ends here. -/
def descAbandon (c r : Nat) (d : Desc) (s : State) : State :=
  let o := descOwner c r d.count
  let s := addCtr s (dmaBase c + 0x808) (if d.wait = .ack then 0 else d.bytes - waitingBytes s o)
  let s := dropWrites o s
  let s := match d.walk with
    | some w =>
      let s := forAll (w.holds.map (·.2)) s giveHold
      -- a failed append clears BUSY: the header stands as it was read (R263)
      if w.append then tensorStore w.hdr w.head s else s
    | none => s
  let s := ctxLoadEnd c d true s
  { s with awaited := s.awaited.map (fun a => if a.owner = .ring c r d.count then { a with owner := .none } else a)
           colls := s.colls.filter (fun k => !(k.cluster == c && k.ring == r && k.count == d.count)) }

/-- A descriptor fails (R298): the ring enters ERROR, and descriptors after it are abandoned. `raised` tells that the fault was raised by
its own mechanism. -/
def descFail (c r : Nat) (n : BitVec 32) (code sub : Nat) (raised : Bool) (s : State) : State :=
  let g := getRing s c r
  if (findDesc s c r n).isNone then s
  else
    let tag := descTag s c r n
    let later := g.flight.filter (fun d => decide ((n - g.cons).toNat ≤ (d.count - g.cons).toNat))
    let s := forAll later s (descAbandon c r)
    let g := getRing s c r
    let err := if g.err = 0 then packWord [(48, code), (40, sub), (0, n.toNat)] else g.err
    let s := putRing s c r { g with flight := g.flight.filter (fun d => decide ((d.count - g.cons).toNat < (n - g.cons).toNat)), error := true, err := err }
    let s := bump s (dmaBase c + 0x818)
    if raised then s else raiseFault (dmaBase c) code (some tag) s

/-- Codes that their mechanism has raised when a tensor access answers them. -/
def selfRaised (code : Nat) : Bool := code == 0x3005 || code == 0x3006 || code == 0x2004

/-- A failure with a code of a tensor or local access (R299). -/
def descFailAccess (c r : Nat) (n : BitVec 32) (code : Nat) (s : State) : State :=
  descFail c r n code (if code = descMalformed then 3 else 0) (selfRaised code) s

/-- Whether the oldest descriptor of a ring can complete: everything landed, and for a FENCE its bits set (R296, R297). -/
def descReady (s : State) (c r : Nat) (d : Desc) : Bool :=
  if d.op = 5 then
    let mask := BitVec.ofNat 64 (recF d.raw 8 8)
    reg (seenState s) (clusterBase c + 0x120) &&& mask == mask
  else d.wait == .landed && (writesOf s (descOwner c r d.count)).isEmpty && !rowsWaitFrom s (.desc c r d.count)

/-- A completion sets the `DMA_DONE` bit of ring r, which a start edge of the same cycle leaves set (R111). -/
def setDmaDone (c r : Nat) (s : State) : State :=
  let s := setBit s (clusterBase c + 0x120) r
  putClu s c { getClu s c with doneNow := (s.cycle, doneSet s c ||| BitVec.ofNat 64 (2 ^ r)) }

/-- Whether the census observes a descriptor (R222): a COPY or CURVE between tensor space and a local store, or one to the fabric. -/
def censused (b : List Byte) : Bool :=
  let sk := fld (recF b 8 8) 63 60
  let dk := fld (recF b 16 8) 63 60
  (recF b 0 1 == 1 || recF b 0 1 == 3) && ((sk == 0 && (dk == 1 || dk == 2)) || (sk == 1 && dk == 0) || (sk != 3 && dk == 3))

/-- The oldest descriptor of a ring completes (R297, R290, R282, R103). -/
def descComplete (c r : Nat) (s : State) : State :=
  let g := getRing s c r
  match g.flight with
  | [] => s
  | d :: rest =>
    if ¬ descReady s c r d then s
    else
      let b := d.raw
      let flags := recF b 1 1
      let s := putRing s c r { g with flight := rest, cons := g.cons + 1 }
      let s := addCtr (bump s (dmaBase c + 0x800)) (dmaBase c + 0x808) d.bytes
      let s := if d.op = 2 then bump s (kvPage + 0x800) else s
      let s := if bit flags 2 then forAll d.wrote s sealWritten else s
      let s := if bit flags 3 ∧ censused b then censusSend (some d.tag) (BitVec.ofNat 12 (recF b 2 2 % 4096)) d.cen s else s
      let s := ctxLoadEnd c d false s
      let s := if bit flags 0 then setDmaDone c r s else s
      if bit flags 1 then baristaIrq c 5 r s else s

/-! ### Requester waits (R166) -/

/-- Whether a requester read of a carafe bank has to wait in the present cycle: for a tile access, a buffered write, or a read that has
had the bank's cycle. -/
def reqBlocked (s : State) (c b : Nat) : Bool :=
  bankBusy s (.car c) b || (bankQueue s (.car c) b).any (·.inBuf) || bankTaken s (.car c) b || (getClu s c).reqUsed.contains (s.cycle, b)
/-- Requester reads use the present cycle of some banks. -/
def reqTake (c : Nat) (l : List Nat) (s : State) : State :=
  let k := getClu s c
  putClu s c { k with reqUsed := k.reqUsed.filter (fun p => p.1 == s.cycle) ++ l.map (fun b => (s.cycle, b)) }
/-- The DMA engine reads carafe rows r to r + n - 1: each whose bank is not free in the present cycle waits and counts it, the others take the
bank's cycle (R166). Longer waits are time, which the model leaves out. DEDUCED: log 137. -/
def carWait (c r n : Nat) (s : State) : State :=
  let bs := (List.range n).map (fun i => storeBank (.car c) (r + i))
  reqTake c (bs.filter (fun b => !reqBlocked s c b)).eraseDups (addCtr s (carafeBase c + 0x820) (bs.filter (reqBlocked s c)).length)

/-! ### Starts (R290, R296, R297) -/

/-- Whether ring r may start its next descriptor, and which: none while its block is disabled or a level-2 halt holds (R354, R426). -/
def ringStarts (s : State) (c r : Nat) : Option (BitVec 32) :=
  let g := getRing s c r
  let tag := ringTag g.cfg
  let j := getJob s tag
  let n := ringNext g
  if ¬ wbit g.cfg 63 ∨ g.error ∨ ¬ j.inUse ∨ j.dmaHeld ∨ ¬ blkEn s (dmaBase c) ∨ 2 ≤ s.rot.level.toNat ∨ cluTag s c ≠ some tag ∨ 4 ≤ g.flight.length ∨ n = g.prod then none
  else if g.flight.any (fun d => d.op == 4 || d.op == 5) then none
  else some n

/-- The common header (R290): 0, or the subcode that fails the descriptor. -/
def headerOk (b : List Byte) : Bool :=
  let op := recF b 0 1
  let ct := recF b 2 2
  decide (1 ≤ op) && decide (op ≤ 6) && decide (recF b 1 1 < 16) && decide (ct < 4096) && (bit (recF b 1 1) 3 || ct == 0)

/-- Ring r starts its next descriptor where `mine` accepts its bytes; a malformed header is refused by whichever start meets it. The body
of the descriptor's kind then acts on it. An uncorrectable error of the slot's row fails the descriptor (R408). -/
def descStart (mine : List Byte → Bool) (act : Nat → Nat → BitVec 32 → List Byte → State → State) (c r : Nat) (s : State) : State :=
  match ringStarts s c r with
  | none => s
  | some n =>
    let g := getRing s c r
    let at_ := slotAt g.cfg (descSlot g.cfg n)
    let on := rowsOn s (.car c) (at_ / 128) 1
    let b := if on then descBytes s c r n else List.replicate 64 0
    let ok := headerOk b
    let bad := on && (carEcc c s).1
    if on ∧ ok ∧ ¬ bad ∧ ¬ mine b then s
    else if recF b 0 1 % 16 = 4 ∧ ¬ g.flight.isEmpty then s
    else
      let d : Desc := { count := n, tag := ringTag g.cfg, raw := b, op := recF b 0 1 % 16, wait := .write, bytes := 0, seen := [], wrote := [],
                        cen := CensusCounts.zero, walk := none, loading := false }
      let s := carWait c (at_ / 128) 1 (putRing s c r { g with flight := g.flight ++ [d] })
      if ¬ on then descFail c r n 0x2001 0 false s
      else if bad then descFail c r n 0x2004 0 true (carEcc c s).2
      else if ¬ ok then descFail c r n descMalformed 1 false s
      else act c r n b s

/-! ### Places (R291, R298) -/

/-- Where bytes lie: tensor space, a local space of this cluster (SPACE, tiles or cluster, offset), a window of this module, or a FABRIC
address word. -/
inductive Place where
  | tensor (a : Nat)
  | loc (space : Nat) (units : List Nat) (off : Nat)
  | win (at_ : Store) (window off : Nat)
  | fab (w : BitVec 64)
  deriving DecidableEq, Repr

/-- A place, or the code and subcode that its check gives. -/
inductive PlaceAns where
  | ok (p : Place)
  | bad (code sub : Nat)
  deriving DecidableEq, Repr

/-- Bytes of a local space: scratchpad, carafe, context space, descriptor file. -/
def localSize (space : Nat) : Nat := if space = 0 then 0x18_0000 else if space = 1 then 0x180_0000 else if space = 2 then 0x8040 else 4096

/-- The checks of R298 on n bytes of a local place. -/
def localCheck (s : State) (space : Nat) (units : List Nat) (off : Int) (n : Nat) : Nat :=
  let o := off.toNat
  if off < 0 ∨ localSize space < o + n then 0x2001
  else
    let on := fun (a : Store) => rowsOn s a (o / storeRow a) (ceilDiv (o + n) (storeRow a) - o / storeRow a)
    let ok := if space = 0 then units.all (fun t => on (.sp t)) else if space = 1 then units.all (fun c => on (.car c)) else true
    if ok then 0 else 0x2001

/-- The place that an address word names (R291), for a job on cluster c. `kinds` are the KINDs that the field admits. -/
def placeName (s : State) (c : Nat) (tag : BitVec 12) (kinds : List Nat) (w : BitVec 64) (mask : Nat) : PlaceAns :=
  let kind := wfld w 63 60
  if ¬ kinds.contains kind ∨ wfld w 59 48 ≠ 0 then .bad descMalformed 1
  else match kind with
    | 0 => .ok (.tensor (wfld w 47 0))
    | 1 =>
      let space := wfld w 47 44
      if 3 < space ∨ wfld w 39 25 ≠ 0 ∨ (space = 2 ∧ wfld w 24 18 ≠ 0) then .bad descMalformed 1
      else if cluTag s c ≠ some tag then .bad descMalformed 2
      else
        let tiles := if mask = 0 then [16 * c + wfld w 43 40] else ((List.range 16).filter (fun t => bit mask t)).map (16 * c + ·)
        let units := if space = 1 then [c] else tiles
        let off := if space = 2 then wfld w 15 0 else wfld w 24 0
        .ok (.loc (if space = 2 then 2 + 4 * wfld w 17 16 else space) units off)
    | 2 | 3 =>
      if wfld w 30 25 ≠ 0 ∨ 16 < wfld w 41 37 then .bad descMalformed 1
      else if kind = 3 then .ok (.fab w)
      else .ok (.win (winTarget (addrClu w) (addrTarget w)) (addrWindow w) (addrOff w))
    | _ => .bad descMalformed 1

/-- The space of a local place; contexts carry their number in bits 2 and up. -/
def spaceOf (sp : Nat) : Nat := sp % 4
/-- The place that an address word names for n bytes from it, with the range checks of R298 and R299. -/
def placeOf (s : State) (c : Nat) (tag : BitVec 12) (kinds : List Nat) (w : BitVec 64) (n mask : Nat) : PlaceAns :=
  match placeName s c tag kinds w mask with
  | .ok (.tensor a) => if hitsMap a n then .bad descMalformed 3 else .ok (.tensor a)
  | .ok (.loc sp units off) =>
    let code := localCheck s (spaceOf sp) units off n
    if code ≠ 0 then .bad code 0 else .ok (.loc sp units off)
  | p => p
/-- The context of a context place. -/
def ctxOf (sp : Nat) : Nat := sp / 4

/-- The byte store and the byte address of an offset of a local place in one unit. -/
def localMem (s : State) (sp unit off : Nat) : Mem × Nat :=
  match spaceOf sp with
  | 0 => (s.mem.sp, spAt unit off)
  | 1 => (s.mem.car, carAt unit off)
  | 2 => (s.mem.ctx, ctxAt unit (ctxOf sp) off)
  | _ => (s.mem.vdesc, vdAt unit off)

/-- An uncorrectable error of local SRAM met by a DMA read (R408, R410): the alarm of the page that holds the injection. -/
def localEcc (c : Nat) (sp : Nat) (units : List Nat) (s : State) : Bool × State :=
  if spaceOf sp = 1 then carEcc c s
  else
    let r := pageEcc (dmaBase c) c s
    match units.find? (fun t => !r.1 && (getTile s t).eccInj) with
    | some t => (true, resAlarm (tileBase t) 0x2004 c (putTile s t { getTile s t with eccInj := false }))
    | none => r

/-- Reads n bytes at a displacement of a place: 0 and the bytes, or the code. DEDUCED: log 61. -/
def placeRead (c r : Nat) (count : BitVec 32) (p : Place) (disp : Int) (n : Nat) (s : State) : Nat × List Byte × State :=
  match p with
  | .tensor a =>
    let x : Int := a + disp
    if x < 0 then (descMalformed, [], s)
    else tensorRead (descOwner c r count) (descTag s c r count) (c / 16) x.toNat n s
  | .loc sp units off =>
    let x : Int := off + disp
    let code := localCheck s (spaceOf sp) (units.take 1) x n
    if code ≠ 0 then (code, [], s)
    else
      let e := localEcc c sp (units.take 1) s
      if e.1 then (0x2004, [], e.2)
      else
        let o := x.toNat
        match spaceOf sp with
        | 0 => (0, storeRead e.2 (.sp (units.headD 0)) o n, e.2)
        | 1 => (0, storeRead e.2 (.car (units.headD 0)) o n, carWait c (o / 128) (ceilDiv (o + n) 128 - o / 128) e.2)
        | _ =>
          let q := localMem e.2 sp (units.headD 0) o
          (0, memRead q.1 q.2 n, e.2)
  | _ => (descMalformed, [], s)

/-- Whether the context k of a tile is in use by a running phase (R104). -/
def ctxInUse (s : State) (t k : Nat) : Bool :=
  let w := getWalker s (t / 16)
  let named := wfld (phaseWord s (t / 16) w.cur.toNat 0) (2 * (t % 16) + 1) (2 * (t % 16))
  (getTile s t).part && ((getTile s t).active.toNat == k || named == k)
/-- Whether descriptor-file bytes off to off + n - 1 of a tile are in use (R127). -/
def vdescInUse (s : State) (t off n : Nat) : Bool :=
  let x := getTile s t
  let hit := fun (e : Nat) => decide (off < 64 * e + 64) && decide (64 * e < off + n)
  x.part || x.vq.any (fun e => (vNeeds e.opc e.args.var.toNat ++ vOptional e.opc).any (fun role =>
    (vDesc s t e.args role).isSome && hit (vOpnd e.args role % 64)))

/-- Writes bytes at a displacement of a place, but not into a window or the fabric: 0, or the code. -/
def placeWrite (c r : Nat) (count : BitVec 32) (p : Place) (disp : Int) (l : List Byte) (s : State) : Nat × State :=
  match p with
  | .tensor a =>
    let x : Int := a + disp
    if x < 0 then (descMalformed, s)
    else tensorWrite (descOwner c r count) (descTag s c r count) (c / 16) x.toNat l s
  | .loc sp units off =>
    let x : Int := off + disp
    let o := x.toNat
    let code := localCheck s (spaceOf sp) units x l.length
    if code ≠ 0 then (code, s)
    else match spaceOf sp with
      | 0 => (0, forAll units s (fun t => plainMessage (.desc c r count) (.sp t) o l))
      | 1 => (0, forAll units s (fun k => plainMessage (.desc c r count) (.car k) o l))
      | 2 =>
        if units.any (fun t => ctxInUse s t (ctxOf sp)) then (0x2007, s)
        else (0, forAll units s (fun t s => { s with mem := { s.mem with ctx := memWrite s.mem.ctx (ctxAt t (ctxOf sp) o) l } }))
      | _ =>
        if units.any (fun t => vdescInUse s t o l.length) then (0x2008, s)
        else (0, forAll units s (fun t s => { s with mem := { s.mem with vdesc := memWrite s.mem.vdesc (vdAt t o) l } }))
  | _ => (descMalformed, s)

/-! ### COPY (R292) -/

/-- Free census counts: a CURVE with CEN names no type, and a copy knows no scales of MX elements (DESIGN CHOICE, log 23). -/
def freeCounts (s : State) : CensusCounts × State :=
  let a := drawFree s
  let b := drawFree a.2
  let c := drawFree b.2
  let d := drawFree c.2
  ({ elem := a.1.toNat, zero := b.1.toNat, sat := c.1.toNat, nonfin := d.1.toNat, uflow := 0 }, d.2)

/-- Census counts of bytes of a type that is no MX type (R230). -/
def byteCounts (ty : Nat) (l : List Byte) : CensusCounts :=
  let w := max (tyBits ty) 1
  let v := leNat l
  (List.range (8 * l.length / w)).foldl (fun a i => addCounts a (moveCounts ty (fld v (w * i + w - 1) (w * i)) 127)) CensusCounts.zero
/-- What bytes that cross unchanged count (R230); of MX elements only their number is known (DESIGN CHOICE, log 23). -/
def moveAll (ty : Nat) (l : List Byte) (s : State) : CensusCounts × State :=
  if isMx ty then
    let q := freeCounts s
    ({ q.1 with elem := 8 * l.length / max (tyBits ty) 1 }, q.2)
  else (byteCounts ty l, s)
/-- Adds what bytes of a type count to a descriptor's census counts. -/
def countMove (c r : Nat) (n : BitVec 32) (ty : Nat) (l : List Byte) (s : State) : State :=
  let q := moveAll ty l s
  editDesc c r n (fun d => { d with cen := addCounts d.cen q.1 }) q.2

/-- The destination device of a descriptor (R186, R270): none where it does not resolve. -/
def resolveDev (s : State) (tag : BitVec 12) (how entry dev : Nat) : Option Nat :=
  let j := getJob s tag
  let st := j.stages.getD entry []
  let flags := recF st 5 1
  let ringN := if j.ringRec.isEmpty then 1 else recF j.ringRec 4 2
  match how with
  | 0 => some dev
  | 1 => if st.isEmpty ∨ ¬ bit flags 0 ∨ bit flags 1 then none else some (recF st 6 2)
  | 2 => if st.isEmpty ∨ ¬ bit flags 0 ∨ bit flags 2 then none else some (recF st 8 2)
  | 3 => if ringN = 1 then none else some (recF j.ringRec 0 2)
  | 4 => if ringN = 1 then none else some (recF j.ringRec 2 2)
  | _ => none

/-- The fields of a COPY are in range (R292). -/
def copyOk (b : List Byte) : Bool :=
  let sk := fld (recF b 8 8) 63 60
  let dk := fld (recF b 16 8) 63 60
  let x := recF b 26 1
  let txn := fld x 4 3
  let fab := sk == 3 || dk == 3
  recF b 4 4 != 0 && (!fab || decide (recF b 4 4 ≤ 2 ^ 24)) && decide (x < 64) && decide (fld x 2 0 ≤ 4) && decide (recF b 27 1 < 8)
    && recF b 31 1 == 0 && decide (recF b 34 1 < 16) && (b.drop 35).all (· == 0) && (fab || recF b 24 8 == 0)
    && (if sk == 3 then dk != 3 && txn == 2 && fld x 2 0 == 0 else dk != 3 || decide (txn < 2))

/-- How often a byte moved to a place is counted: each unit of a local place counts its own. -/
def placeCopies : Place → Nat
  | .loc _ units _ => units.length
  | _ => 1
/-- Delivers a descriptor's bytes to its destination, which is local, tensor space or a window; then it has moved everything, into each of its
tiles. DEDUCED: log 121. -/
def copyPut (c r : Nat) (n : BitVec 32) (b : List Byte) (l : List Byte) (s : State) : State :=
  let tag := descTag s c r n
  match placeOf s c tag [0, 1, 2] (BitVec.ofNat 64 (recF b 16 8)) l.length (recF b 32 2) with
  | .bad code sub => descFail c r n code sub false s
  | .ok (.win a w off) =>
    let t := windowMessage (.desc c r n) a w .loc tag 0 0 off l s
    if t.1 ≠ 0 then descFail c r n t.1 0 false t.2 else descLand c r n (descMoved c r n l.length t.2)
  | .ok p =>
    let t := placeWrite c r n p 0 l s
    if t.1 ≠ 0 then descFailAccess c r n t.1 t.2 else descLand c r n (descMoved c r n (placeCopies p * l.length) t.2)

/-- The hub on the side of a cluster's die. -/
def cluHub (c : Nat) : Nat := dieHub (c / 16)
/-- The remote device of a COPY. DEDUCED: log 84. -/
def copyDev (s : State) (tag : BitVec 12) (b : List Byte) : Option Nat :=
  resolveDev s tag (recF b 26 1 % 8) (recF b 27 1 % 8) (recF b 24 2)
/-- A request message of a descriptor. -/
def descMsg (s : State) (tag : BitVec 12) (op : Nat) (addr : BitVec 64) (b : List Byte) (cred : Bool) (opa : BitVec 64) (data : List Byte) : Msg :=
  reqMsg op addr (BitVec.ofNat 24 (recF b 28 3)) (jobEpoch s tag) tag cred opa 0 data

/-- Sends a request message of a descriptor: performed at once on this module (R19), else queued for its answer. `got` takes a local
answer. -/
def descSend (c r : Nat) (n : BitVec 32) (dev : Nat) (m : Msg) (got : Performed → State) (s : State) : State :=
  if isOwn s dev then got (performAt (.desc c r n) none m (descWait c r n .ack s))
  else if cutOff s (c / 16) (4 + cluHub c) then descFail c r n bridgeFailCode 0 false s
  else
    let q := sendSeq (cluHub c) dev 0 m (.ring c r n) (descWait c r n .ack s)
    if q.1 ≠ 0 then descFail c r n q.1 0 false q.2 else q.2

/-- The source bytes of a COPY. -/
def copySource (c r : Nat) (n : BitVec 32) (b : List Byte) (s : State) : Nat × Nat × List Byte × State :=
  match placeOf s c (descTag s c r n) [0, 1] (BitVec.ofNat 64 (recF b 8 8)) (recF b 4 4) 0 with
  | .bad code sub => (code, sub, [], s)
  | .ok p =>
    let q := placeRead c r n p 0 (recF b 4 4) s
    (q.1, if q.1 = descMalformed then 3 else 0, q.2.1, q.2.2)

/-- Sends the bytes of a COPY to the fabric, once any claim has succeeded. -/
def copyTransmit (c r : Nat) (n : BitVec 32) (b : List Byte) (dev : Nat) (s : State) : State :=
  let q := copySource c r n b s
  let code := q.1
  let l := q.2.2.1
  let s := q.2.2.2
  if code ≠ 0 then descFail c r n code q.2.1 (selfRaised code) s
  else
    let txn := fld (recF b 26 1) 4 3
    let m := descMsg s (descTag s c r n) (1 + txn) (BitVec.ofNat 64 (recF b 16 8)) b (bit (recF b 26 1) 5) 0 l
    let ty := recF b 34 1
    let s := countMove c r n ty l (editDesc c r n (fun d => { d with cen := CensusCounts.zero, bytes := l.length }) s)
    descSend c r n dev m (fun a => if a.code ≠ 0 then descFail c r n a.code 0 false a.st else descLand c r n a.st) s

/-- The claim of a credited SEND (R176, R292). -/
def copyClaim (c r : Nat) (n : BitVec 32) (b : List Byte) (dev : Nat) (s : State) : State :=
  let u := ceilDiv (recF b 4 4) 256
  let w := BitVec.ofNat 64 (recF b 16 8)
  if cutOff s (c / 16) (if isOwn s dev then addrClu w / 16 else 4 + cluHub c) then descFail c r n bridgeFailCode 0 false s
  else if isOwn s dev then
    let q := rqClaim (addrClu w) (wfld w 34 31) u s
    if u ≤ q.1 then copyTransmit c r n b dev q.2
    else match findDesc s c r n with
      | some d => if d.wait = .claim then q.2 else descWait c r n .claim q.2
      | none => s
  else
    let s := match findDesc s c r n with
      | some d => if d.wait = .claim then s else descWait c r n .claim s
      | none => s
    let m := descMsg s (descTag s c r n) 4 (w ||| BitVec.ofNat 64 (17 * 2 ^ 37)) b false (0 - BitVec.ofNat 64 u) []
    let q := sendSeq (cluHub c) dev 0 m (.ring c r n) s
    if q.1 ≠ 0 then descFail c r n q.1 0 false q.2 else q.2

/-- The answer to a claim: AVAIL from before it. -/
def copyClaimed (c r : Nat) (n : BitVec 32) (avail : Nat) (s : State) : State :=
  let b := descBytes s c r n
  match findDesc s c r n, copyDev s (descTag s c r n) b with
  | some d, some dev => if d.wait = .claim ∧ ceilDiv (recF b 4 4) 256 ≤ avail then copyTransmit c r n b dev s else s
  | _, _ => s

/-- The failed claim of a descriptor is tried again, unless its answer is still awaited. -/
def claimAgain (c r : Nat) (d : Desc) (s : State) : State :=
  if s.awaited.any (fun a => a.owner == .ring c r d.count) ∨ (findDesc s c r d.count).isNone then s
  else match copyDev s d.tag d.raw with
    | some dev => copyClaim c r d.count d.raw dev s
    | none => s
/-- The failed claims of a ring are retried (R292). -/
def claimRetry (c r : Nat) (s : State) : State :=
  forAll ((getRing s c r).flight.filter (fun d => d.wait == .claim)) s (claimAgain c r)

/-- The contexts that a descriptor is to load become LOADING, unless one of them is in use (R103, R104): 0, or the code. -/
def ctxBegin (c : Nat) (b : List Byte) (s : State) : Nat × State :=
  let l := ctxLoads c b
  if l.any (fun p => ctxInUse s p.1 p.2) then (0x2007, s) else (0, forAll l s (fun p => setCtxSt p.1 p.2 1))
/-- A descriptor whose places are in order begins to write: its contexts are LOADING, or it fails. -/
def loadThen (c r : Nat) (n : BitVec 32) (b : List Byte) (f : State → State) (s : State) : State :=
  let q := ctxBegin c b s
  if q.1 ≠ 0 then descFail c r n q.1 0 false s else f (editDesc c r n (fun d => { d with loading := true }) q.2)

/-- The pieces, as offset and length, into which the slot boundaries of an address cut a list of pieces. -/
def cutAt (a : Nat) (l : List (Nat × Nat)) : List (Nat × Nat) :=
  l.flatMap (fun p => (slotsOf (a + p.1) p.2).map (fun k =>
    let lo := max (a + p.1) (65536 * k)
    (lo - a, min (a + p.1 + p.2) (65536 * (k + 1)) - lo)))
/-- The pieces, as source displacement, destination displacement and length, of n bytes moved between two displacements of two places:
each lies in one slot of every tensor-space side, so that an entry is read when a byte of its slot is first needed (R277). -/
def copyPieces (src dst : Place) (sd dd : Int) (n : Nat) : List (Int × Int × Nat) :=
  let cut := fun (p : Place) (d : Int) (l : List (Nat × Nat)) => match p with
    | .tensor a => if (a : Int) + d < 0 then l else cutAt ((a : Int) + d).toNat l
    | _ => l
  (cut dst dd (cut src sd [(0, n)])).map (fun p => (sd + p.1, dd + p.1, p.2))
/-- Moves bytes to a displacement of a place; into a window as rows of the message `msg`, whose last ones they may be. -/
def pieceWrite (c r : Nat) (n : BitVec 32) (dst : Place) (msg : Nat) (last : Bool) (d : Int) (l : List Byte) (s : State) : Nat × State :=
  match dst with
  | .win a w off => windowPart msg last a w .loc (descTag s c r n) 0 0 [(off + d.toNat, l)] s
  | _ => placeWrite c r n dst d l s
/-- Copies pieces one after the other, until one fails: the code, and the bytes copied. Each unit of a local destination counts its
bytes. The rows of a window destination are those of its message `msg`, which ends with the last piece; a failure ends it without a
completion. -/
def copyRun (c r : Nat) (n : BitVec 32) (src dst : Place) (msg : Nat) : List (Int × Int × Nat) → State → Nat × List Byte × State
  | [], s => (0, [], s)
  | p :: rest, s =>
    let q := placeRead c r n src p.1 p.2.2 s
    if q.1 ≠ 0 then (q.1, [], quietMsg (if msg = 0 then none else some msg) q.2.2)
    else
      let t := pieceWrite c r n dst msg rest.isEmpty p.2.1 q.2.1 q.2.2
      if t.1 ≠ 0 then (t.1, [], quietMsg (if msg = 0 then none else some msg) t.2)
      else
        let u := copyRun c r n src dst msg rest (descMoved c r n (placeCopies dst * p.2.2) t.2)
        (u.1, q.2.1 ++ u.2.1, u.2.2)
/-- Copies pieces to a place; into a window they are one message, whose route must stand (R173, R407). -/
def copyAll (c r : Nat) (n : BitVec 32) (src dst : Place) (l : List (Int × Int × Nat)) (s : State) : Nat × List Byte × State :=
  match dst with
  | .win a _ _ =>
    if cutOff s (c / 16) (storeClu a / 16) then (bridgeFailCode, [], s)
    else
      let o := openMessage (.desc c r n) s
      copyRun c r n src dst o.1 l o.2
  | _ => copyRun c r n src dst 0 l s

/-- A COPY from the fabric (R314): its READ is sent; the table of R222 names no fabric READ, so it counts nothing. -/
def copyFetch (c r : Nat) (n : BitVec 32) (b : List Byte) (sw : BitVec 64) (len : Nat) (s : State) : State :=
  match placeOf s c (descTag s c r n) [3] sw len 0 with
  | .bad code sub => descFail c r n code sub false s
  | .ok _ =>
    let m := descMsg s (descTag s c r n) 3 sw b false (BitVec.ofNat 64 len) []
    descSend c r n (recF b 24 2) m (fun a =>
      if a.code ≠ 0 then descFail c r n a.code 0 false a.st
      else match a.resp with
        | some x => copyPut c r n b x.2.2 (descWait c r n .write a.st)
        | none => a.st) s

/-- A COPY within the module (R292), piece by piece. -/
def copyLocal (c r : Nat) (n : BitVec 32) (b : List Byte) (len : Nat) (dst : Place) (s : State) : State :=
  match placeOf s c (descTag s c r n) [0, 1] (BitVec.ofNat 64 (recF b 8 8)) len 0 with
  | .bad code sub => descFail c r n code sub false s
  | .ok src =>
    let q := copyAll c r n src dst (copyPieces src dst 0 0 len) s
    if q.1 ≠ 0 then descFailAccess c r n q.1 q.2.2
    else descLand c r n (countMove c r n (recF b 34 1) q.2.1 q.2.2)

/-- The body of COPY (R292). -/
def copyBody (c r : Nat) (n : BitVec 32) (b : List Byte) (s : State) : State :=
  let sw := BitVec.ofNat 64 (recF b 8 8)
  let dw := BitVec.ofNat 64 (recF b 16 8)
  let len := recF b 4 4
  let tag := descTag s c r n
  let mal := fun (sub : Nat) => descFail c r n descMalformed sub false s
  if ¬ copyOk b then mal 1
  else if wfld dw 63 60 = 3 then
    let txn := fld (recF b 26 1) 4 3
    match placeOf s c tag [0, 1] sw len 0, placeOf s c tag [3] dw len 0 with
    | .bad code sub, _ => descFail c r n code sub false s
    | _, .bad code sub => descFail c r n code sub false s
    | .ok _, .ok _ =>
      if txn = 1 ∧ (wfld dw 41 35 ≠ 0 ∨ wfld dw 24 0 ≠ 0) then mal 1
      else match copyDev s tag b with
        | none => mal 5
        | some dev => if txn = 1 ∧ bit (recF b 26 1) 5 then copyClaim c r n b dev s else copyTransmit c r n b dev s
  else match placeOf s c tag [0, 1, 2] dw len (recF b 32 2) with
    | .bad code sub => descFail c r n code sub false s
    | .ok dst =>
      loadThen c r n b (if wfld sw 63 60 = 3 then copyFetch c r n b sw len else copyLocal c r n b len dst) s

/-- The data of a READ arrive (R314). -/
def readArrived (c r : Nat) (n : BitVec 32) (l : List Byte) (s : State) : State :=
  match findDesc s c r n with
  | some d => if d.wait = .ack then copyPut c r n d.raw l (descWait c r n .write s) else s
  | none => s

/-! ### CURVE (R179, R294) -/

/-- The sign of an integer. -/
def sgnI (v : Int) : Int := if 0 < v then 1 else if v < 0 then -1 else 0

/-- The cells of `walk` of R179, in order; `fuel` bounds the depth of the recursion. -/
def curveCells : Nat → Int → Int → Int → Int → Int → Int → List (Int × Int)
  | 0, _, _, _, _, _, _ => []
  | f + 1, x, y, ax, ay, bx, by_ =>
    let w : Int := (ax + ay).natAbs
    let h : Int := (bx + by_).natAbs
    let dax := sgnI ax
    let day := sgnI ay
    let dbx := sgnI bx
    let dby := sgnI by_
    if h = 1 then (List.range w.toNat).map (fun (i : Nat) => (x + i * dax, y + i * day))
    else if w = 1 then (List.range h.toNat).map (fun (i : Nat) => (x + i * dbx, y + i * dby))
    else
      let ax2 := ax / 2
      let ay2 := ay / 2
      let bx2 := bx / 2
      let by2 := by_ / 2
      let w2 : Int := (ax2 + ay2).natAbs
      let h2 : Int := (bx2 + by2).natAbs
      if 3 * h < 2 * w then
        let odd := w2 % 2 ≠ 0 ∧ 2 < w
        let ax2 := if odd then ax2 + dax else ax2
        let ay2 := if odd then ay2 + day else ay2
        curveCells f x y ax2 ay2 bx by_ ++ curveCells f (x + ax2) (y + ay2) (ax - ax2) (ay - ay2) bx by_
      else
        let odd := h2 % 2 ≠ 0 ∧ 2 < h
        let bx2 := if odd then bx2 + dbx else bx2
        let by2 := if odd then by2 + dby else by2
        curveCells f x y bx2 by2 ax2 ay2 ++ curveCells f (x + bx2) (y + by2) ax ay (bx - bx2) (by_ - by2)
          ++ curveCells f (x + (ax - dax) + (bx2 - dbx)) (y + (ay - day) + (by2 - dby)) (-bx2) (-by2) (-(ax - ax2)) (-(ay - ay2))

/-- `curve_walk(W, H)`. -/
def curveWalk (w h : Nat) : List (Int × Int) :=
  if h ≤ w then curveCells (w + h) 0 0 w 0 0 h else curveCells (w + h) 0 0 0 h w 0

/-- The fields of a CURVE are in range (R294). -/
def curveOk (b : List Byte) : Bool :=
  recF b 4 2 != 0 && recF b 6 2 != 0 && recF b 28 4 != 0 && decide (recF b 24 4 + recF b 28 4 ≤ recF b 4 2 * recF b 6 2)
    && recF b 40 4 != 0 && recF b 44 4 != 0 && recF b 56 4 != 0 && recF b 60 4 == 0

/-- A signed 32-bit field. -/
def recI (b : List Byte) (off : Nat) : Int := sext 32 (recF b off 4)

/-- The block rows of a CURVE in order: source and destination displacements. -/
def curveMoves (b : List Byte) : List (Int × Int) :=
  let cells := ((curveWalk (recF b 4 2) (recF b 6 2)).drop (recF b 24 4)).take (recF b 28 4)
  cells.zipIdx.flatMap (fun p =>
    let i := recF b 24 4 + p.2
    (List.range (recF b 40 4)).map (fun (j : Nat) =>
      (p.1.1 * recI b 32 + p.1.2 * recI b 36 + j * recI b 48, ((i % recF b 56 4 * recF b 52 4 + j * recF b 44 4 : Nat) : Int))))

/-- The body of CURVE (R294): the block rows move one by one, each slot by slot. Only the bytes that it copies are checked against their spaces. -/
def curveBody (c r : Nat) (n : BitVec 32) (b : List Byte) (s : State) : State :=
  let len := recF b 44 4
  let tag := descTag s c r n
  if ¬ curveOk b then descFail c r n descMalformed 1 false s
  else match placeName s c tag [0, 1] (BitVec.ofNat 64 (recF b 8 8)) 0, placeName s c tag [0, 1, 2] (BitVec.ofNat 64 (recF b 16 8)) 0 with
    | .bad code sub, _ => descFail c r n code sub false s
    | _, .bad code sub => descFail c r n code sub false s
    | .ok src, .ok dst => loadThen c r n b (fun s =>
      let pieces := (curveMoves b).flatMap (fun p => copyPieces src dst p.1 p.2 len)
      let fc := if bit (recF b 1 1) 3 then freeCounts s else (CensusCounts.zero, s)
      let q := copyAll c r n src dst pieces (editDesc c r n (fun d => { d with cen := fc.1 }) fc.2)
      if q.1 ≠ 0 then descFailAccess c r n q.1 q.2.2 else descLand c r n q.2.2) s

/-! ### COMPLETE and FENCE (R295, R296) -/

/-- The work counters and receive-queue returns that a CONTROL address names: a cluster with its queue. -/
def returnAt (a : Nat) : Option (Nat × Nat) :=
  match pageOf a with
  | some (.carafe, i) =>
    let o := a % 0x1000
    if 0x218 ≤ o ∧ o < 0x418 ∧ (o - 0x218) % 32 = 0 then some (i / 16, (o - 0x218) / 32) else none
  | _ => none
/-- Whether a CONTROL address is that of a work counter (R124). -/
def isWorkCtr (a : Nat) : Bool :=
  match pageOf a with
  | some (.cluster, _) => decide (0x200 ≤ a % 0x1000) && decide (a % 0x1000 < 0x400)
  | _ => false

/-- The body of COMPLETE (R295). A register across a bridge that is down fails the descriptor (R407), and a queue of a cluster that quiesces or
rinses refuses (R368). -/
def completeBody (c r : Nat) (n : BitVec 32) (b : List Byte) (s : State) : State :=
  let w := BitVec.ofNat 64 (recF b 8 8)
  let v := recF b 16 8
  let tag := descTag s c r n
  let ctl := wfld w 63 60 = 4
  if recF b 4 4 ≠ 0 ∨ ¬ (b.drop 25).all (· == 0) ∨ (recF b 24 1 ≠ 0 ∧ ¬ ctl) ∨ 64 ≤ recF b 24 1 then descFail c r n descMalformed 1 false s
  else if ctl then
    let a := wfld w 25 0
    if wfld w 59 26 ≠ 0 then descFail c r n descMalformed 1 false s
    else match returnAt a with
      | some q =>
        if cutOff s (c / 16) (q.1 / 16) then descFail c r n bridgeFailCode 0 false s
        else if cluBlocked s q.1 then descFail c r n 0x2006 0 false (rinseCount 0x2006 s)
        else if cluTag s q.1 = some tag then descLand c r n (rqGive q.1 q.2 (BitVec.ofNat 64 v) s) else descFail c r n descMalformed 4 false s
      | none =>
        if a = pourPage 0 + 0x118 ∨ a = pourPage 1 + 0x118 then
          let h := if a = pourPage 0 + 0x118 then 0 else 1
          let p := getPq s h (recF b 24 1)
          if cutOff s (c / 16) (4 + h) then descFail c r n bridgeFailCode 0 false s
          else if wbit p.cfg 63 ∧ pqTag p = tag then descLand c r n (pourPost h (recF b 24 1) (BitVec.ofNat 18 v) s)
          else descFail c r n descMalformed 4 false s
        else if isWorkCtr a then descFail c r n 0x2005 0 false s
        else descFail c r n descMalformed 4 false s
  else match placeOf s c tag [0, 1] w 8 0 with
    | .bad code sub => descFail c r n code sub false s
    | .ok p => loadThen c r n b (fun s =>
      let t := placeWrite c r n p 0 (leBytes 8 v) s
      if t.1 ≠ 0 then descFailAccess c r n t.1 t.2 else descLand c r n (descMoved c r n 8 t.2)) s

/-- The body of FENCE (R296). -/
def fenceBody (c r : Nat) (n : BitVec 32) (b : List Byte) (s : State) : State :=
  if recF b 4 4 ≠ 0 ∨ ¬ (b.drop 16).all (· == 0) then descFail c r n descMalformed 1 false s else descWait c r n .fence s

/-! ### Commands (R298) -/

/-- The descriptors in flight of a ring are given up, so that the ring starts again at CONS. -/
def ringRestart (c r : Nat) (s : State) : State :=
  let s := forAll (getRing s c r).flight s (descAbandon c r)
  putRing s c r { getRing s c r with flight := [] }
/-- RESUME: the ring runs again from its first incomplete descriptor, which starts over from its first byte; those in flight start again
in their turn. DEDUCED: log 136. -/
def ringResume (c r : Nat) (s : State) : State :=
  if (getRing s c r).error then
    let s := ringRestart c r s
    putRing s c r { getRing s c r with error := false }
  else dmaIgnore c s
/-- SKIP: CONS advances by one without DONE or IRQ, then as RESUME. DEDUCED: log 82. -/
def ringSkip (c r : Nat) (s : State) : State :=
  if (getRing s c r).error then
    let s := ringRestart c r s
    let g := getRing s c r
    putRing s c r { g with error := false, cons := g.cons + 1 }
  else dmaIgnore c s
/-- ABORT: the descriptors in flight are abandoned and CONS becomes PROD. It clears `DMA_RING_ERR` (R300). -/
def ringAbort (c r : Nat) (s : State) : State :=
  let s := ringRestart c r s
  let g := getRing s c r
  putRing s c r { g with cons := g.prod, error := false, err := 0 }

/-- A write of `DMA_RING_CMD` (R289, R298). -/
def ringCommand (c : Nat) (v : Word) (s : State) : State :=
  let r := wfld v 13 8
  match wfld v 7 0 with
  | 1 => ringResume c r s
  | 2 => ringSkip c r s
  | 3 => ringAbort c r s
  | _ => dmaIgnore c s

/-- The wait bound has passed (R298): a FENCE fails with `DMA_WAIT_TMO`, a claim with `CREDIT_UNDERRUN`. -/
def ringTimeout (c r : Nat) (s : State) : State :=
  match (getRing s c r).flight.find? (fun d => d.wait == .claim || d.wait == .fence) with
  | some d => descFail c r d.count (if d.wait = .claim then 0x2003 else 0x300C) 0 false s
  | none => s

/-- A write that has waited `TIER_PROMOTE_TMO` fails its descriptor (R280). DEDUCED: log 83. -/
def promoteTimeout (c r : Nat) (s : State) : State :=
  match (getRing s c r).flight.find? (fun d => !(writesOf s (descOwner c r d.count)).isEmpty) with
  | some d =>
    let a := ((writesOf s (descOwner c r d.count)).head?.map (·.addr)).getD 0
    descFail c r d.count 0x3007 0 false (tierFault 0x3007 a s)
  | none => s

/-- The state that `DMA_RING_STATUS` shows (R300). DEDUCED: log 35. -/
def ringStatus (s : State) (c r : Nat) : Word :=
  let g := getRing s c r
  let waits := g.flight.any (fun d => d.wait == .fence || d.wait == .claim || !(writesOf s (descOwner c r d.count)).isEmpty)
  let st := if g.error then 4 else if ¬ wbit g.cfg 63 then 0 else if waits then 3 else if g.prod = g.cons then 1 else 2
  packWord [(8, g.flight.length), (0, st)]

/-! ### Requester reads of the carafe (R166) -/

/-- A requester read of carafe row `row` gets its bank (R166): after tile accesses and buffered writes, round-robin between the DMA engine
and the cupping unit, each read with one bank cycle. While it cannot, it waits a cycle and counts it. At a bank that is not ON it returns
zero, raises `SP_BOUNDS` and fails its descriptor (R169). -/
def carafeReturn (c : Nat) (cupping : Bool) (ring row : Nat) (s : State) : State :=
  let a : Store := .car c
  let key := if cupping then 64 else ring
  let b := storeBank a row
  let put := fun (v : BitVec 1024) (s : State) =>
    let k := getClu s c
    putClu s c { k with reqData := tblSet 0 k.reqData key v, rrLast := cupping, reqWait := k.reqWait.filter (· != (cupping, b)) }
  let k := getClu s c
  if ¬ bankOn s a b then
    let s := put 0 s
    if cupping then raiseClu (carafeBase c) c 0x2001 s
    else match (getRing s c ring).flight.head? with
      | some d => descFail c ring d.count 0x2001 0 false s
      | none => raiseClu (dmaBase c) c 0x2001 s
  else if reqBlocked s c b ∨ (k.rrLast = cupping ∧ k.reqWait.contains (!cupping, b)) then
    bump (putClu s c { k with reqWait := if k.reqWait.contains (cupping, b) then k.reqWait else k.reqWait ++ [(cupping, b)] })
      (carafeBase c + 0x820)
  else if (carEcc c s).1 then
    let s := put 0 (reqTake c [b] (carEcc c s).2)
    (match (getRing s c ring).flight.head? with
     | some d => if cupping then s else descFail c ring d.count 0x2004 0 true s
     | none => s)
  else put (BitVec.ofNat 1024 (leNat (storeRead s a (128 * row) 128))) (reqTake c [b] s)

/-! ### Asynchronous rows (R161, R169, R172) -/

/-- An asynchronous row reaches its bank: a window row under R172, a row of a DMA descriptor or of no descriptor as such. A bank that is not
ON refuses it, and a cluster that rinses does: its descriptor fails, or the DMA page raises the fault (R169, R368). -/
def asyncArrive (a : Store) (w : AsyncRow) (s : State) : State :=
  match w.win with
  | some r => windowRow a w r s
  | none =>
    let code := if cluBlocked s (storeClu a) then 0x2006 else if bankOn s a (storeBank a w.row) then 0 else 0x2001
    match w.desc with
    | some d =>
      if code ≠ 0 then descFail d.cluster d.ring d.count code 0 false (rinseCount code s)
      else
        -- a row of a descriptor is a message of its own, so that the descriptor completes after it (R297)
        let o := openMessage (.desc d.cluster d.ring d.count) s
        let ref : WinRef := { window := 0, cls := .loc, tag := 0, jepoch := 0, key := 0, msg := o.1, last := true }
        enterBank a { w with win := some ref } (putMsg o.2 o.1 { getMsg o.2 o.1 with waiting := 1, lastIn := true })
    | none => if code ≠ 0 then raiseClu (dmaBase (storeClu a)) (storeClu a) code (rinseCount code s) else enterBank a w s

/-! ### Meanings -/

/-- ASYNC_WRITE_ARRIVE (R161). -/
def execAsyncWriteArrive (a : Store) (w : AsyncRow) (s : State) : Result :=
  onUnit (storeOk a ∧ w.row * storeRow a < storeSize a) s (asyncArrive a w)
/-- CARAFE_READ_RETURN (R166). -/
def execCarafeReadReturn (c : Nat) (cupping : Bool) (ring : BitVec 6) (row : Nat) (s : State) : Result :=
  onUnit (c < 64 ∧ row < 196608) s (carafeReturn c cupping ring.toNat row)
/-- DMA_DOORBELL (R289). -/
def execDmaDoorbell (c : Nat) (ring : BitVec 6) (count : BitVec 16) (s : State) : Result :=
  cluCommand c s (ringBell c ring.toNat count.toNat)
/-- DMA_DESC_DATA (R289). -/
def execDmaDescData (c : Nat) (v : BitVec 64) (s : State) : Result := cluCommand c s (descData c v)
/-- RESUME of a ring (R298). -/
def execDmaResume (c : Nat) (ring : BitVec 6) (s : State) : Result := cluCommand c s (ringResume c ring.toNat)
/-- SKIP (R298). -/
def execDmaSkip (c : Nat) (ring : BitVec 6) (s : State) : Result := cluCommand c s (ringSkip c ring.toNat)
/-- ABORT (R298). -/
def execDmaAbort (c : Nat) (ring : BitVec 6) (s : State) : Result := cluCommand c s (ringAbort c ring.toNat)
/-- DMA_RING_CFG_WRITE (R288). -/
def execDmaRingCfgWrite (c : Nat) (ring : BitVec 6) (v : BitVec 64) (s : State) : Result :=
  cluCommand c s (ringConfig c ring.toNat v)
/-- COPY (R292). -/
def execCopy (c : Nat) (ring : BitVec 6) (s : State) : Result :=
  onCluster c s (descStart (fun b => recF b 0 1 == 1) copyBody c ring.toNat)
/-- CURVE (R294). -/
def execCurve (c : Nat) (ring : BitVec 6) (s : State) : Result :=
  onCluster c s (descStart (fun b => recF b 0 1 == 3) curveBody c ring.toNat)
/-- COMPLETE (R295). -/
def execComplete (c : Nat) (ring : BitVec 6) (s : State) : Result :=
  onCluster c s (descStart (fun b => recF b 0 1 == 4) completeBody c ring.toNat)
/-- FENCE (R296). -/
def execFence (c : Nat) (ring : BitVec 6) (s : State) : Result :=
  onCluster c s (descStart (fun b => recF b 0 1 == 5) fenceBody c ring.toNat)
/-- DESC_COMPLETE (R297). -/
def execDescComplete (c : Nat) (ring : BitVec 6) (s : State) : Result := onCluster c s (descComplete c ring.toNat)
/-- DMA_WAIT_TMO (R298). -/
def execDmaWaitTmo (c : Nat) (ring : BitVec 6) (s : State) : Result := onCluster c s (ringTimeout c ring.toNat)
/-- DMA_CLAIM_RETRY (R292). -/
def execDmaClaimRetry (c : Nat) (ring : BitVec 6) (s : State) : Result := onCluster c s (claimRetry c ring.toNat)

end Sys2Proof.Machine
end

