-- ==== Sys2Proof/Machine/Walks.lean ====
section
/-! DEFINITION. The key/value store (R256 to R273): stream headers, page lists, read and append walks, prefetch and sealing, with the
meanings of the commands that act on them. -/

namespace Sys2Proof.Machine

/-- `PAGE_LIST_END`. -/
def pageListEnd : Nat := 0x3004
/-- `KV_RANGE`. -/
def kvRange : Nat := 0x3008
/-- `KV_STREAM_BUSY`. -/
def kvStreamBusy : Nat := 0x3009
/-- The largest number of positions of a sequence. -/
def maxPos : Nat := 4194304

/-! ### Headers (R256 to R258) -/

/-- LIST. -/
def hdrList (b : List Byte) : Nat := recF b 0 6
/-- NENT. -/
def hdrNent (b : List Byte) : Nat := recF b 8 4 % 2 ^ 23
/-- LEN. -/
def hdrLen (b : List Byte) : Nat := recF b 12 4 % 2 ^ 23
/-- Bytes of a position's row. -/
def hdrRow (b : List Byte) : Nat := 64 * (recF b 22 2 % 2048)
/-- Elements of a position's row. -/
def hdrElems (b : List Byte) : Nat := 2 * (recF b 18 2 % 1024) * (recF b 20 2 % 2048)

/-- The reserved bits and ranges of a header (R256). -/
def hdrFieldsOk (b : List Byte) : Bool :=
  let nent := recF b 8 4
  let nhead := recF b 18 2
  let dim := recF b 20 2
  let units := recF b 22 2
  hdrList b % 64 == 0 && decide (recF b 6 2 < 4096) && decide (1 ≤ nent) && decide (nent ≤ maxPos) && decide (recF b 12 4 < 2 ^ 23)
    && decide (recF b 16 1 ≤ 4) && decide (recF b 17 1 < 16) && decide (1 ≤ nhead) && decide (nhead ≤ 1023) && decide (1 ≤ dim)
    && decide (dim ≤ 1024) && decide (1 ≤ units) && decide (units ≤ 1024) && decide (recF b 24 4 < 2 ^ 22) && decide (recF b 28 4 < 2 ^ 23)
    && decide (recF b 32 1 < 2) && ((b.drop 33).take 27).all (· == 0)

/-! ### Page lists (R259 to R261) -/

/-- What a list entry gives: its page's byte address and bytes, the end of the list, or a malformed entry. -/
inductive ListEntry where
  | page (a n : Nat)
  | ending
  | bad
  deriving DecidableEq, Repr

/-- Decodes a page-list entry (R259). -/
def parseListEntry (v row : Nat) : ListEntry :=
  let f := fld v 31 28
  let p := fld v 27 0
  if v = 0xFFFF_FFFF then .ending
  else if f = 15 ∨ p % 2 ^ f ≠ 0 ∨ mapBase < (p + 2 ^ f) * 65536 ∨ 2 ^ f * 65536 < row then .bad
  else .page (p * 65536) (2 ^ f * 65536)
/-- Entry i of a stream's list as it stands in tensor space. -/
def listEntryAt (s : State) (b : List Byte) (i : Nat) : ListEntry :=
  if hdrNent b ≤ i then .ending else parseListEntry (memNat s.mem.tensor (hdrList b + 4 * i) 4) (hdrRow b)
/-- Positions that entry i holds (R260). -/
def entryPos (s : State) (b : List Byte) (i : Nat) : Nat :=
  match listEntryAt s b i with
  | .page _ n => n / hdrRow b
  | _ => 0
/-- Positions that all entries of a list hold. -/
def listPos (s : State) (b : List Byte) : Nat := (List.range (hdrNent b)).foldl (fun a i => a + entryPos s b i) 0

/-- The checks of R258 on a header, for a job. -/
def hdrOk (s : State) (tag : BitVec 12) (b : List Byte) : Bool :=
  recF b 60 4 == crc32 (b.take 60) && hdrFieldsOk b && recF b 6 2 == tag.toNat
    && decide (hdrElems b * (tyBits (recF b 16 1) / 8) ≤ hdrRow b) && decide (recF b 24 4 + hdrLen b ≤ maxPos)
    && decide (hdrLen b ≤ listPos s b)

/-! ### Failures -/

/-- A walk fails under the rules of the key/value store: `KV_FAULT` keeps the first (R273). -/
def walkFail (c r : Nat) (n : BitVec 32) (append : Bool) (hdr code entry : Nat) (s : State) : State :=
  let tag := descTag s c r n
  let s := if reg s (kvPage + 0x120) = 0 then
      setReg (setReg s (kvPage + 0x120) (packWord [(48, code), (36, tag.toNat), (35, b2n append), (0, entry % 2 ^ 23)]))
        (kvPage + 0x128) (BitVec.ofNat 64 (hdr % 2 ^ 48))
    else s
  descFail c r n code (if code = descMalformed then 6 else 0) false s

/-! ### Promotions (R267) -/

/-- The mapped pages of a job that bytes a to a + n - 1 touch. -/
def pagesIn (s : State) (tag : BitVec 12) (a n : Nat) : List Nat :=
  s.pages.filterMap (fun p =>
    if decide (p.1 * 65536 < a + n) && decide (a < (p.1 + pageFrames p.2) * 65536) && pageLive p.2 && p.2.tag == tag && p.2.st != .rinsing
    then some p.1 else none)

/-- Whether a page is served from bulk. -/
def pageInBulk (s : State) (k : Nat) : Bool := (getPage s k).bulk && (getPage s k).copy.isNone

/-- Issues the promotion of list entry i for a walk: a hold on its page, counted once it copies the page (R267). -/
def promoteEntry (c r : Nat) (n : BitVec 32) (b : List Byte) (i : Nat) (s : State) : State :=
  match listEntryAt s b i with
  | .page a len =>
    forAll (pagesIn s (descTag s c r n) a len) s (fun k s =>
      let h := takeHold k s
      if ¬ h.1 then h.2
      else
        let p := getPage h.2 k
        let s := holdPromote k (c / 16) true (putPage h.2 k { p with prefetch := p.prefetch || (p.st == .resident && p.bulk && p.copy.isNone) })
        editDesc c r n (fun d => { d with walk := d.walk.map (fun w => { w with holds := w.holds ++ [(i, k)] }) }) s)
  | _ => s

/-- The entries beyond `e`, of base `base`, that a walk to position `stop` reaches, as far as entry `last`. -/
def reaches (s : State) (b : List Byte) (stop last : Nat) : Nat → Nat → Nat → List Nat
  | 0, _, _ => []
  | f + 1, e, base =>
    let next := base + entryPos s b e
    if last ≤ e ∨ stop ≤ next ∨ entryPos s b e = 0 then [] else (e + 1) :: reaches s b stop last f (e + 1) next

/-! ### Starts (R262, R263) -/

/-- The fields of a WALK are in range (R293). -/
def walkOk (b : List Byte) : Bool :=
  let p := recF b 24 4
  let n := recF b 28 4
  recF b 5 3 == 0 && decide (p < 2 ^ 23) && decide (1 ≤ n) && decide (n < 2 ^ 23) && decide (recF b 32 4 < 2 ^ 23)
    && decide (recF b 36 4 < 2 ^ 23) && (b.drop 44).all (· == 0)

/-- The local step between rows. -/
def walkStride (b h : List Byte) : Nat := if recF b 40 4 = 0 then hdrRow h else recF b 40 4

/-- The state of a walk at its start. -/
def walkInit (append : Bool) (b h : List Byte) (list : List Nat) : WalkState :=
  { append := append, hdr := recF b 8 6, head := h, list := list, pos := recF b 24 4, left := recF b 28 4, entry := recF b 32 4,
    base := recF b 36 4, done := 0, holds := [], msg := 0 }
/-- A walk begins, with its first promotions: entries E + 1 to E + D (R267). -/
def walkBegin (c r : Nat) (n : BitVec 32) (append : Bool) (b h : List Byte) (list : List Nat) (s : State) : State :=
  let w := walkInit append b h list
  let s := editDesc c r n (fun d => { d with wait := .walk, walk := some w }) s
  let d := recF h 17 1 % 16
  forAll (reaches s h (w.pos + w.left) (w.entry + d) d w.entry w.base) s (promoteEntry c r n h)

/-- Reads entry i of a list for a walk, as every access reads tensor space (R277, R287): the code of the access, and the entry. -/
def readEntry (c r : Nat) (n : BitVec 32) (h : List Byte) (i : Nat) (s : State) : Nat × Nat × State :=
  let q := tensorRead (descOwner c r n) (descTag s c r n) (c / 16) (hdrList h + 4 * i) 4 s
  (q.1, leNat q.2.1, q.2.2)

/-- How reading the list goes: a failed access, a failure of the walk's own rules at an entry, or the entries read. -/
inductive ListRead where
  | access (code : Nat) (s : State)
  | fails (code entry : Nat) (s : State)
  | ok (list : List Nat) (s : State)

/-- The entries that positions from `base` of entry e up to `stop` need, read in order (R261, R263 step 5). -/
def readList (c r : Nat) (n : BitVec 32) (h : List Byte) (stop : Nat) : Nat → Nat → Nat → List Nat → State → ListRead
  | 0, e, _, _, s => .fails pageListEnd e s
  | f + 1, e, base, l, s =>
    if hdrNent h ≤ e then .fails pageListEnd e s
    else
      let q := readEntry c r n h e s
      if q.1 ≠ 0 then .access q.1 q.2.2
      else match parseListEntry q.2.1 (hdrRow h) with
        | .ending => .fails pageListEnd e q.2.2
        | .bad => .fails descMalformed e q.2.2
        | .page _ m =>
          let next := base + m / hdrRow h
          if stop ≤ next then .ok (l ++ [q.2.1]) q.2.2 else readList c r n h stop f (e + 1) next (l ++ [q.2.1]) q.2.2

/-- The starting entry of a walk (R261): P lies in it. -/
def startOk (b h : List Byte) (v : Nat) : Bool :=
  match parseListEntry v (hdrRow h) with
  | .page _ n => decide (recF b 36 4 ≤ recF b 24 4) && decide (recF b 24 4 < recF b 36 4 + n / hdrRow h)
  | _ => false

/-- Reads the list for a walk from entry E to position `stop` and checks its start: `go` takes the entries. -/
def walkList (c r : Nat) (n : BitVec 32) (append : Bool) (b h : List Byte) (stop : Nat) (go : List Nat → State → State) (s : State) : State :=
  let hdr := recF b 8 6
  match readList c r n h (recF b 36 4 + 1) 2 (recF b 32 4) (recF b 36 4) [] s with
  | .access code s => descFailAccess c r n code s
  | .fails code e s => walkFail c r n append hdr code e s
  | .ok l s =>
    if ¬ startOk b h (l.headD 0) then walkFail c r n append hdr kvRange (recF b 32 4) s
    else match readList c r n h stop (hdrNent h + 1) (recF b 32 4) (recF b 36 4) [] s with
      | .access code s => descFailAccess c r n code s
      | .fails code e s => walkFail c r n append hdr code e s
      | .ok l s => go l s

/-- Reads the header of a walk's stream and checks what both walks check (R258): `go` takes the header. A read walk takes it as it stood when the
cycle began, before a header write of the same edge (R264). -/
def walkHeader (c r : Nat) (n : BitVec 32) (append : Bool) (b : List Byte) (go : List Byte → State → State) (s : State) : State :=
  let hw := BitVec.ofNat 64 (recF b 8 8)
  let lw := BitVec.ofNat 64 (recF b 16 8)
  let hdr := recF b 8 6
  let tag := descTag s c r n
  if ¬ walkOk b then descFail c r n descMalformed 1 false s
  else match placeOf s c tag [0] hw 64 0 with
    | .bad code sub => descFail c r n code sub false s
    | .ok _ =>
      if hdr % 64 ≠ 0 then walkFail c r n append hdr descMalformed 0 s
      else
        let q := tensorRead (descOwner c r n) tag (c / 16) hdr 64 s
        let s := q.2.2
        let h := if append then q.2.1 else memRead s.seen.mem.tensor hdr 64
        if q.1 ≠ 0 then descFailAccess c r n q.1 s
        else if ¬ hdrOk s tag h then walkFail c r n append hdr descMalformed 0 s
        else
          let span := (recF b 28 4 - 1) * walkStride b h + hdrRow h
          match placeOf s c tag (if append then [1] else [1, 2]) lw span 0 with
          | .bad code sub => descFail c r n code sub false s
          | .ok _ => go h s

/-- The body of a read walk (R262). -/
def readWalkBody (c r : Nat) (n : BitVec 32) (b : List Byte) (s : State) : State :=
  walkHeader c r n false b (fun h s =>
    if hdrLen h < recF b 24 4 + recF b 28 4 then walkFail c r n false (recF b 8 6) kvRange 0 s
    else walkList c r n false b h (recF b 36 4 + 1) (fun _ s => loadThen c r n b (walkBegin c r n false b h []) s) s) s

/-- The header of a stream with new LEN, SEALED and BUSY, and its CRC. -/
def hdrWith (h : List Byte) (len sealed_ : Nat) (busy : Bool) : List Byte :=
  let b := h.take 12 ++ leBytes 4 len ++ (h.drop 16).take 12 ++ leBytes 4 sealed_ ++ leBytes 1 (b2n busy) ++ (h.drop 33).take 27
  b ++ leBytes 4 (crc32 b)

/-- The body of an append walk (R263, steps 1 to 5). -/
def appendWalkBody (c r : Nat) (n : BitVec 32) (b : List Byte) (s : State) : State :=
  let hdr := recF b 8 6
  walkHeader c r n true b (fun h s =>
    let pinned : Bool := match pageAt s (hdr / 65536) with
      | some (_, p) => p.hint == 4
      | none => false
    let p := recF b 24 4
    let stop := p + recF b 28 4
    if !pinned then walkFail c r n true hdr descMalformed 0 s
    else if p ≠ hdrLen h ∨ maxPos < recF h 24 4 + stop then walkFail c r n true hdr kvRange 0 s
    else if bit (recF h 32 1) 0 then walkFail c r n true hdr kvStreamBusy 0 (bump s (kvPage + 0x830))
    else
      let s := tensorStore hdr (hdrWith h (hdrLen h) (recF h 28 4) true) s
      let s := editDesc c r n (fun d => { d with walk := some (walkInit true b h []) }) s
      walkList c r n true b h stop (walkBegin c r n true b h) s) s

/-! ### Entries (R260, R262, R263, R267, R268) -/

/-- The first descriptor of a ring that walks, with its walk. -/
def walkOf (s : State) (c r : Nat) : Option (Desc × WalkState) :=
  (getRing s c r).flight.findSome? (fun d => if d.wait = .walk then d.walk.map (fun w => (d, w)) else none)

/-- A walk finishes an entry: its holds on it are released. -/
def releaseEntry (c r : Nat) (n : BitVec 32) (i : Nat) (s : State) : State :=
  match (findDesc s c r n).bind (·.walk) with
  | none => s
  | some w =>
    let s := forAll (w.holds.filter (fun h => h.1 == i)) s (fun h => giveHold h.2)
    editDesc c r n (fun d => { d with walk := d.walk.map (fun w => { w with holds := w.holds.filter (fun h => h.1 != i) }) }) s

/-- The rows of a read walk arrive at its local place, `k` of them from row number `done` on. -/
def walkDeliver (c r : Nat) (n : BitVec 32) (b h : List Byte) (w : WalkState) (k : Nat) (final : Bool) (l : List Byte) (s : State) :
    Nat × State :=
  let lw := BitVec.ofNat 64 (recF b 16 8)
  let row := hdrRow h
  let st := walkStride b h
  let pieces := (List.range k).map (fun i => ((w.done + i) * st, (l.drop (i * row)).take row))
  let tag := descTag s c r n
  match placeOf s c tag [1, 2] lw 0 0 with
  | .bad code _ => (code, s)
  | .ok (.win a win off) =>
    if cutOff s (c / 16) (storeClu a / 16) then (bridgeFailCode, s) else
    let o := if w.msg = 0 then openMessage (.desc c r n) s else (w.msg, s)
    let s := editDesc c r n (fun d => { d with walk := d.walk.map (fun w => { w with msg := o.1 }) }) o.2
    windowPart o.1 final a win .loc tag 0 0 (pieces.map (fun p => (off + p.1, p.2))) s
  | .ok p => pieces.foldl (fun (q : Nat × State) x => if q.1 ≠ 0 then q else placeWrite c r n p x.1 x.2 q.2) (0, s)

/-- The rows that an append takes from its local place: 0 and the bytes, or the code. -/
def walkCollect (c r : Nat) (n : BitVec 32) (b h : List Byte) (w : WalkState) (k : Nat) (s : State) : Nat × List Byte × State :=
  let lw := BitVec.ofNat 64 (recF b 16 8)
  match placeOf s c (descTag s c r n) [1] lw 0 0 with
  | .bad code _ => (code, [], s)
  | .ok p => (List.range k).foldl (fun (q : Nat × List Byte × State) i =>
      if q.1 ≠ 0 then q
      else
        let x := placeRead c r n p ((w.done + i) * walkStride b h : Nat) (hdrRow h) q.2.2
        (x.1, q.2.1 ++ x.2.1, x.2.2)) (0, [], s)

/-- Census counts of rows of a stream (R230): the elements, not the padding. -/
def streamCounts (h l : List Byte) (k : Nat) : CensusCounts :=
  let ty := recF h 16 1
  (List.range k).foldl (fun a i =>
    addCounts a (byteCounts ty ((l.drop (i * hdrRow h)).take (hdrElems h * (tyBits ty / 8))))) CensusCounts.zero

/-- After an entry: the walk stands at the next one, and a read walk with nothing left has moved its last byte. -/
def walkNext (c r : Nat) (n : BitVec 32) (w : WalkState) (k cap : Nat) (bytes : Nat) (cen : CensusCounts) (s : State) : State :=
  let s := editDesc c r n (fun d =>
    let walk := d.walk.map (fun x => { x with pos := w.pos + k, left := w.left - k, entry := w.entry + 1, base := w.base + cap, done := w.done + k })
    { d with bytes := d.bytes + bytes, cen := addCounts d.cen cen, walk := walk }) s
  if w.left = k ∧ ¬ w.append then descLand c r n s else s

/-- The pages of a piece of tensor space that a walk finds in bulk (R268). -/
def bulkSeen (v : State) (tag : BitVec 12) (a len : Nat) : List Nat := (pagesIn v tag a len).filter (pageInBulk v)
/-- Whether a page that a walk has asked for is still on its way to crema (R268). -/
def lateIn (v : State) (w : WalkState) (p : Nat) : Bool := (getPage v p).st == .promoting && w.holds.any (fun x => x.2 == p)
/-- WALK_ENTRY_START: the walk of ring r starts its next list entry. The tier that serves it is that of the entry as the cycle began, so that a
promotion that completes at the same edge is not seen (R268). -/
def walkEntry (c r : Nat) (s : State) : State :=
  match walkOf s c r with
  | none => s
  | some (d, w) =>
    let n := d.count
    let b := d.raw
    let h := w.head
    let tag := d.tag
    if w.left = 0 then s
    else if hdrNent h ≤ w.entry then walkFail c r n w.append w.hdr pageListEnd w.entry s
    else
      -- an append has read the entries that it needs at its start (R263)
      let q := if w.append then (0, w.list.getD (w.entry - recF b 32 4) 0xFFFF_FFFF, s) else readEntry c r n h w.entry s
      let s := q.2.2
      if q.1 ≠ 0 then descFailAccess c r n q.1 s
      else match parseListEntry q.2.1 (hdrRow h) with
        | .ending => walkFail c r n w.append w.hdr pageListEnd w.entry s
        | .bad => walkFail c r n w.append w.hdr descMalformed w.entry s
        | .page a len =>
          let cap := len / hdrRow h
          let dist := recF h 17 1 % 16
          let ahead := reaches s h (w.pos + w.left) (w.entry + dist) dist w.entry w.base
          let s := if dist ≠ 0 ∧ ahead.contains (w.entry + dist) ∧ ¬ w.holds.any (fun x => x.1 == w.entry + dist)
            then promoteEntry c r n h (w.entry + dist) s else s
          let k := min w.left (w.base + cap - w.pos)
          let at_ := a + (w.pos - w.base) * hdrRow h
          let bytes := k * hdrRow h
          let done := fun (l : List Byte) (s : State) => walkNext c r n w k cap bytes (streamCounts h l k) (releaseEntry c r n w.entry s)
          if w.append then
            let x := walkCollect c r n b h w k s
            if x.1 ≠ 0 then descFailAccess c r n x.1 x.2.2
            else
              let t := tensorWrite (descOwner c r n) tag (c / 16) at_ x.2.1 x.2.2
              if t.1 ≠ 0 then descFailAccess c r n t.1 t.2 else done x.2.1 t.2
          else
            let bulk := bulkSeen (seenUnits s) tag a len
            let late := bulk.any (lateIn (seenUnits s) w)
            let s := if bulk.isEmpty then s else bump s (kvPage + 0x828)
            let s := if late then bump s (kvPage + 0x820) else s
            let x := tensorRead (descOwner c r n) tag (c / 16) at_ bytes s
            if x.1 ≠ 0 then descFailAccess c r n x.1 x.2.2
            else
              let t := walkDeliver c r n b h w k (decide (w.left = k)) x.2.1 x.2.2
              if t.1 ≠ 0 then descFailAccess c r n t.1 t.2 else done x.2.1 t.2

/-! ### The end of an append (R263 step 6, R265) -/

/-- The base of entry e below entry `top` of base `base` (R260). -/
def baseBelow (s : State) (h : List Byte) (e top base : Nat) : Nat :=
  base - (List.range (top - e)).foldl (fun a i => a + entryPos s h (e + i)) 0
/-- Seals the pages at or beyond SEALED that the new LEN fills, from entry e of base `base` on, in entry order (R265): SEALED as it then
stands. -/
def sealUpTo (tag : BitVec 12) (h : List Byte) (len last : Nat) : Nat → Nat → Nat → Nat × State → Nat × State
  | 0, _, _, q => q
  | f + 1, e, base, q =>
    match listEntryAt q.2 h e with
    | .page a n =>
      let next := base + n / hdrRow h
      if last < e ∨ len < next then q
      else
        let q := if e < q.1 then q
          else (e + 1, bump (forAll (pagesIn q.2 tag a n) q.2 sealPage) (kvPage + 0x810))
        sealUpTo tag h len last f (e + 1) next q
    | _ => q

/-- APPEND_END: the append of ring r ends once its rows have landed. The header is written whole from the one read at its start, so that
it overwrites what software wrote meanwhile (R258, R263). -/
def appendEnd (c r : Nat) (s : State) : State :=
  match walkOf s c r with
  | none => s
  | some (d, w) =>
    if ¬ w.append ∨ w.left ≠ 0 ∨ ¬ (writesOf s (descOwner c r d.count)).isEmpty then s
    else
      let b := d.raw
      let h := w.head
      let len := hdrLen h + recF b 28 4
      let sealed_ := recF h 28 4 % 2 ^ 23
      let first := min sealed_ (recF b 32 4)
      let q := sealUpTo d.tag h len w.entry (hdrNent h + 1) first (baseBelow s h first (recF b 32 4) (recF b 36 4)) (sealed_, s)
      let s := tensorStore w.hdr (hdrWith h len q.1 false) q.2
      let s := addCtr s (kvPage + 0x808) (recF b 28 4)
      let s := editDesc c r d.count (fun d => { d with walk := d.walk.map (fun w => { w with append := false }) }) s
      descLand c r d.count s

/-! ### Queries (R273) -/

/-- KV_RING_QUERY: the ring record of a bound job; a missing record shows RING_N 1 (R269). -/
def kvRingQuery (tag : BitVec 12) (s : State) : State :=
  let j := getJob s tag
  let rec_ := if ¬ j.inUse then [] else if j.ringRec.isEmpty then leBytes 4 0 ++ leBytes 12 1 else j.ringRec
  let s := setReg s (kvPage + 0x108) (packWord [(62, b2n j.inUse)])
  setReg (setReg s (kvPage + 0x110) (BitVec.ofNat 64 (recF rec_ 0 8))) (kvPage + 0x118) (BitVec.ofNat 64 (recF rec_ 8 8))

/-! ### Meanings -/

/-- READ_WALK (R262). -/
def execReadWalk (c : Nat) (ring : BitVec 6) (s : State) : Result :=
  onCluster c s (descStart (fun b => recF b 0 1 == 2 && !bit (recF b 4 1) 0 ) (fun c r n b s =>
    if recF b 4 1 ≠ 0 then descFail c r n descMalformed 1 false s else readWalkBody c r n b s) c ring.toNat)
/-- APPEND_WALK (R263). -/
def execAppendWalk (c : Nat) (ring : BitVec 6) (s : State) : Result :=
  onCluster c s (descStart (fun b => recF b 0 1 == 2 && bit (recF b 4 1) 0) (fun c r n b s =>
    if recF b 4 1 ≠ 1 then descFail c r n descMalformed 1 false s else appendWalkBody c r n b s) c ring.toNat)
/-- WALK_ENTRY_START (R267). -/
def execWalkEntryStart (c : Nat) (ring : BitVec 6) (s : State) : Result := onCluster c s (walkEntry c ring.toNat)
/-- APPEND_END (R265). -/
def execAppendEnd (c : Nat) (ring : BitVec 6) (s : State) : Result := onCluster c s (appendEnd c ring.toNat)
/-- KV_RING_QUERY (R273). -/
def execKvRingQuery (tag : BitVec 12) (s : State) : Result := .next (kvRingQuery tag s)

end Sys2Proof.Machine
end

