-- ==== Sys2Proof/Machine/Watch.lean ====
section
/-! DEFINITION. The numerics watch: the cupping compare and its histograms (R224 to R228, R238), the loss port (R232, R233) and the
published gradient-noise statistics (R234, R236, R237). -/

namespace Sys2Proof.Machine

/-! ### Cupping -/

/-- An operand as cupping reads it (R132, R224): an MX value beyond the FP32 range is an infinity. -/
def cupUp (x : Fp) : Fp := val32 (rne32 false x)
/-- The operand pairs of cell (i, f) of a sample, in reduction order (R224). -/
def cupPairs (zt : Bool) (p : CupSample) (i f : Nat) : List (Fp × Fp) :=
  let k := blockK p.args
  p.chunks.zipIdx.flatMap (fun q =>
    let b := q.2 * k / 32
    let sa := q.1.sa.toNat / 2 ^ (8 * (16 * (b % 4) + i)) % 256
    let sb := (nth 0 q.1.sb (f / 16)).toNat / 2 ^ (8 * (16 * (b % 4) + f % 16)) % 256
    (List.range k).map (fun j =>
      (cupUp (operand zt (streamTy p.args) k q.1.a i j sa), cupUp (operand zt (statTy p.args) k (nth 0 q.1.b (f / 16)) (f % 16) j sb))))

/-- The reference and the magnitude of a cell (R224). -/
def cupCell (start : BitVec 32) (ps : List (Fp × Fp)) : BitVec 32 × BitVec 64 :=
  ps.foldl (fun q p =>
    (rne32 false (sumFp [mulFp p.1 p.2, val32 q.1]), add64 q.2 (rne64 (absFp (mulFp p.1 p.2))))) (start, rne64 (absFp (val32 start)))

/-- `ord` of R225. -/
def cupOrdOf (x : BitVec 32) : Int := if x.getLsbD 31 then -((x.toNat % 2 ^ 31 : Nat) : Int) else x.toNat

/-- The bucket of a cell (R225). -/
def cupBucket (d r : BitVec 32) : Nat :=
  if val32 d = .nan then 15
  else
    let n := (cupOrdOf d - cupOrdOf r).natAbs
    if n = 0 then 0 else if 2 ^ 14 ≤ n then 15 else ilog2 n + 1

/-- Whether a compared cell diverges (R226). -/
def cupDiverges (zt : Bool) (bound : Nat) (d r : BitVec 32) (mag : BitVec 64) : Bool :=
  let x := val32 d
  let limit := add64 (rne64 (scaleFp (val64 mag) (-(bound : Int)))) (rne64 (.fin false 1 (if zt then -118 else -140)))
  nonFinite x || decide (0 < numCmp (absFp (val64 (rne64 (sumFp [x, negFp (val32 r)])))) (val64 limit))

/-- What the compare finds of a cell: none where it is not compared, else its bucket and whether it diverges. -/
def cupFinding (zt : Bool) (bound : Nat) (p : CupSample) (i f : Nat) : Option (Nat × Bool) :=
  let at_ := blockCols p.args * i + f
  let start := nth 0 p.start at_
  let ps := cupPairs zt p i f
  let q := cupCell start ps
  let d := nth 0 p.written at_
  if nonFinite (val32 start) || ps.any (fun x => nonFinite x.1 || nonFinite x.2) || nonFinite (val32 q.1) then none
  else some (cupBucket d q.1, cupDiverges zt bound d q.1 q.2)

/-- Adds a count to a histogram bucket, which saturates at 2^32 - 1 (R238). -/
def cupAdd (c slot bucket n : Nat) (s : State) : State :=
  let k := getClu s c
  let i := 16 * slot + bucket
  putClu s c { k with cupHist := tblSet 0 k.cupHist i (BitVec.ofNat 32 (min ((tblGet 0 k.cupHist i).toNat + n) (2 ^ 32 - 1))) }

/-- The histogram slot of a layer tag: the lowest that holds it with EN 1 (R228). -/
def cupSlotOf (s : State) (c : Nat) (ltag : BitVec 12) : Option Nat :=
  (List.range 16).find? (fun n =>
    let w := reg s (clusterBase c + 0x560 + 8 * n)
    wbit w 12 && wfld w 11 0 == ltag.toNat)

/-- The compare of a sample (R225 to R228): its cells' buckets, the skipped cells, and a divergence with its record and alarm. Where an
injection waits, cell (0, 0) diverges in bucket 15 and the record names it (R410). -/
def cupCompare (c : Nat) (p : CupSample) (s : State) : State :=
  let b := clusterBase c
  let zt := zt1 s c
  let cfg := reg s (b + 0x500)
  let cols := blockCols p.args
  let cells := (List.range (16 * cols)).map (fun x => (x / cols, x % cols,
    if x = 0 ∧ (getClu s c).cupInj then some (15, true) else cupFinding zt (wfld cfg 20 16) p (x / cols) (x % cols)))
  let k := getClu s c
  let s := putClu s c { k with cupSlots := k.cupSlots.erase p, cupInj := false }
  let slots := (cupSlotOf s c p.args.ltag).toList ++ [16]
  let s := forAll (List.range 16) s (fun n s =>
    let m := (cells.filter (fun x => match x.2.2 with
      | some q => q.1 == n
      | none => false)).length
    if m = 0 then s else forAll slots s (fun sl s => cupAdd c sl n m s))
  let s := addCtr (bump s (b + 0x850)) (b + 0x868) (cells.filter (fun x => x.2.2.isNone)).length
  let bad := cells.findSome? (fun x => match x.2.2 with
    | some q => if q.2 then some (x.1, x.2.1, q.1) else none
    | none => none)
  match bad with
  | none => s
  | some x =>
    let s := recordFirst (bump s (b + 0x860)) (b + 0x510) (packWord [(32, cluLow s c), (20, p.args.ltag.toNat), (16, p.tile % 16),
      (10, x.1), (4, x.2.1), (0, x.2.2)])
    let s := if wbit cfg 9 then alarm b 0x4006 (.resource (cluTag s c)) s else s
    raiseClu b c 0x4006 s

/-- CUPPING_COMPARE: the sample that is due first is compared. DEDUCED: log 74. -/
def cuppingCompare (c : Nat) (s : State) : State :=
  let l := (getClu s c).cupSlots.filter (fun p => p.due.isSome)
  match l.foldl (fun (m : Option CupSample) p => match m with
    | none => some p
    | some q => if p.due.getD 0 < q.due.getD 0 then some p else m) none with
  | some p => cupCompare c p s
  | none => s

/-- A write to `CUP_HSEL` (R238): latches a histogram, and with CLEAR zeroes it. -/
def cupHsel (c : Nat) (v : Word) (s : State) : State :=
  let b := clusterBase c
  let slot := wfld v 4 0
  let k := getClu s c
  let at_ := fun (n : Nat) => if slot ≤ 16 then (tblGet 0 k.cupHist (16 * slot + n)).toNat else 0
  let s := setReg s (b + 0x518) (BitVec.ofNat 64 slot)
  let s := forAll (List.range 8) s (fun m s => setReg s (b + 0x520 + 8 * m) (packWord [(32, at_ (2 * m + 1)), (0, at_ (2 * m))]))
  if wbit v 8 then
    let k := getClu s c
    putClu s c { k with cupHist := tblKeep (fun i => i / 16 != slot) k.cupHist }
  else s

/-- Whether a write of `CUP_CFG` is accepted (R238). -/
def cupCfgOk (v : Word) : Bool :=
  decide (4 ≤ wfld v 4 0) && decide (wfld v 4 0 ≤ 16) && decide (8 ≤ wfld v 20 16) && decide (wfld v 20 16 ≤ 24)
/-- A write of `CUP_CFG`. -/
def cupCfgWrite (c : Nat) (v : Word) (s : State) : State :=
  if cupCfgOk v then setReg s (clusterBase c + 0x500) (v &&& BitVec.ofNat 64 (bits 47 32 + bits 20 16 + bits 9 8 + bits 4 0)) else cluIgnore c s

/-! ### The loss port -/

/-- Whether a loss configuration is accepted (R239). -/
def lossCfgOk (v : Word) : Bool :=
  let z := val32 (BitVec.ofNat 32 (wfld v 63 32))
  decide (1 ≤ wfld v 4 0) && decide (wfld v 4 0 ≤ 16) && !nonFinite z && (isZero z || !isNeg z)

/-- A job's loss configuration is written (R239): a tag that is not BOUND has no loss record (R232) and ignores it. DEDUCED: log 116. -/
def lossCfgWrite (tag : BitVec 12) (v : Word) (s : State) : State :=
  let j := getJob s tag
  if lossCfgOk v ∧ j.inUse then
    putJob s tag { j with loss := { j.loss with cfg := v &&& BitVec.ofNat 64 (bits 63 32 + bits 23 16 + bits 8 8 + bits 4 0) } }
  else bump s (numericsPage + 0x838)

/-- The loss record after an accepted sample, and whether it is a spike (R233). -/
def lossFold (r : LossRec) (x step : BitVec 32) : LossRec × Bool :=
  let v := val32 x
  let r := { r with last := some step }
  if nonFinite v then ({ r with nonfin := true, spike := true, spikeStep := step }, true)
  else
    let alpha := rne64 (.fin false 1 (-(wfld r.cfg 4 0 : Int)))
    let one := nat64 1
    let zmax := rne64 (val32 (BitVec.ofNat 32 (wfld r.cfg 63 32)))
    let d := sub64 (rne64 v) r.mean
    let spike := decide (wfld r.cfg 23 16 ≤ r.count) && decide (0 < numCmp (val64 d) (.fin false 0 0))
      && decide (0 < numCmp (val64 (mul64 d d)) (val64 (mul64 (mul64 zmax zmax) r.var)))
    let r := { r with spike := spike, nonfin := false, spikeStep := if spike then step else r.spikeStep }
    if spike && wbit r.cfg 8 then (r, spike)
    else if r.count = 0 then ({ r with mean := rne64 v, var := 0, count := 1 }, spike)
    else ({ r with mean := add64 r.mean (mul64 alpha d),
                   var := mul64 (sub64 one alpha) (add64 r.var (mul64 (mul64 alpha d) d)), count := r.count + 1 }, spike)

/-- A write to `LOSS_IN` (R232): for the job of `LOSS_SEL`; a tag without a loss record ignores it. The LOSS event is bit 0 (PRESUMED, log 16).
DEDUCED: log 116. -/
def lossIn (v : Word) (s : State) : State :=
  let tag := BitVec.ofNat 12 (regF s (numericsPage + 0x200) 11 0)
  let j := getJob s tag
  let step := BitVec.ofNat 32 (wfld v 31 0)
  let dup := match j.loss.last with
    | some l => decide (step.toNat ≤ l.toNat)
    | none => false
  if ¬ j.inUse then bump s (numericsPage + 0x838)
  else if dup then bump s (numericsPage + 0x818)
  else
    let r := lossFold j.loss (BitVec.ofNat 32 (wfld v 63 32)) step
    let s := bump (putJob s tag { j with loss := r.1 }) (numericsPage + 0x808)
    if r.2 then raiseEvent numericsPage 0 (bump s (numericsPage + 0x810)) else s

/-! ### Gradient noise -/

/-- B_noise of R236 and NEG. -/
def noiseScale (tokens n : Nat) (sl sr : BitVec 64) : BitVec 64 × Bool :=
  if n < 2 ∨ (val64 sr ≠ .nan ∧ val64 sl ≠ .nan ∧ numCmp (val64 sr) (val64 sl) ≤ 0) then (BitVec.ofNat 64 (infCode fmt64 false), true)
  else (div64 (mul64 (nat64 tokens) (sub64 (mul64 (nat64 n) sl) sr)) (sub64 sr sl), false)

/-- The statistics of a step are published for each layer group of its closing record (R237), and a logged `NONFINITE_STEP` counts
(R234). -/
def summaryWatch (tag : BitVec 12) (r : StepRecord) (s : State) : State :=
  let s := if r.poison && !r.veto then bump s (numericsPage + 0x830) else s
  forAll r.groups s (fun g s =>
    let b := noiseScale r.tokens.toNat g.2.2.2 g.2.1 g.2.2.1
    let info := packWord [(63, 1), (62, b2n r.poison), (61, b2n b.2), (60, b2n r.veto), (32, g.2.2.2 % 2 ^ 17), (0, r.tokens.toNat)]
    let rec_ : NoiseRec := { sl := g.2.1, sr := g.2.2.1, bn := b.1, info := info, step := r.step }
    let j := getJob s tag
    bump (putJob s tag { j with noise := tblSet NoiseRec.reset j.noise (g.1 % 64) rec_ }) (numericsPage + 0x820))

/-! ### Meanings -/

/-- CUPPING_COMPARE (R228). -/
def execCuppingCompare (c : Nat) (s : State) : Result := onCluster c s (cuppingCompare c)
/-- CUP_HSEL_WRITE (R238). -/
def execCupHselWrite (c : Nat) (v : BitVec 64) (s : State) : Result := cluCommand c s (cupHsel c v)
/-- LOSS_IN (R233). -/
def execLossIn (v : BitVec 64) (s : State) : Result := .next (lossIn v s)

end Sys2Proof.Machine
end

