-- ==== Sys2Proof/Machine/Collective.lean ====
section
/-! DEFINITION. The collective engines (R320 to R331): descriptors, attempts and restarts, the reduction tree, gathers with their leases,
the closing reduction with its gate (R215, R400, R401), and the lease events. -/

namespace Sys2Proof.Machine

/-! ### Records -/

/-- Names a collective: job, group and COLL_ID. -/
structure CollKey where
  tag    : BitVec 12
  group  : Nat
  collId : Nat
  deriving DecidableEq, Repr

/-- The key of a record. -/
def Coll.key (k : Coll) : CollKey := ⟨k.tag, k.group, k.collId⟩
/-- A collective in progress. -/
def collOf (s : State) (key : CollKey) : Option Coll := s.colls.find? (fun k => k.key == key)
/-- Replaces the record of a collective in progress. -/
def collSet (k : Coll) (s : State) : State := { s with colls := s.colls.map (fun x => if x.key = k.key then k else x) }
/-- Acts on a collective while it is in progress. -/
def withColl (key : CollKey) (f : Coll → State → State) (s : State) : State :=
  match collOf s key with
  | some k => f k s
  | none => s

/-- A field of the descriptor. -/
def Coll.fld (k : Coll) (off n : Nat) : Nat := recF k.desc off n
/-- COP. -/
def Coll.cop (k : Coll) : Nat := k.fld 4 1
/-- FMT. -/
def Coll.fmt (k : Coll) : Nat := k.fld 5 1
/-- NOISE. DEDUCED: log 75. -/
def Coll.noise (k : Coll) : Bool := bit (k.fld 7 1) 0
/-- LEASE. -/
def Coll.leased (k : Coll) : Bool := bit (k.fld 7 1) 1
/-- PIECE_LEN. -/
def Coll.piece (k : Coll) : Nat := k.fld 12 4
/-- STEP. -/
def Coll.step (k : Coll) : BitVec 48 := BitVec.ofNat 48 (k.fld 40 6)
/-- The shard that rank r serves. -/
def Coll.shard (k : Coll) (r : Nat) : BitVec 24 := BitVec.ofNat 24 (k.fld 48 3 + r)
/-- Whether the operation is a reduction of values. -/
def Coll.reduces (k : Coll) : Bool := k.cop == 1 || k.cop == 3

/-- The members of a group of a job (R321). -/
def groupOf (s : State) (tag : BitVec 12) (g : Nat) : List Nat := tblGet [] (getJob s tag).groups g
/-- The members of a collective's group. -/
def Coll.members (k : Coll) (s : State) : List Nat := groupOf s k.tag k.group
/-- This module's rank. -/
def Coll.me (k : Coll) (s : State) : Nat := (k.members s).idxOf (ownAddr s)
/-- NMEMB. -/
def Coll.n (k : Coll) (s : State) : Nat := (k.members s).length
/-- The hub whose engine leads the collective (R320). -/
def Coll.lead (k : Coll) : Nat := cluHub k.cluster
/-- The hub whose engine handles the piece of a rank (R320). -/
def Coll.side (k : Coll) (r : Nat) : Nat := if r < k.fld 52 2 then 0 else 1
/-- Counts the bytes that an engine moves. -/
def collBytesCount (h n : Nat) (s : State) : State := addCtr s (collPage h + 0x818) n

/-- `COLL_STATUS` (R333): the collectives that the engine of a hub leads and the free entries of its group store. -/
def collStatus (s : State) (h : Nat) : Word :=
  let used := s.jobs.foldl (fun a j => j.2.groups.foldl (fun a g => a + g.2.length) a) 0
  packWord [(32, (s.colls.filter (fun k => k.lead == h)).length % 65536), (0, (262144 - used) % 2 ^ 18)]

/-! ### The tree (R324) -/

/-- The node of a rank in the tree of piece j. -/
def treeNode (n j r : Nat) : Nat := (r + n - j) % n
/-- The rank of a node in the tree of piece j. -/
def treeRank (n j v : Nat) : Nat := (j + v) % n
/-- The level at which a node other than node 0 sends: its lowest set bit; `fuel` bounds the search. -/
def treeLevel : Nat → Nat → Nat → Nat
  | 0, _, w => w
  | f + 1, v, w => if v % (2 * w) ≠ 0 then w else treeLevel f v (2 * w)
/-- The nodes that send to node v, by level. -/
def treeKids : Nat → Nat → Nat → Nat → List Nat
  | 0, _, _, _ => []
  | f + 1, n, v, w => if v % (2 * w) ≠ 0 ∨ n ≤ v + w then [] else (v + w) :: treeKids f n v (2 * w)
/-- The ranks that send to rank r in the tree of piece j. -/
def rankKids (n j r : Nat) : List Nat := (treeKids 17 n (treeNode n j r) 1).map (treeRank n j)
/-- The rank to which rank r sends in the tree of piece j; none at its root. -/
def rankParent (n j r : Nat) : Option Nat :=
  let v := treeNode n j r
  if v = 0 then none else some (treeRank n j (v - treeLevel 17 v 1))

/-- The ranks other than r. -/
def otherRanks (n r : Nat) : List Nat := (List.range n).filter (· != r)
/-- The pieces whose trees an operation of n members uses. -/
def treePieces (cop n : Nat) : List Nat := if cop = 1 ∨ cop = 3 then List.range n else if cop = 5 ∨ cop = 7 then [0] else []
/-- The ranks that send data to rank r (R322, R324). -/
def dataFrom (cop n r : Nat) : List Nat :=
  let gather := if cop = 2 ∨ cop = 3 ∨ cop = 4 then otherRanks n r else if (cop = 5 ∨ cop = 7) ∧ r ≠ 0 then [0] else []
  ((treePieces cop n).flatMap (fun j => rankKids n j r) ++ gather).eraseDups
/-- The ranks to which rank r sends data. -/
def dataTo (cop n r : Nat) : List Nat :=
  let gather := if cop = 2 ∨ cop = 3 ∨ cop = 4 then otherRanks n r else if (cop = 5 ∨ cop = 7) ∧ r = 0 then otherRanks n r else []
  ((treePieces cop n).filterMap (fun j => rankParent n j r) ++ gather).eraseDups

/-! ### Values (R325 to R328, R330) -/

/-- The codes of a type's elements in bytes. -/
def codesOf (ty : Nat) (l : List Byte) : List Nat :=
  (chunksOf (max (tyBits ty / 8) 1) (l.length / max (tyBits ty / 8) 1) l).map leNat
/-- The bytes of codes of a type. -/
def codesTo (ty : Nat) (l : List Nat) : List Byte := l.flatMap (leBytes (max (tyBits ty / 8) 1))
/-- The values of a partial: for an MX type its scale codes follow its `len` element bytes. -/
def partVals (ty len : Nat) (l : List Byte) : List Fp :=
  let cs := codesOf ty (l.take len)
  if isMx ty then
    let sc := l.drop len
    cs.zipIdx.map (fun p => applyScale (decodeTy false ty p.1) (nth (0 : Byte) sc (p.2 / 32)).toNat)
  else cs.map (decodeTy false ty)

/-- What the elements of a partial count where they cross unchanged (R230). -/
def partCounts (ty len : Nat) (l : List Byte) : CensusCounts :=
  let sc := l.drop len
  (codesOf ty (l.take len)).zipIdx.foldl (fun a p => addCounts a (moveCounts ty p.1 (nth (0 : Byte) sc (p.2 / 32)).toNat)) CensusCounts.zero

/-- combine() of R325 on the values of two partials, with what its conversions count. -/
def combineVals (ty len : Nat) (a b : List Byte) : List Byte × CensusCounts :=
  let sums := ((partVals ty len a).zip (partVals ty len b)).map (fun p => sumFp [p.1, p.2])
  if isMx ty then
    let blocks := (chunksOf 32 (sums.length / 32) sums).map (fun l => blockScale ty (fun _ => .rne) (l.map (fun x => (val32 (rne32 false x), true))))
    let convs := blocks.flatMap (·.2)
    (codesTo ty (convs.map (·.code)) ++ blocks.map (fun q => BitVec.ofNat 8 q.1),
     convs.foldl (fun k c => addCounts k (convCounts c (c.code % 128 == 0 && !c.nonfin))) CensusCounts.zero)
  else
    let convs := sums.map (convTy false ty false .rne)
    (codesTo ty (convs.map (·.code)),
     convs.foldl (fun k c => addCounts k (convCounts c (isZero (decodeTy false ty c.code)))) CensusCounts.zero)

/-- The 4 KiB blocks of values: whether each holds a non-finite element (R326). -/
def blockBad (ty : Nat) (vals : List Fp) : List Bool :=
  let per := 4096 / max (tyBits ty / 8) 1
  (chunksOf per (vals.length / per) vals).map (fun l => l.any nonFinite)
/-- The sum of squares of each 4 KiB block, formed in ordinal order in binary64 (R327). -/
def blockSumsq (ty : Nat) (vals : List Fp) : List (BitVec 64) :=
  let per := 4096 / max (tyBits ty / 8) 1
  (chunksOf per (vals.length / per) vals).map (fun l => l.foldl (fun a x => add64 a (rne64 (mulFp x x))) 0)
/-- The sum of the partials of the blocks that are not poisoned, in block order. -/
def sumClean (bad : List Bool) (l : List (BitVec 64)) : BitVec 64 := (l.zip bad).foldl (fun a p => if p.2 then a else add64 a p.1) 0

/-- The smaller of two ORIGINs (R326). -/
def minOrigin (a b : Option (Nat × Nat)) : Option (Nat × Nat) :=
  match a, b with
  | some x, some y => if y.1 < x.1 ∨ (y.1 = x.1 ∧ y.2 < x.2) then b else a
  | some _, none => a
  | none, _ => b
/-- The ORIGIN of the first poisoned block of piece j at a device; blocks count through the whole vector. -/
def originOf (dev j blocks : Nat) (bad : List Bool) : Option (Nat × Nat) :=
  (bad.zipIdx.find? (·.1)).map (fun p => (dev, j * blocks + p.2))

/-- Bytes of a vote count: the narrowest of 1, 2 and 4 that holds n (R328). -/
def voteWidth (n : Nat) : Nat := if n < 256 then 1 else if n < 65536 then 2 else 4
/-- The counts of one mask. -/
def voteCounts (n : Nat) (mask : List Byte) : List Byte :=
  (mask.flatMap (fun b => (List.range 8).map (fun i => b2n (b.getLsbD i)))).flatMap (leBytes (voteWidth n))
/-- Adds vote counts. DEDUCED: log 90. -/
def voteAdd (n : Nat) (a b : List Byte) : List Byte :=
  let w := voteWidth n
  let f := fun (l : List Byte) => (chunksOf w (l.length / w) l).map leNat
  ((f a).zip (f b)).flatMap (fun p => leBytes w (p.1 + p.2))
/-- Packs bits as in R65. -/
def maskBytes (l : List Bool) : List Byte :=
  (chunksOf 8 (ceilDiv l.length 8) l).map (fun c => BitVec.ofNat 8 (c.zipIdx.foldl (fun a p => a + b2n p.1 * 2 ^ p.2) 0))
/-- The majority mask of vote counts. -/
def voteMask (n : Nat) (l : List Byte) : List Byte :=
  maskBytes ((chunksOf (voteWidth n) (l.length / voteWidth n) l).map (fun c => decide (n < 2 * leNat c)))

/-- A number of n bytes of a record with the number at `off` replaced. -/
def recSet (b : List Byte) (off n v : Nat) : List Byte := b.take off ++ leBytes n v ++ b.drop (off + n)

/-- This device's record for the closing reduction of step g (R330). -/
def closeRecord (s : State) (tag : BitVec 12) (g : BitVec 48) (tokens : Nat) (veto : Bool) : List Byte :=
  let j := getJob s tag
  let bad := (j.poisoned.filter (fun p => p.1 == g)).foldl (fun a p => minOrigin a (some p.2)) none
  let org := bad.getD (0, 0)
  let kept := j.kept.filter (fun k => k.step == g)
  let sums := fun (q : Nat) => (kept.filter (fun k => k.lgrp == q)).mergeSort (fun a b => decide (a.collId ≤ b.collId))
  let has := (List.range 64).foldl (fun a q => if (sums q).isEmpty then a else a + 2 ^ q) 0
  leBytes 6 g.toNat ++ leBytes 1 (b2n veto + 2 * b2n bad.isSome) ++ leBytes 1 0 ++ leBytes 2 org.1 ++ leBytes 4 org.2 ++ leBytes 2 0
    ++ leBytes 4 tokens ++ leBytes 8 has ++ leBytes 36 0
    ++ (List.range 64).flatMap (fun q =>
      leBytes 8 ((sums q).foldl (fun a k => add64 a k.sl) 0).toNat ++ leBytes 8 ((sums q).foldl (fun a k => add64 a k.sr) 0).toNat
        ++ leBytes 8 ((sums q).foldl (fun a k => max a k.n) 0))

/-- Combines two closing records (R330). -/
def closeCombine (a b : List Byte) : List Byte :=
  let fa := recF a 6 1
  let fb := recF b 6 1
  let oa := if bit fa 1 then some (recF a 8 2, recF a 10 4) else none
  let ob := if bit fb 1 then some (recF b 8 2, recF b 10 4) else none
  let org := (minOrigin oa ob).getD (0, 0)
  let flags := b2n (bit fa 0 || bit fb 0) + 2 * b2n (bit fa 1 || bit fb 1)
  a.take 6 ++ leBytes 1 flags ++ leBytes 1 0 ++ leBytes 2 org.1 ++ leBytes 4 org.2 ++ (a.drop 14).take 6
    ++ leBytes 8 (Nat.lor (recF a 20 8) (recF b 20 8)) ++ leBytes 36 0
    ++ (List.range 64).flatMap (fun q =>
      let f := fun (x : List Byte) (o : Nat) => BitVec.ofNat 64 (recF x (64 + 24 * q + o) 8)
      leBytes 8 (add64 (f a 0) (f b 0)).toNat ++ leBytes 8 (add64 (f a 8) (f b 8)).toNat ++ leBytes 8 (max (f a 16).toNat (f b 16).toNat))

/-- The step summary that a closing record spells. -/
def closeSummary (b : List Byte) : StepRecord :=
  { step := BitVec.ofNat 48 (recF b 0 6), veto := bit (recF b 6 1) 0, poison := bit (recF b 6 1) 1, originDev := BitVec.ofNat 16 (recF b 8 2),
    originBlk := BitVec.ofNat 32 (recF b 10 4), tokens := BitVec.ofNat 32 (recF b 16 4),
    groups := ((List.range 64).filter (fun q => bit (recF b 20 8) q)).map (fun q =>
      (q, BitVec.ofNat 64 (recF b (64 + 24 * q) 8), BitVec.ofNat 64 (recF b (72 + 24 * q) 8), recF b (80 + 24 * q) 8)) }

/-- The digest of READY (R323), over the fields in the rule's order at their descriptor widths (DESIGN CHOICE, log 25). -/
def collDigest (s : State) (k : Coll) : BitVec 32 :=
  let f := fun (o n : Nat) => leBytes n (k.fld o n)
  BitVec.ofNat 32 (crc32 (f 4 1 ++ f 5 1 ++ f 7 1 ++ f 12 4 ++ f 40 6 ++ f 46 1 ++ f 48 3 ++ f 52 2 ++ f 56 4
    ++ (k.members s).flatMap (leBytes 2)))

/-! ### Messages -/

/-- The bytes of a collective message: a header of 64 bytes, the data, the poison bits and the sums of squares. The spec gives no
layout (DESIGN CHOICE, log 24). -/
def collEncode (kind : CollKind) (d : CollData) : List Byte :=
  let code := match kind with
    | .ready => 0
    | .data => 1
    | .done => 2
    | .finish => 3
    | .abort => 4
    | .release => 5
  let o := d.origin.getD (0, 0)
  let bits_ := maskBytes d.poison
  let head := leBytes 1 code ++ leBytes 1 d.group ++ leBytes 1 (b2n d.gather + 2 * b2n d.veto + 4 * b2n d.origin.isSome) ++ leBytes 1 d.attempt
    ++ leBytes 4 d.collId ++ leBytes 4 d.rank ++ leBytes 4 d.piece ++ leBytes 4 d.node ++ leBytes 4 d.version.toNat ++ leBytes 2 d.status.toNat
    ++ leBytes 2 o.1 ++ leBytes 4 o.2 ++ leBytes 4 d.digest.toNat ++ leBytes 4 d.shard.toNat ++ leBytes 6 d.step.toNat
    ++ leBytes 4 d.poison.length ++ leBytes 4 d.sumsq.length ++ leBytes 10 0
  head ++ d.data ++ bits_ ++ d.sumsq.flatMap (fun x => leBytes 8 x.toNat)

/-- The collective message that bytes spell (DESIGN CHOICE, log 24). -/
def collDecode (b : List Byte) : CollKind × CollData :=
  let np := recF b 46 4
  let ns := recF b 50 4
  let len := b.length - 64 - ceilDiv np 8 - 8 * ns
  let fl := recF b 2 1
  let bits_ := (b.drop (64 + len)).take (ceilDiv np 8)
  let kind : CollKind := match recF b 0 1 with
    | 0 => .ready
    | 1 => .data
    | 2 => .done
    | 3 => .finish
    | 4 => .abort
    | _ => .release
  (kind,
   { group := recF b 1 1, collId := recF b 4 4, attempt := recF b 3 1, rank := recF b 8 4, piece := recF b 12 4, node := recF b 16 4,
     gather := bit fl 0, data := (b.drop 64).take len, poison := (List.range np).map (fun i => bit (leNat bits_) i),
     sumsq := (chunksOf 8 ns (b.drop (64 + len + ceilDiv np 8))).map (fun c => BitVec.ofNat 64 (leNat c)),
     veto := bit fl 1, origin := if bit fl 2 then some (recF b 26 2, recF b 28 4) else none, version := BitVec.ofNat 32 (recF b 20 4),
     status := BitVec.ofNat 16 (recF b 24 2), digest := BitVec.ofNat 32 (recF b 32 4), shard := BitVec.ofNat 24 (recF b 36 4),
     step := BitVec.ofNat 48 (recF b 40 6) })

/-- Whether a contribution to the step of a collective carries the step veto now (R195). -/
def stepVeto (s : State) (k : Coll) : Bool := k.step != 0 && stepVetoed s k.tag k.step

/-- The fields every message of this participant carries. -/
def collBase (s : State) (k : Coll) : CollData :=
  { group := k.group, collId := k.collId, attempt := k.attempt, rank := k.me s, piece := 0, node := 0, gather := false, data := [],
    poison := [], sumsq := [], veto := stepVeto s k, origin := none, version := 0, status := 0, digest := 0,
    shard := 0, step := k.step }

/-- Sends a message to the member of a rank over a hub (R320), with the step veto as it stands when the message leaves (R195). A message
that fails at once interrupts the attempt (R318, R331). -/
def collSend (key : CollKey) (rank hub : Nat) (kind : CollKind) (d : CollData) : State → State :=
  withColl key (fun k s =>
    let d := { d with veto := d.veto || stepVeto s k }
    let s := collBytesCount hub d.data.length s
    let m := reqMsg 6 0 0 (jobEpoch s k.tag) k.tag false 0 0 (collEncode kind d)
    let owner : MsgOwner := if kind = .abort then .none else .coll k.group k.collId k.tag
    let q := sendSeq hub (nth 0 (k.members s) rank) 0 m owner s
    if q.1 ≠ 0 ∧ kind ≠ .abort then collSet { k with broken := some k.attempt } q.2 else q.2)

/-- Sends data to a member, once its READY has arrived (R323). -/
def collSendData (key : CollKey) (rank : Nat) (d : CollData) : State → State :=
  withColl key (fun k s =>
    if k.ready.contains rank then collSend key rank (k.side (if k.cop = 4 then rank else d.piece)) .data d s
    else collSet { k with waiting := k.waiting ++ [(rank, d)] } s)
/-- Sends data to every other member. -/
def collSendAll (key : CollKey) (d : CollData) (s : State) : State :=
  withColl key (fun k s => forAll (otherRanks (k.n s) (k.me s)) s (fun r => collSendData key r d)) s

/-! ### Endings (R320, R331) -/

/-- A collective ends here: its record, the messages that await an answer for it and those not yet taken are forgotten. -/
def collForget (key : CollKey) (s : State) : State :=
  { s with colls := s.colls.filter (fun k => k.key != key)
           collIn := s.collIn.filter (fun p => !(p.1 == key.tag && p.2.2.group == key.group && p.2.2.collId == key.collId))
           awaited := s.awaited.map (fun a => if a.owner = .coll key.group key.collId key.tag then { a with owner := .none } else a) }

/-- A collective fails at this participant: `COLL_FAULT`, the veto of its step (R195, R331) and the descriptor (R298). -/
def collFail (key : CollKey) (code sub : Nat) : State → State :=
  withColl key (fun k s =>
    let page := collPage k.lead
    let s := recordFirst s (page + 0x118) (packWord [(48, code), (40, sub), (32, k.group % 256), (0, k.collId)])
    let s := if code = 0x5005 then raiseFault page code (some k.tag) (bump s (page + 0x810)) else s
    let s := if k.step ≠ 0 then markVeto k.tag k.step s else s
    descFail k.cluster k.ring k.count code 0 true (collForget key s))

/-- A local read or write failed with a code (R320); a bridge that is down interrupts the collective (R331, R407). -/
def collLocal (key : CollKey) (code : Nat) : State → State :=
  if code = bridgeFailCode then withColl key (fun k s => collSet { k with broken := some k.attempt } s)
  else collFail key 0x5005 4

/-- A collective completes: the descriptor has moved everything (R297), and the census events of its steps set out, since no attempt
follows this one (R230, R231, R331; DEDUCED, log 138). A reduce-scatter's delivered bitmap counts its bits (R234). On a device that owns
no shard the end of a reduction is a last contribution of its step (R401). -/
def collComplete (key : CollKey) : State → State :=
  withColl key (fun k s =>
    let s := bump (collForget key s) (collPage k.lead + 0x800)
    let s := if bit (k.fld 1 1) 3 then
        forAll k.counts s (fun n => censusSend (some k.tag) (BitVec.ofNat 12 (k.fld 2 2 % 4096)) n)
      else s
    let s := if k.cop = 1 then addCtr s (numericsPage + 0x828) ((k.bits.flatMap (·.2)).filter id).length else s
    let s := if k.reduces && k.step != 0 && (getJob s k.tag).shards.isEmpty then lastContribution k.tag k.step s else s
    descLand k.cluster k.ring k.count s)

/-! ### Deliveries -/

/-- Writes bytes at a displacement of one of the descriptor's addresses (R322). -/
def collWrite (key : CollKey) (addr disp : Nat) (l : List Byte) : State → State :=
  withColl key (fun k s =>
    match placeOf s k.cluster k.tag [0, 1, 2] (BitVec.ofNat 64 (k.fld addr 8)) (disp + l.length) 0 with
    | .bad code _ => collLocal key code s
    | .ok (.win a w off) =>
      let q := windowMessage (.desc k.cluster k.ring k.count) a w .fabric k.tag (jobEpoch s k.tag) (BitVec.ofNat 24 (k.fld 60 3)) (off + disp) l s
      if q.1 ≠ 0 then collLocal key q.1 q.2 else q.2
    | .ok p =>
      let q := placeWrite k.cluster k.ring k.count p disp l s
      if q.1 ≠ 0 then collLocal key q.1 q.2 else q.2)

/-- A census event of a step of the running attempt (R231): the contribution on entry, or a result on delivery (R230). -/
def collCount (key : CollKey) (n : CensusCounts) : State → State :=
  withColl key (fun k => collSet { k with counts := k.counts ++ [n] })

/-- A poisoned result of a step is kept for the step's closing record (R326, R330). -/
def notePoison (tag : BitVec 12) (g : BitVec 48) (bad : List Bool) (o : Option (Nat × Nat)) (s : State) : State :=
  if g = 0 ∨ ¬ bad.any id then s
  else
    let j := getJob s tag
    putJob s tag { j with poisoned := j.poisoned ++ [(g, o.getD (0, 0))] }

/-- Whether a collective keeps the pieces that reach it until it has all: a leased gather into a window, whose messages would count as
arrived under R110 before an owner's refusal (R195). DESIGN CHOICE: log 139. -/
def Coll.keeps (k : Coll) : Bool := k.leased && wfld (BitVec.ofNat 64 (k.fld 24 8)) 63 60 == 2
/-- Delivers kept pieces once the last of them is there. -/
def collPour (key : CollKey) : State → State :=
  withColl key (fun k s =>
    if k.pieces.length < k.n s then s
    else forAll k.pieces s (fun p => collWrite key 24 (p.1 * k.piece) p.2))

/-- A finished piece is delivered here: its values, its poison bits and, with the last piece, the bitmap (R322, R326). -/
def collPlace (key : CollKey) (piece : Nat) (vals : List Byte) (bad : List Bool) (origin : Option (Nat × Nat)) (n : CensusCounts) : State → State :=
  withColl key (fun k s =>
    if k.placed.contains piece then s
    else
      let len := k.piece
      let k := { k with placed := piece :: k.placed, bits := tblSet [] k.bits piece bad }
      let s := collBytesCount (k.side piece) (min len vals.length) (collCount key n (collSet k s))
      let s := if k.reduces then notePoison k.tag k.step bad origin s else s
      let s := if k.keeps then
          collPour key (withColl key (fun k => collSet { k with pieces := tblIns k.pieces piece (vals.take len) }) s)
        else collWrite key 24 (if k.cop = 1 then 0 else piece * len) (vals.take len) s
      if k.cop = 1 then collWrite key 32 0 (maskBytes bad) s
      else if k.cop = 3 ∧ k.placed.length = k.n s then
        collWrite key 32 0 (maskBytes ((List.range (k.n s)).flatMap (fun r => tblGet [] k.bits r))) s
      else s)

/-- The step summary arrives with a closing record (R330, R217, R218, R237); the kept sums of the step end with it. -/
def stepSummary (tag : BitVec 12) (r : StepRecord) (s : State) : State :=
  let s := summaryAct tag r (summaryWatch tag r s)
  let j := getJob s tag
  putJob s tag { j with kept := j.kept.filter (fun k => k.step != r.step), poisoned := j.poisoned.filter (fun p => p.1 != r.step) }

/-- A closing record is delivered here, once. -/
def collSummary (key : CollKey) (rec_ : List Byte) : State → State :=
  withColl key (fun k s =>
    if k.placed.contains 0 then s
    else
      let s' := collSet { k with placed := [0], summed := true } s
      if k.summed then s' else stepSummary k.tag (closeSummary rec_) s')

/-- The result of a tree stands at its root (R322, R324, R327, R328, R330). -/
def collResult (key : CollKey) (j : Nat) (p : CollPart) : State → State :=
  withColl key (fun k s =>
    let d := { collBase s k with piece := j, gather := true, data := p.vals, poison := p.poison, origin := p.origin }
    match k.cop with
    | 1 =>
      let s := if k.noise then
          let sr := sumClean p.poison (blockSumsq k.fmt (partVals k.fmt k.piece p.vals))
          let jb := getJob s k.tag
          let lg := k.fld 46 1
          let old := jb.kept.filter (fun x => !(x.step == k.step && x.lgrp == lg && x.group == k.group && x.collId == k.collId))
          let rec_ : KeptSum := { step := k.step, lgrp := lg, group := k.group, collId := k.collId, sl := sumClean p.poison p.sumsq, sr := sr, n := k.n s }
          putJob s k.tag { jb with kept := old ++ [rec_] }
        else s
      collPlace key j p.vals p.poison p.origin p.cen s
    | 3 => collPlace key j p.vals p.poison p.origin p.cen (collSendAll key d s)
    | 5 =>
      let m := voteMask (k.n s) p.vals
      collPlace key j m [] none (byteCounts k.fmt m) (collSendAll key { d with data := m } s)
    | _ => collSummary key p.vals (collSendAll key { d with veto := d.veto || bit (recF p.vals 6 1) 0 } s))

/-- Combines a received partial into a node's own, left operand first (R324 to R328). -/
def combinePart (s : State) (k : Coll) (j : Nat) (p : CollPart) (d : CollData) : CollPart :=
  match k.cop with
  | 5 => { p with vals := voteAdd (k.n s) p.vals d.data, level := 2 * p.level }
  | 7 => { p with vals := closeCombine p.vals d.data, level := 2 * p.level }
  | _ =>
    let q := combineVals k.fmt k.piece p.vals d.data
    let made := blockBad k.fmt (partVals k.fmt k.piece q.1)
    let fresh := (made.zip (p.poison.zip d.poison)).map (fun x => x.1 && !x.2.1 && !x.2.2)
    { p with vals := q.1, cen := if k.fmt = 0 then partCounts 0 k.piece q.1 else q.2
             poison := (made.zip (p.poison.zip d.poison)).map (fun x => x.1 || x.2.1 || x.2.2)
             sumsq := (p.sumsq.zip d.sumsq).map (fun x => add64 x.1 x.2)
             origin := minOrigin (minOrigin p.origin d.origin) (originOf (ownAddr s) j (k.piece / 4096) fresh), level := 2 * p.level }

/-- A node combines every partial that has arrived in level order, and then sends its own or holds the result (R324); `fuel` bounds the levels. -/
def collAdvance (key : CollKey) (j : Nat) : Nat → State → State
  | 0, s => s
  | f + 1, s =>
    match collOf s key with
    | none => s
    | some k =>
      let n := k.n s
      let v := treeNode n j (k.me s)
      match tblFind k.parts j with
      | none => s
      | some p =>
        if p.sent then s
        else if v % (2 * p.level) ≠ 0 ∨ n ≤ v + p.level then
          let s := collSet { k with parts := tblIns k.parts j { p with sent := true } } s
          match rankParent n j (k.me s) with
          | some r =>
            let veto := (collBase s k).veto || (k.cop == 7 && bit (recF p.vals 6 1) 0)
            collSendData key r { collBase s k with piece := j, node := v, data := p.vals, poison := p.poison, sumsq := p.sumsq, veto := veto
                                                   origin := p.origin } s
          | none => collResult key j p s
        else match k.got.find? (fun d => d.piece == j && d.node == v + p.level) with
          | none => s
          | some d =>
            collAdvance key j f (collSet { k with got := k.got.erase d, parts := tblIns k.parts j (combinePart s k j p d) } s)

/-- A partial enters at its leaf. -/
def collEnter (key : CollKey) (j : Nat) (p : CollPart) : State → State :=
  withColl key (fun k s => collAdvance key j 18 (collSet { k with parts := tblIns k.parts j p } s))

/-! ### Contributions -/

/-- Reads bytes of SRC. -/
def collRead (k : Coll) (n : Nat) (s : State) : Nat × List Byte × State :=
  match placeOf s k.cluster k.tag [0, 1] (BitVec.ofNat 64 (k.fld 16 8)) n 0 with
  | .bad code _ => (code, [], s)
  | .ok p => placeRead k.cluster k.ring k.count p 0 n s

/-- The scale codes of n elements of an MX contribution: free values, since the spec does not say where they stand (DESIGN CHOICE, log 26). -/
def drawScales : Nat → State → List Byte × State
  | 0, s => ([], s)
  | n + 1, s =>
    let q := drawFree s
    let r := drawScales n q.2
    (q.1.setWidth 8 :: r.1, r.2)

/-- A contribution to piece j of a reduction (R326, R327). -/
def collPartOf (s : State) (k : Coll) (j : Nat) (vals : List Byte) : CollPart :=
  let v := partVals k.fmt k.piece vals
  let bad := blockBad k.fmt v
  { CollPart.reset with vals := vals, poison := bad, sumsq := if k.noise then blockSumsq k.fmt v else [],
                        origin := originOf (ownAddr s) j (k.piece / 4096) bad,
                        cen := partCounts k.fmt k.piece vals }

/-- Every piece of a reduction enters. -/
def enterPieces (key : CollKey) (l : List Byte) : List Nat → State → State
  | [], s => s
  | j :: js, s =>
    match collOf s key with
    | none => s
    | some k =>
      let q := if isMx k.fmt then drawScales (k.piece / 32) s else ([], s)
      let p := collPartOf q.2 k j ((l.drop (j * k.piece)).take k.piece ++ q.1)
      enterPieces key l js (collEnter key j p (collCount key p.cen q.2))

/-- The owner's piece of a gather is delivered here and sent to every other member (R322, R329). -/
def gatherOwn (key : CollKey) (vals : List Byte) (version : BitVec 32) : State → State :=
  withColl key (fun k s =>
    let me := k.me s
    let d := { collBase s k with piece := me, gather := true, data := vals, version := version }
    let q := moveAll k.fmt vals s
    collPlace key me vals [] none q.1 (collCount key q.1 (collSendAll key d q.2)))

/-- A refusal of a lease operation: STATUS to every other member, and the gather fails here (R195, R329). -/
def collRefuse (key : CollKey) (code : Nat) : State → State :=
  withColl key (fun k s =>
    let me := k.me s
    let d := { collBase s k with piece := me, gather := true, status := BitVec.ofNat 16 code }
    let s := forAll (otherRanks (k.n s) me) s (fun r => collSend key r (k.side me) .data d)
    collFail key code 0 (markVeto k.tag k.step (leaseFault code (ownAddr s) k.step (k.shard me) k.tag s)))

/-- The owner serves its shard from CUR or RET (R190, R191, R329): the W operand at the start of the buffer. -/
def collServe (key : CollKey) (ret : Bool) (version : BitVec 32) : State → State :=
  withColl key (fun k s =>
    match shardHdr s k.tag (k.shard (k.me s)) with
    | none => collLocal key 0 s
    | some h =>
      let hdr := shardView s k.tag (k.shard (k.me s)) h
      let q := tensorRead (descOwner k.cluster k.ring k.count) k.tag (k.cluster / 16) (if hdr.cur != ret then hdr.buf1 else hdr.buf0) k.piece s
      if q.1 ≠ 0 then collLocal key q.1 q.2.2 else gatherOwn key q.2.1 version q.2.2)

/-- What an owner does with the answer of its lease record. -/
def collAnswer (key : CollKey) (a : LeaseAns) (s : State) : State :=
  match a with
  | .serve ret v => collServe key ret v s
  | .stale => collRefuse key shardStale s
  | .deferred => withColl key (fun k s => collSet { k with leaseWait := true } s) s

/-- The answer to a repeated COLL_ID (R329): the buffer bound to the step, with no further lease. -/
def leaseRepeat (s : State) (tag : BitVec 12) (shard : BitVec 24) (g : BitVec 48) (group collId : Nat) : LeaseAns :=
  let r := getLease s tag shard
  if r.defer.any (fun d => d.group == group && d.collId == collId) then .deferred
  else if r.step = g ∧ r.n ≠ 0 then .serve false (shardView s tag shard ((shardHdr s tag shard).getD 0)).version
  else match r.ret with
    | some b => if b.step = g ∧ b.n ≠ 0 then .serve true b.version else .stale
    | none => .stale

/-- The lease operation of a leased gather at its owner (R329): once for each record and COLL_ID. -/
def collLease (key : CollKey) : State → State :=
  withColl key (fun k s =>
    let shard := k.shard (k.me s)
    let r := getLease s k.tag shard
    if r.applied.contains (k.group, k.collId) then collAnswer key (leaseRepeat s k.tag shard k.step k.group k.collId) s
    else
      let q := if k.fld 7 1 / 4 % 4 = 1 then leaseNew k.tag shard k.step (k.n s) k.group k.collId s else leaseAgain k.tag shard k.step s
      let s := if (shardHdr q.2 k.tag shard).isNone then q.2
        else
          let r := getLease q.2 k.tag shard
          putLease q.2 k.tag shard { r with applied := r.applied ++ [(k.group, k.collId)] }
      collAnswer key q.1 s)

/-- Deferred NEWs that have been answered reach their gathers (R190, R329). -/
def collServed (s : State) : State :=
  forAll s.jobs s (fun p s =>
    let tag := BitVec.ofNat 12 p.1
    forAll p.2.leases s (fun q s =>
      let shard := BitVec.ofNat 24 q.1
      let r := getLease s tag shard
      forAll r.served (if r.served.isEmpty then s else putLease s tag shard { r with served := [] }) (fun a s =>
        let key : CollKey := ⟨tag, a.1, a.2.1⟩
        withColl key (fun k s =>
          if ¬ k.leaseWait then s
          else
            let s := collSet { k with leaseWait := false } s
            match a.2.2 with
            | some v => collServe key false v s
            | none => collRefuse key shardStale s) s)))

/-! ### The closing reduction's gate (R215, R400, R401) -/

/-- Whether every shard that the device owns in a job has a run of step g that has completed or been refused. -/
def allRan (s : State) (tag : BitVec 12) (g : BitVec 48) : Bool :=
  let j := getJob s tag
  j.shards.all (fun p => j.ran.contains (g, BitVec.ofNat 24 p.1))

/-- A step window that opens now (R400). -/
def openWindow (s : State) : StepWindow :=
  { alarm := false, opened := BitVec.ofNat 48 (devTime s), first := 0, held := false, release := 0, heldStep := 0,
    clean := none, closeKey := none }

/-- The window closes, the next one opens, and the closing contribution leaves with the veto of R215 and R400. -/
def contribute (key : CollKey) (force : Bool) : State → State :=
  withColl key (fun k s =>
    let j := getJob s k.tag
    let alarm := match j.window with
      | some w => w.alarm
      | none => false
    let s := putJob s k.tag { j with window := j.window.map (fun _ => openWindow s) }
    let s := if alarm then bump s (mgmtPage + 0x838) else s
    let rec_ := closeRecord s k.tag k.step (k.fld 56 4) (force || alarm || stepVetoed s k.tag k.step)
    collEnter key 0 { CollPart.reset with vals := rec_ } (collSet { k with mine := rec_ } s))

/-- The start of an attempt of CLOSE: the record of an earlier attempt again, or the hold of R215. With no shard and no reduction in the
step, the start itself counts as the last contribution (DEDUCED, log 27). -/
def closeStart (key : CollKey) : State → State :=
  withColl key (fun k s =>
    if k.mine ≠ [] then collEnter key 0 { CollPart.reset with vals := k.mine } s
    else
      let j := getJob s k.tag
      match j.window with
      | none => contribute key false s
      | some w =>
        let s := if j.shards.isEmpty ∧ w.heldStep ≠ k.step then lastContribution k.tag k.step s else s
        let j := getJob s k.tag
        if w.clean = some k.step ∧ allRan s k.tag k.step then contribute key false s
        else putJob s k.tag { j with window := j.window.map (fun w =>
          { w with held := true, closeKey := some (k.group, k.collId) }) })

/-- The held contribution of a job, with its step. -/
def heldClose (s : State) (tag : BitVec 12) : Option (CollKey × BitVec 48) :=
  match (getJob s tag).window with
  | some w =>
    match w.held, w.closeKey with
    | true, some g => (collOf s ⟨tag, g.1, g.2⟩).map (fun k => (k.key, k.step))
    | _, _ => none
  | none => none

/-- The clean interval of step g ends (R215, R401). -/
def cleanEnd (tag : BitVec 12) (g : BitVec 48) (s : State) : State :=
  let j := getJob s tag
  match j.window with
  | none => s
  | some w =>
    if w.heldStep ≠ g ∨ ¬ allRan s tag g then s
    else
      let s := putJob s tag { j with window := some { w with clean := some g } }
      match heldClose s tag with
      | some p => if p.2 = g then contribute p.1 false s else s
      | none => s

/-- `LEASE_TMO` has passed while a contribution is held (R215). -/
def heldTimeout (tag : BitVec 12) (s : State) : State :=
  match heldClose s tag with
  | some p => contribute p.1 true (markVeto tag p.2 (leaseFault leaseTimeoutCode (ownAddr s) p.2 0 tag s))
  | none => s

/-- The oldest deferred NEW of a shard is refused after `LEASE_TMO` (R194). -/
def deferTimeout (tag : BitVec 12) (shard : BitVec 24) (s : State) : State :=
  let r := getLease s tag shard
  match r.defer with
  | [] => s
  | d :: rest =>
    let s := putLease s tag shard { r with defer := rest }
    let key : CollKey := ⟨tag, d.group, d.collId⟩
    if (collOf s key).isSome then collRefuse key leaseTimeoutCode s else leaseFault leaseTimeoutCode (ownAddr s) d.step shard tag s

/-! ### Attempts (R323, R331) -/

/-- The first act of an attempt (R322, R329, R330). -/
def collBegin (key : CollKey) : State → State :=
  withColl key (fun k s =>
    let n := k.n s
    match k.cop with
    | 1 | 3 =>
      let q := collRead k (n * k.piece) s
      if q.1 ≠ 0 then collLocal key q.1 q.2.2 else enterPieces key q.2.1 (List.range n) q.2.2
    | 2 =>
      if k.leased then collLease key s
      else
        let q := collRead k k.piece s
        if q.1 ≠ 0 then collLocal key q.1 q.2.2 else gatherOwn key q.2.1 0 q.2.2
    | 4 =>
      let q := collRead k (n * k.piece) s
      if q.1 ≠ 0 then collLocal key q.1 q.2.2
      else
        let m := moveAll k.fmt q.2.1 q.2.2
        let part := fun (r : Nat) => (q.2.1.drop (r * k.piece)).take k.piece
        let s := forAll (otherRanks n (k.me s)) (collCount key m.1 m.2) (fun r s =>
          collSendData key r { collBase s k with piece := k.me s, gather := true, data := part r } s)
        let own := moveAll k.fmt (part (k.me s)) s
        collPlace key (k.me s) (part (k.me s)) [] none own.1 own.2
    | 5 =>
      let q := collRead k k.piece s
      if q.1 ≠ 0 then collLocal key q.1 q.2.2
      else
        let m := moveAll k.fmt q.2.1 q.2.2
        collEnter key 0 { CollPart.reset with vals := voteCounts n q.2.1 } (collCount key m.1 m.2)
    | 7 => closeStart key s
    | _ =>
      let me := k.me s
      let out := (List.range n).filter (fun r => !k.acks.contains r && !s.awaited.any (fun a =>
        a.owner == .coll k.group k.collId k.tag && a.dst == nth 0 (k.members s) r))
      forAll out s (fun r s =>
        if r = me then withColl key (fun k s => collSet { k with acks := r :: k.acks } s) (leaseRelease k.tag (k.shard r) k.step s)
        else collSend key r k.lead .release { collBase s k with shard := k.shard r } s))

/-- DONE toward rank 0 along the tree of piece 0, and FINISH from rank 0 (R331). -/
def collDone (key : CollKey) : State → State :=
  withColl key (fun k s =>
    let n := k.n s
    let me := k.me s
    let need := if k.cop = 1 ∨ k.cop = 5 ∨ k.cop = 7 then 1 else n
    if k.cop = 6 then (if k.acks.length = n then collComplete key s else s)
    else if k.doneSent ∨ k.placed.length < need ∨ ¬ (writesOf s (descOwner k.cluster k.ring k.count)).isEmpty
      ∨ rowsWaitFrom s (.desc k.cluster k.ring k.count) ∨ ¬ (rankKids n 0 me).all (k.done.contains ·) then s
    else
      let s := collSet { k with doneSent := true } s
      match rankParent n 0 me with
      | some r => collSend key r k.lead .done (collBase s k) s
      | none => collComplete key (forAll (otherRanks n me) s (fun r s => collSend key r k.lead .finish (collBase s k) s)))

/-- One message of the running attempt. -/
def collHandle (key : CollKey) (kind : CollKind) (d : CollData) : State → State :=
  withColl key (fun k s =>
    let s := if d.veto ∧ k.step ≠ 0 then markVeto k.tag k.step s else s
    match kind with
    | .ready =>
      if d.digest ≠ collDigest s k then collFail key 0x5005 1 s
      else
        let out := k.waiting.filter (fun p => p.1 == d.rank)
        let s := collSet { k with ready := d.rank :: k.ready, waiting := k.waiting.filter (fun p => p.1 != d.rank) } s
        forAll out s (fun p => collSendData key p.1 p.2)
    | .data =>
      if d.status ≠ 0 then
        collFail key d.status.toNat 0 (markVeto k.tag k.step (leaseFault d.status.toNat (nth 0 (k.members s) d.rank) k.step (k.shard d.rank) k.tag s))
      else if d.gather then
        (if k.cop = 7 then collSummary key d.data s
        else
          let q := if k.reduces then (partCounts k.fmt k.piece d.data, s) else moveAll k.fmt (d.data.take k.piece) s
          collPlace key d.piece d.data d.poison d.origin q.1 q.2)
      else collAdvance key d.piece 18 (collSet { k with got := k.got ++ [d] } s)
    | .done => collSet { k with done := d.rank :: k.done } s
    | .finish => collComplete key s
    | .abort => collSet { k with broken := some d.attempt } s
    | .release => s)

/-- A collective message arrives (R331): messages of older attempts are dropped, those of an attempt that has not begun here are kept. -/
def collTake (tag : BitVec 12) (kind : CollKind) (d : CollData) (s : State) : State :=
  match kind with
  | .release => collServed (leaseRelease tag d.shard d.step s)
  | _ =>
    let key : CollKey := ⟨tag, d.group, d.collId⟩
    match collOf s key with
    | none => { s with collIn := s.collIn ++ [(tag, kind, d)] }
    | some k =>
      if d.attempt < k.attempt then s
      else if d.attempt = k.attempt ∨ kind = .abort then collHandle key kind d s
      else { s with collIn := s.collIn ++ [(tag, kind, d)] }

/-- An attempt begins (R323, R331): READY to every member that sends data here, the messages that came early, and the first act. -/
def collAttempt (key : CollKey) : State → State :=
  withColl key (fun k s =>
    let s := collSet { k with ready := [], parts := [], got := [], waiting := [], placed := [], bits := [], pieces := [], counts := []
                              done := [], doneSent := false, leaseWait := false, broken := none } s
    let s := forAll (dataFrom k.cop (k.n s) (k.me s)) s (fun r s => collSend key r k.lead .ready { collBase s k with digest := collDigest s k } s)
    let early := s.collIn.filter (fun p => (⟨p.1, p.2.2.group, p.2.2.collId⟩ : CollKey) == key)
    let s := { s with collIn := s.collIn.filter (fun p => !((⟨p.1, p.2.2.group, p.2.2.collId⟩ : CollKey) == key)) }
    collBegin key (forAll early s (fun p => collTake p.1 p.2.1 p.2.2)))

/-- The restart after an interruption of attempt a, of which every member is told, or the failure after `COLL_RETRY` restarts (R331). A
member that has left the attempt drops the ABORT. -/
def collRestart (key : CollKey) (a : Nat) : State → State :=
  withColl key (fun k s =>
    let s := forAll (otherRanks (k.n s) (k.me s)) s (fun r s => collSend key r k.lead .abort { collBase s k with attempt := a } s)
    if a < k.attempt then collSet { k with broken := none } s
    else if regF s (collPage k.lead + 0x108) 3 0 < a + 1 then collFail key 0x5005 3 s
    else
      let s := bump (collSet { k with attempt := a + 1, broken := none } s) (collPage k.lead + 0x808)
      let s := if k.cop = 6 then s
        else { s with awaited := s.awaited.map (fun x => if x.owner = .coll k.group k.collId k.tag then { x with owner := .none } else x) }
      collAttempt key s)

/-- What follows an event of a collective: restarts, which `fuel` bounds (`COLL_RETRY` is below 16), and then DONE. -/
def collSettle (key : CollKey) : Nat → State → State
  | 0, s => s
  | f + 1, s =>
    match collOf s key with
    | none => s
    | some k =>
      match k.broken with
      | some a => collSettle key f (collRestart key a s)
      | none => collDone key s

/-- A collective message arrives and what follows from it. -/
def collArrive (tag : BitVec 12) (kind : CollKind) (d : CollData) (s : State) : State :=
  collSettle ⟨tag, d.group, d.collId⟩ 18 (collTake tag kind d s)

/-- A message of a collective failed (R318, R331): the attempt is interrupted. -/
def collInterrupt (key : CollKey) (s : State) : State :=
  collSettle key 18 (withColl key (fun k s => collSet { k with broken := some k.attempt } s) s)

/-- A message of a collective is acknowledged by device `dst`: a RELEASE completes when every owner's is (R329). -/
def collAcked (key : CollKey) (dst : Nat) (s : State) : State :=
  collSettle key 18 (withColl key (fun k s =>
    let r := (k.members s).idxOf dst
    if k.cop = 6 ∧ ¬ k.acks.contains r then collSet { k with acks := r :: k.acks } s else s) s)

/-- What every edge may bring a collective: a served lease, and DONE once its deliveries have landed. -/
def collTick (s : State) : State :=
  let s := collServed s
  forAll (s.colls.map Coll.key) s (fun key => collSettle key 18)

/-- The collectives that satisfy a test are abandoned, with ABORT to their members (R369). -/
def collAbandon (p : Coll → Bool) (s : State) : State :=
  forAll ((s.colls.filter p).map Coll.key) s (fun key s =>
    collForget key (withColl key (fun k s =>
      forAll (otherRanks (k.n s) (k.me s)) s (fun r s => collSend key r k.lead .abort (collBase s k) s)) s))

/-- A READY that has not arrived after `COLL_TMO` (R323). -/
def readyTimeout (key : CollKey) : State → State :=
  withColl key (fun k s =>
    if (dataTo k.cop (k.n s) (k.me s)).all (k.ready.contains ·) then s else collFail key 0x5005 2 s)

/-! ### Descriptors (R322) -/

/-- Whether the fields of a descriptor keep R322 for a group of n members. -/
def collFieldsOk (b : List Byte) (n : Nat) : Bool :=
  let cop := recF b 4 1
  let fmt := recF b 5 1
  let fl := recF b 7 1
  let len := recF b 12 4
  let lease := bit fl 1
  let lop := fl / 4 % 4
  let red := cop == 1 || cop == 3
  let moves := decide (1 ≤ cop) && decide (cop ≤ 5)
  let zero := fun (o k : Nat) => recF b o k == 0
  decide (1 ≤ cop) && decide (cop ≤ 7) && decide (fl < 16) && zero 47 1 && zero 51 1 && zero 54 2 && zero 63 1 && decide (recF b 46 1 < 64)
    && (if red then [0, 1, 5, 6].contains fmt else if cop == 5 then fmt == 0xE else if moves then decide (fmt < 16) else fmt == 0)
    && (!bit fl 0 || cop == 1) && (!lease || cop == 2) && (if lease then lop == 1 || lop == 2 else lop == 0)
    && (if moves then len != 0 && len % (if red then 4096 else 64) == 0 else zero 12 4 && zero 16 8 && zero 24 8)
    && (!lease || zero 16 8) && (red || zero 32 8) && (bit fl 0 || zero 46 1) && (lease || cop == 6 || zero 48 3) && (cop != 6 || zero 52 2)
    && (cop == 7 || zero 56 4) && (fld (recF b 24 8) 63 60 == 2 || zero 60 3) && decide (recF b 48 3 + n ≤ 2 ^ 24)

/-- The stores in which a place lies, with its offset there. -/
def placeStores (s : State) : Place → List (Store × Nat)
  | .loc 0 units off => units.map (fun t => (.sp t, off))
  | .loc 1 units off => units.map (fun c => (.car c, off))
  | .win a w off => [(a, winBase s a w + off)]
  | _ => []
/-- Whether two places share bytes. -/
def placesMeet (s : State) (a : Place) (n : Nat) (b : Place) (m : Nat) : Bool :=
  let hit := fun (x y : Nat) => decide (x < y + m) && decide (y < x + n)
  match a, b with
  | .tensor x, .tensor y => hit x y
  | .loc sp u x, .loc sp' u' y => sp == sp' && u == u' && hit x y
  | _, _ => (placeStores s a).any (fun x => (placeStores s b).any (fun y => x.1 == y.1 && hit x.2 y.2))

/-- The body of a COLLECTIVE descriptor (R320, R322). -/
def collBody (c r : Nat) (n : BitVec 32) (b : List Byte) (s : State) : State :=
  let tag := descTag s c r n
  let g := recF b 6 1
  let ms := groupOf s tag g
  let key : CollKey := ⟨tag, g, recF b 8 4⟩
  let cop := recF b 4 1
  let len := recF b 12 4
  let k := ms.length
  let srcLen := if cop = 1 ∨ cop = 3 ∨ cop = 4 then k * len else len
  let dstLen := if cop = 1 ∨ cop = 5 then len else k * len
  let place := fun (off : Nat) (kinds : List Nat) (m : Nat) => placeOf s c tag kinds (BitVec.ofNat 64 (recF b off 8)) m 0
  let bad : Option (Nat × Nat) :=
    if ms.isEmpty ∨ ¬ collFieldsOk b k ∨ (collOf s key).isSome then some (descMalformed, 1)
    else if 6 ≤ cop then none
    else
      let src := if bit (recF b 7 1) 1 then none else some (place 16 [0, 1] srcLen)
      let map := if cop = 1 ∨ cop = 3 then some (place 32 [0, 1] (ceilDiv (ceilDiv dstLen 4096) 8)) else none
      match src, place 24 [0, 1, 2] dstLen, map with
      | some (.bad code sub), _, _ => some (code, sub)
      | _, .bad code sub, _ => some (code, sub)
      | _, _, some (.bad code sub) => some (code, sub)
      | some (.ok p), .ok q, _ => if placesMeet s p srcLen q dstLen then some (descMalformed, 1) else none
      | _, _, _ => none
  match bad with
  | some e => descFail c r n e.1 e.2 false s
  | none =>
    let co : Coll := { tag := tag, group := g, collId := recF b 8 4, cluster := c, ring := r, count := n, desc := b, attempt := 0,
                       ready := [], parts := [], got := [], waiting := [], placed := [], pieces := [], counts := [], bits := [], done := [],
                       doneSent := false, acks := [],
                       mine := [], summed := false, leaseWait := false, broken := none }
    loadThen c r n b (fun s => collSettle key 18 (collAttempt key { descWait c r n .coll s with colls := s.colls ++ [co] })) s

/-- Starts the COLLECTIVE descriptors of one COP; a reserved COP is refused by whichever start meets it. -/
def collStart (cop c r : Nat) (s : State) : State :=
  if ¬ blkEn s (collPage (cluHub c)) then s
  else descStart (fun b => recF b 0 1 == 6 && (recF b 4 1 == cop || recF b 4 1 == 0 || decide (7 < recF b 4 1))) collBody c r s

/-- A write that has waited `TIER_PROMOTE_TMO` (R280): of a collective's delivery it is a local failure (R320). -/
def promoteTmo (c r : Nat) (s : State) : State :=
  match (getRing s c r).flight.find? (fun d => !(writesOf s (descOwner c r d.count)).isEmpty) with
  | some d =>
    match s.colls.find? (fun k => k.cluster == c && k.ring == r && k.count == d.count) with
    | some k => collLocal k.key 0 (tierFault 0x3007 (((writesOf s (descOwner c r d.count)).head?.map (·.addr)).getD 0) s)
    | none => promoteTimeout c r s
  | none => s

/-! ### Meanings -/

/-- REDUCE_SCATTER (R322, R324). -/
def execReduceScatter (c : Nat) (ring : BitVec 6) (s : State) : Result := onCluster c s (collStart 1 c ring.toNat)
/-- ALL_GATHER (R322). -/
def execAllGather (c : Nat) (ring : BitVec 6) (s : State) : Result := onCluster c s (collStart 2 c ring.toNat)
/-- ALL_REDUCE (R322). -/
def execAllReduce (c : Nat) (ring : BitVec 6) (s : State) : Result := onCluster c s (collStart 3 c ring.toNat)
/-- ALL_TO_ALL (R322). -/
def execAllToAll (c : Nat) (ring : BitVec 6) (s : State) : Result := onCluster c s (collStart 4 c ring.toNat)
/-- VOTE (R328). -/
def execVote (c : Nat) (ring : BitVec 6) (s : State) : Result := onCluster c s (collStart 5 c ring.toNat)
/-- COLL_RELEASE (R329). -/
def execCollRelease (c : Nat) (ring : BitVec 6) (s : State) : Result := onCluster c s (collStart 6 c ring.toNat)
/-- COLL_CLOSE (R330). -/
def execCollClose (c : Nat) (ring : BitVec 6) (s : State) : Result := onCluster c s (collStart 7 c ring.toNat)
/-- COLL_READY_TIMEOUT (R323). -/
def execCollReadyTimeout (tag : BitVec 12) (group collId : Nat) (s : State) : Result := .next (readyTimeout ⟨tag, group, collId⟩ s)
/-- TIER_PROMOTE_TMO (R280). -/
def execTierPromoteTmo (c : Nat) (ring : BitVec 6) (s : State) : Result := onCluster c s (promoteTmo c ring.toNat)
/-- SHARD_COMMIT (R217): a commit that has been requested and that R193 allows. -/
def execShardCommit (tag : BitVec 12) (shard : BitVec 24) (s : State) : Result := .next (collTick (commitTry tag shard s))
/-- LEASE_TIMEOUT (R194, R215); `LEASE_TMO` 0 disables the check. -/
def execLeaseTimeout (tag : BitVec 12) (shard : BitVec 24) (kind : LeaseWait) (s : State) : Result :=
  if regF s (leasePage + 0x100) 31 0 = 0 then .next s
  else .next (collTick (match kind with
    | .deferredNew => deferTimeout tag shard s
    | .waitingCommit => commitTimeout tag shard s
    | .heldContribution => heldTimeout tag s))
/-- FORCE_RELEASE_CUR (R200). -/
def execForceReleaseCur (tag : BitVec 12) (shard : BitVec 24) (s : State) : Result := .next (collTick (forceCur tag shard s))
/-- FORCE_RELEASE_RET (R200). -/
def execForceReleaseRet (tag : BitVec 12) (shard : BitVec 24) (s : State) : Result := .next (collTick (forceRet tag shard s))
/-- STEP_SUMMARY (R217, R218, R237). -/
def execStepSummary (tag : BitVec 12) (r : StepRecord) (s : State) : Result := .next (collTick (stepSummary tag r s))
/-- CLEAN_INTERVAL_END (R215, R401). -/
def execCleanIntervalEnd (tag : BitVec 12) (step : BitVec 48) (s : State) : Result := .next (collTick (cleanEnd tag step s))

end Sys2Proof.Machine
end

