-- ==== Sys2Proof/Machine/Fabric.lean ====
section
/-! DEFINITION. The receiving side of the Lerpel transport (R302 to R306, R315 to R318, R332, R333): flits, admission, answers and their
effects on senders, ports, the installation record and the atomic port of a cluster. -/

namespace Sys2Proof.Machine

/-! ### Who waits for a message (R314, R316) -/

/-- The fabric atomic of a cluster ends (R333). -/
def amoDone (c : Nat) (value : BitVec 64) (code : Nat) (s : State) : State :=
  let s := if code = 0 then setReg s (clusterBase c + 0x668) value else s
  setReg s (clusterBase c + 0x670) (packWord [(62, 1), (0, code)])

/-- Whether an operation ends with its response and not with its ACK. -/
def hasResponse (op : Nat) : Bool := op == 3 || op == 4 || op == 5

/-- The sender of a message learns that it is acknowledged. -/
def ownerAcked (a : Awaited) (s : State) : State :=
  match a.owner with
  | .ring c r n => match findDesc s c r n with
    | some d => if d.wait = .ack then descLand c r n s else s
    | none => s
  | .coll g id tag => collAcked ⟨tag, g, id⟩ a.dst s
  | _ => s
/-- The sender of a message learns that it has failed. DEDUCED: log 76. -/
def ownerFailed (a : Awaited) (code : Nat) (s : State) : State :=
  match a.owner with
  | .ring c r n => descFail c r n code 0 false s
  | .amo c => amoDone c 0 code s
  | .coll g id tag => collInterrupt ⟨tag, g, id⟩ s
  | _ => s
/-- The sender of a request receives its response. -/
def ownerAnswered (a : Awaited) (m : Msg) (s : State) : State :=
  match a.owner with
  | .ring c r n => if m.op = 0x11 then readArrived c r n m.data s else copyClaimed c r n m.opa.toNat s
  | .amo c => amoDone c m.opa 0 s
  | .pour h q => pourClaimed h q m.opa.toNat s
  | _ => s

/-- A held message of a sequence is no longer held. -/
def txDrop (hub dst cls : Nat) (psn : BitVec 32) (s : State) : State :=
  let t := getTx s hub dst cls
  let same := t.nrPsn = some psn
  putTx s hub dst cls { t with held := t.held.filter (fun m => m.psn != psn), nrPsn := if same then none else t.nrPsn,
                               nrWait := if same then false else t.nrWait }
/-- Whether a sequence holds a message. -/
def txHolds (s : State) (hub dst cls : Nat) (psn : BitVec 32) : Bool := (getTx s hub dst cls).held.any (fun m => m.psn == psn)
/-- The awaited answer of a message. -/
def findAwaited (s : State) (hub dst cls : Nat) (psn : BitVec 32) : Option Awaited :=
  s.awaited.find? (fun a => a.hub == hub && a.dst == dst && a.cls == cls && a.psn == psn)

/-- A held message is acknowledged (R316). -/
def msgAcked (hub dst cls : Nat) (psn : BitVec 32) (s : State) : State :=
  if ¬ txHolds s hub dst cls psn then s
  else
    let s := txDrop hub dst cls psn s
    match findAwaited s hub dst cls psn with
    | none => s
    | some a => if hasResponse a.op then s else ownerAcked a { s with awaited := s.awaited.erase a }
/-- A held message fails at its sender with a code (R316 to R318, R332). -/
def msgFailed (code hub dst cls : Nat) (psn : BitVec 32) (s : State) : State :=
  if ¬ txHolds s hub dst cls psn then s
  else
    let s := fabFault code dst psn (txDrop hub dst cls psn s)
    match findAwaited s hub dst cls psn with
    | none => s
    | some a => ownerFailed a code { s with awaited := s.awaited.erase a }

/-- The request that a response answers: the oldest of its kind to its source (DESIGN CHOICE, log 28). -/
def answeredBy (s : State) (m : Msg) : Option Awaited :=
  let kind := fun (op : Nat) => if m.op = 0x11 then op == 3 else op == 4 || op == 5
  s.awaited.find? (fun a => a.dst == m.src && a.cls == 0 && kind a.op)
/-- The hub on the side of a message's destination unit, whose transport sees the message and answers it (R307, R309, R310); `here` where it
has none of its own. DESIGN CHOICE: log 18. -/
def unitHub (s : State) (here : Nat) (m : Msg) : Nat :=
  if m.op = 0x11 ∨ m.op = 0x12 then ((answeredBy s m).map (·.hub)).getD here
  else if m.op = 6 then
    let d := (collDecode m.data).2
    match collOf s ⟨m.tag, d.group, d.collId⟩ with
    | some k => k.lead
    | none => here
  else if addrTarget m.addr = 18 then wfld m.addr 46 46 else dieHub (wfld m.addr 47 46)
/-- A response reaches its request (R314). -/
def responseArrive (m : Msg) (s : State) : State :=
  match answeredBy s m with
  | none => s
  | some a => ownerAnswered a m { s with awaited := s.awaited.erase a }

/-! ### Admission (R315, R316, R332) -/

/-- A bit of `DEV_READY` (R360). -/
def devReady (s : State) (i : Nat) : Bool := wbit (reg s (devicePage + 0x100)) i

/-- Whether the functions that a sequenced message needs are ready (R332, R427): the transports, and for a request its target. -/
def msgReady (s : State) (m : Msg) : Bool :=
  addrValid s && devReady s 16 && (m.cls == 1 || (decide (s.rot.level.toNat < 2) &&
    (if m.op = 6 then devReady s 15 else if m.op = 2 ∧ addrTarget m.addr = 18 then devReady s 14 else devReady s (8 + wfld m.addr 47 46))))

/-- What a receive sequence does with a message or flit. -/
inductive Gate where
  | gap
  | stale
  | drop
  | again
  | notReady
  | take
  deriving DecidableEq, Repr

/-- The decision of R315, R316, R317 and R332; `psn` is absent for a flit that is not the first of its message. -/
def seqGate (r : RxSeq) (sameEpoch : Bool) (psn : Option (BitVec 32)) (fseq : BitVec 16) (ready : Bool) : Gate :=
  if ¬ r.synced then .gap
  else if ¬ sameEpoch then .stale
  else if r.gapSent then .drop
  else match psn with
    | some p =>
      if psnBelow p r.expected then .again
      else match r.nrPsn with
        | some q => if q ≠ p then .drop else if ready then .take else .notReady
        | none => if p ≠ r.expected ∨ fseq ≠ r.fseq then .gap else if ready then .take else .notReady
    | none => if r.nrPsn.isSome then .drop else if fseq ≠ r.fseq ∨ r.asm.isEmpty then .gap else .take

/-- A control message in answer to a message, from the address it was sent to. DEDUCED: log 85. -/
def replyCtl (s : State) (at_ : Nat) (m : Msg) (op : Nat) (epoch : BitVec 16) (opa : Nat) : Msg :=
  { ctlMsg s op at_ m.src m.shub m.cls epoch opa 0 with src := if addrValid s then ownAddr s else m.dst }

/-- What follows a message or flit that the transport of hub `at_` does not admit (R316, R317, R332); n is the number of its flits. A repeat of a message is answered
again as it was the first time, unless its first answer is still to come. DEDUCED: log 141. -/
def notAdmitted (g : Gate) (at_ : Nat) (m : Msg) (n : Nat) (s : State) : State :=
  let r := getRx s m.src m.shub m.cls
  match g with
  | .gap =>
    let s := if r.synced then putRx s m.src m.shub m.cls { r with gapSent := true } else s
    emitMsg (replyCtl s at_ m 0x24 (if r.synced then r.epoch else m.epoch) 0) (bump s (fabricPage + 0x820))
  | .stale => addCtr s (fabricPage + 0x828) n
  | .again =>
    let same := fun (o : MsgFrom) => match o with
      | .rx _ a b c p => a == m.src && b == m.shub && c == m.cls && p == m.psn
      | _ => false
    if s.msgs.any (fun p => same p.2.origin && !p.2.muted) then s
    else match r.refused.find? (fun p => p.1 == m.psn) with
      | some p => emitMsg (replyCtl s at_ m 0x22 r.epoch (m.psn.toNat + p.2 * 2 ^ 32)) (bump s (fabricPage + 0x810))
      | none => emitMsg (replyCtl s at_ m 0x21 r.epoch m.psn.toNat) s
  | .notReady =>
    let s := putRx s m.src m.shub m.cls { r with nrPsn := some m.psn }
    emitMsg (replyCtl s at_ m 0x23 r.epoch (m.psn.toNat + regF s (fabricPage + 0x118) 15 0 * 2 ^ 48)) (bump s (fabricPage + 0x838))
  | _ => s

/-- The response to a request: a sequenced message of the reverse pair (R314), with the epoch of this device's job (R312). -/
def respond (m : Msg) (op : Nat) (value : BitVec 64) (data : List Byte) (s : State) : State :=
  (sendSeq (dieHub (wfld m.addr 47 46)) m.src 1 (reqMsg op 0 0 (jobEpoch s m.tag) m.tag false value 0 data) .none s).2
/-- The atomics that have been performed are answered (R314, R316). -/
def amoSettle (s : State) : State :=
  forAll (s.msgs.filter (fun p => p.2.amo.isSome && p.2.waiting == 0)) s (fun p s =>
    let s := putMsg s p.1 WinMsg.reset
    match p.2.amo with
    | some (some c, _) => amoDone c p.2.old 0 s
    | some (none, m) => respond m 0x12 p.2.old [] (answerMsg (unitHub s m.shub m) m.src m.shub m.cls m.psn 0 s)
    | none => s)

/-- What a message that the transport of hub `at_` admits does (R177, R312 to R314, R316, R324). -/
def performMsg (at_ : Nat) (m : Msg) (s : State) : State :=
  let ans := fun (code : Nat) (s : State) => answerMsg at_ m.src m.shub m.cls m.psn code s
  let from_ : MsgFrom := .rx at_ m.src m.shub m.cls m.psn
  match m.op with
  | 1 =>
    let p := performAt from_ none m s
    if 16 < addrTarget m.addr ∨ p.code = bridgeFailCode then ans p.code p.st else p.st
  | 2 =>
    if addrTarget m.addr = 18 then
      let q := pourAccept (wfld m.addr 46 46) (wfld m.addr 36 31) m.tag m.data s
      ans q.1 q.2
    else
      let p := performAt from_ none m s
      if p.code ≠ 0 then ans p.code p.st else p.st
  | 3 | 4 | 5 =>
    let p := performAt from_ none m s
    match p.resp with
    | none => if p.code = 0 then p.st else ans p.code p.st
    | some x => respond m x.1 x.2.1 x.2.2 (ans 0 p.st)
  | 6 =>
    let q := collDecode m.data
    collArrive m.tag q.1 q.2 (ans 0 s)
  | 0x11 | 0x12 => responseArrive m (ans 0 s)
  | _ => ans spWindow s

/-- The receive sequence after an admitted message: EXPECTED and FSEQ advance (R315). -/
def admitSeq (m : Msg) (fseq : BitVec 16) (s : State) : State :=
  let r := getRx s m.src m.shub m.cls
  bump (putRx s m.src m.shub m.cls { r with expected := m.psn + 1, fseq := fseq, nrPsn := none, asm := [], winMsg := none }) (fabricPage + 0x808)

/-- A whole sequenced message arrives at the transport: its header with its data. A message for another module is none of it. -/
def msgArrive (m : Msg) (s : State) : State :=
  if addrValid s ∧ m.dst ≠ ownAddr s then s
  else
    let r := getRx s m.src m.shub m.cls
    let n := flitCount m.data.length
    let at_ := unitHub s m.shub m
    match seqGate r (m.epoch == r.epoch) (some m.psn) m.fseq (msgReady s m) with
    | .take => performMsg at_ m (admitSeq m (m.fseq + BitVec.ofNat 16 n) s)
    | g => notAdmitted g at_ m n s

/-! ### Answers at the sender (R316 to R318, R332) -/

/-- ACK. -/
def ackArrive (m : Msg) (s : State) : State :=
  txPump (ctlHub m) m.src (ctlCls m) (msgAcked (ctlHub m) m.src (ctlCls m) (refPsn m) s)
/-- NAK. -/
def nakArrive (m : Msg) (s : State) : State :=
  txPump (ctlHub m) m.src (ctlCls m) (msgFailed (ctlCode m) (ctlHub m) m.src (ctlCls m) (refPsn m) s)

/-- NOT_READY: the sequence stands at the message until its retry, and meanwhile at no later one (R332). -/
def notReadyArrive (m : Msg) (s : State) : State :=
  let hub := ctlHub m
  let t := getTx s hub m.src (ctlCls m)
  let later : Bool := match t.nrPsn with
    | some p => t.nrWait && psnBelow p (refPsn m)
    | none => false
  if ¬ t.synced ∨ m.epoch ≠ t.epoch ∨ ¬ txHolds s hub m.src (ctlCls m) (refPsn m) ∨ later then s
  else putTx s hub m.src (ctlCls m) { t with nrPsn := some (refPsn m), nrWait := true, emit := refPsn m }
/-- RETRY_US after a NOT_READY the sender resends from that PSN, in the same epoch. -/
def nrRetry (hub dst cls : Nat) (s : State) : State :=
  let t := getTx s hub dst cls
  if t.nrWait then txPump hub dst cls (putTx s hub dst cls { t with nrWait := false }) else s
/-- A message that stays NOT_READY is abandoned, and its sequence resynchronises with FLOOR above it. -/
def nrTimeout (hub dst cls : Nat) (s : State) : State :=
  match (getTx s hub dst cls).nrPsn with
  | some p =>
    let s := msgFailed 0x5002 hub dst cls p s
    txResync hub dst cls (putTx s hub dst cls { getTx s hub dst cls with floor := p + 1 })
  | none => s

/-- GAP (R317): one about an older epoch, of which the GAP for a later flit of a message knows EP8 alone (R310), has been answered by a
RESYNC already. DEDUCED: log 162. -/
def gapArrive (m : Msg) (s : State) : State :=
  let t := getTx s (ctlHub m) m.src (ctlCls m)
  if t.synced ∧ m.epoch.setWidth 8 = t.epoch.setWidth 8 then txResync (ctlHub m) m.src (ctlCls m) s else s

/-- The oldest message has had no answer for `FAB_ACK_TMO` (R317). -/
def ackTimeout (hub dst cls : Nat) (s : State) : State :=
  let t := getTx s hub dst cls
  if t.synced ∧ t.held ≠ [] then txResync hub dst cls s else s

/-- A RESYNC without response is repeated with the next epoch, up to four times; then the sequence is UNREACHABLE (R318). -/
def resyncTimeout (hub dst cls : Nat) (s : State) : State :=
  let t := getTx s hub dst cls
  if ¬ t.syncing then s
  else if t.tries < 4 then txResyncSend hub dst cls (putTx s hub dst cls { t with tries := t.tries + 1 })
  else
    let s := putTx s hub dst cls { t with unreach := true, syncing := false, tries := 0 }
    forAll (t.held.map (·.psn)) s (msgFailed linkDown hub dst cls)

/-- A bridge went down: what a sequence holds for a port beyond it fails with `BRIDGE_FAIL` (R309, R407), and the next message starts with
a RESYNC above it. DEDUCED: log 143. -/
def txCut (k : Nat) (s : State) : State :=
  let cls := k % 4
  let dst := k / 4 % 65536
  let hub := k / 4 / 65536
  let t := getTx s hub dst cls
  if t.held.isEmpty ∨ ¬ hubCut s hub dst then s
  else
    let s := forAll (t.held.map (·.psn)) s (msgFailed bridgeFailCode hub dst cls)
    putTx s hub dst cls { getTx s hub dst cls with synced := false, syncing := false, tries := 0, floor := t.psn }

/-- RESYNC_RESP (R317): messages below EXPECTED are complete but for the refused ones, and the sender resends from EXPECTED.
DEDUCED: log 89. -/
def resyncRespArrive (m : Msg) (s : State) : State :=
  let hub := ctlHub m
  let dst := m.src
  let cls := ctlCls m
  let t := getTx s hub dst cls
  if ¬ t.syncing ∨ m.epoch ≠ t.epoch then s
  else
    let exp := refPsn m
    let next := if psnBelow t.psn exp then exp else t.psn
    let s := putTx s hub dst cls { t with syncing := false, synced := true, tries := 0, emit := exp, psn := next }
    let below := (t.held.map (·.psn)).filter (fun p => psnBelow p exp)
    let s := forAll below s (fun p s =>
      if (exp - p).toNat ≤ 64 ∧ m.opb.getLsbD ((exp - p).toNat - 1) then msgFailed 0x5006 hub dst cls p s else msgAcked hub dst cls p s)
    txPump hub dst cls s

/-! ### RESYNC at the receiver (R317) -/

/-- Whether rows of a receive sequence have not landed. -/
def rxWaits (s : State) (src shub cls : Nat) : Bool :=
  s.msgs.any (fun p => match p.2.origin with
    | .rx _ a b c _ => a == src && b == shub && c == cls
    | _ => false)
/-- The bitmap of the 64 PSNs below EXPECTED that were refused: bit i for EXPECTED - 1 - i. -/
def refusedBits (r : RxSeq) : Nat :=
  (List.range 64).foldl (fun a i => if r.refused.any (fun p => p.1 == r.expected - 1 - BitVec.ofNat 32 i) then a + 2 ^ i else a) 0
/-- The receiver sends RESYNC_RESP once every admitted row of the sequence has landed. -/
def resyncAnswer (src shub cls : Nat) (s : State) : State :=
  let r := getRx s src shub cls
  if ¬ r.respDue ∨ rxWaits s src shub cls then s
  else
    let s := putRx s src shub cls { r with respDue := false }
    let m := ctlMsg s 0x26 shub src shub cls r.epoch r.expected.toNat (refusedBits r)
    emitMsg { m with src := if addrValid s then ownAddr s else r.asked } s
/-- The message of a list of flit payloads, as far as they hold it. -/
def msgOfFlits (l : List (List Byte)) : Msg :=
  let h := l.headD []
  let w := recF h 0 8
  { op := recF h 8 1, cls := fld w 30 29, src := fld w 47 32, dst := fld w 63 48, shub := fld w 31 31, cred := bit (recF h 9 1) 0,
    epoch := BitVec.ofNat 16 (recF h 10 2), psn := BitVec.ofNat 32 (recF h 12 4), fseq := BitVec.ofNat 16 (fld w 15 0),
    addr := BitVec.ofNat 64 (recF h 20 8), key := BitVec.ofNat 24 (recF h 28 3), jepoch := BitVec.ofNat 16 (recF h 32 2),
    tag := BitVec.ofNat 12 (recF h 34 2), opa := BitVec.ofNat 64 (recF h 36 8), opb := BitVec.ofNat 64 (recF h 44 8),
    data := (h.drop 56 ++ (l.drop 1).flatMap (·.drop 8)).take (recF h 16 4 % 2 ^ 25) }

/-- A partly admitted message is dropped: rows already landed stay, and the message neither counts nor is answered. One that has been
refused already only ends. -/
def dropPartial (src shub cls : Nat) (s : State) : State :=
  let r := getRx s src shub cls
  if r.asm.isEmpty then s
  else
    let s := quietMsg r.winMsg s
    let s := putRx s src shub cls { r with asm := [], winMsg := none }
    if psnBelow (msgOfFlits r.asm).psn r.expected then s else bump s (fabricPage + 0x830)
/-- RESYNC arrives. -/
def resyncArrive (m : Msg) (s : State) : State :=
  let cls := ctlCls m
  let s := dropPartial m.src m.shub cls s
  let r := getRx s m.src m.shub cls
  let floor := m.opb.setWidth 32
  let exp := if psnBelow r.expected floor then floor else r.expected
  resyncAnswer m.src m.shub cls (putRx s m.src m.shub cls
    { r with epoch := m.epoch, expected := exp, fseq := 0, synced := true, gapSent := false, nrPsn := none, respDue := true, asked := m.dst })

/-- A control message arrives at this module (R311). -/
def ctlArrive (m : Msg) (s : State) : State :=
  match m.op with
  | 0x21 => ackArrive m s
  | 0x22 => nakArrive m s
  | 0x23 => notReadyArrive m s
  | 0x24 => gapArrive m s
  | 0x25 => resyncArrive m s
  | 0x26 => resyncRespArrive m s
  | _ => s

/-! ### Flits (R302, R303, R307, R310) -/

/-- The data bytes of flit i of a message with n data bytes, with their offset. -/
def flitData (n i : Nat) (payload : List Byte) : Nat × List Byte :=
  let off := if i = 0 then 0 else 184 + 232 * (i - 1)
  (off, (payload.drop (if i = 0 then 56 else 8)).take (n - off))

/-- A message is refused while its flits arrive: EXPECTED passes it and it is answered at that edge (R315); the rows that are left of it
are refused too (R172). -/
def refuseNow (at_ code : Nat) (m : Msg) (s : State) : State :=
  let r := getRx s m.src m.shub m.cls
  let s := match r.winMsg with
    | some k => putMsg s k { getMsg s k with refused := true, code := code, muted := true }
    | none => s
  answerMsg at_ m.src m.shub m.cls m.psn code (bump (putRx s m.src m.shub m.cls { r with expected := m.psn + 1 }) (fabricPage + 0x808))

/-- An admitted flit of a message that came through a port of hub `h` (R315): a WRITE's rows go to their window as they arrive; any other
message acts with its last flit. A crossing of R309 that a bridge cuts refuses the message with `BRIDGE_FAIL` (R407). -/
def flitAdmit (h : Nat) (first last : Bool) (payload : List Byte) (src shub cls : Nat) (s : State) : State :=
  let r := getRx s src shub cls
  let asm := if first then [payload] else r.asm ++ [payload]
  let m := msgOfFlits asm
  let n := recF (asm.headD []) 16 4 % 2 ^ 25
  let next := (if first then m.fseq else r.fseq) + 1
  let refused := !first && psnBelow m.psn r.expected
  let here := unitHub s h m
  let cut := cutOff s (4 + h) (4 + here) || (m.op == 1 && cutOff s (4 + here) (addrClu m.addr / 16))
  let s := putRx s src shub cls { r with fseq := next, nrPsn := none, asm := if last then [] else asm }
  if refused ∧ r.winMsg = none then s
  else if cut ∧ ¬ refused then
    let s := refuseNow here bridgeFailCode m s
    if last then quietMsg r.winMsg (putRx s src shub cls { getRx s src shub cls with winMsg := none }) else s
  else if m.op = 1 ∧ addrTarget m.addr ≤ 16 then
    let o := match first, r.winMsg with
      | false, some k => (k, s)
      | _, _ => openMessage (.rx here src shub cls m.psn) s
    let s := if last then (if refused then putRx o.2 src shub cls { getRx o.2 src shub cls with winMsg := none } else admitSeq m next o.2)
      else putRx o.2 src shub cls { getRx o.2 src shub cls with winMsg := some o.1 }
    let d := flitData n (asm.length - 1) payload
    let q := windowPart o.1 last (winTarget (addrClu m.addr) (addrTarget m.addr)) (addrWindow m.addr) .fabric m.tag m.jepoch m.key
      [(addrOff m.addr + d.1, d.2)] s
    if q.1 ≠ 0 ∧ ¬ last ∧ ¬ refused then refuseNow here q.1 m q.2 else q.2
  else if last then performMsg here m (admitSeq m next s)
  else s

/-- A flit for this module reaches its transport from a port of hub `h` (R307, R315, R316): the first flit of a message carries the whole
EPOCH, a later one its low 8 bits. -/
def flitArrive (h : Nat) (payload : List Byte) (s : State) : State :=
  let w := recF payload 0 8
  let cls := fld w 30 29
  let src := fld w 47 32
  let shub := fld w 31 31
  let first := bit w 28
  let m := msgOfFlits [payload]
  if cls = 2 then ctlArrive m s
  else if cls = 3 then s
  else
    let r := getRx s src shub cls
    let whole := if first then some m else if r.asm.isEmpty then none else some (msgOfFlits r.asm)
    let at_ := (whole.map (unitHub s h)).getD h
    let epoch := if first then m.epoch else BitVec.ofNat 16 (fld w 26 19)
    match seqGate r (if first then m.epoch == r.epoch else fld w 26 19 == r.epoch.toNat % 256) (if first then some m.psn else none) (BitVec.ofNat 16 (fld w 15 0)) (msgReady s m) with
    | .take => flitAdmit h first (bit w 27) payload src shub cls s
    | g => notAdmitted g at_ { m with src := src, shub := shub, cls := cls, epoch := epoch } 1 s

/-- A flit is forwarded on the next VC (R308), unless the bridges between its ports' hubs are cut (R309). -/
def flitForward (p vc : Nat) (payload : List Byte) (s : State) : State :=
  match routePort s (recF payload 6 2) true with
  | none => bump s (fabricPage + 0x848)
  | some o =>
    if cutOff s (4 + portHub p) (4 + portHub o) then s else portSend o (vc + 1) payload (bump s (fabricPage + 0x840))
/-- A flit from port p for another module (R307, R308): it is forwarded; a module whose transports are not ready answers the message
NOT_READY, and drops the sequence's later flits until that message arrives again in the same epoch (R332). -/
def flitRelay (p vc : Nat) (payload : List Byte) (s : State) : State :=
  let w := recF payload 0 8
  let first := bit w 28
  let key := fld w 63 29 * 256 + fld w 26 19
  let m := msgOfFlits [payload]
  let x := getPort s p
  let held := (x.holds.find? (fun q => q.1 == key)).map (·.2)
  if 2 ≤ fld w 30 29 then (if devReady s 16 then flitForward p vc payload s else s)
  else if held.isSome ∧ (¬ first ∨ held ≠ some m.psn) then s
  else
    let rest := x.holds.filter (fun q => q.1 / 256 != fld w 63 29)
    if devReady s 16 then flitForward p vc payload (putPort s p { x with holds := rest })
    else if first then
      emitMsg (replyCtl s (portHub p) m 0x23 m.epoch (m.psn.toNat + regF s (fabricPage + 0x118) 15 0 * 2 ^ 48))
        (bump (putPort s p { x with holds := rest ++ [(key, m.psn)] }) (fabricPage + 0x838))
    else s

/-- SEQ of a flit. -/
def flitSeq (f : BitVec 2048) : BitVec 12 := (f >>> 20).setWidth 12
/-- The flits of a replay buffer that an ACK leaves in it. -/
def ackTrim (ack : BitVec 12) (l : List (BitVec 2048)) : List (BitVec 2048) :=
  l.filter (fun f => decide (2048 ≤ (ack - flitSeq f).toNat))

/-- A port replays from the flit that a REPLAY names; the sixteenth replay in a row of one flit takes the port DOWN (R303, R304). -/
def portReplay (p : Nat) (seq : BitVec 12) (s : State) : State :=
  let x := getPort s p
  match ackTrim (seq - 1) x.replay with
  | [] => s
  | f :: l =>
    let n := if x.replays ≠ 0 ∧ x.replayOf = flitSeq f then x.replays + 1 else 1
    let s := addCtr (putPort s p { x with replays := n, replayOf := flitSeq f }) (fabPortPage p + 0x820) (l.length + 1)
    if 16 ≤ n then portDown p 2 s else forAll (f :: l) s (portFlit p)

/-- A receiver starts the wait for a replay: REPLAY names the SEQ that it expects (R303). -/
def askReplay (p : Nat) (s : State) : State :=
  let x := getPort s p
  portCtl p 2 x.rxSeq.toNat 0 (putPort s p { x with skipping := true })

/-- A DATA flit in sequence is accepted and its credit returned in a CREDIT flit; any other starts the wait for a replay, or is discarded
in it (R303). -/
def portData (p seq vc : Nat) (payload : List Byte) (s : State) : State :=
  let x := getPort s p
  if seq = x.rxSeq.toNat then
    let s := portCtl p 3 0 vc (putPort s p { x with rxSeq := x.rxSeq + 1, skipping := false })
    let dst := recF payload 6 2
    if addrValid s ∧ dst ≠ ownAddr s then flitRelay p vc payload s else flitArrive (portHub p) payload s
  else if x.skipping then s
  else askReplay p s

/-- A flit arrives at a port (R302, R303). One that fails its CRC asks for a replay also while one is awaited, since it may be the first of
that replay. DEDUCED: log 163. -/
def flitReceive (p : Nat) (f : BitVec 2048) (s : State) : State :=
  if ¬ portUp s p then s
  else
    let base := fabPortPage p
    let q := fecDecode (leBytes 256 f.toNat)
    let s := bump s (base + 0x808)
    let s := if q.2 ≠ 0 then bump s (base + 0x810) else s
    if recF q.1 244 4 ≠ crc32 (q.1.take 244) then
      askReplay p (bump s (base + 0x818))
    else
      let h := recF q.1 0 4
      let x := getPort s p
      let ack := BitVec.ofNat 12 (fld h 19 8)
      let left := ackTrim ack x.replay
      let s := if left.length < x.replay.length then portPump p (putPort s p { x with replay := left, replays := 0 }) else s
      match h % 4 with
      | 1 => portData p (fld h 31 20) (fld h 7 2) ((q.1.drop 4).take 240) s
      | 2 => portReplay p (BitVec.ofNat 12 (fld h 31 20)) s
      | 3 =>
        let x := getPort s p
        portPump p (putPort s p { x with credits := tblSet 0 x.credits (fld h 7 2) (tblGet 0 x.credits (fld h 7 2) - 1) })
      | _ => s

/-! ### Ports (R15, R304, R305) -/

/-- EN and ROLE of a port. -/
def portEnabled (s : State) (p : Nat) : Bool := wbit (reg s (fabPortPage p + 0x100)) 63 && regF s (fabPortPage p + 0x100) 49 48 != 0

/-- Whether a port's optical domain is on (R374): its laser channel is lit only then (R301). -/
def portPowered (s : State) (p : Nat) : Bool := wbit (reg s (mgmtPage + 0x110)) (6 + p / 4)
/-- A port goes DARK with a cause (R333). -/
def portDark (p : Nat) (cause : BitVec 8) (s : State) : State :=
  let x := getPort s p
  setRegF (putPort s p { x with st := 0, cause := cause, replay := [], queue := [], skipping := false, replays := 0 })
    (devicePage + 0x100) (32 + p) (32 + p) 0
/-- A port follows its configuration (R301, R305): enabled and lit it begins to train; disabled it goes dark with cause DISABLED. -/
def portLight (p : Nat) (s : State) : State :=
  let x := getPort s p
  if portEnabled s p ∧ portPowered s p then (if x.st = 0 ∧ x.laser then putPort s p { x with st := 1, cause := 0 } else s)
  else if x.st = 0 then s
  else portDark p (portCause 6) s
/-- The same where it stands alone: the paths that it changes resynchronise, and UNREACHABLE ends (R317, R318). -/
def portFollow (p : Nat) (s : State) : State :=
  let t := portLight p s
  if (getPort t p).st = (getPort s p).st then t else repath s t
/-- The optical domain of a port goes off, and its laser channel with it (R15, R374): `LINK_DOWN`, and the port is dark. -/
def portUnlit (p : Nat) (s : State) : State :=
  let t := portDark p (portCause 4) (laserDown p s)
  if (getPort s p).st = 0 then t else repath s t
/-- A soft reset of a port's page (R7, R333): everything but the light of its channel. -/
def portReset (p : Nat) (s : State) : State :=
  let x := getPort s p
  let t := setRegF (setReg (putPort s p { FabPort.reset with laser := x.laser, sent := x.sent }) (fabPortPage p + 0x100) 0) (devicePage + 0x100) (32 + p) (32 + p) 0
  if x.st = 0 then t else repath s t

/-- A write of `FAB_PORT_CFG` (R305). -/
def portConfig (p : Nat) (v : Word) (s : State) : State := portFollow p (setReg s (fabPortPage p + 0x100) v)

/-- A DOWN port that is enabled and lit retrains (R304), which is a change of its state (R318). -/
def portRetrain (p : Nat) (s : State) : State :=
  let x := getPort s p
  if x.st = 3 ∧ portEnabled s p ∧ portPowered s p ∧ x.laser then repath s (putPort s p { x with st := 1 }) else s

/-- Training ends (R305): the peer check brings the port UP or takes it DOWN with cause PEER. -/
def portTrained (p : Nat) (peer : BitVec 16) (far : BitVec 4) (s : State) : State :=
  let x := getPort s p
  if x.st ≠ 1 then s
  else
    let old := s
    let cfg := reg s (fabPortPage p + 0x100)
    let x := { x with peer := peer, peerPort := far }
    if wfld cfg 15 0 = peer.toNat ∧ wfld cfg 35 32 = far.toNat then
      let x := { x with st := 2, cause := 0, txSeq := 0, rxSeq := 0, replay := [], queue := [], credits := [], skipping := false }
      let s := putPort s p { x with replays := 0, holds := [] }
      repath old (setReady (32 + p) s)
    else portDown p 5 (putPort s p x)

/-- A laser source module or one of its channels fails (R15, R301). -/
def laserFail (ls : Nat) (channel : Option (BitVec 3)) (s : State) : State :=
  let ps := match channel with
    | some c => [8 * ls + c.toNat]
    | none => (List.range 8).map (8 * ls + ·)
  forAll ps s (fun p s => laserDown p (putPort s p { getPort s p with laser := false }))

/-- `FAB_PORT_STATUS` (R333). -/
def portStatus (s : State) (p : Nat) : Word :=
  let x := getPort s p
  packWord [(48, x.peer.toNat), (40, x.peerPort.toNat), (8, x.cause.toNat), (0, x.st.toNat)]

/-! ### The installation record (R306) -/

/-- The bytes of the installation record. -/
def instRecord (s : State) : List Byte := ((List.range 192).flatMap (fun i => leBytes 8 (reg s (installPage + 0x200 + 8 * i)).toNat)).take 1348
/-- An 8-byte value of the record. -/
def instWord (b : List Byte) (off : Nat) : Word := BitVec.ofNat 64 (recF b off 8)

/-- The registers that the record gives, each with its offset in the record and its defined bits. -/
def instRegs : List (Nat × Nat × Nat) :=
  (List.range 16).map (fun p => (64 + 8 * p, fabPortPage p + 0x100, bits 63 63 + bits 49 48 + bits 35 32 + bits 15 0))
    ++ (List.range 16).map (fun m => (192 + 8 * m, fabricPage + 0x180 + 8 * m, bits 39 30 + bits 19 0))
    ++ (List.range 64).map (fun g => (320 + 8 * g, fabricPage + 0x200 + 8 * g, bits 12 8 + bits 4 0))
    ++ (List.range 64).map (fun r => (832 + 8 * r, fabricPage + 0x400 + 8 * r, bits 31 31 + bits 20 0))

/-- Whether port p of the record is enabled with a role. -/
def instRole (b : List Byte) (p role : Nat) : Bool :=
  let w := instWord b (64 + 8 * p)
  wbit w 63 && wfld w 49 48 == role
/-- Case 4: an enabled port names a peer that its ROLE does not allow, or this module. -/
def instPortBad (b : List Byte) (own p : Nat) : Bool :=
  let w := instWord b (64 + 8 * p)
  let a := wfld w 15 0
  let ok := match wfld w 49 48 with
    | 1 => addrRow a == addrRow own && addrGroup a == addrGroup own && addrMember a != addrMember own
    | 2 => addrRow a == addrRow own && addrGroup a != addrGroup own
    | 3 => addrRow a != addrRow own
    | _ => false
  wbit w 63 && (a == own || !ok)
/-- Case 5 for the group route to member m. -/
def instGroupBad (b : List Byte) (own m : Nat) : Bool :=
  let w := instWord b (192 + 8 * m)
  let ports := ((List.range 4).map (fun i => wfld w (5 * i + 4) (5 * i))).filter (fun e => bit e 4)
  let relays := [wfld w 34 30, wfld w 39 35].filter (fun e => bit e 4)
  ((m == addrMember own) && !(ports.isEmpty && relays.isEmpty))
    || ports.any (fun e => !instRole b (e % 16) 1 || recF b (64 + 8 * (e % 16)) 2 != own - addrMember own + m)
    || relays.any (fun e => e % 16 == m || e % 16 == addrMember own)
/-- Case 5 for the row exit toward group g. -/
def instRowBad (b : List Byte) (own g : Nat) : Bool :=
  let w := instWord b (320 + 8 * g)
  wbit w 12 && (g == addrGroup own || (wfld w 11 8 == addrMember own && !(wbit w 4 && instRole b (wfld w 3 0) 2)))
/-- Case 5 for the gateway toward row r. -/
def instHallBad (b : List Byte) (own r : Nat) : Bool :=
  let w := instWord b (832 + 8 * r)
  wbit w 31 && (r == addrRow own || (wfld w 15 0 == own && !(wbit w 20 && instRole b (wfld w 19 16) 3)))

/-- The cause that refuses the record, or 0. -/
def instCause (s : State) (b : List Byte) : Nat :=
  let own := recF b 6 2
  if recF b 0 4 ≠ 0x5A42_4931 ∨ recF b 4 2 ≠ 1 ∨ recF b 1344 4 ≠ crc32 (b.take 1344) then 1
  else if ¬ ((b.drop 12).take 52).all (· == 0) ∨ instRegs.any (fun r => recF b r.1 8 != Nat.land (recF b r.1 8) r.2.2) then 2
  else if addrValid s ∧ own ≠ ownAddr s then 3
  else if (List.range 16).any (instPortBad b own) then 4
  else if (List.range 16).any (instGroupBad b own) || (List.range 64).any (instRowBad b own) || (List.range 64).any (instHallBad b own) then 5
  else 0

/-- Whether step 8 of bring-up can run: step 7 is complete and `FAB_ADDR` is valid (R392). -/
def fabCoreOpen (s : State) : Bool := domainOn s 4 && domainOn s 5 && !s.power.steps.contains 224 && addrValid s
/-- FAB_CORE is ready once the hubs are up and the address is valid (R392 step 8). -/
def fabCoreReady (s : State) : State :=
  if fabCoreOpen s then setReady 16 s else s

/-- The power domain of a port's page (R374). -/
def portDomain (p : Nat) : Nat := 6 + p / 4
/-- The installation record is checked and applied (R306). A write to a page whose domain is off is ignored and counts (R376).
DEDUCED: log 168. -/
def instApply (s : State) : State :=
  let b := instRecord s
  let cause := instCause s b
  let keep := regF s (installPage + 0x108) 31 0
  if cause ≠ 0 then setReg s (installPage + 0x108) (packWord [(61, 1), (32, cause), (0, keep)])
  else
    let old := s
    let s := forAll instRegs s (fun r s =>
      let v := instWord b r.1
      let p := (r.1 - 64) / 8
      if r.1 < 192 then inDomain (portDomain p) s (fun s => portLight p (setReg s (fabPortPage p + 0x100) v))
      else inDomain 4 s (fun s => setReg s r.2.1 v))
    let s := if addrValid s then s
      else
        let s := inDomain 4 s (fun s => setReg s (fabricPage + 0x100) (packWord [(63, 1), (0, recF b 6 2)]))
        inDomain 4 s (fun s => setReg s (fabricPage + 0x060) 1)
    let s := repath old (fabCoreReady s)
    bump (setReg s (installPage + 0x108) (packWord [(62, 1), (0, recF b 8 4)])) (installPage + 0x800)

/-! ### Queries and the atomic port (R314, R333) -/

/-- A write of `FAB_PAIR_QUERY`. -/
def pairQuery (v : Word) (s : State) : State :=
  let hub := wfld v 20 20
  let cls := wfld v 17 16
  let peer := wfld v 15 0
  let t := getTx s hub peer cls
  let r := getRx s peer hub cls
  setReg (setReg s (fabricPage + 0x138) (packWord [(62, b2n t.unreach), (32, t.epoch.toNat), (0, t.psn.toNat)]))
    (fabricPage + 0x140) (packWord [(32, r.epoch.toNat), (0, r.expected.toNat)])

/-- A write of `FAB_AMO_GO` (R314, R333): ignored while BUSY, with a reserved OP, or in a cluster that is not bound. DEDUCED: log 117. -/
def amoGo (c : Nat) (s : State) : State :=
  let base := clusterBase c
  let ctl := reg s (base + 0x648)
  match cluTag s c with
  | none => cluIgnore c s
  | some tag =>
    if wbit (reg s (base + 0x670)) 63 ∨ wfld ctl 25 24 = 0 ∨ wfld ctl 25 24 = 3 then cluIgnore c s
    else
      let m := reqMsg (3 + wfld ctl 25 24) (reg s (base + 0x640)) (BitVec.ofNat 24 (wfld ctl 23 0)) (jobEpoch s tag) tag false
        (reg s (base + 0x650)) (reg s (base + 0x658)) []
      let dev := wfld ctl 47 32
      let s := setReg s (base + 0x670) (packWord [(63, 1)])
      if cutOff s (c / 16) (if isOwn s dev then addrClu m.addr / 16 else 4 + cluHub c) then amoDone c 0 bridgeFailCode s
      else if isOwn s dev then
        let p := performAt .unit (some c) m s
        match p.resp with
        | some x => amoDone c x.2.1 p.code p.st
        | none => if p.code = 0 then p.st else amoDone c 0 p.code p.st
      else
        let q := sendSeq (cluHub c) dev 0 m (.amo c) s
        if q.1 ≠ 0 then amoDone c 0 q.1 q.2 else q.2

/-- Whether the numbers of a message's header fit their fields (R310). -/
def msgFits (m : Msg) : Bool := decide (m.src < 65536) && decide (m.dst < 65536) && decide (m.shub < 2) && decide (m.cls < 4)
/-- Runs a meaning on a message whose header fits its fields. -/
def onMsg (m : Msg) (s : State) (f : State → State) : Result := if msgFits m then .next (f s) else .fault .operandRange

/-! ### Meanings -/

/-- A message of the collective engines as its command gives it. -/
def collMsg (kind : CollKind) (m : Msg) (d : CollData) : Msg := { m with op := 6, cls := 0, data := collEncode kind d }

/-- WRITE (R312). -/
def execFabWrite (m : Msg) (s : State) : Result := onMsg m s (msgArrive { m with op := 1, cls := 0 })
/-- SEND (R177, R313). -/
def execFabSend (m : Msg) (s : State) : Result := onMsg m s (msgArrive { m with op := 2, cls := 0 })
/-- READ_REQ (R314). -/
def execReadReq (m : Msg) (s : State) : Result := onMsg m s (msgArrive { m with op := 3, cls := 0 })
/-- FADD (R313, R314). -/
def execFadd (m : Msg) (s : State) : Result := onMsg m s (msgArrive { m with op := 4, cls := 0 })
/-- CSWAP (R314). -/
def execCswap (m : Msg) (s : State) : Result := onMsg m s (msgArrive { m with op := 5, cls := 0 })
/-- COLL (R324): a data message. -/
def execColl (m : Msg) (d : CollData) (s : State) : Result := onMsg m s (msgArrive (collMsg .data m d))
/-- COLL_READY (R323). -/
def execCollReady (m : Msg) (d : CollData) (s : State) : Result := onMsg m s (msgArrive (collMsg .ready m d))
/-- COLL_DONE (R331). -/
def execCollDone (m : Msg) (d : CollData) (s : State) : Result := onMsg m s (msgArrive (collMsg .done m d))
/-- COLL_FINISH (R331). -/
def execCollFinish (m : Msg) (d : CollData) (s : State) : Result := onMsg m s (msgArrive (collMsg .finish m d))
/-- COLL_ABORT (R331). -/
def execCollAbort (m : Msg) (d : CollData) (s : State) : Result := onMsg m s (msgArrive (collMsg .abort m d))
/-- LEASE_RELEASE (R192, R329). -/
def execLeaseRelease (m : Msg) (d : CollData) (s : State) : Result := onMsg m s (msgArrive (collMsg .release m d))
/-- READ_RESP (R314). -/
def execReadResp (m : Msg) (s : State) : Result := onMsg m s (msgArrive { m with op := 0x11, cls := 1 })
/-- ATOMIC_RESP (R314). -/
def execAtomicResp (m : Msg) (s : State) : Result := onMsg m s (msgArrive { m with op := 0x12, cls := 1 })
/-- ACK (R316). -/
def execAck (m : Msg) (s : State) : Result := onMsg m s (ackArrive m)
/-- NAK (R316). -/
def execNak (m : Msg) (s : State) : Result := onMsg m s (nakArrive m)
/-- NOT_READY (R332). -/
def execNotReady (m : Msg) (s : State) : Result := onMsg m s (notReadyArrive m)
/-- GAP (R317). -/
def execGap (m : Msg) (s : State) : Result := onMsg m s (gapArrive m)
/-- RESYNC (R317). -/
def execResync (m : Msg) (s : State) : Result := onMsg m s (resyncArrive m)
/-- RESYNC_RESP_READY (R317). -/
def execResyncRespReady (src : BitVec 16) (shub : BitVec 1) (cls : BitVec 2) (s : State) : Result :=
  .next (resyncAnswer src.toNat shub.toNat cls.toNat s)
/-- RESYNC_RESP (R317). -/
def execResyncResp (m : Msg) (s : State) : Result := onMsg m s (resyncRespArrive m)
/-- FAB_ACK_TMO (R317). -/
def execFabAckTmo (hub : BitVec 1) (dst : BitVec 16) (cls : BitVec 2) (s : State) : Result := .next (ackTimeout hub.toNat dst.toNat cls.toNat s)
/-- RESYNC_TIMEOUT (R318). -/
def execResyncTimeout (hub : BitVec 1) (dst : BitVec 16) (cls : BitVec 2) (s : State) : Result :=
  .next (resyncTimeout hub.toNat dst.toNat cls.toNat s)
/-- NR_RETRY (R332). -/
def execNrRetry (hub : BitVec 1) (dst : BitVec 16) (cls : BitVec 2) (s : State) : Result := .next (nrRetry hub.toNat dst.toNat cls.toNat s)
/-- FAB_NR_TMO (R332). -/
def execFabNrTmo (hub : BitVec 1) (dst : BitVec 16) (cls : BitVec 2) (s : State) : Result := .next (nrTimeout hub.toNat dst.toNat cls.toNat s)
/-- FLIT_RECEIVE (R302, R303). -/
def execFlitReceive (port : BitVec 4) (flit : BitVec 2048) (s : State) : Result := .next (flitReceive port.toNat flit s)
/-- LOSS_OF_LIGHT (R304). -/
def execLossOfLight (port : BitVec 4) (s : State) : Result := .next (portDown port.toNat 1 s)
/-- ACK_STALL (R304): flits wait. -/
def execAckStall (port : BitVec 4) (s : State) : Result := .next (if (getPort s port.toNat).replay.isEmpty then s else portDown port.toNat 3 s)
/-- PORT_RETRAIN (R304). -/
def execPortRetrain (port : BitVec 4) (s : State) : Result := .next (portRetrain port.toNat s)
/-- PORT_TRAINING_DONE (R305). -/
def execPortTrainingDone (port : BitVec 4) (peer : BitVec 16) (peerPort : BitVec 4) (s : State) : Result :=
  .next (portTrained port.toNat peer peerPort s)
/-- LASER_FAIL (R15, R301). -/
def execLaserFail (ls : BitVec 1) (channel : Option (BitVec 3)) (s : State) : Result := .next (laserFail ls.toNat channel s)
/-- APPLY (R306). -/
def execApply (s : State) : Result := .next (instApply s)
/-- FAB_PAIR_QUERY (R333). -/
def execFabPairQuery (v : BitVec 64) (s : State) : Result := .next (inDomain 4 s (pairQuery v))
/-- FAB_AMO_GO (R314). -/
def execFabAmoGo (c : Nat) (s : State) : Result := cluCommand c s (amoGo c)

end Sys2Proof.Machine
end

