-- ==== Sys2Proof/Machine/Host.lean ====
section
/-! DEFINITION. Host Ethernet but for the control window (R334 to R350): ports, answers, queue-pair contexts and regions, the checks of a
request, its access of tensor space, connection management and congestion. -/

namespace Sys2Proof.Machine

/-! ### Contexts, regions and ports -/

/-- Queue pair q. -/
def getQp (s : State) (q : Nat) : QP := tblGet QP.reset s.qps q
/-- Replaces queue pair q. -/
def putQp (s : State) (q : Nat) (v : QP) : State := { s with qps := tblSet QP.reset s.qps q v }
/-- Memory region m. -/
def getMr (s : State) (m : Nat) : MR := tblGet MR.reset s.mrs m
/-- Replaces memory region m. -/
def putMr (s : State) (m : Nat) (v : MR) : State := { s with mrs := tblSet MR.reset s.mrs m v }
/-- Host port p. -/
def getHp (s : State) (p : Nat) : HPort := tblGet HPort.reset s.hports p
/-- Replaces host port p. -/
def putHp (s : State) (p : Nat) (v : HPort) : State := { s with hports := tblSet HPort.reset s.hports p v }
/-- STATE of a context: 0 RESET, 1 INIT, 2 RTR, 3 RTS, 4 ERROR. -/
def qpSt (x : QP) : Nat := wfld x.ctx0 63 61
/-- The context with another STATE. -/
def qpWith (x : QP) (st : Nat) : QP := { x with ctx0 := wput x.ctx0 63 61 st }
/-- TAG of a context. -/
def qpTag (x : QP) : BitVec 12 := BitVec.ofNat 12 (wfld x.ctx0 57 46)
/-- Contexts 4,092 to 4,095 are the control QPs of ports H0 to H3. -/
def qpCtl (q : Nat) : Bool := decide (4092 ≤ q)
/-- The port a context is bound to. -/
def qpPort (s : State) (q : Nat) : Nat := if qpCtl q then q - 4092 else wfld (getQp s q).ctx0 60 59
/-- The context that a QPN names. -/
def qpOf (qpn : Nat) : Option Nat := if 0x1000 ≤ qpn ∧ qpn < 0x2000 then some (qpn - 0x1000) else none

/-- A group of pages that the policy closes to the host (R422). -/
def hostClosed (s : State) (i : Nat) : Bool := bit (policyField s 12 4) i
/-- Counts a dropped frame of a port. -/
def hostDrop (p : Nat) (s : State) : State := bump s (hostPortPage p + 0x810)
/-- Counts an ignored write of the host page. -/
def hostIgnore (s : State) : State := bump s (hostPage + 0x810)
/-- Whether the device is unowned (R420). -/
def unowned (s : State) : Bool := decide (policyField s 8 1 < 2)
/-- Whether a port's link is up; it lies in the HOST domain. -/
def linkUp (s : State) (p : Nat) : Bool := wbit (reg s (mgmtPage + 0x110)) 3 && (getHp s p).link
/-- Whether the device pulls HOSTn_BUSY_N low (R347); with PGOOD deasserted the module drives nothing (R440). -/
def hostBusy (s : State) (p : Nat) : Bool :=
  s.power.pgood && (!devReady s (2 + p) || !linkUp s p || (getHp s p).high || decide (2 ≤ s.rot.level.toNat))

/-! ### Answers (R335, R345) -/

/-- A frame leaves a port. -/
def hostSend (r : Reply) (s : State) : State := bump { s with replies := s.replies ++ [r] } (hostPortPage r.port + 0x808)
/-- Sends an answer in its class; while the partner pauses that class it waits. -/
def hostReply (r : Reply) (s : State) : State :=
  let h := getHp s r.port
  if tblGet 0 h.paused r.cls.toNat = 0 then hostSend r s else putHp s r.port { h with txWait := h.txWait ++ [r] }
/-- Answers a packet of queue pair q. -/
def hostAnswer (q : Nat) (p : Packet) (psn : BitVec 24) (a : Answer) (s : State) : State :=
  hostReply { port := p.port, qp := q, psn := psn, cls := p.cls, ans := a } s
/-- A class may transmit again: what waited in it leaves in order. -/
def hostUnpause (p cls : Nat) (s : State) : State :=
  let h := getHp s p
  let s := putHp s p { h with paused := tblSet 0 h.paused cls 0, txWait := h.txWait.filter (fun r => r.cls.toNat != cls) }
  forAll (h.txWait.filter (fun r => r.cls.toNat == cls)) s hostSend

/-! ### The receive buffer (R345, R347) -/

/-- Bytes enter a port's receive buffer. -/
def hostFill (p cls n : Nat) (s : State) : State :=
  let h := getHp s p
  let occ := tblGet 0 h.classOcc cls + n
  let off := bit (regF s (hostPortPage p + 0x108) 7 0) cls && decide (1024 * regF s (hostPortPage p + 0x110) 47 32 < occ) && !h.xoff.getLsbD cls
  let s := putHp s p { h with
    occ := h.occ + n, classOcc := tblSet 0 h.classOcc cls occ,
    high := h.high || decide (1024 * regF s (hostPortPage p + 0x118) 47 32 < h.occ + n),
    xoff := if off then h.xoff ||| BitVec.ofNat 8 (2 ^ cls) else h.xoff }
  if off then hostSend { port := p, qp := 0, psn := 0, cls := BitVec.ofNat 3 cls, ans := .xoff } s else s
/-- Bytes leave a port's receive buffer. -/
def hostDrain (p cls n : Nat) (s : State) : State :=
  let h := getHp s p
  let occ := tblGet 0 h.classOcc cls - n
  let on := h.xoff.getLsbD cls && decide (occ < 1024 * regF s (hostPortPage p + 0x110) 15 0)
  let s := putHp s p { h with
    occ := h.occ - n, classOcc := tblSet 0 h.classOcc cls occ,
    high := h.high && !decide (h.occ - n < 1024 * regF s (hostPortPage p + 0x118) 15 0),
    xoff := if on then h.xoff &&& ~~~ BitVec.ofNat 8 (2 ^ cls) else h.xoff }
  if on then hostSend { port := p, qp := 0, psn := 0, cls := BitVec.ofNat 3 cls, ans := .xon } s else s

/-! ### States of a queue pair (R337, R340) -/

/-- `QP_FAULT` keeps the first fault (R350). -/
def qpFault (q code cause : Nat) (psn : BitVec 24) (s : State) : State :=
  let x := getQp s q
  if x.fault = 0 then putQp s q { x with fault := packWord [(48, code), (40, cause), (0, psn.toNat)] } else s
/-- What a queue pair has in progress is abandoned: the packets behind it are dropped and counted. -/
def qpClear (q : Nat) (s : State) : State :=
  let x := getQp s q
  let s := dropWrites (.host q) (putQp s q { x with cursor := none, sendBytes := none, due := none, queue := [] })
  let s := match x.due with
    | some d => hostDrain d.2.1.port d.2.1.cls.toNat d.2.1.bytes s
    | none => s
  forAll x.queue s (fun w s => hostDrop w.2.port (hostDrain w.2.port w.2.cls.toNat w.2.bytes s))
/-- A NAK of R340 with the PSN `at_`: the QP enters ERROR, raises `QP_ERROR` and records its first fault with the request's PSN (R350). A
control QP, which only firmware could bring back, keeps its state. -/
def hostNakAt (q : Nat) (p : Packet) (at_ : BitVec 24) (a : Answer) (cause code : Nat) (s : State) : State :=
  let s := hostAnswer q p at_ a (qpFault q (if code = 0 then 0x6001 else code) cause p.psn s)
  if qpCtl q then s
  else
    let x := getQp s q
    raiseFault hostPage 0x6001 (some (qpTag x)) (putQp s q { qpWith x 4 with cursor := none, sendBytes := none })
/-- A NAK of R340 that carries the PSN of the packet it answers. -/
def hostNak (q : Nat) (p : Packet) : Answer → Nat → Nat → State → State := hostNakAt q p p.psn
/-- A NAK of cause 5: an access error, or an operational error for a promotion timeout or an ECC error. Beyond the mapped
slots an entry is FREE. -/
def hostTierNakAt (q : Nat) (p : Packet) (at_ : BitVec 24) (code : Nat) (s : State) : State :=
  let code := if code = descMalformed then tierMapInvalid else code
  hostNakAt q p at_ (if code = 0x3005 ∨ code = 0x3006 ∨ code = 0x3007 ∨ code = bridgeFailCode then .nakOperational else .nakAccess) 5 code s

/-- The same with the PSN of the packet that it answers. -/
def hostTierNak (q : Nat) (p : Packet) : Nat → State → State := hostTierNakAt q p p.psn

/-! ### Checks of a request (R340, R348, R349) -/

/-- What the checks of a data request answer; `late` is a refusal that the tier checks of n bytes come before (R340). -/
inductive HostCheck where
  | drop
  | rnr
  | nak (a : Answer) (cause : Nat)
  | late (ta n : Nat) (a : Answer) (cause : Nat)
  | pass (ta : Nat)
  deriving DecidableEq, Repr

/-- PSNs that a request takes: one for each packet of its answer (R342). -/
def psnCount (op : HostOp) (p : Packet) : Nat := if op = .read then max 1 (ceilDiv p.len 4096) else 1
/-- Bytes of tensor space that a request names. -/
def hostSpan (op : HostOp) (p : Packet) : Nat := match op with
  | .cas | .faa => 8
  | _ => p.len
/-- Slots of a receive ring. -/
def rqSlots (x : QP) : Nat := wfld x.rqCfg 15 0 + 1
/-- Slots that one SEND may take. -/
def rqMax (x : QP) : Nat := wfld x.rqCfg 31 16 + 1
/-- The tensor address at which the next bytes of a SEND land (R343). -/
def rqPlace (x : QP) (done : Nat) : Nat :=
  4096 * wfld x.rqBase 47 12 + 4096 * ((x.wp.toNat + done / 4096) % rqSlots x) + done % 4096

/-- The R_Key of the control window (R339, R344). -/
def cwKey (s : State) : Nat := 0x8000_0000 + regF s (hostPage + 0x1C0) 23 0
/-- The tensor address that a region gives a virtual address. -/
def mrPlace (r : MR) (va : BitVec 64) : Nat := (wfld r.ta 47 0 + (va - r.va).toNat) % 2 ^ 48
/-- Whether a length fits the opcode (R336): the payload of one packet against the length that the message still has. -/
def lengthFits (op : HostOp) (p : Packet) (left : Nat) : Bool :=
  match op with
  | .write => decide (left ≤ 2 ^ 31) && (if p.last then p.data.length == left && decide (left ≤ 4096)
      else p.data.length == 4096 && decide (4096 < left))
  | .read => decide (p.len ≤ 2 ^ 31)
  | .send => if p.last then decide (p.data.length ≤ 4096) else p.data.length == 4096
  | .cas | .faa => p.va.toNat % 8 == 0
  | .bad => false

/-- The region checks of R340 for a request that names a region. -/
def regionCheck (s : State) (x : QP) (op : HostOp) (p : Packet) : HostCheck :=
  let r := getMr s (p.rkey.toNat / 256)
  let off := (p.va - r.va).toNat
  let perm := match op with
    | .read => 62
    | .write => 61
    | _ => 60
  if p.rkey.toNat = cwKey s then .nak .nakAccess 7
  else if 2 ^ 24 ≤ p.rkey.toNat ∨ ¬ wbit r.cfg 63 ∨ wfld r.cfg 7 0 ≠ p.rkey.toNat % 256 then .nak .nakAccess 1
  else if wfld r.cfg 57 46 ≠ (qpTag x).toNat then .nak .nakAccess 2
  else if wfld r.len 41 0 < off + hostSpan op p then .nak .nakAccess 3
  else if ¬ wbit r.cfg perm then .nak .nakAccess 4
  else if ¬ lengthFits op p p.len then .late (mrPlace r p.va) (match op with
    | .write => p.data.length
    | _ => hostSpan op p) .nakInvalid 6
  else .pass (mrPlace r p.va)

/-- The checks of R340 that precede an access, in their order; a middle or last packet goes on where its first one was checked.
DEDUCED: log 92. -/
def hostCheck (s : State) (q : Nat) (op : HostOp) (p : Packet) : HostCheck :=
  let x := getQp s q
  match (getJob s (qpTag x)).st with
  | .binding => .rnr
  | .staged | .bound =>
    match op with
    | .bad => .nak .nakInvalid 6
    | .send =>
      let done := if p.first then 0 else x.sendBytes.getD 0
      if ¬ p.first ∧ x.sendBytes = none then .nak .nakInvalid 6
      else if ¬ lengthFits op p 0 then .late (rqPlace x done) p.data.length .nakInvalid 6
      else if rqMax x < ceilDiv (done + p.data.length) 4096 then .late (rqPlace x done) p.data.length .nakInvalid 8
      else .pass (rqPlace x done)
    | .write =>
      if p.first then regionCheck s x op p
      else (match x.cursor with
        | some (ta, left) => if lengthFits op p left then .pass ta else .late ta p.data.length .nakInvalid 6
        | none => .nak .nakInvalid 6)
    | _ => regionCheck s x op p
  | _ => .drop

/-- Whether a page of a span lies in the bulk tier (R349). -/
def spanBulk (s : State) (ta n : Nat) : Bool :=
  (slotsOf ta (max n 1)).any (fun k => match pageAt s k with
    | some (_, pg) => pageLive pg && pg.bulk && pg.copy.isNone
    | none => false)
/-- The tensor address and length that a request names, whatever the checks of R340 say of it; none where no valid region gives one.
DEDUCED: log 167. -/
def hostNames (s : State) (q : Nat) (op : HostOp) (p : Packet) : Option (Nat × Nat) :=
  let x := getQp s q
  let r := getMr s (p.rkey.toNat / 256)
  match op with
  | .bad => none
  | .send => some (rqPlace x (if p.first then 0 else x.sendBytes.getD 0), p.data.length)
  | _ =>
    if op = .write ∧ ¬ p.first then x.cursor.map (fun k => (k.1, p.data.length))
    else if p.rkey.toNat = cwKey s ∨ 2 ^ 24 ≤ p.rkey.toNat ∨ ¬ wbit r.cfg 63 ∨ wfld r.cfg 7 0 ≠ p.rkey.toNat % 256 then none
    else some (mrPlace r p.va, if op = .write then p.data.length else hostSpan op p)
/-- Whether a request's tier is ready (R349): the crema, and for a page in the bulk tier the bulk. -/
def hostTierReady (s : State) (q : Nat) (op : HostOp) (p : Packet) : Bool :=
  devReady s 12 && (devReady s 13 || (match hostNames s q op p with
    | some (ta, n) => !spanBulk s ta n
    | none => true))

/-- An RNR NAK with a timer code (R342). -/
def hostRnr (q : Nat) (p : Packet) (hi lo : Nat) (s : State) : State :=
  hostAnswer q p p.psn (.rnr (BitVec.ofNat 5 (regF s (hostPage + 0x1C8) hi lo))) s

/-- The millisecond since the release of RESET_N (R348, R377). -/
def hostMs (s : State) : Nat := devTime s / 50000
/-- The rate check of R348: whether a first request is admitted, with its budget taken. -/
def rateCheck (q : Nat) (port : Nat) (s : State) : Bool × State :=
  let x := getQp s q
  if x.admitted then (true, s)
  else if 2000 ≤ hostMs s then (true, putQp s q { x with admitted := true })
  else
    let h := getHp s port
    let used := if h.msNum = hostMs s then h.msUsed else 0
    if regF s (hostPage + 0x1D0) 15 0 ≤ used then (false, bump s (hostPage + 0x808))
    else (true, putHp (putQp s q { x with admitted := true }) port { h with msNum := hostMs s, msUsed := used + 1 })

/-! ### Access of tensor space (R341 to R343) -/

/-- The result of an atomic (R336). -/
def hostAtomicNew (op : HostOp) (p : Packet) (old : BitVec 64) : BitVec 64 :=
  if op = .cas then (if old = p.compare then p.swap else old) else old + p.swap

/-- An atomic is performed as one read and write, or waits for its page (R280, R341). -/
def hostAtomic (q : Nat) (op : HostOp) (p : Packet) (ta : Nat) (s : State) : State :=
  let tag := qpTag (getQp s q)
  match tensorRead (.host q) tag 0 ta 8 s with
  | (0, l, s) =>
    let old := BitVec.ofNat 64 (leNat l)
    let wait := match pageAt s (ta / 65536) with
      | some (k, pg) => if pg.bulk ∧ ¬ (pg.copy.isSome ∧ pg.st = .resident) then some k else none
      | none => none
    match wait with
    | some k =>
      let e := writePiece (.host q) 0 k ta [] s
      if e.1 ≠ 0 then hostTierNak q p e.1 e.2 else putQp e.2 q { getQp e.2 q with due := some (op, p, ta) }
    | none =>
      let e := tensorWrite (.host q) tag 0 ta (leBytes 8 (hostAtomicNew op p old).toNat) s
      if e.1 ≠ 0 then hostTierNak q p e.1 e.2
      else
        let x := getQp e.2 q
        hostAnswer q p p.psn (.atomic old) (putQp e.2 q { x with atomics := ((p.psn, old) :: x.atomics).take 16 })
  | (code, _, s) => hostTierNak q p code s

/-- The answers of a READ, one for each 4,096 bytes, up to the page that fails (R340). -/
def hostRead (q : Nat) (p : Packet) (ta : Nat) (s : State) : State :=
  let tag := qpTag (getQp s q)
  let r := (List.range (psnCount .read p)).foldl (fun (a : Bool × State) i =>
    if a.1 then a
    else match tensorRead (.host q) tag 0 (ta + 4096 * i) (min 4096 (p.len - 4096 * i)) a.2 with
      | (0, l, s) => (false, hostAnswer q p (p.psn + BitVec.ofNat 24 i) (.readData l) s)
      | (code, _, s) => (true, hostTierNakAt q p (p.psn + BitVec.ofNat 24 i) code s)) (false, s)
  r.2

/-- The bytes of a WRITE or SEND packet go to tensor space. DEDUCED: log 91. -/
def hostPlace (q : Nat) (op : HostOp) (p : Packet) (ta : Nat) (s : State) : State :=
  match tensorWrite (.host q) (qpTag (getQp s q)) 0 ta p.data s with
  | (0, s) =>
    let x := getQp s q
    let left := if p.first then p.len else (x.cursor.map (·.2)).getD 0
    let done := if p.first then 0 else x.sendBytes.getD 0
    putQp s q { x with
      due := some (op, p, ta),
      cursor := if op = .write ∧ ¬ p.last then some (ta + p.data.length, left - p.data.length) else none,
      sendBytes := if op = .send then some (done + p.data.length) else none }
  | (code, s) => hostTierNak q p code (dropWrites (.host q) s)

/-- A request that has passed its checks is performed; EXP_PSN advances unless it is a duplicate or its tier checks refuse it, which moves
the queue pair to ERROR (R340, R342). DEDUCED: log 119. -/
def hostPerform (q : Nat) (op : HostOp) (p : Packet) (dup : Bool) (ta : Nat) (s : State) : State :=
  let s := match op with
    | .read => hostRead q p ta s
    | .cas | .faa => hostAtomic q op p ta s
    | _ => hostPlace q op p ta s
  let x := getQp s q
  if dup ∨ qpSt x = 4 then s else putQp s q { x with expPsn := p.psn + BitVec.ofNat 24 (psnCount op p) }

/-- Every byte of the request that waited has landed (R341): WP passes a complete SEND, and the last packet of a message is
acknowledged. -/
def hostFinish (q : Nat) (op : HostOp) (p : Packet) (ta : Nat) (s : State) : State :=
  let x := getQp s q
  let s := putQp s q { x with due := none }
  match op with
  | .cas | .faa => hostAtomic q op p ta s
  | _ =>
    if ¬ p.last then s
    else
      let x := getQp s q
      let s := if op = .send then putQp s q { x with
          wp := x.wp + BitVec.ofNat 32 (ceilDiv (x.sendBytes.getD 0) 4096), sendBytes := none } else s
      hostAnswer q p p.psn .ack s

/-! ### A request on a data QP -/

/-- The answer to a duplicate that is not performed again (R342). -/
def hostDuplicate (q : Nat) (op : HostOp) (p : Packet) (s : State) : State :=
  let x := getQp s q
  match op with
  | .cas | .faa => (match x.atomics.find? (fun a => a.1 == p.psn) with
    | some a => hostAnswer q p p.psn (.atomic a.2) s
    | none => hostNak q p .nakInvalid 6 0 s)
  | _ => hostAnswer q p (x.expPsn - 1) .ack s

/-- The tier checks of R277 and R280 on every page of n bytes: the code of the first that fails, or 0. -/
def tierFirst (tag : BitVec 12) (write : Bool) (ta n : Nat) (s : State) : Nat × State :=
  if hitsMap ta n then (descMalformed, s)
  else (slotsOf ta n).foldl (fun q slot =>
    if q.1 ≠ 0 then q
    else
      let r := entryCheck tag slot q.2
      let code := match pageAt r.2 slot with
        | some (_, p) => if ¬ write then 0 else if p.bulk ∧ p.hint = 5 then 0x3002 else if p.closed then 0x300B else 0
        | none => 0
      if r.1 ≠ 0 ∨ code = 0 then r else (code, tierFault code (65536 * slot) r.2)) (0, s)

/-- Whether a job's resources refuse every access under R368. -/
def jobStops (j : Job) : Bool := j.st == .quiescing || j.st == .rinsing || j.st == .stuck
/-- A request on a data QP whose PSN is expected, or a READ repeated: the halt of R347, the rate check, the readiness check and the checks of
R340 (R343, R348, R349). -/
def hostData (q : Nat) (op : HostOp) (p : Packet) (dup : Bool) (s : State) : State :=
  let x := getQp s q
  match rateCheck q p.port s with
  | (false, s) => hostRnr q p 12 8 s
  | (true, s) =>
    if ¬ hostTierReady s q op p then hostRnr q p 20 16 (qpFault q 0x6002 0 p.psn (bump s (hostPage + 0x800)))
    else if op = .send ∧ p.first ∧ rqSlots x - (x.wp - x.rp).toNat < rqMax x ∧ hostCheck s q op p ≠ .drop ∧ hostCheck s q op p ≠ .rnr then hostRnr q p 4 0 s
    else match hostCheck s q op p with
      | .drop => hostDrop p.port (if jobStops (getJob s (qpTag x)) then rinseCount 0x2006 s else s)
      | .rnr => hostRnr q p 20 16 s
      | .nak a cause => hostNak q p a cause 0 s
      | .late ta n a cause =>
        let r := tierFirst (qpTag x) (op != .read) ta n s
        if r.1 ≠ 0 then hostTierNak q p r.1 r.2 else hostNak q p a cause 0 r.2
      | .pass ta => hostPerform q op p dup ta s

/-! ### Congestion (R346) -/

/-- A request with ECN CE: at most one CNP per GAP. -/
def hostCe (q : Nat) (p : Packet) (s : State) : State :=
  let x := getQp s q
  let cfg := reg s (hostPage + 0x1D8)
  let due : Bool := match x.cnpSent with
    | some t => decide (t + usCycles (wfld cfg 7 0) ≤ s.cycle)
    | none => true
  if !p.ce || !due then s
  else
    let s := putQp s q { x with cnpSent := some s.cycle }
    hostReply { port := p.port, qp := q, psn := 0, cls := BitVec.ofNat 3 (wfld cfg 18 16), ans := .cnp }
      (bump s (hostPortPage p.port + 0x818))

/-- 400e9, 100e6 and 5e9 bit/s, 1.0 and 2.0 in binary64. -/
def f64Line : BitVec 64 := nat64 400_000_000_000
/-- The least response rate. -/
def f64Floor : BitVec 64 := nat64 100_000_000
/-- g = 2^-GSHIFT. -/
def cnpG (s : State) : BitVec 64 := rne64 (.fin false 1 (-((regF s (hostPage + 0x1D8) 11 8 : Nat) : Int)))

/-- A CNP arrives at a queue pair. -/
def cnpArrive (q : Nat) (s : State) : State :=
  let x := getQp s q
  let g := cnpG s
  putQp s q { x with
    rt := x.rc, rc := max64 (mul64 x.rc (sub64 (nat64 1) (div64 x.alpha (nat64 2)))) f64Floor,
    alpha := add64 x.alpha (mul64 g (sub64 (nat64 1) x.alpha)), cnpN := 0, cnpSeen := true }
/-- The end of a period of 55 µs. -/
def cnpPeriod (q : Nat) (s : State) : State :=
  let x := getQp s q
  let alpha := if x.cnpSeen then x.alpha else mul64 (sub64 (nat64 1) (cnpG s)) x.alpha
  let rt := if 5 < x.cnpN + 1 then min64 (add64 x.rt (nat64 5_000_000_000)) f64Line else x.rt
  putQp s q { x with alpha := alpha, cnpN := x.cnpN + 1, rt := rt, rc := div64 (add64 x.rc rt) (nat64 2), cnpSeen := false }

/-! ### Context and region writes (R337, R343, R350) -/

/-- Whether a write may leave STATE `new` where it stands at `old` (R337): a permitted STATE write, or one that leaves RESET or INIT as it
is, in which the other fields are writable. -/
def qpMoveOk (old new : Nat) : Bool :=
  (old == new && decide (old ≤ 1)) || new == 0 || new == 4 || (old == 0 && new == 1) || (old == 1 && new == 2) || (old == 2 && new == 3)
/-- A write to `QP_CTX0`; `was` keeps the STATE before the cycle's first write for the requests that arrive in it (R337). DEDUCED: log 93. -/
def qpCtxMain (q : Nat) (v : Word) (s : State) : State :=
  let x := getQp s q
  let mask := BitVec.ofNat 64 (bits 60 59 + bits 57 46 + bits 23 0)
  let old := qpSt x
  let new := wfld v 63 61
  if ¬ qpMoveOk old new ∨ (v &&& mask ≠ x.ctx0 &&& mask ∧ 1 < old) then hostIgnore s
  else
    let was := match x.was with
      | some (t, o) => if t = s.cycle then (t, o) else (s.cycle, old)
      | none => (s.cycle, old)
    let s := putQp s q { x with ctx0 := wput (v &&& mask) 63 61 new, was := some was, admitted := if new = 2 ∧ old ≠ 2 then false else x.admitted,
                                nakSent := if new = 2 ∧ old ≠ 2 then false else x.nakSent }
    if new = 0 ∨ new = 4 then qpClear q s else s
/-- A write to a register of a queue-pair context; a control QP's is RO but to firmware (R338). -/
def qpCtxWrite (mgmt : Bool) (q off : Nat) (v : Word) (s : State) : State :=
  let x := getQp s q
  if (qpCtl q ∧ ¬ mgmt) ∨ 0x130 < off then s
  else if off = 0x108 then qpCtxMain q v s
  else if 1 < qpSt x then hostIgnore s
  else match off with
    | 0x110 => putQp s q { x with expPsn := v.setWidth 24 }
    | 0x118 => putQp s q { x with gid := BitVec.ofNat 128 (x.gid.toNat / 2 ^ 64 * 2 ^ 64 + v.toNat) }
    | 0x120 => putQp s q { x with gid := BitVec.ofNat 128 (v.toNat * 2 ^ 64 + x.gid.toNat % 2 ^ 64) }
    | 0x128 => putQp s q { x with rqBase := v &&& BitVec.ofNat 64 (bits 47 12) }
    | 0x130 => if wfld v 15 0 < wfld v 31 16 then hostIgnore s else putQp s q { x with rqCfg := v &&& BitVec.ofNat 64 (bits 31 0) }
    | _ => s
/-- A write to `QP_RQ_RETURN` (R343). -/
def qpReturn (q : Nat) (n : BitVec 32) (s : State) : State :=
  let x := getQp s q
  if (x.wp - x.rp).toNat < n.toNat then hostIgnore s else putQp s q { x with rp := x.rp + n }
/-- A write to a register of a memory region. -/
def mrWrite (m off : Nat) (v : Word) (s : State) : State :=
  let r := getMr s m
  if wbit r.cfg 63 ∧ ¬ (off = 0x188 ∧ ¬ wbit v 63) then hostIgnore s
  else match off with
    | 0x188 => putMr s m { r with cfg := v &&& BitVec.ofNat 64 (bits 63 60 + bits 57 46 + bits 7 0) }
    | 0x190 => putMr s m { r with va := v }
    | 0x198 => putMr s m { r with len := v &&& BitVec.ofNat 64 (bits 41 0) }
    | 0x1A0 => putMr s m { r with ta := v &&& BitVec.ofNat 64 (bits 47 0) }
    | _ => s
/-- A read of a register of the selected context or region. -/
def hostShow (s : State) (off : Nat) : Word :=
  let q := regF s (hostPage + 0x100) 11 0
  let x := getQp s q
  let r := getMr s (regF s (hostPage + 0x180) 15 0)
  match off with
  | 0x108 => if qpCtl q then wput (wput x.ctx0 60 59 (q - 4092)) 58 58 1 else x.ctx0
  | 0x110 => x.expPsn.setWidth 64
  | 0x118 => x.gid.setWidth 64
  | 0x120 => (x.gid >>> 64).setWidth 64
  | 0x128 => x.rqBase
  | 0x130 => x.rqCfg
  | 0x138 => packWord [(32, x.rp.toNat), (0, x.wp.toNat)]
  | 0x148 => x.fault
  | 0x188 => r.cfg
  | 0x190 => r.va
  | 0x198 => r.len
  | _ => r.ta
/-- A write to a register of the selected context or region. -/
def hostPut (mgmt : Bool) (off : Nat) (v : Word) (s : State) : State :=
  let q := regF s (hostPage + 0x100) 11 0
  if off = 0x140 then qpReturn q (v.setWidth 32) s
  else if off < 0x180 then qpCtxWrite mgmt q off v s
  else mrWrite (regF s (hostPage + 0x180) 15 0) off v s
/-- A write to `HP_PFC_LEVEL` (R345). -/
def pfcLevel (p : Nat) (v : Word) (s : State) : State :=
  if 15360 < wfld v 47 32 ∨ wfld v 47 32 ≤ wfld v 15 0 then hostIgnore s
  else setReg s (hostPortPage p + 0x110) (v &&& BitVec.ofNat 64 (bits 47 32 + bits 15 0))

/-- The queue pairs of a job, the control QPs apart. -/
def jobQps (s : State) (tag : BitVec 12) : List Nat := (tblKeys s.qps).filter (fun q => !qpCtl q && qpTag (getQp s q) == tag)
/-- A quiesce gives up what a job's queue pairs have in progress: nothing of it is acknowledged (R341, R368). DEDUCED: log 166. -/
def hostQuiesce (tag : BitVec 12) (s : State) : State := forAll (jobQps s tag) s qpClear
/-- A rinse sets the job's queue pairs to RESET and its regions to VALID 0 (R350, R370). -/
def hostRinse (tag : BitVec 12) (s : State) : State :=
  let s := forAll (jobQps s tag) s (fun q s => qpClear q (putQp s q (qpWith (getQp s q) 0)))
  forAll ((tblKeys s.mrs).filter (fun m => wfld (getMr s m).cfg 57 46 == tag.toNat)) s (fun m s =>
    let r := getMr s m
    putMr s m { r with cfg := wput r.cfg 63 63 0 })

/-! ### Control endpoints and connection management (R338, R339) -/

/-- A control QP is brought to RTS with an endpoint. -/
def ctlEndpoint (p : Nat) (e : Endpoint) (st : Nat) (s : State) : State :=
  let q := 4092 + p
  let x := getQp s q
  putQp s q { x with ctx0 := packWord [(61, st), (59, p), (0, e.qpn.toNat)], expPsn := e.psn, gid := e.gid, nakSent := false }
/-- A control QP returns to RESET. -/
def ctlReset (p : Nat) (s : State) : State :=
  let q := 4092 + p
  qpClear q (putQp s q (qpWith (getQp s q) 0))
/-- The endpoint that the installed policy names for a port (R420). -/
def policyEndpoint (s : State) (p : Nat) : Option Endpoint :=
  let b := 256 + 32 * p
  if policyField s (b + 22) 1 % 2 = 1 then
    some { gid := BitVec.ofNat 128 (policyField s b 16), qpn := BitVec.ofNat 24 (policyField s (b + 16) 3),
           psn := BitVec.ofNat 24 (policyField s (b + 19) 3) }
  else none
/-- The edge at which a port's ready bit sets (R338): an owned device's control QP goes to RTS. -/
def ctlBringUp (p : Nat) (s : State) : State :=
  if unowned s then s
  else match policyEndpoint s p with
    | some e => ctlEndpoint p e 3 s
    | none => ctlReset p s

/-- An answer of connection management, in the class of the MAD that it answers (R335). -/
def cmAnswer (p : Nat) (cls : BitVec 3) (a : Answer) (s : State) : State :=
  hostReply { port := p, qp := 4092 + p, psn := 0, cls := cls, ans := a } s
/-- A MAD reaches connection management of a port: only while the device is unowned and the link is up; an owned device drops it (R336). -/
def cmServe (p : Nat) (s : State) (f : State → State) : State :=
  if ¬ linkUp s p then s else if unowned s ∧ devReady s (2 + p) then f s else hostDrop p s
/-- REQ (R339). DEDUCED: log 94. -/
def cmRequest (p : Nat) (cls : BitVec 3) (service : BitVec 64) (e : Endpoint) (s : State) : State :=
  let h := getHp s p
  if service.toNat ≠ 0x5A42_0C01 then cmAnswer p cls (.cmRej .service) s
  else if h.held.isSome then cmAnswer p cls (.cmRej .consumer) s
  else cmAnswer p cls .cmRep (ctlEndpoint p e 0 (putHp s p { h with held := some e }))
/-- RTU. -/
def cmReady (p : Nat) (s : State) : State :=
  if (getHp s p).held.isSome then putQp s (4092 + p) (qpWith (getQp s (4092 + p)) 3) else s
/-- DREQ. -/
def cmEnd (p : Nat) (cls : BitVec 3) (gid : BitVec 128) (qpn : BitVec 24) (s : State) : State :=
  let h := getHp s p
  match h.held with
  | some e => if e.gid = gid ∧ e.qpn = qpn then cmAnswer p cls .cmDrep (ctlReset p (putHp s p { h with held := none })) else s
  | none => s

/-- A MAD of connection management on a port, in a class; the device serves no other (R339). -/
def cmTake (p : Nat) (cls : BitVec 3) (m : Mad) (s : State) : State :=
  match m with
  | .req service gid qpn psn => cmServe p s (cmRequest p cls service { gid := gid, qpn := qpn, psn := psn })
  | .rtu => cmServe p s (cmReady p)
  | .dreq gid qpn => cmServe p s (cmEnd p cls gid qpn)
  | .other => hostDrop p s

/-! ### Meanings -/

/-- HOST_LINK_CHANGE (R347). -/
def execHostLinkChange (port : BitVec 2) (up : Bool) (s : State) : Result :=
  .next (putHp s port.toNat { getHp s port.toNat with link := up })
/-- REQ (R339). -/
def execCmReq (port : MadPort) (service : BitVec 64) (gid : BitVec 128) (qpn psn : BitVec 24) (s : State) : Result :=
  .next (cmTake port.port.toNat port.cls (.req service gid qpn psn) s)
/-- RTU (R339). -/
def execCmRtu (port : BitVec 2) (s : State) : Result := .next (cmTake port.toNat 0 .rtu s)
/-- DREQ (R339). -/
def execCmDreq (port : MadPort) (gid : BitVec 128) (qpn : BitVec 24) (s : State) : Result :=
  .next (cmTake port.port.toNat port.cls (.dreq gid qpn) s)
/-- CNP (R346). -/
def execCnp (q : BitVec 12) (s : State) : Result := .next (cnpArrive q.toNat s)
/-- CNP_RATE_TIMER (R346). -/
def execCnpRateTimer (q : BitVec 12) (s : State) : Result := .next (cnpPeriod q.toNat s)
/-- QP_CTX_WRITE (R337): a write of the host, which a policy may close the page to (R422). -/
def execQpCtxWrite (q off : BitVec 12) (v : BitVec 64) (s : State) : Result :=
  .next (if hostClosed s 6 then s else inDomain 3 s (qpCtxWrite false q.toNat off.toNat v))
/-- QP_RQ_RETURN (R343). -/
def execQpRqReturn (q : BitVec 12) (n : BitVec 32) (s : State) : Result := .next (inDomain 3 s (qpReturn q.toNat n))
/-- PFC_PAUSE_END (R345). -/
def execPfcPauseEnd (port : BitVec 2) (cls : BitVec 3) (s : State) : Result := .next (hostUnpause port.toNat cls.toNat s)

end Sys2Proof.Machine
end

