-- ==== Sys2Proof/Machine/Pages.lean ====
section
/-! DEFINITION. What every control-space page has in common (R352 to R357, R374 to R377): its power and clock domain, the common header,
the counter snapshot, writes under the access codes of R5, and the soft reset of a block. -/

namespace Sys2Proof.Machine

/-! ### Domains and readiness (R360, R374, R377) -/

/-- The power domain of a page's block (R374). Instances of the die pages are 256*d + 16*c + t. -/
def pageDomain : PageType → Nat → Nat
  | .device, _ | .mgmt, _ => 0
  | .mailbox, _ => 1
  | .install, _ | .roast, _ | .lease, _ | .update, _ | .numerics, _ | .kv, _ | .tier, _ => 2
  | .host, _ | .hostPort, _ => 3
  | .fabric, _ => 4
  | .bulk, h | .pour, h | .coll, h => 4 + h
  | .fabPort, p => portDomain p
  | .optGroup, g => 6 + g
  | .laser, k => 6 + 2 * k
  | .spine, i => 10 + i / 256
  | _, i => 14 + 4 * (i / 256) + i / 64 % 4
/-- The clock domain of a page's block (R377). -/
def pageClock : PageType → Nat → Nat
  | .device, _ | .mgmt, _ => 0
  | .mailbox, _ => 1
  | .install, _ | .roast, _ | .lease, _ | .update, _ | .numerics, _ | .kv, _ | .tier, _ => 2
  | .fabric, _ => 15
  | .bulk, h | .pour, h | .coll, h => 15 + h
  | .host, _ => 17
  | .hostPort, p => 17 + p
  | .fabPort, p => 21 + p / 4
  | .optGroup, g => 21 + g
  | .laser, k => 21 + 2 * k
  | .spine, i => 7 + i / 256
  | _, i => 3 + i / 256
/-- Whether the function of a page's block is ready (R360): any port of an optical group or laser source. DEDUCED: log 118. -/
def pageReady (s : State) : PageType → Nat → Bool
  | .mailbox, _ => devReady s 0
  | .tier, _ | .spine, _ => devReady s 12
  | .host, _ => [2, 3, 4, 5].any (devReady s)
  | .hostPort, p => devReady s (2 + p)
  | .fabric, _ => devReady s 16
  | .fabPort, p => devReady s (32 + p)
  | .optGroup, g => (List.range 4).any (fun p => devReady s (32 + 4 * g + p))
  | .laser, k => (List.range 8).any (fun p => devReady s (32 + 8 * k + p))
  | .bulk, _ => devReady s 13
  | .pour, _ => devReady s 14
  | .coll, _ => devReady s 15
  | .device, _ | .mgmt, _ | .install, _ | .roast, _ | .lease, _ | .update, _ | .numerics, _ | .kv, _ => devReady s 1
  | _, i => devReady s (8 + i / 256)

/-! ### Bound and rinsing blocks (R354, R361) -/

/-- Whether a job's resources refuse under R368. -/
def jobBlocked (s : State) (tag : BitVec 12) : Bool := match (getJob s tag).st with
  | .quiescing | .rinsing | .stuck => true
  | _ => false
/-- BOUND and RINSING of a resource that carries a tag. -/
def tagState (s : State) (tag : BitVec 12) : Bool × Bool :=
  ((getJob s tag).st != .free && !jobBlocked s tag, jobBlocked s tag)
/-- BOUND and RINSING of the tier-map pages that satisfy f. -/
def pagesState (s : State) (f : Page → Bool) : Bool × Bool :=
  (s.pages.any (fun p => p.2.st != .free && p.2.st != .rinsing && f p.2), s.pages.any (fun p => p.2.st == .rinsing && f p.2))
/-- BOUND and RINSING over a list of tags. -/
def tagsState (s : State) (l : List (BitVec 12)) : Bool × Bool :=
  (l.any (fun t => (tagState s t).1), l.any (fun t => (tagState s t).2))
/-- BOUND and RINSING of a block: of the resources of R361 that it holds. DEDUCED: log 44. -/
def bindState (s : State) (p : PageType) (i : Nat) : Bool × Bool :=
  match p with
  | .cluster | .dma | .carafe | .carWin | .tile =>
    let c := i / 16
    (wfld (reg s (clusterBase c + 0x680)) 63 61 == 2, cluBlocked s c)
  | .spine => pagesState s (fun q => (cremaRuns q).any (fun r => r / 0x10_0000 == i / 256))
  | .bulk => pagesState s (fun q => (bulkRuns q).any (fun r => r / 0x100_0000 == i))
  | .tier => pagesState s (fun _ => true)
  | .pour =>
    let l := s.pour.filter (fun q => q.1 / 64 == i)
    let b := tagsState s ((l.filter (fun q => wbit q.2.cfg 63)).map (fun q => pqTag q.2))
    (b.1, b.2 || l.any (fun q => cluBlocked s (pqClu q.2) && cluOwner s (pqClu q.2) == some (pqTag q.2)))
  | .coll => tagsState s ((s.jobs.filter (fun j => !j.2.groups.isEmpty)).map (fun j => BitVec.ofNat 12 j.1))
  | .host => tagsState s ((s.qps.filter (fun q => !qpCtl q.1 && qpSt q.2 != 0)).map (fun q => qpTag q.2)
      ++ (s.mrs.filter (fun m => wbit m.2.cfg 63)).map (fun m => BitVec.ofNat 12 (wfld m.2.cfg 57 46)))
  | .hostPort => tagsState s ((s.qps.filter (fun q => !qpCtl q.1 && qpSt q.2 != 0 && wfld q.2.ctx0 60 59 == i)).map (fun q => qpTag q.2))
  | _ => (false, false)

/-! ### The common header (R353, R354, R357) -/

/-- Whether a page is locked. -/
def pageLocked (s : State) (base : Nat) : Bool := wbit (reg s (base + 0x60)) 0
/-- A read of a header register. -/
def headShow (s : State) (p : PageType) (i base off : Nat) : Word :=
  match off with
  | 0x000 => packWord [(48, blkType p), (32, i), (16, 1), (0, 1)]
  | 0x008 => packWord [(16, 1), (0, counterCount p)]
  | 0x018 =>
    let b := bindState s p i
    packWord [(3, b2n b.2), (2, b2n b.1), (1, b2n (domainOn s (pageDomain p i))), (0, b2n (wbit (reg s (mgmtPage + 0x118)) (pageClock p i)))]
  | 0x020 => packWord [(0, b2n (pageReady s p i))]
  | 0x040 => 0
  | _ => reg s (base + off)
/-- A read of the counter area: the values held while HOLD is 1. -/
def counterShow (s : State) (addr : Nat) : Word :=
  match tblFind s.snaps (addr / 4096) with
  | some t => tblGet 0 t (addr % 4096)
  | none => reg s addr
/-- A write to `CTR_SNAP`. DEDUCED: log 43. -/
def snapWrite (base : Nat) (hold : Bool) (s : State) : State :=
  let s := setReg s (base + 0x80) (BitVec.ofNat 64 (b2n hold))
  if hold then
    let now := (s.regs.filter (fun r => r.1 / 4096 == base / 4096 && decide (0x800 ≤ r.1 % 4096))).map (fun r => (r.1 % 4096, r.2))
    { s with snaps := tblIns s.snaps (base / 4096) now }
  else { s with snaps := tblDel s.snaps (base / 4096) }
/-- A write to `ERR_STATUS` (R356): clearing the last set bit clears `ERR_FIRST`. -/
def errClear (base : Nat) (v : Word) (s : State) : State :=
  let old := reg s (base + 0x28)
  let now := old &&& ~~~ (v &&& 0xFFFE)
  let s := alertClear base (v &&& 0xFFFE) (setReg s (base + 0x28) now)
  if old ≠ 0 ∧ now = 0 then setReg s (base + 0x48) 0 else s
/-- A write to `BLK_LOCK` (R5): RWL registers of the page keep their values until a device reset. -/
def lockWrite (base : Nat) (v : Word) (s : State) : State := setReg s (base + 0x60) (reg s (base + 0x60) ||| (v &&& 1))

/-- A write to a register that has no effect but its value (R5, R6, R8). -/
def plainWrite (base addr : Nat) (r : RegRow) (v : Word) (s : State) : State :=
  let m := BitVec.ofNat 64 r.mask
  let old := reg s addr
  match r.acc with
  | .ro | .wo => s
  | .rw => setReg s addr ((old &&& ~~~ m) ||| (v &&& m))
  | .w1c => setReg s addr (old &&& ~~~ (v &&& m))
  | .w1s => setReg s addr (old ||| (v &&& m))
  | .rwl => if pageLocked s base then s else setReg s addr ((old &&& ~~~ m) ||| (v &&& m))

/-! ### Soft reset (R7, R355, R357) -/

/-- Registers that show the device's own state, which a soft reset of their page does not change. -/
def softKept : PageType → List Nat
  | .mgmt => [0x100, 0x110, 0x118]
  | .device => [0x100]
  | _ => []
/-- The first address and the length of a block's registers: a cluster's include its phase table. -/
def ownsAddr (p : PageType) (base a : Nat) : Bool :=
  (decide (base ≤ a) && decide (a < base + 0x1000) && !(softKept p).contains (a - base))
    || (p == .cluster && decide (base + 0x4000 ≤ a) && decide (a < base + 0x8000))
/-- Changes every job entry; an entry equal to the reset one is not listed. -/
def eachJob (f : Job → Job) (s : State) : State := forAll (tblKeys s.jobs) s (fun k s =>
  { s with jobs := tblSet Job.reset s.jobs k (f (tblGet Job.reset s.jobs k)) })
/-- What a soft reset does to the records that hold a block's other registers. -/
def softRecords (p : PageType) (i : Nat) (s : State) : State :=
  match p with
  | .cluster =>
    let k := getClu s (i / 16)
    putClu s (i / 16) { Cluster.reset with rings := k.rings, wbuf := k.wbuf, bankFrom := k.bankFrom, reqData := k.reqData,
                                           barReset := k.barReset, barRinsed := k.barRinsed }
  | .dma => putClu s (i / 16) { getClu s (i / 16) with rings := [] }
  | .carafe => putClu s (i / 16) { getClu s (i / 16) with wbuf := [], bankFrom := [], reqData := [] }
  | .tile => putTile s i Tile.reset
  | .pour => { s with pour := s.pour.filter (fun q => q.1 / 64 != i) }
  | .host => { s with qps := [], mrs := [] }
  | .fabPort => portReset i s
  | .device => eachJob (fun j => { j with fault := 0, status := 0 }) s
  | .mgmt => { s with power := { s.power with rdyAt := [], softAt := s.cycle } }
  | .fabric => eachJob (fun j => { j with jepoch := 0 }) s
  | .update => eachJob (fun j => { j with policy := 0, stepLast := 0, origin := 0, mismatch := 0 }) s
  | .numerics => eachJob (fun j => { j with loss := LossRec.reset, noise := [] }) s
  | .tier => eachJob (fun j => { j with quota := 0 }) s
  | _ => s
/-- SOFT_RESET of a block: its registers take their reset values; counters and the snapshot are zero. DEDUCED: log 45. -/
def softReset (p : PageType) (i base : Nat) (s : State) : State :=
  let old := s
  let s := softRecords p i s
  let s := { s with regs := s.regs.filter (fun r => !ownsAddr p base r.1), snaps := tblDel s.snaps (base / 4096) }
  let s := alertClear base 0xFFFF s
  if p = .fabric then repath old s else s
/-- The CLK_REQ field of a `BLK_CTRL` write. -/
def clkRequest (base : Nat) (v : Word) (s : State) : State := setRegF s (base + 0x10) 2 2 (wfld v 2 2)
/-- A write to `BLK_CTRL` (R355): only CLK_REQ takes effect while the block is bound, rinsing or locked. With SOFT_RESET the block is reset first, and
the other fields of the write then take effect. DESIGN CHOICE: log 157. -/
def blkCtrl (p : PageType) (i base : Nat) (v : Word) (s : State) : State :=
  let b := bindState s p i
  if b.1 || b.2 || pageLocked s base then clkRequest base v s
  else
    let s := if wbit v 3 then softReset p i base s else s
    setReg s (base + 0x10) (v &&& 7)
/-- A write to a header register but `ERR_INJECT`. -/
def headWrite (p : PageType) (i base off : Nat) (v : Word) (s : State) : State :=
  match off with
  | 0x010 => blkCtrl p i base v s
  | 0x028 => errClear base v s
  | 0x060 => lockWrite base v s
  | 0x080 => snapWrite base (wbit v 0) s
  | _ => match regRow p off with
    | some r => plainWrite base (base + off) r v s
    | none => s

end Sys2Proof.Machine
end

