-- ==== Sys2Proof/Machine/DieRegs.lean ====
section
/-! DEFINITION. The registers of the compute dies' pages (R61, R107, R125, R157, R180, R221, R238, R289, R300, R333): what a write does
beyond its value and what a read of a status register shows. -/

namespace Sys2Proof.Machine

/-- Whether a phase runs on a cluster. -/
def phaseRuns (s : State) (c : Nat) : Bool := (getWalker s c).st == .running
/-- Whether a cluster's phase table ignores writes (R109). -/
def phaseLocked (s : State) (c : Nat) : Bool := wbit (reg s (clusterBase c + 0x100)) 8 || phaseRuns s c

/-! ### Writes -/

/-- A write to a register of the cluster page. -/
def clusterWrite (c off : Nat) (v : Word) (plain : State → State) (s : State) : State :=
  match off with
  | 0x100 => phaseCtrl c v s
  | 0x110 => phaseCmdWrite c v s
  | 0x480 => winCmd c v s
  | 0x4A8 => updCmd c v s
  | 0x500 => cupCfgWrite c v s
  | 0x518 => cupHsel c v s
  | 0x620 => ringBell c (wfld v 5 0) (wfld v 47 32) s
  | 0x628 => descData c v s
  | 0x630 => ringCommand c v s
  | 0x638 => setReg s (dmaBase c + 0x140) (v &&& BitVec.ofNat 64 (bits 27 16 + bits 10 8 + bits 5 0))
  | 0x660 => amoGo c s
  | _ => plain s
/-- A write to a register of a DMA page. -/
def dmaWrite (c off : Nat) (v : Word) (plain : State → State) (s : State) : State :=
  match off with
  | 0x108 => ringConfig c (regF s (dmaBase c + 0x100) 5 0) v s
  | 0x128 => ringCommand c v s
  | 0x138 => ringBell c (wfld v 5 0) (wfld v 47 32) s
  | 0x148 => descData c v s
  | _ => plain s
/-- A write to a register of a carafe page. -/
def carafeWrite (c off : Nat) (v : Word) (plain : State → State) (s : State) : State :=
  if 0x120 ≤ off ∧ off < 0x138 then bankWrite (.car c) ((off - 0x120) / 8) v s
  else if 0x200 ≤ off ∧ off < 0x400 then
    (match (off - 0x200) % 32 with
     | 0x00 => rqConfig c ((off - 0x200) / 32) v s
     | 0x18 => rqGive c ((off - 0x200) / 32) v s
     | _ => plain s)
  else plain s
/-- A write to a register of a carafe window page: a window's registers are ignored while it is open (R171). -/
def carWinWrite (c off : Nat) (plain : State → State) (s : State) : State :=
  if 0x100 ≤ off ∧ off < 0x700 ∧ winOpened s (.car c) ((off - 0x100) / 24) then s else plain s
/-- A write to a register of a tile page: `SP_AGENn` is ignored while the tile takes part in a running phase. -/
def tileWrite (t off : Nat) (v : Word) (plain : State → State) (s : State) : State :=
  if off = 0x1F8 then bankWrite (.sp t) 0 v s
  else if 0x210 ≤ off ∧ off < 0x230 then (if (getTile s t).part && phaseRuns s (t / 16) then s else plain s)
  else if 0x240 ≤ off ∧ off < 0x3C0 ∧ winOpened s (.sp t) ((off - 0x240) / 24) then s
  else plain s
/-- A write to a register of a die page other than its header; collectives may go on after it. -/
def dieWrite (p : PageType) (i base off : Nat) (v : Word) (s : State) : State :=
  let c := i / 16
  let plain := fun (s : State) => match regRow p off with
    | some r => plainWrite base (base + off) r v s
    | none => s
  match p with
  | .cluster => clusterWrite c off v plain s
  | .dma => dmaWrite c off v plain s
  | .carafe => carafeWrite c off v plain s
  | .carWin => carWinWrite c off plain s
  | .phase => if phaseLocked s c then s else plain s
  | .tile => tileWrite i off v plain s
  | _ => plain s

/-! ### Reads -/

/-- The code of a walker state (R125). -/
def walkCode : WalkSt → Nat
  | .idle => 0
  | .sampling => 1
  | .running => 2
  | .barrier => 3
  | .call => 4
  | .stopped => 5
  | .done => 6
/-- `PHASE_STATUS` (R125). -/
def phaseStatus (s : State) (c : Nat) : Word :=
  let w := getWalker s c
  packWord [(28, w.unmet.toNat), (26, b2n (w.st == .running && w.fill)), (18, w.wait.toNat), (10, w.cur.toNat), (0, walkCode w.st)]
/-- A read of a register of the cluster page. -/
def clusterShow (s : State) (c base off : Nat) : Word :=
  match off with
  | 0x108 => phaseStatus s c
  | 0x508 => BitVec.ofNat 64 (getClu s c).cupSlots.length
  | 0x638 => reg s (dmaBase c + 0x140)
  | _ => reg s (base + off)
/-- A read of a register of a DMA page: the ring registers show the selected ring. -/
def dmaShow (s : State) (c base off : Nat) : Word :=
  let r := regF s (base + 0x100) 5 0
  let g := getRing s c r
  match off with
  | 0x108 => g.cfg
  | 0x110 => packWord [(32, g.cons.toNat), (0, g.prod.toNat)]
  | 0x118 => ringStatus s c r
  | 0x120 => g.err
  | _ => reg s (base + off)
/-- Four 16-bit counters from Cn on. -/
def ctrWord (x : Tile) (n : Nat) : Word :=
  packWord ((List.range 4).map (fun i => (16 * i, (ctrOf x (BitVec.ofNat 3 (n + i))).toNat)))
/-- `MAT_STATUS` (R49); bit 7 reads 0 while no block runs. DESIGN CHOICE: log 130. -/
def matStatus (x : Tile) : Word :=
  let held := fun (k : Nat) => (tblGet [] x.streams k).length % 4
  let done := fun (b : Nat) => b2n (decide (1024 ≤ tblGet 0 x.loadPtr b))
  packWord [(13, held 2), (11, held 1), (8, b2n x.block.isSome), (7, (x.block.map (·.args.sbank.toNat)).getD 0), (6, done 0), (5, done 1),
    (3, held 0), (0, x.ssFifo.length % 4)]
/-- `PART_LEVEL` (R126). -/
def partLevel (x : Tile) : Word :=
  let n := fun (net k : Nat) => (partOf x net (BitVec.ofNat 2 k)).length
  packWord ((List.range 4).flatMap (fun k => [(36 + 5 * k, n 2 k), (16 + 5 * k, n 1 k), (4 * k, n 0 k)]))
/-- A read of a register of a tile page. -/
def tileShow (s : State) (t base off : Nat) : Word :=
  let x := getTile s t
  match off with
  | 0x100 => packWord [(25, b2n (x.part && phaseRuns s (t / 16))), (23, x.active.toNat), (20, x.loops.length % 8), (0, x.pc.toNat)]
  | 0x108 => ctrWord x 0
  | 0x110 => ctrWord x 4
  | 0x118 => matStatus x
  | 0x190 => packWord ((List.range 4).map (fun k => (2 * k, (ctxSt x (BitVec.ofNat 2 k)).toNat)))
  | 0x198 => packWord ((List.range 4).map (fun k => (16 * k, (pcOf x (BitVec.ofNat 2 k)).toNat)))
  | 0x1B0 => partLevel x
  | 0x1B8 => packWord [(8, x.vq.length), (7, b2n (x.vq.any (fun e => e.started.isSome)))]
  | _ => reg s (base + off)
/-- A read of a register of a die page other than its header and counters. -/
def dieShow (s : State) (p : PageType) (i base off : Nat) : Word :=
  match p with
  | .cluster => clusterShow s (i / 16) base off
  | .dma => dmaShow s (i / 16) base off
  | .tile => tileShow s i base off
  | _ => reg s (base + off)

end Sys2Proof.Machine
end

