-- ==== Sys2Proof/Machine/Image.lean ====
section
/-! DEFINITION. The job image (R365 to R367): its header and section entries, the checks of each section and what binding a section does. -/

namespace Sys2Proof.Machine

/-! ### How far a binding has come -/

/-- The end of a binding step: it goes on, it is refused with a code and subcode, or a MAP waits for crema frames after so many PAGES
records (R367). -/
inductive BindR where
  | ok (s : State)
  | bad (code sub sec : Nat) (s : State)
  | wait (done : Nat) (s : State)

/-- `IMAGE_INVALID`. -/
def imageInvalid : Nat := 0x400D
/-- `LAYOUT_INVALID`. -/
def layoutInvalid : Nat := 0x4007
/-- Applies a step to each element until one is refused or waits. -/
def bindSeq {α : Type} (f : α → State → BindR) : List α → State → BindR
  | [], s => .ok s
  | a :: r, s => match f a s with
    | .ok s => bindSeq f r s
    | e => e
/-- Continues where a step went on. -/
def BindR.andThen (r : BindR) (f : State → BindR) : BindR := match r with
  | .ok s => f s
  | e => e

/-! ### Header, entries and bodies (R365) -/

/-- A section of a job image. -/
structure Sect where
  idx  : Nat
  ty   : Nat
  inst : Nat
  zt   : Bool
  body : List Byte

/-- Whether a header passes (R365): all its reserved bytes are zero and its CRC matches. -/
def imageHdrOk (b : List Byte) : Bool :=
  recF b 0 4 == 0x5A42_4A31 && recF b 4 2 == 1 && decide (1 ≤ recF b 6 2) && decide (recF b 6 2 ≤ 256) && decide (recF b 16 2 ≤ 64)
    && decide (64 + 32 * recF b 6 2 ≤ recF b 8 8) && ((b.drop 20).take 40).all (· == 0) && recF b 60 4 == crc32 (b.take 60)
/-- The section types of R365. -/
def sectType (ty : Nat) : Bool := (decide (1 ≤ ty) && decide (ty ≤ 9)) || (decide (0x20 ≤ ty) && decide (ty ≤ 0x24))
/-- Whether a section entry passes: its cluster or device number, flags, place and reserved bytes. -/
def sectEntryOk (size : Nat) (e : List Byte) : Bool :=
  let ty := recF e 0 2
  (if ty < 0x20 then recF e 2 2 == 0xFFFF else decide (recF e 2 2 < 64))
    && (if ty = 0x20 then decide (recF e 4 1 ≤ 1) else recF e 4 1 == 0)
    && (ty != 1 || recF e 16 4 % 16 == 0) && recF e 5 3 == 0 && recF e 24 8 == 0 && decide (recF e 8 8 % 64 = 0) && decide (recF e 8 8 + recF e 16 4 ≤ size)

/-- An image as binding reads it: refused with a subcode and section, or its header and sections. -/
inductive ImageR where
  | bad (sub sec : Nat) (s : State)
  | ok (hdr : List Byte) (l : List Sect) (s : State)

/-- Reads section number i and checks its entry and CRC. -/
def readSect (tag : BitVec 12) (img size : Nat) (e : List Byte) (i : Nat) (s : State) : Nat × List Sect × State :=
  if ¬ sectType (recF e 0 2) then (4, [], s)
  else if ¬ sectEntryOk size e then (7, [], s)
  else match tensorRead .unit tag 0 (img + recF e 8 8) (recF e 16 4) s with
    | (0, body, s) =>
      if crc32 body ≠ recF e 20 4 then (2, [], s)
      else (0, [{ idx := i, ty := recF e 0 2, inst := recF e 2 2, zt := bit (recF e 4 1) 0, body := body }], s)
    | (_, _, s) => (2, [], s)
/-- Reads an image through its tag's pages (R363): step 1 of R367. DEDUCED: log 99. -/
def readImage (tag : BitVec 12) (img : Nat) (s : State) : ImageR :=
  if img % 64 ≠ 0 then .bad 1 0 s
  else match tensorRead .unit tag 0 img 64 s with
    | (0, h, s) =>
      if ¬ imageHdrOk h then .bad 1 0 s
      else match tensorRead .unit tag 0 (img + 64) (32 * recF h 6 2) s with
        | (0, es, s) =>
          let r := ((chunksOf 32 256 es).zipIdx).foldl (fun (a : (Nat × Nat) × List Sect × State) e =>
            if a.1.1 ≠ 0 then a
            else
              let q := readSect tag img (recF h 8 8) e.1 e.2 a.2.2
              ((q.1, e.2), a.2.1 ++ q.2.1, q.2.2)) ((0, 0), [], s)
          if r.1.1 ≠ 0 then .bad r.1.1 r.1.2 r.2.2 else .ok h r.2.1 r.2.2
        | (_, _, s) => .bad 1 0 s
    | (_, _, s) => .bad 1 0 s

/-! ### PAGES (R278, R283, R363) -/

/-- Applies one PAGES record. -/
def bindPage (tag : BitVec 12) (sec : Nat) (b : List Byte) (s : State) : BindR :=
  let w := BitVec.ofNat 64 (recF b 0 8)
  let addr := wfld w 47 0
  let sz := wfld w 51 48
  let hint := BitVec.ofNat 3 (wfld w 54 52)
  let k := addr / 65536
  let p := getPage s k
  if wfld w 63 55 ≠ 0 ∨ recF b 8 8 ≠ 0 then .bad imageInvalid 7 sec s
  else if p.st ≠ .free ∧ p.tag = tag ∧ p.sz = sz ∧ p.st ≠ .rinsing ∧ addr % 65536 = 0 then
    if hint = 7 then .bad imageInvalid 7 sec s
    else if p.st ≠ .resident then .ok (putPage s k { p with newHint := some hint })
    else match setHint k hint s with
      | (some c, s) => if c = 0 then .ok s else .bad c 0 sec s
      | (none, s) => .ok s
  else if s.pages.any (fun q => decide (q.1 < k + 2 ^ sz) && decide (k < q.1 + pageFrames q.2)) then .bad imageInvalid 6 sec s
  else match mapPage tag addr sz hint s with
    | (some 0, s) => .ok (fillDone k s)
    | (some 1, s) => .bad imageInvalid 7 sec s
    | (some c, s) => .bad c 0 sec s
    | (none, s) => .wait 0 (putPage s k Page.reset)
/-- Applies PAGES records in order; n are done already. -/
def bindPages (tag : BitVec 12) : Nat → List (Nat × List Byte) → State → BindR
  | _, [], s => .ok s
  | n, r :: l, s => match bindPage tag r.1 r.2 s with
    | .ok s => bindPages tag (n + 1) l s
    | .wait _ s => .wait n s
    | e => e
/-- The PAGES records of an image with their section. -/
def pageRecords (l : List Sect) : List (Nat × List Byte) :=
  (l.filter (fun e => e.ty == 1)).flatMap (fun e => (chunksOf 16 e.body.length e.body).map (fun b => (e.idx, b)))

/-! ### Checks of the layout sections (R185, R199, R269, R321) -/

/-- Whether the valid entries of a stage table pass R185 on the job's clusters. DEDUCED: log 64. -/
def stagesOk (clus : List Nat) (l : List (List Byte)) : Bool :=
  let valid := l.filter (fun e => bit (recF e 5 1) 0)
  let first := fun (e : List Byte) => recF e 0 2
  let n := fun (e : List Byte) => recF e 2 2
  (l.take valid.length).all (fun e => bit (recF e 5 1) 0)
    && valid.all (fun e =>
      decide (first e < 4096) && decide (1 ≤ n e) && decide (n e < 4096) && decide (recF e 5 1 < 8) && recF e 14 2 == 0 && recF e 24 8 == 0
        && recF e 16 8 != 0 && (List.range 64).all (fun c => !bit (recF e 16 8) c || clus.contains c)
        && !(bit (recF e 5 1) 1 && recF e 6 2 != 0) && !(bit (recF e 5 1) 2 && recF e 8 2 != 0))
    && (List.range valid.length).all (fun i => (List.range valid.length).all (fun j =>
      let a := valid.getD i []
      let b := valid.getD j []
      i == j || ((decide (first a + n a ≤ first b) || decide (first b + n b ≤ first a)) && (!decide (first a < first b) || decide (recF a 4 1 < recF b 4 1)))))
/-- Whether a division record passes R199. -/
def divisionOk (b : List Byte) : Bool :=
  let qt := recF b 0 2
  let kt := recF b 2 2
  let g := qt / kt
  [0, 2, 4, 6, 8, 10].all (fun o => decide (recF b o 2 < 1024)) && recF b 12 4 == 0 && recF b 24 8 == 0
    && decide (recF b 16 4 < 2 ^ 22) && decide (recF b 20 4 < 2 ^ 23) && decide (recF b 16 4 + recF b 20 4 ≤ 4194304)
    && kt != 0 && qt != 0 && qt % kt == 0 && decide (recF b 4 2 + recF b 6 2 ≤ qt) && decide (recF b 8 2 + recF b 10 2 ≤ kt)
    && (List.range (recF b 6 2)).all (fun i =>
      let k := (recF b 4 2 + i) / g
      decide (recF b 8 2 ≤ k) && decide (k < recF b 8 2 + recF b 10 2))
/-- Whether a ring record passes R269 beside its division record. -/
def ringRecOk (d b : List Byte) : Bool :=
  let n := recF b 4 2
  decide (1 ≤ n) && decide (n ≤ 4096) && decide (recF b 6 2 < n) && recF b 8 8 == 0 && !(decide (1 < n) && recF d 20 4 == 0)
    && !(n == 1 && (recF b 0 2 != 0 || recF b 2 2 != 0))

/-- One collective group of a GROUPS section: its number, its members and the bytes left. -/
def parseGroup (b : List Byte) : Nat × List Nat × Nat :=
  let n := recF b 0 4
  (recF b 4 1, (List.range n).map (fun i => recF b (16 + 2 * i) 2), 16 * ceilDiv (16 + 2 * n) 16)
/-- Whether a group passes R321; the padding to 16 bytes is zero. -/
def groupOk (s : State) (b : List Byte) : Bool :=
  let g := parseGroup b
  decide (1 ≤ g.2.1.length) && decide (g.2.1.length ≤ 65536) && recF b 5 3 == 0 && recF b 8 8 == 0
    && (g.2.1.zip (g.2.1.drop 1)).all (fun p => decide (p.1 < p.2)) && addrValid s && g.2.1.contains (ownAddr s)
    && ((b.take g.2.2).drop (16 + 2 * g.2.1.length)).all (· == 0)
/-- The entries of the group store in use (R321). -/
def groupsUsed (s : State) : Nat := s.jobs.foldl (fun a j => j.2.groups.foldl (fun a g => a + g.2.length) a) 0
/-- Binds the groups of a section. -/
def bindGroups (tag : BitVec 12) (sec : Nat) : Nat → List Byte → State → BindR
  | 0, b, s => if b.isEmpty then .ok s else .bad imageInvalid 7 sec s
  | fuel + 1, b, s =>
    let g := parseGroup b
    let j := getJob s tag
    if b.isEmpty then .ok s
    else if b.length < 16 ∨ b.length < g.2.2 ∨ (tblFind j.groups g.1).isSome then .bad imageInvalid 7 sec s
    else if ¬ groupOk s b ∨ 262144 < groupsUsed s + g.2.1.length then .bad layoutInvalid 0 sec s
    else bindGroups tag sec fuel (b.drop g.2.2) (putJob s tag { j with groups := tblIns j.groups g.1 g.2.1 })

/-! ### Expert maps (R240 to R242) -/

/-- The bytes of an expert map. -/
def mapBytes (m : List Byte) : Nat := 64 + 8 * mapN m
/-- Whether an expert map passes R242. -/
def mapOk (m : List Byte) : Bool :=
  let es := mapValid m
  decide (1 ≤ mapN m) && decide (mapN m ≤ 16384) && decide (1 ≤ mapCap m) && decide (mapCap m ≤ 4096) && decide (mapPolicy m ≤ 2)
    && decide (mapType m ≤ 4) && decide (1 ≤ recF m 10 2) && decide (recF m 10 2 ≤ 1024) && decide (1 ≤ recF m 12 4) && decide (recF m 16 2 < 4096)
    && ((m.drop 18).take 46).all (· == 0)
    && (List.range (mapN m)).all (fun e => wfld (mapEntry m e) 23 4 == 0 && wfld (mapEntry m e) 2 1 == 0)
    && (mapDests m).all (fun d =>
      let own := (es.map (mapEntry m)).filter (fun e => destOf e == d)
      decide (groupBytes m d ≤ 0x100_0000) && ((own.map (fun e => wfld e 37 24)).eraseDups.length == own.length)
        && (own.all (fun e => wbit e 3) || own.all (fun e => !wbit e 3)))
/-- The hubs that serve clusters of a job (R13). -/
def jobHubs (clus : List Nat) : List Nat := (clus.map cluHub).eraseDups
/-- The bytes of the map store of hub h that jobs hold: from binding until the job's rinse (R242, R254). -/
def mapsUsed (s : State) (h : Nat) : Nat :=
  s.jobs.foldl (fun a j => if j.2.mapHubs.contains h then j.2.maps.foldl (fun a m => a + mapBytes m.2) a else a) 0
/-- Loads the maps of an EXPERT section, back to back and numbered in order. -/
def bindMaps (tag : BitVec 12) (clus : List Nat) (sec : Nat) : Nat → List Byte → State → BindR
  | 0, b, s => if b.isEmpty then .ok s else .bad imageInvalid 7 sec s
  | fuel + 1, b, s =>
    let m := b.take (mapBytes b)
    let j := getJob s tag
    if b.isEmpty then .ok s
    else if b.length < 64 ∨ b.length < mapBytes b then .bad imageInvalid 7 sec s
    else if ¬ mapOk m ∨ (jobHubs clus).any (fun h => decide (0x40_0000 < mapsUsed s h + mapBytes m)) then .bad 0x4005 0 sec s
    else bindMaps tag clus sec fuel (b.drop (mapBytes b)) (putJob s tag { j with maps := tblIns j.maps j.maps.length m })

/-! ### UPDATE and WATCH (R197, R206, R211, R219, R229, R238, R239) -/

/-- Whether the lengths and shard entries of an UPDATE section fit: counts, shard entries of 16 bytes, programs, the profile record.
DESIGN CHOICE: log 34. -/
def updateSectOk (b : List Byte) : Bool :=
  let n := recF b 0 4
  let m := recF b 4 4
  decide (16 ≤ b.length) && recF b 8 8 == 0 && decide (m ≤ 64) && b.length == 16 + 16 * n + 128 * m + 64
    && (List.range n).all (fun i =>
      let o := 16 + 16 * i
      recF b (o + 3) 5 == 0 && recF b (o + 14) 2 == 0 && decide (recF b (o + 8) 6 % 64 = 0))
    && decide (((List.range n).map (fun i => recF b (16 + 16 * i) 3)).Nodup)
/-- Binds an UPDATE section. DEDUCED: log 67. -/
def bindUpdate (tag : BitVec 12) (sec : Nat) (b : List Byte) (s : State) : BindR :=
  let n := recF b 0 4
  let m := recF b 4 4
  let progs := (List.range m).map (fun i => (b.drop (16 + 16 * n + 128 * i)).take 128)
  let prof := b.drop (16 + 16 * n + 128 * m)
  let used := s.jobs.foldl (fun a j => a + j.2.shards.length) 0
  if ¬ updateSectOk b then .bad imageInvalid 7 sec s
  else if ¬ progs.all progOk ∨ ¬ profOk prof then .bad 0x4008 0 sec s
  else if 16384 < used + n then .bad layoutInvalid 0 sec s
  else
    let j := getJob s tag
    .ok (putJob s tag { j with
      programs := progs, profile := prof,
      shards := (List.range n).foldl (fun t i => tblIns t (recF b (16 + 16 * i) 3) (recF b (24 + 16 * i) 6)) j.shards })
/-- Binds a WATCH section: the tag count, `LOSS_CFG`, `CUP_CFG`, sixteen `CUP_TAG` values and the census tags. Reserved encodings of the
settings and too few free records give `WATCH_INVALID` (R229 and its code table). -/
def bindWatch (tag : BitVec 12) (sec : Nat) (b : List Byte) (s : State) : BindR :=
  let n := recF b 0 4
  let tags := (List.range n).map (fun i => recF b (152 + 2 * i) 2)
  let loss := BitVec.ofNat 64 (recF b 8 8)
  let cup := (List.range 17).map (fun i => BitVec.ofNat 64 (recF b (16 + 8 * i) 8))
  let used := s.jobs.foldl (fun a j => a + j.2.census.length) 0
  let masked := fun (v : Word) (m : Nat) => v &&& BitVec.ofNat 64 m == v
  if b.length ≠ 152 + 2 * n ∨ recF b 4 4 ≠ 0 ∨ ¬ tags.Nodup then .bad imageInvalid 7 sec s
  else if ¬ lossCfgOk loss ∨ ¬ masked loss (bits 63 32 + bits 23 16 + bits 8 8 + bits 4 0)
    ∨ ¬ cupCfgOk (cup.getD 0 0) ∨ ¬ masked (cup.getD 0 0) (bits 47 32 + bits 20 16 + bits 9 8 + bits 4 0) ∨ ¬ (cup.drop 1).all (masked · 0x1FFF)
    ∨ tags.any (fun t => decide (4095 < t)) ∨ 32768 < used + n then .bad 0x400A 0 sec s
  else
    let j := getJob s tag
    .ok (putJob s tag { j with
      cup := cup, loss := { LossRec.reset with cfg := loss }, census := tags.foldl (fun t c => tblIns t c CensusRec.reset) j.census })

/-! ### Device sections -/

/-- Binds one POUR record: a queue of the hub that serves its cluster, and its `PQ_CFG`. -/
def bindPour (tag : BitVec 12) (clus : List Nat) (sec : Nat) (b : List Byte) (s : State) : BindR :=
  let q := recF b 0 8
  let v := BitVec.ofNat 64 (recF b 8 8)
  let c := 16 * wfld v 39 38 + wfld v 37 34
  let old := getPq s (cluHub c) q
  if 64 ≤ q ∨ wfld v 62 52 ≠ 0 ∨ wfld v 25 0 ≠ 0 ∨ wfld v 51 40 ≠ tag.toNat ∨ ¬ clus.contains c
    ∨ (tblFind (getJob s tag).maps (wfld v 33 26)).isNone ∨ (wbit old.cfg 63 ∧ (getJob s (pqTag old)).st ≠ .free) then .bad imageInvalid 7 sec s
  else .ok (putPq s (cluHub c) q { old with cfg := v, fifo := [], req := none, error := false, fault := 0, scnt := [] })
/-- Binds a device section other than PAGES. -/
def bindDevice (tag : BitVec 12) (clus : List Nat) (e : Sect) (s : State) : BindR :=
  let b := e.body
  let bad := BindR.bad imageInvalid 7 e.idx s
  match e.ty with
  | 0x02 =>
    let v := BitVec.ofNat 64 (recF b 0 8)
    if b.length ≠ 16 ∨ wfld v 63 3 ≠ 0 ∨ wfld v 1 0 = 3 ∨ 2 ^ 23 ≤ recF b 8 8 then bad
    else .ok (quotaWrite tag (recF b 8 8) (putJob s tag { getJob s tag with policy := BitVec.ofNat 3 (wfld v 2 0) }))
  | 0x03 =>
    let l := chunksOf 32 9 b
    if b.length % 32 ≠ 0 ∨ 256 < b.length then bad
    else if ¬ stagesOk clus l then .bad layoutInvalid 0 e.idx s
    else .ok (putJob s tag { getJob s tag with stages := l })
  | 0x04 =>
    let d := b.take 32
    let r := b.drop 32
    if b.length ≠ 32 ∧ b.length ≠ 48 then bad
    else if ¬ divisionOk d ∨ (¬ r.isEmpty ∧ ¬ ringRecOk d r) then .bad layoutInvalid 0 e.idx s
    else .ok (putJob s tag { getJob s tag with division := d, ringRec := r })
  | 0x05 => bindGroups tag e.idx 256 b s
  | 0x06 => bindMaps tag clus e.idx 256 b (putJob s tag { getJob s tag with mapHubs := jobHubs clus })
  | 0x07 => bindUpdate tag e.idx b s
  | 0x08 => bindWatch tag e.idx b s
  | 0x09 => if b.length % 16 ≠ 0 then bad else bindSeq (bindPour tag clus e.idx) (chunksOf 16 b.length b) s
  | _ => .ok s

/-! ### Cluster sections (R366) -/

/-- The TAG field that a cluster record writes, as its low bit (R366). -/
def tagField (p : PageType) (off : Nat) : Option Nat :=
  match p with
  | .dma => if off = 0x108 then some 40 else none
  | .carafe => if 0x200 ≤ off ∧ off < 0x400 ∧ (off - 0x200) % 32 = 0 then some 39 else none
  | .carWin => if 0x110 ≤ off ∧ (off - 0x110) % 24 = 0 then some 40 else none
  | .tile => if 0x250 ≤ off ∧ (off - 0x250) % 24 = 0 ∧ off < 0x3C0 then some 40 else none
  | _ => none
/-- The bits of a register that a record may set. -/
def recordMask (p : PageType) (off : Nat) : Option Nat :=
  if p = .phase then none
  else match regRow p off with
    | some r => if r.acc = .rw then some r.mask else if p = .cluster ∧ off = 0x480 then some (bits 34 0) else none
    | none => none
/-- The ignored-command counters that a record must not move. -/
def recordIgnores (s : State) (c : Nat) : List Word := [reg s (clusterBase c + 0x828), reg s (dmaBase c + 0x820), reg s (carafeBase c + 0x818)]
/-- Applies one CLUSTER record to cluster c. -/
def bindRecord (tag : BitVec 12) (c sec : Nat) (b : List Byte) (s : State) : BindR :=
  let o := recF b 0 8
  let v := BitVec.ofNat 64 (recF b 8 8)
  let addr := clusterBase c + o
  let base := pageBaseOf addr
  let off := addr - base
  let bad := fun sub => BindR.bad imageInvalid sub sec s
  if 2 ^ 21 ≤ o then bad 7
  else if 0x2_0000 ≤ o ∨ o % 8 ≠ 0 then bad 5
  else match pageOf addr with
    | none => bad 5
    | some (p, i) => match recordMask p off with
      | none => bad 5
      | some m =>
        let tagOk := match tagField p off with
          | some lo => wfld v (lo + 11) lo == tag.toNat
          | none => true
        if !tagOk || (p == .cluster && off == 0x100 && wbit v 8) then bad 5
        else if v &&& BitVec.ofNat 64 m ≠ v then bad 7
        else
          let t := if off < 0x100 then headWrite p i base off v s else dieWrite p i base off v s
          let shown := if off < 0x100 then reg t addr else dieShow t p i base off
          let kept := v &&& ~~~ BitVec.ofNat 64 (actionBits p off)
          if recordIgnores t c ≠ recordIgnores s c ∨ (off ≠ 0x480 ∧ shown ≠ kept) then bad 7 else .ok t
where
  /-- The W1S bits of an RW register, which act and read 0: SOFT_RESET (R355) and `CUP_HSEL.CLEAR` (R238). -/
  actionBits (p : PageType) (off : Nat) : Nat :=
    if off = 0x010 then bits 3 3 else if p = .cluster ∧ off = 0x518 then bits 8 8 else 0
  /-- The base of the page that holds an address. -/
  pageBaseOf (addr : Nat) : Nat := addr - addr % 0x1000

/-- Writes a context's space: its record's header names the tile and the context (R103). -/
def bindContext (c sec : Nat) (b : List Byte) (s : State) : BindR :=
  let h := recF b 0 8
  let t := 16 * c + h % 16
  let k := h / 16
  if 64 ≤ h ∨ ¬ (b.drop 32840).all (· == 0) then .bad imageInvalid 7 sec s
  else
    let m := memWrite s.mem.ctx (ctxAt t k 0) ((b.drop 8).take 32832)
    if cfgBad m t k then .bad imageInvalid 7 sec s
    else .ok (setCtxSt t k 2 { s with mem := { s.mem with ctx := m } })
/-- Writes a tile's descriptor file. -/
def bindVdesc (c sec : Nat) (b : List Byte) (s : State) : BindR :=
  let h := recF b 0 8
  if 16 ≤ h then .bad imageInvalid 7 sec s
  else .ok { s with mem := { s.mem with vdesc := memWrite s.mem.vdesc (vdAt (16 * c + h) 0) (b.drop 8) } }
/-- Writes a cluster's phase table (R107); the walker checks its entries when it reads them (R108). -/
def bindPhases (c sec : Nat) (b : List Byte) (s : State) : BindR :=
  let t := ((chunksOf 8 2048 b).zipIdx).foldl (fun s w => setReg s (clusterBase c + 0x4000 + 8 * w.2) (BitVec.ofNat 64 (leNat w.1) &&& BitVec.ofNat 64 (phaseMask (w.2 % 8)))) s
  if b.length ≠ 16384 then .bad imageInvalid 7 sec s else .ok t
/-- Binds the rings of a RINGS section: the ring, its PROD and `DMA_RING_CFG`, then its descriptors (R288). -/
def bindRings (tag : BitVec 12) (c sec : Nat) : Nat → List Byte → State → BindR
  | 0, b, s => if b.isEmpty then .ok s else .bad imageInvalid 7 sec s
  | fuel + 1, b, s =>
    let r := recF b 0 4
    let prod := recF b 4 4
    let cfg := BitVec.ofNat 64 (recF b 8 8)
    let n := 64 * ringSize cfg
    if b.isEmpty then .ok s
    else if b.length < 16 ∨ 64 ≤ r ∨ 12 ≤ wfld cfg 23 20 ∨ cfg &&& BitVec.ofNat 64 (bits 63 63 + bits 51 40 + bits 23 20 + bits 17 0) ≠ cfg
      ∨ wfld cfg 51 40 ≠ tag.toNat ∨ b.length < 16 + n ∨ ringSize cfg < prod ∨ 0x180_0000 < 128 * wfld cfg 17 0 + n
      ∨ (wbit cfg 63 ∧ ¬ ringEnableOk s c r cfg) then .bad imageInvalid 7 sec s
    else
      let s := putRing s c r { getRing s c r with cfg := cfg, prod := BitVec.ofNat 32 prod, cons := 0 }
      bindRings tag c sec fuel (b.drop (16 + n)) (storeWrite s (.car c) (128 * wfld cfg 17 0) ((b.drop 16).take n))
/-- Binds a section of physical cluster c. -/
def bindCluster (tag : BitVec 12) (c : Nat) (e : Sect) (s : State) : BindR :=
  let b := e.body
  let records := fun (n : Nat) (f : List Byte → State → BindR) =>
    if b.length % n ≠ 0 then BindR.bad imageInvalid 7 e.idx s else bindSeq f (chunksOf n b.length b) s
  match e.ty with
  | 0x20 =>
    let s' := setReg s (clusterBase c + 0x600) (if e.zt then 1 else 0)
    if b.length % 16 ≠ 0 then .bad imageInvalid 7 e.idx s else bindSeq (bindRecord tag c e.idx) (chunksOf 16 b.length b) s'
  | 0x21 => records 4104 (bindVdesc c e.idx)
  | 0x22 => records 32896 (bindContext c e.idx)
  | 0x23 => bindPhases c e.idx b s
  | 0x24 => bindRings tag c e.idx 64 b s
  | _ => .ok s
/-- Takes a cluster into a job (R361, R367): its binding, its cycle count, work counters and cupping settings. `NUM_MODE` ends with the
binding it was set for (R81), and a barista pair that a DETACH or KILL has rinsed leaves reset (R402). -/
def takeCluster (tag : BitVec 12) (logical c : Nat) (s : State) : State :=
  let base := clusterBase c
  let s := setReg (setReg s (base + 0x680) (packWord [(61, 2), (40, tag.toNat), (0, logical)])) (base + 0x600) 0
  let s := forAll (List.range 64) (setReg s (base + 0x800) 0) (fun n s => setReg s (base + 0x200 + 8 * n) 0)
  let s := match (getJob s tag).cup with
    | [] => s
    | g :: l => l.zipIdx.foldl (fun s p => setReg s (base + 0x560 + 8 * p.2) p.1) (setReg s (base + 0x500) g)
  let k := getClu s c
  putClu s c { k with cupOrd := 0, cupHist := [], barReset := k.barReset && !k.barRinsed, barRinsed := false }

/-! ### The staging map (R364) -/

/-- The staging map as (logical, physical) clusters. -/
def stagingMap (s : State) : List (Nat × Nat) :=
  (List.range 64).filterMap (fun l =>
    let b := regF s (devicePage + 0x1D0 + 8 * (l / 8)) (8 * (l % 8) + 7) (8 * (l % 8))
    if bit b 7 then some (l, b % 64) else none)
/-- Whether every mapped cluster can be bound: FREE, enabled, its die ready, and named once; and no logical number is in use. -/
def mapOkay (s : State) (tag : BitVec 12) (m : List (Nat × Nat)) : Bool :=
  m.all (fun p => cluOwner s p.2 == none && blkEn s (clusterBase p.2) && devReady s (8 + p.2 / 16) && (physOf s tag p.1).isNone)
    && decide ((m.map (·.2)).Nodup)

/-- Steps 2 to 4 of R367; an ATTACH takes only step 4. `skip` PAGES records are done already. -/
def bindApply (tag : BitVec 12) (attach : Bool) (m : List (Nat × Nat)) (skip : Nat) (hdr : List Byte) (l : List Sect) (s : State) : BindR :=
  let clus := m.map (·.2)
  let device := fun (s : State) =>
    let s := putJob s tag { getJob s tag with jepoch := BitVec.ofNat 16 (recF hdr 18 2) }
    (bindPages tag skip ((pageRecords l).drop skip) s).andThen (fun s =>
      bindSeq (fun ty s => bindSeq (bindDevice tag clus) (l.filter (fun e => e.ty == ty)) s) [2, 3, 4, 5, 6, 7, 8, 9] s)
  let cluster := fun (p : Nat × Nat) (s : State) =>
    let s := takeCluster tag p.1 p.2 s
    bindSeq (fun ty s => bindSeq (bindCluster tag p.2) (l.filter (fun e => e.ty == ty && e.inst == p.1)) s) [0x20, 0x21, 0x22, 0x23, 0x24] s
  (if attach then .ok s else device s).andThen (bindSeq cluster m)
/-- Whether an image's cluster count and cluster sections agree with the map of a BIND (R365). -/
def imageMapOk (m : List (Nat × Nat)) (hdr : List Byte) (l : List Sect) : Bool :=
  recF hdr 16 2 == m.length && l.all (fun e => e.ty < 0x20 || m.any (fun p => p.1 == e.inst))

end Sys2Proof.Machine
end

