-- ==== Sys2Proof/Machine/Jobs.lean ====
section
/-! DEFINITION. Jobs (R361 to R373): STAGE, BIND, ATTACH, DETACH and KILL, quiesce and rinse, and the job registers of the device page. -/

namespace Sys2Proof.Machine

/-! ### Quiesce (R368, R369) -/

/-- The STATE field of a cluster's binding. -/
def setCluSt (c st : Nat) (s : State) : State := setRegF s (clusterBase c + 0x680) 63 61 st
/-- The clusters that show a tag in one of a list of states. -/
def clustersIn (s : State) (tag : BitVec 12) (l : List Nat) : List Nat :=
  (List.range 64).filter (fun c => cluOwner s c == some tag && l.contains (wfld (reg s (clusterBase c + 0x680)) 63 61))
/-- Closes every window of a store. -/
def closeWindows (a : Store) (s : State) : State :=
  forAll ((List.range (winCount a)).filter (winOpened s a)) s (fun n s => setReg s (winAddr a n + 16) (wput (winCtrl s a n) 63 63 0))
/-- The stores of a cluster: its carafe and its scratchpads. -/
def storesOf (c : Nat) : List Store := .car c :: (tilesOf c).map .sp
/-- A pour queue that a quiesce stops (R254). -/
def stopQueue (p : PourQ) : PourQ := { p with cfg := wput p.cfg 63 63 0, fifo := [], req := none, ending := none, scnt := [] }
/-- Stops the pour queues that satisfy a test; answers that their requests await are for no request any more (R247). -/
def stopQueues (f : PourQ → Bool) (s : State) : State :=
  let gone := fun (a : Awaited) => match a.owner with
    | .pour h q => f (getPq s h q)
    | _ => false
  { s with pour := s.pour.map (fun q => (q.1, if f q.2 then stopQueue q.2 else q.2)),
           awaited := s.awaited.map (fun a => if gone a then { a with owner := .none } else a) }
/-- A cluster enters QUIESCING (R368, R369): its phase stops without a fault record, its walker is IDLE, windows close, rings and the update run
are given up. -/
def quiesceCluster (c : Nat) (s : State) : State :=
  let s := forAll (tilesOf c) (withdraw c s) stopTile
  let s := forAll (List.range 64) s (ringAbort c)
  let s := forAll (storesOf c) (setCluSt c 3 (dropWrites (.run c) s)) closeWindows
  let k := getClu s c
  putClu s c { k with run := none, heldStart := none,
                      walker := { k.walker with st := .idle, chosen := none, waitFrom := none, stopReq := false } }
/-- A list of clusters of a job enters QUIESCING with their pour queues, collectives and pending runs. -/
def quiesceClusters (tag : BitVec 12) (l : List Nat) (s : State) : State :=
  let s := collAbandon (fun k => k.tag == tag && l.contains k.cluster) s
  let s := stopQueues (fun p => pqTag p == tag && l.contains (pqClu p)) s
  let s := forAll l s quiesceCluster
  forAll (((getJob s tag).leases.filter (fun p => match p.2.pend with
    | some r => l.contains r.cluster
    | none => false)).map (·.1)) s (fun k => discardPend tag (BitVec.ofNat 24 k))
/-- A page enters the quiesce: it refuses, its move is abandoned, and a MAP that waits for frames is given up. -/
def quiescePage (tag : BitVec 12) (q : Nat × Page) : Option (Nat × Page) :=
  if q.2.tag ≠ tag then some q
  else if q.2.st = .free then none
  else some (q.1, { q.2 with st := .rinsing, dest := if q.2.st = .evicting then none else q.2.dest, destCopy := false, want := false,
                             newHint := none, hintCmd := false, prefetch := false, holds := 0, pendEv := false, filling := false })
/-- Whether a tier command of a job waits: a MAP for frames, or a HINT for the end of a move. -/
def tierCmdWaits (s : State) (tag : BitVec 12) : Bool :=
  s.pages.any (fun p => p.2.tag == tag && (p.2.hintCmd || (p.2.st == .free && p.2.filling)))
/-- The cause of a kill, in `JB_FAULT` (R373). -/
def faultCause (f : Word) (cause : Nat) : Word := wput f 39 32 cause
/-- Every resource of a job enters QUIESCING (R368, R369). -/
def quiesceJob (tag : BitVec 12) (s : State) : State :=
  let s := collAbandon (fun k => k.tag == tag) s
  let s := stopQueues (fun p => pqTag p == tag) s
  let s := forAll (clustersIn s tag [2]) s quiesceCluster
  let mine := fun (w : TWrite) => match pageAt s (w.page) with
    | some (_, p) => p.tag == tag
    | none => false
  let writes := s.writes.filter (fun w => !mine w)
  -- a command that waits for a page of the job ends refused
  let s := if tierCmdWaits s tag then tierStatus 0 true s else s
  let s := hostQuiesce tag { s with writes := writes, pages := s.pages.filterMap (quiescePage tag) }
  let j := getJob s tag
  putJob s tag { j with bindAt := none, window := none, leases := j.leases.map (fun p => (p.1, { p.2 with pend := none })) }
/-- KILL takes effect (R368). -/
def killJob (tag : BitVec 12) (s : State) : State :=
  let s := quiesceJob tag s
  let j := getJob s tag
  putJob s tag { j with st := .quiescing, cmdBusy := some 4, fault := faultCause j.fault 1 }
/-- DETACH takes effect on the job's clusters among a mask. DEDUCED: log 101. -/
def detachJob (tag : BitVec 12) (mask : Word) (s : State) : State :=
  let l := (clustersOf s tag).filter (wbit mask)
  let s := quiesceClusters tag l s
  let j := getJob s tag
  putJob s tag { j with cmdBusy := some 3, fault := faultCause j.fault 2 }

/-! ### Rinse (R370, R371) -/

/-- The rows that wait in the buffers of a store's banks land (R161, R369). -/
def drainStore (a : Store) (s : State) : State :=
  forAll (List.range (storeBanks a)) s (fun b s => forAll ((bankQueue s a b).map (·.row)) (putBankQueue s a b []) (landRow a))
/-- A page at the start of its rinse: bulk frames are free at once, and each crema frame is zeroed for itself. -/
def rinsePage (q : Nat × Page) : List (Nat × Page) :=
  match (cremaRuns q.2).head? with
  | none => []
  | some f => (List.range (pageFrames q.2)).map (fun i =>
      (q.1 + i, { Page.reset with tag := q.2.tag, st := .rinsing, frame := BitVec.ofNat 25 (f + i) }))
/-- The pages that satisfy a test start their rinse: nothing reads their bytes any more. -/
def rinsePages (f : Nat → Page → Bool) (s : State) : State :=
  let gone := s.pages.filter (fun q => f q.1 q.2)
  let s := { s with pages := s.pages.flatMap (fun q => if f q.1 q.2 then rinsePage q else [q]) }
  tierSettle (forAll gone s (fun q s =>
    let s := clearFlips (65536 * q.1) (65536 * pageFrames q.2) s
    { s with mem := { s.mem with tensor := memZero s.mem.tensor (65536 * q.1) (65536 * pageFrames q.2) } }))
/-- The rinse of a list of clusters starts. -/
def rinseClusters (l : List Nat) (s : State) : State :=
  forAll l s (fun c s => setCluSt c 4 (forAll (storesOf c) s drainStore))
/-- Whether anything of a tag still rinses. -/
def rinses (s : State) (tag : BitVec 12) : Bool :=
  !(clustersIn s tag [3, 4]).isEmpty || s.pages.any (fun q => q.2.tag == tag && q.2.st == .rinsing)
/-- The end of what a command of the tag waits for (R371): a killed tag becomes FREE, a refused BIND returns to STAGED and a refused ATTACH
to BOUND. -/
def jobSettle (tag : BitVec 12) (s : State) : State :=
  let j := getJob s tag
  if rinses s tag then s
  else match j.st with
    | .rinsing => bump (putJob s tag { Job.reset with fault := j.fault, image := j.image, status := 0 }) (devicePage + 0x808)
    | .binding => if j.bindAt.isNone then putJob s tag { j with st := if j.cmdBusy = some 2 then .bound else .staged, cmdBusy := none } else s
    | .bound => match j.cmdBusy with
      | some 3 => bump (putJob s tag { j with cmdBusy := none, status := 0 }) (devicePage + 0x808)
      | _ => s
    | _ => s
/-- The root of trust writes a key into a tag's slot of the key table in both bulk controllers (R286). DEDUCED: log 148. -/
def writeKeySlot (tag : BitVec 12) (key : BitVec 512) (s : State) : State :=
  { s with bulkKeys := tblSet 0 (tblSet 0 s.bulkKeys tag.toNat key) (4096 + tag.toNat) key }
/-- The rinse of resources of a tag clears the fault records that name it (R255, R273). -/
def rinseFaults (tag : BitVec 12) (clus : List Nat) (all : Bool) (s : State) : State :=
  let s := { s with pour := s.pour.map (fun q => (q.1, if pqTag q.2 = tag ∧ clus.contains (pqClu q.2) then { q.2 with fault := 0 } else q.2)) }
  if all ∧ reg s (kvPage + 0x120) ≠ 0 ∧ regF s (kvPage + 0x120) 47 36 = tag.toNat then
    setReg (setReg s (kvPage + 0x120) 0) (kvPage + 0x128) 0
  else s
/-- The quiesce of a tag ends and its rinse starts (R370): of a killed job everything, of a DETACH its clusters. DEDUCED: log 102. -/
def quiesceEnd (tag : BitVec 12) (s : State) : State :=
  let j := getJob s tag
  if j.st = .quiescing then
    let s := rinseClusters (clustersIn s tag [3]) (writeKeySlot tag 0 (rinseFaults tag (List.range 64) true s))
    let s := hostRinse tag { s with collIn := s.collIn.filter (fun p => p.1 != tag) }
    let j := getJob s tag
    let s := putJob s tag { Job.reset with st := .rinsing, fault := j.fault, image := j.image, cmdBusy := j.cmdBusy }
    jobSettle tag (rinsePages (fun _ p => p.tag == tag) s)
  else if j.st = .bound then
    let l := clustersIn s tag [3]
    jobSettle tag (rinseClusters l (rinseFaults tag l false s))
  else s
/-- The quiesce of a tag has not ended in time (R369): the job is STUCK, and after a DETACH too all its resources are refused. -/
def quiesceTimeout (tag : BitVec 12) (s : State) : State :=
  let j := getJob s tag
  if j.st ≠ .quiescing ∧ (clustersIn s tag [3]).isEmpty then s
  else
    let s := if (getJob s tag).st = .quiescing then s else quiesceJob tag s
    let s := forAll (clustersIn s tag [2, 3]) s (fun c => setCluSt c 5)
    raiseFault devicePage 0x200A (some tag) (putJob s tag { getJob s tag with st := .stuck })

/-- A byte store with a span zeroed. -/
def zeroSpan (a n : Nat) (m : Mem) : Mem := memZero m a n
/-- Every SRAM of a cluster is zero (R370, R392). -/
def zeroCluster (c : Nat) (s : State) : State :=
  let t := 16 * c
  { s with mem := { s.mem with
    sp := zeroSpan (spAt t 0) 0x180_0000 s.mem.sp
    car := zeroSpan (carAt c 0) 0x180_0000 s.mem.car
    ctx := zeroSpan (ctxAt t 0 0) 0x40_0000 s.mem.ctx
    vdesc := zeroSpan (vdAt t 0) 0x1_0000 s.mem.vdesc
    stat := zeroSpan (statAt t 0 0 0) 0x20_0000 s.mem.stat
    scale := zeroSpan (scaleAt t 0 0 0) 0x2_0000 s.mem.scale
    acc := zeroSpan (accAt t 0 0) 0x40_0000 s.mem.acc
    bar := zeroSpan (barAt c 0) 0x2_0000 s.mem.bar } }
/-- A tile with nothing of a job in it; its injected faults and its self-test go on. -/
def cleanTile (x : Tile) : Tile :=
  { Tile.reset with abftInj := x.abftInj, parInj := x.parInj, eccInj := x.eccInj, stInj := x.stInj, stNext := x.stNext }
/-- Whether an address is a register of cluster c's pages that a rinse returns to its reset value: not a header, not a counter, and not
`NUM_MODE`, which holds until the cluster is bound again (R81). -/
def rinsedReg (c a : Nat) : Bool :=
  decide (clusterBase c ≤ a) && decide (a < clusterBase c + 0x2_0000)
    && a != clusterBase c + 0x600
    && ((decide (clusterBase c + 0x4000 ≤ a) && decide (a < clusterBase c + 0x8000)) || (decide (0x100 ≤ a % 0x1000) && decide (a % 0x1000 < 0x800)))
/-- A cluster holds nothing of a job any more. DEDUCED: log 100. -/
def cleanCluster (c : Nat) (s : State) : State :=
  let s := forAll (tilesOf c) (zeroCluster c s) (fun t s => putTile s t (cleanTile (getTile s t)))
  let k := getClu s c
  let s := putClu s c { Cluster.reset with cupInj := k.cupInj, barReset := k.barReset, barRinsed := k.barRinsed }
  { s with regs := s.regs.filter (fun r => !rinsedReg c r.1), flying := s.flying.filter (fun f => f.tile / 16 != c) }
/-- A cluster's zeroes have landed: it is FREE (R371). After a DETACH or a KILL its barista pair may leave reset when it is bound again (R402).
DEDUCED: log 170. -/
def clusterRinsed (c : Nat) (s : State) : State :=
  match cluOwner s c with
  | some tag =>
    if wfld (reg s (clusterBase c + 0x680)) 63 61 = 4 then
      let s := cleanCluster c s
      let s := if (getJob s tag).st = .binding then s else putClu s c { getClu s c with barRinsed := true }
      jobSettle tag s
    else s
  | none => s

/-! ### Binding (R364, R367) -/

/-- A BIND or ATTACH is refused: `JB_FAULT` records it, and what it had bound is rinsed. -/
def bindRefuse (tag : BitVec 12) (attach : Bool) (code sub sec : Nat) (clus mapped : List Nat) (s : State) : State :=
  let s := raiseFault devicePage code (some tag) s
  let j := getJob s tag
  let s := putJob s tag { j with fault := packWord [(48, code), (40, sub), (32, 3), (0, sec)], status := packWord [(62, 1), (0, code)],
                                 bindAt := none, cmdBusy := some (if attach then 2 else 1), st := .binding }
  let mine := clus.filter (fun c => cluOwner s c == some tag)
  let s := rinseClusters mine (if attach then s else stopQueues (fun p => pqTag p == tag) s)
  let s := if attach then s
    else
      let j := getJob s tag
      putJob s tag { Job.reset with st := j.st, seed := j.seed, image := j.image, fault := j.fault, status := j.status,
                                    cmdBusy := j.cmdBusy, quota := j.quota }
  jobSettle tag (rinsePages (fun k p => p.tag == tag && mapped.contains k) s)
/-- Binding from the PAGES record `skip` on. `had` are the pages that the command has mapped before. -/
def bindGo (tag : BitVec 12) (attach : Bool) (img : Nat) (m : List (Nat × Nat)) (skip : Nat) (had : List Nat) (s : State) : State :=
  let before := tblKeys s.pages
  let quota := (getJob s tag).quota
  let mapped := fun (s : State) => had ++ (tblKeys s.pages).filter (fun k => !before.contains k)
  let refuse := fun code sub sec s =>
    bindRefuse tag attach code sub sec (m.map (·.2)) (mapped s) (putJob s tag { getJob s tag with quota := quota })
  match readImage tag img s with
  | .bad sub sec s => refuse imageInvalid sub sec s
  | .ok hdr l s =>
    if ¬ attach ∧ ¬ imageMapOk m hdr l then refuse imageInvalid 3 0 s
    else match bindApply tag attach m skip hdr l s with
      | .bad code sub sec s => refuse code sub sec s
      | .wait n s => putJob s tag { getJob s tag with bindAt := some { map := m, done := n, pages := mapped s } }
      | .ok s =>
        let j := getJob s tag
        bump (putJob s tag { j with st := .bound, cmdBusy := none, status := 0, bindAt := none,
                                    window := if attach then j.window else some (openWindow s) }) (devicePage + 0x800)
/-- BIND or ATTACH starts: it latches the staging map and the arguments. DEDUCED: log 98. -/
def bindStart (tag : BitVec 12) (attach : Bool) (s : State) : State :=
  let m := stagingMap s
  let img := regF s (devicePage + 0x1A0) 47 0
  let j := getJob s tag
  let s := if attach then s
    else putJob s tag { j with st := .binding, cmdBusy := some 1, fault := 0, image := BitVec.ofNat 48 img, seed := reg s (devicePage + 0x1A8) }
  if ¬ mapOkay s tag m then bindRefuse tag attach imageInvalid 3 0 [] [] s else bindGo tag attach img m 0 [] s
/-- A BIND that waits for crema frames goes on. Its clusters must still be FREE (R364). DEDUCED: log 98. -/
def bindRetry (tag : BitVec 12) (s : State) : State :=
  let j := getJob s tag
  match j.bindAt with
  | some w =>
    if j.st ≠ .binding then s
    else if mapOkay s tag w.map then bindGo tag false j.image.toNat w.map w.done w.pages s
    else bindRefuse tag false imageInvalid 3 0 [] w.pages s
  | none => s
/-- Every BIND that waits tries again. -/
def bindRetries (s : State) : State := forAll (tblKeys s.jobs) s (fun k => bindRetry (BitVec.ofNat 12 k))
/-- Whether the crema frames of a tag are being zeroed: after a quiesce, or after a refused command. -/
def frameRinses (j : Job) : Bool := j.st == .rinsing || (j.st == .binding && j.bindAt.isNone)
/-- A crema frame's zeroes have landed and it is free (R371). -/
def frameRinsed (tag : BitVec 12) (frame : Nat) (s : State) : State :=
  match s.pages.find? (fun q => q.2.tag == tag && q.2.st == .rinsing && q.2.frame.toNat == frame) with
  | some (k, _) =>
    if frameRinses (getJob s tag) then bindRetries (jobSettle tag (tierSettle (putPage s k Page.reset))) else s
  | none => s

/-! ### Commands (R362, R395, R424, R426) -/

/-- Counts an ignored command of the device page. -/
def jobIgnore (s : State) : State := bump s (devicePage + 0x820)
/-- Whether STAGE, BIND and ATTACH are ignored: a level-2 halt, or an unlock that has not opened debug yet. -/
def jobsHeld (s : State) : Bool := decide (2 ≤ s.rot.level.toNat) || s.rot.unlocking
/-- The 64 DRBG bytes of the next request (R286, R412). -/
def drbgDraw (n : Nat) (s : State) : List Byte × State :=
  ((List.range n).map (Config.drbgByte s.rot.drbgReqs), { s with rot := { s.rot with drbgReqs := s.rot.drbgReqs + 1, sinceSeed := s.rot.sinceSeed + 1 } })
/-- STAGE (R286, R363): the tag's key is drawn and written. -/
def stageJob (tag : BitVec 12) (s : State) : State :=
  let d := drbgDraw 64 s
  let s := writeKeySlot tag (BitVec.ofNat 512 (leNat d.1)) d.2
  putJob s tag { getJob s tag with st := .staged, status := 0 }
/-- A command written to `JB_CMD`. DEDUCED: log 97. -/
def jobCommand (op : Nat) (tag : BitVec 12) (s : State) : State :=
  let j := getJob s tag
  let busy := j.cmdBusy.isSome
  if regF s (devicePage + 0x180) 11 0 ≠ tag.toNat then jobIgnore s
  else match op with
    | 1 => if j.st = .staged ∧ ¬ busy ∧ ¬ jobsHeld s ∧ devReady s 12 then bindStart tag false s else jobIgnore s
    | 2 => if j.st = .bound ∧ ¬ busy ∧ ¬ jobsHeld s ∧ devReady s 12 then bindStart tag true s else jobIgnore s
    | 3 => if j.st = .bound ∧ ¬ busy then jobSettle tag (detachJob tag (reg s (devicePage + 0x1B0)) s) else jobIgnore s
    | 4 => if j.st = .binding ∨ ((j.st = .staged ∨ j.st = .bound) ∧ ¬ busy) then killJob tag s else jobIgnore s
    | 5 => if j.st = .free ∧ ¬ jobsHeld s then stageJob tag s else jobIgnore s
    | _ => jobIgnore s
/-- The security engine kills every tag that is STAGED, BINDING or BOUND (R424, R426). -/
def killAll (s : State) : State :=
  forAll (tblKeys s.jobs) s (fun k s =>
    let tag := BitVec.ofNat 12 k
    match (getJob s tag).st with
    | .staged | .binding | .bound => killJob tag s
    | _ => s)

/-! ### The job registers (R373) -/

/-- The code of a job state (R361). -/
def jobStCode : JobSt → Nat
  | .free => 0
  | .binding => 1
  | .bound => 2
  | .quiescing => 3
  | .rinsing => 4
  | .stuck => 5
  | .staged => 6
/-- A read of a register of the device page. -/
def deviceShow (s : State) (off : Nat) : Word :=
  let tag := BitVec.ofNat 12 (regF s (devicePage + 0x180) 11 0)
  let j := getJob s tag
  match off with
  | 0x108 => BitVec.ofNat 64 (devTime s)
  | 0x188 => packWord [(61, jobStCode j.st), (48, (clustersOf s tag).length), (0, j.image.toNat)]
  | 0x190 => packWord ((clustersIn s tag [1, 2, 3, 4, 5]).map (fun c => (c, 1)))
  | 0x198 => j.fault
  | 0x1A8 => 0
  | 0x1C0 => j.status ||| packWord [(63, b2n j.cmdBusy.isSome)]
  | _ => reg s (devicePage + off)
/-- A write to `JB_CMD`. -/
def jbCmd (v : Word) (s : State) : State := jobCommand (wfld v 7 0) (BitVec.ofNat 12 (wfld v 63 52)) s

/-! ### Meanings -/

/-- STAGE (R363). -/
def execStage (tag : BitVec 12) (s : State) : Result := .next (jobCommand 5 tag s)
/-- BIND (R367). -/
def execBind (tag : BitVec 12) (s : State) : Result := .next (jobCommand 1 tag s)
/-- ATTACH (R367). -/
def execAttach (tag : BitVec 12) (s : State) : Result := .next (jobCommand 2 tag s)
/-- DETACH (R368). -/
def execDetach (tag : BitVec 12) (s : State) : Result := .next (jobCommand 3 tag s)
/-- KILL (R368). -/
def execKill (tag : BitVec 12) (s : State) : Result := .next (jobCommand 4 tag s)
/-- QUIESCE_END (R369, R370). -/
def execQuiesceEnd (tag : BitVec 12) (s : State) : Result := .next (quiesceEnd tag s)
/-- QUIESCE_TMO (R369). -/
def execQuiesceTmo (tag : BitVec 12) (s : State) : Result := .next (quiesceTimeout tag s)
/-- CLUSTER_RINSE_DONE (R371). -/
def execClusterRinseDone (c : Nat) (s : State) : Result := onCluster c s (clusterRinsed c)
/-- FRAME_RINSE_DONE (R371). -/
def execFrameRinseDone (tag : BitVec 12) (frame : Nat) (s : State) : Result := .next (frameRinsed tag frame s)

end Sys2Proof.Machine
end

