-- ==== Sys2Proof/Machine/Integrity.lean ====
section
/-! DEFINITION. Integrity and functional safety (R397 to R411): alarms of the monitors, bridges, lockstep, idle self-test, the clock,
voltage and thermal monitors, and error injection. -/

namespace Sys2Proof.Machine

/-! ### Alarms of a mechanism (R398, R399) -/

/-- A device-scope alarm of a page. -/
def deviceAlarm (page code : Nat) (s : State) : State := alarm page code .device (raiseFault page code none s)

/-! ### Bridges (R18, R407) -/

/-- The dies at the ends of a bridge, the lower one first; a hub bridge has one. -/
def bridgeDies : Nat → List Nat
  | 0 => [0, 1]
  | 1 => [2, 3]
  | 2 => [0, 2]
  | 3 => [1, 3]
  | 4 => [0]
  | 5 => [2]
  | 6 => [1]
  | _ => [3]
/-- Whether a collective moves data over a bridge: between its engines, or between its lead engine and its cluster's die (R16, R320). -/
def collUses (b : Nat) (k : Coll) : Bool :=
  [bridgeRoute 4 5, bridgeRoute 5 4, bridgeRoute (4 + k.lead) (k.cluster / 16)].any (·.contains b)
/-- A direction whose bridge goes down: nothing waits in it. -/
def linkCut (x : BridgeLink) : BridgeLink := { x with replays := 0, buffer := [], resent := [] }
/-- A bridge goes down: `BRIDGE_FAIL` on the spine page of die d, and the collectives that use it are interrupted. -/
def bridgeDown (b d : Nat) (s : State) : State :=
  let x := getBridge s b
  if x.down then s
  else
    let s := deviceAlarm (spineBase d) bridgeFailCode (putBridge s b { down := true, out := linkCut x.out, back := linkCut x.back })
    let s := forAll (tblKeys s.tx) s txCut
    forAll ((s.colls.filter (collUses b)).map Coll.key) s collInterrupt
/-- The die of a bridge whose spine holds an injected `BRIDGE_FAIL`. -/
def bridgeArmed (s : State) (b : Nat) : Option Nat := (bridgeDies b).find? (fun d => s.armed.contains (spineBase d, bridgeFailCode))
/-- The direction of a bridge that a word travels in. -/
def bridgeLink (x : Bridge) (back : Bool) : BridgeLink := if back then x.back else x.out
/-- Replaces a direction of a bridge. -/
def putLink (s : State) (d : BridgeDir) (l : BridgeLink) : State :=
  let x := getBridge s d.bridge
  putBridge s d.bridge (if d.back then { x with back := l } else { x with out := l })
/-- The receiving endpoint forwards a word; the sending endpoint drops it from its replay buffer. -/
def bridgePass (x : BridgeLink) (word : Nat) : BridgeLink :=
  { x with passed := x.passed ++ [word], replays := 0, buffer := x.buffer.drop 1, resent := x.resent.erase word }
/-- The sending endpoint holds a word in its replay buffer and puts it on the link again, in place of the one that has arrived. -/
def bridgeReplay (x : BridgeLink) (word : Nat) : BridgeLink :=
  { x with buffer := if x.buffer.contains word then x.buffer else x.buffer ++ [word], resent := x.resent.erase word ++ [word] }
/-- The sending endpoint replays a word that failed its CRC; the replays in a row are those of the word that is next to be forwarded. -/
def bridgeRetry (x : BridgeLink) (word : Nat) : BridgeLink :=
  let y := bridgeReplay x word
  { y with asked := x.asked + 1, replays := if y.buffer.headD word = word then x.replays + 1 else x.replays }
/-- A word arrives at the receiving endpoint of a direction of a bridge: forwarded in order (R17), or withheld and replayed by the sending
endpoint (R18); the sixteenth replay of one word in a row fails the bridge. DEDUCED: log 109. `word` is the word as it was sent, and `crcOk`
the outcome of the check of what arrived. DESIGN CHOICE: log 147. -/
def bridgeWord (v : BridgeDir) (crcOk : Bool) (word : Nat) (s : State) : State :=
  let b := v.bridge
  let x := bridgeLink (getBridge s b) v.back
  if (getBridge s b).down then s
  else match bridgeArmed s b with
    | some d => bridgeDown b d (takeArmed (spineBase d) bridgeFailCode s).2
    | none =>
      if crcOk ∧ x.buffer.headD word = word then putLink s v (bridgePass x word)
      else if crcOk then putLink s v (bridgeReplay x word)
      else
        let y := bridgeRetry x word
        let s := putLink s v y
        if 16 ≤ y.replays then bridgeDown b ((bridgeDies b).headD 0) s else s
/-- A bridge that is down has trained: it carries traffic again from the edge at which training passes. -/
def bridgeTrained (b : Nat) (passed : Bool) (s : State) : State :=
  if passed then putBridge s b { getBridge s b with down := false } else s
/-- Runs a meaning on a bridge of the package. -/
def onBridge (b : Nat) (s : State) (f : State → State) : Result := onUnit (b < 8) s f

/-! ### Lockstep (R402) -/

/-- `LOCKSTEP_MISMATCH`. -/
def lockstepCode : Nat := 0x7001
/-- A barista pair mismatches: both cores are held in reset and the walker enters STOPPED. -/
def baristaMismatch (c : Nat) (s : State) : State :=
  let s := resAlarm (clusterBase c) lockstepCode c s
  let s := stopCluster c lockstepCode 16 s
  putClu s c { getClu s c with barReset := true, barRinsed := false }
/-- The management pair meets a fault: it is reset, and `DEV_READY.MGMT` is clear until its firmware runs again (R402, R408). -/
def mgmtFails (code : Nat) (s : State) : State :=
  let s := clearReady [1] (deviceAlarm mgmtPage code s)
  { s with power := { s.power with mgmtDown := true } }

/-- The management pair mismatches. -/
def mgmtMismatch (s : State) : State := mgmtFails lockstepCode s
/-- A load or store access fault of a barista's core; the causes are those of its instruction set. PRESUMED: log 144. -/
def barFault (c : Nat) (store : Bool) (s : State) : State :=
  putClu s c { getClu s c with barTrap := if store then 7 else 5 }
/-- A barista's read of its SRAM meets an uncorrectable error (R408): an access fault, and the walker enters STOPPED. A pair held in reset
reads nothing. -/
def baristaSramError (c : Nat) (s : State) : State :=
  if (getClu s c).barReset then s
  else barFault c false (stopCluster c 0x2004 16 (resAlarm (clusterBase c) 0x2004 c s))

/-! ### Idle self-test (R403) -/

/-- `SELFTEST_FAIL`. -/
def selftestFail : Nat := 0x7002
/-- `SELFTEST_STARVE`. -/
def selftestStarve : Nat := 0x7009
/-- Slices of a self-test cycle. -/
def testSlices : Nat := 2048
/-- The self-test of a tile goes on to its next slice; after the last one a full cycle is counted. -/
def sliceNext (t : Nat) (s : State) : State :=
  let x := getTile s t
  let s := putTile s t { x with stNext := (x.stNext + 1) % testSlices }
  if x.stNext + 1 = testSlices then bump s (mgmtPage + 0x840) else s
/-- A self-test failure of a tile: the cluster page raises it and `ST_STATUS` keeps the first. -/
def sliceFault (t code : Nat) (s : State) : State :=
  let s := recordFirst s (mgmtPage + 0x240) (packWord [(48, code), (24, t), (0, (getTile s t).stNext)])
  resAlarm (clusterBase (t / 16)) code (t / 16) s
/-- A slice passes its due time without having run; the cycle goes on with it. DEDUCED: log 110. -/
def sliceStarve (t : Nat) (s : State) : State := sliceFault t selftestStarve (bump s (mgmtPage + 0x848))
/-- The due slice runs in a cycle in which the tile's vector engine holds no instruction. An injected `SELFTEST_STARVE` of the cluster takes
the slice for one that was overdue. -/
def sliceRun (t : Nat) (differs : Bool) (s : State) : State :=
  let x := getTile s t
  if ¬ x.vq.isEmpty then s
  else
    let s := match takeArmed (clusterBase (t / 16)) selftestStarve s with
      | (true, s) => sliceStarve t s
      | (false, s) => s
    let s := if differs || x.stInj then sliceFault t selftestFail (putTile s t { x with stInj := false }) else s
    sliceNext t s

/-! ### Monitors (R404 to R406) -/

/-- `CLOCK_MON`. -/
def clockMonCode : Nat := 0x7003
/-- `VOLT_MON`. -/
def voltMonCode : Nat := 0x7004
/-- `THERM_MON`. -/
def thermMonCode : Nat := 0x7008
/-- A monitor's check on a page: the fault it finds, or one injected on the page (R410), is raised and counted. -/
def monRaise (code page : Nat) (found : Bool) (count : State → State) (s : State) : State :=
  let r := takeArmed page code s
  if r.1 || found then deviceAlarm page code (count r.2) else s
/-- Cycles of clock domain k in two windows of 5 µs (R377, R404): 15,625 of a HOSTP clock. -/
def clockNominal (k : Nat) : Nat :=
  if k = 0 then 500
  else if k = 1 then 2000
  else if k = 2 then 8000
  else if k < 7 then 11000
  else if k < 11 then 22000
  else if k < 15 then 15000
  else if k < 17 then 16000
  else if k < 21 then 15625
  else 20000
/-- Whether the count of a window differs from its nominal value by more than its tolerance, in tenths of a percent: 10% for AON. -/
def clockOff (s : State) (k count : Nat) : Bool :=
  let nom := clockNominal k
  let tol := if k = 0 then 100 else regF s (mgmtPage + 0x228) 7 0
  decide (nom * tol < 1000 * (if nom ≤ 2 * count then 2 * count - nom else nom - 2 * count))
/-- The page of a clock domain's monitor: the spine page of its die, else the management page. DEDUCED: log 108. -/
def clockPage (k : Nat) : Nat := if 3 ≤ k ∧ k < 15 then spineBase ((k - 3) % 4) else mgmtPage
/-- The end of a clock window: only a running clock is watched. -/
def clockWindow (k count : Nat) (s : State) : State :=
  if ¬ wbit (reg s (mgmtPage + 0x118)) k then s
  else monRaise clockMonCode (clockPage k) (clockOff s k count) (fun s => bump s (mgmtPage + 0x850)) s
/-- A rail has stayed at a deviation (in hundredths of a percent of nominal) for 1 µs: outside ±`VOLT_TOL`, in steps of 0.5%, it raises
`VOLT_MON` on the page of its die. -/
def voltWindow (page : Nat) (deviation : Int) (s : State) : State :=
  monRaise voltMonCode page (decide ((50 * regF s (mgmtPage + 0x228) 39 32 : Nat) < deviation.natAbs)) (fun s => bump s (mgmtPage + 0x858)) s

/-- The hottest of a list of sensor readings: its sensor and its temperature. -/
def hottest (l : List Int) : Nat × Int :=
  (l.zipIdx.foldl (fun (b : Nat × Int) p => if b.2 < p.1 then (p.2, p.1) else b) (0, l.headD 0))
/-- A byte of a temperature. -/
def tempByte (v : Int) : Nat := if v < 0 then 0 else if 255 < v then 255 else v.toNat

/-! ### Injection (R410) -/

/-- The codes that a block accepts in `ERR_INJECT`. -/
def injectCodes : PageType → List Nat
  | .tile => [0x1005, 0x100E, 0x2004, selftestFail]
  | .cluster => [lockstepCode, 0x4006, selftestStarve]
  | .carafe | .dma => [0x2004]
  | .spine => [0x3005, 0x3001, bridgeFailCode, clockMonCode, voltMonCode, thermMonCode]
  | .bulk => [0x3006]
  | .mgmt => [lockstepCode, clockMonCode, voltMonCode, thermMonCode, 0x7005]
  | _ => []
/-- The job of a block that carries one: that of its cluster. -/
def injectTag (s : State) (p : PageType) (i : Nat) : Option (BitVec 12) := match p with
  | .tile | .cluster | .carafe | .dma => cluTag s (i / 16)
  | _ => none
/-- A fault waits for the next access or check of its mechanism. -/
def arm (page code : Nat) (s : State) : State :=
  if s.armed.contains (page, code) then s else { s with armed := s.armed ++ [(page, code)] }
/-- An injection with EFFECT 1: a check that is made every cycle finds it at once, every other one at its next access. -/
def injectEffect (p : PageType) (i base code : Nat) (s : State) : State :=
  match p, code with
  | .tile, 0x1005 => putTile s i { getTile s i with abftInj := true }
  | .tile, 0x100E => putTile s i { getTile s i with parInj := true }
  | .tile, 0x2004 => putTile s i { getTile s i with eccInj := true }
  | .tile, _ => putTile s i { getTile s i with stInj := true }
  | .cluster, 0x7001 => baristaMismatch (i / 16) s
  | .cluster, 0x4006 => putClu s (i / 16) { getClu s (i / 16) with cupInj := true }
  | .mgmt, 0x7001 => mgmtMismatch s
  | .mgmt, 0x7005 => deviceAlarm base 0x7005 s
  | _, _ => arm base code s
/-- A write to `ERR_INJECT` (R356, R410): a code that the block does not accept is ignored. -/
def errInject (p : PageType) (i base : Nat) (v : Word) (s : State) : State :=
  let code := wfld v 15 0
  if ¬ (injectCodes p).contains code then s
  else if wbit v 16 then injectEffect p i base code s
  else raiseFault base code (injectTag s p i) s

/-! ### Meanings -/

/-- BRIDGE_WORD_RECEIVE (R18). -/
def execBridgeWordReceive (v : BridgeDir) (crcOk : Bool) (word : Nat) (s : State) : Result := onBridge v.bridge s (bridgeWord v crcOk word)
/-- BRIDGE_FAIL (R407). -/
def execBridgeFail (bridge : Nat) (s : State) : Result := onBridge bridge s (bridgeDown bridge ((bridgeDies bridge).headD 0))
/-- BRIDGE_RETRAIN (R407). -/
def execBridgeRetrain (bridge : Nat) (passed : Bool) (s : State) : Result := onBridge bridge s (bridgeTrained bridge passed)
/-- LOCKSTEP_MISMATCH (R402). The roast profile engine's mismatch and an error of the root of trust's SRAM are alarms alone (R398). DESIGN CHOICE:
log 159. -/
def execLockstepMismatch (pair : LockPair) (s : State) : Result := match pair with
  | .barista c => onCluster c s (baristaMismatch c)
  | .mgmt => .next (mgmtMismatch s)
  | .roast => .next (deviceAlarm roastPage lockstepCode s)
  | .baristaSram c => onCluster c s (baristaSramError c)
  | .mgmtSram => .next (mgmtFails 0x2004 s)
  | .rotSram => .next (deviceAlarm mailboxPage 0x2004 s)
/-- SELFTEST_SLICE (R403). -/
def execSelftestSlice (t : Nat) (differs : Bool) (s : State) : Result := onTile t s (sliceRun t differs)
/-- SELFTEST_STARVE (R403). -/
def execSelftestStarve (t : Nat) (s : State) : Result := onTile t s (sliceStarve t)
/-- VOLT_MON (R405): the rails of the compute dies have their spine pages, the hubs' rails the management page. -/
def execVoltMon (page : BitVec 14) (deviation : Int) (s : State) : Result :=
  match pageOf (4096 * page.toNat) with
  | some (.spine, _) | some (.mgmt, _) => .next (voltWindow (4096 * page.toNat) deviation s)
  | _ => .next s
/-- CLOCK_MON (R404). -/
def execClockMon (domain count : Nat) (s : State) : Result :=
  onUnit (domain < 25) s (clockWindow domain count)

end Sys2Proof.Machine
end

