-- ==== Sys2Proof/Machine/Security.lean ====
section
/-! DEFINITION. The root of trust (R412 to R429): MRAM writes, security alarms and their levels, firmware verification and measurement at
boot, the mailbox with its commands, the policy, debug, and the DRBG. -/

namespace Sys2Proof.Machine

/-! ### MRAM (R413) -/

/-- Whether neither copy of a record is valid. -/
def mramBad (s : State) (i : Nat) : Bool := (mramPick (mramRec s i)).isNone
/-- A write of a record goes to the older copy with the next sequence number. -/
def mramWrite (i : Nat) (d : List Byte) (s : State) : State :=
  let r := mramRec s i
  let c := mramCopy (max r.a.seq r.b.seq + 1) d
  let older := if r.a.valid ∧ (r.b.valid → r.b.seq ≤ r.a.seq) then { r with b := c } else { r with a := c }
  { s with rot := { s.rot with mram := tblIns s.rot.mram i older } }
/-- A read of a record raises `MRAM_CORRUPT` where neither copy is valid; the raise is that of `f`. -/
def mramRead (f : State → State) (i : Nat) (s : State) : State := if mramBad s i then f s else s
/-- A number of a record, from its bytes at an offset. -/
def mramNum (s : State) (i off n : Nat) : Nat := recF ((mramData s i).getD (factoryData i)) off n
/-- The boot count. -/
def bootCount (s : State) : Nat := mramNum s 6 0 4
/-- The FW_SVN counter of a target: 1 ROT, 2 MGMT. -/
def fwSvn (s : State) (target : Nat) : Nat := mramNum s 3 (4 * (target - 1)) 4

/-! ### Measurement registers (R417) -/

/-- A measurement register. -/
def pcr (s : State) (i : Nat) : List Byte := tblGet (List.replicate 48 0) s.rot.pcrs i
/-- Extends a measurement register by a digest. -/
def extendPcr (i : Nat) (d : List Byte) (s : State) : State :=
  { s with rot := { s.rot with pcrs := tblSet (List.replicate 48 0) s.rot.pcrs i (sha384 (pcr s i ++ d)) } }
/-- The 16-byte event record of PCR3: event, level and boot count (DESIGN CHOICE, log 29). -/
def eventRecord (s : State) (e level : Nat) : List Byte :=
  leBytes 1 e ++ leBytes 1 level ++ leBytes 2 0 ++ leBytes 4 (bootCount s) ++ leBytes 8 0

/-! ### Alarms (R425 to R427) -/

/-- The code of a security event. -/
def eventCode (e : Nat) : Nat :=
  [0x8002, 0x8005, 0x8005, 0x8001, 0x8003, 0x8007, 0x8006, 0x8004].getD e 0
/-- The policy with which the alarms of the present cycle act: the one before a change at the same edge (R421). DEDUCED: log 169. -/
def alarmPolicy (s : State) : List Byte := match s.rot.policyWas with
  | some (t, b) => if t = s.cycle then b else s.rot.policy
  | none => s.rot.policy
/-- The level of an event: the policy's, and always 1 for event 7. -/
def eventLevel (s : State) (e : Nat) : Nat := if e = 7 then 1 else recF (alarmPolicy s) (16 + e) 1
/-- AON cycles within which events of one kind merge: 1 µs, for debug probes 1 ms (R388, R423, R427). DEDUCED: log 112. -/
def eventMerge (e : Nat) : Nat := if e = 5 then 50_000 else 50
/-- An alarm-log entry: event, level, injected flag, boot count and `DEV_TIME`, 16 bytes (DESIGN CHOICE, log 29). -/
def logEntry (s : State) (e level : Nat) (inj : Bool) : List Byte :=
  leBytes 1 e ++ leBytes 1 level ++ leBytes 1 (b2n inj) ++ leBytes 1 0 ++ leBytes 4 (bootCount s) ++ leBytes 8 (devTime s)
/-- Writes an alarm-log entry; the log keeps the last 64. -/
def logAlarm (e level : Nat) (inj : Bool) (s : State) : State :=
  let l := ((mramData s 5).getD []) ++ logEntry s e level inj
  mramWrite 5 (l.drop (l.length - 1024)) s

/-- A merged event takes the highest level among them (R427): the event's last entry of the log shows it. -/
def logRaise (e level : Nat) (s : State) : State :=
  let l := (mramData s 5).getD []
  match ((List.range (l.length / 16)).filter (fun i => recF l (16 * i) 1 == e)).getLast? with
  | some i => if recF l (16 * i + 1) 1 < level then mramWrite 5 (l.set (16 * i + 1) (BitVec.ofNat 8 level)) s else s
  | none => s

/-- Level 2: every cluster of every bound job stops, and the alarm is recorded in every open window. The rest follows from the level. -/
def levelTwo (code : Nat) (s : State) : State :=
  let s := forAll (boundTags s) s (fun g s => forAll (clustersOf s g) s (fun c => stopCluster c code 16))
  alarm mailboxPage code .device s
/-- Every job key, seed, the alias key and the CDI are erased. -/
def eraseSecrets (s : State) : State :=
  let s := setReg s (devicePage + 0x1A8) 0
  { s with bulkKeys := [], jobs := s.jobs.map (fun p => (p.1, { p.2 with seed := 0 })), rot := { s.rot with aliasKey := none, cdi := none } }
/-- Writes `MBX_STATUS` and the output of a command (R419, R429). -/
def mbxDone (host : Bool) (code sub : Nat) (out : List Byte) (s : State) : State :=
  let s := setReg s (mailboxPage + 0x108) (packWord [(62, b2n host), (32, out.length), (16, sub), (0, code)])
  let s := forAll (chunksOf 8 192 out).zipIdx s (fun p s => setReg s (mailboxPage + 0x200 + 8 * p.2) (BitVec.ofNat 64 (leNat p.1)))
  if code = 0 then bump s (mailboxPage + 0x800)
  else
    let s := bump s (mailboxPage + 0x808)
    if code = 0x8008 then raiseFault mailboxPage 0x8008 none s else s
/-- Whether the command that runs was the host's. -/
def mbxByHost (s : State) : Bool := wbit (reg s (mailboxPage + 0x108)) 62
/-- A level-3 alarm ends an unlock that has not opened debug yet, with subcode 5. -/
def abortUnlock (s : State) : State :=
  if s.rot.unlocking then
    mbxDone (mbxByHost s) 0x8008 5 [] { s with rot := { s.rot with unlocking := false, unlockPaths := 0 } }
  else s
/-- Level 3: the secrets are erased, every job is killed, and PCR3 is extended. -/
def levelThree (e : Nat) (s : State) : State :=
  let s := killAll (eraseSecrets (abortUnlock s))
  extendPcr 3 (sha384 (eventRecord s e 3)) s
/-- The actions of a level. -/
def levelActs (e level : Nat) (s : State) : State :=
  let s := if 2 ≤ level then levelTwo (eventCode e) s else s
  let s := if 3 ≤ level then levelThree e s else s
  { s with rot := { s.rot with level := if 2 ≤ level ∧ s.rot.level.toNat < level then BitVec.ofNat 2 level else s.rot.level } }
/-- A security event. Merged with one before it, it acts only where it raises the level. -/
def secRaise (e : Nat) (inj : Bool) (s : State) : State :=
  let level := if inj then min 2 (eventLevel s e) else eventLevel s e
  let last := tblGet 0 s.rot.lastEvt e
  let merged := last ≠ 0 ∧ devTime s ≤ last - 1 + eventMerge e
  let s := { s with rot := { s.rot with lastEvt := tblSet 0 s.rot.lastEvt e (devTime s + 1) } }
  if merged then
    let s := logRaise e level s
    if s.rot.level.toNat < level ∧ 2 ≤ level then levelActs e level s else s
  else
    let s := bump (setBit s (mailboxPage + 0x118) e) (mailboxPage + 0x810)
    levelActs e level (logAlarm e level inj (raiseFault mailboxPage (eventCode e) none s))
/-- A security event is raised. The log that its entry joins is read first, which raises `MRAM_CORRUPT` too where neither copy is valid (R413). -/
def secEvent (e : Nat) (inj : Bool) (s : State) : State :=
  let t := secRaise e inj s
  if e ≠ 6 ∧ mramBad s 5 ∧ ¬ mramBad t 5 then secRaise 6 false t else t
/-- Whether the cause of an event persists: TAMPER_N asserted, or a record that cannot be read. -/
def causeHolds (s : State) (e : Nat) : Bool :=
  if e = 0 then wbit (reg s (mgmtPage + 0x120)) 2 else e == 6 && ((List.range 7).any (mramBad s) || !s.rot.pufOk)

/-! ### Firmware (R414 to R418) -/

/-- The slot that byte 0 of the flash's directory names: 1 is B, any other value A. DESIGN CHOICE: log 164. -/
def prefSlot (s : State) : Nat := if memNat s.rot.flash 0 1 = 1 then 1 else 0
/-- Where a slot of the flash begins: 0 A or 1 B. -/
def slotBase (slot : Nat) : Nat := if slot = 0 then 0x10_0000 else 0x190_0000
/-- Where an image begins in the flash: target 1 ROT stands first in its slot, and target 2 MGMT follows its body. DESIGN CHOICE: log 164. -/
def fwBase (s : State) (slot target : Nat) : Nat :=
  if target = 1 then slotBase slot else slotBase slot + 256 + memNat s.rot.flash (slotBase slot + 12) 4
/-- The header of an image (R414). -/
def fwHeader (s : State) (slot target : Nat) : List Byte := memRead s.rot.flash (fwBase s slot target) 256
/-- The body of an image. -/
def fwBody (s : State) (slot target : Nat) : List Byte := memRead s.rot.flash (fwBase s slot target + 256) (recF (fwHeader s slot target) 12 4)
/-- An image is valid but for its SVN (R415). -/
def fwSigned (s : State) (slot target : Nat) : Bool :=
  let h := fwHeader s slot target
  let key := (h.drop 64).take 96
  recF h 0 4 == 0x5A42_4657 && recF h 4 1 == target && recF h 5 3 == 0 && decide (recF h 12 4 ≤ 0x80_0000)
    && sha384 key == Config.fwKeyHash && ecdsaVerify key (sha384 (h.take 160)) (h.drop 160)
    && sha384 (fwBody s slot target) == (h.drop 16).take 48
/-- Verifies an image; a failed one raises `SIG_INVALID` with its cause (R415). -/
def fwVerify (slot target : Nat) (s : State) : Bool × State :=
  let s := mramRead (secEvent 6 false) 3 s
  let fail := fun (c : SigCause) => (false, secEvent 3 false { s with rot := { s.rot with sigCause := some c } })
  if ¬ fwSigned s slot target then fail .signature
  else if recF (fwHeader s slot target) 8 4 < fwSvn s target then fail .rollback
  else (true, s)
/-- The slot that was booted (`SEC_STATE.SLOT`). -/
def bootedSlot (s : State) : Nat := regF s (mailboxPage + 0x110) 0 0
/-- The unique device secret, rebuilt from the PUF with the helper data of MRAM (R412). -/
def deviceSecret (s : State) : List Byte := beBytes 32 (Config.puf ((mramData s 0).getD [])).toNat
/-- The DeviceID key that the secret gives. -/
def deviceIdKey (s : State) : BitVec 384 := kdf (deviceSecret s) ["DEVICEID".toList.map (fun c => BitVec.ofNat 8 c.toNat)]
/-- The CDI and the alias key are formed, and the DeviceID key signs the alias certificate (R412). -/
def formAlias (s : State) : State :=
  let d := drbgDraw 48 s
  let s := d.2
  let cdi := kdf (deviceSecret s) [pcr s 0]
  let key := kdf (beBytes 48 cdi.toNat) [pcr s 1, pcr s 3, d.1]
  let fields := Config.certFields (publicKey (privateKey key)) (pcr s 1) (pcr s 3)
  let sig := ecdsaSign (privateKey (s.rot.deviceKey.getD 0)) (sha384 fields)
  { s with rot := { s.rot with cdi := some cdi, aliasKey := some key, aliasCert := (Config.certBytes fields sig).take 1536 } }
/-- The MGMT image of the booted slot is verified and measured (R402, R415, R417). -/
def mgmtVerify (s : State) : Bool × State :=
  let v := fwVerify (bootedSlot s) 2 s
  if v.1 then (true, extendPcr 1 (sha384 (fwHeader s (bootedSlot s) 2)) v.2) else v
/-- The verification of the ROT image: the preferred slot, else the other one. -/
def rotVerify (s : State) : Option Nat × State :=
  let p := prefSlot s
  match fwVerify p 1 s with
  | (true, s) => (some p, s)
  | (false, s) =>
    -- reading the other image takes longer than events merge (R427, R446)
    let s := { s with rot := { s.rot with lastEvt := tblSet 0 s.rot.lastEvt 3 0 } }
    let v := fwVerify (1 - p) 1 s
    (if v.1 then some (1 - p) else none, v.2)
/-- What the root of trust does in bring-up step 2 (R392, R412 to R417): whether both images of a slot are valid. -/
def rotBoot (s : State) : Bool × State :=
  let s := mramRead (secEvent 6 false) 6 s
  let s := mramWrite 6 (leBytes 4 (bootCount s + 1)) { s with rot := { s.rot with policy := mramPolicy s.rot } }
  match rotVerify s with
  | (none, s) => (false, s)
  | (some slot, s) =>
    let s := setRegF s (mailboxPage + 0x110) 0 0 slot
    let s := extendPcr 0 (sha384 (fwHeader s slot 1)) s
    let keys := s.rot.pufOk && !mramBad s 0
    let s := if mramBad s 4 then secEvent 6 false s else extendPcr 2 (sha384 (policyBytes s)) s
    let m := mgmtVerify s
    let s := m.2
    (m.1, if keys then formAlias { s with rot := { s.rot with deviceKey := some (deviceIdKey s) } } else secEvent 6 false s)

/-! ### Policy (R420, R421) -/

/-- Whether an owner hash of a policy record is all zero. -/
def ownerHash (b : List Byte) (i : Nat) : List Byte := (b.drop (64 + 48 * i)).take 48
/-- A policy record is malformed. -/
def policyBad (s : State) (b : List Byte) : Bool :=
  let n := recF b 8 1
  let zero := fun (o k : Nat) => ((b.drop o).take k).all (· == 0)
  recF b 0 4 != 0x5A42_5031 || decide (recF b 4 4 ≤ policyField s 4 4) || decide (n < 2) || decide (4 < n) || decide (1 < recF b 9 1)
    || decide (7 < recF b 10 1) || !zero 11 1 || !zero 23 41 || !zero 384 128
    || (List.range 7).any (fun e => decide (recF b (16 + e) 1 < 1) || decide (3 < recF b (16 + e) 1))
    || (List.range 4).any (fun i => decide (n ≤ i) && !zero (64 + 48 * i) 48)
    || (List.range 4).any (fun i => (List.range 4).any (fun j => decide (i < j) && decide (j < n) && ownerHash b i == ownerHash b j))
    || (List.range 4).any (fun p => decide (1 < recF b (256 + 32 * p + 22) 1) || !zero (256 + 32 * p + 23) 9)
/-- One signer entry of a quorum block: its slot hashes to its key and its signature verifies. -/
def signerOk (owners m e : List Byte) : Bool :=
  let slot := recF e 0 1
  decide (slot < 4) && ((e.drop 1).take 3).all (· == 0) && sha384 ((e.drop 4).take 96) == ownerHash owners slot
    && ecdsaVerify ((e.drop 4).take 96) m ((e.drop 100).take 96)
/-- Whether a nonce exists and was issued less than 60 s earlier. -/
def nonceLive (s : State) : Bool := match s.rot.nonce with
  | some n => decide (devTime s < n.2 + 3_000_000_000)
  | none => false
/-- Whether a quorum block authorises a command (R421). While the device is unowned the owners are those of the new record. -/
def quorumOk (s : State) (op : Nat) (body block : List Byte) : Bool :=
  let owners := if unowned s then body else policyBytes s
  let n := (s.rot.nonce.map (·.1)).getD []
  let m := sha384 (n ++ leBytes 1 op ++ sha384 body)
  let a := block.take 200
  let b := (block.drop 200).take 200
  nonceLive s && recF a 0 1 != recF b 0 1 && signerOk owners m a && signerOk owners m b
/-- Every quorum command consumes the nonce. -/
def dropNonce (s : State) : State := { s with rot := { s.rot with nonce := none } }
/-- A quorum failure: the command is refused with `POLICY_QUORUM`, with subcode 3 where the nonce is absent or expired, and event 4 is
raised. -/
def quorumFail (host : Bool) (s : State) : State :=
  secEvent 4 false (dropNonce (mbxDone host 0x8003 (if nonceLive s then 0 else 3) [] s))
/-- A quorum command whose input is well formed. DEDUCED: log 111. -/
def withQuorum (host : Bool) (op n : Nat) (input : List Byte) (s : State) (f : State → State) : State :=
  if quorumOk s op (input.take n) (input.drop n) then f (dropNonce s) else quorumFail host s
/-- The record of a POLICY_UPDATE takes effect (R421, R422): control endpoints that change move their QPs through RESET. -/
def policyInstall (s : State) : State :=
  match s.rot.newPolicy with
  | none => s
  | some b =>
    let old := s
    let s := mramWrite 4 b { s with rot := { s.rot with newPolicy := none, policy := b, policyWas := some (s.cycle, policyBytes s) } }
    let s := extendPcr 2 (sha384 b) s
    let s := forAll (List.range 4) s (fun p s =>
      if ¬ unowned old ∧ policyEndpoint old p = policyEndpoint s p then s
      else
        let s := ctlReset p (putHp s p { getHp s p with held := none })
        if devReady s (2 + p) then ctlBringUp p s else s)
    mbxDone (mbxByHost s) 0 0 [] s

/-! ### Debug (R423, R424) -/

/-- Steps 3 to 6 of an unlock, once the tags that were killed are FREE; one that is STUCK holds nothing up. -/
def unlockGo (s : State) : State :=
  if ¬ s.rot.unlocking ∨ s.jobs.any (fun p => p.2.st != .free && p.2.st != .stuck) then s
  else
    let s := eraseSecrets s
    let s := forAll (List.range 64) s zeroCluster
    let s := { s with mem := { s.mem with tensor := [] } }
    let s := extendPcr 3 (sha384 (eventRecord s 7 1)) { s with rot := { s.rot with sinceSeed := 0 } }
    let s := if s.rot.deviceKey.isSome then formAlias s else s
    let s := { s with rot := { s.rot with dbg := s.rot.unlockPaths, unlocking := false, unlockPaths := 0 } }
    secEvent 7 false (mbxDone (mbxByHost s) 0 0 [] s)

/-! ### The mailbox (R419) -/

/-- The first n bytes of `MBX_DATA`. -/
def mbxInput (s : State) (n : Nat) : List Byte :=
  ((List.range 192).flatMap (fun i => leBytes 8 (reg s (mailboxPage + 0x200 + 8 * i)).toNat)).take n
/-- A refusal with `MBX_REFUSED`. -/
def mbxRefuse (host : Bool) (sub : Nat) (s : State) : State := mbxDone host 0x8008 sub [] s
/-- A command starts to run: BUSY until it ends. -/
def mbxBusy (host : Bool) (s : State) : State := setReg s (mailboxPage + 0x108) (packWord [(63, 1), (62, b2n host)])
/-- The quote of selected measurement registers (R418). -/
def quoteBytes (s : State) (key : BitVec 384) (nonce : List Byte) (mask : Nat) : List Byte :=
  let l := leBytes 4 0x5A42_5154 ++ leBytes 1 mask ++ leBytes 3 0 ++ nonce ++ leBytes 4 (bootCount s) ++ leBytes 4 0
    ++ ((List.range 8).filter (bit mask)).flatMap (pcr s)
  l ++ ecdsaSign (privateKey key) (sha384 l)
/-- The certificate at a chain index: the DeviceID certificate of MRAM, as manufactured where none is listed (DESIGN CHOICE, log 3), or that of the alias
key. -/
def certBytes (s : State) (i : Nat) : Option (List Byte) :=
  if s.rot.deviceKey.isNone then none
  else if i = 0 then (mramData s 1).map (fun d => if d.isEmpty then Config.deviceCert.take 1024 else d)
  else s.rot.aliasKey.map (fun _ => s.rot.aliasCert)
/-- The input bytes of each command (DESIGN CHOICE, log 30). -/
def mbxLen (op : Nat) : Nat := match op with
  | 0x02 | 0x20 => 1
  | 0x03 => 33
  | 0x04 => 49
  | 0x10 => 912
  | 0x11 | 0x12 => 408
  | _ => 0
/-- Whether an operation code names a command. -/
def mbxOp (op : Nat) : Bool := [0x01, 0x02, 0x03, 0x04, 0x05, 0x06, 0x10, 0x11, 0x12, 0x20].contains op

/-- GET_NONCE. -/
def mbxNonce (host : Bool) (s : State) : State :=
  let d := drbgDraw 32 s
  mbxDone host 0 0 d.1 { d.2 with rot := { d.2.rot with nonce := some (d.1, devTime s) } }
/-- GET_CERT: refused where the keys do not exist. -/
def mbxCert (host : Bool) (b : List Byte) (s : State) : State :=
  if 1 < recF b 0 1 then mbxRefuse host 1 s
  else
    let s := if recF b 0 1 = 0 then mramRead (secEvent 6 false) 1 s else s
    match certBytes s (recF b 0 1) with
    | some l => mbxDone host 0 0 l s
    | none => mbxRefuse host 4 s
/-- QUOTE. -/
def mbxQuote (host : Bool) (b : List Byte) (s : State) : State :=
  match s.rot.aliasKey with
  | some k => mbxDone host 0 0 (quoteBytes s k (b.take 32) (recF b 32 1)) s
  | none => mbxRefuse host 4 s
/-- EXTEND: the host may not extend PCR4 and PCR5. -/
def mbxExtend (host : Bool) (b : List Byte) (s : State) : State :=
  let i := recF b 0 1
  if i < 4 ∨ 7 < i then mbxRefuse host 1 s
  else if host ∧ i < 6 then mbxRefuse host 2 s
  else mbxDone host 0 0 [] (extendPcr i (b.drop 1) s)
/-- COMMIT_SVN: the rollback counters rise to the SVN of the running images. -/
def mbxCommit (host : Bool) (s : State) : State :=
  if host then mbxRefuse host 2 s
  else
    let s := mramRead (secEvent 6 false) 3 s
    let svn := fun (t : Nat) => max (fwSvn s t) (recF (fwHeader s (bootedSlot s) t) 8 4)
    let d := leBytes 4 (svn 1) ++ leBytes 4 (svn 2)
    mbxDone host 0 0 d (mramWrite 3 d s)
/-- GET_LOG. -/
def mbxLog (host : Bool) (s : State) : State := mbxDone host 0 0 ((mramData s 5).getD []) (mramRead (secEvent 6 false) 5 s)
/-- POLICY_UPDATE: a record that passes is written to MRAM and takes effect when the write completes. -/
def mbxPolicy (host : Bool) (b : List Byte) (s : State) : State :=
  let body := b.take 512
  if policyBad s body then mbxRefuse host 1 (dropNonce s)
  else withQuorum host 0x10 512 b s (fun s => mbxBusy host { s with rot := { s.rot with newPolicy := some body } })
/-- DEBUG_UNLOCK (R424). -/
def mbxUnlock (host : Bool) (b : List Byte) (s : State) : State :=
  if 3 < recF b 0 8 then mbxRefuse host 1 (dropNonce s)
  else if ¬ bit (policyField s 9 1) 0 ∨ 2 ≤ s.rot.level.toNat ∨ s.rot.dbg ≠ 0 then mbxRefuse host 4 (dropNonce s)
  else withQuorum host 0x11 8 b s (fun s =>
    unlockGo (killAll (mbxBusy host { s with rot := { s.rot with unlocking := true, unlockPaths := BitVec.ofNat 2 (recF b 0 1) } })))
/-- ALARM_CLEAR (R427): a level-2 halt ends. -/
def mbxClear (host : Bool) (b : List Byte) (s : State) : State :=
  if recF b 0 8 ≠ 0 then mbxRefuse host 1 (dropNonce s)
  else if s.rot.level = 3 ∨ causeHolds s 0 ∨ mramBad s 4 then mbxRefuse host 4 (dropNonce s)
  else withQuorum host 0x12 8 b s (fun s =>
    mbxDone host 0 0 [] (setRegF { s with rot := { s.rot with level := 0 } } (mailboxPage + 0x118) 7 0 0))
/-- INJECT (R428). -/
def mbxInject (host : Bool) (b : List Byte) (s : State) : State :=
  if host then mbxRefuse host 2 s
  else if ¬ bit (policyField s 10 1) 0 then mbxRefuse host 4 s
  else if 6 < recF b 0 1 then mbxRefuse host 1 s
  else mbxDone host 0 0 [] (secEvent (recF b 0 1) true s)

/-- A write to `MBX_CMD` by the management core or the host; one while a command runs is ignored and counted. -/
def mbxRun (host : Bool) (op len : Nat) (s : State) : State :=
  if wbit (reg s (mailboxPage + 0x108)) 63 then bump s (mailboxPage + 0x820)
  else
    let b := mbxInput s len
    if ¬ mbxOp op ∨ len ≠ mbxLen op then
      mbxRefuse host 1 (if op = 0x10 ∨ op = 0x11 ∨ op = 0x12 then dropNonce s else s)
    else match op with
      | 0x01 => mbxNonce host s
      | 0x02 => mbxCert host b s
      | 0x03 => mbxQuote host b s
      | 0x04 => mbxExtend host b s
      | 0x05 => mbxCommit host s
      | 0x06 => mbxLog host s
      | 0x10 => mbxPolicy host b s
      | 0x11 => mbxUnlock host b s
      | 0x12 => mbxClear host b s
      | _ => mbxInject host b s
/-- A mailbox command of a master (R352, R376, R419): a barista does not reach the page, and a closed page ignores the host. -/
def mbxCommand (m : Master) (op : Nat) (s : State) : State :=
  match m with
  | .barista _ | .baristaPart _ _ => s
  | .mgmt => if domainOn s 1 then mbxRun false op (mbxLen op) s else bump s (mgmtPage + 0x808)
  | .host _ => if hostClosed s 0 then s else if domainOn s 1 then mbxRun true op (mbxLen op) s else bump s (mgmtPage + 0x808)

/-- A read of the mailbox page (R429). -/
def mailboxShow (s : State) (off : Nat) : Word :=
  match off with
  | 0x110 =>
    let l := s.rot.level.toNat
    packWord [(63, b2n !unowned s), (62, b2n (s.rot.dbg.getLsbD 0)), (61, b2n (s.rot.dbg.getLsbD 1)),
      (60, b2n (s.rot.deviceKey.isSome && s.rot.aliasKey.isSome)), (58, l), (0, bootedSlot s)]
  | 0x118 => packWord [(8, ((List.range 8).filter (causeHolds s)).foldl (fun a e => a + 2 ^ e) 0), (0, regF s (mailboxPage + 0x118) 7 0)]
  | 0x120 => BitVec.ofNat 64 (policyField s 4 4)
  | 0x128 => packWord [(32, fwSvn s 2), (0, fwSvn s 1)]
  | 0x130 => BitVec.ofNat 64 (bootCount s)
  | _ => reg s (mailboxPage + off)

/-! ### JTAG and the DRBG (R412, R423) -/

/-- A JTAG instruction. While debug is closed every instruction but IDCODE and BYPASS acts as BYPASS and is a debug probe; while JTAG is
open what such an instruction shifts out is a free value (DESIGN CHOICE, log 1). -/
def jtagShift (ir : JtagIr) (s : State) : State :=
  let tap := fun (v : BitVec 32) (s : State) => { s with rot := { s.rot with tapReg := v } }
  match ir with
  | .idcode => tap 0x1B10_4A5D s
  | .bypass => tap 0 s
  | .other =>
    if s.rot.dbg.getLsbD 0 then
      let f := drawFree s
      tap (f.1.setWidth 32) f.2
    else secEvent 5 false (bump (tap 0 s) (mailboxPage + 0x818))
/-- The DRBG is seeded anew. -/
def drbgSeed (s : State) : State := { s with rot := { s.rot with sinceSeed := 0 } }

/-! ### Meanings -/

/-- GET_NONCE (R419). -/
def execGetNonce (m : Master) (s : State) : Result := .next (mbxCommand m 0x01 s)
/-- GET_CERT (R419). -/
def execGetCert (m : Master) (s : State) : Result := .next (mbxCommand m 0x02 s)
/-- QUOTE (R418). -/
def execQuote (m : Master) (s : State) : Result := .next (mbxCommand m 0x03 s)
/-- EXTEND (R417). -/
def execExtend (m : Master) (s : State) : Result := .next (mbxCommand m 0x04 s)
/-- COMMIT_SVN (R416). -/
def execCommitSvn (m : Master) (s : State) : Result := .next (mbxCommand m 0x05 s)
/-- GET_LOG (R419). -/
def execGetLog (m : Master) (s : State) : Result := .next (mbxCommand m 0x06 s)
/-- POLICY_UPDATE (R421). -/
def execPolicyUpdate (m : Master) (s : State) : Result := .next (mbxCommand m 0x10 s)
/-- POLICY_TAKE_EFFECT (R421). -/
def execPolicyTakeEffect (s : State) : Result := .next (policyInstall s)
/-- DEBUG_UNLOCK (R424). -/
def execDebugUnlock (m : Master) (s : State) : Result := .next (mbxCommand m 0x11 s)
/-- ALARM_CLEAR (R427). -/
def execAlarmClear (m : Master) (s : State) : Result := .next (mbxCommand m 0x12 s)
/-- INJECT (R428). -/
def execInject (m : Master) (s : State) : Result := .next (mbxCommand m 0x20 s)
/-- GLITCH (R425): of the clocks, or of a rail. -/
def execGlitch (rail : Bool) (s : State) : Result := .next (secEvent (if rail then 2 else 1) false s)
/-- JTAG_INSTRUCTION (R423). -/
def execJtagInstruction (ir : JtagIr) (s : State) : Result := .next (jtagShift ir s)
/-- DRBG_RESEED (R412). -/
def execDrbgReseed (s : State) : Result := .next (drbgSeed s)

end Sys2Proof.Machine
end

