-- ==== Sys2Proof/Machine/Power.lean ====
section
/-! DEFINITION. Power, clocks, inputs and bring-up (R374 to R396), the power input and I3C telemetry (R433 to R441, R448), and the thermal
monitor (R406), whose highest limit turns the device off. -/

namespace Sys2Proof.Machine

/-! ### Domains (R374, R377) -/

/-- The clock domains of a power domain. -/
def domainClocks (d : Nat) : List Nat :=
  if d < 3 then [d] else if d = 3 then [17, 18, 19, 20] else if d < 6 then [11 + d] else if d < 10 then [15 + d]
  else if d < 14 then [d - 3, d + 1] else [3 + (d - 14) / 4]
/-- The power domains that the function of a `DEV_READY` bit needs. -/
def readyDomains (i : Nat) : List Nat :=
  if i = 0 then [1] else if i = 1 then [2] else if i < 6 then [3]
  else if i < 12 then (List.range 4).map (14 + 4 * (i - 8) + ·)
  else if i = 12 then [10, 11, 12, 13] else if i < 16 then [4, 5] else if i = 16 then [4] else [6 + (i - 32) / 4]
/-- The bits of `DEV_READY` (R360). -/
def readyBits : List Nat := (List.range 6) ++ (List.range 9).map (8 + ·) ++ (List.range 16).map (32 + ·)
/-- The power domains. -/
def allDomains : List Nat := List.range 30
/-- `CLK_RUNNING`: the clocks of the domains that are on, but those whose PLL has not locked. -/
def runClocks (s : State) : State :=
  let l := ((allDomains.filter (domainOn s)).flatMap domainClocks).filter (fun k => !s.power.pllBad.contains k)
  setReg s (mgmtPage + 0x118) (packWord (l.eraseDups.map (fun k => (k, 1))))
/-- Domains turn on; the ports of an optical domain that are enabled begin to train. -/
def domainsOn (l : List Nat) (s : State) : State :=
  let s := runClocks (setReg s (mgmtPage + 0x110) (reg s (mgmtPage + 0x110) ||| packWord (l.eraseDups.map (fun d => (d, 1)))))
  forAll ((List.range 16).filter (fun p => l.contains (6 + p / 4))) s portFollow

/-- A cluster whose quarter turns off loses the contents of its banks; they come up ON (R374). -/
def clusterOff (c : Nat) (s : State) : State :=
  let s := zeroCluster c s
  let bankRegs := (tilesOf c).flatMap (fun t => [tileBase t + 0x1F8, tileBase t + 0x200])
    ++ [carafeBase c + 0x120, carafeBase c + 0x128, carafeBase c + 0x130, carafeBase c + 0x138, carafeBase c + 0x140]
  forAll bankRegs s (fun a s => setReg s a (resetVal a))
/-- What the root of trust holds in its SRAM is lost (R412): measurements, nonce and keys; MRAM with its policy, flash and the alarm level stay. -/
def rotCold (r : Rot) : Rot :=
  { Rot.reset with mram := r.mram, flash := r.flash, policy := mramPolicy r, pufOk := r.pufOk, drbgReqs := r.drbgReqs, level := r.level, lastEvt := r.lastEvt }
/-- What a domain loses when it turns off. -/
def domainLost (d : Nat) (s : State) : State :=
  if d = 1 then setReg { s with rot := rotCold s.rot } (mailboxPage + 0x108) 0
  else if d = 2 then { s with power := { s.power with mgmtDown := false } }
  else if d = 3 then forAll (List.range 4) s (fun p s => ctlReset p (putHp s p HPort.reset))
  else if d < 6 then s
  else if d < 10 then forAll (List.range 4) s (fun i => portUnlit (4 * (d - 6) + i))
  else if d < 14 then s
  else forAll (List.range 4) s (fun i => clusterOff (16 * ((d - 14) / 4) + 4 * ((d - 14) % 4) + i))
/-- Domains turn off, in the order of a list. -/
def domainsOff (l : List Nat) (s : State) : State :=
  let s := clearReady (readyBits.filter (fun i => (readyDomains i).any (l.contains ·))) s
  let s := runClocks (setReg s (mgmtPage + 0x110) (reg s (mgmtPage + 0x110) &&& ~~~ packWord (l.eraseDups.map (fun d => (d, 1)))))
  forAll l s domainLost

/-! ### Losing power and reset (R390, R434 to R436) -/

/-- The device with nothing but its non-volatile memory, its failed laser channels, the answers it has given and the commands that wait. -/
def bareDevice (regs : Tbl Word) (p : Power) (r : Rot) (s : State) : State :=
  { State.reset with
    pending := s.pending, cycle := s.cycle, t0 := s.t0, free := s.free, replies := s.replies, regs := regs, power := p, rot := r
    fab := s.fab.filterMap (fun q => if q.2.laser then none else some (q.1, { FabPort.reset with laser := false })) }
/-- The root of trust after a device reset. -/
def rotReset (r : Rot) : Rot := { rotCold r with level := 0, lastEvt := [] }
/-- A device reset: every register at its reset value, AON alone on, `DEV_TIME` zero. -/
def resetDevice (s : State) : State :=
  let p := { Power.reset with pgood := s.power.pgood, input := s.power.input, pwrEn := s.power.pwrEn,
                              strapBoot := s.power.strapBoot, strapAddr := s.power.strapAddr }
  { bareDevice [] p (rotReset s.rot) s with t0 := s.cycle }
/-- The device is OFF: no domain is on and PGOOD is low. -/
def deviceOff (s : State) : State :=
  let s := resetDevice s
  setReg (setReg { s with power := { s.power with pgood := false } } (mgmtPage + 0x110) 0) (mgmtPage + 0x118) 0
/-- Every domain but AON turns off, as under R390, and FAULT_N is held low; the registers of AON stay, the counters that `CTR_SNAP` holds among them (R357). -/
def allOff (s : State) : State :=
  let aon := fun (page : Nat) => page == devicePage / 4096 || page == mgmtPage / 4096
  let keep := s.regs.filter (fun r => aon (r.1 / 4096))
  let snaps := s.snaps.filter (fun r => aon r.1)
  let s := { bareDevice keep { s.power with steps := [], wakeHeld := false, mgmtDown := false, faultPin := true, cycled := false, failed := [] } (rotCold s.rot) s with
    snaps := snaps, alerts := { s.alerts with held := s.alerts.held.filter (fun r => aon (r.1 / 4096)) } }
  let s := setReg (setReg (setReg s (mgmtPage + 0x110) 1) (mgmtPage + 0x118) 1) (devicePage + 0x100) 0
  setReg s (mgmtPage + 0x100) (packWord [(4, regF s (mgmtPage + 0x100) 4 4)])

/-! ### Bring-up (R375, R392) -/

/-- Whether AON runs and RESET_N is released. -/
def awake (s : State) : Bool := s.power.pgood && !s.power.inReset
/-- `PWR_STATE.STATE`: 1 STANDBY, 2 LISTEN, 3 ACTIVE. -/
def pwrState (s : State) : Nat := regF s (mgmtPage + 0x100) 2 0
/-- Sets `PWR_STATE.STATE`. -/
def setPwrState (n : Nat) (s : State) : State := setRegF s (mgmtPage + 0x100) 2 0 n
/-- `PWR_STATE.BUSY`. -/
def pwrBusy (s : State) : Bool := wbit (reg s (mgmtPage + 0x100)) 63
/-- The strap value BOOT_LISTEN read in step 1. -/
def bootListen (s : State) : Bool := wbit (reg s (mgmtPage + 0x100)) 4
/-- The units of a bring-up step: ports, dies, or one. -/
def stepUnits (n : Nat) : Nat := if n = 4 ∨ n = 5 then 4 else if n = 9 then 16 else 1
/-- A step starts: its domains turn on. Step 1 reads the straps, and step 7 zeroes the key table, but for the keys of the jobs staged by then
(R363). DEDUCED: log 105. -/
def stepBegin (n : Nat) (s : State) : State :=
  let s := { s with power := { s.power with
    steps := s.power.steps ++ (List.range (stepUnits n)).map (32 * n + ·), failed := s.power.failed.filter (fun k => k / 32 != n) } }
  match n with
  | 1 =>
    let s := setRegF s (mgmtPage + 0x100) 4 4 (b2n s.power.strapBoot)
    domainsOn [1] { s with power := { s.power with i3cAddr := s.power.strapAddr } }
  | 3 => domainsOn [2] s
  | 4 => domainsOn [3] s
  | 5 => domainsOn [10, 11, 12, 13, 14] s
  | 7 => domainsOn [4, 5] { s with bulkKeys := s.bulkKeys.filter (fun k => (getJob s (BitVec.ofNat 12 k.1)).st != .free) }
  | 9 => domainsOn [6, 7, 8, 9] s
  | _ => s
/-- The power domain that the sequencer turns on as its k-th quarter (R375): D0Q0, D1Q0, D2Q0, D3Q0, D0Q1 and on. -/
def quarterAt (k : Nat) : Nat := 14 + 4 * (k % 4) + k / 4
/-- Whether every quarter of a die is on. -/
def dieOn (s : State) (d : Nat) : Bool := (List.range 4).all (fun q => domainOn s (14 + 4 * d + q))
/-- Whether every domain is on. -/
def fullyOn (s : State) : Bool := allDomains.all (domainOn s)
/-- A unit of a step is done and passed its self-test: its ready bits set. -/
def stepReady (n u : Nat) (s : State) : State :=
  match n with
  | 3 => setReady 1 s
  | 4 =>
    let s := setReady (2 + u) (putHp s u { getHp s u with link := true })
    if devReady s (2 + u) then ctlBringUp u s else s
  | 5 => setReady (8 + u) s
  | 6 => setReady 12 s
  | 7 => fabCoreReady (setReady 15 (setReady 14 (setReady 13 s)))
  | 9 => if portUp s u then setReady (32 + u) s else s
  | _ => s
/-- What a step does to the memories: clusters are zeroed in step 5, and the crema frames in step 6, which leaves every slot free and its
entry valid. -/
def stepWork (n u : Nat) (s : State) : State :=
  match n with
  | 5 => forAll ((List.range 16).map (16 * u + ·)) s zeroCluster
  | 6 => { s with pages := [], flips := [], badSlots := [], lost := [], mem := { s.mem with tensor := [] } }
  | _ => s
/-- The steps that the end of a step starts. DEDUCED: log 104. -/
def stepFollow (n : Nat) (s : State) : State :=
  match n with
  | 1 => stepBegin 2 s
  | 3 => if bootListen s then setPwrState 2 (stepBegin 4 s) else stepBegin 9 (stepBegin 7 (stepBegin 5 (stepBegin 4 s)))
  | 5 => if s.power.steps.any (fun k => k / 32 == 5) then s else stepBegin 6 s
  | _ => s
/-- The self-test of a unit of a step fails: its bits stay clear until the step runs again (R392). -/
def stepFail (n u : Nat) (s : State) : State :=
  raiseFault mgmtPage selftestFail none { s with power := { s.power with failed := (32 * n + u) :: s.power.failed } }
/-- A unit of a running step finishes its work; a failed self-test raises `SELFTEST_FAIL` and leaves its bits clear. DEDUCED: log 105. -/
def stepEnd (n u : Nat) (passed : Bool) (s : State) : State :=
  if n = 8 then
    (if passed then fabCoreReady { s with power := { s.power with failed := s.power.failed.filter (· != 256) } }
     else if fabCoreOpen s then stepFail 8 0 s else s)
  else if ¬ s.power.steps.contains (32 * n + u) ∨ (n = 5 ∧ ¬ dieOn s u) then s
  else
    let s := { s with power := { s.power with steps := s.power.steps.filter (· != 32 * n + u) } }
    let s := if passed then s else stepFail n u s
    if n = 2 then
      let r := rotBoot s
      if r.1 then stepBegin 3 (if passed then setReady 0 r.2 else r.2) else r.2
    else
      let s := stepWork n u s
      stepFollow n (if passed then stepReady n u s else s)
/-- The sequencer turns the next quarter on; with the last one a bring-up reaches ACTIVE. -/
def quarterOn (s : State) : State :=
  if ¬ s.power.steps.any (fun k => k / 32 == 5) then s
  else match (List.range 16).find? (fun k => !domainOn s (quarterAt k)) with
    | none => s
    | some k =>
      let s := domainsOn [quarterAt k] s
      if fullyOn s ∧ ¬ pwrBusy s then setPwrState 3 s else s

/-! ### Power moves (R379, R380, R381) -/

/-- Counts an ignored command of the management page. -/
def mgmtIgnore (s : State) : State := bump s (mgmtPage + 0x828)
/-- Whether every job tag is FREE. -/
def tagsFree (s : State) : Bool := s.jobs.all (fun j => j.2.st == .free)
/-- The domains that a move down to a state turns off, in their order. -/
def moveOff (target : Nat) : List Nat :=
  [6, 7, 8, 9, 4, 5] ++ ((List.range 16).map quarterAt).reverse ++ [10, 11, 12, 13] ++ (if target = 1 then [3, 2, 1] else [])
/-- A move down is accepted: BUSY, and the ready bits of what will turn off clear. For LISTEN the host ports that still train go on. -/
def moveDown (target : Nat) (s : State) : State :=
  let s := setReg s (mgmtPage + 0x100) (packWord [(63, 1), (8, target), (4, b2n (bootListen s)), (0, pwrState s)])
  let s := { s with power := { s.power with steps := if target = 2 then s.power.steps.filter (· < 160) else [] } }
  clearReady (readyBits.filter (fun i => (readyDomains i).any ((moveOff target).contains ·))) s
/-- A write to `PWR_CMD`. -/
def pwrCmd (op : Nat) (s : State) : State :=
  if ¬ s.power.pgood then s
  else if pwrBusy s then mgmtIgnore s
  else match op with
    | 1 =>
      if pwrState s = 2 then
        let s := setReg s (mgmtPage + 0x100) (packWord [(63, 1), (8, 3), (4, b2n (bootListen s)), (0, 2)])
        stepBegin 9 (stepBegin 7 (stepBegin 5 s))
      else mgmtIgnore s
    | 2 => if pwrState s = 3 ∧ tagsFree s then moveDown 2 s else mgmtIgnore s
    | 3 => if (pwrState s = 2 ∨ pwrState s = 3) ∧ tagsFree s then moveDown 1 s else mgmtIgnore s
    | _ => mgmtIgnore s
/-- An accepted WAKE_N acts: in STANDBY bring-up starts as after a reset, elsewhere the event WAKE is raised. -/
def wakeAct (s : State) : State :=
  if pwrState s = 1 then stepBegin 1 (setPwrState 0 s) else raiseEvent mgmtPage 1 s
/-- The order of R380: in each cycle of a move down the next domain of its list turns off. DESIGN CHOICE: log 158. -/
def moveStep (s : State) : State :=
  let target := regF s (mgmtPage + 0x100) 10 8
  if pwrBusy s && (target == 1 || target == 2) then
    (match (moveOff target).find? (domainOn s) with
     | some d => domainsOff [d] s
     | none => s)
  else s
/-- The last domain of a move is on or off: BUSY clears, STATE_DONE is raised, and a held WAKE_N acts. DEDUCED: log 103. -/
def moveDone (s : State) : State :=
  let target := regF s (mgmtPage + 0x100) 10 8
  if ¬ pwrBusy s ∨ (target = 3 ∧ ¬ fullyOn s) then s
  else
    let s := if target = 3 then s else domainsOff (moveOff target) s
    let s := setReg s (mgmtPage + 0x100) (packWord [(8, target), (4, b2n (bootListen s)), (0, target)])
    let s := bump (raiseEvent mgmtPage 0 s) (mgmtPage + 0x800)
    if s.power.wakeHeld then wakeAct { s with power := { s.power with wakeHeld := false } } else s

/-! ### Inputs (R387 to R391) -/

/-- The bit of an input in `IN_STATUS`; its stuck bit stands eight above. -/
def pinBit : InputPin → Nat
  | .wake => 0
  | .sync => 1
  | .tamper => 2
/-- Whether an input is masked as stuck. -/
def pinStuck (s : State) (p : InputPin) : Bool := wbit (reg s (mgmtPage + 0x120)) (8 + pinBit p)
/-- An assertion of an input is accepted: it acts, or merges with one not more than 50 AON cycles before it. A masked input acts as
deasserted. DEDUCED: log 106. -/
def pinAssert (p : InputPin) (act : State → State) (s : State) : State :=
  if ¬ awake s then s
  else
    let last := tblGet 0 s.power.lastIn (pinBit p)
    let merged := last ≠ 0 ∧ devTime s ≤ last - 1 + 50
    let s := setBit s (mgmtPage + 0x120) (pinBit p)
    if pinStuck s p then s
    else
      let s := { s with power := { s.power with lastIn := tblSet 0 s.power.lastIn (pinBit p) (devTime s + 1) } }
      if merged then bump s (mgmtPage + 0x810) else act s
/-- WAKE_N: during a move down it is held. -/
def wakeIn (s : State) : State :=
  let s := if awake s ∧ ¬ pinStuck s .wake then bump s (mgmtPage + 0x820) else s
  pinAssert .wake (fun s =>
    if pwrBusy s ∧ regF s (mgmtPage + 0x100) 10 8 < 3 then { s with power := { s.power with wakeHeld := true } } else wakeAct s) s
/-- SYNC_IN latches `DEV_TIME`. -/
def syncIn (s : State) : State :=
  pinAssert .sync (fun s => raiseEvent mgmtPage 2 (setReg s (mgmtPage + 0x130) (BitVec.ofNat 64 (devTime s % 2 ^ 48)))) s
/-- TAMPER_N raises security event 0. -/
def tamperIn (s : State) : State := pinAssert .tamper (secEvent 0 false) s
/-- The stuck timeout of an input in ms; TAMPER_N has none. -/
def stuckTmo (s : State) : InputPin → Nat
  | .wake => regF s (mgmtPage + 0x128) 15 0
  | .sync => regF s (mgmtPage + 0x128) 47 32
  | .tamper => 0
/-- An input that has been asserted for its timeout is declared stuck and masked. -/
def pinStick (p : InputPin) (s : State) : State :=
  if ¬ awake s ∨ stuckTmo s p = 0 ∨ pinStuck s p ∨ ¬ wbit (reg s (mgmtPage + 0x120)) (pinBit p) then s
  else bump (raiseFault mgmtPage 0x7005 none (setBit s (mgmtPage + 0x120) (8 + pinBit p))) (mgmtPage + 0x818)
/-- A stuck input that has been deasserted for 1 ms is unmasked. -/
def pinRearm (p : InputPin) (s : State) : State :=
  if ¬ pinStuck s p ∨ wbit (reg s (mgmtPage + 0x120)) (pinBit p) then s
  else raiseEvent mgmtPage 3 (setRegF s (mgmtPage + 0x120) (8 + pinBit p) (8 + pinBit p) 0)
/-- A deassertion of an input is accepted. -/
def pinDeassert (p : InputPin) (s : State) : State := setRegF s (mgmtPage + 0x120) (pinBit p) (pinBit p) 0
/-- A write to `SYNC_OUT_CMD`: SYNC_OUT is driven from the next AON edge, whose `DEV_TIME` is latched. -/
def syncOut (s : State) : State :=
  if ¬ s.power.pgood then s
  else if s.power.syncOut then mgmtIgnore s
  else setReg { s with power := { s.power with syncOut := true } } (mgmtPage + 0x140) (BitVec.ofNat 64 ((devTime s + 1) % 2 ^ 48))

/-- Whether clock domain k has a PLL that has started: its power is on. AON has none (R377). -/
def pllStarted (s : State) (k : Nat) : Bool := k != 0 && (allDomains.filter (domainOn s)).any (fun d => (domainClocks d).contains k)
/-- A PLL has not locked 1 ms after it started: its domain's ready bits stay clear until a device reset. -/
def pllFail (k : Nat) (s : State) : State :=
  if ¬ pllStarted s k then s else
  let bad := if s.power.pllBad.contains k then s.power.pllBad else k :: s.power.pllBad
  let s := runClocks { s with power := { s.power with pllBad := bad } }
  raiseFault mgmtPage 0x7006 none (clearReady (readyBits.filter (fun i => (readyClocks i).contains k)) s)

/-! ### The thermal monitor (R406) -/

/-- The page of a sensor: the spine of its die, else the management page. -/
def sensorPage (i : Nat) : Nat := if i < 64 then spineBase (i / 16) else if i < 68 then spineBase (i - 64) else mgmtPage
/-- A sample of the 76 sensors. DESIGN CHOICE: log 40. -/
def thermSample (temps : List Int) (s : State) : State :=
  if ¬ awake s then s
  else
    let h := hottest temps
    let lim := fun (hi lo : Nat) => ((regF s (mgmtPage + 0x230) hi lo : Nat) : Int)
    let warn := lim 7 0
    let s := setReg s (mgmtPage + 0x238) (packWord [(8, h.1), (0, tempByte h.2)])
    let s := if warn < h.2 then bump { s with power := { s.power with therm := true } } (mgmtPage + 0x860)
      else if h.2 < warn - 3 then { s with power := { s.power with therm := false } } else s
    let page := sensorPage h.1
    let s := monRaise thermMonCode page (decide (lim 15 8 < h.2)) id s
    let s := forAll ((mgmtPage :: (List.range 4).map spineBase).filter (· != page)) s (fun p => monRaise thermMonCode p false id)
    if lim 23 16 < h.2 then allOff s else s

/-! ### Input power (R433 to R436, R448) -/

/-- PWR_EN is asserted, or the input comes into range: with both the module brings AON up and drives PGOOD. -/
def pwrEnable (s : State) : State :=
  let s := { s with power := { s.power with pwrEn := true } }
  if s.power.pgood ∨ ¬ s.power.input then s
  else resetDevice { s with power := { s.power with pgood := true } }
/-- PWR_EN is deasserted: the device powers down to OFF. -/
def pwrDisable (s : State) : State := deviceOff { s with power := { s.power with pwrEn := false } }
/-- The input leaves its limits: UV or OV latches. DEDUCED: log 113. -/
def vinFault (high : Bool) (s : State) : State :=
  let s := { s with power := { s.power with input := false } }
  if ¬ s.power.pgood then s
  else bump (setBit (allOff s) (mgmtPage + 0x198) (if high then 62 else 63)) (mgmtPage + 0x868)
/-- The input falls below 35 V. -/
def vinCollapse (s : State) : State := deviceOff { s with power := { s.power with input := false } }
/-- The input is within 40 to 60 V: with PWR_EN asserted an OFF device powers up. DEDUCED: log 113. -/
def vinReturn (s : State) : State :=
  let s := { s with power := { s.power with input := true } }
  if s.power.pwrEn then pwrEnable s else s
/-- RESET_N is asserted (R390). UV, OV and FAULT_N stay up to the release, which completes the cycle that R434 and R448 ask for. -/
def resetAssert (s : State) : State :=
  if ¬ s.power.pgood then s
  else
    let t := resetDevice s
    setRegF { t with power := { t.power with faultPin := s.power.faultPin, cycled := s.power.faultPin } } (mgmtPage + 0x198) 63 62
      (regF s (mgmtPage + 0x198) 63 62)
/-- RESET_N is released: time 0 of bring-up, but after an input fault that struck while RESET_N was held, which asks for a further cycle. -/
def resetRelease (s : State) : State :=
  if ¬ s.power.pgood ∨ ¬ s.power.inReset then s
  else if s.power.faultPin ∧ ¬ s.power.cycled then { s with power := { s.power with inReset := false } }
  else
    let s := { s with power := { s.power with inReset := false, faultPin := false, cycled := false }, t0 := s.cycle }
    stepBegin 1 (setReg s (mgmtPage + 0x198) 0)

/-! ### Pins and telemetry (R356, R440, R441) -/

/-- ALERT_N is held low (R356, R440). -/
def alertPin (s : State) : Bool := s.power.pgood && s.alerts.held.any (fun p => wfld p.2 15 0 != 0)
/-- FAULT_N is held low (R356, R434, R440). -/
def faultPin (s : State) : Bool := s.power.pgood && (s.power.faultPin || s.alerts.held.any (fun p => wfld p.2 31 16 != 0))
/-- The refreshes of the telemetry values from a device reset up to a cycle: one every 1 ms (R441). -/
def refreshes (s : State) (n : Nat) : Nat := (n - s.t0) / 1_100_000
/-- A telemetry reading: zero up to the first refresh (DESIGN CHOICE, log 5). -/
def reading (s : State) (r : Nat) : BitVec 16 := if refreshes s s.cycle = 0 then 0 else Config.telemetry r (refreshes s s.cycle)
/-- VIN and IIN: their reset value up to the first refresh after a reset of the page (R448). -/
def vinReading (s : State) (r : Nat) : Nat := if refreshes s s.cycle = refreshes s s.power.softAt then 0 else (reading s r).toNat
/-- The merge count of a clock domain since the last reset of the management page (R386). -/
def mergeCount (s : State) (k : Nat) : Nat :=
  let since := max s.t0 s.power.softAt
  if 25 ≤ k then 0 else min 0xFFFF ((List.range (s.cycle - since)).map (fun n => Config.merges k (since + n))).sum
/-- The module's I3C address (R441). -/
def i3cAddress (s : State) : Nat := 0x50 + s.power.i3cAddr.toNat
/-- The telemetry bytes. -/
def i3cBytes (s : State) : List Byte :=
  let st := reg s (mgmtPage + 0x100)
  let vin := reg s (mgmtPage + 0x198)
  leBytes 2 0x1040 ++ leBytes 2 (reading s 2).toNat ++ leBytes 2 (reading s 4).toNat ++ leBytes 2 (reading s 6).toNat
    ++ leBytes 1 (regF s (mgmtPage + 0x238) 7 0) ++ leBytes 1 (wfld st 2 0 + 8 * b2n (wbit st 63))
    ++ leBytes 1 (b2n s.power.therm + 2 * b2n (faultPin s) + 4 * b2n (alertPin s) + 8 * b2n (wbit vin 63) + 16 * b2n (wbit vin 62))
/-- A private read of n bytes from the pointer on; past the content bytes read zero. The module answers its own address while PGOOD is high. -/
def i3cRead (r : I3cRead) (s : State) : State :=
  let l := (i3cBytes s).drop s.power.i3cPtr.toNat
  if s.power.pgood ∧ r.addr = i3cAddress s then
    { s with power := { s.power with i3cOut := (l ++ List.replicate r.n 0).take r.n, i3cAck := true } }
  else { s with power := { s.power with i3cAck := false } }
/-- A private write: one byte sets the pointer, any other write is NACKed. -/
def i3cWrite (w : I3cWrite) (s : State) : State :=
  let nack := { s with power := { s.power with i3cAck := false } }
  if s.power.pgood ∧ w.addr = i3cAddress s then
    (match w.bytes with
     | [b] => { s with power := { s.power with i3cPtr := b, i3cAck := true } }
     | _ => nack)
  else nack

/-- A read of the management page (R393, R396, R411, R448). -/
def mgmtShow (s : State) (off : Nat) : Word :=
  let j := getJob s (BitVec.ofNat 12 (regF s (mgmtPage + 0x200) 11 0))
  if 0x160 ≤ off ∧ off < 0x198 then packWord ((List.range 4).map (fun i => (16 * i, mergeCount s ((off - 0x160) / 2 + i))))
  else match off with
  | 0x150 => BitVec.ofNat 64 (tblGet 0 s.power.rdyAt (regF s (mgmtPage + 0x148) 5 0) % 2 ^ 48)
  | 0x198 => packWord [(62, regF s (mgmtPage + 0x198) 63 62), (16, vinReading s 4), (0, vinReading s 2)]
  | 0x208 => packWord ((63, b2n j.inUse) :: (match j.window with
    | some w => [(62, b2n w.alarm), (0, w.opened.toNat)]
    | none => []))
  | 0x210 => (match j.window with
    | some w => w.first
    | none => 0)
  | 0x218 => (match j.window with
    | some w => packWord [(63, b2n w.held), (0, w.release.toNat)]
    | none => 0)
  | _ => reg s (mgmtPage + off)
/-- The monitors' registers accept only tolerances and limits in range (R411). -/
def monWrite (off : Nat) (v : Word) (plain : State → State) (s : State) : State :=
  let ok := if off = 0x228 then decide (5 ≤ wfld v 7 0) && decide (wfld v 7 0 ≤ 50) && decide (4 ≤ wfld v 39 32) && decide (wfld v 39 32 ≤ 20)
    else decide (wfld v 7 0 < wfld v 15 8) && decide (wfld v 15 8 < wfld v 23 16) && decide (wfld v 23 16 ≤ 120)
  if ok then plain s else mgmtIgnore s
/-- The management firmware, loaded again and verified, runs (R402): runs that wait at step 7 go on. -/
def mgmtReloaded (s : State) : State :=
  if ¬ s.power.mgmtDown then s
  else
    let v := mgmtVerify s
    if v.1 then
      forAll (List.range 64) (setReady 1 { v.2 with power := { v.2.power with mgmtDown := false } }) runWaitEnd
    else v.2

/-! ### Meanings -/

/-- ACTIVE (R380). -/
def execPwrActive (s : State) : Result := .next (pwrCmd 1 s)
/-- LISTEN (R380). -/
def execPwrListen (s : State) : Result := .next (pwrCmd 2 s)
/-- STANDBY (R380). -/
def execPwrStandby (s : State) : Result := .next (pwrCmd 3 s)
/-- POWER_MOVE_DONE (R380). -/
def execPowerMoveDone (s : State) : Result := .next (moveDone s)
/-- QUARTER_POWER_ON (R375). -/
def execQuarterPowerOn (s : State) : Result := .next (quarterOn s)
/-- WAKE (R381). -/
def execWake (s : State) : Result := .next (wakeIn s)
/-- SYNC (R391). -/
def execSync (s : State) : Result := .next (syncIn s)
/-- TAMPER (R425). -/
def execTamper (s : State) : Result := .next (tamperIn s)
/-- RESET_ASSERT (R390). -/
def execResetAssert (s : State) : Result :=
  .next (resetAssert s)
/-- RESET_RELEASE (R392): time 0 of bring-up. -/
def execResetRelease (s : State) : Result :=
  .next (resetRelease s)
/-- INPUT_STUCK (R389). -/
def execInputStuck (pin : InputPin) (s : State) : Result := .next (pinStick pin s)
/-- REARM (R389). -/
def execRearm (pin : InputPin) (s : State) : Result := .next (pinRearm pin s)
/-- INPUT_DEASSERT (R389). -/
def execInputDeassert (pin : InputPin) (s : State) : Result := .next (pinDeassert pin s)
/-- SYNC_OUT_CMD (R391). -/
def execSyncOutCmd (s : State) : Result := .next (syncOut s)
/-- SYNC_OUT_PULSE_END (R391). -/
def execSyncOutPulseEnd (s : State) : Result := .next { s with power := { s.power with syncOut := false } }
/-- PLL_LOCK (R377). -/
def execPllLock (domain : Nat) (s : State) : Result := onUnit (domain < 25) s (pllFail domain)
/-- PWR_EN_ASSERT (R435). -/
def execPwrEnAssert (s : State) : Result := .next (pwrEnable s)
/-- PWR_EN_DEASSERT (R436). -/
def execPwrEnDeassert (s : State) : Result := .next (pwrDisable s)
/-- VIN_FAULT (R434). -/
def execVinFault (high : Bool) (s : State) : Result := .next (vinFault high s)
/-- VIN_COLLAPSE (R434). -/
def execVinCollapse (s : State) : Result := .next (vinCollapse s)
/-- INPUT_POWER_RETURN (R433). -/
def execInputPowerReturn (s : State) : Result := .next (vinReturn s)
/-- THERM_SAMPLE (R406): one reading of each of the 76 sensors. -/
def execThermSample (temps : List Int) (s : State) : Result :=
  if temps.length = 76 then .next (thermSample temps s) else .fault .operandRange
/-- MGMT_RELOAD_DONE (R402). -/
def execMgmtReloadDone (s : State) : Result := .next (mgmtReloaded s)
/-- I3C_PRIVATE_WRITE (R441). -/
def execI3cPrivateWrite (w : I3cWrite) (s : State) : Result := .next (i3cWrite w s)
/-- I3C_PRIVATE_READ (R441). -/
def execI3cPrivateRead (r : I3cRead) (s : State) : Result := .next (i3cRead r s)
/-- BRING_UP_STEP_END (R392). -/
def execBringUpStepEnd (step unit : Nat) (passed : Bool) (s : State) : Result := .next (stepEnd step unit passed s)

end Sys2Proof.Machine
end

