-- ==== Sys2Proof/Machine/Registers.lean ====
section
/-! DEFINITION. An access to control space by one of its masters (R351, R352): which page it reaches, what refuses or blanks it (R368, R376,
R422), what a write does and what a read returns. -/

namespace Sys2Proof.Machine

/-! ### Which access reaches its page (R352, R368, R376, R422) -/

/-- The HOST_CLOSE bit of a page (R422). The bulk pages have none. -/
def closeBit : PageType → Option Nat
  | .mailbox => some 0
  | .mgmt | .roast => some 1
  | .device => some 2
  | .fabric | .fabPort | .optGroup | .laser | .install => some 3
  | .lease | .update | .numerics | .kv | .tier => some 4
  | .spine | .cluster | .dma | .carafe | .carWin | .phase | .tile => some 5
  | .host | .hostPort => some 6
  | .pour | .coll => some 7
  | .bulk => none
/-- Whether the policy closes a page to a master. -/
def closedTo (m : Master) (p : PageType) (s : State) : Bool :=
  match m with
  | .host _ => ((closeBit p).map (hostClosed s)).getD false
  | _ => false
/-- Whether a master reaches a page at all: a barista only the page of its cluster (R120, R352). -/
def masterReaches (m : Master) (p : PageType) (i : Nat) : Bool :=
  match m with
  | .barista c => p == .cluster && i / 16 == c
  | .baristaPart _ _ => false
  | _ => true
/-- Whether R368 blanks a page: its cluster quiesces, rinses or is stuck. DEDUCED: log 49. -/
def blanked (s : State) (p : PageType) (i : Nat) : Bool :=
  (p == .cluster || p == .dma || p == .carafe || p == .carWin || p == .phase || p == .tile) && cluBlocked s (i / 16)
/-- What becomes of an access: it is applied to a page, or it reads zero and is ignored in the state that counts it. -/
inductive Access64 where
  | apply (p : PageType) (i : Nat)
  | none (s : State)
/-- The page that an access reaches. `read` tells a read, which the header and the counters still answer while a page is blanked.
DESIGN CHOICE: log 38. -/
def ctlAccess (m : Master) (read : Bool) (addr : Nat) (s : State) : Access64 :=
  if addr % 8 ≠ 0 then .none s
  else match pageOf addr with
    | Option.none => .none (unmapped s)
    | some (p, i) =>
      let off := addr % 4096
      if ¬ masterReaches m p i ∨ closedTo m p s then .none s
      else if ¬ domainOn s (pageDomain p i) then .none (bump s (mgmtPage + 0x808))
      else if blanked s p i ∧ ¬ (read ∧ p ≠ .phase ∧ (off < 0x100 ∨ 0x800 ≤ off)) then .none (bump s (devicePage + 0x810))
      else .apply p i

/-! ### Writes to the hub pages -/

/-- Whether the mailbox runs a command. -/
def mbxBusyBit (s : State) : Bool := wbit (reg s (mailboxPage + 0x108)) 63
/-- A write to a register of the tier page (R300). -/
def tierWrite (off : Nat) (v : Word) (plain : State → State) (s : State) : State :=
  match off with
  | 0x118 => quotaWrite (BitVec.ofNat 12 (regF s (tierPage + 0x110) 11 0)) (wfld v 22 0) s
  | 0x130 => tierCmd v s
  | 0x140 => tierQuery (wfld v 47 0) s
  | _ => plain s
/-- A write to a register of the numerics page (R239). -/
def numWrite (off : Nat) (v : Word) (plain : State → State) (s : State) : State :=
  match off with
  | 0x100 => cenQuery (BitVec.ofNat 12 (wfld v 63 52)) (BitVec.ofNat 12 (wfld v 11 0)) (wbit v 12) s
  | 0x138 => cenCmd v s
  | 0x208 => lossIn v s
  | 0x210 => lossCfgWrite (BitVec.ofNat 12 (regF s (numericsPage + 0x200) 11 0)) v s
  | _ => plain s
/-- A write to a register of the lease page (R200). -/
def leaseWrite (off : Nat) (v : Word) (plain : State → State) (s : State) : State :=
  match off with
  | 0x108 => leaseQuery (BitVec.ofNat 12 (wfld v 63 52)) (BitVec.ofNat 24 (wfld v 23 0)) s
  | 0x128 => collTick (leaseCmd v s)
  | 0x140 => layoutQuery (BitVec.ofNat 12 (wfld v 63 52)) (wfld v 3 0) s
  | _ => plain s
/-- A write to a register of a pour page (R255). -/
def pourWrite (h off : Nat) (v : Word) (plain : State → State) (s : State) : State :=
  let q := regF s (pourPage h + 0x100) 5 0
  match off with
  | 0x108 => pqCfgWrite h q v s
  | 0x118 => pourPost h q (BitVec.ofNat 18 (wfld v 17 0)) s
  | 0x120 => pqCommand h q v s
  | _ => plain s
/-- A write to a register of the fabric page (R333): a change of the route tables resynchronises the sequences whose path changes (R317). -/
def fabricWrite (off : Nat) (v : Word) (plain : State → State) (s : State) : State :=
  if off = 0x100 then (if pageLocked s fabricPage then s else fabCoreReady (plain s))
  else if off = 0x128 then
    let tag := BitVec.ofNat 12 (regF s (fabricPage + 0x120) 11 0)
    putJob s tag { getJob s tag with jepoch := BitVec.ofNat 16 (wfld v 15 0) }
  else if off = 0x130 then pairQuery v s
  else if 0x180 ≤ off ∧ off < 0x600 then repath s (plain s)
  else plain s
/-- A write to a register of the installation page (R306). -/
def installWrite (off : Nat) (v : Word) (plain : State → State) (s : State) : State :=
  let busy := wbit (reg s (installPage + 0x108)) 63
  if off = 0x100 then (if wfld v 7 0 = 1 ∧ ¬ busy then instApply s else bump s (installPage + 0x808))
  else if 0x200 ≤ off ∧ off < 0x800 ∧ busy then bump s (installPage + 0x808)
  else plain s
/-- A write to a register of the host page (R337 to R350). -/
def hostWrite (mgmt : Bool) (off : Nat) (v : Word) (plain : State → State) (s : State) : State :=
  if (0x108 ≤ off ∧ off < 0x150) ∨ (0x188 ≤ off ∧ off < 0x1A8) then hostPut mgmt off v s else plain s
/-- A write to a register of the management page (R396, R411, R448). -/
def mgmtWrite (off : Nat) (v : Word) (plain : State → State) (s : State) : State :=
  match off with
  | 0x108 => pwrCmd (wfld v 7 0) s
  | 0x138 => syncOut s
  | 0x228 | 0x230 => monWrite off v plain s
  | _ => plain s
/-- A write to a register of the device page (R373). -/
def deviceWrite (off : Nat) (v : Word) (plain : State → State) (s : State) : State :=
  match off with
  | 0x1A8 => setReg s (devicePage + 0x1A8) v
  | 0x1B8 => jbCmd v s
  | _ => plain s
/-- A write to a register of the mailbox page (R419, R429). -/
def mailboxWrite (host : Bool) (off : Nat) (v : Word) (plain : State → State) (s : State) : State :=
  if off = 0x100 then mbxRun host (wfld v 7 0) (wfld v 31 16) s
  else if 0x200 ≤ off ∧ off < 0x800 ∧ mbxBusyBit s then bump s (mailboxPage + 0x820)
  else plain s
/-- A write to a register of a page, its header apart. -/
def pageWrite (m : Master) (p : PageType) (i base off : Nat) (v : Word) (s : State) : State :=
  let plain := fun (s : State) => match regRow p off with
    | some r => plainWrite base (base + off) r v s
    | none => s
  match p with
  | .device => deviceWrite off v plain s
  | .mailbox => mailboxWrite (m != .mgmt) off v plain s
  | .mgmt => mgmtWrite off v plain s
  | .install => installWrite off v plain s
  | .roast => if off = 0x100 then roastQuery (BitVec.ofNat 12 (wfld v 63 52)) (BitVec.ofNat 48 (wfld v 47 0)) s else plain s
  | .host => hostWrite (m == .mgmt) off v plain s
  | .hostPort => if off = 0x110 then pfcLevel i v s else plain s
  | .fabric => fabricWrite off v plain s
  | .fabPort => if off = 0x100 then repath s (portConfig i (v &&& BitVec.ofNat 64 (bits 63 63 + bits 49 48 + bits 35 32 + bits 15 0)) s) else plain s
  | .pour => pourWrite i off v plain s
  | .lease => leaseWrite off v plain s
  | .update => if off = 0x108 then updPolicy (BitVec.ofNat 12 (regF s (updatePage + 0x100) 11 0)) v s else plain s
  | .numerics => numWrite off v plain s
  | .kv => if off = 0x100 then kvRingQuery (BitVec.ofNat 12 (wfld v 63 52)) s else plain s
  | .tier => tierWrite off v plain s
  | .optGroup | .laser | .bulk | .coll | .spine => plain s
  | .cluster | .dma | .carafe | .carWin | .phase | .tile => dieWrite p i base off v s
/-- A write to a header register (R353 to R357). The mailbox page ignores the enables, the lock and injections (R429). -/
def headerWrite (p : PageType) (i base off : Nat) (v : Word) (s : State) : State :=
  if p = .mailbox ∧ (off = 0x010 ∨ off = 0x040 ∨ off = 0x060) then s
  else if off = 0x040 then errInject p i base v s
  else headWrite p i base off v s
/-- Whether a write reaches the `BLK_CTRL` of a page that is blanked: its CLK_REQ field takes effect (R355, R368). -/
def clkReaches (m : Master) (addr : Nat) (s : State) : Bool :=
  match pageOf addr with
  | some (p, i) => addr % 4096 == 0x010 && p != .phase && blanked s p i && masterReaches m p i && !closedTo m p s && domainOn s (pageDomain p i)
  | none => false
/-- A write to control space. DEDUCED: log 42. -/
def ctlWrite (m : Master) (addr : Nat) (v : Word) (s : State) : State :=
  match ctlAccess m false addr s with
  | .none t => if clkReaches m addr s then clkRequest (addr - 0x010) v t else t
  | .apply p i =>
    let off := addr % 4096
    let base := addr - off
    if p ≠ .phase ∧ off < 0x100 then headerWrite p i base off v s else pageWrite m p i base off v s

/-! ### Reads -/

/-- A read of the update page's registers of the selected job (R221). -/
def updateShow (s : State) (off : Nat) : Word :=
  let j := getJob s (BitVec.ofNat 12 (regF s (updatePage + 0x100) 11 0))
  match off with
  | 0x108 => j.policy.setWidth 64
  | 0x110 => j.stepLast
  | 0x118 => j.origin
  | 0x120 => j.mismatch
  | _ => reg s (updatePage + off)
/-- A read of the numerics page (R239): the loss record and the noise statistics of the selection. A tag that is not BOUND has no loss record
(R232), and shows zeros. -/
def numShow (s : State) (off : Nat) : Word :=
  let j := getJob s (BitVec.ofNat 12 (regF s (numericsPage + 0x200) 11 0))
  let l := if j.inUse then j.loss else { LossRec.reset with cfg := 0 }
  let sel := regF s (numericsPage + 0x300) 17 0
  let n := tblGet NoiseRec.reset (getJob s (BitVec.ofNat 12 sel)).noise (sel / 4096)
  match off with
  | 0x210 => l.cfg
  | 0x218 => l.mean
  | 0x220 => l.var
  | 0x228 => packWord [(63, b2n l.spike), (62, b2n l.nonfin), (0, (l.last.map (·.toNat)).getD 0)]
  | 0x230 => l.spikeStep.setWidth 64
  | 0x308 => n.sl
  | 0x310 => n.sr
  | 0x318 => n.bn
  | 0x320 => n.info
  | 0x328 => n.step.setWidth 64
  | _ => reg s (numericsPage + off)
/-- A read of the tier page (R300). -/
def tierShow (s : State) (off : Nat) : Word :=
  let tag := BitVec.ofNat 12 (regF s (tierPage + 0x110) 11 0)
  match off with
  | 0x118 => BitVec.ofNat 64 (jobQuota s tag)
  | 0x120 => packWord [(23, jobPinned s tag), (0, jobUse s tag)]
  | _ => reg s (tierPage + off)
/-- A read of a pour page (R255). -/
def pourShow (s : State) (h off : Nat) : Word :=
  let p := getPq s h (regF s (pourPage h + 0x100) 5 0)
  match off with
  | 0x108 => p.cfg
  | 0x110 => pqStatus p
  | 0x128 => p.fault
  | _ => reg s (pourPage h + off)
/-- A read of a register of a page, header and counters apart. -/
def pageShow (s : State) (p : PageType) (i base off : Nat) : Word :=
  match p with
  | .device => deviceShow s off
  | .mailbox => mailboxShow s off
  | .mgmt => mgmtShow s off
  | .host => if (0x108 ≤ off ∧ off < 0x150) ∨ (0x188 ≤ off ∧ off < 0x1A8) then hostShow s off else reg s (base + off)
  | .hostPort => if off = 0x100 then packWord [(1, b2n (hostBusy s i)), (0, b2n (linkUp s i))] else reg s (base + off)
  | .fabric => if off = 0x128 then (jobEpoch s (BitVec.ofNat 12 (regF s (fabricPage + 0x120) 11 0))).setWidth 64 else reg s (base + off)
  | .fabPort => if off = 0x108 then portStatus s i else reg s (base + off)
  | .pour => pourShow s i off
  | .coll => if off = 0x110 then collStatus s i else reg s (base + off)
  | .update => updateShow s off
  | .numerics => numShow s off
  | .tier => tierShow s off
  | .install | .roast | .optGroup | .laser | .bulk | .lease | .kv | .spine => reg s (base + off)
  | .cluster | .dma | .carafe | .carWin | .phase | .tile => dieShow s p i base off
/-- Whether a master is a barista. -/
def isBarista : Master → Bool
  | .barista _ => true
  | _ => false
/-- HIDE_KEY (R422): window keys and `FAB_AMO_CTL.KEY` read as zero, but to the barista. -/
def hidden (m : Master) (s : State) (p : PageType) (off : Nat) (v : Word) : Word :=
  let key := match p with
    | .carWin => 0x110 ≤ off && (off - 0x110) % 24 == 0
    | .tile => 0x250 ≤ off && off < 0x3D0 && (off - 0x250) % 24 == 0
    | .cluster => off == 0x648
    | _ => false
  if key && !isBarista m && hideKey s then v &&& ~~~ BitVec.ofNat 64 (bits 23 0) else v
/-- A read of control space. A write-only register reads zero, and so does an offset without a register (R5, R6). -/
def ctlRead (m : Master) (addr : Nat) (s : State) : Word × State :=
  match ctlAccess m true addr s with
  | .none s => (0, s)
  | .apply p i =>
    let off := addr % 4096
    let base := addr - off
    match regRow p off with
    | none => (0, s)
    | some r =>
      if r.acc = .wo then (0, s)
      else if p = .phase then (reg s addr, s)
      else if off < 0x100 then (headShow s p i base off, s)
      else if 0x800 ≤ off then (counterShow s addr, s)
      else (hidden m s p off (pageShow s p i base off), s)

/-! ### The barista's address space (R120) -/

/-- The range of a barista's address space that an address lies in, and the offset there. -/
inductive BarRange where
  | sram (off : Nat)
  | cmd
  | cause
  | counter (n : Nat)
  | page (off : Nat)
  | outside
/-- The range of the n bytes from an address on (R120). -/
def barRange (a n : Nat) : BarRange :=
  if a + n ≤ 0x2_0000 then .sram a
  else if 0x10_0000 ≤ a ∧ a + n ≤ 0x10_0008 then .cmd
  else if 0x10_0008 ≤ a ∧ a + n ≤ 0x10_0010 then .cause
  else if 0x11_0000 ≤ a ∧ a + n ≤ 0x11_0200 then .counter ((a - 0x11_0000) / 8)
  else if 0x12_0000 ≤ a ∧ a + n ≤ 0x12_1000 then .page (a - 0x12_0000)
  else .outside
/-- Whether a barista's accesses reach anything: its pair is not held in reset (R402) and its domain is on (R376). -/
def baristaRuns (c : Nat) (s : State) : Bool := decide (c < 64) && !(getClu s c).barReset && domainOn s (cluDomain c)
/-- A store of n bytes by a barista (R120). Of a cluster that quiesces or rinses the SRAM and the command port refuse it (R368). The ports and the
cluster page take only 64 bits. DESIGN CHOICE: log 156. -/
def baristaStore (c a n : Nat) (v : Word) (s : State) : State :=
  if ¬ baristaRuns c s then s
  else match barRange a n with
    | .sram off =>
      if cluBlocked s c then rinseCount 0x2006 s else { s with mem := { s.mem with bar := memSetNat s.mem.bar (barAt c off) n v.toNat } }
    | .cmd => if cluBlocked s c then rinseCount 0x2006 s else if n = 8 then walkerCmd c v s else s
    | .cause => s
    | .counter k => workCounter c .store k v s
    | .page off => if n = 8 then ctlWrite (.barista c) (clusterBase c + off) v s else s
    | .outside => barFault c true s
/-- A load of n bytes by a barista (R120), zero-extended; of a cluster that quiesces or rinses it is refused and reads zero (R368, R371). -/
def baristaLoad (c a n : Nat) (s : State) : Word × State :=
  if ¬ baristaRuns c s then (0, s)
  else match barRange a n with
    | .sram off => if cluBlocked s c then (0, rinseCount 0x2006 s) else (BitVec.ofNat 64 (memNat s.mem.bar (barAt c off) n), s)
    | .cmd => (0, s)
    | .cause => if cluBlocked s c then (0, rinseCount 0x2006 s) else (if n = 8 then (getClu s c).barCause.setWidth 64 else 0, s)
    | .counter k => (0, workCounter c .load k 0 s)
    | .page off => if n = 8 then ctlRead (.barista c) (clusterBase c + off) s else (0, s)
    | .outside => (0, barFault c false s)
/-- A write of one of the masters of R352, each in its own address space. -/
def masterWrite (m : Master) (a : Nat) (v : Word) (s : State) : State :=
  match m with
  | .barista c => baristaStore c a 8 v s
  | .baristaPart c k => baristaStore c a (2 ^ k.toNat) v s
  | _ => ctlWrite m a v s
/-- A read of one of the masters. -/
def masterRead (m : Master) (a : Nat) (s : State) : Word × State :=
  match m with
  | .barista c => baristaLoad c a 8 s
  | .baristaPart c k => baristaLoad c a (2 ^ k.toNat) s
  | _ => ctlRead m a s

/-! ### Meanings -/

/-- A write by the management core to a header register of a page; a page number that names none is an unmapped access (R351), and a
phase table has no header. DEDUCED: log 41. -/
def headCommand (page : BitVec 14) (off : Nat) (v : Word) (s : State) : State :=
  match pageOf (4096 * page.toNat) with
  | some (.phase, _) => s
  | _ => ctlWrite .mgmt (4096 * page.toNat + off) v s
/-- Whether a page number names a page with a header (R353). -/
def hasHeader (page : BitVec 14) : Bool :=
  match pageOf (4096 * page.toNat) with
  | some (p, _) => p != .phase
  | none => false
/-- A command on the header of a page: the write of one of its registers. -/
def onHeader (page : BitVec 14) (off : Nat) (v : Word) (s : State) : Result := .next (headCommand page off v s)

/-- SOFT_RESET (R355): a write of `BLK_CTRL` with SOFT_RESET and the reset value of the other fields. -/
def execSoftReset (page : BitVec 14) (s : State) : Result := onHeader page 0x010 9 s
/-- ERR_STATUS_CLEAR (R356). -/
def execErrStatusClear (page : BitVec 14) (v : BitVec 64) (s : State) : Result := onHeader page 0x028 v s
/-- ERR_INJECT (R410). -/
def execErrInject (page : BitVec 14) (v : BitVec 64) (s : State) : Result := onHeader page 0x040 v s
/-- BLK_LOCK (R5). -/
def execBlkLock (page : BitVec 14) (s : State) : Result := onHeader page 0x060 1 s
/-- CTR_SNAP (R357). -/
def execCtrSnap (page : BitVec 14) (hold : Bool) (s : State) : Result := onHeader page 0x080 (BitVec.ofNat 64 (b2n hold)) s
/-- REGISTER_WRITE (R5). -/
def execRegisterWrite (m : Master) (addr : BitVec 26) (v : BitVec 64) (s : State) : Result := .next (masterWrite m addr.toNat v s)

end Sys2Proof.Machine
end

