-- ==== Sys2Proof/Machine/HostPackets.lean ====
section
/-! DEFINITION. Frames and packets at the host ports: what a frame is (R334, R335, R345), the order of a queue pair's packets (R341, R342), the
control window (R344), and the time bounds of waiting writes (R280, R281). -/

namespace Sys2Proof.Machine

/-! ### The control window (R344) -/

/-- Whether a control QP serves a request: a single-packet WRITE or a READ of whole words of one 4 KiB page under the window's key. -/
def windowOk (s : State) (op : HostOp) (p : Packet) : Bool :=
  (op == .read || (op == .write && p.first && p.last && p.data.length == p.len)) && p.rkey.toNat == cwKey s
    && p.va.toNat % 8 == 0 && p.len % 8 == 0 && decide (p.va.toNat % 4096 + p.len ≤ 4096)
/-- The words of a request, as (address, value) pairs. -/
def windowWords (p : Packet) : List (Nat × Word) :=
  (List.range (p.len / 8)).map (fun i => (p.va.toNat + 8 * i, BitVec.ofNat 64 (leNat ((p.data.drop (8 * i)).take 8))))
/-- A request on a control QP: its words are applied in increasing address order. -/
def windowServe (q : Nat) (op : HostOp) (p : Packet) (dup : Bool) (s : State) : State :=
  if ¬ windowOk s op p then hostNak q p .nakAccess 7 0 s
  else
    let s := if dup then s else putQp s q { getQp s q with expPsn := p.psn + 1 }
    if op = .write then
      hostAnswer q p p.psn .ack (forAll (windowWords p) s (fun w s => ctlWrite (.host p.port) w.1 w.2 s))
    else
      let r := (windowWords p).foldl (fun (a : List Byte × State) w =>
        let e := ctlRead (.host p.port) w.1 a.2
        (a.1 ++ leBytes 8 e.1.toNat, e.2)) ([], s)
      hostAnswer q p p.psn (.readData r.1) r.2

/-! ### The packets of a queue pair (R340 to R343, R347) -/

/-- Whether a queue pair accepts requests: RTR or RTS. -/
def qpAccepts (x : QP) : Bool := qpSt x == 2 || qpSt x == 3
/-- How far a PSN lies ahead of the expected one, modulo 2^24. -/
def psnAhead (x : QP) (p : Packet) : Nat := (p.psn - x.expPsn).toNat
/-- A packet whose turn it is. -/
def hostProcess (q : Nat) (op : HostOp) (p : Packet) (s : State) : State :=
  let x := getQp s q
  let d := psnAhead x p
  if ¬ qpAccepts x then hostDrop p.port s
  else if 0 < d ∧ d < 2 ^ 23 then
    (if x.nakSent then s else hostAnswer q p x.expPsn .nakSequence (putQp s q { x with nakSent := true }))
  else
    let dup : Bool := d != 0
    let s := if dup then s else putQp s q { x with nakSent := false }
    if qpCtl q then (if dup && op != .read then hostDuplicate q op p s else windowServe q op p dup s)
    else if 2 ≤ s.rot.level.toNat then hostRnr q p 20 16 s
    else if dup && op != .read then hostDuplicate q op p s
    else hostData q op p dup s
/-- The bytes of a packet leave the receive buffer. -/
def packetDone (p : Packet) (s : State) : State := hostDrain p.port p.cls.toNat p.bytes s
/-- Whether every byte that a queue pair writes has landed. -/
def qpLanded (s : State) (q : Nat) : Bool := (writesOf s (.host q)).isEmpty
/-- A queue pair goes on while it can: the request that waited for its bytes ends, then its next packet has its turn; `fuel` bounds the
packets. -/
def qpRun (q : Nat) : Nat → State → State
  | 0, s => s
  | f + 1, s =>
    let x := getQp s q
    match x.due with
    | some (op, p, ta) =>
      if ¬ qpLanded s q then s
      else
        let s := hostFinish q op p ta s
        qpRun q f (if (getQp s q).due.isSome then s else packetDone p s)
    | none => match x.queue with
      | [] => s
      | (op, p) :: r =>
        let s := hostProcess q op p (putQp s q { x with queue := r })
        qpRun q f (if (getQp s q).due.isSome then s else packetDone p s)
/-- A queue pair goes on. -/
def qpSettle (q : Nat) (s : State) : State := qpRun q (2 * (getQp s q).queue.length + 2) s

/-- STATE of a queue pair as a request sees it: before the context writes of the present cycle (R10, R337). DEDUCED: log 165. -/
def qpSeen (s : State) (x : QP) : Nat :=
  match x.was with
  | some (t, old) => if t = s.cycle then old else qpSt x
  | none => qpSt x
/-- A request of the cycle in which its queue pair was written to RESET or ERROR is taken under the old STATE, and given up with the rest. -/
def qpUnder (q : Nat) (f : State → State) (s : State) : State :=
  let x := getQp s q
  let new := qpSt x
  if qpSeen s x = new ∨ qpAccepts x then f s
  else
    let s := f (putQp s q (qpWith x (qpSeen s x)))
    qpClear q (putQp s q (qpWith (getQp s q) new))

/-- A request packet arrives (R336, R340, R345, R346). DEDUCED: log 95. -/
def packetArrive (op : HostOp) (p : Packet) (s : State) : State :=
  let op := if p.immediate then .bad else op
  if ¬ linkUp s p.port then s
  else match qpOf p.qp with
    | none => hostDrop p.port s
    | some q =>
      let full := decide (2 ^ 24 < (getHp s p.port).occ + p.bytes)
      let accepts := [2, 3].contains (qpSeen s (getQp s q))
      if full || !accepts || qpPort s q != p.port then hostDrop p.port s
      else
        let s := hostFill p.port p.cls.toNat p.bytes (hostCe q p s)
        qpUnder q (fun s => qpSettle q (putQp s q { getQp s q with queue := (getQp s q).queue ++ [(op, p)] })) s

/-! ### Frames (R334 to R336, R345) -/

/-- The operation of an RC opcode of the base transport header. -/
def opOf (code : Nat) : HostOp :=
  if code ≤ 2 ∨ code = 4 then .send
  else if (6 ≤ code ∧ code ≤ 8) ∨ code = 0xA then .write
  else if code = 0xC then .read
  else if code = 0x13 then .cas
  else if code = 0x14 then .faa
  else .bad
/-- The traffic class of a frame (R335). -/
def frameClass (s : State) (port : Nat) (f : Frame) : BitVec 3 :=
  match f.pcp with
  | some c => c
  | none =>
    let d := f.dscp.toNat
    BitVec.ofNat 3 (regF s (hostPortPage port + 0x120 + 8 * (d / 8)) (4 * (d % 8) + 2) (4 * (d % 8)))
/-- The partner pauses classes, or with zero quanta lets them go on. -/
def pauseClasses (port : Nat) (classes : BitVec 8) (quanta : List Nat) (s : State) : State :=
  forAll ((List.range 8).filter (fun c => classes.getLsbD c)) s (fun c s =>
    if nth 0 quanta c = 0 then hostUnpause port c s
    else
      let h := getHp s port
      putHp s port { h with paused := tblSet 0 h.paused c (nth 0 quanta c) })
/-- A frame that is served at once passes through the receive buffer of its port; at a full buffer it is dropped and counted (R345). -/
def throughBuffer (port cls n : Nat) (f : State → State) (s : State) : State :=
  if 2 ^ 24 < (getHp s port).occ + n then hostDrop port s else hostDrain port cls n (f (hostFill port cls n s))
/-- A frame that passes the MAC: the transport opcodes from 0x20 on belong to UC, UD and XRC (R336). DESIGN CHOICE: log 96. -/
def frameServe (port : Nat) (f : Frame) (s : State) : State :=
  match f.kind with
  | .request p code =>
    if p.qp = 1 ∨ ¬ f.icrcOk ∨ 0x20 ≤ code then hostDrop port s
    else packetArrive (opOf code) { p with port := port, cls := frameClass s port f, bytes := f.len } s
  | .cnp qp =>
    throughBuffer port (frameClass s port f).toNat f.len (fun s =>
      if ¬ f.icrcOk then hostDrop port s
      else match qpOf qp with
        | some q => if qpPort s q = port then cnpArrive q s else hostDrop port s
        | none => hostDrop port s) s
  | .mad m =>
    let cls := frameClass s port f
    throughBuffer port cls.toNat f.len (fun s => if f.icrcOk then cmTake port cls m s else hostDrop port s) s
  | .pfc classes quanta => pauseClasses port classes quanta s
  | .pause | .unsupported => hostDrop port s
/-- A frame arrives at a port whose link is up. -/
def frameArrive (port : Nat) (f : Frame) (s : State) : State :=
  if ¬ linkUp s port then s
  else
    let s := bump s (hostPortPage port + 0x800)
    let mac : Bool := match f.kind with
      | .pfc _ _ => false
      | _ => f.fragment || f.multicast
    if 9216 < f.len ∨ ¬ f.fcsOk ∨ mac then hostDrop port s else frameServe port f s

/-! ### Time (R280, R281) -/

/-- `TIER_PROMOTE_TMO` has passed for a waiting write. -/
def writeLate (s : State) (w : TWrite) : Bool :=
  decide (w.since + usCycles (regF s (tierPage + 0x108) 31 0) ≤ s.cycle)
/-- A waiting write of a queue pair, an update run or another unit has waited too long: it fails and releases its hold. -/
def writeExpire (w : TWrite) (s : State) : State :=
  if ¬ s.writes.contains w then s
  else
    let s := tierFault 0x3007 w.addr s
    match w.owner with
    | .ring _ _ _ => s
    | .host q => (match (getQp s q).due with
      | some (_, p, _) =>
        let s := dropWrites (.host q) s
        packetDone p (hostTierNak q p 0x3007 (putQp s q { getQp s q with due := none }))
      | none => dropWrites (.host q) s)
    | .run c => (match (getClu s c).run with
      | some r => runRefuse c r.tag r.shard r.step 0x3007 0 s
      | none => dropWrites (.run c) s)
    | .commit _ _ | .unit =>
      let s := { s with writes := s.writes.filter (· != w) }
      if w.held then giveHold w.page s else s
/-- The waiting writes of the accessors but the rings, whose bounds have rows of their own: holds are tried again every microsecond, and a
write that has waited too long fails. -/
def writeTimers (s : State) : State :=
  let s := if s.cycle % usCycles 1 = 0 then retryHolds (fun w => !ringWrite w) s else s
  forAll (s.writes.filter (fun w => !ringWrite w && writeLate s w)) s writeExpire
/-- Every queue pair goes on. -/
def hostTick (s : State) : State := forAll (tblKeys s.qps) (writeTimers s) qpSettle

/-! ### Meanings -/

/-- A packet row on one of the four ports. -/
def onPort (op : HostOp) (p : Packet) (s : State) : Result :=
  onUnit (p.port < 4) s (packetArrive op p)
/-- HOST_FRAME (R334). -/
def execHostFrame (port : BitVec 2) (f : Frame) (s : State) : Result := .next (frameArrive port.toNat f s)
/-- RC_SEND (R343). -/
def execRcSend (p : Packet) (s : State) : Result := onPort .send p s
/-- RDMA_WRITE (R341). -/
def execRdmaWrite (p : Packet) (s : State) : Result := onPort .write p s
/-- RDMA_READ (R341). -/
def execRdmaRead (p : Packet) (s : State) : Result := onPort .read p s
/-- COMPARE_SWAP (R341). -/
def execCompareSwap (p : Packet) (s : State) : Result := onPort .cas p s
/-- FETCH_ADD (R341). -/
def execFetchAdd (p : Packet) (s : State) : Result := onPort .faa p s

end Sys2Proof.Machine
end

