-- ==== Sys2Proof/Machine/Clock.lean ====
section
/-! DEFINITION. One CORE cycle in which no command arrives: the edge that ends the present cycle, and what the clock alone does. -/

namespace Sys2Proof.Machine

/-- One CORE cycle of a cluster: its cycle counter while it is bound (R125), and the waits and moves of its walker (R112, R122). -/
def cluTick (c : Nat) (s : State) : State :=
  let s := walkerMove c (walkerTick c s)
  if (cluTag s c).isSome then bump s (clusterBase c + 0x800) else s
/-- `VEC_BUSY_CNT` (R157) counts a cycle in which the vector engine of a tile holds a started instruction. -/
def vecTick (t : Nat) (s : State) : State :=
  if (getTile s t).vq.any (fun e => match e.started with | some st => decide (st ≤ s.cycle) && decide (s.cycle ≤ e.last) | none => false) then
    bump s (tileBase t + 0x860)
  else s
/-- The end of a cycle in a tile: it takes part in a phase up to the edge of the cycle in which the phase ends or stops (R119), a block that
ended or was abandoned is gone (R48), and the work-counter results of the cycle are written (R95). -/
def partEnd (t : Nat) (s : State) : State :=
  let x := getTile s t
  wfaEdge t (putTile s t { x with past := none, part := x.part && (getWalker s (t / 16)).st == .running })

/-- The edge that ends the present cycle in every tile, carafe and cluster (R10): the accesses of the cycle in each vector engine, the work of
each matrix engine, the ordinals of the blocks issued, the words that leave each node, the conflicts in each carafe, the rows that land in
the banks, and the walker commands of control space (R41, R88, R121, R139, R161, R165, R223, R453). -/
def unitEdge (s : State) : State :=
  let tiles := tblKeys s.tiles
  let uses := ((tiles.map (· / 16)).eraseDups).map (fun c => (c, carUses s c))
  let s := forAll tiles s cupPick
  let s := forAll tiles s (fun t s => netEdge t (matEdge t (vecEdge t s)))
  let s := forAll uses s (fun u => carEdge u.1 u.2)
  let s := forAll (tblKeys s.tiles) s (fun t => storeEdge (.sp t))
  let s := forAll (tblKeys s.clusters) s (fun c => storeEdge (.car c))
  let s := forAll (tblKeys s.clusters) (amoSettle s) phaseCmdEdge
  forAll (tblKeys s.tiles) s (fun t s => partEnd t (vecTick t s))
/-- The status records of pour requests that are over leave where every row they wrote has landed (R244). -/
def pourTick (s : State) : State := forAll (tblKeys s.pour) s (fun k => pourStatus (k / 64) (k % 64))
/-- The next cycle begins: what the units see in it is what the edges before it left (R10), and a free vector engine starts its next
instruction (R139). -/
def cycleBegin (s : State) : State :=
  let s := refresh s
  forAll (tblKeys s.tiles) s vecHead

/-- One CORE cycle of the device: the edge of the present cycle, then counters, evictions that wait (R281), collectives and leases (R190,
R331), bindings that wait for frames (R367), queue pairs and waiting writes (R280, R341), a debug unlock whose rinses have ended (R424), and the
domains that a move down turns off (R380). -/
def tick (s : State) : State :=
  let s := unitEdge s
  let s := { s with cycle := s.cycle + 1 }
  let s := forAll (List.range 64) s cluTick
  cycleBegin (moveStep (unlockGo (hostTick (bindRetries (collTick (pourTick (tierTick s)))))))

end Sys2Proof.Machine
end

