-- ==== Sys2Proof/Machine/Dispatch.lean ====
section
/-! DEFINITION. The dispatch of the commands: one arm per row of spec/opcode_table.json, in the table's order. -/

namespace Sys2Proof.Machine

/-- The effect of a command on everything but the queue. -/
def exec (i : Instr) (s : State) : Host.Outcome State Fault Refusal :=
  match i with
  | .bundleIssue c => Sys2Proof.Machine.execBundleIssue c s
  | .seqNop t => Sys2Proof.Machine.execSeqNop t s
  | .loop t n l => Sys2Proof.Machine.execLoop t n l s
  | .cset t n imm => Sys2Proof.Machine.execCset t n imm s
  | .cadd t n imm => Sys2Proof.Machine.execCadd t n imm s
  | .ctx t k => Sys2Proof.Machine.execCtx t k s
  | .phaseEnd t => Sys2Proof.Machine.execPhaseEnd t s
  | .block t a => Sys2Proof.Machine.execBlock t a s
  | .statReset t bank => Sys2Proof.Machine.execStatReset t bank s
  | .matrixNop t => Sys2Proof.Machine.execMatrixNop t s
  | .matChunkTake t => Sys2Proof.Machine.execMatChunkTake t s
  | .abftCompare t => Sys2Proof.Machine.execAbftCompare t s
  | .readRow t port route row => Sys2Proof.Machine.execReadRow t port route row s
  | .writeRow t port row => Sys2Proof.Machine.execWriteRow t port row s
  | .readThroughGenerator t port route gen => Sys2Proof.Machine.execReadThroughGenerator t port route gen s
  | .portReadDeliver t => Sys2Proof.Machine.execPortReadDeliver t s
  | .takeMs t => Sys2Proof.Machine.execTakeMs t s
  | .takeSs t => Sys2Proof.Machine.execTakeSs t s
  | .drop t => Sys2Proof.Machine.execDrop t s
  | .scalarSendC t n => Sys2Proof.Machine.execScalarSendC t n s
  | .scalarTakeC t n => Sys2Proof.Machine.execScalarTakeC t n s
  | .putSum t => Sys2Proof.Machine.execPutSum t s
  | .wfa t n => Sys2Proof.Machine.execWfa t n s
  | .wfaResult t => Sys2Proof.Machine.execWfaResult t s
  | .sendSv t => Sys2Proof.Machine.execSendSv t s
  | .sendI t imm => Sys2Proof.Machine.execSendI t imm s
  | .controlSendC t n => Sys2Proof.Machine.execControlSendC t n s
  | .controlTakeC t n => Sys2Proof.Machine.execControlTakeC t n s
  | .netWordArrive t net inp w => Sys2Proof.Machine.execNetWordArrive t net inp w s
  | .steerTokenArrive t k u token seq => Sys2Proof.Machine.execSteerTokenArrive t k u token seq s
  | .steerDataWord t k u inputB w => Sys2Proof.Machine.execSteerDataWord t k u inputB w s
  | .steerTokenExpired t k u => Sys2Proof.Machine.execSteerTokenExpired t k u s
  | .vecAdd t a => Sys2Proof.Machine.execVecAdd t a s
  | .vecSub t a => Sys2Proof.Machine.execVecSub t a s
  | .vecMul t a => Sys2Proof.Machine.execVecMul t a s
  | .vecFma t a => Sys2Proof.Machine.execVecFma t a s
  | .vecMin t a => Sys2Proof.Machine.execVecMin t a s
  | .vecMax t a => Sys2Proof.Machine.execVecMax t a s
  | .vecAbs t a => Sys2Proof.Machine.execVecAbs t a s
  | .vecSign t a => Sys2Proof.Machine.execVecSign t a s
  | .vecCmp t a => Sys2Proof.Machine.execVecCmp t a s
  | .vecSel t a => Sys2Proof.Machine.execVecSel t a s
  | .vecCvt t a => Sys2Proof.Machine.execVecCvt t a s
  | .vecMlog t a => Sys2Proof.Machine.execVecMlog t a s
  | .vecSfu t a => Sys2Proof.Machine.execVecSfu t a s
  | .vecRsum t a => Sys2Proof.Machine.execVecRsum t a s
  | .vecRmax t a => Sys2Proof.Machine.execVecRmax t a s
  | .vecRmin t a => Sys2Proof.Machine.execVecRmin t a s
  | .vecRargmax t a => Sys2Proof.Machine.execVecRargmax t a s
  | .vecRargmin t a => Sys2Proof.Machine.execVecRargmin t a s
  | .vecRlse t a => Sys2Proof.Machine.execVecRlse t a s
  | .vecRsumsq t a => Sys2Proof.Machine.execVecRsumsq t a s
  | .vecRmean t a => Sys2Proof.Machine.execVecRmean t a s
  | .vecScan t a => Sys2Proof.Machine.execVecScan t a s
  | .vecPerm t a => Sys2Proof.Machine.execVecPerm t a s
  | .vecTopk t a => Sys2Proof.Machine.execVecTopk t a s
  | .vecBscale t a => Sys2Proof.Machine.execVecBscale t a s
  | .vecCensus t a => Sys2Proof.Machine.execVecCensus t a s
  | .vectorNop t => Sys2Proof.Machine.execVectorNop t s
  | .vectorInstrComplete t => Sys2Proof.Machine.execVectorInstrComplete t s
  | .phaseComplete c => Sys2Proof.Machine.execPhaseComplete c s
  | .walkerSample c => Sys2Proof.Machine.execWalkerSample c s
  | .barrierRelease die channel tag => Sys2Proof.Machine.execBarrierRelease die channel tag s
  | .phaseStart c => Sys2Proof.Machine.execPhaseStart c s
  | .gateTimeout c => Sys2Proof.Machine.execGateTimeout c s
  | .start c entry => Sys2Proof.Machine.execStart c entry s
  | .stop c => Sys2Proof.Machine.execStop c s
  | .resume c entry => Sys2Proof.Machine.execResume c entry s
  | .clearDone c => Sys2Proof.Machine.execClearDone c s
  | .workCounterAmo c access n v => Sys2Proof.Machine.execWorkCounterAmo c access n v s
  | .asyncWriteArrive at_ w => Sys2Proof.Machine.execAsyncWriteArrive at_ w s
  | .asyncWriteLand at_ bank => Sys2Proof.Machine.execAsyncWriteLand at_ bank s
  | .bankStateWrite at_ m v => Sys2Proof.Machine.execBankStateWrite at_ m v s
  | .bankTransitionDone at_ bank => Sys2Proof.Machine.execBankTransitionDone at_ bank s
  | .carafeReadReturn c cupping ring row => Sys2Proof.Machine.execCarafeReadReturn c cupping ring row s
  | .winOpen c target window epoch => Sys2Proof.Machine.execWinOpen c target window epoch s
  | .winClose c target window => Sys2Proof.Machine.execWinClose c target window s
  | .winSetEpoch c target window epoch => Sys2Proof.Machine.execWinSetEpoch c target window epoch s
  | .creditClaim c q units => Sys2Proof.Machine.execCreditClaim c q units s
  | .rqReturn c q v => Sys2Proof.Machine.execRqReturn c q v s
  | .rqCfgWrite c q v => Sys2Proof.Machine.execRqCfgWrite c q v s
  | .leaseRelease m d => Sys2Proof.Machine.execLeaseRelease m d s
  | .shardCommit tag shard => Sys2Proof.Machine.execShardCommit tag shard s
  | .leaseTimeout tag shard kind => Sys2Proof.Machine.execLeaseTimeout tag shard kind s
  | .leaseQuery tag shard => Sys2Proof.Machine.execLeaseQuery tag shard s
  | .forceReleaseCur tag shard => Sys2Proof.Machine.execForceReleaseCur tag shard s
  | .forceReleaseRet tag shard => Sys2Proof.Machine.execForceReleaseRet tag shard s
  | .layoutQuery tag entry => Sys2Proof.Machine.execLayoutQuery tag entry s
  | .run c shard => Sys2Proof.Machine.execRun c shard s
  | .runWaitEnd c => Sys2Proof.Machine.execRunWaitEnd c s
  | .runComplete c => Sys2Proof.Machine.execRunComplete c s
  | .updAdd c => Sys2Proof.Machine.execUpdAdd c s
  | .updSub c => Sys2Proof.Machine.execUpdSub c s
  | .updMul c => Sys2Proof.Machine.execUpdMul c s
  | .updFma c => Sys2Proof.Machine.execUpdFma c s
  | .updSign c => Sys2Proof.Machine.execUpdSign c s
  | .updAbs c => Sys2Proof.Machine.execUpdAbs c s
  | .updMax c => Sys2Proof.Machine.execUpdMax c s
  | .updMin c => Sys2Proof.Machine.execUpdMin c s
  | .updRsqrt c => Sys2Proof.Machine.execUpdRsqrt c s
  | .updSel c => Sys2Proof.Machine.execUpdSel c s
  | .updCvt c => Sys2Proof.Machine.execUpdCvt c s
  | .renorm c => Sys2Proof.Machine.execRenorm c s
  | .stepSummary tag r => Sys2Proof.Machine.execStepSummary tag r s
  | .cleanIntervalEnd tag step => Sys2Proof.Machine.execCleanIntervalEnd tag step s
  | .roastQuery tag step => Sys2Proof.Machine.execRoastQuery tag step s
  | .cuppingCompare c => Sys2Proof.Machine.execCuppingCompare c s
  | .cupHselWrite c v => Sys2Proof.Machine.execCupHselWrite c v s
  | .censusEvent tag ctag n => Sys2Proof.Machine.execCensusEvent tag ctag n s
  | .snapClear tag ctag => Sys2Proof.Machine.execSnapClear tag ctag s
  | .snapClearJob tag => Sys2Proof.Machine.execSnapClearJob tag s
  | .cenQuery tag snap ctag => Sys2Proof.Machine.execCenQuery tag snap ctag s
  | .lossIn v => Sys2Proof.Machine.execLossIn v s
  | .pqDoorbell hub q row => Sys2Proof.Machine.execPqDoorbell hub q row s
  | .fwd hub q => Sys2Proof.Machine.execFwd hub q s
  | .bwd hub q => Sys2Proof.Machine.execBwd hub q s
  | .pourReturn hub q => Sys2Proof.Machine.execPourReturn hub q s
  | .pourClaimRetry hub q => Sys2Proof.Machine.execPourClaimRetry hub q s
  | .pourTimeout hub q => Sys2Proof.Machine.execPourTimeout hub q s
  | .pourResume hub q => Sys2Proof.Machine.execPourResume hub q s
  | .readWalk c ring => Sys2Proof.Machine.execReadWalk c ring s
  | .appendWalk c ring => Sys2Proof.Machine.execAppendWalk c ring s
  | .walkEntryStart c ring => Sys2Proof.Machine.execWalkEntryStart c ring s
  | .appendEnd c ring => Sys2Proof.Machine.execAppendEnd c ring s
  | .kvRingQuery tag => Sys2Proof.Machine.execKvRingQuery tag s
  | .tierMap tag addr sz hint => Sys2Proof.Machine.execTierMap tag addr sz hint s
  | .mapFillDone addr => Sys2Proof.Machine.execMapFillDone addr s
  | .tierUnmap tag addr => Sys2Proof.Machine.execTierUnmap tag addr s
  | .tierHint tag addr hint => Sys2Proof.Machine.execTierHint tag addr hint s
  | .promote tag addr => Sys2Proof.Machine.execPromote tag addr s
  | .tierRelease tag addr => Sys2Proof.Machine.execTierRelease tag addr s
  | .evict tag addr => Sys2Proof.Machine.execEvict tag addr s
  | .moveCommit addr => Sys2Proof.Machine.execMoveCommit addr s
  | .tierAge => Sys2Proof.Machine.execTierAge s
  | .tierPromoteTmo c ring => Sys2Proof.Machine.execTierPromoteTmo c ring s
  | .holdRetry c ring => Sys2Proof.Machine.execHoldRetry c ring s
  | .tierQuery addr => Sys2Proof.Machine.execTierQuery addr s
  | .dmaDoorbell c ring count => Sys2Proof.Machine.execDmaDoorbell c ring count s
  | .dmaDescData c v => Sys2Proof.Machine.execDmaDescData c v s
  | .dmaResume c ring => Sys2Proof.Machine.execDmaResume c ring s
  | .dmaSkip c ring => Sys2Proof.Machine.execDmaSkip c ring s
  | .dmaAbort c ring => Sys2Proof.Machine.execDmaAbort c ring s
  | .dmaRingCfgWrite c ring v => Sys2Proof.Machine.execDmaRingCfgWrite c ring v s
  | .copy c ring => Sys2Proof.Machine.execCopy c ring s
  | .curve c ring => Sys2Proof.Machine.execCurve c ring s
  | .complete c ring => Sys2Proof.Machine.execComplete c ring s
  | .fence c ring => Sys2Proof.Machine.execFence c ring s
  | .descComplete c ring => Sys2Proof.Machine.execDescComplete c ring s
  | .dmaWaitTmo c ring => Sys2Proof.Machine.execDmaWaitTmo c ring s
  | .dmaClaimRetry c ring => Sys2Proof.Machine.execDmaClaimRetry c ring s
  | .reduceScatter c ring => Sys2Proof.Machine.execReduceScatter c ring s
  | .allGather c ring => Sys2Proof.Machine.execAllGather c ring s
  | .allReduce c ring => Sys2Proof.Machine.execAllReduce c ring s
  | .allToAll c ring => Sys2Proof.Machine.execAllToAll c ring s
  | .vote c ring => Sys2Proof.Machine.execVote c ring s
  | .collRelease c ring => Sys2Proof.Machine.execCollRelease c ring s
  | .collClose c ring => Sys2Proof.Machine.execCollClose c ring s
  | .collReady m d => Sys2Proof.Machine.execCollReady m d s
  | .collReadyTimeout tag group collId => Sys2Proof.Machine.execCollReadyTimeout tag group collId s
  | .collDone m d => Sys2Proof.Machine.execCollDone m d s
  | .collFinish m d => Sys2Proof.Machine.execCollFinish m d s
  | .collAbort m d => Sys2Proof.Machine.execCollAbort m d s
  | .laserFail ls channel => Sys2Proof.Machine.execLaserFail ls channel s
  | .flitReceive port flit => Sys2Proof.Machine.execFlitReceive port flit s
  | .lossOfLight port => Sys2Proof.Machine.execLossOfLight port s
  | .ackStall port => Sys2Proof.Machine.execAckStall port s
  | .portRetrain port => Sys2Proof.Machine.execPortRetrain port s
  | .portTrainingDone port peer peerPort => Sys2Proof.Machine.execPortTrainingDone port peer peerPort s
  | .bridgeWordReceive bridge crcOk word => Sys2Proof.Machine.execBridgeWordReceive bridge crcOk word s
  | .fabWrite m => Sys2Proof.Machine.execFabWrite m s
  | .fabSend m => Sys2Proof.Machine.execFabSend m s
  | .readReq m => Sys2Proof.Machine.execReadReq m s
  | .fadd m => Sys2Proof.Machine.execFadd m s
  | .cswap m => Sys2Proof.Machine.execCswap m s
  | .coll m d => Sys2Proof.Machine.execColl m d s
  | .readResp m => Sys2Proof.Machine.execReadResp m s
  | .atomicResp m => Sys2Proof.Machine.execAtomicResp m s
  | .ack m => Sys2Proof.Machine.execAck m s
  | .nak m => Sys2Proof.Machine.execNak m s
  | .notReady m => Sys2Proof.Machine.execNotReady m s
  | .gap m => Sys2Proof.Machine.execGap m s
  | .resync m => Sys2Proof.Machine.execResync m s
  | .resyncRespReady src shub cls => Sys2Proof.Machine.execResyncRespReady src shub cls s
  | .resyncResp m => Sys2Proof.Machine.execResyncResp m s
  | .fabAckTmo hub dst cls => Sys2Proof.Machine.execFabAckTmo hub dst cls s
  | .resyncTimeout hub dst cls => Sys2Proof.Machine.execResyncTimeout hub dst cls s
  | .nrRetry hub dst cls => Sys2Proof.Machine.execNrRetry hub dst cls s
  | .fabNrTmo hub dst cls => Sys2Proof.Machine.execFabNrTmo hub dst cls s
  | .apply => Sys2Proof.Machine.execApply s
  | .fabPairQuery v => Sys2Proof.Machine.execFabPairQuery v s
  | .fabAmoGo c => Sys2Proof.Machine.execFabAmoGo c s
  | .hostFrame port f => Sys2Proof.Machine.execHostFrame port f s
  | .hostLinkChange port up => Sys2Proof.Machine.execHostLinkChange port up s
  | .rcSend p => Sys2Proof.Machine.execRcSend p s
  | .rdmaWrite p => Sys2Proof.Machine.execRdmaWrite p s
  | .rdmaRead p => Sys2Proof.Machine.execRdmaRead p s
  | .compareSwap p => Sys2Proof.Machine.execCompareSwap p s
  | .fetchAdd p => Sys2Proof.Machine.execFetchAdd p s
  | .cmReq port service gid qpn psn => Sys2Proof.Machine.execCmReq port service gid qpn psn s
  | .cmRtu port => Sys2Proof.Machine.execCmRtu port s
  | .cmDreq port gid qpn => Sys2Proof.Machine.execCmDreq port gid qpn s
  | .cnp q => Sys2Proof.Machine.execCnp q s
  | .cnpRateTimer q => Sys2Proof.Machine.execCnpRateTimer q s
  | .qpCtxWrite q off v => Sys2Proof.Machine.execQpCtxWrite q off v s
  | .qpRqReturn q n => Sys2Proof.Machine.execQpRqReturn q n s
  | .stage tag => Sys2Proof.Machine.execStage tag s
  | .bind tag => Sys2Proof.Machine.execBind tag s
  | .attach tag => Sys2Proof.Machine.execAttach tag s
  | .detach tag => Sys2Proof.Machine.execDetach tag s
  | .kill tag => Sys2Proof.Machine.execKill tag s
  | .quiesceEnd tag => Sys2Proof.Machine.execQuiesceEnd tag s
  | .quiesceTmo tag => Sys2Proof.Machine.execQuiesceTmo tag s
  | .clusterRinseDone c => Sys2Proof.Machine.execClusterRinseDone c s
  | .frameRinseDone tag frame => Sys2Proof.Machine.execFrameRinseDone tag frame s
  | .softReset page => Sys2Proof.Machine.execSoftReset page s
  | .errStatusClear page v => Sys2Proof.Machine.execErrStatusClear page v s
  | .errInject page v => Sys2Proof.Machine.execErrInject page v s
  | .blkLock page => Sys2Proof.Machine.execBlkLock page s
  | .ctrSnap page hold => Sys2Proof.Machine.execCtrSnap page hold s
  | .registerWrite m addr v => Sys2Proof.Machine.execRegisterWrite m addr v s
  | .pwrActive => Sys2Proof.Machine.execPwrActive s
  | .pwrListen => Sys2Proof.Machine.execPwrListen s
  | .pwrStandby => Sys2Proof.Machine.execPwrStandby s
  | .powerMoveDone => Sys2Proof.Machine.execPowerMoveDone s
  | .quarterPowerOn => Sys2Proof.Machine.execQuarterPowerOn s
  | .wake => Sys2Proof.Machine.execWake s
  | .sync => Sys2Proof.Machine.execSync s
  | .tamper => Sys2Proof.Machine.execTamper s
  | .resetAssert => Sys2Proof.Machine.execResetAssert s
  | .resetRelease => Sys2Proof.Machine.execResetRelease s
  | .inputStuck pin => Sys2Proof.Machine.execInputStuck pin s
  | .rearm pin => Sys2Proof.Machine.execRearm pin s
  | .syncOutCmd => Sys2Proof.Machine.execSyncOutCmd s
  | .pllLock domain => Sys2Proof.Machine.execPllLock domain s
  | .pwrEnAssert => Sys2Proof.Machine.execPwrEnAssert s
  | .pwrEnDeassert => Sys2Proof.Machine.execPwrEnDeassert s
  | .vinFault high => Sys2Proof.Machine.execVinFault high s
  | .vinCollapse => Sys2Proof.Machine.execVinCollapse s
  | .clockMon domain count => Sys2Proof.Machine.execClockMon domain count s
  | .voltMon page deviation => Sys2Proof.Machine.execVoltMon page deviation s
  | .thermSample temps => Sys2Proof.Machine.execThermSample temps s
  | .bridgeFail bridge => Sys2Proof.Machine.execBridgeFail bridge s
  | .bridgeRetrain bridge passed => Sys2Proof.Machine.execBridgeRetrain bridge passed s
  | .selftestSlice t differs => Sys2Proof.Machine.execSelftestSlice t differs s
  | .selftestStarve t => Sys2Proof.Machine.execSelftestStarve t s
  | .lockstepMismatch pair => Sys2Proof.Machine.execLockstepMismatch pair s
  | .mgmtReloadDone => Sys2Proof.Machine.execMgmtReloadDone s
  | .getNonce m => Sys2Proof.Machine.execGetNonce m s
  | .getCert m => Sys2Proof.Machine.execGetCert m s
  | .quote m => Sys2Proof.Machine.execQuote m s
  | .extend m => Sys2Proof.Machine.execExtend m s
  | .commitSvn m => Sys2Proof.Machine.execCommitSvn m s
  | .getLog m => Sys2Proof.Machine.execGetLog m s
  | .policyUpdate m => Sys2Proof.Machine.execPolicyUpdate m s
  | .policyTakeEffect => Sys2Proof.Machine.execPolicyTakeEffect s
  | .debugUnlock m => Sys2Proof.Machine.execDebugUnlock m s
  | .alarmClear m => Sys2Proof.Machine.execAlarmClear m s
  | .inject m => Sys2Proof.Machine.execInject m s
  | .glitch rail => Sys2Proof.Machine.execGlitch rail s
  | .jtagInstruction ir => Sys2Proof.Machine.execJtagInstruction ir s
  | .drbgReseed => Sys2Proof.Machine.execDrbgReseed s
  | .i3cPrivateWrite bytes => Sys2Proof.Machine.execI3cPrivateWrite bytes s
  | .i3cPrivateRead n => Sys2Proof.Machine.execI3cPrivateRead n s
  | .bringUpStepEnd step unit passed => Sys2Proof.Machine.execBringUpStepEnd step unit passed s
  | .inputDeassert pin => Sys2Proof.Machine.execInputDeassert pin s
  | .syncOutPulseEnd => Sys2Proof.Machine.execSyncOutPulseEnd s
  | .pfcPauseEnd port cls => Sys2Proof.Machine.execPfcPauseEnd port cls s
  | .inputPowerReturn => Sys2Proof.Machine.execInputPowerReturn s

end Sys2Proof.Machine
end

