-- ==== Sys2Proof/Machine/Encode.lean ====
section
/-! DEFINITION. The encoder of bundles, written from the tables of R36, R38, R40, R43, R93 and R137, and which bundles it encodes. The block
has no instruction decoder of a processor's kind; a bundle is the one coded program that a unit of it decodes. -/

namespace Sys2Proof.Machine

/-- The bits of a sequencing slot (R38). -/
def seqEncode : SeqOp → Nat
  | .nop => 0
  | .loop n len => 0x1000 + 512 * n.toNat + (len - 1)
  | .cset n imm => 0x2000 + 512 * n.toNat + imm
  | .cadd n imm => 0x3000 + 512 * n.toNat + imm
  | .ctx k => 0x4000 + k.toNat
  | .phaseEnd => 0x5000
/-- Whether a sequencing operation's operands fit their fields (R38). -/
def seqFits : SeqOp → Bool
  | .loop _ len => decide (1 ≤ len ∧ len ≤ 512)
  | .cset _ imm | .cadd _ imm => decide (imm < 512)
  | .nop | .ctx _ | .phaseEnd => true

/-- The bits of a matrix slot (R43). -/
def matEncode : MatOp → Nat
  | .nop => 0
  | .block a => 2 ^ 52 + a.mode.toNat * 2 ^ 50 + a.stat.toNat * 2 ^ 48 + a.sbank.toNat * 2 ^ 47 + a.ssel.toNat * 2 ^ 45 + b2n a.chk * 2 ^ 44
      + a.fmtA.toNat * 2 ^ 40 + a.fmtB.toNat * 2 ^ 36 + a.src.toNat * 2 ^ 34 + a.base.toNat * 2 ^ 28 + a.depth.toNat * 2 ^ 22
      + a.kch.toNat * 2 ^ 14 + a.ltag.toNat
  | .statReset bank => 2 * 2 ^ 52 + bank * 2 ^ 47
/-- Whether a matrix operation's operands fit their fields (R43). -/
def matFits : MatOp → Bool
  | .statReset bank => decide (bank < 2)
  | .nop | .block _ => true

/-- The bits of a port slot (R40). -/
def portEncode : PortOp → Nat
  | .idle => 0
  | .read route row => 2 ^ 18 + route * 2 ^ 15 + row
  | .write row => 2 * 2 ^ 18 + row
  | .gen route g => 3 * 2 ^ 18 + route * 2 ^ 15 + g * 2 ^ 13
/-- Whether a port operation's operands fit their fields, with a route that R40 lists. -/
def portFits : PortOp → Bool
  | .idle => true
  | .read route row => decide (route ≤ 4 ∧ row < 2 ^ 15)
  | .write row => decide (row < 2 ^ 15)
  | .gen route g => decide (route ≤ 4 ∧ g < 4)

/-- The bits of a switch slot (R93). -/
def swEncode (o : SwOp) : Nat := o.vop * 2 ^ 13 + o.sop * 2 ^ 10 + o.n.toNat * 2 ^ 7 + o.cop * 2 ^ 5 + o.imm
/-- Whether a switch slot's fields fit and carry nothing that R93 and R95 reserve: a counter that no operation of the slot uses is 0, and
the two takes do not meet in one counter. -/
def swFits (o : SwOp) : Bool :=
  decide (o.vop ≤ 3 ∧ o.sop ≤ 5 ∧ o.cop < 4 ∧ o.imm < 32)
    && (o.n == 0 || o.sop == 1 || o.sop == 2 || o.sop == 4 || decide (2 ≤ o.cop)) && !(o.sop == 2 && o.cop == 3)

/-- The bits of a vector slot (R137). -/
def vecEncode : Option (Nat × VecArgs) → Nat
  | none => 0
  | some (opc, a) => opc * 2 ^ 120 + a.var.toNat * 2 ^ 116 + a.rm.toNat * 2 ^ 114 + b2n a.sat * 2 ^ 113 + b2n a.cen * 2 ^ 112
      + a.dst.toNat * 2 ^ 104 + a.srcA.toNat * 2 ^ 96 + a.srcB.toNat * 2 ^ 88 + a.srcC.toNat * 2 ^ 80 + a.mask.toNat * 2 ^ 72
      + a.offen.toNat * 2 ^ 68 + a.offc.toNat * 2 ^ 65 + a.ctag.toNat * 2 ^ 52 + a.imm.toNat
/-- Whether a vector slot's OPC is a byte other than 0 (R137). -/
def vecFits : Option (Nat × VecArgs) → Bool
  | none => true
  | some (opc, _) => decide (0 < opc ∧ opc < 256)

/-- The bits of a bundle (R36). -/
def bundleEncode (b : Bundle) : Nat :=
  vecEncode b.vec * 2 ^ 128 + matEncode b.mat * 2 ^ 72 + portEncode b.p0 * 2 ^ 52 + portEncode b.p1 * 2 ^ 32 + swEncode b.sw * 2 ^ 16
    + seqEncode b.seq
/-- Whether every slot of a bundle fits its encoding. -/
def bundleFits (b : Bundle) : Bool := seqFits b.seq && matFits b.mat && portFits b.p0 && portFits b.p1 && swFits b.sw && vecFits b.vec

end Sys2Proof.Machine
end

