-- ==== Sys2Proof/WellFormed.lean ====
section
/-! DEFINITION. Which commands are well formed: every unit that an operand names exists on the device, and every operand fits its field. -/

namespace Sys2Proof

open Sys2Proof.Machine

/-- Whether a tile exists (R11). -/
def isTile (t : Nat) : Bool := decide (t < 1024)
/-- Whether a cluster exists (R11). -/
def isCluster (c : Nat) : Bool := decide (c < 64)
/-- Whether a page shows a voltage monitor (R405): a spine, or the management page for the hubs. -/
def hasRail (page : BitVec 14) : Bool :=
  match pageOf (4096 * page.toNat) with
  | some (.spine, _) | some (.mgmt, _) => true
  | _ => false

/-- Whether a command is well formed. -/
def Instr.wf (i : Instr) : Bool :=
  match i with
  | .bundleIssue c => isCluster c
  | .seqNop t => isTile t
  | .loop t _ _ => isTile t
  | .cset t _ _ => isTile t
  | .cadd t _ _ => isTile t
  | .ctx t _ => isTile t
  | .phaseEnd t => isTile t
  | .block t _ => isTile t
  | .statReset t _ => isTile t
  | .matrixNop t => isTile t
  | .matChunkTake t => isTile t
  | .abftCompare t => isTile t
  | .readRow t _ _ _ => isTile t
  | .writeRow t _ _ => isTile t
  | .readThroughGenerator t _ _ _ => isTile t
  | .portReadDeliver t => isTile t
  | .takeMs t => isTile t
  | .takeSs t => isTile t
  | .drop t => isTile t
  | .scalarSendC t _ => isTile t
  | .scalarTakeC t _ => isTile t
  | .putSum t => isTile t
  | .wfa t _ => isTile t
  | .wfaResult t => isTile t
  | .sendSv t => isTile t
  | .sendI t _ => isTile t
  | .controlSendC t _ => isTile t
  | .controlTakeC t _ => isTile t
  | .netWordArrive t net inp _ => isTile t && net != 3 && decide (inp.toNat ≤ 4)
  | .steerTokenArrive t _ _ _ _ => isTile t
  | .steerDataWord t _ _ _ _ => isTile t
  | .steerTokenExpired t _ _ => isTile t
  | .vecAdd t _ => isTile t
  | .vecSub t _ => isTile t
  | .vecMul t _ => isTile t
  | .vecFma t _ => isTile t
  | .vecMin t _ => isTile t
  | .vecMax t _ => isTile t
  | .vecAbs t _ => isTile t
  | .vecSign t _ => isTile t
  | .vecCmp t _ => isTile t
  | .vecSel t _ => isTile t
  | .vecCvt t _ => isTile t
  | .vecMlog t _ => isTile t
  | .vecSfu t _ => isTile t
  | .vecRsum t _ => isTile t
  | .vecRmax t _ => isTile t
  | .vecRmin t _ => isTile t
  | .vecRargmax t _ => isTile t
  | .vecRargmin t _ => isTile t
  | .vecRlse t _ => isTile t
  | .vecRsumsq t _ => isTile t
  | .vecRmean t _ => isTile t
  | .vecScan t _ => isTile t
  | .vecPerm t _ => isTile t
  | .vecTopk t _ => isTile t
  | .vecBscale t _ => isTile t
  | .vecCensus t _ => isTile t
  | .vectorNop t => isTile t
  | .vectorInstrComplete t => isTile t
  | .phaseComplete c => isCluster c
  | .walkerSample c => isCluster c
  | .barrierRelease die _ _ => decide (die < 4)
  | .phaseStart c => isCluster c
  | .gateTimeout c => isCluster c
  | .start c _ => isCluster c
  | .stop c => isCluster c
  | .resume c _ => isCluster c
  | .clearDone c => isCluster c
  | .workCounterAmo c _ _ _ => isCluster c
  | .asyncWriteArrive at_ w => storeOk at_ && decide (w.row * storeRow at_ < storeSize at_)
  | .asyncWriteLand at_ bank => storeOk at_ && decide (bank < storeBanks at_)
  | .bankStateWrite at_ m _ => storeOk at_ && m != 3
  | .bankTransitionDone at_ bank => storeOk at_ && decide (bank < storeBanks at_)
  | .carafeReadReturn c _ _ row => isCluster c && decide (row < 196608)
  | .winOpen c _ _ _ => isCluster c
  | .winClose c _ _ => isCluster c
  | .winSetEpoch c _ _ _ => isCluster c
  | .creditClaim c _ _ => isCluster c
  | .rqReturn c _ _ => isCluster c
  | .rqCfgWrite c _ _ => isCluster c
  | .leaseRelease m _ => msgFits m
  | .shardCommit _ _ => true
  | .leaseTimeout _ _ _ => true
  | .leaseQuery _ _ => true
  | .forceReleaseCur _ _ => true
  | .forceReleaseRet _ _ => true
  | .layoutQuery _ _ => true
  | .run c _ => isCluster c
  | .runWaitEnd c => isCluster c
  | .runComplete c => isCluster c
  | .updAdd c => isCluster c
  | .updSub c => isCluster c
  | .updMul c => isCluster c
  | .updFma c => isCluster c
  | .updSign c => isCluster c
  | .updAbs c => isCluster c
  | .updMax c => isCluster c
  | .updMin c => isCluster c
  | .updRsqrt c => isCluster c
  | .updSel c => isCluster c
  | .updCvt c => isCluster c
  | .renorm c => isCluster c
  | .stepSummary _ _ => true
  | .cleanIntervalEnd _ _ => true
  | .roastQuery _ _ => true
  | .cuppingCompare c => isCluster c
  | .cupHselWrite c _ => isCluster c
  | .censusEvent _ _ _ => true
  | .snapClear _ _ => true
  | .snapClearJob _ => true
  | .cenQuery _ _ _ => true
  | .lossIn _ => true
  | .pqDoorbell hub _ _ => decide (hub < 2)
  | .fwd hub _ => decide (hub < 2)
  | .bwd hub _ => decide (hub < 2)
  | .pourReturn hub _ => decide (hub < 2)
  | .pourClaimRetry hub _ => decide (hub < 2)
  | .pourTimeout hub _ => decide (hub < 2)
  | .pourResume hub _ => decide (hub < 2)
  | .readWalk c _ => isCluster c
  | .appendWalk c _ => isCluster c
  | .walkEntryStart c _ => isCluster c
  | .appendEnd c _ => isCluster c
  | .kvRingQuery _ => true
  | .tierMap _ _ _ _ => true
  | .mapFillDone _ => true
  | .tierUnmap _ _ => true
  | .tierHint _ _ _ => true
  | .promote _ _ => true
  | .tierRelease _ _ => true
  | .evict _ _ => true
  | .moveCommit _ => true
  | .tierAge => true
  | .tierPromoteTmo c _ => isCluster c
  | .holdRetry c _ => isCluster c
  | .tierQuery _ => true
  | .dmaDoorbell c _ _ => isCluster c
  | .dmaDescData c _ => isCluster c
  | .dmaResume c _ => isCluster c
  | .dmaSkip c _ => isCluster c
  | .dmaAbort c _ => isCluster c
  | .dmaRingCfgWrite c _ _ => isCluster c
  | .copy c _ => isCluster c
  | .curve c _ => isCluster c
  | .complete c _ => isCluster c
  | .fence c _ => isCluster c
  | .descComplete c _ => isCluster c
  | .dmaWaitTmo c _ => isCluster c
  | .dmaClaimRetry c _ => isCluster c
  | .reduceScatter c _ => isCluster c
  | .allGather c _ => isCluster c
  | .allReduce c _ => isCluster c
  | .allToAll c _ => isCluster c
  | .vote c _ => isCluster c
  | .collRelease c _ => isCluster c
  | .collClose c _ => isCluster c
  | .collReady m _ => msgFits m
  | .collReadyTimeout _ _ _ => true
  | .collDone m _ => msgFits m
  | .collFinish m _ => msgFits m
  | .collAbort m _ => msgFits m
  | .laserFail _ _ => true
  | .flitReceive _ _ => true
  | .lossOfLight _ => true
  | .ackStall _ => true
  | .portRetrain _ => true
  | .portTrainingDone _ _ _ => true
  | .bridgeWordReceive bridge _ _ => decide (bridge.bridge < 8)
  | .fabWrite m => msgFits m
  | .fabSend m => msgFits m
  | .readReq m => msgFits m
  | .fadd m => msgFits m
  | .cswap m => msgFits m
  | .coll m _ => msgFits m
  | .readResp m => msgFits m
  | .atomicResp m => msgFits m
  | .ack m => msgFits m
  | .nak m => msgFits m
  | .notReady m => msgFits m
  | .gap m => msgFits m
  | .resync m => msgFits m
  | .resyncRespReady _ _ _ => true
  | .resyncResp m => msgFits m
  | .fabAckTmo _ _ _ => true
  | .resyncTimeout _ _ _ => true
  | .nrRetry _ _ _ => true
  | .fabNrTmo _ _ _ => true
  | .apply => true
  | .fabPairQuery _ => true
  | .fabAmoGo c => isCluster c
  | .hostFrame _ _ => true
  | .hostLinkChange _ _ => true
  | .rcSend p => decide (p.port < 4)
  | .rdmaWrite p => decide (p.port < 4)
  | .rdmaRead p => decide (p.port < 4)
  | .compareSwap p => decide (p.port < 4)
  | .fetchAdd p => decide (p.port < 4)
  | .cmReq _ _ _ _ _ => true
  | .cmRtu _ => true
  | .cmDreq _ _ _ => true
  | .cnp _ => true
  | .cnpRateTimer _ => true
  | .qpCtxWrite _ _ _ => true
  | .qpRqReturn _ _ => true
  | .stage _ => true
  | .bind _ => true
  | .attach _ => true
  | .detach _ => true
  | .kill _ => true
  | .quiesceEnd _ => true
  | .quiesceTmo _ => true
  | .clusterRinseDone c => isCluster c
  | .frameRinseDone _ _ => true
  | .softReset page => hasHeader page
  | .errStatusClear page _ => hasHeader page
  | .errInject page _ => hasHeader page
  | .blkLock page => hasHeader page
  | .ctrSnap page _ => hasHeader page
  | .registerWrite _ _ _ => true
  | .pwrActive => true
  | .pwrListen => true
  | .pwrStandby => true
  | .powerMoveDone => true
  | .quarterPowerOn => true
  | .wake => true
  | .sync => true
  | .tamper => true
  | .resetAssert => true
  | .resetRelease => true
  | .inputStuck _ => true
  | .rearm _ => true
  | .syncOutCmd => true
  | .pllLock domain => decide (domain < 25)
  | .pwrEnAssert => true
  | .pwrEnDeassert => true
  | .vinFault _ => true
  | .vinCollapse => true
  | .clockMon domain _ => decide (domain < 25)
  | .voltMon page _ => hasRail page
  | .thermSample temps => decide (temps.length = 76)
  | .bridgeFail bridge => decide (bridge < 8)
  | .bridgeRetrain bridge _ => decide (bridge < 8)
  | .selftestSlice t _ => isTile t
  | .selftestStarve t => isTile t
  | .lockstepMismatch pair => (match pair with | .barista c | .baristaSram c => isCluster c | .mgmt | .roast | .mgmtSram | .rotSram => true)
  | .mgmtReloadDone => true
  | .getNonce _ => true
  | .getCert _ => true
  | .quote _ => true
  | .extend _ => true
  | .commitSvn _ => true
  | .getLog _ => true
  | .policyUpdate _ => true
  | .policyTakeEffect => true
  | .debugUnlock _ => true
  | .alarmClear _ => true
  | .inject _ => true
  | .glitch _ => true
  | .jtagInstruction _ => true
  | .drbgReseed => true
  | .i3cPrivateWrite w => decide (w.addr < 128)
  | .i3cPrivateRead r => decide (r.addr < 128)
  | .bringUpStepEnd _ _ _ => true
  | .inputDeassert _ => true
  | .syncOutPulseEnd => true
  | .pfcPauseEnd _ _ => true
  | .inputPowerReturn => true

end Sys2Proof
end

