-- ==== Sys2Proof/Safety.lean ====
section
/-! DEFINITION. What a sound state of the model is, in the terms the statements use: byte stores and registers in canonical form, and the
groups of state that a family of commands leaves alone. -/

namespace Sys2Proof.Machine

/-- A byte store in canonical form: addresses strictly rising, no zero byte listed. -/
def Memory.wf (m : Mem) : Bool := tblWf (fun _ => (0 : Byte)) m
/-- Every byte store in canonical form. -/
def Stores.wf (m : Stores) : Bool :=
  Memory.wf m.tensor && Memory.wf m.sp && Memory.wf m.car && Memory.wf m.ctx && Memory.wf m.vdesc && Memory.wf m.stat
    && Memory.wf m.scale && Memory.wf m.acc && Memory.wf m.bar
/-- The registers in canonical form: addresses strictly rising, no register listed at its reset value. -/
def regsWf (t : Tbl Word) : Bool := tblWf resetVal t
/-- The tile records in canonical form: numbers strictly rising, no tile listed as it is at reset. -/
def tilesWf (t : Tbl Tile) : Bool := tblWf (fun _ => Tile.reset) t
/-- The cluster records in canonical form. -/
def clustersWf (t : Tbl Cluster) : Bool := tblWf (fun _ => Cluster.reset) t
/-- The invariant of the model: byte stores, registers, tiles and clusters in canonical form. -/
def sound (s : State) : Bool := Stores.wf s.mem && regsWf s.regs && tilesWf s.tiles && clustersWf s.clusters

/-- The parts of the state: every field of `State`, with the byte stores taken one by one (`mTensor` to `mBar`). -/
inductive Part where
  | pending | cycle | t0 | free | regs | snaps | tiles | clusters | arrivals | flying | msgs | census | pages | badSlots | writes | armed | jobs
  | pour | colls | collIn | tx | rx | awaited | out | fab | qps | mrs | hports | replies | bridges | power | rot
  | mTensor | mSp | mCar | mCtx | mVdesc | mStat | mScale | mAcc | mBar | seen | bulkKeys | flips | alerts | units | lost
  deriving DecidableEq, Repr
/-- Whether a part is the same in two states. -/
def Part.same (p : Part) (s t : State) : Prop :=
  match p with
  | .pending => t.pending = s.pending
  | .cycle => t.cycle = s.cycle
  | .t0 => t.t0 = s.t0
  | .free => t.free = s.free
  | .regs => t.regs = s.regs
  | .snaps => t.snaps = s.snaps
  | .tiles => t.tiles = s.tiles
  | .clusters => t.clusters = s.clusters
  | .arrivals => t.arrivals = s.arrivals
  | .flying => t.flying = s.flying
  | .msgs => t.msgs = s.msgs
  | .census => t.census = s.census
  | .pages => t.pages = s.pages
  | .badSlots => t.badSlots = s.badSlots
  | .writes => t.writes = s.writes
  | .armed => t.armed = s.armed
  | .jobs => t.jobs = s.jobs
  | .pour => t.pour = s.pour
  | .colls => t.colls = s.colls
  | .collIn => t.collIn = s.collIn
  | .tx => t.tx = s.tx
  | .rx => t.rx = s.rx
  | .awaited => t.awaited = s.awaited
  | .out => t.out = s.out
  | .fab => t.fab = s.fab
  | .qps => t.qps = s.qps
  | .mrs => t.mrs = s.mrs
  | .hports => t.hports = s.hports
  | .replies => t.replies = s.replies
  | .bridges => t.bridges = s.bridges
  | .power => t.power = s.power
  | .rot => t.rot = s.rot
  | .mTensor => t.mem.tensor = s.mem.tensor
  | .mSp => t.mem.sp = s.mem.sp
  | .mCar => t.mem.car = s.mem.car
  | .mCtx => t.mem.ctx = s.mem.ctx
  | .mVdesc => t.mem.vdesc = s.mem.vdesc
  | .mStat => t.mem.stat = s.mem.stat
  | .mScale => t.mem.scale = s.mem.scale
  | .mAcc => t.mem.acc = s.mem.acc
  | .mBar => t.mem.bar = s.mem.bar
  | .seen => t.seen = s.seen
  | .bulkKeys => t.bulkKeys = s.bulkKeys
  | .flips => t.flips = s.flips
  | .alerts => t.alerts = s.alerts
  | .units => t.units = s.units
  | .lost => t.lost = s.lost
/-- Every part outside the list is the same in two states. -/
def changesOnly (l : List Part) (s t : State) : Prop := ∀ p : Part, p ∉ l → p.same s t

/-! ### What a command may change -/

/-- The parts of the state that a command may change, its faults with them: a fault of a tile stops its cluster, writes the fault registers and
may end a job, and an answer that a command sends moves the fabric's sequences. No command changes the queue, the clock or DEV_TIME's origin
but as listed. -/
def changes : Instr → List Part
  | .bundleIssue .. =>
    [.regs, .tiles, .clusters, .arrivals, .msgs, .jobs, .mSp, .mAcc, .alerts]
  | .seqNop .. | .matrixNop .. | .vectorNop .. =>
    []
  | .loop .. | .cset .. | .cadd .. | .ctx .. | .phaseEnd .. | .block .. | .matChunkTake .. | .abftCompare .. | .takeMs .. | .takeSs .. |
    .drop .. | .scalarSendC .. | .scalarTakeC .. | .putSum .. | .wfa .. | .sendSv .. | .sendI .. | .controlSendC .. | .controlTakeC .. |
    .steerTokenArrive .. | .steerTokenExpired .. | .phaseComplete .. | .walkerSample .. | .barrierRelease .. | .phaseStart .. |
    .gateTimeout .. | .workCounterAmo .. | .bankStateWrite .. | .rqReturn .. | .rqCfgWrite .. | .cuppingCompare .. | .inputStuck .. |
    .selftestStarve .. =>
    [.regs, .tiles, .clusters, .arrivals, .jobs, .mAcc, .alerts]
  | .statReset .. | .wfaResult .. | .steerDataWord .. =>
    [.tiles]
  | .readRow .. | .writeRow .. | .readThroughGenerator .. =>
    [.regs, .tiles, .clusters, .arrivals, .jobs, .mSp, .mAcc, .alerts]
  | .portReadDeliver .. =>
    [.regs, .tiles, .clusters, .arrivals, .jobs, .mStat, .mScale, .mAcc, .alerts]
  | .netWordArrive .. =>
    [.regs, .tiles, .clusters, .arrivals, .flying, .jobs, .mAcc, .alerts]
  | .vecAdd .. | .vecSub .. | .vecMul .. | .vecFma .. | .vecMin .. | .vecMax .. | .vecAbs .. | .vecSign .. | .vecCmp .. | .vecSel .. |
    .vecCvt .. | .vecMlog .. | .vecSfu .. | .vecRsum .. | .vecRmax .. | .vecRmin .. | .vecRargmax .. | .vecRargmin .. | .vecRlse .. |
    .vecRsumsq .. | .vecRmean .. | .vecScan .. | .vecPerm .. | .vecTopk .. | .vecBscale .. | .vecCensus .. =>
    [.regs, .tiles, .clusters, .arrivals, .msgs, .jobs, .mAcc, .alerts]
  | .vectorInstrComplete .. =>
    [.free, .regs, .tiles, .census]
  | .start .. | .resume .. | .creditClaim .. | .cupHselWrite .. | .dmaDoorbell .. | .dmaRingCfgWrite .. =>
    [.regs, .clusters]
  | .stop .. =>
    [.regs, .clusters, .arrivals]
  | .clearDone .. | .winOpen .. | .winClose .. | .winSetEpoch .. | .leaseQuery .. | .layoutQuery .. | .roastQuery .. | .cenQuery .. |
    .kvRingQuery .. | .tierQuery .. | .fabPairQuery .. | .inputDeassert .. =>
    [.regs]
  | .asyncWriteArrive .. =>
    [.regs, .tiles, .clusters, .arrivals, .msgs, .pages, .writes, .jobs, .colls, .rx, .awaited, .out, .fab, .mTensor, .mAcc, .flips,
     .alerts]
  | .asyncWriteLand .. =>
    [.regs, .tiles, .clusters, .msgs, .rx, .out, .fab, .mSp, .mCar]
  | .bankTransitionDone .. =>
    [.regs, .tiles, .clusters, .mSp, .mCar]
  | .carafeReadReturn .. | .fence .. =>
    [.regs, .tiles, .clusters, .arrivals, .pages, .writes, .armed, .jobs, .colls, .awaited, .mTensor, .mAcc, .flips, .alerts]
  | .leaseRelease .. | .collReady .. | .collDone .. | .collFinish .. | .collAbort .. | .flitReceive .. | .fabWrite .. | .fabSend .. |
    .readReq .. | .fadd .. | .cswap .. | .coll .. | .readResp .. | .atomicResp .. =>
    [.free, .regs, .tiles, .clusters, .arrivals, .msgs, .census, .pages, .badSlots, .writes, .armed, .jobs, .pour, .colls, .collIn, .tx,
     .rx, .awaited, .out, .fab, .mTensor, .mCtx, .mVdesc, .mAcc, .flips, .alerts, .lost]
  | .shardCommit .. | .leaseTimeout .. | .forceReleaseCur .. | .forceReleaseRet .. | .stepSummary .. | .cleanIntervalEnd .. |
    .reduceScatter .. | .allGather .. | .allReduce .. | .allToAll .. | .vote .. | .collRelease .. | .collClose .. | .ack .. | .nak .. |
    .resyncResp .. | .resyncTimeout .. | .fabNrTmo .. =>
    [.free, .regs, .tiles, .clusters, .arrivals, .msgs, .census, .pages, .badSlots, .writes, .armed, .jobs, .colls, .collIn, .tx, .rx,
     .awaited, .out, .fab, .mTensor, .mCtx, .mVdesc, .mAcc, .flips, .alerts, .lost]
  | .run .. =>
    [.free, .regs, .tiles, .clusters, .arrivals, .pages, .badSlots, .writes, .armed, .jobs, .mCar, .mAcc, .alerts, .lost]
  | .runWaitEnd .. =>
    [.free, .regs, .tiles, .clusters, .arrivals, .pages, .writes, .jobs, .mCar, .mAcc, .alerts]
  | .runComplete .. | .updAdd .. | .updSub .. | .updMul .. | .updFma .. | .updSign .. | .updAbs .. | .updMax .. | .updMin .. |
    .updRsqrt .. | .updSel .. | .updCvt .. | .renorm .. =>
    [.regs, .tiles, .clusters, .arrivals, .pages, .badSlots, .writes, .armed, .jobs, .mTensor, .mAcc, .flips, .alerts, .lost]
  | .censusEvent .. =>
    [.regs, .census, .jobs]
  | .snapClear .. | .snapClearJob .. =>
    [.regs, .jobs]
  | .lossIn .. =>
    [.regs, .jobs, .alerts]
  | .pqDoorbell .. | .pourResume .. =>
    [.regs, .pour]
  | .fwd .. | .bwd .. | .pourReturn .. | .pourClaimRetry .. =>
    [.regs, .tiles, .clusters, .arrivals, .msgs, .census, .jobs, .pour, .tx, .rx, .awaited, .out, .fab, .mAcc, .alerts]
  | .pourTimeout .. =>
    [.regs, .tiles, .clusters, .arrivals, .msgs, .jobs, .pour, .rx, .awaited, .out, .fab, .mAcc, .alerts]
  | .readWalk .. | .appendWalk .. =>
    [.regs, .tiles, .clusters, .arrivals, .pages, .badSlots, .writes, .armed, .jobs, .colls, .awaited, .mTensor, .mAcc, .flips, .alerts,
     .lost]
  | .walkEntryStart .. =>
    [.regs, .tiles, .clusters, .arrivals, .msgs, .pages, .badSlots, .writes, .armed, .jobs, .colls, .rx, .awaited, .out, .fab, .mTensor,
     .mCtx, .mVdesc, .mAcc, .flips, .alerts, .lost]
  | .appendEnd .. =>
    [.regs, .clusters, .pages, .jobs, .mTensor, .flips]
  | .tierMap .. | .tierUnmap .. | .tierHint .. | .promote .. =>
    [.regs, .tiles, .clusters, .arrivals, .pages, .jobs, .mAcc, .alerts]
  | .mapFillDone .. =>
    [.regs, .pages, .mTensor, .flips]
  | .tierRelease .. =>
    [.regs, .pages]
  | .evict .. =>
    [.regs, .pages, .alerts]
  | .moveCommit .. =>
    [.regs, .tiles, .clusters, .arrivals, .pages, .writes, .armed, .jobs, .mTensor, .mAcc, .flips, .alerts]
  | .tierAge .. =>
    [.pages]
  | .tierPromoteTmo .. | .collReadyTimeout .. =>
    [.regs, .tiles, .clusters, .arrivals, .pages, .writes, .jobs, .colls, .collIn, .awaited, .mTensor, .mAcc, .flips, .alerts]
  | .holdRetry .. =>
    [.regs, .tiles, .clusters, .arrivals, .pages, .writes, .jobs, .mAcc, .alerts]
  | .dmaDescData .. =>
    [.regs, .tiles, .clusters, .arrivals, .jobs, .mSp, .mCar, .mAcc, .alerts]
  | .dmaResume .. | .dmaSkip .. | .dmaAbort .. =>
    [.regs, .tiles, .clusters, .pages, .writes, .colls, .awaited, .mTensor, .flips]
  | .copy .. =>
    [.free, .regs, .tiles, .clusters, .arrivals, .msgs, .pages, .badSlots, .writes, .armed, .jobs, .colls, .tx, .rx, .awaited, .out,
     .fab, .mTensor, .mCtx, .mVdesc, .mAcc, .flips, .alerts, .lost]
  | .curve .. =>
    [.free, .regs, .tiles, .clusters, .arrivals, .msgs, .pages, .badSlots, .writes, .armed, .jobs, .colls, .rx, .awaited, .out, .fab,
     .mTensor, .mCtx, .mVdesc, .mAcc, .flips, .alerts, .lost]
  | .complete .. =>
    [.regs, .tiles, .clusters, .arrivals, .msgs, .pages, .badSlots, .writes, .armed, .jobs, .pour, .colls, .rx, .awaited, .out, .fab,
     .mTensor, .mCtx, .mVdesc, .mAcc, .flips, .alerts, .lost]
  | .descComplete .. =>
    [.regs, .tiles, .clusters, .census, .pages, .jobs]
  | .dmaWaitTmo .. =>
    [.regs, .tiles, .clusters, .arrivals, .pages, .writes, .jobs, .colls, .awaited, .mTensor, .mAcc, .flips, .alerts]
  | .dmaClaimRetry .. =>
    [.free, .regs, .tiles, .clusters, .arrivals, .msgs, .pages, .badSlots, .writes, .armed, .jobs, .colls, .tx, .rx, .awaited, .out,
     .fab, .mTensor, .mAcc, .flips, .alerts, .lost]
  | .laserFail .. | .lossOfLight .. | .ackStall .. =>
    [.regs, .tiles, .clusters, .arrivals, .jobs, .tx, .out, .fab, .mAcc, .alerts]
  | .portRetrain .. | .gap .. | .fabAckTmo .. | .nrRetry .. | .quarterPowerOn .. =>
    [.regs, .tx, .out, .fab]
  | .portTrainingDone .. =>
    [.regs, .tiles, .clusters, .arrivals, .jobs, .tx, .out, .fab, .power, .mAcc, .alerts]
  | .bridgeWordReceive .. | .bridgeFail .. =>
    [.free, .regs, .tiles, .clusters, .arrivals, .msgs, .census, .pages, .badSlots, .writes, .armed, .jobs, .colls, .collIn, .tx, .rx,
     .awaited, .out, .fab, .bridges, .mTensor, .mCtx, .mVdesc, .mAcc, .flips, .alerts, .lost]
  | .notReady .. =>
    [.tx]
  | .resync .. =>
    [.regs, .msgs, .rx, .out, .fab]
  | .resyncRespReady .. =>
    [.regs, .rx, .out, .fab]
  | .apply .. =>
    [.regs, .tx, .out, .fab, .power]
  | .fabAmoGo .. =>
    [.regs, .tiles, .clusters, .msgs, .tx, .rx, .awaited, .out, .fab]
  | .hostFrame .. | .rcSend .. | .rdmaWrite .. | .rdmaRead .. | .compareSwap .. | .fetchAdd .. | .softReset .. | .errStatusClear .. |
    .errInject .. | .blkLock .. | .ctrSnap .. | .registerWrite .. =>
    [.free, .regs, .snaps, .tiles, .clusters, .arrivals, .msgs, .census, .pages, .badSlots, .writes, .armed, .jobs, .pour, .colls,
     .collIn, .tx, .rx, .awaited, .out, .fab, .qps, .mrs, .hports, .replies, .power, .rot, .mTensor, .mSp, .mCar, .mCtx, .mVdesc, .mStat,
     .mScale, .mAcc, .mBar, .bulkKeys, .flips, .alerts, .lost]
  | .hostLinkChange .. =>
    [.hports]
  | .cmReq .. | .cmRtu .. | .cmDreq .. | .qpCtxWrite .. =>
    [.regs, .pages, .writes, .qps, .hports, .replies]
  | .cnp .. | .cnpRateTimer .. =>
    [.qps]
  | .qpRqReturn .. =>
    [.regs, .qps]
  | .stage .. | .bind .. | .attach .. | .detach .. | .kill .. =>
    [.free, .regs, .snaps, .tiles, .clusters, .arrivals, .msgs, .pages, .badSlots, .writes, .armed, .jobs, .pour, .colls, .collIn, .tx,
     .rx, .awaited, .out, .fab, .qps, .mrs, .hports, .replies, .power, .rot, .mTensor, .mSp, .mCar, .mCtx, .mVdesc, .mAcc, .bulkKeys,
     .flips, .alerts, .lost]
  | .quiesceEnd .. =>
    [.regs, .tiles, .clusters, .arrivals, .msgs, .pages, .writes, .jobs, .pour, .collIn, .rx, .out, .fab, .qps, .mrs, .hports, .replies,
     .mTensor, .mSp, .mCar, .mAcc, .bulkKeys, .flips, .alerts]
  | .quiesceTmo .. =>
    [.regs, .tiles, .clusters, .arrivals, .pages, .writes, .jobs, .pour, .colls, .collIn, .tx, .awaited, .out, .fab, .qps, .hports,
     .replies, .mTensor, .mAcc, .flips, .alerts]
  | .clusterRinseDone .. =>
    [.regs, .tiles, .clusters, .flying, .jobs, .mSp, .mCar, .mCtx, .mVdesc, .mStat, .mScale, .mAcc, .mBar]
  | .frameRinseDone .. =>
    [.free, .regs, .snaps, .tiles, .clusters, .arrivals, .msgs, .pages, .badSlots, .writes, .armed, .jobs, .pour, .colls, .tx, .rx,
     .awaited, .out, .fab, .qps, .mrs, .power, .mTensor, .mSp, .mCar, .mCtx, .mVdesc, .mAcc, .flips, .alerts, .lost]
  | .pwrActive .. | .pwrListen .. | .pwrStandby .. =>
    [.regs, .tx, .out, .fab, .power, .bulkKeys]
  | .powerMoveDone .. =>
    [.regs, .tiles, .clusters, .arrivals, .pages, .writes, .jobs, .tx, .out, .fab, .qps, .hports, .replies, .power, .rot, .mSp, .mCar,
     .mCtx, .mVdesc, .mStat, .mScale, .mAcc, .mBar, .bulkKeys, .alerts]
  | .wake .. =>
    [.regs, .tx, .out, .fab, .power, .bulkKeys, .alerts]
  | .sync .. =>
    [.regs, .power, .alerts]
  | .tamper .. =>
    [.regs, .tiles, .clusters, .arrivals, .pages, .writes, .jobs, .pour, .colls, .collIn, .tx, .awaited, .out, .fab, .qps, .hports,
     .replies, .power, .rot, .mTensor, .mAcc, .bulkKeys, .flips, .alerts]
  | .resetAssert .. | .pwrEnAssert .. | .pwrEnDeassert .. | .vinCollapse .. | .inputPowerReturn .. =>
    [.t0, .regs, .snaps, .tiles, .clusters, .arrivals, .flying, .msgs, .census, .pages, .badSlots, .writes, .armed, .jobs, .pour, .colls,
     .collIn, .tx, .rx, .awaited, .out, .fab, .qps, .mrs, .hports, .bridges, .power, .rot, .mTensor, .mSp, .mCar, .mCtx, .mVdesc, .mStat,
     .mScale, .mAcc, .mBar, .seen, .bulkKeys, .flips, .alerts, .units, .lost]
  | .resetRelease .. =>
    [.t0, .regs, .tx, .out, .fab, .power, .bulkKeys]
  | .rearm .. =>
    [.regs, .alerts]
  | .syncOutCmd .. =>
    [.regs, .power]
  | .pllLock .. | .lockstepMismatch .. =>
    [.regs, .tiles, .clusters, .arrivals, .jobs, .power, .mAcc, .alerts]
  | .vinFault .. | .thermSample .. =>
    [.regs, .snaps, .tiles, .clusters, .arrivals, .flying, .msgs, .census, .pages, .badSlots, .writes, .armed, .jobs, .pour, .colls,
     .collIn, .tx, .rx, .awaited, .out, .fab, .qps, .mrs, .hports, .bridges, .power, .rot, .mTensor, .mSp, .mCar, .mCtx, .mVdesc, .mStat,
     .mScale, .mAcc, .mBar, .seen, .bulkKeys, .flips, .alerts, .units, .lost]
  | .clockMon .. | .voltMon .. | .selftestSlice .. =>
    [.regs, .tiles, .clusters, .arrivals, .armed, .jobs, .mAcc, .alerts]
  | .bridgeRetrain .. =>
    [.bridges]
  | .mgmtReloadDone .. =>
    [.free, .regs, .tiles, .clusters, .arrivals, .pages, .writes, .jobs, .pour, .colls, .collIn, .tx, .awaited, .out, .fab, .qps,
     .hports, .replies, .power, .rot, .mTensor, .mCar, .mAcc, .bulkKeys, .flips, .alerts]
  | .getNonce .. | .getCert .. | .quote .. | .extend .. | .commitSvn .. | .getLog .. | .policyUpdate .. | .debugUnlock .. |
    .alarmClear .. | .inject .. =>
    [.regs, .tiles, .clusters, .arrivals, .pages, .writes, .jobs, .pour, .colls, .collIn, .tx, .awaited, .out, .fab, .qps, .hports,
     .replies, .rot, .mTensor, .mSp, .mCar, .mCtx, .mVdesc, .mStat, .mScale, .mAcc, .mBar, .bulkKeys, .flips, .alerts]
  | .policyTakeEffect .. =>
    [.regs, .tiles, .clusters, .arrivals, .pages, .writes, .jobs, .qps, .hports, .replies, .rot, .mAcc, .alerts]
  | .glitch .. =>
    [.regs, .tiles, .clusters, .arrivals, .pages, .writes, .jobs, .pour, .colls, .collIn, .tx, .awaited, .out, .fab, .qps, .hports,
     .replies, .rot, .mTensor, .mAcc, .bulkKeys, .flips, .alerts]
  | .jtagInstruction .. =>
    [.free, .regs, .tiles, .clusters, .arrivals, .pages, .writes, .jobs, .pour, .colls, .collIn, .tx, .awaited, .out, .fab, .qps,
     .hports, .replies, .rot, .mTensor, .mAcc, .bulkKeys, .flips, .alerts]
  | .drbgReseed .. =>
    [.rot]
  | .i3cPrivateWrite .. | .i3cPrivateRead .. | .syncOutPulseEnd .. =>
    [.power]
  | .bringUpStepEnd .. =>
    [.regs, .tiles, .clusters, .arrivals, .pages, .badSlots, .writes, .jobs, .pour, .colls, .collIn, .tx, .awaited, .out, .fab, .qps,
     .hports, .replies, .power, .rot, .mTensor, .mSp, .mCar, .mCtx, .mVdesc, .mStat, .mScale, .mAcc, .mBar, .bulkKeys, .flips, .alerts,
     .lost]
  | .pfcPauseEnd .. =>
    [.regs, .hports, .replies]

/-! ### Conditions that several statements name -/

/-- A port use that raises no issue fault: no reserved field, its rows in the allocation and their banks on, and no bank taken twice or
held by the vector engine (R160, R163, R168, R169). -/
def useFree (s : State) (t : Nat) (u : GenUse) : Prop :=
  u.resv = false ∧ useBad s t u = none ∧ ∀ k ∈ useBanks t u, (useBanks t u ++ vecBanks s t 0).count k ≤ 1

/-- The vector operations with their OPC (R137). -/
def vecCommands : List (Nat × (Nat → VecArgs → Instr)) :=
  [(0x01, Instr.vecAdd), (0x02, Instr.vecSub), (0x03, Instr.vecMul), (0x04, Instr.vecFma),
   (0x05, Instr.vecMin), (0x06, Instr.vecMax), (0x07, Instr.vecAbs), (0x08, Instr.vecSign),
   (0x09, Instr.vecCmp), (0x0A, Instr.vecSel), (0x0B, Instr.vecCvt), (0x0C, Instr.vecMlog),
   (0x10, Instr.vecSfu), (0x20, Instr.vecRsum), (0x21, Instr.vecRmax), (0x22, Instr.vecRmin),
   (0x23, Instr.vecRargmax), (0x24, Instr.vecRargmin), (0x25, Instr.vecRlse), (0x26, Instr.vecRsumsq),
   (0x27, Instr.vecRmean), (0x28, Instr.vecScan), (0x30, Instr.vecPerm), (0x31, Instr.vecTopk),
   (0x38, Instr.vecBscale), (0x39, Instr.vecCensus)]

/-- The update operations with their opcode (R205). -/
def updCommands : List (Nat × (Nat → Instr)) :=
  [(0x1, Instr.updAdd), (0x2, Instr.updSub), (0x3, Instr.updMul), (0x4, Instr.updFma),
   (0x5, Instr.updSign), (0x6, Instr.updAbs), (0x7, Instr.updMax), (0x8, Instr.updMin),
   (0x9, Instr.updRsqrt), (0xA, Instr.updSel), (0xB, Instr.updCvt), (0xC, Instr.renorm)]

/-- The collective operations with their COP (R322). -/
def collCommands : List (Nat × (Nat → BitVec 6 → Instr)) :=
  [(1, Instr.reduceScatter), (2, Instr.allGather), (3, Instr.allReduce), (4, Instr.allToAll),
   (5, Instr.vote), (6, Instr.collRelease), (7, Instr.collClose)]

/-- Ring r of a cluster may start its next descriptor, n, whose slot lies in a bank that is on and whose header is sound, and no ECC error of its
read is armed (R169, R290, R410). -/
def startsWith (s : State) (c r : Nat) (n : BitVec 32) : Prop :=
  ringStarts s c r = some n
    ∧ rowsOn s (.car c) (slotAt (getRing s c r).cfg (descSlot (getRing s c r).cfg n) / 128) 1 = true
    ∧ headerOk (descBytes s c r n) = true ∧ (carEcc c s).1 = false

/-- The state in which the descriptor n with the bytes b has been put in flight, its read of the carafe made (R166). -/
def withDesc (s : State) (c r : Nat) (n : BitVec 32) (b : List Byte) : State :=
  let g := getRing s c r
  let d : Desc := { count := n, tag := ringTag g.cfg, raw := b, op := recF b 0 1 % 16, wait := .write, bytes := 0, seen := [], wrote := [],
                    cen := CensusCounts.zero, walk := none, loading := false }
  carWait c (slotAt g.cfg (descSlot g.cfg n) / 128) 1 (putRing s c r { g with flight := g.flight ++ [d] })

/-- A whole message for this module that its synchronised sequence expects and that the module is ready for (R315 to R317, R332). -/
def admits (s : State) (m : Msg) : Prop :=
  let r := getRx s m.src m.shub m.cls
  msgFits m = true ∧ (addrValid s = true → m.dst = ownAddr s) ∧ r.synced = true ∧ m.epoch = r.epoch ∧ r.gapSent = false ∧
    m.psn = r.expected ∧ m.fseq = r.fseq ∧ r.nrPsn = none ∧ msgReady s m = true

/-- The state in which the sequence has passed the message m (R315). -/
def admitted (s : State) (m : Msg) : State := admitSeq m (m.fseq + BitVec.ofNat 16 (flitCount m.data.length)) s

/-- What becomes of a write to a page of a cluster that is not let through: where its power domain is off it is ignored and counts (R376), and
where the cluster quiesces or is rinsed it counts as blanked (R368). -/
def cluRefused (s : State) (c : Nat) : Option State :=
  if domainOn s (cluDomain c) = false then some (bump s (mgmtPage + 0x808))
  else if cluBlocked s c then some (bump s (devicePage + 0x810))
  else none

/-- Whether a write to an offset of a page does more or less than its register's access rule (R5) says: a header register that acts (R354 to R357,
R410), a command or query register, a register that selects or follows other state, a buffer while its unit is busy (R306, R429), and a phase
table or window that is locked (R107, R173). -/
def writeActs (s : State) (p : PageType) (i off : Nat) : Bool :=
  (p != .phase && [0x010, 0x028, 0x040, 0x060, 0x080].contains off) ||
  match p with
  | .device => [0x1A8, 0x1B8].contains off
  | .mailbox => off == 0x100 || (decide (0x200 ≤ off) && decide (off < 0x800) && mbxBusyBit s)
  | .mgmt => [0x108, 0x138, 0x228, 0x230].contains off
  | .install => off == 0x100 || (decide (0x200 ≤ off) && decide (off < 0x800) && wbit (reg s (installPage + 0x108)) 63)
  | .roast | .kv | .fabPort => off == 0x100
  | .host => (decide (0x108 ≤ off) && decide (off < 0x150)) || (decide (0x188 ≤ off) && decide (off < 0x1A8))
  | .hostPort => off == 0x110
  | .fabric => [0x100, 0x128, 0x130].contains off || (decide (0x180 ≤ off) && decide (off < 0x600))
  | .pour => [0x108, 0x118, 0x120].contains off
  | .lease => [0x108, 0x128, 0x140].contains off
  | .update => off == 0x108
  | .numerics => [0x100, 0x138, 0x208, 0x210].contains off
  | .tier => [0x118, 0x130, 0x140].contains off
  | .cluster => [0x100, 0x110, 0x480, 0x4A8, 0x500, 0x518, 0x620, 0x628, 0x630, 0x638, 0x660].contains off
  | .dma => [0x108, 0x128, 0x138, 0x148].contains off
  | .carafe => (decide (0x120 ≤ off) && decide (off < 0x138)) || (decide (0x200 ≤ off) && decide (off < 0x400))
  | .carWin => decide (0x100 ≤ off) && decide (off < 0x700) && winOpened s (.car (i / 16)) ((off - 0x100) / 24)
  | .phase => phaseLocked s (i / 16)
  | .tile => off == 0x1F8 || (decide (0x210 ≤ off) && decide (off < 0x230)) ||
      (decide (0x240 ≤ off) && decide (off < 0x3C0) && winOpened s (.sp i) ((off - 0x240) / 24))
  | .optGroup | .laser | .bulk | .coll | .spine => false

/-- The counts of an enabled receive queue obey R175: AVAIL + GRANT + (WP - RP) = SIZE + 1. -/
def rqSound (s : State) (c q : Nat) : Prop :=
  wbit (reg s (rqAddr c q)) 63 = true →
    regF s (rqAddr c q + 16) 31 0 + regF s (rqAddr c q + 16) 63 32
      + (regF s (rqAddr c q + 8) 31 0 + 2 ^ 32 - regF s (rqAddr c q + 8) 63 32) % 2 ^ 32 = regF s (rqAddr c q) 34 18 + 1

/-- The fields of a collective message within their bounds: a group of a byte, ranks, pieces and counts of 32 bits, an origin of a device
and a block number (R322, R324, R325). -/
def collFits (d : CollData) : Bool :=
  decide (d.group < 2 ^ 8 ∧ d.attempt < 2 ^ 8 ∧ d.collId < 2 ^ 32 ∧ d.rank < 2 ^ 32 ∧ d.piece < 2 ^ 32 ∧ d.node < 2 ^ 32
    ∧ d.poison.length < 2 ^ 32 ∧ d.sumsq.length < 2 ^ 32) &&
  (match d.origin with
   | some o => decide (o.1 < 2 ^ 16 ∧ o.2 < 2 ^ 32)
   | none => true)

end Sys2Proof.Machine
end

