-- ==== Sys2Proof/Certificates/Slice0/Obligations.lean ====
section
/-! DEFINITION. The statements for the provers: what the commands do, the reset state, the laws of the stores, the encodings, and the
invariant that every step keeps. -/

open Sys2Proof Sys2Proof.Machine

/-- A step takes the command at the front of the queue and runs it with the queue's rest (the queue is the model's, log 33). -/
def Obligations.StepFront : Prop :=
  ∀ (c : Instr) (s : State), step { s with pending := c :: s.pending } = exec c s

/-- A step on an empty queue (log 33: the model's choice) is one CORE cycle. -/
def Obligations.IdleStep : Prop :=
  ∀ s : State, s.pending = [] → ∃ t, step s = .next t ∧ t.cycle = s.cycle + 1 ∧ t.pending = [] ∧ t.t0 = s.t0 ∧ t.bridges = s.bridges ∧
    ∃ u : State, u.cycle = s.cycle + 1 ∧ t = cycleBegin u

/-- A command answers a next state in every state where it is well formed; a fault tells of an ill-formed one, and nothing is refused. A
command on a unit that the device does not have changes nothing but a count (log 11: the model's choice for hardware events). -/
def Obligations.WellFormedRuns : Prop :=
  ∀ (i : Instr) (s : State), (i.wf = true → ∃ t, exec i s = .next t) ∧
    (∀ f, exec i s = .fault f → f = .operandRange ∧ i.wf = false) ∧ (∀ r, exec i s ≠ .refused r) ∧
    (i.wf = false → exec i s = .fault .operandRange ∨ exec i s = .next s ∨ exec i s = .next (bump s (devicePage + 0x818)) ∨
      exec i s = .next (bump s (devicePage + 0x810)))

/-- The frame of every command by parts of the state: registers, the records of each unit, and every byte of each store. -/
def Obligations.CommandFrame : Prop :=
  ∀ (i : Instr) (s t : State), exec i s = .next t →
    changesOnly (changes i) s t ∧ t.pending = s.pending ∧ t.cycle = s.cycle

/-- The bytes that the storing commands of the scratchpads and carafes leave alone; what they store to is computed as their meanings compute it. -/
def Obligations.StoreFrames : Prop :=
  (∀ (t : Nat) (port : BitVec 1) (row : BitVec 15) (s u : State), sound s = true → exec (.writeRow t port row) s = .next u →
    ∀ x : Nat, (x < spAt t (64 * row.toNat) ∨ spAt t (64 * row.toNat) + 64 ≤ x) → memGet u.mem.sp x = memGet s.mem.sp x) ∧
  (∀ (a : Store) (w : AsyncRow) (s u : State), sound s = true → exec (.asyncWriteArrive a w) s = .next u →
    u.mem.sp = s.mem.sp ∧ u.mem.car = s.mem.car) ∧
  (∀ (a : Store) (bank : Nat) (w : BankRow) (r : List BankRow) (s u : State), sound s = true → bankQueue s a bank = w :: r →
    exec (.asyncWriteLand a bank) s = .next u →
    let base := storeAt a (w.row.row * storeRow a)
    ∀ x : Nat,
      (if (rowAmo s w.row).isSome then x < amoAddr a w.row ∨ amoAddr a w.row + 8 ≤ x
       else x < base ∨ base + storeRow a ≤ x ∨ w.row.mask.getLsbD (x - base) = false) →
      memGet (storeMem u a) x = memGet (storeMem s a) x) ∧
  (∀ (c : Nat) (v : BitVec 64) (s u : State), sound s = true → exec (.dmaDescData c v) s = .next u →
    let a := reg s (dmaBase c + 0x140)
    let cfg := (getRing s c (wfld a 5 0)).cfg
    let base := carAt c (slotAt cfg (wfld a 27 16 % ringSize cfg) + 8 * wfld a 10 8)
    ∀ x : Nat, (x < base ∨ base + 8 ≤ x) → memGet u.mem.car x = memGet s.mem.car x) ∧
  (∀ (a : Store) (bank : Nat) (s u : State), sound s = true → exec (.bankTransitionDone a bank) s = .next u →
    ∀ off : Nat, storeBank a (off / storeRow a) ≠ bank → memGet (storeMem u a) (storeAt a off) = memGet (storeMem s a) (storeAt a off))

/-- The read-after-write laws of the scratchpads and carafes. -/
def Obligations.StoreReadAfterWrite : Prop :=
  ∀ (s : State) (a : Store) (off : Nat) (l : List Byte), sound s = true → (∀ b k, bankQueue s b k = []) → off + l.length ≤ storeSize a →
    storeRead (storeWrite s a off l) a off l.length = l ∧
    (∀ (b : Store) (x : Nat), x < storeSize b → (b ≠ a ∨ x < off ∨ off + l.length ≤ x) →
      storeRead (storeWrite s a off l) b x 1 = storeRead s b x 1) ∧
    sound (storeWrite s a off l) = true

/-- The read-after-write laws of the registers (R5, R7) and the counters' wrap (R357). -/
def Obligations.RegisterReadAfterWrite : Prop :=
  (∀ (s : State) (a b : Nat) (v : Word), sound s = true → reg (setReg s a v) b = if b = a then v else reg s b) ∧
  (∀ (s : State) (a : Nat), tblFind s.regs a = none → reg s a = resetVal a) ∧
  (∀ (s : State) (a : Nat) (v : Word), sound s = true → sound (setReg s a v) = true) ∧
  (∀ (s : State) (a : Nat), sound s = true → (reg (bump s a) a).toNat = ((reg s a).toNat + 1) % 2 ^ 64)

/-- The reset values that the spec gives. -/
def Obligations.ResetValues : Prop :=
  let s := State.reset
  (∀ page : Nat, page < 0x4000 → ∀ p i, pageOf (4096 * page) = some (p, i) → p ≠ .phase →
    reg s (4096 * page + 0x10) = 1 ∧ reg s (4096 * page + 0x28) = 0 ∧ reg s (4096 * page + 0x48) = 0 ∧ reg s (4096 * page + 0x60) = 0 ∧
    ∀ k : Nat, k < 256 → reg s (4096 * page + 0x800 + 8 * k) = 0) ∧
  (∀ c : Nat, (getWalker s c).st = .idle ∧ ∀ r : Nat, (getRing s c r).cfg = 0 ∧ (getRing s c r).prod = 0 ∧ (getRing s c r).cons = 0) ∧
  (∀ tag : BitVec 12, (getJob s tag).st = .free) ∧ (∀ q : Nat, qpSt (getQp s q) = 0) ∧ (∀ p : Nat, (getPort s p).st = 0) ∧
  (∀ i : Nat, pcr s i = List.replicate 48 0) ∧ s.pending = [] ∧
  reg s (clusterBase 63 + 0x118) = 0x4190AB00 ∧ reg s (leasePage + 0x100) = 0x03938700 ∧ reg s (tierPage + 0x100) = 0x8000006400000004 ∧
  reg s (tierPage + 0x108) = 0x64 ∧ reg s (fabricPage + 0x108) = 0x64 ∧ reg s (fabricPage + 0x110) = 0x7D0 ∧
  reg s (hostPage + 0x1C8) = 0x00170E0E ∧ reg s (mgmtPage + 0x128) = 0x0000271000000064 ∧ reg s (mgmtPage + 0x228) = 0x0000000A00000014 ∧
  reg s (mgmtPage + 0x230) = 0x00786E5F ∧ reg s (devicePage + 0x1C8) = 0x64

/-- The invariant of `StepKeepsSound` holds at reset. -/
def Obligations.ResetSound : Prop :=
  sound State.reset = true

/-- The invariant that every step keeps: canonical byte stores, registers, tile and cluster records. -/
def Obligations.StepKeepsSound : Prop :=
  ∀ s t : State, sound s = true → step s = .next t → sound t = true

/-- The bundle's encoder and decoder agree, with every operand at every value. -/
def Obligations.BundleDecodeEncode : Prop :=
  (∀ b : Bundle, bundleFits b = true → bundleEncode b < 2 ^ 256 ∧ bundleDecode (bundleEncode b) = some b) ∧
  (∀ (v : Nat) (b : Bundle), bundleDecode v = some b → bundleFits b = true)

/-- The bytes of a collective message (layout: log 24) decode to it. -/
def Obligations.CollectiveDecodeEncode : Prop :=
  ∀ (k : CollKind) (d : CollData), collFits d = true → collDecode (collEncode k d) = (k, d)

/-- The sequencing slot's operations and the NOPs, each with its whole next state (R38, R39, R105, R116, R43, R137). That a slot alone does
not advance the program counter is the model's choice (log 13), and so is the last bundle of a loop past 1,023 (log 125). -/
def Obligations.SequencerOperations : Prop :=
  ∀ (t : Nat) (s : State), t < 1024 →
    (exec (.seqNop t) s = .next s ∧ exec (.matrixNop t) s = .next s ∧ exec (.vectorNop t) s = .next s) ∧
    (∀ (n : BitVec 3) (imm : BitVec 9),
      exec (.cset t n imm) s = .next (putTile s t (setCtr (getTile s t) n (imm.setWidth 16))) ∧
      exec (.cadd t n imm) s = .next (putTile s t (setCtr (getTile s t) n (ctrOf (getTile s t) n + imm.signExtend 16)))) ∧
    (∀ (n : BitVec 3) (l : BitVec 9), loopBad (getTile s t) (l.toNat + 1) = false →
      exec (.loop t n l) s = .next (putTile s t
        (if ctrOf (getTile s t) n = 0 then { getTile s t with pc := (getTile s t).pc + BitVec.ofNat 10 (l.toNat + 1) }
         else { getTile s t with loops := { first := (getTile s t).pc.toNat + 1, last := (getTile s t).pc.toNat + (l.toNat + 1),
                                            left := (ctrOf (getTile s t) n).toNat - 1 } :: (getTile s t).loops }))) ∧
    (∀ k : BitVec 2, (getTile s t).loops = [] → ctxSeen s t k = 2 →
      exec (.ctx t k) s = .next
        (let x : Tile := { getTile s t with pcs := tblSet 0 (getTile s t).pcs (getTile s t).active.toNat ((getTile s t).pc + 1) }
         bump (putTile s t { x with active := k, pc := pcOf x k }) (tileBase t + 0x848))) ∧
    (((getWalker s (t / 16)).st ≠ .running ∨
        (getWalker s (t / 16)).cyc + 1 = wfld (phaseWord s (t / 16) (getWalker s (t / 16)).cur.toNat 1) 23 0) →
      exec (.phaseEnd t) s = .next s)

/-- BUNDLE_ISSUE (R35, R37) in a cycle before the phase's last: each participating tile counts its bundle and has the effects of its slots;
the checks of all tiles are made before any effect. -/
def Obligations.BundleIssue : Prop :=
  ∀ (c : Nat) (s : State), c < 64 → (getWalker s c).st = .running →
    let ts := (tilesOf c).filter (fun t => (getTile s t).part)
    let len := wfld (phaseWord s c (getWalker s c).cur.toNat 1) 23 0
    let s0 := forAll ts s (fun t s => bump s (tileBase t + 0x800))
    let s1 := forAll ts s0 (fun t => bundleEffects t (issueCheck s0 t (getWalker s c).cyc len).1)
    (∀ t ∈ ts, (issueCheck s0 t (getWalker s c).cyc len).2 = none) → (getWalker s c).cyc + 1 < len →
    (getWalker s1 c).st ≠ .stopped →
    exec (.bundleIssue c) s = .next (putWalker s1 c { getWalker s1 c with cyc := (getWalker s c).cyc + 1, issued := s1.cycle + 1 })

/-- The scratchpad ports (R40, R94, R160, R163), each command with its whole next state. -/
def Obligations.ScratchpadPorts : Prop :=
  ∀ (t : Nat) (s : State) (port : BitVec 1), t < 1024 →
    (∀ (route : BitVec 3) (row : BitVec 15), route.toNat ≤ 4 → useFree s t ⟨false, row.toNat, 1, 0, 0⟩ → (getTile s t).eccInj = false →
      exec (.readRow t port route row) s = .next
        (let s' := noteAccess t [row.toNat] true s
         putTile s' t { getTile s' t with delivers := (getTile s' t).delivers ++
           [{ port := port, route := route, row := spRow (seenState s) t row.toNat, ctx := (getTile s' t).active, due := s.cycle + 6 }] })) ∧
    (∀ (route : BitVec 3) (g : BitVec 2), route.toNat ≤ 4 → useFree s t (genUse s t g.toNat (tblGet 0 (getTile s t).agenUse g.toNat).toNat) →
      exec (.readThroughGenerator t port route g) s = .next
        (portRead t port.toNat route.toNat (genUse s t g.toNat (tblGet 0 (getTile s t).agenUse g.toNat).toNat)
          (putTile s t { getTile s t with agenUse :=
                                           tblSet 0 (getTile s t).agenUse g.toNat (tblGet 0 (getTile s t).agenUse g.toNat + 1) }))) ∧
    (∀ (row : BitVec 15) (w : NetWord) (r : List NetWord), useFree s t ⟨false, row.toNat, 1, 0, 0⟩ →
      partOf (getTile s t) 0 (getTile s t).active = w :: r →
      exec (.writeRow t port row) s = .next
        (let s' := noteAccess t [row.toNat] false (putTile s t (putPart (getTile s t) 0 (getTile s t).active r))
         { s' with mem := { s'.mem with sp := setRow s'.mem.sp (spAt t (64 * row.toNat)) w.payload } })) ∧
    (∀ (d : Delivery) (r : List Delivery), (getTile s t).delivers = d :: r → d.due ≤ s.cycle →
      exec (.portReadDeliver t) s = .next
        (let s' := putTile s t { getTile s t with delivers := r }
         if d.route = 0 then streamIn t d.port.toNat d.row s'
         else if d.route = 1 then statLoad t d.row s'
         else if d.route = 2 then scaleLoad t d.row s'
         else if d.route = 3 then scaleIn t d.row s'
         else inject t 0 d.row d.ctx s'))

/-- The switch slot (R93 to R95, R123), each command with its whole next state. -/
def Obligations.SwitchOperations : Prop :=
  ∀ (t : Nat) (s : State), t < 1024 →
    (∀ (w : NetWord) (r : List NetWord), partOf (getTile s t) 0 (getTile s t).active = w :: r →
      exec (.takeMs t) s = .next (streamIn t 2 w.payload (putTile s t (putPart (getTile s t) 0 (getTile s t).active r))) ∧
      exec (.takeSs t) s = .next (scaleIn t w.payload (putTile s t (putPart (getTile s t) 0 (getTile s t).active r))) ∧
      exec (.drop t) s = .next (putTile s t (putPart (getTile s t) 0 (getTile s t).active r))) ∧
    (∀ (n : BitVec 3) (w : NetWord) (r : List NetWord), partOf (getTile s t) 1 (getTile s t).active = w :: r →
      exec (.scalarTakeC t n) s = .next
        (let s' := putTile s t (putPart (getTile s t) 1 (getTile s t).active r)
         putTile s' t (setCtr (getTile s' t) n (w.payload.setWidth 16)))) ∧
    (∀ (n : BitVec 3) (w : NetWord) (r : List NetWord), partOf (getTile s t) 2 (getTile s t).active = w :: r →
      exec (.controlTakeC t n) s = .next
        (let s' := putTile s t (putPart (getTile s t) 2 (getTile s t).active r)
         putTile s' t (setCtr (getTile s' t) n (BitVec.ofNat 16 (w.payload.toNat % 256))))) ∧
    (∀ n : BitVec 3,
      exec (.scalarSendC t n) s = .next (inject t 1 ((ctrOf (getTile s t) n).setWidth 512) (getTile s t).active s) ∧
      exec (.controlSendC t n) s = .next
        (inject t 2 (BitVec.ofNat 512 ((ctrOf (getTile s t) n).toNat % 256)) (getTile s t).active s) ∧
      let i := (ctrOf (getTile s t) n).toNat % 64
      let a := wctrAddr (t / 16) i
      let k := getClu s (t / 16)
      let s1 := setReg s a (reg s a + 1)
      (k.amoNow.filter (fun p => p.1 == s.cycle && p.2.1 == i) = [] →
        exec (.wfa t n) s = .next (putTile s1 t { getTile s1 t with wfas := (getTile s1 t).wfas ++
          [{ n := n, value := (reg s a).setWidth 16, due := s.cycle + 12 }] })) ∧
      (∀ v : Word, k.amoNow.filter (fun p => p.1 == s.cycle && p.2.1 == i) = [(s.cycle, i, v, false)] →
        exec (.wfa t n) s = .next
          (let s2 := putClu s1 (t / 16) { k with barRet := k.barRet + 1 }
           putTile s2 t { getTile s2 t with wfas := (getTile s2 t).wfas ++
             [{ n := n, value := (reg s a - v).setWidth 16, due := s.cycle + 12 }] }))) ∧
    exec (.sendSv t) s = .next (inject t 1 (BitVec.ofNat 512 (regF (seenState s) (tileBase t + 0x1C0) 31 0)) (getTile s t).active s) ∧
    (∀ imm : BitVec 5, exec (.sendI t imm) s = .next (inject t 2 (BitVec.ofNat 512 imm.toNat) (getTile s t).active s)) ∧
    exec (.putSum t) s = .next (setReg s (clusterBase (t / 16) + 0x400 + 8 * (t % 16)) (reg (seenState s) (tileBase t + 0x1C0))) ∧
    (∀ (f : WfaPending) (r : List WfaPending), (getTile s t).wfas = f :: r → f.due ≤ s.cycle →
      exec (.wfaResult t) s = .next (putTile s t { getTile s t with wfas := r, wfaDone := (getTile s t).wfaDone ++ [(f.n, f.value)] })) ∧
    (∀ (n : BitVec 3) (v : BitVec 16), (getTile s t).wfaDone = [(n, v)] →
      wfaEdge t s = putTile s t { setCtr (getTile s t) n v with wfaDone := [] })

/-- The matrix engine's commands (R45, R48, R49, R58, R453), each with its whole next state. -/
def Obligations.MatrixOperations : Prop :=
  ∀ (t : Nat) (s : State), t < 1024 →
    (∀ a : BlockArgs, blockEncOk (zt1 s (t / 16)) a = true → blockFault s t a = none →
      exec (.block t a) s = .next (startBlock t a s)) ∧
    (∀ bank : BitVec 1, exec (.statReset t bank) s = .next
      (putTile s t { getTile s t with loadBank := bank, loadPtr := tblSet 0 (getTile s t).loadPtr bank.toNat 0,
                                      scalePtr := tblSet 0 (getTile s t).scalePtr bank.toNat 0 })) ∧
    (∀ b : Block, (getTile s t).block = some b → b.taken < blockN b.args →
      let due := b.cycle + 1 + blockC (zt1 s (t / 16)) b.args * b.taken
      (due ≤ s.cycle → exec (.matChunkTake t) s = .next (takeChunk t b s)) ∧ (s.cycle < due → exec (.matChunkTake t) s = .next s)) ∧
    (∀ b : Block, (getTile s t).block = some b → b.taken = blockN b.args →
      let due := b.cycle + blockC (zt1 s (t / 16)) b.args * blockN b.args + 8
      (due ≤ s.cycle → exec (.abftCompare t) s = .next (endBlock t b s)) ∧ (s.cycle < due → exec (.abftCompare t) s = .next s))

/-- Arrivals at a node and at its steering units (R88, R90, R100, R101). -/
def Obligations.NetworkOperations : Prop :=
  ∀ (t : Nat) (s : State), t < 1024 →
    (∀ (net : BitVec 2) (inp : BitVec 3) (w : NetWord), net ≠ 3 → inp.toNat ≤ 4 → (getTile s t).parInj = false →
      (if net = 0 then w.parity else w.parity &&& 1) = parityBits net.toNat w.payload →
      (if net = 2 then tokenUnits s t w.ctx inp.toNat = [] else dataUnits s t w.ctx net.toNat inp.toNat = []) →
      routeMask s t w.ctx net.toNat inp.toNat ≠ 0 →
      exec (.netWordArrive t net inp w) s = .next
        (sendMask t net.toNat (routeMask s t w.ctx net.toNat inp.toNat) w
          { s with flying := s.flying.erase { tile := t, net := net, inp := inp, word := w } })) ∧
    (∀ (k u : BitVec 2) (token : BitVec 8) (seq : Bool), let st := getSteer s t k u.toNat
      stKind (steerCfg s t k u.toNat) ≠ 0 → tokenOk (stKind (steerCfg s t k u.toNat)) token.toNat = true → st.token = none →
      (stKind (steerCfg s t k u.toNat) = 2 → (if token = 0 then st.holdA else st.holdB) = none) →
      exec (.steerTokenArrive t k u token seq) s = .next
        (putSteer s t k u.toNat { st with token := some { value := token, seq := seq, since := s.cycle } })) ∧
    (∀ (k u : BitVec 2) (token : BitVec 8) (seq : Bool) (w : NetWord), let st := getSteer s t k u.toNat
      let tok : HeldToken := { value := token, seq := seq, since := s.cycle }
      stKind (steerCfg s t k u.toNat) = 2 → tokenOk 2 token.toNat = true → st.token = none →
      (if token = 0 then st.holdA else st.holdB) = some w →
      (w.seq = seq → exec (.steerTokenArrive t k u token seq) s = .next
        (let s1 := putSteer s t k u.toNat { st with holdA := if token = 0 then none else st.holdA, holdB := if token = 0 then st.holdB else none }
         let s2 := bump (putSteer s1 t k u.toNat { getSteer s1 t k u.toNat with token := none, paired := some tok }) (tileBase t + 0x850)
         putTile s2 t { getTile s2 t with leaving := (getTile s2 t).leaving ++
           ((List.range 5).filter (bit (stOut (steerCfg s t k u.toNat) 0))).map (fun o => (s.cycle + 1, ⟨fld (steerCfg s t k u.toNat) 7 7, o, w⟩)) })) ∧
      (w.seq ≠ seq → exec (.steerTokenArrive t k u token seq) s = .next
        (faultSteer t k u.toNat 0 seq w.seq (putSteer s t k u.toNat { st with token := some tok })))) ∧
    (∀ (k u : BitVec 2) (b : Bool) (w : NetWord),
      exec (.steerDataWord t k u b w) s = .next (putTile s t { getTile s t with steerIn := (getTile s t).steerIn ++ [(k, u.toNat, b, w)] })) ∧
    (∀ (k u : BitVec 2) (h : HeldToken), (getSteer s t k u.toNat).token = some h → h.since + pairWin s t k < s.cycle →
      exec (.steerTokenExpired t k u) s = .next
        (faultSteer t k u.toNat 2 h.seq false (putSteer s t k u.toNat { getSteer s t k u.toNat with token := none })))

/-- The edge of a cycle at a node (R88, R90, R97, R101). -/
def Obligations.NodeEdge : Prop :=
  ∀ (t : Nat) (s : State), sound s = true → (getTile s t).leaving = [] →
    let x := getTile s t
    (∀ (o : NodeOut) (u : Nat), x.steerIn = [] → x.outs = [o] → o.out < 4 → neighbour t o.out = some u →
      netEdge t s = { putTile s t { x with outs := [] } with flying := s.flying ++
        [{ tile := u, net := BitVec.ofNat 2 o.net, inp := BitVec.ofNat 3 ((o.out + 2) % 4), word := o.word }] }) ∧
    (∀ o : NodeOut, x.steerIn = [] → x.outs = [o] → o.out = 4 → (partOf x o.net o.word.ctx).length < partDepth o.net →
      netEdge t s = bump (putTile s t (putPart { x with outs := [] } o.net o.word.ctx (partOf x o.net o.word.ctx ++ [o.word]))) (tileBase t + 0x838)) ∧
    (∀ o p : NodeOut, x.steerIn = [] → x.outs = [o, p] → o.net = p.net → o.out = p.out →
      netEdge t s = faultNet t 0x100F o.net o.out o.word.ctx.toNat 1 (addCtr (putTile s t { x with outs := [] }) (tileBase t + 0x840) 2)) ∧
    (∀ (k : BitVec 2) (u : Nat) (b : Bool) (w : NetWord) (h : HeldToken), x.outs = [] → x.steerIn = [(k, u, b, w)] →
      (getSteer s t k u).token = some h → h.seq = w.seq → s.cycle ≤ h.since + pairWin s t k →
      ((stKind (steerCfg s t k u) = 1 ∨ stKind (steerCfg s t k u) = 2) ∧ h.value = (if b then 1 else 0)) ∨
        (stKind (steerCfg s t k u) = 3 ∧ b = false ∧ h.value.toNat < 4) →
      let mask := stOut (steerCfg s t k u) (if stKind (steerCfg s t k u) = 3 then h.value.toNat else 0)
      let y := getTile (netEdge t s) t
      y.outs = [] ∧ y.leaving = ((List.range 5).filter (bit mask)).map (fun o => (s.cycle + 1, ⟨fld (steerCfg s t k u) 7 7, o, w⟩)) ∧
      getSteer (netEdge t s) t k u = { getSteer s t k u with token := none, paired := some h } ∧
      reg (netEdge t s) (tileBase t + 0x850) = reg s (tileBase t + 0x850) + 1)

/-- The vector engine's commands (R42, R129, R137 to R139, R155): the 26 operations by OPC, and the completion of the queue's head. -/
def Obligations.VectorOperations : Prop :=
  ∀ (t : Nat) (s : State), t < 1024 →
    (∀ p ∈ vecCommands, ∀ a : VecArgs, vecReserved s t p.1 a = false → vecHeld s t < 4 →
      let x := getTile s t
      let en : VecEntry := { opc := p.1, args := a, ctx := x.active, cval := ctrOf x a.offc, started := none, last := 0, run := none }
      let s1 := putTile s t { x with vq := x.vq ++ [en] }
      let plan := vPlan s1 t p.1 a en.cval
      (x.vq ≠ [] ∨ s.cycle < x.vecFree → exec (p.2 t a) s = .next s1) ∧
      (x.vq = [] → x.vecFree ≤ s.cycle → startFault s1 t en.ctx plan (a.var.toNat % 8 + 1) = none →
        exec (p.2 t a) s = .next (vecBegin t en plan s1) ∧
        ∃ h, (getTile (vecBegin t en plan s1) t).vq = [h] ∧ h.started = some s.cycle ∧ h.last = s.cycle + plan.g + 4 + plan.extra)) ∧
    (∀ (en : VecEntry) (l : List VecEntry) (st : Nat) (r : VecRun), (getTile s t).vq = en :: l → en.started = some st → en.run = some r →
      let v := vecSummary (vecEnv s t en r.plan) r.acc
      let sum := summaryBits r.plan.opc (if r.plan.noSets then { v with value := (drawFree s).1.toNat } else v)
      let s0 := if r.plan.noSets then (drawFree s).2 else s
      (s.cycle < en.last → exec (.vectorInstrComplete t) s = .next s) ∧
      (s.cycle = en.last → exec (.vectorInstrComplete t) s = .next
        (let b := tileBase t
         let s1 := bump (bump (putTile s0 t { getTile s t with vq := l, vecFree := s.cycle + 1 }) (b + 0x858)) (b + 0x860)
         let s2 := addCtr (setReg s1 (b + 0x1C0) (summaryWord (reg s1 (b + 0x858)).toNat sum)) (b + 0x868) r.acc.elems
         let s3 := if summaryNonfinite sum then bump s2 (clusterBase (t / 16) + 0x878) else s2
         if en.args.cen = true ∨ r.plan.kind = .census then censusSend (cluTag s3 (t / 16)) en.args.ctag r.acc.census s3 else s3)))

/-- START, STOP, RESUME and CLEAR_DONE (R121, R125, R201, R354, R368, R376). What a disabled block starts is read from R354 (log 46). -/
def Obligations.WalkerCommands : Prop :=
  ∀ (c : Nat) (s : State), c < 64 →
    (∀ (u : State) (e : BitVec 8), cluRefused s c = some u →
      exec (.start c e) s = .next u ∧ exec (.stop c) s = .next u ∧ exec (.resume c e) s = .next u ∧ exec (.clearDone c) s = .next u) ∧
    (cluRefused s c = none →
    let w := getWalker s c
    let fault0 := setReg s (clusterBase c + 0x148) 0
    let ignored := bump s (clusterBase c + 0x828)
    (∀ e : BitVec 8,
      (((w.st = .idle ∨ w.st = .call ∨ w.st = .done) ∧ (getClu s c).run = none) → blkEn s (clusterBase c) = true →
        exec (.start c e) s = .next (putWalker fault0 c { getWalker fault0 c with
          st := .sampling, wait := e, fill := false, chosen := none, waitFrom := none, waitCnt := 0, stalled := false, unmet := 0,
          skip := false })) ∧
      (((w.st = .idle ∨ w.st = .call ∨ w.st = .done) ∧ (getClu s c).run ≠ none) → blkEn s (clusterBase c) = true →
        exec (.start c e) s = .next (putClu s c { getClu s c with heldStart := some e })) ∧
      (w.st ≠ .idle → w.st ≠ .call → w.st ≠ .done → exec (.start c e) s = .next ignored) ∧
      ((w.st = .idle ∨ w.st = .call ∨ w.st = .done) → blkEn s (clusterBase c) = false → exec (.start c e) s = .next s) ∧
      (w.st = .stopped → blkEn s (clusterBase c) = false → exec (.resume c e) s = .next s) ∧
      (w.st = .stopped → blkEn s (clusterBase c) = true → exec (.resume c e) s = .next (putWalker fault0 c { getWalker fault0 c with
          st := .sampling, wait := e, fill := false, chosen := none, waitFrom := none, waitCnt := 0, stalled := false, unmet := 0,
          skip := false })) ∧
      (w.st ≠ .stopped → exec (.resume c e) s = .next ignored)) ∧
    (w.st = .running → exec (.stop c) s = .next (putWalker s c { w with stopReq := true })) ∧
    ((w.st = .sampling ∨ w.st = .barrier ∨ w.st = .call ∨ w.st = .done) →
      exec (.stop c) s = .next (putWalker { s with arrivals := s.arrivals.filter (fun a => a.cluster != c) } c
        { w with st := .idle, chosen := none, waitFrom := none })) ∧
    (w.st = .idle → exec (.stop c) s = .next s) ∧
    (w.st = .stopped → exec (.stop c) s = .next ignored) ∧
    ((w.st = .idle ∨ w.st = .stopped ∨ w.st = .call ∨ w.st = .done) →
      exec (.clearDone c) s = .next (setReg (setReg (setReg (setReg fault0 (clusterBase c + 0x128) 0)
        (clusterBase c + 0x130) 0) (clusterBase c + 0x138) 0) (clusterBase c + 0x140) 0)) ∧
    ((w.st = .sampling ∨ w.st = .running ∨ w.st = .barrier) → exec (.clearDone c) s = .next ignored))

/-- The edges of a phase (R24, R112, R113, R115, R117). -/
def Obligations.PhaseEdges : Prop :=
  ∀ (c : Nat) (s : State), c < 64 →
    let w := getWalker s c
    (w.st = .sampling → w.chosen = none → (getClu s c).run = none →
      walkerHolds s c = false →
      let v := seenState s
      (regF v (clusterBase c + 0x118) 31 0 = 0 ∨ w.waitCnt < regF v (clusterBase c + 0x118) 31 0) →
      entryBad v c w.wait.toNat = false → entryCall v c w.wait.toNat = false → unmetTerms v c w.wait.toNat = 0 →
      entryF v c w.wait.toNat 5 21 21 = 0 →
      ∃ u, exec (.walkerSample c) s = .next u ∧ (getWalker u c).chosen = some (w.wait, false) ∧
        (getWalker u c).st = .sampling ∧ u = { s with clusters := u.clusters }) ∧
    (∀ (e : BitVec 8) (fill : Bool), w.st = .sampling → w.chosen = some (e, fill) → (getClu s c).run = none → blkEn s (clusterBase c) = true →
      (∀ t ∈ tilesOf c, bit (entryF s c e.toNat 0 47 32) (t % 16) = true →
        ctxSeen s t (BitVec.ofNat 2 (entryF s c e.toNat 0 (2 * (t % 16) + 1) (2 * (t % 16)))) = 2) →
      ∃ u, exec (.phaseStart c) s = .next u ∧ (getWalker u c).st = .running ∧ (getWalker u c).cur = e ∧
        (getWalker u c).fill = fill ∧ (getWalker u c).cyc = 0 ∧ (getWalker u c).chosen = none) ∧
    (w.st = .running → entryF s c w.cur.toNat 1 23 0 ≤ w.cyc →
      let s1 := forAll (tilesOf c) s (fun t s => putTile s t { getTile s t with part := false })
      (w.stopReq = true → exec (.phaseComplete c) s = .next
        (putWalker s1 c { w with st := .idle, stopReq := false, waitFrom := none, chosen := none, cyc := 0 })) ∧
      (w.stopReq = false → wbit (reg s (clusterBase c + 0x100)) 9 = false → w.fill = false → entryF s c w.cur.toNat 1 29 27 = 0 →
        exec (.phaseComplete c) s = .next
          (takeEntry c (entryF s c w.cur.toNat 1 47 40) (putWalker s1 c { w with cyc := 0 })))) ∧
    ((w.st = .sampling ∨ w.st = .barrier) → regF s (clusterBase c + 0x118) 31 0 ≠ 0 → regF s (clusterBase c + 0x118) 31 0 ≤ w.waitCnt →
      exec (.gateTimeout c) s = .next (raiseClu (clusterBase c) c 0x1012 (stopCluster c 0x1012 16 s))) ∧
    (∀ (die : Nat) (ch : BitVec 4) (tag : BitVec 12) (a : Arrival) (r : List Arrival), die < 4 →
      s.arrivals.filter (fun a => a.die == die && a.channel == ch && a.tag == tag) = a :: r →
      (∀ k ∈ maskClusters die a.mask.toNat, (∃ b ∈ a :: r, b.cluster = k) ∧ blkEn s (clusterBase k) = true) → (∀ b ∈ a :: r, b.cycle + 31 ≤ s.cycle) →
      exec (.barrierRelease die ch tag) s = .next
        (forAll (maskClusters die a.mask.toNat) s (fun k s => startPhase k (getWalker s k).wait.toNat false s)))

/-- The barista's accesses to a work counter (R123, R124, R368, R402). AMOADD.W's effect on the upper half is the model's choice (log 155). -/
def Obligations.WorkCounterAccess : Prop :=
  ∀ (c : Nat) (n : BitVec 6) (v : BitVec 64) (s : State), c < 64 →
    let a := clusterBase c + 0x200 + 8 * n.toNat
    let k := getClu s c
    let now := k.amoNow.filter (fun p => p.1 == s.cycle)
    let w := (v.setWidth 32).signExtend 64
    let none_ := fun (s : State) => putClu s c { getClu s c with barRet := 0 }
    (k.barReset = true → ∀ x : WcAccess, exec (.workCounterAmo c x n v) s = .next s) ∧
    (k.barReset = false → cluBlocked s c = true →
      let s1 := bump s (devicePage + 0x810)
      exec (.workCounterAmo c .store n v) s = .next s1 ∧
      ∀ x : WcAccess, x ≠ .store → exec (.workCounterAmo c x n v) s = .next (none_ s1)) ∧
    (k.barReset = false → cluBlocked s c = false →
      exec (.workCounterAmo c .amoAddD n v) s = .next
        (putClu (setReg s a (reg s a + v)) c { k with barRet := reg s a, amoNow := now ++ [(s.cycle, n.toNat, v, false)] }) ∧
      exec (.workCounterAmo c .amoAddW n v) s = .next
        (putClu (setReg s a (reg s a + w)) c
          { k with barRet := ((reg s a).setWidth 32).signExtend 64, amoNow := now ++ [(s.cycle, n.toNat, w, true)] }) ∧
      exec (.workCounterAmo c .store n v) s = .next (raiseClu (clusterBase c) c 0x2005 s) ∧
      exec (.workCounterAmo c .load n v) s = .next (none_ (raiseClu (clusterBase c) c 0x2005 s)) ∧
      exec (.workCounterAmo c .otherAmo n v) s = .next (none_ (raiseClu (clusterBase c) c 0x2005 s)))

/-- Asynchronous writes (R161, R162, R169, R172). -/
def Obligations.AsynchronousRows : Prop :=
  ∀ (a : Store) (s : State), storeOk a = true →
    (∀ w : AsyncRow, w.row * storeRow a < storeSize a → w.win = none → bankOn s a (storeBank a w.row) = true →
      cluBlocked s (storeClu a) = false →
      (w.desc = none → exec (.asyncWriteArrive a w) s = .next
        (putBankQueue s a (storeBank a w.row) (bankQueue s a (storeBank a w.row) ++ [⟨false, w⟩]))) ∧
      (∀ d : DescRef, w.desc = some d →
        let m := freshMsg s
        let s1 := putMsg s m { WinMsg.reset with origin := .desc d.cluster d.ring d.count }
        let s2 := putMsg s1 m { getMsg s1 m with waiting := 1, lastIn := true }
        exec (.asyncWriteArrive a w) s = .next
          (putBankQueue s2 a (storeBank a w.row) (bankQueue s2 a (storeBank a w.row) ++
            [⟨false, { w with win := some { window := 0, cls := .loc, tag := 0, jepoch := 0, key := 0, msg := m, last := true } }⟩])))) ∧
    (∀ (w : AsyncRow) (r : WinRef), w.row * storeRow a < storeSize a → w.win = some r → (getMsg s r.msg).refused = false →
      winCheck s a r.window r.cls r.tag r.jepoch r.key (rowSpan a w).1 (rowSpan a w).2 = 0 →
      exec (.asyncWriteArrive a w) s = .next
        (enterBank a w (putMsg s r.msg { getMsg s r.msg with
          waiting := (getMsg s r.msg).waiting + 1, lastIn := (getMsg s r.msg).lastIn || r.last,
          counter := if r.last then (if wbit (winCtrl s a r.window) 60 then some (storeClu a, wfld (winCtrl s a r.window) 59 56) else none)
                     else (getMsg s r.msg).counter }))) ∧
    (∀ (bank : Nat) (w : BankRow), bank < storeBanks a → bankQueue s a bank = [w] →
      (bankBusy s a bank = false → bankTaken s a bank = false →
        exec (.asyncWriteLand a bank) s = .next (landRow a w.row (takeBank a bank w.inBuf (putBankQueue s a bank [])))) ∧
      (bankBusy s a bank = true → w.inBuf = false →
        exec (.asyncWriteLand a bank) s = .next
          (let s1 := bump (putBankQueue s a bank [{ w with inBuf := true }]) (deferCtr a)
           if readNow s1 a w.row.row then bump s1 (collideCtr a) else s1))) ∧
    (∀ (w : AsyncRow) (t c : Nat), w.win = none →
      landRow (.sp t) w s = bump { s with mem := { s.mem with sp :=
                                                               forAll (maskedBytes 64 w) s.mem.sp (fun p m => memSet m (spAt t (w.row * 64) + p.1) p.2) } } (tileBase t + 0x888) ∧
      landRow (.car c) w s = { s with mem := { s.mem with car :=
                                                           forAll (maskedBytes 128 w) s.mem.car (fun p m => memSet m (carAt c (w.row * 128) + p.1) p.2) } })

/-- Bank states (R169, R170, R368, R376). -/
def Obligations.BankStates : Prop :=
  ∀ (a : Store) (s : State), storeOk a = true →
    (∀ (m : BitVec 2) (v : BitVec 64) (u : State), cluRefused s (storeClu a) = some u → exec (.bankStateWrite a m v) s = .next u) ∧
    (∀ (m : BitVec 2) (v : BitVec 64), m ≠ 3 → cluRefused s (storeClu a) = none →
      (∀ i : Nat, i < (match a with | .sp _ => 24 | .car _ => 32) → wfld v (2 * i + 1) (2 * i) ≠ 3) →
      exec (.bankStateWrite a m v) s = .next
        (forAll ((List.range (match a with | .sp _ => 24 | .car _ => 32)).map (fun i =>
          ((match a with | .sp _ => 0 | .car _ => 32 * m.toNat) + i, wfld v (2 * i + 1) (2 * i)))) s (bankRequest a))) ∧
    (∀ (b v : Nat), bankReq s a b ≠ v → bankRequest a (b, v) s =
      (let s1 := if bankReady s a b then setBankFrom s a b (BitVec.ofNat 2 (bankReq s a b)) else s
       setBankReady (setRegF s1 (bankStateReg a b).1 (2 * (bankStateReg a b).2 + 1) (2 * (bankStateReg a b).2) v) a b false)) ∧
    (∀ bank : Nat, bank < storeBanks a → bankReady s a bank = false → (bankFromOf s a bank = 0 → bankQueue s a bank = []) →
      exec (.bankTransitionDone a bank) s = .next
        (let s1 := if bankReq s a bank = 2 ∨ bankFromOf s a bank = 2 then zeroBank a bank s else s
         setBankReady (setBankFrom s1 a bank 0) a bank true))

/-- The window commands (R171, R174, R368, R376, R422). -/
def Obligations.WindowCommands : Prop :=
  ∀ (c : Nat) (target : BitVec 5) (n : BitVec 6) (epoch : BitVec 16) (s : State),
    c < 64 →
    (∀ u : State, cluRefused s c = some u →
      exec (.winOpen c target n epoch) s = .next u ∧ exec (.winClose c target n) s = .next u ∧ exec (.winSetEpoch c target n epoch) s = .next u) ∧
    (cluRefused s c = none → target.toNat ≤ 16 →
    let a := winTarget c target.toNat
    let w := winCtrl s a n.toNat
    n.toNat < winCount a →
    exec (.winClose c target n) s = .next (setReg s (winAddr a n.toNat + 16) (wput w 63 63 0)) ∧
    exec (.winSetEpoch c target n epoch) s = .next (setReg s (winAddr a n.toNat + 16) (wput w 39 24 epoch.toNat)) ∧
    (let ok : Prop := cluTag s c = some (BitVec.ofNat 12 (wfld w 51 40)) ∧ winBase s a n.toNat < winLimit s a n.toNat ∧
       winLimit s a n.toNat ≤ storeSize a ∧ ¬ (requireKey s = true ∧ wbit w 61 = true ∧ wfld w 23 0 = 0) ∧
       ¬ (target = 16 ∧ ringOverlaps s c (winBase s a n.toNat) (winLimit s a n.toNat) 64 = true)
     (ok → exec (.winOpen c target n epoch) s = .next (setReg s (winAddr a n.toNat + 16) (wput (wput w 39 24 epoch.toNat) 63 63 1))) ∧
     (¬ ok → exec (.winOpen c target n epoch) s = .next (bump s (clusterBase c + 0x828)))))

/-- Receive queues (R175, R176, R178, R368, R376, R402). -/
def Obligations.ReceiveQueues : Prop :=
  ∀ (c : Nat) (q : BitVec 4) (s : State), c < 64 →
    let a := rqAddr c q.toNat
    let avail := wfld (reg s (a + 16)) 31 0
    let grant := wfld (reg s (a + 16)) 63 32
    let wp := wfld (reg s (a + 8)) 31 0
    let rp := wfld (reg s (a + 8)) 63 32
    (∀ n : Nat,
      ((getClu s c).barReset = true → exec (.creditClaim c q n) s = .next s) ∧
      ((getClu s c).barReset = false → cluBlocked s c = true → exec (.creditClaim c q n) s = .next
        (let s1 := bump s (devicePage + 0x810)
         putClu s1 c { getClu s1 c with claimRet := 0 })) ∧
      ((getClu s c).barReset = false → cluBlocked s c = false → wbit (reg s a) 63 = false →
        exec (.creditClaim c q n) s = .next (putClu s c { getClu s c with claimRet := 0 })) ∧
      ((getClu s c).barReset = false → cluBlocked s c = false → wbit (reg s a) 63 = true →
        exec (.creditClaim c q n) s = .next
          (let s1 := if n ≤ avail then setReg s (a + 16) (packWord [(32, grant + n), (0, avail - n)]) else s
           putClu s1 c { getClu s1 c with claimRet := BitVec.ofNat 64 avail }))) ∧
    (∀ (v : BitVec 64) (u : State), cluRefused s c = some u → exec (.rqReturn c q v) s = .next u ∧ exec (.rqCfgWrite c q v) s = .next u) ∧
    (∀ v : BitVec 64, cluRefused s c = none → wfld v 31 0 ≤ (wp + 2 ^ 32 - rp) % 2 ^ 32 →
      exec (.rqReturn c q v) s = .next
        (setReg (setReg s (a + 8) (packWord [(32, (rp + wfld v 31 0) % 2 ^ 32), (0, wp)]))
          (a + 16) (packWord [(32, grant), (0, avail + wfld v 31 0)]))) ∧
    (∀ v : BitVec 64, cluRefused s c = none → (wp + 2 ^ 32 - rp) % 2 ^ 32 < wfld v 31 0 →
      exec (.rqReturn c q v) s = .next (faultCar c 0x2003 0 0 0 (bump s (carafeBase c + 0x818)))) ∧
    (∀ v : BitVec 64, let v' := v &&& BitVec.ofNat 64 (bits 63 18 + bits 16 0)
      let lo := wfld v' 16 0 * 256
      let hi := lo + (wfld v' 34 18 + 1) * 256
      cluRefused s c = none →
      (wbit (reg s a) 63 = true → wbit v' 63 = true → exec (.rqCfgWrite c q v) s = .next s) ∧
      (wbit (reg s a) 63 = false ∨ wbit v' 63 = false → 16 < wfld v' 55 51 ∨ storeSize (winTarget c (wfld v' 55 51)) < hi →
        exec (.rqCfgWrite c q v) s = .next (faultCar c 0x2001 0 0 0 (setReg s a (wput v' 63 63 0)))) ∧
      (wfld v' 55 51 ≤ 16 → hi ≤ storeSize (winTarget c (wfld v' 55 51)) →
        (wbit v' 63 = false → exec (.rqCfgWrite c q v) s = .next (setReg s a v')) ∧
        (wbit (reg s a) 63 = false → wbit v' 63 = true → wfld v' 55 51 = 16 → ringOverlaps s c lo hi 64 = true →
          exec (.rqCfgWrite c q v) s = .next (bump s (clusterBase c + 0x828))) ∧
        (wbit (reg s a) 63 = false → wbit v' 63 = true → ¬ (wfld v' 55 51 = 16 ∧ ringOverlaps s c lo hi 64 = true) →
          exec (.rqCfgWrite c q v) s = .next
            (setReg (setReg (setReg s a v') (a + 8) 0) (a + 16) (packWord [(0, wfld v' 34 18 + 1)])))))

/-- The lease and layout commands (R192 to R194, R200, R215, R217). -/
def Obligations.LeaseCommands : Prop :=
  ∀ (tag : BitVec 12) (shard : BitVec 24) (s : State),
    (∀ h : Nat, shardHdr s tag shard = some h →
      let r := getLease s tag shard
      let ret : RetBuf := r.ret.getD ⟨0, 0, 0⟩
      let waits := match r.pend with | some p => p.waits | none => false
      exec (.leaseQuery tag shard) s = .next
        (setReg (setReg (setReg s (leasePage + 0x110)
          (packWord [(62, 1), (61, b2n r.ret.isSome), (60, b2n (!r.defer.isEmpty)), (59, b2n waits), (20, ret.n % 2 ^ 20), (0, r.n % 2 ^ 20)]))
          (leasePage + 0x118) (packWord [(32, ret.version.toNat), (0, (shardView s tag shard h).version.toNat)]))
          (leasePage + 0x120) (packWord [(32, ret.step.toNat % 2 ^ 32), (0, r.step.toNat % 2 ^ 32)])) ∧
      exec (.forceReleaseCur tag shard) s = .next (collTick (afterRelease tag shard (putLease s tag shard { r with n := 0 }))) ∧
      exec (.forceReleaseRet tag shard) s = .next (collTick (afterRelease tag shard (putLease s tag shard { r with ret := none })))) ∧
    (∀ p : PendRun, (getLease s tag shard).pend = some p → p.waits = true → retFree (getLease s tag shard) = true →
      exec (.shardCommit tag shard) s = .next (collTick (commitGo tag shard p s))) ∧
    (∀ p : PendRun, (getLease s tag shard).pend = some p → regF s (leasePage + 0x100) 31 0 ≠ 0 →
      (p.waits = true → exec (.leaseTimeout tag shard .waitingCommit) s = .next
        (collTick (discardPend tag shard (markVeto tag p.step (leaseFault leaseTimeoutCode (ownAddr s) p.step shard tag s))))) ∧
      (p.waits = false → exec (.leaseTimeout tag shard .waitingCommit) s = .next (collTick s))) ∧
    (regF s (leasePage + 0x100) 31 0 = 0 → ∀ k : LeaseWait, exec (.leaseTimeout tag shard k) s = .next s) ∧
    (regF s (leasePage + 0x100) 31 0 ≠ 0 →
      (∀ (d : DeferredNew) (rest : List DeferredNew), (getLease s tag shard).defer = d :: rest →
        let s1 := putLease s tag shard { getLease s tag shard with defer := rest }
        ((collOf s1 ⟨tag, d.group, d.collId⟩).isSome = true →
          exec (.leaseTimeout tag shard .deferredNew) s = .next (collTick (collRefuse ⟨tag, d.group, d.collId⟩ leaseTimeoutCode s1))) ∧
        ((collOf s1 ⟨tag, d.group, d.collId⟩).isSome = false →
          exec (.leaseTimeout tag shard .deferredNew) s = .next (collTick (leaseFault leaseTimeoutCode (ownAddr s1) d.step shard tag s1)))) ∧
      ((getLease s tag shard).defer = [] → exec (.leaseTimeout tag shard .deferredNew) s = .next (collTick s)) ∧
      (∀ (key : CollKey) (g : BitVec 48), heldClose s tag = some (key, g) →
        exec (.leaseTimeout tag shard .heldContribution) s = .next
          (collTick (contribute key true (markVeto tag g (leaseFault leaseTimeoutCode (ownAddr s) g 0 tag s))))) ∧
      (heldClose s tag = none → exec (.leaseTimeout tag shard .heldContribution) s = .next (collTick s))) ∧
    (∀ (entry : BitVec 4) (b : List Byte), (getJob s tag).st ≠ .free →
      ((entry.toNat < 8 ∧ (getJob s tag).stages[entry.toNat]? = some b) ∨ (entry = 8 ∧ b = (getJob s tag).division ∧ b ≠ [])) →
      exec (.layoutQuery tag entry) s = .next
        (forAll (List.range 4) (setReg s (leasePage + 0x148) (packWord [(62, 1)])) (fun i s =>
          setReg s (leasePage + 0x150 + 8 * i) (BitVec.ofNat 64 (leNat ((b.drop (8 * i)).take 8)))))) ∧
    (∀ entry : BitVec 4, ((getJob s tag).st = .free ∨ 8 < entry.toNat ∨ (entry.toNat < 8 ∧ (getJob s tag).stages[entry.toNat]? = none) ∨
        (entry = 8 ∧ (getJob s tag).division = [])) →
      exec (.layoutQuery tag entry) s = .next (setRegF s (leasePage + 0x148) 62 62 0))

/-- The update engine's commands (R201 to R203, R205, R209, R210). That a run reads a header that waits for its page is read from R217
(log 134). -/
def Obligations.UpdateRunCommands : Prop :=
  ∀ (c : Nat) (s : State), c < 64 →
    (∀ (shard : BitVec 24) (tag : BitVec 12) (a : Nat),
      let s0 := setReg s (clusterBase c + 0x4B0) (packWord [(63, 1), (8, shard.toNat)])
      let g := BitVec.ofNat 48 (regF s (clusterBase c + 0x4A0) 47 0)
      let rd := tensorRead (.run c) tag (c / 16) a 64 s0
      let s1 := rd.2.2
      let stage := reg s1 (clusterBase c + 0x4C0)
      let b := headerNow s1 tag shard rd.2.1
      let h := parseHdr b
      cluRefused s c = none → cluTag s c = some tag → (getClu s c).run = none → walkerIn s c [.idle, .call, .done] = true →
      (getJob s0 tag).halted = false → shardHdr s0 tag shard = some a → rd.1 = 0 → crc32 (b.take 60) = recNat b 60 4 →
      hdrFieldBad (getJob s1 tag) tag shard (zt1 s1 c) b = false → runPending s1 c tag shard = false →
      wbit stage 40 = true → wfld stage 17 0 + 511 ≤ wfld stage 37 20 → wfld stage 37 20 ≤ 196607 → blkEn s (clusterBase c) = true → g.toNat = h.lastStep.toNat + 1 →
      retFree (getLease s1 tag shard) = true → mgmtRuns s1 = true →
      exec (.run c shard) s = .next (runGo c
        { tag := tag, shard := shard, step := g, hdrAddr := a, hdr := h, waiting := true, since := s1.cycle, scalars := [], blk := 0, pc := 0,
          loaded := false, vals := [], scales := [], zeroed := none, dropped := false } s1)) ∧
    (∀ r : UpdRun, (getClu s c).run = some r → r.waiting = true → retFree (getLease s r.tag r.shard) = true → mgmtRuns s = true →
      exec (.runWaitEnd c) s = .next (runGo c r s)) ∧
    (∀ p ∈ updCommands, ∀ r : UpdRun, (getClu s c).run = some r → r.waiting = false → r.loaded = true →
      (updInstr (runProg s r) r.pc).op = p.1 →
      exec (p.2 c) s = .next (runKeep c (afterInstr c (runProg s r)
        (updStep c (runProg s r) (updInstr (runProg s r) r.pc) { code := 0, run := r, st := s })))) ∧
    (∀ r : UpdRun, (getClu s c).run = some r → r.waiting = false → r.dropped = false →
      let q := runAll c (runProg s r) (runBlocks r + 1) { code := 0, run := r, st := s }
      q.code = 0 → writesOf q.st (.run c) = [] →
      exec (.runComplete c) s = .next
        (let s1 := bump q.st (clusterBase c + 0x830)
         runEnd c (runCounted r.tag r.shard r.step (putLease s1 r.tag r.shard { getLease s1 r.tag r.shard with
           pend := some { step := r.step, cluster := c, hdrAddr := r.hdrAddr, hdr := r.hdr, waits := false } }))))

/-- The end of a step (R215 to R218, R220, R237). -/
def Obligations.StepClosing : Prop :=
  ∀ (tag : BitVec 12) (s : State),
    (∀ r : StepRecord,
      let s1 := summaryAct tag r (summaryWatch tag r s)
      exec (.stepSummary tag r) s = .next (collTick (putJob s1 tag { getJob s1 tag with
        kept := (getJob s1 tag).kept.filter (fun k => k.step != r.step),
        poisoned := (getJob s1 tag).poisoned.filter (fun p => p.1 != r.step) }))) ∧
    (∀ (g : BitVec 48) (w : StepWindow), (getJob s tag).window = some w → w.heldStep = g → allRan s tag g = true →
      let s1 := putJob s tag { getJob s tag with window := some { w with clean := some g } }
      (heldClose s1 tag = none → exec (.cleanIntervalEnd tag g) s = .next (collTick s1)) ∧
      (∀ key : CollKey, heldClose s1 tag = some (key, g) → exec (.cleanIntervalEnd tag g) s = .next (collTick (contribute key false s1)))) ∧
    (∀ g : BitVec 48, (getJob s tag).profile ≠ [] →
      let p := (getJob s tag).profile
      let q := roastEval tag g.toNat s
      let v := fun (i : Nat) => (nth (0 : BitVec 32) q.1 i).toNat
      exec (.roastQuery tag g) s = .next
        (forAll (List.range 8)
          (setReg (setReg (setReg (setReg q.2 (roastPage + 0x108) (packWord [(62, 1)])) (roastPage + 0x110) (packWord [(0, v 0)]))
            (roastPage + 0x118) (packWord [(0, v 1)])) (roastPage + 0x120) (packWord [(32, v 3), (0, v 2)]))
          (fun i s => setReg s (roastPage + 0x140 + 8 * i) (BitVec.ofNat 64 (recNat p (8 * i) 8)))))

/-- Census records and the loss port (R229, R231 to R233, R239). The bit of the LOSS event is presumed (log 16). -/
def Obligations.CensusAndLoss : Prop :=
  ∀ (tag ctag : BitVec 12) (s : State),
    (∀ (r : CensusRec), tblFind (getJob s tag).census ctag.toNat = some r →
      (∀ n : CensusCounts, exec (.censusEvent tag ctag n) s = .next
        (putJob { s with census := s.census.erase (tag, ctag, n) } tag
          { getJob s tag with census := tblIns (getJob s tag).census ctag.toNat { r with live := addCounts r.live n } })) ∧
      exec (.snapClear tag ctag) s = .next
        (putJob s tag { getJob s tag with census := tblIns (getJob s tag).census ctag.toNat { live := CensusCounts.zero, snap := r.live } }) ∧
      (∀ snap : Bool, exec (.cenQuery tag snap ctag) s = .next (cenShow (some (if snap then r.snap else r.live)) s))) ∧
    ((getJob s tag).census ≠ [] → exec (.snapClearJob tag) s = .next
      (putJob s tag { getJob s tag with census :=
                                         (getJob s tag).census.map (fun p => (p.1, { live := CensusCounts.zero, snap := p.2.live })) })) ∧
    (tblFind (getJob s tag).census ctag.toNat = none → ∀ n : CensusCounts,
      exec (.censusEvent tag ctag n) s = .next (bump { s with census := s.census.erase (tag, ctag, n) } (numericsPage + 0x800))) ∧
    (∀ v : BitVec 64, regF s (numericsPage + 0x200) 11 0 = tag.toNat → (getJob s tag).inUse = false →
      exec (.lossIn v) s = .next (bump s (numericsPage + 0x838))) ∧
    (∀ v : BitVec 64, regF s (numericsPage + 0x200) 11 0 = tag.toNat → (getJob s tag).inUse = true →
      let step := BitVec.ofNat 32 (wfld v 31 0)
      let f := lossFold (getJob s tag).loss (BitVec.ofNat 32 (wfld v 63 32)) step
      let s1 := bump (putJob s tag { getJob s tag with loss := f.1 }) (numericsPage + 0x808)
      ((∀ l : BitVec 32, (getJob s tag).loss.last = some l → l.toNat < step.toNat) →
        exec (.lossIn v) s = .next (if f.2 then raiseEvent numericsPage 0 (bump s1 (numericsPage + 0x810)) else s1)) ∧
      (∀ l : BitVec 32, (getJob s tag).loss.last = some l → step.toNat ≤ l.toNat →
        exec (.lossIn v) s = .next (bump s (numericsPage + 0x818))))

/-- Cupping (R228, R238). -/
def Obligations.CuppingCommands : Prop :=
  ∀ (c : Nat) (s : State), c < 64 →
    (∀ p : CupSample, (getClu s c).cupSlots.filter (fun p => p.due.isSome) = [p] →
      exec (.cuppingCompare c) s = .next (cupCompare c p s)) ∧
    (∀ (v : BitVec 64) (u : State), cluRefused s c = some u → exec (.cupHselWrite c v) s = .next u) ∧
    (∀ v : BitVec 64, cluRefused s c = none →
      let slot := wfld v 4 0
      let at_ := fun (n : Nat) => if slot ≤ 16 then (tblGet 0 (getClu s c).cupHist (16 * slot + n)).toNat else 0
      let s1 := forAll (List.range 8) (setReg s (clusterBase c + 0x518) (BitVec.ofNat 64 slot)) (fun m s =>
        setReg s (clusterBase c + 0x520 + 8 * m) (packWord [(32, at_ (2 * m + 1)), (0, at_ (2 * m))]))
      exec (.cupHselWrite c v) s = .next
        (if wbit v 8 then putClu s1 c { getClu s1 c with cupHist := tblKeep (fun i => i / 16 != slot) (getClu s1 c).cupHist } else s1))

/-- The pour unit's commands (R243 to R255, R376). -/
def Obligations.PourRequests : Prop :=
  ∀ (h : Nat) (q : BitVec 6) (s : State), h < 2 →
    let p := getPq s h q.toNat
    (domainOn s (4 + h) = false → (∀ row : BitVec 18, exec (.pqDoorbell h q row) s = .next (bump s (mgmtPage + 0x808))) ∧
      exec (.pourResume h q) s = .next (bump s (mgmtPage + 0x808))) ∧
    (∀ row : BitVec 18, domainOn s (4 + h) = true →
      (p.fifo.length < 8 → wbit p.cfg 63 = true → p.error = false →
        exec (.pqDoorbell h q row) s = .next (putPq s h q.toNat { p with fifo := p.fifo ++ [row] })) ∧
      (8 ≤ p.fifo.length ∨ wbit p.cfg 63 = false ∨ p.error = true → exec (.pqDoorbell h q row) s = .next (bump s (pourCtr h 6)))) ∧
    (∀ (row : BitVec 18) (l : List (BitVec 18)) (r : PourReq),
      let b := pqRead s (pqClu p) row.toNat 0 64
      let s1 := pourTake h q.toNat b s
      p.fifo = row :: l → p.req = none → p.ending = none → p.error = false → wbit p.cfg 63 = true → pqRuns s p = true → blkEn s (pourPage h) = true →
      pqOn s (pqClu p) row.toNat 64 = true → (getPq s1 h q.toNat).req = some r → pourRecOk b (pqMap s p) = true →
      (recF b 0 1 = 1 → exec (.fwd h q) s = .next (pourForward h q.toNat r (pqMap s p) s1)) ∧
      (recF b 0 1 = 2 → exec (.bwd h q) s = .next (pourBackward h q.toNat r (pqMap s p) s1)) ∧
      (recF b 0 1 = 3 → exec (.pourReturn h q) s = .next (pourBack h q.toNat r (pqMap s p) s1))) ∧
    (∀ (r : PourReq) (g : Nat × Nat) (l : List (Nat × Nat)), p.req = some r → r.claiming = true → r.groupsLeft = g :: l →
      s.awaited.any (fun a => a.owner == .pour h q.toNat && a.op == 4) = false →
      exec (.pourClaimRetry h q) s = .next
        (let s1 := groupClaim h q.toNat g.1 g.2 s
         pourAdvance h q.toNat (pourFuel s1 h q.toNat) s1)) ∧
    (∀ (r : PourReq) (t : Nat), p.req = some r → r.firstSend = some t →
      exec (.pourTimeout h q) s = .next (pourEnd h q.toNat pourTimeoutCode 0 s)) ∧
    (domainOn s (4 + h) = true → exec (.pourResume h q) s = .next (putPq s h q.toNat { p with error := false }))

/-- Key/value walks (R262 to R269, R273). -/
def Obligations.WalkCommands : Prop :=
  ∀ (c : Nat) (ring : BitVec 6) (s : State), c < 64 →
    (∀ n : BitVec 32, startsWith s c ring.toNat n →
      let b := descBytes s c ring.toNat n
      let s1 := withDesc s c ring.toNat n b
      (recF b 0 1 = 2 → recF b 4 1 = 0 → exec (.readWalk c ring) s = .next (readWalkBody c ring.toNat n b s1)) ∧
      (recF b 0 1 = 2 → recF b 4 1 = 1 → exec (.appendWalk c ring) s = .next (appendWalkBody c ring.toNat n b s1))) ∧
    (∀ (d : Desc) (w : WalkState) (a len : Nat), walkOf s c ring.toNat = some (d, w) →
      let n := d.count
      let b := d.raw
      let h := w.head
      let tag := d.tag
      let q := readEntry c ring.toNat n h w.entry s
      let cap := len / hdrRow h
      let k := min w.left (w.base + cap - w.pos)
      let x := tensorRead (descOwner c ring.toNat n) tag (c / 16) (a + (w.pos - w.base) * hdrRow h) (k * hdrRow h) q.2.2
      let t := walkDeliver c ring.toNat n b h w k (decide (w.left = k)) x.2.1 x.2.2
      w.append = false → w.left ≠ 0 → w.entry < hdrNent h → q.1 = 0 → parseListEntry q.2.1 (hdrRow h) = .page a len →
      recF h 17 1 % 16 = 0 → bulkSeen (seenUnits q.2.2) tag a len = [] → x.1 = 0 → t.1 = 0 →
      exec (.walkEntryStart c ring) s = .next
        (walkNext c ring.toNat n w k cap (k * hdrRow h) (streamCounts h x.2.1 k) (releaseEntry c ring.toNat n w.entry t.2))) ∧
    (∀ (d : Desc) (w : WalkState), walkOf s c ring.toNat = some (d, w) → w.append = true → w.left = 0 →
      writesOf s (descOwner c ring.toNat d.count) = [] →
      let b := d.raw
      let h := w.head
      let len := hdrLen h + recF b 28 4
      let sealed_ := recF h 28 4 % 2 ^ 23
      let first := min sealed_ (recF b 32 4)
      let q := sealUpTo d.tag h len w.entry (hdrNent h + 1) first (baseBelow s h first (recF b 32 4) (recF b 36 4)) (sealed_, s)
      exec (.appendEnd c ring) s = .next
        (descLand c ring.toNat d.count (editDesc c ring.toNat d.count (fun d => { d with walk := d.walk.map (fun w => { w with append := false }) })
          (addCtr (tensorStore w.hdr (hdrWith h len q.1 false) q.2) (kvPage + 0x808) (recF b 28 4))))) ∧
    (∀ tag : BitVec 12, (getJob s tag).st = .bound →
      let rec_ := if (getJob s tag).ringRec = [] then leBytes 4 0 ++ leBytes 12 1 else (getJob s tag).ringRec
      exec (.kvRingQuery tag) s = .next
        (setReg (setReg (setReg s (kvPage + 0x108) (packWord [(62, 1)])) (kvPage + 0x110) (BitVec.ofNat 64 (recF rec_ 0 8)))
          (kvPage + 0x118) (BitVec.ofNat 64 (recF rec_ 8 8))))

/-- The tier commands (R275, R278, R281, R284, R300). -/
def Obligations.TierCommands : Prop :=
  ∀ (tag : BitVec 12) (addr : BitVec 48) (s : State),
    (∀ (sz : BitVec 4) (hint : BitVec 3),
      ((mapPage tag addr.toNat sz.toNat hint s).1 = some 0 ∨ (mapPage tag addr.toNat sz.toNat hint s).1 = none) →
      exec (.tierMap tag addr sz hint) s = .next
        (setReg (mapPage tag addr.toNat sz.toNat hint s).2 (tierPage + 0x138) (packWord [(63, 1)]))) ∧
    (∀ (k : Nat) (p : Page), pageAt s (addr.toNat / 65536) = some (k, p) →
      (pageLive p = true → p.tag = tag → s.badSlots.contains (addr.toNat / 65536) = false → p.st ≠ .rinsing →
        (p.holds = 0 → p.hint ≠ 4 → p.st = .resident → exec (.tierUnmap tag addr) s = .next
          (tierSettle (tierStatus 0 false (putPage (unclosePage k (dropCopy k s)) k Page.reset)))) ∧
        (∀ h : BitVec 3, h ≠ 7 → p.st ≠ .resident → exec (.tierHint tag addr h) s = .next
          (putPage (setReg s (tierPage + 0x138) (packWord [(63, 1)])) k { p with newHint := some h, hintCmd := true })) ∧
        (∀ h : BitVec 3, h ≠ 7 → p.st = .resident →
          let s1 := putPage (setReg s (tierPage + 0x138) (packWord [(63, 1)])) k { p with newHint := some h, hintCmd := true }
          let q := setHint k h (putPage s1 k { p with newHint := none, hintCmd := true })
          q.1 = some 0 → exec (.tierHint tag addr h) s = .next
            (tierSettle (tierStatus 0 false (putPage q.2 k { getPage q.2 k with hintCmd := false })))) ∧
        (p.hint ≠ 5 → (takeHold k s).1 = true → exec (.promote tag addr) s = .next
          (tierStatus 0 false (holdPromote k (ownStack k) true (takeHold k s).2))) ∧
        (p.holds ≠ 0 → exec (.tierRelease tag addr) s = .next (tierStatus 0 false (giveHold k s))) ∧
        (p.hint ≠ 4 → ¬ (p.hint = 6 ∧ p.closed = false) → exec (.evict tag addr) s = .next (tierStatus 0 false (evictMeets k s)))) ∧
      (p.filling = true → p.st = .resident → exec (.mapFillDone addr) s = .next (tierStatus 0 false (fillDone k s))) ∧
      (∀ f : BitVec 25, p.dest = some f → p.st = .promoting → getPage s k = p →
        let e := readEcc { p with copy := none } (f.toNat / 0x10_0000 % 4) (65536 * k) s
        e.1 = 0 → moveCut e.2 p f = false →
        exec (.moveCommit addr) s = .next (moveEnd k (bump (putPage
          (clearFlips (65536 * k) (65536 * pageFrames p) (countCorrected (65536 * k) (65536 * pageFrames p) e.2)) k
          (if p.destCopy then { p with copy := some f, st := .resident, dest := none, destCopy := false }
           else { p with bulk := false, frame := f, st := .resident, dest := none, destCopy := false })) (tierPage + 0x800)))) ∧
      (pageLive p = true → s.badSlots.contains (addr.toNat / 65536) = false → exec (.tierQuery addr) s = .next
        (setReg (setReg s (tierPage + 0x148) (packWord [(62, 1), (61, b2n p.pendEv), (0, p.holds % 65536)]))
          (tierPage + 0x150) (entryWord k (addr.toNat / 65536) p))) ∧
      (s.badSlots.contains (addr.toNat / 65536) = true →
        exec (.tierQuery addr) s = .next (setReg (setReg s (tierPage + 0x148) 0) (tierPage + 0x150) 0))) ∧
    (pageAt s (addr.toNat / 65536) = none → exec (.tierQuery addr) s = .next (setReg (setReg s (tierPage + 0x148) 0) (tierPage + 0x150) 0))

/-- TIER_AGE, TIER_PROMOTE_TMO and HOLD_RETRY (R280, R281, R283). -/
def Obligations.TierAgeing : Prop :=
  ∀ (c : Nat) (ring : BitVec 6) (s : State), c < 64 →
    (wbit (reg s (tierPage + 0x100)) 63 = true → wfld (reg s (tierPage + 0x100)) 47 32 ≠ 0 →
      exec .tierAge s = .next { s with pages := s.pages.map (fun p => (p.1, { p.2 with acc := p.2.acc >>> 1 })) }) ∧
    (∀ (d : Desc) (l : List Desc) (w : TWrite) (r : List TWrite), (getRing s c ring.toNat).flight = d :: l →
      writesOf s (descOwner c ring.toNat d.count) = w :: r → s.colls = [] →
      exec (.tierPromoteTmo c ring) s = .next (descFail c ring.toNat d.count 0x3007 0 false (tierFault 0x3007 w.addr s))) ∧
    exec (.holdRetry c ring) s = .next (retryHolds (fun w => match w.owner with
      | .ring c' r' _ => c' == c && r' == ring.toNat
      | _ => false) s)

/-- The commands of a DMA ring (R169, R288, R289, R298, R368, R376). -/
def Obligations.RingCommands : Prop :=
  ∀ (c : Nat) (ring : BitVec 6) (s : State), c < 64 →
    (∀ (u : State) (n : BitVec 16) (v : BitVec 64), cluRefused s c = some u →
      exec (.dmaDoorbell c ring n) s = .next u ∧ exec (.dmaDescData c v) s = .next u ∧ exec (.dmaResume c ring) s = .next u ∧
      exec (.dmaSkip c ring) s = .next u ∧ exec (.dmaAbort c ring) s = .next u ∧ exec (.dmaRingCfgWrite c ring v) s = .next u) ∧
    (cluRefused s c = none →
    let g := getRing s c ring.toNat
    (∀ n : BitVec 16,
      ((g.prod - g.cons).toNat + n.toNat ≤ ringSize g.cfg →
        exec (.dmaDoorbell c ring n) s = .next (putRing s c ring.toNat { g with prod := g.prod + n.setWidth 32 })) ∧
      (ringSize g.cfg < (g.prod - g.cons).toNat + n.toNat → exec (.dmaDoorbell c ring n) s = .next (bump s (dmaBase c + 0x820)))) ∧
    (∀ v : BitVec 64,
      let a := reg s (dmaBase c + 0x140)
      let g := getRing s c (wfld a 5 0)
      let k := wfld a 27 16 % ringSize g.cfg
      let word := (wfld a 10 8 + 1) % 8
      (g.prod - g.cons).toNat ≤ (k + ringSize g.cfg - descSlot g.cfg g.cons) % ringSize g.cfg → slotAt g.cfg k + 64 ≤ 0x180_0000 →
      (rowsOn s (.car c) (slotAt g.cfg k / 128) 1 = false → exec (.dmaDescData c v) s = .next (raiseClu (dmaBase c) c 0x2001 s)) ∧
      (rowsOn s (.car c) (slotAt g.cfg k / 128) 1 = true → exec (.dmaDescData c v) s = .next
        (setReg (storeWrite s (.car c) (slotAt g.cfg k + 8 * wfld a 10 8) (leBytes 8 v.toNat)) (dmaBase c + 0x140)
          (wput (wput a 10 8 word) 27 16 (if word = 0 then (k + 1) % ringSize g.cfg else k))))) ∧
    (g.error = true →
      let s1 := forAll g.flight s (descAbandon c ring.toNat)
      let s2 := putRing s1 c ring.toNat { getRing s1 c ring.toNat with flight := [] }
      let g2 := getRing s2 c ring.toNat
      exec (.dmaResume c ring) s = .next (putRing s2 c ring.toNat { g2 with error := false }) ∧
      exec (.dmaSkip c ring) s = .next (putRing s2 c ring.toNat { g2 with error := false, cons := g2.cons + 1 })) ∧
    (g.error = true → g.flight = [] →
      exec (.dmaSkip c ring) s = .next
        (putRing (putRing s c ring.toNat g) c ring.toNat { g with error := false, cons := g.cons + 1 })) ∧
    exec (.dmaAbort c ring) s = .next
      (let s1 := forAll g.flight s (descAbandon c ring.toNat)
       let s2 := putRing s1 c ring.toNat { getRing s1 c ring.toNat with flight := [] }
       let g2 := getRing s2 c ring.toNat
       putRing s2 c ring.toNat { g2 with cons := g2.prod, error := false, err := 0 }) ∧
    (∀ v : BitVec 64, let v' := v &&& BitVec.ofNat 64 (bits 63 63 + bits 51 40 + bits 23 20 + bits 17 0)
      wfld v' 23 20 < 12 →
      (wbit g.cfg 63 = false → (wbit v' 63 = true → ringEnableOk s c ring.toNat v' = true) →
        exec (.dmaRingCfgWrite c ring v) s = .next (putRing s c ring.toNat { g with cfg := v' })) ∧
      (wbit g.cfg 63 = true → wbit v' 63 = false →
        exec (.dmaRingCfgWrite c ring v) s = .next (putRing s c ring.toNat { g with cfg := v' })) ∧
      (wbit g.cfg 63 = true → wbit v' 63 = true → exec (.dmaRingCfgWrite c ring v) s = .next (bump s (dmaBase c + 0x820)))) ∧
    (∀ (d : Desc) (l : List Desc), g.flight = d :: l →
      (d.wait = .fence → exec (.dmaWaitTmo c ring) s = .next (descFail c ring.toNat d.count 0x300C 0 false s)) ∧
      (d.wait = .claim → exec (.dmaWaitTmo c ring) s = .next (descFail c ring.toNat d.count 0x2003 0 false s)) ∧
      (∀ dev : Nat, d.wait = .claim → s.awaited.any (fun a => a.owner == .ring c ring.toNat d.count) = false →
        copyDev s d.tag d.raw = some dev → (∀ e ∈ l, e.wait ≠ .claim) →
        exec (.dmaClaimRetry c ring) s = .next (copyClaim c ring.toNat d.count d.raw dev s))))

/-- Starting, waiting and completing descriptors (R166, R290, R292, R294 to R297). What the byte counter counts and how a read that waits is
counted are read from the rules (logs 121, 137). -/
def Obligations.DescriptorStarts : Prop :=
  ∀ (c : Nat) (ring : BitVec 6) (s : State), c < 64 →
    (∀ n : BitVec 32, startsWith s c ring.toNat n →
      let b := descBytes s c ring.toNat n
      let s1 := withDesc s c ring.toNat n b
      (recF b 0 1 = 1 → exec (.copy c ring) s = .next (copyBody c ring.toNat n b s1)) ∧
      (recF b 0 1 = 3 → exec (.curve c ring) s = .next (curveBody c ring.toNat n b s1)) ∧
      (recF b 0 1 = 4 → (getRing s c ring.toNat).flight = [] → exec (.complete c ring) s = .next (completeBody c ring.toNat n b s1)) ∧
      (recF b 0 1 = 5 → recF b 4 4 = 0 → (b.drop 16).all (· == 0) = true →
        exec (.fence c ring) s = .next (descWait c ring.toNat n .fence s1))) ∧
    (∀ (d : Desc) (l : List Desc), (getRing s c ring.toNat).flight = d :: l → descReady s c ring.toNat d = true →
      recF d.raw 1 1 = 1 → ctxLoads c d.raw = [] → d.op ≠ 2 →
      exec (.descComplete c ring) s = .next
        (let s1 := setBit (addCtr (bump (putRing s c ring.toNat { getRing s c ring.toNat with
           flight := l, cons := (getRing s c ring.toNat).cons + 1 }) (dmaBase c + 0x800)) (dmaBase c + 0x808) d.bytes)
           (clusterBase c + 0x120) ring.toNat
         putClu s1 c { getClu s1 c with doneNow := (s1.cycle, doneSet s1 c ||| BitVec.ofNat 64 (2 ^ ring.toNat)) })) ∧
    (∀ (cupping : Bool) (row : Nat), row < 196608 → bankOn s (.car c) (storeBank (.car c) row) = true →
      (reqBlocked s c (storeBank (.car c) row) = false → (carEcc c s).1 = false →
        ¬ ((getClu s c).rrLast = cupping ∧ (getClu s c).reqWait.contains (!cupping, storeBank (.car c) row) = true) →
        exec (.carafeReadReturn c cupping ring row) s = .next
          (let s1 := reqTake c [storeBank (.car c) row] s
           putClu s1 c { getClu s1 c with
             reqData := tblSet 0 (getClu s1 c).reqData (if cupping then 64 else ring.toNat)
               (BitVec.ofNat 1024 (leNat (storeRead s (.car c) (128 * row) 128))), rrLast := cupping,
             reqWait := (getClu s1 c).reqWait.filter (· != (cupping, storeBank (.car c) row)) })) ∧
      (reqBlocked s c (storeBank (.car c) row) = true → (getClu s c).reqWait.contains (cupping, storeBank (.car c) row) = true →
        exec (.carafeReadReturn c cupping ring row) s = .next (bump (putClu s c (getClu s c)) (carafeBase c + 0x820))) ∧
      (reqBlocked s c (storeBank (.car c) row) = true → (getClu s c).reqWait.contains (cupping, storeBank (.car c) row) = false →
        exec (.carafeReadReturn c cupping ring row) s = .next (bump (putClu s c { getClu s c with
          reqWait := (getClu s c).reqWait ++ [(cupping, storeBank (.car c) row)] }) (carafeBase c + 0x820))))

/-- The COLLECTIVE descriptors and the READY time-out (R290, R320, R322, R323, R331). -/
def Obligations.CollectiveDescriptors : Prop :=
  ∀ (c : Nat) (ring : BitVec 6) (s : State), c < 64 →
    (∀ p ∈ collCommands, ∀ n : BitVec 32, startsWith s c ring.toNat n → blkEn s (collPage (cluHub c)) = true →
      let b := descBytes s c ring.toNat n
      let s1 := withDesc s c ring.toNat n b
      recF b 0 1 = 6 → recF b 4 1 = p.1 →
      exec (p.2 c ring) s = .next (collBody c ring.toNat n b s1) ∧
      (6 ≤ p.1 →
        let key : CollKey := ⟨descTag s1 c ring.toNat n, recF b 6 1, recF b 8 4⟩
        ctxLoads c b = [] → groupOf s1 key.tag (recF b 6 1) ≠ [] → collFieldsOk b (groupOf s1 key.tag (recF b 6 1)).length = true → collOf s1 key = none →
        exec (p.2 c ring) s = .next (collSettle key 18 (collAttempt key { descWait c ring.toNat n .coll (editDesc c ring.toNat n (fun d => { d with loading := true }) s1) with
          colls := s1.colls ++ [
            { tag := key.tag, group := recF b 6 1, collId := recF b 8 4, cluster := c, ring := ring.toNat, count := n, desc := b, attempt := 0,
              ready := [], parts := [], got := [], waiting := [], placed := [], pieces := [], counts := [], bits := [], done := [], doneSent := false, acks := [],
              mine := [], summed := false, leaseWait := false, broken := none }] })))) ∧
    (∀ (tag : BitVec 12) (group collId : Nat) (k : Coll), collOf s ⟨tag, group, collId⟩ = some k →
      exec (.collReadyTimeout tag group collId) s = .next
        (if (dataTo k.cop (k.n s) (k.me s)).all (k.ready.contains ·) then s else collFail ⟨tag, group, collId⟩ 0x5005 2 s))

/-- Sequenced messages that are admitted (R312 to R316); the hub that answers them is the model's choice (log 18). -/
def Obligations.RequestMessages : Prop :=
  ∀ (m : Msg) (s : State), msgFits m = true →
    (∀ p ∈ [(1, Instr.fabWrite), (2, Instr.fabSend), (3, Instr.readReq), (4, Instr.fadd), (5, Instr.cswap)],
      let m' : Msg := { m with op := p.1, cls := 0 }
      admits s m' → exec (p.2 m) s = .next (performMsg (unitHub s m.shub m') m' (admitted s m'))) ∧
    (∀ p ∈ [(0x11, Instr.readResp), (0x12, Instr.atomicResp)],
      let m' : Msg := { m with op := p.1, cls := 1 }
      admits s m' → exec (p.2 m) s = .next (responseArrive m' (answerMsg (unitHub s m.shub m') m.src m.shub 1 m.psn 0 (admitted s m')))) ∧
    (∀ m' : Msg, admits s m' →
      (getRx (admitted s m') m'.src m'.shub m'.cls).expected = m'.psn + 1 ∧
      (getRx (admitted s m') m'.src m'.shub m'.cls).fseq = m'.fseq + BitVec.ofNat 16 (flitCount m'.data.length))

/-- Collective messages that are admitted (R315, R323, R324, R329, R331); the layout of their bytes (log 24) and the hub that answers (log 18) are the model's choices. -/
def Obligations.CollectiveMessages : Prop :=
  ∀ (m : Msg) (d : CollData) (s : State), msgFits m = true →
    ∀ p ∈ [(CollKind.data, Instr.coll), (CollKind.ready, Instr.collReady), (CollKind.done, Instr.collDone),
      (CollKind.finish, Instr.collFinish), (CollKind.abort, Instr.collAbort), (CollKind.release, Instr.leaseRelease)],
      admits s (collMsg p.1 m d) →
      exec (p.2 m d) s = .next
        (collArrive m.tag (collDecode (collEncode p.1 d)).1 (collDecode (collEncode p.1 d)).2
          (answerMsg (unitHub s m.shub (collMsg p.1 m d)) m.src m.shub 0 m.psn 0 (admitted s (collMsg p.1 m d))))

/-- Control messages and time-outs of a sequence (R316 to R318, R332).
Where a control message names its sequence (log 18), FSEQ after a RESYNC (log 19), the source of RESYNC_RESP (log 85) and an EXPECTED
above the own PSN (log 89) are the model's choices. -/
def Obligations.AnswerMessages : Prop :=
  (∀ (m : Msg) (s : State), msgFits m = true →
    let hub := ctlHub m
    let t := getTx s hub m.src (ctlCls m)
    exec (.ack m) s = .next (txPump hub m.src (ctlCls m) (msgAcked hub m.src (ctlCls m) (refPsn m) s)) ∧
    exec (.nak m) s = .next (txPump hub m.src (ctlCls m) (msgFailed (ctlCode m) hub m.src (ctlCls m) (refPsn m) s)) ∧
    (t.synced = true → m.epoch = t.epoch → txHolds s hub m.src (ctlCls m) (refPsn m) = true → t.nrPsn = none →
      exec (.notReady m) s = .next (putTx s hub m.src (ctlCls m) { t with nrPsn := some (refPsn m), nrWait := true, emit := refPsn m })) ∧
    (t.synced = true → m.epoch.setWidth 8 = t.epoch.setWidth 8 → exec (.gap m) s = .next (txResync hub m.src (ctlCls m) s)) ∧
    (let s1 := dropPartial m.src m.shub (ctlCls m) s
     let r := getRx s1 m.src m.shub (ctlCls m)
     exec (.resync m) s = .next (resyncAnswer m.src m.shub (ctlCls m) (putRx s1 m.src m.shub (ctlCls m)
       { r with epoch := m.epoch, expected := if psnBelow r.expected (m.opb.setWidth 32) then m.opb.setWidth 32 else r.expected,
                fseq := 0, synced := true, gapSent := false, nrPsn := none, respDue := true, asked := m.dst }))) ∧
    (t.syncing = true → m.epoch = t.epoch → t.held = [] → exec (.resyncResp m) s = .next
      (txPump hub m.src (ctlCls m) (putTx s hub m.src (ctlCls m) { t with
        syncing := false, synced := true, tries := 0, emit := refPsn m, psn := if psnBelow t.psn (refPsn m) then refPsn m else t.psn })))) ∧
  (∀ (hub : BitVec 1) (dst : BitVec 16) (cls : BitVec 2) (s : State),
    let t := getTx s hub.toNat dst.toNat cls.toNat
    let r := getRx s dst.toNat hub.toNat cls.toNat
    (t.nrWait = true → exec (.nrRetry hub dst cls) s = .next
      (txPump hub.toNat dst.toNat cls.toNat (putTx s hub.toNat dst.toNat cls.toNat { t with nrWait := false }))) ∧
    (t.synced = true → t.held ≠ [] → exec (.fabAckTmo hub dst cls) s = .next (txResync hub.toNat dst.toNat cls.toNat s)) ∧
    (t.syncing = true → t.tries < 4 → exec (.resyncTimeout hub dst cls) s = .next
      (txResyncSend hub.toNat dst.toNat cls.toNat (putTx s hub.toNat dst.toNat cls.toNat { t with tries := t.tries + 1 }))) ∧
    (t.syncing = true → 4 ≤ t.tries → exec (.resyncTimeout hub dst cls) s = .next
      (forAll (t.held.map (·.psn)) (putTx s hub.toNat dst.toNat cls.toNat { t with unreach := true, syncing := false, tries := 0 })
        (msgFailed linkDown hub.toNat dst.toNat cls.toNat))) ∧
    (∀ p : BitVec 32, t.nrPsn = some p → exec (.fabNrTmo hub dst cls) s = .next
      (let s1 := msgFailed 0x5002 hub.toNat dst.toNat cls.toNat p s
       txResync hub.toNat dst.toNat cls.toNat (putTx s1 hub.toNat dst.toNat cls.toNat { getTx s1 hub.toNat dst.toNat cls.toNat with floor := p + 1 }))) ∧
    (r.respDue = true → rxWaits s dst.toNat hub.toNat cls.toNat = false → addrValid s = true →
      exec (.resyncRespReady dst hub cls) s = .next
        (let s1 := putRx s dst.toNat hub.toNat cls.toNat { r with respDue := false }
         let m := ctlMsg s1 0x26 hub.toNat dst.toNat hub.toNat cls.toNat r.epoch r.expected.toNat (refusedBits r)
         emitMsg { m with src := ownAddr s } s1)))

/-- Fabric ports (R301, R303 to R305). -/
def Obligations.PortEvents : Prop :=
  ∀ (port : BitVec 4) (s : State),
    let p := port.toNat
    let x := getPort s p
    (∀ f : BitVec 2048, portUp s p = true →
      let q := fecDecode (leBytes 256 f.toNat)
      let s1 := bump s (fabPortPage p + 0x808)
      let s2 := if q.2 ≠ 0 then bump s1 (fabPortPage p + 0x810) else s1
      let x2 := getPort s2 p
      let h := recF q.1 0 4
      let left := ackTrim (BitVec.ofNat 12 (fld h 19 8)) x2.replay
      let s3 := if left.length < x2.replay.length then portPump p (putPort s2 p { x2 with replay := left, replays := 0 }) else s2
      exec (.flitReceive port f) s = .next
        (if recF q.1 244 4 ≠ crc32 (q.1.take 244) then
          portCtl p 2 x2.rxSeq.toNat 0 (putPort (bump s2 (fabPortPage p + 0x818)) p { x2 with skipping := true })
         else if h % 4 = 1 then portData p (fld h 31 20) (fld h 7 2) ((q.1.drop 4).take 240) s3
         else if h % 4 = 2 then portReplay p (BitVec.ofNat 12 (fld h 31 20)) s3
         else if h % 4 = 3 then
          portPump p (putPort s3 p { getPort s3 p with credits := tblSet 0 (getPort s3 p).credits (fld h 7 2) (tblGet 0 (getPort s3 p).credits (fld h 7 2) - 1) })
         else s3)) ∧
    exec (.lossOfLight port) s = .next (portDown p 1 s) ∧
    (x.replay ≠ [] → exec (.ackStall port) s = .next (portDown p 3 s)) ∧
    (x.st = 3 → portEnabled s p = true → portPowered s p = true → x.laser = true →
      exec (.portRetrain port) s = .next (repath s (putPort s p { x with st := 1 }))) ∧
    (∀ (peer : BitVec 16) (far : BitVec 4), x.st = 1 →
      let cfg := reg s (fabPortPage p + 0x100)
      (wfld cfg 15 0 = peer.toNat → wfld cfg 35 32 = far.toNat → exec (.portTrainingDone port peer far) s = .next
        (repath s (setReady (32 + p) (putPort s p { x with
          peer := peer, peerPort := far, st := 2, cause := 0, txSeq := 0, rxSeq := 0, replay := [], queue := [], credits := [],
          skipping := false, replays := 0, holds := [] })))) ∧
      ((wfld cfg 15 0 ≠ peer.toNat ∨ wfld cfg 35 32 ≠ far.toNat) → exec (.portTrainingDone port peer far) s = .next
        (portDown p 5 (putPort s p { x with peer := peer, peerPort := far })))) ∧
    (∀ (ls : BitVec 1) (ch : BitVec 3),
      exec (.laserFail ls (some ch)) s = .next (laserDown (8 * ls.toNat + ch.toNat)
        (putPort s (8 * ls.toNat + ch.toNat) { getPort s (8 * ls.toNat + ch.toNat) with laser := false })) ∧
      exec (.laserFail ls none) s = .next (forAll ((List.range 8).map (8 * ls.toNat + ·)) s (fun p s =>
        laserDown p (putPort s p { getPort s p with laser := false }))) ∧
      ∀ (q : Nat) (u : State), ((getPort u q).st = 1 ∨ (getPort u q).st = 2 → laserDown q u = portDown q 4 u) ∧
        ((getPort u q).st = 0 ∨ (getPort u q).st = 3 →
          laserDown q u = raiseFault (fabPortPage q) linkDown none (putPort u q { getPort u q with cause := 4 })))

/-- APPLY, FAB_PAIR_QUERY and FAB_AMO_GO (R306, R314, R333). -/
def Obligations.FabricRegisters : Prop :=
  ∀ (s : State),
    (let b := instRecord s
     let cause := instCause s b
     let s1 := forAll instRegs s (fun r s =>
       let p := (r.1 - 64) / 8
       if r.1 < 192 then inDomain (portDomain p) s (fun s => portLight p (setReg s (fabPortPage p + 0x100) (instWord b r.1)))
       else inDomain 4 s (fun s => setReg s r.2.1 (instWord b r.1)))
     let s2 := if addrValid s1 then s1
       else inDomain 4 (inDomain 4 s1 (fun s => setReg s (fabricPage + 0x100) (packWord [(63, 1), (0, recF b 6 2)])))
         (fun s => setReg s (fabricPage + 0x060) 1)
     exec .apply s = .next
       (if cause ≠ 0 then setReg s (installPage + 0x108) (packWord [(61, 1), (32, cause), (0, regF s (installPage + 0x108) 31 0)])
        else bump (setReg (repath s (fabCoreReady s2)) (installPage + 0x108) (packWord [(62, 1), (0, recF b 8 4)])) (installPage + 0x800))) ∧
    (∀ v : BitVec 64,
      let t := getTx s (wfld v 20 20) (wfld v 15 0) (wfld v 17 16)
      let r := getRx s (wfld v 15 0) (wfld v 20 20) (wfld v 17 16)
      exec (.fabPairQuery v) s = .next
        (if domainOn s 4 = false then bump s (mgmtPage + 0x808) else setReg (setReg s (fabricPage + 0x138) (packWord [(62, b2n t.unreach), (32, t.epoch.toNat), (0, t.psn.toNat)]))
          (fabricPage + 0x140) (packWord [(32, r.epoch.toNat), (0, r.expected.toNat)]))) ∧
    (∀ (c : Nat) (u : State), c < 64 → cluRefused s c = some u → exec (.fabAmoGo c) s = .next u) ∧
    (∀ (c : Nat) (tag : BitVec 12), c < 64 → cluRefused s c = none → cluTag s c = some tag →
      let base := clusterBase c
      let ctl := reg s (base + 0x648)
      let m := reqMsg (3 + wfld ctl 25 24) (reg s (base + 0x640)) (BitVec.ofNat 24 (wfld ctl 23 0)) (jobEpoch s tag) tag false
        (reg s (base + 0x650)) (reg s (base + 0x658)) []
      let s1 := setReg s (base + 0x670) (packWord [(63, 1)])
      wbit (reg s (base + 0x670)) 63 = false → wfld ctl 25 24 ≠ 0 → wfld ctl 25 24 ≠ 3 →
      exec (.fabAmoGo c) s = .next
        (if cutOff s1 (c / 16) (if isOwn s1 (wfld ctl 47 32) then addrClu m.addr / 16 else 4 + cluHub c) then amoDone c 0 bridgeFailCode s1
         else if isOwn s1 (wfld ctl 47 32) then
          (let p := performAt .unit (some c) m s1
           match p.resp with
           | some x => amoDone c x.2.1 p.code p.st
           | none => if p.code = 0 then p.st else amoDone c 0 p.code p.st)
         else
          (let q := sendSeq (cluHub c) (wfld ctl 47 32) 0 m (.amo c) s1
           if q.1 ≠ 0 then amoDone c 0 q.1 q.2 else q.2)))

/-- Packets and frames at the host ports (R334 to R336, R340, R341, R345); that the five packet rows count no frame is the model's choice (log 95). -/
def Obligations.HostPacketAdmission : Prop :=
  (∀ (pk : Packet) (q : Nat) (s : State), pk.port < 4 → pk.immediate = false → linkUp s pk.port = true → qpOf pk.qp = some q →
    (getHp s pk.port).occ + pk.bytes ≤ 2 ^ 24 → qpPort s q = pk.port → devReady s (2 + pk.port) = true →
    ∀ r ∈ [(HostOp.send, Instr.rcSend), (HostOp.write, Instr.rdmaWrite), (HostOp.read, Instr.rdmaRead), (HostOp.cas, Instr.compareSwap),
      (HostOp.faa, Instr.fetchAdd)],
      (qpSeen s (getQp s q) = 2 ∨ qpSeen s (getQp s q) = 3 → exec (r.2 pk) s = .next
        (let s1 := hostFill pk.port pk.cls.toNat pk.bytes (hostCe q pk s)
         qpUnder q (fun s => qpSettle q (putQp s q { getQp s q with queue := (getQp s q).queue ++ [(r.1, pk)] })) s1)) ∧
      (qpSeen s (getQp s q) ≠ 2 → qpSeen s (getQp s q) ≠ 3 → exec (r.2 pk) s = .next (hostDrop pk.port s))) ∧
  (∀ (port : BitVec 2) (f : Frame) (s : State), linkUp s port.toNat = true → f.len ≤ 9216 → f.fcsOk = true → f.fragment = false →
    f.multicast = false → exec (.hostFrame port f) s = .next (frameServe port.toNat f (bump s (hostPortPage port.toNat + 0x800)))) ∧
  (∀ (pk : Packet) (q ta : Nat) (op : HostOp) (s : State), qpAccepts (getQp s q) = true → pk.psn = (getQp s q).expPsn → qpCtl q = false →
    s.rot.level.toNat < 2 →
    let s1 := putQp s q { getQp s q with nakSent := false }
    (rateCheck q pk.port s1).1 = true →
    let s2 := (rateCheck q pk.port s1).2
    hostTierReady s2 q op pk = true → hostCheck s2 q op pk = .pass ta →
    ¬ (op = .send ∧ pk.first = true ∧ rqSlots (getQp s1 q) - ((getQp s1 q).wp - (getQp s1 q).rp).toNat < rqMax (getQp s1 q)) →
    hostProcess q op pk s = hostPerform q op pk false ta s2)

/-- The host ports' other commands (R337, R339, R343, R345 to R347, R376, R422); the reasons of REJ are the model's choice (log 94). -/
def Obligations.HostControl : Prop :=
  ∀ (s : State),
    (∀ (port : BitVec 2) (up : Bool), exec (.hostLinkChange port up) s = .next (putHp s port.toNat { getHp s port.toNat with link := up })) ∧
    (∀ (port : BitVec 2) (cls : BitVec 3) (gid : BitVec 128) (qpn psn : BitVec 24), let p := port.toNat
      let at_ : MadPort := { port := port, cls := cls }
      linkUp s p = true → unowned s = true → devReady s (2 + p) = true →
      ((getHp s p).held = none → exec (.cmReq at_ 0x5A420C01 gid qpn psn) s = .next
        (cmAnswer p cls .cmRep (ctlEndpoint p { gid := gid, qpn := qpn, psn := psn } 0
          (putHp s p { getHp s p with held := some { gid := gid, qpn := qpn, psn := psn } })))) ∧
      (∀ e : Endpoint, (getHp s p).held = some e →
        exec (.cmReq at_ 0x5A420C01 gid qpn psn) s = .next (cmAnswer p cls (.cmRej .consumer) s)) ∧
      (∀ service : BitVec 64, service ≠ 0x5A420C01 → exec (.cmReq at_ service gid qpn psn) s = .next (cmAnswer p cls (.cmRej .service) s)) ∧
      (∀ e : Endpoint, (getHp s p).held = some e →
        exec (.cmRtu port) s = .next (putQp s (4092 + p) (qpWith (getQp s (4092 + p)) 3)) ∧
        exec (.cmDreq at_ e.gid e.qpn) s = .next (cmAnswer p cls .cmDrep (ctlReset p (putHp s p { getHp s p with held := none }))))) ∧
    (∀ q : BitVec 12, let x := getQp s q.toNat
      let g := cnpG s
      exec (.cnp q) s = .next (putQp s q.toNat { x with
        rt := x.rc, rc := max64 (mul64 x.rc (sub64 (nat64 1) (div64 x.alpha (nat64 2)))) (nat64 100000000),
        alpha := add64 x.alpha (mul64 g (sub64 (nat64 1) x.alpha)), cnpN := 0, cnpSeen := true }) ∧
      (let rt := if 5 < x.cnpN + 1 then min64 (add64 x.rt (nat64 5000000000)) (nat64 400000000000) else x.rt
       exec (.cnpRateTimer q) s = .next (putQp s q.toNat { x with
         alpha := if x.cnpSeen then x.alpha else mul64 (sub64 (nat64 1) g) x.alpha, cnpN := x.cnpN + 1, rt := rt,
         rc := div64 (add64 x.rc rt) (nat64 2), cnpSeen := false }))) ∧
    (∀ (q off : BitVec 12) (v : BitVec 64),
      (hostClosed s 6 = true → exec (.qpCtxWrite q off v) s = .next s) ∧
      (hostClosed s 6 = false → domainOn s 3 = false → exec (.qpCtxWrite q off v) s = .next (bump s (mgmtPage + 0x808)))) ∧
    (∀ (q : BitVec 12) (v : BitVec 64), qpCtl q.toNat = false → hostClosed s 6 = false → domainOn s 3 = true →
      (qpSt (getQp s q.toNat) ≤ 1 → exec (.qpCtxWrite q 0x110 v) s = .next (putQp s q.toNat { getQp s q.toNat with expPsn := v.setWidth 24 })) ∧
      (1 < qpSt (getQp s q.toNat) → exec (.qpCtxWrite q 0x110 v) s = .next (hostIgnore s))) ∧
    (∀ (q : BitVec 12) (n : BitVec 32), let x := getQp s q.toNat
      (domainOn s 3 = false → exec (.qpRqReturn q n) s = .next (bump s (mgmtPage + 0x808))) ∧
      (domainOn s 3 = true → n.toNat ≤ (x.wp - x.rp).toNat → exec (.qpRqReturn q n) s = .next (putQp s q.toNat { x with rp := x.rp + n })) ∧
      (domainOn s 3 = true → (x.wp - x.rp).toNat < n.toNat → exec (.qpRqReturn q n) s = .next (hostIgnore s))) ∧
    (∀ (port : BitVec 2) (cls : BitVec 3), exec (.pfcPauseEnd port cls) s = .next (hostUnpause port.toNat cls.toNat s))

/-- The job commands (R361 to R364, R367 to R371); a DETACH that runs or times out (log 101) and the records that a rinse clears (log 102) are the
model's choices. -/
def Obligations.JobCommands : Prop :=
  ∀ (tag : BitVec 12) (s : State), regF s (devicePage + 0x180) 11 0 = tag.toNat →
    let j := getJob s tag
    (j.st = .free → jobsHeld s = false → exec (.stage tag) s = .next
      (let d := drbgDraw 64 s
       let s1 := writeKeySlot tag (BitVec.ofNat 512 (leNat d.1)) d.2
       putJob s1 tag { getJob s1 tag with st := .staged, status := 0 })) ∧
    (j.st = .staged → j.cmdBusy = none → jobsHeld s = false → devReady s 12 = true →
      let img := regF s (devicePage + 0x1A0) 47 0
      let s1 := putJob s tag { j with st := .binding, cmdBusy := some 1, fault := 0, image := BitVec.ofNat 48 img,
                                      seed := reg s (devicePage + 0x1A8) }
      mapOkay s1 tag (stagingMap s) = true → exec (.bind tag) s = .next (bindGo tag false img (stagingMap s) 0 [] s1)) ∧
    (j.st = .bound → j.cmdBusy = none → jobsHeld s = false → devReady s 12 = true → mapOkay s tag (stagingMap s) = true →
      exec (.attach tag) s = .next (bindGo tag true (regF s (devicePage + 0x1A0) 47 0) (stagingMap s) 0 [] s)) ∧
    (j.st = .bound → j.cmdBusy = none → exec (.detach tag) s = .next (jobSettle tag (detachJob tag (reg s (devicePage + 0x1B0)) s))) ∧
    ((j.st = .binding ∨ ((j.st = .staged ∨ j.st = .bound) ∧ j.cmdBusy = none)) → exec (.kill tag) s = .next (killJob tag s)) ∧
    (let ignored : State := bump s (devicePage + 0x820)
     (j.st ≠ .free ∨ jobsHeld s = true → exec (.stage tag) s = .next ignored) ∧
     (j.st ≠ .staged ∨ j.cmdBusy ≠ none ∨ jobsHeld s = true ∨ devReady s 12 = false → exec (.bind tag) s = .next ignored) ∧
     (j.st ≠ .bound ∨ j.cmdBusy ≠ none ∨ jobsHeld s = true ∨ devReady s 12 = false → exec (.attach tag) s = .next ignored) ∧
     (j.st ≠ .bound ∨ j.cmdBusy ≠ none → exec (.detach tag) s = .next ignored) ∧
     ((j.st ≠ .binding ∧ (j.cmdBusy ≠ none ∨ (j.st ≠ .staged ∧ j.st ≠ .bound))) → exec (.kill tag) s = .next ignored)) ∧
    (j.st = .bound → exec (.quiesceEnd tag) s = .next (jobSettle tag (rinseClusters (clustersIn s tag [3]) (rinseFaults tag (clustersIn s tag [3]) false s)))) ∧
    (j.st = .quiescing →
      (let s0 := writeKeySlot tag 0 (rinseFaults tag (List.range 64) true s)
       let s00 := rinseClusters (clustersIn s tag [3]) s0
       let s1 := hostRinse tag { s00 with collIn := s00.collIn.filter (fun p => p.1 != tag) }
       exec (.quiesceEnd tag) s = .next (jobSettle tag (rinsePages (fun _ p => p.tag == tag) (putJob s1 tag { Job.reset with
         st := .rinsing, fault := (getJob s1 tag).fault, image := (getJob s1 tag).image, cmdBusy := (getJob s1 tag).cmdBusy })))) ∧
      (let s2 := forAll (clustersIn s tag [2, 3]) s (fun c => setCluSt c 5)
       exec (.quiesceTmo tag) s = .next (raiseFault devicePage 0x200A (some tag) (putJob s2 tag { getJob s2 tag with st := .stuck })))) ∧
    (j.st = .bound → clustersIn s tag [3] ≠ [] → exec (.quiesceTmo tag) s = .next
      (let s2 := forAll (clustersIn (quiesceJob tag s) tag [2, 3]) (quiesceJob tag s) (fun c => setCluSt c 5)
       raiseFault devicePage 0x200A (some tag) (putJob s2 tag { getJob s2 tag with st := .stuck }))) ∧
    (∀ c : Nat, c < 64 → cluOwner s c = some tag → regF s (clusterBase c + 0x680) 63 61 = 4 →
      exec (.clusterRinseDone c) s = .next (jobSettle tag
        (let s1 := cleanCluster c s
         if (getJob s1 tag).st = .binding then s1 else putClu s1 c { getClu s1 c with barRinsed := true }))) ∧
    (∀ (frame k : Nat) (p : Page), s.pages.find? (fun q => q.2.tag == tag && q.2.st == .rinsing && q.2.frame.toNat == frame) = some (k, p) →
      frameRinses j = true →
      exec (.frameRinseDone tag frame) s = .next (bindRetries (jobSettle tag (tierSettle (putPage s k Page.reset)))))

/-- The commands on a page's header (R5, R7, R353, R355 to R357, R410); that they are the management core's writes (log 41) and that HOLD written
again latches anew (log 43) are the model's choices. -/
def Obligations.HeaderCommands : Prop :=
  ∀ (page : BitVec 14) (s : State),
    let base := 4096 * page.toNat
    (hasHeader page = false → ∀ i ∈ [Instr.softReset page, .errStatusClear page 1, .errInject page 1, .blkLock page, .ctrSnap page true],
      exec i s = .next (if (pageOf base).isSome then s else bump s (devicePage + 0x818))) ∧
    (∀ k v, pageOf base = some (.mailbox, k) → domainOn s (pageDomain .mailbox k) = true →
      ∀ i ∈ [Instr.softReset page, .errInject page v, .blkLock page], exec i s = .next s) ∧
    ∀ (p : PageType) (i : Nat), pageOf base = some (p, i) → p ≠ .phase → p ≠ .mailbox → domainOn s (pageDomain p i) = true → blanked s p i = false →
    ((bindState s p i).1 = false → (bindState s p i).2 = false → pageLocked s base = false →
      exec (.softReset page) s = .next (setReg (softReset p i base s) (base + 0x10) 1)) ∧
    (∀ v : BitVec 64, let old := reg s (base + 0x28)
      let now := old &&& ~~~ (v &&& 0xFFFE)
      exec (.errStatusClear page v) s = .next
        (let s1 := alertClear base (v &&& 0xFFFE) (setReg s (base + 0x28) now)
         if old ≠ 0 ∧ now = 0 then setReg s1 (base + 0x48) 0 else s1)) ∧
    (∀ v : BitVec 64, (injectCodes p).contains (wfld v 15 0) = true →
      exec (.errInject page v) s = .next
        (if wbit v 16 then injectEffect p i base (wfld v 15 0) s else raiseFault base (wfld v 15 0) (injectTag s p i) s)) ∧
    exec (.blkLock page) s = .next (setReg s (base + 0x60) (reg s (base + 0x60) ||| 1)) ∧
    (∀ hold : Bool, exec (.ctrSnap page hold) s = .next
      (let s1 := setReg s (base + 0x80) (if hold then 1 else 0)
       if hold then { s1 with snaps := tblIns s1.snaps (base / 4096) ((s1.regs.filter (fun r => r.1 / 4096 == base / 4096 &&
         decide (0x800 ≤ r.1 % 4096))).map (fun r => (r.1 % 4096, r.2))) }
       else { s1 with snaps := tblDel s1.snaps (base / 4096) }))

/-- REGISTER_WRITE (R5, R6, R351, R352, R368, R376, R422); which ignored writes count is the model's choice (log 42). -/
def Obligations.RegisterWritePlain : Prop :=
  ∀ (addr : BitVec 26) (v : BitVec 64) (s : State),
    let a := addr.toNat
    let off := a % 4096
    (∀ (m : Master) (p : PageType) (i : Nat), m = .mgmt ∨ (∃ port, m = .host port) → a % 8 = 0 → pageOf a = some (p, i) →
      (closedTo m p s = true → exec (.registerWrite m addr v) s = .next s) ∧
      (closedTo m p s = false → off ≠ 0x010 →
        (domainOn s (pageDomain p i) = false → exec (.registerWrite m addr v) s = .next (bump s (mgmtPage + 0x808))) ∧
        (domainOn s (pageDomain p i) = true → blanked s p i = true →
          exec (.registerWrite m addr v) s = .next (bump s (devicePage + 0x810)))) ∧
      (closedTo m p s = false → domainOn s (pageDomain p i) = true → blanked s p i = false →
        (∀ r, regRow p off = some r → writeActs s p i off = false →
          exec (.registerWrite m addr v) s = .next
            (let old := reg s a
             let mask := BitVec.ofNat 64 r.mask
             let replaced := setReg s a ((old &&& ~~~ mask) ||| (v &&& mask))
             match r.acc with
             | .rw => replaced
             | .w1c => setReg s a (old &&& ~~~ (v &&& mask))
             | .w1s => setReg s a (old ||| (v &&& mask))
             | .rwl => if pageLocked s (a - off) then s else replaced
             | .ro | .wo => s)) ∧
        (regRow p off = none → writeActs s p i off = false → exec (.registerWrite m addr v) s = .next s) ∧
        (p = .phase → phaseLocked s (i / 16) = true → exec (.registerWrite m addr v) s = .next s) ∧
        (p = .carWin → 0x100 ≤ off → off < 0x700 → winOpened s (.car (i / 16)) ((off - 0x100) / 24) = true →
          exec (.registerWrite m addr v) s = .next s) ∧
        (p = .tile → 0x240 ≤ off → off < 0x3C0 → winOpened s (.sp i) ((off - 0x240) / 24) = true →
          exec (.registerWrite m addr v) s = .next s))) ∧
    (∀ m : Master, (∀ c, m ≠ .barista c) → (∀ c k, m ≠ .baristaPart c k) → a % 8 ≠ 0 → exec (.registerWrite m addr v) s = .next s) ∧
    (a % 8 = 0 → pageOf a = none → exec (.registerWrite .mgmt addr v) s = .next (bump s (devicePage + 0x818)))

/-- Power moves and bring-up (R374, R375, R379, R380, R392); when a domain of a move is off (log 103) and PWR_STATE during bring-up (log 104) are
the model's choices. -/
def Obligations.PowerMoves : Prop :=
  ∀ (s : State),
    let ignored := bump s (mgmtPage + 0x828)
    (s.power.pgood = false → exec .pwrActive s = .next s ∧ exec .pwrListen s = .next s ∧ exec .pwrStandby s = .next s) ∧
    (s.power.pgood = true → pwrBusy s = false →
      (pwrState s = 2 → exec .pwrActive s = .next (stepBegin 9 (stepBegin 7 (stepBegin 5
        (setReg s (mgmtPage + 0x100) (packWord [(63, 1), (8, 3), (4, b2n (bootListen s)), (0, 2)])))))) ∧
      (pwrState s ≠ 2 → exec .pwrActive s = .next ignored) ∧
      (pwrState s = 3 → tagsFree s = true → exec .pwrListen s = .next (moveDown 2 s)) ∧
      (pwrState s ≠ 3 ∨ tagsFree s = false → exec .pwrListen s = .next ignored) ∧
      ((pwrState s = 2 ∨ pwrState s = 3) → tagsFree s = true → exec .pwrStandby s = .next (moveDown 1 s)) ∧
      ((pwrState s ≠ 2 ∧ pwrState s ≠ 3) ∨ tagsFree s = false → exec .pwrStandby s = .next ignored)) ∧
    (s.power.pgood = true → pwrBusy s = true → exec .pwrActive s = .next ignored ∧ exec .pwrListen s = .next ignored ∧ exec .pwrStandby s = .next ignored) ∧
    (pwrBusy s = true → regF s (mgmtPage + 0x100) 10 8 < 3 →
      let target := regF s (mgmtPage + 0x100) 10 8
      let s1 := domainsOff (moveOff target) s
      let s2 := bump (raiseEvent mgmtPage 0 (setReg s1 (mgmtPage + 0x100) (packWord [(8, target), (4, b2n (bootListen s1)), (0, target)])))
        (mgmtPage + 0x800)
      s2.power.wakeHeld = false → exec .powerMoveDone s = .next s2) ∧
    (∀ k : Nat, s.power.steps.any (fun k => k / 32 == 5) = true → (List.range 16).find? (fun k => !domainOn s (quarterAt k)) = some k →
      let s1 := domainsOn [quarterAt k] s
      exec .quarterPowerOn s = .next (if fullyOn s1 ∧ ¬ pwrBusy s1 then setPwrState 3 s1 else s1)) ∧
    (∀ n u : Nat, n ≠ 2 → n ≠ 5 → n ≠ 8 → s.power.steps.contains (32 * n + u) = true →
      let s1 := stepWork n u { s with power := { s.power with steps := s.power.steps.filter (· != 32 * n + u) } }
      exec (.bringUpStepEnd n u true) s = .next (stepFollow n (stepReady n u s1)))

/-- Inputs, supply and the sideband bus (R381, R387, R389 to R391, R433 to R436, R441). -/
def Obligations.PinsAndSupply : Prop :=
  ∀ (s : State), sound s = true →
    (∀ pin : InputPin, awake s = true → pinStuck s pin = false →
      (tblGet 0 s.power.lastIn (pinBit pin) = 0 ∨ tblGet 0 s.power.lastIn (pinBit pin) - 1 + 50 < devTime s) →
      let asserted := fun (s : State) => let s1 := setBit s (mgmtPage + 0x120) (pinBit pin)
        { s1 with power := { s1.power with lastIn := tblSet 0 s1.power.lastIn (pinBit pin) (devTime s1 + 1) } }
      (pin = .sync → exec .sync s = .next (let s1 := asserted s
        raiseEvent mgmtPage 2 (setReg s1 (mgmtPage + 0x130) (BitVec.ofNat 64 (devTime s1 % 2 ^ 48))))) ∧
      (pin = .tamper → exec .tamper s = .next (secEvent 0 false (asserted s))) ∧
      (pin = .wake → pwrBusy (asserted (bump s (mgmtPage + 0x820))) = false →
        exec .wake s = .next (wakeAct (asserted (bump s (mgmtPage + 0x820)))))) ∧
    (s.power.pgood = true → exec .resetAssert s = .next
      (let t := resetDevice s
       setRegF { t with power := { t.power with faultPin := s.power.faultPin, cycled := s.power.faultPin } } (mgmtPage + 0x198) 63 62
         (regF s (mgmtPage + 0x198) 63 62))) ∧
    (s.power.pgood = true → s.power.inReset = true →
      (s.power.faultPin = false ∨ s.power.cycled = true → exec .resetRelease s = .next (stepBegin 1 (setReg { s with
        power := { s.power with inReset := false, faultPin := false, cycled := false }, t0 := s.cycle } (mgmtPage + 0x198) 0))) ∧
      (s.power.faultPin = true → s.power.cycled = false →
        exec .resetRelease s = .next { s with power := { s.power with inReset := false } })) ∧
    (∀ pin : InputPin, awake s = true → stuckTmo s pin ≠ 0 → pinStuck s pin = false → wbit (reg s (mgmtPage + 0x120)) (pinBit pin) = true →
      exec (.inputStuck pin) s = .next
        (bump (raiseFault mgmtPage 0x7005 none (setBit s (mgmtPage + 0x120) (8 + pinBit pin))) (mgmtPage + 0x818))) ∧
    (∀ pin : InputPin, pinStuck s pin = true → wbit (reg s (mgmtPage + 0x120)) (pinBit pin) = false →
      exec (.rearm pin) s = .next (raiseEvent mgmtPage 3 (setRegF s (mgmtPage + 0x120) (8 + pinBit pin) (8 + pinBit pin) 0))) ∧
    (∀ pin : InputPin, exec (.inputDeassert pin) s = .next (setRegF s (mgmtPage + 0x120) (pinBit pin) (pinBit pin) 0)) ∧
    (s.power.pgood = false → exec .syncOutCmd s = .next s) ∧
    (s.power.pgood = true → s.power.syncOut = false → exec .syncOutCmd s = .next
      (setReg { s with power := { s.power with syncOut := true } } (mgmtPage + 0x140) (BitVec.ofNat 64 ((devTime s + 1) % 2 ^ 48)))) ∧
    exec .syncOutPulseEnd s = .next { s with power := { s.power with syncOut := false } } ∧
    (s.power.pgood = false → s.power.input = true →
      exec .pwrEnAssert s = .next (resetDevice { s with power := { s.power with pwrEn := true, pgood := true } })) ∧
    exec .pwrEnDeassert s = .next (deviceOff { s with power := { s.power with pwrEn := false } }) ∧
    (∀ high : Bool, s.power.pgood = true → exec (.vinFault high) s = .next
      (bump (setBit (allOff { s with power := { s.power with input := false } }) (mgmtPage + 0x198) (if high then 62 else 63)) (mgmtPage + 0x868))) ∧
    exec .vinCollapse s = .next (deviceOff { s with power := { s.power with input := false } }) ∧
    (s.power.pwrEn = false ∨ s.power.pgood = true → exec .inputPowerReturn s = .next { s with power := { s.power with input := true } }) ∧
    (s.power.pwrEn = true → s.power.pgood = false →
      exec .inputPowerReturn s = .next (resetDevice { s with power := { s.power with input := true, pgood := true } })) ∧
    (s.power.pgood = true →
      (∀ b : Byte, exec (.i3cPrivateWrite ⟨i3cAddress s, [b]⟩) s = .next { s with power := { s.power with i3cPtr := b, i3cAck := true } }) ∧
      (∀ n : Nat, exec (.i3cPrivateRead ⟨i3cAddress s, n⟩) s = .next { s with power := { s.power with
        i3cOut := ((i3cBytes s).drop s.power.i3cPtr.toNat ++ List.replicate n 0).take n, i3cAck := true } })) ∧
    (∀ (addr n : Nat) (bytes : List Byte), let nack := { s with power := { s.power with i3cAck := false } }
      (s.power.pgood = false ∨ addr ≠ i3cAddress s → exec (.i3cPrivateRead ⟨addr, n⟩) s = .next nack) ∧
      (s.power.pgood = false ∨ addr ≠ i3cAddress s ∨ bytes.length ≠ 1 → exec (.i3cPrivateWrite ⟨addr, bytes⟩) s = .next nack))

/-- Bridges and monitors (R18, R377, R402 to R407), injected faults among them (R410). The page of a clock monitor (log 108), the order of replayed
words (log 109), an overdue slice (log 110) and what a bridge word event carries (log 147) are the model's choices. -/
def Obligations.MonitorsAndBridges : Prop :=
  ∀ (s : State),
    let shot := fun (p code : Nat) => { s with armed := s.armed.erase (p, code) }
    let falls := fun (b d : Nat) (u : State) =>
      let cut := fun (l : BridgeLink) => { l with replays := 0, buffer := [], resent := [] }
      let s1 := deviceAlarm (spineBase d) bridgeFailCode
        (putBridge u b { down := true, out := cut (getBridge u b).out, back := cut (getBridge u b).back })
      let s2 := forAll (tblKeys s1.tx) s1 txCut
      forAll ((s2.colls.filter (collUses b)).map Coll.key) s2 collInterrupt
    let checks := fun (code page : Nat) (found : Bool) (count : State → State) (u : State) =>
      if u.armed.contains (page, code) then deviceAlarm page code (count { u with armed := u.armed.erase (page, code) })
      else if found then deviceAlarm page code (count u) else u
    (∀ (b word : Nat) (back : Bool), b < 8 →
      let v : BridgeDir := ⟨b, back⟩
      let x := bridgeLink (getBridge s b) back
      let again := if x.buffer.contains word then x.buffer else x.buffer ++ [word]
      let kept := { x with buffer := again, resent := x.resent.erase word ++ [word] }
      ((getBridge s b).down = true → (∀ ok : Bool, exec (.bridgeWordReceive v ok word) s = .next s) ∧ exec (.bridgeFail b) s = .next s) ∧
      ((getBridge s b).down = false → exec (.bridgeFail b) s = .next (falls b ((bridgeDies b).headD 0) s) ∧
        (∀ (d : Nat) (ok : Bool), bridgeArmed s b = some d →
          exec (.bridgeWordReceive v ok word) s = .next (falls b d (shot (spineBase d) bridgeFailCode))) ∧
        (bridgeArmed s b = none →
          (x.buffer.headD word = word → exec (.bridgeWordReceive v true word) s = .next (putLink s v { x with
            passed := x.passed ++ [word], replays := 0, buffer := x.buffer.drop 1, resent := x.resent.erase word })) ∧
          (x.buffer.headD word ≠ word → exec (.bridgeWordReceive v true word) s = .next (putLink s v kept)) ∧
          exec (.bridgeWordReceive v false word) s = .next
            (let n := if again.headD word = word then x.replays + 1 else x.replays
             let u := putLink s v { kept with asked := x.asked + 1, replays := n }
             if 16 ≤ n then falls b ((bridgeDies b).headD 0) u else u))) ∧
      exec (.bridgeRetrain b true) s = .next (putBridge s b { getBridge s b with down := false }) ∧
      exec (.bridgeRetrain b false) s = .next s) ∧
    (∀ c : Nat, c < 64 → exec (.lockstepMismatch (.barista c)) s = .next
      (let s1 := stopCluster c lockstepCode 16 (resAlarm (clusterBase c) lockstepCode c s)
       putClu s1 c { getClu s1 c with barReset := true, barRinsed := false })) ∧
    exec (.lockstepMismatch .roast) s = .next (deviceAlarm roastPage lockstepCode s) ∧
    (∀ c : Nat, c < 64 → (getClu s c).barReset = false → exec (.lockstepMismatch (.baristaSram c)) s = .next
      (barFault c false (stopCluster c 0x2004 16 (resAlarm (clusterBase c) 0x2004 c s)))) ∧
    exec (.lockstepMismatch .mgmtSram) s = .next
      (let s1 := clearReady [1] (deviceAlarm mgmtPage 0x2004 s)
       { s1 with power := { s1.power with mgmtDown := true } }) ∧
    exec (.lockstepMismatch .rotSram) s = .next (deviceAlarm mailboxPage 0x2004 s) ∧
    exec (.lockstepMismatch .mgmt) s = .next
      (let s1 := clearReady [1] (deviceAlarm mgmtPage lockstepCode s)
       { s1 with power := { s1.power with mgmtDown := true } }) ∧
    (s.power.mgmtDown = true → exec .mgmtReloadDone s = .next (if (mgmtVerify s).1 then
      forAll (List.range 64) (setReady 1 { (mgmtVerify s).2 with power := { (mgmtVerify s).2.power with mgmtDown := false } }) runWaitEnd
      else (mgmtVerify s).2)) ∧
    (s.power.mgmtDown = false → exec .mgmtReloadDone s = .next s) ∧
    (∀ t : Nat, t < 1024 →
      (∀ differs : Bool, (getTile s t).vq = [] → exec (.selftestSlice t differs) s = .next
        (let late := fun (u : State) => sliceFault t selftestStarve (bump u (mgmtPage + 0x848))
         let s1 := if s.armed.contains (clusterBase (t / 16), selftestStarve) then late (shot (clusterBase (t / 16)) selftestStarve) else s
         sliceNext t (if differs || (getTile s t).stInj then
           sliceFault t selftestFail (putTile s1 t { getTile s t with stInj := false }) else s1))) ∧
      (∀ differs : Bool, (getTile s t).vq ≠ [] → exec (.selftestSlice t differs) s = .next s) ∧
      exec (.selftestStarve t) s = .next (sliceFault t selftestStarve (bump s (mgmtPage + 0x848)))) ∧
    (∀ k n : Nat, k < 25 → exec (.clockMon k n) s = .next (if wbit (reg s (mgmtPage + 0x118)) k then
      checks clockMonCode (clockPage k) (clockOff s k n) (fun u => bump u (mgmtPage + 0x850)) s else s)) ∧
    (∀ (page : BitVec 14) (i : Nat) (dev : Int), pageOf (4096 * page.toNat) = some (.spine, i) ∨ pageOf (4096 * page.toNat) = some (.mgmt, i) →
      exec (.voltMon page dev) s = .next (checks voltMonCode (4096 * page.toNat) (decide ((50 * regF s (mgmtPage + 0x228) 39 32 : Nat) < dev.natAbs))
        (fun u => bump u (mgmtPage + 0x858)) s)) ∧
    (∀ temps : List Int, temps.length = 76 →
      let h := hottest temps
      let lim := fun (hi lo : Nat) => ((regF s (mgmtPage + 0x230) hi lo : Nat) : Int)
      let s1 := setReg s (mgmtPage + 0x238) (packWord [(8, h.1), (0, tempByte h.2)])
      let s2 := if lim 7 0 < h.2 then bump { s1 with power := { s1.power with therm := true } } (mgmtPage + 0x860)
        else if h.2 < lim 7 0 - 3 then { s1 with power := { s1.power with therm := false } } else s1
      let s3 := forAll ((mgmtPage :: (List.range 4).map spineBase).filter (· != sensorPage h.1))
        (checks thermMonCode (sensorPage h.1) (decide (lim 15 8 < h.2)) id s2) (fun p => checks thermMonCode p false id)
      exec (.thermSample temps) s = .next (if awake s then (if lim 23 16 < h.2 then allOff s3 else s3) else s)) ∧
    (∀ k : Nat, k = 0 ∨ pllStarted s k = false → exec (.pllLock k) s = .next s) ∧
    (∀ k : Nat, 0 < k → k < 25 → pllStarted s k = true → exec (.pllLock k) s = .next
      (let s1 := runClocks { s with power := { s.power with
         pllBad := if s.power.pllBad.contains k then s.power.pllBad else k :: s.power.pllBad } }
       raiseFault mgmtPage 0x7006 none (clearReady (readyBits.filter (fun i => (readyClocks i).contains k)) s1)))

/-- The mailbox commands (R416 to R421, R424, R427, R428), sent by the management core. The fields of a certificate (log 3), the number of input
bytes of a command (log 30) and the order of a quorum command's checks (log 111) are the model's choices. -/
def Obligations.MailboxCommands : Prop :=
  ∀ (s : State), domainOn s 1 = true → mbxBusyBit s = false →
    let inp := fun (op : Nat) => mbxInput s (mbxLen op)
    let d := drbgDraw 32 s
    exec (.getNonce .mgmt) s = .next (mbxDone false 0 0 d.1 { d.2 with rot := { d.2.rot with nonce := some (d.1, devTime s) } }) ∧
    (recF (inp 2) 0 1 ≤ 1 →
      let s1 := if recF (inp 2) 0 1 = 0 then mramRead (secEvent 6 false) 1 s else s
      exec (.getCert .mgmt) s = .next (match certBytes s1 (recF (inp 2) 0 1) with
        | some l => mbxDone false 0 0 l s1
        | none => mbxDone false 0x8008 4 [] s1)) ∧
    (∀ k : BitVec 384, s.rot.aliasKey = some k → exec (.quote .mgmt) s = .next
      (mbxDone false 0 0 (quoteBytes s k ((inp 3).take 32) (recF (inp 3) 32 1)) s)) ∧
    (4 ≤ recF (inp 4) 0 1 → recF (inp 4) 0 1 ≤ 7 → exec (.extend .mgmt) s = .next
      (mbxDone false 0 0 [] (extendPcr (recF (inp 4) 0 1) ((inp 4).drop 1) s))) ∧
    exec (.commitSvn .mgmt) s = .next
      (let s1 := mramRead (secEvent 6 false) 3 s
       let svn := fun (t : Nat) => max (fwSvn s1 t) (recF (fwHeader s1 (bootedSlot s1) t) 8 4)
       mbxDone false 0 0 (leBytes 4 (svn 1) ++ leBytes 4 (svn 2)) (mramWrite 3 (leBytes 4 (svn 1) ++ leBytes 4 (svn 2)) s1)) ∧
    exec (.getLog .mgmt) s = .next (mbxDone false 0 0 ((mramData s 5).getD []) (mramRead (secEvent 6 false) 5 s)) ∧
    exec (.policyUpdate .mgmt) s = .next
      (if policyBad s ((inp 0x10).take 512) then mbxDone false 0x8008 1 [] (dropNonce s)
       else if quorumOk s 0x10 ((inp 0x10).take 512) ((inp 0x10).drop 512) then
         mbxBusy false { (dropNonce s) with rot := { (dropNonce s).rot with newPolicy := some ((inp 0x10).take 512) } }
       else quorumFail false s) ∧
    (recF (inp 0x11) 0 8 ≤ 3 → bit (policyField s 9 1) 0 = true → s.rot.level.toNat < 2 → s.rot.dbg = 0 →
      exec (.debugUnlock .mgmt) s = .next
        (if quorumOk s 0x11 ((inp 0x11).take 8) ((inp 0x11).drop 8) then
          unlockGo (killAll (mbxBusy false { (dropNonce s) with rot := { (dropNonce s).rot with
            unlocking := true, unlockPaths := BitVec.ofNat 2 (recF (inp 0x11) 0 1) } }))
         else quorumFail false s)) ∧
    (recF (inp 0x12) 0 8 = 0 → s.rot.level ≠ 3 → causeHolds s 0 = false → mramBad s 4 = false →
      exec (.alarmClear .mgmt) s = .next
        (if quorumOk s 0x12 ((inp 0x12).take 8) ((inp 0x12).drop 8) then
          mbxDone false 0 0 [] (setRegF { (dropNonce s) with rot := { (dropNonce s).rot with level := 0 } } (mailboxPage + 0x118) 7 0 0)
         else quorumFail false s)) ∧
    (bit (policyField s 10 1) 0 = true → recF (inp 0x20) 0 1 ≤ 6 →
      exec (.inject .mgmt) s = .next (mbxDone false 0 0 [] (secEvent (recF (inp 0x20) 0 1) true s))) ∧
    (bit (policyField s 10 1) 0 = false → exec (.inject .mgmt) s = .next (mbxDone false 0x8008 4 [] s))

/-- Security events (R412, R421, R423, R425). What an open JTAG instruction shifts out is a free value (log 1); that alarms of the same cycle act
with the policy before is the model's reading (log 169). -/
def Obligations.SecurityEvents : Prop :=
  ∀ (s : State),
    (∀ b : List Byte, s.rot.newPolicy = some b →
      let s1 := extendPcr 2 (sha384 b) (mramWrite 4 b { s with rot := { s.rot with
        newPolicy := none, policy := b, policyWas := some (s.cycle, policyBytes s) } })
      let s2 := forAll (List.range 4) s1 (fun p u =>
        if ¬ unowned s ∧ policyEndpoint s p = policyEndpoint u p then u
        else
          let u := ctlReset p (putHp u p { getHp u p with held := none })
          if devReady u (2 + p) then ctlBringUp p u else u)
      exec .policyTakeEffect s = .next (mbxDone (mbxByHost s2) 0 0 [] s2)) ∧
    exec (.glitch false) s = .next (secEvent 1 false s) ∧ exec (.glitch true) s = .next (secEvent 2 false s) ∧
    exec (.jtagInstruction .idcode) s = .next { s with rot := { s.rot with tapReg := 0x1B104A5D } } ∧
    exec (.jtagInstruction .bypass) s = .next { s with rot := { s.rot with tapReg := 0 } } ∧
    (s.rot.dbg.getLsbD 0 = false → exec (.jtagInstruction .other) s = .next
      (secEvent 5 false (bump { s with rot := { s.rot with tapReg := 0 } } (mailboxPage + 0x818)))) ∧
    (s.rot.dbg.getLsbD 0 = true → exec (.jtagInstruction .other) s = .next
      { s with rot := { s.rot with tapReg := (Config.freeValue s.free).setWidth 32 }, free := s.free + 1 }) ∧
    exec .drbgReseed s = .next { s with rot := { s.rot with sinceSeed := 0 } }

/-- R6: writes to RO registers, and to RWL registers of a locked block, change nothing. -/
def Obligations.IgnoredWrites : Prop :=
  ∀ (m : Master) (addr : BitVec 26) (v : BitVec 64) (s : State) (p : PageType) (i : Nat) (r : RegRow),
    let a := match m with
      | .barista c => clusterBase c + (addr.toNat - 0x12_0000)
      | _ => addr.toNat
    (∀ c, m = .barista c → c < 64 ∧ 0x12_0000 ≤ addr.toNat ∧ addr.toNat < 0x12_1000) →
    ctlAccess m false a s = .apply p i → regRow p (a % 4096) = some r →
    (r.acc = .ro ∨ (r.acc = .rwl ∧ pageLocked s (a - a % 4096) = true)) →
    exec (.registerWrite m addr v) s = .next s

/-- A merged assertion counts in `IN_MERGE_CNT` and causes no event (R388); that WAKE_CNT counts it and that it starts the merge time anew is the
model's choice (log 106). -/
def Obligations.MergedAssertions : Prop :=
  ∀ (s : State) (pin : InputPin), sound s = true → awake s = true → pinStuck s pin = false → tblGet 0 s.power.lastIn (pinBit pin) ≠ 0 →
    devTime s ≤ tblGet 0 s.power.lastIn (pinBit pin) - 1 + 50 →
    let merged := fun (s : State) =>
      let s1 := setBit s (mgmtPage + 0x120) (pinBit pin)
      bump { s1 with power := { s1.power with lastIn := tblSet 0 s1.power.lastIn (pinBit pin) (devTime s1 + 1) } } (mgmtPage + 0x810)
    (pin = .sync → exec .sync s = .next (merged s)) ∧ (pin = .tamper → exec .tamper s = .next (merged s)) ∧
    (pin = .wake → exec .wake s = .next (merged (bump s (mgmtPage + 0x820))))

/-- A tile's fault, among them that of a CTX to a context not LOADED, stops its cluster's phase (R98, R105, R106, R119, R125, R356, R452), in every
state of the walker, which is the model's choice (log 122). -/
def Obligations.TileFaultStopsPhase : Prop :=
  ∀ (t : Nat) (s : State), sound s = true → t < 1024 → (getWalker s (t / 16)).st ≠ .stopped →
    let c := t / 16
    (∀ k : BitVec 2, ctxSeen s t k ≠ 2 → ∃ u, exec (.ctx t k) s = .next u ∧ (getWalker u c).st = .stopped ∧
      regF u (clusterBase c + 0x148) 31 16 = (if (getTile s t).loops = [] then 0x1004 else 0x1008) ∧
      (getTile u t).active = (getTile s t).active ∧ ∀ j : BitVec 2, ctxSt (getTile u t) j = ctxSt (getTile s t) j) ∧
    ∀ code sub group : Nat, code < 2 ^ 16 →
    let u := faultTile t code sub group s
    (getWalker u c).st = .stopped ∧ regF u (clusterBase c + 0x148) 31 16 = code ∧ regF u (clusterBase c + 0x148) 7 4 = t % 16 ∧
    regF u (clusterBase c + 0x148) 15 8 = (stopEntry (getWalker s c)).toNat ∧
    (∀ k ∈ tilesOf c, (getTile (partEnd k u) k).part = false ∧ (getTile u k).block = none ∧ ∀ e ∈ (getTile u k).vq, e.started ≠ none) ∧
    wbit (reg u (tileBase t + 0x28)) (codeClass code) = true

/-- R106: CTX to a context not LOADED stops the phase with `CTX_NOT_LOADED` (0x1004), and the context does not change. -/
def Obligations.ContextNotLoaded : Prop :=
  ∀ (t : Nat) (k : BitVec 2) (s : State), sound s = true → t < 1024 → (getWalker s (t / 16)).st = .running → (getTile s t).loops = [] →
    ctxSeen s t k ≠ 2 →
    ∃ u, exec (.ctx t k) s = .next u ∧ (getWalker u (t / 16)).st = .stopped ∧
      regF u (clusterBase (t / 16) + 0x148) 31 16 = 0x1004 ∧
      (getTile u t).active = (getTile s t).active ∧ ∀ j : BitVec 2, ctxSt (getTile u t) j = ctxSt (getTile s t) j

/-- The issue faults of the vector slot (R37, R42), which stop the walker in every state, the model's choice (log 122). -/
def Obligations.VectorQueueFull : Prop :=
  ∀ (t : Nat) (s : State) (a : VecArgs), sound s = true → t < 1024 → (getWalker s (t / 16)).st ≠ .stopped → ∀ p ∈ vecCommands,
    (vecReserved s t p.1 a = true → ∃ u, exec (p.2 t a) s = .next u ∧ (getWalker u (t / 16)).st = .stopped ∧
      regF u (clusterBase (t / 16) + 0x148) 31 16 = 0x1008 ∧ ∀ e ∈ (getTile u t).vq, e ∈ (getTile s t).vq) ∧
    (vecReserved s t p.1 a = false → 4 ≤ vecHeld s t → ∃ u, exec (p.2 t a) s = .next u ∧ (getWalker u (t / 16)).st = .stopped ∧
      regF u (clusterBase (t / 16) + 0x148) 31 16 = 0x100C ∧ ∀ e ∈ (getTile u t).vq, e ∈ (getTile s t).vq)

/-- What touches the receive queues keeps the equation of R175 on every queue (R175 to R178, R290). -/
def Obligations.ReceiveQueueSum : Prop :=
  ∀ s : State, sound s = true → (∀ c' q' : Nat, c' < 64 → q' < 16 → rqSound s c' q') →
    let kept := fun (u : State) => ∀ c' q' : Nat, c' < 64 → q' < 16 → rqSound u c' q'
    (∀ (c n : Nat) (q : BitVec 4) (v : BitVec 64) (u : State),
      exec (.creditClaim c q n) s = .next u ∨ exec (.rqReturn c q v) s = .next u ∨ exec (.rqCfgWrite c q v) s = .next u → kept u) ∧
    (∀ (m : Master) (c : Nat) (addr : BitVec 26) (v : BitVec 64) (u : State), m = .mgmt ∨ (∃ port, m = .host port) → c < 64 →
      carafeBase c + 0x200 ≤ addr.toNat → addr.toNat < carafeBase c + 0x400 → exec (.registerWrite m addr v) s = .next u → kept u) ∧
    (∀ (from_ : MsgFrom) (c q : Nat) (credited : Bool) (tag : BitVec 12) (cls : WClass) (jepoch : BitVec 16) (key : BitVec 24) (l : List Byte),
      c < 64 → q < 16 → kept (rqSend from_ c q credited tag cls jepoch key l s).2) ∧
    (∀ (c : Nat) (ring : BitVec 6) (n : BitVec 32) (u : State), c < 64 → startsWith s c ring.toNat n →
      let b := descBytes s c ring.toNat n
      let w := BitVec.ofNat 64 (recF b 8 8)
      recF b 0 1 = 4 → wfld w 63 60 = 4 → (returnAt (wfld w 25 0)).isSome = true →
      exec (.complete c ring) s = .next u → kept u)
end

