-- ==== Sys2Proof/Laws/Table.lean ====
section
/-! SUPPORT. Laws of the tables and byte stores: what a read answers after a write, and that every operation keeps the canonical form. -/

namespace Sys2Proof.Machine

variable {α : Type}

/-! ### Reads after listing a pair -/

@[simp] theorem tblGet_tblIns_self (d : α) (t : Tbl α) (k : Nat) (v : α) : tblGet d (tblIns t k v) k = v := by
  induction t with
  | nil => simp [tblIns, tblGet]
  | cons p r ih =>
    obtain ⟨j, w⟩ := p
    simp only [tblIns]
    split
    · simp [tblGet]
    · split
      · simp [tblGet]
      · simp only [tblGet, ih]
        rw [if_neg (by assumption), if_neg (by assumption)]

theorem tblGet_tblIns_ne (d : α) (t : Tbl α) (k k' : Nat) (v : α) (h : k' ≠ k) : tblGet d (tblIns t k v) k' = tblGet d t k' := by
  induction t with
  | nil =>
    simp only [tblIns, tblGet]
    split <;> first | rfl | (split <;> first | omega | rfl)
  | cons p r ih =>
    obtain ⟨j, w⟩ := p
    simp only [tblIns]
    split
    · simp only [tblGet]
      split
      · rw [if_pos (by omega)]
      · rw [if_neg (by omega)]
    · split
      · simp only [tblGet]
        split
        · rw [if_pos (by omega)]
        · rw [if_neg (by omega), if_neg (by omega), if_neg (by omega)]
      · simp only [tblGet, ih]

@[simp] theorem tblFind_tblIns_self (t : Tbl α) (k : Nat) (v : α) : tblFind (tblIns t k v) k = some v := by
  induction t with
  | nil => simp [tblIns, tblFind]
  | cons p r ih =>
    obtain ⟨j, w⟩ := p
    simp only [tblIns]
    split
    · simp [tblFind]
    · split
      · simp [tblFind]
      · simp_all [tblFind]

/-! ### Canonical tables -/

theorem tblWf_cons [DecidableEq α] {d : Nat → α} {k : Nat} {v : α} {r : Tbl α} :
    tblWf d ((k, v) :: r) = true ↔ v ≠ d k ∧ (∀ p ∈ r, k < p.1) ∧ tblWf d r = true := by
  simp [tblWf]

theorem tblWf_tail [DecidableEq α] {d : Nat → α} {p : Nat × α} {r : Tbl α} (h : tblWf d (p :: r) = true) : tblWf d r = true :=
  (tblWf_cons.mp h).2.2

/-- A key below every key of a table reads the default. -/
theorem tblGet_below (d : α) (t : Tbl α) (k : Nat) (h : ∀ p ∈ t, k < p.1) : tblGet d t k = d := by
  cases t with
  | nil => rfl
  | cons p r => simp [tblGet, h p (by simp)]

theorem tblDel_sub (t : Tbl α) (k : Nat) : ∀ p ∈ tblDel t k, p ∈ t := by
  induction t with
  | nil => simp [tblDel]
  | cons q r ih =>
    intro p
    simp only [tblDel]
    split
    · exact id
    · split
      · exact List.mem_cons_of_mem _
      · intro hp
        rcases List.mem_cons.mp hp with rfl | hp
        · exact List.mem_cons_self
        · exact List.mem_cons_of_mem _ (ih p hp)

theorem tblIns_mem (t : Tbl α) (k : Nat) (v : α) : ∀ p ∈ tblIns t k v, p = (k, v) ∨ p ∈ t := by
  induction t with
  | nil => simp [tblIns]
  | cons q r ih =>
    intro p
    simp only [tblIns]
    split
    · intro hp; rcases List.mem_cons.mp hp with rfl | hp <;> simp_all
    · split
      · intro hp; rcases List.mem_cons.mp hp with rfl | hp
        · exact .inl rfl
        · exact .inr (List.mem_cons_of_mem _ hp)
      · intro hp; rcases List.mem_cons.mp hp with rfl | hp
        · exact .inr List.mem_cons_self
        · rcases ih p hp with h | h
          · exact .inl h
          · exact .inr (List.mem_cons_of_mem _ h)

theorem tblDel_wf [DecidableEq α] {d : Nat → α} {t : Tbl α} (k : Nat) (h : tblWf d t = true) : tblWf d (tblDel t k) = true := by
  induction t with
  | nil => exact h
  | cons q r ih =>
    have hq := tblWf_cons.mp h
    simp only [tblDel]
    split
    · exact h
    · split
      · exact hq.2.2
      · exact tblWf_cons.mpr ⟨hq.1, fun p hp => hq.2.1 p (tblDel_sub r k p hp), ih hq.2.2⟩

theorem tblIns_wf [DecidableEq α] {d : Nat → α} {t : Tbl α} (k : Nat) (v : α) (hv : v ≠ d k) (h : tblWf d t = true) : tblWf d (tblIns t k v) = true := by
  induction t with
  | nil => exact tblWf_cons.mpr ⟨hv, by simp, rfl⟩
  | cons q r ih =>
    have hq := tblWf_cons.mp h
    simp only [tblIns]
    split
    · rename_i hlt
      refine tblWf_cons.mpr ⟨hv, fun p hp => ?_, h⟩
      rcases List.mem_cons.mp hp with rfl | hp
      · exact hlt
      · exact Nat.lt_trans hlt (hq.2.1 p hp)
    · split
      · rename_i he
        subst he
        exact tblWf_cons.mpr ⟨hv, hq.2.1, hq.2.2⟩
      · refine tblWf_cons.mpr ⟨hq.1, fun p hp => ?_, ih hq.2.2⟩
        rcases tblIns_mem r k v p hp with rfl | hp
        · simp only; omega
        · exact hq.2.1 p hp

/-- A write keeps the canonical form. -/
theorem tblSet_wf [DecidableEq α] {d : Nat → α} {t : Tbl α} (k : Nat) (v : α) (h : tblWf d t = true) : tblWf d (tblSet (d k) t k v) = true := by
  unfold tblSet
  split
  · exact tblDel_wf k h
  · rename_i hv; exact tblIns_wf k v hv h

/-- Keeping some of the keys keeps the canonical form. -/
theorem tblKeep_wf [DecidableEq α] {d : Nat → α} {t : Tbl α} (p : Nat → Bool) (h : tblWf d t = true) : tblWf d (tblKeep p t) = true := by
  induction t with
  | nil => exact h
  | cons q r ih =>
    have hq := tblWf_cons.mp h
    have ih := ih hq.2.2
    simp only [tblKeep, List.filter_cons] at ih ⊢
    split
    · exact tblWf_cons.mpr ⟨hq.1, fun x hx => hq.2.1 x (List.mem_filter.mp hx).1, ih⟩
    · exact ih

/-- What a key reads after a pair is removed from a canonical table. -/
theorem tblGet_tblDel [DecidableEq α] (d : Nat → α) (e : α) (t : Tbl α) (k k' : Nat) (h : tblWf d t = true) :
    tblGet e (tblDel t k) k' = if k' = k then e else tblGet e t k' := by
  induction t with
  | nil => simp [tblDel, tblGet]
  | cons q r ih =>
    have hq := tblWf_cons.mp h
    simp only [tblDel]
    split
    · split
      · simp only [tblGet]; rw [if_pos (by omega)]
      · rfl
    · split
      · split
        · rename_i hjk hk
          exact tblGet_below e r k' (fun p hp => by have := hq.2.1 p hp; omega)
        · simp only [tblGet]
          split
          · exact tblGet_below e r k' (fun p hp => by have := hq.2.1 p hp; omega)
          · rw [if_neg (by omega)]
      · simp only [tblGet, ih hq.2.2]
        split <;> split <;> first | rfl | omega | skip
        all_goals (split <;> first | rfl | omega | skip)
        all_goals (split <;> first | rfl | omega | skip)

/-- What a key reads after a write to a canonical table. -/
theorem tblGet_tblSet [DecidableEq α] {d : Nat → α} {t : Tbl α} (k k' : Nat) (v : α) (h : tblWf d t = true) :
    tblGet (d k') (tblSet (d k) t k v) k' = if k' = k then v else tblGet (d k') t k' := by
  unfold tblSet
  split
  · rename_i hv
    rw [tblGet_tblDel d _ t k k' h]
    split
    · rename_i hk; subst hk; exact hv.symm
    · rfl
  · split
    · rename_i hk; subst hk; simp
    · rename_i hk; exact tblGet_tblIns_ne _ t k k' v hk

/-- A value that is not the default is read back from any table. -/
theorem tblGet_tblSet_of_ne [DecidableEq α] {d v : α} {t : Tbl α} {k : Nat} (h : v ≠ d) : tblGet d (tblSet d t k v) k = v := by
  simp [tblSet, h]

/-! ### Byte stores -/

theorem memGet_memSet {m : Mem} (a a' : Nat) (b : Byte) (h : Memory.wf m = true) :
    memGet (memSet m a b) a' = if a' = a then b else memGet m a' :=
  tblGet_tblSet (d := fun _ => (0 : Byte)) a a' b h

theorem memSet_wf {m : Mem} (a : Nat) (b : Byte) (h : Memory.wf m = true) : Memory.wf (memSet m a b) = true :=
  tblSet_wf (d := fun _ => (0 : Byte)) a b h

theorem memWrite_wf {m : Mem} (a : Nat) (l : List Byte) (h : Memory.wf m = true) : Memory.wf (memWrite m a l) = true := by
  induction l generalizing m a with
  | nil => exact h
  | cons b r ih => exact ih _ (memSet_wf a b h)

theorem memSetNat_wf {m : Mem} (a n v : Nat) (h : Memory.wf m = true) : Memory.wf (memSetNat m a n v) = true :=
  memWrite_wf a _ h

theorem memKeep_wf {m : Mem} (p : Nat → Bool) (h : Memory.wf m = true) : Memory.wf (tblKeep p m) = true :=
  tblKeep_wf (d := fun _ => (0 : Byte)) p h

theorem memZero_wf {m : Mem} (a n : Nat) (h : Memory.wf m = true) : Memory.wf (memZero m a n) = true := memKeep_wf _ h

/-- A byte of a list written from address a on. -/
theorem memGet_memWrite {m : Mem} (a a' : Nat) (l : List Byte) (h : Memory.wf m = true) :
    memGet (memWrite m a l) a' = if a ≤ a' ∧ a' < a + l.length then l.getD (a' - a) 0 else memGet m a' := by
  induction l generalizing m a with
  | nil => simp only [memWrite, List.length_nil]; rw [if_neg (by omega)]
  | cons b r ih =>
    simp only [memWrite, List.length_cons]
    rw [ih (a + 1) (memSet_wf a b h), memGet_memSet a a' b h]
    by_cases h1 : a' = a
    · subst h1
      rw [if_neg (by omega), if_pos rfl, if_pos (by omega)]
      simp
    · by_cases h2 : a + 1 ≤ a' ∧ a' < a + 1 + r.length
      · rw [if_pos h2, if_pos (by omega)]
        have : a' - a = (a' - (a + 1)) + 1 := by omega
        rw [this]; simp
      · rw [if_neg h2, if_neg h1, if_neg (by omega)]

end Sys2Proof.Machine
end

