-- ==== Sys2Proof/Laws/State.lean ====
section
/-! SUPPORT. One lemma per field and update of State, true by rfl, so that no proof unfolds a record update; what a record reads after it has
been written; and that a write to one group of state leaves the records of the others. -/

namespace Sys2Proof.Machine

/-! ### putTile -/

@[simp] theorem putTile_pending (s : State) (t : Nat) (v : Tile) : (putTile s t v).pending = s.pending := rfl
@[simp] theorem putTile_cycle (s : State) (t : Nat) (v : Tile) : (putTile s t v).cycle = s.cycle := rfl
@[simp] theorem putTile_t0 (s : State) (t : Nat) (v : Tile) : (putTile s t v).t0 = s.t0 := rfl
@[simp] theorem putTile_free (s : State) (t : Nat) (v : Tile) : (putTile s t v).free = s.free := rfl
@[simp] theorem putTile_regs (s : State) (t : Nat) (v : Tile) : (putTile s t v).regs = s.regs := rfl
@[simp] theorem putTile_snaps (s : State) (t : Nat) (v : Tile) : (putTile s t v).snaps = s.snaps := rfl
@[simp] theorem putTile_mem (s : State) (t : Nat) (v : Tile) : (putTile s t v).mem = s.mem := rfl
@[simp] theorem putTile_clusters (s : State) (t : Nat) (v : Tile) : (putTile s t v).clusters = s.clusters := rfl
@[simp] theorem putTile_arrivals (s : State) (t : Nat) (v : Tile) : (putTile s t v).arrivals = s.arrivals := rfl
@[simp] theorem putTile_flying (s : State) (t : Nat) (v : Tile) : (putTile s t v).flying = s.flying := rfl
@[simp] theorem putTile_msgs (s : State) (t : Nat) (v : Tile) : (putTile s t v).msgs = s.msgs := rfl
@[simp] theorem putTile_census (s : State) (t : Nat) (v : Tile) : (putTile s t v).census = s.census := rfl
@[simp] theorem putTile_pages (s : State) (t : Nat) (v : Tile) : (putTile s t v).pages = s.pages := rfl
@[simp] theorem putTile_badSlots (s : State) (t : Nat) (v : Tile) : (putTile s t v).badSlots = s.badSlots := rfl
@[simp] theorem putTile_writes (s : State) (t : Nat) (v : Tile) : (putTile s t v).writes = s.writes := rfl
@[simp] theorem putTile_armed (s : State) (t : Nat) (v : Tile) : (putTile s t v).armed = s.armed := rfl
@[simp] theorem putTile_jobs (s : State) (t : Nat) (v : Tile) : (putTile s t v).jobs = s.jobs := rfl
@[simp] theorem putTile_pour (s : State) (t : Nat) (v : Tile) : (putTile s t v).pour = s.pour := rfl
@[simp] theorem putTile_colls (s : State) (t : Nat) (v : Tile) : (putTile s t v).colls = s.colls := rfl
@[simp] theorem putTile_collIn (s : State) (t : Nat) (v : Tile) : (putTile s t v).collIn = s.collIn := rfl
@[simp] theorem putTile_tx (s : State) (t : Nat) (v : Tile) : (putTile s t v).tx = s.tx := rfl
@[simp] theorem putTile_rx (s : State) (t : Nat) (v : Tile) : (putTile s t v).rx = s.rx := rfl
@[simp] theorem putTile_awaited (s : State) (t : Nat) (v : Tile) : (putTile s t v).awaited = s.awaited := rfl
@[simp] theorem putTile_out (s : State) (t : Nat) (v : Tile) : (putTile s t v).out = s.out := rfl
@[simp] theorem putTile_fab (s : State) (t : Nat) (v : Tile) : (putTile s t v).fab = s.fab := rfl
@[simp] theorem putTile_qps (s : State) (t : Nat) (v : Tile) : (putTile s t v).qps = s.qps := rfl
@[simp] theorem putTile_mrs (s : State) (t : Nat) (v : Tile) : (putTile s t v).mrs = s.mrs := rfl
@[simp] theorem putTile_hports (s : State) (t : Nat) (v : Tile) : (putTile s t v).hports = s.hports := rfl
@[simp] theorem putTile_replies (s : State) (t : Nat) (v : Tile) : (putTile s t v).replies = s.replies := rfl
@[simp] theorem putTile_bridges (s : State) (t : Nat) (v : Tile) : (putTile s t v).bridges = s.bridges := rfl
@[simp] theorem putTile_power (s : State) (t : Nat) (v : Tile) : (putTile s t v).power = s.power := rfl
@[simp] theorem putTile_rot (s : State) (t : Nat) (v : Tile) : (putTile s t v).rot = s.rot := rfl
@[simp] theorem putTile_seen (s : State) (t : Nat) (v : Tile) : (putTile s t v).seen = s.seen := rfl
@[simp] theorem putTile_bulkKeys (s : State) (t : Nat) (v : Tile) : (putTile s t v).bulkKeys = s.bulkKeys := rfl
@[simp] theorem putTile_flips (s : State) (t : Nat) (v : Tile) : (putTile s t v).flips = s.flips := rfl
@[simp] theorem putTile_alerts (s : State) (t : Nat) (v : Tile) : (putTile s t v).alerts = s.alerts := rfl
@[simp] theorem putTile_units (s : State) (t : Nat) (v : Tile) : (putTile s t v).units = s.units := rfl
@[simp] theorem putTile_lost (s : State) (t : Nat) (v : Tile) : (putTile s t v).lost = s.lost := rfl
@[simp] theorem getClu_putTile (s : State) (t : Nat) (v : Tile) (x : Nat) : getClu (putTile s t v) x = getClu s x := rfl
@[simp] theorem getJob_putTile (s : State) (t : Nat) (v : Tile) (x : BitVec 12) : getJob (putTile s t v) x = getJob s x := rfl
@[simp] theorem getBridge_putTile (s : State) (t : Nat) (v : Tile) (x : Nat) : getBridge (putTile s t v) x = getBridge s x := rfl
@[simp] theorem reg_putTile (s : State) (t : Nat) (v : Tile) (x : Nat) : reg (putTile s t v) x = reg s x := rfl
@[simp] theorem getQp_putTile (s : State) (t : Nat) (v : Tile) (x : Nat) : getQp (putTile s t v) x = getQp s x := rfl
@[simp] theorem getMr_putTile (s : State) (t : Nat) (v : Tile) (x : Nat) : getMr (putTile s t v) x = getMr s x := rfl
@[simp] theorem getHp_putTile (s : State) (t : Nat) (v : Tile) (x : Nat) : getHp (putTile s t v) x = getHp s x := rfl
@[simp] theorem getPq_putTile (s : State) (t : Nat) (v : Tile) (x y : Nat) : getPq (putTile s t v) x y = getPq s x y := rfl
@[simp] theorem getPort_putTile (s : State) (t : Nat) (v : Tile) (x : Nat) : getPort (putTile s t v) x = getPort s x := rfl
@[simp] theorem getRx_putTile (s : State) (t : Nat) (v : Tile) (x y z : Nat) : getRx (putTile s t v) x y z = getRx s x y z := rfl
@[simp] theorem getTx_putTile (s : State) (t : Nat) (v : Tile) (x y z : Nat) : getTx (putTile s t v) x y z = getTx s x y z := rfl
@[simp] theorem getMsg_putTile (s : State) (t : Nat) (v : Tile) (x : Nat) : getMsg (putTile s t v) x = getMsg s x := rfl
@[simp] theorem getPage_putTile (s : State) (t : Nat) (v : Tile) (x : Nat) : getPage (putTile s t v) x = getPage s x := rfl
theorem getTile_putTile_self (s : State) (t : Nat) (v : Tile) (hv : v ≠ Tile.reset) : getTile (putTile s t v) t = v := tblGet_tblSet_of_ne hv

/-! ### putClu -/

@[simp] theorem putClu_pending (s : State) (c : Nat) (v : Cluster) : (putClu s c v).pending = s.pending := rfl
@[simp] theorem putClu_cycle (s : State) (c : Nat) (v : Cluster) : (putClu s c v).cycle = s.cycle := rfl
@[simp] theorem putClu_t0 (s : State) (c : Nat) (v : Cluster) : (putClu s c v).t0 = s.t0 := rfl
@[simp] theorem putClu_free (s : State) (c : Nat) (v : Cluster) : (putClu s c v).free = s.free := rfl
@[simp] theorem putClu_regs (s : State) (c : Nat) (v : Cluster) : (putClu s c v).regs = s.regs := rfl
@[simp] theorem putClu_snaps (s : State) (c : Nat) (v : Cluster) : (putClu s c v).snaps = s.snaps := rfl
@[simp] theorem putClu_mem (s : State) (c : Nat) (v : Cluster) : (putClu s c v).mem = s.mem := rfl
@[simp] theorem putClu_tiles (s : State) (c : Nat) (v : Cluster) : (putClu s c v).tiles = s.tiles := rfl
@[simp] theorem putClu_arrivals (s : State) (c : Nat) (v : Cluster) : (putClu s c v).arrivals = s.arrivals := rfl
@[simp] theorem putClu_flying (s : State) (c : Nat) (v : Cluster) : (putClu s c v).flying = s.flying := rfl
@[simp] theorem putClu_msgs (s : State) (c : Nat) (v : Cluster) : (putClu s c v).msgs = s.msgs := rfl
@[simp] theorem putClu_census (s : State) (c : Nat) (v : Cluster) : (putClu s c v).census = s.census := rfl
@[simp] theorem putClu_pages (s : State) (c : Nat) (v : Cluster) : (putClu s c v).pages = s.pages := rfl
@[simp] theorem putClu_badSlots (s : State) (c : Nat) (v : Cluster) : (putClu s c v).badSlots = s.badSlots := rfl
@[simp] theorem putClu_writes (s : State) (c : Nat) (v : Cluster) : (putClu s c v).writes = s.writes := rfl
@[simp] theorem putClu_armed (s : State) (c : Nat) (v : Cluster) : (putClu s c v).armed = s.armed := rfl
@[simp] theorem putClu_jobs (s : State) (c : Nat) (v : Cluster) : (putClu s c v).jobs = s.jobs := rfl
@[simp] theorem putClu_pour (s : State) (c : Nat) (v : Cluster) : (putClu s c v).pour = s.pour := rfl
@[simp] theorem putClu_colls (s : State) (c : Nat) (v : Cluster) : (putClu s c v).colls = s.colls := rfl
@[simp] theorem putClu_collIn (s : State) (c : Nat) (v : Cluster) : (putClu s c v).collIn = s.collIn := rfl
@[simp] theorem putClu_tx (s : State) (c : Nat) (v : Cluster) : (putClu s c v).tx = s.tx := rfl
@[simp] theorem putClu_rx (s : State) (c : Nat) (v : Cluster) : (putClu s c v).rx = s.rx := rfl
@[simp] theorem putClu_awaited (s : State) (c : Nat) (v : Cluster) : (putClu s c v).awaited = s.awaited := rfl
@[simp] theorem putClu_out (s : State) (c : Nat) (v : Cluster) : (putClu s c v).out = s.out := rfl
@[simp] theorem putClu_fab (s : State) (c : Nat) (v : Cluster) : (putClu s c v).fab = s.fab := rfl
@[simp] theorem putClu_qps (s : State) (c : Nat) (v : Cluster) : (putClu s c v).qps = s.qps := rfl
@[simp] theorem putClu_mrs (s : State) (c : Nat) (v : Cluster) : (putClu s c v).mrs = s.mrs := rfl
@[simp] theorem putClu_hports (s : State) (c : Nat) (v : Cluster) : (putClu s c v).hports = s.hports := rfl
@[simp] theorem putClu_replies (s : State) (c : Nat) (v : Cluster) : (putClu s c v).replies = s.replies := rfl
@[simp] theorem putClu_bridges (s : State) (c : Nat) (v : Cluster) : (putClu s c v).bridges = s.bridges := rfl
@[simp] theorem putClu_power (s : State) (c : Nat) (v : Cluster) : (putClu s c v).power = s.power := rfl
@[simp] theorem putClu_rot (s : State) (c : Nat) (v : Cluster) : (putClu s c v).rot = s.rot := rfl
@[simp] theorem putClu_seen (s : State) (c : Nat) (v : Cluster) : (putClu s c v).seen = s.seen := rfl
@[simp] theorem putClu_bulkKeys (s : State) (c : Nat) (v : Cluster) : (putClu s c v).bulkKeys = s.bulkKeys := rfl
@[simp] theorem putClu_flips (s : State) (c : Nat) (v : Cluster) : (putClu s c v).flips = s.flips := rfl
@[simp] theorem putClu_alerts (s : State) (c : Nat) (v : Cluster) : (putClu s c v).alerts = s.alerts := rfl
@[simp] theorem putClu_units (s : State) (c : Nat) (v : Cluster) : (putClu s c v).units = s.units := rfl
@[simp] theorem putClu_lost (s : State) (c : Nat) (v : Cluster) : (putClu s c v).lost = s.lost := rfl
@[simp] theorem getTile_putClu (s : State) (c : Nat) (v : Cluster) (x : Nat) : getTile (putClu s c v) x = getTile s x := rfl
@[simp] theorem getJob_putClu (s : State) (c : Nat) (v : Cluster) (x : BitVec 12) : getJob (putClu s c v) x = getJob s x := rfl
@[simp] theorem getBridge_putClu (s : State) (c : Nat) (v : Cluster) (x : Nat) : getBridge (putClu s c v) x = getBridge s x := rfl
@[simp] theorem reg_putClu (s : State) (c : Nat) (v : Cluster) (x : Nat) : reg (putClu s c v) x = reg s x := rfl
@[simp] theorem getQp_putClu (s : State) (c : Nat) (v : Cluster) (x : Nat) : getQp (putClu s c v) x = getQp s x := rfl
@[simp] theorem getMr_putClu (s : State) (c : Nat) (v : Cluster) (x : Nat) : getMr (putClu s c v) x = getMr s x := rfl
@[simp] theorem getHp_putClu (s : State) (c : Nat) (v : Cluster) (x : Nat) : getHp (putClu s c v) x = getHp s x := rfl
@[simp] theorem getPq_putClu (s : State) (c : Nat) (v : Cluster) (x y : Nat) : getPq (putClu s c v) x y = getPq s x y := rfl
@[simp] theorem getPort_putClu (s : State) (c : Nat) (v : Cluster) (x : Nat) : getPort (putClu s c v) x = getPort s x := rfl
@[simp] theorem getRx_putClu (s : State) (c : Nat) (v : Cluster) (x y z : Nat) : getRx (putClu s c v) x y z = getRx s x y z := rfl
@[simp] theorem getTx_putClu (s : State) (c : Nat) (v : Cluster) (x y z : Nat) : getTx (putClu s c v) x y z = getTx s x y z := rfl
@[simp] theorem getMsg_putClu (s : State) (c : Nat) (v : Cluster) (x : Nat) : getMsg (putClu s c v) x = getMsg s x := rfl
@[simp] theorem getPage_putClu (s : State) (c : Nat) (v : Cluster) (x : Nat) : getPage (putClu s c v) x = getPage s x := rfl
theorem getClu_putClu_self (s : State) (c : Nat) (v : Cluster) (hv : v ≠ Cluster.reset) : getClu (putClu s c v) c = v := tblGet_tblSet_of_ne hv

/-! ### putJob -/

@[simp] theorem putJob_pending (s : State) (g : BitVec 12) (v : Job) : (putJob s g v).pending = s.pending := rfl
@[simp] theorem putJob_cycle (s : State) (g : BitVec 12) (v : Job) : (putJob s g v).cycle = s.cycle := rfl
@[simp] theorem putJob_t0 (s : State) (g : BitVec 12) (v : Job) : (putJob s g v).t0 = s.t0 := rfl
@[simp] theorem putJob_free (s : State) (g : BitVec 12) (v : Job) : (putJob s g v).free = s.free := rfl
@[simp] theorem putJob_regs (s : State) (g : BitVec 12) (v : Job) : (putJob s g v).regs = s.regs := rfl
@[simp] theorem putJob_snaps (s : State) (g : BitVec 12) (v : Job) : (putJob s g v).snaps = s.snaps := rfl
@[simp] theorem putJob_mem (s : State) (g : BitVec 12) (v : Job) : (putJob s g v).mem = s.mem := rfl
@[simp] theorem putJob_tiles (s : State) (g : BitVec 12) (v : Job) : (putJob s g v).tiles = s.tiles := rfl
@[simp] theorem putJob_clusters (s : State) (g : BitVec 12) (v : Job) : (putJob s g v).clusters = s.clusters := rfl
@[simp] theorem putJob_arrivals (s : State) (g : BitVec 12) (v : Job) : (putJob s g v).arrivals = s.arrivals := rfl
@[simp] theorem putJob_flying (s : State) (g : BitVec 12) (v : Job) : (putJob s g v).flying = s.flying := rfl
@[simp] theorem putJob_msgs (s : State) (g : BitVec 12) (v : Job) : (putJob s g v).msgs = s.msgs := rfl
@[simp] theorem putJob_census (s : State) (g : BitVec 12) (v : Job) : (putJob s g v).census = s.census := rfl
@[simp] theorem putJob_pages (s : State) (g : BitVec 12) (v : Job) : (putJob s g v).pages = s.pages := rfl
@[simp] theorem putJob_badSlots (s : State) (g : BitVec 12) (v : Job) : (putJob s g v).badSlots = s.badSlots := rfl
@[simp] theorem putJob_writes (s : State) (g : BitVec 12) (v : Job) : (putJob s g v).writes = s.writes := rfl
@[simp] theorem putJob_armed (s : State) (g : BitVec 12) (v : Job) : (putJob s g v).armed = s.armed := rfl
@[simp] theorem putJob_pour (s : State) (g : BitVec 12) (v : Job) : (putJob s g v).pour = s.pour := rfl
@[simp] theorem putJob_colls (s : State) (g : BitVec 12) (v : Job) : (putJob s g v).colls = s.colls := rfl
@[simp] theorem putJob_collIn (s : State) (g : BitVec 12) (v : Job) : (putJob s g v).collIn = s.collIn := rfl
@[simp] theorem putJob_tx (s : State) (g : BitVec 12) (v : Job) : (putJob s g v).tx = s.tx := rfl
@[simp] theorem putJob_rx (s : State) (g : BitVec 12) (v : Job) : (putJob s g v).rx = s.rx := rfl
@[simp] theorem putJob_awaited (s : State) (g : BitVec 12) (v : Job) : (putJob s g v).awaited = s.awaited := rfl
@[simp] theorem putJob_out (s : State) (g : BitVec 12) (v : Job) : (putJob s g v).out = s.out := rfl
@[simp] theorem putJob_fab (s : State) (g : BitVec 12) (v : Job) : (putJob s g v).fab = s.fab := rfl
@[simp] theorem putJob_qps (s : State) (g : BitVec 12) (v : Job) : (putJob s g v).qps = s.qps := rfl
@[simp] theorem putJob_mrs (s : State) (g : BitVec 12) (v : Job) : (putJob s g v).mrs = s.mrs := rfl
@[simp] theorem putJob_hports (s : State) (g : BitVec 12) (v : Job) : (putJob s g v).hports = s.hports := rfl
@[simp] theorem putJob_replies (s : State) (g : BitVec 12) (v : Job) : (putJob s g v).replies = s.replies := rfl
@[simp] theorem putJob_bridges (s : State) (g : BitVec 12) (v : Job) : (putJob s g v).bridges = s.bridges := rfl
@[simp] theorem putJob_power (s : State) (g : BitVec 12) (v : Job) : (putJob s g v).power = s.power := rfl
@[simp] theorem putJob_rot (s : State) (g : BitVec 12) (v : Job) : (putJob s g v).rot = s.rot := rfl
@[simp] theorem putJob_seen (s : State) (g : BitVec 12) (v : Job) : (putJob s g v).seen = s.seen := rfl
@[simp] theorem putJob_bulkKeys (s : State) (g : BitVec 12) (v : Job) : (putJob s g v).bulkKeys = s.bulkKeys := rfl
@[simp] theorem putJob_flips (s : State) (g : BitVec 12) (v : Job) : (putJob s g v).flips = s.flips := rfl
@[simp] theorem putJob_alerts (s : State) (g : BitVec 12) (v : Job) : (putJob s g v).alerts = s.alerts := rfl
@[simp] theorem putJob_units (s : State) (g : BitVec 12) (v : Job) : (putJob s g v).units = s.units := rfl
@[simp] theorem putJob_lost (s : State) (g : BitVec 12) (v : Job) : (putJob s g v).lost = s.lost := rfl
@[simp] theorem getTile_putJob (s : State) (g : BitVec 12) (v : Job) (x : Nat) : getTile (putJob s g v) x = getTile s x := rfl
@[simp] theorem getClu_putJob (s : State) (g : BitVec 12) (v : Job) (x : Nat) : getClu (putJob s g v) x = getClu s x := rfl
@[simp] theorem getBridge_putJob (s : State) (g : BitVec 12) (v : Job) (x : Nat) : getBridge (putJob s g v) x = getBridge s x := rfl
@[simp] theorem reg_putJob (s : State) (g : BitVec 12) (v : Job) (x : Nat) : reg (putJob s g v) x = reg s x := rfl
@[simp] theorem getQp_putJob (s : State) (g : BitVec 12) (v : Job) (x : Nat) : getQp (putJob s g v) x = getQp s x := rfl
@[simp] theorem getMr_putJob (s : State) (g : BitVec 12) (v : Job) (x : Nat) : getMr (putJob s g v) x = getMr s x := rfl
@[simp] theorem getHp_putJob (s : State) (g : BitVec 12) (v : Job) (x : Nat) : getHp (putJob s g v) x = getHp s x := rfl
@[simp] theorem getPq_putJob (s : State) (g : BitVec 12) (v : Job) (x y : Nat) : getPq (putJob s g v) x y = getPq s x y := rfl
@[simp] theorem getPort_putJob (s : State) (g : BitVec 12) (v : Job) (x : Nat) : getPort (putJob s g v) x = getPort s x := rfl
@[simp] theorem getRx_putJob (s : State) (g : BitVec 12) (v : Job) (x y z : Nat) : getRx (putJob s g v) x y z = getRx s x y z := rfl
@[simp] theorem getTx_putJob (s : State) (g : BitVec 12) (v : Job) (x y z : Nat) : getTx (putJob s g v) x y z = getTx s x y z := rfl
@[simp] theorem getMsg_putJob (s : State) (g : BitVec 12) (v : Job) (x : Nat) : getMsg (putJob s g v) x = getMsg s x := rfl
@[simp] theorem getPage_putJob (s : State) (g : BitVec 12) (v : Job) (x : Nat) : getPage (putJob s g v) x = getPage s x := rfl
theorem getJob_putJob_self (s : State) (g : BitVec 12) (v : Job) (hv : v ≠ Job.reset) : getJob (putJob s g v) g = v := tblGet_tblSet_of_ne hv

/-! ### putBridge -/

@[simp] theorem putBridge_pending (s : State) (b : Nat) (v : Bridge) : (putBridge s b v).pending = s.pending := rfl
@[simp] theorem putBridge_cycle (s : State) (b : Nat) (v : Bridge) : (putBridge s b v).cycle = s.cycle := rfl
@[simp] theorem putBridge_t0 (s : State) (b : Nat) (v : Bridge) : (putBridge s b v).t0 = s.t0 := rfl
@[simp] theorem putBridge_free (s : State) (b : Nat) (v : Bridge) : (putBridge s b v).free = s.free := rfl
@[simp] theorem putBridge_regs (s : State) (b : Nat) (v : Bridge) : (putBridge s b v).regs = s.regs := rfl
@[simp] theorem putBridge_snaps (s : State) (b : Nat) (v : Bridge) : (putBridge s b v).snaps = s.snaps := rfl
@[simp] theorem putBridge_mem (s : State) (b : Nat) (v : Bridge) : (putBridge s b v).mem = s.mem := rfl
@[simp] theorem putBridge_tiles (s : State) (b : Nat) (v : Bridge) : (putBridge s b v).tiles = s.tiles := rfl
@[simp] theorem putBridge_clusters (s : State) (b : Nat) (v : Bridge) : (putBridge s b v).clusters = s.clusters := rfl
@[simp] theorem putBridge_arrivals (s : State) (b : Nat) (v : Bridge) : (putBridge s b v).arrivals = s.arrivals := rfl
@[simp] theorem putBridge_flying (s : State) (b : Nat) (v : Bridge) : (putBridge s b v).flying = s.flying := rfl
@[simp] theorem putBridge_msgs (s : State) (b : Nat) (v : Bridge) : (putBridge s b v).msgs = s.msgs := rfl
@[simp] theorem putBridge_census (s : State) (b : Nat) (v : Bridge) : (putBridge s b v).census = s.census := rfl
@[simp] theorem putBridge_pages (s : State) (b : Nat) (v : Bridge) : (putBridge s b v).pages = s.pages := rfl
@[simp] theorem putBridge_badSlots (s : State) (b : Nat) (v : Bridge) : (putBridge s b v).badSlots = s.badSlots := rfl
@[simp] theorem putBridge_writes (s : State) (b : Nat) (v : Bridge) : (putBridge s b v).writes = s.writes := rfl
@[simp] theorem putBridge_armed (s : State) (b : Nat) (v : Bridge) : (putBridge s b v).armed = s.armed := rfl
@[simp] theorem putBridge_jobs (s : State) (b : Nat) (v : Bridge) : (putBridge s b v).jobs = s.jobs := rfl
@[simp] theorem putBridge_pour (s : State) (b : Nat) (v : Bridge) : (putBridge s b v).pour = s.pour := rfl
@[simp] theorem putBridge_colls (s : State) (b : Nat) (v : Bridge) : (putBridge s b v).colls = s.colls := rfl
@[simp] theorem putBridge_collIn (s : State) (b : Nat) (v : Bridge) : (putBridge s b v).collIn = s.collIn := rfl
@[simp] theorem putBridge_tx (s : State) (b : Nat) (v : Bridge) : (putBridge s b v).tx = s.tx := rfl
@[simp] theorem putBridge_rx (s : State) (b : Nat) (v : Bridge) : (putBridge s b v).rx = s.rx := rfl
@[simp] theorem putBridge_awaited (s : State) (b : Nat) (v : Bridge) : (putBridge s b v).awaited = s.awaited := rfl
@[simp] theorem putBridge_out (s : State) (b : Nat) (v : Bridge) : (putBridge s b v).out = s.out := rfl
@[simp] theorem putBridge_fab (s : State) (b : Nat) (v : Bridge) : (putBridge s b v).fab = s.fab := rfl
@[simp] theorem putBridge_qps (s : State) (b : Nat) (v : Bridge) : (putBridge s b v).qps = s.qps := rfl
@[simp] theorem putBridge_mrs (s : State) (b : Nat) (v : Bridge) : (putBridge s b v).mrs = s.mrs := rfl
@[simp] theorem putBridge_hports (s : State) (b : Nat) (v : Bridge) : (putBridge s b v).hports = s.hports := rfl
@[simp] theorem putBridge_replies (s : State) (b : Nat) (v : Bridge) : (putBridge s b v).replies = s.replies := rfl
@[simp] theorem putBridge_power (s : State) (b : Nat) (v : Bridge) : (putBridge s b v).power = s.power := rfl
@[simp] theorem putBridge_rot (s : State) (b : Nat) (v : Bridge) : (putBridge s b v).rot = s.rot := rfl
@[simp] theorem putBridge_seen (s : State) (b : Nat) (v : Bridge) : (putBridge s b v).seen = s.seen := rfl
@[simp] theorem putBridge_bulkKeys (s : State) (b : Nat) (v : Bridge) : (putBridge s b v).bulkKeys = s.bulkKeys := rfl
@[simp] theorem putBridge_flips (s : State) (b : Nat) (v : Bridge) : (putBridge s b v).flips = s.flips := rfl
@[simp] theorem putBridge_alerts (s : State) (b : Nat) (v : Bridge) : (putBridge s b v).alerts = s.alerts := rfl
@[simp] theorem putBridge_units (s : State) (b : Nat) (v : Bridge) : (putBridge s b v).units = s.units := rfl
@[simp] theorem putBridge_lost (s : State) (b : Nat) (v : Bridge) : (putBridge s b v).lost = s.lost := rfl
@[simp] theorem getTile_putBridge (s : State) (b : Nat) (v : Bridge) (x : Nat) : getTile (putBridge s b v) x = getTile s x := rfl
@[simp] theorem getClu_putBridge (s : State) (b : Nat) (v : Bridge) (x : Nat) : getClu (putBridge s b v) x = getClu s x := rfl
@[simp] theorem getJob_putBridge (s : State) (b : Nat) (v : Bridge) (x : BitVec 12) : getJob (putBridge s b v) x = getJob s x := rfl
@[simp] theorem reg_putBridge (s : State) (b : Nat) (v : Bridge) (x : Nat) : reg (putBridge s b v) x = reg s x := rfl
@[simp] theorem getQp_putBridge (s : State) (b : Nat) (v : Bridge) (x : Nat) : getQp (putBridge s b v) x = getQp s x := rfl
@[simp] theorem getMr_putBridge (s : State) (b : Nat) (v : Bridge) (x : Nat) : getMr (putBridge s b v) x = getMr s x := rfl
@[simp] theorem getHp_putBridge (s : State) (b : Nat) (v : Bridge) (x : Nat) : getHp (putBridge s b v) x = getHp s x := rfl
@[simp] theorem getPq_putBridge (s : State) (b : Nat) (v : Bridge) (x y : Nat) : getPq (putBridge s b v) x y = getPq s x y := rfl
@[simp] theorem getPort_putBridge (s : State) (b : Nat) (v : Bridge) (x : Nat) : getPort (putBridge s b v) x = getPort s x := rfl
@[simp] theorem getRx_putBridge (s : State) (b : Nat) (v : Bridge) (x y z : Nat) : getRx (putBridge s b v) x y z = getRx s x y z := rfl
@[simp] theorem getTx_putBridge (s : State) (b : Nat) (v : Bridge) (x y z : Nat) : getTx (putBridge s b v) x y z = getTx s x y z := rfl
@[simp] theorem getMsg_putBridge (s : State) (b : Nat) (v : Bridge) (x : Nat) : getMsg (putBridge s b v) x = getMsg s x := rfl
@[simp] theorem getPage_putBridge (s : State) (b : Nat) (v : Bridge) (x : Nat) : getPage (putBridge s b v) x = getPage s x := rfl
theorem getBridge_putBridge_self (s : State) (b : Nat) (v : Bridge) (hv : v ≠ Bridge.reset) : getBridge (putBridge s b v) b = v := tblGet_tblSet_of_ne hv

/-! ### setReg -/

@[simp] theorem setReg_pending (s : State) (a : Nat) (v : Word) : (setReg s a v).pending = s.pending := rfl
@[simp] theorem setReg_cycle (s : State) (a : Nat) (v : Word) : (setReg s a v).cycle = s.cycle := rfl
@[simp] theorem setReg_t0 (s : State) (a : Nat) (v : Word) : (setReg s a v).t0 = s.t0 := rfl
@[simp] theorem setReg_free (s : State) (a : Nat) (v : Word) : (setReg s a v).free = s.free := rfl
@[simp] theorem setReg_snaps (s : State) (a : Nat) (v : Word) : (setReg s a v).snaps = s.snaps := rfl
@[simp] theorem setReg_mem (s : State) (a : Nat) (v : Word) : (setReg s a v).mem = s.mem := rfl
@[simp] theorem setReg_tiles (s : State) (a : Nat) (v : Word) : (setReg s a v).tiles = s.tiles := rfl
@[simp] theorem setReg_clusters (s : State) (a : Nat) (v : Word) : (setReg s a v).clusters = s.clusters := rfl
@[simp] theorem setReg_arrivals (s : State) (a : Nat) (v : Word) : (setReg s a v).arrivals = s.arrivals := rfl
@[simp] theorem setReg_flying (s : State) (a : Nat) (v : Word) : (setReg s a v).flying = s.flying := rfl
@[simp] theorem setReg_msgs (s : State) (a : Nat) (v : Word) : (setReg s a v).msgs = s.msgs := rfl
@[simp] theorem setReg_census (s : State) (a : Nat) (v : Word) : (setReg s a v).census = s.census := rfl
@[simp] theorem setReg_pages (s : State) (a : Nat) (v : Word) : (setReg s a v).pages = s.pages := rfl
@[simp] theorem setReg_badSlots (s : State) (a : Nat) (v : Word) : (setReg s a v).badSlots = s.badSlots := rfl
@[simp] theorem setReg_writes (s : State) (a : Nat) (v : Word) : (setReg s a v).writes = s.writes := rfl
@[simp] theorem setReg_armed (s : State) (a : Nat) (v : Word) : (setReg s a v).armed = s.armed := rfl
@[simp] theorem setReg_jobs (s : State) (a : Nat) (v : Word) : (setReg s a v).jobs = s.jobs := rfl
@[simp] theorem setReg_pour (s : State) (a : Nat) (v : Word) : (setReg s a v).pour = s.pour := rfl
@[simp] theorem setReg_colls (s : State) (a : Nat) (v : Word) : (setReg s a v).colls = s.colls := rfl
@[simp] theorem setReg_collIn (s : State) (a : Nat) (v : Word) : (setReg s a v).collIn = s.collIn := rfl
@[simp] theorem setReg_tx (s : State) (a : Nat) (v : Word) : (setReg s a v).tx = s.tx := rfl
@[simp] theorem setReg_rx (s : State) (a : Nat) (v : Word) : (setReg s a v).rx = s.rx := rfl
@[simp] theorem setReg_awaited (s : State) (a : Nat) (v : Word) : (setReg s a v).awaited = s.awaited := rfl
@[simp] theorem setReg_out (s : State) (a : Nat) (v : Word) : (setReg s a v).out = s.out := rfl
@[simp] theorem setReg_fab (s : State) (a : Nat) (v : Word) : (setReg s a v).fab = s.fab := rfl
@[simp] theorem setReg_qps (s : State) (a : Nat) (v : Word) : (setReg s a v).qps = s.qps := rfl
@[simp] theorem setReg_mrs (s : State) (a : Nat) (v : Word) : (setReg s a v).mrs = s.mrs := rfl
@[simp] theorem setReg_hports (s : State) (a : Nat) (v : Word) : (setReg s a v).hports = s.hports := rfl
@[simp] theorem setReg_replies (s : State) (a : Nat) (v : Word) : (setReg s a v).replies = s.replies := rfl
@[simp] theorem setReg_bridges (s : State) (a : Nat) (v : Word) : (setReg s a v).bridges = s.bridges := rfl
@[simp] theorem setReg_power (s : State) (a : Nat) (v : Word) : (setReg s a v).power = s.power := rfl
@[simp] theorem setReg_rot (s : State) (a : Nat) (v : Word) : (setReg s a v).rot = s.rot := rfl
@[simp] theorem setReg_seen (s : State) (a : Nat) (v : Word) : (setReg s a v).seen = s.seen := rfl
@[simp] theorem setReg_bulkKeys (s : State) (a : Nat) (v : Word) : (setReg s a v).bulkKeys = s.bulkKeys := rfl
@[simp] theorem setReg_flips (s : State) (a : Nat) (v : Word) : (setReg s a v).flips = s.flips := rfl
@[simp] theorem setReg_alerts (s : State) (a : Nat) (v : Word) : (setReg s a v).alerts = s.alerts := rfl
@[simp] theorem setReg_units (s : State) (a : Nat) (v : Word) : (setReg s a v).units = s.units := rfl
@[simp] theorem setReg_lost (s : State) (a : Nat) (v : Word) : (setReg s a v).lost = s.lost := rfl
@[simp] theorem getTile_setReg (s : State) (a : Nat) (v : Word) (x : Nat) : getTile (setReg s a v) x = getTile s x := rfl
@[simp] theorem getClu_setReg (s : State) (a : Nat) (v : Word) (x : Nat) : getClu (setReg s a v) x = getClu s x := rfl
@[simp] theorem getJob_setReg (s : State) (a : Nat) (v : Word) (x : BitVec 12) : getJob (setReg s a v) x = getJob s x := rfl
@[simp] theorem getBridge_setReg (s : State) (a : Nat) (v : Word) (x : Nat) : getBridge (setReg s a v) x = getBridge s x := rfl
@[simp] theorem getQp_setReg (s : State) (a : Nat) (v : Word) (x : Nat) : getQp (setReg s a v) x = getQp s x := rfl
@[simp] theorem getMr_setReg (s : State) (a : Nat) (v : Word) (x : Nat) : getMr (setReg s a v) x = getMr s x := rfl
@[simp] theorem getHp_setReg (s : State) (a : Nat) (v : Word) (x : Nat) : getHp (setReg s a v) x = getHp s x := rfl
@[simp] theorem getPq_setReg (s : State) (a : Nat) (v : Word) (x y : Nat) : getPq (setReg s a v) x y = getPq s x y := rfl
@[simp] theorem getPort_setReg (s : State) (a : Nat) (v : Word) (x : Nat) : getPort (setReg s a v) x = getPort s x := rfl
@[simp] theorem getRx_setReg (s : State) (a : Nat) (v : Word) (x y z : Nat) : getRx (setReg s a v) x y z = getRx s x y z := rfl
@[simp] theorem getTx_setReg (s : State) (a : Nat) (v : Word) (x y z : Nat) : getTx (setReg s a v) x y z = getTx s x y z := rfl
@[simp] theorem getMsg_setReg (s : State) (a : Nat) (v : Word) (x : Nat) : getMsg (setReg s a v) x = getMsg s x := rfl
@[simp] theorem getPage_setReg (s : State) (a : Nat) (v : Word) (x : Nat) : getPage (setReg s a v) x = getPage s x := rfl

/-! ### putQp -/

@[simp] theorem putQp_pending (s : State) (q : Nat) (v : QP) : (putQp s q v).pending = s.pending := rfl
@[simp] theorem putQp_cycle (s : State) (q : Nat) (v : QP) : (putQp s q v).cycle = s.cycle := rfl
@[simp] theorem putQp_t0 (s : State) (q : Nat) (v : QP) : (putQp s q v).t0 = s.t0 := rfl
@[simp] theorem putQp_free (s : State) (q : Nat) (v : QP) : (putQp s q v).free = s.free := rfl
@[simp] theorem putQp_regs (s : State) (q : Nat) (v : QP) : (putQp s q v).regs = s.regs := rfl
@[simp] theorem putQp_snaps (s : State) (q : Nat) (v : QP) : (putQp s q v).snaps = s.snaps := rfl
@[simp] theorem putQp_mem (s : State) (q : Nat) (v : QP) : (putQp s q v).mem = s.mem := rfl
@[simp] theorem putQp_tiles (s : State) (q : Nat) (v : QP) : (putQp s q v).tiles = s.tiles := rfl
@[simp] theorem putQp_clusters (s : State) (q : Nat) (v : QP) : (putQp s q v).clusters = s.clusters := rfl
@[simp] theorem putQp_arrivals (s : State) (q : Nat) (v : QP) : (putQp s q v).arrivals = s.arrivals := rfl
@[simp] theorem putQp_flying (s : State) (q : Nat) (v : QP) : (putQp s q v).flying = s.flying := rfl
@[simp] theorem putQp_msgs (s : State) (q : Nat) (v : QP) : (putQp s q v).msgs = s.msgs := rfl
@[simp] theorem putQp_census (s : State) (q : Nat) (v : QP) : (putQp s q v).census = s.census := rfl
@[simp] theorem putQp_pages (s : State) (q : Nat) (v : QP) : (putQp s q v).pages = s.pages := rfl
@[simp] theorem putQp_badSlots (s : State) (q : Nat) (v : QP) : (putQp s q v).badSlots = s.badSlots := rfl
@[simp] theorem putQp_writes (s : State) (q : Nat) (v : QP) : (putQp s q v).writes = s.writes := rfl
@[simp] theorem putQp_armed (s : State) (q : Nat) (v : QP) : (putQp s q v).armed = s.armed := rfl
@[simp] theorem putQp_jobs (s : State) (q : Nat) (v : QP) : (putQp s q v).jobs = s.jobs := rfl
@[simp] theorem putQp_pour (s : State) (q : Nat) (v : QP) : (putQp s q v).pour = s.pour := rfl
@[simp] theorem putQp_colls (s : State) (q : Nat) (v : QP) : (putQp s q v).colls = s.colls := rfl
@[simp] theorem putQp_collIn (s : State) (q : Nat) (v : QP) : (putQp s q v).collIn = s.collIn := rfl
@[simp] theorem putQp_tx (s : State) (q : Nat) (v : QP) : (putQp s q v).tx = s.tx := rfl
@[simp] theorem putQp_rx (s : State) (q : Nat) (v : QP) : (putQp s q v).rx = s.rx := rfl
@[simp] theorem putQp_awaited (s : State) (q : Nat) (v : QP) : (putQp s q v).awaited = s.awaited := rfl
@[simp] theorem putQp_out (s : State) (q : Nat) (v : QP) : (putQp s q v).out = s.out := rfl
@[simp] theorem putQp_fab (s : State) (q : Nat) (v : QP) : (putQp s q v).fab = s.fab := rfl
@[simp] theorem putQp_mrs (s : State) (q : Nat) (v : QP) : (putQp s q v).mrs = s.mrs := rfl
@[simp] theorem putQp_hports (s : State) (q : Nat) (v : QP) : (putQp s q v).hports = s.hports := rfl
@[simp] theorem putQp_replies (s : State) (q : Nat) (v : QP) : (putQp s q v).replies = s.replies := rfl
@[simp] theorem putQp_bridges (s : State) (q : Nat) (v : QP) : (putQp s q v).bridges = s.bridges := rfl
@[simp] theorem putQp_power (s : State) (q : Nat) (v : QP) : (putQp s q v).power = s.power := rfl
@[simp] theorem putQp_rot (s : State) (q : Nat) (v : QP) : (putQp s q v).rot = s.rot := rfl
@[simp] theorem putQp_seen (s : State) (q : Nat) (v : QP) : (putQp s q v).seen = s.seen := rfl
@[simp] theorem putQp_bulkKeys (s : State) (q : Nat) (v : QP) : (putQp s q v).bulkKeys = s.bulkKeys := rfl
@[simp] theorem putQp_flips (s : State) (q : Nat) (v : QP) : (putQp s q v).flips = s.flips := rfl
@[simp] theorem putQp_alerts (s : State) (q : Nat) (v : QP) : (putQp s q v).alerts = s.alerts := rfl
@[simp] theorem putQp_units (s : State) (q : Nat) (v : QP) : (putQp s q v).units = s.units := rfl
@[simp] theorem putQp_lost (s : State) (q : Nat) (v : QP) : (putQp s q v).lost = s.lost := rfl
@[simp] theorem getTile_putQp (s : State) (q : Nat) (v : QP) (x : Nat) : getTile (putQp s q v) x = getTile s x := rfl
@[simp] theorem getClu_putQp (s : State) (q : Nat) (v : QP) (x : Nat) : getClu (putQp s q v) x = getClu s x := rfl
@[simp] theorem getJob_putQp (s : State) (q : Nat) (v : QP) (x : BitVec 12) : getJob (putQp s q v) x = getJob s x := rfl
@[simp] theorem getBridge_putQp (s : State) (q : Nat) (v : QP) (x : Nat) : getBridge (putQp s q v) x = getBridge s x := rfl
@[simp] theorem reg_putQp (s : State) (q : Nat) (v : QP) (x : Nat) : reg (putQp s q v) x = reg s x := rfl
@[simp] theorem getMr_putQp (s : State) (q : Nat) (v : QP) (x : Nat) : getMr (putQp s q v) x = getMr s x := rfl
@[simp] theorem getHp_putQp (s : State) (q : Nat) (v : QP) (x : Nat) : getHp (putQp s q v) x = getHp s x := rfl
@[simp] theorem getPq_putQp (s : State) (q : Nat) (v : QP) (x y : Nat) : getPq (putQp s q v) x y = getPq s x y := rfl
@[simp] theorem getPort_putQp (s : State) (q : Nat) (v : QP) (x : Nat) : getPort (putQp s q v) x = getPort s x := rfl
@[simp] theorem getRx_putQp (s : State) (q : Nat) (v : QP) (x y z : Nat) : getRx (putQp s q v) x y z = getRx s x y z := rfl
@[simp] theorem getTx_putQp (s : State) (q : Nat) (v : QP) (x y z : Nat) : getTx (putQp s q v) x y z = getTx s x y z := rfl
@[simp] theorem getMsg_putQp (s : State) (q : Nat) (v : QP) (x : Nat) : getMsg (putQp s q v) x = getMsg s x := rfl
@[simp] theorem getPage_putQp (s : State) (q : Nat) (v : QP) (x : Nat) : getPage (putQp s q v) x = getPage s x := rfl
theorem getQp_putQp_self (s : State) (q : Nat) (v : QP) (hv : v ≠ QP.reset) : getQp (putQp s q v) q = v := tblGet_tblSet_of_ne hv

/-! ### putMr -/

@[simp] theorem putMr_pending (s : State) (m : Nat) (v : MR) : (putMr s m v).pending = s.pending := rfl
@[simp] theorem putMr_cycle (s : State) (m : Nat) (v : MR) : (putMr s m v).cycle = s.cycle := rfl
@[simp] theorem putMr_t0 (s : State) (m : Nat) (v : MR) : (putMr s m v).t0 = s.t0 := rfl
@[simp] theorem putMr_free (s : State) (m : Nat) (v : MR) : (putMr s m v).free = s.free := rfl
@[simp] theorem putMr_regs (s : State) (m : Nat) (v : MR) : (putMr s m v).regs = s.regs := rfl
@[simp] theorem putMr_snaps (s : State) (m : Nat) (v : MR) : (putMr s m v).snaps = s.snaps := rfl
@[simp] theorem putMr_mem (s : State) (m : Nat) (v : MR) : (putMr s m v).mem = s.mem := rfl
@[simp] theorem putMr_tiles (s : State) (m : Nat) (v : MR) : (putMr s m v).tiles = s.tiles := rfl
@[simp] theorem putMr_clusters (s : State) (m : Nat) (v : MR) : (putMr s m v).clusters = s.clusters := rfl
@[simp] theorem putMr_arrivals (s : State) (m : Nat) (v : MR) : (putMr s m v).arrivals = s.arrivals := rfl
@[simp] theorem putMr_flying (s : State) (m : Nat) (v : MR) : (putMr s m v).flying = s.flying := rfl
@[simp] theorem putMr_msgs (s : State) (m : Nat) (v : MR) : (putMr s m v).msgs = s.msgs := rfl
@[simp] theorem putMr_census (s : State) (m : Nat) (v : MR) : (putMr s m v).census = s.census := rfl
@[simp] theorem putMr_pages (s : State) (m : Nat) (v : MR) : (putMr s m v).pages = s.pages := rfl
@[simp] theorem putMr_badSlots (s : State) (m : Nat) (v : MR) : (putMr s m v).badSlots = s.badSlots := rfl
@[simp] theorem putMr_writes (s : State) (m : Nat) (v : MR) : (putMr s m v).writes = s.writes := rfl
@[simp] theorem putMr_armed (s : State) (m : Nat) (v : MR) : (putMr s m v).armed = s.armed := rfl
@[simp] theorem putMr_jobs (s : State) (m : Nat) (v : MR) : (putMr s m v).jobs = s.jobs := rfl
@[simp] theorem putMr_pour (s : State) (m : Nat) (v : MR) : (putMr s m v).pour = s.pour := rfl
@[simp] theorem putMr_colls (s : State) (m : Nat) (v : MR) : (putMr s m v).colls = s.colls := rfl
@[simp] theorem putMr_collIn (s : State) (m : Nat) (v : MR) : (putMr s m v).collIn = s.collIn := rfl
@[simp] theorem putMr_tx (s : State) (m : Nat) (v : MR) : (putMr s m v).tx = s.tx := rfl
@[simp] theorem putMr_rx (s : State) (m : Nat) (v : MR) : (putMr s m v).rx = s.rx := rfl
@[simp] theorem putMr_awaited (s : State) (m : Nat) (v : MR) : (putMr s m v).awaited = s.awaited := rfl
@[simp] theorem putMr_out (s : State) (m : Nat) (v : MR) : (putMr s m v).out = s.out := rfl
@[simp] theorem putMr_fab (s : State) (m : Nat) (v : MR) : (putMr s m v).fab = s.fab := rfl
@[simp] theorem putMr_qps (s : State) (m : Nat) (v : MR) : (putMr s m v).qps = s.qps := rfl
@[simp] theorem putMr_hports (s : State) (m : Nat) (v : MR) : (putMr s m v).hports = s.hports := rfl
@[simp] theorem putMr_replies (s : State) (m : Nat) (v : MR) : (putMr s m v).replies = s.replies := rfl
@[simp] theorem putMr_bridges (s : State) (m : Nat) (v : MR) : (putMr s m v).bridges = s.bridges := rfl
@[simp] theorem putMr_power (s : State) (m : Nat) (v : MR) : (putMr s m v).power = s.power := rfl
@[simp] theorem putMr_rot (s : State) (m : Nat) (v : MR) : (putMr s m v).rot = s.rot := rfl
@[simp] theorem putMr_seen (s : State) (m : Nat) (v : MR) : (putMr s m v).seen = s.seen := rfl
@[simp] theorem putMr_bulkKeys (s : State) (m : Nat) (v : MR) : (putMr s m v).bulkKeys = s.bulkKeys := rfl
@[simp] theorem putMr_flips (s : State) (m : Nat) (v : MR) : (putMr s m v).flips = s.flips := rfl
@[simp] theorem putMr_alerts (s : State) (m : Nat) (v : MR) : (putMr s m v).alerts = s.alerts := rfl
@[simp] theorem putMr_units (s : State) (m : Nat) (v : MR) : (putMr s m v).units = s.units := rfl
@[simp] theorem putMr_lost (s : State) (m : Nat) (v : MR) : (putMr s m v).lost = s.lost := rfl
@[simp] theorem getTile_putMr (s : State) (m : Nat) (v : MR) (x : Nat) : getTile (putMr s m v) x = getTile s x := rfl
@[simp] theorem getClu_putMr (s : State) (m : Nat) (v : MR) (x : Nat) : getClu (putMr s m v) x = getClu s x := rfl
@[simp] theorem getJob_putMr (s : State) (m : Nat) (v : MR) (x : BitVec 12) : getJob (putMr s m v) x = getJob s x := rfl
@[simp] theorem getBridge_putMr (s : State) (m : Nat) (v : MR) (x : Nat) : getBridge (putMr s m v) x = getBridge s x := rfl
@[simp] theorem reg_putMr (s : State) (m : Nat) (v : MR) (x : Nat) : reg (putMr s m v) x = reg s x := rfl
@[simp] theorem getQp_putMr (s : State) (m : Nat) (v : MR) (x : Nat) : getQp (putMr s m v) x = getQp s x := rfl
@[simp] theorem getHp_putMr (s : State) (m : Nat) (v : MR) (x : Nat) : getHp (putMr s m v) x = getHp s x := rfl
@[simp] theorem getPq_putMr (s : State) (m : Nat) (v : MR) (x y : Nat) : getPq (putMr s m v) x y = getPq s x y := rfl
@[simp] theorem getPort_putMr (s : State) (m : Nat) (v : MR) (x : Nat) : getPort (putMr s m v) x = getPort s x := rfl
@[simp] theorem getRx_putMr (s : State) (m : Nat) (v : MR) (x y z : Nat) : getRx (putMr s m v) x y z = getRx s x y z := rfl
@[simp] theorem getTx_putMr (s : State) (m : Nat) (v : MR) (x y z : Nat) : getTx (putMr s m v) x y z = getTx s x y z := rfl
@[simp] theorem getMsg_putMr (s : State) (m : Nat) (v : MR) (x : Nat) : getMsg (putMr s m v) x = getMsg s x := rfl
@[simp] theorem getPage_putMr (s : State) (m : Nat) (v : MR) (x : Nat) : getPage (putMr s m v) x = getPage s x := rfl
theorem getMr_putMr_self (s : State) (m : Nat) (v : MR) (hv : v ≠ MR.reset) : getMr (putMr s m v) m = v := tblGet_tblSet_of_ne hv

/-! ### putHp -/

@[simp] theorem putHp_pending (s : State) (p : Nat) (v : HPort) : (putHp s p v).pending = s.pending := rfl
@[simp] theorem putHp_cycle (s : State) (p : Nat) (v : HPort) : (putHp s p v).cycle = s.cycle := rfl
@[simp] theorem putHp_t0 (s : State) (p : Nat) (v : HPort) : (putHp s p v).t0 = s.t0 := rfl
@[simp] theorem putHp_free (s : State) (p : Nat) (v : HPort) : (putHp s p v).free = s.free := rfl
@[simp] theorem putHp_regs (s : State) (p : Nat) (v : HPort) : (putHp s p v).regs = s.regs := rfl
@[simp] theorem putHp_snaps (s : State) (p : Nat) (v : HPort) : (putHp s p v).snaps = s.snaps := rfl
@[simp] theorem putHp_mem (s : State) (p : Nat) (v : HPort) : (putHp s p v).mem = s.mem := rfl
@[simp] theorem putHp_tiles (s : State) (p : Nat) (v : HPort) : (putHp s p v).tiles = s.tiles := rfl
@[simp] theorem putHp_clusters (s : State) (p : Nat) (v : HPort) : (putHp s p v).clusters = s.clusters := rfl
@[simp] theorem putHp_arrivals (s : State) (p : Nat) (v : HPort) : (putHp s p v).arrivals = s.arrivals := rfl
@[simp] theorem putHp_flying (s : State) (p : Nat) (v : HPort) : (putHp s p v).flying = s.flying := rfl
@[simp] theorem putHp_msgs (s : State) (p : Nat) (v : HPort) : (putHp s p v).msgs = s.msgs := rfl
@[simp] theorem putHp_census (s : State) (p : Nat) (v : HPort) : (putHp s p v).census = s.census := rfl
@[simp] theorem putHp_pages (s : State) (p : Nat) (v : HPort) : (putHp s p v).pages = s.pages := rfl
@[simp] theorem putHp_badSlots (s : State) (p : Nat) (v : HPort) : (putHp s p v).badSlots = s.badSlots := rfl
@[simp] theorem putHp_writes (s : State) (p : Nat) (v : HPort) : (putHp s p v).writes = s.writes := rfl
@[simp] theorem putHp_armed (s : State) (p : Nat) (v : HPort) : (putHp s p v).armed = s.armed := rfl
@[simp] theorem putHp_jobs (s : State) (p : Nat) (v : HPort) : (putHp s p v).jobs = s.jobs := rfl
@[simp] theorem putHp_pour (s : State) (p : Nat) (v : HPort) : (putHp s p v).pour = s.pour := rfl
@[simp] theorem putHp_colls (s : State) (p : Nat) (v : HPort) : (putHp s p v).colls = s.colls := rfl
@[simp] theorem putHp_collIn (s : State) (p : Nat) (v : HPort) : (putHp s p v).collIn = s.collIn := rfl
@[simp] theorem putHp_tx (s : State) (p : Nat) (v : HPort) : (putHp s p v).tx = s.tx := rfl
@[simp] theorem putHp_rx (s : State) (p : Nat) (v : HPort) : (putHp s p v).rx = s.rx := rfl
@[simp] theorem putHp_awaited (s : State) (p : Nat) (v : HPort) : (putHp s p v).awaited = s.awaited := rfl
@[simp] theorem putHp_out (s : State) (p : Nat) (v : HPort) : (putHp s p v).out = s.out := rfl
@[simp] theorem putHp_fab (s : State) (p : Nat) (v : HPort) : (putHp s p v).fab = s.fab := rfl
@[simp] theorem putHp_qps (s : State) (p : Nat) (v : HPort) : (putHp s p v).qps = s.qps := rfl
@[simp] theorem putHp_mrs (s : State) (p : Nat) (v : HPort) : (putHp s p v).mrs = s.mrs := rfl
@[simp] theorem putHp_replies (s : State) (p : Nat) (v : HPort) : (putHp s p v).replies = s.replies := rfl
@[simp] theorem putHp_bridges (s : State) (p : Nat) (v : HPort) : (putHp s p v).bridges = s.bridges := rfl
@[simp] theorem putHp_power (s : State) (p : Nat) (v : HPort) : (putHp s p v).power = s.power := rfl
@[simp] theorem putHp_rot (s : State) (p : Nat) (v : HPort) : (putHp s p v).rot = s.rot := rfl
@[simp] theorem putHp_seen (s : State) (p : Nat) (v : HPort) : (putHp s p v).seen = s.seen := rfl
@[simp] theorem putHp_bulkKeys (s : State) (p : Nat) (v : HPort) : (putHp s p v).bulkKeys = s.bulkKeys := rfl
@[simp] theorem putHp_flips (s : State) (p : Nat) (v : HPort) : (putHp s p v).flips = s.flips := rfl
@[simp] theorem putHp_alerts (s : State) (p : Nat) (v : HPort) : (putHp s p v).alerts = s.alerts := rfl
@[simp] theorem putHp_units (s : State) (p : Nat) (v : HPort) : (putHp s p v).units = s.units := rfl
@[simp] theorem putHp_lost (s : State) (p : Nat) (v : HPort) : (putHp s p v).lost = s.lost := rfl
@[simp] theorem getTile_putHp (s : State) (p : Nat) (v : HPort) (x : Nat) : getTile (putHp s p v) x = getTile s x := rfl
@[simp] theorem getClu_putHp (s : State) (p : Nat) (v : HPort) (x : Nat) : getClu (putHp s p v) x = getClu s x := rfl
@[simp] theorem getJob_putHp (s : State) (p : Nat) (v : HPort) (x : BitVec 12) : getJob (putHp s p v) x = getJob s x := rfl
@[simp] theorem getBridge_putHp (s : State) (p : Nat) (v : HPort) (x : Nat) : getBridge (putHp s p v) x = getBridge s x := rfl
@[simp] theorem reg_putHp (s : State) (p : Nat) (v : HPort) (x : Nat) : reg (putHp s p v) x = reg s x := rfl
@[simp] theorem getQp_putHp (s : State) (p : Nat) (v : HPort) (x : Nat) : getQp (putHp s p v) x = getQp s x := rfl
@[simp] theorem getMr_putHp (s : State) (p : Nat) (v : HPort) (x : Nat) : getMr (putHp s p v) x = getMr s x := rfl
@[simp] theorem getPq_putHp (s : State) (p : Nat) (v : HPort) (x y : Nat) : getPq (putHp s p v) x y = getPq s x y := rfl
@[simp] theorem getPort_putHp (s : State) (p : Nat) (v : HPort) (x : Nat) : getPort (putHp s p v) x = getPort s x := rfl
@[simp] theorem getRx_putHp (s : State) (p : Nat) (v : HPort) (x y z : Nat) : getRx (putHp s p v) x y z = getRx s x y z := rfl
@[simp] theorem getTx_putHp (s : State) (p : Nat) (v : HPort) (x y z : Nat) : getTx (putHp s p v) x y z = getTx s x y z := rfl
@[simp] theorem getMsg_putHp (s : State) (p : Nat) (v : HPort) (x : Nat) : getMsg (putHp s p v) x = getMsg s x := rfl
@[simp] theorem getPage_putHp (s : State) (p : Nat) (v : HPort) (x : Nat) : getPage (putHp s p v) x = getPage s x := rfl
theorem getHp_putHp_self (s : State) (p : Nat) (v : HPort) (hv : v ≠ HPort.reset) : getHp (putHp s p v) p = v := tblGet_tblSet_of_ne hv

/-! ### putPq -/

@[simp] theorem putPq_pending (s : State) (h q : Nat) (v : PourQ) : (putPq s h q v).pending = s.pending := rfl
@[simp] theorem putPq_cycle (s : State) (h q : Nat) (v : PourQ) : (putPq s h q v).cycle = s.cycle := rfl
@[simp] theorem putPq_t0 (s : State) (h q : Nat) (v : PourQ) : (putPq s h q v).t0 = s.t0 := rfl
@[simp] theorem putPq_free (s : State) (h q : Nat) (v : PourQ) : (putPq s h q v).free = s.free := rfl
@[simp] theorem putPq_regs (s : State) (h q : Nat) (v : PourQ) : (putPq s h q v).regs = s.regs := rfl
@[simp] theorem putPq_snaps (s : State) (h q : Nat) (v : PourQ) : (putPq s h q v).snaps = s.snaps := rfl
@[simp] theorem putPq_mem (s : State) (h q : Nat) (v : PourQ) : (putPq s h q v).mem = s.mem := rfl
@[simp] theorem putPq_tiles (s : State) (h q : Nat) (v : PourQ) : (putPq s h q v).tiles = s.tiles := rfl
@[simp] theorem putPq_clusters (s : State) (h q : Nat) (v : PourQ) : (putPq s h q v).clusters = s.clusters := rfl
@[simp] theorem putPq_arrivals (s : State) (h q : Nat) (v : PourQ) : (putPq s h q v).arrivals = s.arrivals := rfl
@[simp] theorem putPq_flying (s : State) (h q : Nat) (v : PourQ) : (putPq s h q v).flying = s.flying := rfl
@[simp] theorem putPq_msgs (s : State) (h q : Nat) (v : PourQ) : (putPq s h q v).msgs = s.msgs := rfl
@[simp] theorem putPq_census (s : State) (h q : Nat) (v : PourQ) : (putPq s h q v).census = s.census := rfl
@[simp] theorem putPq_pages (s : State) (h q : Nat) (v : PourQ) : (putPq s h q v).pages = s.pages := rfl
@[simp] theorem putPq_badSlots (s : State) (h q : Nat) (v : PourQ) : (putPq s h q v).badSlots = s.badSlots := rfl
@[simp] theorem putPq_writes (s : State) (h q : Nat) (v : PourQ) : (putPq s h q v).writes = s.writes := rfl
@[simp] theorem putPq_armed (s : State) (h q : Nat) (v : PourQ) : (putPq s h q v).armed = s.armed := rfl
@[simp] theorem putPq_jobs (s : State) (h q : Nat) (v : PourQ) : (putPq s h q v).jobs = s.jobs := rfl
@[simp] theorem putPq_colls (s : State) (h q : Nat) (v : PourQ) : (putPq s h q v).colls = s.colls := rfl
@[simp] theorem putPq_collIn (s : State) (h q : Nat) (v : PourQ) : (putPq s h q v).collIn = s.collIn := rfl
@[simp] theorem putPq_tx (s : State) (h q : Nat) (v : PourQ) : (putPq s h q v).tx = s.tx := rfl
@[simp] theorem putPq_rx (s : State) (h q : Nat) (v : PourQ) : (putPq s h q v).rx = s.rx := rfl
@[simp] theorem putPq_awaited (s : State) (h q : Nat) (v : PourQ) : (putPq s h q v).awaited = s.awaited := rfl
@[simp] theorem putPq_out (s : State) (h q : Nat) (v : PourQ) : (putPq s h q v).out = s.out := rfl
@[simp] theorem putPq_fab (s : State) (h q : Nat) (v : PourQ) : (putPq s h q v).fab = s.fab := rfl
@[simp] theorem putPq_qps (s : State) (h q : Nat) (v : PourQ) : (putPq s h q v).qps = s.qps := rfl
@[simp] theorem putPq_mrs (s : State) (h q : Nat) (v : PourQ) : (putPq s h q v).mrs = s.mrs := rfl
@[simp] theorem putPq_hports (s : State) (h q : Nat) (v : PourQ) : (putPq s h q v).hports = s.hports := rfl
@[simp] theorem putPq_replies (s : State) (h q : Nat) (v : PourQ) : (putPq s h q v).replies = s.replies := rfl
@[simp] theorem putPq_bridges (s : State) (h q : Nat) (v : PourQ) : (putPq s h q v).bridges = s.bridges := rfl
@[simp] theorem putPq_power (s : State) (h q : Nat) (v : PourQ) : (putPq s h q v).power = s.power := rfl
@[simp] theorem putPq_rot (s : State) (h q : Nat) (v : PourQ) : (putPq s h q v).rot = s.rot := rfl
@[simp] theorem putPq_seen (s : State) (h q : Nat) (v : PourQ) : (putPq s h q v).seen = s.seen := rfl
@[simp] theorem putPq_bulkKeys (s : State) (h q : Nat) (v : PourQ) : (putPq s h q v).bulkKeys = s.bulkKeys := rfl
@[simp] theorem putPq_flips (s : State) (h q : Nat) (v : PourQ) : (putPq s h q v).flips = s.flips := rfl
@[simp] theorem putPq_alerts (s : State) (h q : Nat) (v : PourQ) : (putPq s h q v).alerts = s.alerts := rfl
@[simp] theorem putPq_units (s : State) (h q : Nat) (v : PourQ) : (putPq s h q v).units = s.units := rfl
@[simp] theorem putPq_lost (s : State) (h q : Nat) (v : PourQ) : (putPq s h q v).lost = s.lost := rfl
@[simp] theorem getTile_putPq (s : State) (h q : Nat) (v : PourQ) (x : Nat) : getTile (putPq s h q v) x = getTile s x := rfl
@[simp] theorem getClu_putPq (s : State) (h q : Nat) (v : PourQ) (x : Nat) : getClu (putPq s h q v) x = getClu s x := rfl
@[simp] theorem getJob_putPq (s : State) (h q : Nat) (v : PourQ) (x : BitVec 12) : getJob (putPq s h q v) x = getJob s x := rfl
@[simp] theorem getBridge_putPq (s : State) (h q : Nat) (v : PourQ) (x : Nat) : getBridge (putPq s h q v) x = getBridge s x := rfl
@[simp] theorem reg_putPq (s : State) (h q : Nat) (v : PourQ) (x : Nat) : reg (putPq s h q v) x = reg s x := rfl
@[simp] theorem getQp_putPq (s : State) (h q : Nat) (v : PourQ) (x : Nat) : getQp (putPq s h q v) x = getQp s x := rfl
@[simp] theorem getMr_putPq (s : State) (h q : Nat) (v : PourQ) (x : Nat) : getMr (putPq s h q v) x = getMr s x := rfl
@[simp] theorem getHp_putPq (s : State) (h q : Nat) (v : PourQ) (x : Nat) : getHp (putPq s h q v) x = getHp s x := rfl
@[simp] theorem getPort_putPq (s : State) (h q : Nat) (v : PourQ) (x : Nat) : getPort (putPq s h q v) x = getPort s x := rfl
@[simp] theorem getRx_putPq (s : State) (h q : Nat) (v : PourQ) (x y z : Nat) : getRx (putPq s h q v) x y z = getRx s x y z := rfl
@[simp] theorem getTx_putPq (s : State) (h q : Nat) (v : PourQ) (x y z : Nat) : getTx (putPq s h q v) x y z = getTx s x y z := rfl
@[simp] theorem getMsg_putPq (s : State) (h q : Nat) (v : PourQ) (x : Nat) : getMsg (putPq s h q v) x = getMsg s x := rfl
@[simp] theorem getPage_putPq (s : State) (h q : Nat) (v : PourQ) (x : Nat) : getPage (putPq s h q v) x = getPage s x := rfl
theorem getPq_putPq_self (s : State) (h q : Nat) (v : PourQ) (hv : v ≠ PourQ.reset) : getPq (putPq s h q v) h q = v := tblGet_tblSet_of_ne hv

/-! ### putPort -/

@[simp] theorem putPort_pending (s : State) (p : Nat) (v : FabPort) : (putPort s p v).pending = s.pending := rfl
@[simp] theorem putPort_cycle (s : State) (p : Nat) (v : FabPort) : (putPort s p v).cycle = s.cycle := rfl
@[simp] theorem putPort_t0 (s : State) (p : Nat) (v : FabPort) : (putPort s p v).t0 = s.t0 := rfl
@[simp] theorem putPort_free (s : State) (p : Nat) (v : FabPort) : (putPort s p v).free = s.free := rfl
@[simp] theorem putPort_regs (s : State) (p : Nat) (v : FabPort) : (putPort s p v).regs = s.regs := rfl
@[simp] theorem putPort_snaps (s : State) (p : Nat) (v : FabPort) : (putPort s p v).snaps = s.snaps := rfl
@[simp] theorem putPort_mem (s : State) (p : Nat) (v : FabPort) : (putPort s p v).mem = s.mem := rfl
@[simp] theorem putPort_tiles (s : State) (p : Nat) (v : FabPort) : (putPort s p v).tiles = s.tiles := rfl
@[simp] theorem putPort_clusters (s : State) (p : Nat) (v : FabPort) : (putPort s p v).clusters = s.clusters := rfl
@[simp] theorem putPort_arrivals (s : State) (p : Nat) (v : FabPort) : (putPort s p v).arrivals = s.arrivals := rfl
@[simp] theorem putPort_flying (s : State) (p : Nat) (v : FabPort) : (putPort s p v).flying = s.flying := rfl
@[simp] theorem putPort_msgs (s : State) (p : Nat) (v : FabPort) : (putPort s p v).msgs = s.msgs := rfl
@[simp] theorem putPort_census (s : State) (p : Nat) (v : FabPort) : (putPort s p v).census = s.census := rfl
@[simp] theorem putPort_pages (s : State) (p : Nat) (v : FabPort) : (putPort s p v).pages = s.pages := rfl
@[simp] theorem putPort_badSlots (s : State) (p : Nat) (v : FabPort) : (putPort s p v).badSlots = s.badSlots := rfl
@[simp] theorem putPort_writes (s : State) (p : Nat) (v : FabPort) : (putPort s p v).writes = s.writes := rfl
@[simp] theorem putPort_armed (s : State) (p : Nat) (v : FabPort) : (putPort s p v).armed = s.armed := rfl
@[simp] theorem putPort_jobs (s : State) (p : Nat) (v : FabPort) : (putPort s p v).jobs = s.jobs := rfl
@[simp] theorem putPort_pour (s : State) (p : Nat) (v : FabPort) : (putPort s p v).pour = s.pour := rfl
@[simp] theorem putPort_colls (s : State) (p : Nat) (v : FabPort) : (putPort s p v).colls = s.colls := rfl
@[simp] theorem putPort_collIn (s : State) (p : Nat) (v : FabPort) : (putPort s p v).collIn = s.collIn := rfl
@[simp] theorem putPort_tx (s : State) (p : Nat) (v : FabPort) : (putPort s p v).tx = s.tx := rfl
@[simp] theorem putPort_rx (s : State) (p : Nat) (v : FabPort) : (putPort s p v).rx = s.rx := rfl
@[simp] theorem putPort_awaited (s : State) (p : Nat) (v : FabPort) : (putPort s p v).awaited = s.awaited := rfl
@[simp] theorem putPort_out (s : State) (p : Nat) (v : FabPort) : (putPort s p v).out = s.out := rfl
@[simp] theorem putPort_qps (s : State) (p : Nat) (v : FabPort) : (putPort s p v).qps = s.qps := rfl
@[simp] theorem putPort_mrs (s : State) (p : Nat) (v : FabPort) : (putPort s p v).mrs = s.mrs := rfl
@[simp] theorem putPort_hports (s : State) (p : Nat) (v : FabPort) : (putPort s p v).hports = s.hports := rfl
@[simp] theorem putPort_replies (s : State) (p : Nat) (v : FabPort) : (putPort s p v).replies = s.replies := rfl
@[simp] theorem putPort_bridges (s : State) (p : Nat) (v : FabPort) : (putPort s p v).bridges = s.bridges := rfl
@[simp] theorem putPort_power (s : State) (p : Nat) (v : FabPort) : (putPort s p v).power = s.power := rfl
@[simp] theorem putPort_rot (s : State) (p : Nat) (v : FabPort) : (putPort s p v).rot = s.rot := rfl
@[simp] theorem putPort_seen (s : State) (p : Nat) (v : FabPort) : (putPort s p v).seen = s.seen := rfl
@[simp] theorem putPort_bulkKeys (s : State) (p : Nat) (v : FabPort) : (putPort s p v).bulkKeys = s.bulkKeys := rfl
@[simp] theorem putPort_flips (s : State) (p : Nat) (v : FabPort) : (putPort s p v).flips = s.flips := rfl
@[simp] theorem putPort_alerts (s : State) (p : Nat) (v : FabPort) : (putPort s p v).alerts = s.alerts := rfl
@[simp] theorem putPort_units (s : State) (p : Nat) (v : FabPort) : (putPort s p v).units = s.units := rfl
@[simp] theorem putPort_lost (s : State) (p : Nat) (v : FabPort) : (putPort s p v).lost = s.lost := rfl
@[simp] theorem getTile_putPort (s : State) (p : Nat) (v : FabPort) (x : Nat) : getTile (putPort s p v) x = getTile s x := rfl
@[simp] theorem getClu_putPort (s : State) (p : Nat) (v : FabPort) (x : Nat) : getClu (putPort s p v) x = getClu s x := rfl
@[simp] theorem getJob_putPort (s : State) (p : Nat) (v : FabPort) (x : BitVec 12) : getJob (putPort s p v) x = getJob s x := rfl
@[simp] theorem getBridge_putPort (s : State) (p : Nat) (v : FabPort) (x : Nat) : getBridge (putPort s p v) x = getBridge s x := rfl
@[simp] theorem reg_putPort (s : State) (p : Nat) (v : FabPort) (x : Nat) : reg (putPort s p v) x = reg s x := rfl
@[simp] theorem getQp_putPort (s : State) (p : Nat) (v : FabPort) (x : Nat) : getQp (putPort s p v) x = getQp s x := rfl
@[simp] theorem getMr_putPort (s : State) (p : Nat) (v : FabPort) (x : Nat) : getMr (putPort s p v) x = getMr s x := rfl
@[simp] theorem getHp_putPort (s : State) (p : Nat) (v : FabPort) (x : Nat) : getHp (putPort s p v) x = getHp s x := rfl
@[simp] theorem getPq_putPort (s : State) (p : Nat) (v : FabPort) (x y : Nat) : getPq (putPort s p v) x y = getPq s x y := rfl
@[simp] theorem getRx_putPort (s : State) (p : Nat) (v : FabPort) (x y z : Nat) : getRx (putPort s p v) x y z = getRx s x y z := rfl
@[simp] theorem getTx_putPort (s : State) (p : Nat) (v : FabPort) (x y z : Nat) : getTx (putPort s p v) x y z = getTx s x y z := rfl
@[simp] theorem getMsg_putPort (s : State) (p : Nat) (v : FabPort) (x : Nat) : getMsg (putPort s p v) x = getMsg s x := rfl
@[simp] theorem getPage_putPort (s : State) (p : Nat) (v : FabPort) (x : Nat) : getPage (putPort s p v) x = getPage s x := rfl
theorem getPort_putPort_self (s : State) (p : Nat) (v : FabPort) (hv : v ≠ FabPort.reset) : getPort (putPort s p v) p = v := tblGet_tblSet_of_ne hv

/-! ### putRx -/

@[simp] theorem putRx_pending (s : State) (src shub cls : Nat) (v : RxSeq) : (putRx s src shub cls v).pending = s.pending := rfl
@[simp] theorem putRx_cycle (s : State) (src shub cls : Nat) (v : RxSeq) : (putRx s src shub cls v).cycle = s.cycle := rfl
@[simp] theorem putRx_t0 (s : State) (src shub cls : Nat) (v : RxSeq) : (putRx s src shub cls v).t0 = s.t0 := rfl
@[simp] theorem putRx_free (s : State) (src shub cls : Nat) (v : RxSeq) : (putRx s src shub cls v).free = s.free := rfl
@[simp] theorem putRx_regs (s : State) (src shub cls : Nat) (v : RxSeq) : (putRx s src shub cls v).regs = s.regs := rfl
@[simp] theorem putRx_snaps (s : State) (src shub cls : Nat) (v : RxSeq) : (putRx s src shub cls v).snaps = s.snaps := rfl
@[simp] theorem putRx_mem (s : State) (src shub cls : Nat) (v : RxSeq) : (putRx s src shub cls v).mem = s.mem := rfl
@[simp] theorem putRx_tiles (s : State) (src shub cls : Nat) (v : RxSeq) : (putRx s src shub cls v).tiles = s.tiles := rfl
@[simp] theorem putRx_clusters (s : State) (src shub cls : Nat) (v : RxSeq) : (putRx s src shub cls v).clusters = s.clusters := rfl
@[simp] theorem putRx_arrivals (s : State) (src shub cls : Nat) (v : RxSeq) : (putRx s src shub cls v).arrivals = s.arrivals := rfl
@[simp] theorem putRx_flying (s : State) (src shub cls : Nat) (v : RxSeq) : (putRx s src shub cls v).flying = s.flying := rfl
@[simp] theorem putRx_msgs (s : State) (src shub cls : Nat) (v : RxSeq) : (putRx s src shub cls v).msgs = s.msgs := rfl
@[simp] theorem putRx_census (s : State) (src shub cls : Nat) (v : RxSeq) : (putRx s src shub cls v).census = s.census := rfl
@[simp] theorem putRx_pages (s : State) (src shub cls : Nat) (v : RxSeq) : (putRx s src shub cls v).pages = s.pages := rfl
@[simp] theorem putRx_badSlots (s : State) (src shub cls : Nat) (v : RxSeq) : (putRx s src shub cls v).badSlots = s.badSlots := rfl
@[simp] theorem putRx_writes (s : State) (src shub cls : Nat) (v : RxSeq) : (putRx s src shub cls v).writes = s.writes := rfl
@[simp] theorem putRx_armed (s : State) (src shub cls : Nat) (v : RxSeq) : (putRx s src shub cls v).armed = s.armed := rfl
@[simp] theorem putRx_jobs (s : State) (src shub cls : Nat) (v : RxSeq) : (putRx s src shub cls v).jobs = s.jobs := rfl
@[simp] theorem putRx_pour (s : State) (src shub cls : Nat) (v : RxSeq) : (putRx s src shub cls v).pour = s.pour := rfl
@[simp] theorem putRx_colls (s : State) (src shub cls : Nat) (v : RxSeq) : (putRx s src shub cls v).colls = s.colls := rfl
@[simp] theorem putRx_collIn (s : State) (src shub cls : Nat) (v : RxSeq) : (putRx s src shub cls v).collIn = s.collIn := rfl
@[simp] theorem putRx_tx (s : State) (src shub cls : Nat) (v : RxSeq) : (putRx s src shub cls v).tx = s.tx := rfl
@[simp] theorem putRx_awaited (s : State) (src shub cls : Nat) (v : RxSeq) : (putRx s src shub cls v).awaited = s.awaited := rfl
@[simp] theorem putRx_out (s : State) (src shub cls : Nat) (v : RxSeq) : (putRx s src shub cls v).out = s.out := rfl
@[simp] theorem putRx_fab (s : State) (src shub cls : Nat) (v : RxSeq) : (putRx s src shub cls v).fab = s.fab := rfl
@[simp] theorem putRx_qps (s : State) (src shub cls : Nat) (v : RxSeq) : (putRx s src shub cls v).qps = s.qps := rfl
@[simp] theorem putRx_mrs (s : State) (src shub cls : Nat) (v : RxSeq) : (putRx s src shub cls v).mrs = s.mrs := rfl
@[simp] theorem putRx_hports (s : State) (src shub cls : Nat) (v : RxSeq) : (putRx s src shub cls v).hports = s.hports := rfl
@[simp] theorem putRx_replies (s : State) (src shub cls : Nat) (v : RxSeq) : (putRx s src shub cls v).replies = s.replies := rfl
@[simp] theorem putRx_bridges (s : State) (src shub cls : Nat) (v : RxSeq) : (putRx s src shub cls v).bridges = s.bridges := rfl
@[simp] theorem putRx_power (s : State) (src shub cls : Nat) (v : RxSeq) : (putRx s src shub cls v).power = s.power := rfl
@[simp] theorem putRx_rot (s : State) (src shub cls : Nat) (v : RxSeq) : (putRx s src shub cls v).rot = s.rot := rfl
@[simp] theorem putRx_seen (s : State) (src shub cls : Nat) (v : RxSeq) : (putRx s src shub cls v).seen = s.seen := rfl
@[simp] theorem putRx_bulkKeys (s : State) (src shub cls : Nat) (v : RxSeq) : (putRx s src shub cls v).bulkKeys = s.bulkKeys := rfl
@[simp] theorem putRx_flips (s : State) (src shub cls : Nat) (v : RxSeq) : (putRx s src shub cls v).flips = s.flips := rfl
@[simp] theorem putRx_alerts (s : State) (src shub cls : Nat) (v : RxSeq) : (putRx s src shub cls v).alerts = s.alerts := rfl
@[simp] theorem putRx_units (s : State) (src shub cls : Nat) (v : RxSeq) : (putRx s src shub cls v).units = s.units := rfl
@[simp] theorem putRx_lost (s : State) (src shub cls : Nat) (v : RxSeq) : (putRx s src shub cls v).lost = s.lost := rfl
@[simp] theorem getTile_putRx (s : State) (src shub cls : Nat) (v : RxSeq) (x : Nat) : getTile (putRx s src shub cls v) x = getTile s x := rfl
@[simp] theorem getClu_putRx (s : State) (src shub cls : Nat) (v : RxSeq) (x : Nat) : getClu (putRx s src shub cls v) x = getClu s x := rfl
@[simp] theorem getJob_putRx (s : State) (src shub cls : Nat) (v : RxSeq) (x : BitVec 12) : getJob (putRx s src shub cls v) x = getJob s x := rfl
@[simp] theorem getBridge_putRx (s : State) (src shub cls : Nat) (v : RxSeq) (x : Nat) : getBridge (putRx s src shub cls v) x = getBridge s x := rfl
@[simp] theorem reg_putRx (s : State) (src shub cls : Nat) (v : RxSeq) (x : Nat) : reg (putRx s src shub cls v) x = reg s x := rfl
@[simp] theorem getQp_putRx (s : State) (src shub cls : Nat) (v : RxSeq) (x : Nat) : getQp (putRx s src shub cls v) x = getQp s x := rfl
@[simp] theorem getMr_putRx (s : State) (src shub cls : Nat) (v : RxSeq) (x : Nat) : getMr (putRx s src shub cls v) x = getMr s x := rfl
@[simp] theorem getHp_putRx (s : State) (src shub cls : Nat) (v : RxSeq) (x : Nat) : getHp (putRx s src shub cls v) x = getHp s x := rfl
@[simp] theorem getPq_putRx (s : State) (src shub cls : Nat) (v : RxSeq) (x y : Nat) : getPq (putRx s src shub cls v) x y = getPq s x y := rfl
@[simp] theorem getPort_putRx (s : State) (src shub cls : Nat) (v : RxSeq) (x : Nat) : getPort (putRx s src shub cls v) x = getPort s x := rfl
@[simp] theorem getTx_putRx (s : State) (src shub cls : Nat) (v : RxSeq) (x y z : Nat) : getTx (putRx s src shub cls v) x y z = getTx s x y z := rfl
@[simp] theorem getMsg_putRx (s : State) (src shub cls : Nat) (v : RxSeq) (x : Nat) : getMsg (putRx s src shub cls v) x = getMsg s x := rfl
@[simp] theorem getPage_putRx (s : State) (src shub cls : Nat) (v : RxSeq) (x : Nat) : getPage (putRx s src shub cls v) x = getPage s x := rfl
theorem getRx_putRx_self (s : State) (src shub cls : Nat) (v : RxSeq) (hv : v ≠ RxSeq.reset) : getRx (putRx s src shub cls v) src shub cls = v := tblGet_tblSet_of_ne hv

/-! ### putTx -/

@[simp] theorem putTx_pending (s : State) (hub dst cls : Nat) (v : TxSeq) : (putTx s hub dst cls v).pending = s.pending := rfl
@[simp] theorem putTx_cycle (s : State) (hub dst cls : Nat) (v : TxSeq) : (putTx s hub dst cls v).cycle = s.cycle := rfl
@[simp] theorem putTx_t0 (s : State) (hub dst cls : Nat) (v : TxSeq) : (putTx s hub dst cls v).t0 = s.t0 := rfl
@[simp] theorem putTx_free (s : State) (hub dst cls : Nat) (v : TxSeq) : (putTx s hub dst cls v).free = s.free := rfl
@[simp] theorem putTx_regs (s : State) (hub dst cls : Nat) (v : TxSeq) : (putTx s hub dst cls v).regs = s.regs := rfl
@[simp] theorem putTx_snaps (s : State) (hub dst cls : Nat) (v : TxSeq) : (putTx s hub dst cls v).snaps = s.snaps := rfl
@[simp] theorem putTx_mem (s : State) (hub dst cls : Nat) (v : TxSeq) : (putTx s hub dst cls v).mem = s.mem := rfl
@[simp] theorem putTx_tiles (s : State) (hub dst cls : Nat) (v : TxSeq) : (putTx s hub dst cls v).tiles = s.tiles := rfl
@[simp] theorem putTx_clusters (s : State) (hub dst cls : Nat) (v : TxSeq) : (putTx s hub dst cls v).clusters = s.clusters := rfl
@[simp] theorem putTx_arrivals (s : State) (hub dst cls : Nat) (v : TxSeq) : (putTx s hub dst cls v).arrivals = s.arrivals := rfl
@[simp] theorem putTx_flying (s : State) (hub dst cls : Nat) (v : TxSeq) : (putTx s hub dst cls v).flying = s.flying := rfl
@[simp] theorem putTx_msgs (s : State) (hub dst cls : Nat) (v : TxSeq) : (putTx s hub dst cls v).msgs = s.msgs := rfl
@[simp] theorem putTx_census (s : State) (hub dst cls : Nat) (v : TxSeq) : (putTx s hub dst cls v).census = s.census := rfl
@[simp] theorem putTx_pages (s : State) (hub dst cls : Nat) (v : TxSeq) : (putTx s hub dst cls v).pages = s.pages := rfl
@[simp] theorem putTx_badSlots (s : State) (hub dst cls : Nat) (v : TxSeq) : (putTx s hub dst cls v).badSlots = s.badSlots := rfl
@[simp] theorem putTx_writes (s : State) (hub dst cls : Nat) (v : TxSeq) : (putTx s hub dst cls v).writes = s.writes := rfl
@[simp] theorem putTx_armed (s : State) (hub dst cls : Nat) (v : TxSeq) : (putTx s hub dst cls v).armed = s.armed := rfl
@[simp] theorem putTx_jobs (s : State) (hub dst cls : Nat) (v : TxSeq) : (putTx s hub dst cls v).jobs = s.jobs := rfl
@[simp] theorem putTx_pour (s : State) (hub dst cls : Nat) (v : TxSeq) : (putTx s hub dst cls v).pour = s.pour := rfl
@[simp] theorem putTx_colls (s : State) (hub dst cls : Nat) (v : TxSeq) : (putTx s hub dst cls v).colls = s.colls := rfl
@[simp] theorem putTx_collIn (s : State) (hub dst cls : Nat) (v : TxSeq) : (putTx s hub dst cls v).collIn = s.collIn := rfl
@[simp] theorem putTx_rx (s : State) (hub dst cls : Nat) (v : TxSeq) : (putTx s hub dst cls v).rx = s.rx := rfl
@[simp] theorem putTx_awaited (s : State) (hub dst cls : Nat) (v : TxSeq) : (putTx s hub dst cls v).awaited = s.awaited := rfl
@[simp] theorem putTx_out (s : State) (hub dst cls : Nat) (v : TxSeq) : (putTx s hub dst cls v).out = s.out := rfl
@[simp] theorem putTx_fab (s : State) (hub dst cls : Nat) (v : TxSeq) : (putTx s hub dst cls v).fab = s.fab := rfl
@[simp] theorem putTx_qps (s : State) (hub dst cls : Nat) (v : TxSeq) : (putTx s hub dst cls v).qps = s.qps := rfl
@[simp] theorem putTx_mrs (s : State) (hub dst cls : Nat) (v : TxSeq) : (putTx s hub dst cls v).mrs = s.mrs := rfl
@[simp] theorem putTx_hports (s : State) (hub dst cls : Nat) (v : TxSeq) : (putTx s hub dst cls v).hports = s.hports := rfl
@[simp] theorem putTx_replies (s : State) (hub dst cls : Nat) (v : TxSeq) : (putTx s hub dst cls v).replies = s.replies := rfl
@[simp] theorem putTx_bridges (s : State) (hub dst cls : Nat) (v : TxSeq) : (putTx s hub dst cls v).bridges = s.bridges := rfl
@[simp] theorem putTx_power (s : State) (hub dst cls : Nat) (v : TxSeq) : (putTx s hub dst cls v).power = s.power := rfl
@[simp] theorem putTx_rot (s : State) (hub dst cls : Nat) (v : TxSeq) : (putTx s hub dst cls v).rot = s.rot := rfl
@[simp] theorem putTx_seen (s : State) (hub dst cls : Nat) (v : TxSeq) : (putTx s hub dst cls v).seen = s.seen := rfl
@[simp] theorem putTx_bulkKeys (s : State) (hub dst cls : Nat) (v : TxSeq) : (putTx s hub dst cls v).bulkKeys = s.bulkKeys := rfl
@[simp] theorem putTx_flips (s : State) (hub dst cls : Nat) (v : TxSeq) : (putTx s hub dst cls v).flips = s.flips := rfl
@[simp] theorem putTx_alerts (s : State) (hub dst cls : Nat) (v : TxSeq) : (putTx s hub dst cls v).alerts = s.alerts := rfl
@[simp] theorem putTx_units (s : State) (hub dst cls : Nat) (v : TxSeq) : (putTx s hub dst cls v).units = s.units := rfl
@[simp] theorem putTx_lost (s : State) (hub dst cls : Nat) (v : TxSeq) : (putTx s hub dst cls v).lost = s.lost := rfl
@[simp] theorem getTile_putTx (s : State) (hub dst cls : Nat) (v : TxSeq) (x : Nat) : getTile (putTx s hub dst cls v) x = getTile s x := rfl
@[simp] theorem getClu_putTx (s : State) (hub dst cls : Nat) (v : TxSeq) (x : Nat) : getClu (putTx s hub dst cls v) x = getClu s x := rfl
@[simp] theorem getJob_putTx (s : State) (hub dst cls : Nat) (v : TxSeq) (x : BitVec 12) : getJob (putTx s hub dst cls v) x = getJob s x := rfl
@[simp] theorem getBridge_putTx (s : State) (hub dst cls : Nat) (v : TxSeq) (x : Nat) : getBridge (putTx s hub dst cls v) x = getBridge s x := rfl
@[simp] theorem reg_putTx (s : State) (hub dst cls : Nat) (v : TxSeq) (x : Nat) : reg (putTx s hub dst cls v) x = reg s x := rfl
@[simp] theorem getQp_putTx (s : State) (hub dst cls : Nat) (v : TxSeq) (x : Nat) : getQp (putTx s hub dst cls v) x = getQp s x := rfl
@[simp] theorem getMr_putTx (s : State) (hub dst cls : Nat) (v : TxSeq) (x : Nat) : getMr (putTx s hub dst cls v) x = getMr s x := rfl
@[simp] theorem getHp_putTx (s : State) (hub dst cls : Nat) (v : TxSeq) (x : Nat) : getHp (putTx s hub dst cls v) x = getHp s x := rfl
@[simp] theorem getPq_putTx (s : State) (hub dst cls : Nat) (v : TxSeq) (x y : Nat) : getPq (putTx s hub dst cls v) x y = getPq s x y := rfl
@[simp] theorem getPort_putTx (s : State) (hub dst cls : Nat) (v : TxSeq) (x : Nat) : getPort (putTx s hub dst cls v) x = getPort s x := rfl
@[simp] theorem getRx_putTx (s : State) (hub dst cls : Nat) (v : TxSeq) (x y z : Nat) : getRx (putTx s hub dst cls v) x y z = getRx s x y z := rfl
@[simp] theorem getMsg_putTx (s : State) (hub dst cls : Nat) (v : TxSeq) (x : Nat) : getMsg (putTx s hub dst cls v) x = getMsg s x := rfl
@[simp] theorem getPage_putTx (s : State) (hub dst cls : Nat) (v : TxSeq) (x : Nat) : getPage (putTx s hub dst cls v) x = getPage s x := rfl
theorem getTx_putTx_self (s : State) (hub dst cls : Nat) (v : TxSeq) (hv : v ≠ TxSeq.reset) : getTx (putTx s hub dst cls v) hub dst cls = v := tblGet_tblSet_of_ne hv

/-! ### putMsg -/

@[simp] theorem putMsg_pending (s : State) (m : Nat) (v : WinMsg) : (putMsg s m v).pending = s.pending := rfl
@[simp] theorem putMsg_cycle (s : State) (m : Nat) (v : WinMsg) : (putMsg s m v).cycle = s.cycle := rfl
@[simp] theorem putMsg_t0 (s : State) (m : Nat) (v : WinMsg) : (putMsg s m v).t0 = s.t0 := rfl
@[simp] theorem putMsg_free (s : State) (m : Nat) (v : WinMsg) : (putMsg s m v).free = s.free := rfl
@[simp] theorem putMsg_regs (s : State) (m : Nat) (v : WinMsg) : (putMsg s m v).regs = s.regs := rfl
@[simp] theorem putMsg_snaps (s : State) (m : Nat) (v : WinMsg) : (putMsg s m v).snaps = s.snaps := rfl
@[simp] theorem putMsg_mem (s : State) (m : Nat) (v : WinMsg) : (putMsg s m v).mem = s.mem := rfl
@[simp] theorem putMsg_tiles (s : State) (m : Nat) (v : WinMsg) : (putMsg s m v).tiles = s.tiles := rfl
@[simp] theorem putMsg_clusters (s : State) (m : Nat) (v : WinMsg) : (putMsg s m v).clusters = s.clusters := rfl
@[simp] theorem putMsg_arrivals (s : State) (m : Nat) (v : WinMsg) : (putMsg s m v).arrivals = s.arrivals := rfl
@[simp] theorem putMsg_flying (s : State) (m : Nat) (v : WinMsg) : (putMsg s m v).flying = s.flying := rfl
@[simp] theorem putMsg_census (s : State) (m : Nat) (v : WinMsg) : (putMsg s m v).census = s.census := rfl
@[simp] theorem putMsg_pages (s : State) (m : Nat) (v : WinMsg) : (putMsg s m v).pages = s.pages := rfl
@[simp] theorem putMsg_badSlots (s : State) (m : Nat) (v : WinMsg) : (putMsg s m v).badSlots = s.badSlots := rfl
@[simp] theorem putMsg_writes (s : State) (m : Nat) (v : WinMsg) : (putMsg s m v).writes = s.writes := rfl
@[simp] theorem putMsg_armed (s : State) (m : Nat) (v : WinMsg) : (putMsg s m v).armed = s.armed := rfl
@[simp] theorem putMsg_jobs (s : State) (m : Nat) (v : WinMsg) : (putMsg s m v).jobs = s.jobs := rfl
@[simp] theorem putMsg_pour (s : State) (m : Nat) (v : WinMsg) : (putMsg s m v).pour = s.pour := rfl
@[simp] theorem putMsg_colls (s : State) (m : Nat) (v : WinMsg) : (putMsg s m v).colls = s.colls := rfl
@[simp] theorem putMsg_collIn (s : State) (m : Nat) (v : WinMsg) : (putMsg s m v).collIn = s.collIn := rfl
@[simp] theorem putMsg_tx (s : State) (m : Nat) (v : WinMsg) : (putMsg s m v).tx = s.tx := rfl
@[simp] theorem putMsg_rx (s : State) (m : Nat) (v : WinMsg) : (putMsg s m v).rx = s.rx := rfl
@[simp] theorem putMsg_awaited (s : State) (m : Nat) (v : WinMsg) : (putMsg s m v).awaited = s.awaited := rfl
@[simp] theorem putMsg_out (s : State) (m : Nat) (v : WinMsg) : (putMsg s m v).out = s.out := rfl
@[simp] theorem putMsg_fab (s : State) (m : Nat) (v : WinMsg) : (putMsg s m v).fab = s.fab := rfl
@[simp] theorem putMsg_qps (s : State) (m : Nat) (v : WinMsg) : (putMsg s m v).qps = s.qps := rfl
@[simp] theorem putMsg_mrs (s : State) (m : Nat) (v : WinMsg) : (putMsg s m v).mrs = s.mrs := rfl
@[simp] theorem putMsg_hports (s : State) (m : Nat) (v : WinMsg) : (putMsg s m v).hports = s.hports := rfl
@[simp] theorem putMsg_replies (s : State) (m : Nat) (v : WinMsg) : (putMsg s m v).replies = s.replies := rfl
@[simp] theorem putMsg_bridges (s : State) (m : Nat) (v : WinMsg) : (putMsg s m v).bridges = s.bridges := rfl
@[simp] theorem putMsg_power (s : State) (m : Nat) (v : WinMsg) : (putMsg s m v).power = s.power := rfl
@[simp] theorem putMsg_rot (s : State) (m : Nat) (v : WinMsg) : (putMsg s m v).rot = s.rot := rfl
@[simp] theorem putMsg_seen (s : State) (m : Nat) (v : WinMsg) : (putMsg s m v).seen = s.seen := rfl
@[simp] theorem putMsg_bulkKeys (s : State) (m : Nat) (v : WinMsg) : (putMsg s m v).bulkKeys = s.bulkKeys := rfl
@[simp] theorem putMsg_flips (s : State) (m : Nat) (v : WinMsg) : (putMsg s m v).flips = s.flips := rfl
@[simp] theorem putMsg_alerts (s : State) (m : Nat) (v : WinMsg) : (putMsg s m v).alerts = s.alerts := rfl
@[simp] theorem putMsg_units (s : State) (m : Nat) (v : WinMsg) : (putMsg s m v).units = s.units := rfl
@[simp] theorem putMsg_lost (s : State) (m : Nat) (v : WinMsg) : (putMsg s m v).lost = s.lost := rfl
@[simp] theorem getTile_putMsg (s : State) (m : Nat) (v : WinMsg) (x : Nat) : getTile (putMsg s m v) x = getTile s x := rfl
@[simp] theorem getClu_putMsg (s : State) (m : Nat) (v : WinMsg) (x : Nat) : getClu (putMsg s m v) x = getClu s x := rfl
@[simp] theorem getJob_putMsg (s : State) (m : Nat) (v : WinMsg) (x : BitVec 12) : getJob (putMsg s m v) x = getJob s x := rfl
@[simp] theorem getBridge_putMsg (s : State) (m : Nat) (v : WinMsg) (x : Nat) : getBridge (putMsg s m v) x = getBridge s x := rfl
@[simp] theorem reg_putMsg (s : State) (m : Nat) (v : WinMsg) (x : Nat) : reg (putMsg s m v) x = reg s x := rfl
@[simp] theorem getQp_putMsg (s : State) (m : Nat) (v : WinMsg) (x : Nat) : getQp (putMsg s m v) x = getQp s x := rfl
@[simp] theorem getMr_putMsg (s : State) (m : Nat) (v : WinMsg) (x : Nat) : getMr (putMsg s m v) x = getMr s x := rfl
@[simp] theorem getHp_putMsg (s : State) (m : Nat) (v : WinMsg) (x : Nat) : getHp (putMsg s m v) x = getHp s x := rfl
@[simp] theorem getPq_putMsg (s : State) (m : Nat) (v : WinMsg) (x y : Nat) : getPq (putMsg s m v) x y = getPq s x y := rfl
@[simp] theorem getPort_putMsg (s : State) (m : Nat) (v : WinMsg) (x : Nat) : getPort (putMsg s m v) x = getPort s x := rfl
@[simp] theorem getRx_putMsg (s : State) (m : Nat) (v : WinMsg) (x y z : Nat) : getRx (putMsg s m v) x y z = getRx s x y z := rfl
@[simp] theorem getTx_putMsg (s : State) (m : Nat) (v : WinMsg) (x y z : Nat) : getTx (putMsg s m v) x y z = getTx s x y z := rfl
@[simp] theorem getPage_putMsg (s : State) (m : Nat) (v : WinMsg) (x : Nat) : getPage (putMsg s m v) x = getPage s x := rfl
theorem getMsg_putMsg_self (s : State) (m : Nat) (v : WinMsg) (hv : v ≠ WinMsg.reset) : getMsg (putMsg s m v) m = v := tblGet_tblSet_of_ne hv

/-! ### putPage -/

@[simp] theorem putPage_pending (s : State) (k : Nat) (v : Page) : (putPage s k v).pending = s.pending := rfl
@[simp] theorem putPage_cycle (s : State) (k : Nat) (v : Page) : (putPage s k v).cycle = s.cycle := rfl
@[simp] theorem putPage_t0 (s : State) (k : Nat) (v : Page) : (putPage s k v).t0 = s.t0 := rfl
@[simp] theorem putPage_free (s : State) (k : Nat) (v : Page) : (putPage s k v).free = s.free := rfl
@[simp] theorem putPage_regs (s : State) (k : Nat) (v : Page) : (putPage s k v).regs = s.regs := rfl
@[simp] theorem putPage_snaps (s : State) (k : Nat) (v : Page) : (putPage s k v).snaps = s.snaps := rfl
@[simp] theorem putPage_mem (s : State) (k : Nat) (v : Page) : (putPage s k v).mem = s.mem := rfl
@[simp] theorem putPage_tiles (s : State) (k : Nat) (v : Page) : (putPage s k v).tiles = s.tiles := rfl
@[simp] theorem putPage_clusters (s : State) (k : Nat) (v : Page) : (putPage s k v).clusters = s.clusters := rfl
@[simp] theorem putPage_arrivals (s : State) (k : Nat) (v : Page) : (putPage s k v).arrivals = s.arrivals := rfl
@[simp] theorem putPage_flying (s : State) (k : Nat) (v : Page) : (putPage s k v).flying = s.flying := rfl
@[simp] theorem putPage_msgs (s : State) (k : Nat) (v : Page) : (putPage s k v).msgs = s.msgs := rfl
@[simp] theorem putPage_census (s : State) (k : Nat) (v : Page) : (putPage s k v).census = s.census := rfl
@[simp] theorem putPage_badSlots (s : State) (k : Nat) (v : Page) : (putPage s k v).badSlots = s.badSlots := rfl
@[simp] theorem putPage_writes (s : State) (k : Nat) (v : Page) : (putPage s k v).writes = s.writes := rfl
@[simp] theorem putPage_armed (s : State) (k : Nat) (v : Page) : (putPage s k v).armed = s.armed := rfl
@[simp] theorem putPage_jobs (s : State) (k : Nat) (v : Page) : (putPage s k v).jobs = s.jobs := rfl
@[simp] theorem putPage_pour (s : State) (k : Nat) (v : Page) : (putPage s k v).pour = s.pour := rfl
@[simp] theorem putPage_colls (s : State) (k : Nat) (v : Page) : (putPage s k v).colls = s.colls := rfl
@[simp] theorem putPage_collIn (s : State) (k : Nat) (v : Page) : (putPage s k v).collIn = s.collIn := rfl
@[simp] theorem putPage_tx (s : State) (k : Nat) (v : Page) : (putPage s k v).tx = s.tx := rfl
@[simp] theorem putPage_rx (s : State) (k : Nat) (v : Page) : (putPage s k v).rx = s.rx := rfl
@[simp] theorem putPage_awaited (s : State) (k : Nat) (v : Page) : (putPage s k v).awaited = s.awaited := rfl
@[simp] theorem putPage_out (s : State) (k : Nat) (v : Page) : (putPage s k v).out = s.out := rfl
@[simp] theorem putPage_fab (s : State) (k : Nat) (v : Page) : (putPage s k v).fab = s.fab := rfl
@[simp] theorem putPage_qps (s : State) (k : Nat) (v : Page) : (putPage s k v).qps = s.qps := rfl
@[simp] theorem putPage_mrs (s : State) (k : Nat) (v : Page) : (putPage s k v).mrs = s.mrs := rfl
@[simp] theorem putPage_hports (s : State) (k : Nat) (v : Page) : (putPage s k v).hports = s.hports := rfl
@[simp] theorem putPage_replies (s : State) (k : Nat) (v : Page) : (putPage s k v).replies = s.replies := rfl
@[simp] theorem putPage_bridges (s : State) (k : Nat) (v : Page) : (putPage s k v).bridges = s.bridges := rfl
@[simp] theorem putPage_power (s : State) (k : Nat) (v : Page) : (putPage s k v).power = s.power := rfl
@[simp] theorem putPage_rot (s : State) (k : Nat) (v : Page) : (putPage s k v).rot = s.rot := rfl
@[simp] theorem putPage_seen (s : State) (k : Nat) (v : Page) : (putPage s k v).seen = s.seen := rfl
@[simp] theorem putPage_bulkKeys (s : State) (k : Nat) (v : Page) : (putPage s k v).bulkKeys = s.bulkKeys := rfl
@[simp] theorem putPage_flips (s : State) (k : Nat) (v : Page) : (putPage s k v).flips = s.flips := rfl
@[simp] theorem putPage_alerts (s : State) (k : Nat) (v : Page) : (putPage s k v).alerts = s.alerts := rfl
@[simp] theorem putPage_units (s : State) (k : Nat) (v : Page) : (putPage s k v).units = s.units := rfl
@[simp] theorem putPage_lost (s : State) (k : Nat) (v : Page) : (putPage s k v).lost = s.lost := rfl
@[simp] theorem getTile_putPage (s : State) (k : Nat) (v : Page) (x : Nat) : getTile (putPage s k v) x = getTile s x := rfl
@[simp] theorem getClu_putPage (s : State) (k : Nat) (v : Page) (x : Nat) : getClu (putPage s k v) x = getClu s x := rfl
@[simp] theorem getJob_putPage (s : State) (k : Nat) (v : Page) (x : BitVec 12) : getJob (putPage s k v) x = getJob s x := rfl
@[simp] theorem getBridge_putPage (s : State) (k : Nat) (v : Page) (x : Nat) : getBridge (putPage s k v) x = getBridge s x := rfl
@[simp] theorem reg_putPage (s : State) (k : Nat) (v : Page) (x : Nat) : reg (putPage s k v) x = reg s x := rfl
@[simp] theorem getQp_putPage (s : State) (k : Nat) (v : Page) (x : Nat) : getQp (putPage s k v) x = getQp s x := rfl
@[simp] theorem getMr_putPage (s : State) (k : Nat) (v : Page) (x : Nat) : getMr (putPage s k v) x = getMr s x := rfl
@[simp] theorem getHp_putPage (s : State) (k : Nat) (v : Page) (x : Nat) : getHp (putPage s k v) x = getHp s x := rfl
@[simp] theorem getPq_putPage (s : State) (k : Nat) (v : Page) (x y : Nat) : getPq (putPage s k v) x y = getPq s x y := rfl
@[simp] theorem getPort_putPage (s : State) (k : Nat) (v : Page) (x : Nat) : getPort (putPage s k v) x = getPort s x := rfl
@[simp] theorem getRx_putPage (s : State) (k : Nat) (v : Page) (x y z : Nat) : getRx (putPage s k v) x y z = getRx s x y z := rfl
@[simp] theorem getTx_putPage (s : State) (k : Nat) (v : Page) (x y z : Nat) : getTx (putPage s k v) x y z = getTx s x y z := rfl
@[simp] theorem getMsg_putPage (s : State) (k : Nat) (v : Page) (x : Nat) : getMsg (putPage s k v) x = getMsg s x := rfl
theorem getPage_putPage_self (s : State) (k : Nat) (v : Page) (hv : v ≠ Page.reset) : getPage (putPage s k v) k = v := tblGet_tblSet_of_ne hv

/-! ### Registers -/

theorem reg_setReg_self (s : State) (a : Nat) (v : Word) (h : v ≠ resetVal a) : reg (setReg s a v) a = v := tblGet_tblSet_of_ne h

/-- What a register reads after a write to a register. -/
theorem reg_setReg (s : State) (a b : Nat) (v : Word) (h : regsWf s.regs = true) : reg (setReg s a v) b = if b = a then v else reg s b :=
  tblGet_tblSet a b v h

theorem setReg_regsWf (s : State) (a : Nat) (v : Word) (h : regsWf s.regs = true) : regsWf (setReg s a v).regs = true :=
  tblSet_wf a v h

@[simp] theorem setRegF_pending (s : State) (a hi lo v : Nat) : (setRegF s a hi lo v).pending = s.pending := rfl
@[simp] theorem setRegF_cycle (s : State) (a hi lo v : Nat) : (setRegF s a hi lo v).cycle = s.cycle := rfl
@[simp] theorem setRegF_t0 (s : State) (a hi lo v : Nat) : (setRegF s a hi lo v).t0 = s.t0 := rfl
@[simp] theorem setRegF_free (s : State) (a hi lo v : Nat) : (setRegF s a hi lo v).free = s.free := rfl
@[simp] theorem setRegF_snaps (s : State) (a hi lo v : Nat) : (setRegF s a hi lo v).snaps = s.snaps := rfl
@[simp] theorem setRegF_mem (s : State) (a hi lo v : Nat) : (setRegF s a hi lo v).mem = s.mem := rfl
@[simp] theorem setRegF_tiles (s : State) (a hi lo v : Nat) : (setRegF s a hi lo v).tiles = s.tiles := rfl
@[simp] theorem setRegF_clusters (s : State) (a hi lo v : Nat) : (setRegF s a hi lo v).clusters = s.clusters := rfl
@[simp] theorem setRegF_arrivals (s : State) (a hi lo v : Nat) : (setRegF s a hi lo v).arrivals = s.arrivals := rfl
@[simp] theorem setRegF_flying (s : State) (a hi lo v : Nat) : (setRegF s a hi lo v).flying = s.flying := rfl
@[simp] theorem setRegF_msgs (s : State) (a hi lo v : Nat) : (setRegF s a hi lo v).msgs = s.msgs := rfl
@[simp] theorem setRegF_census (s : State) (a hi lo v : Nat) : (setRegF s a hi lo v).census = s.census := rfl
@[simp] theorem setRegF_pages (s : State) (a hi lo v : Nat) : (setRegF s a hi lo v).pages = s.pages := rfl
@[simp] theorem setRegF_badSlots (s : State) (a hi lo v : Nat) : (setRegF s a hi lo v).badSlots = s.badSlots := rfl
@[simp] theorem setRegF_writes (s : State) (a hi lo v : Nat) : (setRegF s a hi lo v).writes = s.writes := rfl
@[simp] theorem setRegF_armed (s : State) (a hi lo v : Nat) : (setRegF s a hi lo v).armed = s.armed := rfl
@[simp] theorem setRegF_jobs (s : State) (a hi lo v : Nat) : (setRegF s a hi lo v).jobs = s.jobs := rfl
@[simp] theorem setRegF_pour (s : State) (a hi lo v : Nat) : (setRegF s a hi lo v).pour = s.pour := rfl
@[simp] theorem setRegF_colls (s : State) (a hi lo v : Nat) : (setRegF s a hi lo v).colls = s.colls := rfl
@[simp] theorem setRegF_collIn (s : State) (a hi lo v : Nat) : (setRegF s a hi lo v).collIn = s.collIn := rfl
@[simp] theorem setRegF_tx (s : State) (a hi lo v : Nat) : (setRegF s a hi lo v).tx = s.tx := rfl
@[simp] theorem setRegF_rx (s : State) (a hi lo v : Nat) : (setRegF s a hi lo v).rx = s.rx := rfl
@[simp] theorem setRegF_awaited (s : State) (a hi lo v : Nat) : (setRegF s a hi lo v).awaited = s.awaited := rfl
@[simp] theorem setRegF_out (s : State) (a hi lo v : Nat) : (setRegF s a hi lo v).out = s.out := rfl
@[simp] theorem setRegF_fab (s : State) (a hi lo v : Nat) : (setRegF s a hi lo v).fab = s.fab := rfl
@[simp] theorem setRegF_qps (s : State) (a hi lo v : Nat) : (setRegF s a hi lo v).qps = s.qps := rfl
@[simp] theorem setRegF_mrs (s : State) (a hi lo v : Nat) : (setRegF s a hi lo v).mrs = s.mrs := rfl
@[simp] theorem setRegF_hports (s : State) (a hi lo v : Nat) : (setRegF s a hi lo v).hports = s.hports := rfl
@[simp] theorem setRegF_replies (s : State) (a hi lo v : Nat) : (setRegF s a hi lo v).replies = s.replies := rfl
@[simp] theorem setRegF_bridges (s : State) (a hi lo v : Nat) : (setRegF s a hi lo v).bridges = s.bridges := rfl
@[simp] theorem setRegF_power (s : State) (a hi lo v : Nat) : (setRegF s a hi lo v).power = s.power := rfl
@[simp] theorem setRegF_rot (s : State) (a hi lo v : Nat) : (setRegF s a hi lo v).rot = s.rot := rfl
@[simp] theorem setRegF_seen (s : State) (a hi lo v : Nat) : (setRegF s a hi lo v).seen = s.seen := rfl
@[simp] theorem setRegF_bulkKeys (s : State) (a hi lo v : Nat) : (setRegF s a hi lo v).bulkKeys = s.bulkKeys := rfl
@[simp] theorem setRegF_flips (s : State) (a hi lo v : Nat) : (setRegF s a hi lo v).flips = s.flips := rfl
@[simp] theorem setRegF_alerts (s : State) (a hi lo v : Nat) : (setRegF s a hi lo v).alerts = s.alerts := rfl
@[simp] theorem setRegF_units (s : State) (a hi lo v : Nat) : (setRegF s a hi lo v).units = s.units := rfl
@[simp] theorem setRegF_lost (s : State) (a hi lo v : Nat) : (setRegF s a hi lo v).lost = s.lost := rfl
@[simp] theorem setBit_pending (s : State) (a i : Nat) : (setBit s a i).pending = s.pending := rfl
@[simp] theorem setBit_cycle (s : State) (a i : Nat) : (setBit s a i).cycle = s.cycle := rfl
@[simp] theorem setBit_t0 (s : State) (a i : Nat) : (setBit s a i).t0 = s.t0 := rfl
@[simp] theorem setBit_free (s : State) (a i : Nat) : (setBit s a i).free = s.free := rfl
@[simp] theorem setBit_snaps (s : State) (a i : Nat) : (setBit s a i).snaps = s.snaps := rfl
@[simp] theorem setBit_mem (s : State) (a i : Nat) : (setBit s a i).mem = s.mem := rfl
@[simp] theorem setBit_tiles (s : State) (a i : Nat) : (setBit s a i).tiles = s.tiles := rfl
@[simp] theorem setBit_clusters (s : State) (a i : Nat) : (setBit s a i).clusters = s.clusters := rfl
@[simp] theorem setBit_arrivals (s : State) (a i : Nat) : (setBit s a i).arrivals = s.arrivals := rfl
@[simp] theorem setBit_flying (s : State) (a i : Nat) : (setBit s a i).flying = s.flying := rfl
@[simp] theorem setBit_msgs (s : State) (a i : Nat) : (setBit s a i).msgs = s.msgs := rfl
@[simp] theorem setBit_census (s : State) (a i : Nat) : (setBit s a i).census = s.census := rfl
@[simp] theorem setBit_pages (s : State) (a i : Nat) : (setBit s a i).pages = s.pages := rfl
@[simp] theorem setBit_badSlots (s : State) (a i : Nat) : (setBit s a i).badSlots = s.badSlots := rfl
@[simp] theorem setBit_writes (s : State) (a i : Nat) : (setBit s a i).writes = s.writes := rfl
@[simp] theorem setBit_armed (s : State) (a i : Nat) : (setBit s a i).armed = s.armed := rfl
@[simp] theorem setBit_jobs (s : State) (a i : Nat) : (setBit s a i).jobs = s.jobs := rfl
@[simp] theorem setBit_pour (s : State) (a i : Nat) : (setBit s a i).pour = s.pour := rfl
@[simp] theorem setBit_colls (s : State) (a i : Nat) : (setBit s a i).colls = s.colls := rfl
@[simp] theorem setBit_collIn (s : State) (a i : Nat) : (setBit s a i).collIn = s.collIn := rfl
@[simp] theorem setBit_tx (s : State) (a i : Nat) : (setBit s a i).tx = s.tx := rfl
@[simp] theorem setBit_rx (s : State) (a i : Nat) : (setBit s a i).rx = s.rx := rfl
@[simp] theorem setBit_awaited (s : State) (a i : Nat) : (setBit s a i).awaited = s.awaited := rfl
@[simp] theorem setBit_out (s : State) (a i : Nat) : (setBit s a i).out = s.out := rfl
@[simp] theorem setBit_fab (s : State) (a i : Nat) : (setBit s a i).fab = s.fab := rfl
@[simp] theorem setBit_qps (s : State) (a i : Nat) : (setBit s a i).qps = s.qps := rfl
@[simp] theorem setBit_mrs (s : State) (a i : Nat) : (setBit s a i).mrs = s.mrs := rfl
@[simp] theorem setBit_hports (s : State) (a i : Nat) : (setBit s a i).hports = s.hports := rfl
@[simp] theorem setBit_replies (s : State) (a i : Nat) : (setBit s a i).replies = s.replies := rfl
@[simp] theorem setBit_bridges (s : State) (a i : Nat) : (setBit s a i).bridges = s.bridges := rfl
@[simp] theorem setBit_power (s : State) (a i : Nat) : (setBit s a i).power = s.power := rfl
@[simp] theorem setBit_rot (s : State) (a i : Nat) : (setBit s a i).rot = s.rot := rfl
@[simp] theorem setBit_seen (s : State) (a i : Nat) : (setBit s a i).seen = s.seen := rfl
@[simp] theorem setBit_bulkKeys (s : State) (a i : Nat) : (setBit s a i).bulkKeys = s.bulkKeys := rfl
@[simp] theorem setBit_flips (s : State) (a i : Nat) : (setBit s a i).flips = s.flips := rfl
@[simp] theorem setBit_alerts (s : State) (a i : Nat) : (setBit s a i).alerts = s.alerts := rfl
@[simp] theorem setBit_units (s : State) (a i : Nat) : (setBit s a i).units = s.units := rfl
@[simp] theorem setBit_lost (s : State) (a i : Nat) : (setBit s a i).lost = s.lost := rfl
@[simp] theorem addCtr_pending (s : State) (a n : Nat) : (addCtr s a n).pending = s.pending := by unfold addCtr; split <;> rfl
@[simp] theorem addCtr_cycle (s : State) (a n : Nat) : (addCtr s a n).cycle = s.cycle := by unfold addCtr; split <;> rfl
@[simp] theorem addCtr_t0 (s : State) (a n : Nat) : (addCtr s a n).t0 = s.t0 := by unfold addCtr; split <;> rfl
@[simp] theorem addCtr_free (s : State) (a n : Nat) : (addCtr s a n).free = s.free := by unfold addCtr; split <;> rfl
@[simp] theorem addCtr_snaps (s : State) (a n : Nat) : (addCtr s a n).snaps = s.snaps := by unfold addCtr; split <;> rfl
@[simp] theorem addCtr_mem (s : State) (a n : Nat) : (addCtr s a n).mem = s.mem := by unfold addCtr; split <;> rfl
@[simp] theorem addCtr_tiles (s : State) (a n : Nat) : (addCtr s a n).tiles = s.tiles := by unfold addCtr; split <;> rfl
@[simp] theorem addCtr_clusters (s : State) (a n : Nat) : (addCtr s a n).clusters = s.clusters := by unfold addCtr; split <;> rfl
@[simp] theorem addCtr_arrivals (s : State) (a n : Nat) : (addCtr s a n).arrivals = s.arrivals := by unfold addCtr; split <;> rfl
@[simp] theorem addCtr_flying (s : State) (a n : Nat) : (addCtr s a n).flying = s.flying := by unfold addCtr; split <;> rfl
@[simp] theorem addCtr_msgs (s : State) (a n : Nat) : (addCtr s a n).msgs = s.msgs := by unfold addCtr; split <;> rfl
@[simp] theorem addCtr_census (s : State) (a n : Nat) : (addCtr s a n).census = s.census := by unfold addCtr; split <;> rfl
@[simp] theorem addCtr_pages (s : State) (a n : Nat) : (addCtr s a n).pages = s.pages := by unfold addCtr; split <;> rfl
@[simp] theorem addCtr_badSlots (s : State) (a n : Nat) : (addCtr s a n).badSlots = s.badSlots := by unfold addCtr; split <;> rfl
@[simp] theorem addCtr_writes (s : State) (a n : Nat) : (addCtr s a n).writes = s.writes := by unfold addCtr; split <;> rfl
@[simp] theorem addCtr_armed (s : State) (a n : Nat) : (addCtr s a n).armed = s.armed := by unfold addCtr; split <;> rfl
@[simp] theorem addCtr_jobs (s : State) (a n : Nat) : (addCtr s a n).jobs = s.jobs := by unfold addCtr; split <;> rfl
@[simp] theorem addCtr_pour (s : State) (a n : Nat) : (addCtr s a n).pour = s.pour := by unfold addCtr; split <;> rfl
@[simp] theorem addCtr_colls (s : State) (a n : Nat) : (addCtr s a n).colls = s.colls := by unfold addCtr; split <;> rfl
@[simp] theorem addCtr_collIn (s : State) (a n : Nat) : (addCtr s a n).collIn = s.collIn := by unfold addCtr; split <;> rfl
@[simp] theorem addCtr_tx (s : State) (a n : Nat) : (addCtr s a n).tx = s.tx := by unfold addCtr; split <;> rfl
@[simp] theorem addCtr_rx (s : State) (a n : Nat) : (addCtr s a n).rx = s.rx := by unfold addCtr; split <;> rfl
@[simp] theorem addCtr_awaited (s : State) (a n : Nat) : (addCtr s a n).awaited = s.awaited := by unfold addCtr; split <;> rfl
@[simp] theorem addCtr_out (s : State) (a n : Nat) : (addCtr s a n).out = s.out := by unfold addCtr; split <;> rfl
@[simp] theorem addCtr_fab (s : State) (a n : Nat) : (addCtr s a n).fab = s.fab := by unfold addCtr; split <;> rfl
@[simp] theorem addCtr_qps (s : State) (a n : Nat) : (addCtr s a n).qps = s.qps := by unfold addCtr; split <;> rfl
@[simp] theorem addCtr_mrs (s : State) (a n : Nat) : (addCtr s a n).mrs = s.mrs := by unfold addCtr; split <;> rfl
@[simp] theorem addCtr_hports (s : State) (a n : Nat) : (addCtr s a n).hports = s.hports := by unfold addCtr; split <;> rfl
@[simp] theorem addCtr_replies (s : State) (a n : Nat) : (addCtr s a n).replies = s.replies := by unfold addCtr; split <;> rfl
@[simp] theorem addCtr_bridges (s : State) (a n : Nat) : (addCtr s a n).bridges = s.bridges := by unfold addCtr; split <;> rfl
@[simp] theorem addCtr_power (s : State) (a n : Nat) : (addCtr s a n).power = s.power := by unfold addCtr; split <;> rfl
@[simp] theorem addCtr_rot (s : State) (a n : Nat) : (addCtr s a n).rot = s.rot := by unfold addCtr; split <;> rfl
@[simp] theorem addCtr_seen (s : State) (a n : Nat) : (addCtr s a n).seen = s.seen := by unfold addCtr; split <;> rfl
@[simp] theorem addCtr_bulkKeys (s : State) (a n : Nat) : (addCtr s a n).bulkKeys = s.bulkKeys := by unfold addCtr; split <;> rfl
@[simp] theorem addCtr_flips (s : State) (a n : Nat) : (addCtr s a n).flips = s.flips := by unfold addCtr; split <;> rfl
@[simp] theorem addCtr_alerts (s : State) (a n : Nat) : (addCtr s a n).alerts = s.alerts := by unfold addCtr; split <;> rfl
@[simp] theorem addCtr_units (s : State) (a n : Nat) : (addCtr s a n).units = s.units := by unfold addCtr; split <;> rfl
@[simp] theorem addCtr_lost (s : State) (a n : Nat) : (addCtr s a n).lost = s.lost := by unfold addCtr; split <;> rfl
@[simp] theorem bump_pending (s : State) (a : Nat) : (bump s a).pending = s.pending := rfl
@[simp] theorem bump_cycle (s : State) (a : Nat) : (bump s a).cycle = s.cycle := rfl
@[simp] theorem bump_t0 (s : State) (a : Nat) : (bump s a).t0 = s.t0 := rfl
@[simp] theorem bump_free (s : State) (a : Nat) : (bump s a).free = s.free := rfl
@[simp] theorem bump_snaps (s : State) (a : Nat) : (bump s a).snaps = s.snaps := rfl
@[simp] theorem bump_mem (s : State) (a : Nat) : (bump s a).mem = s.mem := rfl
@[simp] theorem bump_tiles (s : State) (a : Nat) : (bump s a).tiles = s.tiles := rfl
@[simp] theorem bump_clusters (s : State) (a : Nat) : (bump s a).clusters = s.clusters := rfl
@[simp] theorem bump_arrivals (s : State) (a : Nat) : (bump s a).arrivals = s.arrivals := rfl
@[simp] theorem bump_flying (s : State) (a : Nat) : (bump s a).flying = s.flying := rfl
@[simp] theorem bump_msgs (s : State) (a : Nat) : (bump s a).msgs = s.msgs := rfl
@[simp] theorem bump_census (s : State) (a : Nat) : (bump s a).census = s.census := rfl
@[simp] theorem bump_pages (s : State) (a : Nat) : (bump s a).pages = s.pages := rfl
@[simp] theorem bump_badSlots (s : State) (a : Nat) : (bump s a).badSlots = s.badSlots := rfl
@[simp] theorem bump_writes (s : State) (a : Nat) : (bump s a).writes = s.writes := rfl
@[simp] theorem bump_armed (s : State) (a : Nat) : (bump s a).armed = s.armed := rfl
@[simp] theorem bump_jobs (s : State) (a : Nat) : (bump s a).jobs = s.jobs := rfl
@[simp] theorem bump_pour (s : State) (a : Nat) : (bump s a).pour = s.pour := rfl
@[simp] theorem bump_colls (s : State) (a : Nat) : (bump s a).colls = s.colls := rfl
@[simp] theorem bump_collIn (s : State) (a : Nat) : (bump s a).collIn = s.collIn := rfl
@[simp] theorem bump_tx (s : State) (a : Nat) : (bump s a).tx = s.tx := rfl
@[simp] theorem bump_rx (s : State) (a : Nat) : (bump s a).rx = s.rx := rfl
@[simp] theorem bump_awaited (s : State) (a : Nat) : (bump s a).awaited = s.awaited := rfl
@[simp] theorem bump_out (s : State) (a : Nat) : (bump s a).out = s.out := rfl
@[simp] theorem bump_fab (s : State) (a : Nat) : (bump s a).fab = s.fab := rfl
@[simp] theorem bump_qps (s : State) (a : Nat) : (bump s a).qps = s.qps := rfl
@[simp] theorem bump_mrs (s : State) (a : Nat) : (bump s a).mrs = s.mrs := rfl
@[simp] theorem bump_hports (s : State) (a : Nat) : (bump s a).hports = s.hports := rfl
@[simp] theorem bump_replies (s : State) (a : Nat) : (bump s a).replies = s.replies := rfl
@[simp] theorem bump_bridges (s : State) (a : Nat) : (bump s a).bridges = s.bridges := rfl
@[simp] theorem bump_power (s : State) (a : Nat) : (bump s a).power = s.power := rfl
@[simp] theorem bump_rot (s : State) (a : Nat) : (bump s a).rot = s.rot := rfl
@[simp] theorem bump_seen (s : State) (a : Nat) : (bump s a).seen = s.seen := rfl
@[simp] theorem bump_bulkKeys (s : State) (a : Nat) : (bump s a).bulkKeys = s.bulkKeys := rfl
@[simp] theorem bump_flips (s : State) (a : Nat) : (bump s a).flips = s.flips := rfl
@[simp] theorem bump_alerts (s : State) (a : Nat) : (bump s a).alerts = s.alerts := rfl
@[simp] theorem bump_units (s : State) (a : Nat) : (bump s a).units = s.units := rfl
@[simp] theorem bump_lost (s : State) (a : Nat) : (bump s a).lost = s.lost := rfl

end Sys2Proof.Machine
end

