-- ==== Sys2Proof/Laws/Keeps.lean ====
section
/-! SUPPORT. What an operation keeps: every part outside a mask of parts, the canonical form of the byte stores, and that of the
registers. The files Laws/Keeps*.lean hold one lemma for each operation that answers a state. -/

namespace Sys2Proof.Machine

/-- The bit of a part in a mask. -/
def Part.num : Part → Nat
  | .pending => 0
  | .cycle => 1
  | .t0 => 2
  | .free => 3
  | .regs => 4
  | .snaps => 5
  | .tiles => 6
  | .clusters => 7
  | .arrivals => 8
  | .flying => 9
  | .msgs => 10
  | .census => 11
  | .pages => 12
  | .badSlots => 13
  | .writes => 14
  | .armed => 15
  | .jobs => 16
  | .pour => 17
  | .colls => 18
  | .collIn => 19
  | .tx => 20
  | .rx => 21
  | .awaited => 22
  | .out => 23
  | .fab => 24
  | .qps => 25
  | .mrs => 26
  | .hports => 27
  | .replies => 28
  | .bridges => 29
  | .power => 30
  | .rot => 31
  | .mTensor => 32
  | .mSp => 33
  | .mCar => 34
  | .mCtx => 35
  | .mVdesc => 36
  | .mStat => 37
  | .mScale => 38
  | .mAcc => 39
  | .mBar => 40
  | .seen => 41
  | .bulkKeys => 42
  | .flips => 43
  | .alerts => 44
  | .units => 45
  | .lost => 46

/-- Every bit of a mask lies in another mask. -/
def Sub (a b : Nat) : Prop := a ||| b = b
theorem Sub.of {a b c : Nat} (h : Sub b c) (e : a ||| b = b) : Sub a c := by
  unfold Sub at *; rw [← h, ← Nat.or_assoc, e]
theorem Sub.bit {a b : Nat} (h : Sub a b) (i : Nat) (e : a.testBit i = true) : b.testBit i = true := by
  have := congrArg (fun n => Nat.testBit n i) h
  simp only [Nat.testBit_or, e, Bool.true_or] at this
  exact this.symm

/-- From s to t only the parts of the mask m change, and canonical forms stay. -/
structure Keeps (m : Nat) (s t : State) : Prop where
  same : ∀ p : Part, m.testBit p.num = false → p.same s t
  mem  : Stores.wf s.mem = true → Stores.wf t.mem = true
  regs : regsWf s.regs = true → regsWf t.regs = true
  tiles : tilesWf s.tiles = true → tilesWf t.tiles = true
  clus : clustersWf s.clusters = true → clustersWf t.clusters = true

theorem Part.same_refl (p : Part) (s : State) : p.same s s := by cases p <;> exact rfl
theorem Part.same_trans {p : Part} {a b c : State} (h : p.same a b) (k : p.same b c) : p.same a c := by
  cases p <;> exact Eq.trans k h
theorem Keeps.refl (m : Nat) (s : State) : Keeps m s s := ⟨fun p _ => p.same_refl s, id, id, id, id⟩
theorem Keeps.trans {m : Nat} {a b c : State} (h : Keeps m a b) (k : Keeps m b c) : Keeps m a c :=
  ⟨fun p e => Part.same_trans (h.same p e) (k.same p e), fun e => k.mem (h.mem e), fun e => k.regs (h.regs e),
    fun e => k.tiles (h.tiles e), fun e => k.clus (h.clus e)⟩
theorem Keeps.mono {m n : Nat} (h : Sub m n) {a b : State} (k : Keeps m a b) : Keeps n a b := by
  refine ⟨fun p e => k.same p ?_, k.mem, k.regs, k.tiles, k.clus⟩
  cases he : m.testBit p.num with
  | false => rfl
  | true => rw [h.bit _ he] at e; cases e
theorem keeps_ite {m : Nat} {s0 a b : State} {c : Prop} [Decidable c] (h : Keeps m s0 a) (k : Keeps m s0 b) :
    Keeps m s0 (if c then a else b) := by split <;> assumption
theorem keeps_of {m : Nat} {s0 : State} {α : Type} {x : α × State} {a : α} {s : State} (e : x = (a, s)) (h : Keeps m s0 x.2) :
    Keeps m s0 s := by rw [e] at h; exact h
theorem keeps_of3 {m : Nat} {s0 : State} {α β : Type} {x : α × β × State} {a : α} {b : β} {s : State} (e : x = (a, b, s))
    (h : Keeps m s0 x.2.2) : Keeps m s0 s := by rw [e] at h; exact h
theorem keeps_of4 {m : Nat} {s0 : State} {α β γ : Type} {x : α × β × γ × State} {a : α} {b : β} {c : γ} {s : State} (e : x = (a, b, c, s))
    (h : Keeps m s0 x.2.2.2) : Keeps m s0 s := by rw [e] at h; exact h
theorem keeps_ofFst {m : Nat} {s0 : State} {β : Type} {x : State × β} {b : β} {s : State} (e : x = (s, b)) (h : Keeps m s0 x.1) :
    Keeps m s0 s := by rw [e] at h; exact h
theorem keeps_foldl {m : Nat} {s0 : State} {α : Type} {f : State → α → State} (hf : ∀ s a, Keeps m s0 s → Keeps m s0 (f s a)) :
    ∀ (l : List α) (s : State), Keeps m s0 s → Keeps m s0 (l.foldl f s)
  | [], _, h => h
  | a :: l, s, h => keeps_foldl hf l (f s a) (hf s a h)
theorem keeps_foldl2 {m : Nat} {s0 : State} {α β : Type} {f : β × State → α → β × State}
    (hf : ∀ s a, Keeps m s0 s.2 → Keeps m s0 (f s a).2) :
    ∀ (l : List α) (s : β × State), Keeps m s0 s.2 → Keeps m s0 (l.foldl f s).2
  | [], _, h => h
  | a :: l, s, h => keeps_foldl2 hf l (f s a) (hf s a h)
theorem keeps_foldl3 {m : Nat} {s0 : State} {α β γ : Type} {f : β × γ × State → α → β × γ × State}
    (hf : ∀ s a, Keeps m s0 s.2.2 → Keeps m s0 (f s a).2.2) :
    ∀ (l : List α) (s : β × γ × State), Keeps m s0 s.2.2 → Keeps m s0 (l.foldl f s).2.2
  | [], _, h => h
  | a :: l, s, h => keeps_foldl3 hf l (f s a) (hf s a h)
theorem keeps_foldl1 {m : Nat} {s0 : State} {α β : Type} {f : State × β → α → State × β}
    (hf : ∀ s a, Keeps m s0 s.1 → Keeps m s0 (f s a).1) :
    ∀ (l : List α) (s : State × β), Keeps m s0 s.1 → Keeps m s0 (l.foldl f s).1
  | [], _, h => h
  | a :: l, s, h => keeps_foldl1 hf l (f s a) (hf s a h)

theorem keeps_foldlP {m : Nat} {s0 : State} {α σ : Type} (π : σ → State) {f : σ → α → σ}
    (hf : ∀ s a, Keeps m s0 (π s) → Keeps m s0 (π (f s a))) :
    ∀ (l : List α) (s : σ), Keeps m s0 (π s) → Keeps m s0 (π (l.foldl f s))
  | [], _, h => h
  | a :: l, s, h => keeps_foldlP π hf l (f s a) (hf s a h)
theorem keeps_forAll {m : Nat} {s0 : State} {α : Type} {f : α → State → State} {l : List α} {s : State}
    (h : Keeps m s0 s) (hf : ∀ s a, Keeps m s0 s → Keeps m s0 (f a s)) : Keeps m s0 (forAll l s f) := keeps_foldl hf l s h
theorem keeps_forAll2 {m : Nat} {s0 : State} {α β : Type} {f : α → β × State → β × State} {l : List α} {s : β × State}
    (h : Keeps m s0 s.2) (hf : ∀ a s, Keeps m s0 s.2 → Keeps m s0 (f a s).2) : Keeps m s0 (forAll l s f).2 :=
  keeps_foldl2 (fun s a => hf a s) l s h

/-- Where a command answers a next state, it keeps. -/
structure KeepsR (m : Nat) (s0 : State) (r : Result) : Prop where
  next : ∀ t : State, r = .next t → Keeps m s0 t
theorem keepsR_next {m : Nat} {s0 t : State} (h : Keeps m s0 t) : KeepsR m s0 (.next t) := ⟨by intro u e; cases e; exact h⟩
theorem keepsR_fault {m : Nat} {s0 : State} {f : Fault} : KeepsR m s0 (.fault f) := ⟨by intro u e; cases e⟩
theorem keepsR_ite {m : Nat} {s0 : State} {c : Prop} [Decidable c] {a b : Result} (h : KeepsR m s0 a) (k : KeepsR m s0 b) :
    KeepsR m s0 (if c then a else b) := by split <;> assumption

/-! A local value of a definition, named. -/

theorem keeps_cut (m : Nat) (s0 : State) {P : Prop} (x : State) (h : Keeps m s0 x) (f : Keeps m s0 x → P) : P := f h
theorem keeps_cutP {σ : Type} (π : σ → State) (m : Nat) (s0 : State) {P : Prop} (x : σ) (h : Keeps m s0 (π x))
    (f : Keeps m s0 (π x) → P) : P := f h
theorem keeps_cut2 (m : Nat) (s0 : State) {α : Type} {P : Prop} (x : α × State) (h : Keeps m s0 x.2) (f : Keeps m s0 x.2 → P) : P := f h
theorem keeps_cut4 (m : Nat) (s0 : State) {α β γ : Type} {P : Prop} (x : α × β × γ × State) (h : Keeps m s0 x.2.2.2)
    (f : Keeps m s0 x.2.2.2 → P) : P := f h
theorem keeps_cut3 (m : Nat) (s0 : State) {α β : Type} {P : Prop} (x : α × β × State) (h : Keeps m s0 x.2.2) (f : Keeps m s0 x.2.2 → P) :
    P := f h

/-! ### Canonical forms -/

theorem tblFilter_wf {α : Type} [DecidableEq α] {d : Nat → α} {t : Tbl α} (p : Nat × α → Bool) (h : tblWf d t = true) :
    tblWf d (t.filter p) = true := by
  induction t with
  | nil => exact h
  | cons q r ih =>
    have hq := tblWf_cons.mp h
    have ih := ih hq.2.2
    simp only [List.filter_cons]
    split
    · exact tblWf_cons.mpr ⟨hq.1, fun x hx => hq.2.1 x (List.mem_filter.mp hx).1, ih⟩
    · exact ih
theorem setRow_wf {m : Mem} (a : Nat) (r : Row) (h : Memory.wf m = true) : Memory.wf (setRow m a r) = true := memSetNat_wf a 64 _ h
theorem memForAll_wf {α : Type} {f : α → Mem → Mem} (hf : ∀ a m, Memory.wf m = true → Memory.wf (f a m) = true) :
    ∀ (l : List α) {m : Mem}, Memory.wf m = true → Memory.wf (forAll l m f) = true
  | [], _, h => h
  | a :: l, m, h => memForAll_wf hf l (hf a m h)
theorem memFold_wf {α : Type} {f : Mem → α → Mem} (hf : ∀ m a, Memory.wf m = true → Memory.wf (f m a) = true) :
    ∀ (l : List α) {m : Mem}, Memory.wf m = true → Memory.wf (l.foldl f m) = true
  | [], _, h => h
  | a :: l, m, h => memFold_wf hf l (hf m a h)
theorem regsFilter_wf {t : Tbl Word} (p : Nat × Word → Bool) (h : regsWf t = true) : regsWf (t.filter p) = true := tblFilter_wf p h
theorem mem_nil : Memory.wf [] = true := rfl
theorem regs_nil : regsWf [] = true := rfl
theorem wf_nil {α : Type} [DecidableEq α] {d : Nat → α} : tblWf d ([] : Tbl α) = true := rfl

/-! ### One part replaced -/

theorem Keeps.put_pending {m : Nat} {s0 s : State} (hm : Sub 1 m) (h : Keeps m s0 s) {x} : Keeps m s0 { s with pending := x } := by
  refine ⟨fun p e => ?_, h.mem, h.regs, h.tiles, h.clus⟩
  cases p <;> first | exact h.same _ e | exact absurd (hm.bit _ rfl) (by rw [e]; decide)
theorem Keeps.put_cycle {m : Nat} {s0 s : State} (hm : Sub 2 m) (h : Keeps m s0 s) {x} : Keeps m s0 { s with cycle := x } := by
  refine ⟨fun p e => ?_, h.mem, h.regs, h.tiles, h.clus⟩
  cases p <;> first | exact h.same _ e | exact absurd (hm.bit _ rfl) (by rw [e]; decide)
theorem Keeps.put_t0 {m : Nat} {s0 s : State} (hm : Sub 4 m) (h : Keeps m s0 s) {x} : Keeps m s0 { s with t0 := x } := by
  refine ⟨fun p e => ?_, h.mem, h.regs, h.tiles, h.clus⟩
  cases p <;> first | exact h.same _ e | exact absurd (hm.bit _ rfl) (by rw [e]; decide)
theorem Keeps.put_free {m : Nat} {s0 s : State} (hm : Sub 8 m) (h : Keeps m s0 s) {x} : Keeps m s0 { s with free := x } := by
  refine ⟨fun p e => ?_, h.mem, h.regs, h.tiles, h.clus⟩
  cases p <;> first | exact h.same _ e | exact absurd (hm.bit _ rfl) (by rw [e]; decide)
theorem Keeps.put_regs {m : Nat} {s0 s : State} (hm : Sub 16 m) (h : Keeps m s0 s) {x : Tbl Word}
    (hx : regsWf s.regs = true → regsWf x = true) : Keeps m s0 { s with regs := x } := by
  refine ⟨fun p e => ?_, h.mem, fun e => hx (h.regs e), h.tiles, h.clus⟩
  cases p <;> first | exact h.same _ e | exact absurd (hm.bit _ rfl) (by rw [e]; decide)
theorem Keeps.put_snaps {m : Nat} {s0 s : State} (hm : Sub 32 m) (h : Keeps m s0 s) {x} : Keeps m s0 { s with snaps := x } := by
  refine ⟨fun p e => ?_, h.mem, h.regs, h.tiles, h.clus⟩
  cases p <;> first | exact h.same _ e | exact absurd (hm.bit _ rfl) (by rw [e]; decide)
theorem Keeps.put_tiles {m : Nat} {s0 s : State} (hm : Sub 64 m) (h : Keeps m s0 s) {x : Tbl Tile}
    (hx : tilesWf s.tiles = true → tilesWf x = true) : Keeps m s0 { s with tiles := x } := by
  refine ⟨fun p e => ?_, h.mem, h.regs, fun e => hx (h.tiles e), h.clus⟩
  cases p <;> first | exact h.same _ e | exact absurd (hm.bit _ rfl) (by rw [e]; decide)
theorem Keeps.put_clusters {m : Nat} {s0 s : State} (hm : Sub 128 m) (h : Keeps m s0 s) {x : Tbl Cluster}
    (hx : clustersWf s.clusters = true → clustersWf x = true) : Keeps m s0 { s with clusters := x } := by
  refine ⟨fun p e => ?_, h.mem, h.regs, h.tiles, fun e => hx (h.clus e)⟩
  cases p <;> first | exact h.same _ e | exact absurd (hm.bit _ rfl) (by rw [e]; decide)
theorem Keeps.put_arrivals {m : Nat} {s0 s : State} (hm : Sub 256 m) (h : Keeps m s0 s) {x} : Keeps m s0 { s with arrivals := x } := by
  refine ⟨fun p e => ?_, h.mem, h.regs, h.tiles, h.clus⟩
  cases p <;> first | exact h.same _ e | exact absurd (hm.bit _ rfl) (by rw [e]; decide)
theorem Keeps.put_flying {m : Nat} {s0 s : State} (hm : Sub 512 m) (h : Keeps m s0 s) {x} : Keeps m s0 { s with flying := x } := by
  refine ⟨fun p e => ?_, h.mem, h.regs, h.tiles, h.clus⟩
  cases p <;> first | exact h.same _ e | exact absurd (hm.bit _ rfl) (by rw [e]; decide)
theorem Keeps.put_msgs {m : Nat} {s0 s : State} (hm : Sub 1024 m) (h : Keeps m s0 s) {x} : Keeps m s0 { s with msgs := x } := by
  refine ⟨fun p e => ?_, h.mem, h.regs, h.tiles, h.clus⟩
  cases p <;> first | exact h.same _ e | exact absurd (hm.bit _ rfl) (by rw [e]; decide)
theorem Keeps.put_census {m : Nat} {s0 s : State} (hm : Sub 2048 m) (h : Keeps m s0 s) {x} : Keeps m s0 { s with census := x } := by
  refine ⟨fun p e => ?_, h.mem, h.regs, h.tiles, h.clus⟩
  cases p <;> first | exact h.same _ e | exact absurd (hm.bit _ rfl) (by rw [e]; decide)
theorem Keeps.put_pages {m : Nat} {s0 s : State} (hm : Sub 4096 m) (h : Keeps m s0 s) {x} : Keeps m s0 { s with pages := x } := by
  refine ⟨fun p e => ?_, h.mem, h.regs, h.tiles, h.clus⟩
  cases p <;> first | exact h.same _ e | exact absurd (hm.bit _ rfl) (by rw [e]; decide)
theorem Keeps.put_badSlots {m : Nat} {s0 s : State} (hm : Sub 8192 m) (h : Keeps m s0 s) {x} : Keeps m s0 { s with badSlots := x } := by
  refine ⟨fun p e => ?_, h.mem, h.regs, h.tiles, h.clus⟩
  cases p <;> first | exact h.same _ e | exact absurd (hm.bit _ rfl) (by rw [e]; decide)
theorem Keeps.put_writes {m : Nat} {s0 s : State} (hm : Sub 16384 m) (h : Keeps m s0 s) {x} : Keeps m s0 { s with writes := x } := by
  refine ⟨fun p e => ?_, h.mem, h.regs, h.tiles, h.clus⟩
  cases p <;> first | exact h.same _ e | exact absurd (hm.bit _ rfl) (by rw [e]; decide)
theorem Keeps.put_armed {m : Nat} {s0 s : State} (hm : Sub 32768 m) (h : Keeps m s0 s) {x} : Keeps m s0 { s with armed := x } := by
  refine ⟨fun p e => ?_, h.mem, h.regs, h.tiles, h.clus⟩
  cases p <;> first | exact h.same _ e | exact absurd (hm.bit _ rfl) (by rw [e]; decide)
theorem Keeps.put_jobs {m : Nat} {s0 s : State} (hm : Sub 65536 m) (h : Keeps m s0 s) {x} : Keeps m s0 { s with jobs := x } := by
  refine ⟨fun p e => ?_, h.mem, h.regs, h.tiles, h.clus⟩
  cases p <;> first | exact h.same _ e | exact absurd (hm.bit _ rfl) (by rw [e]; decide)
theorem Keeps.put_pour {m : Nat} {s0 s : State} (hm : Sub 131072 m) (h : Keeps m s0 s) {x} : Keeps m s0 { s with pour := x } := by
  refine ⟨fun p e => ?_, h.mem, h.regs, h.tiles, h.clus⟩
  cases p <;> first | exact h.same _ e | exact absurd (hm.bit _ rfl) (by rw [e]; decide)
theorem Keeps.put_colls {m : Nat} {s0 s : State} (hm : Sub 262144 m) (h : Keeps m s0 s) {x} : Keeps m s0 { s with colls := x } := by
  refine ⟨fun p e => ?_, h.mem, h.regs, h.tiles, h.clus⟩
  cases p <;> first | exact h.same _ e | exact absurd (hm.bit _ rfl) (by rw [e]; decide)
theorem Keeps.put_collIn {m : Nat} {s0 s : State} (hm : Sub 524288 m) (h : Keeps m s0 s) {x} : Keeps m s0 { s with collIn := x } := by
  refine ⟨fun p e => ?_, h.mem, h.regs, h.tiles, h.clus⟩
  cases p <;> first | exact h.same _ e | exact absurd (hm.bit _ rfl) (by rw [e]; decide)
theorem Keeps.put_tx {m : Nat} {s0 s : State} (hm : Sub 1048576 m) (h : Keeps m s0 s) {x} : Keeps m s0 { s with tx := x } := by
  refine ⟨fun p e => ?_, h.mem, h.regs, h.tiles, h.clus⟩
  cases p <;> first | exact h.same _ e | exact absurd (hm.bit _ rfl) (by rw [e]; decide)
theorem Keeps.put_rx {m : Nat} {s0 s : State} (hm : Sub 2097152 m) (h : Keeps m s0 s) {x} : Keeps m s0 { s with rx := x } := by
  refine ⟨fun p e => ?_, h.mem, h.regs, h.tiles, h.clus⟩
  cases p <;> first | exact h.same _ e | exact absurd (hm.bit _ rfl) (by rw [e]; decide)
theorem Keeps.put_awaited {m : Nat} {s0 s : State} (hm : Sub 4194304 m) (h : Keeps m s0 s) {x} : Keeps m s0 { s with awaited := x } := by
  refine ⟨fun p e => ?_, h.mem, h.regs, h.tiles, h.clus⟩
  cases p <;> first | exact h.same _ e | exact absurd (hm.bit _ rfl) (by rw [e]; decide)
theorem Keeps.put_out {m : Nat} {s0 s : State} (hm : Sub 8388608 m) (h : Keeps m s0 s) {x} : Keeps m s0 { s with out := x } := by
  refine ⟨fun p e => ?_, h.mem, h.regs, h.tiles, h.clus⟩
  cases p <;> first | exact h.same _ e | exact absurd (hm.bit _ rfl) (by rw [e]; decide)
theorem Keeps.put_fab {m : Nat} {s0 s : State} (hm : Sub 16777216 m) (h : Keeps m s0 s) {x} : Keeps m s0 { s with fab := x } := by
  refine ⟨fun p e => ?_, h.mem, h.regs, h.tiles, h.clus⟩
  cases p <;> first | exact h.same _ e | exact absurd (hm.bit _ rfl) (by rw [e]; decide)
theorem Keeps.put_qps {m : Nat} {s0 s : State} (hm : Sub 33554432 m) (h : Keeps m s0 s) {x} : Keeps m s0 { s with qps := x } := by
  refine ⟨fun p e => ?_, h.mem, h.regs, h.tiles, h.clus⟩
  cases p <;> first | exact h.same _ e | exact absurd (hm.bit _ rfl) (by rw [e]; decide)
theorem Keeps.put_mrs {m : Nat} {s0 s : State} (hm : Sub 67108864 m) (h : Keeps m s0 s) {x} : Keeps m s0 { s with mrs := x } := by
  refine ⟨fun p e => ?_, h.mem, h.regs, h.tiles, h.clus⟩
  cases p <;> first | exact h.same _ e | exact absurd (hm.bit _ rfl) (by rw [e]; decide)
theorem Keeps.put_hports {m : Nat} {s0 s : State} (hm : Sub 134217728 m) (h : Keeps m s0 s) {x} : Keeps m s0 { s with hports := x } := by
  refine ⟨fun p e => ?_, h.mem, h.regs, h.tiles, h.clus⟩
  cases p <;> first | exact h.same _ e | exact absurd (hm.bit _ rfl) (by rw [e]; decide)
theorem Keeps.put_replies {m : Nat} {s0 s : State} (hm : Sub 268435456 m) (h : Keeps m s0 s) {x} : Keeps m s0 { s with replies := x } := by
  refine ⟨fun p e => ?_, h.mem, h.regs, h.tiles, h.clus⟩
  cases p <;> first | exact h.same _ e | exact absurd (hm.bit _ rfl) (by rw [e]; decide)
theorem Keeps.put_bridges {m : Nat} {s0 s : State} (hm : Sub 536870912 m) (h : Keeps m s0 s) {x} : Keeps m s0 { s with bridges := x } := by
  refine ⟨fun p e => ?_, h.mem, h.regs, h.tiles, h.clus⟩
  cases p <;> first | exact h.same _ e | exact absurd (hm.bit _ rfl) (by rw [e]; decide)
theorem Keeps.put_power {m : Nat} {s0 s : State} (hm : Sub 1073741824 m) (h : Keeps m s0 s) {x} : Keeps m s0 { s with power := x } := by
  refine ⟨fun p e => ?_, h.mem, h.regs, h.tiles, h.clus⟩
  cases p <;> first | exact h.same _ e | exact absurd (hm.bit _ rfl) (by rw [e]; decide)
theorem Keeps.put_rot {m : Nat} {s0 s : State} (hm : Sub 2147483648 m) (h : Keeps m s0 s) {x} : Keeps m s0 { s with rot := x } := by
  refine ⟨fun p e => ?_, h.mem, h.regs, h.tiles, h.clus⟩
  cases p <;> first | exact h.same _ e | exact absurd (hm.bit _ rfl) (by rw [e]; decide)
theorem Keeps.put_seen {m : Nat} {s0 s : State} (hm : Sub 2199023255552 m) (h : Keeps m s0 s) {x} : Keeps m s0 { s with seen := x } := by
  refine ⟨fun p e => ?_, h.mem, h.regs, h.tiles, h.clus⟩
  cases p <;> first | exact h.same _ e | exact absurd (hm.bit _ rfl) (by rw [e]; decide)
theorem Keeps.put_bulkKeys {m : Nat} {s0 s : State} (hm : Sub 4398046511104 m) (h : Keeps m s0 s) {x} : Keeps m s0 { s with bulkKeys := x } := by
  refine ⟨fun p e => ?_, h.mem, h.regs, h.tiles, h.clus⟩
  cases p <;> first | exact h.same _ e | exact absurd (hm.bit _ rfl) (by rw [e]; decide)
theorem Keeps.put_flips {m : Nat} {s0 s : State} (hm : Sub 8796093022208 m) (h : Keeps m s0 s) {x} : Keeps m s0 { s with flips := x } := by
  refine ⟨fun p e => ?_, h.mem, h.regs, h.tiles, h.clus⟩
  cases p <;> first | exact h.same _ e | exact absurd (hm.bit _ rfl) (by rw [e]; decide)
theorem Keeps.put_alerts {m : Nat} {s0 s : State} (hm : Sub 17592186044416 m) (h : Keeps m s0 s) {x} : Keeps m s0 { s with alerts := x } := by
  refine ⟨fun p e => ?_, h.mem, h.regs, h.tiles, h.clus⟩
  cases p <;> first | exact h.same _ e | exact absurd (hm.bit _ rfl) (by rw [e]; decide)
theorem Keeps.put_units {m : Nat} {s0 s : State} (hm : Sub 35184372088832 m) (h : Keeps m s0 s) {x} : Keeps m s0 { s with units := x } := by
  refine ⟨fun p e => ?_, h.mem, h.regs, h.tiles, h.clus⟩
  cases p <;> first | exact h.same _ e | exact absurd (hm.bit _ rfl) (by rw [e]; decide)
theorem Keeps.put_lost {m : Nat} {s0 s : State} (hm : Sub 70368744177664 m) (h : Keeps m s0 s) {x} : Keeps m s0 { s with lost := x } := by
  refine ⟨fun p e => ?_, h.mem, h.regs, h.tiles, h.clus⟩
  cases p <;> first | exact h.same _ e | exact absurd (hm.bit _ rfl) (by rw [e]; decide)
theorem Keeps.put_mTensor {m : Nat} {s0 s : State} (hm : Sub 4294967296 m) (h : Keeps m s0 s) {x : Mem}
    (hx : Memory.wf s.mem.tensor = true → Memory.wf x = true) : Keeps m s0 { s with mem := { s.mem with tensor := x } } := by
  refine ⟨fun p e => ?_, fun e => ?_, h.regs, h.tiles, h.clus⟩
  · cases p <;> first | exact h.same _ e | exact absurd (hm.bit _ rfl) (by rw [e]; decide)
  · have := h.mem e
    simp only [Stores.wf, Bool.and_eq_true] at this ⊢
    simp only [this, hx, and_self]
theorem Keeps.put_mSp {m : Nat} {s0 s : State} (hm : Sub 8589934592 m) (h : Keeps m s0 s) {x : Mem}
    (hx : Memory.wf s.mem.sp = true → Memory.wf x = true) : Keeps m s0 { s with mem := { s.mem with sp := x } } := by
  refine ⟨fun p e => ?_, fun e => ?_, h.regs, h.tiles, h.clus⟩
  · cases p <;> first | exact h.same _ e | exact absurd (hm.bit _ rfl) (by rw [e]; decide)
  · have := h.mem e
    simp only [Stores.wf, Bool.and_eq_true] at this ⊢
    simp only [this, hx, and_self]
theorem Keeps.put_mCar {m : Nat} {s0 s : State} (hm : Sub 17179869184 m) (h : Keeps m s0 s) {x : Mem}
    (hx : Memory.wf s.mem.car = true → Memory.wf x = true) : Keeps m s0 { s with mem := { s.mem with car := x } } := by
  refine ⟨fun p e => ?_, fun e => ?_, h.regs, h.tiles, h.clus⟩
  · cases p <;> first | exact h.same _ e | exact absurd (hm.bit _ rfl) (by rw [e]; decide)
  · have := h.mem e
    simp only [Stores.wf, Bool.and_eq_true] at this ⊢
    simp only [this, hx, and_self]
theorem Keeps.put_mCtx {m : Nat} {s0 s : State} (hm : Sub 34359738368 m) (h : Keeps m s0 s) {x : Mem}
    (hx : Memory.wf s.mem.ctx = true → Memory.wf x = true) : Keeps m s0 { s with mem := { s.mem with ctx := x } } := by
  refine ⟨fun p e => ?_, fun e => ?_, h.regs, h.tiles, h.clus⟩
  · cases p <;> first | exact h.same _ e | exact absurd (hm.bit _ rfl) (by rw [e]; decide)
  · have := h.mem e
    simp only [Stores.wf, Bool.and_eq_true] at this ⊢
    simp only [this, hx, and_self]
theorem Keeps.put_mVdesc {m : Nat} {s0 s : State} (hm : Sub 68719476736 m) (h : Keeps m s0 s) {x : Mem}
    (hx : Memory.wf s.mem.vdesc = true → Memory.wf x = true) : Keeps m s0 { s with mem := { s.mem with vdesc := x } } := by
  refine ⟨fun p e => ?_, fun e => ?_, h.regs, h.tiles, h.clus⟩
  · cases p <;> first | exact h.same _ e | exact absurd (hm.bit _ rfl) (by rw [e]; decide)
  · have := h.mem e
    simp only [Stores.wf, Bool.and_eq_true] at this ⊢
    simp only [this, hx, and_self]
theorem Keeps.put_mStat {m : Nat} {s0 s : State} (hm : Sub 137438953472 m) (h : Keeps m s0 s) {x : Mem}
    (hx : Memory.wf s.mem.stat = true → Memory.wf x = true) : Keeps m s0 { s with mem := { s.mem with stat := x } } := by
  refine ⟨fun p e => ?_, fun e => ?_, h.regs, h.tiles, h.clus⟩
  · cases p <;> first | exact h.same _ e | exact absurd (hm.bit _ rfl) (by rw [e]; decide)
  · have := h.mem e
    simp only [Stores.wf, Bool.and_eq_true] at this ⊢
    simp only [this, hx, and_self]
theorem Keeps.put_mScale {m : Nat} {s0 s : State} (hm : Sub 274877906944 m) (h : Keeps m s0 s) {x : Mem}
    (hx : Memory.wf s.mem.scale = true → Memory.wf x = true) : Keeps m s0 { s with mem := { s.mem with scale := x } } := by
  refine ⟨fun p e => ?_, fun e => ?_, h.regs, h.tiles, h.clus⟩
  · cases p <;> first | exact h.same _ e | exact absurd (hm.bit _ rfl) (by rw [e]; decide)
  · have := h.mem e
    simp only [Stores.wf, Bool.and_eq_true] at this ⊢
    simp only [this, hx, and_self]
theorem Keeps.put_mAcc {m : Nat} {s0 s : State} (hm : Sub 549755813888 m) (h : Keeps m s0 s) {x : Mem}
    (hx : Memory.wf s.mem.acc = true → Memory.wf x = true) : Keeps m s0 { s with mem := { s.mem with acc := x } } := by
  refine ⟨fun p e => ?_, fun e => ?_, h.regs, h.tiles, h.clus⟩
  · cases p <;> first | exact h.same _ e | exact absurd (hm.bit _ rfl) (by rw [e]; decide)
  · have := h.mem e
    simp only [Stores.wf, Bool.and_eq_true] at this ⊢
    simp only [this, hx, and_self]
theorem Keeps.put_mBar {m : Nat} {s0 s : State} (hm : Sub 1099511627776 m) (h : Keeps m s0 s) {x : Mem}
    (hx : Memory.wf s.mem.bar = true → Memory.wf x = true) : Keeps m s0 { s with mem := { s.mem with bar := x } } := by
  refine ⟨fun p e => ?_, fun e => ?_, h.regs, h.tiles, h.clus⟩
  · cases p <;> first | exact h.same _ e | exact absurd (hm.bit _ rfl) (by rw [e]; decide)
  · have := h.mem e
    simp only [Stores.wf, Bool.and_eq_true] at this ⊢
    simp only [this, hx, and_self]

theorem Keeps.put_awaited_colls {m : Nat} {s0 s : State} (hm : Sub 4456448 m) (h : Keeps m s0 s) {x y} :
    Keeps m s0 { s with awaited := x, colls := y } :=
  Keeps.put_awaited (s := { s with colls := y }) (hm.of rfl) (Keeps.put_colls (hm.of rfl) h)

theorem Keeps.put_pages_writes {m : Nat} {s0 s : State} (hm : Sub 20480 m) (h : Keeps m s0 s) {x y} :
    Keeps m s0 { s with pages := x, writes := y } :=
  Keeps.put_pages (s := { s with writes := y }) (hm.of rfl) (Keeps.put_writes (hm.of rfl) h)

theorem Keeps.put_flying_regs {m : Nat} {s0 s : State} (hm : Sub 528 m) (h : Keeps m s0 s) {x y} (hx : regsWf s.regs = true → regsWf y = true) :
    Keeps m s0 { s with flying := x, regs := y } :=
  Keeps.put_flying (s := { s with regs := y }) (hm.of rfl) (Keeps.put_regs (hm.of rfl) h hx)

theorem Keeps.put_mrs_qps {m : Nat} {s0 s : State} (hm : Sub 100663296 m) (h : Keeps m s0 s) {x y} :
    Keeps m s0 { s with mrs := x, qps := y } :=
  Keeps.put_mrs (s := { s with qps := y }) (hm.of rfl) (Keeps.put_qps (hm.of rfl) h)

theorem Keeps.put_snaps_regs {m : Nat} {s0 s : State} (hm : Sub 48 m) (h : Keeps m s0 s) {x y} (hx : regsWf s.regs = true → regsWf y = true) :
    Keeps m s0 { s with snaps := x, regs := y } :=
  Keeps.put_snaps (s := { s with regs := y }) (hm.of rfl) (Keeps.put_regs (hm.of rfl) h hx)

theorem Keeps.put_pages_mTensor {m : Nat} {s0 s : State} (hm : Sub 4294971392 m) (h : Keeps m s0 s) {x} {y : Mem}
    (hy : Memory.wf s.mem.tensor = true → Memory.wf y = true) : Keeps m s0 { s with pages := x, mem := { s.mem with tensor := y } } :=
  Keeps.put_pages (s := { s with mem := { s.mem with tensor := y } }) (hm.of rfl) (Keeps.put_mTensor (hm.of rfl) h hy)

theorem Keeps.put_awaited_colls_collIn {m : Nat} {s0 s : State} (hm : Sub 4980736 m) (h : Keeps m s0 s) {x y z} :
    Keeps m s0 { s with awaited := x, colls := y, collIn := z } :=
  Keeps.put_awaited_colls (s := { s with collIn := z }) (hm.of rfl) (Keeps.put_collIn (hm.of rfl) h)

theorem Keeps.put_jobs_rot {m : Nat} {s0 s : State} (hm : Sub 2147549184 m) (h : Keeps m s0 s) {x y} :
    Keeps m s0 { s with jobs := x, rot := y } :=
  Keeps.put_jobs (s := { s with rot := y }) (hm.of rfl) (Keeps.put_rot (hm.of rfl) h)

theorem Keeps.put_bulkKeys_jobs_rot {m : Nat} {s0 s : State} (hm : Sub 4400194060288 m) (h : Keeps m s0 s) {x y z} :
    Keeps m s0 { s with bulkKeys := z, jobs := x, rot := y } :=
  Keeps.put_bulkKeys (s := { s with jobs := x, rot := y }) (hm.of rfl) (Keeps.put_jobs_rot (hm.of rfl) h)

theorem Keeps.put_power_t0 {m : Nat} {s0 s : State} (hm : Sub 1073741828 m) (h : Keeps m s0 s) {x y} :
    Keeps m s0 { s with power := x, t0 := y } :=
  Keeps.put_power (s := { s with t0 := y }) (hm.of rfl) (Keeps.put_t0 (hm.of rfl) h)

theorem Keeps.put_seen_units {m : Nat} {s0 s : State} (hm : Sub 37383395344384 m) (h : Keeps m s0 s) {x y} :
    Keeps m s0 { s with seen := x, units := y } :=
  Keeps.put_seen (s := { s with units := y }) (hm.of rfl) (Keeps.put_units (hm.of rfl) h)

theorem Keeps.put_badSlots_lost {m : Nat} {s0 s : State} (hm : Sub 70368744185856 m) (h : Keeps m s0 s) {x y} :
    Keeps m s0 { s with badSlots := x, lost := y } :=
  Keeps.put_badSlots (s := { s with lost := y }) (hm.of rfl) (Keeps.put_lost (hm.of rfl) h)

theorem Keeps.put_pour_awaited {m : Nat} {s0 s : State} (hm : Sub 4325376 m) (h : Keeps m s0 s) {x y} :
    Keeps m s0 { s with pour := x, awaited := y } :=
  Keeps.put_pour (s := { s with awaited := y }) (hm.of rfl) (Keeps.put_awaited (hm.of rfl) h)

theorem Keeps.put_tier_mTensor {m : Nat} {s0 s : State} (hm : Sub 79169132179456 m) (h : Keeps m s0 s) {x z v w} {y : Mem}
    (hy : Memory.wf s.mem.tensor = true → Memory.wf y = true) :
    Keeps m s0 { s with pages := x, flips := z, badSlots := v, lost := w, mem := { s.mem with tensor := y } } :=
  Keeps.put_flips (s := { s with pages := x, badSlots := v, lost := w, mem := { s.mem with tensor := y } }) (hm.of rfl)
    (Keeps.put_badSlots_lost (s := { s with pages := x, mem := { s.mem with tensor := y } }) (hm.of rfl)
      (Keeps.put_pages_mTensor (hm.of rfl) h hy))

end Sys2Proof.Machine
end

