-- ==== Sys2Proof/Laws/KeepsOps.lean ====
section
/-! SUPPORT. What the operations of Machine/Ops.lean keep. -/

namespace Sys2Proof.Machine

variable {k : Nat} {s0 : State}

theorem keeps_putTile {k : Nat} {s0 s : State} {t : Nat} {v : Tile} (hm : Sub 64 k) (h : Keeps k s0 s) : Keeps k s0 (putTile s t v) :=
  Keeps.put_tiles hm h (tblSet_wf (d := fun _ => Tile.reset) t v)

theorem keeps_putClu {k : Nat} {s0 s : State} {c : Nat} {v : Cluster} (hm : Sub 128 k) (h : Keeps k s0 s) : Keeps k s0 (putClu s c v) :=
  Keeps.put_clusters hm h (tblSet_wf (d := fun _ => Cluster.reset) c v)

theorem keeps_putWalker {s : State} {c : Nat} {w : Walker} (hm : Sub 128 k) (h : Keeps k s0 s) :
    Keeps k s0 (putWalker s c w) := by
  unfold putWalker
  repeat' first
    | (with_reducible refine hm.of ?_); exact rfl
    | with_reducible assumption
    | with_reducible apply keeps_putClu

theorem keeps_putJob {s : State} {tag : BitVec 12} {j : Job} (hm : Sub 65536 k) (h : Keeps k s0 s) :
    Keeps k s0 (putJob s tag j) := by
  unfold putJob
  repeat' first
    | (with_reducible refine hm.of ?_); exact rfl
    | with_reducible assumption
    | (with_reducible first | apply Keeps.put_jobs)

theorem keeps_putRing {s : State} {c : Nat} {r : Nat} {v : Ring} (hm : Sub 128 k) (h : Keeps k s0 s) :
    Keeps k s0 (putRing s c r v) := by
  unfold putRing
  repeat' first
    | (with_reducible refine hm.of ?_); exact rfl
    | with_reducible assumption
    | with_reducible apply keeps_putClu

theorem keeps_onUnit {exists_ : Prop} {x1 : Decidable exists_} {s : State} {f : State → State} (hm : Sub 0 k) (h : Keeps k s0 s) (hf : ∀ (y0 : State), Keeps k s0 y0 → Keeps k s0 (f y0)) :
    KeepsR k s0 (onUnit exists_ s f) := by
  unfold onUnit
  repeat' first
    | with_reducible assumption
    | (with_reducible first | apply keepsR_next | apply keeps_ite | apply hf)

theorem keeps_onTile {t : Nat} {s : State} {f : State → State} (hm : Sub 0 k) (h : Keeps k s0 s) (hf : ∀ (y0 : State), Keeps k s0 y0 → Keeps k s0 (f y0)) :
    KeepsR k s0 (onTile t s f) := by
  unfold onTile
  repeat' first
    | (with_reducible refine hm.of ?_); exact rfl
    | with_reducible assumption
    | with_reducible apply keeps_onUnit

theorem keeps_onCluster {c : Nat} {s : State} {f : State → State} (hm : Sub 0 k) (h : Keeps k s0 s) (hf : ∀ (y0 : State), Keeps k s0 y0 → Keeps k s0 (f y0)) :
    KeepsR k s0 (onCluster c s f) := by
  unfold onCluster
  repeat' first
    | (with_reducible refine hm.of ?_); exact rfl
    | with_reducible assumption
    | with_reducible apply keeps_onUnit

theorem keeps_onHub {h' : Nat} {s : State} {f : State → State} (hm : Sub 0 k) (h : Keeps k s0 s) (hf : ∀ (y0 : State), Keeps k s0 y0 → Keeps k s0 (f y0)) :
    KeepsR k s0 (onHub h' s f) := by
  unfold onHub
  repeat' first
    | (with_reducible refine hm.of ?_); exact rfl
    | with_reducible assumption
    | with_reducible apply keeps_onUnit

theorem keeps_putBridge {s : State} {b : Nat} {v : Bridge} (hm : Sub 536870912 k) (h : Keeps k s0 s) :
    Keeps k s0 (putBridge s b v) := by
  unfold putBridge
  repeat' first
    | (with_reducible refine hm.of ?_); exact rfl
    | with_reducible assumption
    | (with_reducible first | apply Keeps.put_bridges)

theorem keeps_refresh {s : State} (hm : Sub 37383395344384 k) (h : Keeps k s0 s) :
    Keeps k s0 (refresh s) := by
  unfold refresh
  repeat' first
    | (with_reducible refine hm.of ?_); exact rfl
    | with_reducible assumption
    | (with_reducible first | apply Keeps.put_seen_units | apply Keeps.put_seen | apply Keeps.put_units)

theorem keeps_setReg {k : Nat} {s0 s : State} {a : Nat} {v : Word} (hm : Sub 16 k) (h : Keeps k s0 s) : Keeps k s0 (setReg s a v) :=
  Keeps.put_regs hm h (tblSet_wf a v)

theorem keeps_setRegF {s : State} {a : Nat} {hi : Nat} {lo : Nat} {v : Nat} (hm : Sub 16 k) (h : Keeps k s0 s) :
    Keeps k s0 (setRegF s a hi lo v) := by
  unfold setRegF
  repeat' first
    | (with_reducible refine hm.of ?_); exact rfl
    | with_reducible assumption
    | with_reducible apply keeps_setReg

theorem keeps_addCtr {s : State} {a : Nat} {n : Nat} (hm : Sub 16 k) (h : Keeps k s0 s) :
    Keeps k s0 (addCtr s a n) := by
  unfold addCtr
  repeat' first
    | (with_reducible refine hm.of ?_); exact rfl
    | with_reducible assumption
    | (with_reducible first | apply keeps_ite | apply keeps_setReg)

theorem keeps_bump {s : State} {a : Nat} (hm : Sub 16 k) (h : Keeps k s0 s) :
    Keeps k s0 (bump s a) := by
  unfold bump
  repeat' first
    | (with_reducible refine hm.of ?_); exact rfl
    | with_reducible assumption
    | with_reducible apply keeps_addCtr

theorem keeps_unmapped {s : State} (hm : Sub 16 k) (h : Keeps k s0 s) :
    Keeps k s0 (unmapped s) := by
  unfold unmapped
  repeat' first
    | (with_reducible refine hm.of ?_); exact rfl
    | with_reducible assumption
    | with_reducible apply keeps_bump

theorem keeps_setBit {s : State} {a : Nat} {i : Nat} (hm : Sub 16 k) (h : Keeps k s0 s) :
    Keeps k s0 (setBit s a i) := by
  unfold setBit
  repeat' first
    | (with_reducible refine hm.of ?_); exact rfl
    | with_reducible assumption
    | with_reducible apply keeps_setReg

theorem keeps_mgmtIrq {s : State} (hm : Sub 17592186044416 k) (h : Keeps k s0 s) :
    Keeps k s0 (mgmtIrq s) := by
  unfold mgmtIrq
  repeat' first
    | (with_reducible refine hm.of ?_); exact rfl
    | with_reducible assumption
    | (have x := (); extract_lets +onlyGivenNames x; clear_value x)
    | (with_reducible first | apply Keeps.put_alerts)

theorem keeps_raiseEvent {page : Nat} {i : Nat} {s : State} (hm : Sub 17592186044432 k) (h : Keeps k s0 s) :
    Keeps k s0 (raiseEvent page i s) := by
  unfold raiseEvent
  repeat' first
    | (with_reducible refine hm.of ?_); exact rfl
    | with_reducible assumption
    | (with_reducible first | apply keeps_ite | apply keeps_setBit | apply keeps_mgmtIrq)

theorem keeps_alert {page : Nat} {c : Nat} {device_ : Bool} {s : State} (hm : Sub 17592186044416 k) (h : Keeps k s0 s) :
    Keeps k s0 (alert page c device_ s) := by
  unfold alert
  repeat' first
    | (with_reducible refine hm.of ?_); exact rfl
    | with_reducible assumption
    | with_reducible apply keeps_mgmtIrq
    | (have x := (); extract_lets +onlyGivenNames x; clear_value x)
    | split
    | (with_reducible first | apply Keeps.put_alerts)

theorem keeps_alertClear {page : Nat} {classes : Word} {s : State} (hm : Sub 17592186044416 k) (h : Keeps k s0 s) :
    Keeps k s0 (alertClear page classes s) := by
  unfold alertClear
  repeat' first
    | (with_reducible refine hm.of ?_); exact rfl
    | with_reducible assumption
    | (have x := (); extract_lets +onlyGivenNames x; clear_value x)
    | (with_reducible first | apply Keeps.put_alerts)

theorem keeps_recordFirst {s : State} {a : Nat} {v : Word} (hm : Sub 16 k) (h : Keeps k s0 s) :
    Keeps k s0 (recordFirst s a v) := by
  unfold recordFirst
  repeat' first
    | (with_reducible refine hm.of ?_); exact rfl
    | with_reducible assumption
    | (with_reducible first | apply keeps_ite | apply keeps_setReg)

theorem keeps_setReady {i : Nat} {s : State} (hm : Sub 1073741840 k) (h : Keeps k s0 s) :
    Keeps k s0 (setReady i s) := by
  unfold setReady
  repeat' first
    | (with_reducible refine hm.of ?_); exact rfl
    | with_reducible assumption
    | (with_reducible first | apply keeps_ite | apply keeps_setBit)
    | (have x := (); extract_lets +onlyGivenNames x; refine keeps_cut k s0 x ?_ fun _ => ?_; rotate_left; clear_value x)
    | (have x := (); extract_lets +onlyGivenNames x; clear_value x)
    | (with_reducible first | apply Keeps.put_power)

theorem keeps_clearReady {l : List Nat} {s : State} (hm : Sub 16 k) (h : Keeps k s0 s) :
    Keeps k s0 (clearReady l s) := by
  unfold clearReady
  repeat' first
    | (with_reducible refine hm.of ?_); exact rfl
    | with_reducible assumption
    | with_reducible apply keeps_setReg

theorem keeps_rinseCount {code : Nat} {s : State} (hm : Sub 16 k) (h : Keeps k s0 s) :
    Keeps k s0 (rinseCount code s) := by
  unfold rinseCount
  repeat' first
    | (with_reducible refine hm.of ?_); exact rfl
    | with_reducible assumption
    | (with_reducible first | apply keeps_ite | apply keeps_bump)

theorem keeps_inDomain {d : Nat} {s : State} {f : State → State} (hm : Sub 16 k) (h : Keeps k s0 s) (hf : ∀ (y0 : State), Keeps k s0 y0 → Keeps k s0 (f y0)) :
    Keeps k s0 (inDomain d s f) := by
  unfold inDomain
  repeat' first
    | (with_reducible refine hm.of ?_); exact rfl
    | with_reducible assumption
    | (with_reducible first | apply keeps_ite | apply keeps_bump | apply hf)

theorem keeps_drawFree {s : State} (hm : Sub 8 k) (h : Keeps k s0 s) :
    Keeps k s0 ((drawFree s).2) := by
  unfold drawFree
  repeat' first
    | (with_reducible refine hm.of ?_); exact rfl
    | with_reducible assumption
    | (with_reducible first | apply Keeps.put_free)

theorem keeps_alarmJob {page : Nat} {code : Nat} {sc : Scope} {tag : BitVec 12} {s : State} (hm : Sub 65536 k) (h : Keeps k s0 s) :
    Keeps k s0 (alarmJob page code sc tag s) := by
  unfold alarmJob
  repeat' first
    | (with_reducible refine hm.of ?_); exact rfl
    | with_reducible assumption
    | (with_reducible first | apply keeps_ite | apply keeps_putJob)
    | (have x := (); extract_lets +onlyGivenNames x; clear_value x)
    | split

theorem keeps_alarm {page : Nat} {code : Nat} {sc : Scope} {s : State} (hm : Sub 65552 k) (h : Keeps k s0 s) :
    Keeps k s0 (alarm page code sc s) := by
  unfold alarm
  repeat' first
    | (with_reducible refine hm.of ?_); exact rfl
    | with_reducible assumption
    | (with_reducible first | refine keeps_forAll ?_ fun _ _ _ => ?_ | apply keeps_bump | apply keeps_alarmJob | apply keeps_recordFirst)

theorem keeps_baristaIrq {c : Nat} {cause : Nat} {entry : Nat} {s : State} (hm : Sub 128 k) (h : Keeps k s0 s) :
    Keeps k s0 (baristaIrq c cause entry s) := by
  unfold baristaIrq
  repeat' first
    | (with_reducible refine hm.of ?_); exact rfl
    | with_reducible assumption
    | with_reducible apply keeps_putClu

theorem keeps_poisonBlock {t : Nat} {a : BlockArgs} {s : State} (hm : Sub 16 k) (h : Keeps k s0 s) :
    Keeps k s0 (poisonBlock t a s) := by
  unfold poisonBlock
  repeat' first
    | (with_reducible refine hm.of ?_); exact rfl
    | with_reducible assumption
    | (with_reducible first | refine keeps_forAll ?_ fun _ _ _ => ?_ | apply keeps_setReg)

theorem keeps_abandonSample {t : Nat} {s : State} (hm : Sub 144 k) (h : Keeps k s0 s) :
    Keeps k s0 (abandonSample t s) := by
  unfold abandonSample
  repeat' first
    | (with_reducible refine hm.of ?_); exact rfl
    | with_reducible assumption
    | (with_reducible first | apply keeps_addCtr | apply keeps_putClu)

theorem keeps_writeGroup {t : Nat} {a : BlockArgs} {g : Nat} {run : List (BitVec 32)} {s : State} (hm : Sub 549755813904 k) (h : Keeps k s0 s) :
    Keeps k s0 (writeGroup t a g run s) := by
  unfold writeGroup
  repeat' first
    | (with_reducible refine hm.of ?_); exact rfl
    | with_reducible assumption
    | intro _
    | (with_reducible first | apply keeps_ite | refine keeps_forAll ?_ fun _ _ _ => ?_ | apply keeps_setRegF | exact memFold_wf (fun _ _ h => memSetNat_wf _ _ _ h) _ (by assumption))
    | ((have x := (); extract_lets +onlyGivenNames x; first | (have u : Stores := x; clear u) | (have u : Mem := x; clear u) | (have u := fun a => x a; clear u)); dsimp -zeta only [x]; clear x)
    | (with_reducible first | apply Keeps.put_mAcc)

theorem keeps_flushAcc {t : Nat} {s : State} (hm : Sub 549755813968 k) (h : Keeps k s0 s) :
    Keeps k s0 (flushAcc t s) := by
  unfold flushAcc
  repeat' first
    | (with_reducible refine hm.of ?_); exact rfl
    | with_reducible assumption
    | (with_reducible first | refine keeps_forAll ?_ fun _ _ _ => ?_ | apply keeps_writeGroup | apply keeps_putTile)
    | (have x := (); extract_lets +onlyGivenNames x; clear_value x)
    | split

theorem keeps_stopTile {t : Nat} {s : State} (hm : Sub 549755814096 k) (h : Keeps k s0 s) :
    Keeps k s0 (stopTile t s) := by
  unfold stopTile
  repeat' first
    | (with_reducible refine hm.of ?_); exact rfl
    | with_reducible assumption
    | (with_reducible first | apply keeps_abandonSample | apply keeps_poisonBlock | apply keeps_flushAcc | apply keeps_putTile)
    | split

theorem keeps_withdraw {c : Nat} {s : State} (hm : Sub 256 k) (h : Keeps k s0 s) :
    Keeps k s0 (withdraw c s) := by
  unfold withdraw
  repeat' first
    | (with_reducible refine hm.of ?_); exact rfl
    | with_reducible assumption
    | (with_reducible first | apply Keeps.put_arrivals)

theorem keeps_stopCluster {c : Nat} {code : Nat} {tile : Nat} {s : State} (hm : Sub 549755814352 k) (h : Keeps k s0 s) :
    Keeps k s0 (stopCluster c code tile s) := by
  unfold stopCluster
  repeat' first
    | (with_reducible refine hm.of ?_); exact rfl
    | with_reducible assumption
    | (with_reducible first | apply keeps_ite | refine keeps_forAll ?_ fun _ _ _ => ?_ | apply keeps_setReg | apply keeps_baristaIrq | apply keeps_stopTile | apply keeps_putWalker | apply keeps_withdraw)

theorem keeps_jobFault {tag : Option (BitVec 12)} {code : Nat} {s : State} (hm : Sub 65536 k) (h : Keeps k s0 s) :
    Keeps k s0 (jobFault tag code s) := by
  unfold jobFault
  repeat' first
    | (with_reducible refine hm.of ?_); exact rfl
    | with_reducible assumption
    | (with_reducible first | apply keeps_ite | apply keeps_putJob)
    | split

theorem keeps_severeJob {code : Nat} {tag : BitVec 12} {s : State} (hm : Sub 549755879888 k) (h : Keeps k s0 s) :
    Keeps k s0 (severeJob code tag s) := by
  unfold severeJob
  repeat' first
    | (with_reducible refine hm.of ?_); exact rfl
    | with_reducible assumption
    | (with_reducible first | refine keeps_forAll ?_ fun _ _ _ => ?_ | apply keeps_stopCluster | apply keeps_putJob)

theorem keeps_raiseFault {page : Nat} {code : Nat} {tag : Option (BitVec 12)} {s : State} (hm : Sub 18141941924304 k) (h : Keeps k s0 s) :
    Keeps k s0 (raiseFault page code tag s) := by
  unfold raiseFault
  repeat' first
    | (with_reducible refine hm.of ?_); exact rfl
    | with_reducible assumption
    | (with_reducible first | apply keeps_ite | refine keeps_forAll ?_ fun _ _ _ => ?_ | apply keeps_jobFault | apply keeps_setReg | apply keeps_setBit | apply keeps_alert | apply keeps_recordFirst | apply keeps_severeJob)
    | (have x := (); extract_lets +onlyGivenNames x; refine keeps_cut k s0 x ?_ fun _ => ?_; rotate_left; clear_value x)
    | split

theorem keeps_raiseClu {page : Nat} {c : Nat} {code : Nat} {s : State} (hm : Sub 18141941924304 k) (h : Keeps k s0 s) :
    Keeps k s0 (raiseClu page c code s) := by
  unfold raiseClu
  repeat' first
    | (with_reducible refine hm.of ?_); exact rfl
    | with_reducible assumption
    | with_reducible apply keeps_raiseFault

theorem keeps_errOnly {page : Nat} {code : Nat} {s : State} (hm : Sub 16 k) (h : Keeps k s0 s) :
    Keeps k s0 (errOnly page code s) := by
  unfold errOnly
  repeat' first
    | (with_reducible refine hm.of ?_); exact rfl
    | with_reducible assumption
    | with_reducible apply keeps_setBit

theorem keeps_takeArmed {page : Nat} {code : Nat} {s : State} (hm : Sub 32768 k) (h : Keeps k s0 s) :
    Keeps k s0 ((takeArmed page code s).2) := by
  unfold takeArmed
  repeat' first
    | (with_reducible refine hm.of ?_); exact rfl
    | with_reducible assumption
    | split
    | (with_reducible first | apply Keeps.put_armed)

theorem keeps_resAlarm {page : Nat} {code : Nat} {c : Nat} {s : State} (hm : Sub 18141941924304 k) (h : Keeps k s0 s) :
    Keeps k s0 (resAlarm page code c s) := by
  unfold resAlarm
  repeat' first
    | (with_reducible refine hm.of ?_); exact rfl
    | with_reducible assumption
    | (with_reducible first | apply keeps_raiseClu | apply keeps_alarm)

theorem keeps_pageEcc {page : Nat} {c : Nat} {s : State} (hm : Sub 18141941957072 k) (h : Keeps k s0 s) :
    Keeps k s0 ((pageEcc page c s).2) := by
  unfold pageEcc
  repeat' first
    | (with_reducible refine hm.of ?_); exact rfl
    | with_reducible assumption
    | (with_reducible first | apply keeps_takeArmed | apply keeps_resAlarm)
    | (have x := (); extract_lets +onlyGivenNames x; refine keeps_cut2 k s0 x ?_ fun _ => ?_; rotate_left; clear_value x)
    | split

theorem keeps_carEcc {c : Nat} {s : State} (hm : Sub 18141941957072 k) (h : Keeps k s0 s) :
    Keeps k s0 ((carEcc c s).2) := by
  unfold carEcc
  repeat' first
    | (with_reducible refine hm.of ?_); exact rfl
    | with_reducible assumption
    | with_reducible apply keeps_pageEcc
    | (have x := (); extract_lets +onlyGivenNames x; refine keeps_cut2 k s0 x ?_ fun _ => ?_; rotate_left; clear_value x)
    | split

theorem keeps_faultTile {t : Nat} {code : Nat} {sub : Nat} {group : Nat} {s : State} (hm : Sub 18141941924304 k) (h : Keeps k s0 s) :
    Keeps k s0 (faultTile t code sub group s) := by
  unfold faultTile
  repeat' first
    | (with_reducible refine hm.of ?_); exact rfl
    | with_reducible assumption
    | (with_reducible first | apply keeps_ite | apply keeps_raiseClu | apply keeps_stopCluster | apply keeps_errOnly | apply keeps_recordFirst)

theorem keeps_faultWith {t : Nat} {code : Nat} {sub : Nat} {group : Nat} {note : State → State} {s : State} (hm : Sub 18141941924304 k) (h : Keeps k s0 s) (hnote : ∀ (y0 : State), Keeps k s0 y0 → Keeps k s0 (note y0)) :
    Keeps k s0 (faultWith t code sub group note s) := by
  unfold faultWith
  repeat' first
    | (with_reducible refine hm.of ?_); exact rfl
    | with_reducible assumption
    | (with_reducible first | apply keeps_ite | apply keeps_faultTile | apply hnote)

theorem keeps_faultNet {t : Nat} {code : Nat} {net : Nat} {port : Nat} {ctx : Nat} {cause : Nat} {s : State} (hm : Sub 18141941924304 k) (h : Keeps k s0 s) :
    Keeps k s0 (faultNet t code net port ctx cause s) := by
  unfold faultNet
  repeat' first
    | (with_reducible refine hm.of ?_); exact rfl
    | with_reducible assumption
    | intro _
    | (with_reducible first | apply keeps_recordFirst | apply keeps_faultWith)

theorem keeps_putBankQueue {s : State} {a : Store} {b : Nat} {l : List BankRow} (hm : Sub 192 k) (h : Keeps k s0 s) :
    Keeps k s0 (putBankQueue s a b l) := by
  unfold putBankQueue
  repeat' first
    | (with_reducible refine hm.of ?_); exact rfl
    | with_reducible assumption
    | (with_reducible first | apply keeps_putClu | apply keeps_putTile)
    | split

theorem keeps_storePut {k : Nat} {s0 s : State} {a : Store} {m : Mem} (hm : Sub 25769803776 k) (h : Keeps k s0 s)
    (hx : Memory.wf (storeMem s a) = true → Memory.wf m = true) : Keeps k s0 (storePut s a m) := by
  cases a with
  | sp t => exact Keeps.put_mSp (hm.of rfl) h hx
  | car c => exact Keeps.put_mCar (hm.of rfl) h hx

theorem keeps_storeWrite {s : State} {a : Store} {off : Nat} {l : List Byte} (hm : Sub 25769803776 k) (h : Keeps k s0 s) :
    Keeps k s0 (storeWrite s a off l) := by
  unfold storeWrite
  repeat' first
    | (with_reducible refine hm.of ?_); exact rfl
    | with_reducible assumption
    | intro _
    | (with_reducible first | apply keeps_storePut | exact memWrite_wf _ _ (by assumption))

theorem keeps_setBankReady {s : State} {a : Store} {b : Nat} {v : Bool} (hm : Sub 16 k) (h : Keeps k s0 s) :
    Keeps k s0 (setBankReady s a b v) := by
  unfold setBankReady
  repeat' first
    | (with_reducible refine hm.of ?_); exact rfl
    | with_reducible assumption
    | with_reducible apply keeps_setRegF

end Sys2Proof.Machine
end

