-- ==== Sys2Proof/Laws/KeepsRoute.lean ====
section
/-! SUPPORT. What the operations of Machine/Route.lean keep. -/

namespace Sys2Proof.Machine

variable {k : Nat} {s0 : State}

theorem keeps_putPort {s : State} {p : Nat} {v : FabPort} (hm : Sub 16777216 k) (h : Keeps k s0 s) :
    Keeps k s0 (putPort s p v) := by
  unfold putPort
  repeat' first
    | (with_reducible refine hm.of ?_); exact rfl
    | with_reducible assumption
    | (with_reducible first | apply Keeps.put_fab)

theorem keeps_portFlit {p : Nat} {f : BitVec 2048} {s : State} (hm : Sub 16777232 k) (h : Keeps k s0 s) :
    Keeps k s0 (portFlit p f s) := by
  unfold portFlit
  repeat' first
    | (with_reducible refine hm.of ?_); exact rfl
    | with_reducible assumption
    | (with_reducible first | apply keeps_bump | apply keeps_putPort)

theorem keeps_portCtl {p : Nat} {ty : Nat} {seq : Nat} {vc : Nat} {s : State} (hm : Sub 16777232 k) (h : Keeps k s0 s) :
    Keeps k s0 (portCtl p ty seq vc s) := by
  unfold portCtl
  repeat' first
    | (with_reducible refine hm.of ?_); exact rfl
    | with_reducible assumption
    | with_reducible apply keeps_portFlit

theorem keeps_portSend {p : Nat} {vc : Nat} {payload : List Byte} {s : State} (hm : Sub 16777232 k) (h : Keeps k s0 s) :
    Keeps k s0 (portSend p vc payload s) := by
  unfold portSend
  repeat' first
    | (with_reducible refine hm.of ?_); exact rfl
    | with_reducible assumption
    | (with_reducible first | apply keeps_ite | apply keeps_putPort | apply keeps_portFlit)

theorem keeps_portPump {p : Nat} {s : State} (hm : Sub 16777232 k) (h : Keeps k s0 s) :
    Keeps k s0 (portPump p s) := by
  unfold portPump
  repeat' first
    | (with_reducible refine hm.of ?_); exact rfl
    | with_reducible assumption
    | (with_reducible first | apply keeps_ite | refine keeps_forAll ?_ fun _ _ _ => ?_ | apply keeps_putPort | apply keeps_portSend)

theorem keeps_emitMsg {m : Msg} {s : State} (hm : Sub 25165840 k) (h : Keeps k s0 s) :
    Keeps k s0 (emitMsg m s) := by
  unfold emitMsg
  repeat' first
    | (with_reducible refine hm.of ?_); exact rfl
    | with_reducible assumption
    | (with_reducible first | apply keeps_ite | refine keeps_forAll ?_ fun _ _ _ => ?_ | apply keeps_addCtr | apply keeps_portSend)
    | split
    | (with_reducible first | apply Keeps.put_out)

theorem keeps_putRx {s : State} {src : Nat} {shub : Nat} {cls : Nat} {r : RxSeq} (hm : Sub 2097152 k) (h : Keeps k s0 s) :
    Keeps k s0 (putRx s src shub cls r) := by
  unfold putRx
  repeat' first
    | (with_reducible refine hm.of ?_); exact rfl
    | with_reducible assumption
    | (with_reducible first | apply Keeps.put_rx)

theorem keeps_fabFault {code : Nat} {peer : Nat} {psn : BitVec 32} {s : State} (hm : Sub 16 k) (h : Keeps k s0 s) :
    Keeps k s0 (fabFault code peer psn s) := by
  unfold fabFault
  repeat' first
    | (with_reducible refine hm.of ?_); exact rfl
    | with_reducible assumption
    | with_reducible apply keeps_recordFirst

theorem keeps_answerMsg {at_ : Nat} {src : Nat} {shub : Nat} {cls : Nat} {psn : BitVec 32} {code : Nat} {s : State} (hm : Sub 27262992 k) (h : Keeps k s0 s) :
    Keeps k s0 (answerMsg at_ src shub cls psn code s) := by
  unfold answerMsg
  repeat' first
    | (with_reducible refine hm.of ?_); exact rfl
    | with_reducible assumption
    | (with_reducible first | apply keeps_ite | apply keeps_bump | apply keeps_emitMsg | apply keeps_putRx | apply keeps_fabFault)

end Sys2Proof.Machine
end

