-- ==== Sys2Proof/Laws/KeepsTiers.lean ====
section
/-! SUPPORT. What the operations of Machine/Tiers.lean keep. -/

namespace Sys2Proof.Machine

variable {k : Nat} {s0 : State}

theorem keeps_putPage {s : State} {k' : Nat} {p : Page} (hm : Sub 4096 k) (h : Keeps k s0 s) :
    Keeps k s0 (putPage s k' p) := by
  unfold putPage
  repeat' first
    | (with_reducible refine hm.of ?_); exact rfl
    | with_reducible assumption
    | (with_reducible first | apply Keeps.put_pages)

theorem keeps_tierFault {code : Nat} {addr : Nat} {s : State} (hm : Sub 16 k) (h : Keeps k s0 s) :
    Keeps k s0 (tierFault code addr s) := by
  unfold tierFault
  repeat' first
    | (with_reducible refine hm.of ?_); exact rfl
    | with_reducible assumption
    | with_reducible apply keeps_recordFirst

theorem keeps_dropCopy {k' : Nat} {s : State} (hm : Sub 4112 k) (h : Keeps k s0 s) :
    Keeps k s0 (dropCopy k' s) := by
  unfold dropCopy
  repeat' first
    | (with_reducible refine hm.of ?_); exact rfl
    | with_reducible assumption
    | (with_reducible first | apply keeps_ite | apply keeps_bump | apply keeps_putPage)

theorem keeps_evictGo {k' : Nat} {s : State} (hm : Sub 4112 k) (h : Keeps k s0 s) :
    Keeps k s0 (evictGo k' s) := by
  unfold evictGo
  repeat' first
    | (with_reducible refine hm.of ?_); exact rfl
    | with_reducible assumption
    | (with_reducible first | apply keeps_ite | apply keeps_putPage | apply keeps_dropCopy)
    | (have x := (); extract_lets +onlyGivenNames x; clear_value x)
    | split

theorem keeps_evictMeets {k' : Nat} {s : State} (hm : Sub 17592186048528 k) (h : Keeps k s0 s) :
    Keeps k s0 (evictMeets k' s) := by
  unfold evictMeets
  repeat' first
    | (with_reducible refine hm.of ?_); exact rfl
    | with_reducible assumption
    | (with_reducible first | apply keeps_ite | apply keeps_bump | apply keeps_raiseEvent | apply keeps_putPage | apply keeps_evictGo)

theorem keeps_evictUntil {tag : BitVec 12} {goal : Nat} {x1 : Nat} {x2 : State} (hm : Sub 17592186048528 k) (h : Keeps k s0 x2) :
    Keeps k s0 (evictUntil tag goal x1 x2) := by
  induction x1 generalizing x2 with
  | zero =>
    unfold evictUntil
    repeat' first
      | (with_reducible refine hm.of ?_); exact rfl
      | with_reducible assumption
      | (with_reducible first | apply keeps_ite | apply keeps_evictMeets)
      | split
  | succ n ih =>
    unfold evictUntil
    repeat' first
      | (with_reducible refine hm.of ?_); exact rfl
      | with_reducible assumption
      | (with_reducible first | apply ih | apply keeps_ite | apply keeps_evictMeets)
      | split

theorem keeps_quotaShed {tag : BitVec 12} {s : State} (hm : Sub 17592186048528 k) (h : Keeps k s0 s) :
    Keeps k s0 (quotaShed tag s) := by
  unfold quotaShed
  repeat' first
    | (with_reducible refine hm.of ?_); exact rfl
    | with_reducible assumption
    | (with_reducible first | apply keeps_ite | apply keeps_evictUntil)

theorem keeps_shedAll {s : State} (hm : Sub 17592186048528 k) (h : Keeps k s0 s) :
    Keeps k s0 (shedAll s) := by
  unfold shedAll
  repeat' first
    | (with_reducible refine hm.of ?_); exact rfl
    | with_reducible assumption
    | (with_reducible first | refine keeps_forAll ?_ fun _ _ _ => ?_ | apply keeps_quotaShed)

theorem keeps_cremaRoom {tag : BitVec 12} {sz : Nat} {key : Nat} {pref : Nat} {s : State} (hm : Sub 17592186048528 k) (h : Keeps k s0 s) :
    Keeps k s0 ((cremaRoom tag sz key pref s).2) := by
  unfold cremaRoom
  repeat' first
    | (with_reducible refine hm.of ?_); exact rfl
    | with_reducible assumption
    | (with_reducible first | apply keeps_ite | apply keeps_evictUntil | apply keeps_shedAll)
    | (have x := (); extract_lets +onlyGivenNames x; refine keeps_cut k s0 x ?_ fun _ => ?_; rotate_left; clear_value x)
    | ((have x := (); extract_lets +onlyGivenNames x; first | (have u : Stores := x; clear u) | (have u : Mem := x; clear u) | (have u := fun a => x a; clear u)); dsimp -zeta only [x]; clear x)
    | (have x := (); extract_lets +onlyGivenNames x; clear_value x)
    | split

theorem keeps_promoteGo {k' : Nat} {f : BitVec 25} {copy : Bool} {s : State} (hm : Sub 4112 k) (h : Keeps k s0 s) :
    Keeps k s0 (promoteGo k' f copy s) := by
  unfold promoteGo
  repeat' first
    | (with_reducible refine hm.of ?_); exact rfl
    | with_reducible assumption
    | (with_reducible first | apply keeps_ite | apply keeps_bump | apply keeps_putPage)

theorem keeps_holdPromote {k' : Nat} {die : Nat} {first : Bool} {s : State} (hm : Sub 17592186048528 k) (h : Keeps k s0 s) :
    Keeps k s0 (holdPromote k' die first s) := by
  unfold holdPromote
  repeat' first
    | (with_reducible refine hm.of ?_); exact rfl
    | with_reducible assumption
    | (with_reducible first | apply keeps_ite | apply keeps_bump | apply keeps_putPage | apply keeps_cremaRoom | apply keeps_promoteGo | refine keeps_of (by assumption) ?_)
    | (have x := (); extract_lets +onlyGivenNames x; clear_value x)
    | split

theorem keeps_giveHold {k' : Nat} {s : State} (hm : Sub 4096 k) (h : Keeps k s0 s) :
    Keeps k s0 (giveHold k' s) := by
  unfold giveHold
  repeat' first
    | (with_reducible refine hm.of ?_); exact rfl
    | with_reducible assumption
    | with_reducible apply keeps_putPage

theorem keeps_pendingEvictions {s : State} (hm : Sub 4112 k) (h : Keeps k s0 s) :
    Keeps k s0 (pendingEvictions s) := by
  unfold pendingEvictions
  repeat' first
    | (with_reducible refine hm.of ?_); exact rfl
    | with_reducible assumption
    | (with_reducible first | apply keeps_ite | refine keeps_forAll ?_ fun _ _ _ => ?_ | apply keeps_evictGo)

theorem keeps_autoPromote {k' : Nat} {die : Nat} {s : State} (hm : Sub 17592186048528 k) (h : Keeps k s0 s) :
    Keeps k s0 (autoPromote k' die s) := by
  unfold autoPromote
  repeat' first
    | (with_reducible refine hm.of ?_); exact rfl
    | with_reducible assumption
    | (with_reducible first | apply keeps_ite | apply keeps_putPage | apply keeps_cremaRoom | apply keeps_promoteGo | refine keeps_of (by assumption) ?_)
    | split

theorem keeps_closePage {k' : Nat} {s : State} (hm : Sub 69632 k) (h : Keeps k s0 s) :
    Keeps k s0 (closePage k' s) := by
  unfold closePage
  repeat' first
    | (with_reducible refine hm.of ?_); exact rfl
    | with_reducible assumption
    | (with_reducible first | apply keeps_ite | apply keeps_putPage | apply keeps_putJob)

theorem keeps_unclosePage {k' : Nat} {s : State} (hm : Sub 69632 k) (h : Keeps k s0 s) :
    Keeps k s0 (unclosePage k' s) := by
  unfold unclosePage
  repeat' first
    | (with_reducible refine hm.of ?_); exact rfl
    | with_reducible assumption
    | (with_reducible first | apply keeps_ite | apply keeps_putPage | apply keeps_putJob)

theorem keeps_sealWritten {k' : Nat} {s : State} (hm : Sub 69632 k) (h : Keeps k s0 s) :
    Keeps k s0 (sealWritten k' s) := by
  unfold sealWritten
  repeat' first
    | (with_reducible refine hm.of ?_); exact rfl
    | with_reducible assumption
    | (with_reducible first | apply keeps_ite | apply keeps_closePage)

theorem keeps_sealPage {k' : Nat} {s : State} (hm : Sub 69632 k) (h : Keeps k s0 s) :
    Keeps k s0 (sealPage k' s) := by
  unfold sealPage
  repeat' first
    | (with_reducible refine hm.of ?_); exact rfl
    | with_reducible assumption
    | (with_reducible first | apply keeps_closePage | apply keeps_putPage)

theorem keeps_setHint {k' : Nat} {h' : BitVec 3} {s : State} (hm : Sub 18141941928400 k) (h : Keeps k s0 s) :
    Keeps k s0 ((setHint k' h' s).2) := by
  unfold setHint
  repeat' first
    | (with_reducible refine hm.of ?_); exact rfl
    | with_reducible assumption
    | (with_reducible first | apply keeps_raiseFault | apply keeps_tierFault | apply keeps_putPage | apply keeps_unclosePage | apply keeps_cremaRoom | apply keeps_promoteGo | apply keeps_dropCopy | refine keeps_of (by assumption) ?_)
    | ((have x := (); extract_lets +onlyGivenNames x; first | (have u : Stores := x; clear u) | (have u : Mem := x; clear u) | (have u := fun a => x a; clear u)); dsimp -zeta only [x]; clear x)
    | (have x := (); extract_lets +onlyGivenNames x; clear_value x)
    | split

theorem keeps_tierStatus {code : Nat} {refused : Bool} {s : State} (hm : Sub 16 k) (h : Keeps k s0 s) :
    Keeps k s0 (tierStatus code refused s) := by
  unfold tierStatus
  repeat' first
    | (with_reducible refine hm.of ?_); exact rfl
    | with_reducible assumption
    | (with_reducible first | apply keeps_ite | apply keeps_setReg | apply keeps_bump)

theorem keeps_hintDue {k' : Nat} {s : State} (hm : Sub 18141941928400 k) (h : Keeps k s0 s) :
    Keeps k s0 (hintDue k' s) := by
  unfold hintDue
  repeat' first
    | (with_reducible refine hm.of ?_); exact rfl
    | with_reducible assumption
    | (with_reducible first | apply keeps_ite | apply keeps_setHint | apply keeps_tierStatus | apply keeps_putPage | refine keeps_of (by assumption) ?_)
    | (have x := (); extract_lets +onlyGivenNames x; clear_value x)
    | split

theorem keeps_evictCancel {k' : Nat} {s : State} (hm : Sub 18141941928400 k) (h : Keeps k s0 s) :
    Keeps k s0 (evictCancel k' s) := by
  unfold evictCancel
  repeat' first
    | (with_reducible refine hm.of ?_); exact rfl
    | with_reducible assumption
    | (with_reducible first | apply keeps_ite | apply keeps_bump | apply keeps_hintDue | apply keeps_putPage)

theorem keeps_takeHold {k' : Nat} {s : State} (hm : Sub 18141941928400 k) (h : Keeps k s0 s) :
    Keeps k s0 ((takeHold k' s).2) := by
  unfold takeHold
  repeat' first
    | (with_reducible refine hm.of ?_); exact rfl
    | with_reducible assumption
    | (with_reducible first | apply keeps_bump | apply keeps_putPage | apply keeps_evictCancel)
    | (have x := (); extract_lets +onlyGivenNames x; clear_value x)
    | split

theorem keeps_placePage {k' : Nat} {s : State} (hm : Sub 18141941928400 k) (h : Keeps k s0 s) :
    Keeps k s0 ((placePage k' s).2) := by
  unfold placePage
  repeat' first
    | (with_reducible refine hm.of ?_); exact rfl
    | with_reducible assumption
    | (with_reducible first | apply keeps_raiseFault | apply keeps_tierFault | apply keeps_putPage | apply keeps_cremaRoom | refine keeps_of (by assumption) ?_)
    | ((have x := (); extract_lets +onlyGivenNames x; first | (have u : Stores := x; clear u) | (have u : Mem := x; clear u) | (have u := fun a => x a; clear u)); dsimp -zeta only [x]; clear x)
    | (have x := (); extract_lets +onlyGivenNames x; clear_value x)
    | split

theorem keeps_mapPage {tag : BitVec 12} {addr : Nat} {sz : Nat} {hint : BitVec 3} {s : State} (hm : Sub 18141941928400 k) (h : Keeps k s0 s) :
    Keeps k s0 ((mapPage tag addr sz hint s).2) := by
  unfold mapPage
  repeat' first
    | (with_reducible refine hm.of ?_); exact rfl
    | with_reducible assumption
    | (with_reducible first | apply keeps_placePage | apply keeps_putPage)
    | (have x := (); extract_lets +onlyGivenNames x; clear_value x)
    | split

theorem keeps_clearFlips {addr : Nat} {n : Nat} {s : State} (hm : Sub 8796093022208 k) (h : Keeps k s0 s) :
    Keeps k s0 (clearFlips addr n s) := by
  unfold clearFlips
  repeat' first
    | (with_reducible refine hm.of ?_); exact rfl
    | with_reducible assumption
    | (with_reducible first | apply Keeps.put_flips)

theorem keeps_countCorrected {addr : Nat} {n : Nat} {s : State} (hm : Sub 16 k) (h : Keeps k s0 s) :
    Keeps k s0 (countCorrected addr n s) := by
  unfold countCorrected
  repeat' first
    | (with_reducible refine hm.of ?_); exact rfl
    | with_reducible assumption
    | (with_reducible first | apply keeps_ite | apply keeps_addCtr)

theorem keeps_fillDone {k' : Nat} {s : State} (hm : Sub 8800387993600 k) (h : Keeps k s0 s) :
    Keeps k s0 (fillDone k' s) := by
  unfold fillDone
  repeat' first
    | (with_reducible refine hm.of ?_); exact rfl
    | with_reducible assumption
    | intro _
    | (with_reducible first | apply keeps_ite | apply keeps_clearFlips | apply keeps_putPage | exact memZero_wf _ _ (by assumption))
    | (have x := (); extract_lets +onlyGivenNames x; refine keeps_cut k s0 x ?_ fun _ => ?_; rotate_left; clear_value x)
    | ((have x := (); extract_lets +onlyGivenNames x; first | (have u : Stores := x; clear u) | (have u : Mem := x; clear u) | (have u := fun a => x a; clear u)); dsimp -zeta only [x]; clear x)
    | (with_reducible first | apply Keeps.put_mTensor)

theorem keeps_dieAlarm {page : Nat} {code : Nat} {die : Nat} {tag : BitVec 12} {s : State} (hm : Sub 18141941924304 k) (h : Keeps k s0 s) :
    Keeps k s0 (dieAlarm page code die tag s) := by
  unfold dieAlarm
  repeat' first
    | (with_reducible refine hm.of ?_); exact rfl
    | with_reducible assumption
    | (with_reducible first | apply keeps_raiseFault | apply keeps_alarm)

theorem keeps_readEcc {p : Page} {die : Nat} {addr : Nat} {s : State} (hm : Sub 18141941957072 k) (h : Keeps k s0 s) :
    Keeps k s0 ((readEcc p die addr s).2) := by
  unfold readEcc
  repeat' first
    | (with_reducible refine hm.of ?_); exact rfl
    | with_reducible assumption
    | (with_reducible first | apply keeps_dieAlarm | apply keeps_tierFault | apply keeps_takeArmed | refine keeps_of (by assumption) ?_)
    | (have x := (); extract_lets +onlyGivenNames x; clear_value x)
    | split

theorem keeps_putDesc {c : Nat} {r : Nat} {d : Desc} {s : State} (hm : Sub 128 k) (h : Keeps k s0 s) :
    Keeps k s0 (putDesc c r d s) := by
  unfold putDesc
  repeat' first
    | (with_reducible refine hm.of ?_); exact rfl
    | with_reducible assumption
    | with_reducible apply keeps_putRing

theorem keeps_countEntryRead {own : TOwner} {slot : Nat} {s : State} (hm : Sub 4240 k) (h : Keeps k s0 s) :
    Keeps k s0 (countEntryRead own slot s) := by
  unfold countEntryRead
  repeat' first
    | (with_reducible refine hm.of ?_); exact rfl
    | with_reducible assumption
    | (with_reducible first | apply keeps_ite | apply keeps_bump | apply keeps_putDesc | apply keeps_putPage)
    | (have x := (); extract_lets +onlyGivenNames x; refine keeps_cut k s0 x ?_ fun _ => ?_; rotate_left; clear_value x)
    | split

theorem keeps_slotBad {slot : Nat} {s : State} (hm : Sub 70368744185856 k) (h : Keeps k s0 s) :
    Keeps k s0 (slotBad slot s) := by
  unfold slotBad
  repeat' first
    | (with_reducible refine hm.of ?_); exact rfl
    | with_reducible assumption
    | with_reducible apply keeps_ite
    | split
    | (with_reducible first | apply Keeps.put_badSlots_lost | apply Keeps.put_badSlots | apply Keeps.put_lost)

theorem keeps_entryCheck {tag : BitVec 12} {slot : Nat} {s : State} (hm : Sub 88510686142928 k) (h : Keeps k s0 s) :
    Keeps k s0 ((entryCheck tag slot s).2) := by
  unfold entryCheck
  repeat' first
    | (with_reducible refine hm.of ?_); exact rfl
    | with_reducible assumption
    | (with_reducible first | apply keeps_ite | apply keeps_raiseFault | apply keeps_alarm | apply keeps_tierFault | apply keeps_rinseCount | apply keeps_takeArmed | apply keeps_slotBad | refine keeps_of (by assumption) ?_)
    | split

theorem keeps_readSlot {own : TOwner} {tag : BitVec 12} {die : Nat} {addr : Nat} {slot : Nat} {q : Nat × State} (hm : Sub 88510686147024 k) (h : Keeps k s0 q.2) :
    Keeps k s0 ((readSlot own tag die addr slot q).2) := by
  unfold readSlot
  repeat' first
    | (with_reducible refine hm.of ?_); exact rfl
    | with_reducible assumption
    | (with_reducible first | apply keeps_countEntryRead | apply keeps_autoPromote | apply keeps_entryCheck | apply keeps_readEcc)
    | (have x := (); extract_lets +onlyGivenNames x; refine keeps_cut2 k s0 x ?_ fun _ => ?_; rotate_left; clear_value x)
    | split

theorem keeps_tensorRead {own : TOwner} {tag : BitVec 12} {die : Nat} {addr : Nat} {n : Nat} {s : State} (hm : Sub 88510686147024 k) (h : Keeps k s0 s) :
    Keeps k s0 ((tensorRead own tag die addr n s).2.2) := by
  unfold tensorRead
  repeat' first
    | (with_reducible refine hm.of ?_); exact rfl
    | with_reducible assumption
    | (with_reducible first | refine keeps_foldl2 (fun _ _ _ => ?_) _ _ ?_ | apply keeps_readSlot | apply keeps_countCorrected)
    | (have x := (); extract_lets +onlyGivenNames x; refine keeps_cut2 k s0 x ?_ fun _ => ?_; rotate_left; clear_value x)
    | split

theorem keeps_tensorStore {addr : Nat} {l : List Byte} {s : State} (hm : Sub 8800387989504 k) (h : Keeps k s0 s) :
    Keeps k s0 (tensorStore addr l s) := by
  unfold tensorStore
  repeat' first
    | (with_reducible refine hm.of ?_); exact rfl
    | with_reducible assumption
    | intro _
    | (with_reducible first | apply keeps_clearFlips | exact memWrite_wf _ _ (by assumption))
    | (have x := (); extract_lets +onlyGivenNames x; refine keeps_cut k s0 x ?_ fun _ => ?_; rotate_left; clear_value x)
    | ((have x := (); extract_lets +onlyGivenNames x; first | (have u : Stores := x; clear u) | (have u : Mem := x; clear u) | (have u := fun a => x a; clear u)); dsimp -zeta only [x]; clear x)
    | (with_reducible first | apply Keeps.put_mTensor)

theorem keeps_writeWait {own : TOwner} {die : Nat} {k' : Nat} {addr : Nat} {l : List Byte} {s : State} (hm : Sub 18141941944784 k) (h : Keeps k s0 s) :
    Keeps k s0 (writeWait own die k' addr l s) := by
  unfold writeWait
  repeat' first
    | (with_reducible refine hm.of ?_); exact rfl
    | with_reducible assumption
    | (with_reducible first | apply keeps_ite | apply keeps_bump | apply keeps_takeHold | apply keeps_holdPromote)
    | (have x := (); extract_lets +onlyGivenNames x; refine keeps_cut k s0 x ?_ fun _ => ?_; rotate_left; clear_value x)
    | (with_reducible first | apply Keeps.put_writes)

theorem keeps_writePiece {own : TOwner} {die : Nat} {k' : Nat} {addr : Nat} {l : List Byte} {s : State} (hm : Sub 26942329934288 k) (h : Keeps k s0 s) :
    Keeps k s0 ((writePiece own die k' addr l s).2) := by
  unfold writePiece
  repeat' first
    | (with_reducible refine hm.of ?_); exact rfl
    | with_reducible assumption
    | (with_reducible first | apply keeps_tensorStore | apply keeps_writeWait | apply keeps_tierFault | apply keeps_putPage | apply keeps_evictCancel)
    | (have x := (); extract_lets +onlyGivenNames x; refine keeps_cut k s0 x ?_ fun _ => ?_; rotate_left; clear_value x)
    | (have x := (); extract_lets +onlyGivenNames x; clear_value x)
    | split

theorem keeps_noteWrote {own : TOwner} {k' : Nat} {s : State} (hm : Sub 128 k) (h : Keeps k s0 s) :
    Keeps k s0 (noteWrote own k' s) := by
  unfold noteWrote
  repeat' first
    | (with_reducible refine hm.of ?_); exact rfl
    | with_reducible assumption
    | (with_reducible first | apply keeps_ite | apply keeps_putDesc)
    | split

theorem keeps_writeSlot {own : TOwner} {tag : BitVec 12} {die : Nat} {addr : Nat} {l : List Byte} {slot : Nat} {q : Nat × State} (hm : Sub 97311074152912 k) (h : Keeps k s0 q.2) :
    Keeps k s0 ((writeSlot own tag die addr l slot q).2) := by
  unfold writeSlot
  repeat' first
    | (with_reducible refine hm.of ?_); exact rfl
    | with_reducible assumption
    | (with_reducible first | apply keeps_countEntryRead | apply keeps_writePiece | apply keeps_noteWrote | apply keeps_entryCheck)
    | (have x := (); extract_lets +onlyGivenNames x; refine keeps_cut2 k s0 x ?_ fun _ => ?_; rotate_left; clear_value x)
    | (have x := (); extract_lets +onlyGivenNames x; clear_value x)
    | split

theorem keeps_tensorWrite {own : TOwner} {tag : BitVec 12} {die : Nat} {addr : Nat} {l : List Byte} {s : State} (hm : Sub 97311074152912 k) (h : Keeps k s0 s) :
    Keeps k s0 ((tensorWrite own tag die addr l s).2) := by
  unfold tensorWrite
  repeat' first
    | (with_reducible refine hm.of ?_); exact rfl
    | with_reducible assumption
    | (with_reducible first | refine keeps_foldl2 (fun _ _ _ => ?_) _ _ ?_ | apply keeps_writeSlot)
    | split

theorem keeps_dropWrites {own : TOwner} {s : State} (hm : Sub 20480 k) (h : Keeps k s0 s) :
    Keeps k s0 (dropWrites own s) := by
  unfold dropWrites
  repeat' first
    | (with_reducible refine hm.of ?_); exact rfl
    | with_reducible assumption
    | (with_reducible first | refine keeps_forAll ?_ fun _ _ _ => ?_ | apply keeps_giveHold)
    | (with_reducible first | apply Keeps.put_writes)

theorem keeps_commitLanded {tag : BitVec 12} {shard : BitVec 24} {s : State} (hm : Sub 65552 k) (h : Keeps k s0 s) :
    Keeps k s0 (commitLanded tag shard s) := by
  unfold commitLanded
  repeat' first
    | (with_reducible refine hm.of ?_); exact rfl
    | with_reducible assumption
    | (with_reducible first | apply keeps_bump | apply keeps_putJob)

theorem keeps_writeLand {w : TWrite} {s : State} (hm : Sub 8800388055056 k) (h : Keeps k s0 s) :
    Keeps k s0 (writeLand w s) := by
  unfold writeLand
  repeat' first
    | (with_reducible refine hm.of ?_); exact rfl
    | with_reducible assumption
    | (with_reducible first | apply keeps_tensorStore | apply keeps_commitLanded)
    | (have x := (); extract_lets +onlyGivenNames x; refine keeps_cut k s0 x ?_ fun _ => ?_; rotate_left; clear_value x)
    | split

theorem keeps_landWrites {k' : Nat} {s : State} (hm : Sub 8800388075536 k) (h : Keeps k s0 s) :
    Keeps k s0 (landWrites k' s) := by
  unfold landWrites
  repeat' first
    | (with_reducible refine hm.of ?_); exact rfl
    | with_reducible assumption
    | (with_reducible first | apply keeps_ite | refine keeps_forAll ?_ fun _ _ _ => ?_ | apply keeps_giveHold | apply keeps_putPage | apply keeps_writeLand)
    | split
    | (with_reducible first | apply Keeps.put_writes)

theorem keeps_retryPage {k' : Nat} {s : State} (hm : Sub 18141941928400 k) (h : Keeps k s0 s) :
    Keeps k s0 (retryPage k' s) := by
  unfold retryPage
  repeat' first
    | (with_reducible refine hm.of ?_); exact rfl
    | with_reducible assumption
    | (with_reducible first | apply keeps_ite | apply keeps_tierStatus | apply keeps_placePage | apply keeps_hintDue | apply keeps_autoPromote | apply keeps_holdPromote | refine keeps_of (by assumption) ?_)
    | split

theorem keeps_tierSettle {s : State} (hm : Sub 18141941928400 k) (h : Keeps k s0 s) :
    Keeps k s0 (tierSettle s) := by
  unfold tierSettle
  repeat' first
    | (with_reducible refine hm.of ?_); exact rfl
    | with_reducible assumption
    | (with_reducible first | refine keeps_forAll ?_ fun _ _ _ => ?_ | apply keeps_retryPage | apply keeps_shedAll)

theorem keeps_tierTick {s : State} (hm : Sub 18141941928400 k) (h : Keeps k s0 s) :
    Keeps k s0 (tierTick s) := by
  unfold tierTick
  repeat' first
    | (with_reducible refine hm.of ?_); exact rfl
    | with_reducible assumption
    | (with_reducible first | apply keeps_tierSettle | apply keeps_pendingEvictions)

theorem keeps_moveEnd {k' : Nat} {s : State} (hm : Sub 26942329934288 k) (h : Keeps k s0 s) :
    Keeps k s0 (moveEnd k' s) := by
  unfold moveEnd
  repeat' first
    | (with_reducible refine hm.of ?_); exact rfl
    | with_reducible assumption
    | (with_reducible first | apply keeps_hintDue | apply keeps_tierSettle | apply keeps_landWrites)

theorem keeps_moveCommit {k' : Nat} {s : State} (hm : Sub 26942329967056 k) (h : Keeps k s0 s) :
    Keeps k s0 (moveCommit k' s) := by
  unfold moveCommit
  repeat' first
    | (with_reducible refine hm.of ?_); exact rfl
    | with_reducible assumption
    | (with_reducible first | apply keeps_ite | apply keeps_bump | apply keeps_clearFlips | apply keeps_moveEnd | apply keeps_putPage | apply keeps_countCorrected | apply keeps_readEcc)
    | ((have x := (); extract_lets +onlyGivenNames x; first | (have u : Stores := x; clear u) | (have u : Mem := x; clear u) | (have u := fun a => x a; clear u)); dsimp -zeta only [x]; clear x)
    | (have x := (); extract_lets +onlyGivenNames x; clear_value x)
    | split

theorem keeps_onPage {tag : BitVec 12} {addr : Nat} {s : State} {f : Nat → Page → State → State} (hm : Sub 16 k) (h : Keeps k s0 s) (hf : ∀ (y0 : Nat) (y1 : Page) (y2 : State), Keeps k s0 y2 → Keeps k s0 (f y0 y1 y2)) :
    Keeps k s0 (onPage tag addr s f) := by
  unfold onPage
  repeat' first
    | (with_reducible refine hm.of ?_); exact rfl
    | with_reducible assumption
    | (with_reducible first | apply keeps_ite | apply keeps_tierStatus | apply keeps_rinseCount | apply hf)
    | split

theorem keeps_unmapPage {tag : BitVec 12} {addr : Nat} {s : State} (hm : Sub 18141941928400 k) (h : Keeps k s0 s) :
    Keeps k s0 (unmapPage tag addr s) := by
  unfold unmapPage
  repeat' first
    | (with_reducible refine hm.of ?_); exact rfl
    | with_reducible assumption
    | intro _
    | (with_reducible first | apply keeps_ite | apply keeps_onPage | apply keeps_tierStatus | apply keeps_tierSettle | apply keeps_putPage | apply keeps_unclosePage | apply keeps_dropCopy)

theorem keeps_hintPage {tag : BitVec 12} {addr : Nat} {h' : BitVec 3} {s : State} (hm : Sub 18141941928400 k) (h : Keeps k s0 s) :
    Keeps k s0 (hintPage tag addr h' s) := by
  unfold hintPage
  repeat' first
    | (with_reducible refine hm.of ?_); exact rfl
    | with_reducible assumption
    | intro _
    | (with_reducible first | apply keeps_ite | apply keeps_onPage | apply keeps_tierStatus | apply keeps_setReg | apply keeps_hintDue | apply keeps_tierSettle | apply keeps_putPage)

theorem keeps_promotePage {tag : BitVec 12} {addr : Nat} {s : State} (hm : Sub 18141941928400 k) (h : Keeps k s0 s) :
    Keeps k s0 (promotePage tag addr s) := by
  unfold promotePage
  repeat' first
    | (with_reducible refine hm.of ?_); exact rfl
    | with_reducible assumption
    | intro _
    | (with_reducible first | apply keeps_ite | apply keeps_onPage | apply keeps_tierStatus | apply keeps_takeHold | apply keeps_holdPromote | refine keeps_of (by assumption) ?_)
    | split

theorem keeps_releasePage {tag : BitVec 12} {addr : Nat} {s : State} (hm : Sub 4112 k) (h : Keeps k s0 s) :
    Keeps k s0 (releasePage tag addr s) := by
  unfold releasePage
  repeat' first
    | (with_reducible refine hm.of ?_); exact rfl
    | with_reducible assumption
    | intro _
    | (with_reducible first | apply keeps_ite | apply keeps_onPage | apply keeps_tierStatus | apply keeps_giveHold)

theorem keeps_evictPage {tag : BitVec 12} {addr : Nat} {s : State} (hm : Sub 17592186048528 k) (h : Keeps k s0 s) :
    Keeps k s0 (evictPage tag addr s) := by
  unfold evictPage
  repeat' first
    | (with_reducible refine hm.of ?_); exact rfl
    | with_reducible assumption
    | intro _
    | (with_reducible first | apply keeps_ite | apply keeps_onPage | apply keeps_tierStatus | apply keeps_evictMeets)

theorem keeps_mapCommand {tag : BitVec 12} {addr : Nat} {sz : Nat} {hint : BitVec 3} {s : State} (hm : Sub 18141941928400 k) (h : Keeps k s0 s) :
    Keeps k s0 (mapCommand tag addr sz hint s) := by
  unfold mapCommand
  repeat' first
    | (with_reducible refine hm.of ?_); exact rfl
    | with_reducible assumption
    | (with_reducible first | apply keeps_mapPage | apply keeps_tierStatus | apply keeps_setReg | refine keeps_of (by assumption) ?_)
    | split

theorem keeps_tierCmd {v : Word} {s : State} (hm : Sub 18141941928400 k) (h : Keeps k s0 s) :
    Keeps k s0 (tierCmd v s) := by
  unfold tierCmd
  repeat' first
    | (with_reducible refine hm.of ?_); exact rfl
    | with_reducible assumption
    | (with_reducible first | apply keeps_ite | apply keeps_mapCommand | apply keeps_tierStatus | apply keeps_promotePage | apply keeps_unmapPage | apply keeps_evictPage | apply keeps_releasePage | apply keeps_hintPage)
    | split

theorem keeps_quotaWrite {tag : BitVec 12} {v : Nat} {s : State} (hm : Sub 18141941928400 k) (h : Keeps k s0 s) :
    Keeps k s0 (quotaWrite tag v s) := by
  unfold quotaWrite
  repeat' first
    | (with_reducible refine hm.of ?_); exact rfl
    | with_reducible assumption
    | (with_reducible first | apply keeps_tierSettle | apply keeps_putJob)

theorem keeps_tierQuery {addr : Nat} {s : State} (hm : Sub 16 k) (h : Keeps k s0 s) :
    Keeps k s0 (tierQuery addr s) := by
  unfold tierQuery
  repeat' first
    | (with_reducible refine hm.of ?_); exact rfl
    | with_reducible assumption
    | (with_reducible first | apply keeps_ite | apply keeps_setReg)
    | ((have x := (); extract_lets +onlyGivenNames x; first | (have u : Stores := x; clear u) | (have u : Mem := x; clear u) | (have u := fun a => x a; clear u)); dsimp -zeta only [x]; clear x)
    | (have x := (); extract_lets +onlyGivenNames x; clear_value x)
    | split

theorem keeps_tierAge {s : State} (hm : Sub 4096 k) (h : Keeps k s0 s) :
    Keeps k s0 (tierAge s) := by
  unfold tierAge
  repeat' first
    | (with_reducible refine hm.of ?_); exact rfl
    | with_reducible assumption
    | with_reducible apply keeps_ite
    | (with_reducible first | apply Keeps.put_pages)

theorem keeps_retryHolds {mine : TWrite → Bool} {s : State} (hm : Sub 18141941944784 k) (h : Keeps k s0 s) :
    Keeps k s0 (retryHolds mine s) := by
  unfold retryHolds
  repeat' first
    | (with_reducible refine hm.of ?_); exact rfl
    | with_reducible assumption
    | (with_reducible first | refine keeps_forAll ?_ fun _ _ _ => ?_ | apply keeps_takeHold | apply keeps_holdPromote | refine keeps_of (by assumption) ?_)
    | split
    | (with_reducible first | apply Keeps.put_writes)

theorem keeps_holdRetry {c : Nat} {r : Nat} {s : State} (hm : Sub 18141941944784 k) (h : Keeps k s0 s) :
    Keeps k s0 (holdRetry c r s) := by
  unfold holdRetry
  repeat' first
    | (with_reducible refine hm.of ?_); exact rfl
    | with_reducible assumption
    | with_reducible apply keeps_retryHolds

theorem keeps_execTierMap {tag : BitVec 12} {addr : BitVec 48} {sz : BitVec 4} {hint : BitVec 3} {s : State} (hm : Sub 18141941928400 k) (h : Keeps k s0 s) :
    KeepsR k s0 (execTierMap tag addr sz hint s) := by
  unfold execTierMap
  repeat' first
    | (with_reducible refine hm.of ?_); exact rfl
    | with_reducible assumption
    | (with_reducible first | apply keepsR_next | apply keeps_mapCommand)

theorem keeps_execMapFillDone {addr : BitVec 48} {s : State} (hm : Sub 8800387993616 k) (h : Keeps k s0 s) :
    KeepsR k s0 (execMapFillDone addr s) := by
  unfold execMapFillDone
  repeat' first
    | (with_reducible refine hm.of ?_); exact rfl
    | with_reducible assumption
    | (with_reducible first | apply keepsR_next | apply keeps_ite | apply keeps_tierStatus | apply keeps_fillDone)
    | split

theorem keeps_execTierUnmap {tag : BitVec 12} {addr : BitVec 48} {s : State} (hm : Sub 18141941928400 k) (h : Keeps k s0 s) :
    KeepsR k s0 (execTierUnmap tag addr s) := by
  unfold execTierUnmap
  repeat' first
    | (with_reducible refine hm.of ?_); exact rfl
    | with_reducible assumption
    | (with_reducible first | apply keepsR_next | apply keeps_unmapPage)

theorem keeps_execTierHint {tag : BitVec 12} {addr : BitVec 48} {hint : BitVec 3} {s : State} (hm : Sub 18141941928400 k) (h : Keeps k s0 s) :
    KeepsR k s0 (execTierHint tag addr hint s) := by
  unfold execTierHint
  repeat' first
    | (with_reducible refine hm.of ?_); exact rfl
    | with_reducible assumption
    | (with_reducible first | apply keepsR_next | apply keeps_hintPage)

theorem keeps_execPromote {tag : BitVec 12} {addr : BitVec 48} {s : State} (hm : Sub 18141941928400 k) (h : Keeps k s0 s) :
    KeepsR k s0 (execPromote tag addr s) := by
  unfold execPromote
  repeat' first
    | (with_reducible refine hm.of ?_); exact rfl
    | with_reducible assumption
    | (with_reducible first | apply keepsR_next | apply keeps_promotePage)

theorem keeps_execTierRelease {tag : BitVec 12} {addr : BitVec 48} {s : State} (hm : Sub 4112 k) (h : Keeps k s0 s) :
    KeepsR k s0 (execTierRelease tag addr s) := by
  unfold execTierRelease
  repeat' first
    | (with_reducible refine hm.of ?_); exact rfl
    | with_reducible assumption
    | (with_reducible first | apply keepsR_next | apply keeps_releasePage)

theorem keeps_execEvict {tag : BitVec 12} {addr : BitVec 48} {s : State} (hm : Sub 17592186048528 k) (h : Keeps k s0 s) :
    KeepsR k s0 (execEvict tag addr s) := by
  unfold execEvict
  repeat' first
    | (with_reducible refine hm.of ?_); exact rfl
    | with_reducible assumption
    | (with_reducible first | apply keepsR_next | apply keeps_evictPage)

theorem keeps_execMoveCommit {addr : BitVec 48} {s : State} (hm : Sub 26942329967056 k) (h : Keeps k s0 s) :
    KeepsR k s0 (execMoveCommit addr s) := by
  unfold execMoveCommit
  repeat' first
    | (with_reducible refine hm.of ?_); exact rfl
    | with_reducible assumption
    | (with_reducible first | apply keepsR_next | apply keeps_moveCommit)
    | split

theorem keeps_execTierAge {s : State} (hm : Sub 4096 k) (h : Keeps k s0 s) :
    KeepsR k s0 (execTierAge s) := by
  unfold execTierAge
  repeat' first
    | (with_reducible refine hm.of ?_); exact rfl
    | with_reducible assumption
    | (with_reducible first | apply keepsR_next | apply keeps_tierAge)

theorem keeps_execHoldRetry {c : Nat} {ring : BitVec 6} {s : State} (hm : Sub 18141941944784 k) (h : Keeps k s0 s) :
    KeepsR k s0 (execHoldRetry c ring s) := by
  unfold execHoldRetry
  repeat' first
    | (with_reducible refine hm.of ?_); exact rfl
    | with_reducible assumption
    | intro _
    | (with_reducible first | apply keeps_onCluster | apply keeps_holdRetry)

theorem keeps_execTierQuery {addr : BitVec 48} {s : State} (hm : Sub 16 k) (h : Keeps k s0 s) :
    KeepsR k s0 (execTierQuery addr s) := by
  unfold execTierQuery
  repeat' first
    | (with_reducible refine hm.of ?_); exact rfl
    | with_reducible assumption
    | (with_reducible first | apply keepsR_next | apply keeps_tierQuery)

end Sys2Proof.Machine
end

