-- ==== Sys2Proof/Laws/KeepsLease.lean ====
section
/-! SUPPORT. What the operations of Machine/Lease.lean keep. -/

namespace Sys2Proof.Machine

variable {k : Nat} {s0 : State}

theorem keeps_putLease {s : State} {tag : BitVec 12} {shard : BitVec 24} {r : LeaseRec} (hm : Sub 65536 k) (h : Keeps k s0 s) :
    Keeps k s0 (putLease s tag shard r) := by
  unfold putLease
  repeat' first
    | (with_reducible refine hm.of ?_); exact rfl
    | with_reducible assumption
    | with_reducible apply keeps_putJob

theorem keeps_markVeto {tag : BitVec 12} {g : BitVec 48} {s : State} (hm : Sub 65536 k) (h : Keeps k s0 s) :
    Keeps k s0 (markVeto tag g s) := by
  unfold markVeto
  repeat' first
    | (with_reducible refine hm.of ?_); exact rfl
    | with_reducible assumption
    | (with_reducible first | apply keeps_ite | apply keeps_putJob)

theorem keeps_leaseFault {code : Nat} {owner : Nat} {g : BitVec 48} {shard : BitVec 24} {tag : BitVec 12} {s : State} (hm : Sub 18141941924304 k) (h : Keeps k s0 s) :
    Keeps k s0 (leaseFault code owner g shard tag s) := by
  unfold leaseFault
  repeat' first
    | (with_reducible refine hm.of ?_); exact rfl
    | with_reducible assumption
    | (with_reducible first | apply keeps_raiseFault | apply keeps_recordFirst)

theorem keeps_leaseNew {tag : BitVec 12} {shard : BitVec 24} {g : BitVec 48} {n : Nat} {group : Nat} {collId : Nat} {s : State} (hm : Sub 65552 k) (h : Keeps k s0 s) :
    Keeps k s0 ((leaseNew tag shard g n group collId s).2) := by
  unfold leaseNew
  repeat' first
    | (with_reducible refine hm.of ?_); exact rfl
    | with_reducible assumption
    | (with_reducible first | apply keeps_bump | apply keeps_putLease)
    | split

theorem keeps_leaseAgain {tag : BitVec 12} {shard : BitVec 24} {g : BitVec 48} {s : State} (hm : Sub 16 k) (h : Keeps k s0 s) :
    Keeps k s0 ((leaseAgain tag shard g s).2) := by
  unfold leaseAgain
  repeat' first
    | (with_reducible refine hm.of ?_); exact rfl
    | with_reducible assumption
    | with_reducible apply keeps_bump
    | (have x := (); extract_lets +onlyGivenNames x; clear_value x)
    | split

theorem keeps_leaseRecheck {tag : BitVec 12} {shard : BitVec 24} {s : State} (hm : Sub 65552 k) (h : Keeps k s0 s) :
    Keeps k s0 (leaseRecheck tag shard s) := by
  unfold leaseRecheck
  repeat' first
    | (with_reducible refine hm.of ?_); exact rfl
    | with_reducible assumption
    | (with_reducible first | refine keeps_forAll ?_ fun _ _ _ => ?_ | apply keeps_bump | apply keeps_putLease)
    | ((have x := (); extract_lets +onlyGivenNames x; first | (have u : Stores := x; clear u) | (have u : Mem := x; clear u) | (have u := fun a => x a; clear u)); dsimp -zeta only [x]; clear x)
    | split

theorem keeps_commitGo {tag : BitVec 12} {shard : BitVec 24} {p : PendRun} {s : State} (hm : Sub 97311074152912 k) (h : Keeps k s0 s) :
    Keeps k s0 (commitGo tag shard p s) := by
  unfold commitGo
  repeat' first
    | (with_reducible refine hm.of ?_); exact rfl
    | with_reducible assumption
    | (with_reducible first | apply keeps_ite | apply keeps_commitLanded | apply keeps_tensorWrite | apply keeps_raiseFault | apply keeps_leaseRecheck | apply keeps_putLease | apply keeps_dropWrites)

theorem keeps_commitTry {tag : BitVec 12} {shard : BitVec 24} {s : State} (hm : Sub 97311074152912 k) (h : Keeps k s0 s) :
    Keeps k s0 (commitTry tag shard s) := by
  unfold commitTry
  repeat' first
    | (with_reducible refine hm.of ?_); exact rfl
    | with_reducible assumption
    | (with_reducible first | apply keeps_ite | apply keeps_commitGo)
    | (have x := (); extract_lets +onlyGivenNames x; clear_value x)
    | split

theorem keeps_commitRequest {tag : BitVec 12} {shard : BitVec 24} {s : State} (hm : Sub 97311074152912 k) (h : Keeps k s0 s) :
    Keeps k s0 (commitRequest tag shard s) := by
  unfold commitRequest
  repeat' first
    | (with_reducible refine hm.of ?_); exact rfl
    | with_reducible assumption
    | (with_reducible first | apply keeps_ite | apply keeps_bump | apply keeps_putLease | apply keeps_commitGo)
    | (have x := (); extract_lets +onlyGivenNames x; clear_value x)
    | split

theorem keeps_discardPend {tag : BitVec 12} {shard : BitVec 24} {s : State} (hm : Sub 65552 k) (h : Keeps k s0 s) :
    Keeps k s0 (discardPend tag shard s) := by
  unfold discardPend
  repeat' first
    | (with_reducible refine hm.of ?_); exact rfl
    | with_reducible assumption
    | (with_reducible first | apply keeps_leaseRecheck | apply keeps_putLease)

theorem keeps_afterRelease {tag : BitVec 12} {shard : BitVec 24} {s : State} (hm : Sub 97311074152912 k) (h : Keeps k s0 s) :
    Keeps k s0 (afterRelease tag shard s) := by
  unfold afterRelease
  repeat' first
    | (with_reducible refine hm.of ?_); exact rfl
    | with_reducible assumption
    | (with_reducible first | apply keeps_leaseRecheck | apply keeps_commitTry)

theorem keeps_leaseRelease {tag : BitVec 12} {shard : BitVec 24} {g : BitVec 48} {s : State} (hm : Sub 97311074152912 k) (h : Keeps k s0 s) :
    Keeps k s0 (leaseRelease tag shard g s) := by
  unfold leaseRelease
  repeat' first
    | (with_reducible refine hm.of ?_); exact rfl
    | with_reducible assumption
    | (with_reducible first | apply keeps_ite | apply keeps_bump | apply keeps_afterRelease | apply keeps_putLease)
    | split

theorem keeps_commitTimeout {tag : BitVec 12} {shard : BitVec 24} {s : State} (hm : Sub 18141941924304 k) (h : Keeps k s0 s) :
    Keeps k s0 (commitTimeout tag shard s) := by
  unfold commitTimeout
  repeat' first
    | (with_reducible refine hm.of ?_); exact rfl
    | with_reducible assumption
    | (with_reducible first | apply keeps_ite | apply keeps_discardPend | apply keeps_leaseFault | apply keeps_markVeto)
    | split

theorem keeps_leaseQuery {tag : BitVec 12} {shard : BitVec 24} {s : State} (hm : Sub 16 k) (h : Keeps k s0 s) :
    Keeps k s0 (leaseQuery tag shard s) := by
  unfold leaseQuery
  repeat' first
    | (with_reducible refine hm.of ?_); exact rfl
    | with_reducible assumption
    | (with_reducible first | apply keeps_setReg | apply keeps_setRegF)
    | ((have x := (); extract_lets +onlyGivenNames x; first | (have u : Stores := x; clear u) | (have u : Mem := x; clear u) | (have u := fun a => x a; clear u)); dsimp -zeta only [x]; clear x)
    | (have x := (); extract_lets +onlyGivenNames x; clear_value x)
    | split

theorem keeps_forceCur {tag : BitVec 12} {shard : BitVec 24} {s : State} (hm : Sub 97311074152912 k) (h : Keeps k s0 s) :
    Keeps k s0 (forceCur tag shard s) := by
  unfold forceCur
  repeat' first
    | (with_reducible refine hm.of ?_); exact rfl
    | with_reducible assumption
    | (with_reducible first | apply keeps_ite | apply keeps_afterRelease | apply keeps_putLease | apply keeps_leaseQuery)

theorem keeps_forceRet {tag : BitVec 12} {shard : BitVec 24} {s : State} (hm : Sub 97311074152912 k) (h : Keeps k s0 s) :
    Keeps k s0 (forceRet tag shard s) := by
  unfold forceRet
  repeat' first
    | (with_reducible refine hm.of ?_); exact rfl
    | with_reducible assumption
    | (with_reducible first | apply keeps_ite | apply keeps_afterRelease | apply keeps_putLease | apply keeps_leaseQuery)

theorem keeps_leaseCmd {v : Word} {s : State} (hm : Sub 97311074152912 k) (h : Keeps k s0 s) :
    Keeps k s0 (leaseCmd v s) := by
  unfold leaseCmd
  repeat' first
    | (with_reducible refine hm.of ?_); exact rfl
    | with_reducible assumption
    | (with_reducible first | apply keeps_forceRet | apply keeps_forceCur | apply keeps_bump)
    | (have x := (); extract_lets +onlyGivenNames x; clear_value x)
    | split

theorem keeps_layoutQuery {tag : BitVec 12} {entry : Nat} {s : State} (hm : Sub 16 k) (h : Keeps k s0 s) :
    Keeps k s0 (layoutQuery tag entry s) := by
  unfold layoutQuery
  repeat' first
    | (with_reducible refine hm.of ?_); exact rfl
    | with_reducible assumption
    | (with_reducible first | refine keeps_forAll ?_ fun _ _ _ => ?_ | apply keeps_setReg | apply keeps_setRegF)
    | (have x := (); extract_lets +onlyGivenNames x; clear_value x)
    | split

theorem keeps_execLeaseQuery {tag : BitVec 12} {shard : BitVec 24} {s : State} (hm : Sub 16 k) (h : Keeps k s0 s) :
    KeepsR k s0 (execLeaseQuery tag shard s) := by
  unfold execLeaseQuery
  repeat' first
    | (with_reducible refine hm.of ?_); exact rfl
    | with_reducible assumption
    | (with_reducible first | apply keepsR_next | apply keeps_leaseQuery)

theorem keeps_execLayoutQuery {tag : BitVec 12} {entry : BitVec 4} {s : State} (hm : Sub 16 k) (h : Keeps k s0 s) :
    KeepsR k s0 (execLayoutQuery tag entry s) := by
  unfold execLayoutQuery
  repeat' first
    | (with_reducible refine hm.of ?_); exact rfl
    | with_reducible assumption
    | (with_reducible first | apply keepsR_next | apply keeps_layoutQuery)

end Sys2Proof.Machine
end

