-- ==== Sys2Proof/Laws/KeepsOperands.lean ====
section
/-! SUPPORT. What the operations of Machine/Operands.lean keep. -/

namespace Sys2Proof.Machine

variable {k : Nat} {s0 : State}

theorem setBits_wf {m : Mem} (base a n : Nat) {v : Nat} (h : Memory.wf m = true) : Memory.wf (setBits m base a n v) = true :=
  memSetNat_wf _ _ _ h
theorem keeps_putSpace {k : Nat} {s0 s : State} {space : Nat} {m : Mem} (hm : Sub 575525617664 k) (h : Keeps k s0 s)
    (hx : Memory.wf (spaceMem s space) = true → Memory.wf m = true) : Keeps k s0 (putSpace s space m) := by
  unfold putSpace
  split
  · exact Keeps.put_mSp (hm.of rfl) h hx
  · exact Keeps.put_mCar (hm.of rfl) h hx
  · rename_i h0 h1
    refine Keeps.put_mAcc (hm.of rfl) h fun e => hx ?_
    unfold spaceMem
    split
    · exact absurd rfl h0
    · exact absurd rfl h1
    · exact e

theorem keeps_applyWrite {t : Nat} {w : VWrite} {s : State} (hm : Sub 575525617664 k) (h : Keeps k s0 s) :
    Keeps k s0 (applyWrite t w s) := by
  unfold applyWrite
  repeat' first
    | (with_reducible refine hm.of ?_); exact rfl
    | with_reducible assumption
    | intro _
    | (with_reducible first | apply keeps_putSpace | exact setBits_wf _ _ _ (by assumption))

end Sys2Proof.Machine
end

