-- ==== Sys2Proof/Laws/KeepsStores.lean ====
section
/-! SUPPORT. What the operations of Machine/Stores.lean keep. -/

namespace Sys2Proof.Machine

variable {k : Nat} {s0 : State}

theorem rowLand_wf {s : State} {a : Store} {w : AsyncRow} {m : Mem} (h : Memory.wf m = true) : Memory.wf (rowLand s a w m) = true := by
  unfold rowLand rowInto
  split
  · exact memSetNat_wf _ _ _ h
  · exact memForAll_wf (fun _ _ h => memSet_wf _ _ h) _ h


theorem keeps_takeBank {a : Store} {b : Nat} {waited : Bool} {s : State} (hm : Sub 192 k) (h : Keeps k s0 s) :
    Keeps k s0 (takeBank a b waited s) := by
  unfold takeBank
  repeat' first
    | (with_reducible refine hm.of ?_); exact rfl
    | with_reducible assumption
    | (with_reducible first | apply keeps_putClu | apply keeps_putTile)
    | (have x := (); extract_lets +onlyGivenNames x; clear_value x)
    | split

theorem keeps_putMsg {s : State} {m : Nat} {v : WinMsg} (hm : Sub 1024 k) (h : Keeps k s0 s) :
    Keeps k s0 (putMsg s m v) := by
  unfold putMsg
  repeat' first
    | (with_reducible refine hm.of ?_); exact rfl
    | with_reducible assumption
    | (with_reducible first | apply Keeps.put_msgs)

theorem keeps_msgSettle {m : Nat} {s : State} (hm : Sub 27264016 k) (h : Keeps k s0 s) :
    Keeps k s0 (msgSettle m s) := by
  unfold msgSettle
  repeat' first
    | (with_reducible refine hm.of ?_); exact rfl
    | with_reducible assumption
    | (with_reducible first | apply keeps_ite | apply keeps_bump | apply keeps_answerMsg | apply keeps_putMsg)
    | (have x := (); extract_lets +onlyGivenNames x; refine keeps_cut k s0 x ?_ fun _ => ?_; rotate_left; clear_value x)
    | split
    | dsimp only [x]

theorem keeps_quietMsg {m : Option Nat} {s : State} (hm : Sub 27264016 k) (h : Keeps k s0 s) :
    Keeps k s0 (quietMsg m s) := by
  unfold quietMsg
  repeat' first
    | (with_reducible refine hm.of ?_); exact rfl
    | with_reducible assumption
    | (with_reducible first | apply keeps_msgSettle | apply keeps_putMsg)
    | split

theorem keeps_msgLanded {w : Option WinRef} {s : State} (hm : Sub 27264016 k) (h : Keeps k s0 s) :
    Keeps k s0 (msgLanded w s) := by
  unfold msgLanded
  repeat' first
    | (with_reducible refine hm.of ?_); exact rfl
    | with_reducible assumption
    | (with_reducible first | apply keeps_msgSettle | apply keeps_putMsg)
    | split

theorem keeps_noteOld {a : Store} {w : AsyncRow} {s : State} (hm : Sub 1024 k) (h : Keeps k s0 s) :
    Keeps k s0 (noteOld a w s) := by
  unfold noteOld
  repeat' first
    | (with_reducible refine hm.of ?_); exact rfl
    | with_reducible assumption
    | with_reducible apply keeps_putMsg
    | split

theorem keeps_landRow {a : Store} {w : AsyncRow} {s : State} (hm : Sub 25797067792 k) (h : Keeps k s0 s) :
    Keeps k s0 (landRow a w s) := by
  unfold landRow
  repeat' first
    | (with_reducible refine hm.of ?_); exact rfl
    | with_reducible assumption
    | intro _
    | (with_reducible first | apply keeps_ite | apply keeps_bump | apply keeps_msgLanded | apply keeps_storePut | apply keeps_noteOld | exact rowLand_wf (by assumption))
    | split

theorem keeps_countEntry {a : Store} {w : AsyncRow} {s : State} (hm : Sub 16 k) (h : Keeps k s0 s) :
    Keeps k s0 (countEntry a w s) := by
  unfold countEntry
  repeat' first
    | (with_reducible refine hm.of ?_); exact rfl
    | with_reducible assumption
    | (with_reducible first | apply keeps_ite | apply keeps_bump)

theorem keeps_enterBank {a : Store} {w : AsyncRow} {s : State} (hm : Sub 192 k) (h : Keeps k s0 s) :
    Keeps k s0 (enterBank a w s) := by
  unfold enterBank
  repeat' first
    | (with_reducible refine hm.of ?_); exact rfl
    | with_reducible assumption
    | with_reducible apply keeps_putBankQueue

theorem keeps_bankEdge {a : Store} {b : Nat} {s : State} (hm : Sub 25797067984 k) (h : Keeps k s0 s) :
    Keeps k s0 (bankEdge a b s) := by
  unfold bankEdge
  repeat' first
    | (with_reducible refine hm.of ?_); exact rfl
    | with_reducible assumption
    | (with_reducible first | apply keeps_ite | refine keeps_forAll ?_ fun _ _ _ => ?_ | apply keeps_landRow | apply keeps_putBankQueue | apply keeps_countEntry | apply keeps_takeBank)
    | (have x := (); extract_lets +onlyGivenNames x; clear_value x)
    | split

theorem keeps_storeEdge {a : Store} {s : State} (hm : Sub 25797067984 k) (h : Keeps k s0 s) :
    Keeps k s0 (storeEdge a s) := by
  unfold storeEdge
  repeat' first
    | (with_reducible refine hm.of ?_); exact rfl
    | with_reducible assumption
    | (with_reducible first | refine keeps_forAll ?_ fun _ _ _ => ?_ | apply keeps_bankEdge)

theorem keeps_windowRow {a : Store} {w : AsyncRow} {r : WinRef} {s : State} (hm : Sub 27264208 k) (h : Keeps k s0 s) :
    Keeps k s0 (windowRow a w r s) := by
  unfold windowRow
  repeat' first
    | (with_reducible refine hm.of ?_); exact rfl
    | with_reducible assumption
    | (with_reducible first | apply keeps_ite | apply keeps_bump | apply keeps_msgSettle | apply keeps_rinseCount | apply keeps_putMsg | apply keeps_enterBank)

theorem keeps_windowPart {m : Nat} {final : Bool} {a : Store} {n : Nat} {cls : WClass} {tag : BitVec 12} {jepoch : BitVec 16} {key : BitVec 24} {pieces : List (Nat × List Byte)} {s : State} (hm : Sub 27264208 k) (h : Keeps k s0 s) :
    Keeps k s0 ((windowPart m final a n cls tag jepoch key pieces s).2) := by
  unfold windowPart
  repeat' first
    | (with_reducible refine hm.of ?_); exact rfl
    | with_reducible assumption
    | (with_reducible first | apply keeps_ite | refine keeps_forAll ?_ fun _ _ _ => ?_ | apply keeps_windowRow | apply keeps_msgSettle | apply keeps_putMsg)
    | split

theorem keeps_openMessage {from_ : MsgFrom} {s : State} (hm : Sub 1024 k) (h : Keeps k s0 s) :
    Keeps k s0 ((openMessage from_ s).2) := by
  unfold openMessage
  repeat' first
    | (with_reducible refine hm.of ?_); exact rfl
    | with_reducible assumption
    | with_reducible apply keeps_putMsg

theorem keeps_windowPieces {from_ : MsgFrom} {a : Store} {n : Nat} {cls : WClass} {tag : BitVec 12} {jepoch : BitVec 16} {key : BitVec 24} {pieces : List (Nat × List Byte)} {s : State} (hm : Sub 27264208 k) (h : Keeps k s0 s) :
    Keeps k s0 ((windowPieces from_ a n cls tag jepoch key pieces s).2) := by
  unfold windowPieces
  repeat' first
    | (with_reducible refine hm.of ?_); exact rfl
    | with_reducible assumption
    | (with_reducible first | apply keeps_windowPart | apply keeps_openMessage)
    | (have x := (); extract_lets +onlyGivenNames x; refine keeps_cut2 k s0 x ?_ fun _ => ?_; rotate_left; clear_value x)
    | split

theorem keeps_windowMessage {from_ : MsgFrom} {a : Store} {n : Nat} {cls : WClass} {tag : BitVec 12} {jepoch : BitVec 16} {key : BitVec 24} {off : Nat} {l : List Byte} {s : State} (hm : Sub 27264208 k) (h : Keeps k s0 s) :
    Keeps k s0 ((windowMessage from_ a n cls tag jepoch key off l s).2) := by
  unfold windowMessage
  repeat' first
    | (with_reducible refine hm.of ?_); exact rfl
    | with_reducible assumption
    | with_reducible apply keeps_windowPieces

theorem keeps_plainMessage {from_ : MsgFrom} {a : Store} {off : Nat} {l : List Byte} {s : State} (hm : Sub 27264208 k) (h : Keeps k s0 s) :
    Keeps k s0 (plainMessage from_ a off l s) := by
  unfold plainMessage
  repeat' first
    | (with_reducible refine hm.of ?_); exact rfl
    | with_reducible assumption
    | (with_reducible first | refine keeps_forAll ?_ fun _ _ _ => ?_ | apply keeps_msgSettle | apply keeps_putMsg | apply keeps_enterBank)

theorem keeps_faultCar {c : Nat} {code : Nat} {ta : Nat} {tb : Nat} {bank : Nat} {s : State} (hm : Sub 18141941924304 k) (h : Keeps k s0 s) :
    Keeps k s0 (faultCar c code ta tb bank s) := by
  unfold faultCar
  repeat' first
    | (with_reducible refine hm.of ?_); exact rfl
    | with_reducible assumption
    | (with_reducible first | apply keeps_raiseClu | apply keeps_recordFirst)

theorem keeps_rqClaim {c : Nat} {q : Nat} {n : Nat} {s : State} (hm : Sub 16 k) (h : Keeps k s0 s) :
    Keeps k s0 ((rqClaim c q n s).2) := by
  unfold rqClaim
  repeat' first
    | (with_reducible refine hm.of ?_); exact rfl
    | with_reducible assumption
    | (with_reducible first | apply keeps_setReg | apply keeps_rinseCount)
    | (have x := (); extract_lets +onlyGivenNames x; clear_value x)
    | split

theorem keeps_rqGive {c : Nat} {q : Nat} {v : Word} {s : State} (hm : Sub 18141941924304 k) (h : Keeps k s0 s) :
    Keeps k s0 (rqGive c q v s) := by
  unfold rqGive
  repeat' first
    | (with_reducible refine hm.of ?_); exact rfl
    | with_reducible assumption
    | (with_reducible first | apply keeps_ite | apply keeps_setReg | apply keeps_bump | apply keeps_faultCar)

theorem keeps_rqConfig {c : Nat} {q : Nat} {v : Word} {s : State} (hm : Sub 18141941924304 k) (h : Keeps k s0 s) :
    Keeps k s0 (rqConfig c q v s) := by
  unfold rqConfig
  repeat' first
    | (with_reducible refine hm.of ?_); exact rfl
    | with_reducible assumption
    | (with_reducible first | apply keeps_ite | apply keeps_setReg | apply keeps_bump | apply keeps_faultCar)

theorem keeps_rqSend {from_ : MsgFrom} {c : Nat} {q : Nat} {credited : Bool} {tag : BitVec 12} {cls : WClass} {jepoch : BitVec 16} {key : BitVec 24} {l : List Byte} {s : State} (hm : Sub 27264208 k) (h : Keeps k s0 s) :
    Keeps k s0 ((rqSend from_ c q credited tag cls jepoch key l s).2) := by
  unfold rqSend
  repeat' first
    | (with_reducible refine hm.of ?_); exact rfl
    | with_reducible assumption
    | (with_reducible first | apply keeps_ite | refine keeps_forAll ?_ fun _ _ _ => ?_ | apply keeps_setReg | apply keeps_bump | apply keeps_addCtr | apply keeps_msgSettle | apply keeps_rinseCount | apply keeps_putMsg | apply keeps_enterBank)
    | (have x := (); extract_lets +onlyGivenNames x; refine keeps_cut k s0 x ?_ fun _ => ?_; rotate_left; clear_value x)
    | ((have x := (); extract_lets +onlyGivenNames x; first | (have u : Stores := x; clear u) | (have u : Mem := x; clear u) | (have u := fun a => x a; clear u)); dsimp -zeta only [x]; clear x)
    | (have x := (); extract_lets +onlyGivenNames x; clear_value x)
    | split

theorem keeps_zeroBank {a : Store} {b : Nat} {s : State} (hm : Sub 25769803776 k) (h : Keeps k s0 s) :
    Keeps k s0 (zeroBank a b s) := by
  unfold zeroBank
  repeat' first
    | (with_reducible refine hm.of ?_); exact rfl
    | with_reducible assumption
    | intro _
    | (with_reducible first | apply keeps_storePut | exact memKeep_wf _ (by assumption))

theorem keeps_setBankFrom {s : State} {a : Store} {b : Nat} {v : BitVec 2} (hm : Sub 192 k) (h : Keeps k s0 s) :
    Keeps k s0 (setBankFrom s a b v) := by
  unfold setBankFrom
  repeat' first
    | (with_reducible refine hm.of ?_); exact rfl
    | with_reducible assumption
    | (with_reducible first | apply keeps_putClu | apply keeps_putTile)
    | split

theorem keeps_bankRequest {a : Store} {p : Nat × Nat} {s : State} (hm : Sub 208 k) (h : Keeps k s0 s) :
    Keeps k s0 (bankRequest a p s) := by
  unfold bankRequest
  repeat' first
    | (with_reducible refine hm.of ?_); exact rfl
    | with_reducible assumption
    | (with_reducible first | apply keeps_ite | apply keeps_setBankFrom | apply keeps_setBankReady | apply keeps_setRegF)

theorem keeps_bankWrite {a : Store} {m : Nat} {v : Word} {s : State} (hm : Sub 18141941924304 k) (h : Keeps k s0 s) :
    Keeps k s0 (bankWrite a m v s) := by
  unfold bankWrite
  repeat' first
    | (with_reducible refine hm.of ?_); exact rfl
    | with_reducible assumption
    | (with_reducible first | refine keeps_forAll ?_ fun _ _ _ => ?_ | apply keeps_raiseClu | apply keeps_bankRequest | apply keeps_faultCar)
    | (have x := (); extract_lets +onlyGivenNames x; clear_value x)
    | split

theorem keeps_bankArrives {a : Store} {b : Nat} {s : State} (hm : Sub 25769803984 k) (h : Keeps k s0 s) :
    Keeps k s0 (bankArrives a b s) := by
  unfold bankArrives
  repeat' first
    | (with_reducible refine hm.of ?_); exact rfl
    | with_reducible assumption
    | (with_reducible first | apply keeps_ite | apply keeps_zeroBank | apply keeps_setBankFrom | apply keeps_setBankReady)

theorem keeps_cluWrite {c : Nat} {f : State → State} {s : State} (hm : Sub 16 k) (h : Keeps k s0 s) (hf : ∀ (y0 : State), Keeps k s0 y0 → Keeps k s0 (f y0)) :
    Keeps k s0 (cluWrite c f s) := by
  unfold cluWrite
  repeat' first
    | (with_reducible refine hm.of ?_); exact rfl
    | with_reducible assumption
    | intro _
    | (with_reducible first | apply keeps_ite | apply keeps_inDomain | apply keeps_bump | apply hf)

theorem keeps_cluCommand {c : Nat} {s : State} {f : State → State} (hm : Sub 16 k) (h : Keeps k s0 s) (hf : ∀ (y0 : State), Keeps k s0 y0 → Keeps k s0 (f y0)) :
    KeepsR k s0 (cluCommand c s f) := by
  unfold cluCommand
  repeat' first
    | (with_reducible refine hm.of ?_); exact rfl
    | with_reducible assumption
    | (with_reducible first | apply keepsR_next | apply keeps_ite | apply keeps_unmapped | apply keeps_cluWrite)

theorem keeps_cluIgnore {c : Nat} {s : State} (hm : Sub 16 k) (h : Keeps k s0 s) :
    Keeps k s0 (cluIgnore c s) := by
  unfold cluIgnore
  repeat' first
    | (with_reducible refine hm.of ?_); exact rfl
    | with_reducible assumption
    | with_reducible apply keeps_bump

theorem keeps_winOpen {c : Nat} {target : Nat} {n : Nat} {epoch : BitVec 16} {s : State} (hm : Sub 16 k) (h : Keeps k s0 s) :
    Keeps k s0 (winOpen c target n epoch s) := by
  unfold winOpen
  repeat' first
    | (with_reducible refine hm.of ?_); exact rfl
    | with_reducible assumption
    | (with_reducible first | apply keeps_ite | apply keeps_setReg | apply keeps_cluIgnore)

theorem keeps_winClose {c : Nat} {target : Nat} {n : Nat} {s : State} (hm : Sub 16 k) (h : Keeps k s0 s) :
    Keeps k s0 (winClose c target n s) := by
  unfold winClose
  repeat' first
    | (with_reducible refine hm.of ?_); exact rfl
    | with_reducible assumption
    | (with_reducible first | apply keeps_ite | apply keeps_setReg | apply keeps_cluIgnore)

theorem keeps_winEpoch {c : Nat} {target : Nat} {n : Nat} {epoch : BitVec 16} {s : State} (hm : Sub 16 k) (h : Keeps k s0 s) :
    Keeps k s0 (winEpoch c target n epoch s) := by
  unfold winEpoch
  repeat' first
    | (with_reducible refine hm.of ?_); exact rfl
    | with_reducible assumption
    | (with_reducible first | apply keeps_ite | apply keeps_setReg | apply keeps_cluIgnore)

theorem keeps_winCmd {c : Nat} {v : Word} {s : State} (hm : Sub 16 k) (h : Keeps k s0 s) :
    Keeps k s0 (winCmd c v s) := by
  unfold winCmd
  repeat' first
    | (with_reducible refine hm.of ?_); exact rfl
    | with_reducible assumption
    | (with_reducible first | apply keeps_winEpoch | apply keeps_cluIgnore | apply keeps_winClose | apply keeps_winOpen)
    | (have x := (); extract_lets +onlyGivenNames x; clear_value x)
    | split

theorem keeps_execAsyncWriteLand {a : Store} {bank : Nat} {s : State} (hm : Sub 25797067984 k) (h : Keeps k s0 s) :
    KeepsR k s0 (execAsyncWriteLand a bank s) := by
  unfold execAsyncWriteLand
  repeat' first
    | (with_reducible refine hm.of ?_); exact rfl
    | with_reducible assumption
    | intro _
    | (with_reducible first | apply keeps_onUnit | apply keeps_bankEdge)

theorem keeps_execBankStateWrite {a : Store} {m : BitVec 2} {v : BitVec 64} {s : State} (hm : Sub 18141941924304 k) (h : Keeps k s0 s) :
    KeepsR k s0 (execBankStateWrite a m v s) := by
  unfold execBankStateWrite
  repeat' first
    | (with_reducible refine hm.of ?_); exact rfl
    | with_reducible assumption
    | intro _
    | (with_reducible first | apply keepsR_ite | apply keepsR_next | apply keeps_bankWrite | apply keeps_cluCommand | apply keeps_unmapped)
    | split
    | (dsimp only [id])

theorem keeps_execBankTransitionDone {a : Store} {bank : Nat} {s : State} (hm : Sub 25769803984 k) (h : Keeps k s0 s) :
    KeepsR k s0 (execBankTransitionDone a bank s) := by
  unfold execBankTransitionDone
  repeat' first
    | (with_reducible refine hm.of ?_); exact rfl
    | with_reducible assumption
    | intro _
    | (with_reducible first | apply keeps_bankArrives | apply keeps_onUnit)

theorem keeps_execWinOpen {c : Nat} {target : BitVec 5} {window : BitVec 6} {epoch : BitVec 16} {s : State} (hm : Sub 16 k) (h : Keeps k s0 s) :
    KeepsR k s0 (execWinOpen c target window epoch s) := by
  unfold execWinOpen
  repeat' first
    | (with_reducible refine hm.of ?_); exact rfl
    | with_reducible assumption
    | intro _
    | (with_reducible first | apply keeps_cluCommand | apply keeps_winOpen)

theorem keeps_execWinClose {c : Nat} {target : BitVec 5} {window : BitVec 6} {s : State} (hm : Sub 16 k) (h : Keeps k s0 s) :
    KeepsR k s0 (execWinClose c target window s) := by
  unfold execWinClose
  repeat' first
    | (with_reducible refine hm.of ?_); exact rfl
    | with_reducible assumption
    | intro _
    | (with_reducible first | apply keeps_cluCommand | apply keeps_winClose)

theorem keeps_execWinSetEpoch {c : Nat} {target : BitVec 5} {window : BitVec 6} {epoch : BitVec 16} {s : State} (hm : Sub 16 k) (h : Keeps k s0 s) :
    KeepsR k s0 (execWinSetEpoch c target window epoch s) := by
  unfold execWinSetEpoch
  repeat' first
    | (with_reducible refine hm.of ?_); exact rfl
    | with_reducible assumption
    | intro _
    | (with_reducible first | apply keeps_winEpoch | apply keeps_cluCommand)

theorem keeps_execCreditClaim {c : Nat} {q : BitVec 4} {units : Nat} {s : State} (hm : Sub 144 k) (h : Keeps k s0 s) :
    KeepsR k s0 (execCreditClaim c q units s) := by
  unfold execCreditClaim
  repeat' first
    | (with_reducible refine hm.of ?_); exact rfl
    | with_reducible assumption
    | intro _
    | (with_reducible first | apply keeps_ite | apply keeps_onCluster | apply keeps_putClu | apply keeps_rqClaim)

theorem keeps_execRqReturn {c : Nat} {q : BitVec 4} {v : BitVec 64} {s : State} (hm : Sub 18141941924304 k) (h : Keeps k s0 s) :
    KeepsR k s0 (execRqReturn c q v s) := by
  unfold execRqReturn
  repeat' first
    | (with_reducible refine hm.of ?_); exact rfl
    | with_reducible assumption
    | intro _
    | (with_reducible first | apply keeps_rqGive | apply keeps_cluCommand)

theorem keeps_execRqCfgWrite {c : Nat} {q : BitVec 4} {v : BitVec 64} {s : State} (hm : Sub 18141941924304 k) (h : Keeps k s0 s) :
    KeepsR k s0 (execRqCfgWrite c q v s) := by
  unfold execRqCfgWrite
  repeat' first
    | (with_reducible refine hm.of ?_); exact rfl
    | with_reducible assumption
    | intro _
    | (with_reducible first | apply keeps_cluCommand | apply keeps_rqConfig)

end Sys2Proof.Machine
end

