-- ==== Sys2Proof/Laws/KeepsNetwork.lean ====
section
/-! SUPPORT. What the operations of Machine/Network.lean keep. -/

namespace Sys2Proof.Machine

variable {k : Nat} {s0 : State}

theorem keeps_discard {t : Nat} {n : Nat} {s : State} (hm : Sub 16 k) (h : Keeps k s0 s) :
    Keeps k s0 (discard t n s) := by
  unfold discard
  repeat' first
    | (with_reducible refine hm.of ?_); exact rfl
    | with_reducible assumption
    | with_reducible apply keeps_addCtr

theorem keeps_deliver {t : Nat} {net : Nat} {w : NetWord} {s : State} (hm : Sub 18141941924304 k) (h : Keeps k s0 s) :
    Keeps k s0 (deliver t net w s) := by
  unfold deliver
  repeat' first
    | (with_reducible refine hm.of ?_); exact rfl
    | with_reducible assumption
    | (with_reducible first | apply keeps_ite | apply keeps_bump | apply keeps_discard | apply keeps_faultNet | apply keeps_putTile)

theorem keeps_sendOut {t : Nat} {o : NodeOut} {s : State} (hm : Sub 18141941924304 k) (h : Keeps k s0 s) :
    Keeps k s0 (sendOut t o s) := by
  unfold sendOut
  repeat' first
    | (with_reducible refine hm.of ?_); exact rfl
    | with_reducible assumption
    | (with_reducible first | apply keeps_ite | apply keeps_discard | apply keeps_faultNet | apply keeps_putTile)

theorem keeps_outEdge {t : Nat} {l : List NodeOut} {s : State} (hm : Sub 18141941924816 k) (h : Keeps k s0 s) :
    Keeps k s0 (outEdge t l s) := by
  unfold outEdge
  repeat' first
    | (with_reducible refine hm.of ?_); exact rfl
    | with_reducible assumption
    | (with_reducible first | apply keeps_ite | apply keeps_discard | apply keeps_deliver | apply keeps_faultNet)
    | split
    | (with_reducible first | apply Keeps.put_flying)

theorem keeps_sendMask {t : Nat} {net : Nat} {mask : Nat} {w : NetWord} {s : State} (hm : Sub 18141941924304 k) (h : Keeps k s0 s) :
    Keeps k s0 (sendMask t net mask w s) := by
  unfold sendMask
  repeat' first
    | (with_reducible refine hm.of ?_); exact rfl
    | with_reducible assumption
    | (with_reducible first | refine keeps_forAll ?_ fun _ _ _ => ?_ | apply keeps_sendOut)

theorem keeps_putSteer {s : State} {t : Nat} {k' : BitVec 2} {u : Nat} {v : SteerUnit} (hm : Sub 64 k) (h : Keeps k s0 s) :
    Keeps k s0 (putSteer s t k' u v) := by
  unfold putSteer
  repeat' first
    | (with_reducible refine hm.of ?_); exact rfl
    | with_reducible assumption
    | with_reducible apply keeps_putTile

theorem keeps_faultSteer {t : Nat} {k' : BitVec 2} {u : Nat} {cause : Nat} {tseq : Bool} {wseq : Bool} {s : State} (hm : Sub 18141941924304 k) (h : Keeps k s0 s) :
    Keeps k s0 (faultSteer t k' u cause tseq wseq s) := by
  unfold faultSteer
  repeat' first
    | (with_reducible refine hm.of ?_); exact rfl
    | with_reducible assumption
    | intro _
    | (with_reducible first | apply keeps_ite | apply keeps_setReg | apply keeps_putTile | apply keeps_faultWith)

theorem keeps_steerPair {t : Nat} {k' : BitVec 2} {u : Nat} {tok : HeldToken} {w : NetWord} {s : State} (hm : Sub 80 k) (h : Keeps k s0 s) :
    Keeps k s0 (steerPair t k' u tok w s) := by
  unfold steerPair
  repeat' first
    | (with_reducible refine hm.of ?_); exact rfl
    | with_reducible assumption
    | (with_reducible first | apply keeps_ite | apply keeps_bump | apply keeps_discard | apply keeps_putTile | apply keeps_putSteer)

theorem keeps_steerToken {t : Nat} {k' : BitVec 2} {u : Nat} {v : BitVec 8} {seq : Bool} {s : State} (hm : Sub 18141941924304 k) (h : Keeps k s0 s) :
    Keeps k s0 (steerToken t k' u v seq s) := by
  unfold steerToken
  repeat' first
    | (with_reducible refine hm.of ?_); exact rfl
    | with_reducible assumption
    | (with_reducible first | apply keeps_ite | apply keeps_steerPair | apply keeps_faultSteer | apply keeps_putSteer)
    | (have x := (); extract_lets +onlyGivenNames x; clear_value x)
    | split

theorem keeps_steerHold {t : Nat} {k' : BitVec 2} {u : Nat} {b : Bool} {w : NetWord} {tseq : Bool} {s : State} (hm : Sub 18141941924304 k) (h : Keeps k s0 s) :
    Keeps k s0 (steerHold t k' u b w tseq s) := by
  unfold steerHold
  repeat' first
    | (with_reducible refine hm.of ?_); exact rfl
    | with_reducible assumption
    | (with_reducible first | apply keeps_ite | apply keeps_faultSteer | apply keeps_discard | apply keeps_putSteer)

theorem keeps_steerData {t : Nat} {k' : BitVec 2} {u : Nat} {b : Bool} {w : NetWord} {s : State} (hm : Sub 18141941924304 k) (h : Keeps k s0 s) :
    Keeps k s0 (steerData t k' u b w s) := by
  unfold steerData
  repeat' first
    | (with_reducible refine hm.of ?_); exact rfl
    | with_reducible assumption
    | (with_reducible first | apply keeps_ite | apply keeps_steerPair | apply keeps_steerHold | apply keeps_faultSteer | apply keeps_discard)
    | split

theorem keeps_steerExpire {t : Nat} {k' : BitVec 2} {u : Nat} {s : State} (hm : Sub 18141941924304 k) (h : Keeps k s0 s) :
    Keeps k s0 (steerExpire t k' u s) := by
  unfold steerExpire
  repeat' first
    | (with_reducible refine hm.of ?_); exact rfl
    | with_reducible assumption
    | (with_reducible first | apply keeps_ite | apply keeps_faultSteer | apply keeps_putSteer)
    | (have x := (); extract_lets +onlyGivenNames x; clear_value x)
    | split

theorem keeps_steerWord {t : Nat} {k' : BitVec 2} {u : Nat} {b : Bool} {w : NetWord} {s : State} (hm : Sub 64 k) (h : Keeps k s0 s) :
    Keeps k s0 (steerWord t k' u b w s) := by
  unfold steerWord
  repeat' first
    | (with_reducible refine hm.of ?_); exact rfl
    | with_reducible assumption
    | with_reducible apply keeps_putTile

theorem keeps_netEdge {t : Nat} {s : State} (hm : Sub 18141941924816 k) (h : Keeps k s0 s) :
    Keeps k s0 (netEdge t s) := by
  unfold netEdge
  repeat' first
    | (with_reducible refine hm.of ?_); exact rfl
    | with_reducible assumption
    | (with_reducible first | refine keeps_forAll ?_ fun _ _ _ => ?_ | apply keeps_steerData | apply keeps_sendOut | apply keeps_outEdge | apply keeps_putTile)

theorem keeps_netArrive {t : Nat} {net : Nat} {inp : Nat} {w : NetWord} {s : State} (hm : Sub 18141941924304 k) (h : Keeps k s0 s) :
    Keeps k s0 (netArrive t net inp w s) := by
  unfold netArrive
  repeat' first
    | (with_reducible refine hm.of ?_); exact rfl
    | with_reducible assumption
    | (with_reducible first | apply keeps_ite | refine keeps_forAll ?_ fun _ _ _ => ?_ | apply keeps_steerWord | apply keeps_alarm | apply keeps_sendMask | apply keeps_steerToken | apply keeps_discard | apply keeps_faultNet | apply keeps_putTile)

theorem keeps_inject {t : Nat} {net : Nat} {p : Row} {k' : BitVec 2} {s : State} (hm : Sub 18141941924304 k) (h : Keeps k s0 s) :
    Keeps k s0 (inject t net p k' s) := by
  unfold inject
  repeat' first
    | (with_reducible refine hm.of ?_); exact rfl
    | with_reducible assumption
    | (with_reducible first | apply keeps_netArrive | apply keeps_putTile)

theorem keeps_land {t : Nat} {net : Nat} {inp : Nat} {w : NetWord} {s : State} (hm : Sub 512 k) (h : Keeps k s0 s) :
    Keeps k s0 (land t net inp w s) := by
  unfold land
  repeat' first
    | (with_reducible refine hm.of ?_); exact rfl
    | with_reducible assumption
    | (with_reducible first | apply Keeps.put_flying)

theorem keeps_execNetWordArrive {t : Nat} {net : BitVec 2} {inp : BitVec 3} {w : NetWord} {s : State} (hm : Sub 18141941924816 k) (h : Keeps k s0 s) :
    KeepsR k s0 (execNetWordArrive t net inp w s) := by
  unfold execNetWordArrive
  repeat' first
    | (with_reducible refine hm.of ?_); exact rfl
    | with_reducible assumption
    | intro _
    | (with_reducible first | apply keeps_land | apply keeps_onUnit | apply keeps_netArrive)

theorem keeps_execSteerTokenArrive {t : Nat} {k' : BitVec 2} {u : BitVec 2} {token : BitVec 8} {seq : Bool} {s : State} (hm : Sub 18141941924304 k) (h : Keeps k s0 s) :
    KeepsR k s0 (execSteerTokenArrive t k' u token seq s) := by
  unfold execSteerTokenArrive
  repeat' first
    | (with_reducible refine hm.of ?_); exact rfl
    | with_reducible assumption
    | intro _
    | (with_reducible first | apply keeps_onTile | apply keeps_steerToken)

theorem keeps_execSteerDataWord {t : Nat} {k' : BitVec 2} {u : BitVec 2} {b : Bool} {w : NetWord} {s : State} (hm : Sub 64 k) (h : Keeps k s0 s) :
    KeepsR k s0 (execSteerDataWord t k' u b w s) := by
  unfold execSteerDataWord
  repeat' first
    | (with_reducible refine hm.of ?_); exact rfl
    | with_reducible assumption
    | intro _
    | (with_reducible first | apply keeps_onTile | apply keeps_steerWord)

theorem keeps_execSteerTokenExpired {t : Nat} {k' : BitVec 2} {u : BitVec 2} {s : State} (hm : Sub 18141941924304 k) (h : Keeps k s0 s) :
    KeepsR k s0 (execSteerTokenExpired t k' u s) := by
  unfold execSteerTokenExpired
  repeat' first
    | (with_reducible refine hm.of ?_); exact rfl
    | with_reducible assumption
    | intro _
    | (with_reducible first | apply keeps_onTile | apply keeps_steerExpire)

end Sys2Proof.Machine
end

