-- ==== Sys2Proof/Laws/KeepsMatrix.lean ====
section
/-! SUPPORT. What the operations of Machine/Matrix.lean keep. -/

namespace Sys2Proof.Machine

variable {k : Nat} {s0 : State}

theorem keeps_cupSelect {t : Nat} {a : BlockArgs} {s : State} (hm : Sub 144 k) (h : Keeps k s0 s) :
    Keeps k s0 ((cupSelect t a s).2) := by
  unfold cupSelect
  repeat' first
    | (with_reducible refine hm.of ?_); exact rfl
    | with_reducible assumption
    | (with_reducible first | apply keeps_bump | apply keeps_putClu)
    | (have x := (); extract_lets +onlyGivenNames x; refine keeps_cut k s0 x ?_ fun _ => ?_; rotate_left; clear_value x)
    | (have x := (); extract_lets +onlyGivenNames x; clear_value x)
    | split

theorem keeps_cupPick {t : Nat} {s : State} (hm : Sub 208 k) (h : Keeps k s0 s) :
    Keeps k s0 (cupPick t s) := by
  unfold cupPick
  repeat' first
    | (with_reducible refine hm.of ?_); exact rfl
    | with_reducible assumption
    | (with_reducible first | apply keeps_cupSelect | apply keeps_abandonSample | apply keeps_putTile)
    | (have x := (); extract_lets +onlyGivenNames x; refine keeps_cut2 k s0 x ?_ fun _ => ?_; rotate_left; clear_value x)
    | (have x := (); extract_lets +onlyGivenNames x; clear_value x)
    | split

theorem keeps_cupUpdate {t : Nat} {f : CupSample → CupSample} {s : State} (hm : Sub 128 k) (h : Keeps k s0 s) :
    Keeps k s0 (cupUpdate t f s) := by
  unfold cupUpdate
  repeat' first
    | (with_reducible refine hm.of ?_); exact rfl
    | with_reducible assumption
    | with_reducible apply keeps_putClu

theorem keeps_startBlock {t : Nat} {a : BlockArgs} {s : State} (hm : Sub 80 k) (h : Keeps k s0 s) :
    Keeps k s0 (startBlock t a s) := by
  unfold startBlock
  repeat' first
    | (with_reducible refine hm.of ?_); exact rfl
    | with_reducible assumption
    | (with_reducible first | apply keeps_ite | apply keeps_bump | apply keeps_putTile)

theorem keeps_streamIn {t : Nat} {i : Nat} {r : Row} {s : State} (hm : Sub 18141941924304 k) (h : Keeps k s0 s) :
    Keeps k s0 (streamIn t i r s) := by
  unfold streamIn
  repeat' first
    | (with_reducible refine hm.of ?_); exact rfl
    | with_reducible assumption
    | (with_reducible first | apply keeps_ite | apply keeps_faultTile | apply keeps_putTile)

theorem keeps_scaleIn {t : Nat} {r : Row} {s : State} (hm : Sub 18141941924304 k) (h : Keeps k s0 s) :
    Keeps k s0 (scaleIn t r s) := by
  unfold scaleIn
  repeat' first
    | (with_reducible refine hm.of ?_); exact rfl
    | with_reducible assumption
    | (with_reducible first | apply keeps_ite | apply keeps_faultTile | apply keeps_putTile)

theorem keeps_statLoad {t : Nat} {r : Row} {s : State} (hm : Sub 18279380877776 k) (h : Keeps k s0 s) :
    Keeps k s0 (statLoad t r s) := by
  unfold statLoad
  repeat' first
    | (with_reducible refine hm.of ?_); exact rfl
    | with_reducible assumption
    | intro _
    | (with_reducible first | apply keeps_ite | apply keeps_faultTile | apply keeps_putTile | exact setRow_wf _ _ (by assumption))
    | ((have x := (); extract_lets +onlyGivenNames x; first | (have u : Stores := x; clear u) | (have u : Mem := x; clear u) | (have u := fun a => x a; clear u)); dsimp -zeta only [x]; clear x)
    | (with_reducible first | apply Keeps.put_mStat)

theorem keeps_scaleLoad {t : Nat} {r : Row} {s : State} (hm : Sub 18416819831248 k) (h : Keeps k s0 s) :
    Keeps k s0 (scaleLoad t r s) := by
  unfold scaleLoad
  repeat' first
    | (with_reducible refine hm.of ?_); exact rfl
    | with_reducible assumption
    | intro _
    | (with_reducible first | apply keeps_ite | apply keeps_faultTile | apply keeps_putTile | exact setRow_wf _ _ (by assumption))
    | ((have x := (); extract_lets +onlyGivenNames x; first | (have u : Stores := x; clear u) | (have u : Mem := x; clear u) | (have u := fun a => x a; clear u)); dsimp -zeta only [x]; clear x)
    | (with_reducible first | apply Keeps.put_mScale)

theorem keeps_statReset {t : Nat} {bank : Nat} {s : State} (hm : Sub 64 k) (h : Keeps k s0 s) :
    Keeps k s0 (statReset t bank s) := by
  unfold statReset
  repeat' first
    | (with_reducible refine hm.of ?_); exact rfl
    | with_reducible assumption
    | with_reducible apply keeps_putTile

theorem keeps_takeChunk {t : Nat} {b : Block} {s : State} (hm : Sub 18141941924304 k) (h : Keeps k s0 s) :
    Keeps k s0 (takeChunk t b s) := by
  unfold takeChunk
  repeat' first
    | (with_reducible refine hm.of ?_); exact rfl
    | with_reducible assumption
    | (with_reducible first | apply keeps_ite | apply keeps_bump | apply keeps_faultTile | apply keeps_putTile)
    | (have x := (); extract_lets +onlyGivenNames x; clear_value x)
    | split

theorem keeps_chunkApply {t : Nat} {j : Nat} {cap : ChunkCap} {s : State} (hm : Sub 192 k) (h : Keeps k s0 s) :
    Keeps k s0 (chunkApply t j cap s) := by
  unfold chunkApply
  repeat' first
    | (with_reducible refine hm.of ?_); exact rfl
    | with_reducible assumption
    | (with_reducible first | apply keeps_ite | apply keeps_cupUpdate | apply keeps_putTile)
    | (have x := (); extract_lets +onlyGivenNames x; clear_value x)
    | split

theorem keeps_groupStart {t : Nat} {g : Nat} {s : State} (hm : Sub 192 k) (h : Keeps k s0 s) :
    Keeps k s0 (groupStart t g s) := by
  unfold groupStart
  repeat' first
    | (with_reducible refine hm.of ?_); exact rfl
    | with_reducible assumption
    | (with_reducible first | apply keeps_ite | apply keeps_cupUpdate | apply keeps_putTile)
    | (have x := (); extract_lets +onlyGivenNames x; clear_value x)
    | split

theorem keeps_matEdge {t : Nat} {s : State} (hm : Sub 549755814096 k) (h : Keeps k s0 s) :
    Keeps k s0 (matEdge t s) := by
  unfold matEdge
  repeat' first
    | (with_reducible refine hm.of ?_); exact rfl
    | with_reducible assumption
    | (with_reducible first | refine keeps_forAll ?_ fun _ _ _ => ?_ | apply keeps_chunkApply | apply keeps_groupStart | apply keeps_flushAcc | apply keeps_putTile)
    | (have x := (); extract_lets +onlyGivenNames x; refine keeps_cut k s0 x ?_ fun _ => ?_; rotate_left; clear_value x)
    | (have x := (); extract_lets +onlyGivenNames x; clear_value x)
    | split

theorem keeps_endBlock {t : Nat} {b : Block} {s : State} (hm : Sub 18141941924304 k) (h : Keeps k s0 s) :
    Keeps k s0 (endBlock t b s) := by
  unfold endBlock
  repeat' first
    | (with_reducible refine hm.of ?_); exact rfl
    | with_reducible assumption
    | (with_reducible first | apply keeps_ite | apply keeps_raiseClu | apply keeps_bump | apply keeps_addCtr | apply keeps_alarm | apply keeps_poisonBlock | apply keeps_cupUpdate | apply keeps_recordFirst | apply keeps_putTile)
    | (have x := (); extract_lets +onlyGivenNames x; refine keeps_cut k s0 x ?_ fun _ => ?_; rotate_left; clear_value x)
    | split

theorem keeps_faultBlock {t : Nat} {f : Nat × Nat × Nat} {s : State} (hm : Sub 18141941924304 k) (h : Keeps k s0 s) :
    Keeps k s0 (faultBlock t f s) := by
  unfold faultBlock
  repeat' first
    | (with_reducible refine hm.of ?_); exact rfl
    | with_reducible assumption
    | intro _
    | (with_reducible first | apply keeps_ite | apply keeps_putTile | apply keeps_faultWith)

theorem keeps_issueBlock {t : Nat} {a : BlockArgs} {s : State} (hm : Sub 18141941924304 k) (h : Keeps k s0 s) :
    Keeps k s0 (issueBlock t a s) := by
  unfold issueBlock
  repeat' first
    | (with_reducible refine hm.of ?_); exact rfl
    | with_reducible assumption
    | (with_reducible first | apply keeps_ite | apply keeps_faultBlock | apply keeps_faultTile | apply keeps_startBlock)
    | split

theorem keeps_execBlock {t : Nat} {a : BlockArgs} {s : State} (hm : Sub 18141941924304 k) (h : Keeps k s0 s) :
    KeepsR k s0 (execBlock t a s) := by
  unfold execBlock
  repeat' first
    | (with_reducible refine hm.of ?_); exact rfl
    | with_reducible assumption
    | intro _
    | (with_reducible first | apply keeps_onTile | apply keeps_issueBlock)

theorem keeps_execStatReset {t : Nat} {bank : BitVec 1} {s : State} (hm : Sub 64 k) (h : Keeps k s0 s) :
    KeepsR k s0 (execStatReset t bank s) := by
  unfold execStatReset
  repeat' first
    | (with_reducible refine hm.of ?_); exact rfl
    | with_reducible assumption
    | intro _
    | (with_reducible first | apply keeps_statReset | apply keeps_onTile)

theorem keeps_execMatrixNop {t : Nat} {s : State} (hm : Sub 0 k) (h : Keeps k s0 s) :
    KeepsR k s0 (execMatrixNop t s) := by
  unfold execMatrixNop
  repeat' first
    | (with_reducible refine hm.of ?_); exact rfl
    | with_reducible assumption
    | intro _
    | with_reducible apply keeps_onTile
    | (dsimp only [id])

theorem keeps_execMatChunkTake {t : Nat} {s : State} (hm : Sub 18141941924304 k) (h : Keeps k s0 s) :
    KeepsR k s0 (execMatChunkTake t s) := by
  unfold execMatChunkTake
  repeat' first
    | (with_reducible refine hm.of ?_); exact rfl
    | with_reducible assumption
    | intro _
    | (with_reducible first | apply keeps_ite | apply keeps_onTile | apply keeps_takeChunk)
    | split

theorem keeps_execAbftCompare {t : Nat} {s : State} (hm : Sub 18141941924304 k) (h : Keeps k s0 s) :
    KeepsR k s0 (execAbftCompare t s) := by
  unfold execAbftCompare
  repeat' first
    | (with_reducible refine hm.of ?_); exact rfl
    | with_reducible assumption
    | intro _
    | (with_reducible first | apply keeps_ite | apply keeps_onTile | apply keeps_endBlock)
    | split

end Sys2Proof.Machine
end

