-- ==== Sys2Proof/Laws/KeepsCensus.lean ====
section
/-! SUPPORT. What the operations of Machine/Census.lean keep. -/

namespace Sys2Proof.Machine

variable {k : Nat} {s0 : State}

theorem keeps_censusSend {tag : Option (BitVec 12)} {ctag : BitVec 12} {n : CensusCounts} {s : State} (hm : Sub 2048 k) (h : Keeps k s0 s) :
    Keeps k s0 (censusSend tag ctag n s) := by
  unfold censusSend
  repeat' first
    | (with_reducible refine hm.of ?_); exact rfl
    | with_reducible assumption
    | split
    | (with_reducible first | apply Keeps.put_census)

theorem keeps_censusLand {tag : BitVec 12} {ctag : BitVec 12} {n : CensusCounts} {s : State} (hm : Sub 67600 k) (h : Keeps k s0 s) :
    Keeps k s0 (censusLand tag ctag n s) := by
  unfold censusLand
  repeat' first
    | (with_reducible refine hm.of ?_); exact rfl
    | with_reducible assumption
    | (with_reducible first | apply keeps_bump | apply keeps_putJob)
    | (have x := (); extract_lets +onlyGivenNames x; refine keeps_cut k s0 x ?_ fun _ => ?_; rotate_left; clear_value x)
    | (have x := (); extract_lets +onlyGivenNames x; clear_value x)
    | split
    | dsimp only [x]
    | (with_reducible first | apply Keeps.put_census)

theorem keeps_cenShow {n : Option CensusCounts} {s : State} (hm : Sub 16 k) (h : Keeps k s0 s) :
    Keeps k s0 (cenShow n s) := by
  unfold cenShow
  repeat' first
    | (with_reducible refine hm.of ?_); exact rfl
    | with_reducible assumption
    | (with_reducible first | refine keeps_forAll ?_ fun _ _ _ => ?_ | apply keeps_setReg)

theorem keeps_snapClear {tag : BitVec 12} {ctag : BitVec 12} {s : State} (hm : Sub 65552 k) (h : Keeps k s0 s) :
    Keeps k s0 (snapClear tag ctag s) := by
  unfold snapClear
  repeat' first
    | (with_reducible refine hm.of ?_); exact rfl
    | with_reducible assumption
    | (with_reducible first | apply keeps_cenShow | apply keeps_putJob)
    | (have x := (); extract_lets +onlyGivenNames x; clear_value x)
    | split

theorem keeps_snapClearJob {tag : BitVec 12} {s : State} (hm : Sub 65552 k) (h : Keeps k s0 s) :
    Keeps k s0 (snapClearJob tag s) := by
  unfold snapClearJob
  repeat' first
    | (with_reducible refine hm.of ?_); exact rfl
    | with_reducible assumption
    | (with_reducible first | apply keeps_ite | apply keeps_cenShow | apply keeps_putJob)

theorem keeps_cenQuery {tag : BitVec 12} {ctag : BitVec 12} {snap : Bool} {s : State} (hm : Sub 16 k) (h : Keeps k s0 s) :
    Keeps k s0 (cenQuery tag ctag snap s) := by
  unfold cenQuery
  repeat' first
    | (with_reducible refine hm.of ?_); exact rfl
    | with_reducible assumption
    | with_reducible apply keeps_cenShow

theorem keeps_cenCmd {v : Word} {s : State} (hm : Sub 65552 k) (h : Keeps k s0 s) :
    Keeps k s0 (cenCmd v s) := by
  unfold cenCmd
  repeat' first
    | (with_reducible refine hm.of ?_); exact rfl
    | with_reducible assumption
    | (with_reducible first | apply keeps_bump | apply keeps_snapClearJob | apply keeps_snapClear)
    | (have x := (); extract_lets +onlyGivenNames x; clear_value x)
    | split

theorem keeps_execCensusEvent {tag : BitVec 12} {ctag : BitVec 12} {n : CensusCounts} {s : State} (hm : Sub 67600 k) (h : Keeps k s0 s) :
    KeepsR k s0 (execCensusEvent tag ctag n s) := by
  unfold execCensusEvent
  repeat' first
    | (with_reducible refine hm.of ?_); exact rfl
    | with_reducible assumption
    | (with_reducible first | apply keepsR_next | apply keeps_censusLand)

theorem keeps_execSnapClear {tag : BitVec 12} {ctag : BitVec 12} {s : State} (hm : Sub 65552 k) (h : Keeps k s0 s) :
    KeepsR k s0 (execSnapClear tag ctag s) := by
  unfold execSnapClear
  repeat' first
    | (with_reducible refine hm.of ?_); exact rfl
    | with_reducible assumption
    | (with_reducible first | apply keepsR_next | apply keeps_snapClear)

theorem keeps_execSnapClearJob {tag : BitVec 12} {s : State} (hm : Sub 65552 k) (h : Keeps k s0 s) :
    KeepsR k s0 (execSnapClearJob tag s) := by
  unfold execSnapClearJob
  repeat' first
    | (with_reducible refine hm.of ?_); exact rfl
    | with_reducible assumption
    | (with_reducible first | apply keepsR_next | apply keeps_snapClearJob)

theorem keeps_execCenQuery {tag : BitVec 12} {snap : Bool} {ctag : BitVec 12} {s : State} (hm : Sub 16 k) (h : Keeps k s0 s) :
    KeepsR k s0 (execCenQuery tag snap ctag s) := by
  unfold execCenQuery
  repeat' first
    | (with_reducible refine hm.of ?_); exact rfl
    | with_reducible assumption
    | (with_reducible first | apply keepsR_next | apply keeps_cenQuery)

end Sys2Proof.Machine
end

