-- ==== Sys2Proof/Laws/KeepsVector.lean ====
section
/-! SUPPORT. What the operations of Machine/Vector.lean keep. -/

namespace Sys2Proof.Machine

variable {k : Nat} {s0 : State}

theorem keeps_localWrite {t : Nat} {q : State × Tbl Nat} {w : VWrite} (hm : Sub 575525617680 k) (h : Keeps k s0 q.1) :
    Keeps k s0 ((localWrite t q w).1) := by
  unfold localWrite
  repeat' first
    | (with_reducible refine hm.of ?_); exact rfl
    | with_reducible assumption
    | (with_reducible first | apply keeps_ite | apply keeps_applyWrite | apply keeps_setRegF)
    | (have x := (); extract_lets +onlyGivenNames x; refine keeps_cut k s0 x ?_ fun _ => ?_; rotate_left; clear_value x)
    | (have x := (); extract_lets +onlyGivenNames x; clear_value x)
    | split

theorem keeps_recordVec {t : Nat} {code : Nat} {sub : Nat} {opnd : Nat} {place : Option (Nat × Int)} {s : State} (hm : Sub 16 k) (h : Keeps k s0 s) :
    Keeps k s0 (recordVec t code sub opnd place s) := by
  unfold recordVec
  repeat' first
    | (with_reducible refine hm.of ?_); exact rfl
    | with_reducible assumption
    | (with_reducible first | apply keeps_ite | apply keeps_setReg)
    | (have x := (); extract_lets +onlyGivenNames x; refine keeps_cut k s0 x ?_ fun _ => ?_; rotate_left; clear_value x)
    | split

theorem keeps_faultVec {t : Nat} {code : Nat} {sub : Nat} {opnd : Nat} {place : Option (Nat × Int)} {s : State} (hm : Sub 18141941924304 k) (h : Keeps k s0 s) :
    Keeps k s0 (faultVec t code sub opnd place s) := by
  unfold faultVec
  repeat' first
    | (with_reducible refine hm.of ?_); exact rfl
    | with_reducible assumption
    | intro _
    | (with_reducible first | apply keeps_recordVec | apply keeps_faultWith)

theorem keeps_remoteWrites {t : Nat} {msg : Nat} {ws : List VWrite} {s : State} (hm : Sub 18141969188304 k) (h : Keeps k s0 s) :
    Keeps k s0 ((remoteWrites t msg ws s).2) := by
  unfold remoteWrites
  repeat' first
    | (with_reducible refine hm.of ?_); exact rfl
    | with_reducible assumption
    | (with_reducible first | refine keeps_forAll2 ?_ fun _ _ _ => ?_ | apply keeps_windowRow | apply keeps_faultVec)
    | (have x := (); extract_lets +onlyGivenNames x; refine keeps_cut k s0 x ?_ fun _ => ?_; rotate_left; clear_value x)
    | (have x := (); extract_lets +onlyGivenNames x; clear_value x)
    | split

theorem keeps_closeMessage {t : Nat} {msg : Nat} {p : VPlan} {s : State} (hm : Sub 27264016 k) (h : Keeps k s0 s) :
    Keeps k s0 (closeMessage t msg p s) := by
  unfold closeMessage
  repeat' first
    | (with_reducible refine hm.of ?_); exact rfl
    | with_reducible assumption
    | (with_reducible first | apply keeps_msgSettle | apply keeps_putMsg)
    | (have x := (); extract_lets +onlyGivenNames x; clear_value x)
    | split

theorem keeps_eccRead {t : Nat} {s : State} (hm : Sub 18141941924304 k) (h : Keeps k s0 s) :
    Keeps k s0 (eccRead t s) := by
  unfold eccRead
  repeat' first
    | (with_reducible refine hm.of ?_); exact rfl
    | with_reducible assumption
    | (with_reducible first | apply keeps_ite | apply keeps_faultTile | apply keeps_alarm | apply keeps_putTile)

theorem keeps_eccCarafe {t : Nat} {s : State} (hm : Sub 18141941957072 k) (h : Keeps k s0 s) :
    Keeps k s0 (eccCarafe t s) := by
  unfold eccCarafe
  repeat' first
    | (with_reducible refine hm.of ?_); exact rfl
    | with_reducible assumption
    | (with_reducible first | apply keeps_ite | apply keeps_pageEcc | apply keeps_stopCluster)

theorem keeps_putRun {t : Nat} {r : VecRun} {s : State} (hm : Sub 64 k) (h : Keeps k s0 s) :
    Keeps k s0 (putRun t r s) := by
  unfold putRun
  repeat' first
    | (with_reducible refine hm.of ?_); exact rfl
    | with_reducible assumption
    | with_reducible apply keeps_putTile
    | (have x := (); extract_lets +onlyGivenNames x; clear_value x)
    | split

theorem keeps_runWritten {t : Nat} {st : Nat} {r : VecRun} {s : State} (hm : Sub 27264080 k) (h : Keeps k s0 s) :
    Keeps k s0 (runWritten t st r s) := by
  unfold runWritten
  repeat' first
    | (with_reducible refine hm.of ?_); exact rfl
    | with_reducible assumption
    | (with_reducible first | apply keeps_ite | apply keeps_putRun | apply keeps_putMsg | apply keeps_closeMessage)

theorem keeps_vecEdge {t : Nat} {s : State} (hm : Sub 18167739024848 k) (h : Keeps k s0 s) :
    Keeps k s0 (vecEdge t s) := by
  unfold vecEdge
  repeat' first
    | (with_reducible refine hm.of ?_); exact rfl
    | with_reducible assumption
    | (with_reducible first | apply keeps_ite | refine keeps_foldl1 (fun _ _ _ => ?_) _ _ ?_ | apply keeps_remoteWrites | apply keeps_eccRead | apply keeps_runWritten | apply keeps_faultTile | apply keeps_addCtr | apply keeps_localWrite | apply keeps_eccCarafe | apply keeps_faultVec)
    | (have x := (); extract_lets +onlyGivenNames x; clear_value x)
    | split

theorem keeps_carEdge {c : Nat} {uses : List (Nat × Nat)} {s : State} (hm : Sub 18141941924304 k) (h : Keeps k s0 s) :
    Keeps k s0 (carEdge c uses s) := by
  unfold carEdge
  repeat' first
    | (with_reducible refine hm.of ?_); exact rfl
    | with_reducible assumption
    | (with_reducible first | apply keeps_ite | apply keeps_stopCluster | apply keeps_errOnly | apply keeps_faultCar)
    | split

theorem keeps_vecBegin {t : Nat} {en : VecEntry} {p : VPlan} {s : State} (hm : Sub 1088 k) (h : Keeps k s0 s) :
    Keeps k s0 (vecBegin t en p s) := by
  unfold vecBegin
  repeat' first
    | (with_reducible refine hm.of ?_); exact rfl
    | with_reducible assumption
    | (with_reducible first | apply keeps_ite | apply keeps_putMsg | apply keeps_putTile)

theorem keeps_vecStart {t : Nat} {s : State} (hm : Sub 18141941925328 k) (h : Keeps k s0 s) :
    Keeps k s0 (vecStart t s) := by
  unfold vecStart
  repeat' first
    | (with_reducible refine hm.of ?_); exact rfl
    | with_reducible assumption
    | (with_reducible first | apply keeps_vecBegin | apply keeps_faultVec | apply keeps_putTile)
    | (have x := (); extract_lets +onlyGivenNames x; clear_value x)
    | split

theorem keeps_vecHead {t : Nat} {s : State} (hm : Sub 18141941925328 k) (h : Keeps k s0 s) :
    Keeps k s0 (vecHead t s) := by
  unfold vecHead
  repeat' first
    | (with_reducible refine hm.of ?_); exact rfl
    | with_reducible assumption
    | (with_reducible first | apply keeps_ite | apply keeps_vecStart)

theorem keeps_vecEnqueue {t : Nat} {opc : Nat} {a : VecArgs} {s : State} (hm : Sub 18141941925328 k) (h : Keeps k s0 s) :
    Keeps k s0 (vecEnqueue t opc a s) := by
  unfold vecEnqueue
  repeat' first
    | (with_reducible refine hm.of ?_); exact rfl
    | with_reducible assumption
    | (with_reducible first | apply keeps_ite | apply keeps_vecHead | apply keeps_putTile)

theorem keeps_vecIssue {opc : Nat} {t : Nat} {a : VecArgs} {s : State} (hm : Sub 18141941925328 k) (h : Keeps k s0 s) :
    Keeps k s0 (vecIssue opc t a s) := by
  unfold vecIssue
  repeat' first
    | (with_reducible refine hm.of ?_); exact rfl
    | with_reducible assumption
    | (with_reducible first | apply keeps_ite | apply keeps_faultTile | apply keeps_vecEnqueue)

theorem keeps_vecComplete {t : Nat} {s : State} (hm : Sub 2136 k) (h : Keeps k s0 s) :
    Keeps k s0 (vecComplete t s) := by
  unfold vecComplete
  repeat' first
    | (with_reducible refine hm.of ?_); exact rfl
    | with_reducible assumption
    | (with_reducible first | apply keeps_ite | apply keeps_setReg | apply keeps_bump | apply keeps_addCtr | apply keeps_censusSend | apply keeps_putTile | apply keeps_drawFree)
    | (have x := (); extract_lets +onlyGivenNames x; clear_value x)
    | split

theorem keeps_execVectorInstrComplete {t : Nat} {s : State} (hm : Sub 2136 k) (h : Keeps k s0 s) :
    KeepsR k s0 (execVectorInstrComplete t s) := by
  unfold execVectorInstrComplete
  repeat' first
    | (with_reducible refine hm.of ?_); exact rfl
    | with_reducible assumption
    | intro _
    | (with_reducible first | apply keeps_onTile | apply keeps_vecComplete)

theorem keeps_execVectorNop {t : Nat} {s : State} (hm : Sub 0 k) (h : Keeps k s0 s) :
    KeepsR k s0 (execVectorNop t s) := by
  unfold execVectorNop
  repeat' first
    | (with_reducible refine hm.of ?_); exact rfl
    | with_reducible assumption
    | intro _
    | with_reducible apply keeps_onTile
    | (dsimp only [id])

theorem keeps_execVecAdd {t : Nat} {a : VecArgs} {s : State} (hm : Sub 18141941925328 k) (h : Keeps k s0 s) :
    KeepsR k s0 (execVecAdd t a s) := by
  unfold execVecAdd
  repeat' first
    | (with_reducible refine hm.of ?_); exact rfl
    | with_reducible assumption
    | intro _
    | (with_reducible first | apply keeps_onTile | apply keeps_vecIssue)

theorem keeps_execVecSub {t : Nat} {a : VecArgs} {s : State} (hm : Sub 18141941925328 k) (h : Keeps k s0 s) :
    KeepsR k s0 (execVecSub t a s) := by
  unfold execVecSub
  repeat' first
    | (with_reducible refine hm.of ?_); exact rfl
    | with_reducible assumption
    | intro _
    | (with_reducible first | apply keeps_onTile | apply keeps_vecIssue)

theorem keeps_execVecMul {t : Nat} {a : VecArgs} {s : State} (hm : Sub 18141941925328 k) (h : Keeps k s0 s) :
    KeepsR k s0 (execVecMul t a s) := by
  unfold execVecMul
  repeat' first
    | (with_reducible refine hm.of ?_); exact rfl
    | with_reducible assumption
    | intro _
    | (with_reducible first | apply keeps_onTile | apply keeps_vecIssue)

theorem keeps_execVecFma {t : Nat} {a : VecArgs} {s : State} (hm : Sub 18141941925328 k) (h : Keeps k s0 s) :
    KeepsR k s0 (execVecFma t a s) := by
  unfold execVecFma
  repeat' first
    | (with_reducible refine hm.of ?_); exact rfl
    | with_reducible assumption
    | intro _
    | (with_reducible first | apply keeps_onTile | apply keeps_vecIssue)

theorem keeps_execVecMin {t : Nat} {a : VecArgs} {s : State} (hm : Sub 18141941925328 k) (h : Keeps k s0 s) :
    KeepsR k s0 (execVecMin t a s) := by
  unfold execVecMin
  repeat' first
    | (with_reducible refine hm.of ?_); exact rfl
    | with_reducible assumption
    | intro _
    | (with_reducible first | apply keeps_onTile | apply keeps_vecIssue)

theorem keeps_execVecMax {t : Nat} {a : VecArgs} {s : State} (hm : Sub 18141941925328 k) (h : Keeps k s0 s) :
    KeepsR k s0 (execVecMax t a s) := by
  unfold execVecMax
  repeat' first
    | (with_reducible refine hm.of ?_); exact rfl
    | with_reducible assumption
    | intro _
    | (with_reducible first | apply keeps_onTile | apply keeps_vecIssue)

theorem keeps_execVecAbs {t : Nat} {a : VecArgs} {s : State} (hm : Sub 18141941925328 k) (h : Keeps k s0 s) :
    KeepsR k s0 (execVecAbs t a s) := by
  unfold execVecAbs
  repeat' first
    | (with_reducible refine hm.of ?_); exact rfl
    | with_reducible assumption
    | intro _
    | (with_reducible first | apply keeps_onTile | apply keeps_vecIssue)

theorem keeps_execVecSign {t : Nat} {a : VecArgs} {s : State} (hm : Sub 18141941925328 k) (h : Keeps k s0 s) :
    KeepsR k s0 (execVecSign t a s) := by
  unfold execVecSign
  repeat' first
    | (with_reducible refine hm.of ?_); exact rfl
    | with_reducible assumption
    | intro _
    | (with_reducible first | apply keeps_onTile | apply keeps_vecIssue)

theorem keeps_execVecCmp {t : Nat} {a : VecArgs} {s : State} (hm : Sub 18141941925328 k) (h : Keeps k s0 s) :
    KeepsR k s0 (execVecCmp t a s) := by
  unfold execVecCmp
  repeat' first
    | (with_reducible refine hm.of ?_); exact rfl
    | with_reducible assumption
    | intro _
    | (with_reducible first | apply keeps_onTile | apply keeps_vecIssue)

theorem keeps_execVecSel {t : Nat} {a : VecArgs} {s : State} (hm : Sub 18141941925328 k) (h : Keeps k s0 s) :
    KeepsR k s0 (execVecSel t a s) := by
  unfold execVecSel
  repeat' first
    | (with_reducible refine hm.of ?_); exact rfl
    | with_reducible assumption
    | intro _
    | (with_reducible first | apply keeps_onTile | apply keeps_vecIssue)

theorem keeps_execVecCvt {t : Nat} {a : VecArgs} {s : State} (hm : Sub 18141941925328 k) (h : Keeps k s0 s) :
    KeepsR k s0 (execVecCvt t a s) := by
  unfold execVecCvt
  repeat' first
    | (with_reducible refine hm.of ?_); exact rfl
    | with_reducible assumption
    | intro _
    | (with_reducible first | apply keeps_onTile | apply keeps_vecIssue)

theorem keeps_execVecMlog {t : Nat} {a : VecArgs} {s : State} (hm : Sub 18141941925328 k) (h : Keeps k s0 s) :
    KeepsR k s0 (execVecMlog t a s) := by
  unfold execVecMlog
  repeat' first
    | (with_reducible refine hm.of ?_); exact rfl
    | with_reducible assumption
    | intro _
    | (with_reducible first | apply keeps_onTile | apply keeps_vecIssue)

theorem keeps_execVecSfu {t : Nat} {a : VecArgs} {s : State} (hm : Sub 18141941925328 k) (h : Keeps k s0 s) :
    KeepsR k s0 (execVecSfu t a s) := by
  unfold execVecSfu
  repeat' first
    | (with_reducible refine hm.of ?_); exact rfl
    | with_reducible assumption
    | intro _
    | (with_reducible first | apply keeps_onTile | apply keeps_vecIssue)

theorem keeps_execVecRsum {t : Nat} {a : VecArgs} {s : State} (hm : Sub 18141941925328 k) (h : Keeps k s0 s) :
    KeepsR k s0 (execVecRsum t a s) := by
  unfold execVecRsum
  repeat' first
    | (with_reducible refine hm.of ?_); exact rfl
    | with_reducible assumption
    | intro _
    | (with_reducible first | apply keeps_onTile | apply keeps_vecIssue)

theorem keeps_execVecRmax {t : Nat} {a : VecArgs} {s : State} (hm : Sub 18141941925328 k) (h : Keeps k s0 s) :
    KeepsR k s0 (execVecRmax t a s) := by
  unfold execVecRmax
  repeat' first
    | (with_reducible refine hm.of ?_); exact rfl
    | with_reducible assumption
    | intro _
    | (with_reducible first | apply keeps_onTile | apply keeps_vecIssue)

theorem keeps_execVecRmin {t : Nat} {a : VecArgs} {s : State} (hm : Sub 18141941925328 k) (h : Keeps k s0 s) :
    KeepsR k s0 (execVecRmin t a s) := by
  unfold execVecRmin
  repeat' first
    | (with_reducible refine hm.of ?_); exact rfl
    | with_reducible assumption
    | intro _
    | (with_reducible first | apply keeps_onTile | apply keeps_vecIssue)

theorem keeps_execVecRargmax {t : Nat} {a : VecArgs} {s : State} (hm : Sub 18141941925328 k) (h : Keeps k s0 s) :
    KeepsR k s0 (execVecRargmax t a s) := by
  unfold execVecRargmax
  repeat' first
    | (with_reducible refine hm.of ?_); exact rfl
    | with_reducible assumption
    | intro _
    | (with_reducible first | apply keeps_onTile | apply keeps_vecIssue)

theorem keeps_execVecRargmin {t : Nat} {a : VecArgs} {s : State} (hm : Sub 18141941925328 k) (h : Keeps k s0 s) :
    KeepsR k s0 (execVecRargmin t a s) := by
  unfold execVecRargmin
  repeat' first
    | (with_reducible refine hm.of ?_); exact rfl
    | with_reducible assumption
    | intro _
    | (with_reducible first | apply keeps_onTile | apply keeps_vecIssue)

theorem keeps_execVecRlse {t : Nat} {a : VecArgs} {s : State} (hm : Sub 18141941925328 k) (h : Keeps k s0 s) :
    KeepsR k s0 (execVecRlse t a s) := by
  unfold execVecRlse
  repeat' first
    | (with_reducible refine hm.of ?_); exact rfl
    | with_reducible assumption
    | intro _
    | (with_reducible first | apply keeps_onTile | apply keeps_vecIssue)

theorem keeps_execVecRsumsq {t : Nat} {a : VecArgs} {s : State} (hm : Sub 18141941925328 k) (h : Keeps k s0 s) :
    KeepsR k s0 (execVecRsumsq t a s) := by
  unfold execVecRsumsq
  repeat' first
    | (with_reducible refine hm.of ?_); exact rfl
    | with_reducible assumption
    | intro _
    | (with_reducible first | apply keeps_onTile | apply keeps_vecIssue)

theorem keeps_execVecRmean {t : Nat} {a : VecArgs} {s : State} (hm : Sub 18141941925328 k) (h : Keeps k s0 s) :
    KeepsR k s0 (execVecRmean t a s) := by
  unfold execVecRmean
  repeat' first
    | (with_reducible refine hm.of ?_); exact rfl
    | with_reducible assumption
    | intro _
    | (with_reducible first | apply keeps_onTile | apply keeps_vecIssue)

theorem keeps_execVecScan {t : Nat} {a : VecArgs} {s : State} (hm : Sub 18141941925328 k) (h : Keeps k s0 s) :
    KeepsR k s0 (execVecScan t a s) := by
  unfold execVecScan
  repeat' first
    | (with_reducible refine hm.of ?_); exact rfl
    | with_reducible assumption
    | intro _
    | (with_reducible first | apply keeps_onTile | apply keeps_vecIssue)

theorem keeps_execVecPerm {t : Nat} {a : VecArgs} {s : State} (hm : Sub 18141941925328 k) (h : Keeps k s0 s) :
    KeepsR k s0 (execVecPerm t a s) := by
  unfold execVecPerm
  repeat' first
    | (with_reducible refine hm.of ?_); exact rfl
    | with_reducible assumption
    | intro _
    | (with_reducible first | apply keeps_onTile | apply keeps_vecIssue)

theorem keeps_execVecTopk {t : Nat} {a : VecArgs} {s : State} (hm : Sub 18141941925328 k) (h : Keeps k s0 s) :
    KeepsR k s0 (execVecTopk t a s) := by
  unfold execVecTopk
  repeat' first
    | (with_reducible refine hm.of ?_); exact rfl
    | with_reducible assumption
    | intro _
    | (with_reducible first | apply keeps_onTile | apply keeps_vecIssue)

theorem keeps_execVecBscale {t : Nat} {a : VecArgs} {s : State} (hm : Sub 18141941925328 k) (h : Keeps k s0 s) :
    KeepsR k s0 (execVecBscale t a s) := by
  unfold execVecBscale
  repeat' first
    | (with_reducible refine hm.of ?_); exact rfl
    | with_reducible assumption
    | intro _
    | (with_reducible first | apply keeps_onTile | apply keeps_vecIssue)

theorem keeps_execVecCensus {t : Nat} {a : VecArgs} {s : State} (hm : Sub 18141941925328 k) (h : Keeps k s0 s) :
    KeepsR k s0 (execVecCensus t a s) := by
  unfold execVecCensus
  repeat' first
    | (with_reducible refine hm.of ?_); exact rfl
    | with_reducible assumption
    | intro _
    | (with_reducible first | apply keeps_onTile | apply keeps_vecIssue)

end Sys2Proof.Machine
end

