-- ==== Sys2Proof/Laws/KeepsSequencer.lean ====
section
/-! SUPPORT. What the operations of Machine/Sequencer.lean keep. -/

namespace Sys2Proof.Machine

variable {k : Nat} {s0 : State}

theorem keeps_raiseIssue {t : Nat} {f : IssueFault} {s : State} (hm : Sub 18141941924304 k) (h : Keeps k s0 s) :
    Keeps k s0 (raiseIssue t f s) := by
  unfold raiseIssue
  repeat' first
    | (with_reducible refine hm.of ?_); exact rfl
    | with_reducible assumption
    | intro _
    | (with_reducible first | apply keeps_faultBlock | apply keeps_faultTile | apply keeps_recordFirst | apply keeps_faultNet | apply keeps_putTile | apply keeps_faultWith)
    | (have x := (); extract_lets +onlyGivenNames x; clear_value x)
    | split

theorem keeps_noteAccess {t : Nat} {rows : List Nat} {isRead : Bool} {s : State} (hm : Sub 64 k) (h : Keeps k s0 s) :
    Keeps k s0 (noteAccess t rows isRead s) := by
  unfold noteAccess
  repeat' first
    | (with_reducible refine hm.of ?_); exact rfl
    | with_reducible assumption
    | with_reducible apply keeps_putTile

theorem keeps_portRead {t : Nat} {port : Nat} {route : Nat} {u : GenUse} {s : State} (hm : Sub 18141941924304 k) (h : Keeps k s0 s) :
    Keeps k s0 (portRead t port route u s) := by
  unfold portRead
  repeat' first
    | (with_reducible refine hm.of ?_); exact rfl
    | with_reducible assumption
    | (with_reducible first | apply keeps_noteAccess | apply keeps_eccRead | apply keeps_putTile)

theorem keeps_popHead {t : Nat} {net : Nat} {s : State} (hm : Sub 64 k) (h : Keeps k s0 s) :
    Keeps k s0 ((popHead t net s).2) := by
  unfold popHead
  repeat' first
    | (with_reducible refine hm.of ?_); exact rfl
    | with_reducible assumption
    | with_reducible apply keeps_putTile
    | (have x := (); extract_lets +onlyGivenNames x; clear_value x)
    | split

theorem keeps_portWrite {t : Nat} {row : Nat} {s : State} (hm : Sub 8589934656 k) (h : Keeps k s0 s) :
    Keeps k s0 (portWrite t row s) := by
  unfold portWrite
  repeat' first
    | (with_reducible refine hm.of ?_); exact rfl
    | with_reducible assumption
    | intro _
    | (with_reducible first | apply keeps_noteAccess | apply keeps_popHead | exact setRow_wf _ _ (by assumption))
    | (have x := (); extract_lets +onlyGivenNames x; refine keeps_cut k s0 x ?_ fun _ => ?_; rotate_left; clear_value x)
    | (have x := (); extract_lets +onlyGivenNames x; refine keeps_cut2 k s0 x ?_ fun _ => ?_; rotate_left; clear_value x)
    | ((have x := (); extract_lets +onlyGivenNames x; first | (have u : Stores := x; clear u) | (have u : Mem := x; clear u) | (have u := fun a => x a; clear u)); dsimp -zeta only [x]; clear x)
    | split
    | (with_reducible first | apply Keeps.put_mSp)

theorem keeps_portSlot {t : Nat} {port : Nat} {op : PortOp} {s : State} (hm : Sub 18150531858896 k) (h : Keeps k s0 s) :
    Keeps k s0 (portSlot t port op s) := by
  unfold portSlot
  repeat' first
    | (with_reducible refine hm.of ?_); exact rfl
    | with_reducible assumption
    | (with_reducible first | apply keeps_portWrite | apply keeps_portRead | apply keeps_putTile)
    | (have x := (); extract_lets +onlyGivenNames x; clear_value x)
    | split

theorem keeps_swVector {t : Nat} {vop : Nat} {s : State} (hm : Sub 18141941924304 k) (h : Keeps k s0 s) :
    Keeps k s0 (swVector t vop s) := by
  unfold swVector
  repeat' first
    | (with_reducible refine hm.of ?_); exact rfl
    | with_reducible assumption
    | (with_reducible first | apply keeps_ite | apply keeps_scaleIn | apply keeps_popHead | apply keeps_streamIn)
    | (have x := (); extract_lets +onlyGivenNames x; refine keeps_cut2 k s0 x ?_ fun _ => ?_; rotate_left; clear_value x)
    | split

theorem keeps_wctrAdd {c : Nat} {n : Nat} {v : Word} {s : State} (hm : Sub 16 k) (h : Keeps k s0 s) :
    Keeps k s0 ((wctrAdd c n v s).2) := by
  unfold wctrAdd
  repeat' first
    | (with_reducible refine hm.of ?_); exact rfl
    | with_reducible assumption
    | with_reducible apply keeps_setReg

theorem keeps_wfaTake {c : Nat} {n : Nat} {s : State} (hm : Sub 144 k) (h : Keeps k s0 s) :
    Keeps k s0 ((wfaTake c n s).2) := by
  unfold wfaTake
  repeat' first
    | (with_reducible refine hm.of ?_); exact rfl
    | with_reducible assumption
    | (with_reducible first | apply keeps_wctrAdd | apply keeps_putClu)
    | (have x := (); extract_lets +onlyGivenNames x; refine keeps_cut2 k s0 x ?_ fun _ => ?_; rotate_left; clear_value x)
    | (have x := (); extract_lets +onlyGivenNames x; clear_value x)
    | split

theorem keeps_swScalar {t : Nat} {sop : Nat} {n : BitVec 3} {cn : BitVec 16} {k' : BitVec 2} {s : State} (hm : Sub 18141941924304 k) (h : Keeps k s0 s) :
    Keeps k s0 (swScalar t sop n cn k' s) := by
  unfold swScalar
  repeat' first
    | (with_reducible refine hm.of ?_); exact rfl
    | with_reducible assumption
    | (with_reducible first | apply keeps_setReg | apply keeps_inject | apply keeps_wfaTake | apply keeps_popHead | apply keeps_putTile)
    | (have x := (); extract_lets +onlyGivenNames x; refine keeps_cut2 k s0 x ?_ fun _ => ?_; rotate_left; clear_value x)
    | (have x := (); extract_lets +onlyGivenNames x; clear_value x)
    | split

theorem keeps_swControl {t : Nat} {cop : Nat} {n : BitVec 3} {cn : BitVec 16} {imm : Nat} {k' : BitVec 2} {s : State} (hm : Sub 18141941924304 k) (h : Keeps k s0 s) :
    Keeps k s0 (swControl t cop n cn imm k' s) := by
  unfold swControl
  repeat' first
    | (with_reducible refine hm.of ?_); exact rfl
    | with_reducible assumption
    | (with_reducible first | apply keeps_inject | apply keeps_popHead | apply keeps_putTile)
    | (have x := (); extract_lets +onlyGivenNames x; refine keeps_cut2 k s0 x ?_ fun _ => ?_; rotate_left; clear_value x)
    | split

theorem keeps_seqSlot {t : Nat} {op : SeqOp} {cn : BitVec 16} {s : State} (hm : Sub 80 k) (h : Keeps k s0 s) :
    Keeps k s0 (seqSlot t op cn s) := by
  unfold seqSlot
  repeat' first
    | (with_reducible refine hm.of ?_); exact rfl
    | with_reducible assumption
    | (with_reducible first | apply keeps_ite | apply keeps_bump | apply keeps_putTile)
    | (have x := (); extract_lets +onlyGivenNames x; clear_value x)
    | split

theorem keeps_advancePc {t : Nat} {s : State} (hm : Sub 64 k) (h : Keeps k s0 s) :
    Keeps k s0 (advancePc t s) := by
  unfold advancePc
  repeat' first
    | (with_reducible refine hm.of ?_); exact rfl
    | with_reducible assumption
    | with_reducible apply keeps_putTile

theorem keeps_matSlot {t : Nat} {op : MatOp} {s : State} (hm : Sub 80 k) (h : Keeps k s0 s) :
    Keeps k s0 (matSlot t op s) := by
  unfold matSlot
  repeat' first
    | (with_reducible refine hm.of ?_); exact rfl
    | with_reducible assumption
    | (with_reducible first | apply keeps_statReset | apply keeps_startBlock)
    | split

theorem keeps_bundleEffects {k : Nat} {s0 : State} {t : Nat} {b : Bundle} {s : State} (hm : Sub 18150531859920 k) (h : Keeps k s0 s) :
    Keeps k s0 (bundleEffects t b s) := by
  have seq : ∀ {op v s}, Keeps k s0 s → Keeps k s0 (seqSlot t op v s) := fun h => keeps_seqSlot (hm.of rfl) h
  unfold bundleEffects
  extract_lets x cn q s1 s2 s3 s4
  have h1 : Keeps k s0 s1 := by
    unfold s1; split
    · exact keeps_vecEnqueue (hm.of rfl) h
    · exact h
  have h2 : Keeps k s0 s2 := keeps_swVector (hm.of rfl) (keeps_portSlot (hm.of rfl) (keeps_portSlot (hm.of rfl) h1))
  have h3 : Keeps k s0 s3 := keeps_matSlot (hm.of rfl) h2
  have h4 : Keeps k s0 s4 := by
    refine keeps_swControl (hm.of rfl) (keeps_swScalar (hm.of rfl) ?_)
    split
    · exact seq h3
    · exact seq h3
    · exact h3
  clear_value s4
  split
  · exact seq h4
  · exact keeps_advancePc (hm.of rfl) (seq h4)
  · exact keeps_advancePc (hm.of rfl) h4

theorem keeps_tileIssue {s0' : State} {cyc : Nat} {len : Nat} {t : Nat} {s : State} (hm : Sub 18150531859920 k) (h : Keeps k s0 s) :
    Keeps k s0 (tileIssue s0' cyc len t s) := by
  unfold tileIssue
  repeat' first
    | (with_reducible refine hm.of ?_); exact rfl
    | with_reducible assumption
    | (with_reducible first | apply keeps_ite | apply keeps_bundleEffects)

theorem keeps_tileFaults {s0' : State} {cyc : Nat} {len : Nat} {t : Nat} {s : State} (hm : Sub 18150531859920 k) (h : Keeps k s0 s) :
    Keeps k s0 (tileFaults s0' cyc len t s) := by
  unfold tileFaults
  repeat' first
    | (with_reducible refine hm.of ?_); exact rfl
    | with_reducible assumption
    | (with_reducible first | apply keeps_ite | apply keeps_faultTile | apply keeps_raiseIssue | apply keeps_faultVec)
    | (have x := (); extract_lets +onlyGivenNames x; refine keeps_cut k s0 x ?_ fun _ => ?_; rotate_left; clear_value x)
    | (have x := (); extract_lets +onlyGivenNames x; clear_value x)
    | split

theorem keeps_bundleIssue {c : Nat} {s : State} (hm : Sub 18150531859920 k) (h : Keeps k s0 s) :
    Keeps k s0 (bundleIssue c s) := by
  unfold bundleIssue
  repeat' first
    | (with_reducible refine hm.of ?_); exact rfl
    | with_reducible assumption
    | (with_reducible first | apply keeps_ite | refine keeps_forAll ?_ fun _ _ _ => ?_ | apply keeps_bump | apply keeps_tileIssue | apply keeps_tileFaults | apply keeps_stopTile | apply keeps_putWalker)

theorem keeps_portDeliver {t : Nat} {s : State} (hm : Sub 18554258784720 k) (h : Keeps k s0 s) :
    Keeps k s0 (portDeliver t s) := by
  unfold portDeliver
  repeat' first
    | (with_reducible refine hm.of ?_); exact rfl
    | with_reducible assumption
    | (with_reducible first | apply keeps_ite | apply keeps_scaleIn | apply keeps_scaleLoad | apply keeps_inject | apply keeps_statLoad | apply keeps_streamIn | apply keeps_putTile)
    | (have x := (); extract_lets +onlyGivenNames x; refine keeps_cut k s0 x ?_ fun _ => ?_; rotate_left; clear_value x)
    | (have x := (); extract_lets +onlyGivenNames x; clear_value x)
    | split

theorem keeps_wfaResult {t : Nat} {s : State} (hm : Sub 64 k) (h : Keeps k s0 s) :
    Keeps k s0 (wfaResult t s) := by
  unfold wfaResult
  repeat' first
    | (with_reducible refine hm.of ?_); exact rfl
    | with_reducible assumption
    | (with_reducible first | apply keeps_ite | apply keeps_putTile)
    | (have x := (); extract_lets +onlyGivenNames x; clear_value x)
    | split

theorem keeps_wfaEdge {t : Nat} {s : State} (hm : Sub 64 k) (h : Keeps k s0 s) :
    Keeps k s0 (wfaEdge t s) := by
  unfold wfaEdge
  repeat' first
    | (with_reducible refine hm.of ?_); exact rfl
    | with_reducible assumption
    | with_reducible apply keeps_putTile

theorem keeps_slotAlone {t : Nat} {b : Bundle} {act : State → State} {s : State} (hm : Sub 18141941924304 k) (h : Keeps k s0 s) (hact : ∀ (y0 : State), Keeps k s0 y0 → Keeps k s0 (act y0)) :
    Keeps k s0 (slotAlone t b act s) := by
  unfold slotAlone
  repeat' first
    | (with_reducible refine hm.of ?_); exact rfl
    | with_reducible assumption
    | (with_reducible first | apply keeps_ite | apply keeps_faultTile | apply keeps_raiseIssue | apply hact)
    | split

theorem keeps_seqAlone {t : Nat} {op : SeqOp} {s : State} (hm : Sub 18141941924304 k) (h : Keeps k s0 s) :
    Keeps k s0 (seqAlone t op s) := by
  unfold seqAlone
  repeat' first
    | (with_reducible refine hm.of ?_); exact rfl
    | with_reducible assumption
    | intro _
    | (with_reducible first | apply keeps_slotAlone | apply keeps_seqSlot)

theorem keeps_portAlone {t : Nat} {port : Nat} {op : PortOp} {s : State} (hm : Sub 18150531858896 k) (h : Keeps k s0 s) :
    Keeps k s0 (portAlone t port op s) := by
  unfold portAlone
  repeat' first
    | (with_reducible refine hm.of ?_); exact rfl
    | with_reducible assumption
    | intro _
    | (with_reducible first | apply keeps_ite | apply keeps_faultTile | apply keeps_portSlot | apply keeps_slotAlone)

theorem keeps_swAlone {t : Nat} {w : SwOp} {s : State} (hm : Sub 18141941924304 k) (h : Keeps k s0 s) :
    Keeps k s0 (swAlone t w s) := by
  unfold swAlone
  repeat' first
    | (with_reducible refine hm.of ?_); exact rfl
    | with_reducible assumption
    | intro _
    | (with_reducible first | apply keeps_swControl | apply keeps_slotAlone | apply keeps_swVector | apply keeps_swScalar)

theorem keeps_phaseEndAlone {t : Nat} {s : State} (hm : Sub 18141941924304 k) (h : Keeps k s0 s) :
    Keeps k s0 (phaseEndAlone t s) := by
  unfold phaseEndAlone
  repeat' first
    | (with_reducible refine hm.of ?_); exact rfl
    | with_reducible assumption
    | (with_reducible first | apply keeps_ite | apply keeps_faultTile)

theorem keeps_execBundleIssue {c : Nat} {s : State} (hm : Sub 18150531859920 k) (h : Keeps k s0 s) :
    KeepsR k s0 (execBundleIssue c s) := by
  unfold execBundleIssue
  repeat' first
    | (with_reducible refine hm.of ?_); exact rfl
    | with_reducible assumption
    | intro _
    | (with_reducible first | apply keeps_onCluster | apply keeps_bundleIssue)

theorem keeps_execSeqNop {t : Nat} {s : State} (hm : Sub 0 k) (h : Keeps k s0 s) :
    KeepsR k s0 (execSeqNop t s) := by
  unfold execSeqNop
  repeat' first
    | (with_reducible refine hm.of ?_); exact rfl
    | with_reducible assumption
    | intro _
    | with_reducible apply keeps_onTile
    | (dsimp only [id])

theorem keeps_execLoop {t : Nat} {n : BitVec 3} {l : BitVec 9} {s : State} (hm : Sub 18141941924304 k) (h : Keeps k s0 s) :
    KeepsR k s0 (execLoop t n l s) := by
  unfold execLoop
  repeat' first
    | (with_reducible refine hm.of ?_); exact rfl
    | with_reducible assumption
    | intro _
    | (with_reducible first | apply keeps_onTile | apply keeps_seqAlone)

theorem keeps_execCset {t : Nat} {n : BitVec 3} {imm : BitVec 9} {s : State} (hm : Sub 18141941924304 k) (h : Keeps k s0 s) :
    KeepsR k s0 (execCset t n imm s) := by
  unfold execCset
  repeat' first
    | (with_reducible refine hm.of ?_); exact rfl
    | with_reducible assumption
    | intro _
    | (with_reducible first | apply keeps_onTile | apply keeps_seqAlone)

theorem keeps_execCadd {t : Nat} {n : BitVec 3} {imm : BitVec 9} {s : State} (hm : Sub 18141941924304 k) (h : Keeps k s0 s) :
    KeepsR k s0 (execCadd t n imm s) := by
  unfold execCadd
  repeat' first
    | (with_reducible refine hm.of ?_); exact rfl
    | with_reducible assumption
    | intro _
    | (with_reducible first | apply keeps_onTile | apply keeps_seqAlone)

theorem keeps_execCtx {t : Nat} {k' : BitVec 2} {s : State} (hm : Sub 18141941924304 k) (h : Keeps k s0 s) :
    KeepsR k s0 (execCtx t k' s) := by
  unfold execCtx
  repeat' first
    | (with_reducible refine hm.of ?_); exact rfl
    | with_reducible assumption
    | intro _
    | (with_reducible first | apply keeps_onTile | apply keeps_seqAlone)

theorem keeps_execPhaseEnd {t : Nat} {s : State} (hm : Sub 18141941924304 k) (h : Keeps k s0 s) :
    KeepsR k s0 (execPhaseEnd t s) := by
  unfold execPhaseEnd
  repeat' first
    | (with_reducible refine hm.of ?_); exact rfl
    | with_reducible assumption
    | intro _
    | (with_reducible first | apply keeps_onTile | apply keeps_phaseEndAlone)

theorem keeps_execReadRow {t : Nat} {port : BitVec 1} {route : BitVec 3} {row : BitVec 15} {s : State} (hm : Sub 18150531858896 k) (h : Keeps k s0 s) :
    KeepsR k s0 (execReadRow t port route row s) := by
  unfold execReadRow
  repeat' first
    | (with_reducible refine hm.of ?_); exact rfl
    | with_reducible assumption
    | intro _
    | (with_reducible first | apply keeps_onTile | apply keeps_portAlone)

theorem keeps_execWriteRow {t : Nat} {port : BitVec 1} {row : BitVec 15} {s : State} (hm : Sub 18150531858896 k) (h : Keeps k s0 s) :
    KeepsR k s0 (execWriteRow t port row s) := by
  unfold execWriteRow
  repeat' first
    | (with_reducible refine hm.of ?_); exact rfl
    | with_reducible assumption
    | intro _
    | (with_reducible first | apply keeps_onTile | apply keeps_portAlone)

theorem keeps_execReadThroughGenerator {t : Nat} {port : BitVec 1} {route : BitVec 3} {gen : BitVec 2} {s : State} (hm : Sub 18150531858896 k) (h : Keeps k s0 s) :
    KeepsR k s0 (execReadThroughGenerator t port route gen s) := by
  unfold execReadThroughGenerator
  repeat' first
    | (with_reducible refine hm.of ?_); exact rfl
    | with_reducible assumption
    | intro _
    | (with_reducible first | apply keeps_onTile | apply keeps_portAlone)

theorem keeps_execPortReadDeliver {t : Nat} {s : State} (hm : Sub 18554258784720 k) (h : Keeps k s0 s) :
    KeepsR k s0 (execPortReadDeliver t s) := by
  unfold execPortReadDeliver
  repeat' first
    | (with_reducible refine hm.of ?_); exact rfl
    | with_reducible assumption
    | intro _
    | (with_reducible first | apply keeps_onTile | apply keeps_portDeliver)

theorem keeps_execTakeMs {t : Nat} {s : State} (hm : Sub 18141941924304 k) (h : Keeps k s0 s) :
    KeepsR k s0 (execTakeMs t s) := by
  unfold execTakeMs
  repeat' first
    | (with_reducible refine hm.of ?_); exact rfl
    | with_reducible assumption
    | intro _
    | (with_reducible first | apply keeps_onTile | apply keeps_swAlone)

theorem keeps_execTakeSs {t : Nat} {s : State} (hm : Sub 18141941924304 k) (h : Keeps k s0 s) :
    KeepsR k s0 (execTakeSs t s) := by
  unfold execTakeSs
  repeat' first
    | (with_reducible refine hm.of ?_); exact rfl
    | with_reducible assumption
    | intro _
    | (with_reducible first | apply keeps_onTile | apply keeps_swAlone)

theorem keeps_execDrop {t : Nat} {s : State} (hm : Sub 18141941924304 k) (h : Keeps k s0 s) :
    KeepsR k s0 (execDrop t s) := by
  unfold execDrop
  repeat' first
    | (with_reducible refine hm.of ?_); exact rfl
    | with_reducible assumption
    | intro _
    | (with_reducible first | apply keeps_onTile | apply keeps_swAlone)

theorem keeps_execScalarSendC {t : Nat} {n : BitVec 3} {s : State} (hm : Sub 18141941924304 k) (h : Keeps k s0 s) :
    KeepsR k s0 (execScalarSendC t n s) := by
  unfold execScalarSendC
  repeat' first
    | (with_reducible refine hm.of ?_); exact rfl
    | with_reducible assumption
    | intro _
    | (with_reducible first | apply keeps_onTile | apply keeps_swAlone)

theorem keeps_execScalarTakeC {t : Nat} {n : BitVec 3} {s : State} (hm : Sub 18141941924304 k) (h : Keeps k s0 s) :
    KeepsR k s0 (execScalarTakeC t n s) := by
  unfold execScalarTakeC
  repeat' first
    | (with_reducible refine hm.of ?_); exact rfl
    | with_reducible assumption
    | intro _
    | (with_reducible first | apply keeps_onTile | apply keeps_swAlone)

theorem keeps_execPutSum {t : Nat} {s : State} (hm : Sub 18141941924304 k) (h : Keeps k s0 s) :
    KeepsR k s0 (execPutSum t s) := by
  unfold execPutSum
  repeat' first
    | (with_reducible refine hm.of ?_); exact rfl
    | with_reducible assumption
    | intro _
    | (with_reducible first | apply keeps_onTile | apply keeps_swAlone)

theorem keeps_execWfa {t : Nat} {n : BitVec 3} {s : State} (hm : Sub 18141941924304 k) (h : Keeps k s0 s) :
    KeepsR k s0 (execWfa t n s) := by
  unfold execWfa
  repeat' first
    | (with_reducible refine hm.of ?_); exact rfl
    | with_reducible assumption
    | intro _
    | (with_reducible first | apply keeps_onTile | apply keeps_swAlone)

theorem keeps_execWfaResult {t : Nat} {s : State} (hm : Sub 64 k) (h : Keeps k s0 s) :
    KeepsR k s0 (execWfaResult t s) := by
  unfold execWfaResult
  repeat' first
    | (with_reducible refine hm.of ?_); exact rfl
    | with_reducible assumption
    | intro _
    | (with_reducible first | apply keeps_onTile | apply keeps_wfaResult)

theorem keeps_execSendSv {t : Nat} {s : State} (hm : Sub 18141941924304 k) (h : Keeps k s0 s) :
    KeepsR k s0 (execSendSv t s) := by
  unfold execSendSv
  repeat' first
    | (with_reducible refine hm.of ?_); exact rfl
    | with_reducible assumption
    | intro _
    | (with_reducible first | apply keeps_onTile | apply keeps_swAlone)

theorem keeps_execSendI {t : Nat} {imm : BitVec 5} {s : State} (hm : Sub 18141941924304 k) (h : Keeps k s0 s) :
    KeepsR k s0 (execSendI t imm s) := by
  unfold execSendI
  repeat' first
    | (with_reducible refine hm.of ?_); exact rfl
    | with_reducible assumption
    | intro _
    | (with_reducible first | apply keeps_onTile | apply keeps_swAlone)

theorem keeps_execControlSendC {t : Nat} {n : BitVec 3} {s : State} (hm : Sub 18141941924304 k) (h : Keeps k s0 s) :
    KeepsR k s0 (execControlSendC t n s) := by
  unfold execControlSendC
  repeat' first
    | (with_reducible refine hm.of ?_); exact rfl
    | with_reducible assumption
    | intro _
    | (with_reducible first | apply keeps_onTile | apply keeps_swAlone)

theorem keeps_execControlTakeC {t : Nat} {n : BitVec 3} {s : State} (hm : Sub 18141941924304 k) (h : Keeps k s0 s) :
    KeepsR k s0 (execControlTakeC t n s) := by
  unfold execControlTakeC
  repeat' first
    | (with_reducible refine hm.of ?_); exact rfl
    | with_reducible assumption
    | intro _
    | (with_reducible first | apply keeps_onTile | apply keeps_swAlone)

end Sys2Proof.Machine
end

