-- ==== Sys2Proof/Laws/KeepsPhases.lean ====
section
/-! SUPPORT. What the operations of Machine/Phases.lean keep. -/

namespace Sys2Proof.Machine

variable {k : Nat} {s0 : State}

theorem keeps_clearDone {c : Nat} {s : State} (hm : Sub 16 k) (h : Keeps k s0 s) :
    Keeps k s0 (clearDone c s) := by
  unfold clearDone
  repeat' first
    | (with_reducible refine hm.of ?_); exact rfl
    | with_reducible assumption
    | (with_reducible first | refine keeps_forAll ?_ fun _ _ _ => ?_ | apply keeps_setReg)

theorem keeps_setDone {c : Nat} {e' : Nat} {s : State} (hm : Sub 16 k) (h : Keeps k s0 s) :
    Keeps k s0 (setDone c e' s) := by
  unfold setDone
  repeat' first
    | (with_reducible refine hm.of ?_); exact rfl
    | with_reducible assumption
    | with_reducible apply keeps_setBit

theorem keeps_faultWalker {c : Nat} {code : Nat} {s : State} (hm : Sub 18141941924304 k) (h : Keeps k s0 s) :
    Keeps k s0 (faultWalker c code s) := by
  unfold faultWalker
  repeat' first
    | (with_reducible refine hm.of ?_); exact rfl
    | with_reducible assumption
    | (with_reducible first | apply keeps_ite | apply keeps_raiseClu | apply keeps_stopCluster | apply keeps_errOnly)

theorem keeps_waitFor {c : Nat} {e' : Nat} {s : State} (hm : Sub 128 k) (h : Keeps k s0 s) :
    Keeps k s0 (waitFor c e' s) := by
  unfold waitFor
  repeat' first
    | (with_reducible refine hm.of ?_); exact rfl
    | with_reducible assumption
    | with_reducible apply keeps_putWalker

theorem keeps_enterCall {c : Nat} {e' : Nat} {s : State} (hm : Sub 128 k) (h : Keeps k s0 s) :
    Keeps k s0 (enterCall c e' s) := by
  unfold enterCall
  repeat' first
    | (with_reducible refine hm.of ?_); exact rfl
    | with_reducible assumption
    | (with_reducible first | apply keeps_baristaIrq | apply keeps_putWalker)

theorem keeps_takeEntry {c : Nat} {e' : Nat} {s : State} (hm : Sub 18141941924304 k) (h : Keeps k s0 s) :
    Keeps k s0 (takeEntry c e' s) := by
  unfold takeEntry
  repeat' first
    | (with_reducible refine hm.of ?_); exact rfl
    | with_reducible assumption
    | (with_reducible first | apply keeps_ite | apply keeps_enterCall | apply keeps_faultWalker | apply keeps_waitFor | apply keeps_putWalker)

theorem keeps_phaseComplete {c : Nat} {s : State} (hm : Sub 18141941924304 k) (h : Keeps k s0 s) :
    Keeps k s0 (phaseComplete c s) := by
  unfold phaseComplete
  repeat' first
    | (with_reducible refine hm.of ?_); exact rfl
    | with_reducible assumption
    | (with_reducible first | apply keeps_ite | refine keeps_forAll ?_ fun _ _ _ => ?_ | apply keeps_baristaIrq | apply keeps_raiseEvent | apply keeps_takeEntry | apply keeps_putWalker | apply keeps_putTile)
    | split

theorem keeps_arrive {c : Nat} {e' : Nat} {s : State} (hm : Sub 18141941924304 k) (h : Keeps k s0 s) :
    Keeps k s0 (arrive c e' s) := by
  unfold arrive
  repeat' first
    | (with_reducible refine hm.of ?_); exact rfl
    | with_reducible assumption
    | (with_reducible first | apply keeps_ite | refine keeps_forAll ?_ fun _ _ _ => ?_ | apply keeps_faultWalker | apply keeps_putWalker)
    | (have x := (); extract_lets +onlyGivenNames x; refine keeps_cut k s0 x ?_ fun _ => ?_; rotate_left; clear_value x)
    | (have x := (); extract_lets +onlyGivenNames x; clear_value x)
    | split
    | (with_reducible first | apply Keeps.put_arrivals)

theorem keeps_walkerSample {c : Nat} {s : State} (hm : Sub 18141941924304 k) (h : Keeps k s0 s) :
    Keeps k s0 (walkerSample c s) := by
  unfold walkerSample
  repeat' first
    | (with_reducible refine hm.of ?_); exact rfl
    | with_reducible assumption
    | (with_reducible first | apply keeps_ite | apply keeps_arrive | apply keeps_enterCall | apply keeps_faultWalker | apply keeps_putWalker)
    | (have x := (); extract_lets +onlyGivenNames x; clear_value x)
    | split

theorem keeps_gateTimeout {c : Nat} {s : State} (hm : Sub 18141941924304 k) (h : Keeps k s0 s) :
    Keeps k s0 (gateTimeout c s) := by
  unfold gateTimeout
  repeat' first
    | (with_reducible refine hm.of ?_); exact rfl
    | with_reducible assumption
    | (with_reducible first | apply keeps_ite | apply keeps_faultWalker)

theorem keeps_tileStart {c : Nat} {e' : Nat} {t : Nat} {s : State} (hm : Sub 80 k) (h : Keeps k s0 s) :
    Keeps k s0 (tileStart c e' t s) := by
  unfold tileStart
  repeat' first
    | (with_reducible refine hm.of ?_); exact rfl
    | with_reducible assumption
    | (with_reducible first | apply keeps_ite | apply keeps_setReg | apply keeps_bump | apply keeps_putTile)

theorem keeps_subTerm {c : Nat} {e' : Nat} {w : Nat} {s : State} (hm : Sub 16 k) (h : Keeps k s0 s) :
    Keeps k s0 (subTerm c e' w s) := by
  unfold subTerm
  repeat' first
    | (with_reducible refine hm.of ?_); exact rfl
    | with_reducible assumption
    | (with_reducible first | apply keeps_ite | apply keeps_setReg)

theorem keeps_startPhase {c : Nat} {e' : Nat} {fill : Bool} {s : State} (hm : Sub 18141941924304 k) (h : Keeps k s0 s) :
    Keeps k s0 (startPhase c e' fill s) := by
  unfold startPhase
  repeat' first
    | (with_reducible refine hm.of ?_); exact rfl
    | with_reducible assumption
    | (with_reducible first | apply keeps_ite | refine keeps_forAll ?_ fun _ _ _ => ?_ | apply keeps_setReg | apply keeps_clearDone | apply keeps_bump | apply keeps_setDone | apply keeps_tileStart | apply keeps_subTerm | apply keeps_faultWalker | apply keeps_putWalker | apply keeps_withdraw)

theorem keeps_phaseStart {c : Nat} {s : State} (hm : Sub 18141941924304 k) (h : Keeps k s0 s) :
    Keeps k s0 (phaseStart c s) := by
  unfold phaseStart
  repeat' first
    | (with_reducible refine hm.of ?_); exact rfl
    | with_reducible assumption
    | with_reducible apply keeps_startPhase
    | (have x := (); extract_lets +onlyGivenNames x; clear_value x)
    | split

theorem keeps_barrierRelease {die : Nat} {ch : BitVec 4} {tag : BitVec 12} {s : State} (hm : Sub 18141941924304 k) (h : Keeps k s0 s) :
    Keeps k s0 (barrierRelease die ch tag s) := by
  unfold barrierRelease
  repeat' first
    | (with_reducible refine hm.of ?_); exact rfl
    | with_reducible assumption
    | (with_reducible first | apply keeps_ite | refine keeps_forAll ?_ fun _ _ _ => ?_ | apply keeps_startPhase)
    | (have x := (); extract_lets +onlyGivenNames x; clear_value x)
    | split

theorem keeps_clearPhaseFault {c : Nat} {s : State} (hm : Sub 16 k) (h : Keeps k s0 s) :
    Keeps k s0 (clearPhaseFault c s) := by
  unfold clearPhaseFault
  repeat' first
    | (with_reducible refine hm.of ?_); exact rfl
    | with_reducible assumption
    | with_reducible apply keeps_setReg

theorem keeps_walkerStart {c : Nat} {e' : Nat} {s : State} (hm : Sub 144 k) (h : Keeps k s0 s) :
    Keeps k s0 (walkerStart c e' s) := by
  unfold walkerStart
  repeat' first
    | (with_reducible refine hm.of ?_); exact rfl
    | with_reducible assumption
    | (with_reducible first | apply keeps_ite | apply keeps_cluIgnore | apply keeps_putClu | apply keeps_waitFor | apply keeps_clearPhaseFault)

theorem keeps_walkerStop {c : Nat} {s : State} (hm : Sub 400 k) (h : Keeps k s0 s) :
    Keeps k s0 (walkerStop c s) := by
  unfold walkerStop
  repeat' first
    | (with_reducible refine hm.of ?_); exact rfl
    | with_reducible assumption
    | (with_reducible first | apply keeps_cluIgnore | apply keeps_putWalker | apply keeps_withdraw)
    | (have x := (); extract_lets +onlyGivenNames x; clear_value x)
    | split

theorem keeps_walkerResume {c : Nat} {e' : Nat} {s : State} (hm : Sub 144 k) (h : Keeps k s0 s) :
    Keeps k s0 (walkerResume c e' s) := by
  unfold walkerResume
  repeat' first
    | (with_reducible refine hm.of ?_); exact rfl
    | with_reducible assumption
    | (with_reducible first | apply keeps_ite | apply keeps_cluIgnore | apply keeps_waitFor | apply keeps_clearPhaseFault)

theorem keeps_walkerClearDone {c : Nat} {s : State} (hm : Sub 16 k) (h : Keeps k s0 s) :
    Keeps k s0 (walkerClearDone c s) := by
  unfold walkerClearDone
  repeat' first
    | (with_reducible refine hm.of ?_); exact rfl
    | with_reducible assumption
    | (with_reducible first | apply keeps_ite | apply keeps_clearDone | apply keeps_cluIgnore | apply keeps_clearPhaseFault)

theorem keeps_walkerCmd {c : Nat} {v : Word} {s : State} (hm : Sub 400 k) (h : Keeps k s0 s) :
    Keeps k s0 (walkerCmd c v s) := by
  unfold walkerCmd
  repeat' first
    | (with_reducible refine hm.of ?_); exact rfl
    | with_reducible assumption
    | (with_reducible first | apply keeps_walkerResume | apply keeps_cluIgnore | apply keeps_walkerStart | apply keeps_walkerClearDone | apply keeps_walkerStop)
    | split

theorem keeps_phaseCmdWrite {c : Nat} {v : Word} {s : State} (hm : Sub 128 k) (h : Keeps k s0 s) :
    Keeps k s0 (phaseCmdWrite c v s) := by
  unfold phaseCmdWrite
  repeat' first
    | (with_reducible refine hm.of ?_); exact rfl
    | with_reducible assumption
    | with_reducible apply keeps_putClu

theorem keeps_phaseCmdEdge {c : Nat} {s : State} (hm : Sub 400 k) (h : Keeps k s0 s) :
    Keeps k s0 (phaseCmdEdge c s) := by
  unfold phaseCmdEdge
  repeat' first
    | (with_reducible refine hm.of ?_); exact rfl
    | with_reducible assumption
    | (with_reducible first | refine keeps_forAll ?_ fun _ _ _ => ?_ | apply keeps_putClu | apply keeps_walkerCmd)

theorem keeps_phaseCtrl {c : Nat} {v : Word} {s : State} (hm : Sub 400 k) (h : Keeps k s0 s) :
    Keeps k s0 (phaseCtrl c v s) := by
  unfold phaseCtrl
  repeat' first
    | (with_reducible refine hm.of ?_); exact rfl
    | with_reducible assumption
    | (with_reducible first | apply keeps_ite | apply keeps_setReg | apply keeps_walkerStart | apply keeps_walkerStop)

theorem keeps_countWord7 {c : Nat} {e' : Nat} {hi : Nat} {lo : Nat} {s : State} (hm : Sub 16 k) (h : Keeps k s0 s) :
    Keeps k s0 (countWord7 c e' hi lo s) := by
  unfold countWord7
  repeat' first
    | (with_reducible refine hm.of ?_); exact rfl
    | with_reducible assumption
    | with_reducible apply keeps_setRegF

theorem keeps_walkerMove {c : Nat} {s : State} (hm : Sub 18141941924304 k) (h : Keeps k s0 s) :
    Keeps k s0 (walkerMove c s) := by
  unfold walkerMove
  repeat' first
    | (with_reducible refine hm.of ?_); exact rfl
    | with_reducible assumption
    | (with_reducible first | apply keeps_ite | apply keeps_takeEntry)

theorem keeps_walkerTick {c : Nat} {s : State} (hm : Sub 144 k) (h : Keeps k s0 s) :
    Keeps k s0 (walkerTick c s) := by
  unfold walkerTick
  repeat' first
    | (with_reducible refine hm.of ?_); exact rfl
    | with_reducible assumption
    | (with_reducible first | apply keeps_ite | apply keeps_setReg | apply keeps_bump | apply keeps_countWord7 | apply keeps_putWalker)
    | (have x := (); extract_lets +onlyGivenNames x; refine keeps_cut k s0 x ?_ fun _ => ?_; rotate_left; clear_value x)
    | (have x := (); extract_lets +onlyGivenNames x; clear_value x)
    | split

theorem keeps_workAdd {c : Nat} {n : Nat} {word : Bool} {v : Word} {s : State} (hm : Sub 144 k) (h : Keeps k s0 s) :
    Keeps k s0 (workAdd c n word v s) := by
  unfold workAdd
  repeat' first
    | (with_reducible refine hm.of ?_); exact rfl
    | with_reducible assumption
    | (with_reducible first | apply keeps_wctrAdd | apply keeps_putClu)

theorem keeps_workCounter {c : Nat} {a : WcAccess} {n : Nat} {v : Word} {s : State} (hm : Sub 18141941924304 k) (h : Keeps k s0 s) :
    Keeps k s0 (workCounter c a n v s) := by
  unfold workCounter
  repeat' first
    | (with_reducible refine hm.of ?_); exact rfl
    | with_reducible assumption
    | (with_reducible first | apply keeps_ite | apply keeps_raiseClu | apply keeps_rinseCount | apply keeps_putClu | apply keeps_workAdd)
    | split

theorem keeps_execPhaseComplete {c : Nat} {s : State} (hm : Sub 18141941924304 k) (h : Keeps k s0 s) :
    KeepsR k s0 (execPhaseComplete c s) := by
  unfold execPhaseComplete
  repeat' first
    | (with_reducible refine hm.of ?_); exact rfl
    | with_reducible assumption
    | intro _
    | (with_reducible first | apply keeps_onCluster | apply keeps_phaseComplete)

theorem keeps_execWalkerSample {c : Nat} {s : State} (hm : Sub 18141941924304 k) (h : Keeps k s0 s) :
    KeepsR k s0 (execWalkerSample c s) := by
  unfold execWalkerSample
  repeat' first
    | (with_reducible refine hm.of ?_); exact rfl
    | with_reducible assumption
    | intro _
    | (with_reducible first | apply keeps_onCluster | apply keeps_walkerSample)

theorem keeps_execBarrierRelease {die : Nat} {channel : BitVec 4} {tag : BitVec 12} {s : State} (hm : Sub 18141941924304 k) (h : Keeps k s0 s) :
    KeepsR k s0 (execBarrierRelease die channel tag s) := by
  unfold execBarrierRelease
  repeat' first
    | (with_reducible refine hm.of ?_); exact rfl
    | with_reducible assumption
    | intro _
    | (with_reducible first | apply keeps_barrierRelease | apply keeps_onUnit)

theorem keeps_execPhaseStart {c : Nat} {s : State} (hm : Sub 18141941924304 k) (h : Keeps k s0 s) :
    KeepsR k s0 (execPhaseStart c s) := by
  unfold execPhaseStart
  repeat' first
    | (with_reducible refine hm.of ?_); exact rfl
    | with_reducible assumption
    | intro _
    | (with_reducible first | apply keeps_onCluster | apply keeps_phaseStart)

theorem keeps_execGateTimeout {c : Nat} {s : State} (hm : Sub 18141941924304 k) (h : Keeps k s0 s) :
    KeepsR k s0 (execGateTimeout c s) := by
  unfold execGateTimeout
  repeat' first
    | (with_reducible refine hm.of ?_); exact rfl
    | with_reducible assumption
    | intro _
    | (with_reducible first | apply keeps_onCluster | apply keeps_gateTimeout)

theorem keeps_execStart {c : Nat} {entry : BitVec 8} {s : State} (hm : Sub 144 k) (h : Keeps k s0 s) :
    KeepsR k s0 (execStart c entry s) := by
  unfold execStart
  repeat' first
    | (with_reducible refine hm.of ?_); exact rfl
    | with_reducible assumption
    | intro _
    | (with_reducible first | apply keeps_walkerStart | apply keeps_cluCommand)

theorem keeps_execStop {c : Nat} {s : State} (hm : Sub 400 k) (h : Keeps k s0 s) :
    KeepsR k s0 (execStop c s) := by
  unfold execStop
  repeat' first
    | (with_reducible refine hm.of ?_); exact rfl
    | with_reducible assumption
    | intro _
    | (with_reducible first | apply keeps_walkerStop | apply keeps_cluCommand)

theorem keeps_execResume {c : Nat} {entry : BitVec 8} {s : State} (hm : Sub 144 k) (h : Keeps k s0 s) :
    KeepsR k s0 (execResume c entry s) := by
  unfold execResume
  repeat' first
    | (with_reducible refine hm.of ?_); exact rfl
    | with_reducible assumption
    | intro _
    | (with_reducible first | apply keeps_walkerResume | apply keeps_cluCommand)

theorem keeps_execClearDone {c : Nat} {s : State} (hm : Sub 16 k) (h : Keeps k s0 s) :
    KeepsR k s0 (execClearDone c s) := by
  unfold execClearDone
  repeat' first
    | (with_reducible refine hm.of ?_); exact rfl
    | with_reducible assumption
    | intro _
    | (with_reducible first | apply keeps_walkerClearDone | apply keeps_cluCommand)

theorem keeps_execWorkCounterAmo {c : Nat} {access : WcAccess} {n : BitVec 6} {v : BitVec 64} {s : State} (hm : Sub 18141941924304 k) (h : Keeps k s0 s) :
    KeepsR k s0 (execWorkCounterAmo c access n v s) := by
  unfold execWorkCounterAmo
  repeat' first
    | (with_reducible refine hm.of ?_); exact rfl
    | with_reducible assumption
    | intro _
    | (with_reducible first | apply keeps_onCluster | apply keeps_workCounter)

end Sys2Proof.Machine
end

