-- ==== Sys2Proof/Laws/KeepsUpdate.lean ====
section
/-! SUPPORT. What the operations of Machine/Update.lean keep. -/

namespace Sys2Proof.Machine

variable {k : Nat} {s0 : State}

theorem keeps_roastEval {tag : BitVec 12} {g : Nat} {s : State} (hm : Sub 16 k) (h : Keeps k s0 s) :
    Keeps k s0 ((roastEval tag g s).2) := by
  unfold roastEval
  repeat' first
    | (with_reducible refine hm.of ?_); exact rfl
    | with_reducible assumption
    | with_reducible apply keeps_bump

theorem keeps_roastQuery {tag : BitVec 12} {g : BitVec 48} {s : State} (hm : Sub 16 k) (h : Keeps k s0 s) :
    Keeps k s0 (roastQuery tag g s) := by
  unfold roastQuery
  repeat' first
    | (with_reducible refine hm.of ?_); exact rfl
    | with_reducible assumption
    | (with_reducible first | refine keeps_forAll ?_ fun _ _ _ => ?_ | apply keeps_setReg | apply keeps_roastEval)
    | split

theorem keeps_lastContribution {tag : BitVec 12} {g : BitVec 48} {s : State} (hm : Sub 65536 k) (h : Keeps k s0 s) :
    Keeps k s0 (lastContribution tag g s) := by
  unfold lastContribution
  repeat' first
    | (with_reducible refine hm.of ?_); exact rfl
    | with_reducible assumption
    | with_reducible apply keeps_putJob
    | (have x := (); extract_lets +onlyGivenNames x; clear_value x)
    | split

theorem keeps_runCounted {tag : BitVec 12} {shard : BitVec 24} {g : BitVec 48} {s : State} (hm : Sub 65536 k) (h : Keeps k s0 s) :
    Keeps k s0 (runCounted tag shard g s) := by
  unfold runCounted
  repeat' first
    | (with_reducible refine hm.of ?_); exact rfl
    | with_reducible assumption
    | (with_reducible first | apply keeps_ite | apply keeps_putJob | apply keeps_lastContribution)

theorem keeps_runEnd {c : Nat} {s : State} (hm : Sub 144 k) (h : Keeps k s0 s) :
    Keeps k s0 (runEnd c s) := by
  unfold runEnd
  repeat' first
    | (with_reducible refine hm.of ?_); exact rfl
    | with_reducible assumption
    | (with_reducible first | apply keeps_baristaIrq | apply keeps_setRegF | apply keeps_putClu | apply keeps_walkerStart)
    | (have x := (); extract_lets +onlyGivenNames x; refine keeps_cut k s0 x ?_ fun _ => ?_; rotate_left; clear_value x)
    | (have x := (); extract_lets +onlyGivenNames x; clear_value x)
    | split

theorem keeps_runRefuse {c : Nat} {tag : BitVec 12} {shard : BitVec 24} {g : BitVec 48} {code : Nat} {cause : Nat} {s : State} (hm : Sub 18141941944784 k) (h : Keeps k s0 s) :
    Keeps k s0 (runRefuse c tag shard g code cause s) := by
  unfold runRefuse
  repeat' first
    | (with_reducible refine hm.of ?_); exact rfl
    | with_reducible assumption
    | (with_reducible first | apply keeps_ite | apply keeps_raiseFault | apply keeps_runEnd | apply keeps_recordFirst | apply keeps_leaseFault | apply keeps_dropWrites | apply keeps_markVeto | apply keeps_runCounted)

theorem keeps_uRead {c : Nat} {a : Nat} {n : Nat} {q : URun} (hm : Sub 88510686147024 k) (h : Keeps k s0 q.st) :
    Keeps k s0 ((uRead c a n q).2.st) := by
  unfold uRead
  repeat' first
    | (with_reducible refine hm.of ?_); exact rfl
    | with_reducible assumption
    | with_reducible apply keeps_tensorRead
    | (have x := (); extract_lets +onlyGivenNames x; refine keeps_cut3 k s0 x ?_ fun _ => ?_; rotate_left; clear_value x)
    | split

theorem keeps_uWrite {c : Nat} {a : Nat} {l : List Byte} {q : URun} (hm : Sub 97311074152912 k) (h : Keeps k s0 q.st) :
    Keeps k s0 ((uWrite c a l q).st) := by
  unfold uWrite
  repeat' first
    | (with_reducible refine hm.of ?_); exact rfl
    | with_reducible assumption
    | with_reducible apply keeps_tensorWrite
    | (have x := (); extract_lets +onlyGivenNames x; refine keeps_cut2 k s0 x ?_ fun _ => ?_; rotate_left; clear_value x)
    | split

theorem keeps_loadOperand {c : Nat} {p : List Byte} {x' : Nat} {q : URun} (hm : Sub 88510686147024 k) (h : Keeps k s0 q.st) :
    Keeps k s0 ((loadOperand c p x' q).st) := by
  unfold loadOperand
  repeat' first
    | (with_reducible refine hm.of ?_); exact rfl
    | with_reducible assumption
    | with_reducible apply keeps_uRead
    | (have x := (); extract_lets +onlyGivenNames x; refine keeps_cutP (fun q : _ × URun => q.2.st) k s0 x ?_ fun _ => ?_; rotate_left; clear_value x)
    | (have x := (); extract_lets +onlyGivenNames x; clear_value x)
    | split
    | dsimp only [x]

theorem keeps_maskBit {c : Nat} {base : Nat} {i : Nat} {q : URun} (hm : Sub 88510686147024 k) (h : Keeps k s0 q.st) :
    Keeps k s0 ((maskBit c base i q).2.st) := by
  unfold maskBit
  repeat' first
    | (with_reducible refine hm.of ?_); exact rfl
    | with_reducible assumption
    | with_reducible apply keeps_uRead

theorem keeps_storeOutput {c : Nat} {p : List Byte} {k' : Nat} {q : URun} (hm : Sub 97311074152912 k) (h : Keeps k s0 q.st) :
    Keeps k s0 ((storeOutput c p k' q).st) := by
  unfold storeOutput
  repeat' first
    | (with_reducible refine hm.of ?_); exact rfl
    | with_reducible assumption
    | (with_reducible first | apply keeps_uWrite | apply keeps_loadOperand)
    | (have x := (); extract_lets +onlyGivenNames x; refine keeps_cutP URun.st k s0 x ?_ fun _ => ?_; rotate_left; clear_value x)
    | (have x := (); extract_lets +onlyGivenNames x; clear_value x)
    | split
    | dsimp only [x]

theorem keeps_updBlockEnd {c : Nat} {p : List Byte} {q : URun} (hm : Sub 97311074152912 k) (h : Keeps k s0 q.st) :
    Keeps k s0 ((updBlockEnd c p q).st) := by
  unfold updBlockEnd
  repeat' first
    | (with_reducible refine hm.of ?_); exact rfl
    | with_reducible assumption
    | (with_reducible first | refine keeps_foldlP URun.st (fun _ _ _ => ?_) _ _ ?_ | apply keeps_storeOutput)
    | (have x := (); extract_lets +onlyGivenNames x; refine keeps_cutP URun.st k s0 x ?_ fun _ => ?_; rotate_left; clear_value x)
    | (have x := (); extract_lets +onlyGivenNames x; clear_value x)
    | split

theorem keeps_zeroBlock {c : Nat} {p : List Byte} {q : URun} (hm : Sub 88510686147024 k) (h : Keeps k s0 q.st) :
    Keeps k s0 ((zeroBlock c p q).st) := by
  unfold zeroBlock
  repeat' first
    | (with_reducible refine hm.of ?_); exact rfl
    | with_reducible assumption
    | (with_reducible first | apply keeps_bump | apply keeps_maskBit)
    | (have x := (); extract_lets +onlyGivenNames x; refine keeps_cutP URun.st k s0 x ?_ fun _ => ?_; rotate_left; clear_value x)
    | (have x := (); extract_lets +onlyGivenNames x; refine keeps_cutP (fun q : _ × URun => q.2.st) k s0 x ?_ fun _ => ?_; rotate_left; clear_value x)
    | (have x := (); extract_lets +onlyGivenNames x; clear_value x)
    | split
    | dsimp only [x]

theorem keeps_loadBlock {c : Nat} {p : List Byte} {x1 : Nat} {x2 : URun} (hm : Sub 97311074152912 k) (h : Keeps k s0 x2.st) :
    Keeps k s0 ((loadBlock c p x1 x2).st) := by
  induction x1 generalizing x2 with
  | zero =>
    unfold loadBlock
    repeat' first
      | (with_reducible refine hm.of ?_); exact rfl
      | with_reducible assumption
      | (with_reducible first | refine keeps_foldlP URun.st (fun _ _ _ => ?_) _ _ ?_ | apply keeps_maskBit | apply keeps_zeroBlock | apply keeps_updBlockEnd | apply keeps_bump | apply keeps_loadOperand)
      | (have x := (); extract_lets +onlyGivenNames x; refine keeps_cutP URun.st k s0 x ?_ fun _ => ?_; rotate_left; clear_value x)
      | (have x := (); extract_lets +onlyGivenNames x; refine keeps_cutP (fun q : _ × URun => q.2.st) k s0 x ?_ fun _ => ?_; rotate_left; clear_value x)
      | (have x := (); extract_lets +onlyGivenNames x; clear_value x)
      | split
      | dsimp only [x]
  | succ n ih =>
    unfold loadBlock
    repeat' first
      | (with_reducible refine hm.of ?_); exact rfl
      | with_reducible assumption
      | (with_reducible first | apply ih | refine keeps_foldlP URun.st (fun _ _ _ => ?_) _ _ ?_ | apply keeps_maskBit | apply keeps_zeroBlock | apply keeps_updBlockEnd | apply keeps_bump | apply keeps_loadOperand)
      | (have x := (); extract_lets +onlyGivenNames x; refine keeps_cutP URun.st k s0 x ?_ fun _ => ?_; rotate_left; clear_value x)
      | (have x := (); extract_lets +onlyGivenNames x; refine keeps_cutP (fun q : _ × URun => q.2.st) k s0 x ?_ fun _ => ?_; rotate_left; clear_value x)
      | (have x := (); extract_lets +onlyGivenNames x; clear_value x)
      | split
      | dsimp only [x]

theorem keeps_updStep {c : Nat} {p : List Byte} {i : UpdInstr} {q : URun} (hm : Sub 16 k) (h : Keeps k s0 q.st) :
    Keeps k s0 ((updStep c p i q).st) := by
  unfold updStep
  repeat' first
    | (with_reducible refine hm.of ?_); exact rfl
    | with_reducible assumption
    | with_reducible apply keeps_addCtr

theorem keeps_afterInstr {c : Nat} {p : List Byte} {q : URun} (hm : Sub 97311074152912 k) (h : Keeps k s0 q.st) :
    Keeps k s0 ((afterInstr c p q).st) := by
  unfold afterInstr
  repeat' first
    | (with_reducible refine hm.of ?_); exact rfl
    | with_reducible assumption
    | (with_reducible first | apply keeps_bump | apply keeps_updBlockEnd)
    | split

theorem keeps_runAll {c : Nat} {p : List Byte} {x1 : Nat} {x2 : URun} (hm : Sub 97311074152912 k) (h : Keeps k s0 x2.st) :
    Keeps k s0 ((runAll c p x1 x2).st) := by
  induction x1 generalizing x2 with
  | zero =>
    unfold runAll
    repeat' first
      | (with_reducible refine hm.of ?_); exact rfl
      | with_reducible assumption
      | (with_reducible first | refine keeps_foldlP URun.st (fun _ _ _ => ?_) _ _ ?_ | apply keeps_updStep | apply keeps_loadBlock | apply keeps_afterInstr)
      | (have x := (); extract_lets +onlyGivenNames x; refine keeps_cutP URun.st k s0 x ?_ fun _ => ?_; rotate_left; clear_value x)
      | split
  | succ n ih =>
    unfold runAll
    repeat' first
      | (with_reducible refine hm.of ?_); exact rfl
      | with_reducible assumption
      | (with_reducible first | apply ih | refine keeps_foldlP URun.st (fun _ _ _ => ?_) _ _ ?_ | apply keeps_updStep | apply keeps_loadBlock | apply keeps_afterInstr)
      | (have x := (); extract_lets +onlyGivenNames x; refine keeps_cutP URun.st k s0 x ?_ fun _ => ?_; rotate_left; clear_value x)
      | split

theorem keeps_runKeep {c : Nat} {q : URun} (hm : Sub 18141941944784 k) (h : Keeps k s0 q.st) :
    Keeps k s0 (runKeep c q) := by
  unfold runKeep
  repeat' first
    | (with_reducible refine hm.of ?_); exact rfl
    | with_reducible assumption
    | (with_reducible first | apply keeps_ite | apply keeps_runRefuse | apply keeps_putClu)

theorem keeps_updOp {op : Nat} {c : Nat} {s : State} (hm : Sub 97311074152912 k) (h : Keeps k s0 s) :
    Keeps k s0 (updOp op c s) := by
  unfold updOp
  repeat' first
    | (with_reducible refine hm.of ?_); exact rfl
    | with_reducible assumption
    | (with_reducible first | apply keeps_ite | apply keeps_runKeep | apply keeps_afterInstr | apply keeps_loadBlock | apply keeps_updStep)
    | split

theorem keeps_stageBytes {k : Nat} {s0 : State} {c first last : Nat} {s : State} (hm : Sub 17179869192 k) (h : Keeps k s0 s) :
    Keeps k s0 (stageBytes c first last s) :=
  Keeps.put_free (hm.of rfl) (Keeps.put_mCar (hm.of rfl) h (memForAll_wf (fun _ _ h => memSetNat_wf _ _ _ h) _))

theorem keeps_runGo {c : Nat} {r : UpdRun} {s : State} (hm : Sub 17179869336 k) (h : Keeps k s0 s) :
    Keeps k s0 (runGo c r s) := by
  unfold runGo
  repeat' first
    | (with_reducible refine hm.of ?_); exact rfl
    | with_reducible assumption
    | (with_reducible first | apply keeps_stageBytes | apply keeps_setRegF | apply keeps_putClu | apply keeps_roastEval)

theorem keeps_runCheckStep {c : Nat} {tag : BitVec 12} {shard : BitVec 24} {g : BitVec 48} {a : Nat} {b : List Byte} {s : State} (hm : Sub 18159121813976 k) (h : Keeps k s0 s) :
    Keeps k s0 (runCheckStep c tag shard g a b s) := by
  unfold runCheckStep
  repeat' first
    | (with_reducible refine hm.of ?_); exact rfl
    | with_reducible assumption
    | (with_reducible first | apply keeps_ite | apply keeps_bump | apply keeps_setRegF | apply keeps_runRefuse | apply keeps_putClu | apply keeps_putJob | apply keeps_runGo)

theorem keeps_runSteps {c : Nat} {tag : BitVec 12} {shard : BitVec 24} {g : BitVec 48} {s : State} (hm : Sub 88527866032600 k) (h : Keeps k s0 s) :
    Keeps k s0 (runSteps c tag shard g s) := by
  unfold runSteps
  repeat' first
    | (with_reducible refine hm.of ?_); exact rfl
    | with_reducible assumption
    | (with_reducible first | apply keeps_ite | apply keeps_tensorRead | apply keeps_runCheckStep | apply keeps_runRefuse)
    | split

theorem keeps_runStart {c : Nat} {shard : BitVec 24} {s : State} (hm : Sub 88527866032600 k) (h : Keeps k s0 s) :
    Keeps k s0 (runStart c shard s) := by
  unfold runStart
  repeat' first
    | (with_reducible refine hm.of ?_); exact rfl
    | with_reducible assumption
    | (with_reducible first | apply keeps_ite | apply keeps_setReg | apply keeps_cluIgnore | apply keeps_runSteps)
    | (have x := (); extract_lets +onlyGivenNames x; clear_value x)
    | split

theorem keeps_updCmd {c : Nat} {v : Word} {s : State} (hm : Sub 88527866032600 k) (h : Keeps k s0 s) :
    Keeps k s0 (updCmd c v s) := by
  unfold updCmd
  repeat' first
    | (with_reducible refine hm.of ?_); exact rfl
    | with_reducible assumption
    | (with_reducible first | apply keeps_ite | apply keeps_cluIgnore | apply keeps_runStart)

theorem keeps_runWaitEnd {c : Nat} {s : State} (hm : Sub 18159121813976 k) (h : Keeps k s0 s) :
    Keeps k s0 (runWaitEnd c s) := by
  unfold runWaitEnd
  repeat' first
    | (with_reducible refine hm.of ?_); exact rfl
    | with_reducible assumption
    | (with_reducible first | apply keeps_ite | apply keeps_setRegF | apply keeps_runRefuse | apply keeps_runGo)
    | (have x := (); extract_lets +onlyGivenNames x; clear_value x)
    | split

theorem keeps_runComplete {c : Nat} {s : State} (hm : Sub 97311074152912 k) (h : Keeps k s0 s) :
    Keeps k s0 (runComplete c s) := by
  unfold runComplete
  repeat' first
    | (with_reducible refine hm.of ?_); exact rfl
    | with_reducible assumption
    | (with_reducible first | apply keeps_ite | apply keeps_runKeep | apply keeps_bump | apply keeps_runEnd | apply keeps_putLease | apply keeps_runAll | apply keeps_runCounted)
    | split

theorem mapRuns_wf {f : Cluster → Cluster} (hf : ∀ x, x ≠ Cluster.reset → f x ≠ Cluster.reset) {t : Tbl Cluster} (h : clustersWf t = true) :
    clustersWf (t.map fun k => (k.1, f k.2)) = true := by
  induction t with
  | nil => rfl
  | cons p r ih =>
    have hq := tblWf_cons.mp h
    refine tblWf_cons.mpr ⟨hf _ hq.1, fun q hq' => ?_, ih hq.2.2⟩
    obtain ⟨x, hx, rfl⟩ := List.mem_map.mp hq'
    exact hq.2.1 x hx
theorem keeps_dropRuns {k : Nat} {s0 : State} {tag : BitVec 12} {g : BitVec 48} {s : State} (hm : Sub 128 k) (h : Keeps k s0 s) :
    Keeps k s0 (dropRuns tag g s) := by
  refine Keeps.put_clusters hm h fun e => mapRuns_wf (f := fun x => match x.run with
    | some r => if r.tag = tag ∧ r.step = g then { x with run := some { r with dropped := true } } else x
    | none => x) (fun x hx => ?_) e
  split
  · split
    · intro e; have := congrArg Cluster.run e; simp [Cluster.reset] at this
    · exact hx
  · exact hx

theorem keeps_haltJob {tag : BitVec 12} {s : State} (hm : Sub 549755879888 k) (h : Keeps k s0 s) :
    Keeps k s0 (haltJob tag s) := by
  unfold haltJob
  repeat' first
    | (with_reducible refine hm.of ?_); exact rfl
    | with_reducible assumption
    | (with_reducible first | refine keeps_forAll ?_ fun _ _ _ => ?_ | apply keeps_stopCluster | apply keeps_putJob)

theorem keeps_summaryAct {tag : BitVec 12} {r : StepRecord} {s : State} (hm : Sub 97311074152912 k) (h : Keeps k s0 s) :
    Keeps k s0 (summaryAct tag r s) := by
  unfold summaryAct
  repeat' first
    | (with_reducible refine hm.of ?_); exact rfl
    | with_reducible assumption
    | (with_reducible first | apply keeps_ite | refine keeps_forAll ?_ fun _ _ _ => ?_ | apply keeps_bump | apply keeps_raiseFault | apply keeps_discardPend | apply keeps_commitRequest | apply keeps_putJob | apply keeps_dropRuns | apply keeps_haltJob)

theorem keeps_updPolicy {tag : BitVec 12} {v : Word} {s : State} (hm : Sub 65536 k) (h : Keeps k s0 s) :
    Keeps k s0 (updPolicy tag v s) := by
  unfold updPolicy
  repeat' first
    | (with_reducible refine hm.of ?_); exact rfl
    | with_reducible assumption
    | (with_reducible first | apply keeps_ite | apply keeps_putJob)

theorem keeps_execRun {c : Nat} {shard : BitVec 24} {s : State} (hm : Sub 88527866032600 k) (h : Keeps k s0 s) :
    KeepsR k s0 (execRun c shard s) := by
  unfold execRun
  repeat' first
    | (with_reducible refine hm.of ?_); exact rfl
    | with_reducible assumption
    | intro _
    | (with_reducible first | apply keeps_runStart | apply keeps_cluCommand)

theorem keeps_execRunWaitEnd {c : Nat} {s : State} (hm : Sub 18159121813976 k) (h : Keeps k s0 s) :
    KeepsR k s0 (execRunWaitEnd c s) := by
  unfold execRunWaitEnd
  repeat' first
    | (with_reducible refine hm.of ?_); exact rfl
    | with_reducible assumption
    | intro _
    | (with_reducible first | apply keeps_runWaitEnd | apply keeps_onCluster)

theorem keeps_execRunComplete {c : Nat} {s : State} (hm : Sub 97311074152912 k) (h : Keeps k s0 s) :
    KeepsR k s0 (execRunComplete c s) := by
  unfold execRunComplete
  repeat' first
    | (with_reducible refine hm.of ?_); exact rfl
    | with_reducible assumption
    | intro _
    | (with_reducible first | apply keeps_onCluster | apply keeps_runComplete)

theorem keeps_execUpdAdd {c : Nat} {s : State} (hm : Sub 97311074152912 k) (h : Keeps k s0 s) :
    KeepsR k s0 (execUpdAdd c s) := by
  unfold execUpdAdd
  repeat' first
    | (with_reducible refine hm.of ?_); exact rfl
    | with_reducible assumption
    | intro _
    | (with_reducible first | apply keeps_updOp | apply keeps_onCluster)

theorem keeps_execUpdSub {c : Nat} {s : State} (hm : Sub 97311074152912 k) (h : Keeps k s0 s) :
    KeepsR k s0 (execUpdSub c s) := by
  unfold execUpdSub
  repeat' first
    | (with_reducible refine hm.of ?_); exact rfl
    | with_reducible assumption
    | intro _
    | (with_reducible first | apply keeps_updOp | apply keeps_onCluster)

theorem keeps_execUpdMul {c : Nat} {s : State} (hm : Sub 97311074152912 k) (h : Keeps k s0 s) :
    KeepsR k s0 (execUpdMul c s) := by
  unfold execUpdMul
  repeat' first
    | (with_reducible refine hm.of ?_); exact rfl
    | with_reducible assumption
    | intro _
    | (with_reducible first | apply keeps_updOp | apply keeps_onCluster)

theorem keeps_execUpdFma {c : Nat} {s : State} (hm : Sub 97311074152912 k) (h : Keeps k s0 s) :
    KeepsR k s0 (execUpdFma c s) := by
  unfold execUpdFma
  repeat' first
    | (with_reducible refine hm.of ?_); exact rfl
    | with_reducible assumption
    | intro _
    | (with_reducible first | apply keeps_updOp | apply keeps_onCluster)

theorem keeps_execUpdSign {c : Nat} {s : State} (hm : Sub 97311074152912 k) (h : Keeps k s0 s) :
    KeepsR k s0 (execUpdSign c s) := by
  unfold execUpdSign
  repeat' first
    | (with_reducible refine hm.of ?_); exact rfl
    | with_reducible assumption
    | intro _
    | (with_reducible first | apply keeps_updOp | apply keeps_onCluster)

theorem keeps_execUpdAbs {c : Nat} {s : State} (hm : Sub 97311074152912 k) (h : Keeps k s0 s) :
    KeepsR k s0 (execUpdAbs c s) := by
  unfold execUpdAbs
  repeat' first
    | (with_reducible refine hm.of ?_); exact rfl
    | with_reducible assumption
    | intro _
    | (with_reducible first | apply keeps_updOp | apply keeps_onCluster)

theorem keeps_execUpdMax {c : Nat} {s : State} (hm : Sub 97311074152912 k) (h : Keeps k s0 s) :
    KeepsR k s0 (execUpdMax c s) := by
  unfold execUpdMax
  repeat' first
    | (with_reducible refine hm.of ?_); exact rfl
    | with_reducible assumption
    | intro _
    | (with_reducible first | apply keeps_updOp | apply keeps_onCluster)

theorem keeps_execUpdMin {c : Nat} {s : State} (hm : Sub 97311074152912 k) (h : Keeps k s0 s) :
    KeepsR k s0 (execUpdMin c s) := by
  unfold execUpdMin
  repeat' first
    | (with_reducible refine hm.of ?_); exact rfl
    | with_reducible assumption
    | intro _
    | (with_reducible first | apply keeps_updOp | apply keeps_onCluster)

theorem keeps_execUpdRsqrt {c : Nat} {s : State} (hm : Sub 97311074152912 k) (h : Keeps k s0 s) :
    KeepsR k s0 (execUpdRsqrt c s) := by
  unfold execUpdRsqrt
  repeat' first
    | (with_reducible refine hm.of ?_); exact rfl
    | with_reducible assumption
    | intro _
    | (with_reducible first | apply keeps_updOp | apply keeps_onCluster)

theorem keeps_execUpdSel {c : Nat} {s : State} (hm : Sub 97311074152912 k) (h : Keeps k s0 s) :
    KeepsR k s0 (execUpdSel c s) := by
  unfold execUpdSel
  repeat' first
    | (with_reducible refine hm.of ?_); exact rfl
    | with_reducible assumption
    | intro _
    | (with_reducible first | apply keeps_updOp | apply keeps_onCluster)

theorem keeps_execUpdCvt {c : Nat} {s : State} (hm : Sub 97311074152912 k) (h : Keeps k s0 s) :
    KeepsR k s0 (execUpdCvt c s) := by
  unfold execUpdCvt
  repeat' first
    | (with_reducible refine hm.of ?_); exact rfl
    | with_reducible assumption
    | intro _
    | (with_reducible first | apply keeps_updOp | apply keeps_onCluster)

theorem keeps_execRenorm {c : Nat} {s : State} (hm : Sub 97311074152912 k) (h : Keeps k s0 s) :
    KeepsR k s0 (execRenorm c s) := by
  unfold execRenorm
  repeat' first
    | (with_reducible refine hm.of ?_); exact rfl
    | with_reducible assumption
    | intro _
    | (with_reducible first | apply keeps_updOp | apply keeps_onCluster)

theorem keeps_execRoastQuery {tag : BitVec 12} {step : BitVec 48} {s : State} (hm : Sub 16 k) (h : Keeps k s0 s) :
    KeepsR k s0 (execRoastQuery tag step s) := by
  unfold execRoastQuery
  repeat' first
    | (with_reducible refine hm.of ?_); exact rfl
    | with_reducible assumption
    | (with_reducible first | apply keepsR_next | apply keeps_roastQuery)

end Sys2Proof.Machine
end

