-- ==== Sys2Proof/Laws/KeepsWatch.lean ====
section
/-! SUPPORT. What the operations of Machine/Watch.lean keep. -/

namespace Sys2Proof.Machine

variable {k : Nat} {s0 : State}

theorem keeps_cupAdd {c : Nat} {slot : Nat} {bucket : Nat} {n : Nat} {s : State} (hm : Sub 128 k) (h : Keeps k s0 s) :
    Keeps k s0 (cupAdd c slot bucket n s) := by
  unfold cupAdd
  repeat' first
    | (with_reducible refine hm.of ?_); exact rfl
    | with_reducible assumption
    | with_reducible apply keeps_putClu

theorem keeps_cupCompare {c : Nat} {p : CupSample} {s : State} (hm : Sub 18141941924304 k) (h : Keeps k s0 s) :
    Keeps k s0 (cupCompare c p s) := by
  unfold cupCompare
  repeat' first
    | (with_reducible refine hm.of ?_); exact rfl
    | with_reducible assumption
    | (with_reducible first | apply keeps_ite | refine keeps_forAll ?_ fun _ _ _ => ?_ | apply keeps_raiseClu | apply keeps_bump | apply keeps_addCtr | apply keeps_alarm | apply keeps_putClu | apply keeps_recordFirst | apply keeps_cupAdd)
    | (have x := (); extract_lets +onlyGivenNames x; refine keeps_cut k s0 x ?_ fun _ => ?_; rotate_left; clear_value x)
    | (have x := (); extract_lets +onlyGivenNames x; clear_value x)
    | split

theorem keeps_cuppingCompare {c : Nat} {s : State} (hm : Sub 18141941924304 k) (h : Keeps k s0 s) :
    Keeps k s0 (cuppingCompare c s) := by
  unfold cuppingCompare
  repeat' first
    | (with_reducible refine hm.of ?_); exact rfl
    | with_reducible assumption
    | with_reducible apply keeps_cupCompare
    | (have x := (); extract_lets +onlyGivenNames x; clear_value x)
    | split

theorem keeps_cupHsel {c : Nat} {v : Word} {s : State} (hm : Sub 144 k) (h : Keeps k s0 s) :
    Keeps k s0 (cupHsel c v s) := by
  unfold cupHsel
  repeat' first
    | (with_reducible refine hm.of ?_); exact rfl
    | with_reducible assumption
    | (with_reducible first | apply keeps_ite | refine keeps_forAll ?_ fun _ _ _ => ?_ | apply keeps_setReg | apply keeps_putClu)

theorem keeps_cupCfgWrite {c : Nat} {v : Word} {s : State} (hm : Sub 16 k) (h : Keeps k s0 s) :
    Keeps k s0 (cupCfgWrite c v s) := by
  unfold cupCfgWrite
  repeat' first
    | (with_reducible refine hm.of ?_); exact rfl
    | with_reducible assumption
    | (with_reducible first | apply keeps_ite | apply keeps_setReg | apply keeps_cluIgnore)

theorem keeps_lossCfgWrite {tag : BitVec 12} {v : Word} {s : State} (hm : Sub 65552 k) (h : Keeps k s0 s) :
    Keeps k s0 (lossCfgWrite tag v s) := by
  unfold lossCfgWrite
  repeat' first
    | (with_reducible refine hm.of ?_); exact rfl
    | with_reducible assumption
    | (with_reducible first | apply keeps_ite | apply keeps_bump | apply keeps_putJob)

theorem keeps_lossIn {v : Word} {s : State} (hm : Sub 17592186109968 k) (h : Keeps k s0 s) :
    Keeps k s0 (lossIn v s) := by
  unfold lossIn
  repeat' first
    | (with_reducible refine hm.of ?_); exact rfl
    | with_reducible assumption
    | (with_reducible first | apply keeps_ite | apply keeps_bump | apply keeps_raiseEvent | apply keeps_putJob)

theorem keeps_summaryWatch {tag : BitVec 12} {r : StepRecord} {s : State} (hm : Sub 65552 k) (h : Keeps k s0 s) :
    Keeps k s0 (summaryWatch tag r s) := by
  unfold summaryWatch
  repeat' first
    | (with_reducible refine hm.of ?_); exact rfl
    | with_reducible assumption
    | (with_reducible first | apply keeps_ite | refine keeps_forAll ?_ fun _ _ _ => ?_ | apply keeps_bump | apply keeps_putJob)

theorem keeps_execCuppingCompare {c : Nat} {s : State} (hm : Sub 18141941924304 k) (h : Keeps k s0 s) :
    KeepsR k s0 (execCuppingCompare c s) := by
  unfold execCuppingCompare
  repeat' first
    | (with_reducible refine hm.of ?_); exact rfl
    | with_reducible assumption
    | intro _
    | (with_reducible first | apply keeps_onCluster | apply keeps_cuppingCompare)

theorem keeps_execCupHselWrite {c : Nat} {v : BitVec 64} {s : State} (hm : Sub 144 k) (h : Keeps k s0 s) :
    KeepsR k s0 (execCupHselWrite c v s) := by
  unfold execCupHselWrite
  repeat' first
    | (with_reducible refine hm.of ?_); exact rfl
    | with_reducible assumption
    | intro _
    | (with_reducible first | apply keeps_cluCommand | apply keeps_cupHsel)

theorem keeps_execLossIn {v : BitVec 64} {s : State} (hm : Sub 17592186109968 k) (h : Keeps k s0 s) :
    KeepsR k s0 (execLossIn v s) := by
  unfold execLossIn
  repeat' first
    | (with_reducible refine hm.of ?_); exact rfl
    | with_reducible assumption
    | (with_reducible first | apply keepsR_next | apply keeps_lossIn)

end Sys2Proof.Machine
end

