-- ==== Sys2Proof/Laws/KeepsTransport.lean ====
section
/-! SUPPORT. What the operations of Machine/Transport.lean keep. -/

namespace Sys2Proof.Machine

variable {k : Nat} {s0 : State}

theorem keeps_putTx {s : State} {hub : Nat} {dst : Nat} {cls : Nat} {t : TxSeq} (hm : Sub 1048576 k) (h : Keeps k s0 s) :
    Keeps k s0 (putTx s hub dst cls t) := by
  unfold putTx
  repeat' first
    | (with_reducible refine hm.of ?_); exact rfl
    | with_reducible assumption
    | (with_reducible first | apply Keeps.put_tx)

theorem keeps_txEmit {hub : Nat} {dst : Nat} {cls : Nat} {m : Msg} {s : State} (hm : Sub 26214416 k) (h : Keeps k s0 s) :
    Keeps k s0 (txEmit hub dst cls m s) := by
  unfold txEmit
  repeat' first
    | (with_reducible refine hm.of ?_); exact rfl
    | with_reducible assumption
    | (with_reducible first | apply keeps_ite | apply keeps_bump | apply keeps_emitMsg | apply keeps_putTx)

theorem keeps_txPump {hub : Nat} {dst : Nat} {cls : Nat} {s : State} (hm : Sub 26214416 k) (h : Keeps k s0 s) :
    Keeps k s0 (txPump hub dst cls s) := by
  unfold txPump
  repeat' first
    | (with_reducible refine hm.of ?_); exact rfl
    | with_reducible assumption
    | (with_reducible first | apply keeps_ite | refine keeps_forAll ?_ fun _ _ _ => ?_ | apply keeps_txEmit)

theorem keeps_txResyncSend {hub : Nat} {dst : Nat} {cls : Nat} {s : State} (hm : Sub 26214416 k) (h : Keeps k s0 s) :
    Keeps k s0 (txResyncSend hub dst cls s) := by
  unfold txResyncSend
  repeat' first
    | (with_reducible refine hm.of ?_); exact rfl
    | with_reducible assumption
    | (with_reducible first | apply keeps_emitMsg | apply keeps_putTx)

theorem keeps_txResync {hub : Nat} {dst : Nat} {cls : Nat} {s : State} (hm : Sub 26214416 k) (h : Keeps k s0 s) :
    Keeps k s0 (txResync hub dst cls s) := by
  unfold txResync
  repeat' first
    | (with_reducible refine hm.of ?_); exact rfl
    | with_reducible assumption
    | (with_reducible first | apply keeps_bump | apply keeps_txResyncSend | apply keeps_putTx)

theorem keeps_sendSeq {hub : Nat} {dst : Nat} {cls : Nat} {m : Msg} {owner : MsgOwner} {s : State} (hm : Sub 30408720 k) (h : Keeps k s0 s) :
    Keeps k s0 ((sendSeq hub dst cls m owner s).2) := by
  unfold sendSeq
  repeat' first
    | (with_reducible refine hm.of ?_); exact rfl
    | with_reducible assumption
    | (with_reducible first | apply keeps_ite | apply keeps_txPump | apply keeps_putTx | apply keeps_txResync | apply keeps_fabFault)
    | (have x := (); extract_lets +onlyGivenNames x; refine keeps_cut k s0 x ?_ fun _ => ?_; rotate_left; clear_value x)
    | (have x := (); extract_lets +onlyGivenNames x; clear_value x)
    | split
    | dsimp only [x]
    | (with_reducible first | apply Keeps.put_awaited)

theorem keeps_repathOne {old : State} {k' : Nat} {s : State} (hm : Sub 26214416 k) (h : Keeps k s0 s) :
    Keeps k s0 (repathOne old k' s) := by
  unfold repathOne
  repeat' first
    | (with_reducible refine hm.of ?_); exact rfl
    | with_reducible assumption
    | (with_reducible first | apply keeps_ite | apply keeps_putTx | apply keeps_txResync)

theorem keeps_repath {old : State} {s : State} (hm : Sub 26214416 k) (h : Keeps k s0 s) :
    Keeps k s0 (repath old s) := by
  unfold repath
  repeat' first
    | (with_reducible refine hm.of ?_); exact rfl
    | with_reducible assumption
    | (with_reducible first | refine keeps_forAll ?_ fun _ _ _ => ?_ | apply keeps_repathOne)

theorem keeps_portDown {p : Nat} {cause : Nat} {s : State} (hm : Sub 18141968138704 k) (h : Keeps k s0 s) :
    Keeps k s0 (portDown p cause s) := by
  unfold portDown
  repeat' first
    | (with_reducible refine hm.of ?_); exact rfl
    | with_reducible assumption
    | (with_reducible first | apply keeps_ite | apply keeps_bump | apply keeps_raiseFault | apply keeps_putPort | apply keeps_setRegF | apply keeps_repath)

theorem keeps_laserDown {p : Nat} {s : State} (hm : Sub 18141968138704 k) (h : Keeps k s0 s) :
    Keeps k s0 (laserDown p s) := by
  unfold laserDown
  repeat' first
    | (with_reducible refine hm.of ?_); exact rfl
    | with_reducible assumption
    | (with_reducible first | apply keeps_ite | apply keeps_raiseFault | apply keeps_putPort | apply keeps_portDown)

theorem keeps_performWrite {from_ : MsgFrom} {m : Msg} {s : State} (hm : Sub 27264208 k) (h : Keeps k s0 s) :
    Keeps k s0 ((performWrite from_ m s).st) := by
  unfold performWrite
  repeat' first
    | (with_reducible refine hm.of ?_); exact rfl
    | with_reducible assumption
    | with_reducible apply keeps_windowMessage
    | (have x := (); extract_lets +onlyGivenNames x; refine keeps_cut2 k s0 x ?_ fun _ => ?_; rotate_left; clear_value x)
    | split

theorem keeps_performSend {from_ : MsgFrom} {m : Msg} {s : State} (hm : Sub 27264208 k) (h : Keeps k s0 s) :
    Keeps k s0 ((performSend from_ m s).st) := by
  unfold performSend
  repeat' first
    | (with_reducible refine hm.of ?_); exact rfl
    | with_reducible assumption
    | with_reducible apply keeps_rqSend
    | (have x := (); extract_lets +onlyGivenNames x; refine keeps_cut2 k s0 x ?_ fun _ => ?_; rotate_left; clear_value x)
    | split

theorem keeps_performRead {m : Msg} {s : State} (hm : Sub 0 k) (h : Keeps k s0 s) :
    Keeps k s0 ((performRead m s).st) := by
  unfold performRead
  repeat' first
    | with_reducible assumption
    | (have x := (); extract_lets +onlyGivenNames x; clear_value x)
    | split

theorem keeps_performAtomic {from_ : MsgFrom} {who : Option Nat} {m : Msg} {s : State} (hm : Sub 1232 k) (h : Keeps k s0 s) :
    Keeps k s0 ((performAtomic from_ who m s).st) := by
  unfold performAtomic
  repeat' first
    | (with_reducible refine hm.of ?_); exact rfl
    | with_reducible assumption
    | (with_reducible first | refine keeps_forAll ?_ fun _ _ _ => ?_ | apply keeps_putMsg | apply keeps_rqClaim | apply keeps_enterBank)
    | (have x := (); extract_lets +onlyGivenNames x; refine keeps_cut k s0 x ?_ fun _ => ?_; rotate_left; clear_value x)
    | (have x := (); extract_lets +onlyGivenNames x; refine keeps_cut2 k s0 x ?_ fun _ => ?_; rotate_left; clear_value x)
    | (have x := (); extract_lets +onlyGivenNames x; clear_value x)
    | split

theorem keeps_performAt {from_ : MsgFrom} {who : Option Nat} {m : Msg} {s : State} (hm : Sub 27264208 k) (h : Keeps k s0 s) :
    Keeps k s0 ((performAt from_ who m s).st) := by
  unfold performAt
  repeat' first
    | (with_reducible refine hm.of ?_); exact rfl
    | with_reducible assumption
    | (with_reducible first | apply keeps_performAtomic | apply keeps_performRead | apply keeps_performWrite | apply keeps_performSend)
    | split

end Sys2Proof.Machine
end

