-- ==== Sys2Proof/Laws/KeepsPour.lean ====
section
/-! SUPPORT. What the operations of Machine/Pour.lean keep. -/

namespace Sys2Proof.Machine

variable {k : Nat} {s0 : State}

theorem keeps_putPq {s : State} {h' : Nat} {q : Nat} {v : PourQ} (hm : Sub 131072 k) (h : Keeps k s0 s) :
    Keeps k s0 (putPq s h' q v) := by
  unfold putPq
  repeat' first
    | (with_reducible refine hm.of ?_); exact rfl
    | with_reducible assumption
    | (with_reducible first | apply Keeps.put_pour)

theorem keeps_pqWrite {h' : Nat} {q : Nat} {w : Nat} {row : Nat} {off : Nat} {ke : BitVec 24 × BitVec 16} {l : List Byte} {s : State} (hm : Sub 27264208 k) (h : Keeps k s0 s) :
    Keeps k s0 ((pqWrite h' q w row off ke l s).2) := by
  unfold pqWrite
  repeat' first
    | (with_reducible refine hm.of ?_); exact rfl
    | with_reducible assumption
    | (with_reducible first | apply keeps_bump | apply keeps_windowMessage)
    | (have x := (); extract_lets +onlyGivenNames x; clear_value x)
    | split

theorem keeps_pqPlain {h' : Nat} {q : Nat} {row : Nat} {l : List Byte} {s : State} (hm : Sub 27264208 k) (h : Keeps k s0 s) :
    Keeps k s0 ((pqPlain h' q row l s).2) := by
  unfold pqPlain
  repeat' first
    | (with_reducible refine hm.of ?_); exact rfl
    | with_reducible assumption
    | with_reducible apply keeps_plainMessage
    | (have x := (); extract_lets +onlyGivenNames x; clear_value x)
    | split

theorem keeps_pourStatus {h' : Nat} {q : Nat} {s : State} (hm : Sub 27395280 k) (h : Keeps k s0 s) :
    Keeps k s0 (pourStatus h' q s) := by
  unfold pourStatus
  repeat' first
    | (with_reducible refine hm.of ?_); exact rfl
    | with_reducible assumption
    | (with_reducible first | apply keeps_ite | apply keeps_bump | apply keeps_putPq | apply keeps_pqWrite)
    | (have x := (); extract_lets +onlyGivenNames x; refine keeps_cut k s0 x ?_ fun _ => ?_; rotate_left; clear_value x)
    | (have x := (); extract_lets +onlyGivenNames x; clear_value x)
    | split

theorem keeps_pourForget {h' : Nat} {q : Nat} {s : State} (hm : Sub 4194304 k) (h : Keeps k s0 s) :
    Keeps k s0 (pourForget h' q s) := by
  unfold pourForget
  repeat' first
    | (with_reducible refine hm.of ?_); exact rfl
    | with_reducible assumption
    | (with_reducible first | apply Keeps.put_awaited)

theorem keeps_pourEnd {h' : Nat} {q : Nat} {code : Nat} {expert : Nat} {s : State} (hm : Sub 18141973513680 k) (h : Keeps k s0 s) :
    Keeps k s0 (pourEnd h' q code expert s) := by
  unfold pourEnd
  repeat' first
    | (with_reducible refine hm.of ?_); exact rfl
    | with_reducible assumption
    | (with_reducible first | apply keeps_ite | apply keeps_raiseFault | apply keeps_pourStatus | apply keeps_putPq | apply keeps_pourForget | apply keeps_markVeto)
    | (have x := (); extract_lets +onlyGivenNames x; clear_value x)
    | split

theorem keeps_pourCombine {h' : Nat} {q : Nat} {s : State} (hm : Sub 18141973515728 k) (h : Keeps k s0 s) :
    Keeps k s0 (pourCombine h' q s) := by
  unfold pourCombine
  repeat' first
    | (with_reducible refine hm.of ?_); exact rfl
    | with_reducible assumption
    | (with_reducible first | apply keeps_ite | apply keeps_pourEnd | apply keeps_censusSend | apply keeps_pqWrite)
    | (have x := (); extract_lets +onlyGivenNames x; clear_value x)
    | split

theorem keeps_groupSend {h' : Nat} {q : Nat} {d : Nat} {pass : Nat} {s : State} (hm : Sub 18141974564304 k) (h : Keeps k s0 s) :
    Keeps k s0 (groupSend h' q d pass s) := by
  unfold groupSend
  repeat' first
    | (with_reducible refine hm.of ?_); exact rfl
    | with_reducible assumption
    | (with_reducible first | apply keeps_ite | apply keeps_sendSeq | apply keeps_putPq | apply keeps_pourEnd | apply keeps_performAt | apply keeps_censusSend)
    | (have x := (); extract_lets +onlyGivenNames x; clear_value x)
    | split

theorem keeps_groupClaim {h' : Nat} {q : Nat} {d : Nat} {pass : Nat} {s : State} (hm : Sub 18141974564304 k) (h : Keeps k s0 s) :
    Keeps k s0 (groupClaim h' q d pass s) := by
  unfold groupClaim
  repeat' first
    | (with_reducible refine hm.of ?_); exact rfl
    | with_reducible assumption
    | (with_reducible first | apply keeps_ite | apply keeps_sendSeq | apply keeps_putPq | apply keeps_groupSend | apply keeps_pourEnd | apply keeps_rqClaim)
    | (have x := (); extract_lets +onlyGivenNames x; clear_value x)
    | split

theorem keeps_pourAdvance {h' : Nat} {q : Nat} {x1 : Nat} {x2 : State} (hm : Sub 18141974564304 k) (h : Keeps k s0 x2) :
    Keeps k s0 (pourAdvance h' q x1 x2) := by
  induction x1 generalizing x2 with
  | zero =>
    unfold pourAdvance
    repeat' first
      | (with_reducible refine hm.of ?_); exact rfl
      | with_reducible assumption
      | (with_reducible first | apply keeps_ite | apply keeps_groupClaim | apply keeps_groupSend | apply keeps_pourCombine)
      | (have x := (); extract_lets +onlyGivenNames x; clear_value x)
      | split
  | succ n ih =>
    unfold pourAdvance
    repeat' first
      | (with_reducible refine hm.of ?_); exact rfl
      | with_reducible assumption
      | (with_reducible first | apply ih | apply keeps_ite | apply keeps_groupClaim | apply keeps_groupSend | apply keeps_pourCombine)
      | (have x := (); extract_lets +onlyGivenNames x; clear_value x)
      | split

theorem keeps_pourClaimed {h' : Nat} {q : Nat} {avail : Nat} {s : State} (hm : Sub 18141974564304 k) (h : Keeps k s0 s) :
    Keeps k s0 (pourClaimed h' q avail s) := by
  unfold pourClaimed
  repeat' first
    | (with_reducible refine hm.of ?_); exact rfl
    | with_reducible assumption
    | (with_reducible first | apply keeps_ite | apply keeps_groupSend | apply keeps_pourAdvance)
    | (have x := (); extract_lets +onlyGivenNames x; clear_value x)
    | split

theorem keeps_pourRetry {h' : Nat} {q : Nat} {s : State} (hm : Sub 18141974564304 k) (h : Keeps k s0 s) :
    Keeps k s0 (pourRetry h' q s) := by
  unfold pourRetry
  repeat' first
    | (with_reducible refine hm.of ?_); exact rfl
    | with_reducible assumption
    | (with_reducible first | apply keeps_ite | apply keeps_pourAdvance | apply keeps_groupClaim)
    | split

theorem keeps_pourTake {h' : Nat} {q : Nat} {b : List Byte} {s : State} (hm : Sub 131072 k) (h : Keeps k s0 s) :
    Keeps k s0 (pourTake h' q b s) := by
  unfold pourTake
  repeat' first
    | (with_reducible refine hm.of ?_); exact rfl
    | with_reducible assumption
    | with_reducible apply keeps_putPq

theorem keeps_setReq {h' : Nat} {q : Nat} {r : PourReq} {s : State} (hm : Sub 131072 k) (h : Keeps k s0 s) :
    Keeps k s0 (setReq h' q r s) := by
  unfold setReq
  repeat' first
    | (with_reducible refine hm.of ?_); exact rfl
    | with_reducible assumption
    | with_reducible apply keeps_putPq

theorem keeps_pourForward {h' : Nat} {q : Nat} {r : PourReq} {m : List Byte} {s : State} (hm : Sub 18141974564304 k) (h : Keeps k s0 s) :
    Keeps k s0 (pourForward h' q r m s) := by
  unfold pourForward
  repeat' first
    | (with_reducible refine hm.of ?_); exact rfl
    | with_reducible assumption
    | (with_reducible first | apply keeps_ite | refine keeps_forAll ?_ fun _ _ _ => ?_ | apply keeps_addCtr | apply keeps_putPq | apply keeps_pqPlain | apply keeps_pourEnd | apply keeps_pourAdvance)
    | (have x := (); extract_lets +onlyGivenNames x; refine keeps_cut k s0 x ?_ fun _ => ?_; rotate_left; clear_value x)
    | (have x := (); extract_lets +onlyGivenNames x; refine keeps_cut2 k s0 x ?_ fun _ => ?_; rotate_left; clear_value x)
    | (have x := (); extract_lets +onlyGivenNames x; clear_value x)
    | split

theorem keeps_pourBackward {h' : Nat} {q : Nat} {r : PourReq} {m : List Byte} {s : State} (hm : Sub 18141974564304 k) (h : Keeps k s0 s) :
    Keeps k s0 (pourBackward h' q r m s) := by
  unfold pourBackward
  repeat' first
    | (with_reducible refine hm.of ?_); exact rfl
    | with_reducible assumption
    | (with_reducible first | apply keeps_ite | apply keeps_pqPlain | apply keeps_pourEnd | apply keeps_setReq | apply keeps_pourAdvance)

theorem keeps_pourAccept {h' : Nat} {q : Nat} {tag : BitVec 12} {d : List Byte} {s : State} (hm : Sub 18141974564304 k) (h : Keeps k s0 s) :
    Keeps k s0 ((pourAccept h' q tag d s).2) := by
  unfold pourAccept
  repeat' first
    | (with_reducible refine hm.of ?_); exact rfl
    | with_reducible assumption
    | (with_reducible first | apply keeps_bump | apply keeps_setReq | apply keeps_pourAdvance | apply keeps_pqWrite)
    | (have x := (); extract_lets +onlyGivenNames x; refine keeps_cut k s0 x ?_ fun _ => ?_; rotate_left; clear_value x)
    | (have x := (); extract_lets +onlyGivenNames x; refine keeps_cut2 k s0 x ?_ fun _ => ?_; rotate_left; clear_value x)
    | (have x := (); extract_lets +onlyGivenNames x; clear_value x)
    | split

theorem keeps_pourBack {h' : Nat} {q : Nat} {r : PourReq} {m : List Byte} {s : State} (hm : Sub 18141974564304 k) (h : Keeps k s0 s) :
    Keeps k s0 (pourBack h' q r m s) := by
  unfold pourBack
  repeat' first
    | (with_reducible refine hm.of ?_); exact rfl
    | with_reducible assumption
    | (with_reducible first | apply keeps_ite | refine keeps_forAll ?_ fun _ _ _ => ?_ | apply keeps_pourAccept | apply keeps_sendSeq | apply keeps_pourEnd | apply keeps_censusSend)

theorem keeps_pourPost {h' : Nat} {q : Nat} {row : BitVec 18} {s : State} (hm : Sub 131088 k) (h : Keeps k s0 s) :
    Keeps k s0 (pourPost h' q row s) := by
  unfold pourPost
  repeat' first
    | (with_reducible refine hm.of ?_); exact rfl
    | with_reducible assumption
    | (with_reducible first | apply keeps_ite | apply keeps_bump | apply keeps_putPq)

theorem keeps_pourStart {op : Nat} {h' : Nat} {q : Nat} {s : State} (hm : Sub 18141974564304 k) (h : Keeps k s0 s) :
    Keeps k s0 (pourStart op h' q s) := by
  unfold pourStart
  repeat' first
    | (with_reducible refine hm.of ?_); exact rfl
    | with_reducible assumption
    | (with_reducible first | apply keeps_ite | apply keeps_pourTake | apply keeps_pourBack | apply keeps_pourEnd | apply keeps_pourBackward | apply keeps_pourForward)
    | (have x := (); extract_lets +onlyGivenNames x; refine keeps_cut k s0 x ?_ fun _ => ?_; rotate_left; clear_value x)
    | (have x := (); extract_lets +onlyGivenNames x; clear_value x)
    | split

theorem keeps_pourTimeout {h' : Nat} {q : Nat} {s : State} (hm : Sub 18141973513680 k) (h : Keeps k s0 s) :
    Keeps k s0 (pourTimeout h' q s) := by
  unfold pourTimeout
  repeat' first
    | (with_reducible refine hm.of ?_); exact rfl
    | with_reducible assumption
    | (with_reducible first | apply keeps_ite | apply keeps_pourEnd)
    | split

theorem keeps_pourResume {h' : Nat} {q : Nat} {s : State} (hm : Sub 131072 k) (h : Keeps k s0 s) :
    Keeps k s0 (pourResume h' q s) := by
  unfold pourResume
  repeat' first
    | (with_reducible refine hm.of ?_); exact rfl
    | with_reducible assumption
    | with_reducible apply keeps_putPq

theorem keeps_pqCfgWrite {h' : Nat} {q : Nat} {v : Word} {s : State} (hm : Sub 131088 k) (h : Keeps k s0 s) :
    Keeps k s0 (pqCfgWrite h' q v s) := by
  unfold pqCfgWrite
  repeat' first
    | (with_reducible refine hm.of ?_); exact rfl
    | with_reducible assumption
    | (with_reducible first | apply keeps_ite | apply keeps_bump | apply keeps_putPq)

theorem keeps_pqCommand {h' : Nat} {q : Nat} {v : Word} {s : State} (hm : Sub 131088 k) (h : Keeps k s0 s) :
    Keeps k s0 (pqCommand h' q v s) := by
  unfold pqCommand
  repeat' first
    | (with_reducible refine hm.of ?_); exact rfl
    | with_reducible assumption
    | (with_reducible first | apply keeps_ite | apply keeps_bump | apply keeps_pourResume)

theorem keeps_execPqDoorbell {hub : Nat} {q : BitVec 6} {row : BitVec 18} {s : State} (hm : Sub 131088 k) (h : Keeps k s0 s) :
    KeepsR k s0 (execPqDoorbell hub q row s) := by
  unfold execPqDoorbell
  repeat' first
    | (with_reducible refine hm.of ?_); exact rfl
    | with_reducible assumption
    | intro _
    | (with_reducible first | apply keepsR_next | apply keeps_ite | apply keeps_inDomain | apply keeps_pourPost | apply keeps_unmapped)

theorem keeps_execFwd {hub : Nat} {q : BitVec 6} {s : State} (hm : Sub 18141974564304 k) (h : Keeps k s0 s) :
    KeepsR k s0 (execFwd hub q s) := by
  unfold execFwd
  repeat' first
    | (with_reducible refine hm.of ?_); exact rfl
    | with_reducible assumption
    | intro _
    | (with_reducible first | apply keeps_onHub | apply keeps_pourStart)

theorem keeps_execBwd {hub : Nat} {q : BitVec 6} {s : State} (hm : Sub 18141974564304 k) (h : Keeps k s0 s) :
    KeepsR k s0 (execBwd hub q s) := by
  unfold execBwd
  repeat' first
    | (with_reducible refine hm.of ?_); exact rfl
    | with_reducible assumption
    | intro _
    | (with_reducible first | apply keeps_onHub | apply keeps_pourStart)

theorem keeps_execPourReturn {hub : Nat} {q : BitVec 6} {s : State} (hm : Sub 18141974564304 k) (h : Keeps k s0 s) :
    KeepsR k s0 (execPourReturn hub q s) := by
  unfold execPourReturn
  repeat' first
    | (with_reducible refine hm.of ?_); exact rfl
    | with_reducible assumption
    | intro _
    | (with_reducible first | apply keeps_onHub | apply keeps_pourStart)

theorem keeps_execPourClaimRetry {hub : Nat} {q : BitVec 6} {s : State} (hm : Sub 18141974564304 k) (h : Keeps k s0 s) :
    KeepsR k s0 (execPourClaimRetry hub q s) := by
  unfold execPourClaimRetry
  repeat' first
    | (with_reducible refine hm.of ?_); exact rfl
    | with_reducible assumption
    | intro _
    | (with_reducible first | apply keeps_onHub | apply keeps_pourRetry)

theorem keeps_execPourTimeout {hub : Nat} {q : BitVec 6} {s : State} (hm : Sub 18141973513680 k) (h : Keeps k s0 s) :
    KeepsR k s0 (execPourTimeout hub q s) := by
  unfold execPourTimeout
  repeat' first
    | (with_reducible refine hm.of ?_); exact rfl
    | with_reducible assumption
    | intro _
    | (with_reducible first | apply keeps_onHub | apply keeps_pourTimeout)

theorem keeps_execPourResume {hub : Nat} {q : BitVec 6} {s : State} (hm : Sub 131088 k) (h : Keeps k s0 s) :
    KeepsR k s0 (execPourResume hub q s) := by
  unfold execPourResume
  repeat' first
    | (with_reducible refine hm.of ?_); exact rfl
    | with_reducible assumption
    | intro _
    | (with_reducible first | apply keepsR_next | apply keeps_ite | apply keeps_inDomain | apply keeps_pourResume | apply keeps_unmapped)

end Sys2Proof.Machine
end

