-- ==== Sys2Proof/Laws/KeepsDma.lean ====
section
/-! SUPPORT. What the operations of Machine/Dma.lean keep. -/

namespace Sys2Proof.Machine

variable {k : Nat} {s0 : State}

theorem keeps_dmaIgnore {c : Nat} {s : State} (hm : Sub 16 k) (h : Keeps k s0 s) :
    Keeps k s0 (dmaIgnore c s) := by
  unfold dmaIgnore
  repeat' first
    | (with_reducible refine hm.of ?_); exact rfl
    | with_reducible assumption
    | with_reducible apply keeps_bump

theorem keeps_ringConfig {c : Nat} {r : Nat} {v : Word} {s : State} (hm : Sub 144 k) (h : Keeps k s0 s) :
    Keeps k s0 (ringConfig c r v s) := by
  unfold ringConfig
  repeat' first
    | (with_reducible refine hm.of ?_); exact rfl
    | with_reducible assumption
    | (with_reducible first | apply keeps_ite | apply keeps_putRing | apply keeps_dmaIgnore)

theorem keeps_ringBell {c : Nat} {r : Nat} {n : Nat} {s : State} (hm : Sub 144 k) (h : Keeps k s0 s) :
    Keeps k s0 (ringBell c r n s) := by
  unfold ringBell
  repeat' first
    | (with_reducible refine hm.of ?_); exact rfl
    | with_reducible assumption
    | (with_reducible first | apply keeps_ite | apply keeps_putRing | apply keeps_dmaIgnore)

theorem keeps_descData {c : Nat} {v : Word} {s : State} (hm : Sub 18167711728080 k) (h : Keeps k s0 s) :
    Keeps k s0 (descData c v s) := by
  unfold descData
  repeat' first
    | (with_reducible refine hm.of ?_); exact rfl
    | with_reducible assumption
    | (with_reducible first | apply keeps_ite | apply keeps_raiseClu | apply keeps_setReg | apply keeps_storeWrite | apply keeps_dmaIgnore)

theorem keeps_editDesc {c : Nat} {r : Nat} {n : BitVec 32} {f : Desc → Desc} {s : State} (hm : Sub 128 k) (h : Keeps k s0 s) :
    Keeps k s0 (editDesc c r n f s) := by
  unfold editDesc
  repeat' first
    | (with_reducible refine hm.of ?_); exact rfl
    | with_reducible assumption
    | with_reducible apply keeps_putDesc
    | split

theorem keeps_descLand {c : Nat} {r : Nat} {n : BitVec 32} {s : State} (hm : Sub 128 k) (h : Keeps k s0 s) :
    Keeps k s0 (descLand c r n s) := by
  unfold descLand
  repeat' first
    | (with_reducible refine hm.of ?_); exact rfl
    | with_reducible assumption
    | with_reducible apply keeps_editDesc

theorem keeps_descWait {c : Nat} {r : Nat} {n : BitVec 32} {w : DescWait} {s : State} (hm : Sub 128 k) (h : Keeps k s0 s) :
    Keeps k s0 (descWait c r n w s) := by
  unfold descWait
  repeat' first
    | (with_reducible refine hm.of ?_); exact rfl
    | with_reducible assumption
    | with_reducible apply keeps_editDesc

theorem keeps_descMoved {c : Nat} {r : Nat} {n : BitVec 32} {k' : Nat} {s : State} (hm : Sub 128 k) (h : Keeps k s0 s) :
    Keeps k s0 (descMoved c r n k' s) := by
  unfold descMoved
  repeat' first
    | (with_reducible refine hm.of ?_); exact rfl
    | with_reducible assumption
    | with_reducible apply keeps_editDesc

theorem keeps_setCtxSt {t : Nat} {k' : Nat} {v : BitVec 2} {s : State} (hm : Sub 64 k) (h : Keeps k s0 s) :
    Keeps k s0 (setCtxSt t k' v s) := by
  unfold setCtxSt
  repeat' first
    | (with_reducible refine hm.of ?_); exact rfl
    | with_reducible assumption
    | with_reducible apply keeps_putTile

theorem keeps_ctxLoadEnd {c : Nat} {d : Desc} {failed : Bool} {s : State} (hm : Sub 64 k) (h : Keeps k s0 s) :
    Keeps k s0 (ctxLoadEnd c d failed s) := by
  unfold ctxLoadEnd
  repeat' first
    | (with_reducible refine hm.of ?_); exact rfl
    | with_reducible assumption
    | (with_reducible first | apply keeps_ite | refine keeps_forAll ?_ fun _ _ _ => ?_ | apply keeps_setCtxSt)

theorem keeps_descAbandon {c : Nat} {r : Nat} {d : Desc} {s : State} (hm : Sub 8800392466512 k) (h : Keeps k s0 s) :
    Keeps k s0 (descAbandon c r d s) := by
  unfold descAbandon
  repeat' first
    | (with_reducible refine hm.of ?_); exact rfl
    | with_reducible assumption
    | (with_reducible first | apply keeps_ite | refine keeps_forAll ?_ fun _ _ _ => ?_ | apply keeps_tensorStore | apply keeps_addCtr | apply keeps_giveHold | apply keeps_ctxLoadEnd | apply keeps_dropWrites)
    | (have x := (); extract_lets +onlyGivenNames x; refine keeps_cut k s0 x ?_ fun _ => ?_; rotate_left; clear_value x)
    | (have x := (); extract_lets +onlyGivenNames x; clear_value x)
    | split
    | dsimp only [x]
    | (with_reducible first | apply Keeps.put_awaited_colls | apply Keeps.put_awaited | apply Keeps.put_colls)

theorem keeps_descFail {c : Nat} {r : Nat} {n : BitVec 32} {code : Nat} {sub : Nat} {raised : Bool} {s : State} (hm : Sub 26942334390736 k) (h : Keeps k s0 s) :
    Keeps k s0 (descFail c r n code sub raised s) := by
  unfold descFail
  repeat' first
    | (with_reducible refine hm.of ?_); exact rfl
    | with_reducible assumption
    | (with_reducible first | apply keeps_ite | refine keeps_forAll ?_ fun _ _ _ => ?_ | apply keeps_putRing | apply keeps_bump | apply keeps_raiseFault | apply keeps_descAbandon)

theorem keeps_descFailAccess {c : Nat} {r : Nat} {n : BitVec 32} {code : Nat} {s : State} (hm : Sub 26942334390736 k) (h : Keeps k s0 s) :
    Keeps k s0 (descFailAccess c r n code s) := by
  unfold descFailAccess
  repeat' first
    | (with_reducible refine hm.of ?_); exact rfl
    | with_reducible assumption
    | with_reducible apply keeps_descFail

theorem keeps_setDmaDone {c : Nat} {r : Nat} {s : State} (hm : Sub 144 k) (h : Keeps k s0 s) :
    Keeps k s0 (setDmaDone c r s) := by
  unfold setDmaDone
  repeat' first
    | (with_reducible refine hm.of ?_); exact rfl
    | with_reducible assumption
    | (with_reducible first | apply keeps_setBit | apply keeps_putClu)

theorem keeps_descComplete {c : Nat} {r : Nat} {s : State} (hm : Sub 71888 k) (h : Keeps k s0 s) :
    Keeps k s0 (descComplete c r s) := by
  unfold descComplete
  repeat' first
    | (with_reducible refine hm.of ?_); exact rfl
    | with_reducible assumption
    | (with_reducible first | apply keeps_ite | refine keeps_forAll ?_ fun _ _ _ => ?_ | apply keeps_putRing | apply keeps_bump | apply keeps_baristaIrq | apply keeps_addCtr | apply keeps_setDmaDone | apply keeps_ctxLoadEnd | apply keeps_censusSend | apply keeps_sealWritten)
    | (have x := (); extract_lets +onlyGivenNames x; clear_value x)
    | split

theorem keeps_reqTake {c : Nat} {l : List Nat} {s : State} (hm : Sub 128 k) (h : Keeps k s0 s) :
    Keeps k s0 (reqTake c l s) := by
  unfold reqTake
  repeat' first
    | (with_reducible refine hm.of ?_); exact rfl
    | with_reducible assumption
    | with_reducible apply keeps_putClu

theorem keeps_carWait {c : Nat} {r : Nat} {n : Nat} {s : State} (hm : Sub 144 k) (h : Keeps k s0 s) :
    Keeps k s0 (carWait c r n s) := by
  unfold carWait
  repeat' first
    | (with_reducible refine hm.of ?_); exact rfl
    | with_reducible assumption
    | (with_reducible first | apply keeps_addCtr | apply keeps_reqTake)

theorem keeps_descStart {mine : List Byte → Bool} {act : Nat → Nat → BitVec 32 → List Byte → State → State} {c : Nat} {r : Nat} {s : State} (hm : Sub 26942334423504 k) (h : Keeps k s0 s) (hact : ∀ (y0 : Nat) (y1 : Nat) (y2 : BitVec 32) (y3 : List Byte) (y4 : State), Keeps k s0 y4 → Keeps k s0 (act y0 y1 y2 y3 y4)) :
    Keeps k s0 (descStart mine act c r s) := by
  unfold descStart
  repeat' first
    | (with_reducible refine hm.of ?_); exact rfl
    | with_reducible assumption
    | (with_reducible first | apply keeps_ite | apply keeps_putRing | apply keeps_descFail | apply keeps_carWait | apply keeps_carEcc | apply hact)
    | (have x := (); extract_lets +onlyGivenNames x; clear_value x)
    | split

theorem keeps_localEcc {c : Nat} {sp : Nat} {units : List Nat} {s : State} (hm : Sub 18141941957072 k) (h : Keeps k s0 s) :
    Keeps k s0 ((localEcc c sp units s).2) := by
  unfold localEcc
  repeat' first
    | (with_reducible refine hm.of ?_); exact rfl
    | with_reducible assumption
    | (with_reducible first | apply keeps_pageEcc | apply keeps_carEcc | apply keeps_resAlarm | apply keeps_putTile)
    | (have x := (); extract_lets +onlyGivenNames x; refine keeps_cut2 k s0 x ?_ fun _ => ?_; rotate_left; clear_value x)
    | split

theorem keeps_placeRead {c : Nat} {r : Nat} {count : BitVec 32} {p : Place} {disp : Int} {n : Nat} {s : State} (hm : Sub 88510686147024 k) (h : Keeps k s0 s) :
    Keeps k s0 ((placeRead c r count p disp n s).2.2) := by
  unfold placeRead
  repeat' first
    | (with_reducible refine hm.of ?_); exact rfl
    | with_reducible assumption
    | (with_reducible first | apply keeps_tensorRead | apply keeps_carWait | apply keeps_localEcc)
    | (have x := (); extract_lets +onlyGivenNames x; refine keeps_cut2 k s0 x ?_ fun _ => ?_; rotate_left; clear_value x)
    | (have x := (); extract_lets +onlyGivenNames x; clear_value x)
    | split

theorem keeps_placeWrite {c : Nat} {r : Nat} {count : BitVec 32} {p : Place} {disp : Int} {l : List Byte} {s : State} (hm : Sub 97414180632016 k) (h : Keeps k s0 s) :
    Keeps k s0 ((placeWrite c r count p disp l s).2) := by
  unfold placeWrite
  repeat' first
    | (with_reducible refine hm.of ?_); exact rfl
    | with_reducible assumption
    | intro _
    | (with_reducible first | refine keeps_forAll ?_ fun _ _ _ => ?_ | apply keeps_tensorWrite | apply keeps_plainMessage | exact memWrite_wf _ _ (by assumption))
    | ((have x := (); extract_lets +onlyGivenNames x; first | (have u : Stores := x; clear u) | (have u : Mem := x; clear u) | (have u := fun a => x a; clear u)); dsimp -zeta only [x]; clear x)
    | (have x := (); extract_lets +onlyGivenNames x; clear_value x)
    | split
    | (with_reducible first | apply Keeps.put_mCtx | apply Keeps.put_mVdesc)

theorem keeps_freeCounts {s : State} (hm : Sub 8 k) (h : Keeps k s0 s) :
    Keeps k s0 ((freeCounts s).2) := by
  unfold freeCounts
  repeat' first
    | (with_reducible refine hm.of ?_); exact rfl
    | with_reducible assumption
    | with_reducible apply keeps_drawFree

theorem keeps_moveAll {ty : Nat} {l : List Byte} {s : State} (hm : Sub 8 k) (h : Keeps k s0 s) :
    Keeps k s0 ((moveAll ty l s).2) := by
  unfold moveAll
  repeat' first
    | (with_reducible refine hm.of ?_); exact rfl
    | with_reducible assumption
    | with_reducible apply keeps_freeCounts
    | (have x := (); extract_lets +onlyGivenNames x; refine keeps_cut2 k s0 x ?_ fun _ => ?_; rotate_left; clear_value x)
    | (have x := (); extract_lets +onlyGivenNames x; clear_value x)
    | split

theorem keeps_countMove {c : Nat} {r : Nat} {n : BitVec 32} {ty : Nat} {l : List Byte} {s : State} (hm : Sub 136 k) (h : Keeps k s0 s) :
    Keeps k s0 (countMove c r n ty l s) := by
  unfold countMove
  repeat' first
    | (with_reducible refine hm.of ?_); exact rfl
    | with_reducible assumption
    | (with_reducible first | apply keeps_moveAll | apply keeps_editDesc)

theorem keeps_copyPut {c : Nat} {r : Nat} {n : BitVec 32} {b : List Byte} {l : List Byte} {s : State} (hm : Sub 97414185088464 k) (h : Keeps k s0 s) :
    Keeps k s0 (copyPut c r n b l s) := by
  unfold copyPut
  repeat' first
    | (with_reducible refine hm.of ?_); exact rfl
    | with_reducible assumption
    | (with_reducible first | apply keeps_ite | apply keeps_descFailAccess | apply keeps_descLand | apply keeps_descFail | apply keeps_windowMessage | apply keeps_descMoved | apply keeps_placeWrite)
    | (have x := (); extract_lets +onlyGivenNames x; clear_value x)
    | split

theorem keeps_descSend {c : Nat} {r : Nat} {n : BitVec 32} {dev : Nat} {m : Msg} {got : Performed → State} {s : State} (hm : Sub 26942362703312 k) (h : Keeps k s0 s) (hgot : ∀ (y0 : Performed), Keeps k s0 y0.st → Keeps k s0 (got y0)) :
    Keeps k s0 (descSend c r n dev m got s) := by
  unfold descSend
  repeat' first
    | (with_reducible refine hm.of ?_); exact rfl
    | with_reducible assumption
    | (with_reducible first | apply keeps_ite | apply keeps_sendSeq | apply keeps_descWait | apply keeps_descFail | apply keeps_performAt | apply hgot)

theorem keeps_copySource {c : Nat} {r : Nat} {n : BitVec 32} {b : List Byte} {s : State} (hm : Sub 88510686147024 k) (h : Keeps k s0 s) :
    Keeps k s0 ((copySource c r n b s).2.2.2) := by
  unfold copySource
  repeat' first
    | (with_reducible refine hm.of ?_); exact rfl
    | with_reducible assumption
    | with_reducible apply keeps_placeRead
    | split

theorem keeps_copyTransmit {c : Nat} {r : Nat} {n : BitVec 32} {b : List Byte} {dev : Nat} {s : State} (hm : Sub 97311106921944 k) (h : Keeps k s0 s) :
    Keeps k s0 (copyTransmit c r n b dev s) := by
  unfold copyTransmit
  repeat' first
    | (with_reducible refine hm.of ?_); exact rfl
    | with_reducible assumption
    | intro _
    | (with_reducible first | apply keeps_ite | apply keeps_descLand | apply keeps_descFail | apply keeps_copySource | apply keeps_countMove | apply keeps_descSend | apply keeps_editDesc)

theorem keeps_copyClaim {c : Nat} {r : Nat} {n : BitVec 32} {b : List Byte} {dev : Nat} {s : State} (hm : Sub 97311106921944 k) (h : Keeps k s0 s) :
    Keeps k s0 (copyClaim c r n b dev s) := by
  unfold copyClaim
  repeat' first
    | (with_reducible refine hm.of ?_); exact rfl
    | with_reducible assumption
    | (with_reducible first | apply keeps_ite | apply keeps_copyTransmit | apply keeps_sendSeq | apply keeps_descWait | apply keeps_descFail | apply keeps_rqClaim)
    | split

theorem keeps_copyClaimed {c : Nat} {r : Nat} {n : BitVec 32} {avail : Nat} {s : State} (hm : Sub 97311106921944 k) (h : Keeps k s0 s) :
    Keeps k s0 (copyClaimed c r n avail s) := by
  unfold copyClaimed
  repeat' first
    | (with_reducible refine hm.of ?_); exact rfl
    | with_reducible assumption
    | (with_reducible first | apply keeps_ite | apply keeps_copyTransmit)
    | (have x := (); extract_lets +onlyGivenNames x; clear_value x)
    | split

theorem keeps_claimAgain {c : Nat} {r : Nat} {d : Desc} {s : State} (hm : Sub 97311106921944 k) (h : Keeps k s0 s) :
    Keeps k s0 (claimAgain c r d s) := by
  unfold claimAgain
  repeat' first
    | (with_reducible refine hm.of ?_); exact rfl
    | with_reducible assumption
    | (with_reducible first | apply keeps_ite | apply keeps_copyClaim)
    | split

theorem keeps_claimRetry {c : Nat} {r : Nat} {s : State} (hm : Sub 97311106921944 k) (h : Keeps k s0 s) :
    Keeps k s0 (claimRetry c r s) := by
  unfold claimRetry
  repeat' first
    | (with_reducible refine hm.of ?_); exact rfl
    | with_reducible assumption
    | (with_reducible first | refine keeps_forAll ?_ fun _ _ _ => ?_ | apply keeps_claimAgain)

theorem keeps_ctxBegin {c : Nat} {b : List Byte} {s : State} (hm : Sub 64 k) (h : Keeps k s0 s) :
    Keeps k s0 ((ctxBegin c b s).2) := by
  unfold ctxBegin
  repeat' first
    | (with_reducible refine hm.of ?_); exact rfl
    | with_reducible assumption
    | (with_reducible first | refine keeps_forAll ?_ fun _ _ _ => ?_ | apply keeps_setCtxSt)
    | (have x := (); extract_lets +onlyGivenNames x; clear_value x)
    | split

theorem keeps_loadThen {c : Nat} {r : Nat} {n : BitVec 32} {b : List Byte} {f : State → State} {s : State} (hm : Sub 26942334390736 k) (h : Keeps k s0 s) (hf : ∀ (y0 : State), Keeps k s0 y0 → Keeps k s0 (f y0)) :
    Keeps k s0 (loadThen c r n b f s) := by
  unfold loadThen
  repeat' first
    | (with_reducible refine hm.of ?_); exact rfl
    | with_reducible assumption
    | (with_reducible first | apply keeps_ite | apply keeps_descFail | apply keeps_ctxBegin | apply keeps_editDesc | apply hf)

theorem keeps_pieceWrite {c : Nat} {r : Nat} {n : BitVec 32} {dst : Place} {msg : Nat} {last : Bool} {d : Int} {l : List Byte} {s : State} (hm : Sub 97414180632016 k) (h : Keeps k s0 s) :
    Keeps k s0 ((pieceWrite c r n dst msg last d l s).2) := by
  unfold pieceWrite
  repeat' first
    | (with_reducible refine hm.of ?_); exact rfl
    | with_reducible assumption
    | (with_reducible first | apply keeps_windowPart | apply keeps_placeWrite)
    | split

theorem keeps_copyRun {c : Nat} {r : Nat} {n : BitVec 32} {src : Place} {dst : Place} {msg : Nat} {x1 : List (Int × Int × Nat)} {x2 : State} (hm : Sub 97414180632016 k) (h : Keeps k s0 x2) :
    Keeps k s0 ((copyRun c r n src dst msg x1 x2).2.2) := by
  induction x1 generalizing x2 with
  | nil =>
    unfold copyRun
    repeat' first
      | (with_reducible refine hm.of ?_); exact rfl
      | with_reducible assumption
      | (with_reducible first | apply keeps_placeRead | apply keeps_pieceWrite | apply keeps_quietMsg | apply keeps_descMoved)
      | (have x := (); extract_lets +onlyGivenNames x; refine keeps_cut2 k s0 x ?_ fun _ => ?_; rotate_left; clear_value x)
      | (have x := (); extract_lets +onlyGivenNames x; refine keeps_cut3 k s0 x ?_ fun _ => ?_; rotate_left; clear_value x)
      | split
  | cons a l ih =>
    unfold copyRun
    repeat' first
      | (with_reducible refine hm.of ?_); exact rfl
      | with_reducible assumption
      | (with_reducible first | apply ih | apply keeps_placeRead | apply keeps_pieceWrite | apply keeps_quietMsg | apply keeps_descMoved)
      | (have x := (); extract_lets +onlyGivenNames x; refine keeps_cut2 k s0 x ?_ fun _ => ?_; rotate_left; clear_value x)
      | (have x := (); extract_lets +onlyGivenNames x; refine keeps_cut3 k s0 x ?_ fun _ => ?_; rotate_left; clear_value x)
      | split

theorem keeps_copyAll {c : Nat} {r : Nat} {n : BitVec 32} {src : Place} {dst : Place} {l : List (Int × Int × Nat)} {s : State} (hm : Sub 97414180632016 k) (h : Keeps k s0 s) :
    Keeps k s0 ((copyAll c r n src dst l s).2.2) := by
  unfold copyAll
  repeat' first
    | (with_reducible refine hm.of ?_); exact rfl
    | with_reducible assumption
    | (with_reducible first | apply keeps_copyRun | apply keeps_openMessage)
    | (have x := (); extract_lets +onlyGivenNames x; refine keeps_cut2 k s0 x ?_ fun _ => ?_; rotate_left; clear_value x)
    | split

theorem keeps_copyFetch {c : Nat} {r : Nat} {n : BitVec 32} {b : List Byte} {sw : BitVec 64} {len : Nat} {s : State} (hm : Sub 97414186137040 k) (h : Keeps k s0 s) :
    Keeps k s0 (copyFetch c r n b sw len s) := by
  unfold copyFetch
  repeat' first
    | (with_reducible refine hm.of ?_); exact rfl
    | with_reducible assumption
    | intro _
    | (with_reducible first | apply keeps_ite | apply keeps_descWait | apply keeps_descFail | apply keeps_descSend | apply keeps_copyPut)
    | (have x := (); extract_lets +onlyGivenNames x; clear_value x)
    | split

theorem keeps_copyLocal {c : Nat} {r : Nat} {n : BitVec 32} {b : List Byte} {len : Nat} {dst : Place} {s : State} (hm : Sub 97414185088472 k) (h : Keeps k s0 s) :
    Keeps k s0 (copyLocal c r n b len dst s) := by
  unfold copyLocal
  repeat' first
    | (with_reducible refine hm.of ?_); exact rfl
    | with_reducible assumption
    | (with_reducible first | apply keeps_ite | apply keeps_descFailAccess | apply keeps_descLand | apply keeps_copyAll | apply keeps_descFail | apply keeps_countMove)
    | split

theorem keeps_copyBody {c : Nat} {r : Nat} {n : BitVec 32} {b : List Byte} {s : State} (hm : Sub 97414186137048 k) (h : Keeps k s0 s) :
    Keeps k s0 (copyBody c r n b s) := by
  unfold copyBody
  repeat' first
    | (with_reducible refine hm.of ?_); exact rfl
    | with_reducible assumption
    | intro _
    | (with_reducible first | apply keeps_ite | apply keeps_loadThen | apply keeps_copyTransmit | apply keeps_copyClaim | apply keeps_copyFetch | apply keeps_descFail | apply keeps_copyLocal)
    | (have x := (); extract_lets +onlyGivenNames x; clear_value x)
    | split

theorem keeps_readArrived {c : Nat} {r : Nat} {n : BitVec 32} {l : List Byte} {s : State} (hm : Sub 97414185088464 k) (h : Keeps k s0 s) :
    Keeps k s0 (readArrived c r n l s) := by
  unfold readArrived
  repeat' first
    | (with_reducible refine hm.of ?_); exact rfl
    | with_reducible assumption
    | (with_reducible first | apply keeps_ite | apply keeps_descWait | apply keeps_copyPut)
    | split

theorem keeps_curveBody {c : Nat} {r : Nat} {n : BitVec 32} {b : List Byte} {s : State} (hm : Sub 97414185088472 k) (h : Keeps k s0 s) :
    Keeps k s0 (curveBody c r n b s) := by
  unfold curveBody
  repeat' first
    | (with_reducible refine hm.of ?_); exact rfl
    | with_reducible assumption
    | intro _
    | (with_reducible first | apply keeps_ite | apply keeps_loadThen | apply keeps_descFailAccess | apply keeps_descLand | apply keeps_copyAll | apply keeps_freeCounts | apply keeps_descFail | apply keeps_editDesc)
    | split

theorem keeps_completeBody {c : Nat} {r : Nat} {n : BitVec 32} {b : List Byte} {s : State} (hm : Sub 97414185219536 k) (h : Keeps k s0 s) :
    Keeps k s0 (completeBody c r n b s) := by
  unfold completeBody
  repeat' first
    | (with_reducible refine hm.of ?_); exact rfl
    | with_reducible assumption
    | intro _
    | (with_reducible first | apply keeps_ite | apply keeps_loadThen | apply keeps_descFailAccess | apply keeps_descLand | apply keeps_descFail | apply keeps_pourPost | apply keeps_rinseCount | apply keeps_rqGive | apply keeps_descMoved | apply keeps_placeWrite)
    | (have x := (); extract_lets +onlyGivenNames x; clear_value x)
    | split

theorem keeps_fenceBody {c : Nat} {r : Nat} {n : BitVec 32} {b : List Byte} {s : State} (hm : Sub 26942334390736 k) (h : Keeps k s0 s) :
    Keeps k s0 (fenceBody c r n b s) := by
  unfold fenceBody
  repeat' first
    | (with_reducible refine hm.of ?_); exact rfl
    | with_reducible assumption
    | (with_reducible first | apply keeps_ite | apply keeps_descWait | apply keeps_descFail)

theorem keeps_ringRestart {c : Nat} {r : Nat} {s : State} (hm : Sub 8800392466640 k) (h : Keeps k s0 s) :
    Keeps k s0 (ringRestart c r s) := by
  unfold ringRestart
  repeat' first
    | (with_reducible refine hm.of ?_); exact rfl
    | with_reducible assumption
    | (with_reducible first | refine keeps_forAll ?_ fun _ _ _ => ?_ | apply keeps_putRing | apply keeps_descAbandon)

theorem keeps_ringResume {c : Nat} {r : Nat} {s : State} (hm : Sub 8800392466640 k) (h : Keeps k s0 s) :
    Keeps k s0 (ringResume c r s) := by
  unfold ringResume
  repeat' first
    | (with_reducible refine hm.of ?_); exact rfl
    | with_reducible assumption
    | (with_reducible first | apply keeps_ite | apply keeps_putRing | apply keeps_ringRestart | apply keeps_dmaIgnore)

theorem keeps_ringSkip {c : Nat} {r : Nat} {s : State} (hm : Sub 8800392466640 k) (h : Keeps k s0 s) :
    Keeps k s0 (ringSkip c r s) := by
  unfold ringSkip
  repeat' first
    | (with_reducible refine hm.of ?_); exact rfl
    | with_reducible assumption
    | (with_reducible first | apply keeps_ite | apply keeps_putRing | apply keeps_ringRestart | apply keeps_dmaIgnore)

theorem keeps_ringAbort {c : Nat} {r : Nat} {s : State} (hm : Sub 8800392466640 k) (h : Keeps k s0 s) :
    Keeps k s0 (ringAbort c r s) := by
  unfold ringAbort
  repeat' first
    | (with_reducible refine hm.of ?_); exact rfl
    | with_reducible assumption
    | (with_reducible first | apply keeps_putRing | apply keeps_ringRestart)

theorem keeps_ringCommand {c : Nat} {v : Word} {s : State} (hm : Sub 8800392466640 k) (h : Keeps k s0 s) :
    Keeps k s0 (ringCommand c v s) := by
  unfold ringCommand
  repeat' first
    | (with_reducible refine hm.of ?_); exact rfl
    | with_reducible assumption
    | (with_reducible first | apply keeps_ringAbort | apply keeps_ringResume | apply keeps_ringSkip | apply keeps_dmaIgnore)
    | (have x := (); extract_lets +onlyGivenNames x; clear_value x)
    | split

theorem keeps_ringTimeout {c : Nat} {r : Nat} {s : State} (hm : Sub 26942334390736 k) (h : Keeps k s0 s) :
    Keeps k s0 (ringTimeout c r s) := by
  unfold ringTimeout
  repeat' first
    | (with_reducible refine hm.of ?_); exact rfl
    | with_reducible assumption
    | with_reducible apply keeps_descFail
    | split

theorem keeps_promoteTimeout {c : Nat} {r : Nat} {s : State} (hm : Sub 26942334390736 k) (h : Keeps k s0 s) :
    Keeps k s0 (promoteTimeout c r s) := by
  unfold promoteTimeout
  repeat' first
    | (with_reducible refine hm.of ?_); exact rfl
    | with_reducible assumption
    | (with_reducible first | apply keeps_descFail | apply keeps_tierFault)
    | split

theorem keeps_carafeReturn {c : Nat} {cupping : Bool} {ring : Nat} {row : Nat} {s : State} (hm : Sub 26942334423504 k) (h : Keeps k s0 s) :
    Keeps k s0 (carafeReturn c cupping ring row s) := by
  unfold carafeReturn
  repeat' first
    | (with_reducible refine hm.of ?_); exact rfl
    | with_reducible assumption
    | (with_reducible first | apply keeps_ite | apply keeps_raiseClu | apply keeps_bump | apply keeps_descFail | apply keeps_reqTake | apply keeps_putClu | apply keeps_carEcc)
    | (have x := (); extract_lets +onlyGivenNames x; refine keeps_cut k s0 x ?_ fun _ => ?_; rotate_left; clear_value x)
    | split

theorem keeps_asyncArrive {a : Store} {w : AsyncRow} {s : State} (hm : Sub 26942361654736 k) (h : Keeps k s0 s) :
    Keeps k s0 (asyncArrive a w s) := by
  unfold asyncArrive
  repeat' first
    | (with_reducible refine hm.of ?_); exact rfl
    | with_reducible assumption
    | (with_reducible first | apply keeps_ite | apply keeps_raiseClu | apply keeps_windowRow | apply keeps_descFail | apply keeps_rinseCount | apply keeps_putMsg | apply keeps_openMessage | apply keeps_enterBank)
    | (have x := (); extract_lets +onlyGivenNames x; clear_value x)
    | split

theorem keeps_execAsyncWriteArrive {a : Store} {w : AsyncRow} {s : State} (hm : Sub 26942361654736 k) (h : Keeps k s0 s) :
    KeepsR k s0 (execAsyncWriteArrive a w s) := by
  unfold execAsyncWriteArrive
  repeat' first
    | (with_reducible refine hm.of ?_); exact rfl
    | with_reducible assumption
    | intro _
    | (with_reducible first | apply keeps_onUnit | apply keeps_asyncArrive)

theorem keeps_execCarafeReadReturn {c : Nat} {cupping : Bool} {ring : BitVec 6} {row : Nat} {s : State} (hm : Sub 26942334423504 k) (h : Keeps k s0 s) :
    KeepsR k s0 (execCarafeReadReturn c cupping ring row s) := by
  unfold execCarafeReadReturn
  repeat' first
    | (with_reducible refine hm.of ?_); exact rfl
    | with_reducible assumption
    | intro _
    | (with_reducible first | apply keeps_onUnit | apply keeps_carafeReturn)

theorem keeps_execDmaDoorbell {c : Nat} {ring : BitVec 6} {count : BitVec 16} {s : State} (hm : Sub 144 k) (h : Keeps k s0 s) :
    KeepsR k s0 (execDmaDoorbell c ring count s) := by
  unfold execDmaDoorbell
  repeat' first
    | (with_reducible refine hm.of ?_); exact rfl
    | with_reducible assumption
    | intro _
    | (with_reducible first | apply keeps_cluCommand | apply keeps_ringBell)

theorem keeps_execDmaDescData {c : Nat} {v : BitVec 64} {s : State} (hm : Sub 18167711728080 k) (h : Keeps k s0 s) :
    KeepsR k s0 (execDmaDescData c v s) := by
  unfold execDmaDescData
  repeat' first
    | (with_reducible refine hm.of ?_); exact rfl
    | with_reducible assumption
    | intro _
    | (with_reducible first | apply keeps_descData | apply keeps_cluCommand)

theorem keeps_execDmaResume {c : Nat} {ring : BitVec 6} {s : State} (hm : Sub 8800392466640 k) (h : Keeps k s0 s) :
    KeepsR k s0 (execDmaResume c ring s) := by
  unfold execDmaResume
  repeat' first
    | (with_reducible refine hm.of ?_); exact rfl
    | with_reducible assumption
    | intro _
    | (with_reducible first | apply keeps_ringResume | apply keeps_cluCommand)

theorem keeps_execDmaSkip {c : Nat} {ring : BitVec 6} {s : State} (hm : Sub 8800392466640 k) (h : Keeps k s0 s) :
    KeepsR k s0 (execDmaSkip c ring s) := by
  unfold execDmaSkip
  repeat' first
    | (with_reducible refine hm.of ?_); exact rfl
    | with_reducible assumption
    | intro _
    | (with_reducible first | apply keeps_ringSkip | apply keeps_cluCommand)

theorem keeps_execDmaAbort {c : Nat} {ring : BitVec 6} {s : State} (hm : Sub 8800392466640 k) (h : Keeps k s0 s) :
    KeepsR k s0 (execDmaAbort c ring s) := by
  unfold execDmaAbort
  repeat' first
    | (with_reducible refine hm.of ?_); exact rfl
    | with_reducible assumption
    | intro _
    | (with_reducible first | apply keeps_ringAbort | apply keeps_cluCommand)

theorem keeps_execDmaRingCfgWrite {c : Nat} {ring : BitVec 6} {v : BitVec 64} {s : State} (hm : Sub 144 k) (h : Keeps k s0 s) :
    KeepsR k s0 (execDmaRingCfgWrite c ring v s) := by
  unfold execDmaRingCfgWrite
  repeat' first
    | (with_reducible refine hm.of ?_); exact rfl
    | with_reducible assumption
    | intro _
    | (with_reducible first | apply keeps_cluCommand | apply keeps_ringConfig)

theorem keeps_execCopy {c : Nat} {ring : BitVec 6} {s : State} (hm : Sub 97414186137048 k) (h : Keeps k s0 s) :
    KeepsR k s0 (execCopy c ring s) := by
  unfold execCopy
  repeat' first
    | (with_reducible refine hm.of ?_); exact rfl
    | with_reducible assumption
    | intro _
    | (with_reducible first | apply keeps_copyBody | apply keeps_onCluster | apply keeps_descStart)

theorem keeps_execCurve {c : Nat} {ring : BitVec 6} {s : State} (hm : Sub 97414185088472 k) (h : Keeps k s0 s) :
    KeepsR k s0 (execCurve c ring s) := by
  unfold execCurve
  repeat' first
    | (with_reducible refine hm.of ?_); exact rfl
    | with_reducible assumption
    | intro _
    | (with_reducible first | apply keeps_onCluster | apply keeps_curveBody | apply keeps_descStart)

theorem keeps_execComplete {c : Nat} {ring : BitVec 6} {s : State} (hm : Sub 97414185219536 k) (h : Keeps k s0 s) :
    KeepsR k s0 (execComplete c ring s) := by
  unfold execComplete
  repeat' first
    | (with_reducible refine hm.of ?_); exact rfl
    | with_reducible assumption
    | intro _
    | (with_reducible first | apply keeps_onCluster | apply keeps_descStart | apply keeps_completeBody)

theorem keeps_execFence {c : Nat} {ring : BitVec 6} {s : State} (hm : Sub 26942334423504 k) (h : Keeps k s0 s) :
    KeepsR k s0 (execFence c ring s) := by
  unfold execFence
  repeat' first
    | (with_reducible refine hm.of ?_); exact rfl
    | with_reducible assumption
    | intro _
    | (with_reducible first | apply keeps_onCluster | apply keeps_fenceBody | apply keeps_descStart)

theorem keeps_execDescComplete {c : Nat} {ring : BitVec 6} {s : State} (hm : Sub 71888 k) (h : Keeps k s0 s) :
    KeepsR k s0 (execDescComplete c ring s) := by
  unfold execDescComplete
  repeat' first
    | (with_reducible refine hm.of ?_); exact rfl
    | with_reducible assumption
    | intro _
    | (with_reducible first | apply keeps_onCluster | apply keeps_descComplete)

theorem keeps_execDmaWaitTmo {c : Nat} {ring : BitVec 6} {s : State} (hm : Sub 26942334390736 k) (h : Keeps k s0 s) :
    KeepsR k s0 (execDmaWaitTmo c ring s) := by
  unfold execDmaWaitTmo
  repeat' first
    | (with_reducible refine hm.of ?_); exact rfl
    | with_reducible assumption
    | intro _
    | (with_reducible first | apply keeps_onCluster | apply keeps_ringTimeout)

theorem keeps_execDmaClaimRetry {c : Nat} {ring : BitVec 6} {s : State} (hm : Sub 97311106921944 k) (h : Keeps k s0 s) :
    KeepsR k s0 (execDmaClaimRetry c ring s) := by
  unfold execDmaClaimRetry
  repeat' first
    | (with_reducible refine hm.of ?_); exact rfl
    | with_reducible assumption
    | intro _
    | (with_reducible first | apply keeps_onCluster | apply keeps_claimRetry)

end Sys2Proof.Machine
end

