-- ==== Sys2Proof/Laws/KeepsWalks.lean ====
section
/-! SUPPORT. What the operations of Machine/Walks.lean keep. -/

namespace Sys2Proof.Machine

variable {k : Nat} {s0 : State}

/-- The state that reading a list answers. -/
def ListRead.state : ListRead → State
  | .access _ s => s
  | .fails _ _ s => s
  | .ok _ s => s

theorem keeps_lrAccess {a : Nat} {s : State} (h : Keeps k s0 s) : Keeps k s0 (ListRead.access a s).state := h
theorem keeps_lrFails {a b : Nat} {s : State} (h : Keeps k s0 s) : Keeps k s0 (ListRead.fails a b s).state := h
theorem keeps_lrOk {l : List Nat} {s : State} (h : Keeps k s0 s) : Keeps k s0 (ListRead.ok l s).state := h
theorem keeps_ofAccess {r : ListRead} {a : Nat} {s : State} (e : r = .access a s) (h : Keeps k s0 r.state) : Keeps k s0 s := by
  rw [e] at h; exact h
theorem keeps_ofFails {r : ListRead} {a b : Nat} {s : State} (e : r = .fails a b s) (h : Keeps k s0 r.state) : Keeps k s0 s := by
  rw [e] at h; exact h
theorem keeps_ofList {r : ListRead} {l : List Nat} {s : State} (e : r = .ok l s) (h : Keeps k s0 r.state) : Keeps k s0 s := by
  rw [e] at h; exact h


theorem keeps_walkFail {c : Nat} {r : Nat} {n : BitVec 32} {append : Bool} {hdr : Nat} {code : Nat} {entry : Nat} {s : State} (hm : Sub 26942334390736 k) (h : Keeps k s0 s) :
    Keeps k s0 (walkFail c r n append hdr code entry s) := by
  unfold walkFail
  repeat' first
    | (with_reducible refine hm.of ?_); exact rfl
    | with_reducible assumption
    | (with_reducible first | apply keeps_ite | apply keeps_setReg | apply keeps_descFail)

theorem keeps_promoteEntry {c : Nat} {r : Nat} {n : BitVec 32} {b : List Byte} {i : Nat} {s : State} (hm : Sub 18141941928400 k) (h : Keeps k s0 s) :
    Keeps k s0 (promoteEntry c r n b i s) := by
  unfold promoteEntry
  repeat' first
    | (with_reducible refine hm.of ?_); exact rfl
    | with_reducible assumption
    | (with_reducible first | apply keeps_ite | refine keeps_forAll ?_ fun _ _ _ => ?_ | apply keeps_takeHold | apply keeps_putPage | apply keeps_editDesc | apply keeps_holdPromote)
    | split

theorem keeps_walkBegin {c : Nat} {r : Nat} {n : BitVec 32} {append : Bool} {b : List Byte} {h' : List Byte} {list : List Nat} {s : State} (hm : Sub 18141941928400 k) (h : Keeps k s0 s) :
    Keeps k s0 (walkBegin c r n append b h' list s) := by
  unfold walkBegin
  repeat' first
    | (with_reducible refine hm.of ?_); exact rfl
    | with_reducible assumption
    | (with_reducible first | refine keeps_forAll ?_ fun _ _ _ => ?_ | apply keeps_promoteEntry | apply keeps_editDesc)

theorem keeps_readEntry {c : Nat} {r : Nat} {n : BitVec 32} {h' : List Byte} {i : Nat} {s : State} (hm : Sub 88510686147024 k) (h : Keeps k s0 s) :
    Keeps k s0 ((readEntry c r n h' i s).2.2) := by
  unfold readEntry
  repeat' first
    | (with_reducible refine hm.of ?_); exact rfl
    | with_reducible assumption
    | with_reducible apply keeps_tensorRead

theorem keeps_readList {c : Nat} {r : Nat} {n : BitVec 32} {h' : List Byte} {stop : Nat} {x1 : Nat} {x2 : Nat} {x3 : Nat} {x4 : List Nat} {x5 : State} (hm : Sub 88510686147024 k) (h : Keeps k s0 x5) :
    Keeps k s0 ((readList c r n h' stop x1 x2 x3 x4 x5).state) := by
  induction x1 generalizing x2 x3 x4 x5 with
  | zero =>
    unfold readList
    repeat' first
      | (with_reducible refine hm.of ?_); exact rfl
      | with_reducible assumption
      | (with_reducible first | apply keeps_readEntry | apply keeps_lrAccess | apply keeps_lrFails | apply keeps_lrOk)
      | (have x := (); extract_lets +onlyGivenNames x; refine keeps_cut3 k s0 x ?_ fun _ => ?_; rotate_left; clear_value x)
      | (have x := (); extract_lets +onlyGivenNames x; clear_value x)
      | split
  | succ n ih =>
    unfold readList
    repeat' first
      | (with_reducible refine hm.of ?_); exact rfl
      | with_reducible assumption
      | (with_reducible first | apply ih | apply keeps_readEntry | apply keeps_lrAccess | apply keeps_lrFails | apply keeps_lrOk)
      | (have x := (); extract_lets +onlyGivenNames x; refine keeps_cut3 k s0 x ?_ fun _ => ?_; rotate_left; clear_value x)
      | (have x := (); extract_lets +onlyGivenNames x; clear_value x)
      | split

theorem keeps_walkList {c : Nat} {r : Nat} {n : BitVec 32} {append : Bool} {b : List Byte} {h' : List Byte} {stop : Nat} {go : List Nat → State → State} {s : State} (hm : Sub 97311078609360 k) (h : Keeps k s0 s) (hgo : ∀ (y0 : List Nat) (y1 : State), Keeps k s0 y1 → Keeps k s0 (go y0 y1)) :
    Keeps k s0 (walkList c r n append b h' stop go s) := by
  unfold walkList
  repeat' first
    | (with_reducible refine hm.of ?_); exact rfl
    | with_reducible assumption
    | (with_reducible first | apply keeps_ite | apply keeps_descFailAccess | apply keeps_walkFail | apply keeps_readList | apply hgo | refine keeps_ofAccess (by assumption) ?_ | refine keeps_ofFails (by assumption) ?_ | refine keeps_ofList (by assumption) ?_)
    | (have x := (); extract_lets +onlyGivenNames x; clear_value x)
    | split

theorem keeps_walkHeader {c : Nat} {r : Nat} {n : BitVec 32} {append : Bool} {b : List Byte} {go : List Byte → State → State} {s : State} (hm : Sub 97311078609360 k) (h : Keeps k s0 s) (hgo : ∀ (y0 : List Byte) (y1 : State), Keeps k s0 y1 → Keeps k s0 (go y0 y1)) :
    Keeps k s0 (walkHeader c r n append b go s) := by
  unfold walkHeader
  repeat' first
    | (with_reducible refine hm.of ?_); exact rfl
    | with_reducible assumption
    | (with_reducible first | apply keeps_ite | apply keeps_descFailAccess | apply keeps_tensorRead | apply keeps_descFail | apply keeps_walkFail | apply hgo)
    | (have x := (); extract_lets +onlyGivenNames x; refine keeps_cut k s0 x ?_ fun _ => ?_; rotate_left; clear_value x)
    | (have x := (); extract_lets +onlyGivenNames x; refine keeps_cut3 k s0 x ?_ fun _ => ?_; rotate_left; clear_value x)
    | (have x := (); extract_lets +onlyGivenNames x; clear_value x)
    | split

theorem keeps_readWalkBody {c : Nat} {r : Nat} {n : BitVec 32} {b : List Byte} {s : State} (hm : Sub 97311078609360 k) (h : Keeps k s0 s) :
    Keeps k s0 (readWalkBody c r n b s) := by
  unfold readWalkBody
  repeat' first
    | (with_reducible refine hm.of ?_); exact rfl
    | with_reducible assumption
    | intro _
    | (with_reducible first | apply keeps_ite | apply keeps_loadThen | apply keeps_walkHeader | apply keeps_walkBegin | apply keeps_walkList | apply keeps_walkFail)

theorem keeps_appendWalkBody {c : Nat} {r : Nat} {n : BitVec 32} {b : List Byte} {s : State} (hm : Sub 97311078609360 k) (h : Keeps k s0 s) :
    Keeps k s0 (appendWalkBody c r n b s) := by
  unfold appendWalkBody
  repeat' first
    | (with_reducible refine hm.of ?_); exact rfl
    | with_reducible assumption
    | intro _
    | (with_reducible first | apply keeps_ite | apply keeps_tensorStore | apply keeps_bump | apply keeps_walkHeader | apply keeps_walkBegin | apply keeps_walkList | apply keeps_walkFail | apply keeps_editDesc)

theorem keeps_releaseEntry {c : Nat} {r : Nat} {n : BitVec 32} {i : Nat} {s : State} (hm : Sub 4224 k) (h : Keeps k s0 s) :
    Keeps k s0 (releaseEntry c r n i s) := by
  unfold releaseEntry
  repeat' first
    | (with_reducible refine hm.of ?_); exact rfl
    | with_reducible assumption
    | (with_reducible first | refine keeps_forAll ?_ fun _ _ _ => ?_ | apply keeps_giveHold | apply keeps_editDesc)
    | split

theorem keeps_walkDeliver {c : Nat} {r : Nat} {n : BitVec 32} {b : List Byte} {h' : List Byte} {w : WalkState} {k' : Nat} {final : Bool} {l : List Byte} {s : State} (hm : Sub 97414180632016 k) (h : Keeps k s0 s) :
    Keeps k s0 ((walkDeliver c r n b h' w k' final l s).2) := by
  unfold walkDeliver
  repeat' first
    | (with_reducible refine hm.of ?_); exact rfl
    | with_reducible assumption
    | (with_reducible first | refine keeps_foldl2 (fun _ _ _ => ?_) _ _ ?_ | apply keeps_windowPart | apply keeps_editDesc | apply keeps_openMessage | apply keeps_placeWrite)
    | (have x := (); extract_lets +onlyGivenNames x; refine keeps_cut k s0 x ?_ fun _ => ?_; rotate_left; clear_value x)
    | (have x := (); extract_lets +onlyGivenNames x; refine keeps_cut2 k s0 x ?_ fun _ => ?_; rotate_left; clear_value x)
    | (have x := (); extract_lets +onlyGivenNames x; clear_value x)
    | split
    | dsimp only [x]

theorem keeps_walkCollect {c : Nat} {r : Nat} {n : BitVec 32} {b : List Byte} {h' : List Byte} {w : WalkState} {k' : Nat} {s : State} (hm : Sub 88510686147024 k) (h : Keeps k s0 s) :
    Keeps k s0 ((walkCollect c r n b h' w k' s).2.2) := by
  unfold walkCollect
  repeat' first
    | (with_reducible refine hm.of ?_); exact rfl
    | with_reducible assumption
    | (with_reducible first | refine keeps_foldl3 (fun _ _ _ => ?_) _ _ ?_ | apply keeps_placeRead)
    | (have x := (); extract_lets +onlyGivenNames x; refine keeps_cut3 k s0 x ?_ fun _ => ?_; rotate_left; clear_value x)
    | (have x := (); extract_lets +onlyGivenNames x; clear_value x)
    | split

theorem keeps_walkNext {c : Nat} {r : Nat} {n : BitVec 32} {w : WalkState} {k' : Nat} {cap : Nat} {bytes : Nat} {cen : CensusCounts} {s : State} (hm : Sub 128 k) (h : Keeps k s0 s) :
    Keeps k s0 (walkNext c r n w k' cap bytes cen s) := by
  unfold walkNext
  repeat' first
    | (with_reducible refine hm.of ?_); exact rfl
    | with_reducible assumption
    | (with_reducible first | apply keeps_ite | apply keeps_descLand | apply keeps_editDesc)

theorem keeps_walkEntry {c : Nat} {r : Nat} {s : State} (hm : Sub 97414185088464 k) (h : Keeps k s0 s) :
    Keeps k s0 (walkEntry c r s) := by
  unfold walkEntry
  repeat' first
    | (with_reducible refine hm.of ?_); exact rfl
    | with_reducible assumption
    | (with_reducible first | apply keeps_ite | apply keeps_descFailAccess | apply keeps_releaseEntry | apply keeps_bump | apply keeps_tensorWrite | apply keeps_walkCollect | apply keeps_tensorRead | apply keeps_promoteEntry | apply keeps_walkFail | apply keeps_walkDeliver | apply keeps_readEntry | apply keeps_walkNext)
    | (have x := (); extract_lets +onlyGivenNames x; refine keeps_cut k s0 x ?_ fun _ => ?_; rotate_left; clear_value x)
    | (have x := (); extract_lets +onlyGivenNames x; clear_value x)
    | split

theorem keeps_sealUpTo {tag : BitVec 12} {h' : List Byte} {len : Nat} {last : Nat} {x1 : Nat} {x2 : Nat} {x3 : Nat} {x4 : Nat × State} (hm : Sub 69648 k) (h : Keeps k s0 x4.2) :
    Keeps k s0 ((sealUpTo tag h' len last x1 x2 x3 x4).2) := by
  induction x1 generalizing x2 x3 x4 with
  | zero =>
    unfold sealUpTo
    repeat' first
      | (with_reducible refine hm.of ?_); exact rfl
      | with_reducible assumption
      | (with_reducible first | refine keeps_forAll ?_ fun _ _ _ => ?_ | apply keeps_bump | apply keeps_sealPage)
      | (have x := (); extract_lets +onlyGivenNames x; refine keeps_cut2 k s0 x ?_ fun _ => ?_; rotate_left; clear_value x)
      | (have x := (); extract_lets +onlyGivenNames x; clear_value x)
      | split
      | dsimp only [x]
  | succ n ih =>
    unfold sealUpTo
    repeat' first
      | (with_reducible refine hm.of ?_); exact rfl
      | with_reducible assumption
      | (with_reducible first | apply ih | refine keeps_forAll ?_ fun _ _ _ => ?_ | apply keeps_bump | apply keeps_sealPage)
      | (have x := (); extract_lets +onlyGivenNames x; refine keeps_cut2 k s0 x ?_ fun _ => ?_; rotate_left; clear_value x)
      | (have x := (); extract_lets +onlyGivenNames x; clear_value x)
      | split
      | dsimp only [x]

theorem keeps_appendEnd {c : Nat} {r : Nat} {s : State} (hm : Sub 8800388059280 k) (h : Keeps k s0 s) :
    Keeps k s0 (appendEnd c r s) := by
  unfold appendEnd
  repeat' first
    | (with_reducible refine hm.of ?_); exact rfl
    | with_reducible assumption
    | (with_reducible first | apply keeps_ite | apply keeps_tensorStore | apply keeps_descLand | apply keeps_addCtr | apply keeps_sealUpTo | apply keeps_editDesc)
    | split

theorem keeps_kvRingQuery {tag : BitVec 12} {s : State} (hm : Sub 16 k) (h : Keeps k s0 s) :
    Keeps k s0 (kvRingQuery tag s) := by
  unfold kvRingQuery
  repeat' first
    | (with_reducible refine hm.of ?_); exact rfl
    | with_reducible assumption
    | with_reducible apply keeps_setReg

theorem keeps_execReadWalk {c : Nat} {ring : BitVec 6} {s : State} (hm : Sub 97311078609360 k) (h : Keeps k s0 s) :
    KeepsR k s0 (execReadWalk c ring s) := by
  unfold execReadWalk
  repeat' first
    | (with_reducible refine hm.of ?_); exact rfl
    | with_reducible assumption
    | intro _
    | (with_reducible first | apply keeps_ite | apply keeps_onCluster | apply keeps_descFail | apply keeps_descStart | apply keeps_readWalkBody)

theorem keeps_execAppendWalk {c : Nat} {ring : BitVec 6} {s : State} (hm : Sub 97311078609360 k) (h : Keeps k s0 s) :
    KeepsR k s0 (execAppendWalk c ring s) := by
  unfold execAppendWalk
  repeat' first
    | (with_reducible refine hm.of ?_); exact rfl
    | with_reducible assumption
    | intro _
    | (with_reducible first | apply keeps_ite | apply keeps_onCluster | apply keeps_descFail | apply keeps_descStart | apply keeps_appendWalkBody)

theorem keeps_execWalkEntryStart {c : Nat} {ring : BitVec 6} {s : State} (hm : Sub 97414185088464 k) (h : Keeps k s0 s) :
    KeepsR k s0 (execWalkEntryStart c ring s) := by
  unfold execWalkEntryStart
  repeat' first
    | (with_reducible refine hm.of ?_); exact rfl
    | with_reducible assumption
    | intro _
    | (with_reducible first | apply keeps_onCluster | apply keeps_walkEntry)

theorem keeps_execAppendEnd {c : Nat} {ring : BitVec 6} {s : State} (hm : Sub 8800388059280 k) (h : Keeps k s0 s) :
    KeepsR k s0 (execAppendEnd c ring s) := by
  unfold execAppendEnd
  repeat' first
    | (with_reducible refine hm.of ?_); exact rfl
    | with_reducible assumption
    | intro _
    | (with_reducible first | apply keeps_onCluster | apply keeps_appendEnd)

theorem keeps_execKvRingQuery {tag : BitVec 12} {s : State} (hm : Sub 16 k) (h : Keeps k s0 s) :
    KeepsR k s0 (execKvRingQuery tag s) := by
  unfold execKvRingQuery
  repeat' first
    | (with_reducible refine hm.of ?_); exact rfl
    | with_reducible assumption
    | (with_reducible first | apply keepsR_next | apply keeps_kvRingQuery)

end Sys2Proof.Machine
end

