-- ==== Sys2Proof/Laws/KeepsCollective.lean ====
section
/-! SUPPORT. What the operations of Machine/Collective.lean keep. -/

namespace Sys2Proof.Machine

variable {k : Nat} {s0 : State}

theorem keeps_collSet {k' : Coll} {s : State} (hm : Sub 262144 k) (h : Keeps k s0 s) :
    Keeps k s0 (collSet k' s) := by
  unfold collSet
  repeat' first
    | (with_reducible refine hm.of ?_); exact rfl
    | with_reducible assumption
    | (with_reducible first | apply Keeps.put_colls)

theorem keeps_withColl {key : CollKey} {f : Coll → State → State} {s : State} (hm : Sub 0 k) (h : Keeps k s0 s) (hf : ∀ (y0 : Coll) (y1 : State), Keeps k s0 y1 → Keeps k s0 (f y0 y1)) :
    Keeps k s0 (withColl key f s) := by
  unfold withColl
  repeat' first
    | with_reducible assumption
    | with_reducible apply hf
    | split

theorem keeps_collBytesCount {h' : Nat} {n : Nat} {s : State} (hm : Sub 16 k) (h : Keeps k s0 s) :
    Keeps k s0 (collBytesCount h' n s) := by
  unfold collBytesCount
  repeat' first
    | (with_reducible refine hm.of ?_); exact rfl
    | with_reducible assumption
    | with_reducible apply keeps_addCtr

theorem keeps_collSend {key : CollKey} {rank : Nat} {hub : Nat} {kind : CollKind} {d : CollData} {x1 : State} (hm : Sub 30670864 k) (h : Keeps k s0 x1) :
    Keeps k s0 (collSend key rank hub kind d x1) := by
  unfold collSend
  repeat' first
    | (with_reducible refine hm.of ?_); exact rfl
    | with_reducible assumption
    | intro _
    | (with_reducible first | apply keeps_ite | apply keeps_sendSeq | apply keeps_collBytesCount | apply keeps_withColl | apply keeps_collSet)

theorem keeps_collSendData {key : CollKey} {rank : Nat} {d : CollData} {x1 : State} (hm : Sub 30670864 k) (h : Keeps k s0 x1) :
    Keeps k s0 (collSendData key rank d x1) := by
  unfold collSendData
  repeat' first
    | (with_reducible refine hm.of ?_); exact rfl
    | with_reducible assumption
    | intro _
    | (with_reducible first | apply keeps_ite | apply keeps_withColl | apply keeps_collSend | apply keeps_collSet)

theorem keeps_collSendAll {key : CollKey} {d : CollData} {s : State} (hm : Sub 30670864 k) (h : Keeps k s0 s) :
    Keeps k s0 (collSendAll key d s) := by
  unfold collSendAll
  repeat' first
    | (with_reducible refine hm.of ?_); exact rfl
    | with_reducible assumption
    | intro _
    | (with_reducible first | refine keeps_forAll ?_ fun _ _ _ => ?_ | apply keeps_withColl | apply keeps_collSendData)

theorem keeps_collForget {key : CollKey} {s : State} (hm : Sub 4980736 k) (h : Keeps k s0 s) :
    Keeps k s0 (collForget key s) := by
  unfold collForget
  repeat' first
    | (with_reducible refine hm.of ?_); exact rfl
    | with_reducible assumption
    | (with_reducible first | apply Keeps.put_awaited_colls_collIn | apply Keeps.put_awaited | apply Keeps.put_collIn | apply Keeps.put_colls)

theorem keeps_collFail {key : CollKey} {code : Nat} {sub : Nat} {x1 : State} (hm : Sub 26942334915024 k) (h : Keeps k s0 x1) :
    Keeps k s0 (collFail key code sub x1) := by
  unfold collFail
  repeat' first
    | (with_reducible refine hm.of ?_); exact rfl
    | with_reducible assumption
    | intro _
    | (with_reducible first | apply keeps_ite | apply keeps_bump | apply keeps_raiseFault | apply keeps_withColl | apply keeps_descFail | apply keeps_collForget | apply keeps_recordFirst | apply keeps_markVeto)

theorem keeps_collLocal {key : CollKey} {code : Nat} {x1 : State} (hm : Sub 26942334915024 k) (h : Keeps k s0 x1) :
    Keeps k s0 (collLocal key code x1) := by
  unfold collLocal
  repeat' first
    | (with_reducible refine hm.of ?_); exact rfl
    | with_reducible assumption
    | intro _
    | (with_reducible first | apply keeps_withColl | apply keeps_collSet | apply keeps_collFail)
    | split

theorem keeps_collComplete {key : CollKey} {x1 : State} (hm : Sub 5048464 k) (h : Keeps k s0 x1) :
    Keeps k s0 (collComplete key x1) := by
  unfold collComplete
  repeat' first
    | (with_reducible refine hm.of ?_); exact rfl
    | with_reducible assumption
    | intro _
    | (with_reducible first | apply keeps_ite | refine keeps_forAll ?_ fun _ _ _ => ?_ | apply keeps_descLand | apply keeps_bump | apply keeps_addCtr | apply keeps_withColl | apply keeps_collForget | apply keeps_censusSend | apply keeps_lastContribution)

theorem keeps_collWrite {key : CollKey} {addr : Nat} {disp : Nat} {l : List Byte} {x1 : State} (hm : Sub 97414185612752 k) (h : Keeps k s0 x1) :
    Keeps k s0 (collWrite key addr disp l x1) := by
  unfold collWrite
  repeat' first
    | (with_reducible refine hm.of ?_); exact rfl
    | with_reducible assumption
    | intro _
    | (with_reducible first | apply keeps_ite | apply keeps_withColl | apply keeps_collLocal | apply keeps_windowMessage | apply keeps_placeWrite)
    | split

theorem keeps_collCount {key : CollKey} {n : CensusCounts} {x1 : State} (hm : Sub 262144 k) (h : Keeps k s0 x1) :
    Keeps k s0 (collCount key n x1) := by
  unfold collCount
  repeat' first
    | (with_reducible refine hm.of ?_); exact rfl
    | with_reducible assumption
    | intro _
    | (with_reducible first | apply keeps_withColl | apply keeps_collSet)

theorem keeps_notePoison {tag : BitVec 12} {g : BitVec 48} {bad : List Bool} {o : Option (Nat × Nat)} {s : State} (hm : Sub 65536 k) (h : Keeps k s0 s) :
    Keeps k s0 (notePoison tag g bad o s) := by
  unfold notePoison
  repeat' first
    | (with_reducible refine hm.of ?_); exact rfl
    | with_reducible assumption
    | (with_reducible first | apply keeps_ite | apply keeps_putJob)

theorem keeps_collPour {key : CollKey} {x1 : State} (hm : Sub 97414185612752 k) (h : Keeps k s0 x1) :
    Keeps k s0 (collPour key x1) := by
  unfold collPour
  repeat' first
    | (with_reducible refine hm.of ?_); exact rfl
    | with_reducible assumption
    | intro _
    | (with_reducible first | apply keeps_ite | refine keeps_forAll ?_ fun _ _ _ => ?_ | apply keeps_collWrite | apply keeps_withColl)

theorem keeps_collPlace {key : CollKey} {piece : Nat} {vals : List Byte} {bad : List Bool} {origin : Option (Nat × Nat)} {n : CensusCounts} {x1 : State} (hm : Sub 97414185612752 k) (h : Keeps k s0 x1) :
    Keeps k s0 (collPlace key piece vals bad origin n x1) := by
  unfold collPlace
  repeat' first
    | (with_reducible refine hm.of ?_); exact rfl
    | with_reducible assumption
    | intro _
    | (with_reducible first | apply keeps_ite | apply keeps_collCount | apply keeps_collWrite | apply keeps_collBytesCount | apply keeps_withColl | apply keeps_collSet | apply keeps_notePoison | apply keeps_collPour)

theorem keeps_stepSummary {tag : BitVec 12} {r : StepRecord} {s : State} (hm : Sub 97311074152912 k) (h : Keeps k s0 s) :
    Keeps k s0 (stepSummary tag r s) := by
  unfold stepSummary
  repeat' first
    | (with_reducible refine hm.of ?_); exact rfl
    | with_reducible assumption
    | (with_reducible first | apply keeps_summaryAct | apply keeps_putJob | apply keeps_summaryWatch)

theorem keeps_collSummary {key : CollKey} {rec_ : List Byte} {x1 : State} (hm : Sub 97311074415056 k) (h : Keeps k s0 x1) :
    Keeps k s0 (collSummary key rec_ x1) := by
  unfold collSummary
  repeat' first
    | (with_reducible refine hm.of ?_); exact rfl
    | with_reducible assumption
    | intro _
    | (with_reducible first | apply keeps_ite | apply keeps_withColl | apply keeps_collSet | apply keeps_stepSummary)

theorem keeps_collResult {key : CollKey} {j : Nat} {p : CollPart} {x1 : State} (hm : Sub 97414186661328 k) (h : Keeps k s0 x1) :
    Keeps k s0 (collResult key j p x1) := by
  unfold collResult
  repeat' first
    | (with_reducible refine hm.of ?_); exact rfl
    | with_reducible assumption
    | intro _
    | (with_reducible first | apply keeps_ite | apply keeps_collSendAll | apply keeps_withColl | apply keeps_collPlace | apply keeps_putJob | apply keeps_collSummary)
    | (have x := (); extract_lets +onlyGivenNames x; refine keeps_cut k s0 x ?_ fun _ => ?_; rotate_left; clear_value x)
    | (have x := (); extract_lets +onlyGivenNames x; clear_value x)
    | split

theorem keeps_collAdvance {key : CollKey} {j : Nat} {x1 : Nat} {x2 : State} (hm : Sub 97414186661328 k) (h : Keeps k s0 x2) :
    Keeps k s0 (collAdvance key j x1 x2) := by
  induction x1 generalizing x2 with
  | zero =>
    unfold collAdvance
    repeat' first
      | (with_reducible refine hm.of ?_); exact rfl
      | with_reducible assumption
      | (with_reducible first | apply keeps_ite | apply keeps_collResult | apply keeps_collSendData | apply keeps_collSet)
      | (have x := (); extract_lets +onlyGivenNames x; refine keeps_cut k s0 x ?_ fun _ => ?_; rotate_left; clear_value x)
      | (have x := (); extract_lets +onlyGivenNames x; clear_value x)
      | split
  | succ n ih =>
    unfold collAdvance
    repeat' first
      | (with_reducible refine hm.of ?_); exact rfl
      | with_reducible assumption
      | (with_reducible first | apply ih | apply keeps_ite | apply keeps_collResult | apply keeps_collSendData | apply keeps_collSet)
      | (have x := (); extract_lets +onlyGivenNames x; refine keeps_cut k s0 x ?_ fun _ => ?_; rotate_left; clear_value x)
      | (have x := (); extract_lets +onlyGivenNames x; clear_value x)
      | split

theorem keeps_collEnter {key : CollKey} {j : Nat} {p : CollPart} {x1 : State} (hm : Sub 97414186661328 k) (h : Keeps k s0 x1) :
    Keeps k s0 (collEnter key j p x1) := by
  unfold collEnter
  repeat' first
    | (with_reducible refine hm.of ?_); exact rfl
    | with_reducible assumption
    | intro _
    | (with_reducible first | apply keeps_collAdvance | apply keeps_withColl | apply keeps_collSet)

theorem keeps_collRead {k' : Coll} {n : Nat} {s : State} (hm : Sub 88510686147024 k) (h : Keeps k s0 s) :
    Keeps k s0 ((collRead k' n s).2.2) := by
  unfold collRead
  repeat' first
    | (with_reducible refine hm.of ?_); exact rfl
    | with_reducible assumption
    | with_reducible apply keeps_placeRead
    | split

theorem keeps_drawScales {x1 : Nat} {x2 : State} (hm : Sub 8 k) (h : Keeps k s0 x2) :
    Keeps k s0 ((drawScales x1 x2).2) := by
  induction x1 generalizing x2 with
  | zero =>
    unfold drawScales
    repeat' first
      | (with_reducible refine hm.of ?_); exact rfl
      | with_reducible assumption
      | with_reducible apply keeps_drawFree
  | succ n ih =>
    unfold drawScales
    repeat' first
      | (with_reducible refine hm.of ?_); exact rfl
      | with_reducible assumption
      | (with_reducible first | apply ih | apply keeps_drawFree)

theorem keeps_enterPieces {key : CollKey} {l : List Byte} {x1 : List Nat} {x2 : State} (hm : Sub 97414186661336 k) (h : Keeps k s0 x2) :
    Keeps k s0 (enterPieces key l x1 x2) := by
  induction x1 generalizing x2 with
  | nil =>
    unfold enterPieces
    repeat' first
      | (with_reducible refine hm.of ?_); exact rfl
      | with_reducible assumption
      | (with_reducible first | apply keeps_collCount | apply keeps_collEnter | apply keeps_drawScales)
      | split
  | cons a l ih =>
    unfold enterPieces
    repeat' first
      | (with_reducible refine hm.of ?_); exact rfl
      | with_reducible assumption
      | (with_reducible first | apply ih | apply keeps_collCount | apply keeps_collEnter | apply keeps_drawScales)
      | split

theorem keeps_gatherOwn {key : CollKey} {vals : List Byte} {version : BitVec 32} {x1 : State} (hm : Sub 97414186661336 k) (h : Keeps k s0 x1) :
    Keeps k s0 (gatherOwn key vals version x1) := by
  unfold gatherOwn
  repeat' first
    | (with_reducible refine hm.of ?_); exact rfl
    | with_reducible assumption
    | intro _
    | (with_reducible first | apply keeps_collCount | apply keeps_moveAll | apply keeps_collSendAll | apply keeps_withColl | apply keeps_collPlace)

theorem keeps_collRefuse {key : CollKey} {code : Nat} {x1 : State} (hm : Sub 26942361129424 k) (h : Keeps k s0 x1) :
    Keeps k s0 (collRefuse key code x1) := by
  unfold collRefuse
  repeat' first
    | (with_reducible refine hm.of ?_); exact rfl
    | with_reducible assumption
    | intro _
    | (with_reducible first | refine keeps_forAll ?_ fun _ _ _ => ?_ | apply keeps_withColl | apply keeps_collSend | apply keeps_collFail | apply keeps_leaseFault | apply keeps_markVeto)

theorem keeps_collServe {key : CollKey} {ret : Bool} {version : BitVec 32} {x1 : State} (hm : Sub 97414186661336 k) (h : Keeps k s0 x1) :
    Keeps k s0 (collServe key ret version x1) := by
  unfold collServe
  repeat' first
    | (with_reducible refine hm.of ?_); exact rfl
    | with_reducible assumption
    | intro _
    | (with_reducible first | apply keeps_ite | apply keeps_withColl | apply keeps_tensorRead | apply keeps_collLocal | apply keeps_gatherOwn)
    | split

theorem keeps_collAnswer {key : CollKey} {a : LeaseAns} {s : State} (hm : Sub 97414186661336 k) (h : Keeps k s0 s) :
    Keeps k s0 (collAnswer key a s) := by
  unfold collAnswer
  repeat' first
    | (with_reducible refine hm.of ?_); exact rfl
    | with_reducible assumption
    | intro _
    | (with_reducible first | apply keeps_collRefuse | apply keeps_collServe | apply keeps_withColl | apply keeps_collSet)
    | split

theorem keeps_collLease {key : CollKey} {x1 : State} (hm : Sub 97414186661336 k) (h : Keeps k s0 x1) :
    Keeps k s0 (collLease key x1) := by
  unfold collLease
  repeat' first
    | (with_reducible refine hm.of ?_); exact rfl
    | with_reducible assumption
    | intro _
    | (with_reducible first | apply keeps_ite | apply keeps_withColl | apply keeps_leaseAgain | apply keeps_putLease | apply keeps_leaseNew | apply keeps_collAnswer)
    | split

theorem keeps_collServed {s : State} (hm : Sub 97414186661336 k) (h : Keeps k s0 s) :
    Keeps k s0 (collServed s) := by
  unfold collServed
  repeat' first
    | (with_reducible refine hm.of ?_); exact rfl
    | with_reducible assumption
    | intro _
    | (with_reducible first | apply keeps_ite | refine keeps_forAll ?_ fun _ _ _ => ?_ | apply keeps_collRefuse | apply keeps_collServe | apply keeps_withColl | apply keeps_collSet | apply keeps_putLease)
    | (have x := (); extract_lets +onlyGivenNames x; refine keeps_cut k s0 x ?_ fun _ => ?_; rotate_left; clear_value x)
    | split

theorem keeps_contribute {key : CollKey} {force : Bool} {x1 : State} (hm : Sub 97414186661328 k) (h : Keeps k s0 x1) :
    Keeps k s0 (contribute key force x1) := by
  unfold contribute
  repeat' first
    | (with_reducible refine hm.of ?_); exact rfl
    | with_reducible assumption
    | intro _
    | (with_reducible first | apply keeps_ite | apply keeps_collEnter | apply keeps_bump | apply keeps_withColl | apply keeps_collSet | apply keeps_putJob)

theorem keeps_closeStart {key : CollKey} {x1 : State} (hm : Sub 97414186661328 k) (h : Keeps k s0 x1) :
    Keeps k s0 (closeStart key x1) := by
  unfold closeStart
  repeat' first
    | (with_reducible refine hm.of ?_); exact rfl
    | with_reducible assumption
    | intro _
    | (with_reducible first | apply keeps_ite | apply keeps_collEnter | apply keeps_withColl | apply keeps_putJob | apply keeps_contribute | apply keeps_lastContribution)
    | (have x := (); extract_lets +onlyGivenNames x; clear_value x)
    | split

theorem keeps_cleanEnd {tag : BitVec 12} {g : BitVec 48} {s : State} (hm : Sub 97414186661328 k) (h : Keeps k s0 s) :
    Keeps k s0 (cleanEnd tag g s) := by
  unfold cleanEnd
  repeat' first
    | (with_reducible refine hm.of ?_); exact rfl
    | with_reducible assumption
    | (with_reducible first | apply keeps_ite | apply keeps_putJob | apply keeps_contribute)
    | (have x := (); extract_lets +onlyGivenNames x; refine keeps_cut k s0 x ?_ fun _ => ?_; rotate_left; clear_value x)
    | (have x := (); extract_lets +onlyGivenNames x; clear_value x)
    | split

theorem keeps_heldTimeout {tag : BitVec 12} {s : State} (hm : Sub 97414186661328 k) (h : Keeps k s0 s) :
    Keeps k s0 (heldTimeout tag s) := by
  unfold heldTimeout
  repeat' first
    | (with_reducible refine hm.of ?_); exact rfl
    | with_reducible assumption
    | (with_reducible first | apply keeps_leaseFault | apply keeps_contribute | apply keeps_markVeto)
    | split

theorem keeps_deferTimeout {tag : BitVec 12} {shard : BitVec 24} {s : State} (hm : Sub 26942361129424 k) (h : Keeps k s0 s) :
    Keeps k s0 (deferTimeout tag shard s) := by
  unfold deferTimeout
  repeat' first
    | (with_reducible refine hm.of ?_); exact rfl
    | with_reducible assumption
    | (with_reducible first | apply keeps_ite | apply keeps_collRefuse | apply keeps_putLease | apply keeps_leaseFault)
    | (have x := (); extract_lets +onlyGivenNames x; clear_value x)
    | split

theorem keeps_collBegin {key : CollKey} {x1 : State} (hm : Sub 97414186661336 k) (h : Keeps k s0 x1) :
    Keeps k s0 (collBegin key x1) := by
  unfold collBegin
  repeat' first
    | (with_reducible refine hm.of ?_); exact rfl
    | with_reducible assumption
    | intro _
    | (with_reducible first | apply keeps_ite | refine keeps_forAll ?_ fun _ _ _ => ?_ | apply keeps_collEnter | apply keeps_enterPieces | apply keeps_leaseRelease | apply keeps_collCount | apply keeps_moveAll | apply keeps_closeStart | apply keeps_withColl | apply keeps_collSend | apply keeps_collLocal | apply keeps_collSet | apply keeps_collRead | apply keeps_collPlace | apply keeps_collSendData | apply keeps_collLease | apply keeps_gatherOwn)
    | (have x := (); extract_lets +onlyGivenNames x; refine keeps_cut k s0 x ?_ fun _ => ?_; rotate_left; clear_value x)
    | (have x := (); extract_lets +onlyGivenNames x; refine keeps_cut2 k s0 x ?_ fun _ => ?_; rotate_left; clear_value x)
    | (have x := (); extract_lets +onlyGivenNames x; refine keeps_cut3 k s0 x ?_ fun _ => ?_; rotate_left; clear_value x)
    | ((have x := (); extract_lets +onlyGivenNames x; first | (have u : Stores := x; clear u) | (have u : Mem := x; clear u) | (have u := fun a => x a; clear u)); dsimp -zeta only [x]; clear x)
    | (have x := (); extract_lets +onlyGivenNames x; clear_value x)
    | split

theorem keeps_collDone {key : CollKey} {x1 : State} (hm : Sub 31262864 k) (h : Keeps k s0 x1) :
    Keeps k s0 (collDone key x1) := by
  unfold collDone
  repeat' first
    | (with_reducible refine hm.of ?_); exact rfl
    | with_reducible assumption
    | intro _
    | (with_reducible first | apply keeps_ite | refine keeps_forAll ?_ fun _ _ _ => ?_ | apply keeps_withColl | apply keeps_collSend | apply keeps_collSet | apply keeps_collComplete)
    | (have x := (); extract_lets +onlyGivenNames x; refine keeps_cut k s0 x ?_ fun _ => ?_; rotate_left; clear_value x)
    | split

theorem keeps_collHandle {key : CollKey} {kind : CollKind} {d : CollData} {x1 : State} (hm : Sub 97414186663384 k) (h : Keeps k s0 x1) :
    Keeps k s0 (collHandle key kind d x1) := by
  unfold collHandle
  repeat' first
    | (with_reducible refine hm.of ?_); exact rfl
    | with_reducible assumption
    | intro _
    | (with_reducible first | apply keeps_ite | refine keeps_forAll ?_ fun _ _ _ => ?_ | apply keeps_collAdvance | apply keeps_moveAll | apply keeps_withColl | apply keeps_collSet | apply keeps_collFail | apply keeps_collPlace | apply keeps_leaseFault | apply keeps_collSummary | apply keeps_collComplete | apply keeps_collSendData | apply keeps_markVeto)
    | (have x := (); extract_lets +onlyGivenNames x; refine keeps_cut k s0 x ?_ fun _ => ?_; rotate_left; clear_value x)
    | (have x := (); extract_lets +onlyGivenNames x; refine keeps_cut2 k s0 x ?_ fun _ => ?_; rotate_left; clear_value x)
    | (have x := (); extract_lets +onlyGivenNames x; clear_value x)
    | split
    | dsimp only [x]

theorem keeps_collTake {tag : BitVec 12} {kind : CollKind} {d : CollData} {s : State} (hm : Sub 97414186663384 k) (h : Keeps k s0 s) :
    Keeps k s0 (collTake tag kind d s) := by
  unfold collTake
  repeat' first
    | (with_reducible refine hm.of ?_); exact rfl
    | with_reducible assumption
    | (with_reducible first | apply keeps_ite | apply keeps_leaseRelease | apply keeps_collServed | apply keeps_collHandle)
    | (have x := (); extract_lets +onlyGivenNames x; clear_value x)
    | split
    | (with_reducible first | apply Keeps.put_collIn)

theorem keeps_collAttempt {key : CollKey} {x1 : State} (hm : Sub 97414186663384 k) (h : Keeps k s0 x1) :
    Keeps k s0 (collAttempt key x1) := by
  unfold collAttempt
  repeat' first
    | (with_reducible refine hm.of ?_); exact rfl
    | with_reducible assumption
    | intro _
    | (with_reducible first | refine keeps_forAll ?_ fun _ _ _ => ?_ | apply keeps_collBegin | apply keeps_collTake | apply keeps_withColl | apply keeps_collSend | apply keeps_collSet)
    | (with_reducible first | apply Keeps.put_collIn)

theorem keeps_collRestart {key : CollKey} {a : Nat} {x1 : State} (hm : Sub 97414186663384 k) (h : Keeps k s0 x1) :
    Keeps k s0 (collRestart key a x1) := by
  unfold collRestart
  repeat' first
    | (with_reducible refine hm.of ?_); exact rfl
    | with_reducible assumption
    | intro _
    | (with_reducible first | apply keeps_ite | refine keeps_forAll ?_ fun _ _ _ => ?_ | apply keeps_bump | apply keeps_collAttempt | apply keeps_withColl | apply keeps_collSend | apply keeps_collSet | apply keeps_collFail)
    | (with_reducible first | apply Keeps.put_awaited)

theorem keeps_collSettle {key : CollKey} {x1 : Nat} {x2 : State} (hm : Sub 97414186663384 k) (h : Keeps k s0 x2) :
    Keeps k s0 (collSettle key x1 x2) := by
  induction x1 generalizing x2 with
  | zero =>
    unfold collSettle
    repeat' first
      | (with_reducible refine hm.of ?_); exact rfl
      | with_reducible assumption
      | (with_reducible first | apply keeps_collRestart | apply keeps_collDone)
      | split
  | succ n ih =>
    unfold collSettle
    repeat' first
      | (with_reducible refine hm.of ?_); exact rfl
      | with_reducible assumption
      | (with_reducible first | apply ih | apply keeps_collRestart | apply keeps_collDone)
      | split

theorem keeps_collArrive {tag : BitVec 12} {kind : CollKind} {d : CollData} {s : State} (hm : Sub 97414186663384 k) (h : Keeps k s0 s) :
    Keeps k s0 (collArrive tag kind d s) := by
  unfold collArrive
  repeat' first
    | (with_reducible refine hm.of ?_); exact rfl
    | with_reducible assumption
    | (with_reducible first | apply keeps_collTake | apply keeps_collSettle)

theorem keeps_collInterrupt {key : CollKey} {s : State} (hm : Sub 97414186663384 k) (h : Keeps k s0 s) :
    Keeps k s0 (collInterrupt key s) := by
  unfold collInterrupt
  repeat' first
    | (with_reducible refine hm.of ?_); exact rfl
    | with_reducible assumption
    | intro _
    | (with_reducible first | apply keeps_withColl | apply keeps_collSettle | apply keeps_collSet)

theorem keeps_collAcked {key : CollKey} {dst : Nat} {s : State} (hm : Sub 97414186663384 k) (h : Keeps k s0 s) :
    Keeps k s0 (collAcked key dst s) := by
  unfold collAcked
  repeat' first
    | (with_reducible refine hm.of ?_); exact rfl
    | with_reducible assumption
    | intro _
    | (with_reducible first | apply keeps_ite | apply keeps_withColl | apply keeps_collSettle | apply keeps_collSet)

theorem keeps_collTick {s : State} (hm : Sub 97414186663384 k) (h : Keeps k s0 s) :
    Keeps k s0 (collTick s) := by
  unfold collTick
  repeat' first
    | (with_reducible refine hm.of ?_); exact rfl
    | with_reducible assumption
    | (with_reducible first | refine keeps_forAll ?_ fun _ _ _ => ?_ | apply keeps_collSettle | apply keeps_collServed)

theorem keeps_collAbandon {p : Coll → Bool} {s : State} (hm : Sub 31195152 k) (h : Keeps k s0 s) :
    Keeps k s0 (collAbandon p s) := by
  unfold collAbandon
  repeat' first
    | (with_reducible refine hm.of ?_); exact rfl
    | with_reducible assumption
    | intro _
    | (with_reducible first | refine keeps_forAll ?_ fun _ _ _ => ?_ | apply keeps_withColl | apply keeps_collSend | apply keeps_collForget)

theorem keeps_readyTimeout {key : CollKey} {x1 : State} (hm : Sub 26942334915024 k) (h : Keeps k s0 x1) :
    Keeps k s0 (readyTimeout key x1) := by
  unfold readyTimeout
  repeat' first
    | (with_reducible refine hm.of ?_); exact rfl
    | with_reducible assumption
    | intro _
    | (with_reducible first | apply keeps_ite | apply keeps_withColl | apply keeps_collFail)

theorem keeps_collBody {c : Nat} {r : Nat} {n : BitVec 32} {b : List Byte} {s : State} (hm : Sub 97414186663384 k) (h : Keeps k s0 s) :
    Keeps k s0 (collBody c r n b s) := by
  unfold collBody
  repeat' first
    | (with_reducible refine hm.of ?_); exact rfl
    | with_reducible assumption
    | intro _
    | (with_reducible first | apply keeps_loadThen | apply keeps_descWait | apply keeps_collAttempt | apply keeps_descFail | apply keeps_collSettle)
    | (have x := (); extract_lets +onlyGivenNames x; refine keeps_cut k s0 x ?_ fun _ => ?_; rotate_left; clear_value x)
    | ((have x := (); extract_lets +onlyGivenNames x; first | (have u : Stores := x; clear u) | (have u : Mem := x; clear u) | (have u := fun a => x a; clear u)); dsimp -zeta only [x]; clear x)
    | (have x := (); extract_lets +onlyGivenNames x; clear_value x)
    | split
    | (with_reducible first | apply Keeps.put_colls)

theorem keeps_collStart {cop : Nat} {c : Nat} {r : Nat} {s : State} (hm : Sub 97414186663384 k) (h : Keeps k s0 s) :
    Keeps k s0 (collStart cop c r s) := by
  unfold collStart
  repeat' first
    | (with_reducible refine hm.of ?_); exact rfl
    | with_reducible assumption
    | intro _
    | (with_reducible first | apply keeps_ite | apply keeps_collBody | apply keeps_descStart)

theorem keeps_promoteTmo {c : Nat} {r : Nat} {s : State} (hm : Sub 26942334915024 k) (h : Keeps k s0 s) :
    Keeps k s0 (promoteTmo c r s) := by
  unfold promoteTmo
  repeat' first
    | (with_reducible refine hm.of ?_); exact rfl
    | with_reducible assumption
    | (with_reducible first | apply keeps_promoteTimeout | apply keeps_collLocal | apply keeps_tierFault)
    | split

theorem keeps_execReduceScatter {c : Nat} {ring : BitVec 6} {s : State} (hm : Sub 97414186663384 k) (h : Keeps k s0 s) :
    KeepsR k s0 (execReduceScatter c ring s) := by
  unfold execReduceScatter
  repeat' first
    | (with_reducible refine hm.of ?_); exact rfl
    | with_reducible assumption
    | intro _
    | (with_reducible first | apply keeps_onCluster | apply keeps_collStart)

theorem keeps_execAllGather {c : Nat} {ring : BitVec 6} {s : State} (hm : Sub 97414186663384 k) (h : Keeps k s0 s) :
    KeepsR k s0 (execAllGather c ring s) := by
  unfold execAllGather
  repeat' first
    | (with_reducible refine hm.of ?_); exact rfl
    | with_reducible assumption
    | intro _
    | (with_reducible first | apply keeps_onCluster | apply keeps_collStart)

theorem keeps_execAllReduce {c : Nat} {ring : BitVec 6} {s : State} (hm : Sub 97414186663384 k) (h : Keeps k s0 s) :
    KeepsR k s0 (execAllReduce c ring s) := by
  unfold execAllReduce
  repeat' first
    | (with_reducible refine hm.of ?_); exact rfl
    | with_reducible assumption
    | intro _
    | (with_reducible first | apply keeps_onCluster | apply keeps_collStart)

theorem keeps_execAllToAll {c : Nat} {ring : BitVec 6} {s : State} (hm : Sub 97414186663384 k) (h : Keeps k s0 s) :
    KeepsR k s0 (execAllToAll c ring s) := by
  unfold execAllToAll
  repeat' first
    | (with_reducible refine hm.of ?_); exact rfl
    | with_reducible assumption
    | intro _
    | (with_reducible first | apply keeps_onCluster | apply keeps_collStart)

theorem keeps_execVote {c : Nat} {ring : BitVec 6} {s : State} (hm : Sub 97414186663384 k) (h : Keeps k s0 s) :
    KeepsR k s0 (execVote c ring s) := by
  unfold execVote
  repeat' first
    | (with_reducible refine hm.of ?_); exact rfl
    | with_reducible assumption
    | intro _
    | (with_reducible first | apply keeps_onCluster | apply keeps_collStart)

theorem keeps_execCollRelease {c : Nat} {ring : BitVec 6} {s : State} (hm : Sub 97414186663384 k) (h : Keeps k s0 s) :
    KeepsR k s0 (execCollRelease c ring s) := by
  unfold execCollRelease
  repeat' first
    | (with_reducible refine hm.of ?_); exact rfl
    | with_reducible assumption
    | intro _
    | (with_reducible first | apply keeps_onCluster | apply keeps_collStart)

theorem keeps_execCollClose {c : Nat} {ring : BitVec 6} {s : State} (hm : Sub 97414186663384 k) (h : Keeps k s0 s) :
    KeepsR k s0 (execCollClose c ring s) := by
  unfold execCollClose
  repeat' first
    | (with_reducible refine hm.of ?_); exact rfl
    | with_reducible assumption
    | intro _
    | (with_reducible first | apply keeps_onCluster | apply keeps_collStart)

theorem keeps_execCollReadyTimeout {tag : BitVec 12} {group : Nat} {collId : Nat} {s : State} (hm : Sub 26942334915024 k) (h : Keeps k s0 s) :
    KeepsR k s0 (execCollReadyTimeout tag group collId s) := by
  unfold execCollReadyTimeout
  repeat' first
    | (with_reducible refine hm.of ?_); exact rfl
    | with_reducible assumption
    | (with_reducible first | apply keepsR_next | apply keeps_readyTimeout)

theorem keeps_execTierPromoteTmo {c : Nat} {ring : BitVec 6} {s : State} (hm : Sub 26942334915024 k) (h : Keeps k s0 s) :
    KeepsR k s0 (execTierPromoteTmo c ring s) := by
  unfold execTierPromoteTmo
  repeat' first
    | (with_reducible refine hm.of ?_); exact rfl
    | with_reducible assumption
    | intro _
    | (with_reducible first | apply keeps_promoteTmo | apply keeps_onCluster)

theorem keeps_execShardCommit {tag : BitVec 12} {shard : BitVec 24} {s : State} (hm : Sub 97414186663384 k) (h : Keeps k s0 s) :
    KeepsR k s0 (execShardCommit tag shard s) := by
  unfold execShardCommit
  repeat' first
    | (with_reducible refine hm.of ?_); exact rfl
    | with_reducible assumption
    | (with_reducible first | apply keepsR_next | apply keeps_collTick | apply keeps_commitTry)

theorem keeps_execLeaseTimeout {tag : BitVec 12} {shard : BitVec 24} {kind : LeaseWait} {s : State} (hm : Sub 97414186663384 k) (h : Keeps k s0 s) :
    KeepsR k s0 (execLeaseTimeout tag shard kind s) := by
  unfold execLeaseTimeout
  repeat' first
    | (with_reducible refine hm.of ?_); exact rfl
    | with_reducible assumption
    | (with_reducible first | apply keepsR_ite | apply keepsR_next | apply keeps_heldTimeout | apply keeps_deferTimeout | apply keeps_collTick | apply keeps_commitTimeout)
    | split

theorem keeps_execForceReleaseCur {tag : BitVec 12} {shard : BitVec 24} {s : State} (hm : Sub 97414186663384 k) (h : Keeps k s0 s) :
    KeepsR k s0 (execForceReleaseCur tag shard s) := by
  unfold execForceReleaseCur
  repeat' first
    | (with_reducible refine hm.of ?_); exact rfl
    | with_reducible assumption
    | (with_reducible first | apply keepsR_next | apply keeps_forceCur | apply keeps_collTick)

theorem keeps_execForceReleaseRet {tag : BitVec 12} {shard : BitVec 24} {s : State} (hm : Sub 97414186663384 k) (h : Keeps k s0 s) :
    KeepsR k s0 (execForceReleaseRet tag shard s) := by
  unfold execForceReleaseRet
  repeat' first
    | (with_reducible refine hm.of ?_); exact rfl
    | with_reducible assumption
    | (with_reducible first | apply keepsR_next | apply keeps_forceRet | apply keeps_collTick)

theorem keeps_execStepSummary {tag : BitVec 12} {r : StepRecord} {s : State} (hm : Sub 97414186663384 k) (h : Keeps k s0 s) :
    KeepsR k s0 (execStepSummary tag r s) := by
  unfold execStepSummary
  repeat' first
    | (with_reducible refine hm.of ?_); exact rfl
    | with_reducible assumption
    | (with_reducible first | apply keepsR_next | apply keeps_stepSummary | apply keeps_collTick)

theorem keeps_execCleanIntervalEnd {tag : BitVec 12} {step : BitVec 48} {s : State} (hm : Sub 97414186663384 k) (h : Keeps k s0 s) :
    KeepsR k s0 (execCleanIntervalEnd tag step s) := by
  unfold execCleanIntervalEnd
  repeat' first
    | (with_reducible refine hm.of ?_); exact rfl
    | with_reducible assumption
    | (with_reducible first | apply keepsR_next | apply keeps_collTick | apply keeps_cleanEnd)

end Sys2Proof.Machine
end

