-- ==== Sys2Proof/Laws/KeepsFabric.lean ====
section
/-! SUPPORT. What the operations of Machine/Fabric.lean keep. -/

namespace Sys2Proof.Machine

variable {k : Nat} {s0 : State}

theorem keeps_amoDone {c : Nat} {value : BitVec 64} {code : Nat} {s : State} (hm : Sub 16 k) (h : Keeps k s0 s) :
    Keeps k s0 (amoDone c value code s) := by
  unfold amoDone
  repeat' first
    | (with_reducible refine hm.of ?_); exact rfl
    | with_reducible assumption
    | (with_reducible first | apply keeps_ite | apply keeps_setReg)

theorem keeps_ownerAcked {a : Awaited} {s : State} (hm : Sub 97414186663384 k) (h : Keeps k s0 s) :
    Keeps k s0 (ownerAcked a s) := by
  unfold ownerAcked
  repeat' first
    | (with_reducible refine hm.of ?_); exact rfl
    | with_reducible assumption
    | (with_reducible first | apply keeps_ite | apply keeps_descLand | apply keeps_collAcked)
    | split

theorem keeps_ownerFailed {a : Awaited} {code : Nat} {s : State} (hm : Sub 97414186663384 k) (h : Keeps k s0 s) :
    Keeps k s0 (ownerFailed a code s) := by
  unfold ownerFailed
  repeat' first
    | (with_reducible refine hm.of ?_); exact rfl
    | with_reducible assumption
    | (with_reducible first | apply keeps_collInterrupt | apply keeps_amoDone | apply keeps_descFail)
    | split

theorem keeps_ownerAnswered {a : Awaited} {m : Msg} {s : State} (hm : Sub 97414186270168 k) (h : Keeps k s0 s) :
    Keeps k s0 (ownerAnswered a m s) := by
  unfold ownerAnswered
  repeat' first
    | (with_reducible refine hm.of ?_); exact rfl
    | with_reducible assumption
    | (with_reducible first | apply keeps_ite | apply keeps_copyClaimed | apply keeps_pourClaimed | apply keeps_amoDone | apply keeps_readArrived)
    | split

theorem keeps_txDrop {hub : Nat} {dst : Nat} {cls : Nat} {psn : BitVec 32} {s : State} (hm : Sub 1048576 k) (h : Keeps k s0 s) :
    Keeps k s0 (txDrop hub dst cls psn s) := by
  unfold txDrop
  repeat' first
    | (with_reducible refine hm.of ?_); exact rfl
    | with_reducible assumption
    | with_reducible apply keeps_putTx

theorem keeps_msgAcked {hub : Nat} {dst : Nat} {cls : Nat} {psn : BitVec 32} {s : State} (hm : Sub 97414186663384 k) (h : Keeps k s0 s) :
    Keeps k s0 (msgAcked hub dst cls psn s) := by
  unfold msgAcked
  repeat' first
    | (with_reducible refine hm.of ?_); exact rfl
    | with_reducible assumption
    | (with_reducible first | apply keeps_ite | apply keeps_txDrop | apply keeps_ownerAcked)
    | (have x := (); extract_lets +onlyGivenNames x; refine keeps_cut k s0 x ?_ fun _ => ?_; rotate_left; clear_value x)
    | split
    | (with_reducible first | apply Keeps.put_awaited)

theorem keeps_msgFailed {code : Nat} {hub : Nat} {dst : Nat} {cls : Nat} {psn : BitVec 32} {s : State} (hm : Sub 97414186663384 k) (h : Keeps k s0 s) :
    Keeps k s0 (msgFailed code hub dst cls psn s) := by
  unfold msgFailed
  repeat' first
    | (with_reducible refine hm.of ?_); exact rfl
    | with_reducible assumption
    | (with_reducible first | apply keeps_ite | apply keeps_txDrop | apply keeps_ownerFailed | apply keeps_fabFault)
    | (have x := (); extract_lets +onlyGivenNames x; refine keeps_cut k s0 x ?_ fun _ => ?_; rotate_left; clear_value x)
    | split
    | (with_reducible first | apply Keeps.put_awaited)

theorem keeps_responseArrive {m : Msg} {s : State} (hm : Sub 97414186270168 k) (h : Keeps k s0 s) :
    Keeps k s0 (responseArrive m s) := by
  unfold responseArrive
  repeat' first
    | (with_reducible refine hm.of ?_); exact rfl
    | with_reducible assumption
    | with_reducible apply keeps_ownerAnswered
    | split
    | (with_reducible first | apply Keeps.put_awaited)

theorem keeps_notAdmitted {g : Gate} {at_ : Nat} {m : Msg} {n : Nat} {s : State} (hm : Sub 27262992 k) (h : Keeps k s0 s) :
    Keeps k s0 (notAdmitted g at_ m n s) := by
  unfold notAdmitted
  repeat' first
    | (with_reducible refine hm.of ?_); exact rfl
    | with_reducible assumption
    | (with_reducible first | apply keeps_ite | apply keeps_bump | apply keeps_addCtr | apply keeps_emitMsg | apply keeps_putRx)
    | (have x := (); extract_lets +onlyGivenNames x; refine keeps_cut k s0 x ?_ fun _ => ?_; rotate_left; clear_value x)
    | (have x := (); extract_lets +onlyGivenNames x; clear_value x)
    | split

theorem keeps_respond {m : Msg} {op : Nat} {value : BitVec 64} {data : List Byte} {s : State} (hm : Sub 30408720 k) (h : Keeps k s0 s) :
    Keeps k s0 (respond m op value data s) := by
  unfold respond
  repeat' first
    | (with_reducible refine hm.of ?_); exact rfl
    | with_reducible assumption
    | with_reducible apply keeps_sendSeq

theorem keeps_amoSettle {s : State} (hm : Sub 32506896 k) (h : Keeps k s0 s) :
    Keeps k s0 (amoSettle s) := by
  unfold amoSettle
  repeat' first
    | (with_reducible refine hm.of ?_); exact rfl
    | with_reducible assumption
    | (with_reducible first | refine keeps_forAll ?_ fun _ _ _ => ?_ | apply keeps_answerMsg | apply keeps_amoDone | apply keeps_respond | apply keeps_putMsg)
    | (have x := (); extract_lets +onlyGivenNames x; refine keeps_cut k s0 x ?_ fun _ => ?_; rotate_left; clear_value x)
    | split

theorem keeps_performMsg {at_ : Nat} {m : Msg} {s : State} (hm : Sub 97414186794456 k) (h : Keeps k s0 s) :
    Keeps k s0 (performMsg at_ m s) := by
  unfold performMsg
  repeat' first
    | (with_reducible refine hm.of ?_); exact rfl
    | with_reducible assumption
    | (with_reducible first | apply keeps_ite | apply keeps_pourAccept | apply keeps_answerMsg | apply keeps_respond | apply keeps_responseArrive | apply keeps_collArrive | apply keeps_performAt)
    | (have x := (); extract_lets +onlyGivenNames x; refine keeps_cutP Performed.st k s0 x ?_ fun _ => ?_; rotate_left; clear_value x)
    | (have x := (); extract_lets +onlyGivenNames x; refine keeps_cut2 k s0 x ?_ fun _ => ?_; rotate_left; clear_value x)
    | ((have x := (); extract_lets +onlyGivenNames x; first | (have u : Stores := x; clear u) | (have u : Mem := x; clear u) | (have u := fun a => x a; clear u)); dsimp -zeta only [x]; clear x)
    | (have x := (); extract_lets +onlyGivenNames x; clear_value x)
    | split

theorem keeps_admitSeq {m : Msg} {fseq : BitVec 16} {s : State} (hm : Sub 2097168 k) (h : Keeps k s0 s) :
    Keeps k s0 (admitSeq m fseq s) := by
  unfold admitSeq
  repeat' first
    | (with_reducible refine hm.of ?_); exact rfl
    | with_reducible assumption
    | (with_reducible first | apply keeps_bump | apply keeps_putRx)

theorem keeps_msgArrive {m : Msg} {s : State} (hm : Sub 97414186794456 k) (h : Keeps k s0 s) :
    Keeps k s0 (msgArrive m s) := by
  unfold msgArrive
  repeat' first
    | (with_reducible refine hm.of ?_); exact rfl
    | with_reducible assumption
    | (with_reducible first | apply keeps_ite | apply keeps_admitSeq | apply keeps_notAdmitted | apply keeps_performMsg)
    | (have x := (); extract_lets +onlyGivenNames x; clear_value x)
    | split

theorem keeps_ackArrive {m : Msg} {s : State} (hm : Sub 97414186663384 k) (h : Keeps k s0 s) :
    Keeps k s0 (ackArrive m s) := by
  unfold ackArrive
  repeat' first
    | (with_reducible refine hm.of ?_); exact rfl
    | with_reducible assumption
    | (with_reducible first | apply keeps_txPump | apply keeps_msgAcked)

theorem keeps_nakArrive {m : Msg} {s : State} (hm : Sub 97414186663384 k) (h : Keeps k s0 s) :
    Keeps k s0 (nakArrive m s) := by
  unfold nakArrive
  repeat' first
    | (with_reducible refine hm.of ?_); exact rfl
    | with_reducible assumption
    | (with_reducible first | apply keeps_txPump | apply keeps_msgFailed)

theorem keeps_notReadyArrive {m : Msg} {s : State} (hm : Sub 1048576 k) (h : Keeps k s0 s) :
    Keeps k s0 (notReadyArrive m s) := by
  unfold notReadyArrive
  repeat' first
    | (with_reducible refine hm.of ?_); exact rfl
    | with_reducible assumption
    | (with_reducible first | apply keeps_ite | apply keeps_putTx)

theorem keeps_nrRetry {hub : Nat} {dst : Nat} {cls : Nat} {s : State} (hm : Sub 26214416 k) (h : Keeps k s0 s) :
    Keeps k s0 (nrRetry hub dst cls s) := by
  unfold nrRetry
  repeat' first
    | (with_reducible refine hm.of ?_); exact rfl
    | with_reducible assumption
    | (with_reducible first | apply keeps_ite | apply keeps_txPump | apply keeps_putTx)

theorem keeps_nrTimeout {hub : Nat} {dst : Nat} {cls : Nat} {s : State} (hm : Sub 97414186663384 k) (h : Keeps k s0 s) :
    Keeps k s0 (nrTimeout hub dst cls s) := by
  unfold nrTimeout
  repeat' first
    | (with_reducible refine hm.of ?_); exact rfl
    | with_reducible assumption
    | (with_reducible first | apply keeps_msgFailed | apply keeps_putTx | apply keeps_txResync)
    | split

theorem keeps_gapArrive {m : Msg} {s : State} (hm : Sub 26214416 k) (h : Keeps k s0 s) :
    Keeps k s0 (gapArrive m s) := by
  unfold gapArrive
  repeat' first
    | (with_reducible refine hm.of ?_); exact rfl
    | with_reducible assumption
    | (with_reducible first | apply keeps_ite | apply keeps_txResync)

theorem keeps_ackTimeout {hub : Nat} {dst : Nat} {cls : Nat} {s : State} (hm : Sub 26214416 k) (h : Keeps k s0 s) :
    Keeps k s0 (ackTimeout hub dst cls s) := by
  unfold ackTimeout
  repeat' first
    | (with_reducible refine hm.of ?_); exact rfl
    | with_reducible assumption
    | (with_reducible first | apply keeps_ite | apply keeps_txResync)

theorem keeps_resyncTimeout {hub : Nat} {dst : Nat} {cls : Nat} {s : State} (hm : Sub 97414186663384 k) (h : Keeps k s0 s) :
    Keeps k s0 (resyncTimeout hub dst cls s) := by
  unfold resyncTimeout
  repeat' first
    | (with_reducible refine hm.of ?_); exact rfl
    | with_reducible assumption
    | (with_reducible first | apply keeps_ite | refine keeps_forAll ?_ fun _ _ _ => ?_ | apply keeps_txResyncSend | apply keeps_msgFailed | apply keeps_putTx)

theorem keeps_txCut {k' : Nat} {s : State} (hm : Sub 97414186663384 k) (h : Keeps k s0 s) :
    Keeps k s0 (txCut k' s) := by
  unfold txCut
  repeat' first
    | (with_reducible refine hm.of ?_); exact rfl
    | with_reducible assumption
    | (with_reducible first | apply keeps_ite | refine keeps_forAll ?_ fun _ _ _ => ?_ | apply keeps_msgFailed | apply keeps_putTx)

theorem keeps_resyncRespArrive {m : Msg} {s : State} (hm : Sub 97414186663384 k) (h : Keeps k s0 s) :
    Keeps k s0 (resyncRespArrive m s) := by
  unfold resyncRespArrive
  repeat' first
    | (with_reducible refine hm.of ?_); exact rfl
    | with_reducible assumption
    | (with_reducible first | apply keeps_ite | refine keeps_forAll ?_ fun _ _ _ => ?_ | apply keeps_txPump | apply keeps_msgAcked | apply keeps_msgFailed | apply keeps_putTx)

theorem keeps_resyncAnswer {src : Nat} {shub : Nat} {cls : Nat} {s : State} (hm : Sub 27262992 k) (h : Keeps k s0 s) :
    Keeps k s0 (resyncAnswer src shub cls s) := by
  unfold resyncAnswer
  repeat' first
    | (with_reducible refine hm.of ?_); exact rfl
    | with_reducible assumption
    | (with_reducible first | apply keeps_ite | apply keeps_emitMsg | apply keeps_putRx)

theorem keeps_dropPartial {src : Nat} {shub : Nat} {cls : Nat} {s : State} (hm : Sub 27264016 k) (h : Keeps k s0 s) :
    Keeps k s0 (dropPartial src shub cls s) := by
  unfold dropPartial
  repeat' first
    | (with_reducible refine hm.of ?_); exact rfl
    | with_reducible assumption
    | (with_reducible first | apply keeps_ite | apply keeps_bump | apply keeps_quietMsg | apply keeps_putRx)

theorem keeps_resyncArrive {m : Msg} {s : State} (hm : Sub 27264016 k) (h : Keeps k s0 s) :
    Keeps k s0 (resyncArrive m s) := by
  unfold resyncArrive
  repeat' first
    | (with_reducible refine hm.of ?_); exact rfl
    | with_reducible assumption
    | (with_reducible first | apply keeps_resyncAnswer | apply keeps_dropPartial | apply keeps_putRx)

theorem keeps_ctlArrive {m : Msg} {s : State} (hm : Sub 97414186663384 k) (h : Keeps k s0 s) :
    Keeps k s0 (ctlArrive m s) := by
  unfold ctlArrive
  repeat' first
    | (with_reducible refine hm.of ?_); exact rfl
    | with_reducible assumption
    | (with_reducible first | apply keeps_gapArrive | apply keeps_nakArrive | apply keeps_notReadyArrive | apply keeps_resyncArrive | apply keeps_resyncRespArrive | apply keeps_ackArrive)
    | split

theorem keeps_refuseNow {at_ : Nat} {code : Nat} {m : Msg} {s : State} (hm : Sub 27264016 k) (h : Keeps k s0 s) :
    Keeps k s0 (refuseNow at_ code m s) := by
  unfold refuseNow
  repeat' first
    | (with_reducible refine hm.of ?_); exact rfl
    | with_reducible assumption
    | (with_reducible first | apply keeps_bump | apply keeps_answerMsg | apply keeps_putMsg | apply keeps_putRx)
    | split

theorem keeps_flitAdmit {h' : Nat} {first : Bool} {last : Bool} {payload : List Byte} {src : Nat} {shub : Nat} {cls : Nat} {s : State} (hm : Sub 97414186794456 k) (h : Keeps k s0 s) :
    Keeps k s0 (flitAdmit h' first last payload src shub cls s) := by
  unfold flitAdmit
  repeat' first
    | (with_reducible refine hm.of ?_); exact rfl
    | with_reducible assumption
    | (with_reducible first | apply keeps_ite | apply keeps_refuseNow | apply keeps_quietMsg | apply keeps_admitSeq | apply keeps_windowPart | apply keeps_putRx | apply keeps_openMessage | apply keeps_performMsg)
    | split

theorem keeps_flitArrive {h' : Nat} {payload : List Byte} {s : State} (hm : Sub 97414186794456 k) (h : Keeps k s0 s) :
    Keeps k s0 (flitArrive h' payload s) := by
  unfold flitArrive
  repeat' first
    | (with_reducible refine hm.of ?_); exact rfl
    | with_reducible assumption
    | (with_reducible first | apply keeps_ite | apply keeps_ctlArrive | apply keeps_notAdmitted | apply keeps_flitAdmit)
    | (have x := (); extract_lets +onlyGivenNames x; clear_value x)
    | split

theorem keeps_flitForward {p : Nat} {vc : Nat} {payload : List Byte} {s : State} (hm : Sub 16777232 k) (h : Keeps k s0 s) :
    Keeps k s0 (flitForward p vc payload s) := by
  unfold flitForward
  repeat' first
    | (with_reducible refine hm.of ?_); exact rfl
    | with_reducible assumption
    | (with_reducible first | apply keeps_ite | apply keeps_bump | apply keeps_portSend)
    | split

theorem keeps_flitRelay {p : Nat} {vc : Nat} {payload : List Byte} {s : State} (hm : Sub 25165840 k) (h : Keeps k s0 s) :
    Keeps k s0 (flitRelay p vc payload s) := by
  unfold flitRelay
  repeat' first
    | (with_reducible refine hm.of ?_); exact rfl
    | with_reducible assumption
    | (with_reducible first | apply keeps_ite | apply keeps_bump | apply keeps_emitMsg | apply keeps_flitForward | apply keeps_putPort)

theorem keeps_portReplay {p : Nat} {seq : BitVec 12} {s : State} (hm : Sub 18141968138704 k) (h : Keeps k s0 s) :
    Keeps k s0 (portReplay p seq s) := by
  unfold portReplay
  repeat' first
    | (with_reducible refine hm.of ?_); exact rfl
    | with_reducible assumption
    | (with_reducible first | apply keeps_ite | refine keeps_forAll ?_ fun _ _ _ => ?_ | apply keeps_addCtr | apply keeps_putPort | apply keeps_portDown | apply keeps_portFlit)
    | (have x := (); extract_lets +onlyGivenNames x; clear_value x)
    | split

theorem keeps_askReplay {p : Nat} {s : State} (hm : Sub 16777232 k) (h : Keeps k s0 s) :
    Keeps k s0 (askReplay p s) := by
  unfold askReplay
  repeat' first
    | (with_reducible refine hm.of ?_); exact rfl
    | with_reducible assumption
    | (with_reducible first | apply keeps_portCtl | apply keeps_putPort)

theorem keeps_portData {p : Nat} {seq : Nat} {vc : Nat} {payload : List Byte} {s : State} (hm : Sub 97414186794456 k) (h : Keeps k s0 s) :
    Keeps k s0 (portData p seq vc payload s) := by
  unfold portData
  repeat' first
    | (with_reducible refine hm.of ?_); exact rfl
    | with_reducible assumption
    | (with_reducible first | apply keeps_ite | apply keeps_portCtl | apply keeps_putPort | apply keeps_flitRelay | apply keeps_askReplay | apply keeps_flitArrive)

theorem keeps_flitReceive {p : Nat} {f : BitVec 2048} {s : State} (hm : Sub 97414186794456 k) (h : Keeps k s0 s) :
    Keeps k s0 (flitReceive p f s) := by
  unfold flitReceive
  repeat' first
    | (with_reducible refine hm.of ?_); exact rfl
    | with_reducible assumption
    | (with_reducible first | apply keeps_ite | apply keeps_portData | apply keeps_bump | apply keeps_portPump | apply keeps_putPort | apply keeps_askReplay | apply keeps_portReplay)
    | (have x := (); extract_lets +onlyGivenNames x; refine keeps_cut k s0 x ?_ fun _ => ?_; rotate_left; clear_value x)
    | (have x := (); extract_lets +onlyGivenNames x; clear_value x)
    | split

theorem keeps_portDark {p : Nat} {cause : BitVec 8} {s : State} (hm : Sub 16777232 k) (h : Keeps k s0 s) :
    Keeps k s0 (portDark p cause s) := by
  unfold portDark
  repeat' first
    | (with_reducible refine hm.of ?_); exact rfl
    | with_reducible assumption
    | (with_reducible first | apply keeps_putPort | apply keeps_setRegF)

theorem keeps_portLight {p : Nat} {s : State} (hm : Sub 16777232 k) (h : Keeps k s0 s) :
    Keeps k s0 (portLight p s) := by
  unfold portLight
  repeat' first
    | (with_reducible refine hm.of ?_); exact rfl
    | with_reducible assumption
    | (with_reducible first | apply keeps_ite | apply keeps_putPort | apply keeps_portDark)

theorem keeps_portFollow {p : Nat} {s : State} (hm : Sub 26214416 k) (h : Keeps k s0 s) :
    Keeps k s0 (portFollow p s) := by
  unfold portFollow
  repeat' first
    | (with_reducible refine hm.of ?_); exact rfl
    | with_reducible assumption
    | (with_reducible first | apply keeps_ite | apply keeps_portLight | apply keeps_repath)

theorem keeps_portUnlit {p : Nat} {s : State} (hm : Sub 18141968138704 k) (h : Keeps k s0 s) :
    Keeps k s0 (portUnlit p s) := by
  unfold portUnlit
  repeat' first
    | (with_reducible refine hm.of ?_); exact rfl
    | with_reducible assumption
    | (with_reducible first | apply keeps_ite | apply keeps_portDark | apply keeps_repath | apply keeps_laserDown)

theorem keeps_portReset {p : Nat} {s : State} (hm : Sub 26214416 k) (h : Keeps k s0 s) :
    Keeps k s0 (portReset p s) := by
  unfold portReset
  repeat' first
    | (with_reducible refine hm.of ?_); exact rfl
    | with_reducible assumption
    | (with_reducible first | apply keeps_ite | apply keeps_setReg | apply keeps_putPort | apply keeps_setRegF | apply keeps_repath)

theorem keeps_portConfig {p : Nat} {v : Word} {s : State} (hm : Sub 26214416 k) (h : Keeps k s0 s) :
    Keeps k s0 (portConfig p v s) := by
  unfold portConfig
  repeat' first
    | (with_reducible refine hm.of ?_); exact rfl
    | with_reducible assumption
    | (with_reducible first | apply keeps_setReg | apply keeps_portFollow)

theorem keeps_portRetrain {p : Nat} {s : State} (hm : Sub 26214416 k) (h : Keeps k s0 s) :
    Keeps k s0 (portRetrain p s) := by
  unfold portRetrain
  repeat' first
    | (with_reducible refine hm.of ?_); exact rfl
    | with_reducible assumption
    | (with_reducible first | apply keeps_ite | apply keeps_putPort | apply keeps_repath)

theorem keeps_portTrained {p : Nat} {peer : BitVec 16} {far : BitVec 4} {s : State} (hm : Sub 18143041880528 k) (h : Keeps k s0 s) :
    Keeps k s0 (portTrained p peer far s) := by
  unfold portTrained
  repeat' first
    | (with_reducible refine hm.of ?_); exact rfl
    | with_reducible assumption
    | (with_reducible first | apply keeps_ite | apply keeps_putPort | apply keeps_portDown | apply keeps_setReady | apply keeps_repath)

theorem keeps_laserFail {ls : Nat} {channel : Option (BitVec 3)} {s : State} (hm : Sub 18141968138704 k) (h : Keeps k s0 s) :
    Keeps k s0 (laserFail ls channel s) := by
  unfold laserFail
  repeat' first
    | (with_reducible refine hm.of ?_); exact rfl
    | with_reducible assumption
    | (with_reducible first | refine keeps_forAll ?_ fun _ _ _ => ?_ | apply keeps_putPort | apply keeps_laserDown)

theorem keeps_fabCoreReady {s : State} (hm : Sub 1073741840 k) (h : Keeps k s0 s) :
    Keeps k s0 (fabCoreReady s) := by
  unfold fabCoreReady
  repeat' first
    | (with_reducible refine hm.of ?_); exact rfl
    | with_reducible assumption
    | (with_reducible first | apply keeps_ite | apply keeps_setReady)

theorem keeps_instApply {s : State} (hm : Sub 1099956240 k) (h : Keeps k s0 s) :
    Keeps k s0 (instApply s) := by
  unfold instApply
  repeat' first
    | (with_reducible refine hm.of ?_); exact rfl
    | with_reducible assumption
    | intro _
    | (with_reducible first | apply keeps_ite | refine keeps_forAll ?_ fun _ _ _ => ?_ | apply keeps_inDomain | apply keeps_fabCoreReady | apply keeps_setReg | apply keeps_bump | apply keeps_portLight | apply keeps_repath)

theorem keeps_pairQuery {v : Word} {s : State} (hm : Sub 16 k) (h : Keeps k s0 s) :
    Keeps k s0 (pairQuery v s) := by
  unfold pairQuery
  repeat' first
    | (with_reducible refine hm.of ?_); exact rfl
    | with_reducible assumption
    | with_reducible apply keeps_setReg

theorem keeps_amoGo {c : Nat} {s : State} (hm : Sub 32507088 k) (h : Keeps k s0 s) :
    Keeps k s0 (amoGo c s) := by
  unfold amoGo
  repeat' first
    | (with_reducible refine hm.of ?_); exact rfl
    | with_reducible assumption
    | (with_reducible first | apply keeps_ite | apply keeps_setReg | apply keeps_cluIgnore | apply keeps_sendSeq | apply keeps_amoDone | apply keeps_performAt)
    | (have x := (); extract_lets +onlyGivenNames x; refine keeps_cut k s0 x ?_ fun _ => ?_; rotate_left; clear_value x)
    | (have x := (); extract_lets +onlyGivenNames x; refine keeps_cutP Performed.st k s0 x ?_ fun _ => ?_; rotate_left; clear_value x)
    | (have x := (); extract_lets +onlyGivenNames x; clear_value x)
    | split

theorem keeps_onMsg {m : Msg} {s : State} {f : State → State} (hm : Sub 0 k) (h : Keeps k s0 s) (hf : ∀ (y0 : State), Keeps k s0 y0 → Keeps k s0 (f y0)) :
    KeepsR k s0 (onMsg m s f) := by
  unfold onMsg
  repeat' first
    | with_reducible assumption
    | (with_reducible first | apply keepsR_ite | apply keepsR_next | exact keepsR_fault | apply hf)

theorem keeps_execFabWrite {m : Msg} {s : State} (hm : Sub 97414186794456 k) (h : Keeps k s0 s) :
    KeepsR k s0 (execFabWrite m s) := by
  unfold execFabWrite
  repeat' first
    | (with_reducible refine hm.of ?_); exact rfl
    | with_reducible assumption
    | intro _
    | (with_reducible first | apply keeps_msgArrive | apply keeps_onMsg)

theorem keeps_execFabSend {m : Msg} {s : State} (hm : Sub 97414186794456 k) (h : Keeps k s0 s) :
    KeepsR k s0 (execFabSend m s) := by
  unfold execFabSend
  repeat' first
    | (with_reducible refine hm.of ?_); exact rfl
    | with_reducible assumption
    | intro _
    | (with_reducible first | apply keeps_msgArrive | apply keeps_onMsg)

theorem keeps_execReadReq {m : Msg} {s : State} (hm : Sub 97414186794456 k) (h : Keeps k s0 s) :
    KeepsR k s0 (execReadReq m s) := by
  unfold execReadReq
  repeat' first
    | (with_reducible refine hm.of ?_); exact rfl
    | with_reducible assumption
    | intro _
    | (with_reducible first | apply keeps_msgArrive | apply keeps_onMsg)

theorem keeps_execFadd {m : Msg} {s : State} (hm : Sub 97414186794456 k) (h : Keeps k s0 s) :
    KeepsR k s0 (execFadd m s) := by
  unfold execFadd
  repeat' first
    | (with_reducible refine hm.of ?_); exact rfl
    | with_reducible assumption
    | intro _
    | (with_reducible first | apply keeps_msgArrive | apply keeps_onMsg)

theorem keeps_execCswap {m : Msg} {s : State} (hm : Sub 97414186794456 k) (h : Keeps k s0 s) :
    KeepsR k s0 (execCswap m s) := by
  unfold execCswap
  repeat' first
    | (with_reducible refine hm.of ?_); exact rfl
    | with_reducible assumption
    | intro _
    | (with_reducible first | apply keeps_msgArrive | apply keeps_onMsg)

theorem keeps_execColl {m : Msg} {d : CollData} {s : State} (hm : Sub 97414186794456 k) (h : Keeps k s0 s) :
    KeepsR k s0 (execColl m d s) := by
  unfold execColl
  repeat' first
    | (with_reducible refine hm.of ?_); exact rfl
    | with_reducible assumption
    | intro _
    | (with_reducible first | apply keeps_msgArrive | apply keeps_onMsg)

theorem keeps_execCollReady {m : Msg} {d : CollData} {s : State} (hm : Sub 97414186794456 k) (h : Keeps k s0 s) :
    KeepsR k s0 (execCollReady m d s) := by
  unfold execCollReady
  repeat' first
    | (with_reducible refine hm.of ?_); exact rfl
    | with_reducible assumption
    | intro _
    | (with_reducible first | apply keeps_msgArrive | apply keeps_onMsg)

theorem keeps_execCollDone {m : Msg} {d : CollData} {s : State} (hm : Sub 97414186794456 k) (h : Keeps k s0 s) :
    KeepsR k s0 (execCollDone m d s) := by
  unfold execCollDone
  repeat' first
    | (with_reducible refine hm.of ?_); exact rfl
    | with_reducible assumption
    | intro _
    | (with_reducible first | apply keeps_msgArrive | apply keeps_onMsg)

theorem keeps_execCollFinish {m : Msg} {d : CollData} {s : State} (hm : Sub 97414186794456 k) (h : Keeps k s0 s) :
    KeepsR k s0 (execCollFinish m d s) := by
  unfold execCollFinish
  repeat' first
    | (with_reducible refine hm.of ?_); exact rfl
    | with_reducible assumption
    | intro _
    | (with_reducible first | apply keeps_msgArrive | apply keeps_onMsg)

theorem keeps_execCollAbort {m : Msg} {d : CollData} {s : State} (hm : Sub 97414186794456 k) (h : Keeps k s0 s) :
    KeepsR k s0 (execCollAbort m d s) := by
  unfold execCollAbort
  repeat' first
    | (with_reducible refine hm.of ?_); exact rfl
    | with_reducible assumption
    | intro _
    | (with_reducible first | apply keeps_msgArrive | apply keeps_onMsg)

theorem keeps_execLeaseRelease {m : Msg} {d : CollData} {s : State} (hm : Sub 97414186794456 k) (h : Keeps k s0 s) :
    KeepsR k s0 (execLeaseRelease m d s) := by
  unfold execLeaseRelease
  repeat' first
    | (with_reducible refine hm.of ?_); exact rfl
    | with_reducible assumption
    | intro _
    | (with_reducible first | apply keeps_msgArrive | apply keeps_onMsg)

theorem keeps_execReadResp {m : Msg} {s : State} (hm : Sub 97414186794456 k) (h : Keeps k s0 s) :
    KeepsR k s0 (execReadResp m s) := by
  unfold execReadResp
  repeat' first
    | (with_reducible refine hm.of ?_); exact rfl
    | with_reducible assumption
    | intro _
    | (with_reducible first | apply keeps_msgArrive | apply keeps_onMsg)

theorem keeps_execAtomicResp {m : Msg} {s : State} (hm : Sub 97414186794456 k) (h : Keeps k s0 s) :
    KeepsR k s0 (execAtomicResp m s) := by
  unfold execAtomicResp
  repeat' first
    | (with_reducible refine hm.of ?_); exact rfl
    | with_reducible assumption
    | intro _
    | (with_reducible first | apply keeps_msgArrive | apply keeps_onMsg)

theorem keeps_execAck {m : Msg} {s : State} (hm : Sub 97414186663384 k) (h : Keeps k s0 s) :
    KeepsR k s0 (execAck m s) := by
  unfold execAck
  repeat' first
    | (with_reducible refine hm.of ?_); exact rfl
    | with_reducible assumption
    | intro _
    | (with_reducible first | apply keeps_onMsg | apply keeps_ackArrive)

theorem keeps_execNak {m : Msg} {s : State} (hm : Sub 97414186663384 k) (h : Keeps k s0 s) :
    KeepsR k s0 (execNak m s) := by
  unfold execNak
  repeat' first
    | (with_reducible refine hm.of ?_); exact rfl
    | with_reducible assumption
    | intro _
    | (with_reducible first | apply keeps_onMsg | apply keeps_nakArrive)

theorem keeps_execNotReady {m : Msg} {s : State} (hm : Sub 1048576 k) (h : Keeps k s0 s) :
    KeepsR k s0 (execNotReady m s) := by
  unfold execNotReady
  repeat' first
    | (with_reducible refine hm.of ?_); exact rfl
    | with_reducible assumption
    | intro _
    | (with_reducible first | apply keeps_onMsg | apply keeps_notReadyArrive)

theorem keeps_execGap {m : Msg} {s : State} (hm : Sub 26214416 k) (h : Keeps k s0 s) :
    KeepsR k s0 (execGap m s) := by
  unfold execGap
  repeat' first
    | (with_reducible refine hm.of ?_); exact rfl
    | with_reducible assumption
    | intro _
    | (with_reducible first | apply keeps_gapArrive | apply keeps_onMsg)

theorem keeps_execResync {m : Msg} {s : State} (hm : Sub 27264016 k) (h : Keeps k s0 s) :
    KeepsR k s0 (execResync m s) := by
  unfold execResync
  repeat' first
    | (with_reducible refine hm.of ?_); exact rfl
    | with_reducible assumption
    | intro _
    | (with_reducible first | apply keeps_onMsg | apply keeps_resyncArrive)

theorem keeps_execResyncRespReady {src : BitVec 16} {shub : BitVec 1} {cls : BitVec 2} {s : State} (hm : Sub 27262992 k) (h : Keeps k s0 s) :
    KeepsR k s0 (execResyncRespReady src shub cls s) := by
  unfold execResyncRespReady
  repeat' first
    | (with_reducible refine hm.of ?_); exact rfl
    | with_reducible assumption
    | (with_reducible first | apply keepsR_next | apply keeps_resyncAnswer)

theorem keeps_execResyncResp {m : Msg} {s : State} (hm : Sub 97414186663384 k) (h : Keeps k s0 s) :
    KeepsR k s0 (execResyncResp m s) := by
  unfold execResyncResp
  repeat' first
    | (with_reducible refine hm.of ?_); exact rfl
    | with_reducible assumption
    | intro _
    | (with_reducible first | apply keeps_onMsg | apply keeps_resyncRespArrive)

theorem keeps_execFabAckTmo {hub : BitVec 1} {dst : BitVec 16} {cls : BitVec 2} {s : State} (hm : Sub 26214416 k) (h : Keeps k s0 s) :
    KeepsR k s0 (execFabAckTmo hub dst cls s) := by
  unfold execFabAckTmo
  repeat' first
    | (with_reducible refine hm.of ?_); exact rfl
    | with_reducible assumption
    | (with_reducible first | apply keepsR_next | apply keeps_ackTimeout)

theorem keeps_execResyncTimeout {hub : BitVec 1} {dst : BitVec 16} {cls : BitVec 2} {s : State} (hm : Sub 97414186663384 k) (h : Keeps k s0 s) :
    KeepsR k s0 (execResyncTimeout hub dst cls s) := by
  unfold execResyncTimeout
  repeat' first
    | (with_reducible refine hm.of ?_); exact rfl
    | with_reducible assumption
    | (with_reducible first | apply keepsR_next | apply keeps_resyncTimeout)

theorem keeps_execNrRetry {hub : BitVec 1} {dst : BitVec 16} {cls : BitVec 2} {s : State} (hm : Sub 26214416 k) (h : Keeps k s0 s) :
    KeepsR k s0 (execNrRetry hub dst cls s) := by
  unfold execNrRetry
  repeat' first
    | (with_reducible refine hm.of ?_); exact rfl
    | with_reducible assumption
    | (with_reducible first | apply keepsR_next | apply keeps_nrRetry)

theorem keeps_execFabNrTmo {hub : BitVec 1} {dst : BitVec 16} {cls : BitVec 2} {s : State} (hm : Sub 97414186663384 k) (h : Keeps k s0 s) :
    KeepsR k s0 (execFabNrTmo hub dst cls s) := by
  unfold execFabNrTmo
  repeat' first
    | (with_reducible refine hm.of ?_); exact rfl
    | with_reducible assumption
    | (with_reducible first | apply keepsR_next | apply keeps_nrTimeout)

theorem keeps_execFlitReceive {port : BitVec 4} {flit : BitVec 2048} {s : State} (hm : Sub 97414186794456 k) (h : Keeps k s0 s) :
    KeepsR k s0 (execFlitReceive port flit s) := by
  unfold execFlitReceive
  repeat' first
    | (with_reducible refine hm.of ?_); exact rfl
    | with_reducible assumption
    | (with_reducible first | apply keepsR_next | apply keeps_flitReceive)

theorem keeps_execLossOfLight {port : BitVec 4} {s : State} (hm : Sub 18141968138704 k) (h : Keeps k s0 s) :
    KeepsR k s0 (execLossOfLight port s) := by
  unfold execLossOfLight
  repeat' first
    | (with_reducible refine hm.of ?_); exact rfl
    | with_reducible assumption
    | (with_reducible first | apply keepsR_next | apply keeps_portDown)

theorem keeps_execAckStall {port : BitVec 4} {s : State} (hm : Sub 18141968138704 k) (h : Keeps k s0 s) :
    KeepsR k s0 (execAckStall port s) := by
  unfold execAckStall
  repeat' first
    | (with_reducible refine hm.of ?_); exact rfl
    | with_reducible assumption
    | (with_reducible first | apply keepsR_next | apply keeps_ite | apply keeps_portDown)

theorem keeps_execPortRetrain {port : BitVec 4} {s : State} (hm : Sub 26214416 k) (h : Keeps k s0 s) :
    KeepsR k s0 (execPortRetrain port s) := by
  unfold execPortRetrain
  repeat' first
    | (with_reducible refine hm.of ?_); exact rfl
    | with_reducible assumption
    | (with_reducible first | apply keepsR_next | apply keeps_portRetrain)

theorem keeps_execPortTrainingDone {port : BitVec 4} {peer : BitVec 16} {peerPort : BitVec 4} {s : State} (hm : Sub 18143041880528 k) (h : Keeps k s0 s) :
    KeepsR k s0 (execPortTrainingDone port peer peerPort s) := by
  unfold execPortTrainingDone
  repeat' first
    | (with_reducible refine hm.of ?_); exact rfl
    | with_reducible assumption
    | (with_reducible first | apply keepsR_next | apply keeps_portTrained)

theorem keeps_execLaserFail {ls : BitVec 1} {channel : Option (BitVec 3)} {s : State} (hm : Sub 18141968138704 k) (h : Keeps k s0 s) :
    KeepsR k s0 (execLaserFail ls channel s) := by
  unfold execLaserFail
  repeat' first
    | (with_reducible refine hm.of ?_); exact rfl
    | with_reducible assumption
    | (with_reducible first | apply keepsR_next | apply keeps_laserFail)

theorem keeps_execApply {s : State} (hm : Sub 1099956240 k) (h : Keeps k s0 s) :
    KeepsR k s0 (execApply s) := by
  unfold execApply
  repeat' first
    | (with_reducible refine hm.of ?_); exact rfl
    | with_reducible assumption
    | (with_reducible first | apply keepsR_next | apply keeps_instApply)

theorem keeps_execFabPairQuery {v : BitVec 64} {s : State} (hm : Sub 16 k) (h : Keeps k s0 s) :
    KeepsR k s0 (execFabPairQuery v s) := by
  unfold execFabPairQuery
  repeat' first
    | (with_reducible refine hm.of ?_); exact rfl
    | with_reducible assumption
    | intro _
    | (with_reducible first | apply keepsR_next | apply keeps_inDomain | apply keeps_pairQuery)

theorem keeps_execFabAmoGo {c : Nat} {s : State} (hm : Sub 32507088 k) (h : Keeps k s0 s) :
    KeepsR k s0 (execFabAmoGo c s) := by
  unfold execFabAmoGo
  repeat' first
    | (with_reducible refine hm.of ?_); exact rfl
    | with_reducible assumption
    | intro _
    | (with_reducible first | apply keeps_amoGo | apply keeps_cluCommand)

end Sys2Proof.Machine
end

