-- ==== Sys2Proof/Laws/KeepsHost.lean ====
section
/-! SUPPORT. What the operations of Machine/Host.lean keep. -/

namespace Sys2Proof.Machine

variable {k : Nat} {s0 : State}

theorem keeps_putQp {s : State} {q : Nat} {v : QP} (hm : Sub 33554432 k) (h : Keeps k s0 s) :
    Keeps k s0 (putQp s q v) := by
  unfold putQp
  repeat' first
    | (with_reducible refine hm.of ?_); exact rfl
    | with_reducible assumption
    | (with_reducible first | apply Keeps.put_qps)

theorem keeps_putMr {s : State} {m : Nat} {v : MR} (hm : Sub 67108864 k) (h : Keeps k s0 s) :
    Keeps k s0 (putMr s m v) := by
  unfold putMr
  repeat' first
    | (with_reducible refine hm.of ?_); exact rfl
    | with_reducible assumption
    | (with_reducible first | apply Keeps.put_mrs)

theorem keeps_putHp {s : State} {p : Nat} {v : HPort} (hm : Sub 134217728 k) (h : Keeps k s0 s) :
    Keeps k s0 (putHp s p v) := by
  unfold putHp
  repeat' first
    | (with_reducible refine hm.of ?_); exact rfl
    | with_reducible assumption
    | (with_reducible first | apply Keeps.put_hports)

theorem keeps_hostDrop {p : Nat} {s : State} (hm : Sub 16 k) (h : Keeps k s0 s) :
    Keeps k s0 (hostDrop p s) := by
  unfold hostDrop
  repeat' first
    | (with_reducible refine hm.of ?_); exact rfl
    | with_reducible assumption
    | with_reducible apply keeps_bump

theorem keeps_hostIgnore {s : State} (hm : Sub 16 k) (h : Keeps k s0 s) :
    Keeps k s0 (hostIgnore s) := by
  unfold hostIgnore
  repeat' first
    | (with_reducible refine hm.of ?_); exact rfl
    | with_reducible assumption
    | with_reducible apply keeps_bump

theorem keeps_hostSend {r : Reply} {s : State} (hm : Sub 268435472 k) (h : Keeps k s0 s) :
    Keeps k s0 (hostSend r s) := by
  unfold hostSend
  repeat' first
    | (with_reducible refine hm.of ?_); exact rfl
    | with_reducible assumption
    | with_reducible apply keeps_bump
    | (with_reducible first | apply Keeps.put_replies)

theorem keeps_hostReply {r : Reply} {s : State} (hm : Sub 402653200 k) (h : Keeps k s0 s) :
    Keeps k s0 (hostReply r s) := by
  unfold hostReply
  repeat' first
    | (with_reducible refine hm.of ?_); exact rfl
    | with_reducible assumption
    | (with_reducible first | apply keeps_ite | apply keeps_putHp | apply keeps_hostSend)

theorem keeps_hostAnswer {q : Nat} {p : Packet} {psn : BitVec 24} {a : Answer} {s : State} (hm : Sub 402653200 k) (h : Keeps k s0 s) :
    Keeps k s0 (hostAnswer q p psn a s) := by
  unfold hostAnswer
  repeat' first
    | (with_reducible refine hm.of ?_); exact rfl
    | with_reducible assumption
    | with_reducible apply keeps_hostReply

theorem keeps_hostUnpause {p : Nat} {cls : Nat} {s : State} (hm : Sub 402653200 k) (h : Keeps k s0 s) :
    Keeps k s0 (hostUnpause p cls s) := by
  unfold hostUnpause
  repeat' first
    | (with_reducible refine hm.of ?_); exact rfl
    | with_reducible assumption
    | (with_reducible first | refine keeps_forAll ?_ fun _ _ _ => ?_ | apply keeps_putHp | apply keeps_hostSend)

theorem keeps_hostFill {p : Nat} {cls : Nat} {n : Nat} {s : State} (hm : Sub 402653200 k) (h : Keeps k s0 s) :
    Keeps k s0 (hostFill p cls n s) := by
  unfold hostFill
  repeat' first
    | (with_reducible refine hm.of ?_); exact rfl
    | with_reducible assumption
    | (with_reducible first | apply keeps_ite | apply keeps_putHp | apply keeps_hostSend)

theorem keeps_hostDrain {p : Nat} {cls : Nat} {n : Nat} {s : State} (hm : Sub 402653200 k) (h : Keeps k s0 s) :
    Keeps k s0 (hostDrain p cls n s) := by
  unfold hostDrain
  repeat' first
    | (with_reducible refine hm.of ?_); exact rfl
    | with_reducible assumption
    | (with_reducible first | apply keeps_ite | apply keeps_putHp | apply keeps_hostSend)

theorem keeps_qpFault {q : Nat} {code : Nat} {cause : Nat} {psn : BitVec 24} {s : State} (hm : Sub 33554432 k) (h : Keeps k s0 s) :
    Keeps k s0 (qpFault q code cause psn s) := by
  unfold qpFault
  repeat' first
    | (with_reducible refine hm.of ?_); exact rfl
    | with_reducible assumption
    | (with_reducible first | apply keeps_ite | apply keeps_putQp)

theorem keeps_qpClear {q : Nat} {s : State} (hm : Sub 436228112 k) (h : Keeps k s0 s) :
    Keeps k s0 (qpClear q s) := by
  unfold qpClear
  repeat' first
    | (with_reducible refine hm.of ?_); exact rfl
    | with_reducible assumption
    | (with_reducible first | refine keeps_forAll ?_ fun _ _ _ => ?_ | apply keeps_putQp | apply keeps_hostDrop | apply keeps_dropWrites | apply keeps_hostDrain)
    | split

theorem keeps_hostNakAt {q : Nat} {p : Packet} {at_ : BitVec 24} {a : Answer} {cause : Nat} {code : Nat} {s : State} (hm : Sub 18142378131920 k) (h : Keeps k s0 s) :
    Keeps k s0 (hostNakAt q p at_ a cause code s) := by
  unfold hostNakAt
  repeat' first
    | (with_reducible refine hm.of ?_); exact rfl
    | with_reducible assumption
    | (with_reducible first | apply keeps_ite | apply keeps_raiseFault | apply keeps_putQp | apply keeps_qpFault | apply keeps_hostAnswer)

theorem keeps_hostNak {q : Nat} {p : Packet} {x1 : Answer} {x2 : Nat} {x3 : Nat} {x4 : State} (hm : Sub 18142378131920 k) (h : Keeps k s0 x4) :
    Keeps k s0 (hostNak q p x1 x2 x3 x4) := by
  unfold hostNak
  repeat' first
    | (with_reducible refine hm.of ?_); exact rfl
    | with_reducible assumption
    | with_reducible apply keeps_hostNakAt

theorem keeps_hostTierNakAt {q : Nat} {p : Packet} {at_ : BitVec 24} {code : Nat} {s : State} (hm : Sub 18142378131920 k) (h : Keeps k s0 s) :
    Keeps k s0 (hostTierNakAt q p at_ code s) := by
  unfold hostTierNakAt
  repeat' first
    | (with_reducible refine hm.of ?_); exact rfl
    | with_reducible assumption
    | with_reducible apply keeps_hostNakAt

theorem keeps_hostTierNak {q : Nat} {p : Packet} {x1 : Nat} {x2 : State} (hm : Sub 18142378131920 k) (h : Keeps k s0 x2) :
    Keeps k s0 (hostTierNak q p x1 x2) := by
  unfold hostTierNak
  repeat' first
    | (with_reducible refine hm.of ?_); exact rfl
    | with_reducible assumption
    | with_reducible apply keeps_hostTierNakAt

theorem keeps_hostRnr {q : Nat} {p : Packet} {hi : Nat} {lo : Nat} {s : State} (hm : Sub 402653200 k) (h : Keeps k s0 s) :
    Keeps k s0 (hostRnr q p hi lo s) := by
  unfold hostRnr
  repeat' first
    | (with_reducible refine hm.of ?_); exact rfl
    | with_reducible assumption
    | with_reducible apply keeps_hostAnswer

theorem keeps_rateCheck {q : Nat} {port : Nat} {s : State} (hm : Sub 167772176 k) (h : Keeps k s0 s) :
    Keeps k s0 ((rateCheck q port s).2) := by
  unfold rateCheck
  repeat' first
    | (with_reducible refine hm.of ?_); exact rfl
    | with_reducible assumption
    | (with_reducible first | apply keeps_putHp | apply keeps_bump | apply keeps_putQp)
    | (have x := (); extract_lets +onlyGivenNames x; clear_value x)
    | split

theorem keeps_hostAtomic {q : Nat} {op : HostOp} {p : Packet} {ta : Nat} {s : State} (hm : Sub 97311510360528 k) (h : Keeps k s0 s) :
    Keeps k s0 (hostAtomic q op p ta s) := by
  unfold hostAtomic
  repeat' first
    | (with_reducible refine hm.of ?_); exact rfl
    | with_reducible assumption
    | (with_reducible first | apply keeps_ite | apply keeps_hostTierNak | apply keeps_tensorWrite | apply keeps_writePiece | apply keeps_tensorRead | apply keeps_putQp | apply keeps_hostAnswer | refine keeps_of3 (by assumption) ?_)
    | (have x := (); extract_lets +onlyGivenNames x; refine keeps_cut2 k s0 x ?_ fun _ => ?_; rotate_left; clear_value x)
    | (have x := (); extract_lets +onlyGivenNames x; clear_value x)
    | split

theorem keeps_hostRead {q : Nat} {p : Packet} {ta : Nat} {s : State} (hm : Sub 88511122354640 k) (h : Keeps k s0 s) :
    Keeps k s0 (hostRead q p ta s) := by
  unfold hostRead
  repeat' first
    | (with_reducible refine hm.of ?_); exact rfl
    | with_reducible assumption
    | (with_reducible first | refine keeps_foldl2 (fun _ _ _ => ?_) _ _ ?_ | apply keeps_tensorRead | apply keeps_hostTierNakAt | apply keeps_hostAnswer | refine keeps_of3 (by assumption) ?_)
    | split

theorem keeps_hostPlace {q : Nat} {op : HostOp} {p : Packet} {ta : Nat} {s : State} (hm : Sub 97311510360528 k) (h : Keeps k s0 s) :
    Keeps k s0 (hostPlace q op p ta s) := by
  unfold hostPlace
  repeat' first
    | (with_reducible refine hm.of ?_); exact rfl
    | with_reducible assumption
    | (with_reducible first | apply keeps_hostTierNak | apply keeps_tensorWrite | apply keeps_putQp | apply keeps_dropWrites | refine keeps_of (by assumption) ?_)
    | split

theorem keeps_hostPerform {q : Nat} {op : HostOp} {p : Packet} {dup : Bool} {ta : Nat} {s : State} (hm : Sub 97311510360528 k) (h : Keeps k s0 s) :
    Keeps k s0 (hostPerform q op p dup ta s) := by
  unfold hostPerform
  repeat' first
    | (with_reducible refine hm.of ?_); exact rfl
    | with_reducible assumption
    | (with_reducible first | apply keeps_ite | apply keeps_hostRead | apply keeps_hostAtomic | apply keeps_putQp | apply keeps_hostPlace)
    | split

theorem keeps_hostFinish {q : Nat} {op : HostOp} {p : Packet} {ta : Nat} {s : State} (hm : Sub 97311510360528 k) (h : Keeps k s0 s) :
    Keeps k s0 (hostFinish q op p ta s) := by
  unfold hostFinish
  repeat' first
    | (with_reducible refine hm.of ?_); exact rfl
    | with_reducible assumption
    | (with_reducible first | apply keeps_ite | apply keeps_hostAtomic | apply keeps_putQp | apply keeps_hostAnswer)
    | (have x := (); extract_lets +onlyGivenNames x; refine keeps_cut k s0 x ?_ fun _ => ?_; rotate_left; clear_value x)
    | (have x := (); extract_lets +onlyGivenNames x; clear_value x)
    | split

theorem keeps_hostDuplicate {q : Nat} {op : HostOp} {p : Packet} {s : State} (hm : Sub 18142378131920 k) (h : Keeps k s0 s) :
    Keeps k s0 (hostDuplicate q op p s) := by
  unfold hostDuplicate
  repeat' first
    | (with_reducible refine hm.of ?_); exact rfl
    | with_reducible assumption
    | (with_reducible first | apply keeps_hostNak | apply keeps_hostAnswer)
    | (have x := (); extract_lets +onlyGivenNames x; clear_value x)
    | split

theorem keeps_tierFirst {tag : BitVec 12} {write : Bool} {ta : Nat} {n : Nat} {s : State} (hm : Sub 88510686142928 k) (h : Keeps k s0 s) :
    Keeps k s0 ((tierFirst tag write ta n s).2) := by
  unfold tierFirst
  repeat' first
    | (with_reducible refine hm.of ?_); exact rfl
    | with_reducible assumption
    | (with_reducible first | refine keeps_foldl2 (fun _ _ _ => ?_) _ _ ?_ | apply keeps_tierFault | apply keeps_entryCheck)
    | (have x := (); extract_lets +onlyGivenNames x; refine keeps_cut2 k s0 x ?_ fun _ => ?_; rotate_left; clear_value x)
    | (have x := (); extract_lets +onlyGivenNames x; clear_value x)
    | split

theorem keeps_hostData {q : Nat} {op : HostOp} {p : Packet} {dup : Bool} {s : State} (hm : Sub 97311510360528 k) (h : Keeps k s0 s) :
    Keeps k s0 (hostData q op p dup s) := by
  unfold hostData
  repeat' first
    | (with_reducible refine hm.of ?_); exact rfl
    | with_reducible assumption
    | (with_reducible first | apply keeps_ite | apply keeps_hostTierNak | apply keeps_hostRnr | apply keeps_bump | apply keeps_hostNak | apply keeps_hostPerform | apply keeps_rinseCount | apply keeps_tierFirst | apply keeps_hostDrop | apply keeps_qpFault | apply keeps_rateCheck | refine keeps_of (by assumption) ?_)
    | (have x := (); extract_lets +onlyGivenNames x; clear_value x)
    | split

theorem keeps_hostCe {q : Nat} {p : Packet} {s : State} (hm : Sub 436207632 k) (h : Keeps k s0 s) :
    Keeps k s0 (hostCe q p s) := by
  unfold hostCe
  repeat' first
    | (with_reducible refine hm.of ?_); exact rfl
    | with_reducible assumption
    | (with_reducible first | apply keeps_ite | apply keeps_bump | apply keeps_putQp | apply keeps_hostReply)

theorem keeps_cnpArrive {q : Nat} {s : State} (hm : Sub 33554432 k) (h : Keeps k s0 s) :
    Keeps k s0 (cnpArrive q s) := by
  unfold cnpArrive
  repeat' first
    | (with_reducible refine hm.of ?_); exact rfl
    | with_reducible assumption
    | with_reducible apply keeps_putQp

theorem keeps_cnpPeriod {q : Nat} {s : State} (hm : Sub 33554432 k) (h : Keeps k s0 s) :
    Keeps k s0 (cnpPeriod q s) := by
  unfold cnpPeriod
  repeat' first
    | (with_reducible refine hm.of ?_); exact rfl
    | with_reducible assumption
    | with_reducible apply keeps_putQp

theorem keeps_qpCtxMain {q : Nat} {v : Word} {s : State} (hm : Sub 436228112 k) (h : Keeps k s0 s) :
    Keeps k s0 (qpCtxMain q v s) := by
  unfold qpCtxMain
  repeat' first
    | (with_reducible refine hm.of ?_); exact rfl
    | with_reducible assumption
    | (with_reducible first | apply keeps_ite | apply keeps_qpClear | apply keeps_putQp | apply keeps_hostIgnore)

theorem keeps_qpCtxWrite {mgmt : Bool} {q : Nat} {off : Nat} {v : Word} {s : State} (hm : Sub 436228112 k) (h : Keeps k s0 s) :
    Keeps k s0 (qpCtxWrite mgmt q off v s) := by
  unfold qpCtxWrite
  repeat' first
    | (with_reducible refine hm.of ?_); exact rfl
    | with_reducible assumption
    | (with_reducible first | apply keeps_ite | apply keeps_qpCtxMain | apply keeps_putQp | apply keeps_hostIgnore)
    | split

theorem keeps_qpReturn {q : Nat} {n : BitVec 32} {s : State} (hm : Sub 33554448 k) (h : Keeps k s0 s) :
    Keeps k s0 (qpReturn q n s) := by
  unfold qpReturn
  repeat' first
    | (with_reducible refine hm.of ?_); exact rfl
    | with_reducible assumption
    | (with_reducible first | apply keeps_ite | apply keeps_putQp | apply keeps_hostIgnore)

theorem keeps_mrWrite {m : Nat} {off : Nat} {v : Word} {s : State} (hm : Sub 67108880 k) (h : Keeps k s0 s) :
    Keeps k s0 (mrWrite m off v s) := by
  unfold mrWrite
  repeat' first
    | (with_reducible refine hm.of ?_); exact rfl
    | with_reducible assumption
    | (with_reducible first | apply keeps_ite | apply keeps_putMr | apply keeps_hostIgnore)
    | split

theorem keeps_hostPut {mgmt : Bool} {off : Nat} {v : Word} {s : State} (hm : Sub 503336976 k) (h : Keeps k s0 s) :
    Keeps k s0 (hostPut mgmt off v s) := by
  unfold hostPut
  repeat' first
    | (with_reducible refine hm.of ?_); exact rfl
    | with_reducible assumption
    | (with_reducible first | apply keeps_ite | apply keeps_qpCtxWrite | apply keeps_qpReturn | apply keeps_mrWrite)

theorem keeps_pfcLevel {p : Nat} {v : Word} {s : State} (hm : Sub 16 k) (h : Keeps k s0 s) :
    Keeps k s0 (pfcLevel p v s) := by
  unfold pfcLevel
  repeat' first
    | (with_reducible refine hm.of ?_); exact rfl
    | with_reducible assumption
    | (with_reducible first | apply keeps_ite | apply keeps_setReg | apply keeps_hostIgnore)

theorem keeps_hostQuiesce {tag : BitVec 12} {s : State} (hm : Sub 436228112 k) (h : Keeps k s0 s) :
    Keeps k s0 (hostQuiesce tag s) := by
  unfold hostQuiesce
  repeat' first
    | (with_reducible refine hm.of ?_); exact rfl
    | with_reducible assumption
    | (with_reducible first | refine keeps_forAll ?_ fun _ _ _ => ?_ | apply keeps_qpClear)

theorem keeps_hostRinse {tag : BitVec 12} {s : State} (hm : Sub 503336976 k) (h : Keeps k s0 s) :
    Keeps k s0 (hostRinse tag s) := by
  unfold hostRinse
  repeat' first
    | (with_reducible refine hm.of ?_); exact rfl
    | with_reducible assumption
    | (with_reducible first | refine keeps_forAll ?_ fun _ _ _ => ?_ | apply keeps_qpClear | apply keeps_putMr | apply keeps_putQp)

theorem keeps_ctlEndpoint {p : Nat} {e' : Endpoint} {st : Nat} {s : State} (hm : Sub 33554432 k) (h : Keeps k s0 s) :
    Keeps k s0 (ctlEndpoint p e' st s) := by
  unfold ctlEndpoint
  repeat' first
    | (with_reducible refine hm.of ?_); exact rfl
    | with_reducible assumption
    | with_reducible apply keeps_putQp

theorem keeps_ctlReset {p : Nat} {s : State} (hm : Sub 436228112 k) (h : Keeps k s0 s) :
    Keeps k s0 (ctlReset p s) := by
  unfold ctlReset
  repeat' first
    | (with_reducible refine hm.of ?_); exact rfl
    | with_reducible assumption
    | (with_reducible first | apply keeps_qpClear | apply keeps_putQp)

theorem keeps_ctlBringUp {p : Nat} {s : State} (hm : Sub 436228112 k) (h : Keeps k s0 s) :
    Keeps k s0 (ctlBringUp p s) := by
  unfold ctlBringUp
  repeat' first
    | (with_reducible refine hm.of ?_); exact rfl
    | with_reducible assumption
    | (with_reducible first | apply keeps_ite | apply keeps_ctlEndpoint | apply keeps_ctlReset)
    | split

theorem keeps_cmAnswer {p : Nat} {cls : BitVec 3} {a : Answer} {s : State} (hm : Sub 402653200 k) (h : Keeps k s0 s) :
    Keeps k s0 (cmAnswer p cls a s) := by
  unfold cmAnswer
  repeat' first
    | (with_reducible refine hm.of ?_); exact rfl
    | with_reducible assumption
    | with_reducible apply keeps_hostReply

theorem keeps_cmServe {p : Nat} {s : State} {f : State → State} (hm : Sub 16 k) (h : Keeps k s0 s) (hf : ∀ (y0 : State), Keeps k s0 y0 → Keeps k s0 (f y0)) :
    Keeps k s0 (cmServe p s f) := by
  unfold cmServe
  repeat' first
    | (with_reducible refine hm.of ?_); exact rfl
    | with_reducible assumption
    | (with_reducible first | apply keeps_ite | apply keeps_hostDrop | apply hf)

theorem keeps_cmRequest {p : Nat} {cls : BitVec 3} {service : BitVec 64} {e' : Endpoint} {s : State} (hm : Sub 436207632 k) (h : Keeps k s0 s) :
    Keeps k s0 (cmRequest p cls service e' s) := by
  unfold cmRequest
  repeat' first
    | (with_reducible refine hm.of ?_); exact rfl
    | with_reducible assumption
    | (with_reducible first | apply keeps_ite | apply keeps_putHp | apply keeps_ctlEndpoint | apply keeps_cmAnswer)

theorem keeps_cmReady {p : Nat} {s : State} (hm : Sub 33554432 k) (h : Keeps k s0 s) :
    Keeps k s0 (cmReady p s) := by
  unfold cmReady
  repeat' first
    | (with_reducible refine hm.of ?_); exact rfl
    | with_reducible assumption
    | (with_reducible first | apply keeps_ite | apply keeps_putQp)

theorem keeps_cmEnd {p : Nat} {cls : BitVec 3} {gid : BitVec 128} {qpn : BitVec 24} {s : State} (hm : Sub 436228112 k) (h : Keeps k s0 s) :
    Keeps k s0 (cmEnd p cls gid qpn s) := by
  unfold cmEnd
  repeat' first
    | (with_reducible refine hm.of ?_); exact rfl
    | with_reducible assumption
    | (with_reducible first | apply keeps_ite | apply keeps_putHp | apply keeps_ctlReset | apply keeps_cmAnswer)
    | (have x := (); extract_lets +onlyGivenNames x; clear_value x)
    | split

theorem keeps_cmTake {p : Nat} {cls : BitVec 3} {m : Mad} {s : State} (hm : Sub 436228112 k) (h : Keeps k s0 s) :
    Keeps k s0 (cmTake p cls m s) := by
  unfold cmTake
  repeat' first
    | (with_reducible refine hm.of ?_); exact rfl
    | with_reducible assumption
    | intro _
    | (with_reducible first | apply keeps_cmReady | apply keeps_cmRequest | apply keeps_hostDrop | apply keeps_cmEnd | apply keeps_cmServe)
    | split

theorem keeps_execHostLinkChange {port : BitVec 2} {up : Bool} {s : State} (hm : Sub 134217728 k) (h : Keeps k s0 s) :
    KeepsR k s0 (execHostLinkChange port up s) := by
  unfold execHostLinkChange
  repeat' first
    | (with_reducible refine hm.of ?_); exact rfl
    | with_reducible assumption
    | (with_reducible first | apply keepsR_next | apply keeps_putHp)

theorem keeps_execCmReq {port : MadPort} {service : BitVec 64} {gid : BitVec 128} {qpn : BitVec 24} {psn : BitVec 24} {s : State} (hm : Sub 436228112 k) (h : Keeps k s0 s) :
    KeepsR k s0 (execCmReq port service gid qpn psn s) := by
  unfold execCmReq
  repeat' first
    | (with_reducible refine hm.of ?_); exact rfl
    | with_reducible assumption
    | (with_reducible first | apply keepsR_next | apply keeps_cmTake)

theorem keeps_execCmRtu {port : BitVec 2} {s : State} (hm : Sub 436228112 k) (h : Keeps k s0 s) :
    KeepsR k s0 (execCmRtu port s) := by
  unfold execCmRtu
  repeat' first
    | (with_reducible refine hm.of ?_); exact rfl
    | with_reducible assumption
    | (with_reducible first | apply keepsR_next | apply keeps_cmTake)

theorem keeps_execCmDreq {port : MadPort} {gid : BitVec 128} {qpn : BitVec 24} {s : State} (hm : Sub 436228112 k) (h : Keeps k s0 s) :
    KeepsR k s0 (execCmDreq port gid qpn s) := by
  unfold execCmDreq
  repeat' first
    | (with_reducible refine hm.of ?_); exact rfl
    | with_reducible assumption
    | (with_reducible first | apply keepsR_next | apply keeps_cmTake)

theorem keeps_execCnp {q : BitVec 12} {s : State} (hm : Sub 33554432 k) (h : Keeps k s0 s) :
    KeepsR k s0 (execCnp q s) := by
  unfold execCnp
  repeat' first
    | (with_reducible refine hm.of ?_); exact rfl
    | with_reducible assumption
    | (with_reducible first | apply keepsR_next | apply keeps_cnpArrive)

theorem keeps_execCnpRateTimer {q : BitVec 12} {s : State} (hm : Sub 33554432 k) (h : Keeps k s0 s) :
    KeepsR k s0 (execCnpRateTimer q s) := by
  unfold execCnpRateTimer
  repeat' first
    | (with_reducible refine hm.of ?_); exact rfl
    | with_reducible assumption
    | (with_reducible first | apply keepsR_next | apply keeps_cnpPeriod)

theorem keeps_execQpCtxWrite {q : BitVec 12} {off : BitVec 12} {v : BitVec 64} {s : State} (hm : Sub 436228112 k) (h : Keeps k s0 s) :
    KeepsR k s0 (execQpCtxWrite q off v s) := by
  unfold execQpCtxWrite
  repeat' first
    | (with_reducible refine hm.of ?_); exact rfl
    | with_reducible assumption
    | intro _
    | (with_reducible first | apply keepsR_next | apply keeps_ite | apply keeps_inDomain | apply keeps_qpCtxWrite)

theorem keeps_execQpRqReturn {q : BitVec 12} {n : BitVec 32} {s : State} (hm : Sub 33554448 k) (h : Keeps k s0 s) :
    KeepsR k s0 (execQpRqReturn q n s) := by
  unfold execQpRqReturn
  repeat' first
    | (with_reducible refine hm.of ?_); exact rfl
    | with_reducible assumption
    | intro _
    | (with_reducible first | apply keepsR_next | apply keeps_inDomain | apply keeps_qpReturn)

theorem keeps_execPfcPauseEnd {port : BitVec 2} {cls : BitVec 3} {s : State} (hm : Sub 402653200 k) (h : Keeps k s0 s) :
    KeepsR k s0 (execPfcPauseEnd port cls s) := by
  unfold execPfcPauseEnd
  repeat' first
    | (with_reducible refine hm.of ?_); exact rfl
    | with_reducible assumption
    | (with_reducible first | apply keepsR_next | apply keeps_hostUnpause)

end Sys2Proof.Machine
end

