-- ==== Sys2Proof/Laws/KeepsPages.lean ====
section
/-! SUPPORT. What the operations of Machine/Pages.lean keep. -/

namespace Sys2Proof.Machine

variable {k : Nat} {s0 : State}

theorem keeps_snapWrite {base : Nat} {hold : Bool} {s : State} (hm : Sub 48 k) (h : Keeps k s0 s) :
    Keeps k s0 (snapWrite base hold s) := by
  unfold snapWrite
  repeat' first
    | (with_reducible refine hm.of ?_); exact rfl
    | with_reducible assumption
    | (with_reducible first | apply keeps_ite | apply keeps_setReg)
    | (have x := (); extract_lets +onlyGivenNames x; clear_value x)
    | (with_reducible first | apply Keeps.put_snaps)

theorem keeps_errClear {base : Nat} {v : Word} {s : State} (hm : Sub 17592186044432 k) (h : Keeps k s0 s) :
    Keeps k s0 (errClear base v s) := by
  unfold errClear
  repeat' first
    | (with_reducible refine hm.of ?_); exact rfl
    | with_reducible assumption
    | (with_reducible first | apply keeps_ite | apply keeps_setReg | apply keeps_alertClear)

theorem keeps_lockWrite {base : Nat} {v : Word} {s : State} (hm : Sub 16 k) (h : Keeps k s0 s) :
    Keeps k s0 (lockWrite base v s) := by
  unfold lockWrite
  repeat' first
    | (with_reducible refine hm.of ?_); exact rfl
    | with_reducible assumption
    | with_reducible apply keeps_setReg

theorem keeps_plainWrite {base : Nat} {addr : Nat} {r : RegRow} {v : Word} {s : State} (hm : Sub 16 k) (h : Keeps k s0 s) :
    Keeps k s0 (plainWrite base addr r v s) := by
  unfold plainWrite
  repeat' first
    | (with_reducible refine hm.of ?_); exact rfl
    | with_reducible assumption
    | (with_reducible first | apply keeps_ite | apply keeps_setReg)
    | (have x := (); extract_lets +onlyGivenNames x; clear_value x)
    | split

theorem keeps_eachJob {f : Job → Job} {s : State} (hm : Sub 65536 k) (h : Keeps k s0 s) :
    Keeps k s0 (eachJob f s) := by
  unfold eachJob
  repeat' first
    | (with_reducible refine hm.of ?_); exact rfl
    | with_reducible assumption
    | with_reducible refine keeps_forAll ?_ fun _ _ _ => ?_
    | (with_reducible first | apply Keeps.put_jobs)

theorem keeps_softRecords {p : PageType} {i : Nat} {s : State} (hm : Sub 1200816336 k) (h : Keeps k s0 s) :
    Keeps k s0 (softRecords p i s) := by
  unfold softRecords
  split
  · exact keeps_putClu (hm.of rfl) h
  · exact keeps_putClu (hm.of rfl) h
  · exact keeps_putClu (hm.of rfl) h
  · exact keeps_putTile (hm.of rfl) h
  · exact Keeps.put_pour (hm.of rfl) h
  · exact Keeps.put_mrs_qps (hm.of rfl) h
  · exact keeps_portReset (hm.of rfl) h
  · exact keeps_eachJob (hm.of rfl) h
  · exact Keeps.put_power (hm.of rfl) h
  · exact keeps_eachJob (hm.of rfl) h
  · exact keeps_eachJob (hm.of rfl) h
  · exact keeps_eachJob (hm.of rfl) h
  · exact keeps_eachJob (hm.of rfl) h
  · exact h

theorem keeps_softReset {p : PageType} {i : Nat} {base : Nat} {s : State} (hm : Sub 17593386860784 k) (h : Keeps k s0 s) :
    Keeps k s0 (softReset p i base s) := by
  unfold softReset
  repeat' first
    | (with_reducible refine hm.of ?_); exact rfl
    | with_reducible assumption
    | intro _
    | (with_reducible first | apply keeps_ite | apply keeps_alertClear | apply keeps_softRecords | apply keeps_repath | exact regsFilter_wf _ (by assumption))
    | (with_reducible first | apply Keeps.put_snaps_regs | apply Keeps.put_regs | apply Keeps.put_snaps)

theorem keeps_clkRequest {base : Nat} {v : Word} {s : State} (hm : Sub 16 k) (h : Keeps k s0 s) :
    Keeps k s0 (clkRequest base v s) := by
  unfold clkRequest
  repeat' first
    | (with_reducible refine hm.of ?_); exact rfl
    | with_reducible assumption
    | with_reducible apply keeps_setRegF

theorem keeps_blkCtrl {p : PageType} {i : Nat} {base : Nat} {v : Word} {s : State} (hm : Sub 17593386860784 k) (h : Keeps k s0 s) :
    Keeps k s0 (blkCtrl p i base v s) := by
  unfold blkCtrl
  repeat' first
    | (with_reducible refine hm.of ?_); exact rfl
    | with_reducible assumption
    | (with_reducible first | apply keeps_ite | apply keeps_setReg | apply keeps_softReset | apply keeps_clkRequest)

theorem keeps_headWrite {p : PageType} {i : Nat} {base : Nat} {off : Nat} {v : Word} {s : State} (hm : Sub 17593386860784 k) (h : Keeps k s0 s) :
    Keeps k s0 (headWrite p i base off v s) := by
  unfold headWrite
  repeat' first
    | (with_reducible refine hm.of ?_); exact rfl
    | with_reducible assumption
    | (with_reducible first | apply keeps_snapWrite | apply keeps_lockWrite | apply keeps_blkCtrl | apply keeps_errClear | apply keeps_plainWrite)
    | split

end Sys2Proof.Machine
end

