-- ==== Sys2Proof/Laws/KeepsDieRegs.lean ====
section
/-! SUPPORT. What the operations of Machine/DieRegs.lean keep. -/

namespace Sys2Proof.Machine

variable {k : Nat} {s0 : State}

theorem keeps_clusterWrite {c : Nat} {off : Nat} {v : Word} {plain : State → State} {s : State} (hm : Sub 97336876725720 k) (h : Keeps k s0 s) (hplain : ∀ (y0 : State), Keeps k s0 y0 → Keeps k s0 (plain y0)) :
    Keeps k s0 (clusterWrite c off v plain s) := by
  unfold clusterWrite
  repeat' first
    | (with_reducible refine hm.of ?_); exact rfl
    | with_reducible assumption
    | (with_reducible first | apply keeps_setReg | apply keeps_winCmd | apply keeps_phaseCtrl | apply keeps_descData | apply keeps_amoGo | apply keeps_updCmd | apply keeps_cupCfgWrite | apply keeps_cupHsel | apply keeps_ringBell | apply keeps_ringCommand | apply keeps_phaseCmdWrite | apply hplain)
    | split

theorem keeps_dmaWrite {c : Nat} {off : Nat} {v : Word} {plain : State → State} {s : State} (hm : Sub 26968104194512 k) (h : Keeps k s0 s) (hplain : ∀ (y0 : State), Keeps k s0 y0 → Keeps k s0 (plain y0)) :
    Keeps k s0 (dmaWrite c off v plain s) := by
  unfold dmaWrite
  repeat' first
    | (with_reducible refine hm.of ?_); exact rfl
    | with_reducible assumption
    | (with_reducible first | apply keeps_descData | apply keeps_ringConfig | apply keeps_ringBell | apply keeps_ringCommand | apply hplain)
    | split

theorem keeps_carafeWrite {c : Nat} {off : Nat} {v : Word} {plain : State → State} {s : State} (hm : Sub 18141941924304 k) (h : Keeps k s0 s) (hplain : ∀ (y0 : State), Keeps k s0 y0 → Keeps k s0 (plain y0)) :
    Keeps k s0 (carafeWrite c off v plain s) := by
  unfold carafeWrite
  repeat' first
    | (with_reducible refine hm.of ?_); exact rfl
    | with_reducible assumption
    | (with_reducible first | apply keeps_ite | apply keeps_bankWrite | apply keeps_rqGive | apply keeps_rqConfig | apply hplain)
    | split

theorem keeps_carWinWrite {c : Nat} {off : Nat} {plain : State → State} {s : State} (hm : Sub 0 k) (h : Keeps k s0 s) (hplain : ∀ (y0 : State), Keeps k s0 y0 → Keeps k s0 (plain y0)) :
    Keeps k s0 (carWinWrite c off plain s) := by
  unfold carWinWrite
  repeat' first
    | with_reducible assumption
    | (with_reducible first | apply keeps_ite | apply hplain)

theorem keeps_tileWrite {t : Nat} {off : Nat} {v : Word} {plain : State → State} {s : State} (hm : Sub 18141941924304 k) (h : Keeps k s0 s) (hplain : ∀ (y0 : State), Keeps k s0 y0 → Keeps k s0 (plain y0)) :
    Keeps k s0 (tileWrite t off v plain s) := by
  unfold tileWrite
  repeat' first
    | (with_reducible refine hm.of ?_); exact rfl
    | with_reducible assumption
    | (with_reducible first | apply keeps_ite | apply keeps_bankWrite | apply hplain)

theorem keeps_dieWrite {p : PageType} {i : Nat} {base : Nat} {off : Nat} {v : Word} {s : State} (hm : Sub 97336876725720 k) (h : Keeps k s0 s) :
    Keeps k s0 (dieWrite p i base off v s) := by
  unfold dieWrite
  repeat' first
    | (with_reducible refine hm.of ?_); exact rfl
    | with_reducible assumption
    | intro _
    | (with_reducible first | apply keeps_ite | apply keeps_tileWrite | apply keeps_carafeWrite | apply keeps_clusterWrite | apply keeps_plainWrite | apply keeps_dmaWrite | apply keeps_carWinWrite)
    | ((have x := (); extract_lets +onlyGivenNames x; first | (have u : Stores := x; clear u) | (have u : Mem := x; clear u) | (have u := fun a => x a; clear u)); dsimp -zeta only [x]; clear x)
    | (have x := (); extract_lets +onlyGivenNames x; clear_value x)
    | split

end Sys2Proof.Machine
end

