-- ==== Sys2Proof/Laws/KeepsImage.lean ====
section
/-! SUPPORT. What the operations of Machine/Image.lean keep. -/

namespace Sys2Proof.Machine

variable {k : Nat} {s0 : State}

/-- The state that a binding step answers. -/
def BindR.state : BindR → State
  | .ok s => s
  | .bad _ _ _ s => s
  | .wait _ s => s
/-- The state that reading an image answers. -/
def ImageR.state : ImageR → State
  | .ok _ _ s => s
  | .bad _ _ s => s

theorem keeps_stOk {s : State} (h : Keeps k s0 s) : Keeps k s0 (BindR.ok s).state := h
theorem keeps_stBad {a b c : Nat} {s : State} (h : Keeps k s0 s) : Keeps k s0 (BindR.bad a b c s).state := h
theorem keeps_stWait {n : Nat} {s : State} (h : Keeps k s0 s) : Keeps k s0 (BindR.wait n s).state := h
theorem keeps_imOk {a : List Byte} {l : List Sect} {s : State} (h : Keeps k s0 s) : Keeps k s0 (ImageR.ok a l s).state := h
theorem keeps_imBad {a b : Nat} {s : State} (h : Keeps k s0 s) : Keeps k s0 (ImageR.bad a b s).state := h
theorem keeps_ofOk {r : BindR} {s : State} (e : r = .ok s) (h : Keeps k s0 r.state) : Keeps k s0 s := by rw [e] at h; exact h
theorem keeps_ofBad {r : BindR} {a b c : Nat} {s : State} (e : r = .bad a b c s) (h : Keeps k s0 r.state) : Keeps k s0 s := by
  rw [e] at h; exact h
theorem keeps_ofWait {r : BindR} {n : Nat} {s : State} (e : r = .wait n s) (h : Keeps k s0 r.state) : Keeps k s0 s := by
  rw [e] at h; exact h
theorem keeps_ofImOk {r : ImageR} {a : List Byte} {l : List Sect} {s : State} (e : r = .ok a l s) (h : Keeps k s0 r.state) :
    Keeps k s0 s := by rw [e] at h; exact h
theorem keeps_ofImBad {r : ImageR} {a b : Nat} {s : State} (e : r = .bad a b s) (h : Keeps k s0 r.state) : Keeps k s0 s := by
  rw [e] at h; exact h
theorem keeps_bite {c : Prop} [Decidable c] {a b : BindR} (h : Keeps k s0 a.state) (k' : Keeps k s0 b.state) :
    Keeps k s0 (if c then a else b).state := by split <;> assumption


theorem keeps_bindSeq {α : Type} {f : α → State → BindR} {x1 : List α} {x2 : State} (hm : Sub 0 k) (h : Keeps k s0 x2) (hf : ∀ (y0 : α) (y1 : State), Keeps k s0 y1 → Keeps k s0 ((f y0 y1).state)) :
    Keeps k s0 ((bindSeq f x1 x2).state) := by
  induction x1 generalizing x2 with
  | nil =>
    unfold bindSeq
    repeat' first
      | with_reducible assumption
      | (with_reducible first | apply hf | apply keeps_stOk | refine keeps_ofOk (by assumption) ?_)
      | split
  | cons a l ih =>
    unfold bindSeq
    repeat' first
      | with_reducible assumption
      | (with_reducible first | apply ih | apply hf | apply keeps_stOk | refine keeps_ofOk (by assumption) ?_)
      | split

theorem keeps_andThen {r : BindR} {f : State → BindR} (h : Keeps k s0 r.state)
    (hf : ∀ y0 : State, Keeps k s0 y0 → Keeps k s0 (f y0).state) : Keeps k s0 (r.andThen f).state := by
  cases r with
  | ok s => exact hf s h
  | bad a b c s => exact h
  | wait n s => exact h

theorem keeps_readSect {tag : BitVec 12} {img : Nat} {size : Nat} {e' : List Byte} {i : Nat} {s : State} (hm : Sub 88510686147024 k) (h : Keeps k s0 s) :
    Keeps k s0 ((readSect tag img size e' i s).2.2) := by
  unfold readSect
  repeat' first
    | (with_reducible refine hm.of ?_); exact rfl
    | with_reducible assumption
    | (with_reducible first | apply keeps_tensorRead | refine keeps_of3 (by assumption) ?_)
    | split

theorem keeps_readImage {tag : BitVec 12} {img : Nat} {s : State} (hm : Sub 88510686147024 k) (h : Keeps k s0 s) :
    Keeps k s0 ((readImage tag img s).state) := by
  unfold readImage
  repeat' first
    | (with_reducible refine hm.of ?_); exact rfl
    | with_reducible assumption
    | (with_reducible first | refine keeps_foldl3 (fun _ _ _ => ?_) _ _ ?_ | apply keeps_readSect | apply keeps_tensorRead | refine keeps_of3 (by assumption) ?_ | apply keeps_imOk | apply keeps_imBad)
    | (have x := (); extract_lets +onlyGivenNames x; refine keeps_cut3 k s0 x ?_ fun _ => ?_; rotate_left; clear_value x)
    | split

theorem keeps_bindPage {tag : BitVec 12} {sec : Nat} {b : List Byte} {s : State} (hm : Sub 26942329917904 k) (h : Keeps k s0 s) :
    Keeps k s0 ((bindPage tag sec b s).state) := by
  unfold bindPage
  repeat' first
    | (with_reducible refine hm.of ?_); exact rfl
    | with_reducible assumption
    | (with_reducible first | apply keeps_mapPage | apply keeps_setHint | apply keeps_putPage | apply keeps_fillDone | refine keeps_of (by assumption) ?_ | apply keeps_stOk | apply keeps_stBad | apply keeps_stWait | apply keeps_bite)
    | split

theorem keeps_bindPages {tag : BitVec 12} {x1 : Nat} {x2 : List (Nat × List Byte)} {x3 : State} (hm : Sub 26942329917904 k) (h : Keeps k s0 x3) :
    Keeps k s0 ((bindPages tag x1 x2 x3).state) := by
  induction x2 generalizing x1 x3 with
  | nil =>
    unfold bindPages
    repeat' first
      | (with_reducible refine hm.of ?_); exact rfl
      | with_reducible assumption
      | (with_reducible first | apply keeps_bindPage | apply keeps_stOk | apply keeps_stWait | refine keeps_ofOk (by assumption) ?_ | refine keeps_ofWait (by assumption) ?_)
      | split
  | cons a l ih =>
    unfold bindPages
    repeat' first
      | (with_reducible refine hm.of ?_); exact rfl
      | with_reducible assumption
      | (with_reducible first | apply ih | apply keeps_bindPage | apply keeps_stOk | apply keeps_stWait | refine keeps_ofOk (by assumption) ?_ | refine keeps_ofWait (by assumption) ?_)
      | split

theorem keeps_bindGroups {tag : BitVec 12} {sec : Nat} {x1 : Nat} {x2 : List Byte} {x3 : State} (hm : Sub 65536 k) (h : Keeps k s0 x3) :
    Keeps k s0 ((bindGroups tag sec x1 x2 x3).state) := by
  induction x1 generalizing x2 x3 with
  | zero =>
    unfold bindGroups
    repeat' first
      | (with_reducible refine hm.of ?_); exact rfl
      | with_reducible assumption
      | (with_reducible first | apply keeps_putJob | apply keeps_stOk | apply keeps_stBad | apply keeps_bite)
  | succ n ih =>
    unfold bindGroups
    repeat' first
      | (with_reducible refine hm.of ?_); exact rfl
      | with_reducible assumption
      | (with_reducible first | apply ih | apply keeps_putJob | apply keeps_stOk | apply keeps_stBad | apply keeps_bite)

theorem keeps_bindMaps {tag : BitVec 12} {clus : List Nat} {sec : Nat} {x1 : Nat} {x2 : List Byte} {x3 : State} (hm : Sub 65536 k) (h : Keeps k s0 x3) :
    Keeps k s0 ((bindMaps tag clus sec x1 x2 x3).state) := by
  induction x1 generalizing x2 x3 with
  | zero =>
    unfold bindMaps
    repeat' first
      | (with_reducible refine hm.of ?_); exact rfl
      | with_reducible assumption
      | (with_reducible first | apply keeps_putJob | apply keeps_stOk | apply keeps_stBad | apply keeps_bite)
  | succ n ih =>
    unfold bindMaps
    repeat' first
      | (with_reducible refine hm.of ?_); exact rfl
      | with_reducible assumption
      | (with_reducible first | apply ih | apply keeps_putJob | apply keeps_stOk | apply keeps_stBad | apply keeps_bite)

theorem keeps_bindUpdate {tag : BitVec 12} {sec : Nat} {b : List Byte} {s : State} (hm : Sub 65536 k) (h : Keeps k s0 s) :
    Keeps k s0 ((bindUpdate tag sec b s).state) := by
  unfold bindUpdate
  repeat' first
    | (with_reducible refine hm.of ?_); exact rfl
    | with_reducible assumption
    | (with_reducible first | apply keeps_putJob | apply keeps_stOk | apply keeps_stBad | apply keeps_bite)

theorem keeps_bindWatch {tag : BitVec 12} {sec : Nat} {b : List Byte} {s : State} (hm : Sub 65536 k) (h : Keeps k s0 s) :
    Keeps k s0 ((bindWatch tag sec b s).state) := by
  unfold bindWatch
  repeat' first
    | (with_reducible refine hm.of ?_); exact rfl
    | with_reducible assumption
    | (with_reducible first | apply keeps_putJob | apply keeps_stOk | apply keeps_stBad | apply keeps_bite)

theorem keeps_bindPour {tag : BitVec 12} {clus : List Nat} {sec : Nat} {b : List Byte} {s : State} (hm : Sub 131072 k) (h : Keeps k s0 s) :
    Keeps k s0 ((bindPour tag clus sec b s).state) := by
  unfold bindPour
  repeat' first
    | (with_reducible refine hm.of ?_); exact rfl
    | with_reducible assumption
    | (with_reducible first | apply keeps_putPq | apply keeps_stOk | apply keeps_stBad | apply keeps_bite)

theorem keeps_bindDevice {tag : BitVec 12} {clus : List Nat} {e' : Sect} {s : State} (hm : Sub 18141942059472 k) (h : Keeps k s0 s) :
    Keeps k s0 ((bindDevice tag clus e' s).state) := by
  unfold bindDevice
  repeat' first
    | (with_reducible refine hm.of ?_); exact rfl
    | with_reducible assumption
    | intro _
    | (with_reducible first | apply keeps_bindSeq | apply keeps_bindGroups | apply keeps_bindWatch | apply keeps_putJob | apply keeps_bindPour | apply keeps_quotaWrite | apply keeps_bindUpdate | apply keeps_bindMaps | apply keeps_stOk | apply keeps_stBad | apply keeps_bite)
    | (have x := (); extract_lets +onlyGivenNames x; refine keeps_cutP BindR.state k s0 x ?_ fun _ => ?_; rotate_left; clear_value x)
    | (have x := (); extract_lets +onlyGivenNames x; clear_value x)
    | split

theorem keeps_bindRecord {tag : BitVec 12} {c : Nat} {sec : Nat} {b : List Byte} {s : State} (hm : Sub 97338051261944 k) (h : Keeps k s0 s) :
    Keeps k s0 ((bindRecord tag c sec b s).state) := by
  unfold bindRecord
  repeat' first
    | (with_reducible refine hm.of ?_); exact rfl
    | with_reducible assumption
    | (with_reducible first | apply keeps_ite | apply keeps_headWrite | apply keeps_dieWrite | apply keeps_stOk | apply keeps_stBad | apply keeps_bite)
    | (have x := (); extract_lets +onlyGivenNames x; refine keeps_cut k s0 x ?_ fun _ => ?_; rotate_left; clear_value x)
    | (have x := (); extract_lets +onlyGivenNames x; clear_value x)
    | split

theorem keeps_bindContext {c : Nat} {sec : Nat} {b : List Byte} {s : State} (hm : Sub 34359738432 k) (h : Keeps k s0 s) :
    Keeps k s0 ((bindContext c sec b s).state) := by
  unfold bindContext
  repeat' first
    | (with_reducible refine hm.of ?_); exact rfl
    | with_reducible assumption
    | intro _
    | (with_reducible first | apply keeps_setCtxSt | exact memWrite_wf _ _ (by assumption) | apply keeps_stOk | apply keeps_stBad | apply keeps_bite)
    | ((have x := (); extract_lets +onlyGivenNames x; first | (have u : Stores := x; clear u) | (have u : Mem := x; clear u) | (have u := fun a => x a; clear u)); dsimp -zeta only [x]; clear x)
    | (with_reducible first | apply Keeps.put_mCtx)

theorem keeps_bindVdesc {c : Nat} {sec : Nat} {b : List Byte} {s : State} (hm : Sub 68719476736 k) (h : Keeps k s0 s) :
    Keeps k s0 ((bindVdesc c sec b s).state) := by
  unfold bindVdesc
  repeat' first
    | (with_reducible refine hm.of ?_); exact rfl
    | with_reducible assumption
    | intro _
    | (with_reducible first | exact memWrite_wf _ _ (by assumption) | apply keeps_stOk | apply keeps_stBad | apply keeps_bite)
    | ((have x := (); extract_lets +onlyGivenNames x; first | (have u : Stores := x; clear u) | (have u : Mem := x; clear u) | (have u := fun a => x a; clear u)); dsimp -zeta only [x]; clear x)
    | (with_reducible first | apply Keeps.put_mVdesc)

theorem keeps_bindPhases {c : Nat} {sec : Nat} {b : List Byte} {s : State} (hm : Sub 16 k) (h : Keeps k s0 s) :
    Keeps k s0 ((bindPhases c sec b s).state) := by
  unfold bindPhases
  repeat' first
    | (with_reducible refine hm.of ?_); exact rfl
    | with_reducible assumption
    | (with_reducible first | refine keeps_foldl (fun _ _ _ => ?_) _ _ ?_ | apply keeps_setReg | apply keeps_stOk | apply keeps_stBad | apply keeps_bite)

theorem keeps_bindRings {tag : BitVec 12} {c : Nat} {sec : Nat} {x1 : Nat} {x2 : List Byte} {x3 : State} (hm : Sub 25769803904 k) (h : Keeps k s0 x3) :
    Keeps k s0 ((bindRings tag c sec x1 x2 x3).state) := by
  induction x1 generalizing x2 x3 with
  | zero =>
    unfold bindRings
    repeat' first
      | (with_reducible refine hm.of ?_); exact rfl
      | with_reducible assumption
      | (with_reducible first | apply keeps_putRing | apply keeps_storeWrite | apply keeps_stOk | apply keeps_stBad | apply keeps_bite)
  | succ n ih =>
    unfold bindRings
    repeat' first
      | (with_reducible refine hm.of ?_); exact rfl
      | with_reducible assumption
      | (with_reducible first | apply ih | apply keeps_putRing | apply keeps_storeWrite | apply keeps_stOk | apply keeps_stBad | apply keeps_bite)

theorem keeps_bindCluster {tag : BitVec 12} {c : Nat} {e' : Sect} {s : State} (hm : Sub 97441130477048 k) (h : Keeps k s0 s) :
    Keeps k s0 ((bindCluster tag c e' s).state) := by
  unfold bindCluster
  repeat' first
    | (with_reducible refine hm.of ?_); exact rfl
    | with_reducible assumption
    | intro _
    | (with_reducible first | apply keeps_bindRecord | apply keeps_bindRings | apply keeps_setReg | apply keeps_bindSeq | apply keeps_bindPhases | apply keeps_bindContext | apply keeps_bindVdesc | apply keeps_stOk | apply keeps_stBad | apply keeps_bite)
    | (have x := (); extract_lets +onlyGivenNames x; refine keeps_cut k s0 x ?_ fun _ => ?_; rotate_left; clear_value x)
    | ((have x := (); extract_lets +onlyGivenNames x; first | (have u : Stores := x; clear u) | (have u : Mem := x; clear u) | (have u := fun a => x a; clear u)); dsimp -zeta only [x]; clear x)
    | (have x := (); extract_lets +onlyGivenNames x; clear_value x)
    | split

theorem keeps_takeCluster {tag : BitVec 12} {logical : Nat} {c : Nat} {s : State} (hm : Sub 144 k) (h : Keeps k s0 s) :
    Keeps k s0 (takeCluster tag logical c s) := by
  unfold takeCluster
  repeat' first
    | (with_reducible refine hm.of ?_); exact rfl
    | with_reducible assumption
    | (with_reducible first | refine keeps_foldl (fun _ _ _ => ?_) _ _ ?_ | refine keeps_forAll ?_ fun _ _ _ => ?_ | apply keeps_setReg | apply keeps_putClu)
    | split

theorem keeps_bindApply {tag : BitVec 12} {attach : Bool} {m : List (Nat × Nat)} {skip : Nat} {hdr : List Byte} {l : List Sect} {s : State} (hm : Sub 97441130477048 k) (h : Keeps k s0 s) :
    Keeps k s0 ((bindApply tag attach m skip hdr l s).state) := by
  unfold bindApply
  repeat' first
    | (with_reducible refine hm.of ?_); exact rfl
    | with_reducible assumption
    | intro _
    | (with_reducible first | apply keeps_bindPages | apply keeps_takeCluster | apply keeps_bindSeq | apply keeps_andThen | apply keeps_putJob | apply keeps_bindDevice | apply keeps_bindCluster | apply keeps_stOk | apply keeps_bite)

end Sys2Proof.Machine
end

