-- ==== Sys2Proof/Laws/KeepsJobs.lean ====
section
/-! SUPPORT. What the operations of Machine/Jobs.lean keep. -/

namespace Sys2Proof.Machine

variable {k : Nat} {s0 : State}

theorem keeps_setCluSt {c : Nat} {st : Nat} {s : State} (hm : Sub 16 k) (h : Keeps k s0 s) :
    Keeps k s0 (setCluSt c st s) := by
  unfold setCluSt
  repeat' first
    | (with_reducible refine hm.of ?_); exact rfl
    | with_reducible assumption
    | with_reducible apply keeps_setRegF

theorem keeps_closeWindows {a : Store} {s : State} (hm : Sub 16 k) (h : Keeps k s0 s) :
    Keeps k s0 (closeWindows a s) := by
  unfold closeWindows
  repeat' first
    | (with_reducible refine hm.of ?_); exact rfl
    | with_reducible assumption
    | (with_reducible first | refine keeps_forAll ?_ fun _ _ _ => ?_ | apply keeps_setReg)

theorem keeps_stopQueues {f : PourQ → Bool} {s : State} (hm : Sub 4325376 k) (h : Keeps k s0 s) :
    Keeps k s0 (stopQueues f s) := by
  unfold stopQueues
  repeat' first
    | (with_reducible refine hm.of ?_); exact rfl
    | with_reducible assumption
    | (have x := (); extract_lets +onlyGivenNames x; clear_value x)
    | (with_reducible first | apply Keeps.put_pour_awaited | apply Keeps.put_awaited | apply Keeps.put_pour)

theorem keeps_quiesceCluster {c : Nat} {s : State} (hm : Sub 9350148280784 k) (h : Keeps k s0 s) :
    Keeps k s0 (quiesceCluster c s) := by
  unfold quiesceCluster
  repeat' first
    | (with_reducible refine hm.of ?_); exact rfl
    | with_reducible assumption
    | (with_reducible first | refine keeps_forAll ?_ fun _ _ _ => ?_ | apply keeps_ringAbort | apply keeps_putClu | apply keeps_closeWindows | apply keeps_dropWrites | apply keeps_setCluSt | apply keeps_stopTile | apply keeps_withdraw)

theorem keeps_quiesceClusters {tag : BitVec 12} {l : List Nat} {s : State} (hm : Sub 9350175216080 k) (h : Keeps k s0 s) :
    Keeps k s0 (quiesceClusters tag l s) := by
  unfold quiesceClusters
  repeat' first
    | (with_reducible refine hm.of ?_); exact rfl
    | with_reducible assumption
    | (with_reducible first | refine keeps_forAll ?_ fun _ _ _ => ?_ | apply keeps_discardPend | apply keeps_stopQueues | apply keeps_collAbandon | apply keeps_quiesceCluster)

theorem keeps_quiesceJob {tag : BitVec 12} {s : State} (hm : Sub 9350611423696 k) (h : Keeps k s0 s) :
    Keeps k s0 (quiesceJob tag s) := by
  unfold quiesceJob
  repeat' first
    | (with_reducible refine hm.of ?_); exact rfl
    | with_reducible assumption
    | (with_reducible first | refine keeps_forAll ?_ fun _ _ _ => ?_ | apply keeps_tierStatus | apply keeps_hostQuiesce | apply keeps_stopQueues | apply keeps_putJob | apply keeps_collAbandon | apply keeps_quiesceCluster)
    | split
    | (with_reducible first | apply Keeps.put_pages_writes | apply Keeps.put_pages | apply Keeps.put_writes)

theorem keeps_killJob {tag : BitVec 12} {s : State} (hm : Sub 9350611423696 k) (h : Keeps k s0 s) :
    Keeps k s0 (killJob tag s) := by
  unfold killJob
  repeat' first
    | (with_reducible refine hm.of ?_); exact rfl
    | with_reducible assumption
    | (with_reducible first | apply keeps_quiesceJob | apply keeps_putJob)

theorem keeps_detachJob {tag : BitVec 12} {mask : Word} {s : State} (hm : Sub 9350175216080 k) (h : Keeps k s0 s) :
    Keeps k s0 (detachJob tag mask s) := by
  unfold detachJob
  repeat' first
    | (with_reducible refine hm.of ?_); exact rfl
    | with_reducible assumption
    | (with_reducible first | apply keeps_quiesceClusters | apply keeps_putJob)

theorem keeps_drainStore {a : Store} {s : State} (hm : Sub 25797067984 k) (h : Keeps k s0 s) :
    Keeps k s0 (drainStore a s) := by
  unfold drainStore
  repeat' first
    | (with_reducible refine hm.of ?_); exact rfl
    | with_reducible assumption
    | (with_reducible first | refine keeps_forAll ?_ fun _ _ _ => ?_ | apply keeps_landRow | apply keeps_putBankQueue)

theorem keeps_rinsePages {f : Nat → Page → Bool} {s : State} (hm : Sub 26942329917904 k) (h : Keeps k s0 s) :
    Keeps k s0 (rinsePages f s) := by
  unfold rinsePages
  repeat' first
    | (with_reducible refine hm.of ?_); exact rfl
    | with_reducible assumption
    | intro _
    | (with_reducible first | refine keeps_forAll ?_ fun _ _ _ => ?_ | apply keeps_clearFlips | apply keeps_tierSettle | exact memZero_wf _ _ (by assumption))
    | (have x := (); extract_lets +onlyGivenNames x; refine keeps_cut k s0 x ?_ fun _ => ?_; rotate_left; clear_value x)
    | ((have x := (); extract_lets +onlyGivenNames x; first | (have u : Stores := x; clear u) | (have u : Mem := x; clear u) | (have u := fun a => x a; clear u)); dsimp -zeta only [x]; clear x)
    | (with_reducible first | apply Keeps.put_mTensor | apply Keeps.put_pages)

theorem keeps_rinseClusters {l : List Nat} {s : State} (hm : Sub 25797067984 k) (h : Keeps k s0 s) :
    Keeps k s0 (rinseClusters l s) := by
  unfold rinseClusters
  repeat' first
    | (with_reducible refine hm.of ?_); exact rfl
    | with_reducible assumption
    | (with_reducible first | refine keeps_forAll ?_ fun _ _ _ => ?_ | apply keeps_drainStore | apply keeps_setCluSt)

theorem keeps_jobSettle {tag : BitVec 12} {s : State} (hm : Sub 65552 k) (h : Keeps k s0 s) :
    Keeps k s0 (jobSettle tag s) := by
  unfold jobSettle
  repeat' first
    | (with_reducible refine hm.of ?_); exact rfl
    | with_reducible assumption
    | (with_reducible first | apply keeps_ite | apply keeps_bump | apply keeps_putJob)
    | (have x := (); extract_lets +onlyGivenNames x; clear_value x)
    | split

theorem keeps_writeKeySlot {tag : BitVec 12} {key : BitVec 512} {s : State} (hm : Sub 4398046511104 k) (h : Keeps k s0 s) :
    Keeps k s0 (writeKeySlot tag key s) := by
  unfold writeKeySlot
  repeat' first
    | (with_reducible refine hm.of ?_); exact rfl
    | with_reducible assumption
    | (with_reducible first | apply Keeps.put_bulkKeys)

theorem keeps_rinseFaults {tag : BitVec 12} {clus : List Nat} {all : Bool} {s : State} (hm : Sub 131088 k) (h : Keeps k s0 s) :
    Keeps k s0 (rinseFaults tag clus all s) := by
  unfold rinseFaults
  repeat' first
    | (with_reducible refine hm.of ?_); exact rfl
    | with_reducible assumption
    | (with_reducible first | apply keeps_ite | apply keeps_setReg)
    | (with_reducible first | apply Keeps.put_pour)

theorem keeps_quiesceEnd {tag : BitVec 12} {s : State} (hm : Sub 31366677485008 k) (h : Keeps k s0 s) :
    Keeps k s0 (quiesceEnd tag s) := by
  unfold quiesceEnd
  repeat' first
    | (with_reducible refine hm.of ?_); exact rfl
    | with_reducible assumption
    | (with_reducible first | apply keeps_ite | apply keeps_rinsePages | apply keeps_jobSettle | apply keeps_rinseFaults | apply keeps_hostRinse | apply keeps_writeKeySlot | apply keeps_putJob | apply keeps_rinseClusters)
    | (with_reducible first | apply Keeps.put_collIn)

theorem keeps_quiesceTimeout {tag : BitVec 12} {s : State} (hm : Sub 26942797468112 k) (h : Keeps k s0 s) :
    Keeps k s0 (quiesceTimeout tag s) := by
  unfold quiesceTimeout
  repeat' first
    | (with_reducible refine hm.of ?_); exact rfl
    | with_reducible assumption
    | (with_reducible first | apply keeps_ite | refine keeps_forAll ?_ fun _ _ _ => ?_ | apply keeps_raiseFault | apply keeps_quiesceJob | apply keeps_putJob | apply keeps_setCluSt)

theorem keeps_zeroCluster {k : Nat} {s0 : State} {c : Nat} {s : State} (hm : Sub 2190433320960 k) (h : Keeps k s0 s) :
    Keeps k s0 (zeroCluster c s) := by
  refine ⟨fun p e => ?_, fun e => ?_, h.regs, h.tiles, h.clus⟩
  · cases p <;> first | exact h.same _ e | exact absurd (hm.bit _ rfl) (by rw [e]; decide)
  · have hw := h.mem e
    have z : ∀ a n {m : Mem}, Memory.wf m = true → Memory.wf (zeroSpan a n m) = true := fun a n _ hm => memZero_wf a n hm
    simp only [Stores.wf, Bool.and_eq_true] at hw
    obtain ⟨⟨⟨⟨⟨⟨⟨⟨h1, h2⟩, h3⟩, h4⟩, h5⟩, h6⟩, h7⟩, h8⟩, h9⟩ := hw
    simp only [Stores.wf, zeroCluster, Bool.and_eq_true]
    exact ⟨⟨⟨⟨⟨⟨⟨⟨h1, z _ _ h2⟩, z _ _ h3⟩, z _ _ h4⟩, z _ _ h5⟩, z _ _ h6⟩, z _ _ h7⟩, z _ _ h8⟩, z _ _ h9⟩

theorem keeps_cleanCluster {c : Nat} {s : State} (hm : Sub 2190433321680 k) (h : Keeps k s0 s) :
    Keeps k s0 (cleanCluster c s) := by
  unfold cleanCluster
  repeat' first
    | (with_reducible refine hm.of ?_); exact rfl
    | with_reducible assumption
    | intro _
    | (with_reducible first | refine keeps_forAll ?_ fun _ _ _ => ?_ | apply keeps_zeroCluster | apply keeps_putClu | apply keeps_putTile | exact regsFilter_wf _ (by assumption))
    | (have x := (); extract_lets +onlyGivenNames x; refine keeps_cut k s0 x ?_ fun _ => ?_; rotate_left; clear_value x)
    | (have x := (); extract_lets +onlyGivenNames x; clear_value x)
    | (with_reducible first | apply Keeps.put_flying_regs | apply Keeps.put_flying | apply Keeps.put_regs)

theorem keeps_clusterRinsed {c : Nat} {s : State} (hm : Sub 2190433387216 k) (h : Keeps k s0 s) :
    Keeps k s0 (clusterRinsed c s) := by
  unfold clusterRinsed
  repeat' first
    | (with_reducible refine hm.of ?_); exact rfl
    | with_reducible assumption
    | (with_reducible first | apply keeps_ite | apply keeps_cleanCluster | apply keeps_jobSettle | apply keeps_putClu)
    | (have x := (); extract_lets +onlyGivenNames x; refine keeps_cut k s0 x ?_ fun _ => ?_; rotate_left; clear_value x)
    | (have x := (); extract_lets +onlyGivenNames x; clear_value x)
    | split

theorem keeps_bindRefuse {tag : BitVec 12} {attach : Bool} {code : Nat} {sub : Nat} {sec : Nat} {clus : List Nat} {mapped : List Nat} {s : State} (hm : Sub 26968131311056 k) (h : Keeps k s0 s) :
    Keeps k s0 (bindRefuse tag attach code sub sec clus mapped s) := by
  unfold bindRefuse
  repeat' first
    | (with_reducible refine hm.of ?_); exact rfl
    | with_reducible assumption
    | (with_reducible first | apply keeps_ite | apply keeps_rinsePages | apply keeps_raiseFault | apply keeps_jobSettle | apply keeps_stopQueues | apply keeps_putJob | apply keeps_rinseClusters)

theorem keeps_bindGo {tag : BitVec 12} {attach : Bool} {img : Nat} {m : List (Nat × Nat)} {skip : Nat} {had : List Nat} {s : State} (hm : Sub 97441130477048 k) (h : Keeps k s0 s) :
    Keeps k s0 (bindGo tag attach img m skip had s) := by
  unfold bindGo
  repeat' first
    | (with_reducible refine hm.of ?_); exact rfl
    | with_reducible assumption
    | (with_reducible first | apply keeps_ite | apply keeps_bump | apply keeps_bindApply | apply keeps_bindRefuse | apply keeps_readImage | apply keeps_putJob | refine keeps_ofOk (by assumption) ?_ | refine keeps_ofBad (by assumption) ?_ | refine keeps_ofWait (by assumption) ?_ | refine keeps_ofImOk (by assumption) ?_ | refine keeps_ofImBad (by assumption) ?_)
    | ((have x := (); extract_lets +onlyGivenNames x; first | (have u : Stores := x; clear u) | (have u : Mem := x; clear u) | (have u := fun a => x a; clear u)); dsimp -zeta only [x]; clear x)
    | (have x := (); extract_lets +onlyGivenNames x; clear_value x)
    | split

theorem keeps_bindStart {tag : BitVec 12} {attach : Bool} {s : State} (hm : Sub 97441130477048 k) (h : Keeps k s0 s) :
    Keeps k s0 (bindStart tag attach s) := by
  unfold bindStart
  repeat' first
    | (with_reducible refine hm.of ?_); exact rfl
    | with_reducible assumption
    | (with_reducible first | apply keeps_ite | apply keeps_bindGo | apply keeps_bindRefuse | apply keeps_putJob)

theorem keeps_bindRetry {tag : BitVec 12} {s : State} (hm : Sub 97441130477048 k) (h : Keeps k s0 s) :
    Keeps k s0 (bindRetry tag s) := by
  unfold bindRetry
  repeat' first
    | (with_reducible refine hm.of ?_); exact rfl
    | with_reducible assumption
    | (with_reducible first | apply keeps_ite | apply keeps_bindGo | apply keeps_bindRefuse)
    | (have x := (); extract_lets +onlyGivenNames x; clear_value x)
    | split

theorem keeps_bindRetries {s : State} (hm : Sub 97441130477048 k) (h : Keeps k s0 s) :
    Keeps k s0 (bindRetries s) := by
  unfold bindRetries
  repeat' first
    | (with_reducible refine hm.of ?_); exact rfl
    | with_reducible assumption
    | (with_reducible first | refine keeps_forAll ?_ fun _ _ _ => ?_ | apply keeps_bindRetry)

theorem keeps_frameRinsed {tag : BitVec 12} {frame : Nat} {s : State} (hm : Sub 97441130477048 k) (h : Keeps k s0 s) :
    Keeps k s0 (frameRinsed tag frame s) := by
  unfold frameRinsed
  repeat' first
    | (with_reducible refine hm.of ?_); exact rfl
    | with_reducible assumption
    | (with_reducible first | apply keeps_ite | apply keeps_tierSettle | apply keeps_jobSettle | apply keeps_putPage | apply keeps_bindRetries)
    | split

theorem keeps_jobIgnore {s : State} (hm : Sub 16 k) (h : Keeps k s0 s) :
    Keeps k s0 (jobIgnore s) := by
  unfold jobIgnore
  repeat' first
    | (with_reducible refine hm.of ?_); exact rfl
    | with_reducible assumption
    | with_reducible apply keeps_bump

theorem keeps_drbgDraw {n : Nat} {s : State} (hm : Sub 2147483648 k) (h : Keeps k s0 s) :
    Keeps k s0 ((drbgDraw n s).2) := by
  unfold drbgDraw
  repeat' first
    | (with_reducible refine hm.of ?_); exact rfl
    | with_reducible assumption
    | (have x := (); extract_lets +onlyGivenNames x; clear_value x)
    | (with_reducible first | apply Keeps.put_rot)

theorem keeps_stageJob {tag : BitVec 12} {s : State} (hm : Sub 4400194060288 k) (h : Keeps k s0 s) :
    Keeps k s0 (stageJob tag s) := by
  unfold stageJob
  repeat' first
    | (with_reducible refine hm.of ?_); exact rfl
    | with_reducible assumption
    | (with_reducible first | apply keeps_writeKeySlot | apply keeps_putJob | apply keeps_drbgDraw)

theorem keeps_jobCommand {op : Nat} {tag : BitVec 12} {s : State} (hm : Sub 101841727649272 k) (h : Keeps k s0 s) :
    Keeps k s0 (jobCommand op tag s) := by
  unfold jobCommand
  repeat' first
    | (with_reducible refine hm.of ?_); exact rfl
    | with_reducible assumption
    | (with_reducible first | apply keeps_ite | apply keeps_killJob | apply keeps_detachJob | apply keeps_stageJob | apply keeps_bindStart | apply keeps_jobSettle | apply keeps_jobIgnore)
    | split

theorem keeps_killAll {s : State} (hm : Sub 9350611423696 k) (h : Keeps k s0 s) :
    Keeps k s0 (killAll s) := by
  unfold killAll
  repeat' first
    | (with_reducible refine hm.of ?_); exact rfl
    | with_reducible assumption
    | (with_reducible first | refine keeps_forAll ?_ fun _ _ _ => ?_ | apply keeps_killJob)
    | (have x := (); extract_lets +onlyGivenNames x; clear_value x)
    | split

theorem keeps_jbCmd {v : Word} {s : State} (hm : Sub 101841727649272 k) (h : Keeps k s0 s) :
    Keeps k s0 (jbCmd v s) := by
  unfold jbCmd
  repeat' first
    | (with_reducible refine hm.of ?_); exact rfl
    | with_reducible assumption
    | with_reducible apply keeps_jobCommand

theorem keeps_execStage {tag : BitVec 12} {s : State} (hm : Sub 101841727649272 k) (h : Keeps k s0 s) :
    KeepsR k s0 (execStage tag s) := by
  unfold execStage
  repeat' first
    | (with_reducible refine hm.of ?_); exact rfl
    | with_reducible assumption
    | (with_reducible first | apply keepsR_next | apply keeps_jobCommand)

theorem keeps_execBind {tag : BitVec 12} {s : State} (hm : Sub 101841727649272 k) (h : Keeps k s0 s) :
    KeepsR k s0 (execBind tag s) := by
  unfold execBind
  repeat' first
    | (with_reducible refine hm.of ?_); exact rfl
    | with_reducible assumption
    | (with_reducible first | apply keepsR_next | apply keeps_jobCommand)

theorem keeps_execAttach {tag : BitVec 12} {s : State} (hm : Sub 101841727649272 k) (h : Keeps k s0 s) :
    KeepsR k s0 (execAttach tag s) := by
  unfold execAttach
  repeat' first
    | (with_reducible refine hm.of ?_); exact rfl
    | with_reducible assumption
    | (with_reducible first | apply keepsR_next | apply keeps_jobCommand)

theorem keeps_execDetach {tag : BitVec 12} {s : State} (hm : Sub 101841727649272 k) (h : Keeps k s0 s) :
    KeepsR k s0 (execDetach tag s) := by
  unfold execDetach
  repeat' first
    | (with_reducible refine hm.of ?_); exact rfl
    | with_reducible assumption
    | (with_reducible first | apply keepsR_next | apply keeps_jobCommand)

theorem keeps_execKill {tag : BitVec 12} {s : State} (hm : Sub 101841727649272 k) (h : Keeps k s0 s) :
    KeepsR k s0 (execKill tag s) := by
  unfold execKill
  repeat' first
    | (with_reducible refine hm.of ?_); exact rfl
    | with_reducible assumption
    | (with_reducible first | apply keepsR_next | apply keeps_jobCommand)

theorem keeps_execQuiesceEnd {tag : BitVec 12} {s : State} (hm : Sub 31366677485008 k) (h : Keeps k s0 s) :
    KeepsR k s0 (execQuiesceEnd tag s) := by
  unfold execQuiesceEnd
  repeat' first
    | (with_reducible refine hm.of ?_); exact rfl
    | with_reducible assumption
    | (with_reducible first | apply keepsR_next | apply keeps_quiesceEnd)

theorem keeps_execQuiesceTmo {tag : BitVec 12} {s : State} (hm : Sub 26942797468112 k) (h : Keeps k s0 s) :
    KeepsR k s0 (execQuiesceTmo tag s) := by
  unfold execQuiesceTmo
  repeat' first
    | (with_reducible refine hm.of ?_); exact rfl
    | with_reducible assumption
    | (with_reducible first | apply keepsR_next | apply keeps_quiesceTimeout)

theorem keeps_execClusterRinseDone {c : Nat} {s : State} (hm : Sub 2190433387216 k) (h : Keeps k s0 s) :
    KeepsR k s0 (execClusterRinseDone c s) := by
  unfold execClusterRinseDone
  repeat' first
    | (with_reducible refine hm.of ?_); exact rfl
    | with_reducible assumption
    | intro _
    | (with_reducible first | apply keeps_onCluster | apply keeps_clusterRinsed)

theorem keeps_execFrameRinseDone {tag : BitVec 12} {frame : Nat} {s : State} (hm : Sub 97441130477048 k) (h : Keeps k s0 s) :
    KeepsR k s0 (execFrameRinseDone tag frame s) := by
  unfold execFrameRinseDone
  repeat' first
    | (with_reducible refine hm.of ?_); exact rfl
    | with_reducible assumption
    | (with_reducible first | apply keepsR_next | apply keeps_frameRinsed)

end Sys2Proof.Machine
end

