-- ==== Sys2Proof/Laws/KeepsIntegrity.lean ====
section
/-! SUPPORT. What the operations of Machine/Integrity.lean keep. -/

namespace Sys2Proof.Machine

variable {k : Nat} {s0 : State}

theorem keeps_deviceAlarm {page : Nat} {code : Nat} {s : State} (hm : Sub 18141941924304 k) (h : Keeps k s0 s) :
    Keeps k s0 (deviceAlarm page code s) := by
  unfold deviceAlarm
  repeat' first
    | (with_reducible refine hm.of ?_); exact rfl
    | with_reducible assumption
    | (with_reducible first | apply keeps_raiseFault | apply keeps_alarm)

theorem keeps_bridgeDown {b : Nat} {d : Nat} {s : State} (hm : Sub 97414723534296 k) (h : Keeps k s0 s) :
    Keeps k s0 (bridgeDown b d s) := by
  unfold bridgeDown
  repeat' first
    | (with_reducible refine hm.of ?_); exact rfl
    | with_reducible assumption
    | (with_reducible first | apply keeps_ite | refine keeps_forAll ?_ fun _ _ _ => ?_ | apply keeps_collInterrupt | apply keeps_putBridge | apply keeps_txCut | apply keeps_deviceAlarm)

theorem keeps_putLink {s : State} {d : BridgeDir} {l : BridgeLink} (hm : Sub 536870912 k) (h : Keeps k s0 s) :
    Keeps k s0 (putLink s d l) := by
  unfold putLink
  repeat' first
    | (with_reducible refine hm.of ?_); exact rfl
    | with_reducible assumption
    | with_reducible apply keeps_putBridge

theorem keeps_bridgeWord {v : BridgeDir} {crcOk : Bool} {word : Nat} {s : State} (hm : Sub 97414723534296 k) (h : Keeps k s0 s) :
    Keeps k s0 (bridgeWord v crcOk word s) := by
  unfold bridgeWord
  repeat' first
    | (with_reducible refine hm.of ?_); exact rfl
    | with_reducible assumption
    | (with_reducible first | apply keeps_ite | apply keeps_bridgeDown | apply keeps_putLink | apply keeps_takeArmed)
    | (have x := (); extract_lets +onlyGivenNames x; refine keeps_cut k s0 x ?_ fun _ => ?_; rotate_left; clear_value x)
    | (have x := (); extract_lets +onlyGivenNames x; clear_value x)
    | split

theorem keeps_bridgeTrained {b : Nat} {passed : Bool} {s : State} (hm : Sub 536870912 k) (h : Keeps k s0 s) :
    Keeps k s0 (bridgeTrained b passed s) := by
  unfold bridgeTrained
  repeat' first
    | (with_reducible refine hm.of ?_); exact rfl
    | with_reducible assumption
    | (with_reducible first | apply keeps_ite | apply keeps_putBridge)

theorem keeps_onBridge {b : Nat} {s : State} {f : State → State} (hm : Sub 0 k) (h : Keeps k s0 s) (hf : ∀ (y0 : State), Keeps k s0 y0 → Keeps k s0 (f y0)) :
    KeepsR k s0 (onBridge b s f) := by
  unfold onBridge
  repeat' first
    | (with_reducible refine hm.of ?_); exact rfl
    | with_reducible assumption
    | with_reducible apply keeps_onUnit

theorem keeps_baristaMismatch {c : Nat} {s : State} (hm : Sub 18141941924304 k) (h : Keeps k s0 s) :
    Keeps k s0 (baristaMismatch c s) := by
  unfold baristaMismatch
  repeat' first
    | (with_reducible refine hm.of ?_); exact rfl
    | with_reducible assumption
    | (with_reducible first | apply keeps_stopCluster | apply keeps_putClu | apply keeps_resAlarm)

theorem keeps_mgmtFails {code : Nat} {s : State} (hm : Sub 18143015666128 k) (h : Keeps k s0 s) :
    Keeps k s0 (mgmtFails code s) := by
  unfold mgmtFails
  repeat' first
    | (with_reducible refine hm.of ?_); exact rfl
    | with_reducible assumption
    | (with_reducible first | apply keeps_deviceAlarm | apply keeps_clearReady)
    | (have x := (); extract_lets +onlyGivenNames x; refine keeps_cut k s0 x ?_ fun _ => ?_; rotate_left; clear_value x)
    | (have x := (); extract_lets +onlyGivenNames x; clear_value x)
    | (with_reducible first | apply Keeps.put_power)

theorem keeps_mgmtMismatch {s : State} (hm : Sub 18143015666128 k) (h : Keeps k s0 s) :
    Keeps k s0 (mgmtMismatch s) := by
  unfold mgmtMismatch
  repeat' first
    | (with_reducible refine hm.of ?_); exact rfl
    | with_reducible assumption
    | with_reducible apply keeps_mgmtFails

theorem keeps_barFault {c : Nat} {store : Bool} {s : State} (hm : Sub 128 k) (h : Keeps k s0 s) :
    Keeps k s0 (barFault c store s) := by
  unfold barFault
  repeat' first
    | (with_reducible refine hm.of ?_); exact rfl
    | with_reducible assumption
    | with_reducible apply keeps_putClu

theorem keeps_baristaSramError {c : Nat} {s : State} (hm : Sub 18141941924304 k) (h : Keeps k s0 s) :
    Keeps k s0 (baristaSramError c s) := by
  unfold baristaSramError
  repeat' first
    | (with_reducible refine hm.of ?_); exact rfl
    | with_reducible assumption
    | (with_reducible first | apply keeps_ite | apply keeps_stopCluster | apply keeps_barFault | apply keeps_resAlarm)

theorem keeps_sliceNext {t : Nat} {s : State} (hm : Sub 80 k) (h : Keeps k s0 s) :
    Keeps k s0 (sliceNext t s) := by
  unfold sliceNext
  repeat' first
    | (with_reducible refine hm.of ?_); exact rfl
    | with_reducible assumption
    | (with_reducible first | apply keeps_ite | apply keeps_bump | apply keeps_putTile)

theorem keeps_sliceFault {t : Nat} {code : Nat} {s : State} (hm : Sub 18141941924304 k) (h : Keeps k s0 s) :
    Keeps k s0 (sliceFault t code s) := by
  unfold sliceFault
  repeat' first
    | (with_reducible refine hm.of ?_); exact rfl
    | with_reducible assumption
    | (with_reducible first | apply keeps_recordFirst | apply keeps_resAlarm)

theorem keeps_sliceStarve {t : Nat} {s : State} (hm : Sub 18141941924304 k) (h : Keeps k s0 s) :
    Keeps k s0 (sliceStarve t s) := by
  unfold sliceStarve
  repeat' first
    | (with_reducible refine hm.of ?_); exact rfl
    | with_reducible assumption
    | (with_reducible first | apply keeps_bump | apply keeps_sliceFault)

theorem keeps_sliceRun {t : Nat} {differs : Bool} {s : State} (hm : Sub 18141941957072 k) (h : Keeps k s0 s) :
    Keeps k s0 (sliceRun t differs s) := by
  unfold sliceRun
  repeat' first
    | (with_reducible refine hm.of ?_); exact rfl
    | with_reducible assumption
    | (with_reducible first | apply keeps_ite | apply keeps_sliceFault | apply keeps_sliceNext | apply keeps_takeArmed | apply keeps_putTile | apply keeps_sliceStarve | refine keeps_of (by assumption) ?_)
    | split

theorem keeps_monRaise {code : Nat} {page : Nat} {found : Bool} {count : State → State} {s : State} (hm : Sub 18141941957072 k) (h : Keeps k s0 s) (hcount : ∀ (y0 : State), Keeps k s0 y0 → Keeps k s0 (count y0)) :
    Keeps k s0 (monRaise code page found count s) := by
  unfold monRaise
  repeat' first
    | (with_reducible refine hm.of ?_); exact rfl
    | with_reducible assumption
    | (with_reducible first | apply keeps_ite | apply keeps_takeArmed | apply keeps_deviceAlarm | apply hcount)

theorem keeps_clockWindow {k' : Nat} {count : Nat} {s : State} (hm : Sub 18141941957072 k) (h : Keeps k s0 s) :
    Keeps k s0 (clockWindow k' count s) := by
  unfold clockWindow
  repeat' first
    | (with_reducible refine hm.of ?_); exact rfl
    | with_reducible assumption
    | intro _
    | (with_reducible first | apply keeps_ite | apply keeps_monRaise | apply keeps_bump)

theorem keeps_voltWindow {page : Nat} {deviation : Int} {s : State} (hm : Sub 18141941957072 k) (h : Keeps k s0 s) :
    Keeps k s0 (voltWindow page deviation s) := by
  unfold voltWindow
  repeat' first
    | (with_reducible refine hm.of ?_); exact rfl
    | with_reducible assumption
    | intro _
    | (with_reducible first | apply keeps_monRaise | apply keeps_bump)

theorem keeps_arm {page : Nat} {code : Nat} {s : State} (hm : Sub 32768 k) (h : Keeps k s0 s) :
    Keeps k s0 (arm page code s) := by
  unfold arm
  repeat' first
    | (with_reducible refine hm.of ?_); exact rfl
    | with_reducible assumption
    | with_reducible apply keeps_ite
    | (with_reducible first | apply Keeps.put_armed)

theorem keeps_injectEffect {p : PageType} {i : Nat} {base : Nat} {code : Nat} {s : State} (hm : Sub 18143015698896 k) (h : Keeps k s0 s) :
    Keeps k s0 (injectEffect p i base code s) := by
  unfold injectEffect
  repeat' first
    | (with_reducible refine hm.of ?_); exact rfl
    | with_reducible assumption
    | (with_reducible first | apply keeps_baristaMismatch | apply keeps_mgmtMismatch | apply keeps_putClu | apply keeps_arm | apply keeps_deviceAlarm | apply keeps_putTile)
    | (have x := (); extract_lets +onlyGivenNames x; clear_value x)
    | split

theorem keeps_errInject {p : PageType} {i : Nat} {base : Nat} {v : Word} {s : State} (hm : Sub 18143015698896 k) (h : Keeps k s0 s) :
    Keeps k s0 (errInject p i base v s) := by
  unfold errInject
  repeat' first
    | (with_reducible refine hm.of ?_); exact rfl
    | with_reducible assumption
    | (with_reducible first | apply keeps_ite | apply keeps_injectEffect | apply keeps_raiseFault)

theorem keeps_execBridgeWordReceive {v : BridgeDir} {crcOk : Bool} {word : Nat} {s : State} (hm : Sub 97414723534296 k) (h : Keeps k s0 s) :
    KeepsR k s0 (execBridgeWordReceive v crcOk word s) := by
  unfold execBridgeWordReceive
  repeat' first
    | (with_reducible refine hm.of ?_); exact rfl
    | with_reducible assumption
    | intro _
    | (with_reducible first | apply keeps_onBridge | apply keeps_bridgeWord)

theorem keeps_execBridgeFail {bridge : Nat} {s : State} (hm : Sub 97414723534296 k) (h : Keeps k s0 s) :
    KeepsR k s0 (execBridgeFail bridge s) := by
  unfold execBridgeFail
  repeat' first
    | (with_reducible refine hm.of ?_); exact rfl
    | with_reducible assumption
    | intro _
    | (with_reducible first | apply keeps_onBridge | apply keeps_bridgeDown)

theorem keeps_execBridgeRetrain {bridge : Nat} {passed : Bool} {s : State} (hm : Sub 536870912 k) (h : Keeps k s0 s) :
    KeepsR k s0 (execBridgeRetrain bridge passed s) := by
  unfold execBridgeRetrain
  repeat' first
    | (with_reducible refine hm.of ?_); exact rfl
    | with_reducible assumption
    | intro _
    | (with_reducible first | apply keeps_onBridge | apply keeps_bridgeTrained)

theorem keeps_execLockstepMismatch {pair : LockPair} {s : State} (hm : Sub 18143015666128 k) (h : Keeps k s0 s) :
    KeepsR k s0 (execLockstepMismatch pair s) := by
  unfold execLockstepMismatch
  repeat' first
    | (with_reducible refine hm.of ?_); exact rfl
    | with_reducible assumption
    | intro _
    | (with_reducible first | apply keepsR_next | apply keeps_baristaSramError | apply keeps_onCluster | apply keeps_mgmtFails | apply keeps_baristaMismatch | apply keeps_mgmtMismatch | apply keeps_deviceAlarm)
    | split

theorem keeps_execSelftestSlice {t : Nat} {differs : Bool} {s : State} (hm : Sub 18141941957072 k) (h : Keeps k s0 s) :
    KeepsR k s0 (execSelftestSlice t differs s) := by
  unfold execSelftestSlice
  repeat' first
    | (with_reducible refine hm.of ?_); exact rfl
    | with_reducible assumption
    | intro _
    | (with_reducible first | apply keeps_onTile | apply keeps_sliceRun)

theorem keeps_execSelftestStarve {t : Nat} {s : State} (hm : Sub 18141941924304 k) (h : Keeps k s0 s) :
    KeepsR k s0 (execSelftestStarve t s) := by
  unfold execSelftestStarve
  repeat' first
    | (with_reducible refine hm.of ?_); exact rfl
    | with_reducible assumption
    | intro _
    | (with_reducible first | apply keeps_onTile | apply keeps_sliceStarve)

theorem keeps_execVoltMon {page : BitVec 14} {deviation : Int} {s : State} (hm : Sub 18141941957072 k) (h : Keeps k s0 s) :
    KeepsR k s0 (execVoltMon page deviation s) := by
  unfold execVoltMon
  repeat' first
    | (with_reducible refine hm.of ?_); exact rfl
    | with_reducible assumption
    | (with_reducible first | apply keepsR_next | apply keeps_voltWindow)
    | split

theorem keeps_execClockMon {domain : Nat} {count : Nat} {s : State} (hm : Sub 18141941957072 k) (h : Keeps k s0 s) :
    KeepsR k s0 (execClockMon domain count s) := by
  unfold execClockMon
  repeat' first
    | (with_reducible refine hm.of ?_); exact rfl
    | with_reducible assumption
    | intro _
    | (with_reducible first | apply keeps_clockWindow | apply keeps_onUnit)

end Sys2Proof.Machine
end

