-- ==== Sys2Proof/Laws/KeepsSecurity.lean ====
section
/-! SUPPORT. What the operations of Machine/Security.lean keep. -/

namespace Sys2Proof.Machine

variable {k : Nat} {s0 : State}

theorem keeps_mramWrite {i : Nat} {d : List Byte} {s : State} (hm : Sub 2147483648 k) (h : Keeps k s0 s) :
    Keeps k s0 (mramWrite i d s) := by
  unfold mramWrite
  repeat' first
    | (with_reducible refine hm.of ?_); exact rfl
    | with_reducible assumption
    | (have x := (); extract_lets +onlyGivenNames x; clear_value x)
    | (with_reducible first | apply Keeps.put_rot)

theorem keeps_mramRead {f : State → State} {i : Nat} {s : State} (hm : Sub 0 k) (h : Keeps k s0 s) (hf : ∀ (y0 : State), Keeps k s0 y0 → Keeps k s0 (f y0)) :
    Keeps k s0 (mramRead f i s) := by
  unfold mramRead
  repeat' first
    | with_reducible assumption
    | (with_reducible first | apply keeps_ite | apply hf)

theorem keeps_extendPcr {i : Nat} {d : List Byte} {s : State} (hm : Sub 2147483648 k) (h : Keeps k s0 s) :
    Keeps k s0 (extendPcr i d s) := by
  unfold extendPcr
  repeat' first
    | (with_reducible refine hm.of ?_); exact rfl
    | with_reducible assumption
    | (have x := (); extract_lets +onlyGivenNames x; clear_value x)
    | (with_reducible first | apply Keeps.put_rot)

theorem keeps_logAlarm {e' : Nat} {level : Nat} {inj : Bool} {s : State} (hm : Sub 2147483648 k) (h : Keeps k s0 s) :
    Keeps k s0 (logAlarm e' level inj s) := by
  unfold logAlarm
  repeat' first
    | (with_reducible refine hm.of ?_); exact rfl
    | with_reducible assumption
    | with_reducible apply keeps_mramWrite

theorem keeps_logRaise {e' : Nat} {level : Nat} {s : State} (hm : Sub 2147483648 k) (h : Keeps k s0 s) :
    Keeps k s0 (logRaise e' level s) := by
  unfold logRaise
  repeat' first
    | (with_reducible refine hm.of ?_); exact rfl
    | with_reducible assumption
    | (with_reducible first | apply keeps_ite | apply keeps_mramWrite)
    | (have x := (); extract_lets +onlyGivenNames x; clear_value x)
    | split

theorem keeps_levelTwo {code : Nat} {s : State} (hm : Sub 549755879888 k) (h : Keeps k s0 s) :
    Keeps k s0 (levelTwo code s) := by
  unfold levelTwo
  repeat' first
    | (with_reducible refine hm.of ?_); exact rfl
    | with_reducible assumption
    | (with_reducible first | refine keeps_forAll ?_ fun _ _ _ => ?_ | apply keeps_stopCluster | apply keeps_alarm)

theorem keeps_eraseSecrets {s : State} (hm : Sub 4400194060304 k) (h : Keeps k s0 s) :
    Keeps k s0 (eraseSecrets s) := by
  unfold eraseSecrets
  repeat' first
    | (with_reducible refine hm.of ?_); exact rfl
    | with_reducible assumption
    | with_reducible apply keeps_setReg
    | (have x := (); extract_lets +onlyGivenNames x; refine keeps_cut k s0 x ?_ fun _ => ?_; rotate_left; clear_value x)
    | (have x := (); extract_lets +onlyGivenNames x; clear_value x)
    | (with_reducible first | apply Keeps.put_bulkKeys_jobs_rot | apply Keeps.put_bulkKeys | apply Keeps.put_jobs | apply Keeps.put_rot)

theorem keeps_mbxDone {host : Bool} {code : Nat} {sub : Nat} {out : List Byte} {s : State} (hm : Sub 18141941924304 k) (h : Keeps k s0 s) :
    Keeps k s0 (mbxDone host code sub out s) := by
  unfold mbxDone
  repeat' first
    | (with_reducible refine hm.of ?_); exact rfl
    | with_reducible assumption
    | (with_reducible first | apply keeps_ite | refine keeps_forAll ?_ fun _ _ _ => ?_ | apply keeps_setReg | apply keeps_bump | apply keeps_raiseFault)

theorem keeps_abortUnlock {s : State} (hm : Sub 18144089407952 k) (h : Keeps k s0 s) :
    Keeps k s0 (abortUnlock s) := by
  unfold abortUnlock
  repeat' first
    | (with_reducible refine hm.of ?_); exact rfl
    | with_reducible assumption
    | (with_reducible first | apply keeps_ite | apply keeps_mbxDone)
    | (have x := (); extract_lets +onlyGivenNames x; clear_value x)
    | (with_reducible first | apply Keeps.put_rot)

theorem keeps_levelThree {e' : Nat} {s : State} (hm : Sub 31342991462864 k) (h : Keeps k s0 s) :
    Keeps k s0 (levelThree e' s) := by
  unfold levelThree
  repeat' first
    | (with_reducible refine hm.of ?_); exact rfl
    | with_reducible assumption
    | (with_reducible first | apply keeps_eraseSecrets | apply keeps_abortUnlock | apply keeps_extendPcr | apply keeps_killAll)

theorem keeps_levelActs {e' : Nat} {level : Nat} {s : State} (hm : Sub 31342991462864 k) (h : Keeps k s0 s) :
    Keeps k s0 (levelActs e' level s) := by
  unfold levelActs
  repeat' first
    | (with_reducible refine hm.of ?_); exact rfl
    | with_reducible assumption
    | (with_reducible first | apply keeps_ite | apply keeps_levelThree | apply keeps_levelTwo)
    | (have x := (); extract_lets +onlyGivenNames x; refine keeps_cut k s0 x ?_ fun _ => ?_; rotate_left; clear_value x)
    | (have x := (); extract_lets +onlyGivenNames x; clear_value x)
    | split
    | (with_reducible first | apply Keeps.put_rot)

theorem keeps_secRaise {e' : Nat} {inj : Bool} {s : State} (hm : Sub 31342991462864 k) (h : Keeps k s0 s) :
    Keeps k s0 (secRaise e' inj s) := by
  unfold secRaise
  repeat' first
    | (with_reducible refine hm.of ?_); exact rfl
    | with_reducible assumption
    | (with_reducible first | apply keeps_ite | apply keeps_bump | apply keeps_raiseFault | apply keeps_logAlarm | apply keeps_setBit | apply keeps_logRaise | apply keeps_levelActs)
    | (have x := (); extract_lets +onlyGivenNames x; clear_value x)
    | (with_reducible first | apply Keeps.put_rot)

theorem keeps_secEvent {e' : Nat} {inj : Bool} {s : State} (hm : Sub 31342991462864 k) (h : Keeps k s0 s) :
    Keeps k s0 (secEvent e' inj s) := by
  unfold secEvent
  repeat' first
    | (with_reducible refine hm.of ?_); exact rfl
    | with_reducible assumption
    | (with_reducible first | apply keeps_ite | apply keeps_secRaise)

theorem keeps_fwVerify {slot : Nat} {target : Nat} {s : State} (hm : Sub 31342991462864 k) (h : Keeps k s0 s) :
    Keeps k s0 ((fwVerify slot target s).2) := by
  unfold fwVerify
  repeat' first
    | (with_reducible refine hm.of ?_); exact rfl
    | with_reducible assumption
    | intro _
    | (with_reducible first | apply keeps_mramRead | apply keeps_secEvent)
    | (have x := (); extract_lets +onlyGivenNames x; refine keeps_cut k s0 x ?_ fun _ => ?_; rotate_left; clear_value x)
    | ((have x := (); extract_lets +onlyGivenNames x; first | (have u : Stores := x; clear u) | (have u : Mem := x; clear u) | (have u := fun a => x a; clear u)); dsimp -zeta only [x]; clear x)
    | (have x := (); extract_lets +onlyGivenNames x; clear_value x)
    | split
    | (with_reducible first | apply Keeps.put_rot)

theorem keeps_formAlias {s : State} (hm : Sub 2147483648 k) (h : Keeps k s0 s) :
    Keeps k s0 (formAlias s) := by
  unfold formAlias
  repeat' first
    | (with_reducible refine hm.of ?_); exact rfl
    | with_reducible assumption
    | with_reducible apply keeps_drbgDraw
    | (have x := (); extract_lets +onlyGivenNames x; refine keeps_cut k s0 x ?_ fun _ => ?_; rotate_left; clear_value x)
    | (have x := (); extract_lets +onlyGivenNames x; refine keeps_cut2 k s0 x ?_ fun _ => ?_; rotate_left; clear_value x)
    | (have x := (); extract_lets +onlyGivenNames x; clear_value x)
    | (with_reducible first | apply Keeps.put_rot)

theorem keeps_mgmtVerify {s : State} (hm : Sub 31342991462864 k) (h : Keeps k s0 s) :
    Keeps k s0 ((mgmtVerify s).2) := by
  unfold mgmtVerify
  repeat' first
    | (with_reducible refine hm.of ?_); exact rfl
    | with_reducible assumption
    | (with_reducible first | apply keeps_fwVerify | apply keeps_extendPcr)
    | (have x := (); extract_lets +onlyGivenNames x; refine keeps_cut2 k s0 x ?_ fun _ => ?_; rotate_left; clear_value x)
    | split

theorem keeps_rotVerify {s : State} (hm : Sub 31342991462864 k) (h : Keeps k s0 s) :
    Keeps k s0 ((rotVerify s).2) := by
  unfold rotVerify
  repeat' first
    | (with_reducible refine hm.of ?_); exact rfl
    | with_reducible assumption
    | (with_reducible first | apply keeps_fwVerify | refine keeps_of (by assumption) ?_)
    | (have x := (); extract_lets +onlyGivenNames x; clear_value x)
    | split
    | (with_reducible first | apply Keeps.put_rot)

theorem keeps_rotBoot {s : State} (hm : Sub 31342991462864 k) (h : Keeps k s0 s) :
    Keeps k s0 ((rotBoot s).2) := by
  unfold rotBoot
  repeat' first
    | (with_reducible refine hm.of ?_); exact rfl
    | with_reducible assumption
    | intro _
    | (with_reducible first | apply keeps_ite | apply keeps_mramRead | apply keeps_mramWrite | apply keeps_setRegF | apply keeps_secEvent | apply keeps_extendPcr | apply keeps_rotVerify | apply keeps_mgmtVerify | apply keeps_formAlias | refine keeps_of (by assumption) ?_)
    | (have x := (); extract_lets +onlyGivenNames x; refine keeps_cut k s0 x ?_ fun _ => ?_; rotate_left; clear_value x)
    | (have x := (); extract_lets +onlyGivenNames x; clear_value x)
    | split
    | (with_reducible first | apply Keeps.put_rot)

theorem keeps_dropNonce {s : State} (hm : Sub 2147483648 k) (h : Keeps k s0 s) :
    Keeps k s0 (dropNonce s) := by
  unfold dropNonce
  repeat' first
    | (with_reducible refine hm.of ?_); exact rfl
    | with_reducible assumption
    | (have x := (); extract_lets +onlyGivenNames x; clear_value x)
    | (with_reducible first | apply Keeps.put_rot)

theorem keeps_quorumFail {host : Bool} {s : State} (hm : Sub 31342991462864 k) (h : Keeps k s0 s) :
    Keeps k s0 (quorumFail host s) := by
  unfold quorumFail
  repeat' first
    | (with_reducible refine hm.of ?_); exact rfl
    | with_reducible assumption
    | (with_reducible first | apply keeps_mbxDone | apply keeps_secEvent | apply keeps_dropNonce)

theorem keeps_withQuorum {host : Bool} {op : Nat} {n : Nat} {input : List Byte} {s : State} {f : State → State} (hm : Sub 31342991462864 k) (h : Keeps k s0 s) (hf : ∀ (y0 : State), Keeps k s0 y0 → Keeps k s0 (f y0)) :
    Keeps k s0 (withQuorum host op n input s f) := by
  unfold withQuorum
  repeat' first
    | (with_reducible refine hm.of ?_); exact rfl
    | with_reducible assumption
    | (with_reducible first | apply keeps_ite | apply keeps_quorumFail | apply keeps_dropNonce | apply hf)

theorem keeps_policyInstall {s : State} (hm : Sub 18144525636048 k) (h : Keeps k s0 s) :
    Keeps k s0 (policyInstall s) := by
  unfold policyInstall
  repeat' first
    | (with_reducible refine hm.of ?_); exact rfl
    | with_reducible assumption
    | (with_reducible first | apply keeps_ite | refine keeps_forAll ?_ fun _ _ _ => ?_ | apply keeps_ctlBringUp | apply keeps_putHp | apply keeps_ctlReset | apply keeps_mramWrite | apply keeps_mbxDone | apply keeps_extendPcr)
    | (have x := (); extract_lets +onlyGivenNames x; refine keeps_cut k s0 x ?_ fun _ => ?_; rotate_left; clear_value x)
    | (have x := (); extract_lets +onlyGivenNames x; clear_value x)
    | split
    | (with_reducible first | apply Keeps.put_rot)

theorem keeps_unlockGo {k : Nat} {s0 s : State} (hm : Sub 32983668969936 k) (h : Keeps k s0 s) : Keeps k s0 (unlockGo s) := by
  unfold unlockGo
  split
  · exact h
  · extract_lets s1 s2 m3 s3 r4 s4 s5 r6 s6
    have h3 : Keeps k s0 s3 := Keeps.put_mTensor (hm.of rfl)
      (keeps_forAll (keeps_eraseSecrets (hm.of rfl) h) fun _ _ a => keeps_zeroCluster (hm.of rfl) a) fun _ => wf_nil
    have h4 : Keeps k s0 s4 := keeps_extendPcr (hm.of rfl) (Keeps.put_rot (hm.of rfl) h3)
    have h5 : Keeps k s0 s5 := keeps_ite (keeps_formAlias (hm.of rfl) h4) h4
    exact keeps_secEvent (hm.of rfl) (keeps_mbxDone (hm.of rfl) (Keeps.put_rot (hm.of rfl) h5))

theorem keeps_mbxRefuse {host : Bool} {sub : Nat} {s : State} (hm : Sub 18141941924304 k) (h : Keeps k s0 s) :
    Keeps k s0 (mbxRefuse host sub s) := by
  unfold mbxRefuse
  repeat' first
    | (with_reducible refine hm.of ?_); exact rfl
    | with_reducible assumption
    | with_reducible apply keeps_mbxDone

theorem keeps_mbxBusy {host : Bool} {s : State} (hm : Sub 16 k) (h : Keeps k s0 s) :
    Keeps k s0 (mbxBusy host s) := by
  unfold mbxBusy
  repeat' first
    | (with_reducible refine hm.of ?_); exact rfl
    | with_reducible assumption
    | with_reducible apply keeps_setReg

theorem keeps_mbxNonce {host : Bool} {s : State} (hm : Sub 18144089407952 k) (h : Keeps k s0 s) :
    Keeps k s0 (mbxNonce host s) := by
  unfold mbxNonce
  repeat' first
    | (with_reducible refine hm.of ?_); exact rfl
    | with_reducible assumption
    | (with_reducible first | apply keeps_mbxDone | apply keeps_drbgDraw)
    | (have x := (); extract_lets +onlyGivenNames x; refine keeps_cut k s0 x ?_ fun _ => ?_; rotate_left; clear_value x)
    | (have x := (); extract_lets +onlyGivenNames x; clear_value x)
    | (with_reducible first | apply Keeps.put_rot)

theorem keeps_mbxCert {host : Bool} {b : List Byte} {s : State} (hm : Sub 31342991462864 k) (h : Keeps k s0 s) :
    Keeps k s0 (mbxCert host b s) := by
  unfold mbxCert
  repeat' first
    | (with_reducible refine hm.of ?_); exact rfl
    | with_reducible assumption
    | intro _
    | (with_reducible first | apply keeps_ite | apply keeps_mbxRefuse | apply keeps_mramRead | apply keeps_mbxDone | apply keeps_secEvent)
    | (have x := (); extract_lets +onlyGivenNames x; refine keeps_cut k s0 x ?_ fun _ => ?_; rotate_left; clear_value x)
    | split

theorem keeps_mbxQuote {host : Bool} {b : List Byte} {s : State} (hm : Sub 18141941924304 k) (h : Keeps k s0 s) :
    Keeps k s0 (mbxQuote host b s) := by
  unfold mbxQuote
  repeat' first
    | (with_reducible refine hm.of ?_); exact rfl
    | with_reducible assumption
    | (with_reducible first | apply keeps_mbxRefuse | apply keeps_mbxDone)
    | split

theorem keeps_mbxExtend {host : Bool} {b : List Byte} {s : State} (hm : Sub 18144089407952 k) (h : Keeps k s0 s) :
    Keeps k s0 (mbxExtend host b s) := by
  unfold mbxExtend
  repeat' first
    | (with_reducible refine hm.of ?_); exact rfl
    | with_reducible assumption
    | (with_reducible first | apply keeps_ite | apply keeps_mbxRefuse | apply keeps_mbxDone | apply keeps_extendPcr)

theorem keeps_mbxCommit {host : Bool} {s : State} (hm : Sub 31342991462864 k) (h : Keeps k s0 s) :
    Keeps k s0 (mbxCommit host s) := by
  unfold mbxCommit
  repeat' first
    | (with_reducible refine hm.of ?_); exact rfl
    | with_reducible assumption
    | intro _
    | (with_reducible first | apply keeps_ite | apply keeps_mbxRefuse | apply keeps_mramRead | apply keeps_mramWrite | apply keeps_mbxDone | apply keeps_secEvent)

theorem keeps_mbxLog {host : Bool} {s : State} (hm : Sub 31342991462864 k) (h : Keeps k s0 s) :
    Keeps k s0 (mbxLog host s) := by
  unfold mbxLog
  repeat' first
    | (with_reducible refine hm.of ?_); exact rfl
    | with_reducible assumption
    | intro _
    | (with_reducible first | apply keeps_mramRead | apply keeps_mbxDone | apply keeps_secEvent)

theorem keeps_mbxPolicy {host : Bool} {b : List Byte} {s : State} (hm : Sub 31342991462864 k) (h : Keeps k s0 s) :
    Keeps k s0 (mbxPolicy host b s) := by
  unfold mbxPolicy
  repeat' first
    | (with_reducible refine hm.of ?_); exact rfl
    | with_reducible assumption
    | intro _
    | (with_reducible first | apply keeps_ite | apply keeps_mbxRefuse | apply keeps_mbxBusy | apply keeps_withQuorum | apply keeps_dropNonce)
    | (have x := (); extract_lets +onlyGivenNames x; clear_value x)
    | (with_reducible first | apply Keeps.put_rot)

theorem keeps_mbxUnlock {host : Bool} {b : List Byte} {s : State} (hm : Sub 32983668969936 k) (h : Keeps k s0 s) :
    Keeps k s0 (mbxUnlock host b s) := by
  unfold mbxUnlock
  repeat' first
    | (with_reducible refine hm.of ?_); exact rfl
    | with_reducible assumption
    | intro _
    | (with_reducible first | apply keeps_ite | apply keeps_mbxRefuse | apply keeps_mbxBusy | apply keeps_unlockGo | apply keeps_withQuorum | apply keeps_dropNonce | apply keeps_killAll)
    | (have x := (); extract_lets +onlyGivenNames x; clear_value x)
    | (with_reducible first | apply Keeps.put_rot)

theorem keeps_mbxClear {host : Bool} {b : List Byte} {s : State} (hm : Sub 31342991462864 k) (h : Keeps k s0 s) :
    Keeps k s0 (mbxClear host b s) := by
  unfold mbxClear
  repeat' first
    | (with_reducible refine hm.of ?_); exact rfl
    | with_reducible assumption
    | intro _
    | (with_reducible first | apply keeps_ite | apply keeps_mbxRefuse | apply keeps_setRegF | apply keeps_mbxDone | apply keeps_withQuorum | apply keeps_dropNonce)
    | (have x := (); extract_lets +onlyGivenNames x; clear_value x)
    | (with_reducible first | apply Keeps.put_rot)

theorem keeps_mbxInject {host : Bool} {b : List Byte} {s : State} (hm : Sub 31342991462864 k) (h : Keeps k s0 s) :
    Keeps k s0 (mbxInject host b s) := by
  unfold mbxInject
  repeat' first
    | (with_reducible refine hm.of ?_); exact rfl
    | with_reducible assumption
    | (with_reducible first | apply keeps_ite | apply keeps_mbxRefuse | apply keeps_mbxDone | apply keeps_secEvent)

theorem keeps_mbxRun {host : Bool} {op : Nat} {len : Nat} {s : State} (hm : Sub 32983668969936 k) (h : Keeps k s0 s) :
    Keeps k s0 (mbxRun host op len s) := by
  unfold mbxRun
  repeat' first
    | (with_reducible refine hm.of ?_); exact rfl
    | with_reducible assumption
    | (with_reducible first | apply keeps_ite | apply keeps_mbxExtend | apply keeps_bump | apply keeps_mbxQuote | apply keeps_mbxRefuse | apply keeps_mbxCert | apply keeps_mbxLog | apply keeps_mbxCommit | apply keeps_mbxInject | apply keeps_mbxClear | apply keeps_mbxPolicy | apply keeps_mbxUnlock | apply keeps_dropNonce | apply keeps_mbxNonce)
    | split

theorem keeps_mbxCommand {m : Master} {op : Nat} {s : State} (hm : Sub 32983668969936 k) (h : Keeps k s0 s) :
    Keeps k s0 (mbxCommand m op s) := by
  unfold mbxCommand
  repeat' first
    | (with_reducible refine hm.of ?_); exact rfl
    | with_reducible assumption
    | (with_reducible first | apply keeps_ite | apply keeps_bump | apply keeps_mbxRun)
    | split

theorem keeps_jtagShift {ir : JtagIr} {s : State} (hm : Sub 31342991462872 k) (h : Keeps k s0 s) :
    Keeps k s0 (jtagShift ir s) := by
  unfold jtagShift
  repeat' first
    | (with_reducible refine hm.of ?_); exact rfl
    | with_reducible assumption
    | (with_reducible first | apply keeps_ite | apply keeps_bump | apply keeps_secEvent | apply keeps_drawFree)
    | (have x := (); extract_lets +onlyGivenNames x; refine keeps_cut2 k s0 x ?_ fun _ => ?_; rotate_left; clear_value x)
    | ((have x := (); extract_lets +onlyGivenNames x; first | (have u : Stores := x; clear u) | (have u : Mem := x; clear u) | (have u := fun a => x a; clear u)); dsimp -zeta only [x]; clear x)
    | (have x := (); extract_lets +onlyGivenNames x; clear_value x)
    | split
    | (with_reducible first | apply Keeps.put_rot)

theorem keeps_drbgSeed {s : State} (hm : Sub 2147483648 k) (h : Keeps k s0 s) :
    Keeps k s0 (drbgSeed s) := by
  unfold drbgSeed
  repeat' first
    | (with_reducible refine hm.of ?_); exact rfl
    | with_reducible assumption
    | (have x := (); extract_lets +onlyGivenNames x; clear_value x)
    | (with_reducible first | apply Keeps.put_rot)

theorem keeps_execGetNonce {m : Master} {s : State} (hm : Sub 32983668969936 k) (h : Keeps k s0 s) :
    KeepsR k s0 (execGetNonce m s) := by
  unfold execGetNonce
  repeat' first
    | (with_reducible refine hm.of ?_); exact rfl
    | with_reducible assumption
    | (with_reducible first | apply keepsR_next | apply keeps_mbxCommand)

theorem keeps_execGetCert {m : Master} {s : State} (hm : Sub 32983668969936 k) (h : Keeps k s0 s) :
    KeepsR k s0 (execGetCert m s) := by
  unfold execGetCert
  repeat' first
    | (with_reducible refine hm.of ?_); exact rfl
    | with_reducible assumption
    | (with_reducible first | apply keepsR_next | apply keeps_mbxCommand)

theorem keeps_execQuote {m : Master} {s : State} (hm : Sub 32983668969936 k) (h : Keeps k s0 s) :
    KeepsR k s0 (execQuote m s) := by
  unfold execQuote
  repeat' first
    | (with_reducible refine hm.of ?_); exact rfl
    | with_reducible assumption
    | (with_reducible first | apply keepsR_next | apply keeps_mbxCommand)

theorem keeps_execExtend {m : Master} {s : State} (hm : Sub 32983668969936 k) (h : Keeps k s0 s) :
    KeepsR k s0 (execExtend m s) := by
  unfold execExtend
  repeat' first
    | (with_reducible refine hm.of ?_); exact rfl
    | with_reducible assumption
    | (with_reducible first | apply keepsR_next | apply keeps_mbxCommand)

theorem keeps_execCommitSvn {m : Master} {s : State} (hm : Sub 32983668969936 k) (h : Keeps k s0 s) :
    KeepsR k s0 (execCommitSvn m s) := by
  unfold execCommitSvn
  repeat' first
    | (with_reducible refine hm.of ?_); exact rfl
    | with_reducible assumption
    | (with_reducible first | apply keepsR_next | apply keeps_mbxCommand)

theorem keeps_execGetLog {m : Master} {s : State} (hm : Sub 32983668969936 k) (h : Keeps k s0 s) :
    KeepsR k s0 (execGetLog m s) := by
  unfold execGetLog
  repeat' first
    | (with_reducible refine hm.of ?_); exact rfl
    | with_reducible assumption
    | (with_reducible first | apply keepsR_next | apply keeps_mbxCommand)

theorem keeps_execPolicyUpdate {m : Master} {s : State} (hm : Sub 32983668969936 k) (h : Keeps k s0 s) :
    KeepsR k s0 (execPolicyUpdate m s) := by
  unfold execPolicyUpdate
  repeat' first
    | (with_reducible refine hm.of ?_); exact rfl
    | with_reducible assumption
    | (with_reducible first | apply keepsR_next | apply keeps_mbxCommand)

theorem keeps_execPolicyTakeEffect {s : State} (hm : Sub 18144525636048 k) (h : Keeps k s0 s) :
    KeepsR k s0 (execPolicyTakeEffect s) := by
  unfold execPolicyTakeEffect
  repeat' first
    | (with_reducible refine hm.of ?_); exact rfl
    | with_reducible assumption
    | (with_reducible first | apply keepsR_next | apply keeps_policyInstall)

theorem keeps_execDebugUnlock {m : Master} {s : State} (hm : Sub 32983668969936 k) (h : Keeps k s0 s) :
    KeepsR k s0 (execDebugUnlock m s) := by
  unfold execDebugUnlock
  repeat' first
    | (with_reducible refine hm.of ?_); exact rfl
    | with_reducible assumption
    | (with_reducible first | apply keepsR_next | apply keeps_mbxCommand)

theorem keeps_execAlarmClear {m : Master} {s : State} (hm : Sub 32983668969936 k) (h : Keeps k s0 s) :
    KeepsR k s0 (execAlarmClear m s) := by
  unfold execAlarmClear
  repeat' first
    | (with_reducible refine hm.of ?_); exact rfl
    | with_reducible assumption
    | (with_reducible first | apply keepsR_next | apply keeps_mbxCommand)

theorem keeps_execInject {m : Master} {s : State} (hm : Sub 32983668969936 k) (h : Keeps k s0 s) :
    KeepsR k s0 (execInject m s) := by
  unfold execInject
  repeat' first
    | (with_reducible refine hm.of ?_); exact rfl
    | with_reducible assumption
    | (with_reducible first | apply keepsR_next | apply keeps_mbxCommand)

theorem keeps_execGlitch {rail : Bool} {s : State} (hm : Sub 31342991462864 k) (h : Keeps k s0 s) :
    KeepsR k s0 (execGlitch rail s) := by
  unfold execGlitch
  repeat' first
    | (with_reducible refine hm.of ?_); exact rfl
    | with_reducible assumption
    | (with_reducible first | apply keepsR_next | apply keeps_secEvent)

theorem keeps_execJtagInstruction {ir : JtagIr} {s : State} (hm : Sub 31342991462872 k) (h : Keeps k s0 s) :
    KeepsR k s0 (execJtagInstruction ir s) := by
  unfold execJtagInstruction
  repeat' first
    | (with_reducible refine hm.of ?_); exact rfl
    | with_reducible assumption
    | (with_reducible first | apply keepsR_next | apply keeps_jtagShift)

theorem keeps_execDrbgReseed {s : State} (hm : Sub 2147483648 k) (h : Keeps k s0 s) :
    KeepsR k s0 (execDrbgReseed s) := by
  unfold execDrbgReseed
  repeat' first
    | (with_reducible refine hm.of ?_); exact rfl
    | with_reducible assumption
    | (with_reducible first | apply keepsR_next | apply keeps_drbgSeed)

end Sys2Proof.Machine
end

