-- ==== Sys2Proof/Laws/KeepsPower.lean ====
section
/-! SUPPORT. What the operations of Machine/Power.lean keep. -/

namespace Sys2Proof.Machine

variable {k : Nat} {s0 : State}

theorem keeps_runClocks {s : State} (hm : Sub 16 k) (h : Keeps k s0 s) :
    Keeps k s0 (runClocks s) := by
  unfold runClocks
  repeat' first
    | (with_reducible refine hm.of ?_); exact rfl
    | with_reducible assumption
    | with_reducible apply keeps_setReg

theorem keeps_domainsOn {l : List Nat} {s : State} (hm : Sub 26214416 k) (h : Keeps k s0 s) :
    Keeps k s0 (domainsOn l s) := by
  unfold domainsOn
  repeat' first
    | (with_reducible refine hm.of ?_); exact rfl
    | with_reducible assumption
    | (with_reducible first | refine keeps_forAll ?_ fun _ _ _ => ?_ | apply keeps_setReg | apply keeps_portFollow | apply keeps_runClocks)

theorem keeps_clusterOff {c : Nat} {s : State} (hm : Sub 2190433320976 k) (h : Keeps k s0 s) :
    Keeps k s0 (clusterOff c s) := by
  unfold clusterOff
  repeat' first
    | (with_reducible refine hm.of ?_); exact rfl
    | with_reducible assumption
    | (with_reducible first | refine keeps_forAll ?_ fun _ _ _ => ?_ | apply keeps_setReg | apply keeps_zeroCluster)

theorem keeps_domainLost {d : Nat} {s : State} (hm : Sub 19786303099344 k) (h : Keeps k s0 s) :
    Keeps k s0 (domainLost d s) := by
  unfold domainLost
  repeat' first
    | (with_reducible refine hm.of ?_); exact rfl
    | with_reducible assumption
    | (with_reducible first | apply keeps_ite | refine keeps_forAll ?_ fun _ _ _ => ?_ | apply keeps_putHp | apply keeps_setReg | apply keeps_ctlReset | apply keeps_portUnlit | apply keeps_clusterOff)
    | (have x := (); extract_lets +onlyGivenNames x; clear_value x)
    | (with_reducible first | apply Keeps.put_power | apply Keeps.put_rot)

theorem keeps_domainsOff {l : List Nat} {s : State} (hm : Sub 19786303099344 k) (h : Keeps k s0 s) :
    Keeps k s0 (domainsOff l s) := by
  unfold domainsOff
  repeat' first
    | (with_reducible refine hm.of ?_); exact rfl
    | with_reducible assumption
    | (with_reducible first | refine keeps_forAll ?_ fun _ _ _ => ?_ | apply keeps_setReg | apply keeps_domainLost | apply keeps_clearReady | apply keeps_runClocks)

theorem keeps_bareDevice {k : Nat} {s0 s : State} {regs : Tbl Word} {p : Power} {r : Rot} (hm : Sub 140737219919856 k) (h : Keeps k s0 s)
    (hx : regsWf s.regs = true → regsWf regs = true) : Keeps k s0 (bareDevice regs p r s) := by
  refine ⟨fun p e => ?_, fun _ => rfl, fun e => hx (h.regs e), fun _ => rfl, fun _ => rfl⟩
  cases p <;> first | exact h.same _ e | exact absurd (hm.bit _ rfl) (by rw [e]; decide)

theorem keeps_resetDevice {k : Nat} {s0 s : State} (hm : Sub 140737219919860 k) (h : Keeps k s0 s) : Keeps k s0 (resetDevice s) :=
  Keeps.put_t0 (hm.of rfl) (keeps_bareDevice (hm.of rfl) h fun _ => regs_nil)

theorem keeps_deviceOff {s : State} (hm : Sub 140737219919860 k) (h : Keeps k s0 s) :
    Keeps k s0 (deviceOff s) := by
  unfold deviceOff
  repeat' first
    | (with_reducible refine hm.of ?_); exact rfl
    | with_reducible assumption
    | (with_reducible first | apply keeps_setReg | apply keeps_resetDevice)
    | (have x := (); extract_lets +onlyGivenNames x; clear_value x)
    | (with_reducible first | apply Keeps.put_power)

theorem keeps_allOff {k : Nat} {s0 s : State} (hm : Sub 140737219919856 k) (h : Keeps k s0 s) : Keeps k s0 (allOff s) := by
  unfold allOff
  extract_lets aon keep sn p x0 x1 s1 s2
  have h0 := keeps_bareDevice (p := { s.power with steps := [], wakeHeld := false, mgmtDown := false, faultPin := true })
    (r := rotCold s.rot) (hm.of rfl) h (fun e => regsFilter_wf (t := s.regs) (fun r => aon (r.1 / 4096)) e)
  have h1 : Keeps k s0 s1 := by
    refine ⟨fun p e => ?_, h0.mem, h0.regs, h0.tiles, h0.clus⟩
    cases p <;> first | exact h0.same _ e | exact absurd (hm.bit _ rfl) (by rw [e]; decide)
  exact keeps_setReg (hm.of rfl) (keeps_setReg (hm.of rfl) (keeps_setReg (hm.of rfl) (keeps_setReg (hm.of rfl) h1)))

theorem keeps_setPwrState {n : Nat} {s : State} (hm : Sub 16 k) (h : Keeps k s0 s) :
    Keeps k s0 (setPwrState n s) := by
  unfold setPwrState
  repeat' first
    | (with_reducible refine hm.of ?_); exact rfl
    | with_reducible assumption
    | with_reducible apply keeps_setRegF

theorem keeps_stepBegin {n : Nat} {s : State} (hm : Sub 4399146467344 k) (h : Keeps k s0 s) :
    Keeps k s0 (stepBegin n s) := by
  unfold stepBegin
  repeat' first
    | (with_reducible refine hm.of ?_); exact rfl
    | with_reducible assumption
    | (with_reducible first | apply keeps_domainsOn | apply keeps_setRegF)
    | (have x := (); extract_lets +onlyGivenNames x; refine keeps_cut k s0 x ?_ fun _ => ?_; rotate_left; clear_value x)
    | (have x := (); extract_lets +onlyGivenNames x; clear_value x)
    | split
    | dsimp only [x]
    | (with_reducible first | apply Keeps.put_bulkKeys | apply Keeps.put_power)

theorem keeps_stepReady {n : Nat} {u : Nat} {s : State} (hm : Sub 1509969936 k) (h : Keeps k s0 s) :
    Keeps k s0 (stepReady n u s) := by
  unfold stepReady
  repeat' first
    | (with_reducible refine hm.of ?_); exact rfl
    | with_reducible assumption
    | (with_reducible first | apply keeps_ite | apply keeps_fabCoreReady | apply keeps_ctlBringUp | apply keeps_putHp | apply keeps_setReady)
    | (have x := (); extract_lets +onlyGivenNames x; refine keeps_cut k s0 x ?_ fun _ => ?_; rotate_left; clear_value x)
    | (have x := (); extract_lets +onlyGivenNames x; clear_value x)
    | split

theorem keeps_stepWork {n : Nat} {u : Nat} {s : State} (hm : Sub 81359565500416 k) (h : Keeps k s0 s) :
    Keeps k s0 (stepWork n u s) := by
  unfold stepWork
  repeat' first
    | (with_reducible refine hm.of ?_); exact rfl
    | with_reducible assumption
    | intro _
    | (with_reducible first | refine keeps_forAll ?_ fun _ _ _ => ?_ | apply keeps_zeroCluster | exact mem_nil)
    | ((have x := (); extract_lets +onlyGivenNames x; first | (have u : Stores := x; clear u) | (have u : Mem := x; clear u) | (have u := fun a => x a; clear u)); dsimp -zeta only [x]; clear x)
    | split
    | (with_reducible first | apply Keeps.put_tier_mTensor | apply Keeps.put_badSlots | apply Keeps.put_flips | apply Keeps.put_lost | apply Keeps.put_mTensor | apply Keeps.put_pages)

theorem keeps_stepFollow {n : Nat} {s : State} (hm : Sub 4399146467344 k) (h : Keeps k s0 s) :
    Keeps k s0 (stepFollow n s) := by
  unfold stepFollow
  repeat' first
    | (with_reducible refine hm.of ?_); exact rfl
    | with_reducible assumption
    | (with_reducible first | apply keeps_ite | apply keeps_setPwrState | apply keeps_stepBegin)
    | split

theorem keeps_stepFail {n : Nat} {u : Nat} {s : State} (hm : Sub 18143015666128 k) (h : Keeps k s0 s) :
    Keeps k s0 (stepFail n u s) := by
  unfold stepFail
  repeat' first
    | (with_reducible refine hm.of ?_); exact rfl
    | with_reducible assumption
    | with_reducible apply keeps_raiseFault
    | (have x := (); extract_lets +onlyGivenNames x; clear_value x)
    | (with_reducible first | apply Keeps.put_power)

theorem keeps_stepEnd {n : Nat} {u : Nat} {passed : Bool} {s : State} (hm : Sub 103353486897616 k) (h : Keeps k s0 s) :
    Keeps k s0 (stepEnd n u passed s) := by
  unfold stepEnd
  repeat' first
    | (with_reducible refine hm.of ?_); exact rfl
    | with_reducible assumption
    | (with_reducible first | apply keeps_ite | apply keeps_fabCoreReady | apply keeps_rotBoot | apply keeps_stepReady | apply keeps_stepFail | apply keeps_stepFollow | apply keeps_stepBegin | apply keeps_setReady | apply keeps_stepWork)
    | (have x := (); extract_lets +onlyGivenNames x; clear_value x)
    | (with_reducible first | apply Keeps.put_power)

theorem keeps_quarterOn {s : State} (hm : Sub 26214416 k) (h : Keeps k s0 s) :
    Keeps k s0 (quarterOn s) := by
  unfold quarterOn
  repeat' first
    | (with_reducible refine hm.of ?_); exact rfl
    | with_reducible assumption
    | (with_reducible first | apply keeps_ite | apply keeps_domainsOn | apply keeps_setPwrState)
    | split

theorem keeps_mgmtIgnore {s : State} (hm : Sub 16 k) (h : Keeps k s0 s) :
    Keeps k s0 (mgmtIgnore s) := by
  unfold mgmtIgnore
  repeat' first
    | (with_reducible refine hm.of ?_); exact rfl
    | with_reducible assumption
    | with_reducible apply keeps_bump

theorem keeps_moveDown {target : Nat} {s : State} (hm : Sub 1073741840 k) (h : Keeps k s0 s) :
    Keeps k s0 (moveDown target s) := by
  unfold moveDown
  repeat' first
    | (with_reducible refine hm.of ?_); exact rfl
    | with_reducible assumption
    | (with_reducible first | apply keeps_setReg | apply keeps_clearReady)
    | (have x := (); extract_lets +onlyGivenNames x; clear_value x)
    | split
    | (with_reducible first | apply Keeps.put_power)

theorem keeps_pwrCmd {op : Nat} {s : State} (hm : Sub 4399146467344 k) (h : Keeps k s0 s) :
    Keeps k s0 (pwrCmd op s) := by
  unfold pwrCmd
  repeat' first
    | (with_reducible refine hm.of ?_); exact rfl
    | with_reducible assumption
    | (with_reducible first | apply keeps_ite | apply keeps_setReg | apply keeps_mgmtIgnore | apply keeps_moveDown | apply keeps_stepBegin)
    | (have x := (); extract_lets +onlyGivenNames x; refine keeps_cut k s0 x ?_ fun _ => ?_; rotate_left; clear_value x)
    | split

theorem keeps_wakeAct {s : State} (hm : Sub 21991332511760 k) (h : Keeps k s0 s) :
    Keeps k s0 (wakeAct s) := by
  unfold wakeAct
  repeat' first
    | (with_reducible refine hm.of ?_); exact rfl
    | with_reducible assumption
    | (with_reducible first | apply keeps_ite | apply keeps_raiseEvent | apply keeps_setPwrState | apply keeps_stepBegin)

theorem keeps_moveStep {s : State} (hm : Sub 19786303099344 k) (h : Keeps k s0 s) :
    Keeps k s0 (moveStep s) := by
  unfold moveStep
  repeat' first
    | (with_reducible refine hm.of ?_); exact rfl
    | with_reducible assumption
    | (with_reducible first | apply keeps_ite | apply keeps_domainsOff)
    | split

theorem keeps_moveDone {s : State} (hm : Sub 24184349610448 k) (h : Keeps k s0 s) :
    Keeps k s0 (moveDone s) := by
  unfold moveDone
  repeat' first
    | (with_reducible refine hm.of ?_); exact rfl
    | with_reducible assumption
    | (with_reducible first | apply keeps_ite | apply keeps_wakeAct | apply keeps_setReg | apply keeps_bump | apply keeps_domainsOff | apply keeps_raiseEvent)
    | (have x := (); extract_lets +onlyGivenNames x; clear_value x)
    | split
    | (with_reducible first | apply Keeps.put_power)

theorem keeps_pinAssert {p : InputPin} {act : State → State} {s : State} (hm : Sub 1073741840 k) (h : Keeps k s0 s) (hact : ∀ (y0 : State), Keeps k s0 y0 → Keeps k s0 (act y0)) :
    Keeps k s0 (pinAssert p act s) := by
  unfold pinAssert
  repeat' first
    | (with_reducible refine hm.of ?_); exact rfl
    | with_reducible assumption
    | (with_reducible first | apply keeps_ite | apply keeps_bump | apply keeps_setBit | apply hact)
    | (have x := (); extract_lets +onlyGivenNames x; clear_value x)
    | (with_reducible first | apply Keeps.put_power)

theorem keeps_wakeIn {s : State} (hm : Sub 21991332511760 k) (h : Keeps k s0 s) :
    Keeps k s0 (wakeIn s) := by
  unfold wakeIn
  repeat' first
    | (with_reducible refine hm.of ?_); exact rfl
    | with_reducible assumption
    | intro _
    | (with_reducible first | apply keeps_ite | apply keeps_wakeAct | apply keeps_bump | apply keeps_pinAssert)
    | (have x := (); extract_lets +onlyGivenNames x; clear_value x)
    | (with_reducible first | apply Keeps.put_power)

theorem keeps_syncIn {s : State} (hm : Sub 17593259786256 k) (h : Keeps k s0 s) :
    Keeps k s0 (syncIn s) := by
  unfold syncIn
  repeat' first
    | (with_reducible refine hm.of ?_); exact rfl
    | with_reducible assumption
    | intro _
    | (with_reducible first | apply keeps_setReg | apply keeps_raiseEvent | apply keeps_pinAssert)

theorem keeps_tamperIn {s : State} (hm : Sub 31344065204688 k) (h : Keeps k s0 s) :
    Keeps k s0 (tamperIn s) := by
  unfold tamperIn
  repeat' first
    | (with_reducible refine hm.of ?_); exact rfl
    | with_reducible assumption
    | intro _
    | (with_reducible first | apply keeps_secEvent | apply keeps_pinAssert)

theorem keeps_pinStick {p : InputPin} {s : State} (hm : Sub 18141941924304 k) (h : Keeps k s0 s) :
    Keeps k s0 (pinStick p s) := by
  unfold pinStick
  repeat' first
    | (with_reducible refine hm.of ?_); exact rfl
    | with_reducible assumption
    | (with_reducible first | apply keeps_ite | apply keeps_bump | apply keeps_raiseFault | apply keeps_setBit)

theorem keeps_pinRearm {p : InputPin} {s : State} (hm : Sub 17592186044432 k) (h : Keeps k s0 s) :
    Keeps k s0 (pinRearm p s) := by
  unfold pinRearm
  repeat' first
    | (with_reducible refine hm.of ?_); exact rfl
    | with_reducible assumption
    | (with_reducible first | apply keeps_ite | apply keeps_raiseEvent | apply keeps_setRegF)

theorem keeps_pinDeassert {p : InputPin} {s : State} (hm : Sub 16 k) (h : Keeps k s0 s) :
    Keeps k s0 (pinDeassert p s) := by
  unfold pinDeassert
  repeat' first
    | (with_reducible refine hm.of ?_); exact rfl
    | with_reducible assumption
    | with_reducible apply keeps_setRegF

theorem keeps_syncOut {s : State} (hm : Sub 1073741840 k) (h : Keeps k s0 s) :
    Keeps k s0 (syncOut s) := by
  unfold syncOut
  repeat' first
    | (with_reducible refine hm.of ?_); exact rfl
    | with_reducible assumption
    | (with_reducible first | apply keeps_ite | apply keeps_setReg | apply keeps_mgmtIgnore)
    | (have x := (); extract_lets +onlyGivenNames x; clear_value x)
    | (with_reducible first | apply Keeps.put_power)

theorem keeps_pllFail {k' : Nat} {s : State} (hm : Sub 18143015666128 k) (h : Keeps k s0 s) :
    Keeps k s0 (pllFail k' s) := by
  unfold pllFail
  repeat' first
    | (with_reducible refine hm.of ?_); exact rfl
    | with_reducible assumption
    | (with_reducible first | apply keeps_ite | apply keeps_raiseFault | apply keeps_clearReady | apply keeps_runClocks)
    | (have x := (); extract_lets +onlyGivenNames x; clear_value x)
    | split
    | (with_reducible first | apply Keeps.put_power)

theorem keeps_thermSample {temps : List Int} {s : State} (hm : Sub 140737219919856 k) (h : Keeps k s0 s) :
    Keeps k s0 (thermSample temps s) := by
  unfold thermSample
  repeat' first
    | (with_reducible refine hm.of ?_); exact rfl
    | with_reducible assumption
    | intro _
    | (with_reducible first | apply keeps_ite | refine keeps_forAll ?_ fun _ _ _ => ?_ | apply keeps_monRaise | apply keeps_setReg | apply keeps_allOff | apply keeps_bump)
    | (have x := (); extract_lets +onlyGivenNames x; clear_value x)
    | (dsimp only [id])
    | (with_reducible first | apply Keeps.put_power)

theorem keeps_pwrEnable {s : State} (hm : Sub 140737219919860 k) (h : Keeps k s0 s) :
    Keeps k s0 (pwrEnable s) := by
  unfold pwrEnable
  repeat' first
    | (with_reducible refine hm.of ?_); exact rfl
    | with_reducible assumption
    | (with_reducible first | apply keeps_ite | apply keeps_resetDevice)
    | (have x := (); extract_lets +onlyGivenNames x; clear_value x)
    | (with_reducible first | apply Keeps.put_power)

theorem keeps_pwrDisable {s : State} (hm : Sub 140737219919860 k) (h : Keeps k s0 s) :
    Keeps k s0 (pwrDisable s) := by
  unfold pwrDisable
  repeat' first
    | (with_reducible refine hm.of ?_); exact rfl
    | with_reducible assumption
    | with_reducible apply keeps_deviceOff
    | (have x := (); extract_lets +onlyGivenNames x; clear_value x)
    | (with_reducible first | apply Keeps.put_power)

theorem keeps_vinFault {high : Bool} {s : State} (hm : Sub 140737219919856 k) (h : Keeps k s0 s) :
    Keeps k s0 (vinFault high s) := by
  unfold vinFault
  repeat' first
    | (with_reducible refine hm.of ?_); exact rfl
    | with_reducible assumption
    | (with_reducible first | apply keeps_ite | apply keeps_allOff | apply keeps_bump | apply keeps_setBit)
    | (have x := (); extract_lets +onlyGivenNames x; clear_value x)
    | (with_reducible first | apply Keeps.put_power)

theorem keeps_vinCollapse {s : State} (hm : Sub 140737219919860 k) (h : Keeps k s0 s) :
    Keeps k s0 (vinCollapse s) := by
  unfold vinCollapse
  repeat' first
    | (with_reducible refine hm.of ?_); exact rfl
    | with_reducible assumption
    | with_reducible apply keeps_deviceOff
    | (have x := (); extract_lets +onlyGivenNames x; clear_value x)
    | (with_reducible first | apply Keeps.put_power)

theorem keeps_vinReturn {s : State} (hm : Sub 140737219919860 k) (h : Keeps k s0 s) :
    Keeps k s0 (vinReturn s) := by
  unfold vinReturn
  repeat' first
    | (with_reducible refine hm.of ?_); exact rfl
    | with_reducible assumption
    | (with_reducible first | apply keeps_ite | apply keeps_pwrEnable)
    | (have x := (); extract_lets +onlyGivenNames x; clear_value x)
    | (with_reducible first | apply Keeps.put_power)

theorem keeps_resetAssert {s : State} (hm : Sub 140737219919860 k) (h : Keeps k s0 s) :
    Keeps k s0 (resetAssert s) := by
  unfold resetAssert
  repeat' first
    | (with_reducible refine hm.of ?_); exact rfl
    | with_reducible assumption
    | (with_reducible first | apply keeps_ite | apply keeps_setRegF | apply keeps_resetDevice)
    | (have x := (); extract_lets +onlyGivenNames x; clear_value x)
    | (with_reducible first | apply Keeps.put_power)

theorem keeps_resetRelease {s : State} (hm : Sub 4399146467348 k) (h : Keeps k s0 s) :
    Keeps k s0 (resetRelease s) := by
  unfold resetRelease
  repeat' first
    | (with_reducible refine hm.of ?_); exact rfl
    | with_reducible assumption
    | (with_reducible first | apply keeps_ite | apply keeps_setReg | apply keeps_stepBegin)
    | (have x := (); extract_lets +onlyGivenNames x; clear_value x)
    | (with_reducible first | apply Keeps.put_power_t0 | apply Keeps.put_power | apply Keeps.put_t0)

theorem keeps_i3cRead {r : I3cRead} {s : State} (hm : Sub 1073741824 k) (h : Keeps k s0 s) :
    Keeps k s0 (i3cRead r s) := by
  unfold i3cRead
  repeat' first
    | (with_reducible refine hm.of ?_); exact rfl
    | with_reducible assumption
    | with_reducible apply keeps_ite
    | (have x := (); extract_lets +onlyGivenNames x; clear_value x)
    | (with_reducible first | apply Keeps.put_power)

theorem keeps_i3cWrite {w : I3cWrite} {s : State} (hm : Sub 1073741824 k) (h : Keeps k s0 s) :
    Keeps k s0 (i3cWrite w s) := by
  unfold i3cWrite
  repeat' first
    | (with_reducible refine hm.of ?_); exact rfl
    | with_reducible assumption
    | with_reducible apply keeps_ite
    | (have x := (); extract_lets +onlyGivenNames x; clear_value x)
    | split
    | (with_reducible first | apply Keeps.put_power)

theorem keeps_monWrite {off : Nat} {v : Word} {plain : State → State} {s : State} (hm : Sub 16 k) (h : Keeps k s0 s) (hplain : ∀ (y0 : State), Keeps k s0 y0 → Keeps k s0 (plain y0)) :
    Keeps k s0 (monWrite off v plain s) := by
  unfold monWrite
  repeat' first
    | (with_reducible refine hm.of ?_); exact rfl
    | with_reducible assumption
    | (with_reducible first | apply keeps_ite | apply keeps_mgmtIgnore | apply hplain)

theorem keeps_mgmtReloaded {s : State} (hm : Sub 31361245073880 k) (h : Keeps k s0 s) :
    Keeps k s0 (mgmtReloaded s) := by
  unfold mgmtReloaded
  repeat' first
    | (with_reducible refine hm.of ?_); exact rfl
    | with_reducible assumption
    | (with_reducible first | apply keeps_ite | refine keeps_forAll ?_ fun _ _ _ => ?_ | apply keeps_runWaitEnd | apply keeps_setReady | apply keeps_mgmtVerify)
    | (have x := (); extract_lets +onlyGivenNames x; refine keeps_cut k s0 x ?_ fun _ => ?_; rotate_left; clear_value x)
    | (have x := (); extract_lets +onlyGivenNames x; clear_value x)
    | (with_reducible first | apply Keeps.put_power)

theorem keeps_execPwrActive {s : State} (hm : Sub 4399146467344 k) (h : Keeps k s0 s) :
    KeepsR k s0 (execPwrActive s) := by
  unfold execPwrActive
  repeat' first
    | (with_reducible refine hm.of ?_); exact rfl
    | with_reducible assumption
    | (with_reducible first | apply keepsR_next | apply keeps_pwrCmd)

theorem keeps_execPwrListen {s : State} (hm : Sub 4399146467344 k) (h : Keeps k s0 s) :
    KeepsR k s0 (execPwrListen s) := by
  unfold execPwrListen
  repeat' first
    | (with_reducible refine hm.of ?_); exact rfl
    | with_reducible assumption
    | (with_reducible first | apply keepsR_next | apply keeps_pwrCmd)

theorem keeps_execPwrStandby {s : State} (hm : Sub 4399146467344 k) (h : Keeps k s0 s) :
    KeepsR k s0 (execPwrStandby s) := by
  unfold execPwrStandby
  repeat' first
    | (with_reducible refine hm.of ?_); exact rfl
    | with_reducible assumption
    | (with_reducible first | apply keepsR_next | apply keeps_pwrCmd)

theorem keeps_execPowerMoveDone {s : State} (hm : Sub 24184349610448 k) (h : Keeps k s0 s) :
    KeepsR k s0 (execPowerMoveDone s) := by
  unfold execPowerMoveDone
  repeat' first
    | (with_reducible refine hm.of ?_); exact rfl
    | with_reducible assumption
    | (with_reducible first | apply keepsR_next | apply keeps_moveDone)

theorem keeps_execQuarterPowerOn {s : State} (hm : Sub 26214416 k) (h : Keeps k s0 s) :
    KeepsR k s0 (execQuarterPowerOn s) := by
  unfold execQuarterPowerOn
  repeat' first
    | (with_reducible refine hm.of ?_); exact rfl
    | with_reducible assumption
    | (with_reducible first | apply keepsR_next | apply keeps_quarterOn)

theorem keeps_execWake {s : State} (hm : Sub 21991332511760 k) (h : Keeps k s0 s) :
    KeepsR k s0 (execWake s) := by
  unfold execWake
  repeat' first
    | (with_reducible refine hm.of ?_); exact rfl
    | with_reducible assumption
    | (with_reducible first | apply keepsR_next | apply keeps_wakeIn)

theorem keeps_execSync {s : State} (hm : Sub 17593259786256 k) (h : Keeps k s0 s) :
    KeepsR k s0 (execSync s) := by
  unfold execSync
  repeat' first
    | (with_reducible refine hm.of ?_); exact rfl
    | with_reducible assumption
    | (with_reducible first | apply keepsR_next | apply keeps_syncIn)

theorem keeps_execTamper {s : State} (hm : Sub 31344065204688 k) (h : Keeps k s0 s) :
    KeepsR k s0 (execTamper s) := by
  unfold execTamper
  repeat' first
    | (with_reducible refine hm.of ?_); exact rfl
    | with_reducible assumption
    | (with_reducible first | apply keepsR_next | apply keeps_tamperIn)

theorem keeps_execResetAssert {s : State} (hm : Sub 140737219919860 k) (h : Keeps k s0 s) :
    KeepsR k s0 (execResetAssert s) := by
  unfold execResetAssert
  repeat' first
    | (with_reducible refine hm.of ?_); exact rfl
    | with_reducible assumption
    | (with_reducible first | apply keepsR_next | apply keeps_resetAssert)

theorem keeps_execResetRelease {s : State} (hm : Sub 4399146467348 k) (h : Keeps k s0 s) :
    KeepsR k s0 (execResetRelease s) := by
  unfold execResetRelease
  repeat' first
    | (with_reducible refine hm.of ?_); exact rfl
    | with_reducible assumption
    | (with_reducible first | apply keepsR_next | apply keeps_resetRelease)

theorem keeps_execInputStuck {pin : InputPin} {s : State} (hm : Sub 18141941924304 k) (h : Keeps k s0 s) :
    KeepsR k s0 (execInputStuck pin s) := by
  unfold execInputStuck
  repeat' first
    | (with_reducible refine hm.of ?_); exact rfl
    | with_reducible assumption
    | (with_reducible first | apply keepsR_next | apply keeps_pinStick)

theorem keeps_execRearm {pin : InputPin} {s : State} (hm : Sub 17592186044432 k) (h : Keeps k s0 s) :
    KeepsR k s0 (execRearm pin s) := by
  unfold execRearm
  repeat' first
    | (with_reducible refine hm.of ?_); exact rfl
    | with_reducible assumption
    | (with_reducible first | apply keepsR_next | apply keeps_pinRearm)

theorem keeps_execInputDeassert {pin : InputPin} {s : State} (hm : Sub 16 k) (h : Keeps k s0 s) :
    KeepsR k s0 (execInputDeassert pin s) := by
  unfold execInputDeassert
  repeat' first
    | (with_reducible refine hm.of ?_); exact rfl
    | with_reducible assumption
    | (with_reducible first | apply keepsR_next | apply keeps_pinDeassert)

theorem keeps_execSyncOutCmd {s : State} (hm : Sub 1073741840 k) (h : Keeps k s0 s) :
    KeepsR k s0 (execSyncOutCmd s) := by
  unfold execSyncOutCmd
  repeat' first
    | (with_reducible refine hm.of ?_); exact rfl
    | with_reducible assumption
    | (with_reducible first | apply keepsR_next | apply keeps_syncOut)

theorem keeps_execSyncOutPulseEnd {s : State} (hm : Sub 1073741824 k) (h : Keeps k s0 s) :
    KeepsR k s0 (execSyncOutPulseEnd s) := by
  unfold execSyncOutPulseEnd
  repeat' first
    | (with_reducible refine hm.of ?_); exact rfl
    | with_reducible assumption
    | with_reducible apply keepsR_next
    | (have x := (); extract_lets +onlyGivenNames x; clear_value x)
    | (with_reducible first | apply Keeps.put_power)

theorem keeps_execPllLock {domain : Nat} {s : State} (hm : Sub 18143015666128 k) (h : Keeps k s0 s) :
    KeepsR k s0 (execPllLock domain s) := by
  unfold execPllLock
  repeat' first
    | (with_reducible refine hm.of ?_); exact rfl
    | with_reducible assumption
    | intro _
    | (with_reducible first | apply keeps_pllFail | apply keeps_onUnit)

theorem keeps_execPwrEnAssert {s : State} (hm : Sub 140737219919860 k) (h : Keeps k s0 s) :
    KeepsR k s0 (execPwrEnAssert s) := by
  unfold execPwrEnAssert
  repeat' first
    | (with_reducible refine hm.of ?_); exact rfl
    | with_reducible assumption
    | (with_reducible first | apply keepsR_next | apply keeps_pwrEnable)

theorem keeps_execPwrEnDeassert {s : State} (hm : Sub 140737219919860 k) (h : Keeps k s0 s) :
    KeepsR k s0 (execPwrEnDeassert s) := by
  unfold execPwrEnDeassert
  repeat' first
    | (with_reducible refine hm.of ?_); exact rfl
    | with_reducible assumption
    | (with_reducible first | apply keepsR_next | apply keeps_pwrDisable)

theorem keeps_execVinFault {high : Bool} {s : State} (hm : Sub 140737219919856 k) (h : Keeps k s0 s) :
    KeepsR k s0 (execVinFault high s) := by
  unfold execVinFault
  repeat' first
    | (with_reducible refine hm.of ?_); exact rfl
    | with_reducible assumption
    | (with_reducible first | apply keepsR_next | apply keeps_vinFault)

theorem keeps_execVinCollapse {s : State} (hm : Sub 140737219919860 k) (h : Keeps k s0 s) :
    KeepsR k s0 (execVinCollapse s) := by
  unfold execVinCollapse
  repeat' first
    | (with_reducible refine hm.of ?_); exact rfl
    | with_reducible assumption
    | (with_reducible first | apply keepsR_next | apply keeps_vinCollapse)

theorem keeps_execInputPowerReturn {s : State} (hm : Sub 140737219919860 k) (h : Keeps k s0 s) :
    KeepsR k s0 (execInputPowerReturn s) := by
  unfold execInputPowerReturn
  repeat' first
    | (with_reducible refine hm.of ?_); exact rfl
    | with_reducible assumption
    | (with_reducible first | apply keepsR_next | apply keeps_vinReturn)

theorem keeps_execThermSample {temps : List Int} {s : State} (hm : Sub 140737219919856 k) (h : Keeps k s0 s) :
    KeepsR k s0 (execThermSample temps s) := by
  unfold execThermSample
  repeat' first
    | (with_reducible refine hm.of ?_); exact rfl
    | with_reducible assumption
    | (with_reducible first | apply keepsR_ite | apply keepsR_next | exact keepsR_fault | apply keeps_thermSample)

theorem keeps_execMgmtReloadDone {s : State} (hm : Sub 31361245073880 k) (h : Keeps k s0 s) :
    KeepsR k s0 (execMgmtReloadDone s) := by
  unfold execMgmtReloadDone
  repeat' first
    | (with_reducible refine hm.of ?_); exact rfl
    | with_reducible assumption
    | (with_reducible first | apply keepsR_next | apply keeps_mgmtReloaded)

theorem keeps_execI3cPrivateWrite {w : I3cWrite} {s : State} (hm : Sub 1073741824 k) (h : Keeps k s0 s) :
    KeepsR k s0 (execI3cPrivateWrite w s) := by
  unfold execI3cPrivateWrite
  repeat' first
    | (with_reducible refine hm.of ?_); exact rfl
    | with_reducible assumption
    | (with_reducible first | apply keepsR_next | apply keeps_i3cWrite)

theorem keeps_execI3cPrivateRead {r : I3cRead} {s : State} (hm : Sub 1073741824 k) (h : Keeps k s0 s) :
    KeepsR k s0 (execI3cPrivateRead r s) := by
  unfold execI3cPrivateRead
  repeat' first
    | (with_reducible refine hm.of ?_); exact rfl
    | with_reducible assumption
    | (with_reducible first | apply keepsR_next | apply keeps_i3cRead)

theorem keeps_execBringUpStepEnd {step : Nat} {unit : Nat} {passed : Bool} {s : State} (hm : Sub 103353486897616 k) (h : Keeps k s0 s) :
    KeepsR k s0 (execBringUpStepEnd step unit passed s) := by
  unfold execBringUpStepEnd
  repeat' first
    | (with_reducible refine hm.of ?_); exact rfl
    | with_reducible assumption
    | (with_reducible first | apply keepsR_next | apply keeps_stepEnd)

end Sys2Proof.Machine
end

