-- ==== Sys2Proof/Laws/KeepsRegisters.lean ====
section
/-! SUPPORT. What the operations of Machine/Registers.lean keep. -/

namespace Sys2Proof.Machine

variable {k : Nat} {s0 : State}

theorem keeps_ctlAccess {k : Nat} {s0 s u : State} {m : Master} {rd : Bool} {addr : Nat} (hm : Sub 16 k) (h : Keeps k s0 s)
    (e : ctlAccess m rd addr s = .none u) : Keeps k s0 u := by
  have hb : ∀ a, Keeps k s0 (bump s a) := fun a => keeps_bump (hm.of rfl) h
  unfold ctlAccess at e
  dsimp only at e
  by_cases h1 : addr % 8 ≠ 0
  · rw [if_pos h1] at e; cases e; exact h
  rw [if_neg h1] at e
  cases hp : pageOf addr with
  | none =>
    rw [hp] at e; dsimp only at e
    cases e; exact keeps_unmapped (hm.of rfl) h
  | some q =>
    obtain ⟨p, i⟩ := q
    rw [hp] at e; dsimp only at e
    split at e
    · cases e; exact h
    split at e
    · cases e; exact hb _
    split at e
    · cases e; exact hb _
    · cases e


theorem keeps_tierWrite {off : Nat} {v : Word} {plain : State → State} {s : State} (hm : Sub 18141941928400 k) (h : Keeps k s0 s) (hplain : ∀ (y0 : State), Keeps k s0 y0 → Keeps k s0 (plain y0)) :
    Keeps k s0 (tierWrite off v plain s) := by
  unfold tierWrite
  repeat' first
    | (with_reducible refine hm.of ?_); exact rfl
    | with_reducible assumption
    | (with_reducible first | apply keeps_tierQuery | apply keeps_tierCmd | apply keeps_quotaWrite | apply hplain)
    | split

theorem keeps_numWrite {off : Nat} {v : Word} {plain : State → State} {s : State} (hm : Sub 17592186109968 k) (h : Keeps k s0 s) (hplain : ∀ (y0 : State), Keeps k s0 y0 → Keeps k s0 (plain y0)) :
    Keeps k s0 (numWrite off v plain s) := by
  unfold numWrite
  repeat' first
    | (with_reducible refine hm.of ?_); exact rfl
    | with_reducible assumption
    | (with_reducible first | apply keeps_cenCmd | apply keeps_cenQuery | apply keeps_lossCfgWrite | apply keeps_lossIn | apply hplain)
    | split

theorem keeps_leaseWrite {off : Nat} {v : Word} {plain : State → State} {s : State} (hm : Sub 97414186663384 k) (h : Keeps k s0 s) (hplain : ∀ (y0 : State), Keeps k s0 y0 → Keeps k s0 (plain y0)) :
    Keeps k s0 (leaseWrite off v plain s) := by
  unfold leaseWrite
  repeat' first
    | (with_reducible refine hm.of ?_); exact rfl
    | with_reducible assumption
    | (with_reducible first | apply keeps_leaseCmd | apply keeps_collTick | apply keeps_leaseQuery | apply keeps_layoutQuery | apply hplain)
    | split

theorem keeps_pourWrite {h' : Nat} {off : Nat} {v : Word} {plain : State → State} {s : State} (hm : Sub 131088 k) (h : Keeps k s0 s) (hplain : ∀ (y0 : State), Keeps k s0 y0 → Keeps k s0 (plain y0)) :
    Keeps k s0 (pourWrite h' off v plain s) := by
  unfold pourWrite
  repeat' first
    | (with_reducible refine hm.of ?_); exact rfl
    | with_reducible assumption
    | (with_reducible first | apply keeps_pqCfgWrite | apply keeps_pourPost | apply keeps_pqCommand | apply hplain)
    | (have x := (); extract_lets +onlyGivenNames x; clear_value x)
    | split

theorem keeps_fabricWrite {off : Nat} {v : Word} {plain : State → State} {s : State} (hm : Sub 1100021776 k) (h : Keeps k s0 s) (hplain : ∀ (y0 : State), Keeps k s0 y0 → Keeps k s0 (plain y0)) :
    Keeps k s0 (fabricWrite off v plain s) := by
  unfold fabricWrite
  repeat' first
    | (with_reducible refine hm.of ?_); exact rfl
    | with_reducible assumption
    | (with_reducible first | apply keeps_ite | apply keeps_fabCoreReady | apply keeps_pairQuery | apply keeps_putJob | apply keeps_repath | apply hplain)

theorem keeps_installWrite {off : Nat} {v : Word} {plain : State → State} {s : State} (hm : Sub 1099956240 k) (h : Keeps k s0 s) (hplain : ∀ (y0 : State), Keeps k s0 y0 → Keeps k s0 (plain y0)) :
    Keeps k s0 (installWrite off v plain s) := by
  unfold installWrite
  repeat' first
    | (with_reducible refine hm.of ?_); exact rfl
    | with_reducible assumption
    | (with_reducible first | apply keeps_ite | apply keeps_bump | apply keeps_instApply | apply hplain)

theorem keeps_hostWrite {mgmt : Bool} {off : Nat} {v : Word} {plain : State → State} {s : State} (hm : Sub 503336976 k) (h : Keeps k s0 s) (hplain : ∀ (y0 : State), Keeps k s0 y0 → Keeps k s0 (plain y0)) :
    Keeps k s0 (hostWrite mgmt off v plain s) := by
  unfold hostWrite
  repeat' first
    | (with_reducible refine hm.of ?_); exact rfl
    | with_reducible assumption
    | (with_reducible first | apply keeps_ite | apply keeps_hostPut | apply hplain)

theorem keeps_mgmtWrite {off : Nat} {v : Word} {plain : State → State} {s : State} (hm : Sub 4399146467344 k) (h : Keeps k s0 s) (hplain : ∀ (y0 : State), Keeps k s0 y0 → Keeps k s0 (plain y0)) :
    Keeps k s0 (mgmtWrite off v plain s) := by
  unfold mgmtWrite
  repeat' first
    | (with_reducible refine hm.of ?_); exact rfl
    | with_reducible assumption
    | (with_reducible first | apply keeps_syncOut | apply keeps_pwrCmd | apply keeps_monWrite | apply hplain)
    | split

theorem keeps_deviceWrite {off : Nat} {v : Word} {plain : State → State} {s : State} (hm : Sub 101841727649272 k) (h : Keeps k s0 s) (hplain : ∀ (y0 : State), Keeps k s0 y0 → Keeps k s0 (plain y0)) :
    Keeps k s0 (deviceWrite off v plain s) := by
  unfold deviceWrite
  repeat' first
    | (with_reducible refine hm.of ?_); exact rfl
    | with_reducible assumption
    | (with_reducible first | apply keeps_setReg | apply keeps_jbCmd | apply hplain)
    | split

theorem keeps_mailboxWrite {host : Bool} {off : Nat} {v : Word} {plain : State → State} {s : State} (hm : Sub 32983668969936 k) (h : Keeps k s0 s) (hplain : ∀ (y0 : State), Keeps k s0 y0 → Keeps k s0 (plain y0)) :
    Keeps k s0 (mailboxWrite host off v plain s) := by
  unfold mailboxWrite
  repeat' first
    | (with_reducible refine hm.of ?_); exact rfl
    | with_reducible assumption
    | (with_reducible first | apply keeps_ite | apply keeps_bump | apply keeps_mbxRun | apply hplain)

theorem keeps_pageWrite {m : Master} {p : PageType} {i : Nat} {base : Nat} {off : Nat} {v : Word} {s : State} (hm : Sub 103353556139512 k) (h : Keeps k s0 s) :
    Keeps k s0 (pageWrite m p i base off v s) := by
  unfold pageWrite
  repeat' first
    | (with_reducible refine hm.of ?_); exact rfl
    | with_reducible assumption
    | intro _
    | (with_reducible first | apply keeps_ite | apply keeps_tierWrite | apply keeps_kvRingQuery | apply keeps_dieWrite | apply keeps_leaseWrite | apply keeps_portConfig | apply keeps_roastQuery | apply keeps_pourWrite | apply keeps_mailboxWrite | apply keeps_deviceWrite | apply keeps_updPolicy | apply keeps_installWrite | apply keeps_repath | apply keeps_plainWrite | apply keeps_pfcLevel | apply keeps_fabricWrite | apply keeps_mgmtWrite | apply keeps_numWrite | apply keeps_hostWrite)
    | ((have x := (); extract_lets +onlyGivenNames x; first | (have u : Stores := x; clear u) | (have u : Mem := x; clear u) | (have u := fun a => x a; clear u)); dsimp -zeta only [x]; clear x)
    | split

theorem keeps_headerWrite {p : PageType} {i : Nat} {base : Nat} {off : Nat} {v : Word} {s : State} (hm : Sub 18143142707696 k) (h : Keeps k s0 s) :
    Keeps k s0 (headerWrite p i base off v s) := by
  unfold headerWrite
  repeat' first
    | (with_reducible refine hm.of ?_); exact rfl
    | with_reducible assumption
    | (with_reducible first | apply keeps_ite | apply keeps_headWrite | apply keeps_errInject)

theorem keeps_ctlWrite {m : Master} {addr : Nat} {v : Word} {s : State} (hm : Sub 103353556139512 k) (h : Keeps k s0 s) :
    Keeps k s0 (ctlWrite m addr v s) := by
  unfold ctlWrite
  repeat' first
    | (with_reducible refine hm.of ?_); exact rfl
    | with_reducible assumption
    | (with_reducible first | apply keeps_ite | apply keeps_pageWrite | apply keeps_headerWrite | apply keeps_clkRequest | exact keeps_ctlAccess (hm.of rfl) (by assumption) (by assumption))
    | (have x := (); extract_lets +onlyGivenNames x; clear_value x)
    | split

theorem keeps_ctlRead {m : Master} {addr : Nat} {s : State} (hm : Sub 16 k) (h : Keeps k s0 s) :
    Keeps k s0 ((ctlRead m addr s).2) := by
  unfold ctlRead
  repeat' first
    | with_reducible assumption
    | with_reducible exact keeps_ctlAccess (hm.of rfl) (by assumption) (by assumption)
    | (have x := (); extract_lets +onlyGivenNames x; clear_value x)
    | split

theorem keeps_baristaStore {c : Nat} {a : Nat} {n : Nat} {v : Word} {s : State} (hm : Sub 103353556139512 k) (h : Keeps k s0 s) :
    Keeps k s0 (baristaStore c a n v s) := by
  unfold baristaStore
  repeat' first
    | (with_reducible refine hm.of ?_); exact rfl
    | with_reducible assumption
    | intro _
    | (with_reducible first | apply keeps_ite | apply keeps_ctlWrite | apply keeps_barFault | apply keeps_rinseCount | apply keeps_walkerCmd | apply keeps_workCounter | exact memSetNat_wf _ _ _ (by assumption))
    | ((have x := (); extract_lets +onlyGivenNames x; first | (have u : Stores := x; clear u) | (have u : Mem := x; clear u) | (have u := fun a => x a; clear u)); dsimp -zeta only [x]; clear x)
    | split
    | (with_reducible first | apply Keeps.put_mBar)

theorem keeps_baristaLoad {c : Nat} {a : Nat} {n : Nat} {s : State} (hm : Sub 18141941924304 k) (h : Keeps k s0 s) :
    Keeps k s0 ((baristaLoad c a n s).2) := by
  unfold baristaLoad
  repeat' first
    | (with_reducible refine hm.of ?_); exact rfl
    | with_reducible assumption
    | (with_reducible first | apply keeps_ctlRead | apply keeps_barFault | apply keeps_rinseCount | apply keeps_workCounter)
    | split

theorem keeps_masterWrite {m : Master} {a : Nat} {v : Word} {s : State} (hm : Sub 103353556139512 k) (h : Keeps k s0 s) :
    Keeps k s0 (masterWrite m a v s) := by
  unfold masterWrite
  repeat' first
    | (with_reducible refine hm.of ?_); exact rfl
    | with_reducible assumption
    | (with_reducible first | apply keeps_ctlWrite | apply keeps_baristaStore)
    | split

theorem keeps_masterRead {m : Master} {a : Nat} {s : State} (hm : Sub 18141941924304 k) (h : Keeps k s0 s) :
    Keeps k s0 ((masterRead m a s).2) := by
  unfold masterRead
  repeat' first
    | (with_reducible refine hm.of ?_); exact rfl
    | with_reducible assumption
    | (with_reducible first | apply keeps_ctlRead | apply keeps_baristaLoad)
    | split

theorem keeps_headCommand {page : BitVec 14} {off : Nat} {v : Word} {s : State} (hm : Sub 103353556139512 k) (h : Keeps k s0 s) :
    Keeps k s0 (headCommand page off v s) := by
  unfold headCommand
  repeat' first
    | (with_reducible refine hm.of ?_); exact rfl
    | with_reducible assumption
    | with_reducible apply keeps_ctlWrite
    | split

theorem keeps_onHeader {page : BitVec 14} {off : Nat} {v : Word} {s : State} (hm : Sub 103353556139512 k) (h : Keeps k s0 s) :
    KeepsR k s0 (onHeader page off v s) := by
  unfold onHeader
  repeat' first
    | (with_reducible refine hm.of ?_); exact rfl
    | with_reducible assumption
    | (with_reducible first | apply keepsR_next | apply keeps_headCommand)

theorem keeps_execSoftReset {page : BitVec 14} {s : State} (hm : Sub 103353556139512 k) (h : Keeps k s0 s) :
    KeepsR k s0 (execSoftReset page s) := by
  unfold execSoftReset
  repeat' first
    | (with_reducible refine hm.of ?_); exact rfl
    | with_reducible assumption
    | with_reducible apply keeps_onHeader

theorem keeps_execErrStatusClear {page : BitVec 14} {v : BitVec 64} {s : State} (hm : Sub 103353556139512 k) (h : Keeps k s0 s) :
    KeepsR k s0 (execErrStatusClear page v s) := by
  unfold execErrStatusClear
  repeat' first
    | (with_reducible refine hm.of ?_); exact rfl
    | with_reducible assumption
    | with_reducible apply keeps_onHeader

theorem keeps_execErrInject {page : BitVec 14} {v : BitVec 64} {s : State} (hm : Sub 103353556139512 k) (h : Keeps k s0 s) :
    KeepsR k s0 (execErrInject page v s) := by
  unfold execErrInject
  repeat' first
    | (with_reducible refine hm.of ?_); exact rfl
    | with_reducible assumption
    | with_reducible apply keeps_onHeader

theorem keeps_execBlkLock {page : BitVec 14} {s : State} (hm : Sub 103353556139512 k) (h : Keeps k s0 s) :
    KeepsR k s0 (execBlkLock page s) := by
  unfold execBlkLock
  repeat' first
    | (with_reducible refine hm.of ?_); exact rfl
    | with_reducible assumption
    | with_reducible apply keeps_onHeader

theorem keeps_execCtrSnap {page : BitVec 14} {hold : Bool} {s : State} (hm : Sub 103353556139512 k) (h : Keeps k s0 s) :
    KeepsR k s0 (execCtrSnap page hold s) := by
  unfold execCtrSnap
  repeat' first
    | (with_reducible refine hm.of ?_); exact rfl
    | with_reducible assumption
    | with_reducible apply keeps_onHeader

theorem keeps_execRegisterWrite {m : Master} {addr : BitVec 26} {v : BitVec 64} {s : State} (hm : Sub 103353556139512 k) (h : Keeps k s0 s) :
    KeepsR k s0 (execRegisterWrite m addr v s) := by
  unfold execRegisterWrite
  repeat' first
    | (with_reducible refine hm.of ?_); exact rfl
    | with_reducible assumption
    | (with_reducible first | apply keepsR_next | apply keeps_masterWrite)

end Sys2Proof.Machine
end

