-- ==== Sys2Proof/Laws/KeepsHostPackets.lean ====
section
/-! SUPPORT. What the operations of Machine/HostPackets.lean keep. -/

namespace Sys2Proof.Machine

variable {k : Nat} {s0 : State}

theorem keeps_windowServe {q : Nat} {op : HostOp} {p : Packet} {dup : Bool} {s : State} (hm : Sub 103353556139512 k) (h : Keeps k s0 s) :
    Keeps k s0 (windowServe q op p dup s) := by
  unfold windowServe
  repeat' first
    | (with_reducible refine hm.of ?_); exact rfl
    | with_reducible assumption
    | (with_reducible first | apply keeps_ite | refine keeps_foldl2 (fun _ _ _ => ?_) _ _ ?_ | refine keeps_forAll ?_ fun _ _ _ => ?_ | apply keeps_ctlRead | apply keeps_hostNak | apply keeps_ctlWrite | apply keeps_putQp | apply keeps_hostAnswer)

theorem keeps_hostProcess {q : Nat} {op : HostOp} {p : Packet} {s : State} (hm : Sub 103353556139512 k) (h : Keeps k s0 s) :
    Keeps k s0 (hostProcess q op p s) := by
  unfold hostProcess
  repeat' first
    | (with_reducible refine hm.of ?_); exact rfl
    | with_reducible assumption
    | (with_reducible first | apply keeps_ite | apply keeps_hostRnr | apply keeps_windowServe | apply keeps_hostDuplicate | apply keeps_putQp | apply keeps_hostDrop | apply keeps_hostAnswer | apply keeps_hostData)

theorem keeps_packetDone {p : Packet} {s : State} (hm : Sub 402653200 k) (h : Keeps k s0 s) :
    Keeps k s0 (packetDone p s) := by
  unfold packetDone
  repeat' first
    | (with_reducible refine hm.of ?_); exact rfl
    | with_reducible assumption
    | with_reducible apply keeps_hostDrain

theorem keeps_qpRun {q : Nat} {x1 : Nat} {x2 : State} (hm : Sub 103353556139512 k) (h : Keeps k s0 x2) :
    Keeps k s0 (qpRun q x1 x2) := by
  induction x1 generalizing x2 with
  | zero =>
    unfold qpRun
    repeat' first
      | (with_reducible refine hm.of ?_); exact rfl
      | with_reducible assumption
      | (with_reducible first | apply keeps_ite | apply keeps_putQp | apply keeps_hostFinish | apply keeps_packetDone | apply keeps_hostProcess)
      | (have x := (); extract_lets +onlyGivenNames x; clear_value x)
      | split
  | succ n ih =>
    unfold qpRun
    repeat' first
      | (with_reducible refine hm.of ?_); exact rfl
      | with_reducible assumption
      | (with_reducible first | apply ih | apply keeps_ite | apply keeps_putQp | apply keeps_hostFinish | apply keeps_packetDone | apply keeps_hostProcess)
      | (have x := (); extract_lets +onlyGivenNames x; clear_value x)
      | split

theorem keeps_qpSettle {q : Nat} {s : State} (hm : Sub 103353556139512 k) (h : Keeps k s0 s) :
    Keeps k s0 (qpSettle q s) := by
  unfold qpSettle
  repeat' first
    | (with_reducible refine hm.of ?_); exact rfl
    | with_reducible assumption
    | with_reducible apply keeps_qpRun

theorem keeps_qpUnder {q : Nat} {f : State → State} {s : State} (hm : Sub 436228112 k) (h : Keeps k s0 s) (hf : ∀ (y0 : State), Keeps k s0 y0 → Keeps k s0 (f y0)) :
    Keeps k s0 (qpUnder q f s) := by
  unfold qpUnder
  repeat' first
    | (with_reducible refine hm.of ?_); exact rfl
    | with_reducible assumption
    | (with_reducible first | apply keeps_ite | apply keeps_qpClear | apply keeps_putQp | apply hf)

theorem keeps_packetArrive {op : HostOp} {p : Packet} {s : State} (hm : Sub 103353556139512 k) (h : Keeps k s0 s) :
    Keeps k s0 (packetArrive op p s) := by
  unfold packetArrive
  repeat' first
    | (with_reducible refine hm.of ?_); exact rfl
    | with_reducible assumption
    | intro _
    | (with_reducible first | apply keeps_ite | apply keeps_qpUnder | apply keeps_putQp | apply keeps_hostDrop | apply keeps_hostFill | apply keeps_hostCe | apply keeps_qpSettle)
    | (have x := (); extract_lets +onlyGivenNames x; clear_value x)
    | split

theorem keeps_pauseClasses {port : Nat} {classes : BitVec 8} {quanta : List Nat} {s : State} (hm : Sub 402653200 k) (h : Keeps k s0 s) :
    Keeps k s0 (pauseClasses port classes quanta s) := by
  unfold pauseClasses
  repeat' first
    | (with_reducible refine hm.of ?_); exact rfl
    | with_reducible assumption
    | (with_reducible first | apply keeps_ite | refine keeps_forAll ?_ fun _ _ _ => ?_ | apply keeps_putHp | apply keeps_hostUnpause)

theorem keeps_throughBuffer {port : Nat} {cls : Nat} {n : Nat} {f : State → State} {s : State} (hm : Sub 402653200 k) (h : Keeps k s0 s) (hf : ∀ (y0 : State), Keeps k s0 y0 → Keeps k s0 (f y0)) :
    Keeps k s0 (throughBuffer port cls n f s) := by
  unfold throughBuffer
  repeat' first
    | (with_reducible refine hm.of ?_); exact rfl
    | with_reducible assumption
    | (with_reducible first | apply keeps_ite | apply keeps_hostDrop | apply keeps_hostFill | apply keeps_hostDrain | apply hf)

theorem keeps_frameServe {port : Nat} {f : Frame} {s : State} (hm : Sub 103353556139512 k) (h : Keeps k s0 s) :
    Keeps k s0 (frameServe port f s) := by
  unfold frameServe
  repeat' first
    | (with_reducible refine hm.of ?_); exact rfl
    | with_reducible assumption
    | intro _
    | (with_reducible first | apply keeps_ite | apply keeps_cnpArrive | apply keeps_cmTake | apply keeps_packetArrive | apply keeps_hostDrop | apply keeps_throughBuffer | apply keeps_pauseClasses)
    | (have x := (); extract_lets +onlyGivenNames x; clear_value x)
    | split

theorem keeps_frameArrive {port : Nat} {f : Frame} {s : State} (hm : Sub 103353556139512 k) (h : Keeps k s0 s) :
    Keeps k s0 (frameArrive port f s) := by
  unfold frameArrive
  repeat' first
    | (with_reducible refine hm.of ?_); exact rfl
    | with_reducible assumption
    | (with_reducible first | apply keeps_ite | apply keeps_bump | apply keeps_frameServe | apply keeps_hostDrop)

theorem keeps_writeExpire {w : TWrite} {s : State} (hm : Sub 18142378152400 k) (h : Keeps k s0 s) :
    Keeps k s0 (writeExpire w s) := by
  unfold writeExpire
  repeat' first
    | (with_reducible refine hm.of ?_); exact rfl
    | with_reducible assumption
    | (with_reducible first | apply keeps_ite | apply keeps_hostTierNak | apply keeps_giveHold | apply keeps_runRefuse | apply keeps_tierFault | apply keeps_putQp | apply keeps_dropWrites | apply keeps_packetDone)
    | (have x := (); extract_lets +onlyGivenNames x; refine keeps_cut k s0 x ?_ fun _ => ?_; rotate_left; clear_value x)
    | (have x := (); extract_lets +onlyGivenNames x; clear_value x)
    | split
    | dsimp only [x]
    | (with_reducible first | apply Keeps.put_writes)

theorem keeps_writeTimers {s : State} (hm : Sub 18142378152400 k) (h : Keeps k s0 s) :
    Keeps k s0 (writeTimers s) := by
  unfold writeTimers
  repeat' first
    | (with_reducible refine hm.of ?_); exact rfl
    | with_reducible assumption
    | (with_reducible first | apply keeps_ite | refine keeps_forAll ?_ fun _ _ _ => ?_ | apply keeps_retryHolds | apply keeps_writeExpire)

theorem keeps_hostTick {s : State} (hm : Sub 103353556139512 k) (h : Keeps k s0 s) :
    Keeps k s0 (hostTick s) := by
  unfold hostTick
  repeat' first
    | (with_reducible refine hm.of ?_); exact rfl
    | with_reducible assumption
    | (with_reducible first | refine keeps_forAll ?_ fun _ _ _ => ?_ | apply keeps_writeTimers | apply keeps_qpSettle)

theorem keeps_onPort {op : HostOp} {p : Packet} {s : State} (hm : Sub 103353556139512 k) (h : Keeps k s0 s) :
    KeepsR k s0 (onPort op p s) := by
  unfold onPort
  repeat' first
    | (with_reducible refine hm.of ?_); exact rfl
    | with_reducible assumption
    | intro _
    | (with_reducible first | apply keeps_packetArrive | apply keeps_onUnit)

theorem keeps_execHostFrame {port : BitVec 2} {f : Frame} {s : State} (hm : Sub 103353556139512 k) (h : Keeps k s0 s) :
    KeepsR k s0 (execHostFrame port f s) := by
  unfold execHostFrame
  repeat' first
    | (with_reducible refine hm.of ?_); exact rfl
    | with_reducible assumption
    | (with_reducible first | apply keepsR_next | apply keeps_frameArrive)

theorem keeps_execRcSend {p : Packet} {s : State} (hm : Sub 103353556139512 k) (h : Keeps k s0 s) :
    KeepsR k s0 (execRcSend p s) := by
  unfold execRcSend
  repeat' first
    | (with_reducible refine hm.of ?_); exact rfl
    | with_reducible assumption
    | with_reducible apply keeps_onPort

theorem keeps_execRdmaWrite {p : Packet} {s : State} (hm : Sub 103353556139512 k) (h : Keeps k s0 s) :
    KeepsR k s0 (execRdmaWrite p s) := by
  unfold execRdmaWrite
  repeat' first
    | (with_reducible refine hm.of ?_); exact rfl
    | with_reducible assumption
    | with_reducible apply keeps_onPort

theorem keeps_execRdmaRead {p : Packet} {s : State} (hm : Sub 103353556139512 k) (h : Keeps k s0 s) :
    KeepsR k s0 (execRdmaRead p s) := by
  unfold execRdmaRead
  repeat' first
    | (with_reducible refine hm.of ?_); exact rfl
    | with_reducible assumption
    | with_reducible apply keeps_onPort

theorem keeps_execCompareSwap {p : Packet} {s : State} (hm : Sub 103353556139512 k) (h : Keeps k s0 s) :
    KeepsR k s0 (execCompareSwap p s) := by
  unfold execCompareSwap
  repeat' first
    | (with_reducible refine hm.of ?_); exact rfl
    | with_reducible assumption
    | with_reducible apply keeps_onPort

theorem keeps_execFetchAdd {p : Packet} {s : State} (hm : Sub 103353556139512 k) (h : Keeps k s0 s) :
    KeepsR k s0 (execFetchAdd p s) := by
  unfold execFetchAdd
  repeat' first
    | (with_reducible refine hm.of ?_); exact rfl
    | with_reducible assumption
    | with_reducible apply keeps_onPort

end Sys2Proof.Machine
end

