-- ==== Sys2Proof/Laws/KeepsClock.lean ====
section
/-! SUPPORT. What the operations of Machine/Clock.lean keep. -/

namespace Sys2Proof.Machine

variable {k : Nat} {s0 : State}

theorem keeps_cluTick {c : Nat} {s : State} (hm : Sub 18141941924304 k) (h : Keeps k s0 s) :
    Keeps k s0 (cluTick c s) := by
  unfold cluTick
  repeat' first
    | (with_reducible refine hm.of ?_); exact rfl
    | with_reducible assumption
    | (with_reducible first | apply keeps_ite | apply keeps_bump | apply keeps_walkerMove | apply keeps_walkerTick)

theorem keeps_vecTick {t : Nat} {s : State} (hm : Sub 16 k) (h : Keeps k s0 s) :
    Keeps k s0 (vecTick t s) := by
  unfold vecTick
  repeat' first
    | (with_reducible refine hm.of ?_); exact rfl
    | with_reducible assumption
    | (with_reducible first | apply keeps_ite | apply keeps_bump)

theorem keeps_partEnd {t : Nat} {s : State} (hm : Sub 64 k) (h : Keeps k s0 s) :
    Keeps k s0 (partEnd t s) := by
  unfold partEnd
  repeat' first
    | (with_reducible refine hm.of ?_); exact rfl
    | with_reducible assumption
    | (with_reducible first | apply keeps_wfaEdge | apply keeps_putTile)

theorem keeps_unitEdge {s : State} (hm : Sub 18167744268240 k) (h : Keeps k s0 s) :
    Keeps k s0 (unitEdge s) := by
  unfold unitEdge
  repeat' first
    | (with_reducible refine hm.of ?_); exact rfl
    | with_reducible assumption
    | (with_reducible first | refine keeps_forAll ?_ fun _ _ _ => ?_ | apply keeps_carEdge | apply keeps_vecEdge | apply keeps_netEdge | apply keeps_storeEdge | apply keeps_matEdge | apply keeps_cupPick | apply keeps_amoSettle | apply keeps_vecTick | apply keeps_phaseCmdEdge | apply keeps_partEnd)

theorem keeps_pourTick {s : State} (hm : Sub 27395280 k) (h : Keeps k s0 s) :
    Keeps k s0 (pourTick s) := by
  unfold pourTick
  repeat' first
    | (with_reducible refine hm.of ?_); exact rfl
    | with_reducible assumption
    | (with_reducible first | refine keeps_forAll ?_ fun _ _ _ => ?_ | apply keeps_pourStatus)

theorem keeps_cycleBegin {s : State} (hm : Sub 55525337269712 k) (h : Keeps k s0 s) :
    Keeps k s0 (cycleBegin s) := by
  unfold cycleBegin
  repeat' first
    | (with_reducible refine hm.of ?_); exact rfl
    | with_reducible assumption
    | (with_reducible first | refine keeps_forAll ?_ fun _ _ _ => ?_ | apply keeps_vecHead | apply keeps_refresh)

theorem keeps_tick {s : State} (hm : Sub 140736951484410 k) (h : Keeps k s0 s) :
    Keeps k s0 (tick s) := by
  unfold tick
  repeat' first
    | (with_reducible refine hm.of ?_); exact rfl
    | with_reducible assumption
    | (with_reducible first | refine keeps_forAll ?_ fun _ _ _ => ?_ | apply keeps_hostTick | apply keeps_moveStep | apply keeps_unitEdge | apply keeps_unlockGo | apply keeps_cycleBegin | apply keeps_cluTick | apply keeps_collTick | apply keeps_bindRetries | apply keeps_pourTick | apply keeps_tierTick)
    | (with_reducible first | apply Keeps.put_cycle)

end Sys2Proof.Machine
end

