-- ==== Sys2Proof/Tests/Slice0.lean ====
section
/-! SUPPORT. Tests of the model. The expected results come from the spec, whose rule each test names; the witnesses show, for each statement
with hypotheses, states and operands that meet them. -/

namespace Sys2Proof.Tests

set_option maxRecDepth 100000

open Sys2Proof Sys2Proof.Machine

/-! ### Small states -/

/-- A state with some registers written. -/
def regs (l : List (Nat × Nat)) (s : State) : State := l.foldl (fun s p => setReg s p.1 (BitVec.ofNat 64 p.2)) s
/-- The reset state. -/
def r0 : State := State.reset
/-- The reset state with every power domain on. -/
def on0 : State := regs [(mgmtPage + 0x110, 2 ^ 30 - 1)] r0
/-- An asynchronous row of ones. -/
def row1 : AsyncRow := { row := 1, mask := 1, data := 0xFF, win := none, desc := none }
/-- The row waits for its bank of a store. -/
def queued0 (a : Store) : State := putBankQueue r0 a 1 [⟨false, row1⟩]
/-- A network word of zeros. -/
def word0 : NetWord := { payload := 0, ctx := 0, seq := false, parity := 0 }
/-- Vector fields of zeros. -/
def va0 : VecArgs :=
  { var := 0, rm := 0, sat := false, cen := false, dst := 0, srcA := 1, srcB := 2, srcC := 0, mask := 0, offen := 0, offc := 0, ctag := 0, imm := 0 }
/-- Collective data at the bounds of its fields. -/
def cd1 : CollData :=
  { group := 255, collId := 2 ^ 32 - 1, attempt := 255, rank := 2 ^ 32 - 1, piece := 0, node := 2 ^ 32 - 1, gather := true, data := [1, 2, 3],
    poison := [true, false, true], sumsq := [7], veto := true, origin := some (65535, 2 ^ 32 - 1), version := 5, status := 6, digest := 7,
    shard := 8, step := 9 }

/-! ### Witnesses: for each statement with hypotheses, states and operands that meet them -/

theorem wit_idle : r0.pending = [] := by decide
theorem wit_wf : (Instr.seqNop 1023).wf = true ∧ (Instr.seqNop 1024).wf = false := by decide
theorem wit_frame : exec (.seqNop 0) r0 = .next r0 := rfl
theorem wit_storeFrames : sound r0 = true ∧ (∃ u, exec (.writeRow 1023 1 24575) r0 = .next u) ∧
    (∃ u, exec (.asyncWriteArrive (.car 63) row1) r0 = .next u) ∧
    bankQueue (queued0 (.sp 0)) (.sp 0) 1 = [⟨false, row1⟩] ∧
    (∃ u, exec (.asyncWriteLand (.sp 0) 1) (queued0 (.sp 0)) = .next u) ∧
    (∃ u, exec (.dmaDescData 63 0) r0 = .next u) ∧ (∃ u, exec (.bankTransitionDone (.car 63) 95) r0 = .next u) ∧
    storeBank (.car 63) (0 / storeRow (.car 63)) ≠ 95 :=
  ⟨by decide, ⟨_, rfl⟩, ⟨_, rfl⟩, by decide, ⟨_, rfl⟩, ⟨_, rfl⟩, ⟨_, rfl⟩, by decide⟩
theorem wit_waitingSound : sound (queued0 (.sp 0)) = true ∧ rowAmo (queued0 (.sp 0)) row1 = none := by decide
theorem wit_storeWrite : sound r0 = true ∧ (∀ b k, bankQueue r0 b k = []) ∧ 0x17_FFFF + ([1] : List Byte).length ≤ storeSize (.sp 1023) :=
  ⟨by decide, by intro b k; cases b <;> rfl, by decide⟩
theorem wit_sound : sound r0 = true ∧ ∃ t, step r0 = .next t := ⟨by decide, ⟨_, rfl⟩⟩
theorem wit_bundle : bundleFits Bundle.none_ = true ∧ bundleFits { Bundle.none_ with seq := .loop 7 512, vec := some (255, va0) } = true := by decide
theorem wit_bundleDecode : bundleDecode 0 = some Bundle.none_ := by decide
theorem wit_coll : collFits cd1 = true := by decide
/-- A tile in the first context with every scratchpad and accumulator row allocated. -/
def alloc0 : State := regs [(tileBase 0 + 0x1D8, 0xDFFF_0000), (tileBase 0 + 0x160, 0xBF00)] r0
theorem wit_sequencer : loopBad (getTile r0 1023) 512 = false ∧
    (let s := refresh (putTile r0 0 { Tile.reset with ctxState := [(3, 2)] }); (getTile s 0).loops = [] ∧ ctxSeen s 0 3 = 2) ∧
    (getWalker r0 0).st ≠ .running := by decide
theorem wit_phaseEnd : let s := regs [(phaseWordAddr 0 0 1, 1)] (putWalker r0 0 { Walker.reset with st := .running })
    (getWalker s 0).cyc + 1 = wfld (phaseWord s 0 (getWalker s 0).cur.toNat 1) 23 0 := by decide
/-- A running phase of two cycles with one participating tile. -/
def run0 : State := regs [(phaseWordAddr 0 0 1, 2)] (putTile (putWalker r0 0 { Walker.reset with st := .running }) 0 { Tile.reset with part := true })
theorem wit_bundleIssue : (getWalker run0 0).st = .running ∧ (tilesOf 0).filter (fun t => (getTile run0 t).part) = [0] ∧
    (issueCheck (bump run0 (tileBase 0 + 0x800)) 0 0 2).2 = none ∧ (getWalker run0 0).cyc + 1 < 2 ∧
    (getWalker (bundleEffects 0 (issueCheck (bump run0 (tileBase 0 + 0x800)) 0 0 2).1 (bump run0 (tileBase 0 + 0x800))) 0).st ≠ .stopped := by decide
theorem wit_useFree : useFree alloc0 0 ⟨false, 24575, 1, 0, 0⟩ := by unfold useFree; decide
theorem wit_generator : useFree (regs [(tileBase 0 + 0x210, 0x4000_0000_0000_0000)] alloc0) 0
    (genUse (regs [(tileBase 0 + 0x210, 0x4000_0000_0000_0000)] alloc0) 0 0 0) := by unfold useFree; decide
theorem wit_writeRow : let s := putTile alloc0 0 { Tile.reset with parts := [(0, [word0])] }
    partOf (getTile s 0) 0 (getTile s 0).active = [word0] ∧ useFree s 0 ⟨false, 0, 1, 0, 0⟩ := by unfold useFree; decide
theorem wit_deliver : let d : Delivery := { port := 0, route := 4, row := 0, ctx := 0, due := 0 }
    (getTile (putTile r0 0 { Tile.reset with delivers := [d] }) 0).delivers = [d] ∧ d.due ≤ r0.cycle := by decide
theorem wit_workCounter : ((getClu r0 0).amoNow.filter (fun p => p.1 == r0.cycle && p.2.1 == 0) = []) ∧
    (let s := putClu r0 0 { Cluster.reset with amoNow := [(0, 0, 5, false)] }
     (getClu s 0).amoNow.filter (fun p => p.1 == s.cycle && p.2.1 == 0) = [(s.cycle, 0, 5, false)]) := by decide
theorem wit_wfa : let s := putTile r0 0 { Tile.reset with wfas := [⟨0, 1, 0⟩], wfaDone := [(7, 1)] }
    (getTile s 0).wfas = [⟨0, 1, 0⟩] ∧ (WfaPending.due ⟨0, 1, 0⟩) ≤ s.cycle ∧ (getTile s 0).wfaDone = [(7, 1)] := by decide
theorem wit_switch : let s := putTile r0 0 { Tile.reset with parts := [(0, [word0]), (4, [word0]), (8, [word0])], wfas := [⟨0, 1, 0⟩] }
    partOf (getTile s 0) 0 (getTile s 0).active = [word0] ∧ partOf (getTile s 0) 1 (getTile s 0).active = [word0] ∧
    partOf (getTile s 0) 2 (getTile s 0).active = [word0] ∧ (getTile s 0).wfas = [⟨0, 1, 0⟩] := by decide
/-- A block of one chunk in BF16. -/
def blk0 : BlockArgs := { mode := 0, stat := 0, sbank := 0, ssel := 0, chk := false, fmtA := 1, fmtB := 1, src := 0, base := 0, depth := 0, kch := 0, ltag := 0 }
/-- The block, running. -/
def blkRun (n : Nat) : Block :=
  { args := blk0, mscale := 0, bundle := 0, cycle := 0, taken := n, fly := [], open_ := [], run := [], scaleRow := 0, pend := [], held := [], cols := [], sample := false }
theorem wit_block : blockEncOk (zt1 alloc0 0) blk0 = true ∧ blockFault alloc0 0 blk0 = none ∧ 0 < blockN blk0 ∧ (blkRun (blockN blk0)).taken = blockN blk0 ∧
    (blkRun 0).taken < blockN blk0 ∧ (∀ n ≤ blockN blk0, let s := putTile r0 0 { Tile.reset with block := some (blkRun n) }
      (getTile s 0).block = some (blkRun n)) ∧
    (blkRun 0).cycle + 1 ≤ ({ r0 with cycle := 1 } : State).cycle ∧ r0.cycle < (blkRun 0).cycle + 1 ∧
    (blkRun 0).cycle + blockC (zt1 r0 0) blk0 * blockN blk0 + 8 ≤ ({ r0 with cycle := 10000 } : State).cycle := by
  decide
theorem wit_network : (getTile r0 0).parInj = false ∧ word0.parity = parityBits 0 word0.payload ∧ dataUnits r0 0 0 0 4 = [] ∧ tokenUnits r0 0 0 4 = [] ∧
    routeMask { r0 with mem := { r0.mem with ctx := memSet [] (ctxAt 0 0 (0x8000 + 4)) 1 } } 0 0 0 4 ≠ 0 := by decide
/-- A tile with a steering unit of a kind, and a token held since cycle 0. -/
def steer0 (kind : Nat) (h : Option HeldToken) (cycle : Nat) : State :=
  { putTile r0 0 { Tile.reset with steer := [(0, { SteerUnit.reset with token := h })] } with
    cycle := cycle, mem := { r0.mem with ctx := memSetNat [] (ctxAt 0 0 0x8010) 8 kind } }
theorem wit_token : ∀ k ∈ [1, 2, 3], let s := steer0 k none 0
    stKind (steerCfg s 0 0 0) = k ∧ tokenOk k 1 = true ∧ (getSteer s 0 0 0).token = none ∧ (getSteer s 0 0 0).holdB = none := by decide
/-- A MERGE unit that holds a word of its first input. -/
def merge0 (seq : Bool) : State :=
  let s := steer0 2 none 0
  putSteer s 0 0 0 { SteerUnit.reset with holdA := some { word0 with seq := seq } }
theorem wit_mergeHeld : ∀ b ∈ [true, false], let s := merge0 b
    stKind (steerCfg s 0 0 0) = 2 ∧ tokenOk 2 0 = true ∧ (getSteer s 0 0 0).token = none ∧
    (getSteer s 0 0 0).holdA = some { word0 with seq := b } := by decide
theorem wit_steerWord : ∀ k ∈ [1, 2, 3], let s := steer0 k (some ⟨1, false, 0⟩) 0
    (getSteer s 0 0 0).token = some ⟨1, false, 0⟩ ∧ s.cycle ≤ 0 + pairWin s 0 0 ∧ stKind (steerCfg s 0 0 0) = k := by decide
theorem wit_steerExpired : 0 + pairWin (steer0 1 (some ⟨1, false, 0⟩) 16) 0 0 < (steer0 1 (some ⟨1, false, 0⟩) 16).cycle := by decide
theorem wit_nodeEdge : (∀ o ∈ [1, 4], let s := putTile r0 0 { Tile.reset with outs := [⟨0, o, word0⟩] }
      sound s = true ∧ (getTile s 0).leaving = [] ∧ (getTile s 0).steerIn = [] ∧ (getTile s 0).outs = [⟨0, o, word0⟩] ∧
      (partOf (getTile s 0) 0 word0.ctx).length < partDepth 0) ∧ (neighbour 0 1).isSome = true ∧
    (let s := putTile r0 0 { Tile.reset with outs := [⟨2, 4, word0⟩, ⟨2, 4, word0⟩] }
     sound s = true ∧ (getTile s 0).outs = [⟨2, 4, word0⟩, ⟨2, 4, word0⟩] ∧ (getTile s 0).steerIn = [] ∧ (getTile s 0).leaving = []) ∧
    (∀ k ∈ [1, 3], let s := putTile (steer0 k none 0) 0 { Tile.reset with steer := [(0, { SteerUnit.reset with token := some ⟨0, false, 0⟩ })], steerIn := [(0, 0, false, word0)] }
     sound s = true ∧ (getTile s 0).leaving = [] ∧ (getTile s 0).outs = [] ∧ (getTile s 0).steerIn = [(0, 0, false, word0)] ∧
     (getSteer s 0 0 0).token = some ⟨0, false, 0⟩ ∧ s.cycle ≤ 0 + pairWin s 0 0 ∧ stKind (steerCfg s 0 0 0) = k) := by decide
/-- Fields that carry no reserved encoding, for an operation: its needed operands are descriptors 0 to 4, the others absent. -/
def vaOf (opc : Nat) : VecArgs :=
  let f := fun (r : Nat) => if (vNeeds opc 0).contains r then BitVec.ofNat 8 r else 0xFF
  { va0 with dst := f 0, srcA := f 1, srcB := f 2, srcC := f 3, mask := f 4 }
theorem wit_vecReserved : ∀ p ∈ vecCommands, vecReserved r0 0 p.1 (vaOf p.1) = false := by decide
/-- Two FP32 descriptors of one element at scratchpad row 0. -/
def vd0 : State :=
  { alloc0 with mem := { r0.mem with vdesc := memSetNat (memSetNat [] (vdAt 0 0) 64 0x1_0001_0000_0000_0000) (vdAt 0 64) 64 0x1_0001_0000_0000_0000 } }
/-- A queued ABS. -/
def en0 (started : Option Nat) : VecEntry :=
  { opc := 7, args := vaOf 7, ctx := 0, cval := 0, started := started, last := 0, run := none }
theorem wit_vecStart : let s := putTile vd0 0 { Tile.reset with vq := [en0 none] }
    vecReserved vd0 0 7 (vaOf 7) = false ∧ (getTile vd0 0).vq = [] ∧ startFault s 0 0 (vPlan s 0 7 (vaOf 7) 0) 1 = none := by decide
theorem wit_vecQueued : vecHeld (putTile r0 0 { Tile.reset with vq := [en0 none] }) 0 < 4 ∧ (getTile r0 0).vecFree ≤ r0.cycle ∧
    (let s := putTile r0 0 { Tile.reset with vecFree := 1 }; (getTile s 0).vq = [] ∧ s.cycle < (getTile s 0).vecFree ∧ vecHeld s 0 = 1) := by decide
/-- The queued ABS in its last cycle. -/
def enRun : VecEntry :=
  { en0 (some 0) with run := some { plan := vPlan vd0 0 7 (vaOf 7) 0, msg := 0, acc := VAcc.start, wait := [], late := [], sent := false, shut := false } }
theorem wit_vecComplete : let s := putTile vd0 0 { Tile.reset with vq := [enRun] }
    let r : VecRun := { plan := vPlan vd0 0 7 (vaOf 7) 0, msg := 0, acc := VAcc.start, wait := [], late := [], sent := false, shut := false }
    (getTile s 0).vq = [enRun] ∧ enRun.started = some 0 ∧ enRun.run = some r ∧ s.cycle = enRun.last ∧ enRun.args.cen = false ∧ r.plan.kind ≠ .census ∧
    summaryNonfinite (summaryBits r.plan.opc (vecSummary (vecEnv s 0 enRun r.plan) r.acc)) = false := by decide
/-- Cluster 0 with its walker in a state, every domain on. -/
def walk0 (st : WalkSt) : State := putWalker on0 0 { Walker.reset with st := st }
theorem wit_walker : ∀ st ∈ [WalkSt.idle, .sampling, .running, .barrier, .call, .stopped, .done],
    (getWalker (walk0 st) 0).st = st ∧ cluRefused (walk0 st) 0 = none ∧ (getClu (walk0 st) 0).run = none ∧ blkEn (walk0 st) (clusterBase 0) = true ∧
    blkEn (regs [(clusterBase 0 + 0x10, 0)] (walk0 st)) (clusterBase 0) = false := by decide
/-- Cluster c in a state of `CLU_BIND`, held by job 5, every domain on. -/
def bind5 (c st : Nat) : State := regs [(clusterBase c + 0x680, st * 2 ^ 61 + 0x500_0000_0000)] on0
theorem wit_refused : cluRefused r0 0 = some (bump r0 (mgmtPage + 0x808)) ∧ cluRefused (bind5 63 3) 63 = some (bump (bind5 63 3) (devicePage + 0x810)) ∧
    cluBlocked (bind5 63 3) 63 = true ∧ cluBlocked r0 63 = false ∧ (getClu r0 63).barReset = false ∧
    (getClu (putClu r0 63 { Cluster.reset with barReset := true }) 63).barReset = true := by decide
/-- An update run at its first instruction. -/
def run1 (waiting loaded : Bool) : UpdRun :=
  { tag := 5, shard := 0, step := 1, hdrAddr := 0, hdr := ⟨0, false, 0, 0, 4096, 0, 0, 0, 0, 0⟩, waiting := waiting, since := 0, scalars := [], blk := 0,
    pc := 0, loaded := loaded, vals := [], scales := [], zeroed := none, dropped := false }
theorem wit_walkerRun : (getClu (putClu r0 0 { Cluster.reset with run := some (run1 false false) }) 0).run ≠ none ∧
    blkEn (putClu r0 0 { Cluster.reset with run := some (run1 false false) }) (clusterBase 0) = true := by decide
/-- A waiting entry 0 of one cycle. -/
def samp0 : State := refresh (regs [(phaseWordAddr 0 0 0, 2 ^ 63), (phaseWordAddr 0 0 1, 1)] (walk0 .sampling))
theorem wit_sample : (getWalker samp0 0).st = .sampling ∧ (getWalker samp0 0).chosen = none ∧ (getClu samp0 0).run = none ∧ walkerHolds samp0 0 = false ∧
    (let v := seenState samp0; 0 < regF v (clusterBase 0 + 0x118) 31 0 ∧
      entryBad v 0 0 = false ∧ entryCall v 0 0 = false ∧ unmetTerms v 0 0 = 0 ∧ entryF v 0 0 5 21 21 = 0) := by decide
theorem wit_phaseStart : let s := refresh (regs [(phaseWordAddr 0 0 0, 0x1_0000_0000)] (putTile (putWalker r0 0 { Walker.reset with st := .sampling, chosen := some (0, false) }) 0
      { Tile.reset with ctxState := [(0, 2)] }))
    (getWalker s 0).st = .sampling ∧ (getWalker s 0).chosen = some (0, false) ∧ (getClu s 0).run = none ∧ blkEn s (clusterBase 0) = true ∧ bit (entryF s 0 0 0 47 32) 0 = true ∧
    ∀ t ∈ tilesOf 0, bit (entryF s 0 0 0 47 32) (t % 16) = true →
      ctxSeen s t (BitVec.ofNat 2 (entryF s 0 0 0 (2 * (t % 16) + 1) (2 * (t % 16)))) = 2 := by decide
theorem wit_phaseComplete : ∀ b ∈ [true, false], let s := regs [(phaseWordAddr 0 0 1, 1)] (putWalker r0 0 { Walker.reset with st := .running, cyc := 1, stopReq := b })
    (getWalker s 0).st = .running ∧ entryF s 0 0 1 23 0 ≤ (getWalker s 0).cyc ∧ (getWalker s 0).stopReq = b ∧
    wbit (reg s (clusterBase 0 + 0x100)) 9 = false ∧ (getWalker s 0).fill = false ∧ entryF s 0 0 1 29 27 = 0 := by decide
theorem wit_gateTimeout : ∀ st ∈ [WalkSt.sampling, .barrier], let s := putWalker r0 0 { Walker.reset with st := st, waitCnt := 0x4190_AB00 }
    (getWalker s 0).st = st ∧ regF s (clusterBase 0 + 0x118) 31 0 ≠ 0 ∧ regF s (clusterBase 0 + 0x118) 31 0 ≤ (getWalker s 0).waitCnt := by decide
theorem wit_barrier : let a : Arrival := { die := 3, channel := 1, tag := 5, mask := 0x8000, cluster := 63, cycle := 1 }
    let s := { r0 with arrivals := [a], cycle := 32 }
    s.arrivals.filter (fun a => a.die == 3 && a.channel == 1 && a.tag == 5) = [a] ∧
    (∀ k ∈ maskClusters 3 a.mask.toNat, (∃ b ∈ [a], b.cluster = k) ∧ blkEn s (clusterBase k) = true) ∧ ∀ b ∈ [a], b.cycle + 31 ≤ s.cycle := by decide
theorem wit_asyncRow : let s := r0
    row1.row * storeRow (.sp 0) < storeSize (.sp 0) ∧ bankOn s (.sp 0) (storeBank (.sp 0) row1.row) = true ∧ cluBlocked s (storeClu (.sp 0)) = false ∧
    row1.desc = none ∧ row1.win = none ∧ storeOk (.sp 1023) = true := by decide
theorem wit_asyncWaits : (let s := queued0 (.car 63)
     bankQueue s (.car 63) 1 = [⟨false, row1⟩] ∧ bankBusy s (.car 63) 1 = false ∧ bankTaken s (.car 63) 1 = false ∧ 1 < storeBanks (.car 63)) ∧
    (let s := putBankQueue (putTile r0 0 { Tile.reset with access := [(0, 1, true)] }) (.sp 0) 1 [⟨false, row1⟩]
     bankQueue s (.sp 0) 1 = [⟨false, row1⟩] ∧ bankBusy s (.sp 0) 1 = true ∧ readNow s (.sp 0) 1 = true) := by decide
/-- Cluster 0 bound to job 5. -/
def bound5 : State := putJob (bind5 0 2) 5 { Job.reset with st := .bound }
/-- The first window of tile 0, over its first rows, for both classes and job 5; open or not. -/
def win5 (open_ : Nat) : State :=
  regs [(winAddr (.sp 0) 0, 0), (winAddr (.sp 0) 0 + 8, 128), (winAddr (.sp 0) 0 + 16, open_ * 2 ^ 63 + 0x6000_0500_0000_0000)] bound5
theorem wit_windowRow : let s := refresh (win5 1)
    let w : AsyncRow := { row1 with win := some ⟨0, .fabric, 5, 0, 0, 1, true⟩ }
    w.row * storeRow (.sp 0) < storeSize (.sp 0) ∧ (getMsg s 1).refused = false ∧
    winCheck s (.sp 0) 0 .fabric 5 0 0 (rowSpan (.sp 0) w).1 (rowSpan (.sp 0) w).2 = 0 := by decide
theorem wit_bankState : (∀ i : Nat, i < 24 → wfld (2 : BitVec 64) (2 * i + 1) (2 * i) ≠ 3) ∧ bankReq on0 (.sp 0) 0 ≠ 2 ∧ cluRefused on0 0 = none ∧ bankReady on0 (.sp 0) 0 = true ∧ (2 : BitVec 2) ≠ 3 := by decide
theorem wit_bankDone : let s := bankRequest (.car 63) (95, 2) r0
    bankReady s (.car 63) 95 = false ∧ (bankFromOf s (.car 63) 95 = 0 → bankQueue s (.car 63) 95 = []) ∧ 95 < storeBanks (.car 63) := by decide
theorem wit_window : let s := win5 0
    cluRefused s 0 = none ∧ cluTag s 0 = some (BitVec.ofNat 12 (wfld (winCtrl s (.sp 0) 0) 51 40)) ∧ winBase s (.sp 0) 0 < winLimit s (.sp 0) 0 ∧
    winLimit s (.sp 0) 0 ≤ storeSize (.sp 0) ∧ ¬ (requireKey s = true ∧ wbit (winCtrl s (.sp 0) 0) 61 = true ∧ wfld (winCtrl s (.sp 0) 0) 23 0 = 0) ∧
    ¬ ((0 : BitVec 5) = 16 ∧ ringOverlaps s 0 0 128 64 = true) ∧ 63 < winCount (winTarget 63 16) := by decide
/-- Receive queue 15 of cluster 63 enabled, with 3 units available, 1 granted and 2 of 6 waiting to be read. -/
def rq0 : State := regs [(rqAddr 63 15, 2 ^ 63 + 5 * 2 ^ 18), (rqAddr 63 15 + 8, 0xFFFF_FFFF_0000_0001), (rqAddr 63 15 + 16, 0x1_0000_0003)] on0
theorem wit_queue : wbit (reg rq0 (rqAddr 63 15)) 63 = true ∧ cluRefused rq0 63 = none ∧ wbit (reg rq0 (rqAddr 63 14)) 63 = false ∧
    (wfld (reg rq0 (rqAddr 63 15 + 8)) 31 0 + 2 ^ 32 - wfld (reg rq0 (rqAddr 63 15 + 8)) 63 32) % 2 ^ 32 < 3 ∧ (2 : Nat) ≤ (wfld (reg rq0 (rqAddr 63 15 + 8)) 31 0 + 2 ^ 32 - wfld (reg rq0 (rqAddr 63 15 + 8)) 63 32) % 2 ^ 32 := by decide
theorem wit_queueSum : sound rq0 = true ∧ rqSound rq0 63 15 ∧ ∃ u, exec (.creditClaim 63 15 3) rq0 = .next u :=
  ⟨by decide, by unfold rqSound; decide, ⟨_, rfl⟩⟩
theorem wit_queueRegister : carafeBase 63 + 0x200 ≤ (BitVec.ofNat 26 (rqAddr 63 15 + 24)).toNat ∧
    (BitVec.ofNat 26 (rqAddr 63 15 + 24)).toNat < carafeBase 63 + 0x400 ∧ ∃ u, exec (.registerWrite .mgmt (BitVec.ofNat 26 (rqAddr 63 15 + 24)) 2) rq0 = .next u :=
  ⟨by decide, by decide, ⟨_, rfl⟩⟩
theorem wit_queueAll : ∀ c : Nat, c < 64 → ∀ q : Nat, q < 16 → rqSound rq0 c q := by unfold rqSound; decide
theorem wit_queueCfg : let v : BitVec 64 := 0x8000_0000_0000_0000
    cluRefused on0 0 = none ∧ wbit (reg on0 (rqAddr 0 0)) 63 = false ∧ wbit v 63 = true ∧ wfld v 55 51 ≤ 16 ∧ 256 ≤ storeSize (winTarget 0 (wfld v 55 51)) := by decide
/-- Job 5 changed. -/
def job5 (f : Job → Job) (s : State) : State := putJob s 5 (f (getJob s 5))
/-- The header of shard 0 after no step: 32 elements, buffers at 4096 and 8192, gradient at 12288, poison mask at 16384. -/
def hdr5 : List Byte :=
  let b := leBytes 8 0 ++ leBytes 4 7 ++ leBytes 4 32 ++ leBytes 6 4096 ++ leBytes 6 8192 ++ leBytes 6 12288 ++ leBytes 6 16384 ++ leBytes 8 0 ++
    leBytes 4 0 ++ leBytes 2 5 ++ leBytes 6 0
  b ++ leBytes 4 (crc32 b)
/-- A program of one instruction with an operation, from the weights to their output. -/
def prog5 (op : Nat) : List Byte := leBytes 64 1 ++ leBytes 64 (op * 2 ^ 28 + 5 * 2 ^ 23)
/-- A resident page of job 5. -/
def page5 : Page := { Page.reset with tag := 5, st := .resident }
/-- Cluster 0 bound to job 5 with shard 0 at address 0 of a resident page, one staging range of 512 rows, step 1 requested, firmware running. -/
def shard5 : State :=
  let s := regs [(clusterBase 0 + 0x4A0, 1), (clusterBase 0 + 0x4C0, 2 ^ 40 + 511 * 2 ^ 20), (devicePage + 0x100, 0x1002)] bound5
  putPage { job5 (fun j => { j with shards := tblIns [] 0 0, programs := [prog5 1], profile := leBytes 64 1 }) s with
    mem := { s.mem with tensor := memWrite [] 0 hdr5 } } 0 page5
/-- A pending run of shard 0. -/
def pend5 (waits : Bool) : PendRun := { step := 1, cluster := 0, hdrAddr := 0, hdr := parseHdr hdr5, waits := waits }
/-- Shard 0 with its lease record. -/
def lease5 (r : LeaseRec) : State := putLease shard5 5 0 r
theorem wit_lease : shardHdr shard5 5 0 = some 0 ∧
    (let s := lease5 { LeaseRec.reset with pend := some (pend5 true) }
     (getLease s 5 0).pend = some (pend5 true) ∧ (pend5 true).waits = true ∧ retFree (getLease s 5 0) = true) ∧
    (let s := regs [(leasePage + 0x100, 1)] (lease5 { LeaseRec.reset with pend := some (pend5 true) })
     (getLease s 5 0).pend = some (pend5 true) ∧ (pend5 false).waits = false ∧ regF s (leasePage + 0x100) 31 0 ≠ 0) ∧
    (let s := job5 (fun j => { j with stages := List.replicate 8 [1] }) shard5
     (getJob s 5).st ≠ .free ∧ (7 : BitVec 4).toNat < 8 ∧ (getJob s 5).stages[(7 : BitVec 4).toNat]? = some [1]) ∧
    (let s := job5 (fun j => { j with division := [1] }) shard5; (getJob s 5).st ≠ .free ∧ (getJob s 5).division ≠ []) ∧
    (getJob shard5 5).division = [] ∧ (getJob shard5 5).stages[(7 : BitVec 4).toNat]? = none ∧ regF r0 (leasePage + 0x100) 31 0 = 0x0393_8700 := by decide
/-- A deferred NEW of step 1. -/
def defer5 : DeferredNew := { step := 1, n := 1, group := 1, collId := 2 }
theorem wit_leaseTimeout : (getLease (lease5 { LeaseRec.reset with defer := [defer5] }) 5 0).defer = [defer5] ∧
    collOf (lease5 { LeaseRec.reset with defer := [defer5] }) ⟨5, 1, 2⟩ = none ∧ regF (lease5 LeaseRec.reset) (leasePage + 0x100) 31 0 ≠ 0 ∧
    (getLease (lease5 LeaseRec.reset) 5 0).defer = [] ∧ heldClose shard5 5 = none ∧
    regF (regs [(leasePage + 0x100, 0)] shard5) (leasePage + 0x100) 31 0 = 0 := by decide
theorem wit_run : let s0 := setReg shard5 (clusterBase 0 + 0x4B0) (packWord [(63, 1), (8, (0 : BitVec 24).toNat)])
    let g := BitVec.ofNat 48 (regF shard5 (clusterBase 0 + 0x4A0) 47 0)
    let rd := tensorRead (.run 0) 5 (0 / 16) 0 64 s0
    let s1 := rd.2.2
    let stage := reg s1 (clusterBase 0 + 0x4C0)
    let b := headerNow s1 5 0 rd.2.1
    let h := parseHdr b
    cluRefused shard5 0 = none ∧ cluTag shard5 0 = some 5 ∧ (getClu shard5 0).run = none ∧ walkerIn shard5 0 [.idle, .call, .done] = true ∧
    (getJob s0 5).halted = false ∧ shardHdr s0 5 0 = some 0 ∧ rd.1 = 0 ∧ crc32 (b.take 60) = recNat b 60 4 ∧
    hdrFieldBad (getJob s1 5) 5 0 (zt1 s1 0) b = false ∧ runPending s1 0 5 0 = false ∧
    wbit stage 40 = true ∧ wfld stage 17 0 + 511 ≤ wfld stage 37 20 ∧ wfld stage 37 20 ≤ 196607 ∧ blkEn shard5 (clusterBase 0) = true ∧ g.toNat = h.lastStep.toNat + 1 ∧
    retFree (getLease s1 5 0) = true ∧ mgmtRuns s1 = true := by decide
/-- Shard 0 with a run on cluster 0. -/
def runs5 (op : Nat) (r : UpdRun) : State := putClu (job5 (fun j => { j with programs := [prog5 op] }) shard5) 0 { Cluster.reset with run := some r }
theorem wit_runWait : let s := runs5 1 (run1 true false)
    (getClu s 0).run = some (run1 true false) ∧ (run1 true false).waiting = true ∧ retFree (getLease s 5 0) = true ∧ mgmtRuns s = true := by decide
theorem wit_updOp : ∀ p ∈ updCommands, let s := runs5 p.1 (run1 false true)
    (getClu s 0).run = some (run1 false true) ∧ (updInstr (runProg s (run1 false true)) (run1 false true).pc).op = p.1 := by decide
theorem wit_runComplete : let r : UpdRun := { run1 false false with hdr := parseHdr hdr5, blk := 1 }
    let s := runs5 1 r
    let q := runAll 0 (runProg s r) (runBlocks r + 1) { code := 0, run := r, st := s }
    (getClu s 0).run = some r ∧ runBlocks r = 1 ∧ q.code = 0 ∧ writesOf q.st (.run 0) = [] := by decide
/-- Job 5 with a step window whose closing contribution is held for step 1. -/
def window5 (k : Option (Nat × Nat)) : State :=
  job5 (fun j => { j with ran := [(1, 0)], window := some { alarm := false, opened := 0, first := 0, held := false, release := 0, heldStep := 1, clean := none, closeKey := k } }) shard5
theorem wit_stepClosing : (∃ w, (getJob (window5 none) 5).window = some w ∧ w.heldStep = 1) ∧ allRan (window5 none) 5 1 = true ∧
    (getJob shard5 5).profile ≠ [] := ⟨⟨_, rfl, rfl⟩, by decide, by decide⟩
/-- Job 5 with a census record under tag 9 and a loss of step 1 seen. -/
def watch5 : State := job5 (fun j => { j with census := [(9, CensusRec.reset)], loss := { LossRec.reset with last := some 1 } }) (regs [(numericsPage + 0x200, 5)] bound5)
theorem wit_census : tblFind (getJob watch5 5).census 9 = some CensusRec.reset ∧ (getJob watch5 5).census ≠ [] ∧
    tblFind (getJob watch5 5).census 0 = none := by decide
theorem wit_loss : regF watch5 (numericsPage + 0x200) 11 0 = 5 ∧ (getJob watch5 5).inUse = true ∧ (getJob watch5 0).inUse = false ∧ (getJob watch5 5).loss.last = some 1 ∧
    (1 : BitVec 32).toNat < (BitVec.ofNat 32 (wfld (2 : BitVec 64) 31 0)).toNat ∧ (BitVec.ofNat 32 (wfld (1 : BitVec 64) 31 0)).toNat ≤ (1 : BitVec 32).toNat := by
  decide
/-- A due cupping sample. -/
def cup0 : CupSample := { tile := 0, args := blk0, start := [], written := [], chunks := [], due := some 0 }
theorem wit_cupping : (getClu (putClu r0 63 { Cluster.reset with cupSlots := [cup0] }) 63).cupSlots.filter (fun p => p.due.isSome) = [cup0] ∧
    cluRefused on0 63 = none ∧ wfld (16 : BitVec 64) 4 0 ≤ 16 := by decide
/-- Pour queue 63 of hub 1 with a record posted, for job 5 with an expert map of one expert. -/
def pour5 (f : PourQ → PourQ) (op : Nat) : State :=
  let m : List Byte := leBytes 2 1 ++ leBytes 2 1 ++ leBytes 4 1 ++ leBytes 2 0 ++ leBytes 54 1 ++ leBytes 8 1
  let s := job5 (fun j => { j with maps := [(0, m)] }) bound5
  putPq (storeWrite s (.car 0) 0 ([BitVec.ofNat 8 op, 1, 1, 0] ++ leBytes 4 1 ++ leBytes 56 1)) 1 63 (f { PourQ.reset with cfg := 0x8000_0500_0000_0000, fifo := [0] })
/-- A pour request that waits for the claim of its first group. -/
def req5 : PourReq :=
  { op := 1, number := 0, k := 1, kreq := 1, tokens := 1, step := 1, recd := [], entries := [], back := [], groupsLeft := [(0, 1)], claiming := true,
    firstSend := some 0, ks := [] }
theorem wit_pourStart : ∀ op ∈ [1, 2, 3], let s := pour5 id op
    let p := getPq s 1 63
    let b := pqRead s (pqClu p) (0 : BitVec 18).toNat 0 64
    p.fifo = [0] ∧ p.req = none ∧ p.ending = none ∧ p.error = false ∧ wbit p.cfg 63 = true ∧ pqRuns s p = true ∧ blkEn s (pourPage 1) = true ∧
    domainOn s 5 = true ∧ pqOn s (pqClu p) (0 : BitVec 18).toNat 64 = true ∧ (getPq (pourTake 1 63 b s) 1 63).req.isSome = true ∧ pourRecOk b (pqMap s p) = true ∧ recF b 0 1 = op := by
  decide
theorem wit_pour : domainOn r0 5 = false ∧ domainOn (pour5 id 1) 5 = true ∧ (let p := getPq (pour5 id 1) 1 63; p.fifo.length < 8 ∧ wbit p.cfg 63 = true ∧ p.error = false) ∧
    (let s := pour5 (fun p => { p with req := some req5 }) 1
     (getPq s 1 63).req = some req5 ∧ req5.claiming = true ∧ req5.groupsLeft = [(0, 1)] ∧ req5.firstSend = some 0 ∧
     s.awaited.any (fun a => a.owner == .pour 1 63 && a.op == 4) = false) := by decide
/-- Ring 63 of cluster 0 for job 5, with descriptors in flight and one more posted, whose bytes stand in slot `n`. -/
def ring5 (n : Nat) (b : List Byte) (f : Ring → Ring) : State :=
  putRing (storeWrite shard5 (.car 0) (64 * n) (b ++ List.replicate (64 - b.length) 0)) 0 63
    (f { Ring.reset with cfg := 0x8000_0500_0000_0000, prod := BitVec.ofNat 32 (n + 1) })
/-- A descriptor of job 5 in flight, with its bytes. -/
def desc5 (raw : List Byte) (w : DescWait) (walk : Option WalkState) : Desc :=
  { count := 0, tag := 5, raw := raw ++ List.replicate (64 - raw.length) 0, op := recF raw 0 1 % 16, wait := w, bytes := 0, seen := [], wrote := [], cen := Machine.CensusCounts.zero, walk := walk, loading := false }
theorem wit_descStart : ∀ p ∈ [(1, 0), (2, 0), (2, 1), (3, 0), (4, 0), (5, 0), (6, 0)],
    let s := ring5 0 [BitVec.ofNat 8 p.1, 0, 0, 0, BitVec.ofNat 8 p.2] id
    startsWith s 0 63 0 ∧ recF (descBytes s 0 63 0) 0 1 = p.1 ∧ recF (descBytes s 0 63 0) 4 1 = p.2 ∧ recF (descBytes s 0 63 0) 5 3 = 0 ∧
    (getRing s 0 63).flight = [] ∧ ((descBytes s 0 63 0).drop 16).all (· == 0) = true := by unfold startsWith; decide
/-- A stream of one position of one 64-byte row, on the page at slot 1, and a walk over it into the carafe. -/
def stream5 : State :=
  let h : List Byte := leBytes 6 64 ++ leBytes 2 5 ++ leBytes 4 1 ++ leBytes 4 1 ++ leBytes 2 0 ++ leBytes 2 1 ++ leBytes 2 1 ++ leBytes 2 1 ++ leBytes 36 0
  let d : List Byte := [2, 0, 0, 0] ++ leBytes 12 0 ++ leBytes 8 (2 ^ 60 + 2 ^ 44 + 4096) ++ leBytes 4 0 ++ leBytes 4 1
  let w : WalkState := { append := false, hdr := 0, head := h ++ leBytes 4 (crc32 h), list := [], pos := 0, left := 1, entry := 0, base := 0, done := 0, holds := [], msg := 0 }
  let s := ring5 0 d (fun g => { g with flight := [desc5 d .walk (some w)] })
  putPage { s with mem := { s.mem with tensor := memWrite [] 0 (h ++ leBytes 4 (crc32 h) ++ leBytes 4 1) } } 1 page5
theorem wit_walkEntry : let s := refresh stream5
    let d := (getRing s 0 63).flight.headD (desc5 [] .landed none)
    let w := d.walk.getD { append := true, hdr := 0, head := [], list := [], pos := 0, left := 0, entry := 9, base := 0, done := 0, holds := [], msg := 0 }
    let b := d.raw
    let h := w.head
    let q := readEntry 0 63 d.count h w.entry s
    let k := min w.left (w.base + 65536 / hdrRow h - w.pos)
    let x := tensorRead (descOwner 0 63 d.count) 5 (0 / 16) (65536 + (w.pos - w.base) * hdrRow h) (k * hdrRow h) q.2.2
    walkOf s 0 63 = some (d, w) ∧ d.tag = 5 ∧ w.append = false ∧ w.left ≠ 0 ∧ w.entry < hdrNent h ∧ q.1 = 0 ∧
    parseListEntry q.2.1 (hdrRow h) = .page 65536 65536 ∧ recF h 17 1 % 16 = 0 ∧
    bulkSeen (seenUnits q.2.2) 5 65536 65536 = [] ∧ x.1 = 0 ∧
    (walkDeliver 0 63 d.count b h w k (decide (w.left = k)) x.2.1 x.2.2).1 = 0 := by decide
theorem wit_appendEnd : let w : WalkState := { append := true, hdr := 0, head := [], list := [], pos := 1, left := 0, entry := 1, base := 1, done := 1, holds := [], msg := 0 }
    let s := ring5 0 [2, 0, 0, 0, 1] (fun g => { g with flight := [desc5 [2, 0, 0, 0, 1] .walk (some w)] })
    walkOf s 0 63 = some (desc5 [2, 0, 0, 0, 1] .walk (some w), w) ∧ writesOf s (descOwner 0 63 0) = [] := by decide
theorem wit_ringQuery : (getJob bound5 5).st = .bound ∧ (getJob bound5 5).ringRec = [] := by decide
/-- A page of job 5 at the last slot below the tier map. -/
def pages5 (p : Page) : State := putPage bound5 0x23F_EDFF { p with tag := 5 }
theorem wit_tierPage : let k : Nat := (0x23F_EDFF_0000 : BitVec 48).toNat / 65536
    (∀ h ∈ [0, 1, 2, 3], let s := pages5 { page5 with hint := h }
      pageAt s k = some (k, { page5 with hint := h }) ∧ pageLive { page5 with hint := h } = true ∧ s.badSlots.contains k = false ∧
      (takeHold k s).1 = true ∧
      (setHint k h (putPage (putPage (setReg s (tierPage + 0x138) (packWord [(63, 1)])) k { page5 with hint := h, newHint := some h, hintCmd := true }) k
        { page5 with hint := h, newHint := none, hintCmd := true })).1 = some 0) ∧
    ({ pages5 page5 with badSlots := [k] } : State).badSlots.contains k = true ∧
    (let p := { page5 with hint := 6, closed := true, holds := 1 }
     pageAt (pages5 p) k = some (k, p) ∧ pageLive p = true ∧ p.holds ≠ 0 ∧ ¬ (p.hint = 6 ∧ p.closed = false)) ∧
    (let p := { page5 with filling := true }
     pageAt (pages5 p) k = some (k, p)) ∧
    (∀ c ∈ [true, false], let p := { page5 with st := .promoting, bulk := true, dest := some 7, destCopy := c }
     let s := pages5 p
     let e := readEcc { p with copy := none } ((7 : BitVec 25).toNat / 0x10_0000 % 4) (65536 * k) s
     pageAt s k = some (k, p) ∧ pageLive p = true ∧ p.st ≠ .resident ∧ getPage s k = p ∧ e.1 = 0 ∧ moveCut e.2 p 7 = false) ∧
    pageAt bound5 k = none := by decide
theorem wit_tierMap : (mapPage 5 65536 0 0 (putPage (job5 (fun j => { j with quota := 1 }) shard5) 0 { page5 with st := .evicting })).1 = none := by decide
theorem wit_ageing : wbit (reg (regs [(tierPage + 0x100, 2 ^ 63 + 2 ^ 32)] r0) (tierPage + 0x100)) 63 = true ∧
    wfld (reg (regs [(tierPage + 0x100, 2 ^ 63 + 2 ^ 32)] r0) (tierPage + 0x100)) 47 32 ≠ 0 ∧
    (let d := desc5 [1] .write none
     let w : TWrite := { owner := descOwner 0 63 0, page := 0, addr := 0, data := [1], die := 0, held := true, since := 0 }
     let s := { ring5 0 [1] (fun g => { g with flight := [d] }) with writes := [w] }
     (getRing s 0 63).flight = [d] ∧ writesOf s (descOwner 0 63 d.count) = [w] ∧ s.colls = []) := by decide
theorem wit_ring : let s := ring5 0 [1] id
    let g := getRing s 0 63
    cluRefused s 0 = none ∧ (g.prod - g.cons).toNat + (1 : BitVec 16).toNat ≤ ringSize g.cfg ∧ ringSize g.cfg < (g.prod - g.cons).toNat + (2 : BitVec 16).toNat ∧
    wbit g.cfg 63 = true ∧ cluRefused r0 0 = some (bump r0 (mgmtPage + 0x808)) := by decide
theorem wit_descData : let s := regs [(dmaBase 0 + 0x140, 63 + 7 * 2 ^ 8 + 1 * 2 ^ 16)] (ring5 0 [1] id)
    let a := reg s (dmaBase 0 + 0x140)
    let g := getRing s 0 (wfld a 5 0)
    let k := wfld a 27 16 % ringSize g.cfg
    wfld a 5 0 = 63 ∧ wfld a 10 8 = 7 ∧ (g.prod - g.cons).toNat ≤ (k + ringSize g.cfg - descSlot g.cfg g.cons) % ringSize g.cfg ∧ slotAt g.cfg k + 64 ≤ 0x180_0000 ∧
    rowsOn s (.car 0) (slotAt g.cfg k / 128) 1 = true ∧
    rowsOn (bankRequest (.car 0) (storeBank (.car 0) (slotAt g.cfg k / 128), 1) s) (.car 0) (slotAt g.cfg k / 128) 1 = false := by decide
theorem wit_ringCommands : (let s := ring5 0 [1] (fun g => { g with error := true, flight := [desc5 [1] .landed none] })
     (getRing s 0 63).error = true ∧ (getRing s 0 63).flight = [desc5 [1] .landed none]) ∧
    (let s := ring5 0 [1] (fun g => { g with error := true })
     (getRing s 0 63).error = true ∧ (getRing s 0 63).flight = []) := by decide
/-- A ring of the most descriptors in the last rows of the carafe, for job 5. -/
def cfg5 : BitVec 64 := 0x8000_0500_00B2_F800
theorem wit_ringCfg : let v' := cfg5 &&& BitVec.ofNat 64 (bits 63 63 + bits 51 40 + bits 23 20 + bits 17 0)
    wfld v' 23 20 < 12 ∧ wbit (getRing bound5 0 63).cfg 63 = false ∧ wbit v' 63 = true := by decide
theorem wit_ringEnable : ringEnableOk bound5 0 63 (cfg5 &&& BitVec.ofNat 64 (bits 63 63 + bits 51 40 + bits 23 20 + bits 17 0)) = true := by
  decide +kernel
theorem wit_ringDisable : let v' := (0x0000_0500_00B0_0000 : BitVec 64) &&& BitVec.ofNat 64 (bits 63 63 + bits 51 40 + bits 23 20 + bits 17 0)
    wfld v' 23 20 < 12 ∧ wbit (getRing (ring5 0 [1] id) 0 63).cfg 63 = true ∧ wbit v' 63 = false := by decide
theorem wit_ringWait : ∀ w ∈ [DescWait.fence, .claim], let d := desc5 [1] w none
    let s := ring5 0 [1] (fun g => { g with flight := [d] })
    (getRing s 0 63).flight = [d] ∧ d.wait = w ∧ s.awaited.any (fun a => a.owner == .ring 0 63 d.count) = false ∧
    (copyDev s d.tag d.raw).isSome = true := by decide
theorem wit_descComplete : let d := desc5 [3, 1] .landed none
    let s := ring5 0 [3, 1] (fun g => { g with flight := [d] })
    (getRing s 0 63).flight = [d] ∧ descReady s 0 63 d = true ∧ recF d.raw 1 1 = 1 ∧ ctxLoads 0 d.raw = [] ∧ d.op ≠ 2 := by decide
theorem wit_carafeRead : bankOn r0 (.car 63) (storeBank (.car 63) 196607) = true ∧ reqBlocked r0 63 (storeBank (.car 63) 196607) = false ∧ (carEcc 63 r0).1 = false ∧
    ¬ ((getClu r0 63).rrLast = true ∧ (getClu r0 63).reqWait.contains (false, storeBank (.car 63) 196607) = true) ∧
    (let s := putClu (putBankQueue r0 (.car 63) 95 [⟨true, row1⟩]) 63
       { getClu (putBankQueue r0 (.car 63) 95 [⟨true, row1⟩]) 63 with reqWait := [(true, 95)] }
     storeBank (.car 63) 196607 = 95 ∧ reqBlocked s 63 95 = true ∧ (getClu s 63).reqWait.contains (true, 95) = true) := by decide
theorem free_run_empty (base limit hint : Nat) (h : 0 < limit) : freeRun [] base limit 1 hint = some (base + hint % limit) := by
  have hx : hint % limit + 1 ≤ limit := Nat.mod_lt hint h
  have e : (decide (hint % limit / 1 * 1 + 1 ≤ limit) && !overlapsRun [] (base + hint % limit / 1 * 1) 1) = true := by
    rw [Nat.div_one, Nat.mul_one, decide_eq_true hx]
    rfl
  have f : List.find? (fun x => decide (x + 1 ≤ limit) && !overlapsRun [] (base + x) 1) [hint % limit / 1 * 1, 0] = some (hint % limit / 1 * 1) :=
    List.find?_cons_of_pos (p := fun x => decide (x + 1 ≤ limit) && !overlapsRun [] (base + x) 1) e
  have g : freeRun [] base limit 1 hint = some (base + hint % limit / 1 * 1) := congrArg (Option.map (base + ·)) f
  rw [g, Nat.div_one, Nat.mul_one]
theorem wit_tierMapped : (mapPage 5 0 0 3 (putPage shard5 0 Page.reset)).1 = some 0 := by
  have hs : ∀ u key, frameIn (putPage (putPage shard5 0 Page.reset) 0 { Page.reset with sz := 0, tag := 5, hint := 3, filling := true }) true u 0 key =
      some (BitVec.ofNat 25 (u * 0x100_0000 + Config.frameHint (4 + u) key % 16777216)) := by
    intro u key
    have hr : (putPage (putPage shard5 0 Page.reset) 0 { Page.reset with sz := 0, tag := 5, hint := 3, filling := true }).pages.flatMap
        (fun p => ((if true then bulkRuns p.2 else cremaRuns p.2).map (fun f => (f, pageFrames p.2)))) = [] := by decide
    have hl : (putPage (putPage shard5 0 Page.reset) 0 { Page.reset with sz := 0, tag := 5, hint := 3, filling := true }).lost = [] := by decide
    unfold frameIn
    rw [hr, hl]
    simp [free_run_empty]
  have hp : ∀ pref key, (framePick (putPage (putPage shard5 0 Page.reset) 0 { Page.reset with sz := 0, tag := 5, hint := 3, filling := true }) true pref 0 key).isSome = true := by
    intro pref key
    unfold framePick
    simp [List.range, List.range.loop]
    exact Or.inl ((congrArg Option.isSome (hs (pref % 2) key)).trans rfl)
  have hc : ¬ (15 ≤ 0 ∨ (3 : BitVec 3) = 7 ∨ 0 % (65536 * 2 ^ 0) ≠ 0 ∨ hitsMap 0 (65536 * 2 ^ 0) = true ∨ ¬ slotsFree (putPage shard5 0 Page.reset) (0 / 65536) (2 ^ 0) = true ∨
      ¬ mappable (putPage shard5 0 Page.reset) 5 = true ∨ ¬ wbit (reg (putPage shard5 0 Page.reset) (devicePage + 0x100)) 12 = true) := by decide
  unfold mapPage
  rw [if_neg hc]
  have hg : getPage (putPage (putPage shard5 0 Page.reset) 0 { Page.reset with sz := 0, tag := 5, hint := 3, filling := true }) 0 =
      { Page.reset with sz := 0, tag := 5, hint := 3, filling := true } := by decide
  unfold placePage
  simp only [Nat.zero_div, hg]
  rw [if_pos (by decide)]
  have := hp (Config.frameHint 7 0 % 2) 0
  revert this
  cases framePick (putPage (putPage shard5 0 Page.reset) 0 { Page.reset with sz := 0, tag := 5, hint := 3, filling := true }) true (Config.frameHint 7 0 % 2) 0 0 <;> simp
/-- A collective of job 5 in group 0 on ring 63 of cluster 0. -/
def coll5 (cop : Nat) : Coll :=
  { tag := 5, group := 0, collId := 9, cluster := 0, ring := 63, count := 0, desc := [6, 0, 0, 0, BitVec.ofNat 8 cop, 0, 0, 0, 9], attempt := 0, ready := [],
    parts := [], got := [], waiting := [], placed := [], pieces := [], counts := [], bits := [], done := [], doneSent := false, acks := [], mine := [], summed := false,
    leaseWait := false, broken := none }
/-- Module 7, which is rank 1 of the group [3, 7] of job 5, with every unit ready. -/
def mod7 (s : State) : State :=
  regs [(fabricPage + 0x100, 2 ^ 63 + 7), (devicePage + 0x100, 0x1FFFF)] (job5 (fun j => { j with groups := [(0, [3, 7])] }) s)
theorem wit_heldClose : let s := { window5 (some (0, 9)) with colls := [coll5 7] }
    let t := putJob s 5 { getJob s 5 with window := (getJob s 5).window.map (fun w => { w with held := true, clean := some 1 }) }
    (heldClose t 5).isSome = true := by decide
theorem wit_collStart : ∀ p ∈ collCommands, let s := mod7 (ring5 0 [6, 0, 0, 0, BitVec.ofNat 8 p.1, 0, 0, 0, 9] id)
    startsWith s 0 63 0 ∧ blkEn s (collPage (cluHub 0)) = true ∧ recF (descBytes s 0 63 0) 0 1 = 6 ∧ recF (descBytes s 0 63 0) 4 1 = p.1 := by
  unfold startsWith; decide
theorem wit_collBody : ∀ cop ∈ [6, 7], let s := mod7 (ring5 0 [6, 0, 0, 0, BitVec.ofNat 8 cop, 0, 0, 0, 9] id)
    let b := descBytes s 0 63 0
    let s1 := withDesc s 0 63 0 b
    descTag s1 0 63 0 = 5 ∧ ctxLoads 0 b = [] ∧ groupOf s1 5 (recF b 6 1) = [3, 7] ∧ collFieldsOk b 2 = true ∧ collOf s1 ⟨5, recF b 6 1, recF b 8 4⟩ = none := by decide
theorem wit_collTimeout : (collOf { r0 with colls := [coll5 3] } ⟨5, 0, 9⟩).isSome = true := by decide
/-- A message from hub 1 of module 3 to module 7. -/
def msg7 : Msg :=
  { op := 0, cls := 0, src := 3, dst := 7, shub := 1, cred := false, epoch := 2, psn := 4, fseq := 6, addr := 0, key := 0, jepoch := 0, tag := 5, opa := 0,
    opb := 0, data := [1] }
/-- Module 7 with the sequence of a class in step with that message. -/
def rx7 (cls : Nat) : State := putRx (mod7 bound5) 3 1 cls { RxSeq.reset with epoch := 2, expected := 4, fseq := 6, synced := true }
theorem wit_request : ∀ op ∈ [1, 2, 3, 4, 5], admits (rx7 0) { msg7 with op := op, cls := 0 } := by unfold admits; decide
theorem wit_response : ∀ op ∈ [0x11, 0x12], admits (rx7 1) { msg7 with op := op, cls := 1 } := by unfold admits; decide
theorem wit_collMessage : ∀ k ∈ [CollKind.data, .ready, .done, .finish, .abort, .release], admits (rx7 0) (collMsg k msg7 cd1) := by unfold admits; decide
/-- The send sequence of hub 1 to module 3 in class 0. -/
def tx3 (t : TxSeq) : State := putTx (mod7 bound5) 1 3 0 t
theorem wit_answers : ctlHub { msg7 with addr := 4 } = 1 ∧ let m := { msg7 with opa := 4, addr := 4 }
    (let t := { TxSeq.reset with synced := true, epoch := 2, held := [{ msg7 with psn := 4 }], nrWait := true, nrPsn := some 4 }
     getTx (tx3 t) (ctlHub m) m.src (ctlCls m) = t ∧ t.synced = true ∧ m.epoch = t.epoch ∧ m.epoch.setWidth 8 = t.epoch.setWidth 8 ∧ txHolds (tx3 t) (ctlHub m) m.src (ctlCls m) (refPsn m) = true ∧
     t.nrWait = true ∧ t.held ≠ [] ∧ t.nrPsn = some 4) ∧
    (let t := { TxSeq.reset with synced := true, epoch := 2, held := [{ msg7 with psn := 4 }] }
     getTx (tx3 t) (ctlHub m) m.src (ctlCls m) = t ∧ t.nrPsn = none ∧ txHolds (tx3 t) (ctlHub m) m.src (ctlCls m) (refPsn m) = true) ∧
    (∀ n ∈ [0, 3, 4], let t := { TxSeq.reset with syncing := true, epoch := 2, tries := n }
     getTx (tx3 t) (ctlHub m) m.src (ctlCls m) = t ∧ t.syncing = true ∧ m.epoch = t.epoch ∧ t.held = []) := by decide
theorem wit_resyncReady : let s := putRx (mod7 bound5) 3 1 0 { RxSeq.reset with respDue := true }
    (getRx s 3 1 0).respDue = true ∧ rxWaits s 3 1 0 = false ∧ addrValid s = true := by decide
/-- Port 15 in a state, powered and enabled towards port 9 of module 3. -/
def port15 (st : BitVec 2) : State :=
  putPort (regs [(mgmtPage + 0x110, 2 ^ 30 - 1), (mgmtPage + 0x118, 2 ^ 25 - 1), (fabPortPage 15 + 0x100, 2 ^ 63 + 2 ^ 48 + 9 * 2 ^ 32 + 3)] r0) 15 { FabPort.reset with st := st, replay := [1] }
theorem wit_port : portUp (port15 2) 15 = true ∧ (getPort (port15 2) 15).replay ≠ [] ∧
    (getPort (port15 3) 15).st = 3 ∧ portEnabled (port15 3) 15 = true ∧ portPowered (port15 3) 15 = true ∧ (∀ st ∈ [0, 1, 2, 3], (getPort (port15 st) 15).st = st) ∧ (getPort (port15 3) 15).laser = true ∧
    (getPort (port15 1) 15).st = 1 ∧ wfld (reg (port15 1) (fabPortPage 15 + 0x100)) 15 0 = 3 ∧ wfld (reg (port15 1) (fabPortPage 15 + 0x100)) 35 32 = 9 ∧
    wfld (reg (port15 1) (fabPortPage 15 + 0x100)) 35 32 ≠ (8 : BitVec 4).toNat := by decide
theorem wit_atomic : ∀ op ∈ [1, 2], let s := regs [(clusterBase 0 + 0x648, op * 2 ^ 24)] bound5
    cluRefused s 0 = none ∧ cluRefused r0 0 ≠ none ∧ cluTag s 0 = some 5 ∧ wbit (reg s (clusterBase 0 + 0x670)) 63 = false ∧ wfld (reg s (clusterBase 0 + 0x648)) 25 24 ≠ 0 ∧
    wfld (reg s (clusterBase 0 + 0x648)) 25 24 ≠ 3 := by decide
/-- A state with every power and clock domain on and every unit ready. -/
def on (s : State) : State := regs [(mgmtPage + 0x110, 2 ^ 30 - 1), (mgmtPage + 0x118, 2 ^ 25 - 1), (devicePage + 0x100, 2 ^ 17 - 1)] s
/-- A first and last packet to queue pair 4091 on port 3. -/
def pk0 : Packet :=
  { qp := 0x1FFB, port := 3, psn := 7, rkey := 0x102, va := 0x1000, len := 8, data := leBytes 8 1, first := true, last := true, immediate := false, swap := 0,
    compare := 0, ce := false, cls := 7, bytes := 2 ^ 24 }
/-- Queue pair 4091 of job 5 on port 3 in a state, with region 1 open to it and a receive ring of one slot. -/
def qp5 (st : Nat) : State :=
  let x := { QP.reset with ctx0 := BitVec.ofNat 64 (st * 2 ^ 61 + 3 * 2 ^ 59 + 5 * 2 ^ 46), expPsn := 7, wp := 3, rp := 3 }
  let s := putQp (putHp (on shard5) 3 { HPort.reset with link := true }) 4091 x
  putMr s 1 { cfg := 0xF001_4000_0000_0002, va := 0x1000, len := 8, ta := 0 }
theorem wit_packet : ∀ st ∈ [2, 3], linkUp (qp5 st) pk0.port = true ∧ qpOf pk0.qp = some 4091 ∧ (getHp (qp5 st) pk0.port).occ + pk0.bytes ≤ 2 ^ 24 ∧
    qpSeen (qp5 st) (getQp (qp5 st) 4091) = st ∧ qpAccepts (getQp (qp5 st) 4091) = true ∧ qpPort (qp5 st) 4091 = pk0.port ∧
    devReady (qp5 st) (2 + pk0.port) = true := by decide
/-- A queue pair that entered its state in this cycle is still seen in the one of the cycle's beginning, whichever accepts requests. -/
theorem wit_packetSeen : ∀ p ∈ [(1, 2), (2, 4)], let s := putQp (qp5 p.2) 4091 { getQp (qp5 p.2) 4091 with was := some (0, p.1) }
    qpSeen s (getQp s 4091) = p.1 ∧ qpSt (getQp s 4091) = p.2 := by decide
theorem wit_hostFrame : let f : Frame :=
      { len := 9216, fcsOk := true, icrcOk := true, fragment := false, multicast := false, pcp := none, dscp := 0, kind := .request pk0 0xA }
    linkUp (qp5 2) (3 : BitVec 2).toNat = true ∧ f.len ≤ 9216 ∧ f.fcsOk = true ∧ f.fragment = false ∧ f.multicast = false := by decide
theorem wit_process : ∀ op ∈ [HostOp.send, .write, .read, .cas, .faa], let s := qp5 2
    let s1 := putQp s 4091 { getQp s 4091 with nakSent := false }
    let s2 := (rateCheck 4091 pk0.port s1).2
    qpAccepts (getQp s 4091) = true ∧ pk0.psn = (getQp s 4091).expPsn ∧ qpCtl 4091 = false ∧ s.rot.level.toNat < 2 ∧
    (rateCheck 4091 pk0.port s1).1 = true ∧ hostTierReady s2 4091 op pk0 = true ∧ hostCheck s2 4091 op pk0 = .pass 0 ∧
    ¬ (op = .send ∧ pk0.first = true ∧ rqSlots (getQp s1 4091) - ((getQp s1 4091).wp - (getQp s1 4091).rp).toNat < rqMax (getQp s1 4091)) := by decide
theorem wit_cm : let e : Endpoint := { gid := 1, qpn := 2, psn := 3 }
    (let s := putHp (on r0) 3 { HPort.reset with link := true }
     linkUp s 3 = true ∧ unowned s = true ∧ devReady s (2 + 3) = true ∧ (getHp s 3).held = none) ∧
    (let s := putHp (on r0) 3 { HPort.reset with link := true, held := some e }
     linkUp s 3 = true ∧ unowned s = true ∧ devReady s (2 + 3) = true ∧ (getHp s 3).held = some e) := by decide
theorem wit_qpContext : hostClosed (qp5 0) 6 = false ∧ domainOn (qp5 0) 3 = true ∧ domainOn r0 3 = false ∧ hostClosed r0 6 = false ∧
    hostClosed { r0 with rot := { Rot.reset with policy := factoryPolicy.take 12 ++ [0x40] ++ factoryPolicy.drop 13 } } 6 = true ∧ qpCtl (4091 : BitVec 12).toNat = false ∧ qpSt (getQp (qp5 0) 4091) ≤ 1 ∧ qpSt (getQp (qp5 1) 4091) ≤ 1 ∧ 1 < qpSt (getQp (qp5 2) 4091) ∧
    (let x := getQp (putQp (on r0) 0 { QP.reset with wp := 0, rp := 0xFFFF_FFFF }) 0
     (1 : BitVec 32).toNat ≤ (x.wp - x.rp).toNat ∧ (x.wp - x.rp).toNat < (2 : BitVec 32).toNat) := by decide
/-- Job 5 selected, in a state, with a staging map of cluster 63 as logical cluster 0. -/
def sel5 (st : JobSt) (busy : Option Nat) : State :=
  putJob (on (regs [(devicePage + 0x180, 5), (devicePage + 0x1D0, 0xBF)] r0)) 5 { Job.reset with st := st, cmdBusy := busy }
theorem wit_jobs : (∀ st ∈ [JobSt.free, .binding, .bound, .quiescing, .rinsing, .staged],
      regF (sel5 st none) (devicePage + 0x180) 11 0 = (5 : BitVec 12).toNat ∧ (getJob (sel5 st none) 5).st = st ∧ (getJob (sel5 st none) 5).cmdBusy = none ∧
      jobsHeld (sel5 st none) = false ∧ devReady (sel5 st none) 12 = true) ∧
    frameRinses (getJob (sel5 .rinsing none) 5) = true ∧
    (∀ st ∈ [JobSt.staged, .bound], (getJob (sel5 st (some 3)) 5).cmdBusy ≠ none) ∧
    jobsHeld { sel5 .free none with rot := { Rot.reset with level := 2 } } = true ∧ devReady (regs [(devicePage + 0x100, 0)] (sel5 .staged none)) 12 = false := by
  decide
/-- Cluster 63 of the job is quiescing while a DETACH runs. -/
theorem wit_detachTimeout : let s := regs [(clusterBase 63 + 0x680, 0x6000_0500_0000_0000)] (sel5 .bound (some 3))
    (getJob s 5).st = .bound ∧ clustersIn s 5 [3] = [63] := by decide
theorem wit_bind : stagingMap (sel5 .staged none) = [(0, 63)] ∧
    mapOkay (putJob (sel5 .staged none) 5 { getJob (sel5 .staged none) 5 with
      st := .binding, cmdBusy := some 1, fault := 0, image := BitVec.ofNat 48 (regF (sel5 .staged none) (devicePage + 0x1A0) 47 0),
      seed := reg (sel5 .staged none) (devicePage + 0x1A8) }) 5 (stagingMap (sel5 .staged none)) = true ∧
    mapOkay (sel5 .bound none) 5 (stagingMap (sel5 .bound none)) = true := by decide
theorem wit_rinse : (let s := regs [(clusterBase 63 + 0x680, 0x8000_0500_0000_0000)] (sel5 .rinsing none)
     cluOwner s 63 = some 5 ∧ regF s (clusterBase 63 + 0x680) 63 61 = 4) ∧
    (let p : Page := { page5 with st := .rinsing, frame := 3 }
     (putPage (sel5 .rinsing none) 9 p).pages.find? (fun q => q.2.tag == 5 && q.2.st == .rinsing && q.2.frame.toNat == 3) = some (9, p)) := by decide
/-- The page of an address, as the header commands name it. -/
def hpage (a : Nat) : BitVec 14 := BitVec.ofNat 14 (a / 4096)
theorem wit_header : hasHeader (hpage (phaseWordAddr 0 0 0)) = false ∧ pageOf (4096 * (hpage mailboxPage).toNat) = some (.mailbox, 0) ∧
    domainOn (on r0) (pageDomain .mailbox 0) = true ∧
    (let a := tileBase 1023
     pageOf (4096 * (hpage a).toNat) = some (.tile, 1023) ∧ PageType.tile ≠ .phase ∧ PageType.tile ≠ .mailbox ∧ domainOn (on r0) (pageDomain .tile 1023) = true ∧
     blanked (on r0) .tile 1023 = false ∧ (bindState (on r0) .tile 1023).1 = false ∧ (bindState (on r0) .tile 1023).2 = false ∧ pageLocked (on r0) a = false ∧
     (injectCodes .tile).contains (wfld (0x1_2004 : BitVec 64) 15 0) = true) := by decide
/-- A register of each access rule, and of each block, whose write does not act; beside them an offset without a register. -/
theorem wit_registerWrite : ∀ q ∈ [(PageType.coll, collPage 1, 0x100, Access.rw), (.pour, pourPage 1, 0x100, .rw), (.update, updatePage, 0x100, .rw),
      (.hostPort, hostPortPage 3, 0x120, .rw), (.device, devicePage, 0x180, .rw), (.dma, dmaBase 63, 0x140, .rw), (.host, hostPage, 0x1C0, .rwl),
      (.tile, tileBase 1023, 0x050, .w1c), (.cluster, clusterBase 63, 0x120, .w1c), (.carafe, carafeBase 63, 0x100, .rw), (.carafe, carafeBase 63, 0x148, .ro), (.spine, spineBase 3, 0x048, .ro),
      (.fabPort, fabPortPage 15, 0x108, .ro)],
    let a := (BitVec.ofNat 26 (q.2.1 + q.2.2.1)).toNat
    a % 4096 = q.2.2.1 ∧ a % 8 = 0 ∧ (regRow q.1 (a % 4096)).map (·.acc) = some q.2.2.2 ∧
    (pageOf a).map (·.1) = some q.1 ∧ (pageOf a).map (fun x => [domainOn (on r0) (pageDomain x.1 x.2), blanked (on r0) x.1 x.2,
      writeActs (on r0) x.1 x.2 q.2.2.1, closedTo .mgmt x.1 (on r0), closedTo (.host 3) x.1 (on r0)]) = some [true, false, false, false, false] := by decide
theorem wit_registerRefused : pageOf (tileBase 1023) = some (.tile, 1023) ∧ domainOn r0 (pageDomain .tile 1023) = false ∧
    blanked (regs [(clusterBase 63 + 0x680, 0x6000_0500_0000_0000)] (on r0)) .tile 1023 = true ∧ regRow .tile 0xFF8 = none ∧
    writeActs (on r0) .tile 1023 0xFF8 = false ∧
    closedTo (.host 0) .tile { on r0 with rot := { Rot.reset with policy := factoryPolicy.take 12 ++ [0x20] ++ factoryPolicy.drop 13 } } = true ∧
    pageOf (phaseWordAddr 63 0 0) = some (.phase, 1008) ∧ phaseLocked (regs [(clusterBase 63 + 0x100, 0x100)] (on r0)) (1008 / 16) = true ∧
    winOpened (regs [(tileBase 1023 + 0x250, 2 ^ 63)] (on r0)) (.sp 1023) ((0x240 - 0x240) / 24) = true := by decide
theorem wit_unmapped : pageOf (0x000_1000 : BitVec 26).toNat = none ∧ (0x000_1000 : BitVec 26).toNat % 8 = 0 ∧ (0x000_1004 : BitVec 26).toNat % 8 ≠ 0 := by decide
/-- A power state, with BUSY, a target and jobs as they are. -/
def power (busy target st : Nat) (s : State) : State := regs [(mgmtPage + 0x100, busy * 2 ^ 63 + target * 2 ^ 8 + st)] s
theorem wit_power : r0.power.pgood = true ∧ ({ r0 with power := { Power.reset with pgood := false } } : State).power.pgood = false ∧
    pwrBusy (power 1 2 3 r0) = true ∧ ∀ st ∈ [0, 1, 2, 3], pwrBusy (power 0 0 st r0) = false ∧ pwrState (power 0 0 st r0) = st ∧ tagsFree (power 0 0 st r0) = true ∧
      tagsFree (power 0 0 st bound5) = false ∧ pwrBusy (power 0 0 st bound5) = false := by decide
theorem wit_powerMove : (∀ target ∈ [1, 2], let s := power 1 target 3 r0
      pwrBusy s = true ∧ regF s (mgmtPage + 0x100) 10 8 = target ∧ target < 3 ∧
      (let s1 := domainsOff (moveOff target) s
       let s2 := bump (raiseEvent mgmtPage 0 (setReg s1 (mgmtPage + 0x100) (packWord [(8, target), (4, b2n (bootListen s1)), (0, target)]))) (mgmtPage + 0x800)
       s2.power.wakeHeld = false)) := by decide +kernel
/-- A device in which bring-up steps run. -/
def steps0 (l : List Nat) : State := { r0 with power := { Power.reset with steps := l, inReset := false } }
theorem wit_bringUp : (steps0 [160]).power.steps.any (fun k => k / 32 == 5) = true ∧
    (List.range 16).find? (fun k => !domainOn (steps0 [160]) (quarterAt k)) = some 0 ∧
    ∀ p ∈ [(1, 0), (3, 0), (4, 3), (6, 0), (7, 0), (9, 15)], (p.1 : Nat) ≠ 2 ∧ p.1 ≠ 5 ∧ p.1 ≠ 8 ∧ (steps0 [32 * p.1 + p.2]).power.steps.contains (32 * p.1 + p.2) = true := by
  decide
/-- A device out of reset, with an input last asserted at a time, at a time. -/
def pins0 (last now : Nat) : State := { r0 with power := { Power.reset with inReset := false, lastIn := if last = 0 then [] else [(0, last), (1, last), (2, last)] }, cycle := now }
theorem wit_pins : ∀ pin ∈ [InputPin.wake, .sync, .tamper],
    (sound (pins0 0 0) = true ∧ awake (pins0 0 0) = true ∧ pinStuck (pins0 0 0) pin = false ∧ tblGet 0 (pins0 0 0).power.lastIn (pinBit pin) = 0) ∧
    (let s := pins0 1 (22 * 51)
     sound s = true ∧ awake s = true ∧ pinStuck s pin = false ∧ tblGet 0 s.power.lastIn (pinBit pin) - 1 + 50 < devTime s) ∧
    (let s := pins0 1 (22 * 50)
     sound s = true ∧ awake s = true ∧ pinStuck s pin = false ∧ tblGet 0 s.power.lastIn (pinBit pin) ≠ 0 ∧
     devTime s ≤ tblGet 0 s.power.lastIn (pinBit pin) - 1 + 50) ∧
    (let s := regs [(mgmtPage + 0x120, 0x700)] (pins0 0 0)
     sound s = true ∧ pinStuck s pin = true ∧ wbit (reg s (mgmtPage + 0x120)) (pinBit pin) = false) := by decide
theorem wit_wake : let s := bump (pins0 0 0) (mgmtPage + 0x820)
    let s1 := setBit s (mgmtPage + 0x120) (pinBit .wake)
    pwrBusy { s1 with power := { s1.power with lastIn := tblSet 0 s1.power.lastIn (pinBit .wake) (devTime s1 + 1) } } = false := by decide
theorem wit_stuck : ∀ pin ∈ [InputPin.wake, .sync], let s := regs [(mgmtPage + 0x120, 3), (mgmtPage + 0x128, 0x1_0000_0001)] (pins0 0 0)
    sound s = true ∧ awake s = true ∧ stuckTmo s pin ≠ 0 ∧ pinStuck s pin = false ∧ wbit (reg s (mgmtPage + 0x120)) (pinBit pin) = true := by decide
theorem wit_supply : sound r0 = true ∧ r0.power.pgood = true ∧ r0.power.inReset = true ∧ r0.power.syncOut = false ∧
    (∀ p ∈ [(false, false), (false, true), (true, true), (true, false)], let s := { r0 with power := { Power.reset with faultPin := p.1, cycled := p.2 } }
     sound s = true ∧ s.power.pgood = true ∧ s.power.inReset = true ∧ s.power.faultPin = p.1 ∧ s.power.cycled = p.2) ∧
    (∀ b ∈ [true, false], let s := { r0 with power := { Power.reset with pgood := false, input := false, pwrEn := b } }
     sound s = true ∧ s.power.pgood = false ∧ s.power.pwrEn = b) ∧
    (let s := { r0 with power := { Power.reset with i3cAddr := 3 } }; sound s = true ∧ i3cAddress s = 0x53 ∧ 0x50 ≠ i3cAddress s) ∧
    (let s := { r0 with power := { Power.reset with pgood := false } }
     sound s = true ∧ s.power.pgood = false ∧ s.power.input = true) := by decide
theorem wit_monitors : r0.armed = [] ∧ (getBridge r0 7).down = false ∧ (getBridge r0 7).out.replays < 15 ∧ (getTile r0 1023).vq = [] ∧ (getTile r0 1023).stInj = false ∧
    wbit (reg (on r0) (mgmtPage + 0x118)) 24 = true ∧
    pageOf (4096 * (BitVec.ofNat 14 (spineBase 3 / 4096)).toNat) = some (.spine, 768) ∧ pageOf (4096 * (BitVec.ofNat 14 (mgmtPage / 4096)).toNat) = some (.mgmt, 0) ∧
    ({ r0 with power := { Power.reset with mgmtDown := true } } : State).power.mgmtDown = true := by decide
theorem wit_bridges : bridgeArmed r0 7 = none ∧ bridgeArmed { r0 with armed := [(spineBase 3, bridgeFailCode)] } 7 = some 3 ∧
    (getBridge (putBridge r0 7 { Bridge.reset with down := true }) 7).down = true ∧
    (∀ back ∈ [true, false], let l : BridgeLink := { (bridgeLink Bridge.reset back) with buffer := [5], replays := 15 }
     let s := putBridge r0 7 { Bridge.reset with out := l, back := l }
     (getBridge s 7).down = false ∧ (bridgeLink (getBridge s 7) back).buffer.headD 6 ≠ 6 ∧ (bridgeLink (getBridge s 7) back).buffer.headD 5 = 5) := by decide
theorem wit_lockstep : (getClu r0 63).barReset = false ∧ r0.power.mgmtDown = false ∧ pllStarted (on r0) 0 = false ∧ pllStarted (on r0) 24 = true ∧
    pllStarted r0 24 = false ∧ ({ r0 with armed := [(clusterBase 63, selftestStarve)] } : State).armed.contains (clusterBase (1023 / 16), selftestStarve) = true ∧
    ({ r0 with armed := [(clockPage 24, clockMonCode)] } : State).armed.contains (clockPage 24, clockMonCode) = true := by decide
theorem wit_thermal : let s := regs [(mgmtPage + 0x230, 0x6E695F)] (pins0 0 0)
    let temps : List Int := List.replicate 76 (0x5B : Int)
    s.armed = [] ∧ temps.length = 76 ∧ awake s = true ∧ (hottest temps).2 ≤ ((regF s (mgmtPage + 0x230) 7 0 : Nat) : Int) - 4 ∧
    ((regF s (mgmtPage + 0x230) 7 0 : Nat) : Int) ≤ ((regF s (mgmtPage + 0x230) 15 8 : Nat) : Int) ∧
    ((regF s (mgmtPage + 0x230) 7 0 : Nat) : Int) ≤ ((regF s (mgmtPage + 0x230) 23 16 : Nat) : Int) := by decide
/-- The root of trust with a policy that permits debug and injection, and a first word of the mailbox's input. -/
def policy1 (w : Nat) : State :=
  let p := factoryPolicy.take 9 ++ [1, 1] ++ factoryPolicy.drop 11
  let s := regs [(mailboxPage + 0x200, w)] (on r0)
  { s with rot := { Rot.reset with policy := p } }
theorem wit_mailbox : domainOn (on r0) 1 = true ∧ mbxBusyBit (on r0) = false ∧ (∃ k, ({ on r0 with rot := { Rot.reset with aliasKey := some 1 } } : State).rot.aliasKey = some k) :=
  ⟨by decide, by decide, ⟨1, rfl⟩⟩
theorem wit_cert : ∀ w ∈ [0, 1], recF (mbxInput (policy1 w) (mbxLen 2)) 0 1 = w := by decide +kernel
theorem wit_extend : ∀ w ∈ [4, 7], recF (mbxInput (policy1 w) (mbxLen 4)) 0 1 = w := by decide +kernel
theorem wit_unlock : domainOn (policy1 3) 1 = true ∧ mbxBusyBit (policy1 3) = false ∧ recF (mbxInput (policy1 3) (mbxLen 0x11)) 0 8 = 3 ∧
    bit (policyField (policy1 3) 9 1) 0 = true ∧ (policy1 3).rot.level.toNat < 2 ∧ (policy1 3).rot.dbg = 0 := by decide +kernel
theorem wit_clear : recF (mbxInput (policy1 0) (mbxLen 0x12)) 0 8 = 0 ∧ (policy1 0).rot.level ≠ 3 ∧ causeHolds (policy1 0) 0 = false ∧ mramBad (policy1 0) 4 = false := by
  decide +kernel
theorem wit_inject : bit (policyField (policy1 6) 10 1) 0 = true ∧ recF (mbxInput (policy1 6) (mbxLen 0x20)) 0 1 = 6 ∧
    bit (policyField (on r0) 10 1) 0 = false := by decide +kernel
theorem wit_security : (∃ b, ({ r0 with rot := { Rot.reset with newPolicy := some [1] } } : State).rot.newPolicy = some b) ∧ r0.rot.dbg.getLsbD 0 = false ∧
    ({ r0 with rot := { Rot.reset with dbg := 1 } } : State).rot.dbg.getLsbD 0 = true := ⟨⟨_, rfl⟩, by decide, by decide⟩
theorem wit_ignoredRo : ctlAccess .mgmt false (BitVec.ofNat 26 (collPage 1)).toNat (on r0) = .apply .coll 1 ∧
    (regRow .coll ((BitVec.ofNat 26 (collPage 1)).toNat % 4096)).map (·.acc) = some .ro := ⟨rfl, by decide⟩
theorem wit_ignoredBarista : ctlAccess (.barista 63) false (clusterBase 63 + (0x12_0000 - 0x12_0000)) (on r0) = .apply .cluster 1008 ∧
    (regRow .cluster ((clusterBase 63) % 4096)).map (·.acc) = some .ro ∧ (0x12_0000 : BitVec 26).toNat = 0x12_0000 := ⟨rfl, by decide, by decide⟩
theorem wit_ignoredRwl : let s := regs [(fabricPage + 0x60, 1)] (on r0)
    let a := (BitVec.ofNat 26 (fabricPage + 0x100)).toNat
    ctlAccess .mgmt false a s = .apply .fabric 0 ∧ (regRow .fabric (a % 4096)).map (·.acc) = some .rwl ∧ pageLocked s (a - a % 4096) = true :=
  ⟨rfl, by decide, by decide⟩
/-- Cluster 63 in a running phase in which its last tile takes part, with a block, a queue and loops. -/
def phase63 (l : List LoopFrame) : State :=
  putTile (putWalker r0 63 { Walker.reset with st := .running }) 1023
    { Tile.reset with part := true, block := some (blkRun 0), vq := [en0 (some 0), en0 none, en0 none, en0 none], loops := l, ctxState := [(0, 2)] }
theorem wit_tileFault : sound (phase63 []) = true ∧ (getWalker (phase63 []) (1023 / 16)).st ≠ .stopped := by decide
theorem wit_context : ∀ l ∈ [[], [(⟨0, 1, 1⟩ : LoopFrame)]], sound (phase63 l) = true ∧ ctxSt (getTile (phase63 l) 1023) 3 ≠ 2 ∧
    ctxSeen (phase63 l) 1023 3 ≠ 2 ∧ (getWalker (phase63 l) (1023 / 16)).st ≠ .stopped ∧ (getWalker (phase63 l) (1023 / 16)).st = .running ∧
    (getTile (phase63 l) 1023).loops = l := by decide
theorem wit_vectorFull : ∀ p ∈ vecCommands, vecReserved (phase63 []) 1023 p.1 (vaOf p.1) = false ∧ 4 ≤ vecHeld (phase63 []) 1023 ∧
    vecReserved (phase63 []) 1023 p.1 { vaOf p.1 with srcA := 64 } = true := by decide
theorem wit_queueComplete : let w : Nat := 4 * 2 ^ 60 + (carafeBase 63 + 0x218 + 32 * 15)
    let s := ring5 0 ([4, 0, 0, 0, 0, 0, 0, 0] ++ leBytes 8 w) id
    startsWith s 0 63 0 ∧ recF (descBytes s 0 63 0) 0 1 = 4 ∧ wfld (BitVec.ofNat 64 (recF (descBytes s 0 63 0) 8 8)) 63 60 = 4 ∧
    (returnAt (wfld (BitVec.ofNat 64 (recF (descBytes s 0 63 0) 8 8)) 25 0)).isSome = true ∧ sound s = true := by unfold startsWith; decide
theorem wit_queueWrite : let a : BitVec 26 := BitVec.ofNat 26 (carafeBase 63 + 0x218 + 32 * 15)
    carafeBase 63 + 0x200 ≤ a.toNat ∧ a.toNat < carafeBase 63 + 0x400 := by decide

/-! ### Well-formedness: for each check a command that it refuses, beside the bound that it admits -/

/-- A tile beyond 1,023 is ill formed. -/
theorem test_wf_tile : (Instr.seqNop 1024).wf = false := by decide
theorem test_wf_cluster : (Instr.bundleIssue 63).wf = true ∧ (Instr.bundleIssue 64).wf = false := by decide
theorem test_wf_network : (Instr.netWordArrive 0 2 4 word0).wf = true ∧ (Instr.netWordArrive 0 3 4 word0).wf = false ∧
    (Instr.netWordArrive 0 2 5 word0).wf = false := by decide
theorem test_wf_die : (Instr.barrierRelease 3 0 0).wf = true ∧ (Instr.barrierRelease 4 0 0).wf = false := by decide
theorem test_wf_row : (Instr.asyncWriteArrive (.sp 1024) row1).wf = false ∧ (Instr.asyncWriteArrive (.car 64) row1).wf = false ∧
    (Instr.asyncWriteArrive (.sp 0) { row1 with row := 24576 }).wf = false ∧ (Instr.asyncWriteArrive (.sp 0) { row1 with row := 24575 }).wf = true := by decide
theorem test_wf_bank : (Instr.asyncWriteLand (.sp 0) 24).wf = false ∧ (Instr.bankTransitionDone (.car 0) 96).wf = false ∧
    (Instr.bankTransitionDone (.car 0) 95).wf = true ∧ (Instr.bankStateWrite (.sp 0) 3 0).wf = false := by decide
theorem test_wf_carafe : (Instr.carafeReadReturn 0 false 0 196607).wf = true ∧ (Instr.carafeReadReturn 0 false 0 196608).wf = false := by decide
theorem test_wf_hub : (Instr.pqDoorbell 1 0 0).wf = true ∧ (Instr.pqDoorbell 2 0 0).wf = false := by decide
theorem test_wf_bridge : (Instr.bridgeFail 7).wf = true ∧ (Instr.bridgeFail 8).wf = false := by decide
theorem test_wf_message : (Instr.fabWrite msg7).wf = true ∧ (Instr.fabWrite { msg7 with src := 65536 }).wf = false ∧
    (Instr.fabWrite { msg7 with dst := 65536 }).wf = false ∧ (Instr.fabWrite { msg7 with shub := 2 }).wf = false ∧
    (Instr.fabWrite { msg7 with cls := 4 }).wf = false := by decide
theorem test_wf_port : (Instr.rcSend pk0).wf = true ∧ (Instr.rcSend { pk0 with port := 4 }).wf = false := by decide
theorem test_wf_page : (Instr.blkLock (hpage mgmtPage)).wf = true ∧ (Instr.blkLock (hpage (phaseWordAddr 0 0 0))).wf = false ∧
    (Instr.voltMon (hpage mgmtPage) 0).wf = true ∧ (Instr.voltMon (hpage (tileBase 0)) 0).wf = false := by decide
theorem test_wf_clock : (Instr.pllLock 24).wf = true ∧ (Instr.pllLock 25).wf = false ∧ (Instr.clockMon 25 0).wf = false := by decide
theorem test_wf_thermal : (Instr.thermSample (List.replicate 76 0)).wf = true ∧ (Instr.thermSample (List.replicate 75 0)).wf = false := by decide
theorem test_wf_pair : (Instr.lockstepMismatch (.barista 64)).wf = false ∧ (Instr.lockstepMismatch .mgmt).wf = true := by decide

/-! ### Words and values that the spec gives -/

/-- R38: 0x1 LOOP with counter 7 and L - 1 = 511; 0x4 CTX with context 3; 0x5 PHASE_END. -/
theorem test_seq_words : bundleDecode 0x1FFF = some { Bundle.none_ with seq := .loop 7 512 } ∧
    bundleDecode 0x4003 = some { Bundle.none_ with seq := .ctx 3 } ∧ bundleDecode 0x5000 = some { Bundle.none_ with seq := .phaseEnd } := by decide
/-- R38: bits [11:2] of CTX and [11:0] of NOP are zero, and 0x6 is reserved. -/
theorem test_seq_reserved : bundleDecode 0x4007 = none ∧ bundleDecode 0x0001 = none ∧ bundleDecode 0x6000 = none := by decide
/-- R40: port 0 is [71:52]; OP 01, route 100, row 24,575. An idle slot with another bit set is reserved, and so is route 101. -/
theorem test_port_words : bundleDecode (0b01_100_101111111111111 * 2 ^ 52) = some { Bundle.none_ with p0 := .read 4 24575 } ∧
    bundleDecode (0b00_000_000000000000001 * 2 ^ 52) = none ∧ bundleDecode (0b01_101_000000000000000 * 2 ^ 32) = none := by decide
/-- R43: the matrix slot is [127:72]; 0x2 STAT_RESET of bank 1, whose other bits are zero. -/
theorem test_matrix_words : bundleDecode (0x20_8000_0000_0000 * 2 ^ 72) = some { Bundle.none_ with mat := .statReset 1 } ∧
    bundleDecode (0x20_8000_0000_0001 * 2 ^ 72) = none := by decide
/-- R452: of the faults of one cycle the lowest-numbered tile's is kept, in whatever order they are found. -/
theorem test_lowest_tile : ∀ p ∈ [(1023, 1010), (1010, 1023)], let s := faultTile p.2 0x1008 0 0 (faultTile p.1 0x100C 0 0 (phase63 []))
    regF s (clusterBase 63 + 0x148) 7 4 = 2 ∧ regF s (clusterBase 63 + 0x148) 31 16 = (if p.1 = 1010 then 0x100C else 0x1008) := by decide +kernel
/-- R159: row 9,000 lies in bank 8. -/
theorem test_row_bank : storeBank (.sp 0) 9000 = 8 := by decide
/-- Number Formats and Rounding: 6.625 converted to E2M1 writes 6, code 0x7; -0.875 code 0xA; 2.875 code 0x5. -/
theorem test_e2m1 : (convTy false 9 true .rne (.fin false 53 (-3))).code = 7 ∧ (convTy false 9 true .rne (.fin true 7 (-3))).code = 0xA ∧
    (convTy false 9 true .rne (.fin false 23 (-3))).code = 5 := by decide
/-- Number Formats and Rounding: 0.3 to E4M3 under stochastic rounding, with the draws 0x8000 and 0x4000. -/
theorem test_stochastic : (convTy false 3 false (.sr 0x8000) (val32 0x3E99999A)).code = 0x2A ∧
    (convTy false 3 false (.sr 0x4000) (val32 0x3E99999A)).code = 0x29 := by decide
/-- Number Formats and Rounding: the block-scale example has the scale code 130 and the elements 0x7, 0xA, 0x0 and 0x5. -/
theorem test_block_scale :
    let b := blockScale 9 (fun _ => .rne) ((val32 0x42540000, true) :: (val32 0xC0E00000, true) :: (val32 0x3E99999A, true) :: (val32 0x41B80000, true)
      :: List.replicate 28 (.fin false 0 0, true))
    b.1 = 130 ∧ (b.2.map (·.code)).take 4 = [7, 0xA, 0, 5] := by decide
/-- The CRC-32 of the digits 1 to 9, the check value of the polynomial that R202 and R306 use. -/
theorem test_crc : crc32 [0x31, 0x32, 0x33, 0x34, 0x35, 0x36, 0x37, 0x38, 0x39] = 0xCBF43926 := by decide

end Sys2Proof.Tests
end

/-! What every command keeps, by the parts of the state: the masks of Laws/Keeps.lean against the lists of `changes`, the frame of a
command and the invariant of a step. -/

namespace Sys2Proof.Machine

/-! ### Masks of lists of parts -/

/-- The mask of a list of parts. -/
def partsMask (l : List Part) : Nat := l.foldr (fun p m => 2 ^ p.num ||| m) 0

theorem Part.num_eq_ctorIdx (p : Part) : p.num = p.ctorIdx := by cases p <;> rfl

theorem Part.num_injective {p q : Part} (h : p.num = q.num) : p = q := by
  rw [p.num_eq_ctorIdx, q.num_eq_ctorIdx] at h
  rw [← Part.ofNat_ctorIdx p, h, Part.ofNat_ctorIdx]

/-- A part outside a list has its bit clear in the list's mask. -/
theorem partsMask_testBit_of_notMem {p : Part} {l : List Part} (h : p ∉ l) : (partsMask l).testBit p.num = false := by
  induction l with
  | nil => exact Nat.zero_testBit _
  | cons q l ih =>
    have hne : q.num ≠ p.num := fun e => h (Part.num_injective e ▸ List.mem_cons_self)
    have hl : p ∉ l := fun m => h (List.mem_cons_of_mem q m)
    show (2 ^ q.num ||| partsMask l).testBit p.num = false
    simp [Nat.testBit_or, hne, ih hl]

/-- An operation that keeps what its list's mask names changes only the parts of the list. -/
theorem Keeps.changesOnly {l : List Part} {s t : State} (h : Keeps (partsMask l) s t) : changesOnly l s t :=
  fun p hp => h.same p (partsMask_testBit_of_notMem hp)

/-! ### What one command keeps -/

/-- Every command keeps the parts that `changes` does not list for it, and the canonical forms. -/
theorem exec_keeps (i : Instr) (s : State) : KeepsR (partsMask (changes i)) s (exec i s) := by
  unfold changes
  cases i <;> dsimp only
  case bundleIssue => exact keeps_execBundleIssue rfl (.refl _ s)
  case seqNop => exact keeps_execSeqNop rfl (.refl _ s)
  case loop => exact keeps_execLoop rfl (.refl _ s)
  case cset => exact keeps_execCset rfl (.refl _ s)
  case cadd => exact keeps_execCadd rfl (.refl _ s)
  case ctx => exact keeps_execCtx rfl (.refl _ s)
  case phaseEnd => exact keeps_execPhaseEnd rfl (.refl _ s)
  case block => exact keeps_execBlock rfl (.refl _ s)
  case statReset => exact keeps_execStatReset rfl (.refl _ s)
  case matrixNop => exact keeps_execMatrixNop rfl (.refl _ s)
  case matChunkTake => exact keeps_execMatChunkTake rfl (.refl _ s)
  case abftCompare => exact keeps_execAbftCompare rfl (.refl _ s)
  case readRow => exact keeps_execReadRow rfl (.refl _ s)
  case writeRow => exact keeps_execWriteRow rfl (.refl _ s)
  case readThroughGenerator => exact keeps_execReadThroughGenerator rfl (.refl _ s)
  case portReadDeliver => exact keeps_execPortReadDeliver rfl (.refl _ s)
  case takeMs => exact keeps_execTakeMs rfl (.refl _ s)
  case takeSs => exact keeps_execTakeSs rfl (.refl _ s)
  case drop => exact keeps_execDrop rfl (.refl _ s)
  case scalarSendC => exact keeps_execScalarSendC rfl (.refl _ s)
  case scalarTakeC => exact keeps_execScalarTakeC rfl (.refl _ s)
  case putSum => exact keeps_execPutSum rfl (.refl _ s)
  case wfa => exact keeps_execWfa rfl (.refl _ s)
  case wfaResult => exact keeps_execWfaResult rfl (.refl _ s)
  case sendSv => exact keeps_execSendSv rfl (.refl _ s)
  case sendI => exact keeps_execSendI rfl (.refl _ s)
  case controlSendC => exact keeps_execControlSendC rfl (.refl _ s)
  case controlTakeC => exact keeps_execControlTakeC rfl (.refl _ s)
  case netWordArrive => exact keeps_execNetWordArrive rfl (.refl _ s)
  case steerTokenArrive => exact keeps_execSteerTokenArrive rfl (.refl _ s)
  case steerDataWord => exact keeps_execSteerDataWord rfl (.refl _ s)
  case steerTokenExpired => exact keeps_execSteerTokenExpired rfl (.refl _ s)
  case vecAdd => exact keeps_execVecAdd rfl (.refl _ s)
  case vecSub => exact keeps_execVecSub rfl (.refl _ s)
  case vecMul => exact keeps_execVecMul rfl (.refl _ s)
  case vecFma => exact keeps_execVecFma rfl (.refl _ s)
  case vecMin => exact keeps_execVecMin rfl (.refl _ s)
  case vecMax => exact keeps_execVecMax rfl (.refl _ s)
  case vecAbs => exact keeps_execVecAbs rfl (.refl _ s)
  case vecSign => exact keeps_execVecSign rfl (.refl _ s)
  case vecCmp => exact keeps_execVecCmp rfl (.refl _ s)
  case vecSel => exact keeps_execVecSel rfl (.refl _ s)
  case vecCvt => exact keeps_execVecCvt rfl (.refl _ s)
  case vecMlog => exact keeps_execVecMlog rfl (.refl _ s)
  case vecSfu => exact keeps_execVecSfu rfl (.refl _ s)
  case vecRsum => exact keeps_execVecRsum rfl (.refl _ s)
  case vecRmax => exact keeps_execVecRmax rfl (.refl _ s)
  case vecRmin => exact keeps_execVecRmin rfl (.refl _ s)
  case vecRargmax => exact keeps_execVecRargmax rfl (.refl _ s)
  case vecRargmin => exact keeps_execVecRargmin rfl (.refl _ s)
  case vecRlse => exact keeps_execVecRlse rfl (.refl _ s)
  case vecRsumsq => exact keeps_execVecRsumsq rfl (.refl _ s)
  case vecRmean => exact keeps_execVecRmean rfl (.refl _ s)
  case vecScan => exact keeps_execVecScan rfl (.refl _ s)
  case vecPerm => exact keeps_execVecPerm rfl (.refl _ s)
  case vecTopk => exact keeps_execVecTopk rfl (.refl _ s)
  case vecBscale => exact keeps_execVecBscale rfl (.refl _ s)
  case vecCensus => exact keeps_execVecCensus rfl (.refl _ s)
  case vectorNop => exact keeps_execVectorNop rfl (.refl _ s)
  case vectorInstrComplete => exact keeps_execVectorInstrComplete rfl (.refl _ s)
  case phaseComplete => exact keeps_execPhaseComplete rfl (.refl _ s)
  case walkerSample => exact keeps_execWalkerSample rfl (.refl _ s)
  case barrierRelease => exact keeps_execBarrierRelease rfl (.refl _ s)
  case phaseStart => exact keeps_execPhaseStart rfl (.refl _ s)
  case gateTimeout => exact keeps_execGateTimeout rfl (.refl _ s)
  case start => exact keeps_execStart rfl (.refl _ s)
  case stop => exact keeps_execStop rfl (.refl _ s)
  case resume => exact keeps_execResume rfl (.refl _ s)
  case clearDone => exact keeps_execClearDone rfl (.refl _ s)
  case workCounterAmo => exact keeps_execWorkCounterAmo rfl (.refl _ s)
  case asyncWriteArrive => exact keeps_execAsyncWriteArrive rfl (.refl _ s)
  case asyncWriteLand => exact keeps_execAsyncWriteLand rfl (.refl _ s)
  case bankStateWrite => exact keeps_execBankStateWrite rfl (.refl _ s)
  case bankTransitionDone => exact keeps_execBankTransitionDone rfl (.refl _ s)
  case carafeReadReturn => exact keeps_execCarafeReadReturn rfl (.refl _ s)
  case winOpen => exact keeps_execWinOpen rfl (.refl _ s)
  case winClose => exact keeps_execWinClose rfl (.refl _ s)
  case winSetEpoch => exact keeps_execWinSetEpoch rfl (.refl _ s)
  case creditClaim => exact keeps_execCreditClaim rfl (.refl _ s)
  case rqReturn => exact keeps_execRqReturn rfl (.refl _ s)
  case rqCfgWrite => exact keeps_execRqCfgWrite rfl (.refl _ s)
  case leaseRelease => exact keeps_execLeaseRelease rfl (.refl _ s)
  case shardCommit => exact keeps_execShardCommit rfl (.refl _ s)
  case leaseTimeout => exact keeps_execLeaseTimeout rfl (.refl _ s)
  case leaseQuery => exact keeps_execLeaseQuery rfl (.refl _ s)
  case forceReleaseCur => exact keeps_execForceReleaseCur rfl (.refl _ s)
  case forceReleaseRet => exact keeps_execForceReleaseRet rfl (.refl _ s)
  case layoutQuery => exact keeps_execLayoutQuery rfl (.refl _ s)
  case run => exact keeps_execRun rfl (.refl _ s)
  case runWaitEnd => exact keeps_execRunWaitEnd rfl (.refl _ s)
  case runComplete => exact keeps_execRunComplete rfl (.refl _ s)
  case updAdd => exact keeps_execUpdAdd rfl (.refl _ s)
  case updSub => exact keeps_execUpdSub rfl (.refl _ s)
  case updMul => exact keeps_execUpdMul rfl (.refl _ s)
  case updFma => exact keeps_execUpdFma rfl (.refl _ s)
  case updSign => exact keeps_execUpdSign rfl (.refl _ s)
  case updAbs => exact keeps_execUpdAbs rfl (.refl _ s)
  case updMax => exact keeps_execUpdMax rfl (.refl _ s)
  case updMin => exact keeps_execUpdMin rfl (.refl _ s)
  case updRsqrt => exact keeps_execUpdRsqrt rfl (.refl _ s)
  case updSel => exact keeps_execUpdSel rfl (.refl _ s)
  case updCvt => exact keeps_execUpdCvt rfl (.refl _ s)
  case renorm => exact keeps_execRenorm rfl (.refl _ s)
  case stepSummary => exact keeps_execStepSummary rfl (.refl _ s)
  case cleanIntervalEnd => exact keeps_execCleanIntervalEnd rfl (.refl _ s)
  case roastQuery => exact keeps_execRoastQuery rfl (.refl _ s)
  case cuppingCompare => exact keeps_execCuppingCompare rfl (.refl _ s)
  case cupHselWrite => exact keeps_execCupHselWrite rfl (.refl _ s)
  case censusEvent => exact keeps_execCensusEvent rfl (.refl _ s)
  case snapClear => exact keeps_execSnapClear rfl (.refl _ s)
  case snapClearJob => exact keeps_execSnapClearJob rfl (.refl _ s)
  case cenQuery => exact keeps_execCenQuery rfl (.refl _ s)
  case lossIn => exact keeps_execLossIn rfl (.refl _ s)
  case pqDoorbell => exact keeps_execPqDoorbell rfl (.refl _ s)
  case fwd => exact keeps_execFwd rfl (.refl _ s)
  case bwd => exact keeps_execBwd rfl (.refl _ s)
  case pourReturn => exact keeps_execPourReturn rfl (.refl _ s)
  case pourClaimRetry => exact keeps_execPourClaimRetry rfl (.refl _ s)
  case pourTimeout => exact keeps_execPourTimeout rfl (.refl _ s)
  case pourResume => exact keeps_execPourResume rfl (.refl _ s)
  case readWalk => exact keeps_execReadWalk rfl (.refl _ s)
  case appendWalk => exact keeps_execAppendWalk rfl (.refl _ s)
  case walkEntryStart => exact keeps_execWalkEntryStart rfl (.refl _ s)
  case appendEnd => exact keeps_execAppendEnd rfl (.refl _ s)
  case kvRingQuery => exact keeps_execKvRingQuery rfl (.refl _ s)
  case tierMap => exact keeps_execTierMap rfl (.refl _ s)
  case mapFillDone => exact keeps_execMapFillDone rfl (.refl _ s)
  case tierUnmap => exact keeps_execTierUnmap rfl (.refl _ s)
  case tierHint => exact keeps_execTierHint rfl (.refl _ s)
  case promote => exact keeps_execPromote rfl (.refl _ s)
  case tierRelease => exact keeps_execTierRelease rfl (.refl _ s)
  case evict => exact keeps_execEvict rfl (.refl _ s)
  case moveCommit => exact keeps_execMoveCommit rfl (.refl _ s)
  case tierAge => exact keeps_execTierAge rfl (.refl _ s)
  case tierPromoteTmo => exact keeps_execTierPromoteTmo rfl (.refl _ s)
  case holdRetry => exact keeps_execHoldRetry rfl (.refl _ s)
  case tierQuery => exact keeps_execTierQuery rfl (.refl _ s)
  case dmaDoorbell => exact keeps_execDmaDoorbell rfl (.refl _ s)
  case dmaDescData => exact keeps_execDmaDescData rfl (.refl _ s)
  case dmaResume => exact keeps_execDmaResume rfl (.refl _ s)
  case dmaSkip => exact keeps_execDmaSkip rfl (.refl _ s)
  case dmaAbort => exact keeps_execDmaAbort rfl (.refl _ s)
  case dmaRingCfgWrite => exact keeps_execDmaRingCfgWrite rfl (.refl _ s)
  case copy => exact keeps_execCopy rfl (.refl _ s)
  case curve => exact keeps_execCurve rfl (.refl _ s)
  case complete => exact keeps_execComplete rfl (.refl _ s)
  case fence => exact keeps_execFence rfl (.refl _ s)
  case descComplete => exact keeps_execDescComplete rfl (.refl _ s)
  case dmaWaitTmo => exact keeps_execDmaWaitTmo rfl (.refl _ s)
  case dmaClaimRetry => exact keeps_execDmaClaimRetry rfl (.refl _ s)
  case reduceScatter => exact keeps_execReduceScatter rfl (.refl _ s)
  case allGather => exact keeps_execAllGather rfl (.refl _ s)
  case allReduce => exact keeps_execAllReduce rfl (.refl _ s)
  case allToAll => exact keeps_execAllToAll rfl (.refl _ s)
  case vote => exact keeps_execVote rfl (.refl _ s)
  case collRelease => exact keeps_execCollRelease rfl (.refl _ s)
  case collClose => exact keeps_execCollClose rfl (.refl _ s)
  case collReady => exact keeps_execCollReady rfl (.refl _ s)
  case collReadyTimeout => exact keeps_execCollReadyTimeout rfl (.refl _ s)
  case collDone => exact keeps_execCollDone rfl (.refl _ s)
  case collFinish => exact keeps_execCollFinish rfl (.refl _ s)
  case collAbort => exact keeps_execCollAbort rfl (.refl _ s)
  case laserFail => exact keeps_execLaserFail rfl (.refl _ s)
  case flitReceive => exact keeps_execFlitReceive rfl (.refl _ s)
  case lossOfLight => exact keeps_execLossOfLight rfl (.refl _ s)
  case ackStall => exact keeps_execAckStall rfl (.refl _ s)
  case portRetrain => exact keeps_execPortRetrain rfl (.refl _ s)
  case portTrainingDone => exact keeps_execPortTrainingDone rfl (.refl _ s)
  case bridgeWordReceive => exact keeps_execBridgeWordReceive rfl (.refl _ s)
  case fabWrite => exact keeps_execFabWrite rfl (.refl _ s)
  case fabSend => exact keeps_execFabSend rfl (.refl _ s)
  case readReq => exact keeps_execReadReq rfl (.refl _ s)
  case fadd => exact keeps_execFadd rfl (.refl _ s)
  case cswap => exact keeps_execCswap rfl (.refl _ s)
  case coll => exact keeps_execColl rfl (.refl _ s)
  case readResp => exact keeps_execReadResp rfl (.refl _ s)
  case atomicResp => exact keeps_execAtomicResp rfl (.refl _ s)
  case ack => exact keeps_execAck rfl (.refl _ s)
  case nak => exact keeps_execNak rfl (.refl _ s)
  case notReady => exact keeps_execNotReady rfl (.refl _ s)
  case gap => exact keeps_execGap rfl (.refl _ s)
  case resync => exact keeps_execResync rfl (.refl _ s)
  case resyncRespReady => exact keeps_execResyncRespReady rfl (.refl _ s)
  case resyncResp => exact keeps_execResyncResp rfl (.refl _ s)
  case fabAckTmo => exact keeps_execFabAckTmo rfl (.refl _ s)
  case resyncTimeout => exact keeps_execResyncTimeout rfl (.refl _ s)
  case nrRetry => exact keeps_execNrRetry rfl (.refl _ s)
  case fabNrTmo => exact keeps_execFabNrTmo rfl (.refl _ s)
  case apply => exact keeps_execApply rfl (.refl _ s)
  case fabPairQuery => exact keeps_execFabPairQuery rfl (.refl _ s)
  case fabAmoGo => exact keeps_execFabAmoGo rfl (.refl _ s)
  case hostFrame => exact keeps_execHostFrame rfl (.refl _ s)
  case hostLinkChange => exact keeps_execHostLinkChange rfl (.refl _ s)
  case rcSend => exact keeps_execRcSend rfl (.refl _ s)
  case rdmaWrite => exact keeps_execRdmaWrite rfl (.refl _ s)
  case rdmaRead => exact keeps_execRdmaRead rfl (.refl _ s)
  case compareSwap => exact keeps_execCompareSwap rfl (.refl _ s)
  case fetchAdd => exact keeps_execFetchAdd rfl (.refl _ s)
  case cmReq => exact keeps_execCmReq rfl (.refl _ s)
  case cmRtu => exact keeps_execCmRtu rfl (.refl _ s)
  case cmDreq => exact keeps_execCmDreq rfl (.refl _ s)
  case cnp => exact keeps_execCnp rfl (.refl _ s)
  case cnpRateTimer => exact keeps_execCnpRateTimer rfl (.refl _ s)
  case qpCtxWrite => exact keeps_execQpCtxWrite rfl (.refl _ s)
  case qpRqReturn => exact keeps_execQpRqReturn rfl (.refl _ s)
  case stage => exact keeps_execStage rfl (.refl _ s)
  case bind => exact keeps_execBind rfl (.refl _ s)
  case attach => exact keeps_execAttach rfl (.refl _ s)
  case detach => exact keeps_execDetach rfl (.refl _ s)
  case kill => exact keeps_execKill rfl (.refl _ s)
  case quiesceEnd => exact keeps_execQuiesceEnd rfl (.refl _ s)
  case quiesceTmo => exact keeps_execQuiesceTmo rfl (.refl _ s)
  case clusterRinseDone => exact keeps_execClusterRinseDone rfl (.refl _ s)
  case frameRinseDone => exact keeps_execFrameRinseDone rfl (.refl _ s)
  case softReset => exact keeps_execSoftReset rfl (.refl _ s)
  case errStatusClear => exact keeps_execErrStatusClear rfl (.refl _ s)
  case errInject => exact keeps_execErrInject rfl (.refl _ s)
  case blkLock => exact keeps_execBlkLock rfl (.refl _ s)
  case ctrSnap => exact keeps_execCtrSnap rfl (.refl _ s)
  case registerWrite => exact keeps_execRegisterWrite rfl (.refl _ s)
  case pwrActive => exact keeps_execPwrActive rfl (.refl _ s)
  case pwrListen => exact keeps_execPwrListen rfl (.refl _ s)
  case pwrStandby => exact keeps_execPwrStandby rfl (.refl _ s)
  case powerMoveDone => exact keeps_execPowerMoveDone rfl (.refl _ s)
  case quarterPowerOn => exact keeps_execQuarterPowerOn rfl (.refl _ s)
  case wake => exact keeps_execWake rfl (.refl _ s)
  case sync => exact keeps_execSync rfl (.refl _ s)
  case tamper => exact keeps_execTamper rfl (.refl _ s)
  case resetAssert => exact keeps_execResetAssert rfl (.refl _ s)
  case resetRelease => exact keeps_execResetRelease rfl (.refl _ s)
  case inputStuck => exact keeps_execInputStuck rfl (.refl _ s)
  case rearm => exact keeps_execRearm rfl (.refl _ s)
  case syncOutCmd => exact keeps_execSyncOutCmd rfl (.refl _ s)
  case pllLock => exact keeps_execPllLock rfl (.refl _ s)
  case pwrEnAssert => exact keeps_execPwrEnAssert rfl (.refl _ s)
  case pwrEnDeassert => exact keeps_execPwrEnDeassert rfl (.refl _ s)
  case vinFault => exact keeps_execVinFault rfl (.refl _ s)
  case vinCollapse => exact keeps_execVinCollapse rfl (.refl _ s)
  case clockMon => exact keeps_execClockMon rfl (.refl _ s)
  case voltMon => exact keeps_execVoltMon rfl (.refl _ s)
  case thermSample => exact keeps_execThermSample rfl (.refl _ s)
  case bridgeFail => exact keeps_execBridgeFail rfl (.refl _ s)
  case bridgeRetrain => exact keeps_execBridgeRetrain rfl (.refl _ s)
  case selftestSlice => exact keeps_execSelftestSlice rfl (.refl _ s)
  case selftestStarve => exact keeps_execSelftestStarve rfl (.refl _ s)
  case lockstepMismatch => exact keeps_execLockstepMismatch rfl (.refl _ s)
  case mgmtReloadDone => exact keeps_execMgmtReloadDone rfl (.refl _ s)
  case getNonce => exact keeps_execGetNonce rfl (.refl _ s)
  case getCert => exact keeps_execGetCert rfl (.refl _ s)
  case quote => exact keeps_execQuote rfl (.refl _ s)
  case extend => exact keeps_execExtend rfl (.refl _ s)
  case commitSvn => exact keeps_execCommitSvn rfl (.refl _ s)
  case getLog => exact keeps_execGetLog rfl (.refl _ s)
  case policyUpdate => exact keeps_execPolicyUpdate rfl (.refl _ s)
  case policyTakeEffect => exact keeps_execPolicyTakeEffect rfl (.refl _ s)
  case debugUnlock => exact keeps_execDebugUnlock rfl (.refl _ s)
  case alarmClear => exact keeps_execAlarmClear rfl (.refl _ s)
  case inject => exact keeps_execInject rfl (.refl _ s)
  case glitch => exact keeps_execGlitch rfl (.refl _ s)
  case jtagInstruction => exact keeps_execJtagInstruction rfl (.refl _ s)
  case drbgReseed => exact keeps_execDrbgReseed rfl (.refl _ s)
  case i3cPrivateWrite => exact keeps_execI3cPrivateWrite rfl (.refl _ s)
  case i3cPrivateRead => exact keeps_execI3cPrivateRead rfl (.refl _ s)
  case bringUpStepEnd => exact keeps_execBringUpStepEnd rfl (.refl _ s)
  case inputDeassert => exact keeps_execInputDeassert rfl (.refl _ s)
  case syncOutPulseEnd => exact keeps_execSyncOutPulseEnd rfl (.refl _ s)
  case pfcPauseEnd => exact keeps_execPfcPauseEnd rfl (.refl _ s)
  case inputPowerReturn => exact keeps_execInputPowerReturn rfl (.refl _ s)

/-- The queue is in no command's list. -/
theorem pending_notMem_changes (i : Instr) : Part.pending ∉ changes i := by
  unfold changes
  cases i <;> dsimp only <;> decide

/-- The clock is in no command's list. -/
theorem cycle_notMem_changes (i : Instr) : Part.cycle ∉ changes i := by
  unfold changes
  cases i <;> dsimp only <;> decide

/-! ### The invariant -/

theorem sound_iff {s : State} : sound s = true ↔
    Stores.wf s.mem = true ∧ regsWf s.regs = true ∧ tilesWf s.tiles = true ∧ clustersWf s.clusters = true := by
  simp [sound, and_assoc]

/-- What keeps the canonical forms keeps a state sound. -/
theorem Keeps.sound {m : Nat} {s t : State} (h : Keeps m s t) (hs : sound s = true) : sound t = true := by
  obtain ⟨hmem, hregs, htiles, hclus⟩ := sound_iff.mp hs
  exact sound_iff.mpr ⟨h.mem hmem, h.regs hregs, h.tiles htiles, h.clus hclus⟩

/-- The mask of every part but the queue, the origin of DEV_TIME and the bridges. -/
def tickMask : Nat := 140736951484410

theorem tick_keeps (s : State) : Keeps tickMask s (tick s) := keeps_tick rfl (.refl _ s)

/-- One CORE cycle keeps a state sound. -/
theorem tick_sound {s : State} (hs : sound s = true) : sound (tick s) = true := (tick_keeps s).sound hs

/-- A command keeps a state sound. -/
theorem exec_sound {i : Instr} {s t : State} (hs : sound s = true) (h : exec i s = .next t) : sound t = true :=
  ((exec_keeps i s).next t h).sound hs

/-! ### The step -/

theorem step_of_pending_nil {s : State} (h : s.pending = []) : step s = .next (tick s) := by
  unfold step; rw [h]

theorem step_of_pending_cons {s : State} {c : Instr} {l : List Instr} (h : s.pending = c :: l) :
    step s = exec c { s with pending := l } := by
  unfold step; rw [h]

/-- Settles O10: a step is one CORE cycle or one command, and each keeps the canonical forms. -/
theorem stepKeepsSound : Obligations.StepKeepsSound := by
  intro s t hs h
  cases hp : s.pending with
  | nil =>
    rw [step_of_pending_nil hp] at h
    cases h
    exact tick_sound hs
  | cons c l =>
    rw [step_of_pending_cons hp] at h
    exact exec_sound (s := { s with pending := l }) hs h

/-- Settles O4: the mask that each command keeps is the mask of its list in `changes`. -/
theorem commandFrame : Obligations.CommandFrame := by
  intro i s t h
  have hk : changesOnly (changes i) s t := ((exec_keeps i s).next t h).changesOnly
  exact ⟨hk, hk .pending (pending_notMem_changes i), hk .cycle (cycle_notMem_changes i)⟩

/-- Settles O1: the step runs the command at the front with the rest of the queue. -/
theorem stepFront : Obligations.StepFront := fun _ _ => step_of_pending_cons rfl

/-- Settles O9: the tables of the reset state are empty. -/
theorem resetSound : Obligations.ResetSound := sound_iff.mpr ⟨rfl, rfl, rfl, rfl⟩

/-! ### The idle step -/

/-- The mask of every part but the clock. -/
def clockMask : Nat := 140737488355325

/-- What a CORE cycle does before the next one begins. -/
def cycleEnd (s : State) : State :=
  moveStep (unlockGo (hostTick (bindRetries (collTick (pourTick (tierTick
    (forAll (List.range 64) { unitEdge s with cycle := (unitEdge s).cycle + 1 } cluTick)))))))

theorem tick_eq_cycleBegin (s : State) : tick s = cycleBegin (cycleEnd s) := rfl

theorem unitEdge_cycle (s : State) : (unitEdge s).cycle = s.cycle :=
  (keeps_unitEdge (k := clockMask) rfl (.refl _ s)).same .cycle rfl

/-- After the edge the clock advances once, and nothing else in the cycle changes it. -/
theorem cycleEnd_keeps (s : State) : Keeps clockMask { unitEdge s with cycle := (unitEdge s).cycle + 1 } (cycleEnd s) :=
  keeps_moveStep rfl <| keeps_unlockGo rfl <| keeps_hostTick rfl <| keeps_bindRetries rfl <| keeps_collTick rfl <|
    keeps_pourTick rfl <| keeps_tierTick rfl <| keeps_forAll (.refl _ _) fun _ _ h => keeps_cluTick rfl h

theorem cycleEnd_cycle (s : State) : (cycleEnd s).cycle = s.cycle + 1 := by
  rw [← unitEdge_cycle s]
  exact (cycleEnd_keeps s).same .cycle rfl

theorem cycleBegin_cycle (s : State) : (cycleBegin s).cycle = s.cycle :=
  (keeps_cycleBegin (k := clockMask) rfl (.refl _ s)).same .cycle rfl

/-- Settles O2: the idle step is `tick`, whose last part begins the next cycle. -/
theorem idleStep : Obligations.IdleStep := by
  intro s hs
  have hkeeps := tick_keeps s
  refine ⟨tick s, step_of_pending_nil hs, ?_, (hkeeps.same .pending rfl).trans hs, hkeeps.same .t0 rfl, hkeeps.same .bridges rfl,
    cycleEnd s, cycleEnd_cycle s, tick_eq_cycleBegin s⟩
  rw [tick_eq_cycleBegin, cycleBegin_cycle, cycleEnd_cycle]

end Sys2Proof.Machine

/-! Laws of canonical tables beyond Laws/Table.lean, and what they say of tiles and registers. -/

namespace Sys2Proof.Machine

/-! ### Canonical tables -/

/-- A key below every key of a canonical table reads its default. -/
theorem tblGet_lt_cons {α : Type} [DecidableEq α] {d : Nat → α} {k x : Nat} {v : α} {t : Tbl α} (h : tblWf d ((k, v) :: t) = true)
    (hx : x ≤ k) : tblGet (d x) t x = d x := by
  obtain ⟨-, hlt, -⟩ := tblWf_cons.mp h
  exact tblGet_below (d x) t x fun p hp => Nat.lt_of_le_of_lt hx (hlt p hp)

/-- Canonical tables that read alike are the same. -/
theorem tbl_ext {α : Type} [DecidableEq α] {d : Nat → α} : ∀ {t u : Tbl α}, tblWf d t = true → tblWf d u = true →
    (∀ k, tblGet (d k) t k = tblGet (d k) u k) → t = u
  | [], [], _, _, _ => rfl
  | [], (k, v) :: u, _, hu, h => absurd (by simpa [tblGet] using (h k).symm) (tblWf_cons.mp hu).1
  | (k, v) :: t, [], ht, _, h => absurd (by simpa [tblGet] using h k) (tblWf_cons.mp ht).1
  | (k, v) :: t, (j, w) :: u, ht, hu, h => by
    obtain ⟨hv, hkt, ht'⟩ := tblWf_cons.mp ht
    obtain ⟨hw, hju, hu'⟩ := tblWf_cons.mp hu
    have hkj : k = j := by
      rcases Nat.lt_trichotomy k j with hlt | heq | hlt
      · exact absurd (by simpa [tblGet, hlt] using h k) hv
      · exact heq
      · exact absurd (by simpa [tblGet, hlt] using (h j).symm) hw
    subst hkj
    have hvw : v = w := by simpa [tblGet] using h k
    have htu : t = u := tbl_ext ht' hu' fun x => by
      rcases Nat.lt_or_ge k x with hlt | hle
      · simpa [tblGet, Nat.not_lt_of_lt hlt, Nat.ne_of_lt hlt] using h x
      · rw [tblGet_lt_cons ht hle, tblGet_lt_cons hu hle]
    rw [hvw, htu]

/-- Writing what a canonical table reads leaves it as it is. -/
theorem tblSet_tblGet {α : Type} [DecidableEq α] {d : Nat → α} {t : Tbl α} (k : Nat) (h : tblWf d t = true) :
    tblSet (d k) t k (tblGet (d k) t k) = t :=
  tbl_ext (tblSet_wf k _ h) h fun x => by
    rw [tblGet_tblSet k x _ h]
    split
    · next hx => rw [hx]
    · rfl

/-- Of two writes to a key of a canonical table the second stays. -/
theorem tblSet_tblSet {α : Type} [DecidableEq α] {d : Nat → α} {t : Tbl α} (k : Nat) (v w : α) (h : tblWf d t = true) :
    tblSet (d k) (tblSet (d k) t k v) k w = tblSet (d k) t k w :=
  tbl_ext (tblSet_wf k w (tblSet_wf k v h)) (tblSet_wf k w h) fun x => by
    rw [tblGet_tblSet k x w (tblSet_wf k v h), tblGet_tblSet k x w h, tblGet_tblSet k x v h]
    split <;> rfl

/-! ### Tiles -/

theorem getTile_putTile {s : State} (t : Nat) (v : Tile) (h : tilesWf s.tiles = true) : getTile (putTile s t v) t = v :=
  (tblGet_tblSet (d := fun _ => Tile.reset) t t v h).trans (if_pos rfl)

theorem putTile_getTile {s : State} (t : Nat) (h : tilesWf s.tiles = true) : putTile s t (getTile s t) = s :=
  congrArg (fun l => { s with tiles := l }) (tblSet_tblGet (d := fun _ => Tile.reset) t h)

theorem putTile_putTile {s : State} (t : Nat) (v w : Tile) (h : tilesWf s.tiles = true) : putTile (putTile s t v) t w = putTile s t w :=
  congrArg (fun l => { s with tiles := l }) (tblSet_tblSet (d := fun _ => Tile.reset) t v w h)

theorem putTile_tilesWf {s : State} (t : Nat) (v : Tile) (h : tilesWf s.tiles = true) : tilesWf (putTile s t v).tiles = true :=
  tblSet_wf (d := fun _ => Tile.reset) t v h

/-! ### Registers -/

theorem bump_eq_setReg (s : State) (a : Nat) : bump s a = setReg s a (reg s a + 1) := rfl

@[simp] theorem getTile_bump (s : State) (a t : Nat) : getTile (bump s a) t = getTile s t := rfl

theorem putTile_bump (s : State) (a t : Nat) (v : Tile) : putTile (bump s a) t v = bump (putTile s t v) a := rfl

theorem reg_bump_self {s : State} (a : Nat) (h : regsWf s.regs = true) : reg (bump s a) a = reg s a + 1 := by
  rw [bump_eq_setReg, reg_setReg s a a _ h, if_pos rfl]

/-- A register that the table does not list reads its reset value. -/
theorem tblGet_of_tblFind_none {α : Type} (d : α) (t : Tbl α) (k : Nat) (h : tblFind t k = none) : tblGet d t k = d := by
  induction t with
  | nil => rfl
  | cons p r ih =>
    obtain ⟨j, v⟩ := p
    simp only [tblFind] at h
    simp only [tblGet]
    split
    · rfl
    · next hlt =>
      rw [if_neg hlt] at h
      split
      · next heq => rw [if_pos heq] at h; cases h
      · next hne => rw [if_neg hne] at h; exact ih h

/-- Settles O7: the register table is canonical, so each key reads what was last written to it. -/
theorem registerReadAfterWrite : Obligations.RegisterReadAfterWrite := by
  refine ⟨fun s a b v hs => ?_, fun s a h => tblGet_of_tblFind_none _ _ _ h, fun s a v hs => ?_, fun s a hs => ?_⟩
  · obtain ⟨-, hregs, -⟩ := sound_iff.mp hs
    exact reg_setReg s a b v hregs
  · exact (keeps_setReg (k := 16) (Nat.or_self _) (.refl _ s)).sound hs
  · obtain ⟨-, hregs, -⟩ := sound_iff.mp hs
    rw [reg_bump_self a hregs]
    simp [BitVec.toNat_add]
end Sys2Proof.Machine

/-! Scratchpads and carafes: what a requester reads where no row waits for a bank. -/

namespace Sys2Proof.Machine

/-! ### Scratchpads and carafes -/

/-- A list written to a byte store reads back. -/
theorem memRead_memWrite {m : Mem} (a : Nat) (l : List Byte) (h : Memory.wf m = true) : memRead (memWrite m a l) a l.length = l := by
  induction l generalizing m a with
  | nil => rfl
  | cons b l ih =>
    have hhead : memGet (memWrite (memSet m a b) (a + 1) l) a = b := by
      rw [memGet_memWrite _ _ _ (memSet_wf a b h), if_neg (by omega), memGet_memSet _ _ _ h, if_pos rfl]
    have htail : memRead (memWrite (memSet m a b) (a + 1) l) (a + 1) l.length = l := ih (a + 1) (memSet_wf a b h)
    exact (congrArg (List.cons · _) hhead).trans (congrArg (List.cons b) htail)

theorem bankQueue_storeWrite (s : State) (a b : Store) (off k : Nat) (l : List Byte) :
    bankQueue (storeWrite s a off l) b k = bankQueue s b k := by
  cases a <;> cases b <;> rfl

/-- Where no row waits for a bank of a store, its bytes are read as they stand. -/
theorem drained_of_no_rows {s : State} {a : Store} (h : ∀ k, bankQueue s a k = []) (r n : Nat) : drained s a r n = storeMem s a := by
  unfold drained
  simp only [h]
  generalize (List.range n).map (r + ·) = rows
  induction rows with
  | nil => rfl
  | cons r rows ih => exact ih

theorem storeRead_of_no_rows {s : State} {a : Store} (h : ∀ k, bankQueue s a k = []) (off n : Nat) :
    storeRead s a off n = memRead (storeMem s a) (storeAt a off) n := by
  unfold storeRead
  rw [drained_of_no_rows h]

theorem storeMem_storeWrite_self (s : State) (a : Store) (off : Nat) (l : List Byte) :
    storeMem (storeWrite s a off l) a = memWrite (storeMem s a) (storeAt a off) l := by
  cases a <;> rfl

theorem storeMem_wf {s : State} (a : Store) (h : Stores.wf s.mem = true) : Memory.wf (storeMem s a) = true := by
  simp only [Stores.wf, Bool.and_eq_true] at h
  cases a <;> simp [storeMem, h]

/-- A byte outside what is written to a store, of that store or of another, stays. -/
theorem memGet_storeWrite_of_outside {s : State} {a b : Store} {off x : Nat} {l : List Byte} (hs : Stores.wf s.mem = true)
    (hl : off + l.length ≤ storeSize a) (hx : x < storeSize b) (ho : b ≠ a ∨ x < off ∨ off + l.length ≤ x) :
    memGet (storeMem (storeWrite s a off l) b) (storeAt b x) = memGet (storeMem s b) (storeAt b x) := by
  have hwf := storeMem_wf a hs
  cases a with
  | sp t => cases b with
    | car c => rfl
    | sp u =>
      have hne : u ≠ t ∨ x < off ∨ off + l.length ≤ x := by simpa using ho
      refine (memGet_memWrite _ _ l hwf).trans (if_neg ?_)
      simp only [storeAt, spAt, storeSize] at *
      omega
  | car c => cases b with
    | sp t => rfl
    | car d =>
      have hne : d ≠ c ∨ x < off ∨ off + l.length ≤ x := by simpa using ho
      refine (memGet_memWrite _ _ l hwf).trans (if_neg ?_)
      simp only [storeAt, carAt, storeSize] at *
      omega

/-- Settles O6: with no row waiting a store is read as its bytes stand, and the stores' addresses do not overlap. -/
theorem storeReadAfterWrite : Obligations.StoreReadAfterWrite := by
  intro s a off l hs hrows hl
  obtain ⟨hmem, -⟩ := sound_iff.mp hs
  have hrows' : ∀ b k, bankQueue (storeWrite s a off l) b k = [] := fun b k => by rw [bankQueue_storeWrite, hrows]
  refine ⟨?_, fun b x hx ho => ?_, (keeps_storeWrite (Nat.or_self _) (.refl _ s)).sound hs⟩
  · rw [storeRead_of_no_rows (hrows' a), storeMem_storeWrite_self, memRead_memWrite _ _ (storeMem_wf a hmem)]
  · rw [storeRead_of_no_rows (hrows' b), storeRead_of_no_rows (hrows b)]
    exact congrArg (· :: []) (memGet_storeWrite_of_outside hmem hl hx ho)

end Sys2Proof.Machine

/-! The edge of a cycle at a node of the static networks (R88, R90, R97, R101). -/

namespace Sys2Proof.Machine

/-! ### The edge at a node -/

/-- The outputs of a node send at the edge: each output with the words that stand on it. -/
def outsEdge (t : Nat) (l : List NodeOut) (s : State) : State :=
  forAll ((l.map (fun o => (o.net, o.out))).eraseDups) s (fun k => outEdge t (l.filter (fun o => (o.net, o.out) == k)))

theorem outsEdge_nil (t : Nat) (s : State) : outsEdge t [] s = s := rfl

theorem outsEdge_single (t : Nat) (o : NodeOut) (s : State) : outsEdge t [o] s = outEdge t [o] s := by
  simp [outsEdge, forAll, List.eraseDups_cons]

theorem outsEdge_pair {o p : NodeOut} (t : Nat) (s : State) (hnet : o.net = p.net) (hout : o.out = p.out) :
    outsEdge t [o, p] s = outEdge t [o, p] s := by
  simp [outsEdge, forAll, List.eraseDups_cons, hnet, hout]

/-- Where no paired word leaves in the cycle, a node sends at the edge what stands on its outputs once the data words have met their tokens. -/
theorem netEdge_of_none_due {s s2 : State} {t : Nat}
    (hmeet : forAll (getTile s t).steerIn (putTile s t { getTile s t with steerIn := [] })
      (fun p => steerData t p.1 p.2.1 p.2.2.1 p.2.2.2) = s2)
    (h : tilesWf s2.tiles = true) (hlv : ∀ p ∈ (getTile s2 t).leaving, s2.cycle < p.1) :
    netEdge t s = outsEdge t (getTile s2 t).outs (putTile s2 t { getTile s2 t with outs := [] }) := by
  have hstay : (getTile s2 t).leaving.filter (fun p => decide (s2.cycle < p.1)) = (getTile s2 t).leaving :=
    List.filter_eq_self.mpr fun p hp => decide_eq_true (hlv p hp)
  have hdue : (getTile s2 t).leaving.filter (fun p => decide (p.1 ≤ s2.cycle)) = [] :=
    List.filter_eq_nil_iff.mpr fun p hp => by simpa using hlv p hp
  unfold netEdge
  dsimp only
  rw [hmeet, hstay, putTile_getTile t h, hdue]
  rfl

/-- A node where no data word meets a token and no paired word waits only sends what stands on its outputs. -/
theorem netEdge_of_no_steering {s : State} {t : Nat} (h : tilesWf s.tiles = true) (hin : (getTile s t).steerIn = [])
    (hlv : (getTile s t).leaving = []) :
    netEdge t s = outsEdge t (getTile s t).outs (putTile s t { getTile s t with outs := [] }) := by
  refine netEdge_of_none_due ?_ h (by simp [hlv])
  rw [hin]
  exact (congrArg (fun l => putTile s t { getTile s t with steerIn := l }) hin.symm).trans (putTile_getTile t h)

/-- A word that is alone on a side output goes to the neighbour's facing input (R88, R90). -/
theorem outEdge_side {s : State} {t u : Nat} {o : NodeOut} (ho : o.out < 4) (hu : neighbour t o.out = some u) :
    outEdge t [o] s = { s with flying := s.flying ++
      [{ tile := u, net := BitVec.ofNat 2 o.net, inp := BitVec.ofNat 3 ((o.out + 2) % 4), word := o.word }] } := by
  simp only [outEdge, if_neg (Nat.ne_of_lt ho), hu]
  rfl

/-- A word that reaches D enters its partition while that has room, and is counted (R97). -/
theorem deliver_of_room {s : State} {t net : Nat} {w : NetWord} (h : (partOf (getTile s t) net w.ctx).length < partDepth net) :
    deliver t net w s =
      bump (putTile s t (putPart (getTile s t) net w.ctx (partOf (getTile s t) net w.ctx ++ [w]))) (tileBase t + 0x838) :=
  if_pos h

/-- A word is paired (R101): the token leaves its unit, is kept as the last one paired, and the word leaves in the next cycle. -/
def pairedTile (s : State) (t : Nat) (k : BitVec 2) (u : Nat) (tok : HeldToken) (w : NetWord) : Tile :=
  let c := steerCfg s t k u
  let x := getTile s t
  { x with steer := tblSet SteerUnit.reset x.steer (4 * k.toNat + u) { getSteer s t k u with token := none, paired := some tok },
           leaving := x.leaving ++ ((List.range 5).filter (bit (stOut c (if stKind c = 3 then tok.value.toNat else 0)))).map
             (fun o => (s.cycle + 1, ⟨fld c 7 7, o, w⟩)) }

theorem steerPair_eq {s : State} {t u : Nat} {k : BitVec 2} {tok : HeldToken} {w : NetWord} (h : tilesWf s.tiles = true)
    (hv : ¬ (stKind (steerCfg s t k u) = 3 ∧ tok.value.toNat = 4)) :
    steerPair t k u tok w s = bump (putTile s t (pairedTile s t k u tok w)) (tileBase t + 0x850) := by
  unfold steerPair putSteer
  dsimp only
  rw [if_neg hv, getTile_bump, getTile_putTile t _ h, putTile_bump, putTile_putTile t _ _ h]
  rw [bump_cycle, putTile_cycle]
  rfl

/-- A live token with the word's bit that names the word's input takes the word (R101 rule 2). -/
theorem steerData_of_named {s : State} {t u : Nat} {k : BitVec 2} {b : Bool} {w : NetWord} {tok : HeldToken}
    (hkind : stKind (steerCfg s t k u) ≠ 0) (htok : (getSteer s t k u).token = some tok) (hseq : tok.seq = w.seq)
    (hlive : s.cycle ≤ tok.since + pairWin s t k)
    (hnamed : (if stKind (steerCfg s t k u) = 3 then !b else (tok.value == 1) == b) = true) :
    steerData t k u b w s = steerPair t k u tok w s := by
  unfold steerData
  dsimp only
  rw [if_neg hkind, htok]
  dsimp only
  rw [if_pos ⟨hseq, decide_eq_true hlive⟩, if_pos hnamed]

/-- At a node with one data word, which is paired, and nothing on its outputs or waiting to leave, the edge is the pairing. -/
theorem netEdge_of_paired {s s1 : State} {t u : Nat} {k : BitVec 2} {b : Bool} {w : NetWord} {tok : HeldToken}
    (hs1 : s1 = putTile s t { getTile s t with steerIn := [] }) (h : tilesWf s.tiles = true)
    (hlv : (getTile s t).leaving = []) (hout : (getTile s t).outs = []) (hin : (getTile s t).steerIn = [(k, u, b, w)])
    (hpair : steerData t k u b w s1 = bump (putTile s1 t (pairedTile s1 t k u tok w)) (tileBase t + 0x850)) :
    netEdge t s = bump (putTile s1 t (pairedTile s1 t k u tok w)) (tileBase t + 0x850) := by
  have hx : getTile s1 t = { getTile s t with steerIn := [] } := by rw [hs1]; exact getTile_putTile t _ h
  have h1 : tilesWf s1.tiles = true := by rw [hs1]; exact putTile_tilesWf t _ h
  have hy : getTile (bump (putTile s1 t (pairedTile s1 t k u tok w)) (tileBase t + 0x850)) t = pairedTile s1 t k u tok w := by
    rw [getTile_bump, getTile_putTile t _ h1]
  have hyout : (pairedTile s1 t k u tok w).outs = [] := by simp only [pairedTile, hx, hout]
  rw [netEdge_of_none_due (s2 := bump (putTile s1 t (pairedTile s1 t k u tok w)) (tileBase t + 0x850)) ?_ ?_ ?_]
  · rw [hy, hyout, outsEdge_nil, putTile_bump, putTile_putTile t _ _ h1]
    exact congrArg (fun l => bump (putTile s1 t { pairedTile s1 t k u tok w with outs := l }) _) hyout.symm
  · rw [hin, ← hs1]
    exact hpair
  · rw [bump_tiles]
    exact putTile_tilesWf t _ h1
  · rw [hy, bump_cycle, putTile_cycle]
    intro p hp
    simp only [pairedTile, hx, hlv, List.nil_append, List.mem_map] at hp
    obtain ⟨o, -, rfl⟩ := hp
    exact Nat.lt_succ_self _

/-- The unit of a pairing keeps the token as the last one paired. -/
theorem getSteer_of_pairedTile {s s1 : State} {t u : Nat} {k : BitVec 2} {tok : HeldToken} {w : NetWord}
    (h : getTile s t = pairedTile s1 t k u tok w) : getSteer s t k u = { getSteer s1 t k u with token := none, paired := some tok } := by
  unfold getSteer
  rw [h]
  have hne : { getSteer s1 t k u with token := none, paired := some tok } ≠ SteerUnit.reset := by simp [SteerUnit.reset]
  exact tblGet_tblSet_of_ne hne

/-- What the clause of a paired word demands of the token: it names the word's input, and its value is no discard. -/
theorem token_names {c : Nat} {b : Bool} {v : BitVec 8}
    (h : ((stKind c = 1 ∨ stKind c = 2) ∧ v = (if b then 1 else 0)) ∨ (stKind c = 3 ∧ b = false ∧ v.toNat < 4)) :
    stKind c ≠ 0 ∧ (if stKind c = 3 then !b else (v == 1) == b) = true ∧ ¬ (stKind c = 3 ∧ v.toNat = 4) := by
  rcases h with ⟨hc, hv⟩ | ⟨hc, hb, hv⟩
  · have h3 : stKind c ≠ 3 := by omega
    refine ⟨by omega, ?_, fun h => h3 h.1⟩
    rw [if_neg h3, hv]
    cases b <;> rfl
  · refine ⟨by omega, ?_, by omega⟩
    rw [if_pos hc, hb]
    rfl

/-- Settles O19: the words on the outputs go where `outEdge` sends them, and a word that met its token goes through `steerPair`. -/
theorem nodeEdge : Obligations.NodeEdge := by
  intro t s hs hlv
  obtain ⟨-, hregs, htiles, -⟩ := sound_iff.mp hs
  refine ⟨fun o u hin hout ho hu => ?_, fun o hin hout ho hroom => ?_, fun o p hin hout hnet hsame => ?_,
    fun k u b w tok hout hin htok hseq hlive hkind => ?_⟩
  · rw [netEdge_of_no_steering htiles hin hlv, hout, outsEdge_single, outEdge_side ho hu]
    rfl
  · have hx := getTile_putTile t { getTile s t with outs := [] } htiles
    rw [netEdge_of_no_steering htiles hin hlv, hout, outsEdge_single]
    simp only [outEdge, ho, if_true]
    rw [deliver_of_room (by rw [hx]; exact hroom), hx, putTile_putTile t _ _ htiles]
    rfl
  · rw [netEdge_of_no_steering htiles hin hlv, hout, outsEdge_pair t _ hnet hsame]
    rfl
  · obtain ⟨hon, hnamed, hkeep⟩ := token_names hkind
    obtain ⟨s1, hs1⟩ : ∃ s1, s1 = putTile s t { getTile s t with steerIn := [] } := ⟨_, rfl⟩
    have hx : getTile s1 t = { getTile s t with steerIn := [] } := by rw [hs1]; exact getTile_putTile t _ htiles
    have h1 : tilesWf s1.tiles = true := by rw [hs1]; exact putTile_tilesWf t _ htiles
    have hcfg : steerCfg s1 t k u = steerCfg s t k u := by rw [hs1]; rfl
    have hwin : pairWin s1 t k = pairWin s t k := by rw [hs1]; rfl
    have hcycle : s1.cycle = s.cycle := by rw [hs1]; rfl
    have hunit : getSteer s1 t k u = getSteer s t k u := by unfold getSteer; rw [hx]
    have hmeet : steerData t k u b w s1 = bump (putTile s1 t (pairedTile s1 t k u tok w)) (tileBase t + 0x850) := by
      rw [← hcfg] at hon hnamed hkeep
      rw [← hunit] at htok
      rw [← hcycle, ← hwin] at hlive
      rw [steerData_of_named hon htok hseq hlive hnamed, steerPair_eq h1 hkeep]
    have hedge := netEdge_of_paired hs1 htiles hlv hout hin hmeet
    have hy : getTile (netEdge t s) t = pairedTile s1 t k u tok w := by rw [hedge, getTile_bump, getTile_putTile t _ h1]
    have hregs1 : s1.regs = s.regs := by rw [hs1]; rfl
    refine ⟨?_, ?_, (getSteer_of_pairedTile hy).trans (by rw [hunit]), ?_⟩
    · rw [hy]
      simp only [pairedTile, hx, hout]
    · rw [hy]
      simp only [pairedTile, hx, hlv, hcfg, hcycle, List.nil_append]
    · rw [hedge, reg_bump_self _ (by rw [putTile_regs, hregs1]; exact hregs), reg_putTile, hs1, reg_putTile]

end Sys2Proof.Machine

/-! Control space at reset: the page of an address, the row of a register and its reset value (R7, R351, R357). -/

namespace Sys2Proof.Machine

/-! ### Pages -/

/-- Adding an offset inside a page to a page's address does not change a comparison with a page's address. -/
theorem page_add_lt_iff {x off m : Nat} (hoff : off < 4096) (hx : x % 4096 = 0) (hm : m % 4096 = 0) : x + off < m ↔ x < m := by
  omega

/-- It does not change the number of the unit of 2^22, 2^17 or 2^12 bytes either: the offset is added within the unit. -/
theorem page_add_div {x off : Nat} (hoff : off < 4096) (hx : x % 4096 = 0) :
    (x + off) / 0x40_0000 = x / 0x40_0000 ∧ (x + off) % 0x40_0000 = x % 0x40_0000 + off ∧
    (x + off) / 0x2_0000 = x / 0x2_0000 ∧ (x + off) % 0x2_0000 = x % 0x2_0000 + off ∧ (x + off) / 0x1000 = x / 0x1000 := by
  omega

theorem page_sub {x m : Nat} (hx : x % 4096 = 0) (hm : m % 4096 = 0) : (x - m) % 4096 = 0 := by omega

/-- The offset moves through the subtraction of a lower page's address. -/
theorem page_add_sub {x off m : Nat} (hm : m ≤ x) : x + off - m = x - m + off := by omega

theorem diePageOf_add {x off : Nat} (hoff : off < 4096) (hx : x % 4096 = 0) (hge : 0x100_0000 ≤ x) : diePageOf (x + off) = diePageOf x := by
  obtain ⟨y, rfl⟩ : ∃ y, x = y + 0x100_0000 := ⟨x - 0x100_0000, by omega⟩
  have hy : y % 4096 = 0 := by omega
  obtain ⟨hd, hr, -⟩ := page_add_div hoff hy
  have ho : y % 0x40_0000 % 4096 = 0 := by omega
  have hsub : y + 0x100_0000 + off - 0x100_0000 = y + off := by omega
  unfold diePageOf
  dsimp only
  rw [hsub, Nat.add_sub_cancel, hd, hr]
  generalize y % 0x40_0000 = o at ho
  simp only [page_add_lt_iff hoff ho (m := 0x1000) rfl, page_add_lt_iff hoff ho (m := 0x1_0000) rfl]
  split
  · rfl
  split
  · rfl
  split
  · rfl
  next hgap =>
    have hk : (o - 0x1_0000) % 4096 = 0 := page_sub ho rfl
    obtain ⟨-, -, hc, hk', -⟩ := page_add_div hoff hk
    rw [page_add_sub (Nat.le_of_not_lt hgap), hc, hk']
    have hk0 : (o - 0x1_0000) % 0x2_0000 % 4096 = 0 := by omega
    generalize (o - 0x1_0000) % 0x2_0000 = k at hk0
    obtain ⟨-, -, -, -, hq⟩ := page_add_div hoff hk0
    have htile : (0x1_0000 ≤ k + off) ↔ (0x1_0000 ≤ k) := by
      have := page_add_lt_iff hoff hk0 (m := 0x1_0000) rfl
      omega
    simp only [htile, hq]
    split
    · rfl
    split
    · next hle =>
      obtain ⟨-, -, -, -, hq'⟩ := page_add_div hoff (page_sub hk0 (m := 0x1_0000) rfl)
      rw [page_add_sub hle, hq']
    · rfl

/-- An offset inside a page does not change which page an address lies in (R351). -/
theorem pageOf_add {x off : Nat} (hoff : off < 4096) (hx : x % 4096 = 0) : pageOf (x + off) = pageOf x := by
  have hiff : x + off < 0x100_0000 ↔ x < 0x100_0000 := page_add_lt_iff hoff hx rfl
  unfold pageOf
  by_cases hhub : x < 0x100_0000
  · obtain ⟨-, -, -, -, hq⟩ := page_add_div hoff hx
    rw [if_pos (hiff.mpr hhub), if_pos hhub]
    simp only [hubPageOf, hq]
  · rw [if_neg (fun h => hhub (hiff.mp h)), if_neg hhub]
    exact diePageOf_add hoff hx (Nat.le_of_not_lt hhub)

/-- The reset value of an address is that of its row (R7), zero where no register is. -/
theorem resetVal_page {n off i : Nat} {p : PageType} (h : off < 4096) (hp : pageOf (4096 * n) = some (p, i)) :
    resetVal (4096 * n + off) = (regRow p off).elim 0 (fun r => BitVec.ofNat 64 r.reset) := by
  have hmod : (4096 * n + off) % 0x1000 = off := by omega
  simp only [resetVal, pageOf_add h (Nat.mul_mod_right 4096 n), hp, hmod]
  cases regRow p off <;> rfl

/-- The register rows of a page, those of its header with them. -/
def pageTable (p : PageType) : List RegRow := if p = .phase then pageRows p else headerRows ++ pageRows p

theorem regRow_eq_find (p : PageType) (off : Nat) : regRow p off = (pageTable p).find? (·.covers off) := by
  unfold regRow pageTable
  split <;> rfl

theorem mem_pageTable_of_regRow {p : PageType} {off : Nat} {r : RegRow} (h : regRow p off = some r) : r ∈ pageTable p ∧ r.covers off = true := by
  rw [regRow_eq_find] at h
  exact ⟨List.mem_of_find?_eq_some h, by simpa using List.find?_some h⟩

/-- The rows of every page but a phase table lie below the counters or reset to zero (R357). -/
theorem row_below_counters_or_reset_zero : ∀ p : PageType, p ≠ .phase → ∀ r ∈ pageTable p,
    (0 < r.stride ∧ r.off + r.stride * r.n ≤ 0x800) ∨ r.reset = 0 := by
  intro p hp
  cases p
  case phase => exact absurd rfl hp
  all_goals decide

theorem RegRow.lt_of_covers {r : RegRow} {off : Nat} (hs : 0 < r.stride) (h : r.covers off = true) : off < r.off + r.stride * r.n := by
  simp only [RegRow.covers, Bool.and_eq_true, decide_eq_true_eq] at h
  obtain ⟨-, hn⟩ := h
  have := (Nat.div_lt_iff_lt_mul hs).mp hn
  rw [Nat.mul_comm] at this
  omega

/-- The counters of every page are zero at reset (R357). -/
theorem regRow_reset_of_counter {p : PageType} {off : Nat} {r : RegRow} (hp : p ≠ .phase) (hoff : 0x800 ≤ off) (h : regRow p off = some r) :
    r.reset = 0 := by
  obtain ⟨hmem, hcov⟩ := mem_pageTable_of_regRow h
  rcases row_below_counters_or_reset_zero p hp r hmem with ⟨hs, hle⟩ | hr
  · have := RegRow.lt_of_covers hs hcov
    omega
  · exact hr

theorem resetVal_counter {n off i : Nat} {p : PageType} (hp : p ≠ .phase) (hoff : 0x800 ≤ off) (hlt : off < 4096)
    (hpage : pageOf (4096 * n) = some (p, i)) : resetVal (4096 * n + off) = 0 := by
  rw [resetVal_page hlt hpage]
  cases hr : regRow p off with
  | none => rfl
  | some r => exact congrArg (BitVec.ofNat 64) (regRow_reset_of_counter hp hoff hr)

/-- A register of the common header resets to the value of its row (R353, R354). -/
theorem resetVal_header {n off i : Nat} {p : PageType} {r : RegRow} (hp : p ≠ .phase) (hlt : off < 4096)
    (hpage : pageOf (4096 * n) = some (p, i)) (hr : headerRows.find? (·.covers off) = some r) :
    resetVal (4096 * n + off) = BitVec.ofNat 64 r.reset := by
  rw [resetVal_page hlt hpage, regRow, if_neg hp, List.find?_append, hr]
  rfl

/-- Settles O8: no register is listed at reset, so each reads the reset value of its row. -/
theorem resetValues : Obligations.ResetValues := by
  refine ⟨fun page _ p i hpage hp => ⟨?_, ?_, ?_, ?_, fun k hk => ?_⟩, fun c => ⟨rfl, fun r => ⟨rfl, rfl, rfl⟩⟩, fun _ => rfl, fun _ => ?_,
    fun _ => rfl, fun _ => rfl, rfl, ?_⟩
  · exact resetVal_header (off := 0x10) hp (by decide) hpage rfl
  · exact resetVal_header (off := 0x28) hp (by decide) hpage rfl
  · exact resetVal_header (off := 0x48) hp (by decide) hpage rfl
  · exact resetVal_header (off := 0x60) hp (by decide) hpage rfl
  · have := resetVal_counter (off := 0x800 + 8 * k) hp (Nat.le_add_right _ _) (by omega) hpage
    rwa [← Nat.add_assoc] at this
  · show qpSt QP.reset = 0
    decide
  · decide

end Sys2Proof.Machine

/-! Ill-formed commands. -/

namespace Sys2Proof.Machine

/-! ### Ill-formed commands -/

/-- A `BANK_STATE` write of a register number that no store has, to a carafe whose power domain is off, counts there (R376). -/
theorem exec_bankStateWrite_off :
    exec (.bankStateWrite (.car 0) 3 0) State.reset = .next (bump State.reset (mgmtPage + 0x808)) := by
  have hoff : domainOn State.reset (cluDomain 0) = false := by decide
  show Host.Outcome.next (cluWrite 0 id State.reset) = _
  unfold cluWrite inDomain
  rw [hoff]
  rfl

/-- Refutes O3: the ill-formed `BANK_STATE` write with the register number 3, which the device does not have, to the carafe of cluster 0
at reset. Its power domain is off, so the access counts in the management page's count of R376, which the statement does not allow. -/
theorem not_wellFormedRuns : ¬ Obligations.WellFormedRuns := by
  intro h
  obtain ⟨-, -, -, hill⟩ := h (.bankStateWrite (.car 0) 3 0) State.reset
  have hregs : ∀ t : State, exec (.bankStateWrite (.car 0) 3 0) State.reset = .next t → t.regs = [(mgmtPage + 0x808, 1)] := by
    intro t ht
    rw [exec_bankStateWrite_off] at ht
    cases ht
    rfl
  rcases hill rfl with hf | hs | hu | hb
  · rw [exec_bankStateWrite_off] at hf
    cases hf
  · exact absurd (hregs _ hs) (by decide)
  · exact absurd (hregs _ hu) (by decide)
  · exact absurd (hregs _ hb) (by decide)

end Sys2Proof.Machine

/-! Writes to control space: which write reaches its page, and which of them is the write of R5 alone. -/

namespace Sys2Proof.Machine

/-! ### Which write reaches its page (R352, R368, R376, R422) -/

theorem ctlAccess_unaligned {m : Master} {rd : Bool} {a : Nat} {s : State} (h : a % 8 ≠ 0) : ctlAccess m rd a s = .none s := if_pos h

theorem ctlAccess_unmapped {m : Master} {rd : Bool} {a : Nat} {s : State} (ha : a % 8 = 0) (hp : pageOf a = none) :
    ctlAccess m rd a s = .none (unmapped s) := by
  simp only [ctlAccess, ha, hp, ne_eq, not_true_eq_false, if_false]

/-- What refuses a write to an aligned address of a page, in the order of R352, R422, R376 and R368. -/
theorem ctlAccess_write {m : Master} {a i : Nat} {p : PageType} {s : State} (ha : a % 8 = 0) (hp : pageOf a = some (p, i)) :
    ctlAccess m false a s =
      if ¬ masterReaches m p i ∨ closedTo m p s then .none s
      else if ¬ domainOn s (pageDomain p i) then .none (bump s (mgmtPage + 0x808))
      else if blanked s p i then .none (bump s (devicePage + 0x810))
      else .apply p i := by
  simp [ctlAccess, ha, hp]

theorem ctlAccess_apply {m : Master} {a i : Nat} {p : PageType} {s : State} (h : ctlAccess m false a s = .apply p i) :
    a % 8 = 0 ∧ pageOf a = some (p, i) ∧ masterReaches m p i = true := by
  by_cases ha : a % 8 = 0
  · cases hp : pageOf a with
    | none => rw [ctlAccess_unmapped ha hp] at h; cases h
    | some q =>
      obtain ⟨p', i'⟩ := q
      rw [ctlAccess_write ha hp] at h
      split at h
      · cases h
      · next hr =>
        have hreach : masterReaches m p' i' = true := by simpa using (not_or.mp hr).1
        split at h
        · cases h
        split at h
        · cases h
        · cases h; exact ⟨ha, rfl, hreach⟩
  · rw [ctlAccess_unaligned ha] at h; cases h

theorem ctlWrite_of_none {m : Master} {a : Nat} {v : Word} {s t : State} (h : ctlAccess m false a s = .none t)
    (hclk : clkReaches m a s = false) : ctlWrite m a v s = t := by
  simp [ctlWrite, h, hclk]

theorem ctlWrite_of_apply {m : Master} {a i : Nat} {p : PageType} {v : Word} {s : State} (h : ctlAccess m false a s = .apply p i) :
    ctlWrite m a v s =
      if p ≠ .phase ∧ a % 4096 < 0x100 then headerWrite p i (a - a % 4096) (a % 4096) v s
      else pageWrite m p i (a - a % 4096) (a % 4096) v s := by
  simp [ctlWrite, h]

theorem clkReaches_of_offset {m : Master} {a : Nat} {s : State} (h : a % 4096 ≠ 0x010) : clkReaches m a s = false := by
  unfold clkReaches
  split
  · simp [h]
  · rfl

theorem clkReaches_of_closed {m : Master} {a i : Nat} {p : PageType} {s : State} (hp : pageOf a = some (p, i))
    (h : closedTo m p s = true) : clkReaches m a s = false := by
  simp [clkReaches, hp, h]

/-! ### Writes by the access rule alone (R5) -/

/-- The write of the register at an offset of a page by its access rule; an offset without a register takes no write. -/
def rowWrite (p : PageType) (base off : Nat) (v : Word) (s : State) : State :=
  match regRow p off with
  | some r => plainWrite base (base + off) r v s
  | none => s

theorem rowWrite_some {p : PageType} {base off : Nat} {v : Word} {s : State} {r : RegRow} (h : regRow p off = some r) :
    rowWrite p base off v s = plainWrite base (base + off) r v s := by simp only [rowWrite, h]

theorem rowWrite_none {p : PageType} {base off : Nat} {v : Word} {s : State} (h : regRow p off = none) : rowWrite p base off v s = s := by
  simp only [rowWrite, h]

theorem headerWrite_of_not_writeActs {p : PageType} {i base off : Nat} {v : Word} {s : State} (hp : p ≠ .phase)
    (h : writeActs s p i off = false) : headerWrite p i base off v s = rowWrite p base off v s := by
  have hoff : off ≠ 0x010 ∧ off ≠ 0x028 ∧ off ≠ 0x040 ∧ off ≠ 0x060 ∧ off ≠ 0x080 := by
    simp only [writeActs, Bool.or_eq_false_iff] at h
    simpa [hp] using h.1
  obtain ⟨h10, h28, h40, h60, h80⟩ := hoff
  unfold headerWrite
  rw [if_neg (by simp [h10, h40, h60]), if_neg h40]
  unfold headWrite
  split
  · exact absurd rfl h10
  · exact absurd rfl h28
  · exact absurd rfl h60
  · exact absurd rfl h80
  · rfl

/-- A write to a page beyond its header that does not act is the write by the access rule. -/
theorem pageWrite_of_not_writeActs {m : Master} {p : PageType} {i base off : Nat} {v : Word} {s : State}
    (h : writeActs s p i off = false) : pageWrite m p i base off v s = rowWrite p base off v s := by
  simp only [writeActs, Bool.or_eq_false_iff] at h
  obtain ⟨-, h⟩ := h
  cases p
  case optGroup | laser | bulk | coll | spine => rfl
  case roast | hostPort | fabPort | update | kv => exact if_neg (by simpa using h)
  case carWin | phase => exact if_neg (by simpa using h)
  case mailbox =>
    obtain ⟨hcmd, hbuf⟩ : off ≠ 0x100 ∧ ¬ (0x200 ≤ off ∧ off < 0x800 ∧ mbxBusyBit s = true) := by simpa using h
    exact (if_neg hcmd).trans (if_neg hbuf)
  case install =>
    obtain ⟨hcmd, hbuf⟩ : off ≠ 0x100 ∧ ¬ (0x200 ≤ off ∧ off < 0x800 ∧ wbit (reg s (installPage + 0x108)) 63 = true) := by
      simpa using h
    exact (if_neg hcmd).trans (if_neg hbuf)
  case host =>
    have hout : ¬ ((0x108 ≤ off ∧ off < 0x150) ∨ (0x188 ≤ off ∧ off < 0x1A8)) := by simpa [not_or] using h
    exact if_neg hout
  case fabric =>
    obtain ⟨⟨h100, h128, h130⟩, htab⟩ : (off ≠ 0x100 ∧ off ≠ 0x128 ∧ off ≠ 0x130) ∧ ¬ (0x180 ≤ off ∧ off < 0x600) := by simpa using h
    exact (if_neg h100).trans ((if_neg h128).trans ((if_neg h130).trans (if_neg htab)))
  case carafe =>
    obtain ⟨hbank, hrq⟩ : ¬ (0x120 ≤ off ∧ off < 0x138) ∧ ¬ (0x200 ≤ off ∧ off < 0x400) := by simpa using h
    exact (if_neg hbank).trans (if_neg hrq)
  case tile =>
    obtain ⟨⟨hbank, hgen⟩, hwin⟩ : (off ≠ 0x1F8 ∧ ¬ (0x210 ≤ off ∧ off < 0x230)) ∧
      ¬ (0x240 ≤ off ∧ off < 0x3C0 ∧ winOpened s (.sp i) ((off - 0x240) / 24) = true) := by simpa [not_or] using h
    exact (if_neg hbank).trans ((if_neg hgen).trans (if_neg hwin))
  case device | mgmt | pour | lease | numerics | tier | cluster | dma =>
    dsimp only at h
    simp only [pageWrite, dieWrite, deviceWrite, mgmtWrite, pourWrite, leaseWrite, numWrite, tierWrite, clusterWrite, dmaWrite]
    split <;> first | exact absurd h (by decide) | rfl


theorem ctlWrite_of_not_writeActs {m : Master} {a i : Nat} {p : PageType} {v : Word} {s : State} (h : ctlAccess m false a s = .apply p i)
    (hact : writeActs s p i (a % 4096) = false) : ctlWrite m a v s = rowWrite p (a - a % 4096) (a % 4096) v s := by
  rw [ctlWrite_of_apply h]
  split
  · next hh => exact headerWrite_of_not_writeActs hh.1 hact
  · exact pageWrite_of_not_writeActs hact

/-! ### Registers that take no write (R6) -/

/-- Whether a write to an offset of a page may do more or less than its access rule says, in whatever state. -/
def mayAct (p : PageType) (off : Nat) : Bool :=
  (p != .phase && [0x010, 0x028, 0x040, 0x060, 0x080].contains off) ||
  match p with
  | .device => [0x1A8, 0x1B8].contains off
  | .mailbox | .install => off == 0x100 || (decide (0x200 ≤ off) && decide (off < 0x800))
  | .mgmt => [0x108, 0x138, 0x228, 0x230].contains off
  | .roast | .kv | .fabPort => off == 0x100
  | .host => (decide (0x108 ≤ off) && decide (off < 0x150)) || (decide (0x188 ≤ off) && decide (off < 0x1A8))
  | .hostPort => off == 0x110
  | .fabric => [0x100, 0x128, 0x130].contains off || (decide (0x180 ≤ off) && decide (off < 0x600))
  | .pour => [0x108, 0x118, 0x120].contains off
  | .lease => [0x108, 0x128, 0x140].contains off
  | .update => off == 0x108
  | .numerics => [0x100, 0x138, 0x208, 0x210].contains off
  | .tier => [0x118, 0x130, 0x140].contains off
  | .cluster => [0x100, 0x110, 0x480, 0x4A8, 0x500, 0x518, 0x620, 0x628, 0x630, 0x638, 0x660].contains off
  | .dma => [0x108, 0x128, 0x138, 0x148].contains off
  | .carafe => (decide (0x120 ≤ off) && decide (off < 0x138)) || (decide (0x200 ≤ off) && decide (off < 0x400))
  | .carWin => decide (0x100 ≤ off) && decide (off < 0x700)
  | .phase => true
  | .tile => off == 0x1F8 || (decide (0x210 ≤ off) && decide (off < 0x230)) || (decide (0x240 ≤ off) && decide (off < 0x3C0))
  | .optGroup | .laser | .bulk | .coll | .spine => false

/-- A condition on the state beside an offset range that does not hold. -/
theorem and_and_eq_false_of_left {a b : Bool} (c : Bool) (h : (a && b) = false) : (a && b && c) = false := by
  rw [h, Bool.false_and]

theorem writeActs_of_not_mayAct {s : State} {p : PageType} {i off : Nat} (h : mayAct p off = false) : writeActs s p i off = false := by
  obtain ⟨hlock, hpage⟩ := Bool.or_eq_false_iff.mp h
  refine Bool.or_eq_false_iff.mpr ⟨hlock, ?_⟩
  cases p
  case mailbox | install | tile =>
    obtain ⟨hreg, hrange⟩ := Bool.or_eq_false_iff.mp hpage
    exact Bool.or_eq_false_iff.mpr ⟨hreg, and_and_eq_false_of_left _ hrange⟩
  case carWin => exact and_and_eq_false_of_left _ hpage
  case phase => cases hpage
  all_goals exact hpage

/-- The registers that no write changes but whose offsets may act: RP and FAULT of a queue pair, FAB_ADDR, and the counts of a receive queue. -/
def heldOffset (p : PageType) (off : Nat) (acc : Access) : Bool :=
  match p with
  | .host => off == 0x138 || off == 0x148
  | .fabric => off == 0x100 && acc == .rwl
  | .carafe => decide (0x200 ≤ off) && decide (off < 0x400) && decide ((off - 0x200) % 32 ≠ 0) && decide ((off - 0x200) % 32 ≠ 0x18)
  | _ => false

/-- No other read-only or lockable register stands at an offset that may act. -/
theorem mayAct_of_readOnly_row : ∀ p : PageType, ∀ r ∈ pageTable p, (r.acc = .ro ∨ r.acc = .rwl) →
    ∀ j, j < r.n → mayAct p (r.off + r.stride * j) = true → heldOffset p (r.off + r.stride * j) r.acc = true := by
  intro p
  cases p <;> decide

end Sys2Proof.Machine

/-! Registers that take no write, and REGISTER_WRITE by each master. -/

namespace Sys2Proof.Machine

theorem RegRow.eq_of_covers {r : RegRow} {off : Nat} (h : r.covers off = true) : ∃ j, j < r.n ∧ r.off + r.stride * j = off := by
  simp only [RegRow.covers, Bool.and_eq_true, decide_eq_true_eq] at h
  obtain ⟨⟨hle, hmod⟩, hn⟩ := h
  have := Nat.mul_div_cancel' (Nat.dvd_of_mod_eq_zero hmod)
  exact ⟨_, hn, by omega⟩

/-- A register that takes no write in a state: read-only, or lockable on a locked page (R5). -/
def TakesNoWrite (s : State) (base : Nat) (r : RegRow) : Prop := r.acc = .ro ∨ (r.acc = .rwl ∧ pageLocked s base = true)

theorem rowWrite_of_takesNoWrite {p : PageType} {base off : Nat} {v : Word} {s : State} {r : RegRow} (hr : regRow p off = some r)
    (h : TakesNoWrite s base r) : rowWrite p base off v s = s := by
  rw [rowWrite_some hr]
  rcases h with ha | ⟨ha, hl⟩
  · simp only [plainWrite, ha]
  · simp only [plainWrite, ha, hl, if_true]

theorem hostPut_of_readOnly {mgmt : Bool} {off : Nat} {v : Word} {s : State} (h : off = 0x138 ∨ off = 0x148) : hostPut mgmt off v s = s := by
  have hq : ∀ q, qpCtxWrite mgmt q off v s = s := fun q => if_pos (.inr (by omega))
  unfold hostPut
  dsimp only
  rw [if_neg (by omega), if_pos (by omega), hq]

theorem base_of_pageOf_fabric {a i : Nat} (h : pageOf a = some (.fabric, i)) : a - a % 4096 = fabricPage := by
  have hpage : a / 0x1000 = 0x300 := Decidable.byContradiction fun hne => by
    unfold pageOf hubPageOf diePageOf at h
    dsimp only at h
    repeat' split at h
    all_goals cases h
    omega
  unfold fabricPage
  omega

/-- A write to a register that takes none changes nothing, whatever its offset does. -/
theorem ctlWrite_of_takesNoWrite {m : Master} {a i : Nat} {p : PageType} {v : Word} {s : State} {r : RegRow}
    (h : ctlAccess m false a s = .apply p i) (hr : regRow p (a % 4096) = some r) (hno : TakesNoWrite s (a - a % 4096) r) :
    ctlWrite m a v s = s := by
  cases hact : mayAct p (a % 4096) with
  | false => rw [ctlWrite_of_not_writeActs h (writeActs_of_not_mayAct hact), rowWrite_of_takesNoWrite hr hno]
  | true =>
    obtain ⟨hmem, hcov⟩ := mem_pageTable_of_regRow hr
    obtain ⟨j, hj, hoff⟩ := RegRow.eq_of_covers hcov
    have hacc : r.acc = .ro ∨ r.acc = .rwl := hno.imp_right And.left
    have hheld : heldOffset p (a % 4096) r.acc = true := by
      rw [← hoff] at hact ⊢
      exact mayAct_of_readOnly_row p r hmem hacc j hj hact
    rw [ctlWrite_of_apply h]
    obtain ⟨-, hpage, -⟩ := ctlAccess_apply h
    cases p
    case host =>
      have hoff : a % 4096 = 0x138 ∨ a % 4096 = 0x148 := by simpa [heldOffset] using hheld
      rw [if_neg (by omega)]
      exact (if_pos (by omega)).trans (hostPut_of_readOnly hoff)
    case fabric =>
      obtain ⟨hoff, hrwl⟩ : a % 4096 = 0x100 ∧ r.acc = .rwl := by simpa [heldOffset] using hheld
      have hlocked : pageLocked s fabricPage = true := by
        rcases hno with hro | ⟨-, hl⟩
        · rw [hrwl] at hro; cases hro
        · rwa [base_of_pageOf_fabric hpage] at hl
      rw [if_neg (by omega)]
      exact (if_pos hoff).trans (if_pos hlocked)
    case carafe =>
      obtain ⟨⟨⟨hlo, hhi⟩, hcfg⟩, hret⟩ : ((0x200 ≤ a % 4096 ∧ a % 4096 < 0x400) ∧ (a % 4096 - 0x200) % 32 ≠ 0) ∧
        (a % 4096 - 0x200) % 32 ≠ 0x18 := by simpa [heldOffset] using hheld
      rw [if_neg (by omega)]
      have hbank : ¬ (0x120 ≤ a % 4096 ∧ a % 4096 < 0x138) := by omega
      refine (if_neg hbank).trans ((if_pos ⟨hlo, hhi⟩).trans ?_)
      split
      · next heq => exact absurd heq hcfg
      · next heq => exact absurd heq hret
      · exact rowWrite_of_takesNoWrite hr hno
    all_goals cases hheld

/-! ### REGISTER_WRITE -/

theorem exec_registerWrite {m : Master} {addr : BitVec 26} {v : BitVec 64} {s : State} (hb : ∀ c, m ≠ .barista c)
    (hk : ∀ c k, m ≠ .baristaPart c k) : exec (.registerWrite m addr v) s = .next (ctlWrite m addr.toNat v s) := by
  cases m with
  | barista c => exact absurd rfl (hb c)
  | baristaPart c k => exact absurd rfl (hk c k)
  | mgmt => rfl
  | host port => rfl

/-- A 64-bit store of a running barista into its cluster page is a write of the page's register (R120). -/
theorem baristaStore_page {c a : Nat} {v : Word} {s : State} (hlo : 0x12_0000 ≤ a) (hhi : a + 8 ≤ 0x12_1000) :
    baristaStore c a 8 v s = if baristaRuns c s then ctlWrite (.barista c) (clusterBase c + (a - 0x12_0000)) v s else s := by
  have hrange : barRange a 8 = .page (a - 0x12_0000) := by
    unfold barRange
    have hsram : ¬ a + 8 ≤ 0x2_0000 := by omega
    have hcmd : ¬ (0x10_0000 ≤ a ∧ a + 8 ≤ 0x10_0008) := by omega
    have hcause : ¬ (0x10_0008 ≤ a ∧ a + 8 ≤ 0x10_0010) := by omega
    have hctr : ¬ (0x11_0000 ≤ a ∧ a + 8 ≤ 0x11_0200) := by omega
    rw [if_neg hsram, if_neg hcmd, if_neg hcause, if_neg hctr, if_pos ⟨hlo, hhi⟩]
  unfold baristaStore
  rw [hrange]
  by_cases hrun : baristaRuns c s = true
  · rw [if_neg (fun h => h hrun), if_pos hrun]
    exact if_pos rfl
  · rw [if_pos hrun, if_neg hrun]

theorem clusterBase_mod (c : Nat) : clusterBase c % 4096 = 0 := by
  unfold clusterBase spineBase
  omega

/-- Settles O55: the access reaches the page, and the register takes no write. -/
theorem ignoredWrites : Obligations.IgnoredWrites := by
  intro m addr v s p i r
  cases m with
  | barista c =>
    intro a hbar h hr hno
    obtain ⟨-, hlo, hhi⟩ := hbar c rfl
    obtain ⟨halign, -⟩ := ctlAccess_apply h
    have hbase := clusterBase_mod c
    have hend : addr.toNat + 8 ≤ 0x12_1000 := by
      have : (clusterBase c + (addr.toNat - 0x12_0000)) % 8 = 0 := halign
      omega
    have hstore : baristaStore c addr.toNat 8 v s = s := by
      rw [baristaStore_page hlo hend, ctlWrite_of_takesNoWrite h hr hno, ite_self]
    exact congrArg Host.Outcome.next hstore
  | baristaPart c k =>
    intro a _ h
    obtain ⟨-, -, hreach⟩ := ctlAccess_apply h
    cases hreach
  | mgmt =>
    intro a _ h hr hno
    exact congrArg Host.Outcome.next (ctlWrite_of_takesNoWrite h hr hno)
  | host port =>
    intro a _ h hr hno
    exact congrArg Host.Outcome.next (ctlWrite_of_takesNoWrite h hr hno)

end Sys2Proof.Machine

/-! REGISTER_WRITE where it does what the access rule of its register says (R5, R351, R368, R376, R422). -/

namespace Sys2Proof.Machine

theorem masterReaches_of_not_barista {m : Master} {p : PageType} {i : Nat} (hb : ∀ c, m ≠ .barista c) (hk : ∀ c k, m ≠ .baristaPart c k) :
    masterReaches m p i = true := by
  cases m with
  | barista c => exact absurd rfl (hb c)
  | baristaPart c k => exact absurd rfl (hk c k)
  | mgmt => rfl
  | host port => rfl

/-- What the access rule of a row does to a register (R5). -/
theorem plainWrite_eq (base a : Nat) (r : RegRow) (v : Word) (s : State) :
    plainWrite base a r v s =
      (let old := reg s a
       let mask := BitVec.ofNat 64 r.mask
       let replaced := setReg s a ((old &&& ~~~ mask) ||| (v &&& mask))
       match r.acc with
       | .rw => replaced
       | .w1c => setReg s a (old &&& ~~~ (v &&& mask))
       | .w1s => setReg s a (old ||| (v &&& mask))
       | .rwl => if pageLocked s base then s else replaced
       | .ro | .wo => s) := by
  unfold plainWrite
  cases r.acc <;> rfl

section
variable {m : Master} {a i : Nat} {p : PageType} {v : Word} {s : State}

/-- A write to a closed page changes nothing (R422). -/
theorem ctlWrite_of_closed (ha : a % 8 = 0) (hp : pageOf a = some (p, i)) (hc : closedTo m p s = true) : ctlWrite m a v s = s :=
  ctlWrite_of_none (by rw [ctlAccess_write ha hp, if_pos (.inr hc)]) (clkReaches_of_closed hp hc)

/-- A write to a page whose domain is off counts (R376). -/
theorem ctlWrite_of_domain_off (ha : a % 8 = 0) (hp : pageOf a = some (p, i)) (hr : masterReaches m p i = true) (hc : closedTo m p s = false)
    (hoff : a % 4096 ≠ 0x010) (hd : domainOn s (pageDomain p i) = false) : ctlWrite m a v s = bump s (mgmtPage + 0x808) :=
  ctlWrite_of_none (by rw [ctlAccess_write ha hp, if_neg (by simp [hr, hc]), if_pos (by simp [hd])]) (clkReaches_of_offset hoff)

/-- A write to a blanked page counts (R368). -/
theorem ctlWrite_of_blanked (ha : a % 8 = 0) (hp : pageOf a = some (p, i)) (hr : masterReaches m p i = true) (hc : closedTo m p s = false)
    (hoff : a % 4096 ≠ 0x010) (hd : domainOn s (pageDomain p i) = true) (hbl : blanked s p i = true) :
    ctlWrite m a v s = bump s (devicePage + 0x810) :=
  ctlWrite_of_none (by rw [ctlAccess_write ha hp, if_neg (by simp [hr, hc]), if_neg (by simp [hd]), if_pos hbl]) (clkReaches_of_offset hoff)

theorem ctlAccess_of_open (ha : a % 8 = 0) (hp : pageOf a = some (p, i)) (hr : masterReaches m p i = true) (hc : closedTo m p s = false)
    (hd : domainOn s (pageDomain p i) = true) (hbl : blanked s p i = false) : ctlAccess m false a s = .apply p i := by
  rw [ctlAccess_write ha hp, if_neg (by simp [hr, hc]), if_neg (by simp [hd]), if_neg (by simp [hbl])]

/-- A locked phase table takes no write (R109). -/
theorem ctlWrite_of_phase_locked (h : ctlAccess m false a s = .apply .phase i) (hl : phaseLocked s (i / 16) = true) : ctlWrite m a v s = s := by
  rw [ctlWrite_of_apply h, if_neg (by simp)]
  exact if_pos hl

/-- The registers of an open carafe window take no write (R171). -/
theorem ctlWrite_of_carWin_open (h : ctlAccess m false a s = .apply .carWin i) (hlo : 0x100 ≤ a % 4096) (hhi : a % 4096 < 0x700)
    (hw : winOpened s (.car (i / 16)) ((a % 4096 - 0x100) / 24) = true) : ctlWrite m a v s = s := by
  rw [ctlWrite_of_apply h, if_neg (by omega)]
  exact if_pos ⟨hlo, hhi, hw⟩

/-- The registers of an open scratchpad window take no write (R171). -/
theorem ctlWrite_of_tileWin_open (h : ctlAccess m false a s = .apply .tile i) (hlo : 0x240 ≤ a % 4096) (hhi : a % 4096 < 0x3C0)
    (hw : winOpened s (.sp i) ((a % 4096 - 0x240) / 24) = true) : ctlWrite m a v s = s := by
  have hbank : a % 4096 ≠ 0x1F8 := by omega
  have hgen : ¬ (0x210 ≤ a % 4096 ∧ a % 4096 < 0x230) := by omega
  rw [ctlWrite_of_apply h, if_neg (by omega)]
  exact (if_neg hbank).trans ((if_neg hgen).trans (if_pos ⟨hlo, hhi, hw⟩))

end

/-- Settles O49: what refuses the write, in the order of `ctlAccess`, and the access rule where nothing does. -/
theorem registerWritePlain : Obligations.RegisterWritePlain := by
  intro addr v s a off
  refine ⟨fun m p i hm ha hp => ?_, fun m hb hk ha => ?_, fun ha hp => ?_⟩
  · have hb : ∀ c, m ≠ .barista c := by rintro c rfl; rcases hm with h | ⟨_, h⟩ <;> cases h
    have hk : ∀ c k, m ≠ .baristaPart c k := by rintro c k rfl; rcases hm with h | ⟨_, h⟩ <;> cases h
    have hr : masterReaches m p i = true := masterReaches_of_not_barista hb hk
    rw [exec_registerWrite hb hk]
    refine ⟨fun hc => ?_, fun hc hoff => ⟨fun hd => ?_, fun hd hbl => ?_⟩, fun hc hd hbl => ?_⟩
    · exact congrArg _ (ctlWrite_of_closed ha hp hc)
    · exact congrArg _ (ctlWrite_of_domain_off ha hp hr hc hoff hd)
    · exact congrArg _ (ctlWrite_of_blanked ha hp hr hc hoff hd hbl)
    · have hacc := ctlAccess_of_open ha hp hr hc hd hbl
      refine ⟨fun r hrow hact => ?_, fun hrow hact => ?_, fun hph hl => ?_, fun hcw hlo hhi hw => ?_, fun ht hlo hhi hw => ?_⟩
      · have haddr : a - a % 4096 + a % 4096 = a := Nat.sub_add_cancel (Nat.mod_le a 4096)
        refine congrArg Host.Outcome.next ((ctlWrite_of_not_writeActs hacc hact).trans ((rowWrite_some hrow).trans ?_))
        rw [haddr]
        exact plainWrite_eq _ a r v s
      · rw [ctlWrite_of_not_writeActs hacc hact, rowWrite_none hrow]
      · subst hph; exact congrArg _ (ctlWrite_of_phase_locked hacc hl)
      · subst hcw; exact congrArg _ (ctlWrite_of_carWin_open hacc hlo hhi hw)
      · subst ht; exact congrArg _ (ctlWrite_of_tileWin_open hacc hlo hhi hw)
  · rw [exec_registerWrite hb hk, ctlWrite_of_none (ctlAccess_unaligned ha) (clkReaches_of_offset (by omega))]
  · rw [exec_registerWrite (by simp) (by simp), ctlWrite_of_none (ctlAccess_unmapped ha hp) (by simp [clkReaches, hp])]
    rfl

end Sys2Proof.Machine

/-! Bridges, lockstep, idle self-test and the monitors (R18, R377, R402 to R407, R410). -/

namespace Sys2Proof.Machine

/-- A command that names a unit of the device does what its meaning says. -/
theorem onUnit_of {p : Prop} [Decidable p] {s : State} {f : State → State} (h : p) : onUnit p s f = .next (f s) :=
  congrArg Host.Outcome.next (if_pos h)

/-! ### Injected faults (R410) -/

theorem takeArmed_of_contains {s : State} {page code : Nat} (h : s.armed.contains (page, code) = true) :
    takeArmed page code s = (true, { s with armed := s.armed.erase (page, code) }) := if_pos h

theorem takeArmed_of_not_contains {s : State} {page code : Nat} (h : ¬ s.armed.contains (page, code) = true) :
    takeArmed page code s = (false, s) := if_neg h

/-- A monitor's check raises an injected fault, which it takes, or else the one it finds. -/
theorem monRaise_eq (code page : Nat) (found : Bool) (count : State → State) (s : State) :
    monRaise code page found count s =
      if s.armed.contains (page, code) then deviceAlarm page code (count { s with armed := s.armed.erase (page, code) })
      else if found then deviceAlarm page code (count s) else s := by
  unfold monRaise
  by_cases h : s.armed.contains (page, code) = true
  · rw [takeArmed_of_contains h, if_pos h]
    exact if_pos (Bool.true_or found)
  · rw [takeArmed_of_not_contains h, if_neg h]
    exact ite_congr (congrArg (· = true) (Bool.false_or found)) (fun _ => rfl) fun _ => rfl

/-! ### Bridges (R18, R407) -/

section
variable {s : State} {b d word : Nat} {v : BridgeDir} {l : BridgeLink}

theorem bridgeDown_of_down (h : (getBridge s b).down = true) : bridgeDown b d s = s := if_pos h

/-- What the fall of an up bridge does (R407). -/
theorem bridgeDown_of_up (h : (getBridge s b).down = false) :
    bridgeDown b d s =
      (let s1 := deviceAlarm (spineBase d) bridgeFailCode
        (putBridge s b { down := true, out := linkCut (getBridge s b).out, back := linkCut (getBridge s b).back })
       let s2 := forAll (tblKeys s1.tx) s1 txCut
       forAll ((s2.colls.filter (collUses b)).map Coll.key) s2 collInterrupt) := if_neg (by simp [h])

theorem armed_of_bridgeArmed (h : bridgeArmed s b = some d) : s.armed.contains (spineBase d, bridgeFailCode) = true :=
  List.find?_some (p := fun d => s.armed.contains (spineBase d, bridgeFailCode)) h

theorem bridgeWord_of_down {ok : Bool} (h : (getBridge s v.bridge).down = true) : bridgeWord v ok word s = s := if_pos h

theorem bridgeWord_of_armed {ok : Bool} (h : (getBridge s v.bridge).down = false) (ha : bridgeArmed s v.bridge = some d) :
    bridgeWord v ok word s = bridgeDown v.bridge d { s with armed := s.armed.erase (spineBase d, bridgeFailCode) } := by
  simp only [bridgeWord, h, ha, takeArmed_of_contains (armed_of_bridgeArmed ha), Bool.false_eq_true, if_false]

/-- A word of good CRC passes where nothing waits before it, and else is replayed. -/
theorem bridgeWord_of_good (h : (getBridge s v.bridge).down = false) (ha : bridgeArmed s v.bridge = none) :
    bridgeWord v true word s =
      (let x := bridgeLink (getBridge s v.bridge) v.back
       putLink s v (if x.buffer.headD word = word then bridgePass x word else bridgeReplay x word)) := by
  simp only [bridgeWord, h, ha, Bool.false_eq_true, if_false, true_and, if_true]
  split <;> rfl

/-- A word of bad CRC is replayed; the bridge falls at the sixteenth replay of one word in a row. -/
theorem bridgeWord_of_bad (h : (getBridge s v.bridge).down = false) (ha : bridgeArmed s v.bridge = none) :
    bridgeWord v false word s =
      (let y := bridgeRetry (bridgeLink (getBridge s v.bridge) v.back) word
       let u := putLink s v y
       if 16 ≤ y.replays then bridgeDown v.bridge ((bridgeDies v.bridge).headD 0) u else u) := by
  simp only [bridgeWord, h, ha, Bool.false_eq_true, if_false, false_and]

/-- A direction that counts replays is listed, and its bridge is down as before. -/
theorem getBridge_putLink_down (hl : l.replays ≠ 0) : (getBridge (putLink s v l) v.bridge).down = (getBridge s v.bridge).down := by
  have hne : (if v.back then { getBridge s v.bridge with back := l } else { getBridge s v.bridge with out := l }) ≠ Bridge.reset := by
    intro he
    cases hb : v.back <;> rw [hb] at he <;> injection he with _ hout hback
    · exact hl (congrArg BridgeLink.replays hout)
    · exact hl (congrArg BridgeLink.replays hback)
  unfold putLink
  rw [getBridge_putBridge_self _ _ _ hne]
  split <;> rfl

end

/-! ### Lockstep and the management firmware (R402, R408) -/

section
variable {s : State}

theorem mgmtReloaded_of_up (h : s.power.mgmtDown = false) : mgmtReloaded s = s := if_pos (by simp [h])

theorem mgmtReloaded_of_down (h : s.power.mgmtDown = true) :
    mgmtReloaded s = if (mgmtVerify s).1 then
      forAll (List.range 64) (setReady 1 { (mgmtVerify s).2 with power := { (mgmtVerify s).2.power with mgmtDown := false } }) runWaitEnd
      else (mgmtVerify s).2 := if_neg (by simp [h])

theorem baristaSramError_of_running {c : Nat} (h : (getClu s c).barReset = false) :
    baristaSramError c s = barFault c false (stopCluster c 0x2004 16 (resAlarm (clusterBase c) 0x2004 c s)) := if_neg (by simp [h])

end

/-! ### Idle self-test (R403) -/

section
variable {s : State} {t : Nat} {differs : Bool}

theorem sliceRun_of_busy (h : (getTile s t).vq ≠ []) : sliceRun t differs s = s := if_pos (by simpa using h)

/-- The due slice of an idle tile: an injected starvation, the failure it finds, and the next slice. -/
theorem sliceRun_of_idle (h : (getTile s t).vq = []) :
    sliceRun t differs s =
      (let s1 := if s.armed.contains (clusterBase (t / 16), selftestStarve) then
          sliceStarve t { s with armed := s.armed.erase (clusterBase (t / 16), selftestStarve) } else s
       sliceNext t (if differs || (getTile s t).stInj then
         sliceFault t selftestFail (putTile s1 t { getTile s t with stInj := false }) else s1)) := by
  unfold sliceRun
  rw [if_neg (by simp [h])]
  by_cases ha : s.armed.contains (clusterBase (t / 16), selftestStarve) = true
  · rw [takeArmed_of_contains ha, if_pos ha]
  · rw [takeArmed_of_not_contains ha, if_neg ha]

end

/-! ### The monitors (R377, R404 to R406) -/

section
variable {s : State}

/-- Only a running clock is watched. -/
theorem clockWindow_eq (k n : Nat) :
    clockWindow k n s = if wbit (reg s (mgmtPage + 0x118)) k then
      monRaise clockMonCode (clockPage k) (clockOff s k n) (fun u => bump u (mgmtPage + 0x850)) s else s := ite_not _ _ _

/-- The rails that are watched are those of the spine pages and of the management page. -/
theorem exec_voltMon {page : BitVec 14} {i : Nat} {dev : Int}
    (h : pageOf (4096 * page.toNat) = some (.spine, i) ∨ pageOf (4096 * page.toNat) = some (.mgmt, i)) :
    exec (.voltMon page dev) s = .next (voltWindow (4096 * page.toNat) dev s) := by
  show execVoltMon page dev s = _
  unfold execVoltMon
  rcases h with h | h <;> rw [h]

theorem exec_thermSample {temps : List Int} (h : temps.length = 76) : exec (.thermSample temps) s = .next (thermSample temps s) :=
  if_pos h

/-- A sample of the sensors, each monitor's check as `monRaise` makes it. -/
theorem thermSample_of_awake (temps : List Int) (h : awake s = true) :
    thermSample temps s =
      (let h := hottest temps
       let lim := fun (hi lo : Nat) => ((regF s (mgmtPage + 0x230) hi lo : Nat) : Int)
       let s1 := setReg s (mgmtPage + 0x238) (packWord [(8, h.1), (0, tempByte h.2)])
       let s2 := if lim 7 0 < h.2 then bump { s1 with power := { s1.power with therm := true } } (mgmtPage + 0x860)
         else if h.2 < lim 7 0 - 3 then { s1 with power := { s1.power with therm := false } } else s1
       let s3 := forAll ((mgmtPage :: (List.range 4).map spineBase).filter (· != sensorPage h.1))
         (monRaise thermMonCode (sensorPage h.1) (decide (lim 15 8 < h.2)) id s2) (fun p => monRaise thermMonCode p false id)
       if lim 23 16 < h.2 then allOff s3 else s3) := if_neg (by simp [h])

theorem pllFail_of_not_started {k : Nat} (h : pllStarted s k = false) : pllFail k s = s := if_pos (by simp [h])

theorem pllFail_of_started {k : Nat} (h : pllStarted s k = true) :
    pllFail k s =
      (let s1 := runClocks { s with power := { s.power with
         pllBad := if s.power.pllBad.contains k then s.power.pllBad else k :: s.power.pllBad } }
       raiseFault mgmtPage 0x7006 none (clearReady (readyBits.filter (fun i => (readyClocks i).contains k)) s1)) :=
  if_neg (by simp [h])

/-- The AON domain has no PLL (R377). -/
theorem pllStarted_zero : pllStarted s 0 = false := rfl

end

/-- Settles O52: a fall of a bridge is `bridgeDown` of an up bridge and a check is `monRaise`; each command then by the cases of its meaning. -/
theorem monitorsAndBridges : Obligations.MonitorsAndBridges := by
  intro s shot falls checks
  have hfalls : ∀ (b d : Nat) (u : State), (getBridge u b).down = false → bridgeDown b d u = falls b d u :=
    fun b d u h => bridgeDown_of_up h
  have hchecks : monRaise = checks := by
    funext code page found count u
    exact monRaise_eq code page found count u
  refine ⟨fun b word back hb => ?_, fun c hc => onUnit_of hc, rfl, fun c hc hr => ?_, rfl, rfl, rfl, fun hm => ?_, fun hm => ?_,
    fun t ht => ⟨fun differs hv => ?_, fun differs hv => ?_, onUnit_of ht⟩, fun k n hk => ?_, fun page i dev hp => ?_, fun temps hlen => ?_,
    fun k hk => ?_, fun k _ hk hst => ?_⟩
  · intro v x again kept
    have hword : ∀ ok, exec (.bridgeWordReceive v ok word) s = .next (bridgeWord v ok word s) := fun ok => onUnit_of hb
    have hfail : exec (.bridgeFail b) s = .next (bridgeDown b ((bridgeDies b).headD 0) s) := onUnit_of hb
    refine ⟨fun hd => ⟨fun ok => ?_, ?_⟩, fun hd => ⟨?_, fun d ok ha => ?_, fun ha => ⟨fun hx => ?_, fun hx => ?_, ?_⟩⟩,
      onUnit_of hb, onUnit_of hb⟩
    · rw [hword, bridgeWord_of_down hd]
    · rw [hfail, bridgeDown_of_down hd]
    · rw [hfail, hfalls b _ s hd]
    · rw [hword, bridgeWord_of_armed hd ha]
      exact congrArg _ (hfalls b d _ hd)
    · rw [hword, bridgeWord_of_good hd ha]
      exact congrArg (fun y => Host.Outcome.next (putLink s v y)) (if_pos hx)
    · rw [hword, bridgeWord_of_good hd ha]
      exact congrArg (fun y => Host.Outcome.next (putLink s v y)) (if_neg hx)
    · rw [hword, bridgeWord_of_bad hd ha]
      refine congrArg Host.Outcome.next (ite_congr rfl (fun hn => hfalls b _ _ ?_) fun _ => rfl)
      exact (getBridge_putLink_down (Nat.ne_of_gt (Nat.lt_of_lt_of_le (by decide) hn))).trans hd
  · exact (onUnit_of hc).trans (congrArg _ (baristaSramError_of_running hr))
  · exact congrArg _ (mgmtReloaded_of_down hm)
  · exact congrArg _ (mgmtReloaded_of_up hm)
  · exact (onUnit_of ht).trans (congrArg _ (sliceRun_of_idle hv))
  · exact (onUnit_of ht).trans (congrArg _ (sliceRun_of_busy hv))
  · have hwin := clockWindow_eq (s := s) k n
    rw [hchecks] at hwin
    exact (onUnit_of hk).trans (congrArg _ hwin)
  · exact (exec_voltMon hp).trans (congrArg _ (monRaise_eq ..))
  · intro h lim s1 s2 s3
    refine (exec_thermSample hlen).trans (congrArg _ ?_)
    by_cases ha : awake s = true
    · have hsample := thermSample_of_awake temps ha
      rw [hchecks] at hsample
      rw [if_pos ha]
      exact hsample
    · rw [if_neg ha]
      exact if_pos ha
  · have hst : pllStarted s k = false := hk.elim (fun h => h ▸ pllStarted_zero) id
    refine congrArg Host.Outcome.next ?_
    rw [pllFail_of_not_started hst, ite_self]
  · exact (onUnit_of hk).trans (congrArg _ (pllFail_of_started hst))

end Sys2Proof.Machine

/-! Leases and layout: what a release, a waiting commit and the end of `LEASE_TMO` lead to, and what the queries show (R192 to R194, R200,
R215, R217). -/

namespace Sys2Proof.Machine

section
variable {s : State} {tag : BitVec 12} {shard : BitVec 24}

/-! ### Queries and recovery commands of an owned shard (R200) -/

section
variable {hdr : Nat}

/-- What a query shows of a shard that the device owns. -/
theorem leaseQuery_of_owned (h : shardHdr s tag shard = some hdr) :
    leaseQuery tag shard s =
      (let r := getLease s tag shard
       let ret : RetBuf := r.ret.getD ⟨0, 0, 0⟩
       let waits := match r.pend with | some p => p.waits | none => false
       setReg (setReg (setReg s (leasePage + 0x110)
         (packWord [(62, 1), (61, b2n r.ret.isSome), (60, b2n (!r.defer.isEmpty)), (59, b2n waits), (20, ret.n % 2 ^ 20), (0, r.n % 2 ^ 20)]))
         (leasePage + 0x118) (packWord [(32, ret.version.toNat), (0, (shardView s tag shard hdr).version.toNat)]))
         (leasePage + 0x120) (packWord [(32, ret.step.toNat % 2 ^ 32), (0, r.step.toNat % 2 ^ 32)])) := by
  unfold leaseQuery
  split
  next hn => exact absurd (hn.symm.trans h) nofun
  next ha =>
    cases ha.symm.trans h
    rfl

theorem shardHdr_not_isNone (h : shardHdr s tag shard = some hdr) : ¬ (shardHdr s tag shard).isNone = true := by simp [h]

theorem forceCur_of_owned (h : shardHdr s tag shard = some hdr) :
    forceCur tag shard s = afterRelease tag shard (putLease s tag shard { getLease s tag shard with n := 0 }) :=
  if_neg (shardHdr_not_isNone h)

theorem forceRet_of_owned (h : shardHdr s tag shard = some hdr) :
    forceRet tag shard s = afterRelease tag shard (putLease s tag shard { getLease s tag shard with ret := none }) :=
  if_neg (shardHdr_not_isNone h)

end

/-! ### Commits that wait (R193, R194) -/

section
variable {p : PendRun}

theorem commitTry_of_retFree (hp : (getLease s tag shard).pend = some p) (hw : p.waits = true) (hr : retFree (getLease s tag shard) = true) :
    commitTry tag shard s = commitGo tag shard p s := by
  unfold commitTry
  dsimp only
  rw [hp]
  exact if_pos ⟨hw, hr⟩

theorem commitTimeout_of_waits (hp : (getLease s tag shard).pend = some p) (hw : p.waits = true) :
    commitTimeout tag shard s =
      discardPend tag shard (markVeto tag p.step (leaseFault leaseTimeoutCode (ownAddr s) p.step shard tag s)) := by
  unfold commitTimeout
  rw [hp]
  exact if_pos hw

theorem commitTimeout_of_not_waits (hp : (getLease s tag shard).pend = some p) (hw : p.waits = false) : commitTimeout tag shard s = s := by
  unfold commitTimeout
  rw [hp]
  exact if_neg (by simp [hw])

end

/-! ### Deferred NEWs and held contributions (R194, R215) -/

/-- With `LEASE_TMO` zero no wait ends. -/
theorem exec_leaseTimeout_of_disabled (k : LeaseWait) (h : regF s (leasePage + 0x100) 31 0 = 0) :
    exec (.leaseTimeout tag shard k) s = .next s := if_pos h

section
variable (h : regF s (leasePage + 0x100) 31 0 ≠ 0)
include h

theorem exec_leaseTimeout_waitingCommit : exec (.leaseTimeout tag shard .waitingCommit) s = .next (collTick (commitTimeout tag shard s)) :=
  if_neg h

theorem exec_leaseTimeout_deferredNew : exec (.leaseTimeout tag shard .deferredNew) s = .next (collTick (deferTimeout tag shard s)) :=
  if_neg h

theorem exec_leaseTimeout_heldContribution : exec (.leaseTimeout tag shard .heldContribution) s = .next (collTick (heldTimeout tag s)) :=
  if_neg h

end

theorem deferTimeout_of_nil (h : (getLease s tag shard).defer = []) : deferTimeout tag shard s = s := by
  unfold deferTimeout
  dsimp only
  rw [h]

/-- The oldest deferred NEW is taken away and refused: with its collective, or logged where that is gone. -/
theorem deferTimeout_of_cons {d : DeferredNew} {rest : List DeferredNew} (h : (getLease s tag shard).defer = d :: rest) :
    deferTimeout tag shard s =
      (let s1 := putLease s tag shard { getLease s tag shard with defer := rest }
       if (collOf s1 ⟨tag, d.group, d.collId⟩).isSome then collRefuse ⟨tag, d.group, d.collId⟩ leaseTimeoutCode s1
       else leaseFault leaseTimeoutCode (ownAddr s1) d.step shard tag s1) := by
  unfold deferTimeout
  dsimp only
  rw [h]

theorem heldTimeout_of_held {key : CollKey} {g : BitVec 48} (h : heldClose s tag = some (key, g)) :
    heldTimeout tag s = contribute key true (markVeto tag g (leaseFault leaseTimeoutCode (ownAddr s) g 0 tag s)) := by
  unfold heldTimeout
  rw [h]

theorem heldTimeout_of_none (h : heldClose s tag = none) : heldTimeout tag s = s := by
  unfold heldTimeout
  rw [h]

/-! ### Layout queries (R200) -/

section
variable {entry : Nat}

/-- The record that a layout query names. -/
def layoutRecord (s : State) (tag : BitVec 12) (entry : Nat) : Option (List Byte) :=
  if (getJob s tag).st = .free then none
  else if entry < 8 then (getJob s tag).stages[entry]?
  else if entry = 8 ∧ ¬ (getJob s tag).division.isEmpty then some (getJob s tag).division else none

theorem layoutQuery_of_some {b : List Byte} (h : layoutRecord s tag entry = some b) :
    layoutQuery tag entry s =
      forAll (List.range 4) (setReg s (leasePage + 0x148) (packWord [(62, 1)])) (fun i s =>
        setReg s (leasePage + 0x150 + 8 * i) (BitVec.ofNat 64 (leNat ((b.drop (8 * i)).take 8)))) := by
  unfold layoutRecord at h
  unfold layoutQuery
  dsimp only
  rw [h]

theorem layoutQuery_of_none (h : layoutRecord s tag entry = none) :
    layoutQuery tag entry s = setRegF s (leasePage + 0x148) 62 62 0 := by
  unfold layoutRecord at h
  unfold layoutQuery
  dsimp only
  rw [h]

theorem layoutRecord_of_free (h : (getJob s tag).st = .free) : layoutRecord s tag entry = none := if_pos h

theorem layoutRecord_stage (hj : (getJob s tag).st ≠ .free) (he : entry < 8) : layoutRecord s tag entry = (getJob s tag).stages[entry]? :=
  (if_neg hj).trans (if_pos he)

theorem layoutRecord_division (hj : (getJob s tag).st ≠ .free) :
    layoutRecord s tag 8 = if (getJob s tag).division = [] then none else some (getJob s tag).division := by
  unfold layoutRecord
  rw [if_neg hj, if_neg (by decide)]
  by_cases hd : (getJob s tag).division = [] <;> simp [hd]

theorem layoutRecord_above (he : 8 < entry) : layoutRecord s tag entry = none := by
  unfold layoutRecord
  rw [if_neg (Nat.lt_asymm he), if_neg (fun h : entry = 8 ∧ _ => Nat.ne_of_gt he h.1), ite_self]

theorem layoutRecord_eq_some {b : List Byte} (hj : (getJob s tag).st ≠ .free)
    (h : (entry < 8 ∧ (getJob s tag).stages[entry]? = some b) ∨ (entry = 8 ∧ b = (getJob s tag).division ∧ b ≠ [])) :
    layoutRecord s tag entry = some b := by
  rcases h with ⟨he, hb⟩ | ⟨rfl, rfl, hb⟩
  · rw [layoutRecord_stage hj he, hb]
  · rw [layoutRecord_division hj, if_neg hb]

theorem layoutRecord_eq_none
    (h : (getJob s tag).st = .free ∨ 8 < entry ∨ (entry < 8 ∧ (getJob s tag).stages[entry]? = none) ∨
      (entry = 8 ∧ (getJob s tag).division = [])) : layoutRecord s tag entry = none := by
  by_cases hj : (getJob s tag).st = .free
  · exact layoutRecord_of_free hj
  rcases h.resolve_left hj with he | ⟨he, hn⟩ | ⟨rfl, hd⟩
  · exact layoutRecord_above he
  · rw [layoutRecord_stage hj he, hn]
  · rw [layoutRecord_division hj, if_pos hd]

end

end

/-- Settles O28: each command by the case of its meaning that the clause names; entry 8 is that of the division record. -/
theorem leaseCommands : Obligations.LeaseCommands := by
  intro tag shard s
  have hentry : ∀ entry : BitVec 4, entry = 8 ↔ entry.toNat = 8 := fun _ => BitVec.toNat_inj.symm
  refine ⟨fun hdr h => ⟨?_, ?_, ?_⟩, fun p hp hw hr => ?_, fun p hp htmo => ⟨fun hw => ?_, fun hw => ?_⟩,
    fun h k => exec_leaseTimeout_of_disabled k h, fun htmo => ⟨fun d rest hd => ⟨fun hc => ?_, fun hc => ?_⟩, fun hd => ?_, fun key g hk => ?_,
      fun hk => ?_⟩, fun entry b hj h => ?_, fun entry h => ?_⟩
  · exact congrArg Host.Outcome.next (leaseQuery_of_owned h)
  · exact congrArg (fun x => Host.Outcome.next (collTick x)) (forceCur_of_owned h)
  · exact congrArg (fun x => Host.Outcome.next (collTick x)) (forceRet_of_owned h)
  · exact congrArg (fun x => Host.Outcome.next (collTick x)) (commitTry_of_retFree hp hw hr)
  · rw [exec_leaseTimeout_waitingCommit htmo, commitTimeout_of_waits hp hw]
  · rw [exec_leaseTimeout_waitingCommit htmo, commitTimeout_of_not_waits hp hw]
  · rw [exec_leaseTimeout_deferredNew htmo, deferTimeout_of_cons hd]
    exact congrArg (fun x => Host.Outcome.next (collTick x)) (if_pos hc)
  · rw [exec_leaseTimeout_deferredNew htmo, deferTimeout_of_cons hd]
    exact congrArg (fun x => Host.Outcome.next (collTick x)) (if_neg (Bool.eq_false_iff.mp hc))
  · rw [exec_leaseTimeout_deferredNew htmo, deferTimeout_of_nil hd]
  · rw [exec_leaseTimeout_heldContribution htmo, heldTimeout_of_held hk]
  · rw [exec_leaseTimeout_heldContribution htmo, heldTimeout_of_none hk]
  · rw [hentry] at h
    exact congrArg Host.Outcome.next (layoutQuery_of_some (layoutRecord_eq_some hj h))
  · rw [hentry] at h
    exact congrArg Host.Outcome.next (layoutQuery_of_none (layoutRecord_eq_none h))

end Sys2Proof.Machine

/-! Parameter updates: the start of a run, the operations on its blocks, its end, and the end of a step (R201 to R205, R209, R210, R215, R217,
R220). -/

namespace Sys2Proof.Machine

section
variable {c : Nat} {s : State} {tag : BitVec 12} {shard : BitVec 24} {g : BitVec 48}

/-! ### Writes to a cluster's pages (R368, R376) -/

/-- A write of a register of a cluster's pages acts unless its power domain or its resources refuse it. -/
theorem cluCommand_eq {f : State → State} (hc : c < 64) : cluCommand c s f = .next ((cluRefused s c).getD (f s)) := by
  unfold cluCommand cluWrite inDomain cluRefused
  cases domainOn s (cluDomain c)
  · simp [hc]
  · cases hb : cluBlocked s c <;> simp [hc, hb]

/-! ### The start of a run (R201, R202) -/

/-- A run as it is accepted, before its roast values are known. -/
def acceptedRun (tag : BitVec 12) (shard : BitVec 24) (g : BitVec 48) (a : Nat) (b : List Byte) (since : Nat) : UpdRun :=
  { tag := tag, shard := shard, step := g, hdrAddr := a, hdr := parseHdr b, waiting := true, since := since, scalars := [],
    blk := 0, pc := 0, loaded := false, vals := [], scales := [], zeroed := none, dropped := false }

/-- Steps 5 and 6 of R202 pass: the step is the shard's next one, and the other buffer is free. -/
theorem runCheckStep_of_next {a : Nat} {b : List Byte} (hg : g.toNat = (parseHdr b).lastStep.toNat + 1)
    (hr : retFree (getLease s tag shard) = true) (hm : mgmtRuns s = true) :
    runCheckStep c tag shard g a b s = runGo c (acceptedRun tag shard g a b s.cycle) s := by
  simp only [runCheckStep, hg, hr, hm, decide_true, Bool.not_true, Bool.false_and, Bool.false_eq_true, if_false, if_true]
  rfl

/-- Steps 1 to 4 of R202 pass: the header is read and sound, no run of the shard is pending, and the staging rows suffice. -/
theorem runSteps_of_sound {a : Nat} {t : State} {l b : List Byte} {stage : Word} (hh : (getJob s tag).halted = false)
    (ha : shardHdr s tag shard = some a) (hrd : tensorRead (.run c) tag (c / 16) a 64 s = (0, l, t)) (hb : headerNow t tag shard l = b)
    (hcrc : crc32 (b.take 60) = recNat b 60 4) (hf : hdrFieldBad (getJob t tag) tag shard (zt1 t c) b = false)
    (hp : runPending t c tag shard = false) (hst : reg t (clusterBase c + 0x4C0) = stage) (hv : wbit stage 40 = true)
    (hlen : wfld stage 17 0 + 511 ≤ wfld stage 37 20) (hend : wfld stage 37 20 ≤ 196607) :
    runSteps c tag shard g s = runCheckStep c tag shard g a b t := by
  have hstage : ¬ (¬ wbit stage 40 = true ∨ wfld stage 37 20 < wfld stage 17 0 ∨ wfld stage 37 20 - wfld stage 17 0 < 511 ∨
      196607 < wfld stage 37 20) := by
    simp only [hv, not_true_eq_false, false_or]
    omega
  unfold runSteps
  simp only [hh, ha, hrd, hb, hcrc, hf, hp, hst, Bool.false_eq_true, ne_eq, not_true_eq_false, if_false]
  exact if_neg hstage

/-- An idle cluster that is bound takes a run and shows it as busy. -/
theorem runStart_of_idle (ht : cluTag s c = some tag) (hr : (getClu s c).run = none) (hw : walkerIn s c [.idle, .call, .done] = true)
    (hen : blkEn s (clusterBase c) = true) :
    runStart c shard s = runSteps c tag shard (BitVec.ofNat 48 (regF s (clusterBase c + 0x4A0) 47 0))
      (setReg s (clusterBase c + 0x4B0) (packWord [(63, 1), (8, shard.toNat)])) := by
  simp [runStart, ht, hr, hw, hen]

/-- The wait of a run ends where the other buffer is free (R202). -/
theorem runWaitEnd_of_retFree {r : UpdRun} (hr : (getClu s c).run = some r) (hw : r.waiting = true)
    (hf : retFree (getLease s r.tag r.shard) = true) (hm : mgmtRuns s = true) : runWaitEnd c s = runGo c r s := by
  simp [runWaitEnd, hr, hw, hf, hm]

/-! ### A run's operations and its end (R203, R205, R209, R210) -/

/-- A block that has been read is not read again. -/
theorem loadBlock_of_loaded {p : List Byte} {n : Nat} {q : URun} (h : q.run.loaded = true) : loadBlock c p n q = q := by
  cases n with
  | zero => rfl
  | succ n => exact if_pos (.inr (.inl h))

section
variable {r : UpdRun} (hr : (getClu s c).run = some r) (hw : r.waiting = false)
include hr hw

theorem runningRun_of_started : runningRun s c = some r := by simp [runningRun, hr, hw]

/-- The next instruction of a run is computed on the block that the run holds. -/
theorem updOp_of_loaded {op : Nat} (hl : r.loaded = true) (hop : (updInstr (runProg s r) r.pc).op = op) :
    updOp op c s = runKeep c (afterInstr c (runProg s r)
      (updStep c (runProg s r) (updInstr (runProg s r) r.pc) { code := 0, run := r, st := s })) := by
  unfold updOp
  rw [runningRun_of_started hr hw]
  simp only [loadBlock_of_loaded (q := { code := 0, run := r, st := s }) hl]
  rw [if_neg (by simp [hl]), if_pos hop]

/-- A run that has nothing left to write becomes pending and ends on its cluster. -/
theorem runComplete_of_written (hd : r.dropped = false) {q : URun}
    (hq : runAll c (runProg s r) (runBlocks r + 1) { code := 0, run := r, st := s } = q) (hcode : q.code = 0) (hwr : writesOf q.st (.run c) = []) :
    runComplete c s =
      (let s1 := bump q.st (clusterBase c + 0x830)
       runEnd c (runCounted r.tag r.shard r.step (putLease s1 r.tag r.shard { getLease s1 r.tag r.shard with
         pend := some { step := r.step, cluster := c, hdrAddr := r.hdrAddr, hdr := r.hdr, waits := false } }))) := by
  unfold runComplete
  simp only [runningRun_of_started hr hw, hq, hcode, hwr, hd]
  rfl

end

/-- Each update command is its operation on the run of its cluster. -/
theorem exec_updCommand (c : Nat) (s : State) : ∀ p ∈ updCommands, exec (p.2 c) s = onCluster c s (updOp p.1 c) := by
  simp only [updCommands, List.forall_mem_cons, List.not_mem_nil, false_implies, implies_true, and_true]
  refine ⟨?_, ?_, ?_, ?_, ?_, ?_, ?_, ?_, ?_, ?_, ?_, ?_⟩ <;> rfl

/-! ### The end of a step (R215, R220) -/

/-- The clean interval of a step that every shard has run ends, and the contribution that is held for the step leaves. -/
theorem cleanEnd_of_ran {w : StepWindow} (hw : (getJob s tag).window = some w) (hg : w.heldStep = g) (hran : allRan s tag g = true) :
    cleanEnd tag g s =
      (let s1 := putJob s tag { getJob s tag with window := some { w with clean := some g } }
       (heldClose s1 tag).elim s1 fun p => if p.2 = g then contribute p.1 false s1 else s1) := by
  unfold cleanEnd
  simp only [hw]
  rw [if_neg (by simp [hg, hran])]
  cases heldClose _ tag <;> rfl

/-- A query of a job that has a profile shows the roast values of the step and the words of the profile. -/
theorem roastQuery_of_profile (h : (getJob s tag).profile ≠ []) :
    roastQuery tag g s =
      (let p := (getJob s tag).profile
       let q := roastEval tag g.toNat s
       let v := fun (i : Nat) => (nth (0 : BitVec 32) q.1 i).toNat
       forAll (List.range 8)
         (setReg (setReg (setReg (setReg q.2 (roastPage + 0x108) (packWord [(62, 1)])) (roastPage + 0x110) (packWord [(0, v 0)]))
           (roastPage + 0x118) (packWord [(0, v 1)])) (roastPage + 0x120) (packWord [(32, v 3), (0, v 2)]))
         (fun i s => setReg s (roastPage + 0x140 + 8 * i) (BitVec.ofNat 64 (recNat p (8 * i) 8)))) := by
  have he : (getJob s tag).profile.isEmpty = false := List.isEmpty_eq_false_iff.mpr h
  unfold roastQuery
  simp only [he]
  rfl

end

/-- Settles O29: the checks of R202 in their order, then each command by the run that its cluster holds. -/
theorem updateRunCommands : Obligations.UpdateRunCommands := by
  intro c s hc
  refine ⟨?run, fun r hr hw hf hm => ?waitEnd, fun p hp r hr hw hl hop => ?op, fun r hr hw hd => ?complete⟩
  case run =>
    intro shard tag a s0 g rd s1 stage b h hno ht hr hw hh ha hrd hcrc hf hp hv hlen hend hen hg hret hm
    calc exec (.run c shard) s = .next (runStart c shard s) := (cluCommand_eq hc).trans (by rw [hno]; rfl)
      _ = .next (runSteps c tag shard g s0) := congrArg _ (runStart_of_idle ht hr hw hen)
      _ = .next (runCheckStep c tag shard g a b s1) :=
        congrArg _ (runSteps_of_sound hh ha (Prod.ext hrd rfl) rfl hcrc hf hp rfl hv hlen hend)
      _ = .next (runGo c (acceptedRun tag shard g a b s1.cycle) s1) := congrArg _ (runCheckStep_of_next hg hret hm)
  case waitEnd => exact (onUnit_of hc).trans (congrArg _ (runWaitEnd_of_retFree hr hw hf hm))
  case op => rw [exec_updCommand c s p hp, onCluster, onUnit_of hc, updOp_of_loaded hr hw hl hop]
  case complete =>
    intro q hq hwr
    exact (onUnit_of hc).trans (congrArg _ (runComplete_of_written hr hw hd rfl hq hwr))

/-- Settles O30: the summary acts as its meaning is written; the clean interval by whether a contribution is held; the query by its profile. -/
theorem stepClosing : Obligations.StepClosing := by
  intro tag s
  refine ⟨fun r => rfl, fun g w hw hg hran => ⟨fun hn => ?_, fun key hk => ?_⟩, fun g h => congrArg Host.Outcome.next (roastQuery_of_profile h)⟩
  all_goals refine congrArg (fun x => Host.Outcome.next (collTick x)) ((cleanEnd_of_ran hw hg hran).trans ?_)
  · simp only [hn, Option.elim_none]
  · simp only [hk, Option.elim_some, if_true]

end Sys2Proof.Machine

/-! The census, the loss port and cupping: what an event or a sample does by the record it finds (R228, R229, R231 to R233, R238, R239). -/

namespace Sys2Proof.Machine

section
variable {tag ctag : BitVec 12} {s : State}

/-! ### Census records (R229, R231, R239) -/

/-- The events on their way are no part of a job. -/
@[simp] theorem getJob_census (l : List (BitVec 12 × BitVec 12 × CensusCounts)) : getJob { s with census := l } tag = getJob s tag := rfl

/-- With its record in the job, an event adds to the live counters. -/
theorem censusLand_of_record {r : CensusRec} (n : CensusCounts) (h : tblFind (getJob s tag).census ctag.toNat = some r) :
    censusLand tag ctag n s =
      putJob { s with census := s.census.erase (tag, ctag, n) } tag
        { getJob s tag with census := tblIns (getJob s tag).census ctag.toNat { r with live := addCounts r.live n } } := by
  unfold censusLand
  dsimp only
  rw [getJob_census, h]

/-- Without a record an event is dropped and counted. -/
theorem censusLand_of_none (n : CensusCounts) (h : tblFind (getJob s tag).census ctag.toNat = none) :
    censusLand tag ctag n s = bump { s with census := s.census.erase (tag, ctag, n) } (numericsPage + 0x800) := by
  unfold censusLand
  dsimp only
  rw [getJob_census, h]

theorem snapClear_of_record {r : CensusRec} (h : tblFind (getJob s tag).census ctag.toNat = some r) :
    snapClear tag ctag s =
      putJob s tag { getJob s tag with
        census := tblIns (getJob s tag).census ctag.toNat { live := CensusCounts.zero, snap := r.live } } := by
  unfold snapClear
  dsimp only
  rw [h]

theorem snapClearJob_of_census (h : (getJob s tag).census ≠ []) :
    snapClearJob tag s =
      putJob s tag { getJob s tag with
        census := (getJob s tag).census.map (fun p => (p.1, { live := CensusCounts.zero, snap := p.2.live })) } :=
  if_neg (by simpa using h)

theorem cenQuery_of_record {r : CensusRec} (snap : Bool) (h : tblFind (getJob s tag).census ctag.toNat = some r) :
    cenQuery tag ctag snap s = cenShow (some (if snap then r.snap else r.live)) s := by
  rw [cenQuery, h, Option.map_some]

/-! ### The loss port (R232, R233) -/

/-- The step of a sample is not newer than the last one of its job. -/
def lossDup (r : LossRec) (step : BitVec 32) : Bool := r.last.any fun l => decide (step.toNat ≤ l.toNat)

theorem lossDup_of_le {r : LossRec} {step l : BitVec 32} (hl : r.last = some l) (h : step.toNat ≤ l.toNat) : lossDup r step = true := by
  rw [lossDup, hl, Option.any_some, decide_eq_true h]

theorem lossDup_of_newer {r : LossRec} {step : BitVec 32} (h : ∀ l, r.last = some l → l.toNat < step.toNat) : lossDup r step = false := by
  rw [lossDup, Option.any_eq_false]
  exact fun l hl => by simpa using h l hl

/-- A sample for the job that `LOSS_SEL` names: ignored without a loss record, a duplicate, or folded into the record. -/
theorem lossIn_eq (v : Word) (hsel : regF s (numericsPage + 0x200) 11 0 = tag.toNat) :
    lossIn v s =
      if ¬ (getJob s tag).inUse then bump s (numericsPage + 0x838)
      else if lossDup (getJob s tag).loss (BitVec.ofNat 32 (wfld v 31 0)) then bump s (numericsPage + 0x818)
      else
        let f := lossFold (getJob s tag).loss (BitVec.ofNat 32 (wfld v 63 32)) (BitVec.ofNat 32 (wfld v 31 0))
        let s1 := bump (putJob s tag { getJob s tag with loss := f.1 }) (numericsPage + 0x808)
        if f.2 then raiseEvent numericsPage 0 (bump s1 (numericsPage + 0x810)) else s1 := by
  have htag : BitVec.ofNat 12 (regF s (numericsPage + 0x200) 11 0) = tag := by rw [hsel, BitVec.ofNat_toNat, BitVec.setWidth_eq]
  unfold lossIn lossDup
  dsimp only
  rw [htag]
  cases (getJob s tag).loss.last <;> rfl

/-! ### Cupping (R228) -/

/-- The only sample that is due is compared. -/
theorem cuppingCompare_of_single {c : Nat} {p : CupSample} (h : (getClu s c).cupSlots.filter (fun p => p.due.isSome) = [p]) :
    cuppingCompare c s = cupCompare c p s := by
  unfold cuppingCompare
  dsimp only
  rw [h, List.foldl_cons, List.foldl_nil]

end

/-- Settles O31: a census command by whether its record exists; a sample by whether its job has a loss record and its step is newer. -/
theorem censusAndLoss : Obligations.CensusAndLoss := by
  intro tag ctag s
  refine ⟨fun r hr => ⟨fun n => ?event, ?snap, fun snap => ?query⟩, fun h => ?snapJob, fun h n => ?dropped, fun v hsel hfree => ?ignored,
    fun v hsel huse => ⟨fun hnew => ?newer, fun l hl hle => ?duplicate⟩⟩
  case event => exact congrArg Host.Outcome.next (censusLand_of_record n hr)
  case snap => exact congrArg Host.Outcome.next (snapClear_of_record hr)
  case query => exact congrArg Host.Outcome.next (cenQuery_of_record snap hr)
  case snapJob => exact congrArg Host.Outcome.next (snapClearJob_of_census h)
  case dropped => exact congrArg Host.Outcome.next (censusLand_of_none n h)
  all_goals refine congrArg Host.Outcome.next ((lossIn_eq v hsel).trans ?_)
  case ignored => exact if_pos (by simp [hfree])
  case newer => exact (if_neg (by simp [huse])).trans (if_neg (by simp [lossDup_of_newer hnew]))
  case duplicate => exact (if_neg (by simp [huse])).trans (if_pos (lossDup_of_le hl hle))

/-- Settles O32: the compare takes the one sample that is due; the write acts unless the cluster's pages refuse it. -/
theorem cuppingCommands : Obligations.CuppingCommands := by
  intro c s hc
  refine ⟨fun p hp => ?compare, fun v u hu => ?refused, fun v hno => ?latched⟩
  case compare => exact (onUnit_of hc).trans (congrArg _ (cuppingCompare_of_single hp))
  case refused => exact (cluCommand_eq hc).trans (by rw [hu, Option.getD_some])
  case latched => exact (cluCommand_eq hc).trans (by rw [hno, Option.getD_none]; rfl)

end Sys2Proof.Machine

/-! Pour queues: posts, RESUME, the start of a request, retried claims and the time-out (R243 to R245, R247, R249, R252, R253, R255, R376). -/

namespace Sys2Proof.Machine

section
variable {h q : Nat} {s : State}

/-! ### Writes to a hub's pages (R376) -/

/-- A write to a page whose power domain is on acts. -/
theorem inDomain_of_on {d : Nat} {f : State → State} (hon : domainOn s d = true) : inDomain d s f = f s := if_pos hon

/-- A write to a page whose power domain is off is ignored and counted. -/
theorem inDomain_of_off {d : Nat} {f : State → State} (hoff : domainOn s d = false) : inDomain d s f = bump s (mgmtPage + 0x808) :=
  if_neg (by simp [hoff])

theorem exec_pqDoorbell_of_hub {hub : Nat} (hh : hub < 2) (q : BitVec 6) (row : BitVec 18) :
    exec (.pqDoorbell hub q row) s = .next (inDomain (4 + hub) s (pourPost hub q.toNat row)) := congrArg Host.Outcome.next (if_pos hh)

theorem exec_pourResume_of_hub {hub : Nat} (hh : hub < 2) (q : BitVec 6) :
    exec (.pourResume hub q) s = .next (inDomain (4 + hub) s (pourResume hub q.toNat)) := congrArg Host.Outcome.next (if_pos hh)

/-! ### Posts (R243) -/

/-- A queue that is enabled and without ERROR takes a row for which its FIFO has room. -/
theorem pourPost_of_room (row : BitVec 18) (hroom : (getPq s h q).fifo.length < 8) (hen : wbit (getPq s h q).cfg 63 = true)
    (herr : (getPq s h q).error = false) :
    pourPost h q row s = putPq s h q { getPq s h q with fifo := (getPq s h q).fifo ++ [row] } :=
  if_neg (by simp [hroom, hen, herr])

/-- A full queue and one that is disabled or in ERROR count the row as refused. -/
theorem pourPost_of_refused (row : BitVec 18)
    (href : 8 ≤ (getPq s h q).fifo.length ∨ wbit (getPq s h q).cfg 63 = false ∨ (getPq s h q).error = true) :
    pourPost h q row s = bump s (pourCtr h 6) :=
  if_pos (by simpa using href)

/-! ### Starts (R243 to R245, R249, R252) -/

/-- The operation that a request runs once it has been taken and checked: FWD, BWD or RETURN. -/
def pourRun (op h q : Nat) (r : PourReq) (m : List Byte) (s : State) : State :=
  match op with
  | 1 => pourForward h q r m s
  | 2 => pourBackward h q r m s
  | _ => pourBack h q r m s

/-- An idle queue, enabled and of a bound job, takes its next record where it carries the command's operation, and runs it where it passes
the checks of R244. -/
theorem pourStart_of_sound {op : Nat} {p : PourQ} {b : List Byte} {row : BitVec 18} {l : List (BitVec 18)} {r : PourReq}
    (hp : getPq s h q = p) (hfifo : p.fifo = row :: l) (hreq : p.req = none) (hend : p.ending = none) (herr : p.error = false)
    (hen : wbit p.cfg 63 = true) (hruns : pqRuns s p = true) (hblk : blkEn s (pourPage h) = true)
    (hon : pqOn s (pqClu p) row.toNat 64 = true) (hb : pqRead s (pqClu p) row.toNat 0 64 = b)
    (htake : (getPq (pourTake h q b s) h q).req = some r) (hrec : pourRecOk b (pqMap s p) = true) (hop : recF b 0 1 = op) :
    pourStart op h q s = pourRun op h q r (pqMap s p) (pourTake h q b s) := by
  have hidle : ¬ (p.req.isSome ∨ p.ending.isSome ∨ p.error ∨ ¬ wbit p.cfg 63 ∨ ¬ pqRuns s p ∨ ¬ blkEn s (pourPage h)) := by
    simp [hreq, hend, herr, hen, hruns, hblk]
  have hmine : ¬ (recF b 0 1 ≠ op ∧ 1 ≤ recF b 0 1 ∧ recF b 0 1 ≤ 3) := fun hne => hne.1 hop
  unfold pourStart
  simp only [hp, hfifo, if_neg hidle, hon, if_true, hb, if_neg hmine, htake, hrec, not_true_eq_false, if_false]
  rfl

/-! ### Claims and the time-out (R247, R253) -/

/-- A request whose group waits for its claim, with no answer to one awaited, sends the claim again and goes on. -/
theorem pourRetry_of_claiming {r : PourReq} {g : Nat × Nat} {l : List (Nat × Nat)} (hreq : (getPq s h q).req = some r)
    (hclaim : r.claiming = true) (hleft : r.groupsLeft = g :: l)
    (hno : s.awaited.any (fun a => a.owner == .pour h q && a.op == 4) = false) :
    pourRetry h q s = pourAdvance h q (pourFuel (groupClaim h q g.1 g.2 s) h q) (groupClaim h q g.1 g.2 s) := by
  simp [pourRetry, hreq, hclaim, hleft, hno]

/-- A request that has sent, or has tried to send, its first group ends with `POUR_TIMEOUT`. -/
theorem pourTimeout_of_sent {r : PourReq} {t : Nat} (hreq : (getPq s h q).req = some r) (hsent : r.firstSend = some t) :
    pourTimeout h q s = pourEnd h q pourTimeoutCode 0 s := by
  simp [pourTimeout, hreq, hsent]

end

/-- Settles O33: a post and RESUME by the hub's power domain and the queue's state; FWD, BWD and RETURN by the record that the queue takes;
a retry and the time-out by the request that the queue holds. -/
theorem pourRequests : Obligations.PourRequests := by
  intro h q s hh
  refine ⟨fun hoff => ⟨fun row => ?postOff, ?resumeOff⟩, fun row hon => ⟨fun hroom hen herr => ?post, fun href => ?refused⟩, ?start,
    fun r g l hreq hclaim hleft hno => ?retry, fun r t hreq hsent => ?timeout, fun hon => ?resume⟩
  case postOff => rw [exec_pqDoorbell_of_hub hh, inDomain_of_off hoff]
  case resumeOff => rw [exec_pourResume_of_hub hh, inDomain_of_off hoff]
  case post => rw [exec_pqDoorbell_of_hub hh, inDomain_of_on hon, pourPost_of_room row hroom hen herr]
  case refused => rw [exec_pqDoorbell_of_hub hh, inDomain_of_on hon, pourPost_of_refused row href]
  case start =>
    intro row l r b s1 hfifo hreq hend herr hen hruns hblk hon htake hrec
    have hstart {op : Nat} (hop : recF b 0 1 = op) :=
      (onUnit_of hh).trans (congrArg Host.Outcome.next
        (pourStart_of_sound rfl hfifo hreq hend herr hen hruns hblk hon rfl htake hrec hop))
    exact ⟨hstart, hstart, hstart⟩
  case retry => exact (onUnit_of hh).trans (congrArg _ (pourRetry_of_claiming hreq hclaim hleft hno))
  case timeout => exact (onUnit_of hh).trans (congrArg _ (pourTimeout_of_sent hreq hsent))
  case resume => rw [exec_pourResume_of_hub hh, inDomain_of_on hon]; rfl

end Sys2Proof.Machine

/-! Key/value walks: the start of a descriptor, an entry of a read walk, the end of an append and the ring query (R262, R263, R265, R267 to
R269, R273). -/

namespace Sys2Proof.Machine

section
variable {c r : Nat} {s : State} {d : Desc} {w : WalkState}

/-! ### Starts of descriptors (R289, R290) -/

/-- A sound descriptor that the start accepts is put in flight and its body acts; a COMPLETE also waits until the ring has nothing in flight. -/
theorem descStart_of_startsWith {mine : List Byte → Bool} {act : Nat → Nat → BitVec 32 → List Byte → State → State} {n : BitVec 32}
    (hstart : startsWith s c r n) (hmine : mine (descBytes s c r n) = true)
    (hfree : recF (descBytes s c r n) 0 1 % 16 = 4 → (getRing s c r).flight = []) :
    descStart mine act c r s = act c r n (descBytes s c r n) (withDesc s c r n (descBytes s c r n)) := by
  obtain ⟨hnext, hon, hok, hecc⟩ := hstart
  have hgo : ¬ (recF (descBytes s c r n) 0 1 % 16 = 4 ∧ ¬ (getRing s c r).flight.isEmpty) := fun ⟨hop, hflight⟩ =>
    hflight (List.isEmpty_iff.mpr (hfree hop))
  unfold descStart
  simp only [hnext, hon, if_true, hok, hecc, hmine, Bool.and_false, not_true_eq_false, and_false, if_false, if_neg hgo, Bool.false_eq_true]
  rfl

/-! ### Entries of a read walk (R262, R267, R268) -/

/-- A read walk takes the rows that it still needs of a page entry and delivers them; a code of either access fails it, and otherwise it
finishes the entry. -/
def walkRead (c r : Nat) (d : Desc) (w : WalkState) (a len : Nat) (s : State) : State :=
  let row := hdrRow w.head
  let cap := len / row
  let k := min w.left (w.base + cap - w.pos)
  let x := tensorRead (descOwner c r d.count) d.tag (c / 16) (a + (w.pos - w.base) * row) (k * row) s
  if x.1 ≠ 0 then descFailAccess c r d.count x.1 x.2.2
  else
    let t := walkDeliver c r d.count d.raw w.head w k (decide (w.left = k)) x.2.1 x.2.2
    if t.1 ≠ 0 then descFailAccess c r d.count t.1 t.2
    else walkNext c r d.count w k cap (k * row) (streamCounts w.head x.2.1 k) (releaseEntry c r d.count w.entry t.2)

/-- Without a prefetch distance, at an entry that names a page and of which it finds no page in bulk, a read walk only moves the rows. -/
theorem walkEntry_of_page {a len : Nat} {e : Nat × Nat × State} (hwalk : walkOf s c r = some (d, w)) (hread : w.append = false)
    (hleft : w.left ≠ 0) (hent : w.entry < hdrNent w.head) (he : readEntry c r d.count w.head w.entry s = e) (heok : e.1 = 0)
    (hpage : parseListEntry e.2.1 (hdrRow w.head) = .page a len) (hdist : recF w.head 17 1 % 16 = 0)
    (hbulk : bulkSeen (seenUnits e.2.2) d.tag a len = []) : walkEntry c r s = walkRead c r d w a len e.2.2 := by
  unfold walkEntry
  simp only [hwalk, hread, if_neg hleft, if_neg (Nat.not_le.mpr hent), he, heok, hpage, hdist, hbulk, ne_eq, not_true_eq_false, false_and,
    if_false, List.isEmpty_nil, List.any_nil, if_true, Bool.false_eq_true]
  rfl

/-! ### The end of an append (R263, R265) -/

/-- The append whose rows have all landed ends. -/
theorem appendEnd_of_landed (hwalk : walkOf s c r = some (d, w)) (happend : w.append = true) (hleft : w.left = 0)
    (hland : writesOf s (descOwner c r d.count) = []) :
    appendEnd c r s =
      let len := hdrLen w.head + recF d.raw 28 4
      let sealed_ := recF w.head 28 4 % 2 ^ 23
      let first := min sealed_ (recF d.raw 32 4)
      let q := sealUpTo d.tag w.head len w.entry (hdrNent w.head + 1) first
        (baseBelow s w.head first (recF d.raw 32 4) (recF d.raw 36 4)) (sealed_, s)
      descLand c r d.count (editDesc c r d.count (fun d => { d with walk := d.walk.map (fun w => { w with append := false }) })
        (addCtr (tensorStore w.hdr (hdrWith w.head len q.1 false) q.2) (kvPage + 0x808) (recF d.raw 28 4))) := by
  unfold appendEnd
  simp [hwalk, happend, hleft, hland]

/-! ### Queries (R269, R273) -/

/-- The ring record that a bound job shows: its own, or the one of a ring of one module. -/
theorem kvRingQuery_of_bound {tag : BitVec 12} (hst : (getJob s tag).st = .bound) :
    kvRingQuery tag s =
      let rec_ := if (getJob s tag).ringRec = [] then leBytes 4 0 ++ leBytes 12 1 else (getJob s tag).ringRec
      setReg (setReg (setReg s (kvPage + 0x108) (packWord [(62, 1)])) (kvPage + 0x110) (BitVec.ofNat 64 (recF rec_ 0 8)))
        (kvPage + 0x118) (BitVec.ofNat 64 (recF rec_ 8 8)) := by
  have huse : (getJob s tag).inUse = true := by simp [Job.inUse, hst]
  unfold kvRingQuery
  simp [huse, b2n]

end

/-- Settles O34: a walk's descriptor starts as any descriptor that its start accepts; an entry of a read walk, the end of an append and the
query each by the case of its meaning that the clause names. -/
theorem walkCommands : Obligations.WalkCommands := by
  intro c ring s hc
  refine ⟨fun n hstart => ⟨fun hop hflag => ?read, fun hop hflag => ?append⟩, ?entry, fun d w hwalk happend hleft hland => ?ended,
    fun tag hst => ?query⟩
  case read =>
    have hother : ¬ recF (descBytes s c ring.toNat n) 4 1 ≠ 0 := not_not_intro hflag
    exact (onUnit_of hc).trans (congrArg _
      ((descStart_of_startsWith hstart (by simp [hop, hflag, bit]) (by simp [hop])).trans (if_neg hother)))
  case append =>
    have hother : ¬ recF (descBytes s c ring.toNat n) 4 1 ≠ 1 := not_not_intro hflag
    exact (onUnit_of hc).trans (congrArg _
      ((descStart_of_startsWith hstart (by simp [hop, hflag, bit]) (by simp [hop])).trans (if_neg hother)))
  case entry =>
    intro d w a len hwalk n b h tag q cap k x t hread hleft hent heok hpage hdist hbulk hxok htok
    have hrows : walkEntry c ring.toNat s = walkRead c ring.toNat d w a len q.2.2 :=
      walkEntry_of_page hwalk hread hleft hent rfl heok hpage hdist hbulk
    exact (onUnit_of hc).trans (congrArg _ (hrows.trans ((if_neg (not_not_intro hxok)).trans (if_neg (not_not_intro htok)))))
  case ended => exact (onUnit_of hc).trans (congrArg _ (appendEnd_of_landed hwalk happend hleft hland))
  case query => exact congrArg Host.Outcome.next (kvRingQuery_of_bound hst)

end Sys2Proof.Machine

/-! The tier manager: commands on a page, the commit of a promotion, queries, ageing, the promotion time-out and retried holds (R275, R278,
R280, R281, R283, R284, R300). -/

namespace Sys2Proof.Machine

section
variable {tag : BitVec 12} {addr k : Nat} {p : Page} {s : State}

/-! ### Pages of a command (R278) -/

/-- A command of a job runs on the live page of the job that covers its address, unless the page is rinsing. -/
theorem onPage_of_live {f : Nat → Page → State → State} (hat : pageAt s (addr / 65536) = some (k, p)) (hlive : pageLive p = true)
    (htag : p.tag = tag) (hbad : s.badSlots.contains (addr / 65536) = false) (hst : p.st ≠ .rinsing) : onPage tag addr s f = f k p s := by
  have hmine : ¬ (¬ pageLive p ∨ p.tag ≠ tag ∨ s.badSlots.contains (addr / 65536)) := by
    rw [hlive, hbad]
    simp [htag]
  unfold onPage
  simp only [hat, if_neg hmine, if_neg hst]

/-- A MAP that finds its slots, whether it is placed or waits for room, leaves the command BUSY until its fill is done. -/
theorem mapCommand_of_slots {sz : Nat} {hint : BitVec 3}
    (h : (mapPage tag addr sz hint s).1 = some 0 ∨ (mapPage tag addr sz hint s).1 = none) :
    mapCommand tag addr sz hint s = setReg (mapPage tag addr sz hint s).2 (tierPage + 0x138) (packWord [(63, 1)]) := by
  unfold mapCommand
  generalize mapPage tag addr sz hint s = q at h
  obtain ⟨code, t⟩ := q
  obtain rfl | rfl := h <;> rfl

section
variable (hat : pageAt s (addr / 65536) = some (k, p)) (hlive : pageLive p = true) (htag : p.tag = tag)
  (hbad : s.badSlots.contains (addr / 65536) = false) (hrinse : p.st ≠ .rinsing)
include hat hlive htag hbad hrinse

/-- UNMAP empties a resident page that nothing holds or pins. -/
theorem unmapPage_of_resident (hholds : p.holds = 0) (hpin : p.hint ≠ 4) (hst : p.st = .resident) :
    unmapPage tag addr s = tierSettle (tierStatus 0 false (putPage (unclosePage k (dropCopy k s)) k Page.reset)) :=
  (onPage_of_live hat hlive htag hbad hrinse).trans (if_neg fun h => h.elim (· hholds) fun h => h.elim hpin (· hst))

/-- A HINT is kept with its page, and acts at once where no move of the page runs. -/
theorem hintPage_of_live {h : BitVec 3} (hh : h ≠ 7) :
    hintPage tag addr h s =
      let t := putPage (setReg s (tierPage + 0x138) (packWord [(63, 1)])) k { p with newHint := some h, hintCmd := true }
      if p.st ≠ .resident then t else tierSettle (hintDue k t) :=
  (onPage_of_live hat hlive htag hbad hrinse).trans (if_neg hh)

/-- PROMOTE of a page that can be held takes a hold and asks for the page's move. -/
theorem promotePage_of_hold (hhint : p.hint ≠ 5) (hhold : (takeHold k s).1 = true) :
    promotePage tag addr s = tierStatus 0 false (holdPromote k (ownStack k) true (takeHold k s).2) := by
  refine (onPage_of_live hat hlive htag hbad hrinse).trans ((if_neg hhint).trans ?_)
  generalize takeHold k s = q at hhold
  obtain ⟨held, t⟩ := q
  obtain rfl : held = true := hhold
  rfl

/-- RELEASE gives back a hold of a page that has one. -/
theorem releasePage_of_held (hholds : p.holds ≠ 0) : releasePage tag addr s = tierStatus 0 false (giveHold k s) :=
  (onPage_of_live hat hlive htag hbad hrinse).trans (if_neg hholds)

/-- EVICT meets a page that neither a PIN nor an open streaming hint protects. -/
theorem evictPage_of_unprotected (hpin : p.hint ≠ 4) (hopen : ¬ (p.hint = 6 ∧ p.closed = false)) :
    evictPage tag addr s = tierStatus 0 false (evictMeets k s) :=
  (onPage_of_live hat hlive htag hbad hrinse).trans (if_neg fun h => h.elim hpin fun h => hopen ⟨h.1, eq_false_of_ne_true h.2⟩)

end

/-! ### Hints (R278) -/

/-- A hint that its page can take completes the command that gave it. -/
theorem hintDue_of_taken {h : BitVec 3} {q : Option Nat × State} (hp : getPage s k = p) (hnew : p.newHint = some h) (hcmd : p.hintCmd = true)
    (hq : setHint k h (putPage s k { p with newHint := none }) = q) (hok : q.1 = some 0) :
    hintDue k s = tierStatus 0 false (putPage q.2 k { getPage q.2 k with hintCmd := false }) := by
  obtain ⟨code, t⟩ := q
  obtain rfl : code = some 0 := hok
  unfold hintDue
  simp only [hp, hnew, hq, if_pos hcmd]
  rfl

/-- A page that keeps a hint for a command reads back with it. -/
theorem getPage_putPage_hint (h : BitVec 3) :
    getPage (putPage s k { p with newHint := some h, hintCmd := true }) k = { p with newHint := some h, hintCmd := true } :=
  getPage_putPage_self s k _ (by simp [Page.reset])

/-! ### Moves (R284) -/

/-- A promotion whose source reads without error and whose route is whole commits: crema becomes the page's home, or holds its clean copy. -/
theorem moveCommit_of_promoting {f : BitVec 25} {e : Nat × State} (hp : getPage s k = p) (hdest : p.dest = some f) (hst : p.st = .promoting)
    (he : readEcc { p with copy := none } (f.toNat / 0x10_0000 % 4) (65536 * k) s = e) (hok : e.1 = 0) (hroute : moveCut e.2 p f = false) :
    moveCommit k s =
      moveEnd k (bump (putPage
        (clearFlips (65536 * k) (65536 * pageFrames p) (countCorrected (65536 * k) (65536 * pageFrames p) e.2)) k
        (if p.destCopy then { p with copy := some f, st := .resident, dest := none, destCopy := false }
         else { p with bulk := false, frame := f, st := .resident, dest := none, destCopy := false })) (tierPage + 0x800)) := by
  have hmoves : ¬ (p.st ≠ .promoting ∧ p.st ≠ .evicting) := fun h => h.1 hst
  have hlands : ¬ (e.1 ≠ 0 ∨ moveCut e.2 p f = true) := by simp [hok, hroute]
  unfold moveCommit
  simp only [hp]
  split
  case h_1 hnone => exact absurd (hnone.symm.trans hdest) (by simp)
  case h_2 f' hsome =>
    obtain rfl : f' = f := Option.some.inj (hsome.symm.trans hdest)
    rw [if_neg hmoves, he, if_neg hlands, if_pos hst]

/-! ### Queries (R276, R300) -/

/-- What TIER_QUERY shows: its status and the entry. -/
def queryShow (st e : Word) (s : State) : State := setReg (setReg s (tierPage + 0x148) st) (tierPage + 0x150) e

theorem tierQuery_of_live (hat : pageAt s (addr / 65536) = some (k, p)) (hlive : pageLive p = true)
    (hbad : s.badSlots.contains (addr / 65536) = false) :
    tierQuery addr s = queryShow (packWord [(62, 1), (61, b2n p.pendEv), (0, p.holds % 65536)]) (entryWord k (addr / 65536) p) s := by
  unfold tierQuery
  simp only [hat]
  exact if_pos (by rw [hlive, hbad]; rfl)

/-- A slot whose entry fails its CRC and one that no page covers read as invalid. -/
theorem tierQuery_of_invalid (h : s.badSlots.contains (addr / 65536) = true ∨ pageAt s (addr / 65536) = none) :
    tierQuery addr s = queryShow 0 0 s := by
  unfold tierQuery
  cases hat : pageAt s (addr / 65536) with
  | none => simp only [hat, queryShow]
  | some q =>
    have hbad : s.badSlots.contains (addr / 65536) = true := h.resolve_right (by simp [hat])
    simp only [hat, hbad, Bool.not_true, Bool.and_false, Bool.false_eq_true, if_false, queryShow]

/-! ### The promotion time-out (R280) -/

/-- With no collective in progress, the descriptor whose write waits fails, and the write's address is recorded. -/
theorem promoteTmo_of_waiting {c r : Nat} {d : Desc} {l : List Desc} {w : TWrite} {ws : List TWrite} (hflight : (getRing s c r).flight = d :: l)
    (hwaits : writesOf s (descOwner c r d.count) = w :: ws) (hcolls : s.colls = []) :
    promoteTmo c r s = descFail c r d.count 0x3007 0 false (tierFault 0x3007 w.addr s) := by
  have hfind : (getRing s c r).flight.find? (fun d => !(writesOf s (descOwner c r d.count)).isEmpty) = some d := by
    rw [hflight]
    exact List.find?_cons_of_pos (by simp [hwaits])
  unfold promoteTmo promoteTimeout
  simp only [hfind, hcolls, List.find?_nil, hwaits, List.head?_cons, Option.map_some, Option.getD_some]

end

/-- Settles O35: each command by the page that covers its address; a hint by whether a move of the page runs. -/
theorem tierCommands : Obligations.TierCommands := by
  intro tag addr s
  refine ⟨fun sz hint h => ?map, fun k p hat => ⟨fun hlive htag hbad hrinse => ⟨fun hholds hpin hst => ?unmap, fun h hh hst => ?hintKept,
    fun h hh hst hok => ?hintTaken, fun hhint hhold => ?promote, fun hholds => ?release, fun hpin hopen => ?evict⟩, fun hfill hst => ?filled,
    fun f hdest hst hp hok hroute => ?commit, fun hlive hbad => ?query, fun hbad => ?queryBad⟩, fun hat => ?queryFree⟩
  all_goals refine congrArg Host.Outcome.next ?_
  case map => exact mapCommand_of_slots h
  case unmap => exact unmapPage_of_resident hat hlive htag hbad hrinse hholds hpin hst
  case hintKept => exact (hintPage_of_live hat hlive htag hbad hrinse hh).trans (if_pos hst)
  case hintTaken =>
    exact (hintPage_of_live hat hlive htag hbad hrinse hh).trans ((if_neg (not_not_intro hst)).trans
      (congrArg tierSettle (hintDue_of_taken (getPage_putPage_hint h) rfl rfl rfl hok)))
  case promote => exact promotePage_of_hold hat hlive htag hbad hrinse hhint hhold
  case release => exact releasePage_of_held hat hlive htag hbad hrinse hholds
  case evict => exact evictPage_of_unprotected hat hlive htag hbad hrinse hpin hopen
  case filled => simp only [hat, hfill, hst, and_self, if_true]
  case commit => simp only [hat]; exact moveCommit_of_promoting hp hdest hst rfl hok hroute
  case query => exact tierQuery_of_live hat hlive hbad
  case queryBad => exact tierQuery_of_invalid (.inl hbad)
  case queryFree => exact tierQuery_of_invalid (.inr hat)

/-- Settles O36: ageing by the policy; the time-out by the descriptor whose write waits; a retry acts as its meaning is written. -/
theorem tierAgeing : Obligations.TierAgeing := by
  intro c ring s hc
  refine ⟨fun hen hperiod => ?age, fun d l w r hflight hwaits hcolls => ?timeout, ?retry⟩
  case age => exact congrArg Host.Outcome.next (if_pos ⟨hen, hperiod⟩)
  case timeout => exact (onUnit_of hc).trans (congrArg _ (promoteTmo_of_waiting hflight hwaits hcolls))
  case retry => exact onUnit_of hc

end Sys2Proof.Machine

/-! The rings of a DMA engine: doorbells, descriptor data, the commands of a ring, its configuration, and the waits of a claim or a FENCE (R169,
R288, R289, R292, R298, R368, R376). -/

namespace Sys2Proof.Machine

section
variable {c r : Nat} {s : State}

/-! ### Rings read back (R288) -/

/-- A ring that is not as reset reads back as it was written. -/
theorem getRing_putRing_self {v : Ring} (hv : v ≠ Ring.reset) : getRing (putRing s c r v) c r = v := by
  have hlisted : tblSet Ring.reset (getClu s c).rings r v ≠ [] := fun h => by
    have hread : tblGet Ring.reset (tblSet Ring.reset (getClu s c).rings r v) r = v := tblGet_tblSet_of_ne hv
    rw [h] at hread
    exact hv hread.symm
  have hclu : { getClu s c with rings := tblSet Ring.reset (getClu s c).rings r v } ≠ Cluster.reset := fun h =>
    hlisted (congrArg Cluster.rings h)
  unfold getRing putRing
  simp only [getClu_putClu_self _ _ _ hclu]
  exact tblGet_tblSet_of_ne hv

/-! ### Writes to a cluster's pages (R368, R376) -/

theorem cluCommand_of_refused {f : State → State} {u : State} (hc : c < 64) (hu : cluRefused s c = some u) : cluCommand c s f = .next u :=
  (cluCommand_eq hc).trans (by rw [hu, Option.getD_some])

theorem cluCommand_of_passed {f : State → State} (hc : c < 64) (hno : cluRefused s c = none) : cluCommand c s f = .next (f s) :=
  (cluCommand_eq hc).trans (by rw [hno, Option.getD_none])

/-! ### Doorbells and descriptor data (R169, R289) -/

/-- A doorbell advances PROD where the ring has room for its count, and is ignored and counted where it has none. -/
theorem ringBell_eq (n : BitVec 16) :
    ringBell c r n.toNat s =
      if ringSize (getRing s c r).cfg < ((getRing s c r).prod - (getRing s c r).cons).toNat + n.toNat then bump s (dmaBase c + 0x820)
      else putRing s c r { getRing s c r with prod := (getRing s c r).prod + n.setWidth 32 } := by
  rw [← BitVec.ofNat_toNat]
  rfl

/-- A word for a slot that holds no descriptor, within the carafe, is stored and moves the address on, or is refused by a bank that is not ON. -/
theorem descData_of_free {v a : Word} {g : Ring} {k : Nat} (ha : reg s (dmaBase c + 0x140) = a) (hg : getRing s c (wfld a 5 0) = g)
    (hk : wfld a 27 16 % ringSize g.cfg = k)
    (hfree : (g.prod - g.cons).toNat ≤ (k + ringSize g.cfg - descSlot g.cfg g.cons) % ringSize g.cfg)
    (hin : slotAt g.cfg k + 64 ≤ 0x180_0000) :
    descData c v s =
      if rowsOn s (.car c) (slotAt g.cfg k / 128) 1 = false then raiseClu (dmaBase c) c 0x2001 s
      else
        let word := (wfld a 10 8 + 1) % 8
        setReg (storeWrite s (.car c) (slotAt g.cfg k + 8 * wfld a 10 8) (leBytes 8 v.toNat)) (dmaBase c + 0x140)
          (wput (wput a 10 8 word) 27 16 (if word = 0 then (k + 1) % ringSize g.cfg else k)) := by
  have hopen : ¬ (decide ((k + ringSize g.cfg - descSlot g.cfg g.cons) % ringSize g.cfg < (g.prod - g.cons).toNat) = true ∨
      0x180_0000 < slotAt g.cfg k + 64) := by
    rw [decide_eq_true_eq]
    omega
  unfold descData
  simp only [ha, hg, hk, if_neg hopen, Bool.not_eq_true]

/-! ### Configurations (R288) -/

/-- The bits that a ring's configuration keeps of a word. -/
def cfgWord (v : Word) : Word := v &&& BitVec.ofNat 64 (bits 63 63 + bits 51 40 + bits 23 20 + bits 17 0)

/-- A disabled ring takes a configuration of a size that it can have, and enables only where it may. -/
theorem ringConfig_of_disabled {v : Word} (hsize : wfld (cfgWord v) 23 20 < 12) (hoff : wbit (getRing s c r).cfg 63 = false)
    (hen : wbit (cfgWord v) 63 = true → ringEnableOk s c r (cfgWord v) = true) :
    ringConfig c r v s = putRing s c r { getRing s c r with cfg := cfgWord v } :=
  (if_neg (Nat.not_le.mpr hsize)).trans ((if_neg (by simp [hoff])).trans (if_neg fun h => h.2 (hen h.1)))

/-- An enabled ring takes a configuration only to be disabled. -/
theorem ringConfig_of_enabled {v : Word} (hsize : wfld (cfgWord v) 23 20 < 12) (hon : wbit (getRing s c r).cfg 63 = true) :
    ringConfig c r v s =
      if wbit (cfgWord v) 63 then bump s (dmaBase c + 0x820) else putRing s c r { getRing s c r with cfg := cfgWord v } :=
  (if_neg (Nat.not_le.mpr hsize)).trans (if_pos hon)

/-! ### RESUME and SKIP (R298) -/

theorem ringResume_of_error (h : (getRing s c r).error = true) :
    ringResume c r s = putRing (ringRestart c r s) c r { getRing (ringRestart c r s) c r with error := false } := if_pos h

theorem ringSkip_of_error (h : (getRing s c r).error = true) :
    ringSkip c r s =
      putRing (ringRestart c r s) c r
        { getRing (ringRestart c r s) c r with error := false, cons := (getRing (ringRestart c r s) c r).cons + 1 } := if_pos h

/-- A ring with nothing in flight starts over as it is. -/
theorem ringRestart_of_idle (h : (getRing s c r).flight = []) : ringRestart c r s = putRing s c r (getRing s c r) := by
  unfold ringRestart
  simp only [h]
  exact congrArg (fun l => putRing s c r { getRing s c r with flight := l }) h.symm

/-! ### Waits (R292, R298) -/

section
variable {d : Desc} {l : List Desc} (hflight : (getRing s c r).flight = d :: l)
include hflight

/-- The wait bound fails the oldest descriptor where it is one that waits. -/
theorem ringTimeout_of_waiting (hwait : d.wait = .claim ∨ d.wait = .fence) :
    ringTimeout c r s = descFail c r d.count (if d.wait = .claim then 0x2003 else 0x300C) 0 false s := by
  have hfind : (getRing s c r).flight.find? (fun d => d.wait == .claim || d.wait == .fence) = some d := by
    rw [hflight]
    exact List.find?_cons_of_pos (by simpa using hwait)
  unfold ringTimeout
  rw [hfind]

/-- The only claim that waits is sent again, unless its answer is awaited. -/
theorem claimRetry_of_single {dev : Nat} (hwait : d.wait = .claim) (hrest : ∀ e ∈ l, e.wait ≠ .claim)
    (hno : s.awaited.any (fun a => a.owner == .ring c r d.count) = false) (hdev : copyDev s d.tag d.raw = some dev) :
    claimRetry c r s = copyClaim c r d.count d.raw dev s := by
  have hclaims : (getRing s c r).flight.filter (fun d => d.wait == .claim) = [d] := by
    rw [hflight, List.filter_cons_of_pos (by simp [hwait]), List.filter_eq_nil_iff.mpr (by simpa using hrest)]
  have hfound : findDesc s c r d.count = some d := by
    unfold findDesc
    rw [hflight]
    exact List.find?_cons_of_pos (by simp)
  have hagain : claimAgain c r d s = copyClaim c r d.count d.raw dev s := by
    unfold claimAgain
    rw [if_neg (by simp only [hno, hfound]; simp), hdev]
  unfold claimRetry
  rw [hclaims]
  exact hagain

end

end

/-- Settles O37: each command by whether the cluster's page lets it through, and then by the state of the ring. -/
theorem ringCommands : Obligations.RingCommands := by
  intro c ring s hc
  refine ⟨fun u n v hu => ?refused, fun hno => ?passed⟩
  case refused =>
    have hdrop {f : State → State} : cluCommand c s f = .next u := cluCommand_of_refused hc hu
    exact ⟨hdrop, hdrop, hdrop, hdrop, hdrop, hdrop⟩
  have hpass {f : State → State} {t : State} (h : f s = t) : cluCommand c s f = .next t := h ▸ cluCommand_of_passed hc hno
  refine ⟨fun n => ⟨fun hroom => ?bell, fun hfull => ?bellIgnored⟩, fun v hfree hin => ⟨fun hoff => ?dataRefused, fun hon => ?data⟩,
    fun herr => ⟨?resume, ?skip⟩, fun herr hidle => ?skipIdle, ?abort,
    fun v hsize => ⟨fun hoff hen => ?config, fun hon hdis => ?disable, fun hon hen => ?configIgnored⟩,
    fun d l hflight => ⟨fun hw => ?fenceTimeout, fun hw => ?claimTimeout, fun dev hw haw hdev hrest => ?retry⟩⟩
  case bell => exact hpass ((ringBell_eq n).trans (if_neg (Nat.not_lt.mpr hroom)))
  case bellIgnored => exact hpass ((ringBell_eq n).trans (if_pos hfull))
  case dataRefused => exact hpass ((descData_of_free rfl rfl rfl hfree hin).trans (if_pos hoff))
  case data => exact hpass ((descData_of_free rfl rfl rfl hfree hin).trans (if_neg (by rw [hon]; simp)))
  case resume => exact hpass (ringResume_of_error herr)
  case skip => exact hpass (ringSkip_of_error herr)
  case skipIdle =>
    have hne : getRing s c ring.toNat ≠ Ring.reset := fun h => by
      rw [h] at herr
      exact Bool.false_ne_true herr
    have hback : getRing (ringRestart c ring.toNat s) c ring.toNat = getRing s c ring.toNat := by
      rw [ringRestart_of_idle hidle, getRing_putRing_self hne]
    refine hpass ((ringSkip_of_error herr).trans ?_)
    rw [hback, ringRestart_of_idle hidle]
  case abort => exact hpass rfl
  case config => exact hpass (ringConfig_of_disabled hsize hoff hen)
  case disable => exact hpass ((ringConfig_of_enabled hsize hon).trans (if_neg (ne_true_of_eq_false hdis)))
  case configIgnored => exact hpass ((ringConfig_of_enabled hsize hon).trans (if_pos hen))
  case fenceTimeout => exact (onUnit_of hc).trans (congrArg _ ((ringTimeout_of_waiting hflight (.inr hw)).trans (by simp [hw])))
  case claimTimeout => exact (onUnit_of hc).trans (congrArg _ ((ringTimeout_of_waiting hflight (.inl hw)).trans (by simp [hw])))
  case retry => exact (onUnit_of hc).trans (congrArg _ (claimRetry_of_single hflight hw hrest haw hdev))

end Sys2Proof.Machine

/-! Descriptors: their starts, the completion of the oldest one, and the requester reads of the carafe (R111, R166, R290, R292, R294 to R297). -/

namespace Sys2Proof.Machine

section
variable {c r : Nat} {s : State}

/-! ### FENCE (R296) -/

/-- A FENCE without stray bits waits. -/
theorem fenceBody_of_clean {n : BitVec 32} {b : List Byte} (hlen : recF b 4 4 = 0) (hrest : (b.drop 16).all (· == 0) = true) :
    fenceBody c r n b s = descWait c r n .fence s := if_neg (by rw [hlen, hrest]; simp)

/-! ### Completion (R103, R111, R297) -/

/-- The end of a descriptor that loads no context leaves every context as it is. -/
theorem ctxLoadEnd_of_none {d : Desc} {failed : Bool} (h : ctxLoads c d.raw = []) : ctxLoadEnd c d failed s = s := by
  unfold ctxLoadEnd
  rw [h]
  exact ite_self s

/-- A ready descriptor with the DONE flag alone, not a walk, counts itself and its bytes and sets the ring's done bit. -/
theorem descComplete_of_done {d : Desc} {l : List Desc} (hflight : (getRing s c r).flight = d :: l) (hready : descReady s c r d = true)
    (hflags : recF d.raw 1 1 = 1) (hctx : ctxLoads c d.raw = []) (hop : d.op ≠ 2) :
    descComplete c r s = setDmaDone c r (addCtr (bump (putRing s c r { getRing s c r with flight := l, cons := (getRing s c r).cons + 1 })
      (dmaBase c + 0x800)) (dmaBase c + 0x808) d.bytes) := by
  unfold descComplete
  simp [hflight, hready, hflags, ctxLoadEnd_of_none hctx, hop, bit]

/-! ### Requester reads of the carafe (R166) -/

section
variable {cupping : Bool} {ring row : Nat} (hon : bankOn s (.car c) (storeBank (.car c) row) = true)
include hon

/-- A read whose bank is free and whose turn it is returns the row. -/
theorem carafeReturn_of_free (hblk : reqBlocked s c (storeBank (.car c) row) = false) (hecc : (carEcc c s).1 = false)
    (hturn : ¬ ((getClu s c).rrLast = cupping ∧ (getClu s c).reqWait.contains (!cupping, storeBank (.car c) row) = true)) :
    carafeReturn c cupping ring row s =
      let t := reqTake c [storeBank (.car c) row] s
      putClu t c { getClu t c with
        reqData := tblSet 0 (getClu t c).reqData (if cupping then 64 else ring)
          (BitVec.ofNat 1024 (leNat (storeRead s (.car c) (128 * row) 128))), rrLast := cupping,
        reqWait := (getClu t c).reqWait.filter (· != (cupping, storeBank (.car c) row)) } := by
  have hgo : ¬ (reqBlocked s c (storeBank (.car c) row) = true ∨
      ((getClu s c).rrLast = cupping ∧ (getClu s c).reqWait.contains (!cupping, storeBank (.car c) row) = true)) := by
    rw [hblk]
    exact fun h => h.elim Bool.false_ne_true hturn
  unfold carafeReturn
  simp only [hon, not_true_eq_false, if_false, if_neg hgo, hecc, Bool.false_eq_true]

/-- A read whose bank is not free waits a cycle, among those that wait for the bank, and counts it. -/
theorem carafeReturn_of_blocked (hblk : reqBlocked s c (storeBank (.car c) row) = true) :
    carafeReturn c cupping ring row s =
      bump (putClu s c { getClu s c with
        reqWait := if (getClu s c).reqWait.contains (cupping, storeBank (.car c) row) then (getClu s c).reqWait
          else (getClu s c).reqWait ++ [(cupping, storeBank (.car c) row)] }) (carafeBase c + 0x820) := by
  unfold carafeReturn
  simp only [hon, not_true_eq_false, if_false, hblk, true_or, if_true]

end

end

/-- Settles O38: a start by the sound descriptor that it accepts, a completion by its flags, a requester read by whether its bank is free. -/
theorem descriptorStarts : Obligations.DescriptorStarts := by
  intro c ring s hc
  refine ⟨fun n hstart => ?start, fun d l hflight hready hflags hctx hop => ?complete, fun cupping row hrow hon => ?read⟩
  case start =>
    have hrun {mine : List Byte → Bool} {act : Nat → Nat → BitVec 32 → List Byte → State → State}
        (hmine : mine (descBytes s c ring.toNat n) = true)
        (hfree : recF (descBytes s c ring.toNat n) 0 1 % 16 = 4 → (getRing s c ring.toNat).flight = []) :
        onCluster c s (descStart mine act c ring.toNat) =
          .next (act c ring.toNat n (descBytes s c ring.toNat n) (withDesc s c ring.toNat n (descBytes s c ring.toNat n))) :=
      (onUnit_of hc).trans (congrArg _ (descStart_of_startsWith hstart hmine hfree))
    refine ⟨fun hop => hrun (beq_iff_eq.mpr hop) (by simp [hop]), fun hop => hrun (beq_iff_eq.mpr hop) (by simp [hop]),
      fun hop hidle => hrun (beq_iff_eq.mpr hop) fun _ => hidle, fun hop hlen hrest => ?_⟩
    rw [← fenceBody_of_clean hlen hrest]
    exact hrun (beq_iff_eq.mpr hop) (by simp [hop])
  case complete => exact (onUnit_of hc).trans (congrArg _ (descComplete_of_done hflight hready hflags hctx hop))
  case read =>
    have hact {t : State} (h : carafeReturn c cupping ring.toNat row s = t) : exec (.carafeReadReturn c cupping ring row) s = .next t :=
      h ▸ onUnit_of ⟨hc, hrow⟩
    refine ⟨fun hblk hecc hturn => hact (carafeReturn_of_free hon hblk hecc hturn), fun hblk hwaits => ?_, fun hblk hnew => ?_⟩
    all_goals refine hact ((carafeReturn_of_blocked hon hblk).trans ?_)
    · rw [if_pos hwaits]
    · rw [if_neg (by rw [hnew]; exact Bool.false_ne_true)]

end Sys2Proof.Machine

/-! The bytes of collective messages: little-endian numbers, fields of a record, packed bits, and the layout of log 24 (R4, R65, R322 to R331). -/

namespace Sys2Proof.Machine

/-! ### Little-endian numbers (R4) -/

@[simp] theorem leBytes_length (n v : Nat) : (leBytes n v).length = n := by
  induction n generalizing v with
  | zero => rfl
  | succ n ih => rw [leBytes, List.length_cons, ih]

/-- The bytes of a number spell it, up to what its width cuts off. -/
theorem leNat_leBytes (n v : Nat) : leNat (leBytes n v) = v % 256 ^ n := by
  induction n generalizing v with
  | zero => rw [Nat.pow_zero, Nat.mod_one]; rfl
  | succ n ih =>
    rw [leBytes, leNat, ih, BitVec.toNat_ofNat, Nat.pow_succ' (m := 256) (n := n)]
    exact (Nat.mod_mul).symm

/-! ### Fields of a record -/

/-- A field that lies in the first part of a record. -/
theorem recF_append_left {a b : List Byte} {off n : Nat} (h : off + n ≤ a.length) : recF (a ++ b) off n = recF a off n := by
  unfold recF
  rw [List.drop_append_of_le_length (by omega), List.take_append_of_le_length (by rw [List.length_drop]; omega)]

/-- A field that lies after a part of a record. -/
theorem recF_append_right {a b : List Byte} {off n : Nat} (h : a.length ≤ off) : recF (a ++ b) off n = recF b (off - a.length) n := by
  unfold recF
  rw [List.drop_append, List.drop_eq_nil_of_le h, List.nil_append]

theorem recF_leBytes_skip {k v off n : Nat} {b : List Byte} (h : k ≤ off) : recF (leBytes k v ++ b) off n = recF b (off - k) n := by
  rw [recF_append_right (by rwa [leBytes_length]), leBytes_length]

theorem recF_leBytes_self {n v : Nat} {b : List Byte} (h : v < 256 ^ n) : recF (leBytes n v ++ b) 0 n = v := by
  rw [recF_append_left (Nat.le_of_eq ((Nat.zero_add n).trans (leBytes_length n v).symm)), recF, List.drop_zero, List.take_of_length_le (Nat.le_of_eq (leBytes_length n v)), leNat_leBytes,
    Nat.mod_eq_of_lt h]

/-! ### Packed bits (R65) -/

/-- The number whose bits a list gives, lowest first. -/
def bitsNat : List Bool → Nat
  | [] => 0
  | b :: r => b2n b + 2 * bitsNat r

theorem b2n_lt (b : Bool) : b2n b < 2 := by cases b <;> decide

theorem bitsNat_lt (l : List Bool) : bitsNat l < 2 ^ l.length := by
  induction l with
  | nil => exact Nat.one_pos
  | cons b r ih =>
    have hb := b2n_lt b
    rw [bitsNat, List.length_cons, Nat.pow_succ']
    omega

theorem bitsNat_append (a b : List Bool) : bitsNat (a ++ b) = bitsNat a + 2 ^ a.length * bitsNat b := by
  induction a with
  | nil => rw [List.nil_append, bitsNat, List.length_nil, Nat.pow_zero, Nat.zero_add, Nat.one_mul]
  | cons x r ih =>
    rw [List.cons_append, bitsNat, bitsNat, ih, List.length_cons, Nat.pow_succ', Nat.mul_assoc, Nat.mul_add, Nat.add_assoc]

/-- Bit i of the number is element i of the list. -/
theorem bit_bitsNat {l : List Bool} {i : Nat} (h : i < l.length) : bit (bitsNat l) i = l[i] := by
  induction l generalizing i with
  | nil => exact absurd h (Nat.not_lt_zero i)
  | cons b r ih =>
    have hb := b2n_lt b
    cases i with
    | zero =>
      have hlow : (b2n b + 2 * bitsNat r) % 2 = b2n b := by omega
      rw [List.getElem_cons_zero, bitsNat, bit, Nat.pow_zero, Nat.div_one, hlow]
      cases b <;> rfl
    | succ i =>
      have hhigh : (b2n b + 2 * bitsNat r) / 2 = bitsNat r := by omega
      rw [List.getElem_cons_succ, ← ih (Nat.lt_of_succ_lt_succ h), bitsNat, bit, bit, Nat.pow_succ', ← Nat.div_div_eq_div_mul, hhigh]

/-- The sum that `maskBytes` takes of a byte's bits, from a position on. -/
theorem foldl_bits_eq (l : List Bool) (k a : Nat) :
    (l.zipIdx k).foldl (fun a p => a + b2n p.1 * 2 ^ p.2) a = a + 2 ^ k * bitsNat l := by
  induction l generalizing k a with
  | nil => rfl
  | cons b r ih =>
    rw [List.zipIdx_cons, List.foldl_cons, ih, bitsNat, Nat.pow_succ, Nat.mul_add, Nat.mul_comm (b2n b), Nat.mul_assoc, Nat.add_assoc]

theorem bitsNat_take_lt (n : Nat) (l : List Bool) : bitsNat (l.take n) < 2 ^ n :=
  Nat.lt_of_lt_of_le (bitsNat_lt _) (Nat.pow_le_pow_right (by decide) (List.length_take_le n l))

/-- The number of a list of bits, cut after its first n bits. -/
theorem bitsNat_split (n : Nat) (l : List Bool) : bitsNat l = bitsNat (l.take n) + 2 ^ n * bitsNat (l.drop n) := by
  induction n generalizing l with
  | zero => rw [List.take_zero, List.drop_zero, bitsNat, Nat.pow_zero, Nat.one_mul, Nat.zero_add]
  | succ n ih =>
    cases l with
    | nil => rw [List.take_nil, List.drop_nil, bitsNat, Nat.mul_zero]
    | cons b r =>
      rw [List.take_succ_cons, List.drop_succ_cons, bitsNat, bitsNat, ih r, Nat.pow_succ', Nat.mul_add, Nat.mul_assoc, Nat.add_assoc]

/-- The bytes of a list of bits, cut into n bytes, spell their number. -/
theorem leNat_chunks_bits (n : Nat) (l : List Bool) (h : l.length ≤ 8 * n) :
    leNat ((chunksOf 8 n l).map (fun c => BitVec.ofNat 8 (c.zipIdx.foldl (fun a p => a + b2n p.1 * 2 ^ p.2) 0))) = bitsNat l := by
  induction n generalizing l with
  | zero =>
    obtain rfl : l = [] := List.eq_nil_of_length_eq_zero (Nat.le_zero.mp h)
    rfl
  | succ n ih =>
    cases l with
    | nil => rfl
    | cons b r =>
      have hchunks : chunksOf 8 (n + 1) (b :: r) = (b :: r).take 8 :: chunksOf 8 n ((b :: r).drop 8) := rfl
      have hrest : ((b :: r).drop 8).length ≤ 8 * n := by rw [List.length_drop]; omega
      have hsplit : bitsNat (b :: r) = bitsNat ((b :: r).take 8) + 256 * bitsNat ((b :: r).drop 8) := bitsNat_split 8 (b :: r)
      rw [hchunks, List.map_cons, leNat, ih _ hrest, foldl_bits_eq, BitVec.toNat_ofNat, Nat.pow_zero, Nat.one_mul, Nat.zero_add,
        Nat.mod_eq_of_lt (bitsNat_take_lt 8 (b :: r)), hsplit]

theorem chunksOf_length {α : Type} {k n : Nat} {l : List α} (hlo : k * n < l.length + k) (hhi : l.length ≤ k * n) :
    (chunksOf k n l).length = n := by
  induction n generalizing l with
  | zero => rfl
  | succ n ih =>
    rw [Nat.mul_succ] at hlo hhi
    cases l with
    | nil => exact absurd hlo (by rw [List.length_nil]; omega)
    | cons a r =>
      have hchunks : chunksOf k (n + 1) (a :: r) = (a :: r).take k :: chunksOf k n ((a :: r).drop k) := rfl
      rw [hchunks, List.length_cons]
      exact congrArg (· + 1) (ih (by rw [List.length_drop]; omega) (by rw [List.length_drop]; omega))

theorem maskBytes_length (l : List Bool) : (maskBytes l).length = ceilDiv l.length 8 := by
  rw [maskBytes, List.length_map, chunksOf_length] <;> unfold ceilDiv <;> omega

/-- Packed bits read back. -/
theorem bits_maskBytes (l : List Bool) : (List.range l.length).map (fun i => bit (leNat (maskBytes l)) i) = l := by
  have hnum : leNat (maskBytes l) = bitsNat l := leNat_chunks_bits _ l (by unfold ceilDiv; omega)
  refine List.ext_getElem (by simp) fun i hi hl => ?_
  rw [List.getElem_map, List.getElem_range, hnum, bit_bitsNat hl]

/-! ### Sums of squares (R327) -/

theorem sumsBytes_length (l : List (BitVec 64)) : (l.flatMap (fun x => leBytes 8 x.toNat)).length = 8 * l.length := by
  induction l with
  | nil => rfl
  | cons x r ih => rw [List.flatMap_cons, List.length_append, ih, leBytes_length, List.length_cons, Nat.mul_succ, Nat.add_comm]

/-- Words of 8 bytes read back. -/
theorem words_flatMap_leBytes (l : List (BitVec 64)) :
    (chunksOf 8 l.length (l.flatMap (fun x => leBytes 8 x.toNat))).map (fun c => BitVec.ofNat 64 (leNat c)) = l := by
  induction l with
  | nil => rfl
  | cons x r ih =>
    have hlen : (leBytes 8 x.toNat).length = 8 := leBytes_length 8 _
    have hword : leNat (leBytes 8 x.toNat) = x.toNat := (leNat_leBytes 8 _).trans (Nat.mod_eq_of_lt x.isLt)
    rw [List.flatMap_cons, List.length_cons, chunksOf, if_neg (by simp [leBytes]), List.take_left' hlen, List.drop_left' hlen, List.map_cons, ih,
      hword, BitVec.ofNat_toNat, BitVec.setWidth_eq]

/-! ### Collective messages (log 24) -/

/-- The number that stands for a kind. -/
def collCode : CollKind → Nat
  | .ready => 0
  | .data => 1
  | .done => 2
  | .finish => 3
  | .abort => 4
  | .release => 5

/-- The flags of a message: GATHER, the veto, and whether it has an origin. -/
def collFlags (d : CollData) : Nat := b2n d.gather + 2 * b2n d.veto + 4 * b2n d.origin.isSome

/-- The 64 bytes before the data. -/
def collHead (k : CollKind) (d : CollData) : List Byte :=
  leBytes 1 (collCode k) ++ (leBytes 1 d.group ++ (leBytes 1 (collFlags d) ++ (leBytes 1 d.attempt ++ (leBytes 4 d.collId ++ (leBytes 4 d.rank ++
    (leBytes 4 d.piece ++ (leBytes 4 d.node ++ (leBytes 4 d.version.toNat ++ (leBytes 2 d.status.toNat ++ (leBytes 2 (d.origin.getD (0, 0)).1 ++
    (leBytes 4 (d.origin.getD (0, 0)).2 ++ (leBytes 4 d.digest.toNat ++ (leBytes 4 d.shard.toNat ++ (leBytes 6 d.step.toNat ++
    (leBytes 4 d.poison.length ++ (leBytes 4 d.sumsq.length ++ leBytes 10 0))))))))))))))))

theorem collHead_length (k : CollKind) (d : CollData) : (collHead k d).length = 64 := by
  simp only [collHead, List.length_append, leBytes_length]

theorem collEncode_eq (k : CollKind) (d : CollData) :
    collEncode k d = collHead k d ++ (d.data ++ (maskBytes d.poison ++ d.sumsq.flatMap (fun x => leBytes 8 x.toNat))) := by
  unfold collEncode collHead
  cases k <;> simp only [List.append_assoc] <;> rfl

theorem collEncode_length (k : CollKind) (d : CollData) :
    (collEncode k d).length = 64 + (d.data.length + (ceilDiv d.poison.length 8 + 8 * d.sumsq.length)) := by
  rw [collEncode_eq, List.length_append, List.length_append, List.length_append, collHead_length, maskBytes_length, sumsBytes_length]

/-- A field of the header is read from the header alone. -/
theorem recF_collEncode {off n : Nat} (k : CollKind) (d : CollData) (h : off + n ≤ 64) :
    recF (collEncode k d) off n = recF (collHead k d) off n := by
  rw [collEncode_eq, recF_append_left (Nat.le_trans h (Nat.le_of_eq (collHead_length k d).symm))]

/-- The bounds of a message's fields, one for each (R322, R324, R325). -/
theorem collFits_iff {d : CollData} :
    collFits d = true ↔ (d.group < 2 ^ 8 ∧ d.attempt < 2 ^ 8 ∧ d.collId < 2 ^ 32 ∧ d.rank < 2 ^ 32 ∧ d.piece < 2 ^ 32 ∧ d.node < 2 ^ 32 ∧
      d.poison.length < 2 ^ 32 ∧ d.sumsq.length < 2 ^ 32) ∧ ∀ o, d.origin = some o → o.1 < 2 ^ 16 ∧ o.2 < 2 ^ 32 := by
  unfold collFits
  cases d.origin <;> simp

/-- The origin's numbers, zero where there is none, fit their fields. -/
theorem origin_lt {d : CollData} (h : ∀ o, d.origin = some o → o.1 < 2 ^ 16 ∧ o.2 < 2 ^ 32) :
    (d.origin.getD (0, 0)).1 < 2 ^ 16 ∧ (d.origin.getD (0, 0)).2 < 2 ^ 32 := by
  cases ho : d.origin with
  | none => decide
  | some o => exact h o ho

theorem collCode_lt (k : CollKind) : collCode k < 256 ^ 1 := by cases k <;> decide

theorem collFlags_lt (d : CollData) : collFlags d < 256 ^ 1 := by
  have hg := b2n_lt d.gather
  have hv := b2n_lt d.veto
  have ho := b2n_lt d.origin.isSome
  unfold collFlags
  omega

/-- Three flags in a number, each its bit. -/
theorem bit_flags (a b c : Bool) :
    bit (b2n a + 2 * b2n b + 4 * b2n c) 0 = a ∧ bit (b2n a + 2 * b2n b + 4 * b2n c) 1 = b ∧ bit (b2n a + 2 * b2n b + 4 * b2n c) 2 = c := by
  cases a <;> cases b <;> cases c <;> decide

section
variable {k : CollKind} {d : CollData}

/-- Each field of the header reads back. -/
theorem collHead_fields (hd : collFits d = true) :
    (recF (collHead k d) 0 1 = collCode k ∧ recF (collHead k d) 1 1 = d.group ∧ recF (collHead k d) 2 1 = collFlags d ∧
      recF (collHead k d) 3 1 = d.attempt ∧ recF (collHead k d) 4 4 = d.collId ∧ recF (collHead k d) 8 4 = d.rank ∧
      recF (collHead k d) 12 4 = d.piece ∧ recF (collHead k d) 16 4 = d.node ∧ recF (collHead k d) 20 4 = d.version.toNat) ∧
    recF (collHead k d) 24 2 = d.status.toNat ∧ recF (collHead k d) 26 2 = (d.origin.getD (0, 0)).1 ∧
      recF (collHead k d) 28 4 = (d.origin.getD (0, 0)).2 ∧ recF (collHead k d) 32 4 = d.digest.toNat ∧
      recF (collHead k d) 36 4 = d.shard.toNat ∧ recF (collHead k d) 40 6 = d.step.toNat ∧ recF (collHead k d) 46 4 = d.poison.length ∧
      recF (collHead k d) 50 4 = d.sumsq.length := by
  obtain ⟨⟨hgroup, hattempt, hid, hrank, hpiece, hnode, hpoison, hsums⟩, horigin⟩ := collFits_iff.mp hd
  obtain ⟨hdev, hblk⟩ := origin_lt horigin
  have hcode := collCode_lt k
  have hflags := collFlags_lt d
  have hversion := d.version.isLt
  have hstatus := d.status.isLt
  have hdigest := d.digest.isLt
  have hshard : d.shard.toNat < 2 ^ 32 := Nat.lt_trans d.shard.isLt (by decide)
  have hstep := d.step.isLt
  unfold collHead
  simp (disch := omega) only [recF_leBytes_skip, Nat.reduceSub, recF_leBytes_self, and_self]

/-- An origin as its flag and its two numbers give it. -/
theorem origin_of_flag (o : Option (Nat × Nat)) : (if o.isSome = true then some ((o.getD (0, 0)).1, (o.getD (0, 0)).2) else none) = o := by
  cases o <;> rfl

/-- What follows the header: the data, the packed poison bits and the sums, each of the length that the header gives. -/
theorem collEncode_tail (k : CollKind) (d : CollData) :
    (collEncode k d).drop 64 = d.data ++ (maskBytes d.poison ++ d.sumsq.flatMap (fun x => leBytes 8 x.toNat)) := by
  rw [collEncode_eq, List.drop_left' (collHead_length k d)]

theorem collEncode_data (k : CollKind) (d : CollData) : ((collEncode k d).drop 64).take d.data.length = d.data := by
  rw [collEncode_tail, List.take_left' rfl]

theorem collEncode_bits (k : CollKind) (d : CollData) :
    ((collEncode k d).drop (64 + d.data.length)).take (ceilDiv d.poison.length 8) = maskBytes d.poison := by
  rw [← List.drop_drop, collEncode_tail, List.drop_left' rfl, List.take_left' (maskBytes_length _)]

theorem collEncode_sums (k : CollKind) (d : CollData) :
    (collEncode k d).drop (64 + d.data.length + ceilDiv d.poison.length 8) = d.sumsq.flatMap (fun x => leBytes 8 x.toNat) := by
  rw [← List.drop_drop, ← List.drop_drop, collEncode_tail, List.drop_left' rfl, List.drop_left' (maskBytes_length _)]

end

/-- Settles O12: each field of the header reads back, and the header's counts cut what follows it into the three lists. -/
theorem collectiveDecodeEncode : Obligations.CollectiveDecodeEncode := by
  intro k d hd
  obtain ⟨⟨hcode, hgroup, hflags, hattempt, hid, hrank, hpiece, hnode, hversion⟩, hstatus, hdev, hblk, hdigest, hshard, hstep, hnp, hns⟩ :=
    collHead_fields (k := k) hd
  have hlen : (collEncode k d).length - 64 - ceilDiv d.poison.length 8 - 8 * d.sumsq.length = d.data.length := by
    rw [collEncode_length]
    omega
  obtain ⟨hgather, hveto, horigin⟩ := bit_flags d.gather d.veto d.origin.isSome
  unfold collDecode
  simp (disch := decide) only [recF_collEncode, hcode, hgroup, hflags, hattempt, hid, hrank, hpiece, hnode, hversion, hstatus, hdev, hblk, hdigest,
    hshard, hstep, hnp, hns, hlen, collEncode_data, collEncode_bits, collEncode_sums, words_flatMap_leBytes, bits_maskBytes, collFlags, hgather,
    hveto, horigin, origin_of_flag, BitVec.ofNat_toNat, BitVec.setWidth_eq]
  cases k <;> rfl

end Sys2Proof.Machine

/-! Messages of the fabric: admission, what an admitted message does, and the answers and time-outs of a sequence (R312 to R318, R323, R324,
R329, R331, R332). -/

namespace Sys2Proof.Machine

section
variable {m : Msg} {s : State}

/-! ### Admission (R315 to R317, R332) -/

/-- A message whose header fits its fields does what its meaning says. -/
theorem onMsg_of_fits (h : msgFits m = true) (f : State → State) : onMsg m s f = .next (f s) := if_pos h

/-- A synchronised sequence takes the message that it expects, where the module is ready for it. -/
theorem seqGate_of_expected {r : RxSeq} {p : BitVec 32} {fseq : BitVec 16} (hsync : r.synced = true) (hgap : r.gapSent = false)
    (hpsn : p = r.expected) (hfseq : fseq = r.fseq) (hnr : r.nrPsn = none) : seqGate r true (some p) fseq true = .take := by
  subst hpsn hfseq
  simp [seqGate, hsync, hgap, hnr, psnBelow]

/-- An admitted message passes its sequence and is performed. -/
theorem msgArrive_of_admits (h : admits s m) : msgArrive m s = performMsg (unitHub s m.shub m) m (admitted s m) := by
  obtain ⟨-, hdst, hsync, hepoch, hgap, hpsn, hfseq, hnr, hready⟩ := h
  have hmine : ¬ (addrValid s = true ∧ m.dst ≠ ownAddr s) := fun h => h.2 (hdst h.1)
  unfold msgArrive
  rw [if_neg hmine]
  simp only [hepoch, beq_self_eq_true, hready, seqGate_of_expected hsync hgap hpsn hfseq hnr]
  rfl

/-- A receive sequence that is synchronised reads back as it was written. -/
theorem getRx_putRx_of_synced {src shub cls : Nat} {r : RxSeq} (h : r.synced = true) :
    getRx (putRx s src shub cls r) src shub cls = r :=
  tblGet_tblSet_of_ne fun he => Bool.false_ne_true ((congrArg RxSeq.synced he).symm.trans h)

/-- The sequence of an admitted message has passed it (R315). -/
theorem getRx_admitted (h : admits s m) :
    getRx (admitted s m) m.src m.shub m.cls =
      { getRx s m.src m.shub m.cls with
        expected := m.psn + 1, fseq := m.fseq + BitVec.ofNat 16 (flitCount m.data.length), nrPsn := none, asm := [], winMsg := none } := by
  obtain ⟨-, -, hsync, -⟩ := h
  exact getRx_putRx_of_synced (s := s) hsync

end

/-- Settles O40: an admitted message is performed; a response is one whose meaning answers and looks for its request. -/
theorem requestMessages : Obligations.RequestMessages := by
  intro m s hfits
  refine ⟨?request, ?response, fun m' h => ?advance⟩
  case request =>
    simp only [List.forall_mem_cons, List.not_mem_nil, false_implies, implies_true, and_true]
    refine ⟨fun h => ?_, fun h => ?_, fun h => ?_, fun h => ?_, fun h => ?_⟩
    all_goals exact (onMsg_of_fits hfits _).trans (congrArg _ (msgArrive_of_admits h))
  case response =>
    simp only [List.forall_mem_cons, List.not_mem_nil, false_implies, implies_true, and_true]
    refine ⟨fun h => ?_, fun h => ?_⟩
    all_goals exact (onMsg_of_fits hfits _).trans (congrArg _ (msgArrive_of_admits h))
  case advance => rw [getRx_admitted h]; exact ⟨rfl, rfl⟩

/-- Settles O41: an admitted collective message is acknowledged and reaches the collective that its bytes name. -/
theorem collectiveMessages : Obligations.CollectiveMessages := by
  intro m d s hfits
  simp only [List.forall_mem_cons, List.not_mem_nil, false_implies, implies_true, and_true]
  refine ⟨fun h => ?_, fun h => ?_, fun h => ?_, fun h => ?_, fun h => ?_, fun h => ?_⟩
  all_goals exact (onMsg_of_fits hfits _).trans (congrArg _ (msgArrive_of_admits h))

section
variable {m : Msg} {s : State}

/-! ### Answers (R316, R317, R332) -/

/-- NOT_READY of a held message puts its sequence back to it, where no earlier one has done so. -/
theorem notReadyArrive_of_held {t : TxSeq} (ht : getTx s (ctlHub m) m.src (ctlCls m) = t) (hsync : t.synced = true) (hepoch : m.epoch = t.epoch)
    (hheld : txHolds s (ctlHub m) m.src (ctlCls m) (refPsn m) = true) (hnr : t.nrPsn = none) :
    notReadyArrive m s =
      putTx s (ctlHub m) m.src (ctlCls m) { t with nrPsn := some (refPsn m), nrWait := true, emit := refPsn m } := by
  simp [notReadyArrive, ht, hsync, hepoch, hheld, hnr]

theorem gapArrive_of_epoch {t : TxSeq} (ht : getTx s (ctlHub m) m.src (ctlCls m) = t) (hsync : t.synced = true)
    (hepoch : m.epoch.setWidth 8 = t.epoch.setWidth 8) : gapArrive m s = txResync (ctlHub m) m.src (ctlCls m) s := by
  subst ht
  exact if_pos ⟨hsync, hepoch⟩

/-- RESYNC_RESP of a sequence that holds nothing below EXPECTED lets it go on from there. -/
theorem resyncRespArrive_of_empty {t : TxSeq} (ht : getTx s (ctlHub m) m.src (ctlCls m) = t) (hsync : t.syncing = true)
    (hepoch : m.epoch = t.epoch) (hheld : t.held = []) :
    resyncRespArrive m s =
      txPump (ctlHub m) m.src (ctlCls m) (putTx s (ctlHub m) m.src (ctlCls m) { t with
        syncing := false, synced := true, tries := 0, emit := refPsn m, psn := if psnBelow t.psn (refPsn m) then refPsn m else t.psn }) := by
  have hmine : ¬ (¬ t.syncing = true ∨ m.epoch ≠ t.epoch) := by simp [hsync, hepoch]
  unfold resyncRespArrive
  simp only [ht, if_neg hmine, hheld]
  rfl

/-! ### Retries and time-outs (R317, R318, R332) -/

section
variable {hub dst cls : Nat} {t : TxSeq} (ht : getTx s hub dst cls = t)
include ht

theorem nrRetry_of_waiting (hwait : t.nrWait = true) : nrRetry hub dst cls s = txPump hub dst cls (putTx s hub dst cls { t with nrWait := false }) := by
  subst ht
  exact if_pos hwait

theorem ackTimeout_of_held (hsync : t.synced = true) (hheld : t.held ≠ []) : ackTimeout hub dst cls s = txResync hub dst cls s := by
  subst ht
  exact if_pos ⟨hsync, hheld⟩

/-- A RESYNC is repeated up to four times. -/
theorem resyncTimeout_of_syncing (hsync : t.syncing = true) :
    resyncTimeout hub dst cls s =
      if t.tries < 4 then txResyncSend hub dst cls (putTx s hub dst cls { t with tries := t.tries + 1 })
      else forAll (t.held.map (·.psn)) (putTx s hub dst cls { t with unreach := true, syncing := false, tries := 0 })
        (msgFailed linkDown hub dst cls) := by
  subst ht
  exact if_neg (not_not_intro hsync)

theorem nrTimeout_of_waiting {p : BitVec 32} (hp : t.nrPsn = some p) :
    nrTimeout hub dst cls s =
      (let s1 := msgFailed 0x5002 hub dst cls p s
       txResync hub dst cls (putTx s1 hub dst cls { getTx s1 hub dst cls with floor := p + 1 })) := by
  subst ht
  unfold nrTimeout
  rw [hp]

end

/-- The answer to a RESYNC leaves once the rows of its sequence have landed. -/
theorem resyncAnswer_of_landed {src shub cls : Nat} {r : RxSeq} (hr : getRx s src shub cls = r) (hdue : r.respDue = true)
    (hland : rxWaits s src shub cls = false) (haddr : addrValid s = true) :
    resyncAnswer src shub cls s =
      (let s1 := putRx s src shub cls { r with respDue := false }
       let m := ctlMsg s1 0x26 shub src shub cls r.epoch r.expected.toNat (refusedBits r)
       emitMsg { m with src := ownAddr s } s1) := by
  subst hr
  have haddr' : addrValid (putRx s src shub cls { getRx s src shub cls with respDue := false }) = true := haddr
  unfold resyncAnswer
  rw [if_neg (by simp [hdue, hland])]
  simp only [haddr', if_true]
  rfl

end

/-- Settles O42: each answer and time-out by the state of the sequence that it names. -/
theorem answerMessages : Obligations.AnswerMessages := by
  refine ⟨fun m s hfits => ?_, fun hub dst cls s => ?_⟩
  · have hmsg {f : State → State} {t : State} (h : f s = t) : onMsg m s f = .next t := h ▸ onMsg_of_fits hfits f
    exact ⟨hmsg rfl, hmsg rfl, fun hsync hepoch hheld hnr => hmsg (notReadyArrive_of_held rfl hsync hepoch hheld hnr),
      fun hsync hepoch => hmsg (gapArrive_of_epoch rfl hsync hepoch), hmsg rfl,
      fun hsync hepoch hheld => hmsg (resyncRespArrive_of_empty rfl hsync hepoch hheld)⟩
  · refine ⟨fun hwait => ?retry, fun hsync hheld => ?ackTimeout, fun hsync hfew => ?again, fun hsync hmany => ?unreachable, fun p hp => ?abandoned,
      fun hdue hland haddr => ?answer⟩
    all_goals refine congrArg Host.Outcome.next ?_
    case retry => exact nrRetry_of_waiting rfl hwait
    case ackTimeout => exact ackTimeout_of_held rfl hsync hheld
    case again => exact (resyncTimeout_of_syncing rfl hsync).trans (if_pos hfew)
    case unreachable => exact (resyncTimeout_of_syncing rfl hsync).trans (if_neg (Nat.not_lt.mpr hmany))
    case abandoned => exact nrTimeout_of_waiting rfl hp
    case answer => exact resyncAnswer_of_landed rfl hdue hland haddr

end Sys2Proof.Machine

/-! COLLECTIVE descriptors: their starts, the collectives of RELEASE and CLOSE, and the READY time-out (R290, R320, R322, R323, R331). -/

namespace Sys2Proof.Machine

section
variable {c r : Nat} {n : BitVec 32} {b : List Byte} {s : State}

/-! ### Starts (R290, R322) -/

/-- A COLLECTIVE descriptor of the COP that the start accepts is put in flight and its body runs, where the hub's engine is enabled. -/
theorem collStart_of_startsWith {cop : Nat} (hstart : startsWith s c r n) (hen : blkEn s (collPage (cluHub c)) = true)
    (hop : recF (descBytes s c r n) 0 1 = 6) (hcop : recF (descBytes s c r n) 4 1 = cop) :
    collStart cop c r s = collBody c r n (descBytes s c r n) (withDesc s c r n (descBytes s c r n)) :=
  (if_neg (not_not_intro hen)).trans (descStart_of_startsWith hstart (by simp [hop, hcop]) (by simp [hop]))

/-- Each collective command is the start of its COP on its ring. -/
theorem exec_collCommand (c : Nat) (ring : BitVec 6) (s : State) :
    ∀ p ∈ collCommands, exec (p.2 c ring) s = onCluster c s (collStart p.1 c ring.toNat) := by
  simp only [collCommands, List.forall_mem_cons, List.not_mem_nil, false_implies, implies_true, and_true]
  refine ⟨?_, ?_, ?_, ?_, ?_, ?_, ?_⟩ <;> rfl

/-! ### The body of a descriptor (R320, R322) -/

@[simp] theorem editDesc_colls (c r : Nat) (n : BitVec 32) (f : Desc → Desc) (s : State) : (editDesc c r n f s).colls = s.colls := by
  unfold editDesc
  split <;> rfl

/-- A descriptor that loads no context begins to write at once. -/
theorem loadThen_of_none {f : State → State} (h : ctxLoads c b = []) :
    loadThen c r n b f s = f (editDesc c r n (fun d => { d with loading := true }) s) := by
  unfold loadThen ctxBegin
  rw [h]
  rfl

/-- A collective as its descriptor begins it. -/
def newColl (tag : BitVec 12) (c r : Nat) (n : BitVec 32) (b : List Byte) : Coll :=
  { tag := tag, group := recF b 6 1, collId := recF b 8 4, cluster := c, ring := r, count := n, desc := b, attempt := 0, ready := [], parts := [],
    got := [], waiting := [], placed := [], pieces := [], counts := [], bits := [], done := [], doneSent := false, acks := [], mine := [],
    summed := false, leaseWait := false, broken := none }

/-- RELEASE and CLOSE, which name no places, begin their collective where the fields keep R322 and it is not in progress. -/
theorem collBody_of_placeless {key : CollKey} (hkey : key = ⟨descTag s c r n, recF b 6 1, recF b 8 4⟩) (hcop : 6 ≤ recF b 4 1)
    (hctx : ctxLoads c b = []) (hgroup : groupOf s key.tag (recF b 6 1) ≠ [])
    (hok : collFieldsOk b (groupOf s key.tag (recF b 6 1)).length = true) (hnew : collOf s key = none) :
    collBody c r n b s =
      collSettle key 18 (collAttempt key { descWait c r n .coll (editDesc c r n (fun d => { d with loading := true }) s) with
        colls := s.colls ++ [newColl key.tag c r n b] }) := by
  subst hkey
  have hfine : ¬ ((groupOf s (descTag s c r n) (recF b 6 1)).isEmpty = true ∨
      ¬ collFieldsOk b (groupOf s (descTag s c r n) (recF b 6 1)).length = true ∨
      (collOf s ⟨descTag s c r n, recF b 6 1, recF b 8 4⟩).isSome = true) := by
    simp [hgroup, hok, hnew]
  unfold collBody
  simp only [if_neg hfine, if_pos hcop, loadThen_of_none hctx, editDesc_colls]
  rfl

/-! ### The READY time-out (R323, R331) -/

theorem readyTimeout_of_some {key : CollKey} {k : Coll} (h : collOf s key = some k) :
    readyTimeout key s = if (dataTo k.cop (k.n s) (k.me s)).all (k.ready.contains ·) then s else collFail key 0x5005 2 s := by
  unfold readyTimeout withColl
  rw [h]

end

/-- Settles O39: each command is the start of its COP, whose body for RELEASE and CLOSE has no place to check; the time-out by the record. -/
theorem collectiveDescriptors : Obligations.CollectiveDescriptors := by
  intro c ring s hc
  refine ⟨fun p hp n hstart hen => ?start, fun tag group collId k hk => congrArg Host.Outcome.next (readyTimeout_of_some hk)⟩
  case start =>
    intro b s1 hop hcop
    have hbody : exec (p.2 c ring) s = .next (collBody c ring.toNat n b s1) :=
      (exec_collCommand c ring s p hp).trans ((onUnit_of hc).trans (congrArg _ (collStart_of_startsWith hstart hen hop hcop)))
    refine ⟨hbody, ?_⟩
    intro hplaceless key hctx hgroup hok hnew
    rw [← hcop] at hplaceless
    exact hbody.trans (congrArg _ (collBody_of_placeless rfl hplaceless hctx hgroup hok hnew))

end Sys2Proof.Machine

/-! Flits and the life of a fabric port (R301 to R305). -/

namespace Sys2Proof.Machine

section
variable {p : Nat} {s : State}

/-! ### Flits (R302, R303) -/

/-- What a flit of good CRC does, by its type: data, a replay or a credit. -/
def flitServe (p : Nat) (b : List Byte) (s : State) : State :=
  match recF b 0 4 % 4 with
  | 1 => portData p (fld (recF b 0 4) 31 20) (fld (recF b 0 4) 7 2) ((b.drop 4).take 240) s
  | 2 => portReplay p (BitVec.ofNat 12 (fld (recF b 0 4) 31 20)) s
  | 3 => portPump p (putPort s p { getPort s p with
      credits := tblSet 0 (getPort s p).credits (fld (recF b 0 4) 7 2) (tblGet 0 (getPort s p).credits (fld (recF b 0 4) 7 2) - 1) })
  | _ => s

theorem flitServe_eq (b : List Byte) :
    flitServe p b s =
      if recF b 0 4 % 4 = 1 then portData p (fld (recF b 0 4) 31 20) (fld (recF b 0 4) 7 2) ((b.drop 4).take 240) s
      else if recF b 0 4 % 4 = 2 then portReplay p (BitVec.ofNat 12 (fld (recF b 0 4) 31 20)) s
      else if recF b 0 4 % 4 = 3 then
        portPump p (putPort s p { getPort s p with
          credits := tblSet 0 (getPort s p).credits (fld (recF b 0 4) 7 2) (tblGet 0 (getPort s p).credits (fld (recF b 0 4) 7 2) - 1) })
      else s := by
  unfold flitServe
  split
  next h => rw [if_pos h]
  next h => rw [if_neg (by omega), if_pos h]
  next h => rw [if_neg (by omega), if_neg (by omega), if_pos h]
  next h1 h2 h3 => rw [if_neg h1, if_neg h2, if_neg h3]

/-- The port once the ACK of a flit has freed what it acknowledges of the replay buffer. -/
def flitAcked (p : Nat) (b : List Byte) (s : State) : State :=
  let left := ackTrim (BitVec.ofNat 12 (fld (recF b 0 4) 19 8)) (getPort s p).replay
  if left.length < (getPort s p).replay.length then portPump p (putPort s p { getPort s p with replay := left, replays := 0 }) else s

/-- The wait for a replay, after a count. -/
theorem askReplay_bump (a : Nat) :
    askReplay p (bump s a) = portCtl p 2 (getPort s p).rxSeq.toNat 0 (putPort (bump s a) p { getPort s p with skipping := true }) := rfl

/-- A flit on a port that is UP is counted, corrected, checked and served. -/
theorem flitReceive_of_up {f : BitVec 2048} {q : List Byte × Nat} (hup : portUp s p = true) (hq : fecDecode (leBytes 256 f.toNat) = q) :
    flitReceive p f s =
      (let s1 := bump s (fabPortPage p + 0x808)
       let s2 := if q.2 ≠ 0 then bump s1 (fabPortPage p + 0x810) else s1
       if recF q.1 244 4 ≠ crc32 (q.1.take 244) then askReplay p (bump s2 (fabPortPage p + 0x818))
       else flitServe p q.1 (flitAcked p q.1 s2)) := by
  subst hq
  unfold flitReceive
  rw [if_neg (not_not_intro hup)]
  rfl

/-! ### The life of a port (R301, R304, R305) -/

theorem portRetrain_of_down (hst : (getPort s p).st = 3) (hen : portEnabled s p = true) (hpow : portPowered s p = true)
    (hlit : (getPort s p).laser = true) : portRetrain p s = repath s (putPort s p { getPort s p with st := 1 }) :=
  if_pos ⟨hst, hen, hpow, hlit⟩

/-- The end of training: UP with the configured peer, and DOWN with any other (R305). -/
theorem portTrained_of_training (peer : BitVec 16) (far : BitVec 4) (hst : (getPort s p).st = 1) :
    portTrained p peer far s =
      if wfld (reg s (fabPortPage p + 0x100)) 15 0 = peer.toNat ∧ wfld (reg s (fabPortPage p + 0x100)) 35 32 = far.toNat then
        repath s (setReady (32 + p) (putPort s p { getPort s p with
          peer := peer, peerPort := far, st := 2, cause := 0, txSeq := 0, rxSeq := 0, replay := [], queue := [], credits := [],
          skipping := false, replays := 0, holds := [] }))
      else portDown p 5 (putPort s p { getPort s p with peer := peer, peerPort := far }) := if_neg (not_not_intro hst)

/-- A port that trains or is UP goes DOWN without its light (R15). -/
theorem laserDown_of_lit (h : (getPort s p).st = 1 ∨ (getPort s p).st = 2) : laserDown p s = portDown p 4 s := if_pos h

/-- A port that is DARK or DOWN stays so without its light, and reports it. -/
theorem laserDown_of_unlit (h : (getPort s p).st = 0 ∨ (getPort s p).st = 3) :
    laserDown p s = raiseFault (fabPortPage p) linkDown none (putPort s p { getPort s p with cause := 4 }) := by
  have hout : ¬ ((getPort s p).st = 1 ∨ (getPort s p).st = 2) := by rcases h with h | h <;> rw [h] <;> decide
  exact if_neg hout

end

/-- Settles O43: a flit by its check and its type; the ports' events by the state of the port. -/
theorem portEvents : Obligations.PortEvents := by
  intro port s p x
  refine ⟨fun f hup => ?flit, rfl, fun hheld => ?stall, fun hst hen hpow hlit => ?retrain, fun peer far hst => ⟨fun hpeer hfar => ?up,
    fun hother => ?refused⟩, fun ls ch => ⟨?channel, rfl, fun q u => ⟨laserDown_of_lit, laserDown_of_unlit⟩⟩⟩
  case flit =>
    intro q s1 s2 x2 h left s3
    refine congrArg Host.Outcome.next ((flitReceive_of_up hup rfl).trans ?_)
    exact ite_congr rfl (fun _ => askReplay_bump (s := s2) _) fun _ => flitServe_eq (s := s3) q.1
  case stall => exact congrArg Host.Outcome.next (if_neg (by simpa using hheld))
  case retrain => exact congrArg Host.Outcome.next (portRetrain_of_down hst hen hpow hlit)
  case up => exact congrArg Host.Outcome.next ((portTrained_of_training peer far hst).trans (if_pos ⟨hpeer, hfar⟩))
  case refused =>
    exact congrArg Host.Outcome.next ((portTrained_of_training peer far hst).trans (if_neg fun h => hother.elim (· h.1) (· h.2)))
  case channel => rfl

end Sys2Proof.Machine

/-! The installation record, the pair query and the atomic port of a cluster (R306, R314, R333). -/

namespace Sys2Proof.Machine

section
variable {c : Nat} {s : State}

/-- A bound cluster that is not busy begins its atomic (R314, R333). -/
theorem amoGo_of_idle {tag : BitVec 12} {ctl : Word} (htag : cluTag s c = some tag) (hctl : reg s (clusterBase c + 0x648) = ctl)
    (hidle : wbit (reg s (clusterBase c + 0x670)) 63 = false) (hlow : wfld ctl 25 24 ≠ 0) (hhigh : wfld ctl 25 24 ≠ 3) :
    amoGo c s =
      (let m := reqMsg (3 + wfld ctl 25 24) (reg s (clusterBase c + 0x640)) (BitVec.ofNat 24 (wfld ctl 23 0)) (jobEpoch s tag) tag false
         (reg s (clusterBase c + 0x650)) (reg s (clusterBase c + 0x658)) []
       let s1 := setReg s (clusterBase c + 0x670) (packWord [(63, 1)])
       if cutOff s1 (c / 16) (if isOwn s1 (wfld ctl 47 32) then addrClu m.addr / 16 else 4 + cluHub c) then amoDone c 0 bridgeFailCode s1
       else if isOwn s1 (wfld ctl 47 32) then
         (let p := performAt .unit (some c) m s1
          match p.resp with
          | some x => amoDone c x.2.1 p.code p.st
          | none => if p.code = 0 then p.st else amoDone c 0 p.code p.st)
       else
         (let q := sendSeq (cluHub c) (wfld ctl 47 32) 0 m (.amo c) s1
          if q.1 ≠ 0 then amoDone c 0 q.1 q.2 else q.2)) := by
  subst hctl
  have hgo : ¬ (wbit (reg s (clusterBase c + 0x670)) 63 = true ∨ wfld (reg s (clusterBase c + 0x648)) 25 24 = 0 ∨
      wfld (reg s (clusterBase c + 0x648)) 25 24 = 3) := by simp [hidle, hlow, hhigh]
  unfold amoGo
  simp only [htag, if_neg hgo] <;> rfl

end

/-- Settles O44: the record is refused or applied by its cause; the query and the atomic port by whether their page takes the write. -/
theorem fabricRegisters : Obligations.FabricRegisters := by
  intro s
  refine ⟨rfl, fun v => ?query, fun c u hc hu => ?refused, fun c tag hc hno htag => ?atomic⟩
  case query =>
    refine congrArg Host.Outcome.next ?_
    cases hd : domainOn s 4
    · exact (inDomain_of_off hd).trans (if_pos rfl).symm
    · exact (inDomain_of_on hd).trans (if_neg (by simp)).symm
  case refused => exact cluCommand_of_refused hc hu
  case atomic =>
    intro base ctl m s1 hidle hlow hhigh
    exact (cluCommand_of_passed hc hno).trans (congrArg _ (amoGo_of_idle htag rfl hidle hlow hhigh))

end Sys2Proof.Machine

/-! Packets and frames at the host ports, and the ports' other commands (R334 to R337, R339 to R343, R345 to R348, R376, R422). -/

namespace Sys2Proof.Machine

section
variable {q : Nat} {pk : Packet} {s : State}

/-! ### Packets (R336, R337, R345) -/

/-- What the host ports look at first: a packet of an UP port whose queue pair lies on the port and for which the buffer has room is taken where
the queue pair accepted requests when the cycle began, and dropped else. -/
theorem packetArrive_of_room (op : HostOp) (himm : pk.immediate = false) (hup : linkUp s pk.port = true) (hqp : qpOf pk.qp = some q)
    (hroom : (getHp s pk.port).occ + pk.bytes ≤ 2 ^ 24) (hport : qpPort s q = pk.port) :
    packetArrive op pk s =
      if [2, 3].contains (qpSeen s (getQp s q)) then
        qpUnder q (fun s => qpSettle q (putQp s q { getQp s q with queue := (getQp s q).queue ++ [(op, pk)] }))
          (hostFill pk.port pk.cls.toNat pk.bytes (hostCe q pk s))
      else hostDrop pk.port s := by
  have hfull : ¬ 2 ^ 24 < (getHp s pk.port).occ + pk.bytes := Nat.not_lt.mpr hroom
  unfold packetArrive
  simp only [himm, hup, hqp, hport, decide_eq_false hfull, not_true_eq_false, if_false, Bool.false_or, bne_self_eq_false, Bool.or_false,
    Bool.false_eq_true]
  cases [2, 3].contains (qpSeen s (getQp s q))
  · exact (if_pos rfl).trans (if_neg Bool.false_ne_true).symm
  · exact (if_neg (by decide)).trans (if_pos rfl).symm

/-! ### Frames (R334, R335) -/

/-- A sound frame on an UP port is counted and served. -/
theorem frameArrive_of_sound {port : Nat} {f : Frame} (hup : linkUp s port = true) (hlen : f.len ≤ 9216) (hfcs : f.fcsOk = true)
    (hfrag : f.fragment = false) (hmulti : f.multicast = false) :
    frameArrive port f s = frameServe port f (bump s (hostPortPage port + 0x800)) := by
  have hpass : ¬ 9216 < f.len := Nat.not_lt.mpr hlen
  unfold frameArrive
  simp only [hup, hfcs, hfrag, hmulti, hpass, not_true_eq_false, if_false, Bool.or_false, false_or]
  exact if_neg (by cases f.kind <;> exact Bool.false_ne_true)

/-! ### The turn of a packet (R340, R342) -/

/-- A packet with the expected PSN on a data queue pair goes through the checks of a data request. -/
theorem hostProcess_of_expected {op : HostOp} (hacc : qpAccepts (getQp s q) = true) (hpsn : pk.psn = (getQp s q).expPsn)
    (hdata : qpCtl q = false) (hlevel : s.rot.level.toNat < 2) :
    hostProcess q op pk s = hostData q op pk false (putQp s q { getQp s q with nakSent := false }) := by
  have hahead : psnAhead (getQp s q) pk = 0 := by simp [psnAhead, hpsn]
  have hopen : ¬ 2 ≤ s.rot.level.toNat := Nat.not_le.mpr hlevel
  unfold hostProcess
  simp [hacc, hahead, hdata, hopen]

/-- A request that the rate, the tiers and the checks of R340 admit, and for which a SEND has room, is performed. -/
theorem hostData_of_pass {op : HostOp} {ta : Nat} {t : State} (hrate : rateCheck q pk.port s = (true, t))
    (htier : hostTierReady t q op pk = true) (hcheck : hostCheck t q op pk = .pass ta)
    (hroom : ¬ (op = .send ∧ pk.first = true ∧ rqSlots (getQp s q) - ((getQp s q).wp - (getQp s q).rp).toNat < rqMax (getQp s q))) :
    hostData q op pk false s = hostPerform q op pk false ta t := by
  unfold hostData
  simp only [hrate, htier, hcheck, not_true_eq_false, if_false]
  exact if_neg fun ⟨hsend, hfirst, hfull, _⟩ => hroom ⟨hsend, hfirst, hfull⟩

end

/-- Settles O45: a packet by the state that its queue pair had, a sound frame by its kind, and a turn by the checks in their order. -/
theorem hostPacketAdmission : Obligations.HostPacketAdmission := by
  refine ⟨?packet, fun port f s hup hlen hfcs hfrag hmulti => ?frame, ?turn⟩
  case packet =>
    intro pk q s hp himm hup hqp hroom hport _
    have hrow (op : HostOp) :
        (qpSeen s (getQp s q) = 2 ∨ qpSeen s (getQp s q) = 3 → onPort op pk s = .next
          (qpUnder q (fun s => qpSettle q (putQp s q { getQp s q with queue := (getQp s q).queue ++ [(op, pk)] }))
            (hostFill pk.port pk.cls.toNat pk.bytes (hostCe q pk s)))) ∧
        (qpSeen s (getQp s q) ≠ 2 → qpSeen s (getQp s q) ≠ 3 → onPort op pk s = .next (hostDrop pk.port s)) := by
      have harrive : onPort op pk s = .next _ :=
        (onUnit_of hp).trans (congrArg _ (packetArrive_of_room op himm hup hqp hroom hport))
      exact ⟨fun h => harrive.trans (congrArg _ (if_pos (by simpa using h))),
        fun h2 h3 => harrive.trans (congrArg _ (if_neg (by simp [h2, h3])))⟩
    simp only [List.forall_mem_cons, List.not_mem_nil, false_implies, implies_true, and_true]
    exact ⟨hrow .send, hrow .write, hrow .read, hrow .cas, hrow .faa⟩
  case frame => exact congrArg Host.Outcome.next (frameArrive_of_sound hup hlen hfcs hfrag hmulti)
  case turn =>
    intro pk q ta op s hacc hpsn hdata hlevel s1 hrate s2 htier hcheck hroom
    exact (hostProcess_of_expected hacc hpsn hdata hlevel).trans (hostData_of_pass (Prod.ext hrate rfl) htier hcheck hroom)

end Sys2Proof.Machine

/-! The host ports' connection management, and writes of queue-pair contexts (R337, R339, R343, R345 to R347, R376, R422). -/

namespace Sys2Proof.Machine

section
variable {p : Nat} {cls : BitVec 3} {s : State}

/-! ### Connection management (R339) -/

/-- An unowned device serves a MAD on a port that is UP and ready. -/
theorem cmServe_of_ready {f : State → State} (hup : linkUp s p = true) (hun : unowned s = true) (hready : devReady s (2 + p) = true) :
    cmServe p s f = f s := (if_neg (not_not_intro hup)).trans (if_pos ⟨hun, hready⟩)

theorem cmRequest_of_free (e : Endpoint) (hfree : (getHp s p).held = none) :
    cmRequest p cls 0x5A420C01 e s = cmAnswer p cls .cmRep (ctlEndpoint p e 0 (putHp s p { getHp s p with held := some e })) := by
  unfold cmRequest
  rw [if_neg (by decide), if_neg (by simp [hfree])]

theorem cmRequest_of_held {e : Endpoint} (e' : Endpoint) (hheld : (getHp s p).held = some e) :
    cmRequest p cls 0x5A420C01 e' s = cmAnswer p cls (.cmRej .consumer) s := by
  unfold cmRequest
  rw [if_neg (by decide), if_pos (by simp [hheld])]

theorem cmRequest_of_service {service : BitVec 64} (e : Endpoint) (h : service ≠ 0x5A420C01) :
    cmRequest p cls service e s = cmAnswer p cls (.cmRej .service) s :=
  if_pos fun hn => h (BitVec.eq_of_toNat_eq hn)

theorem cmReady_of_held {e : Endpoint} (hheld : (getHp s p).held = some e) :
    cmReady p s = putQp s (4092 + p) (qpWith (getQp s (4092 + p)) 3) := if_pos (by simp [hheld])

/-- DREQ of the held endpoint frees its port. -/
theorem cmEnd_of_held {e : Endpoint} (hheld : (getHp s p).held = some e) :
    cmEnd p cls e.gid e.qpn s = cmAnswer p cls .cmDrep (ctlReset p (putHp s p { getHp s p with held := none })) := by
  unfold cmEnd
  simp only [hheld, and_self, if_true]

/-! ### Contexts and receive rings (R337, R343) -/

/-- EXP_PSN of a data queue pair is taken in RESET and INIT alone. -/
theorem qpCtxWrite_expPsn {q : Nat} (v : Word) (hdata : qpCtl q = false) :
    qpCtxWrite false q 0x110 v s =
      if 1 < qpSt (getQp s q) then hostIgnore s else putQp s q { getQp s q with expPsn := v.setWidth 24 } :=
  (if_neg (by simp [hdata])).trans (if_neg (by decide))

end

/-- Settles O46: a MAD by the port's endpoint; a write by whether the page takes it and by the state of its queue pair; the others act as
their meanings are written. -/
theorem hostControl : Obligations.HostControl := by
  intro s
  refine ⟨fun port up => rfl, ?cm, fun q => ⟨rfl, rfl⟩, fun q off v => ⟨fun hcl => ?closed, fun hcl hoff => ?ctxOff⟩,
    fun q v hdata hcl hon => ⟨fun hst => ?ctx, fun hst => ?ctxIgnored⟩, fun q n => ⟨fun hoff => ?returnOff, fun hon hn => ?returned,
    fun hon hn => ?returnIgnored⟩, fun port cls => rfl⟩
  case cm =>
    intro port cls gid qpn psn p at_ hup hun hready
    have hserve {f : State → State} {t : State} (h : f s = t) : cmServe p s f = t := (cmServe_of_ready hup hun hready).trans h
    exact ⟨fun hfree => congrArg _ (hserve (cmRequest_of_free _ hfree)), fun e hheld => congrArg _ (hserve (cmRequest_of_held _ hheld)),
      fun service h => congrArg _ (hserve (cmRequest_of_service _ h)),
      fun e hheld => ⟨congrArg _ (hserve (cmReady_of_held hheld)), congrArg _ (hserve (cmEnd_of_held hheld))⟩⟩
  all_goals refine congrArg Host.Outcome.next ?_
  case closed => exact if_pos hcl
  case ctxOff => exact (if_neg (by simp [hcl])).trans (inDomain_of_off hoff)
  case ctx =>
    exact (if_neg (by simp [hcl])).trans ((inDomain_of_on hon).trans ((qpCtxWrite_expPsn v hdata).trans (if_neg (Nat.not_lt.mpr hst))))
  case ctxIgnored => exact (if_neg (by simp [hcl])).trans ((inDomain_of_on hon).trans ((qpCtxWrite_expPsn v hdata).trans (if_pos hst)))
  case returnOff => exact inDomain_of_off hoff
  case returned => exact (inDomain_of_on hon).trans (if_neg (Nat.not_lt.mpr hn))
  case returnIgnored => exact (inDomain_of_on hon).trans (if_pos hn)

end Sys2Proof.Machine

/-! The commands of a job: STAGE, BIND, ATTACH, DETACH and KILL, the ends of a quiesce, and the ends of a rinse (R361 to R364, R367 to R371). -/

namespace Sys2Proof.Machine

section
variable {tag : BitVec 12} {s : State}

/-! ### Commands of the selected job (R361 to R363, R367, R368) -/

/-- A job that no command runs on, while jobs are not held and the tier engine is ready: it may start. -/
def mayStart (s : State) (tag : BitVec 12) (st : JobSt) : Prop :=
  (getJob s tag).st = st ∧ (getJob s tag).cmdBusy = none ∧ jobsHeld s = false ∧ devReady s 12 = true

/-- KILL is taken while a job binds, and of a STAGED or BOUND job while no command runs. -/
def mayKill (s : State) (tag : BitVec 12) : Prop :=
  (getJob s tag).st = .binding ∨ (((getJob s tag).st = .staged ∨ (getJob s tag).st = .bound) ∧ (getJob s tag).cmdBusy = none)

/-- What forbids a start. -/
theorem not_mayStart_iff {st : JobSt} :
    ¬ mayStart s tag st ↔ (getJob s tag).st ≠ st ∨ (getJob s tag).cmdBusy ≠ none ∨ jobsHeld s = true ∨ devReady s 12 = false := by
  simp only [mayStart, Classical.not_and_iff_not_or_not, Bool.not_eq_false, Bool.not_eq_true, ne_eq]

/-- What forbids a KILL. -/
theorem not_mayKill_iff :
    ¬ mayKill s tag ↔
      (getJob s tag).st ≠ .binding ∧ ((getJob s tag).cmdBusy ≠ none ∨ ((getJob s tag).st ≠ .staged ∧ (getJob s tag).st ≠ .bound)) := by
  unfold mayKill
  rw [not_or, Classical.not_and_iff_not_or_not, not_or, Or.comm]

section
variable (hsel : regF s (devicePage + 0x180) 11 0 = tag.toNat)
include hsel

theorem exec_stage_of_free (hst : (getJob s tag).st = .free) (hheld : jobsHeld s = false) : exec (.stage tag) s = .next (stageJob tag s) :=
  congrArg Host.Outcome.next ((if_neg (not_not_intro hsel)).trans (if_pos (by simp [hst, hheld])))

theorem exec_stage_of_refused (h : (getJob s tag).st ≠ .free ∨ jobsHeld s = true) : exec (.stage tag) s = .next (jobIgnore s) :=
  congrArg Host.Outcome.next ((if_neg (not_not_intro hsel)).trans (if_neg (by simpa [Decidable.imp_iff_not_or] using h)))

theorem exec_bind_of_mayStart (h : mayStart s tag .staged) : exec (.bind tag) s = .next (bindStart tag false s) := by
  obtain ⟨hst, hidle, hheld, hready⟩ := h
  exact congrArg Host.Outcome.next ((if_neg (not_not_intro hsel)).trans (if_pos (by simp [hst, hidle, hheld, hready])))

theorem exec_bind_of_refused (h : ¬ mayStart s tag .staged) : exec (.bind tag) s = .next (jobIgnore s) :=
  congrArg Host.Outcome.next ((if_neg (not_not_intro hsel)).trans (if_neg (by simpa [mayStart] using h)))

theorem exec_attach_of_mayStart (h : mayStart s tag .bound) : exec (.attach tag) s = .next (bindStart tag true s) := by
  obtain ⟨hst, hidle, hheld, hready⟩ := h
  exact congrArg Host.Outcome.next ((if_neg (not_not_intro hsel)).trans (if_pos (by simp [hst, hidle, hheld, hready])))

theorem exec_attach_of_refused (h : ¬ mayStart s tag .bound) : exec (.attach tag) s = .next (jobIgnore s) :=
  congrArg Host.Outcome.next ((if_neg (not_not_intro hsel)).trans (if_neg (by simpa [mayStart] using h)))

theorem exec_detach_of_bound (hst : (getJob s tag).st = .bound) (hidle : (getJob s tag).cmdBusy = none) :
    exec (.detach tag) s = .next (jobSettle tag (detachJob tag (reg s (devicePage + 0x1B0)) s)) :=
  congrArg Host.Outcome.next ((if_neg (not_not_intro hsel)).trans (if_pos (by simp [hst, hidle])))

theorem exec_detach_of_refused (h : (getJob s tag).st ≠ .bound ∨ (getJob s tag).cmdBusy ≠ none) : exec (.detach tag) s = .next (jobIgnore s) :=
  congrArg Host.Outcome.next ((if_neg (not_not_intro hsel)).trans (if_neg (by simpa [Decidable.imp_iff_not_or] using h)))

theorem exec_kill_of_mayKill (h : mayKill s tag) : exec (.kill tag) s = .next (killJob tag s) :=
  congrArg Host.Outcome.next ((if_neg (not_not_intro hsel)).trans (if_pos (by simpa [mayKill] using h)))

theorem exec_kill_of_refused (h : ¬ mayKill s tag) : exec (.kill tag) s = .next (jobIgnore s) :=
  congrArg Host.Outcome.next ((if_neg (not_not_intro hsel)).trans (if_neg (by simpa [mayKill] using h)))

end

/-- A job whose BIND has latched its arguments. -/
def bindingJob (s : State) (tag : BitVec 12) : Job :=
  { getJob s tag with
    st := .binding, cmdBusy := some 1, fault := 0, image := BitVec.ofNat 48 (regF s (devicePage + 0x1A0) 47 0),
    seed := reg s (devicePage + 0x1A8) }

/-- A BIND whose staging map passes binds from the first page on. -/
theorem bindStart_of_okay (h : mapOkay (putJob s tag (bindingJob s tag)) tag (stagingMap s) = true) :
    bindStart tag false s =
      bindGo tag false (regF s (devicePage + 0x1A0) 47 0) (stagingMap s) 0 [] (putJob s tag (bindingJob s tag)) :=
  if_neg (not_not_intro h)

/-- An ATTACH whose staging map passes binds. -/
theorem bindStart_attach_of_okay (h : mapOkay s tag (stagingMap s) = true) :
    bindStart tag true s = bindGo tag true (regF s (devicePage + 0x1A0) 47 0) (stagingMap s) 0 [] s :=
  if_neg (not_not_intro h)

/-! ### The ends of a quiesce and of a rinse (R369 to R371) -/

/-- The quiesce of a DETACH ends with the rinse of its clusters. -/
theorem quiesceEnd_of_bound (hst : (getJob s tag).st = .bound) :
    quiesceEnd tag s = jobSettle tag (rinseClusters (clustersIn s tag [3]) (rinseFaults tag (clustersIn s tag [3]) false s)) :=
  (if_neg (by simp [hst])).trans (if_pos hst)

/-- The quiesce of a killed job ends with the rinse of everything it has. -/
theorem quiesceEnd_of_quiescing (hst : (getJob s tag).st = .quiescing) :
    quiesceEnd tag s =
      (let s1 := rinseClusters (clustersIn s tag [3]) (writeKeySlot tag 0 (rinseFaults tag (List.range 64) true s))
       let s2 := hostRinse tag { s1 with collIn := s1.collIn.filter (fun p => p.1 != tag) }
       jobSettle tag (rinsePages (fun _ p => p.tag == tag) (putJob s2 tag { Job.reset with
         st := .rinsing, fault := (getJob s2 tag).fault, image := (getJob s2 tag).image, cmdBusy := (getJob s2 tag).cmdBusy }))) :=
  if_pos hst

/-- A job whose quiesce has not ended in time is STUCK, as it stands where the whole job quiesces. -/
theorem quiesceTimeout_of_quiescing (hst : (getJob s tag).st = .quiescing) :
    quiesceTimeout tag s =
      (let s1 := forAll (clustersIn s tag [2, 3]) s (fun c => setCluSt c 5)
       raiseFault devicePage 0x200A (some tag) (putJob s1 tag { getJob s1 tag with st := .stuck })) := by
  unfold quiesceTimeout
  simp only [hst, if_true, ne_eq, not_true_eq_false, false_and, if_false]

/-- After a DETACH the rest of the job quiesces first. -/
theorem quiesceTimeout_of_detach (hst : (getJob s tag).st = .bound) (hclus : clustersIn s tag [3] ≠ []) :
    quiesceTimeout tag s =
      (let s1 := forAll (clustersIn (quiesceJob tag s) tag [2, 3]) (quiesceJob tag s) (fun c => setCluSt c 5)
       raiseFault devicePage 0x200A (some tag) (putJob s1 tag { getJob s1 tag with st := .stuck })) := by
  have hsome : ¬ (clustersIn s tag [3]).isEmpty = true := by simpa using hclus
  unfold quiesceTimeout
  simp [hst, hsome]

/-- The rinse of a cluster that a job had frees it. -/
theorem clusterRinsed_of_rinsing {c : Nat} (howner : cluOwner s c = some tag) (hst : regF s (clusterBase c + 0x680) 63 61 = 4) :
    clusterRinsed c s =
      jobSettle tag (if (getJob (cleanCluster c s) tag).st = .binding then cleanCluster c s
        else putClu (cleanCluster c s) c { getClu (cleanCluster c s) c with barRinsed := true }) := by
  unfold clusterRinsed
  rw [howner]
  exact if_pos hst

/-- The rinse of a frame frees it, and every BIND that waits for frames tries again. -/
theorem frameRinsed_of_rinsing {frame k : Nat} {p : Page}
    (hfind : s.pages.find? (fun q => q.2.tag == tag && q.2.st == .rinsing && q.2.frame.toNat == frame) = some (k, p))
    (hrinse : frameRinses (getJob s tag) = true) :
    frameRinsed tag frame s = bindRetries (jobSettle tag (tierSettle (putPage s k Page.reset))) := by
  unfold frameRinsed
  rw [hfind]
  exact if_pos hrinse

end

/-- Settles O47: a command by whether the selected job may take it; the end of a quiesce and of a rinse by the state of the job. -/
theorem jobCommands : Obligations.JobCommands := by
  intro tag s hsel j
  refine ⟨fun hst hheld => exec_stage_of_free hsel hst hheld, fun hst hidle hheld hready => ?bind, fun hst hidle hheld hready hmap => ?attach,
    fun hst hidle => exec_detach_of_bound hsel hst hidle, fun h => exec_kill_of_mayKill hsel h,
    ⟨fun h => exec_stage_of_refused hsel h, fun h => exec_bind_of_refused hsel (not_mayStart_iff.mpr h),
      fun h => exec_attach_of_refused hsel (not_mayStart_iff.mpr h), fun h => exec_detach_of_refused hsel h,
      fun h => exec_kill_of_refused hsel (not_mayKill_iff.mpr h)⟩,
    fun hst => congrArg Host.Outcome.next (quiesceEnd_of_bound hst),
    fun hst => ⟨congrArg Host.Outcome.next (quiesceEnd_of_quiescing hst), congrArg Host.Outcome.next (quiesceTimeout_of_quiescing hst)⟩,
    fun hst hclus => congrArg Host.Outcome.next (quiesceTimeout_of_detach hst hclus),
    fun c hc howner hst => (onUnit_of hc).trans (congrArg _ (clusterRinsed_of_rinsing howner hst)),
    fun frame k p hfind hrinse => congrArg Host.Outcome.next (frameRinsed_of_rinsing hfind hrinse)⟩
  case bind =>
    intro img s1 hmap
    exact (exec_bind_of_mayStart hsel ⟨hst, hidle, hheld, hready⟩).trans (congrArg _ (bindStart_of_okay hmap))
  case attach => exact (exec_attach_of_mayStart hsel ⟨hst, hidle, hheld, hready⟩).trans (congrArg _ (bindStart_attach_of_okay hmap))

end Sys2Proof.Machine

/-! The header of a page (R353, R355 to R357): which register of the header a header command writes, and what that write does. -/

namespace Sys2Proof.Machine

/-! ### Which page a header command reaches (R351, R353) -/

theorem headCommand_of_phase {page : BitVec 14} {off k : Nat} {v : Word} {s : State} (hp : pageOf (4096 * page.toNat) = some (.phase, k)) :
    headCommand page off v s = s := by
  simp only [headCommand, hp]

/-- A command on a page without a header is the write of a header register nowhere else but on a phase table's page. -/
theorem headCommand_of_not_phase {page : BitVec 14} {off : Nat} {v : Word} {s : State} (hp : ∀ k, pageOf (4096 * page.toNat) ≠ some (.phase, k)) :
    headCommand page off v s = ctlWrite .mgmt (4096 * page.toNat + off) v s := by
  unfold headCommand
  split
  · next k h => exact absurd h (hp k)
  · rfl

section
variable {page : BitVec 14} {off i : Nat} {p : PageType} {v : Word} {s : State}

theorem headAddr_aligned (hal : off % 8 = 0) : (4096 * page.toNat + off) % 8 = 0 := by omega

theorem headAddr_offset (hoff : off < 0x100) : (4096 * page.toNat + off) % 4096 = off := by omega

theorem pageOf_headAddr (hoff : off < 0x100) : pageOf (4096 * page.toNat + off) = pageOf (4096 * page.toNat) :=
  pageOf_add (by omega) (by omega)

/-- A header command on a page number that names no page is an unmapped access (R351). -/
theorem headCommand_of_no_page (hoff : off < 0x100) (hal : off % 8 = 0) (hp : pageOf (4096 * page.toNat) = none) :
    headCommand page off v s = unmapped s := by
  have hpa : pageOf (4096 * page.toNat + off) = none := (pageOf_headAddr hoff).trans hp
  rw [headCommand_of_not_phase (by simp [hp])]
  exact ctlWrite_of_none (ctlAccess_unmapped (headAddr_aligned hal) hpa) (by simp [clkReaches, hpa])

/-- A header command on a page that is powered and that nothing blanks is the write of the header register. -/
theorem headCommand_of_open (hoff : off < 0x100) (hal : off % 8 = 0) (hp : pageOf (4096 * page.toNat) = some (p, i)) (hph : p ≠ .phase)
    (hd : domainOn s (pageDomain p i) = true) (hbl : blanked s p i = false) :
    headCommand page off v s = headerWrite p i (4096 * page.toNat) off v s := by
  have hpa : pageOf (4096 * page.toNat + off) = some (p, i) := (pageOf_headAddr hoff).trans hp
  have hm : (4096 * page.toNat + off) % 4096 = off := headAddr_offset hoff
  rw [headCommand_of_not_phase (by rw [hp]; rintro k ⟨⟩; exact hph rfl),
    ctlWrite_of_apply (ctlAccess_of_open (headAddr_aligned hal) hpa rfl rfl hd hbl), hm, if_pos ⟨hph, hoff⟩, Nat.add_sub_cancel]

/-- A page without a header: a phase table takes no header command, and where there is no page the access is unmapped (R351, R353). -/
theorem headCommand_of_no_header (hoff : off < 0x100) (hal : off % 8 = 0) (h : hasHeader page = false) :
    headCommand page off v s = if (pageOf (4096 * page.toNat)).isSome then s else unmapped s := by
  unfold hasHeader at h
  split at h
  · next q k hp =>
    obtain rfl : q = .phase := by simpa using h
    rw [headCommand_of_phase hp, hp]
    rfl
  · next hp =>
    rw [headCommand_of_no_page hoff hal hp, hp]
    rfl

/-! ### What the write of a header register does (R355 to R357) -/

/-- The mailbox page ignores the enables, injections and the lock (R429). -/
theorem headerWrite_mailbox {base : Nat} (hoff : off = 0x010 ∨ off = 0x040 ∨ off = 0x060) : headerWrite .mailbox i base off v s = s :=
  if_pos ⟨rfl, hoff⟩

theorem headerWrite_of_not_mailbox {base : Nat} (hp : p ≠ .mailbox) :
    headerWrite p i base off v s = if off = 0x040 then errInject p i base v s else headWrite p i base off v s :=
  if_neg (fun h => hp h.1)

/-- A write of `BLK_CTRL` with SOFT_RESET and EN, of a block that is neither bound nor rinsing nor locked (R355). -/
theorem blkCtrl_softReset {base : Nat} (hb : (bindState s p i).1 = false) (hr : (bindState s p i).2 = false) (hl : pageLocked s base = false) :
    blkCtrl p i base 9 s = setReg (softReset p i base s) (base + 0x10) 1 := by
  have hfree : ¬ (((bindState s p i).1 || (bindState s p i).2 || pageLocked s base) = true) := by simp [hb, hr, hl]
  have hbit : wbit 9 3 = true := by decide
  unfold blkCtrl
  simp only []
  rw [if_neg hfree, if_pos hbit]
  rfl

/-- A code that the block accepts is raised, or with EFFECT acts as its mechanism (R356, R410). -/
theorem errInject_of_accepted {base : Nat} (h : (injectCodes p).contains (wfld v 15 0) = true) :
    errInject p i base v s =
      if wbit v 16 then injectEffect p i base (wfld v 15 0) s else raiseFault base (wfld v 15 0) (injectTag s p i) s :=
  if_neg (fun hn => hn h)

end

/-- A command on the header of a page that is powered, is not the mailbox page and that nothing blanks. -/
theorem onHeader_of_open {page : BitVec 14} {off i : Nat} {p : PageType} {v : Word} {s : State} (hoff : off < 0x100) (hal : off % 8 = 0)
    (hp : pageOf (4096 * page.toNat) = some (p, i)) (hph : p ≠ .phase) (hmb : p ≠ .mailbox) (hd : domainOn s (pageDomain p i) = true)
    (hbl : blanked s p i = false) : onHeader page off v s =
      .next (if off = 0x040 then errInject p i (4096 * page.toNat) v s else headWrite p i (4096 * page.toNat) off v s) := by
  unfold onHeader
  rw [headCommand_of_open hoff hal hp hph hd hbl, headerWrite_of_not_mailbox hmb]

/-- Settles O48: a header command is the management core's write of one register of the header. -/
theorem headerCommands : Obligations.HeaderCommands := by
  intro page s
  refine ⟨?noHeader, ?mailbox, ?other⟩
  case noHeader =>
    intro h i hi
    have hun : ∀ {off : Nat} {v : Word}, off < 0x100 → off % 8 = 0 → onHeader page off v s =
        .next (if (pageOf (4096 * page.toNat)).isSome then s else bump s (devicePage + 0x818)) :=
      fun hoff hal => congrArg Host.Outcome.next (headCommand_of_no_header hoff hal h)
    simp only [List.mem_cons, List.not_mem_nil, or_false] at hi
    obtain rfl | rfl | rfl | rfl | rfl := hi
    · exact hun (off := 0x010) (by decide) (by decide)
    · exact hun (off := 0x028) (by decide) (by decide)
    · exact hun (off := 0x040) (by decide) (by decide)
    · exact hun (off := 0x060) (by decide) (by decide)
    · exact hun (off := 0x080) (by decide) (by decide)
  case mailbox =>
    intro k v hp hd i hi
    have hun : ∀ {off : Nat} {w : Word}, off = 0x010 ∨ off = 0x040 ∨ off = 0x060 → onHeader page off w s = .next s := by
      intro off w hoff
      have hcmd : headCommand page off w s = headerWrite .mailbox k (4096 * page.toNat) off w s :=
        headCommand_of_open (by omega) (by omega) hp (by decide) hd rfl
      exact congrArg Host.Outcome.next (hcmd.trans (headerWrite_mailbox hoff))
    simp only [List.mem_cons, List.not_mem_nil, or_false] at hi
    obtain rfl | rfl | rfl := hi
    · exact hun (.inl rfl)
    · exact hun (.inr (.inl rfl))
    · exact hun (.inr (.inr rfl))
  case other =>
    intro p i hp hph hmb hd hbl
    refine ⟨?softReset, ?errClear, ?inject, ?lock, ?snap⟩
    case softReset =>
      intro hb hr hl
      exact (onHeader_of_open (off := 0x010) (by decide) (by decide) hp hph hmb hd hbl).trans
        (congrArg Host.Outcome.next (blkCtrl_softReset hb hr hl))
    case errClear =>
      intro v
      exact onHeader_of_open (off := 0x028) (by decide) (by decide) hp hph hmb hd hbl
    case inject =>
      intro v hv
      exact (onHeader_of_open (off := 0x040) (by decide) (by decide) hp hph hmb hd hbl).trans
        (congrArg Host.Outcome.next (errInject_of_accepted hv))
    case lock => exact onHeader_of_open (off := 0x060) (by decide) (by decide) hp hph hmb hd hbl
    case snap =>
      intro hold
      cases hold <;> exact onHeader_of_open (off := 0x080) (by decide) (by decide) hp hph hmb hd hbl

end Sys2Proof.Machine

/-! Power moves, the sequencer's quarters and the steps of bring-up (R374, R375, R379, R380, R392). -/

namespace Sys2Proof.Machine

section
variable {s : State}

/-! ### PWR_CMD (R379, R380) -/

theorem pwrCmd_of_off {op : Nat} (h : s.power.pgood = false) : pwrCmd op s = s :=
  if_pos (by simp [h])

theorem pwrCmd_of_busy {op : Nat} (hg : s.power.pgood = true) (hb : pwrBusy s = true) : pwrCmd op s = mgmtIgnore s := by
  unfold pwrCmd
  rw [if_neg (not_not_intro hg), if_pos hb]

/-- ACTIVE while no move runs: in LISTEN steps 5, 7 and 9 start, elsewhere it counts as ignored. -/
theorem pwrCmd_active (hg : s.power.pgood = true) (hb : pwrBusy s = false) :
    pwrCmd 1 s = if pwrState s = 2 then
      stepBegin 9 (stepBegin 7 (stepBegin 5 (setReg s (mgmtPage + 0x100) (packWord [(63, 1), (8, 3), (4, b2n (bootListen s)), (0, 2)]))))
      else mgmtIgnore s := by
  unfold pwrCmd
  rw [if_neg (not_not_intro hg), if_neg (by simp [hb])]
  rfl

/-- LISTEN while no move runs: in ACTIVE, with every tag FREE, a move down begins. -/
theorem pwrCmd_listen (hg : s.power.pgood = true) (hb : pwrBusy s = false) :
    pwrCmd 2 s = if pwrState s = 3 ∧ tagsFree s then moveDown 2 s else mgmtIgnore s := by
  unfold pwrCmd
  rw [if_neg (not_not_intro hg), if_neg (by simp [hb])]
  rfl

/-- STANDBY while no move runs: in LISTEN and ACTIVE, with every tag FREE, a move down begins. -/
theorem pwrCmd_standby (hg : s.power.pgood = true) (hb : pwrBusy s = false) :
    pwrCmd 3 s = if (pwrState s = 2 ∨ pwrState s = 3) ∧ tagsFree s then moveDown 1 s else mgmtIgnore s := by
  unfold pwrCmd
  rw [if_neg (not_not_intro hg), if_neg (by simp [hb])]
  rfl

/-! ### The ends of a move, of a quarter and of a step -/

/-- The registers and the event of a move down that is done, before a WAKE_N that it held. -/
def movedDown (target : Nat) (s : State) : State :=
  bump (raiseEvent mgmtPage 0 (setReg (domainsOff (moveOff target) s) (mgmtPage + 0x100)
    (packWord [(8, target), (4, b2n (bootListen (domainsOff (moveOff target) s))), (0, target)]))) (mgmtPage + 0x800)

theorem moveDone_of_down (hb : pwrBusy s = true) (ht : regF s (mgmtPage + 0x100) 10 8 < 3)
    (hw : (movedDown (regF s (mgmtPage + 0x100) 10 8) s).power.wakeHeld = false) :
    moveDone s = movedDown (regF s (mgmtPage + 0x100) 10 8) s := by
  have hne : regF s (mgmtPage + 0x100) 10 8 ≠ 3 := Nat.ne_of_lt ht
  have hgo : ¬ (¬ pwrBusy s ∨ (regF s (mgmtPage + 0x100) 10 8 = 3 ∧ ¬ fullyOn s)) := by simp [hb, hne]
  unfold moveDone
  simp only [if_neg hgo, if_neg hne]
  exact if_neg (fun h => Bool.noConfusion (hw.symm.trans h))

/-- The next quarter of step 5 turns on; with the last domain the device is ACTIVE. -/
theorem quarterOn_of_next {k : Nat} (hr : s.power.steps.any (fun k => k / 32 == 5) = true)
    (hk : (List.range 16).find? (fun k => !domainOn s (quarterAt k)) = some k) :
    quarterOn s = if fullyOn (domainsOn [quarterAt k] s) ∧ ¬ pwrBusy (domainsOn [quarterAt k] s) then
      setPwrState 3 (domainsOn [quarterAt k] s) else domainsOn [quarterAt k] s := by
  unfold quarterOn
  rw [if_neg (not_not_intro hr), hk]

/-- A running unit of a step that passed, but for the steps that boot the root of trust, zero the clusters or are the fabric core's. -/
theorem stepEnd_of_passed {n u : Nat} (h2 : n ≠ 2) (h5 : n ≠ 5) (h8 : n ≠ 8) (hr : s.power.steps.contains (32 * n + u) = true) :
    stepEnd n u true s = stepFollow n (stepReady n u
      (stepWork n u { s with power := { s.power with steps := s.power.steps.filter (· != 32 * n + u) } })) := by
  have hrun : ¬ (¬ s.power.steps.contains (32 * n + u) ∨ (n = 5 ∧ ¬ dieOn s u)) :=
    fun h => h.elim (fun hn => hn hr) (fun hd => h5 hd.1)
  unfold stepEnd
  simp only [if_neg h8, if_neg hrun, if_neg h2, if_true]

end

/-- Settles O50: each clause is one branch of PWR_CMD, of the end of a move, of the sequencer or of a step's end. -/
theorem powerMoves : Obligations.PowerMoves := by
  intro s
  refine ⟨?off, ?idle, ?busy, ?done, ?quarter, ?step⟩
  case off =>
    intro hg
    exact ⟨congrArg Host.Outcome.next (pwrCmd_of_off hg), congrArg Host.Outcome.next (pwrCmd_of_off hg),
      congrArg Host.Outcome.next (pwrCmd_of_off hg)⟩
  case idle =>
    intro hg hb
    refine ⟨fun h => ?_, fun h => ?_, fun h hf => ?_, fun h => ?_, fun h hf => ?_, fun h => ?_⟩
    · exact congrArg Host.Outcome.next ((pwrCmd_active hg hb).trans (if_pos h))
    · exact congrArg Host.Outcome.next ((pwrCmd_active hg hb).trans (if_neg h))
    · exact congrArg Host.Outcome.next ((pwrCmd_listen hg hb).trans (if_pos ⟨h, hf⟩))
    · have hno : ¬ (pwrState s = 3 ∧ tagsFree s) := fun ⟨h3, hf⟩ => h.elim (· h3) (by simp [hf])
      exact congrArg Host.Outcome.next ((pwrCmd_listen hg hb).trans (if_neg hno))
    · exact congrArg Host.Outcome.next ((pwrCmd_standby hg hb).trans (if_pos ⟨h, hf⟩))
    · have hno : ¬ ((pwrState s = 2 ∨ pwrState s = 3) ∧ tagsFree s) :=
        fun ⟨h23, hf⟩ => h.elim (fun ⟨h2, h3⟩ => h23.elim h2 h3) (by simp [hf])
      exact congrArg Host.Outcome.next ((pwrCmd_standby hg hb).trans (if_neg hno))
  case busy =>
    intro hg hb
    exact ⟨congrArg Host.Outcome.next (pwrCmd_of_busy hg hb), congrArg Host.Outcome.next (pwrCmd_of_busy hg hb),
      congrArg Host.Outcome.next (pwrCmd_of_busy hg hb)⟩
  case done =>
    intro hb ht target s1 s2 hw
    exact congrArg Host.Outcome.next (moveDone_of_down hb ht hw)
  case quarter =>
    intro k hr hk
    exact congrArg Host.Outcome.next (quarterOn_of_next hr hk)
  case step =>
    intro n u h2 h5 h8 hr
    exact congrArg Host.Outcome.next (stepEnd_of_passed h2 h5 h8 hr)

end Sys2Proof.Machine

/-! Inputs, reset, the module's supply and its sideband bus (R381, R387 to R391, R433 to R436, R441). -/

namespace Sys2Proof.Machine

/-! ### Assertions of the inputs (R387, R388, R391, R425) -/

/-- The state in which an accepted assertion of an input acts or merges: its level is shown and its time kept. -/
def pinAsserted (pin : InputPin) (s : State) : State :=
  let s1 := setBit s (mgmtPage + 0x120) (pinBit pin)
  { s1 with power := { s1.power with lastIn := tblSet 0 s1.power.lastIn (pinBit pin) (devTime s1 + 1) } }

/-- The level bit of an input is not its stuck bit. -/
theorem wbit_stuck_or_level (pin : InputPin) (w : Word) : wbit (w ||| BitVec.ofNat 64 (2 ^ pinBit pin)) (8 + pinBit pin) = wbit w (8 + pinBit pin) := by
  have hbit : (BitVec.ofNat 64 (2 ^ pinBit pin)).getLsbD (8 + pinBit pin) = false := by cases pin <;> decide
  simp only [wbit, BitVec.getLsbD_or, hbit, Bool.or_false]

section
variable {pin : InputPin} {s : State}

theorem pinStuck_setBit (hw : regsWf s.regs = true) : pinStuck (setBit s (mgmtPage + 0x120) (pinBit pin)) pin = pinStuck s pin := by
  have hreg : reg (setBit s (mgmtPage + 0x120) (pinBit pin)) (mgmtPage + 0x120) = reg s (mgmtPage + 0x120) ||| BitVec.ofNat 64 (2 ^ pinBit pin) :=
    (reg_setReg s _ _ _ hw).trans (if_pos rfl)
  unfold pinStuck
  rw [hreg]
  exact wbit_stuck_or_level pin _

/-- Counting an event in another register leaves the stuck bits. -/
theorem pinStuck_bump {a : Nat} (hw : regsWf s.regs = true) (ha : mgmtPage + 0x120 ≠ a) : pinStuck (bump s a) pin = pinStuck s pin := by
  have hreg : reg (bump s a) (mgmtPage + 0x120) = reg s (mgmtPage + 0x120) := by
    rw [bump_eq_setReg]
    exact (reg_setReg s _ _ _ hw).trans (if_neg ha)
  unfold pinStuck
  rw [hreg]

/-- An assertion of an input that is not masked on a device that is awake (R387, R388): it merges, or it acts. -/
theorem pinAssert_of_awake {act : State → State} (hw : regsWf s.regs = true) (ha : awake s = true) (hst : pinStuck s pin = false) :
    pinAssert pin act s =
      if tblGet 0 s.power.lastIn (pinBit pin) ≠ 0 ∧ devTime s ≤ tblGet 0 s.power.lastIn (pinBit pin) - 1 + 50 then
        bump (pinAsserted pin s) (mgmtPage + 0x810)
      else act (pinAsserted pin s) := by
  have hst' : ¬ pinStuck (setBit s (mgmtPage + 0x120) (pinBit pin)) pin = true := by rw [pinStuck_setBit hw, hst]; decide
  unfold pinAssert
  rw [if_neg (not_not_intro ha)]
  simp only [if_neg hst']
  rfl

theorem pinAssert_of_apart {act : State → State} (hw : regsWf s.regs = true) (ha : awake s = true) (hst : pinStuck s pin = false)
    (hm : tblGet 0 s.power.lastIn (pinBit pin) = 0 ∨ tblGet 0 s.power.lastIn (pinBit pin) - 1 + 50 < devTime s) :
    pinAssert pin act s = act (pinAsserted pin s) := by
  rw [pinAssert_of_awake hw ha hst]
  exact if_neg (fun ⟨hne, hle⟩ => hm.elim hne (Nat.not_lt.mpr hle))

theorem pinAssert_of_merged {act : State → State} (hw : regsWf s.regs = true) (ha : awake s = true) (hst : pinStuck s pin = false)
    (hne : tblGet 0 s.power.lastIn (pinBit pin) ≠ 0) (hle : devTime s ≤ tblGet 0 s.power.lastIn (pinBit pin) - 1 + 50) :
    pinAssert pin act s = bump (pinAsserted pin s) (mgmtPage + 0x810) :=
  (pinAssert_of_awake hw ha hst).trans (if_pos ⟨hne, hle⟩)

/-- What an accepted WAKE_N does: it is held during a move down, and acts at once at any other time (R381). -/
def wakeTaken (s : State) : State :=
  if pwrBusy s ∧ regF s (mgmtPage + 0x100) 10 8 < 3 then { s with power := { s.power with wakeHeld := true } } else wakeAct s

/-- WAKE_CNT counts an assertion of WAKE_N that is not masked, and the assertion then acts or merges. -/
theorem wakeIn_of_awake (ha : awake s = true) (hst : pinStuck s .wake = false) :
    wakeIn s = pinAssert .wake wakeTaken (bump s (mgmtPage + 0x820)) := by
  have hc : awake s ∧ ¬ pinStuck s .wake := ⟨ha, by simp [hst]⟩
  unfold wakeIn
  rw [if_pos hc]
  rfl

theorem bump_regsWf {a : Nat} (hw : regsWf s.regs = true) : regsWf (bump s a).regs = true := by
  rw [bump_eq_setReg]
  exact setReg_regsWf s _ _ hw

theorem wakeIn_of_apart (hw : regsWf s.regs = true) (ha : awake s = true) (hst : pinStuck s .wake = false)
    (hm : tblGet 0 s.power.lastIn (pinBit .wake) = 0 ∨ tblGet 0 s.power.lastIn (pinBit .wake) - 1 + 50 < devTime s) :
    wakeIn s = wakeTaken (pinAsserted .wake (bump s (mgmtPage + 0x820))) :=
  (wakeIn_of_awake ha hst).trans
    (pinAssert_of_apart (bump_regsWf hw) ha ((pinStuck_bump hw (by decide)).trans hst) hm)

theorem wakeIn_of_merged (hw : regsWf s.regs = true) (ha : awake s = true) (hst : pinStuck s .wake = false)
    (hne : tblGet 0 s.power.lastIn (pinBit .wake) ≠ 0) (hle : devTime s ≤ tblGet 0 s.power.lastIn (pinBit .wake) - 1 + 50) :
    wakeIn s = bump (pinAsserted .wake (bump s (mgmtPage + 0x820))) (mgmtPage + 0x810) :=
  (wakeIn_of_awake ha hst).trans
    (pinAssert_of_merged (bump_regsWf hw) ha ((pinStuck_bump hw (by decide)).trans hst) hne hle)

end

/-- Settles O56: a merged assertion counts and does nothing else but keep its level and time. -/
theorem mergedAssertions : Obligations.MergedAssertions := by
  intro s pin hs ha hst hne hle
  obtain ⟨-, hw, -, -⟩ := sound_iff.mp hs
  refine ⟨?sync, ?tamper, ?wake⟩
  case sync =>
    rintro rfl
    exact congrArg Host.Outcome.next (pinAssert_of_merged hw ha hst hne hle)
  case tamper =>
    rintro rfl
    exact congrArg Host.Outcome.next (pinAssert_of_merged hw ha hst hne hle)
  case wake =>
    rintro rfl
    exact congrArg Host.Outcome.next (wakeIn_of_merged hw ha hst hne hle)

section
variable {s : State}

/-! ### Stuck inputs, SYNC_OUT and RESET_N (R389 to R391, R434) -/

theorem pinStick_of_held {pin : InputPin} (ha : awake s = true) (ht : stuckTmo s pin ≠ 0) (hst : pinStuck s pin = false)
    (hl : wbit (reg s (mgmtPage + 0x120)) (pinBit pin) = true) :
    pinStick pin s = bump (raiseFault mgmtPage 0x7005 none (setBit s (mgmtPage + 0x120) (8 + pinBit pin))) (mgmtPage + 0x818) :=
  if_neg (by simp [ha, ht, hst, hl])

theorem pinRearm_of_released {pin : InputPin} (hst : pinStuck s pin = true) (hl : wbit (reg s (mgmtPage + 0x120)) (pinBit pin) = false) :
    pinRearm pin s = raiseEvent mgmtPage 3 (setRegF s (mgmtPage + 0x120) (8 + pinBit pin) (8 + pinBit pin) 0) :=
  if_neg (by simp [hst, hl])

theorem syncOut_of_off (hg : s.power.pgood = false) : syncOut s = s := if_pos (by simp [hg])

theorem syncOut_of_idle (hg : s.power.pgood = true) (ho : s.power.syncOut = false) :
    syncOut s = setReg { s with power := { s.power with syncOut := true } } (mgmtPage + 0x140) (BitVec.ofNat 64 ((devTime s + 1) % 2 ^ 48)) := by
  unfold syncOut
  rw [if_neg (not_not_intro hg), if_neg (by simp [ho])]

/-- A release that ends the reset: time 0 of bring-up (R392), where no input fault asks for a further cycle of RESET_N. -/
theorem resetRelease_of_ended (hg : s.power.pgood = true) (hr : s.power.inReset = true) (hf : s.power.faultPin = false ∨ s.power.cycled = true) :
    resetRelease s = stepBegin 1 (setReg { s with
      power := { s.power with inReset := false, faultPin := false, cycled := false }, t0 := s.cycle } (mgmtPage + 0x198) 0) := by
  unfold resetRelease
  rw [if_neg (by simp [hg, hr]), if_neg (fun ⟨hp, hc⟩ => hf.elim (fun h => by simp [h] at hp) hc)]

/-- A release after an input fault that struck while RESET_N was held. -/
theorem resetRelease_of_struck (hg : s.power.pgood = true) (hr : s.power.inReset = true) (hf : s.power.faultPin = true)
    (hc : s.power.cycled = false) : resetRelease s = { s with power := { s.power with inReset := false } } := by
  unfold resetRelease
  rw [if_neg (by simp [hg, hr]), if_pos ⟨hf, by simp [hc]⟩]

/-! ### PWR_EN and the input (R433 to R436) -/

/-- A state whose PWR_EN is asserted does not change by its assertion. -/
theorem pwrEn_asserted (h : s.power.pwrEn = true) : { s with power := { s.power with pwrEn := true } } = s := by
  rw [← h]

theorem pwrEnable_of_off (hg : s.power.pgood = false) (hi : s.power.input = true) :
    pwrEnable s = resetDevice { s with power := { s.power with pwrEn := true, pgood := true } } :=
  if_neg (by simp [hg, hi])

theorem pwrEnable_of_on (hg : s.power.pgood = true) : pwrEnable s = { s with power := { s.power with pwrEn := true } } :=
  if_pos (.inl hg)

theorem vinFault_of_on {high : Bool} (hg : s.power.pgood = true) :
    vinFault high s = bump (setBit (allOff { s with power := { s.power with input := false } }) (mgmtPage + 0x198) (if high then 62 else 63))
      (mgmtPage + 0x868) :=
  if_neg (not_not_intro hg)

/-- The input's return powers nothing up without PWR_EN, nor a device that is on. -/
theorem vinReturn_of_kept (h : s.power.pwrEn = false ∨ s.power.pgood = true) :
    vinReturn s = { s with power := { s.power with input := true } } := by
  unfold vinReturn
  simp only []
  split
  · next hen =>
    have hg : s.power.pgood = true := h.resolve_left (by simpa using hen)
    rw [pwrEnable_of_on (s := { s with power := { s.power with input := true } }) hg]
    exact pwrEn_asserted (s := { s with power := { s.power with input := true } }) hen
  · rfl

theorem vinReturn_of_off (he : s.power.pwrEn = true) (hg : s.power.pgood = false) :
    vinReturn s = resetDevice { s with power := { s.power with input := true, pgood := true } } := by
  have hon : pwrEnable { s with power := { s.power with input := true } } =
      resetDevice { s with power := { s.power with input := true, pwrEn := true, pgood := true } } := pwrEnable_of_off hg rfl
  unfold vinReturn
  rw [if_pos he, hon, ← he]

/-! ### The sideband bus (R441) -/

theorem i3cWrite_of_pointer {b : Byte} (hg : s.power.pgood = true) :
    i3cWrite ⟨i3cAddress s, [b]⟩ s = { s with power := { s.power with i3cPtr := b, i3cAck := true } } :=
  if_pos ⟨hg, rfl⟩

theorem i3cRead_of_addressed {n : Nat} (hg : s.power.pgood = true) : i3cRead ⟨i3cAddress s, n⟩ s = { s with power := { s.power with
    i3cOut := ((i3cBytes s).drop s.power.i3cPtr.toNat ++ List.replicate n 0).take n, i3cAck := true } } :=
  if_pos ⟨hg, rfl⟩

theorem i3cRead_of_not_addressed {addr n : Nat} (h : s.power.pgood = false ∨ addr ≠ i3cAddress s) :
    i3cRead ⟨addr, n⟩ s = { s with power := { s.power with i3cAck := false } } :=
  if_neg (fun ⟨hg, ha⟩ => h.elim (fun h0 => by simp [h0] at hg) (fun hne => hne ha))

/-- A write that another module is addressed by, or that is not one byte, is NACKed. -/
theorem i3cWrite_of_refused {addr : Nat} {bytes : List Byte} (h : s.power.pgood = false ∨ addr ≠ i3cAddress s ∨ bytes.length ≠ 1) :
    i3cWrite ⟨addr, bytes⟩ s = { s with power := { s.power with i3cAck := false } } := by
  unfold i3cWrite
  simp only []
  split
  · next hok =>
    obtain ⟨hg, ha⟩ := hok
    have hlen : bytes.length ≠ 1 := (h.resolve_left (by simp [hg])).resolve_left (not_not_intro ha)
    split
    · exact absurd rfl hlen
    · rfl
  · rfl

end

/-- Settles O51: each clause is one branch of an input, of RESET_N, of the supply or of the sideband bus. -/
theorem pinsAndSupply : Obligations.PinsAndSupply := by
  intro s hs
  obtain ⟨-, hw, -, -⟩ := sound_iff.mp hs
  refine ⟨?pins, ?resetAssert, ?resetRelease, ?stuck, ?rearm, ?deassert, ?syncOff, ?syncOut, rfl, ?pwrEn, rfl, ?vinFault, rfl, ?vinKept, ?vinOn,
    ?i3c, ?nack⟩
  case pins =>
    intro pin ha hst hm asserted
    refine ⟨?sync, ?tamper, ?wake⟩
    case sync =>
      rintro rfl
      exact congrArg Host.Outcome.next (pinAssert_of_apart hw ha hst hm)
    case tamper =>
      rintro rfl
      exact congrArg Host.Outcome.next (pinAssert_of_apart hw ha hst hm)
    case wake =>
      rintro rfl hb
      have hno : ¬ (pwrBusy (pinAsserted .wake (bump s (mgmtPage + 0x820))) = true ∧
          regF (pinAsserted .wake (bump s (mgmtPage + 0x820))) (mgmtPage + 0x100) 10 8 < 3) :=
        fun h => Bool.noConfusion (hb.symm.trans h.1)
      exact congrArg Host.Outcome.next ((wakeIn_of_apart hw ha hst hm).trans (if_neg hno))
  case resetAssert =>
    intro hg
    exact congrArg Host.Outcome.next (if_neg (not_not_intro hg))
  case resetRelease =>
    intro hg hr
    exact ⟨fun hf => congrArg Host.Outcome.next (resetRelease_of_ended hg hr hf),
      fun hf hc => congrArg Host.Outcome.next (resetRelease_of_struck hg hr hf hc)⟩
  case stuck =>
    intro pin ha ht hst hl
    exact congrArg Host.Outcome.next (pinStick_of_held ha ht hst hl)
  case rearm =>
    intro pin hst hl
    exact congrArg Host.Outcome.next (pinRearm_of_released hst hl)
  case deassert => exact fun pin => rfl
  case syncOff => exact fun hg => congrArg Host.Outcome.next (syncOut_of_off hg)
  case syncOut => exact fun hg ho => congrArg Host.Outcome.next (syncOut_of_idle hg ho)
  case pwrEn => exact fun hg hi => congrArg Host.Outcome.next (pwrEnable_of_off hg hi)
  case vinFault => exact fun high hg => congrArg Host.Outcome.next (vinFault_of_on hg)
  case vinKept => exact fun h => congrArg Host.Outcome.next (vinReturn_of_kept h)
  case vinOn => exact fun he hg => congrArg Host.Outcome.next (vinReturn_of_off he hg)
  case i3c =>
    intro hg
    exact ⟨fun b => congrArg Host.Outcome.next (i3cWrite_of_pointer hg), fun n => congrArg Host.Outcome.next (i3cRead_of_addressed hg)⟩
  case nack =>
    intro addr n bytes nack
    exact ⟨fun h => congrArg Host.Outcome.next (i3cRead_of_not_addressed h), fun h => congrArg Host.Outcome.next (i3cWrite_of_refused h)⟩

end Sys2Proof.Machine

/-! The mailbox commands of the management core (R416 to R421, R424, R427, R428). -/

namespace Sys2Proof.Machine

/-- What a command does once the mailbox takes it: the command of an operation code, with its input bytes. -/
def mbxTaken (host : Bool) (op : Nat) (b : List Byte) (s : State) : State :=
  match op with
  | 0x01 => mbxNonce host s
  | 0x02 => mbxCert host b s
  | 0x03 => mbxQuote host b s
  | 0x04 => mbxExtend host b s
  | 0x05 => mbxCommit host s
  | 0x06 => mbxLog host s
  | 0x10 => mbxPolicy host b s
  | 0x11 => mbxUnlock host b s
  | 0x12 => mbxClear host b s
  | _ => mbxInject host b s

section
variable {s : State}

/-- The mailbox takes a command with its number of input bytes where none runs (R419). -/
theorem mbxRun_of_idle {host : Bool} {op : Nat} (hb : mbxBusyBit s = false) (hop : mbxOp op = true) :
    mbxRun host op (mbxLen op) s = mbxTaken host op (mbxInput s (mbxLen op)) s := by
  have hidle : ¬ wbit (reg s (mailboxPage + 0x108)) 63 = true := fun h => Bool.noConfusion (hb.symm.trans h)
  have hwell : ¬ (¬ mbxOp op = true ∨ mbxLen op ≠ mbxLen op) := by simp [hop]
  exact (if_neg hidle).trans (if_neg hwell)

/-- A command by the management core, with the mailbox powered and no command running. -/
theorem mbxCommand_of_idle {op : Nat} (hd : domainOn s 1 = true) (hb : mbxBusyBit s = false) (hop : mbxOp op = true) :
    mbxCommand .mgmt op s = mbxTaken false op (mbxInput s (mbxLen op)) s :=
  (if_pos hd).trans (mbxRun_of_idle hb hop)

/-! ### One command each -/

theorem mbxCert_of_index {host : Bool} {b : List Byte} (hi : recF b 0 1 ≤ 1) :
    mbxCert host b s =
      (let s1 := if recF b 0 1 = 0 then mramRead (secEvent 6 false) 1 s else s
       match certBytes s1 (recF b 0 1) with
       | some l => mbxDone host 0 0 l s1
       | none => mbxRefuse host 4 s1) :=
  if_neg (Nat.not_lt.mpr hi)

theorem mbxQuote_of_key {host : Bool} {b : List Byte} {k : BitVec 384} (hk : s.rot.aliasKey = some k) :
    mbxQuote host b s = mbxDone host 0 0 (quoteBytes s k (b.take 32) (recF b 32 1)) s := by
  unfold mbxQuote
  rw [hk]

/-- EXTEND by the management core of one of the registers that commands extend (R419). -/
theorem mbxExtend_of_index {b : List Byte} (hlo : 4 ≤ recF b 0 1) (hhi : recF b 0 1 ≤ 7) :
    mbxExtend false b s = mbxDone false 0 0 [] (extendPcr (recF b 0 1) (b.drop 1) s) := by
  unfold mbxExtend
  rw [if_neg (by omega), if_neg (by simp)]

/-- COMMIT_SVN by the management core raises both rollback counters to the SVN of the running images (R416). -/
theorem mbxCommit_of_mgmt (s : State) :
    mbxCommit false s =
      (let s1 := mramRead (secEvent 6 false) 3 s
       let svn := fun (t : Nat) => max (fwSvn s1 t) (recF (fwHeader s1 (bootedSlot s1) t) 8 4)
       mbxDone false 0 0 (leBytes 4 (svn 1) ++ leBytes 4 (svn 2)) (mramWrite 3 (leBytes 4 (svn 1) ++ leBytes 4 (svn 2)) s1)) := by
  unfold mbxCommit
  rw [if_neg Bool.false_ne_true]

/-- POLICY_UPDATE: a record that is sound and that the quorum signs waits for its write to MRAM (R421). -/
theorem mbxTaken_policy (b : List Byte) (s : State) :
    mbxTaken false 0x10 b s =
      if policyBad s (b.take 512) then mbxDone false 0x8008 1 [] (dropNonce s)
      else if quorumOk s 0x10 (b.take 512) (b.drop 512) then
        mbxBusy false { (dropNonce s) with rot := { (dropNonce s).rot with newPolicy := some (b.take 512) } }
      else quorumFail false s := by
  simp only [mbxTaken, mbxPolicy, withQuorum, mbxRefuse]

/-- DEBUG_UNLOCK of an input, a policy, a level and a debug state that allow it is left to the quorum (R424). -/
theorem mbxUnlock_of_allowed {b : List Byte} (hb : recF b 0 8 ≤ 3) (hp : bit (policyField s 9 1) 0 = true) (hl : s.rot.level.toNat < 2)
    (hd : s.rot.dbg = 0) :
    mbxUnlock false b s = withQuorum false 0x11 8 b s (fun s =>
      unlockGo (killAll (mbxBusy false { s with rot := { s.rot with unlocking := true, unlockPaths := BitVec.ofNat 2 (recF b 0 1) } }))) := by
  have hok : ¬ (¬ bit (policyField s 9 1) 0 = true ∨ 2 ≤ s.rot.level.toNat ∨ s.rot.dbg ≠ 0) := by simp [hp, hl, hd]
  exact (if_neg (Nat.not_lt.mpr hb)).trans (if_neg hok)

/-- ALARM_CLEAR where the level, the tamper input and the policy record allow it is left to the quorum (R427). -/
theorem mbxClear_of_allowed {b : List Byte} (hb : recF b 0 8 = 0) (hl : s.rot.level ≠ 3) (hc : causeHolds s 0 = false) (hm : mramBad s 4 = false) :
    mbxClear false b s = withQuorum false 0x12 8 b s (fun s =>
      mbxDone false 0 0 [] (setRegF { s with rot := { s.rot with level := 0 } } (mailboxPage + 0x118) 7 0 0)) := by
  have hok : ¬ (s.rot.level = 3 ∨ causeHolds s 0 = true ∨ mramBad s 4 = true) := not_or.mpr ⟨hl, by simp [hc, hm]⟩
  exact (if_neg (not_not_intro hb)).trans (if_neg hok)

theorem mbxInject_of_allowed {b : List Byte} (hp : bit (policyField s 10 1) 0 = true) (he : recF b 0 1 ≤ 6) :
    mbxInject false b s = mbxDone false 0 0 [] (secEvent (recF b 0 1) true s) := by
  unfold mbxInject
  rw [if_neg Bool.false_ne_true, if_neg (not_not_intro hp), if_neg (Nat.not_lt.mpr he)]

theorem mbxInject_of_forbidden {b : List Byte} (hp : bit (policyField s 10 1) 0 = false) : mbxInject false b s = mbxRefuse false 4 s := by
  unfold mbxInject
  rw [if_neg Bool.false_ne_true, if_pos (by simp [hp])]

end

/-- Settles O53: an idle mailbox takes each command, which then goes its one way. -/
theorem mailboxCommands : Obligations.MailboxCommands := by
  intro s hd hb inp d
  have hcmd : ∀ {op : Nat} {t : State}, mbxOp op = true → mbxTaken false op (mbxInput s (mbxLen op)) s = t →
      Host.Outcome.next (mbxCommand .mgmt op s) = (.next t : Result) :=
    fun hop ht => congrArg Host.Outcome.next ((mbxCommand_of_idle hd hb hop).trans ht)
  refine ⟨?nonce, fun hi => ?cert, fun k hk => ?quote, fun hlo hhi => ?extend, ?commit, ?log, ?policy, fun h3 hp hl hdb => ?unlock,
    fun h0 hl hc hm => ?clear, fun hp he => ?inject, fun hp => ?injectOff⟩
  case nonce => exact hcmd (op := 0x01) rfl rfl
  case cert => exact hcmd (op := 0x02) rfl (mbxCert_of_index hi)
  case quote => exact hcmd (op := 0x03) rfl (mbxQuote_of_key hk)
  case extend => exact hcmd (op := 0x04) rfl (mbxExtend_of_index hlo hhi)
  case commit => exact hcmd (op := 0x05) rfl (mbxCommit_of_mgmt s)
  case log => exact hcmd (op := 0x06) rfl rfl
  case policy => exact hcmd (op := 0x10) rfl (mbxTaken_policy (mbxInput s (mbxLen 0x10)) s)
  case unlock => exact hcmd (op := 0x11) rfl (mbxUnlock_of_allowed h3 hp hl hdb)
  case clear => exact hcmd (op := 0x12) rfl (mbxClear_of_allowed h0 hl hc hm)
  case inject => exact hcmd (op := 0x20) rfl (mbxInject_of_allowed hp he)
  case injectOff => exact hcmd (op := 0x20) rfl (mbxInject_of_forbidden hp)

end Sys2Proof.Machine

/-! Security events: the policy's taking effect, glitches, JTAG and the generator's seed (R412, R421, R423, R425). -/

namespace Sys2Proof.Machine

section
variable {s : State}

/-- The record of a POLICY_UPDATE is written to MRAM, installed and measured. -/
def policyMeasured (b : List Byte) (s : State) : State :=
  extendPcr 2 (sha384 b) (mramWrite 4 b { s with rot := { s.rot with
    newPolicy := none, policy := b, policyWas := some (s.cycle, policyBytes s) } })

/-- The control endpoint of a port after the policy changed from that of an old state: one that moves takes its queue pair through RESET (R422). -/
def endpointMoved (old : State) (p : Nat) (s : State) : State :=
  if ¬ unowned old ∧ policyEndpoint old p = policyEndpoint s p then s
  else
    let s := ctlReset p (putHp s p { getHp s p with held := none })
    if devReady s (2 + p) then ctlBringUp p s else s

/-- The taking effect of the record that waits: it is installed, the endpoints that change move, and the command completes (R421). -/
theorem policyInstall_of_waiting {b : List Byte} (hb : s.rot.newPolicy = some b) :
    policyInstall s =
      (let t := forAll (List.range 4) (policyMeasured b s) (endpointMoved s)
       mbxDone (mbxByHost t) 0 0 [] t) := by
  unfold policyInstall
  rw [hb]
  rfl

/-- An instruction of closed JTAG other than IDCODE and BYPASS is a debug probe (R423). -/
theorem jtagShift_of_closed (h : s.rot.dbg.getLsbD 0 = false) :
    jtagShift .other s = secEvent 5 false (bump { s with rot := { s.rot with tapReg := 0 } } (mailboxPage + 0x818)) :=
  if_neg (fun hopen => Bool.noConfusion (h.symm.trans hopen))

theorem jtagShift_of_open (h : s.rot.dbg.getLsbD 0 = true) :
    jtagShift .other s = { s with rot := { s.rot with tapReg := (Config.freeValue s.free).setWidth 32 }, free := s.free + 1 } :=
  if_pos h

end

/-- Settles O54: each clause is one branch of the policy's installation, of a JTAG instruction or of an event. -/
theorem securityEvents : Obligations.SecurityEvents := by
  intro s
  refine ⟨fun b hb => ?policy, rfl, rfl, rfl, rfl, fun h => ?closed, fun h => ?opened, rfl⟩
  case policy => exact congrArg Host.Outcome.next (policyInstall_of_waiting hb)
  case closed => exact congrArg Host.Outcome.next (jtagShift_of_closed h)
  case opened => exact congrArg Host.Outcome.next (jtagShift_of_open h)

end Sys2Proof.Machine

/-! The phase walker's commands (R121, R125, R201, R354). -/

namespace Sys2Proof.Machine

section
variable {s : State} {c : Nat}

/-! ### The states that take a command (R121) -/

theorem walkerIn_startable :
    walkerIn s c [.idle, .call, .done] = true ↔ (getWalker s c).st = .idle ∨ (getWalker s c).st = .call ∨ (getWalker s c).st = .done := by
  simp [walkerIn]

theorem walkerIn_stopped : walkerIn s c [.stopped] = true ↔ (getWalker s c).st = .stopped := by simp [walkerIn]

theorem walkerIn_clearable :
    walkerIn s c [.idle, .stopped, .call, .done] = true ↔
      (getWalker s c).st = .idle ∨ (getWalker s c).st = .stopped ∨ (getWalker s c).st = .call ∨ (getWalker s c).st = .done := by
  simp [walkerIn]

/-- The state in which the walker waits for entry e with `PHASE_FAULT` cleared. -/
def walkerWaits (c : Nat) (e : BitVec 8) (s : State) : State :=
  let t := setReg s (clusterBase c + 0x148) 0
  putWalker t c { getWalker t c with
    st := .sampling, wait := e, fill := false, chosen := none, waitFrom := none, waitCnt := 0, stalled := false, unmet := 0, skip := false }

theorem waitFor_clearPhaseFault (e : BitVec 8) : waitFor c e.toNat (clearPhaseFault c s) = walkerWaits c e s := by
  unfold waitFor clearPhaseFault walkerWaits
  rw [BitVec.ofNat_toNat, BitVec.setWidth_eq]

theorem walkerStart_of_idle (e : BitVec 8)
    (hst : (getWalker s c).st = .idle ∨ (getWalker s c).st = .call ∨ (getWalker s c).st = .done) (hen : blkEn s (clusterBase c) = true)
    (hrun : (getClu s c).run = none) : walkerStart c e.toNat s = walkerWaits c e s := by
  unfold walkerStart
  rw [if_neg (not_not_intro (walkerIn_startable.mpr hst)), if_neg (not_not_intro hen)]
  dsimp only
  rw [hrun, if_neg (by decide), waitFor_clearPhaseFault]

theorem walkerStart_of_running (e : BitVec 8)
    (hst : (getWalker s c).st = .idle ∨ (getWalker s c).st = .call ∨ (getWalker s c).st = .done) (hen : blkEn s (clusterBase c) = true)
    (hrun : (getClu s c).run ≠ none) : walkerStart c e.toNat s = putClu s c { getClu s c with heldStart := some e } := by
  unfold walkerStart
  rw [if_neg (not_not_intro (walkerIn_startable.mpr hst)), if_neg (not_not_intro hen)]
  dsimp only
  rw [if_pos (Option.isSome_iff_ne_none.mpr hrun), BitVec.ofNat_toNat, BitVec.setWidth_eq]

theorem walkerStart_of_other (e : Nat)
    (hst : ¬ ((getWalker s c).st = .idle ∨ (getWalker s c).st = .call ∨ (getWalker s c).st = .done)) :
    walkerStart c e s = bump s (clusterBase c + 0x828) := if_pos (mt walkerIn_startable.mp hst)

theorem walkerStart_of_disabled (e : Nat)
    (hst : (getWalker s c).st = .idle ∨ (getWalker s c).st = .call ∨ (getWalker s c).st = .done) (hen : blkEn s (clusterBase c) = false) :
    walkerStart c e s = s := by
  unfold walkerStart
  rw [if_neg (not_not_intro (walkerIn_startable.mpr hst)), if_pos (by simp [hen])]

theorem walkerResume_of_stopped (e : BitVec 8) (hst : (getWalker s c).st = .stopped) :
    walkerResume c e.toNat s = if blkEn s (clusterBase c) then walkerWaits c e s else s := by
  unfold walkerResume
  rw [if_neg (not_not_intro (walkerIn_stopped.mpr hst)), waitFor_clearPhaseFault]

theorem walkerResume_of_other (e : Nat) (hst : (getWalker s c).st ≠ .stopped) : walkerResume c e s = bump s (clusterBase c + 0x828) :=
  if_pos (mt walkerIn_stopped.mp hst)

theorem walkerStop_of_stopped (hst : (getWalker s c).st = .stopped) : walkerStop c s = bump s (clusterBase c + 0x828) := by
  unfold walkerStop
  dsimp only
  rw [hst]
  rfl

theorem walkerStop_of_idle (hst : (getWalker s c).st = .idle) : walkerStop c s = s := by
  unfold walkerStop
  dsimp only
  rw [hst]

theorem walkerStop_of_running (hst : (getWalker s c).st = .running) :
    walkerStop c s = putWalker s c { getWalker s c with stopReq := true } := by
  unfold walkerStop
  dsimp only
  rw [hst]

theorem walkerStop_of_waiting
    (hst : (getWalker s c).st = .sampling ∨ (getWalker s c).st = .barrier ∨ (getWalker s c).st = .call ∨ (getWalker s c).st = .done) :
    walkerStop c s = putWalker { s with arrivals := s.arrivals.filter (fun a => a.cluster != c) } c
      { getWalker s c with st := .idle, chosen := none, waitFrom := none } := by
  unfold walkerStop
  dsimp only
  rcases hst with h | h | h | h
  case inl | inr.inl | inr.inr.inl | inr.inr.inr => rw [h]; rfl

theorem walkerClearDone_of_resting
    (hst : (getWalker s c).st = .idle ∨ (getWalker s c).st = .stopped ∨ (getWalker s c).st = .call ∨ (getWalker s c).st = .done) :
    walkerClearDone c s = setReg (setReg (setReg (setReg (setReg s (clusterBase c + 0x148) 0) (clusterBase c + 0x128) 0)
      (clusterBase c + 0x130) 0) (clusterBase c + 0x138) 0) (clusterBase c + 0x140) 0 := if_pos (walkerIn_clearable.mpr hst)

theorem walkerClearDone_of_other
    (hst : ¬ ((getWalker s c).st = .idle ∨ (getWalker s c).st = .stopped ∨ (getWalker s c).st = .call ∨ (getWalker s c).st = .done)) :
    walkerClearDone c s = bump s (clusterBase c + 0x828) := if_neg (mt walkerIn_clearable.mp hst)

end

/-- Settles O21: a refused write goes where every write to the cluster goes; one let through by the walker's state. -/
theorem walkerCommands : Obligations.WalkerCommands := by
  intro c s hc
  refine ⟨fun u e hu => ⟨?_, ?_, ?_, ?_⟩, fun hno => ?_⟩
  case refine_1 | refine_2 | refine_3 | refine_4 => exact cluCommand_of_refused hc hu
  have pass (f : State → State) {t : State} (h : f s = t) : cluCommand c s f = .next t :=
    (cluCommand_of_passed hc hno).trans (congrArg _ h)
  refine ⟨fun e => ⟨fun h hen => ?_, fun h hen => ?_, fun hi hca hd => ?_, fun h hen => ?_, fun h hen => ?_, fun h hen => ?_, fun h => ?_⟩,
    fun h => ?_, fun h => ?_, fun h => ?_, fun h => ?_, fun h => ?_, fun h => ?_⟩
  · exact pass _ (walkerStart_of_idle e h.1 hen h.2)
  · exact pass _ (walkerStart_of_running e h.1 hen h.2)
  · exact pass _ (walkerStart_of_other e.toNat (by simp [hi, hca, hd]))
  · exact pass _ (walkerStart_of_disabled e.toNat h hen)
  · exact pass _ ((walkerResume_of_stopped e h).trans (if_neg (by simp [hen])))
  · exact pass _ ((walkerResume_of_stopped e h).trans (if_pos hen))
  · exact pass _ (walkerResume_of_other e.toNat h)
  · exact pass _ (walkerStop_of_running h)
  · exact pass _ (walkerStop_of_waiting h)
  · exact pass _ (walkerStop_of_idle h)
  · exact pass _ (walkerStop_of_stopped h)
  · exact pass _ (walkerClearDone_of_resting h)
  · exact pass _ (walkerClearDone_of_other (by rcases h with h | h | h <;> simp [h]))

end Sys2Proof.Machine

/-! Work counters, windows, receive queues and bank states: the commands of a cluster's stores (R123, R124, R169 to R178). -/

namespace Sys2Proof.Machine

/-! ### Signed fields -/

theorem sext_eq_toInt {w : Nat} (hw : 0 < w) (v : Nat) : sext w v = (BitVec.ofNat w v).toInt := by
  obtain ⟨m, rfl⟩ := Nat.exists_eq_succ_of_ne_zero (Nat.ne_of_gt hw)
  have hlt : v % 2 ^ (m + 1) < 2 ^ (m + 1) := Nat.mod_lt _ (Nat.two_pow_pos _)
  unfold sext
  rw [BitVec.toInt_eq_toNat_cond, BitVec.toNat_ofNat, if_neg (Nat.succ_ne_zero m), Nat.succ_eq_add_one, Nat.add_sub_cancel]
  have hpow : 2 ^ (m + 1) = 2 * 2 ^ m := by rw [Nat.pow_succ, Nat.mul_comm]
  split
  · rw [if_neg (by omega)]; push_cast; rfl
  · rw [if_pos (by omega)]

theorem ofInt_sext {w n : Nat} (hw : 0 < w) (v : Nat) : BitVec.ofInt n (sext w v) = (BitVec.ofNat w v).signExtend n := by
  rw [sext_eq_toInt hw]; rfl

/-! ### A barista's access to a work counter (R123, R124) -/

section
variable {c : Nat} {s : State}

theorem rinseCount_blocked (s : State) : rinseCount 0x2006 s = bump s (devicePage + 0x810) := if_pos rfl

theorem workCounter_of_reset (x : WcAccess) (n : Nat) (v : Word) (h : (getClu s c).barReset = true) : workCounter c x n v s = s := if_pos h

theorem workCounter_of_blocked (x : WcAccess) (n : Nat) (v : Word) (hr : (getClu s c).barReset = false) (hb : cluBlocked s c = true) :
    workCounter c x n v s =
      (let s1 := bump s (devicePage + 0x810)
       if x = .store then s1 else putClu s1 c { getClu s1 c with barRet := 0 }) := by
  unfold workCounter
  rw [rinseCount_blocked, if_neg (by simp [hr]), if_pos hb]

/-- An access that is let through goes by its kind. -/
theorem workCounter_of_open (x : WcAccess) (n : Nat) (v : Word) (hr : (getClu s c).barReset = false) (hb : cluBlocked s c = false) :
    workCounter c x n v s = match x with
      | .amoAddD => workAdd c n false v s
      | .amoAddW => workAdd c n true v s
      | .load | .otherAmo => putClu (raiseClu (clusterBase c) c 0x2005 s) c { getClu (raiseClu (clusterBase c) c 0x2005 s) c with barRet := 0 }
      | .store => raiseClu (clusterBase c) c 0x2005 s := by
  have h : ¬ (getClu s c).barReset = true := by simp [hr]
  have h' : ¬ cluBlocked s c = true := by simp [hb]
  exact (if_neg h).trans ((if_neg h').trans (by cases x <;> rfl))

theorem workAdd_word (n : Nat) (v : Word) :
    workAdd c n true v s =
      (let a := clusterBase c + 0x200 + 8 * n
       let w := (v.setWidth 32).signExtend 64
       putClu (setReg s a (reg s a + w)) c { getClu s c with
         barRet := ((reg s a).setWidth 32).signExtend 64
         amoNow := (getClu s c).amoNow.filter (fun p => p.1 == s.cycle) ++ [(s.cycle, n, w, true)] }) := by
  have hlow (x : Word) : BitVec.ofInt 64 (sext 32 x.toNat) = (x.setWidth 32).signExtend 64 := ofInt_sext (by decide) x.toNat
  unfold workAdd
  simp only [if_true, hlow]
  rfl

end

/-- Settles O23: an access by whether the pair is held in reset and the cluster refuses, then by its kind. -/
theorem workCounterAccess : Obligations.WorkCounterAccess := by
  intro c n v s hc
  have run (x : WcAccess) {t : State} (h : workCounter c x n.toNat v s = t) : exec (.workCounterAmo c x n v) s = .next t :=
    (onUnit_of hc).trans (congrArg _ h)
  refine ⟨fun hr x => run x (workCounter_of_reset x n.toNat v hr), fun hr hb => ⟨?store, fun x hx => ?other⟩, fun hr hb => ?_⟩
  case store => exact run _ ((workCounter_of_blocked .store n.toNat v hr hb).trans (if_pos rfl))
  case other => exact run x ((workCounter_of_blocked x n.toNat v hr hb).trans (if_neg hx))
  have opened (x : WcAccess) := workCounter_of_open x n.toNat v hr hb
  exact ⟨run _ (opened .amoAddD), run _ ((opened .amoAddW).trans (workAdd_word n.toNat v)), run _ (opened .store), run _ (opened .load),
    run _ (opened .otherAmo)⟩

/-! ### Window commands (R174) -/

section
variable {c target n : Nat} {s : State}

theorem winClose_of_window (ht : target ≤ 16) (hn : n < winCount (winTarget c target)) :
    winClose c target n s =
      setReg s (winAddr (winTarget c target) n + 16) (wput (winCtrl s (winTarget c target) n) 63 63 0) :=
  if_neg (by omega)

theorem winEpoch_of_window (epoch : BitVec 16) (ht : target ≤ 16) (hn : n < winCount (winTarget c target)) :
    winEpoch c target n epoch s =
      setReg s (winAddr (winTarget c target) n + 16) (wput (winCtrl s (winTarget c target) n) 39 24 epoch.toNat) :=
  if_neg (by omega)

/-- What OPEN demands of a window (R171, R174, R288, R422). -/
def WinOpens (s : State) (c target n : Nat) : Prop :=
  let a := winTarget c target
  let w := winCtrl s a n
  cluTag s c = some (BitVec.ofNat 12 (wfld w 51 40)) ∧ winBase s a n < winLimit s a n ∧ winLimit s a n ≤ storeSize a ∧
    ¬ (requireKey s = true ∧ wbit w 61 = true ∧ wfld w 23 0 = 0) ∧
    ¬ (target = 16 ∧ ringOverlaps s c (winBase s a n) (winLimit s a n) 64 = true)

theorem winOpen_of_opens (epoch : BitVec 16) (ht : target ≤ 16) (hn : n < winCount (winTarget c target)) (h : WinOpens s c target n) :
    winOpen c target n epoch s = setReg s (winAddr (winTarget c target) n + 16)
      (wput (wput (winCtrl s (winTarget c target) n) 39 24 epoch.toNat) 63 63 1) := by
  obtain ⟨htag, hlim, hsize, hkey, hring⟩ := h
  unfold winOpen
  rw [if_neg (by omega), if_neg (not_not_intro htag), if_neg (by omega), if_neg hkey, if_neg hring]

theorem winOpen_of_not_opens (epoch : BitVec 16) (h : ¬ WinOpens s c target n) :
    winOpen c target n epoch s = bump s (clusterBase c + 0x828) := by
  unfold winOpen
  dsimp only
  split
  · rfl
  split
  · rfl
  next htag =>
  split
  · rfl
  next hlim =>
  split
  · rfl
  next hkey =>
  split
  · rfl
  next hring => exact absurd ⟨Classical.not_not.mp htag, by omega, by omega, hkey, hring⟩ h

end

/-- Settles O26: a refused write goes where every write to the cluster goes; one let through by what it demands of the window. -/
theorem windowCommands : Obligations.WindowCommands := by
  intro c target n epoch s hc
  refine ⟨fun u hu => ⟨?_, ?_, ?_⟩, ?passed⟩
  case refine_1 | refine_2 | refine_3 => exact cluCommand_of_refused hc hu
  intro hno ht a w hn
  have pass (f : State → State) {t : State} (h : f s = t) : cluCommand c s f = .next t :=
    (cluCommand_of_passed hc hno).trans (congrArg _ h)
  have htarget : target = 16 ↔ target.toNat = 16 := BitVec.toNat_inj.symm
  refine ⟨pass _ (winClose_of_window ht hn), pass _ (winEpoch_of_window epoch ht hn), ?_⟩
  simp only [htarget]
  exact ⟨fun h => pass _ (winOpen_of_opens epoch ht hn h), fun h => pass _ (winOpen_of_not_opens epoch h)⟩

/-! ### Receive queues (R175, R176, R178) -/

section
variable {c q : Nat} {s : State}

theorem rqClaim_of_blocked (n : Nat) (h : cluBlocked s c = true) : rqClaim c q n s = (0, bump s (devicePage + 0x810)) := by
  unfold rqClaim
  rw [if_pos h, rinseCount_blocked]

theorem rqClaim_of_disabled (n : Nat) (hb : cluBlocked s c = false) (he : wbit (reg s (rqAddr c q)) 63 = false) : rqClaim c q n s = (0, s) := by
  unfold rqClaim
  rw [if_neg (by simp [hb]), if_pos (by simp [he])]

/-- A claim on an enabled queue answers AVAIL, and moves units that AVAIL holds to GRANT. -/
theorem rqClaim_of_enabled (n : Nat) (hb : cluBlocked s c = false) (he : wbit (reg s (rqAddr c q)) 63 = true) :
    rqClaim c q n s =
      (let w := reg s (rqAddr c q + 16)
       (wfld w 31 0, if n ≤ wfld w 31 0 then setReg s (rqAddr c q + 16) (packWord [(32, wfld w 63 32 + n), (0, wfld w 31 0 - n)]) else s)) := by
  unfold rqClaim
  dsimp only
  rw [if_neg (by simp [hb]), if_neg (by simp [he])]
  split <;> rfl

theorem rqGive_of_units {v : Word}
    (h : wfld v 31 0 ≤ (wfld (reg s (rqAddr c q + 8)) 31 0 + 2 ^ 32 - wfld (reg s (rqAddr c q + 8)) 63 32) % 2 ^ 32) :
    rqGive c q v s =
      (let p := reg s (rqAddr c q + 8)
       let w := reg s (rqAddr c q + 16)
       setReg (setReg s (rqAddr c q + 8) (packWord [(32, (wfld p 63 32 + wfld v 31 0) % 2 ^ 32), (0, wfld p 31 0)]))
         (rqAddr c q + 16) (packWord [(32, wfld w 63 32), (0, wfld w 31 0 + wfld v 31 0)])) :=
  if_neg (Nat.not_lt.mpr h)

theorem rqGive_of_underrun {v : Word}
    (h : (wfld (reg s (rqAddr c q + 8)) 31 0 + 2 ^ 32 - wfld (reg s (rqAddr c q + 8)) 63 32) % 2 ^ 32 < wfld v 31 0) :
    rqGive c q v s = faultCar c 0x2003 0 0 0 (bump s (carafeBase c + 0x818)) :=
  if_pos h

/-- The bits of a written `RQn_CFG` that the register holds (R180). -/
def rqWord (v : Word) : Word := v &&& BitVec.ofNat 64 (bits 63 18 + bits 16 0)
/-- The first byte of a configured queue, and one past its last. -/
def rqFirst (w : Word) : Nat := wfld w 16 0 * 256
/-- One past the last byte of a configured queue. -/
def rqEnd (w : Word) : Nat := rqFirst w + (wfld w 34 18 + 1) * 256

theorem rqConfig_of_enabled {v : Word} (he : wbit (reg s (rqAddr c q)) 63 = true) (hv : wbit (rqWord v) 63 = true) :
    rqConfig c q v s = s := if_pos ⟨he, hv⟩

/-- A configuration that RQn_CFG takes: of a disabled queue, or one that disables. -/
theorem rqConfig_of_taken {v : Word} (h : wbit (reg s (rqAddr c q)) 63 = false ∨ wbit (rqWord v) 63 = false) :
    rqConfig c q v s =
      if 16 < wfld (rqWord v) 55 51 ∨ storeSize (winTarget c (wfld (rqWord v) 55 51)) < rqEnd (rqWord v) then
        faultCar c 0x2001 0 0 0 (setReg s (rqAddr c q) (wput (rqWord v) 63 63 0))
      else if wbit (rqWord v) 63 = false then setReg s (rqAddr c q) (rqWord v)
      else if wfld (rqWord v) 55 51 = 16 ∧ ringOverlaps s c (rqFirst (rqWord v)) (rqEnd (rqWord v)) 64 = true then
        bump s (clusterBase c + 0x828)
      else setReg (setReg (setReg s (rqAddr c q) (rqWord v)) (rqAddr c q + 8) 0) (rqAddr c q + 16)
        (packWord [(0, wfld (rqWord v) 34 18 + 1)]) := by
  have hnot : ¬ (wbit (reg s (rqAddr c q)) 63 = true ∧ wbit (rqWord v) 63 = true) := by
    rintro ⟨he, hv⟩
    rcases h with h | h
    · exact Bool.noConfusion (he.symm.trans h)
    · exact Bool.noConfusion (hv.symm.trans h)
  refine (if_neg hnot).trans ?_
  simp only [Bool.not_eq_true]
  rfl

end

/-- A claim by a barista that is not held in reset keeps the answer for it (R176, R402). -/
theorem exec_creditClaim {c : Nat} {q : BitVec 4} {n : Nat} {s : State} (hc : c < 64) (hr : (getClu s c).barReset = false) :
    exec (.creditClaim c q n) s =
      (let r := rqClaim c q.toNat n s
       .next (putClu r.2 c { getClu r.2 c with claimRet := BitVec.ofNat 64 r.1 })) := by
  show execCreditClaim c q n s = _
  rw [execCreditClaim, onCluster, onUnit_of hc, if_neg (by simp [hr])]

/-- Settles O27: a claim, a return and a configuration each by whether the cluster lets it through and by the queue's state. -/
theorem receiveQueues : Obligations.ReceiveQueues := by
  intro c q s hc a avail grant wp rp
  have pass (hno : cluRefused s c = none) (f : State → State) {t : State} (h : f s = t) : cluCommand c s f = .next t :=
    (cluCommand_of_passed hc hno).trans (congrArg _ h)
  refine ⟨fun n => ⟨fun hr => ?held, fun hr hb => ?blocked, fun hr hb he => ?disabled, fun hr hb he => ?enabled⟩,
    fun v u hu => ⟨cluCommand_of_refused hc hu, cluCommand_of_refused hc hu⟩, fun v hno h => ?units, fun v hno h => ?underrun,
    ?config⟩
  case held =>
    show execCreditClaim c q n s = _
    rw [execCreditClaim, onCluster, onUnit_of hc, if_pos hr]
  case blocked => rw [exec_creditClaim hc hr, rqClaim_of_blocked n hb]; rfl
  case disabled => rw [exec_creditClaim hc hr, rqClaim_of_disabled n hb he]; rfl
  case enabled => rw [exec_creditClaim hc hr, rqClaim_of_enabled n hb he]
  case units => exact pass hno _ (rqGive_of_units h)
  case underrun => exact pass hno _ (rqGive_of_underrun h)
  intro v v' lo hi hno
  refine ⟨fun he hv => ?ignored, fun h hbad => ?outside, fun hloc hend => ⟨fun hv => ?disables, fun he hv hcar hov => ?overlaps,
    fun he hv hfree => ?enables⟩⟩
  case ignored => exact pass hno _ (rqConfig_of_enabled he hv)
  case outside => exact pass hno _ ((rqConfig_of_taken h).trans (if_pos hbad))
  case disables =>
    exact pass hno _ ((rqConfig_of_taken (.inr hv)).trans ((if_neg (not_or.mpr ⟨Nat.not_lt.mpr hloc, Nat.not_lt.mpr hend⟩)).trans (if_pos hv)))
  case overlaps =>
    exact pass hno _ ((rqConfig_of_taken (.inl he)).trans ((if_neg (not_or.mpr ⟨Nat.not_lt.mpr hloc, Nat.not_lt.mpr hend⟩)).trans
      ((if_neg (ne_false_of_eq_true hv)).trans (if_pos ⟨hcar, hov⟩))))
  case enables =>
    exact pass hno _ ((rqConfig_of_taken (.inl he)).trans ((if_neg (not_or.mpr ⟨Nat.not_lt.mpr hloc, Nat.not_lt.mpr hend⟩)).trans
      ((if_neg (ne_false_of_eq_true hv)).trans (if_neg hfree))))

/-! ### Bank states (R170) -/

section
variable {a : Store} {s : State}

theorem storeClu_lt (ha : storeOk a = true) : storeClu a < 64 := by
  cases a with
  | sp t => have : t < 1024 := of_decide_eq_true ha; show t / 16 < 64; omega
  | car c => exact of_decide_eq_true ha

theorem exec_bankStateWrite {m : BitVec 2} {v : BitVec 64} (ha : storeOk a = true) :
    exec (.bankStateWrite a m v) s = cluCommand (storeClu a) s (if m = 3 then id else bankWrite a m.toNat v) := if_pos ha

/-- The bank-state fields of a register of a store: how many, and the bank that the first one names (R170). -/
def stateFields : Store → Nat
  | .sp _ => 24
  | .car _ => 32

@[inherit_doc stateFields]
def firstBank (m : Nat) : Store → Nat
  | .sp _ => 0
  | .car _ => 32 * m

/-- A write in which no field is 11 requests a state for each bank of the register. -/
theorem bankWrite_of_fields {m : Nat} {v : Word} (hv : ∀ i < stateFields a, wfld v (2 * i + 1) (2 * i) ≠ 3) :
    bankWrite a m v s = forAll ((List.range (stateFields a)).map (fun i => (firstBank m a + i, wfld v (2 * i + 1) (2 * i)))) s
      (bankRequest a) := by
  unfold bankWrite
  dsimp only
  split
  next p hp =>
    obtain ⟨i, hi, rfl⟩ := List.mem_map.mp (List.mem_of_find?_eq_some hp)
    exact absurd (by simpa using List.find?_some hp) (hv i (List.mem_range.mp hi))
  next => cases a <;> rfl

theorem bankArrives_of_due {b : Nat} (hr : bankReady s a b = false) (hq : bankFromOf s a b = 0 → bankQueue s a b = []) :
    bankArrives a b s =
      (let s1 := if bankReq s a b = 2 ∨ bankFromOf s a b = 2 then zeroBank a b s else s
       setBankReady (setBankFrom s1 a b 0) a b true) := by
  refine if_neg ?_
  rintro (h | ⟨hf, he⟩)
  · rw [hr] at h; cases h
  · simp [hq hf] at he

end

/-- Settles O25: a refused write goes where every write to the cluster goes; one let through requests bank by bank. -/
theorem bankStates : Obligations.BankStates := by
  intro a s ha
  have hc := storeClu_lt ha
  refine ⟨fun m v u hu => ?refused, fun m v hm hno hv => ?requests, fun b v hv => if_neg hv, fun bank hb hr hq => ?arrives⟩
  case refused => rw [exec_bankStateWrite ha, cluCommand_of_refused hc hu]
  case requests => rw [exec_bankStateWrite ha, cluCommand_of_passed hc hno, if_neg hm, bankWrite_of_fields (by cases a <;> exact hv)]; cases a <;> rfl
  case arrives => exact (onUnit_of ⟨ha, hb⟩).trans (congrArg _ (bankArrives_of_due hr hq))

end Sys2Proof.Machine

/-! The tile sequencer's single slots and the matrix engine's commands (R38 to R49, R93 to R95, R105, R123, R160, R163, R453). -/

namespace Sys2Proof.Machine

section
variable {t : Nat} {s : State}

/-! ### One slot alone -/

theorem onTile_eq {f : State → State} {u : State} (ht : t < 1024) (h : f s = u) : onTile t s f = .next u :=
  (onUnit_of ht).trans (congrArg _ h)

/-- A slot acts where its bundle carries no reserved encoding and raises no fault. -/
theorem slotAlone_of_clean {b : Bundle} {act : State → State} (hr : bundleReserved s t b = false) (hf : slotFault s t b = none) :
    slotAlone t b act s = act s := by
  unfold slotAlone
  rw [if_neg (by simp [hr]), hf]

/-! ### The sequencing slot (R38, R39, R105) -/

/-- Whether a sequencing operation raises none of its own faults on a tile. -/
def SeqFree (s : State) (t : Nat) : SeqOp → Prop
  | .loop _ len => loopBad (getTile s t) len = false
  | .ctx k => (getTile s t).loops = [] ∧ ctxSeen s t k = 2
  | _ => True

theorem seqAlone_of_free {op : SeqOp} (h : SeqFree s t op) : seqAlone t op s = seqSlot t op (seqCtr (getTile s t) op) s := by
  refine slotAlone_of_clean ?_ ?_
  · cases op with
    | ctx k => simp [bundleReserved, Bundle.none_, portUse, h.1]
    | _ => rfl
  · cases op with
    | loop n len =>
      have hloop : loopBad (getTile s t) len = false := h
      simp [slotFault, Bundle.none_, SwOp.none_, portUse, vecPops, hloop]
    | ctx k => simp [slotFault, Bundle.none_, SwOp.none_, portUse, vecPops, h.2]
    | _ => simp [slotFault, Bundle.none_, SwOp.none_, portUse, vecPops]

theorem ofNat_toNat_succ (x : BitVec 10) : BitVec.ofNat 10 (x.toNat + 1) = x + 1 := by
  rw [BitVec.ofNat_add]; simp

/-- Settles O13: each operation by the equation of its slot. -/
theorem sequencerOperations : Obligations.SequencerOperations := by
  intro t s ht
  have run {op : SeqOp} {u : State} (hop : SeqFree s t op) (hu : seqSlot t op (seqCtr (getTile s t) op) s = u) :
      onTile t s (seqAlone t op) = .next u := onTile_eq ht ((seqAlone_of_free hop).trans hu)
  refine ⟨⟨onTile_eq ht rfl, onTile_eq ht rfl, onTile_eq ht rfl⟩, fun n imm => ⟨run trivial ?cset, run trivial ?cadd⟩,
    fun n l hl => run hl ?loop, fun k hl hk => run ⟨hl, hk⟩ ?ctx, fun h => onTile_eq ht (if_neg fun hr => ?phase)⟩
  case cset =>
    show putTile s t (setCtr (getTile s t) n (BitVec.ofNat 16 imm.toNat)) = _
    rw [BitVec.ofNat_toNat]
  case cadd =>
    show putTile s t (setCtr (getTile s t) n (ctrOf (getTile s t) n + BitVec.ofInt 16 (sext 9 imm.toNat))) = _
    rw [ofInt_sext (by decide), BitVec.ofNat_toNat, BitVec.setWidth_eq]
  case loop =>
    by_cases h : ctrOf (getTile s t) n = 0
    · show (if ctrOf (getTile s t) n = 0 then _ else _) = _
      rw [if_pos h, if_pos h, BitVec.ofNat_add, BitVec.ofNat_toNat, BitVec.setWidth_eq]
    · exact (if_neg h).trans (by rw [if_neg h]; rfl)
  case ctx =>
    show bump (putTile s t _) _ = _
    rw [ofNat_toNat_succ]
  case phase => exact h.elim (fun h => h hr.1) (fun h => hr.2 h)

/-! ### The scratchpad ports (R40, R160, R163) -/

/-- A port operation that lists a permitted route and a written row that finds a word to write. -/
def PortOk (s : State) (t : Nat) : PortOp → Prop
  | .idle => True
  | .read r _ | .gen r _ => r ≤ 4
  | .write _ => partOf (getTile s t) 0 (getTile s t).active ≠ []

theorem aheadOf_idle (op : PortOp) : aheadOf .idle op = 0 := by cases op <;> rfl

/-- Port 1 makes the same use as port 0 where port 0 is idle. -/
theorem portUse_second (s : State) (t : Nat) (op : PortOp) : portUse s t op (aheadOf .idle op) = portUse s t op 0 := by rw [aheadOf_idle]

theorem useBanks_free {u : GenUse} (h : useFree s t u) :
    ¬ ∃ k ∈ useBanks t u, 1 < List.count k (useBanks t u) + List.count k (vecBanks s t 0) := by
  rintro ⟨k, hk, hlt⟩
  have := h.2.2 k hk
  rw [List.count_append] at this
  omega

/-- The bundle of a port operation alone. -/
def portBundle (port : Nat) (op : PortOp) : Bundle := if port = 0 then { Bundle.none_ with p0 := op } else { Bundle.none_ with p1 := op }

theorem bundleReserved_port {port : Nat} {op : PortOp} {u : GenUse} (hu : portUse s t op 0 = some u) (hr : u.resv = false) :
    bundleReserved s t (portBundle port op) = false := by
  have hidle (n : Nat) : portUse s t .idle n = none := rfl
  by_cases hp : port = 0
  · simp [bundleReserved, portBundle, hp, Bundle.none_, hu, hidle, hr]
  · simp [bundleReserved, portBundle, hp, Bundle.none_, portUse_second, hu, hidle, hr]

theorem vecPops_port {port : Nat} {op : PortOp} (hok : PortOk s t op) :
    ¬ (partOf (getTile s t) 0 (getTile s t).active).length < vecPops (portBundle port op) := by
  have hpops : vecPops (portBundle port op) = match op with | .write _ => 1 | _ => 0 := by
    unfold portBundle
    split <;> cases op <;> rfl
  rw [hpops]
  cases op with
  | write r => exact Nat.not_lt.mpr (List.length_pos_iff.mpr hok)
  | _ => exact Nat.not_lt_zero _

theorem slotFault_port {port : Nat} {op : PortOp} {u : GenUse} (hu : portUse s t op 0 = some u) (hfree : useFree s t u) (hok : PortOk s t op) :
    slotFault s t (portBundle port op) = none := by
  have hidle (n : Nat) : portUse s t .idle n = none := rfl
  have hbanks := useBanks_free hfree
  have hpops := vecPops_port (port := port) hok
  obtain ⟨-, hbad, -⟩ := hfree
  by_cases hp : port = 0
  · simp only [portBundle, hp] at hpops ⊢
    simp [slotFault, Bundle.none_, SwOp.none_, hu, hidle, hbad, hbanks] at hpops ⊢
    exact hpops
  · simp only [portBundle, if_neg hp] at hpops ⊢
    simp [slotFault, Bundle.none_, SwOp.none_, portUse_second, hu, hidle, hbad, hbanks] at hpops ⊢
    exact hpops

theorem portAlone_of_free {port : Nat} {op : PortOp} {u : GenUse} (hu : portUse s t op 0 = some u) (hfree : useFree s t u)
    (hok : PortOk s t op) : portAlone t port op s = portSlot t port op s := by
  have hslot := slotAlone_of_clean (act := portSlot t port op) (bundleReserved_port (port := port) hu hfree.1) (slotFault_port hu hfree hok)
  unfold portAlone
  rw [if_neg ?_]
  · exact hslot
  cases op with
  | read r n | gen r n => exact fun h => absurd (of_decide_eq_true h) (Nat.not_lt.mpr hok)
  | _ => exact Bool.false_ne_true

theorem eccRead_of_clean (h : (getTile s t).eccInj = false) : eccRead t s = s := if_neg (by simp [h])

/-- Noting an access leaves the rest of the tile. -/
theorem getTile_noteAccess {rows : List Nat} (isRead : Bool) (hrows : rows ≠ []) :
    getTile (noteAccess t rows isRead s) t = { getTile s t with
      access := (getTile s t).access.filter (fun p => p.1 == s.cycle) ++ rows.map (fun r => (s.cycle, r, isRead)) } :=
  getTile_putTile_self s t _ fun h => by simpa [Tile.reset, hrows] using congrArg Tile.access h

theorem popHead_cons {net : Nat} {w : NetWord} {r : List NetWord} (h : partOf (getTile s t) net (getTile s t).active = w :: r) :
    popHead t net s = (some w, putTile s t (putPart (getTile s t) net (getTile s t).active r)) := by
  unfold popHead
  dsimp only
  rw [h]

theorem useRows_plain (row : Nat) : useRows ⟨false, row, 1, 0, 0⟩ = [row] := rfl

/-- A plain read takes the row that the array held as the cycle began (R40). -/
theorem portRead_plain {port : BitVec 1} {route : BitVec 3} {row : Nat} (h : (getTile s t).eccInj = false) :
    portRead t port.toNat route.toNat ⟨false, row, 1, 0, 0⟩ s =
      (let s' := noteAccess t [row] true s
       putTile s' t { getTile s' t with delivers := (getTile s' t).delivers ++
         [{ port := port, route := route, row := spRow (seenState s) t row, ctx := (getTile s' t).active, due := s.cycle + 6 }] }) := by
  have hclean : (getTile (noteAccess t [row] true s) t).eccInj = false := by
    rw [getTile_noteAccess true (by simp)]; exact h
  unfold portRead
  rw [useRows_plain, eccRead_of_clean hclean, BitVec.ofNat_toNat, BitVec.ofNat_toNat, BitVec.setWidth_eq, BitVec.setWidth_eq]
  rfl

theorem portWrite_cons {row : Nat} {w : NetWord} {r : List NetWord} (h : partOf (getTile s t) 0 (getTile s t).active = w :: r) :
    portWrite t row s =
      (let s' := noteAccess t [row] false (putTile s t (putPart (getTile s t) 0 (getTile s t).active r))
       { s' with mem := { s'.mem with sp := setRow s'.mem.sp (spAt t (64 * row)) w.payload } }) := by
  unfold portWrite
  rw [popHead_cons h]

/-- The unit that takes a delivered row, by its route (R40). -/
theorem portDeliver_due {d : Delivery} {r : List Delivery} (h : (getTile s t).delivers = d :: r) (hdue : d.due ≤ s.cycle) :
    portDeliver t s =
      (let s' := putTile s t { getTile s t with delivers := r }
       if d.route = 0 then streamIn t d.port.toNat d.row s'
       else if d.route = 1 then statLoad t d.row s'
       else if d.route = 2 then scaleLoad t d.row s'
       else if d.route = 3 then scaleIn t d.row s'
       else inject t 0 d.row d.ctx s') := by
  unfold portDeliver
  dsimp only
  rw [h]
  dsimp only
  rw [if_neg (Nat.not_lt.mpr hdue)]
  have hroute (n : BitVec 3) : d.route = n ↔ d.route.toNat = n.toNat := BitVec.toNat_inj.symm
  simp only [hroute]
  split
  next h0 => exact (if_pos h0).symm
  next h1 => rw [h1]; rfl
  next h2 => rw [h2]; rfl
  next h3 => rw [h3]; rfl
  next h0 h1 h2 h3 => exact ((if_neg h0).trans ((if_neg h1).trans ((if_neg h2).trans (if_neg h3)))).symm

/-- Settles O15: each port operation by the equation of its slot, a delivery by its route. -/
theorem scratchpadPorts : Obligations.ScratchpadPorts := by
  intro t s port ht
  have run {op : PortOp} {u : GenUse} {v : State} (hu : portUse s t op 0 = some u) (hfree : useFree s t u) (hok : PortOk s t op)
      (hv : portSlot t port.toNat op s = v) : onTile t s (portAlone t port.toNat op) = .next v :=
    onTile_eq ht ((portAlone_of_free hu hfree hok).trans hv)
  refine ⟨fun route row hr hfree hecc => run rfl hfree hr (portRead_plain hecc), fun route g hr hfree => run ?use hfree hr ?gen,
    fun row w r hfree hw => run rfl hfree (show _ ≠ [] by simp [hw]) (portWrite_cons hw), fun d r hd hdue => onTile_eq ht (portDeliver_due hd hdue)⟩
  case use =>
    show some (genUse s t g.toNat (((tblGet 0 (getTile s t).agenUse g.toNat).toNat + 0) % 2 ^ 32)) = _
    rw [Nat.add_zero, Nat.mod_eq_of_lt (BitVec.isLt _)]
  case gen => rfl

/-! ### The switch slot (R93 to R95, R123) -/

/-- Whether a switch operation finds the words that it takes. -/
def SwFree (s : State) (t : Nat) (w : SwOp) : Prop :=
  (w.vop ≠ 0 → partOf (getTile s t) 0 (getTile s t).active ≠ []) ∧ (w.sop = 2 → partOf (getTile s t) 1 (getTile s t).active ≠ []) ∧
    (w.cop = 3 → partOf (getTile s t) 2 (getTile s t).active ≠ [])

theorem slotFault_sw {w : SwOp} (h : SwFree s t w) : slotFault s t { Bundle.none_ with sw := w } = none := by
  obtain ⟨hv, hs, hc⟩ := h
  have hpops : ¬ (partOf (getTile s t) 0 (getTile s t).active).length < vecPops { Bundle.none_ with sw := w } := by
    by_cases h0 : w.vop = 0
    · simp [vecPops, Bundle.none_, h0]
    · simpa [vecPops, Bundle.none_, h0] using hv h0
  have hscalar : ¬ (w.sop = 2 ∧ partOf (getTile s t) 1 (getTile s t).active = []) := fun h => hs h.1 h.2
  have hcontrol : ¬ (w.cop = 3 ∧ partOf (getTile s t) 2 (getTile s t).active = []) := fun h => hc h.1 h.2
  unfold slotFault
  simp only [Bundle.none_, portUse, Option.bind_none, Option.toList_none, List.append_nil, List.flatMap_nil, List.any_nil] at hpops ⊢
  simp [hpops, hscalar, hcontrol]

theorem swAlone_of_free {w : SwOp} (h : SwFree s t w) :
    swAlone t w s = swControl t w.cop w.n (ctrOf (getTile s t) w.n) w.imm (getTile s t).active
      (swScalar t w.sop w.n (ctrOf (getTile s t) w.n) (getTile s t).active (swVector t w.vop s)) :=
  slotAlone_of_clean (act := fun s' => swControl t w.cop w.n (ctrOf (getTile s t) w.n) w.imm (getTile s t).active
    (swScalar t w.sop w.n (ctrOf (getTile s t) w.n) (getTile s t).active (swVector t w.vop s'))) rfl (slotFault_sw h)

theorem swScalar_take {n : BitVec 3} {cn : BitVec 16} {k : BitVec 2} {w : NetWord} {r : List NetWord}
    (h : partOf (getTile s t) 1 (getTile s t).active = w :: r) :
    swScalar t 2 n cn k s =
      (let s' := putTile s t (putPart (getTile s t) 1 (getTile s t).active r)
       putTile s' t (setCtr (getTile s' t) n (w.payload.setWidth 16))) := by
  simp [swScalar, popHead_cons h]

theorem swControl_take {n : BitVec 3} {cn : BitVec 16} {imm : Nat} {k : BitVec 2} {w : NetWord} {r : List NetWord}
    (h : partOf (getTile s t) 2 (getTile s t).active = w :: r) :
    swControl t 3 n cn imm k s =
      (let s' := putTile s t (putPart (getTile s t) 2 (getTile s t).active r)
       putTile s' t (setCtr (getTile s' t) n (BitVec.ofNat 16 (w.payload.toNat % 256)))) := by
  simp [swControl, popHead_cons h]

theorem swVector_take {vop : Nat} {w : NetWord} {r : List NetWord} (hv : vop ≠ 0)
    (h : partOf (getTile s t) 0 (getTile s t).active = w :: r) :
    swVector t vop s =
      (let s' := putTile s t (putPart (getTile s t) 0 (getTile s t).active r)
       if vop = 1 then streamIn t 2 w.payload s' else if vop = 2 then scaleIn t w.payload s' else s') := by
  unfold swVector
  rw [if_neg hv, popHead_cons h]
  dsimp only
  split
  next hw he => cases he; rfl
  next hw he => cases he; rfl
  next h1 h2 => rw [if_neg fun h => h1 w rfl h, if_neg fun h => h2 w rfl h]

theorem swScalar_wfa (n : BitVec 3) (cn : BitVec 16) (k : BitVec 2) :
    swScalar t 4 n cn k s =
      (let q := wfaTake (t / 16) (cn.toNat % 64) s
       putTile q.2 t { getTile q.2 t with wfas := (getTile q.2 t).wfas ++
         [{ n := n, value := q.1.setWidth 16, due := s.cycle + 12 }] }) := rfl

/-- The barista's additions to counter n in the present cycle (R123). -/
def amoOf (s : State) (c n : Nat) : List (Nat × Nat × Word × Bool) :=
  (getClu s c).amoNow.filter (fun p => p.1 == s.cycle && p.2.1 == n)

theorem wfaTake_alone {c n : Nat} (h : amoOf s c n = []) :
    wfaTake c n s = (reg s (wctrAddr c n), setReg s (wctrAddr c n) (reg s (wctrAddr c n) + 1)) := by
  unfold amoOf at h
  unfold wfaTake
  dsimp only
  rw [h]
  show (reg s (wctrAddr c n) - 0#64, _) = _
  rw [BitVec.sub_zero]; rfl

theorem wfaTake_beside {c n : Nat} {v : Word} (h : amoOf s c n = [(s.cycle, n, v, false)]) :
    wfaTake c n s = (reg s (wctrAddr c n) - v,
      putClu (setReg s (wctrAddr c n) (reg s (wctrAddr c n) + 1)) c { getClu s c with barRet := (getClu s c).barRet + 1 }) := by
  unfold amoOf at h
  unfold wfaTake
  dsimp only
  rw [h]
  show (reg s (wctrAddr c n) - (0#64 + v), _) = _
  rw [BitVec.zero_add]; rfl

theorem wfaResult_due {f : WfaPending} {r : List WfaPending} (h : (getTile s t).wfas = f :: r) (hdue : f.due ≤ s.cycle) :
    wfaResult t s = putTile s t { getTile s t with wfas := r, wfaDone := (getTile s t).wfaDone ++ [(f.n, f.value)] } := by
  unfold wfaResult
  dsimp only
  rw [h]
  exact if_neg (Nat.not_lt.mpr hdue)

theorem wfaEdge_one {n : BitVec 3} {v : BitVec 16} (h : (getTile s t).wfaDone = [(n, v)]) :
    wfaEdge t s = putTile s t { setCtr (getTile s t) n v with wfaDone := [] } := by
  unfold wfaEdge
  dsimp only
  rw [h]
  rfl

/-- Settles O16: each operation by the equation of its field of the slot. -/
theorem switchOperations : Obligations.SwitchOperations := by
  intro t s ht
  have run {w : SwOp} (hw : SwFree s t w) {u : State} (hu : swControl t w.cop w.n (ctrOf (getTile s t) w.n) w.imm (getTile s t).active
      (swScalar t w.sop w.n (ctrOf (getTile s t) w.n) (getTile s t).active (swVector t w.vop s)) = u) :
      onTile t s (swAlone t w) = .next u := onTile_eq ht ((swAlone_of_free hw).trans hu)
  have free {w : SwOp} (hv : w.vop = 0) (hs : (w.sop == 2) = false) (hc : (w.cop == 3) = false) : SwFree s t w :=
    ⟨fun h => absurd hv h, fun h => absurd h (beq_eq_false_iff_ne.mp hs), fun h => absurd h (beq_eq_false_iff_ne.mp hc)⟩
  refine ⟨fun w r hw => ?vector, fun n w r hw => ?scalar, fun n w r hw => ?control, fun n => ⟨?sendC, ?controlSendC, ?_⟩, ?sendSv,
    fun imm => ?sendI, ?putSum, fun f r hf hdue => onTile_eq ht (wfaResult_due hf hdue), fun n v hv => wfaEdge_one hv⟩
  case vector =>
    have words {v : Nat} : SwFree s t { SwOp.none_ with vop := v } := ⟨fun _ => by simp [hw], fun h => absurd h (Nat.zero_ne_add_one 1), fun h => absurd h (Nat.zero_ne_add_one 2)⟩
    exact ⟨run words (swVector_take (vop := 1) (by decide) hw), run words (swVector_take (vop := 2) (by decide) hw),
      run words (swVector_take (vop := 3) (by decide) hw)⟩
  case scalar => exact run ⟨fun h => absurd rfl h, fun _ => by simp [hw], fun h => absurd h (Nat.zero_ne_add_one 2)⟩ (swScalar_take (cn := ctrOf (getTile s t) n) (k := (getTile s t).active) hw)
  case control => exact run ⟨fun h => absurd rfl h, fun h => absurd h (Nat.zero_ne_add_one 1), fun _ => by simp [hw]⟩ (swControl_take (cn := ctrOf (getTile s t) n) (imm := 0) (k := (getTile s t).active) hw)
  case sendC => exact run (free rfl rfl rfl) rfl
  case controlSendC => exact run (free rfl rfl rfl) rfl
  case sendSv => exact run (free rfl rfl rfl) rfl
  case sendI => exact run (free rfl rfl rfl) rfl
  case putSum => exact run (free rfl rfl rfl) rfl
  intro i a k s1
  refine ⟨fun h => ?alone, fun v h => ?beside⟩
  case alone =>
    refine run (free rfl rfl rfl) ((swScalar_wfa (s := s) n (ctrOf (getTile s t) n) (getTile s t).active).trans ?_)
    rw [show wfaTake (t / 16) ((ctrOf (getTile s t) n).toNat % 64) s = _ from wfaTake_alone h]
  case beside =>
    refine run (free rfl rfl rfl) ((swScalar_wfa (s := s) n (ctrOf (getTile s t) n) (getTile s t).active).trans ?_)
    rw [show wfaTake (t / 16) ((ctrOf (getTile s t) n).toNat % 64) s = _ from wfaTake_beside h]

/-! ### The matrix engine (R45, R48, R49, R58, R453) -/

theorem issueBlock_of_free {a : BlockArgs} (hok : blockEncOk (zt1 s (t / 16)) a = true) (hf : blockFault s t a = none) :
    issueBlock t a s = startBlock t a s := by
  unfold issueBlock
  rw [if_neg (not_not_intro hok), hf]

theorem exec_matChunkTake {b : Block} (ht : t < 1024) (hb : (getTile s t).block = some b) :
    exec (.matChunkTake t) s =
      .next (if b.taken < blockN b.args ∧ takeCycle (zt1 s (t / 16)) b ≤ s.cycle then takeChunk t b s else s) := by
  show execMatChunkTake t s = _
  rw [execMatChunkTake, onTile, onUnit_of ht, hb]

theorem exec_abftCompare {b : Block} (ht : t < 1024) (hb : (getTile s t).block = some b) :
    exec (.abftCompare t) s = .next (if b.taken = blockN b.args ∧ blockEnd s t b ≤ s.cycle then endBlock t b s else s) := by
  show execAbftCompare t s = _
  rw [execAbftCompare, onTile, onUnit_of ht, hb]

/-- Settles O17: a block's start by its checks, its chunks and its end by their due cycles. -/
theorem matrixOperations : Obligations.MatrixOperations := by
  intro t s ht
  refine ⟨fun a hok hf => onTile_eq ht (issueBlock_of_free hok hf), fun bank => onTile_eq ht ?reset, ?chunks, ?ends⟩
  case reset =>
    unfold statReset
    rw [BitVec.ofNat_toNat, BitVec.setWidth_eq]
  case chunks =>
    intro b hb hn due
    refine ⟨fun h => ?_, fun h => ?_⟩
    · rw [exec_matChunkTake ht hb, if_pos ⟨hn, h⟩]
    · rw [exec_matChunkTake ht hb, if_neg fun hd => absurd hd.2 (Nat.not_le.mpr h)]
  case ends =>
    intro b hb hn due
    refine ⟨fun h => ?_, fun h => ?_⟩
    · rw [exec_abftCompare ht hb, if_pos ⟨hn, h⟩]
    · rw [exec_abftCompare ht hb, if_neg fun hd => absurd hd.2 (Nat.not_le.mpr h)]

end

end Sys2Proof.Machine

/-! Words and tokens that reach a node, and the whole bundle (R35, R37, R88, R90, R100, R101). -/

namespace Sys2Proof.Machine

section
variable {t : Nat} {s : State}

/-! ### Words (R88, R90) -/

/-- A word of good parity that no steering unit takes leaves by its route mask. -/
theorem netArrive_of_routed {net : BitVec 2} {inp : Nat} {w : NetWord} (hinj : (getTile s t).parInj = false)
    (hpar : (if net = 0 then w.parity else w.parity &&& 1) = parityBits net.toNat w.payload)
    (hunits : if net = 2 then tokenUnits s t w.ctx inp = [] else dataUnits s t w.ctx net.toNat inp = [])
    (hmask : routeMask s t w.ctx net.toNat inp ≠ 0) :
    netArrive t net.toNat inp w s = sendMask t net.toNat (routeMask s t w.ctx net.toNat inp) w s := by
  have hnet (n : BitVec 2) : net.toNat = n.toNat ↔ net = n := BitVec.toNat_inj
  have hpar' : (if net.toNat = 0 then w.parity else w.parity &&& 1) = parityBits net.toNat w.payload := by
    rw [← hpar]
    simp only [show net.toNat = 0 ↔ net = 0 from hnet 0]
  have htoken : ¬ (net.toNat = 2 ∧ ¬ (tokenUnits s t w.ctx inp).isEmpty = true) := fun h => by
    rw [if_pos ((hnet 2).mp h.1)] at hunits
    exact h.2 (by simp [hunits])
  have hdata : ¬ (net.toNat < 2 ∧ ¬ (dataUnits s t w.ctx net.toNat inp).isEmpty = true) := fun h => by
    rw [if_neg fun he => absurd ((hnet 2).mpr he) (Nat.ne_of_lt h.1)] at hunits
    exact h.2 (by simp [hunits])
  unfold netArrive
  simp only [hinj, Bool.false_or, Bool.false_eq_true, if_false, hpar', bne_self_eq_false]
  rw [if_neg htoken, if_neg hdata, if_neg hmask]

theorem land_eq {net : BitVec 2} {inp : BitVec 3} {w : NetWord} :
    land t net.toNat inp.toNat w s = { s with flying := s.flying.erase { tile := t, net := net, inp := inp, word := w } } := by
  unfold land
  rw [BitVec.ofNat_toNat, BitVec.ofNat_toNat, BitVec.setWidth_eq, BitVec.setWidth_eq]

/-! ### Tokens (R100, R101) -/

/-- The hold of a MERGE unit that a token names. -/
def heldWord (st : SteerUnit) (v : BitVec 8) : Option NetWord := if v = 0 then st.holdA else st.holdB

/-- A listed token at a unit that holds none meets the word of its hold, or waits there. -/
theorem steerToken_of_free {k : BitVec 2} {u : Nat} {v : BitVec 8} {seq : Bool} (hkind : stKind (steerCfg s t k u) ≠ 0)
    (hok : tokenOk (stKind (steerCfg s t k u)) v.toNat = true) (hfree : (getSteer s t k u).token = none) :
    steerToken t k u v seq s =
      (let st := getSteer s t k u
       let tok : HeldToken := { value := v, seq := seq, since := s.cycle }
       match (if stKind (steerCfg s t k u) = 2 then heldWord st v else none) with
       | some w =>
         if w.seq = seq then
           steerPair t k u tok w (putSteer s t k u { st with
             holdA := if v = 0 then none else st.holdA, holdB := if v = 0 then st.holdB else none })
         else faultSteer t k u 0 seq w.seq (putSteer s t k u { st with token := some tok })
       | none => putSteer s t k u { st with token := some tok }) := by
  unfold steerToken
  dsimp only
  rw [if_neg hkind, if_neg (not_not_intro hok), hfree]
  rfl

theorem steerPair_of_merge {k : BitVec 2} {u : Nat} {tok : HeldToken} {w : NetWord} (hkind : stKind (steerCfg s t k u) = 2) :
    steerPair t k u tok w s =
      (let s2 := bump (putSteer s t k u { getSteer s t k u with token := none, paired := some tok }) (tileBase t + 0x850)
       putTile s2 t { getTile s2 t with leaving := (getTile s2 t).leaving ++
         ((List.range 5).filter (bit (stOut (steerCfg s t k u) 0))).map (fun o => (s.cycle + 1, ⟨fld (steerCfg s t k u) 7 7, o, w⟩)) }) := by
  have h3 : stKind (steerCfg s t k u) ≠ 3 := by rw [hkind]; decide
  unfold steerPair
  have hcycle (v : SteerUnit) : (putSteer s t k u v).cycle = s.cycle := rfl
  simp only [h3, false_and, if_false, bump_cycle, hcycle]

theorem steerExpire_of_late {k : BitVec 2} {u : Nat} {h : HeldToken} (htok : (getSteer s t k u).token = some h)
    (hlate : h.since + pairWin s t k < s.cycle) :
    steerExpire t k u s = faultSteer t k u 2 h.seq false (putSteer s t k u { getSteer s t k u with token := none }) := by
  unfold steerExpire
  dsimp only
  rw [htok]
  exact if_neg (Nat.not_le.mpr hlate)

/-- Settles O18: a word by its route, a token by what its unit holds. -/
theorem networkOperations : Obligations.NetworkOperations := by
  intro t s ht
  refine ⟨fun net inp w hnet hinp hinj hpar hunits hmask => ?word, ?waits, ?meets, fun k u b w => onTile_eq ht rfl,
    fun k u h htok hlate => onTile_eq ht (steerExpire_of_late htok hlate)⟩
  case word =>
    show execNetWordArrive t net inp w s = _
    rw [execNetWordArrive, onUnit_of ⟨ht, hnet, hinp⟩, land_eq]
    exact congrArg _ (netArrive_of_routed (s := { s with flying := _ }) hinj hpar hunits hmask)
  case waits =>
    intro k u token seq st hkind hok hfree hhold
    have hmeet : (if stKind (steerCfg s t k u.toNat) = 2 then heldWord (getSteer s t k u.toNat) token else none) = none := by
      split
      next h => exact hhold h
      next => rfl
    refine onTile_eq ht ((steerToken_of_free hkind hok hfree).trans ?_)
    dsimp only
    rw [hmeet]
  case meets =>
    intro k u token seq w st tok hkind hok hfree hhold
    have hmeet : (if stKind (steerCfg s t k u.toNat) = 2 then heldWord (getSteer s t k u.toNat) token else none) = some w :=
      (if_pos hkind).trans hhold
    have hnz : stKind (steerCfg s t k u.toNat) ≠ 0 := by rw [hkind]; decide
    refine ⟨fun hseq => ?_, fun hseq => ?_⟩
    all_goals
      refine onTile_eq ht ((steerToken_of_free hnz (by rw [hkind]; exact hok) hfree).trans ?_)
      dsimp only
      rw [hmeet]
    · exact (if_pos hseq).trans (steerPair_of_merge hkind)
    · exact if_neg hseq

/-! ### The whole bundle (R35, R37) -/

theorem forAll_congr {α σ : Type} {l : List α} {s : σ} {f g : α → σ → σ} (h : ∀ x ∈ l, ∀ s, f x s = g x s) :
    forAll l s f = forAll l s g := by
  induction l generalizing s with
  | nil => rfl
  | cons x l ih =>
    show forAll l (f x s) f = forAll l (g x s) g
    rw [h x List.mem_cons_self s]
    exact ih fun y hy => h y (List.mem_cons_of_mem x hy)

theorem forAll_of_fixed {α σ : Type} {l : List α} {s : σ} {f : α → σ → σ} (h : ∀ x ∈ l, ∀ s, f x s = s) : forAll l s f = s := by
  induction l with
  | nil => rfl
  | cons x l ih =>
    show forAll l (f x s) f = s
    rw [h x List.mem_cons_self s]
    exact ih fun y hy => h y (List.mem_cons_of_mem x hy)

theorem tileIssue_of_clean {s0 : State} {cyc len : Nat} (h : (issueCheck s0 t cyc len).2 = none) :
    tileIssue s0 cyc len t s = bundleEffects t (issueCheck s0 t cyc len).1 s := by
  unfold tileIssue
  dsimp only
  rw [h]
  rfl

theorem tileFaults_of_clean {s0 : State} {cyc len : Nat} (h : (issueCheck s0 t cyc len).2 = none) (hlen : cyc + 1 ≠ len) :
    tileFaults s0 cyc len t s = s := by
  unfold tileFaults
  rw [h]
  exact if_pos hlen

/-- Settles O14: where no tile's checks find a fault, the cycle's work is the bundles' effects in tile order. -/
theorem bundleIssue_runs_bundles : Obligations.BundleIssue := by
  intro c s hc hst ts len s0 s1 hclean hlen hgoes
  refine (onUnit_of hc).trans (congrArg _ ?_)
  have hwork : forAll ts (forAll ts s0 (tileIssue s0 (getWalker s c).cyc len)) (tileFaults s0 (getWalker s c).cyc len) = s1 :=
    (forAll_of_fixed fun t ht s => tileFaults_of_clean (hclean t ht) (Nat.ne_of_lt hlen)).trans
      (forAll_congr fun t ht s => tileIssue_of_clean (hclean t ht))
  unfold bundleIssue
  rw [if_neg (not_or.mpr ⟨not_not_intro (.inl hst), Nat.not_le.mpr (Nat.lt_of_succ_lt hlen)⟩)]
  extract_lets s' w' s2
  have hs : s' = s1 := hwork
  have hw : w'.st ≠ .stopped := by
    show (getWalker s' c).st ≠ _
    rw [hs]; exact hgoes
  rw [if_neg hw]
  show putWalker s' c { getWalker s' c with cyc := _, issued := s'.cycle + 1 } = _
  rw [hs]

end

end Sys2Proof.Machine

/-! The vector engine's commands: the queue, the start and the completion of an instruction (R42, R129, R137 to R139, R155). -/

namespace Sys2Proof.Machine

section
variable {t : Nat} {s : State}

/-- Every vector operation issues by its OPC. -/
theorem exec_vecCommand (a : VecArgs) : ∀ p ∈ vecCommands, exec (p.2 t a) s = onTile t s (vecIssue p.1 t a) := by
  simp only [vecCommands, List.forall_mem_cons]
  exact ⟨rfl, rfl, rfl, rfl, rfl, rfl, rfl, rfl, rfl, rfl, rfl, rfl, rfl, rfl, rfl, rfl, rfl, rfl, rfl, rfl, rfl, rfl, rfl, rfl, rfl, rfl,
    fun _ h => nomatch h⟩

theorem vecIssue_of_clean {opc : Nat} {a : VecArgs} (hr : vecReserved s t opc a = false) (hroom : vecHeld s t < 4) :
    vecIssue opc t a s = vecEnqueue t opc a s := by
  unfold vecIssue
  rw [if_neg (by simp [hr]), if_neg (Nat.not_le.mpr hroom)]

/-- An instruction as it enters the queue of a tile (R138). -/
def queued (x : Tile) (opc : Nat) (a : VecArgs) : VecEntry :=
  { opc := opc, args := a, ctx := x.active, cval := ctrOf x a.offc, started := none, last := 0, run := none }

/-- The state with an entry at the end of a tile's queue. -/
def withQueued (t : Nat) (en : VecEntry) (s : State) : State := putTile s t { getTile s t with vq := (getTile s t).vq ++ [en] }

theorem getTile_withQueued (en : VecEntry) :
    getTile (withQueued t en s) t = { getTile s t with vq := (getTile s t).vq ++ [en] } :=
  getTile_putTile_self s t _ fun h => by simpa [Tile.reset] using congrArg Tile.vq h

theorem vecEnqueue_eq {opc : Nat} {a : VecArgs} :
    vecEnqueue t opc a s =
      (let s1 := withQueued t (queued (getTile s t) opc a) s
       if (getTile s t).vq.isEmpty then vecHead t s1 else s1) := rfl

theorem vecHead_of_busy (h : s.cycle < (getTile s t).vecFree) : vecHead t s = s := if_neg fun hd => absurd hd.1 (Nat.not_le.mpr h)

/-- The head of a queue starts where the engine is free and its checks find nothing. -/
theorem vecHead_starts {en : VecEntry} {l : List VecEntry} (hq : (getTile s t).vq = en :: l) (hnew : en.started = none)
    (hfree : (getTile s t).vecFree ≤ s.cycle)
    (hok : startFault s t en.ctx (vPlan s t en.opc en.args en.cval) (en.args.var.toNat % 8 + 1) = none) :
    vecHead t s = vecBegin t en (vPlan s t en.opc en.args en.cval) s := by
  have hnew : (getTile s t).vq.head?.any (fun e => e.started.isNone) = true := by simp [hq, hnew]
  refine (if_pos ⟨hfree, hnew⟩).trans ?_
  unfold vecStart
  dsimp only
  rw [hq]
  dsimp only
  rw [hok]

/-- The started instruction is the only one of a queue that held one entry. -/
theorem vecBegin_head {en e : VecEntry} {p : VPlan} (hq : (getTile s t).vq = [e]) :
    ∃ h, (getTile (vecBegin t en p s) t).vq = [h] ∧ h.started = some s.cycle ∧ h.last = s.cycle + p.g + 4 + p.extra := by
  unfold vecBegin
  extract_lets remote msg m0 s' q wait run head x
  have hs (m : Nat) : getTile (if remote then putMsg s m { WinMsg.reset with live := true } else s) t = getTile s t := by
    split <;> rfl
  have hcycle : s'.cycle = s.cycle := by show (if _ then _ else _ : State).cycle = _; split <;> rfl
  have hx : x.vq = [e] := by rw [← hq]; exact congrArg Tile.vq (hs msg)
  refine ⟨head, ?_, congrArg some hcycle, ?_⟩
  · rw [getTile_putTile_self _ _ _ fun h => by simpa [Tile.reset] using congrArg Tile.vq h]
    show head :: x.vq.drop 1 = _
    rw [hx]; rfl
  · show s'.cycle + p.g + 4 + p.extra = _
    rw [hcycle]

/-- What the end of an instruction writes once its counters are advanced: the summary, its element and census counts. -/
def writeSummary (t : Nat) (en : VecEntry) (r : VecRun) (v : VSummary) (s1 : State) : State :=
  let b := tileBase t
  let sum := summaryBits r.plan.opc v
  let s2 := addCtr (setReg s1 (b + 0x1C0) (summaryWord (reg s1 (b + 0x858)).toNat sum)) (b + 0x868) r.acc.elems
  let s3 := if summaryNonfinite sum then bump s2 (clusterBase (t / 16) + 0x878) else s2
  if en.args.cen = true ∨ r.plan.kind = .census then censusSend (cluTag s3 (t / 16)) en.args.ctag r.acc.census s3 else s3

/-- The free value that a reduction without a set reads (log 150), and the state after it. -/
def summaryDraw (r : VecRun) (s : State) : BitVec 64 × State := if r.plan.noSets then drawFree s else (0, s)

theorem summaryDraw_snd (r : VecRun) : (summaryDraw r s).2 = if r.plan.noSets then (drawFree s).2 else s := by
  unfold summaryDraw
  split <;> rfl

theorem summaryDraw_value (r : VecRun) (v : VSummary) :
    (if r.plan.noSets then { v with value := (summaryDraw r s).1.toNat } else v) =
      if r.plan.noSets then { v with value := (drawFree s).1.toNat } else v := by
  unfold summaryDraw
  split <;> rfl

theorem summaryDraw_cycle (r : VecRun) : (summaryDraw r s).2.cycle = s.cycle := by
  unfold summaryDraw
  split <;> rfl

theorem vecComplete_eq {en : VecEntry} {l : List VecEntry} {st : Nat} {r : VecRun} (hq : (getTile s t).vq = en :: l)
    (hst : en.started = some st) (hrun : en.run = some r) :
    vecComplete t s =
      (let v := vecSummary (vecEnv s t en r.plan) r.acc
       let f := summaryDraw r s
       let s1 := bump (putTile f.2 t { getTile s t with vq := l, vecFree := f.2.cycle + 1 }) (tileBase t + 0x858)
       if s.cycle < en.last then s
       else writeSummary t en r (if r.plan.noSets then { v with value := f.1.toNat } else v)
        (if s1.cycle = en.last then bump s1 (tileBase t + 0x860) else s1)) := by
  unfold vecComplete
  dsimp only
  rw [hq]
  dsimp only
  rw [hst, hrun]
  rfl

/-- The head's completion in its last cycle (R139, R155). -/
theorem vecComplete_of_last {en : VecEntry} {l : List VecEntry} {st : Nat} {r : VecRun} (hq : (getTile s t).vq = en :: l)
    (hst : en.started = some st) (hrun : en.run = some r) (hlast : s.cycle = en.last) :
    vecComplete t s =
      (let v := vecSummary (vecEnv s t en r.plan) r.acc
       let s0 := if r.plan.noSets then (drawFree s).2 else s
       writeSummary t en r (if r.plan.noSets then { v with value := (drawFree s).1.toNat } else v)
        (bump (bump (putTile s0 t { getTile s t with vq := l, vecFree := s.cycle + 1 }) (tileBase t + 0x858)) (tileBase t + 0x860))) := by
  rw [vecComplete_eq hq hst hrun]
  dsimp only
  rw [if_neg (Nat.not_lt.mpr (Nat.le_of_eq hlast.symm)), bump_cycle, putTile_cycle, if_pos ((summaryDraw_cycle r).trans hlast),
    summaryDraw_value, summaryDraw_cycle, summaryDraw_snd]

theorem vecComplete_of_early {en : VecEntry} {l : List VecEntry} {st : Nat} {r : VecRun} (hq : (getTile s t).vq = en :: l)
    (hst : en.started = some st) (hrun : en.run = some r) (hearly : s.cycle < en.last) : vecComplete t s = s := by
  unfold vecComplete
  dsimp only
  rw [hq]
  dsimp only
  rw [hst, hrun]
  exact if_pos hearly

/-- Settles O20: an instruction enters the queue, and starts where it is its head and the engine is free. -/
theorem vectorOperations : Obligations.VectorOperations := by
  intro t s ht
  refine ⟨fun p hp a hr hroom => ?_, ?_⟩
  · intro x en s1 plan
    have run {u : State} (h : (if x.vq.isEmpty then vecHead t s1 else s1) = u) : exec (p.2 t a) s = .next u :=
      (exec_vecCommand a p hp).trans (onTile_eq ht ((vecIssue_of_clean hr hroom).trans (vecEnqueue_eq.trans h)))
    have htile : getTile s1 t = { x with vq := x.vq ++ [en] } := getTile_withQueued en
    refine ⟨fun hbusy => run ?waits, fun hempty hfree hok => ?starts⟩
    case waits =>
      split
      next hempty =>
        have hlt := hbusy.resolve_left (not_not_intro (List.isEmpty_iff.mp hempty))
        exact vecHead_of_busy (by rw [htile]; exact hlt)
      next => rfl
    case starts =>
      have hq : (getTile s1 t).vq = [en] := by rw [htile, hempty]; rfl
      refine ⟨run ((if_pos (by rw [hempty]; rfl)).trans ?_), vecBegin_head hq⟩
      exact vecHead_starts hq rfl (by rw [htile]; exact hfree) hok
  · intro en l st r hq hst hrun v sum s0
    exact ⟨fun h => onTile_eq ht (vecComplete_of_early hq hst hrun h), fun h => onTile_eq ht (vecComplete_of_last hq hst hrun h)⟩

end

end Sys2Proof.Machine

/-! The edges of a phase: sampling, start, end, barrier release and gate timeout (R24, R112, R113, R115, R117). -/

namespace Sys2Proof.Machine

section
variable {c : Nat} {s : State}

/-- What every step of a loop keeps, the loop keeps. -/
theorem forAll_same {α σ β : Type} {l : List α} {f : α → σ → σ} (p : σ → β) (h : ∀ x s, p (f x s) = p s) (s : σ) :
    p (forAll l s f) = p s := by
  induction l generalizing s with
  | nil => rfl
  | cons x l ih => exact (ih (f x s)).trans (h x s)

theorem getWalker_putWalker_of_busy {w : Walker} (hw : w.st ≠ .idle) : getWalker (putWalker s c w) c = w :=
  congrArg Cluster.walker (getClu_putClu_self s c _ fun h => hw (congrArg (fun k => k.walker.st) h))

/-! ### Sampling (R113) -/

/-- The walker as a sampling leaves it before the gate is looked at. -/
def sampled (s : State) (c : Nat) : Walker :=
  { getWalker s c with waitFrom := some ((getWalker s c).waitFrom.getD s.cycle),
                       unmet := BitVec.ofNat 4 (unmetTerms (seenState s) c (getWalker s c).wait.toNat) }

/-- A sound waiting entry without a barrier whose gate is open is chosen. -/
theorem walkerSample_of_open (hst : (getWalker s c).st = .sampling) (hnone : (getWalker s c).chosen = none)
    (hrun : (getClu s c).run = none) (hhold : walkerHolds s c = false)
    (htmo : regF (seenState s) (clusterBase c + 0x118) 31 0 = 0 ∨
      (getWalker s c).waitCnt < regF (seenState s) (clusterBase c + 0x118) 31 0)
    (hgood : entryBad (seenState s) c (getWalker s c).wait.toNat = false)
    (hcall : entryCall (seenState s) c (getWalker s c).wait.toNat = false)
    (hgate : unmetTerms (seenState s) c (getWalker s c).wait.toNat = 0)
    (hbar : entryF (seenState s) c (getWalker s c).wait.toNat 5 21 21 = 0) :
    walkerSample c s = putWalker (putWalker s c (sampled s c)) c
      { sampled s c with chosen := some ((getWalker s c).wait, false) } := by
  have hopen : gateOpen (seenState s) c (getWalker s c).wait.toNat = true := by simp [gateOpen, hgate]
  unfold walkerSample
  extract_lets w e v tmo
  rw [if_neg (by simp [w, hst, hnone, hrun, hhold]), if_neg fun h => htmo.elim h.1 (Nat.not_lt.mpr h.2), if_neg (by simp [v, e, w, hgood]),
    if_neg (by simp [v, e, w, hcall]), if_pos hopen, if_neg (by show ¬ entryF _ _ _ _ _ _ = 1; rw [hbar]; decide)]
  rfl

/-! ### The start edge (R115) -/

theorem startPhase_of_loaded {e : Nat} {fill : Bool} (hrun : (getClu s c).run = none) (hen : blkEn s (clusterBase c) = true)
    (hloaded : ∀ t ∈ tilesOf c, bit (entryF s c e 0 47 32) (t % 16) = true →
      ctxSeen s t (BitVec.ofNat 2 (entryF s c e 0 (2 * (t % 16) + 1) (2 * (t % 16)))) = 2) :
    ∃ s' : State, startPhase c e fill s = putWalker s' c
      { getWalker s' c with st := .running, cur := BitVec.ofNat 8 e, fill := fill, chosen := none, cyc := 0 } := by
  unfold startPhase
  extract_lets parts named
  rw [if_neg (by simp [hrun, hen]), if_neg ?_]
  · exact ⟨_, rfl⟩
  · intro h
    obtain ⟨t, ht, hne⟩ := List.any_eq_true.mp h
    obtain ⟨htile, hpart⟩ := List.mem_filter.mp ht
    exact absurd (hloaded t htile hpart) (by simpa using hne)

/-! ### The end of a phase (R112) -/

/-- The tiles of a cluster after its phase: none takes part. -/
def partCleared (c : Nat) (s : State) : State := forAll (tilesOf c) s (fun t s => putTile s t { getTile s t with part := false })

theorem reg_partCleared (a : Nat) : reg (partCleared c s) a = reg s a :=
  forAll_same (l := tilesOf c) (f := fun t s => putTile s t { getTile s t with part := false }) (fun s => reg s a)
    (fun t s => reg_putTile s t _ a) s

theorem phaseComplete_of_ended (hst : (getWalker s c).st = .running)
    (hend : entryF s c (getWalker s c).cur.toNat 1 23 0 ≤ (getWalker s c).cyc) :
    phaseComplete c s =
      (let w := getWalker s c
       let s1 := partCleared c s
       if w.stopReq = true ∨ wbit (reg s1 (clusterBase c + 0x100)) 9 = true then
         putWalker s1 c { w with st := .idle, stopReq := false, waitFrom := none, chosen := none, cyc := 0 }
       else if w.fill then putWalker s1 c { w with st := .sampling }
       else match nextEntry s1 c w.cur.toNat with
         | some e => takeEntry c e (putWalker s1 c { w with cyc := 0 })
         | none => baristaIrq c 3 w.cur.toNat (raiseEvent (clusterBase c) 0 (putWalker s1 c { w with st := .done, cyc := 0 }))) := by
  unfold phaseComplete
  dsimp only
  rw [if_neg (not_or.mpr ⟨not_not_intro hst, Nat.not_lt.mpr hend⟩)]
  rfl

theorem nextEntry_of_plain {e : Nat} (h : entryF s c e 1 29 27 = 0) : nextEntry s c e = some (entryF s c e 1 47 40) := by
  unfold nextEntry
  dsimp only
  rw [h]
  rfl

/-! ### Gate timeout and barriers (R24, R117) -/

theorem faultWalker_of_waiting {code : Nat} (h : (getWalker s c).st ≠ .stopped) :
    faultWalker c code s = raiseClu (clusterBase c) c code (stopCluster c code 16 s) :=
  if_neg (by simp [stoppedBefore, h])

theorem foldl_max_le {α : Type} {l : List α} {f : α → Nat} {m n : Nat} (hm : m ≤ n) (hl : ∀ b ∈ l, f b ≤ n) :
    l.foldl (fun m b => max m (f b)) m ≤ n := by
  induction l generalizing m with
  | nil => exact hm
  | cons b l ih => exact ih (Nat.max_le.mpr ⟨hm, hl b List.mem_cons_self⟩) fun x hx => hl x (List.mem_cons_of_mem b hx)

theorem barrierRelease_of_due {die : Nat} {ch : BitVec 4} {tag : BitVec 12} {a : Arrival} {r : List Arrival}
    (hpeers : s.arrivals.filter (fun a => a.die == die && a.channel == ch && a.tag == tag) = a :: r)
    (hnamed : ∀ k ∈ maskClusters die a.mask.toNat, (∃ b ∈ a :: r, b.cluster = k) ∧ blkEn s (clusterBase k) = true)
    (hdue : ∀ b ∈ a :: r, b.cycle + 31 ≤ s.cycle) :
    barrierRelease die ch tag s =
      forAll (maskClusters die a.mask.toNat) s (fun k s => startPhase k (getWalker s k).wait.toNat false s) := by
  have ha : a.cycle + 31 ≤ s.cycle := hdue a List.mem_cons_self
  have hlast : (a :: r).foldl (fun m b => max m b.cycle) 0 ≤ s.cycle - 31 :=
    foldl_max_le (Nat.zero_le _) fun b hb => Nat.le_sub_of_add_le (hdue b hb)
  have hall : (maskClusters die a.mask.toNat).all (fun k => (a :: r).any (fun b => b.cluster == k) && blkEn s (clusterBase k)) = true :=
    List.all_eq_true.mpr fun k hk => by
      obtain ⟨⟨b, hb, hbk⟩, hen⟩ := hnamed k hk
      rw [hen, Bool.and_true]
      exact List.any_eq_true.mpr ⟨b, hb, by simp [hbk]⟩
  unfold barrierRelease
  dsimp only
  rw [hpeers]
  exact if_pos ⟨hall, by omega⟩

/-- Settles O22: each edge by the branch of the walker that takes it. -/
theorem phaseEdges : Obligations.PhaseEdges := by
  intro c s hc w
  refine ⟨?sample, ?start, ?ends, ?timeout, ?release⟩
  case sample =>
    intro hst hnone hrun hhold v htmo hgood hcall hgate hbar
    refine ⟨_, (onUnit_of hc).trans (congrArg _ (walkerSample_of_open hst hnone hrun hhold htmo hgood hcall hgate hbar)), ?_⟩
    rw [getWalker_putWalker_of_busy (by show w.st ≠ _; rw [hst]; decide)]
    exact ⟨rfl, hst, rfl⟩
  case start =>
    intro e fill hst hchosen hrun hen hloaded
    obtain ⟨s', hs⟩ := startPhase_of_loaded (fill := fill) hrun hen hloaded
    have hstart : phaseStart c s = startPhase c e.toNat fill s := by
      unfold phaseStart
      dsimp only
      rw [hst, hchosen]
    refine ⟨_, (onUnit_of hc).trans (congrArg _ (hstart.trans hs)), ?_⟩
    rw [getWalker_putWalker_of_busy WalkSt.noConfusion]
    exact ⟨rfl, (BitVec.ofNat_toNat 8 e).trans (BitVec.setWidth_eq e), rfl, rfl, rfl⟩
  case ends =>
    intro hst hend s1
    have run {u : State} (h : phaseComplete c s = u) : exec (.phaseComplete c) s = .next u := (onUnit_of hc).trans (congrArg _ h)
    refine ⟨fun hstop => run ?_, fun hgo hsingle hmain hcond => run ?_⟩
    · exact (phaseComplete_of_ended hst hend).trans (if_pos (.inl hstop))
    · refine (phaseComplete_of_ended hst hend).trans ((if_neg ?_).trans ((if_neg (by simp [w, hmain])).trans ?_))
      · rw [reg_partCleared]
        simp [w, hgo, hsingle]
      · have hword : entryF (partCleared c s) c = entryF s c := by
          funext e i hi lo
          exact congrArg (fun x => wfld x hi lo) (reg_partCleared _)
        rw [nextEntry_of_plain (by rw [hword]; exact hcond), hword]
        rfl
  case timeout =>
    intro hst hnz hle
    refine (onUnit_of hc).trans (congrArg _ ((if_pos ⟨hst, hnz, hle⟩).trans (faultWalker_of_waiting ?_)))
    rcases hst with h | h <;> simp [show (getWalker s c).st = _ from h]
  case release =>
    intro die ch tag a r hdie hpeers hnamed hdue
    exact (onUnit_of hdie).trans (congrArg _ (barrierRelease_of_due hpeers hnamed hdue))

end

end Sys2Proof.Machine

/-! Asynchronous rows at their banks, and the bytes that a storing command leaves alone (R160 to R162, R169, R170, R172, R289). -/

namespace Sys2Proof.Machine

section
variable {a : Store} {s : State}

/-! ### A row reaches its bank (R161, R172) -/

theorem exec_asyncWriteArrive {w : AsyncRow} (ha : storeOk a = true) (hin : w.row * storeRow a < storeSize a) :
    exec (.asyncWriteArrive a w) s = .next (asyncArrive a w s) := onUnit_of ⟨ha, hin⟩

theorem asyncArrive_plain {w : AsyncRow} (hwin : w.win = none) (hdesc : w.desc = none) (hon : bankOn s a (storeBank a w.row) = true)
    (hb : cluBlocked s (storeClu a) = false) : asyncArrive a w s = enterBank a w s := by
  unfold asyncArrive
  rw [hwin, hdesc, hon, hb]
  rfl

/-- A row of a descriptor reaches its bank as a message of its own (R297). -/
theorem asyncArrive_desc {w : AsyncRow} {d : DescRef} (hwin : w.win = none) (hdesc : w.desc = some d)
    (hon : bankOn s a (storeBank a w.row) = true) (hb : cluBlocked s (storeClu a) = false) :
    asyncArrive a w s =
      (let m := freshMsg s
       let s1 := putMsg s m { WinMsg.reset with origin := .desc d.cluster d.ring d.count }
       let s2 := putMsg s1 m { getMsg s1 m with waiting := 1, lastIn := true }
       enterBank a { w with win := some { window := 0, cls := .loc, tag := 0, jepoch := 0, key := 0, msg := m, last := true } } s2) := by
  unfold asyncArrive
  rw [hwin, hdesc, hon, hb]
  rfl

theorem windowRow_of_admitted {w : AsyncRow} {r : WinRef} (hm : (getMsg s r.msg).refused = false)
    (hok : winCheck s a r.window r.cls r.tag r.jepoch r.key (rowSpan a w).1 (rowSpan a w).2 = 0) :
    windowRow a w r s = enterBank a w (putMsg s r.msg { getMsg s r.msg with
      waiting := (getMsg s r.msg).waiting + 1, lastIn := (getMsg s r.msg).lastIn || r.last,
      counter := if r.last then (if wbit (winCtrl s a r.window) 60 then some (storeClu a, wfld (winCtrl s a r.window) 59 56) else none)
                 else (getMsg s r.msg).counter }) := by
  unfold windowRow
  dsimp only
  rw [hm, if_neg Bool.false_ne_true, hok]
  rfl

/-! ### The edge at a bank (R161, R162) -/

theorem bankEdge_of_free {bank : Nat} {w : BankRow} (hq : bankQueue s a bank = [w]) (hbusy : bankBusy s a bank = false)
    (htaken : bankTaken s a bank = false) :
    bankEdge a bank s = landRow a w.row (takeBank a bank w.inBuf (putBankQueue s a bank [])) := by
  unfold bankEdge
  rw [hq]
  dsimp only
  rw [hbusy, htaken]
  simp only [Bool.not_false, Bool.and_self, if_true, List.take_nil, List.filter_nil, List.zipIdx_nil, List.map_nil]
  rfl

theorem bankEdge_of_busy {bank : Nat} {w : BankRow} (hq : bankQueue s a bank = [w]) (hbusy : bankBusy s a bank = true)
    (hnew : w.inBuf = false) :
    bankEdge a bank s =
      (let s1 := bump (putBankQueue s a bank [{ w with inBuf := true }]) (deferCtr a)
       if readNow s1 a w.row.row then bump s1 (collideCtr a) else s1) := by
  unfold bankEdge
  rw [hq]
  dsimp only
  rw [hbusy, hnew]
  by_cases hlanded : bankLanded s a bank == some true <;> simp [hlanded, hnew, forAll, countEntry]

theorem storePut_bump (x : Nat) (m : Mem) : storePut (bump s x) a m = bump (storePut s a m) x := by cases a <;> rfl

theorem storeMem_bump (x : Nat) : storeMem (bump s x) a = storeMem s a := by cases a <;> rfl

/-- A row of no message writes its masked bytes (R161). -/
theorem landRow_sp {w : AsyncRow} (t : Nat) (hwin : w.win = none) :
    landRow (.sp t) w s = bump (storePut s (.sp t) (rowInto (.sp t) w (storeMem s (.sp t)))) (tileBase t + 0x888) := by
  have hamo : rowAmo s w = none := by unfold rowAmo; rw [hwin]; rfl
  unfold landRow rowLand
  rw [hamo, hwin, ← storePut_bump]
  simp only [Option.isSome_none, Bool.false_eq_true, if_false, storeMem_bump, msgLanded, hamo]

@[inherit_doc landRow_sp]
theorem landRow_car {w : AsyncRow} (c : Nat) (hwin : w.win = none) :
    landRow (.car c) w s = storePut s (.car c) (rowInto (.car c) w (storeMem s (.car c))) := by
  have hamo : rowAmo s w = none := by unfold rowAmo; rw [hwin]; rfl
  unfold landRow rowLand
  rw [hamo, hwin]
  simp only [Option.isSome_none, Bool.false_eq_true, if_false, msgLanded, hamo]

/-- Settles O24: an arrival by the row's source, an edge by whether the bank is free. -/
theorem asynchronousRows : Obligations.AsynchronousRows := by
  intro a s ha
  refine ⟨?plain, ?window, ?edge, fun w t c hwin => ⟨landRow_sp t hwin, landRow_car c hwin⟩⟩
  case plain =>
    intro w hin hwin hon hb
    refine ⟨fun hdesc => ?_, fun d hdesc => ?_⟩
    · rw [exec_asyncWriteArrive ha hin, asyncArrive_plain hwin hdesc hon hb]; rfl
    · rw [exec_asyncWriteArrive ha hin, asyncArrive_desc hwin hdesc hon hb]; rfl
  case window =>
    intro w r hin hwin hm hok
    rw [exec_asyncWriteArrive ha hin, ← windowRow_of_admitted hm hok]
    unfold asyncArrive
    rw [hwin]
  case edge =>
    intro bank w hbank hq
    refine ⟨fun hbusy htaken => ?_, fun hbusy hnew => ?_⟩
    · exact (onUnit_of ⟨ha, hbank⟩).trans (congrArg _ (bankEdge_of_free hq hbusy htaken))
    · exact (onUnit_of ⟨ha, hbank⟩).trans (congrArg _ (bankEdge_of_busy hq hbusy hnew))

/-! ### What a store leaves alone -/

theorem memGet_setRow {m : Mem} (x y : Nat) (r : Row) (hm : Memory.wf m = true) (h : y < x ∨ x + 64 ≤ y) :
    memGet (setRow m x r) y = memGet m y := by
  unfold setRow memSetNat
  rw [memGet_memWrite x y _ hm, leBytes_length, if_neg (by omega)]

theorem memGet_memSetNat_outside {m : Mem} (x n v y : Nat) (hm : Memory.wf m = true) (h : y < x ∨ x + n ≤ y) :
    memGet (memSetNat m x n v) y = memGet m y := by
  unfold memSetNat
  rw [memGet_memWrite x y _ hm, leBytes_length, if_neg (by omega)]

theorem memGet_memWrite_outside {m : Mem} (x y : Nat) (l : List Byte) (hm : Memory.wf m = true) (h : y < x ∨ x + l.length ≤ y) :
    memGet (memWrite m x l) y = memGet m y := by
  rw [memGet_memWrite x y l hm, if_neg (by omega)]

/-- Writing single bytes changes no byte that is none of them. -/
theorem memGet_forAll_memSet {α : Type} {f : α → Nat} {g : α → Byte} {l : List α} {m : Mem} (x : Nat) (hm : Memory.wf m = true)
    (h : ∀ p ∈ l, x ≠ f p) : memGet (forAll l m (fun p m => memSet m (f p) (g p))) x = memGet m x := by
  induction l generalizing m with
  | nil => rfl
  | cons p l ih =>
    have hhead : memGet (memSet m (f p) (g p)) x = memGet m x := by
      rw [memGet_memSet _ _ _ hm, if_neg (h p List.mem_cons_self)]
    exact (ih (memSet_wf _ _ hm) fun q hq => h q (List.mem_cons_of_mem p hq)).trans hhead

theorem of_mem_maskedBytes {n : Nat} {w : AsyncRow} {p : Nat × Byte} (h : p ∈ maskedBytes n w) : p.1 < n ∧ w.mask.getLsbD p.1 = true := by
  obtain ⟨i, hi, hp⟩ := List.mem_filterMap.mp h
  split at hp
  next hbit => cases hp; exact ⟨List.mem_range.mp hi, hbit⟩
  next => cases hp

theorem memGet_rowInto {w : AsyncRow} {m : Mem} (x : Nat) (hm : Memory.wf m = true)
    (h : x < storeAt a (w.row * storeRow a) ∨ storeAt a (w.row * storeRow a) + storeRow a ≤ x ∨
      w.mask.getLsbD (x - storeAt a (w.row * storeRow a)) = false) :
    memGet (rowInto a w m) x = memGet m x := by
  refine memGet_forAll_memSet x hm fun p hp he => ?_
  obtain ⟨hlt, hbit⟩ := of_mem_maskedBytes hp
  rcases h with h | h | h
  · omega
  · omega
  · rw [he, Nat.add_sub_cancel_left, hbit] at h
    cases h

/-- The bytes that a row may change where it lands: those of its mask, or the eight of its atomic (R161, R314). -/
def LandsOutside (s : State) (a : Store) (w : AsyncRow) (x : Nat) : Prop :=
  if (rowAmo s w).isSome then x < amoAddr a w ∨ amoAddr a w + 8 ≤ x
  else x < storeAt a (w.row * storeRow a) ∨ storeAt a (w.row * storeRow a) + storeRow a ≤ x ∨
    w.mask.getLsbD (x - storeAt a (w.row * storeRow a)) = false

theorem memGet_rowLand {w : AsyncRow} {m : Mem} (x : Nat) (hm : Memory.wf m = true) (h : LandsOutside s a w x) :
    memGet (rowLand s a w m) x = memGet m x := by
  unfold LandsOutside at h
  unfold rowLand
  cases hamo : rowAmo s w with
  | some v => rw [hamo] at h; exact memGet_memSetNat_outside _ 8 _ x hm h
  | none => rw [hamo] at h; exact memGet_rowInto x hm h

theorem storeMem_storePut (m : Mem) : storeMem (storePut s a m) a = m := by cases a <;> rfl

/-- States with the same scratchpads and carafes hold the same bytes in every store. -/
theorem storeMem_congr {u : State} (hsp : u.mem.sp = s.mem.sp) (hcar : u.mem.car = s.mem.car) : storeMem u a = storeMem s a := by
  cases a with
  | sp t => exact hsp
  | car c => exact hcar

/-- What keeps the scratchpads and the carafes keeps every store. -/
theorem Keeps.storeMem {m : Nat} {u : State} (h : Keeps m s u) (hsp : m.testBit 33 = false) (hcar : m.testBit 34 = false) :
    storeMem u a = storeMem s a := storeMem_congr (h.same .mSp hsp) (h.same .mCar hcar)

theorem rowAmo_congr {u : State} {w : AsyncRow} (h : u.msgs = s.msgs) : rowAmo u w = rowAmo s w := by
  unfold rowAmo getMsg
  rw [h]

theorem rowLand_of_keeps {u : State} {w : AsyncRow} (h : Keeps 208 s u) :
    rowLand u a w (storeMem u a) = rowLand s a w (storeMem s a) := by
  unfold rowLand
  rw [rowAmo_congr (h.same .msgs (by decide)), h.storeMem (by decide) (by decide)]

/-- A landing leaves its store as the landed row makes it. -/
theorem storeMem_landRow {w : AsyncRow} : storeMem (landRow a w s) a = rowLand s a w (storeMem s a) := by
  unfold landRow
  extract_lets o s1
  have hs1 : storeMem s1 a = storeMem s a := by
    show storeMem (if _ then noteOld a w s else _ : State) a = _
    split
    · exact (keeps_noteOld (k := 1024) rfl (.refl _ s)).storeMem (by decide) (by decide)
    · cases a with
      | sp t => exact storeMem_bump _
      | car c => rfl
  have hland (u : State) : storeMem (msgLanded w.win u) a = storeMem u a :=
    (keeps_msgLanded (k := 27264016) rfl (.refl _ u)).storeMem (by decide) (by decide)
  rw [hland, storeMem_storePut, hs1]

/-- The edge at a bank changes its store by the landing of its oldest row, or not at all (R161). -/
theorem storeMem_bankEdge {bank : Nat} {w : BankRow} {r : List BankRow} (hq : bankQueue s a bank = w :: r) :
    storeMem (bankEdge a bank s) a = storeMem s a ∨ storeMem (bankEdge a bank s) a = rowLand s a w.row (storeMem s a) := by
  have hk (l late : List BankRow) : Keeps 208 s (forAll late (putBankQueue s a bank l) (fun q s => countEntry a q.row s)) :=
    keeps_forAll (keeps_putBankQueue rfl (.refl 208 s)) fun _ _ h => keeps_countEntry rfl h
  unfold bankEdge
  rw [hq]
  dsimp only
  split
  · exact .inr (storeMem_landRow.trans (rowLand_of_keeps (keeps_takeBank rfl (hk _ _))))
  · exact .inl ((hk _ _).storeMem (by decide) (by decide))

/-! ### The storing commands (R160, R170, R289) -/

/-- A command on a unit answers what its meaning makes, or the state as it was. -/
theorem onUnit_next {p : Prop} [Decidable p] {f : State → State} {u : State} (h : onUnit p s f = .next u) : u = f s ∨ u = s := by
  have hu : (if p then f s else s) = u := Host.Outcome.next.inj h
  split at hu
  · exact .inl hu.symm
  · exact .inr hu.symm

/-- A slot alone acts, or raises a fault. -/
theorem slotAlone_or_faults (t : Nat) (b : Bundle) (act : State → State) :
    slotAlone t b act s = act s ∨ Keeps 18141941924304 s (slotAlone t b act s) := by
  unfold slotAlone
  split
  · exact .inr (keeps_faultTile rfl (.refl _ s))
  split
  · exact .inr (keeps_raiseIssue rfl (.refl _ s))
  · exact .inl rfl

theorem memGet_portWrite {t row : Nat} (x : Nat) (hm : Memory.wf s.mem.sp = true) (hx : x < spAt t (64 * row) ∨ spAt t (64 * row) + 64 ≤ x) :
    memGet (portWrite t row s).mem.sp x = memGet s.mem.sp x := by
  unfold portWrite
  have hpop : (popHead t 0 s).2.mem.sp = s.mem.sp := (keeps_popHead (k := 64) rfl (.refl _ s)).same .mSp (by decide)
  dsimp only
  split
  · rfl
  · show memGet (setRow (noteAccess t [row] false (popHead t 0 s).2).mem.sp _ _) x = _
    rw [show (noteAccess t [row] false (popHead t 0 s).2).mem.sp = s.mem.sp from hpop]
    exact memGet_setRow _ x _ hm hx

theorem memGet_writeRow {t row port : Nat} (x : Nat) (hm : Memory.wf s.mem.sp = true)
    (hx : x < spAt t (64 * row) ∨ spAt t (64 * row) + 64 ≤ x) :
    memGet (portAlone t port (.write row) s).mem.sp x = memGet s.mem.sp x := by
  have hslot : portAlone t port (.write row) s = slotAlone t (portBundle port (.write row)) (portWrite t row) s := rfl
  rw [hslot]
  rcases slotAlone_or_faults (s := s) t (portBundle port (.write row)) (portWrite t row) with h | h
  · rw [h]; exact memGet_portWrite x hm hx
  · rw [show (slotAlone t (portBundle port (.write row)) (portWrite t row) s).mem.sp = s.mem.sp from h.same .mSp (by decide)]

theorem mem_storeWrite_car (c off : Nat) (l : List Byte) : (storeWrite s (.car c) off l).mem.car = memWrite s.mem.car (carAt c off) l := rfl

/-- The byte of the carafe from which descriptor data is stored (R289). -/
def descDataAt (s : State) (c : Nat) : Nat :=
  let a := reg s (dmaBase c + 0x140)
  let cfg := (getRing s c (wfld a 5 0)).cfg
  carAt c (slotAt cfg (wfld a 27 16 % ringSize cfg) + 8 * wfld a 10 8)

/-- A word of descriptor data changes the eight bytes that `DMA_DESC_ADDR` names, if any (R289). -/
theorem mem_descData {c : Nat} (v : Word) :
    (descData c v s).mem.car = s.mem.car ∨ (descData c v s).mem.car = memWrite s.mem.car (descDataAt s c) (leBytes 8 v.toNat) := by
  unfold descData
  extract_lets a g size k held at_
  split
  · exact .inl ((keeps_dmaIgnore (k := 16) rfl (.refl _ s)).same .mCar (by decide))
  split
  · exact .inl ((keeps_raiseClu (k := 18141941924304) rfl (.refl _ s)).same .mCar (by decide))
  · refine .inr ?_
    rw [setReg_mem, mem_storeWrite_car]
    rfl

theorem tblGet_tblKeep {α : Type} [DecidableEq α] {d : α} {p : Nat → Bool} {m : Tbl α} {k : Nat} (hm : tblWf (fun _ => d) m = true)
    (hk : p k = true) : tblGet d (tblKeep p m) k = tblGet d m k := by
  induction m with
  | nil => rfl
  | cons q r ih =>
    obtain ⟨-, habove, hr⟩ := tblWf_cons.mp hm
    have ih := ih hr
    unfold tblKeep at ih ⊢
    rw [List.filter_cons]
    split
    · simp only [tblGet, ih]
    next hq =>
      rw [ih]
      rcases Nat.lt_trichotomy k q.1 with h | h | h
      · simp only [tblGet, if_pos h]
        exact tblGet_below d r k fun x hx => Nat.lt_trans h (habove x hx)
      · exact absurd (h ▸ hk) hq
      · simp only [tblGet, if_neg (Nat.not_lt.mpr (Nat.le_of_lt h)), if_neg (Nat.ne_of_lt h)]

theorem storeMem_zeroBank {b off : Nat} (hm : Memory.wf (storeMem s a) = true) (h : storeBank a (off / storeRow a) ≠ b) :
    memGet (storeMem (zeroBank a b s) a) (storeAt a off) = memGet (storeMem s a) (storeAt a off) := by
  unfold zeroBank
  rw [storeMem_storePut]
  refine tblGet_tblKeep hm ?_
  have hoff : storeAt a off - storeAt a 0 = off := by cases a <;> simp [storeAt, spAt, carAt]
  simp [hoff, h]

/-- A bank that reaches its state changes no byte of another bank (R170). -/
theorem memGet_bankArrives {b off : Nat} (hm : Memory.wf (storeMem s a) = true) (h : storeBank a (off / storeRow a) ≠ b) :
    memGet (storeMem (bankArrives a b s) a) (storeAt a off) = memGet (storeMem s a) (storeAt a off) := by
  unfold bankArrives
  extract_lets to_ frm s1
  split
  · rfl
  have hready : storeMem (setBankReady (setBankFrom s1 a b 0) a b true) a = storeMem s1 a :=
    (keeps_setBankReady (k := 208) rfl (keeps_setBankFrom rfl (.refl _ s1))).storeMem (by decide) (by decide)
  rw [hready]
  show memGet (storeMem (if _ then _ else _ : State) a) _ = _
  split
  · exact storeMem_zeroBank hm h
  · rfl

theorem memGet_descData {c : Nat} {v : Word} (x : Nat) (hm : Memory.wf s.mem.car = true)
    (hx : x < descDataAt s c ∨ descDataAt s c + 8 ≤ x) : memGet (descData c v s).mem.car x = memGet s.mem.car x := by
  rcases mem_descData (s := s) (c := c) v with h | h
  · rw [h]
  · rw [h]; exact memGet_memWrite_outside _ x _ hm (by rw [leBytes_length]; exact hx)

/-- A command on a cluster's pages answers what its meaning makes, or a state with the same byte stores. -/
theorem cluCommand_next {c : Nat} {f : State → State} {u : State} (h : cluCommand c s f = .next u) : u = f s ∨ Keeps 16 s u := by
  by_cases hc : c < 64
  · have hu : (cluRefused s c).getD (f s) = u := Host.Outcome.next.inj ((cluCommand_eq hc).symm.trans h)
    cases hr : cluRefused s c with
    | none => rw [hr] at hu; exact .inl hu.symm
    | some v =>
      rw [hr] at hu
      refine .inr (hu ▸ ?_)
      unfold cluRefused at hr
      split at hr
      · cases hr; exact keeps_bump rfl (.refl _ s)
      split at hr
      · cases hr; exact keeps_bump rfl (.refl _ s)
      · cases hr
  · have hu : (if c < 64 then cluWrite c f s else unmapped s) = u := Host.Outcome.next.inj h
    rw [if_neg hc] at hu
    exact .inr (hu ▸ keeps_unmapped rfl (.refl _ s))

/-- Settles O5: each command's one store, and the parts that everything else it does keeps. -/
theorem storeFrames : Obligations.StoreFrames := by
  have sound_mem {s : State} (hs : sound s = true) (a : Store) : Memory.wf (storeMem s a) = true := storeMem_wf a (sound_iff.mp hs).1
  refine ⟨fun t port row s u hs h x hx => ?row, fun a w s u hs h => ?arrive, fun a bank w r s u hs hq h => ?land,
    fun c v s u hs h => ?data, fun a bank s u hs h off hoff => ?bank⟩
  case row =>
    rcases onUnit_next h with rfl | rfl
    · exact memGet_writeRow x (sound_mem hs (.sp t)) hx
    · rfl
  case arrive =>
    have hk := (commandFrame _ s u h).1
    exact ⟨hk .mSp (by simp [changes]), hk .mCar (by simp [changes])⟩
  case land =>
    intro base x hx
    rcases onUnit_next h with rfl | rfl
    · rcases storeMem_bankEdge hq with h | h
      · rw [h]
      · rw [h]; exact memGet_rowLand x (sound_mem hs a) hx
    · rfl
  case data =>
    intro a cfg base x hx
    rcases cluCommand_next h with rfl | hk
    · exact memGet_descData x (sound_mem hs (.car c)) hx
    · rw [show u.mem.car = s.mem.car from hk.same .mCar (by decide)]
  case bank =>
    rcases onUnit_next h with rfl | rfl
    · exact memGet_bankArrives (sound_mem hs a) hoff
    · rfl

end

end Sys2Proof.Machine

/-! The bundle's encoder and decoder, slot by slot (R36, R38, R40, R43, R93, R95, R137). -/

namespace Sys2Proof.Machine

/-! ### Fields of a number -/

theorem fld_lt (v hi lo : Nat) : fld v hi lo < 2 ^ (hi + 1 - lo) := Nat.mod_lt _ (Nat.two_pow_pos _)

theorem ofNat_toNat_same {w : Nat} (x : BitVec w) : BitVec.ofNat w x.toNat = x := (BitVec.ofNat_toNat w x).trans (BitVec.setWidth_eq x)

theorem b2n_beq (b : Bool) : (b2n b == 1) = b := by cases b <;> rfl

/-! ### The sequencing slot (R38) -/

theorem seqEncode_lt {q : SeqOp} (h : seqFits q = true) : seqEncode q < 2 ^ 16 := by
  cases q with
  | loop n len => have := n.isLt; have := of_decide_eq_true h; simp only [seqEncode]; omega
  | cset n imm | cadd n imm => have := n.isLt; have := of_decide_eq_true h; simp only [seqEncode]; omega
  | ctx k => have := k.isLt; simp only [seqEncode]; omega
  | nop | phaseEnd => decide

/-- The fields of an operation with a counter and a value of nine bits. -/
theorem seqFields {o n v : Nat} (hn : n < 8) (hv : v < 512) :
    fld (4096 * o + 512 * n + v) 15 12 = o % 16 ∧ fld (4096 * o + 512 * n + v) 11 9 = n ∧ fld (4096 * o + 512 * n + v) 8 0 = v := by
  simp only [fld, Nat.reducePow, Nat.reduceAdd, Nat.reduceSub]
  omega

section
variable {v : Nat}

theorem seqDecode_loop (h : fld v 15 12 = 1) : seqDecode v = some (.loop (BitVec.ofNat 3 (fld v 11 9)) (fld v 8 0 + 1)) := by
  unfold seqDecode
  dsimp only
  rw [h]
  rfl

theorem seqDecode_cset (h : fld v 15 12 = 2) : seqDecode v = some (.cset (BitVec.ofNat 3 (fld v 11 9)) (fld v 8 0)) := by
  unfold seqDecode
  dsimp only
  rw [h]
  rfl

theorem seqDecode_cadd (h : fld v 15 12 = 3) : seqDecode v = some (.cadd (BitVec.ofNat 3 (fld v 11 9)) (fld v 8 0)) := by
  unfold seqDecode
  dsimp only
  rw [h]
  rfl

end

theorem seqDecode_seqEncode {q : SeqOp} (h : seqFits q = true) : seqDecode (seqEncode q) = some q := by
  cases q with
  | nop | phaseEnd => decide
  | ctx k => revert k; decide
  | loop n len =>
    obtain ⟨hlo, hhi⟩ : 1 ≤ len ∧ len ≤ 512 := of_decide_eq_true h
    obtain ⟨ho, hn, hv⟩ := seqFields (o := 1) n.isLt (show len - 1 < 512 by omega)
    exact (seqDecode_loop ho).trans (by rw [hn, hv, ofNat_toNat_same, Nat.sub_add_cancel hlo])
  | cset n imm =>
    obtain ⟨ho, hn, hv⟩ := seqFields (o := 2) n.isLt (of_decide_eq_true h)
    exact (seqDecode_cset ho).trans (by rw [hn, hv, ofNat_toNat_same])
  | cadd n imm =>
    obtain ⟨ho, hn, hv⟩ := seqFields (o := 3) n.isLt (of_decide_eq_true h)
    exact (seqDecode_cadd ho).trans (by rw [hn, hv, ofNat_toNat_same])

theorem seqFits_of_decode {v : Nat} {q : SeqOp} (h : seqDecode v = some q) : seqFits q = true := by
  have hv := fld_lt v 8 0
  unfold seqDecode at h
  dsimp only at h
  split at h
  · split at h <;> cases h; rfl
  · cases h; exact decide_eq_true ⟨by omega, by omega⟩
  · cases h; exact decide_eq_true hv
  · cases h; exact decide_eq_true hv
  · split at h <;> cases h; rfl
  · split at h <;> cases h; rfl
  · cases h

/-! ### The matrix slot (R43) -/

theorem matEncode_lt {m : MatOp} (h : matFits m = true) : matEncode m < 2 ^ 56 := by
  cases m with
  | nop => decide
  | block a =>
    have := a.mode.isLt; have := a.stat.isLt; have := a.sbank.isLt; have := a.ssel.isLt; have := b2n_lt a.chk; have := a.fmtA.isLt
    have := a.fmtB.isLt; have := a.src.isLt; have := a.base.isLt; have := a.depth.isLt; have := a.kch.isLt; have := a.ltag.isLt
    simp only [matEncode]
    omega
  | statReset bank => have := of_decide_eq_true h; simp only [matEncode]; omega

/-- The fields of a BLOCK. -/
theorem matFields {v mode stat sbank ssel chk fmtA fmtB src base depth kch ltag : Nat} (hmode : mode < 4) (hstat : stat < 4)
    (hsbank : sbank < 2) (hssel : ssel < 4) (hchk : chk < 2) (hfmtA : fmtA < 16) (hfmtB : fmtB < 16) (hsrc : src < 4) (hbase : base < 64)
    (hdepth : depth < 64) (hkch : kch < 256) (hltag : ltag < 4096)
    (hv : 2 ^ 52 + mode * 2 ^ 50 + stat * 2 ^ 48 + sbank * 2 ^ 47 + ssel * 2 ^ 45 + chk * 2 ^ 44
      + fmtA * 2 ^ 40 + fmtB * 2 ^ 36 + src * 2 ^ 34 + base * 2 ^ 28 + depth * 2 ^ 22 + kch * 2 ^ 14 + ltag = v) :
    fld v 55 52 = 1 ∧ fld v 13 12 = 0 ∧ fld v 51 50 = mode ∧ fld v 49 48 = stat ∧ fld v 47 47 = sbank ∧ fld v 46 45 = ssel ∧
      v / 2 ^ 44 % 2 = chk ∧ fld v 43 40 = fmtA ∧ fld v 39 36 = fmtB ∧ fld v 35 34 = src ∧ fld v 33 28 = base ∧ fld v 27 22 = depth ∧
      fld v 21 14 = kch ∧ fld v 11 0 = ltag := by
  simp only [fld, Nat.reducePow, Nat.reduceAdd, Nat.reduceSub] at *
  refine ⟨?_, ?_, ?_, ?_, ?_, ?_, ?_, ?_, ?_, ?_, ?_, ?_, ?_, ?_⟩ <;> omega

theorem matDecode_of_block {v : Nat} (h : fld v 55 52 = 1) (hz : fld v 13 12 = 0) :
    matDecode v = some (.block {
      mode := BitVec.ofNat 2 (fld v 51 50), stat := BitVec.ofNat 2 (fld v 49 48), sbank := BitVec.ofNat 1 (fld v 47 47),
      ssel := BitVec.ofNat 2 (fld v 46 45), chk := bit v 44, fmtA := BitVec.ofNat 4 (fld v 43 40), fmtB := BitVec.ofNat 4 (fld v 39 36),
      src := BitVec.ofNat 2 (fld v 35 34), base := BitVec.ofNat 6 (fld v 33 28), depth := BitVec.ofNat 6 (fld v 27 22),
      kch := BitVec.ofNat 8 (fld v 21 14), ltag := BitVec.ofNat 12 (fld v 11 0) }) := by
  unfold matDecode
  rw [h]
  exact if_neg (not_not_intro hz)

theorem matDecode_of_statReset {v : Nat} (h : fld v 55 52 = 2) (hhi : fld v 51 48 = 0) (hlo : fld v 46 0 = 0) :
    matDecode v = some (.statReset (fld v 47 47)) := by
  unfold matDecode
  rw [h]
  exact if_pos ⟨hhi, hlo⟩

theorem matDecode_matEncode {m : MatOp} (h : matFits m = true) : matDecode (matEncode m) = some m := by
  cases m with
  | nop => rfl
  | block a =>
    obtain ⟨h1, h2, h3, h4, h5, h6, h7, h8, h9, h10, h11, h12, h13, h14⟩ := matFields a.mode.isLt a.stat.isLt a.sbank.isLt a.ssel.isLt
      (b2n_lt a.chk) a.fmtA.isLt a.fmtB.isLt a.src.isLt a.base.isLt a.depth.isLt a.kch.isLt a.ltag.isLt
      (show _ = matEncode (.block a) from rfl)
    rw [matDecode_of_block h1 h2, bit, h3, h4, h5, h6, h7, h8, h9, h10, h11, h12, h13, h14]
    simp only [ofNat_toNat_same, b2n_beq]
  | statReset bank =>
    have hb : bank < 2 := of_decide_eq_true h
    have hfields : fld (matEncode (.statReset bank)) 55 52 = 2 ∧ fld (matEncode (.statReset bank)) 51 48 = 0 ∧
        fld (matEncode (.statReset bank)) 46 0 = 0 ∧ fld (matEncode (.statReset bank)) 47 47 = bank := by
      simp only [matEncode, fld, Nat.reducePow, Nat.reduceAdd, Nat.reduceSub, Nat.reduceMul]
      omega
    obtain ⟨h1, h2, h3, h4⟩ := hfields
    rw [matDecode_of_statReset h1 h2 h3, h4]

theorem matFits_of_decode {v : Nat} {m : MatOp} (h : matDecode v = some m) : matFits m = true := by
  have hb := fld_lt v 47 47
  unfold matDecode at h
  split at h
  · cases h; rfl
  · split at h <;> cases h; rfl
  · split at h <;> cases h; exact decide_eq_true hb
  · cases h

/-! ### The port slots (R40) -/

theorem portEncode_lt {p : PortOp} (h : portFits p = true) : portEncode p < 2 ^ 20 := by
  cases p with
  | idle => decide
  | read route row => have := of_decide_eq_true h; simp only [portEncode]; omega
  | write row => have := of_decide_eq_true h; simp only [portEncode]; omega
  | gen route g => have := of_decide_eq_true h; simp only [portEncode]; omega

/-- The fields of a port slot. -/
theorem portFields {o route row : Nat} (ho : o < 4) (hr : route < 8) (hrow : row < 2 ^ 15) :
    let v := o * 2 ^ 18 + route * 2 ^ 15 + row
    fld v 19 18 = o ∧ fld v 17 15 = route ∧ fld v 14 0 = row ∧ fld v 12 0 = row % 2 ^ 13 ∧ fld v 14 13 = row / 2 ^ 13 := by
  simp only [fld, Nat.reducePow, Nat.reduceAdd, Nat.reduceSub] at *
  omega

section
variable {v : Nat}

theorem portDecode_read (h : fld v 19 18 = 1) (hr : fld v 17 15 ≤ 4) : portDecode v = some (.read (fld v 17 15) (fld v 14 0)) := by
  unfold portDecode
  dsimp only
  rw [h]
  exact if_pos hr

theorem portDecode_write (h : fld v 19 18 = 2) (hr : fld v 17 15 = 0) : portDecode v = some (.write (fld v 14 0)) := by
  unfold portDecode
  dsimp only
  rw [h]
  exact if_pos hr

theorem portDecode_gen (h : fld v 19 18 = 3) (hr : fld v 17 15 ≤ 4) (hz : fld v 12 0 = 0) :
    portDecode v = some (.gen (fld v 17 15) (fld v 14 13)) := by
  unfold portDecode
  dsimp only
  rw [h]
  exact if_pos ⟨hr, hz⟩

end

theorem portDecode_portEncode {p : PortOp} (h : portFits p = true) : portDecode (portEncode p) = some p := by
  cases p with
  | idle => decide
  | read route row =>
    obtain ⟨hr, hrow⟩ : route ≤ 4 ∧ row < 2 ^ 15 := of_decide_eq_true h
    obtain ⟨h1, h2, h3, -, -⟩ := portFields (o := 1) (by decide) (Nat.lt_of_le_of_lt hr (by decide)) hrow
    rw [Nat.one_mul] at h1 h2 h3
    exact (portDecode_read h1 (h2.symm ▸ hr)).trans (by rw [h2, h3])
  | write row =>
    have hrow : row < 2 ^ 15 := of_decide_eq_true h
    obtain ⟨h1, h2, h3, -, -⟩ := portFields (o := 2) (route := 0) (by decide) (by decide) hrow
    rw [Nat.zero_mul, Nat.add_zero] at h1 h2 h3
    exact (portDecode_write h1 h2).trans (by rw [h3])
  | gen route g =>
    obtain ⟨hr, hg⟩ : route ≤ 4 ∧ g < 4 := of_decide_eq_true h
    obtain ⟨h1, h2, -, h4, h5⟩ := portFields (o := 3) (row := g * 2 ^ 13) (by decide) (Nat.lt_of_le_of_lt hr (by decide)) (by omega)
    rw [Nat.mul_mod_left] at h4
    rw [Nat.mul_div_cancel g (Nat.two_pow_pos 13)] at h5
    exact (portDecode_gen h1 (h2.symm ▸ hr) h4).trans (by rw [h2, h5])

theorem portFits_of_decode {v : Nat} {p : PortOp} (h : portDecode v = some p) : portFits p = true := by
  have hrow := fld_lt v 14 0
  have hg := fld_lt v 14 13
  unfold portDecode at h
  dsimp only at h
  split at h
  · split at h <;> cases h; rfl
  · split at h <;> cases h
    next hr => exact decide_eq_true ⟨hr, hrow⟩
  · split at h <;> cases h; exact decide_eq_true hrow
  · split at h <;> cases h
    next hr => exact decide_eq_true ⟨hr.1, hg⟩

/-! ### The switch slot (R93, R95) -/

/-- Whether an operation of a switch slot names its counter. -/
def swUsesN (o : SwOp) : Bool := o.sop == 1 || o.sop == 2 || o.sop == 4 || decide (2 ≤ o.cop)

theorem swFits_iff {o : SwOp} :
    swFits o = true ↔ (o.vop ≤ 3 ∧ o.sop ≤ 5 ∧ o.cop < 4 ∧ o.imm < 32) ∧ (o.n = 0 ∨ swUsesN o = true) ∧ ¬ (o.sop = 2 ∧ o.cop = 3) := by
  simp [swFits, swUsesN, and_assoc, or_assoc, Decidable.imp_iff_not_or]

/-- The switch slot with the fields of a number. -/
def swOf (v : Nat) : SwOp := { vop := fld v 15 13, sop := fld v 12 10, n := BitVec.ofNat 3 (fld v 9 7), cop := fld v 6 5, imm := fld v 4 0 }

theorem swDecode_eq (v : Nat) :
    swDecode v = if 3 < (swOf v).vop ∨ 5 < (swOf v).sop ∨ ((swOf v).n ≠ 0 ∧ ¬ swUsesN (swOf v) = true) ∨ ((swOf v).sop = 2 ∧ (swOf v).cop = 3)
      then none else some (swOf v) := rfl

theorem swEncode_lt {o : SwOp} (h : swFits o = true) : swEncode o < 2 ^ 16 := by
  obtain ⟨⟨hv, hs, hc, hi⟩, -, -⟩ := swFits_iff.mp h
  have := o.n.isLt
  unfold swEncode
  omega

theorem swOf_swEncode {o : SwOp} (h : swFits o = true) : swOf (swEncode o) = o := by
  obtain ⟨⟨hv, hs, hc, hi⟩, -, -⟩ := swFits_iff.mp h
  obtain ⟨vop, sop, n, cop, imm⟩ := o
  have hn := n.isLt
  have fields {v : Nat} (hv : vop * 2 ^ 13 + sop * 2 ^ 10 + n.toNat * 2 ^ 7 + cop * 2 ^ 5 + imm = v) :
      fld v 15 13 = vop ∧ fld v 12 10 = sop ∧ fld v 9 7 = n.toNat ∧ fld v 6 5 = cop ∧ fld v 4 0 = imm := by
    simp only [fld, Nat.reducePow, Nat.reduceAdd, Nat.reduceSub] at *
    omega
  obtain ⟨h1, h2, h3, h4, h5⟩ := fields (show _ = swEncode ⟨vop, sop, n, cop, imm⟩ from rfl)
  unfold swOf
  rw [h1, h2, h3, h4, h5, ofNat_toNat_same]

theorem swDecode_swEncode {o : SwOp} (h : swFits o = true) : swDecode (swEncode o) = some o := by
  obtain ⟨⟨hv, hs, -, -⟩, hn, htake⟩ := swFits_iff.mp h
  rw [swDecode_eq, swOf_swEncode h]
  refine if_neg ?_
  rintro (hv' | hs' | ⟨hn', hu⟩ | htake')
  · omega
  · omega
  · exact hn.elim hn' hu
  · exact htake htake'

theorem swFits_of_decode {v : Nat} {o : SwOp} (h : swDecode v = some o) : swFits o = true := by
  rw [swDecode_eq] at h
  split at h
  · cases h
  next hok =>
    cases h
    simp only [not_or, Nat.not_lt] at hok
    obtain ⟨hv, hs, hn, htake⟩ := hok
    refine swFits_iff.mpr ⟨⟨hv, hs, fld_lt v 6 5, fld_lt v 4 0⟩, ?_, htake⟩
    by_cases hz : (swOf v).n = 0
    · exact .inl hz
    · exact .inr (Classical.not_not.mp fun hu => hn ⟨hz, hu⟩)

/-! ### The vector slot (R137) -/

theorem vecEncode_lt {x : Option (Nat × VecArgs)} (h : vecFits x = true) : vecEncode x < 2 ^ 128 := by
  cases x with
  | none => decide
  | some p =>
    obtain ⟨opc, a⟩ := p
    obtain ⟨-, hopc⟩ : 0 < opc ∧ opc < 256 := of_decide_eq_true h
    have := a.var.isLt; have := a.rm.isLt; have := b2n_lt a.sat; have := b2n_lt a.cen; have := a.dst.isLt; have := a.srcA.isLt
    have := a.srcB.isLt; have := a.srcC.isLt; have := a.mask.isLt; have := a.offen.isLt; have := a.offc.isLt; have := a.ctag.isLt
    have := a.imm.isLt
    simp only [vecEncode]
    omega

/-- The fields of a vector instruction. -/
theorem vecFields {v opc var rm sat cen dst srcA srcB srcC mask offen offc ctag imm : Nat} (hopc : opc < 256) (hvar : var < 16) (hrm : rm < 4)
    (hsat : sat < 2) (hcen : cen < 2) (hdst : dst < 256) (hA : srcA < 256) (hB : srcB < 256) (hC : srcC < 256) (hmask : mask < 256)
    (hoffen : offen < 16) (hoffc : offc < 8) (hctag : ctag < 4096) (himm : imm < 2 ^ 32)
    (hv : opc * 2 ^ 120 + var * 2 ^ 116 + rm * 2 ^ 114 + sat * 2 ^ 113 + cen * 2 ^ 112 + dst * 2 ^ 104 + srcA * 2 ^ 96 + srcB * 2 ^ 88
      + srcC * 2 ^ 80 + mask * 2 ^ 72 + offen * 2 ^ 68 + offc * 2 ^ 65 + ctag * 2 ^ 52 + imm = v) :
    fld v 127 120 = opc ∧ fld v 64 64 = 0 ∧ fld v 51 32 = 0 ∧ fld v 119 116 = var ∧ fld v 115 114 = rm ∧ v / 2 ^ 113 % 2 = sat ∧
      v / 2 ^ 112 % 2 = cen ∧ fld v 111 104 = dst ∧ fld v 103 96 = srcA ∧ fld v 95 88 = srcB ∧ fld v 87 80 = srcC ∧ fld v 79 72 = mask ∧
      fld v 71 68 = offen ∧ fld v 67 65 = offc ∧ fld v 63 52 = ctag ∧ fld v 31 0 = imm := by
  simp only [fld, Nat.reducePow, Nat.reduceAdd, Nat.reduceSub] at *
  refine ⟨?_, ?_, ?_, ?_, ?_, ?_, ?_, ?_, ?_, ?_, ?_, ?_, ?_, ?_, ?_, ?_⟩ <;> omega

theorem vecDecode_of_instr {v : Nat} (hopc : fld v 127 120 ≠ 0) (h64 : fld v 64 64 = 0) (h51 : fld v 51 32 = 0) :
    vecDecode v = some (some (fld v 127 120, {
      var := BitVec.ofNat 4 (fld v 119 116), rm := BitVec.ofNat 2 (fld v 115 114), sat := bit v 113, cen := bit v 112
      dst := BitVec.ofNat 8 (fld v 111 104), srcA := BitVec.ofNat 8 (fld v 103 96), srcB := BitVec.ofNat 8 (fld v 95 88)
      srcC := BitVec.ofNat 8 (fld v 87 80), mask := BitVec.ofNat 8 (fld v 79 72), offen := BitVec.ofNat 4 (fld v 71 68)
      offc := BitVec.ofNat 3 (fld v 67 65), ctag := BitVec.ofNat 12 (fld v 63 52), imm := BitVec.ofNat 32 (fld v 31 0) })) := by
  have hv : v ≠ 0 := by rintro rfl; exact hopc rfl
  unfold vecDecode
  rw [if_neg hv, if_neg (not_or.mpr ⟨hopc, not_or.mpr ⟨not_not_intro h64, not_not_intro h51⟩⟩)]

theorem vecDecode_vecEncode {x : Option (Nat × VecArgs)} (h : vecFits x = true) : vecDecode (vecEncode x) = some x := by
  cases x with
  | none => rfl
  | some p =>
    obtain ⟨opc, a⟩ := p
    obtain ⟨hpos, hopc⟩ : 0 < opc ∧ opc < 256 := of_decide_eq_true h
    obtain ⟨h1, h2, h3, h4, h5, h6, h7, h8, h9, h10, h11, h12, h13, h14, h15, h16⟩ := vecFields hopc a.var.isLt a.rm.isLt (b2n_lt a.sat)
      (b2n_lt a.cen) a.dst.isLt a.srcA.isLt a.srcB.isLt a.srcC.isLt a.mask.isLt a.offen.isLt a.offc.isLt a.ctag.isLt a.imm.isLt
      (show _ = vecEncode (some (opc, a)) from rfl)
    rw [vecDecode_of_instr (by rw [h1]; omega) h2 h3, bit, bit, h1, h4, h5, h6, h7, h8, h9, h10, h11, h12, h13, h14, h15, h16]
    simp only [ofNat_toNat_same, b2n_beq]

theorem vecFits_of_decode {v : Nat} {x : Option (Nat × VecArgs)} (h : vecDecode v = some x) : vecFits x = true := by
  have hopc := fld_lt v 127 120
  unfold vecDecode at h
  split at h
  · cases h; rfl
  split at h
  · cases h
  next hok =>
    cases h
    exact decide_eq_true ⟨Nat.pos_of_ne_zero fun hz => hok (.inl hz), hopc⟩

/-! ### The bundle (R36) -/

theorem bundleFits_iff {b : Bundle} :
    bundleFits b = true ↔ seqFits b.seq = true ∧ matFits b.mat = true ∧ portFits b.p0 = true ∧ portFits b.p1 = true ∧ swFits b.sw = true ∧
      vecFits b.vec = true := by
  simp [bundleFits, and_assoc]

/-- The slots of a bundle's bits. -/
theorem bundleFields {v vec mat p0 p1 sw seq : Nat} (hvec : vec < 2 ^ 128) (hmat : mat < 2 ^ 56) (hp0 : p0 < 2 ^ 20) (hp1 : p1 < 2 ^ 20)
    (hsw : sw < 2 ^ 16) (hseq : seq < 2 ^ 16)
    (hv : vec * 2 ^ 128 + mat * 2 ^ 72 + p0 * 2 ^ 52 + p1 * 2 ^ 32 + sw * 2 ^ 16 + seq = v) :
    v < 2 ^ 256 ∧ fld v 15 0 = seq ∧ fld v 127 72 = mat ∧ fld v 71 52 = p0 ∧ fld v 51 32 = p1 ∧ fld v 31 16 = sw ∧ fld v 255 128 = vec := by
  simp only [fld, Nat.reducePow, Nat.reduceAdd, Nat.reduceSub] at *
  refine ⟨?_, ?_, ?_, ?_, ?_, ?_, ?_⟩ <;> omega

theorem bundleDecode_eq_some {v : Nat} {b : Bundle} :
    bundleDecode v = some b ↔ seqDecode (fld v 15 0) = some b.seq ∧ matDecode (fld v 127 72) = some b.mat ∧
      portDecode (fld v 71 52) = some b.p0 ∧ portDecode (fld v 51 32) = some b.p1 ∧ swDecode (fld v 31 16) = some b.sw ∧
      vecDecode (fld v 255 128) = some b.vec := by
  unfold bundleDecode
  constructor
  · intro h
    split at h
    next hq hm hp0 hp1 hw hx => cases h; exact ⟨hq, hm, hp0, hp1, hw, hx⟩
    next => cases h
  · rintro ⟨hq, hm, hp0, hp1, hw, hx⟩
    rw [hq, hm, hp0, hp1, hw, hx]

/-- Settles O11: slot by slot. -/
theorem bundleDecodeEncode : Obligations.BundleDecodeEncode := by
  refine ⟨fun b h => ?_, fun v b h => ?_⟩
  · obtain ⟨hq, hm, hp0, hp1, hw, hx⟩ := bundleFits_iff.mp h
    obtain ⟨hlt, h1, h2, h3, h4, h5, h6⟩ := bundleFields (vecEncode_lt hx) (matEncode_lt hm) (portEncode_lt hp0) (portEncode_lt hp1)
      (swEncode_lt hw) (seqEncode_lt hq) (show _ = bundleEncode b from rfl)
    refine ⟨hlt, bundleDecode_eq_some.mpr ?_⟩
    rw [h1, h2, h3, h4, h5, h6]
    exact ⟨seqDecode_seqEncode hq, matDecode_matEncode hm, portDecode_portEncode hp0, portDecode_portEncode hp1, swDecode_swEncode hw,
      vecDecode_vecEncode hx⟩
  · obtain ⟨hq, hm, hp0, hp1, hw, hx⟩ := bundleDecode_eq_some.mp h
    exact bundleFits_iff.mpr ⟨seqFits_of_decode hq, matFits_of_decode hm, portFits_of_decode hp0, portFits_of_decode hp1,
      swFits_of_decode hw, vecFits_of_decode hx⟩

end Sys2Proof.Machine

/-! A fault of a tile stops its cluster's phase: what a stop does in its own cluster, and what a fault leaves alone everywhere else
(R37, R42, R98, R105, R106, R119, R356). -/

namespace Sys2Proof.Machine

/-! ### Addresses of the fault registers (R351) -/

/-- The address of `PHASE_FAULT` of a cluster. -/
def phaseFaultAt (c : Nat) : Nat := clusterBase c + 0x148

theorem clusterBase_inj {c d : Nat} (h : clusterBase c = clusterBase d) : c = d := by
  unfold clusterBase spineBase at h
  omega

theorem tileBase_mod (t : Nat) : tileBase t % 4096 = 0 := by
  unfold tileBase clusterBase spineBase
  omega

/-- No register of a tile's page is `PHASE_FAULT`. -/
theorem tileBase_ne_phaseFaultAt (t c off : Nat) (hoff : off < 4096) : tileBase t + off ≠ phaseFaultAt c := by
  unfold phaseFaultAt tileBase clusterBase spineBase
  omega

/-- Whether a CONTROL address is that of a receive queue's registers on a carafe page (R175, R351). -/
def QueueReg (a : Nat) : Prop := 0x12200 ≤ a % 0x20000 ∧ a % 0x20000 < 0x12400

theorem not_queueReg_of_offset {a : Nat} (h : a % 4096 < 0x200 ∨ 0x400 ≤ a % 4096) : ¬ QueueReg a := by
  unfold QueueReg
  omega

theorem not_queueReg_tileBase (t off : Nat) (hoff : off < 4096) : ¬ QueueReg (tileBase t + off) := by
  unfold QueueReg tileBase clusterBase spineBase
  omega

/-- A register at another offset of a page is not `PHASE_FAULT`. -/
theorem offset_ne_phaseFaultAt {a : Nat} (h : a % 4096 ≠ 0x148) (c : Nat) : a ≠ phaseFaultAt c := by
  rintro rfl
  have := clusterBase_mod c
  unfold phaseFaultAt at h
  omega

/-! ### What a fault leaves alone -/

/-- The parts that a fault may change. -/
def faultMask : Nat := 18141941924304

/-- Whether a cluster is STOPPED with a tile's number, or that of no tile, recorded. -/
def StoppedWell (s : State) (c : Nat) : Prop := (getWalker s c).st = .stopped ∧ (getWalker s c).stopTile ≤ 16

/-- What a stop keeps of a tile: its context, that no block runs, and of its vector queue nothing new. -/
structure TileStops (x y : Tile) : Prop where
  active : y.active = x.active
  ctxState : y.ctxState = x.ctxState
  block : x.block = none → y.block = none
  vq : ∀ e ∈ y.vq, e ∈ x.vq

theorem TileStops.refl (x : Tile) : TileStops x x := ⟨rfl, rfl, id, fun _ h => h⟩

theorem TileStops.trans {x y z : Tile} (h : TileStops x y) (k : TileStops y z) : TileStops x z :=
  ⟨k.active.trans h.active, k.ctxState.trans h.ctxState, fun e => k.block (h.block e), fun e he => h.vq e (k.vq e he)⟩

/-- What the faults of other units keep: the tiles as after a stop, the record of a cluster that is STOPPED, the bits of every
`ERR_STATUS`, and the registers of the receive queues. -/
structure FaultFrame (s u : State) : Prop where
  keeps : Keeps faultMask s u
  tile : ∀ k, TileStops (getTile s k) (getTile u k)
  walker : ∀ c, StoppedWell s c → getWalker u c = getWalker s c
  record : ∀ c, StoppedWell s c → reg u (phaseFaultAt c) = reg s (phaseFaultAt c)
  status : ∀ p i, p % 4096 = 0 → wbit (reg s (p + 0x28)) i = true → wbit (reg u (p + 0x28)) i = true
  queue : ∀ a, QueueReg a → reg u a = reg s a

theorem FaultFrame.refl (s : State) : FaultFrame s s :=
  ⟨.refl _ s, fun _ => .refl _, fun _ _ => rfl, fun _ _ => rfl, fun _ _ _ h => h, fun _ _ => rfl⟩

theorem FaultFrame.stopped {s u : State} (h : FaultFrame s u) {c : Nat} (hc : StoppedWell s c) : StoppedWell u c := by
  unfold StoppedWell
  rw [h.walker c hc]
  exact hc

theorem FaultFrame.trans {s u v : State} (h : FaultFrame s u) (k : FaultFrame u v) : FaultFrame s v :=
  ⟨h.keeps.trans k.keeps, fun t => (h.tile t).trans (k.tile t), fun c hc => (k.walker c (h.stopped hc)).trans (h.walker c hc),
    fun c hc => (k.record c (h.stopped hc)).trans (h.record c hc), fun p i hp hb => k.status p i hp (h.status p i hp hb),
    fun a ha => (k.queue a ha).trans (h.queue a ha)⟩

section
variable {s u : State}

theorem sound_regs (hs : sound s = true) : regsWf s.regs = true := (sound_iff.mp hs).2.1

theorem sound_tiles (hs : sound s = true) : tilesWf s.tiles = true := (sound_iff.mp hs).2.2.1

theorem sound_clusters (hs : sound s = true) : clustersWf s.clusters = true := (sound_iff.mp hs).2.2.2

theorem getTile_putTile_eq (hs : sound s = true) (t k : Nat) (v : Tile) : getTile (putTile s t v) k = if k = t then v else getTile s k :=
  tblGet_tblSet (d := fun _ => Tile.reset) t k v (sound_tiles hs)

theorem getClu_putClu_eq (hs : sound s = true) (c k : Nat) (v : Cluster) : getClu (putClu s c v) k = if k = c then v else getClu s k :=
  tblGet_tblSet (d := fun _ => Cluster.reset) c k v (sound_clusters hs)

/-- A change of other parts of the state. -/
theorem FaultFrame.of_same {v : State} (h : FaultFrame s u) (hk : Keeps faultMask u v) (hregs : v.regs = u.regs) (htiles : v.tiles = u.tiles)
    (hclus : v.clusters = u.clusters) : FaultFrame s v := by
  have hr (a : Nat) : reg v a = reg u a := by unfold reg; rw [hregs]
  have ht (k : Nat) : getTile v k = getTile u k := by unfold getTile; rw [htiles]
  have hc (c : Nat) : getWalker v c = getWalker u c := by unfold getWalker getClu; rw [hclus]
  exact h.trans ⟨hk, fun k => ht k ▸ .refl _, fun c _ => hc c, fun c _ => hr _, fun p i _ hb => by rw [hr]; exact hb,
    fun a _ => hr a⟩

variable (hs : sound s = true)
include hs

theorem FaultFrame.sound_next (h : FaultFrame s u) : sound u = true := h.keeps.sound hs

/-- A write to a register that is neither an `ERR_STATUS` nor the record of a STOPPED cluster nor a receive queue's. -/
theorem FaultFrame.withReg (h : FaultFrame s u) {a : Nat} (v : Word) (hstatus : a % 4096 ≠ 0x28)
    (hrecord : ∀ c, StoppedWell s c → a ≠ phaseFaultAt c) (hqueue : ¬ QueueReg a) : FaultFrame s (setReg u a v) := by
  have hreg (b : Nat) (hb : a ≠ b) : reg (setReg u a v) b = reg u b := by
    rw [reg_setReg u a b v (sound_regs (h.sound_next hs)), if_neg (Ne.symm hb)]
  refine ⟨keeps_setReg rfl h.keeps, h.tile, h.walker, fun c hc => (hreg _ (hrecord c hc)).trans (h.record c hc), fun p i hp hb => ?_,
    fun b hb => (hreg b fun he => hqueue (he ▸ hb)).trans (h.queue b hb)⟩
  rw [hreg _ (by omega)]
  exact h.status p i hp hb

/-- A write to a register at an offset that is neither that of `ERR_STATUS` nor that of `PHASE_FAULT` nor among those of the queues. -/
theorem FaultFrame.withQuiet (h : FaultFrame s u) {a : Nat} (v : Word) (hstatus : a % 4096 ≠ 0x28) (hrecord : a % 4096 ≠ 0x148)
    (hqueue : a % 4096 < 0x200 ∨ 0x400 ≤ a % 4096) : FaultFrame s (setReg u a v) :=
  h.withReg hs v hstatus (fun c _ => offset_ne_phaseFaultAt hrecord c) (not_queueReg_of_offset hqueue)

/-- A write to a register of a tile's page other than `ERR_STATUS`. -/
theorem FaultFrame.withTileReg (h : FaultFrame s u) {t off : Nat} (v : Word) (hoff : off < 4096) (hstatus : off ≠ 0x28) :
    FaultFrame s (setReg u (tileBase t + off) v) :=
  h.withReg hs v (by have := tileBase_mod t; omega) (fun c _ => tileBase_ne_phaseFaultAt t c off hoff) (not_queueReg_tileBase t off hoff)

theorem FaultFrame.withStatus (h : FaultFrame s u) {p i : Nat} (hp : p % 4096 = 0) : FaultFrame s (setBit u (p + 0x28) i) := by
  have hreg (b : Nat) : reg (setBit u (p + 0x28) i) b =
      if b = p + 0x28 then reg u (p + 0x28) ||| BitVec.ofNat 64 (2 ^ i) else reg u b :=
    reg_setReg u _ b _ (sound_regs (h.sound_next hs))
  refine ⟨keeps_setBit rfl h.keeps, h.tile, h.walker, fun c hc => ?_, fun q j hq hb => ?_, fun b hb => ?_⟩
  · rw [hreg, if_neg (offset_ne_phaseFaultAt (by omega) c).symm]
    exact h.record c hc
  · have hold := h.status q j hq hb
    rw [hreg]
    split
    next he =>
      rw [he] at hold
      simp only [wbit, BitVec.getLsbD_or, Bool.or_eq_true]
      exact .inl hold
    next => exact hold
  · have hne : b ≠ p + 0x28 := fun he => not_queueReg_of_offset (by omega) (he ▸ hb)
    rw [hreg, if_neg hne]
    exact h.queue b hb

theorem FaultFrame.withTile (h : FaultFrame s u) {t : Nat} {v : Tile} (hv : TileStops (getTile s t) v) : FaultFrame s (putTile u t v) := by
  refine ⟨keeps_putTile rfl h.keeps, fun k => ?_, h.walker, h.record, h.status, h.queue⟩
  rw [getTile_putTile_eq (h.sound_next hs)]
  split
  next he => rw [he]; exact hv
  next => exact h.tile k

theorem FaultFrame.withClu (h : FaultFrame s u) {c : Nat} {v : Cluster} (hv : StoppedWell s c → v.walker = getWalker u c) :
    FaultFrame s (putClu u c v) := by
  refine ⟨keeps_putClu rfl h.keeps, h.tile, fun d hd => ?_, h.record, h.status, h.queue⟩
  refine Eq.trans ?_ (h.walker d hd)
  unfold getWalker
  rw [getClu_putClu_eq (h.sound_next hs)]
  split
  next he => subst he; exact hv hd
  next => rfl

omit hs in
theorem FaultFrame.loop {α : Type} {l : List α} {f : α → State → State} (h : FaultFrame s u)
    (hf : ∀ x ∈ l, ∀ v, FaultFrame s v → FaultFrame s (f x v)) : FaultFrame s (forAll l u f) := by
  induction l generalizing u with
  | nil => exact h
  | cons x l ih => exact ih (hf x List.mem_cons_self u h) fun y hy => hf y (List.mem_cons_of_mem x hy)

/-! ### A stop in one tile (R119) -/

/-- The accumulators with a finished row group (R53). -/
def groupWritten (t : Nat) (a : BlockArgs) (g : Nat) (run : List (BitVec 32)) (s : State) : State :=
  { s with mem := { s.mem with acc := run.zipIdx.foldl (fun m p =>
      memSetNat m (accAt t (16 * g + p.2 / blockCols a) (p.2 % blockCols a)) 4 p.1.toNat) s.mem.acc } }

omit hs in
theorem keeps_groupWritten (t : Nat) (a : BlockArgs) (g : Nat) (run : List (BitVec 32)) : Keeps faultMask u (groupWritten t a g run u) :=
  Keeps.put_mAcc (m := faultMask) rfl (.refl _ u) (memFold_wf (fun _ _ h => memSetNat_wf _ _ _ h) _)

omit hs in
theorem writeGroup_eq (t : Nat) (a : BlockArgs) (g : Nat) (run : List (BitVec 32)) :
    writeGroup t a g run u =
      if a.mode = 0 then forAll (List.range (if a.stat = 0 then 1 else 4)) (groupWritten t a g run u)
        (fun q s => setRegF s (tileBase t + 0x140 + 8 * q) g g 0)
      else groupWritten t a g run u := rfl

/-- The poison registers of the four slices of a tile. -/
theorem FaultFrame.withPoison (h : FaultFrame s u) {t q : Nat} (v : Word) (hq : q < 4) :
    FaultFrame s (setReg u (tileBase t + 0x140 + 8 * q) v) := by
  rw [Nat.add_assoc]
  exact h.withTileReg hs v (by omega) (by omega)

theorem faultFrame_writeGroup (h : FaultFrame s u) (t : Nat) (a : BlockArgs) (g : Nat) (run : List (BitVec 32)) :
    FaultFrame s (writeGroup t a g run u) := by
  have hw : FaultFrame s (groupWritten t a g run u) := h.of_same (keeps_groupWritten t a g run) rfl rfl rfl
  rw [writeGroup_eq]
  split
  · refine hw.loop fun q hq v hv => hv.withPoison hs _ ?_
    have := List.mem_range.mp hq
    split at this <;> omega
  · exact hw

theorem faultFrame_poisonBlock (h : FaultFrame s u) (t : Nat) (a : BlockArgs) : FaultFrame s (poisonBlock t a u) := by
  refine h.loop fun q hq v hv => hv.withPoison hs _ ?_
  split at hq <;> simp at hq <;> omega

theorem faultFrame_flushAcc (t : Nat) : FaultFrame s (flushAcc t s) := by
  unfold flushAcc
  split
  · exact .refl s
  next b hb =>
    refine FaultFrame.loop ((FaultFrame.refl s).withTile hs ?_) fun q _ v hv => faultFrame_writeGroup hs hv t b.args q.1 q.2.2
    exact ⟨rfl, rfl, fun hn => absurd (hn.symm.trans hb) (by simp), fun _ he => he⟩

theorem faultFrame_abandonSample (h : FaultFrame s u) (t : Nat) : FaultFrame s (abandonSample t u) := by
  unfold abandonSample addCtr
  have hclu := h.withClu hs (c := t / 16) (v := { getClu u (t / 16) with
    cupSlots := (getClu u (t / 16)).cupSlots.filter (fun p => !(p.tile == t && p.due.isNone)) }) fun _ => rfl
  have hbase := clusterBase_mod (t / 16)
  dsimp only
  split
  · exact hclu
  · exact hclu.withQuiet hs _ (by omega) (by omega) (by omega)

/-- A tile after a stop (R119). -/
def stoppedTile (s : State) (x : Tile) : Tile :=
  { x with block := none, past := (x.block.map (fun b => (s.cycle, b))).orElse (fun _ => x.past),
           vq := x.vq.filter (fun e => e.started.isSome), delivers := x.delivers.filter (fun d => d.route == 4) }

/-- A stop ends with the tile as it then is, everything else as other faults leave it. -/
theorem stopTile_split (t : Nat) : ∃ v, FaultFrame s v ∧ stopTile t s = putTile v t (stoppedTile v (getTile s t)) := by
  unfold stopTile
  dsimp only
  split
  next b hb =>
    exact ⟨_, faultFrame_abandonSample hs (faultFrame_poisonBlock hs (faultFrame_flushAcc hs t) t b.args) t, rfl⟩
  next => exact ⟨_, .refl s, rfl⟩

omit hs in
theorem tileStops_stoppedTile (v : State) (x : Tile) : TileStops x (stoppedTile v x) :=
  ⟨rfl, rfl, fun _ => rfl, fun _ he => (List.mem_filter.mp he).1⟩

theorem faultFrame_stopTile (t : Nat) : FaultFrame s (stopTile t s) := by
  obtain ⟨v, hv, he⟩ := stopTile_split hs t
  rw [he]
  exact hv.withTile hs (tileStops_stoppedTile v _)

omit hs in
/-- A tile that a stop has reached: no block runs, and of its vector queue only what has started is left (R119). -/
def TileStopped (x : Tile) : Prop := x.block = none ∧ ∀ e ∈ x.vq, e.started ≠ none

omit hs in
theorem TileStops.stopped {x y : Tile} (h : TileStops x y) (hx : TileStopped x) : TileStopped y :=
  ⟨h.block hx.1, fun e he => hx.2 e (h.vq e he)⟩

theorem tileStopped_stopTile (t : Nat) : TileStopped (getTile (stopTile t s) t) := by
  obtain ⟨v, hv, he⟩ := stopTile_split hs t
  rw [he, getTile_putTile_eq (hv.sound_next hs), if_pos rfl]
  refine ⟨rfl, fun e he => ?_⟩
  have := (List.mem_filter.mp he).2
  exact Option.isSome_iff_ne_none.mp this

/-- The stop reaches every tile of a list. -/
theorem stopTiles_stopped (l : List Nat) :
    FaultFrame s (forAll l s stopTile) ∧ ∀ k ∈ l, TileStopped (getTile (forAll l s stopTile) k) := by
  induction l generalizing s with
  | nil => exact ⟨.refl s, fun _ h => nomatch h⟩
  | cons t l ih =>
    have ht := faultFrame_stopTile hs t
    obtain ⟨hframe, hall⟩ := ih (ht.sound_next hs)
    refine ⟨ht.trans hframe, fun k hk => ?_⟩
    rcases List.mem_cons.mp hk with rfl | hk
    · exact (hframe.tile k).stopped (tileStopped_stopTile hs k)
    · exact hall k hk

/-! ### A stop of a cluster (R98, R119) -/

/-- A cluster's state after a stop (R98, R125). -/
def stoppedWalker (s : State) (w : Walker) (tile : Nat) : Walker :=
  { w with st := .stopped, chosen := none, waitFrom := none, stopReq := false, stopAt := some s.cycle, stopTile := tile % 16 }

omit hs in
theorem stopCluster_of_running {c code tile : Nat} (h : (getWalker s c).st ≠ .stopped) :
    stopCluster c code tile s =
      (let s1 := forAll (tilesOf c) (withdraw c s) stopTile
       let s2 := setReg s1 (phaseFaultAt c) (packWord [(32, wfld (reg s1 (clusterBase c + 0x800)) 31 0), (16, code),
         (8, (stopEntry (getWalker s c)).toNat), (4, tile % 16)])
       baristaIrq c 2 (stopEntry (getWalker s c)).toNat (putWalker s2 c (stoppedWalker s2 (getWalker s2 c) tile))) := if_neg h

omit hs in
theorem faultFrame_withdraw (c : Nat) : FaultFrame s (withdraw c s) :=
  (FaultFrame.refl s).of_same (keeps_withdraw rfl (.refl faultMask s)) rfl rfl rfl

theorem FaultFrame.withWalker (h : FaultFrame s u) {c : Nat} (w : Walker) (hc : ¬ StoppedWell s c) : FaultFrame s (putWalker u c w) :=
  h.withClu hs fun hw => absurd hw hc

theorem FaultFrame.withIrq (h : FaultFrame s u) (c cause entry : Nat) : FaultFrame s (baristaIrq c cause entry u) :=
  h.withClu hs fun _ => rfl

theorem FaultFrame.withRecord (h : FaultFrame s u) {c : Nat} (v : Word) (hc : ¬ StoppedWell s c) : FaultFrame s (setReg u (phaseFaultAt c) v) := by
  have hbase := clusterBase_mod c
  refine h.withReg hs v (a := phaseFaultAt c) (by unfold phaseFaultAt; omega) (fun d hd he => hc ?_)
    (not_queueReg_of_offset (by unfold phaseFaultAt; omega))
  have : c = d := clusterBase_inj (Nat.add_right_cancel he)
  exact this ▸ hd

theorem getWalker_putWalker (c : Nat) (w : Walker) : getWalker (putWalker s c w) c = w :=
  congrArg Cluster.walker ((getClu_putClu_eq hs c c _).trans (if_pos rfl))

theorem getWalker_baristaIrq (c cause entry : Nat) : getWalker (baristaIrq c cause entry s) c = getWalker s c := by
  unfold baristaIrq getWalker
  dsimp only
  rw [getClu_putClu_eq hs, if_pos rfl]

/-- A fault stops a cluster that was not STOPPED: its tiles stop, its walker is STOPPED and `PHASE_FAULT` holds the record. -/
theorem stopCluster_stops {c code tile : Nat} (h : (getWalker s c).st ≠ .stopped) :
    let u := stopCluster c code tile s
    FaultFrame s u ∧ (∀ k ∈ tilesOf c, TileStopped (getTile u k)) ∧ (getWalker u c).st = .stopped ∧ (getWalker u c).stopTile = tile % 16 ∧
      ∃ n, n < 2 ^ 32 ∧ reg u (phaseFaultAt c) = packWord [(32, n), (16, code), (8, (stopEntry (getWalker s c)).toNat), (4, tile % 16)] := by
  have hc : ¬ StoppedWell s c := fun hw => h hw.1
  have hw := faultFrame_withdraw (s := s) c
  obtain ⟨hframe, htiles⟩ := stopTiles_stopped (hw.sound_next hs) (tilesOf c)
  have hall : FaultFrame s (forAll (tilesOf c) (withdraw c s) stopTile) := hw.trans hframe
  rw [stopCluster_of_running h]
  generalize forAll (tilesOf c) (withdraw c s) stopTile = s1 at hall htiles ⊢
  extract_lets s0 s2 u
  have h1 : FaultFrame s s1 := hall
  have h2 : FaultFrame s s2 := h1.withRecord hs _ hc
  have h3 := h2.withWalker hs (stoppedWalker s2 (getWalker s2 c) tile) hc
  have hu : getWalker u c = stoppedWalker s2 (getWalker s2 c) tile :=
    (getWalker_baristaIrq (h3.sound_next hs) c 2 _).trans (getWalker_putWalker (h2.sound_next hs) c _)
  have htile (k : Nat) : getTile u k = getTile s1 k :=
    (getTile_putClu _ c _ k).trans ((getTile_putClu s2 c _ k).trans (getTile_setReg s1 _ _ k))
  have hframe' : FaultFrame s u := h3.withIrq hs c 2 _
  have hst : (getWalker u c).st = .stopped := by rw [hu]; rfl
  have htl : (getWalker u c).stopTile = tile % 16 := by rw [hu]; rfl
  have hreg : reg u (phaseFaultAt c) = reg s2 (phaseFaultAt c) := (reg_putClu _ c _ _).trans (reg_putClu s2 c _ _)
  have hrec := hreg.trans ((reg_setReg s1 (phaseFaultAt c) (phaseFaultAt c) _ (sound_regs (h1.sound_next hs))).trans (if_pos rfl))
  have hlow : wfld (reg s1 (clusterBase c + 0x800)) 31 0 < 2 ^ 32 := fld_lt _ 31 0
  clear_value u
  exact ⟨hframe', fun k hk => htile k ▸ htiles k hk, hst, htl, _, hlow, hrec⟩

/-- A stop that names no tile leaves a cluster that is STOPPED as it is. -/
theorem faultFrame_stopCluster (c code : Nat) : FaultFrame s (stopCluster c code 16 s) := by
  by_cases h : (getWalker s c).st = .stopped
  · unfold stopCluster
    dsimp only
    rw [if_pos h]
    split
    next hlow =>
      have hc : ¬ StoppedWell s c := fun hw => absurd hw.2 (Nat.not_le.mpr hlow.2)
      exact ((FaultFrame.refl s).withRecord hs _ hc).withWalker hs _ hc
    next => exact .refl s
  · exact (stopCluster_stops hs h).1

/-! ### A fault (R356) -/

omit hs in
theorem faultFrame_jobFault (tag : Option (BitVec 12)) (code : Nat) : FaultFrame s (jobFault tag code s) := by
  have hk : Keeps faultMask s (jobFault tag code s) := keeps_jobFault rfl (.refl _ s)
  refine (FaultFrame.refl s).of_same hk ?_ ?_ ?_
  all_goals
    unfold jobFault
    split
    · rfl
    · dsimp only
      split
      · rfl
      · split <;> rfl

omit hs in
theorem faultFrame_alert (page c : Nat) (dev : Bool) : FaultFrame s (alert page c dev s) :=
  (FaultFrame.refl s).of_same (keeps_alert rfl (.refl faultMask s)) rfl rfl rfl

theorem FaultFrame.recordQuiet (h : FaultFrame s u) {a : Nat} (v : Word) (hstatus : a % 4096 ≠ 0x28) (hrecord : a % 4096 ≠ 0x148)
    (hqueue : a % 4096 < 0x200 ∨ 0x400 ≤ a % 4096) : FaultFrame s (recordFirst u a v) := by
  unfold recordFirst
  split
  · exact h.withQuiet hs v hstatus hrecord hqueue
  · exact h

theorem faultFrame_severeJob (code : Nat) (tag : BitVec 12) : FaultFrame s (severeJob code tag s) := by
  have hloop : FaultFrame s (forAll (clustersOf s tag) s (fun c s => stopCluster c code 16 s)) :=
    (FaultFrame.refl s).loop fun c _ v hv => hv.trans (faultFrame_stopCluster (hv.sound_next hs) c code)
  exact hloop.of_same (keeps_putJob rfl (.refl faultMask _)) rfl rfl rfl

/-- The severity's action of a fault on a page (R356). -/
def severityActs (page code : Nat) (tag : Option (BitVec 12)) (s : State) : State :=
  match severity s page (codeClass code) with
  | 2 => match tag with
    | some g => severeJob code g (alert page (codeClass code) false s)
    | none => alert page (codeClass code) false s
  | 3 => forAll (boundTags s) (alert page (codeClass code) true s) (severeJob code)
  | 1 => alert page (codeClass code) false s
  | _ => s

theorem faultFrame_severityActs (page code : Nat) (tag : Option (BitVec 12)) : FaultFrame s (severityActs page code tag s) := by
  have halert (dev : Bool) := faultFrame_alert (s := s) page (codeClass code) dev
  unfold severityActs
  split
  · split
    next g => exact (halert false).trans (faultFrame_severeJob ((halert false).sound_next hs) code g)
    next => exact halert false
  · exact (halert true).loop fun g _ v hv => hv.trans (faultFrame_severeJob (hv.sound_next hs) code g)
  · exact halert false
  · exact .refl s

omit hs in
theorem raiseFault_eq (page code : Nat) (tag : Option (BitVec 12)) :
    raiseFault page code tag s =
      (let s1 := jobFault tag code (setBit s (page + 0x28) (codeClass code))
       let s2 := if regF s1 (page + 0x48) 63 48 = 0
         then setReg s1 (page + 0x48) (packWord [(48, code), (0, devTime s1 % 2 ^ 48)]) else s1
       if wbit (reg s1 (page + 0x30)) (codeClass code) then s1
       else severityActs page code tag (recordFirst s2 (devicePage + 0x110) (packWord [(48, code), (0, page / 0x1000)]))) := rfl

/-- Beyond its bit of `ERR_STATUS` a fault does what `FaultFrame` says. -/
theorem faultFrame_raiseFault_status {page : Nat} (hp : page % 4096 = 0) (code : Nat) (tag : Option (BitVec 12)) :
    FaultFrame (setBit s (page + 0x28) (codeClass code)) (raiseFault page code tag s) := by
  have hbit : sound (setBit s (page + 0x28) (codeClass code)) = true := ((FaultFrame.refl s).withStatus hs hp).sound_next hs
  have h1 := faultFrame_jobFault (s := setBit s (page + 0x28) (codeClass code)) tag code
  rw [raiseFault_eq]
  extract_lets s1 s2
  have h2 : FaultFrame (setBit s (page + 0x28) (codeClass code)) s2 := by
    show FaultFrame _ (if _ then _ else _)
    split
    · exact h1.withQuiet hbit _ (by omega) (by omega) (by omega)
    · exact h1
  split
  · exact h1
  · have h3 := h2.recordQuiet hbit (a := devicePage + 0x110) (packWord [(48, code), (0, page / 0x1000)]) (by decide) (by decide)
      (by decide)
    exact h3.trans (faultFrame_severityActs (h3.sound_next hbit) page code tag)

theorem faultFrame_raiseFault {page : Nat} (hp : page % 4096 = 0) (code : Nat) (tag : Option (BitVec 12)) :
    FaultFrame s (raiseFault page code tag s) :=
  ((FaultFrame.refl s).withStatus hs hp).trans (faultFrame_raiseFault_status hs hp code tag)

theorem raiseFault_status {page : Nat} (hp : page % 4096 = 0) (code : Nat) (tag : Option (BitVec 12)) :
    wbit (reg (raiseFault page code tag s) (page + 0x28)) (codeClass code) = true := by
  refine (faultFrame_raiseFault_status hs hp code tag).status page _ hp ?_
  have hreg : reg (setBit s (page + 0x28) (codeClass code)) (page + 0x28) = reg s (page + 0x28) ||| BitVec.ofNat 64 (2 ^ codeClass code) :=
    (reg_setReg s _ _ _ (sound_regs hs)).trans (if_pos rfl)
  have hclass : codeClass code < 16 := Nat.mod_lt _ (by decide)
  rw [hreg]
  simp only [wbit, BitVec.getLsbD_or, BitVec.getLsbD_ofNat, Nat.testBit_two_pow_self, Bool.and_true, Bool.or_eq_true, decide_eq_true_eq]
  exact .inr (by omega)

/-! ### A tile's fault (R119, R356) -/

/-- The record that a tile's fault writes to `PHASE_FAULT` (R125). -/
def faultRecord (low code tile : Nat) (entry : BitVec 8) : Word := packWord [(32, low), (16, code), (8, entry.toNat), (4, tile % 16)]

omit hs in
theorem faultRecord_fields {low code tile : Nat} {entry : BitVec 8} (hlow : low < 2 ^ 32) (hcode : code < 2 ^ 16) (ht : tile < 16) :
    wfld (faultRecord low code tile entry) 31 16 = code ∧ wfld (faultRecord low code tile entry) 15 8 = entry.toNat ∧
      wfld (faultRecord low code tile entry) 7 4 = tile := by
  have hentry := entry.isLt
  have hword : (faultRecord low code tile entry).toNat = low * 2 ^ 32 + code * 2 ^ 16 + entry.toNat * 2 ^ 8 + tile * 2 ^ 4 := by
    simp only [faultRecord, packWord, List.foldl_cons, List.foldl_nil, BitVec.toNat_ofNat]
    omega
  unfold wfld
  rw [hword]
  simp only [fld, Nat.reducePow, Nat.reduceAdd, Nat.reduceSub] at *
  omega

/-- A fault of a tile whose cluster was not STOPPED stops it (R98, R119, R125, R356). -/
theorem faultTile_stops {t : Nat} (h : (getWalker s (t / 16)).st ≠ .stopped) (code sub group : Nat) :
    let u := faultTile t code sub group s
    FaultFrame s u ∧ (∀ k ∈ tilesOf (t / 16), TileStopped (getTile u k)) ∧ (getWalker u (t / 16)).st = .stopped ∧
      (∃ n, n < 2 ^ 32 ∧ reg u (phaseFaultAt (t / 16)) = faultRecord n code (t % 16) (stopEntry (getWalker s (t / 16)))) ∧
      wbit (reg u (tileBase t + 0x28)) (codeClass code) = true := by
  have hbefore : stoppedBefore s (t / 16) = false := by simp [stoppedBefore, h]
  unfold faultTile
  dsimp only
  rw [hbefore, if_neg Bool.false_ne_true]
  generalize hnote : (if codeClass code = 1 then recordFirst s (tileBase t + 0x180) (packWord [(32, wfld (reg s (tileBase t + 0x800)) 31 0),
    (16, code), (8, sub % 256), (6, (getTile s t).active.toNat), (0, group % 64)]) else s) = s1
  have hbase := tileBase_mod t
  have h1 : FaultFrame s s1 := by
    rw [← hnote]
    split
    · exact (FaultFrame.refl s).recordQuiet hs _ (by omega) (by omega) (by omega)
    · exact .refl s
  have hclus : getWalker s1 (t / 16) = getWalker s (t / 16) := by
    have hk : s1.clusters = s.clusters := by
      rw [← hnote]
      split
      · exact (keeps_recordFirst (k := 16) rfl (.refl _ s)).same .clusters (by decide)
      · rfl
    unfold getWalker getClu
    rw [hk]
  have hs1 := h1.sound_next hs
  obtain ⟨h2, htiles, hst, hnum, n, hn, hrec⟩ := stopCluster_stops hs1 (c := t / 16) (code := code) (tile := t % 16) (by rw [hclus]; exact h)
  rw [hclus] at hrec
  generalize stopCluster (t / 16) code (t % 16) s1 = s2 at h2 htiles hst hnum hrec
  have hs2 := h2.sound_next hs1
  have h3 : FaultFrame s2 (raiseClu (tileBase t) (t / 16) code s2) := faultFrame_raiseFault hs2 hbase code _
  have hwell : StoppedWell s2 (t / 16) := ⟨hst, by rw [hnum]; omega⟩
  refine ⟨h1.trans (h2.trans h3), fun k hk => (h3.tile k).stopped (htiles k hk), (h3.stopped hwell).1, ⟨n, hn, ?_⟩,
    raiseFault_status hs2 hbase code _⟩
  rw [h3.record _ hwell, hrec]
  rfl

theorem faultTile_record {t : Nat} (h : (getWalker s (t / 16)).st ≠ .stopped) {code : Nat} (hcode : code < 2 ^ 16) (sub group : Nat) :
    let u := faultTile t code sub group s
    regF u (phaseFaultAt (t / 16)) 31 16 = code ∧ regF u (phaseFaultAt (t / 16)) 15 8 = (stopEntry (getWalker s (t / 16))).toNat ∧
      regF u (phaseFaultAt (t / 16)) 7 4 = t % 16 := by
  obtain ⟨-, -, -, ⟨n, hn, hrec⟩, -⟩ := faultTile_stops hs h code sub group
  intro u
  unfold regF
  rw [hrec]
  exact faultRecord_fields hn hcode (Nat.mod_lt _ (by decide))

/-! ### The end of the cycle of a stop (R119, R452) -/

omit hs in
theorem wfaDone_part (l : List (BitVec 3 × BitVec 16)) (x : Tile) : (l.foldl (fun x p => setCtr x p.1 p.2) x).part = x.part := by
  induction l generalizing x with
  | nil => rfl
  | cons p l ih => exact ih (setCtr x p.1 p.2)

/-- A tile of a cluster that does not run takes part no more after the edge of the cycle. -/
theorem partEnd_part {k : Nat} (h : (getWalker s (k / 16)).st ≠ .running) : (getTile (partEnd k s) k).part = false := by
  have hrun : ((getWalker s (k / 16)).st == WalkSt.running) = false := beq_eq_false_iff_ne.mpr h
  unfold partEnd wfaEdge
  dsimp only
  have hput := (keeps_putTile (k := 64) (t := k) (v := { getTile s k with
    past := none, part := (getTile s k).part && (getWalker s (k / 16)).st == .running }) rfl (.refl _ s)).sound hs
  rw [getTile_putTile_eq hput, if_pos rfl]
  show ((getTile _ k).wfaDone.foldl (fun x p => setCtr x p.1 p.2) (getTile _ k)).part = false
  rw [wfaDone_part, getTile_putTile_eq hs, if_pos rfl, hrun, Bool.and_false]

omit hs in
theorem div_of_mem_tilesOf {c k : Nat} (h : k ∈ tilesOf c) : k / 16 = c := by
  obtain ⟨i, hi, rfl⟩ := List.mem_map.mp h
  have := List.mem_range.mp hi
  omega

end

/-! ### CTX and the vector slot (R37, R42, R105, R106) -/

section
variable {s : State} {t : Nat}

/-- CTX to a context that is not LOADED is a fault, and in a loop any CTX is a reserved encoding. -/
theorem seqAlone_ctx_faults {k : BitVec 2} (h : ctxSeen s t k ≠ 2) :
    seqAlone t (.ctx k) s = faultTile t (if (getTile s t).loops = [] then 0x1004 else 0x1008) 0 0 s := by
  unfold seqAlone slotAlone
  by_cases hl : (getTile s t).loops = []
  · have hr : bundleReserved s t { Bundle.none_ with seq := .ctx k } = false := by simp [bundleReserved, Bundle.none_, portUse, hl]
    have hf : slotFault s t { Bundle.none_ with seq := .ctx k } = some (.plain 0x1004 0 0) := by
      simp only [slotFault, Bundle.none_]
      rw [if_neg (by simp), if_pos (bne_iff_ne.mpr h)]
    rw [hr, if_neg Bool.false_ne_true, hf, if_pos hl]
    rfl
  · have hr : bundleReserved s t { Bundle.none_ with seq := .ctx k } = true := by simp [bundleReserved, Bundle.none_, portUse, hl]
    rw [hr, if_pos rfl, if_neg hl]

theorem exec_ctx_faults {k : BitVec 2} (ht : t < 1024) (h : ctxSeen s t k ≠ 2) :
    exec (.ctx t k) s = .next (faultTile t (if (getTile s t).loops = [] then 0x1004 else 0x1008) 0 0 s) :=
  onTile_eq ht (seqAlone_ctx_faults h)

theorem vecIssue_of_reserved {opc : Nat} {a : VecArgs} (h : vecReserved s t opc a = true) : vecIssue opc t a s = faultTile t 0x1008 0 0 s :=
  if_pos h

theorem vecIssue_of_full {opc : Nat} {a : VecArgs} (h : vecReserved s t opc a = false) (hfull : 4 ≤ vecHeld s t) :
    vecIssue opc t a s = faultTile t 0x100C 0 0 s :=
  (if_neg (by simp [h])).trans (if_pos hfull)

/-- What O57 and O58 say of the state after CTX to a context that is not LOADED. -/
theorem ctx_stops (hs : sound s = true) (ht : t < 1024) (hst : (getWalker s (t / 16)).st ≠ .stopped) {k : BitVec 2} (h : ctxSeen s t k ≠ 2) :
    ∃ u, exec (.ctx t k) s = .next u ∧ (getWalker u (t / 16)).st = .stopped ∧
      regF u (clusterBase (t / 16) + 0x148) 31 16 = (if (getTile s t).loops = [] then 0x1004 else 0x1008) ∧
      (getTile u t).active = (getTile s t).active ∧ ∀ j : BitVec 2, ctxSt (getTile u t) j = ctxSt (getTile s t) j := by
  obtain ⟨hframe, -, hstop, -, -⟩ := faultTile_stops hs hst (if (getTile s t).loops = [] then 0x1004 else 0x1008) 0 0
  obtain ⟨hcode, -, -⟩ := faultTile_record hs hst (code := if (getTile s t).loops = [] then 0x1004 else 0x1008) (by split <;> decide) 0 0
  refine ⟨_, exec_ctx_faults ht h, hstop, hcode, (hframe.tile t).active, fun j => ?_⟩
  unfold ctxSt
  rw [(hframe.tile t).ctxState]

/-- Settles O57: a CTX that faults, then a tile's fault by what the stop and the frame of the fault leave. -/
theorem tileFaultStopsPhase : Obligations.TileFaultStopsPhase := by
  intro t s hs ht hst c
  refine ⟨fun k h => ctx_stops hs ht hst h, fun code sub group hcode => ?_⟩
  obtain ⟨hframe, htiles, hstop, -, hstatus⟩ := faultTile_stops hs hst code sub group
  obtain ⟨hrec, hentry, htile⟩ := faultTile_record hs hst hcode sub group
  refine ⟨hstop, hrec, htile, hentry, fun k hk => ⟨?_, htiles k hk⟩, hstatus⟩
  refine partEnd_part (hframe.sound_next hs) ?_
  rw [div_of_mem_tilesOf hk]
  exact fun h => WalkSt.noConfusion (hstop.symm.trans h)

/-- Settles O58: the CTX of O57 in a running phase outside a loop. -/
theorem contextNotLoaded : Obligations.ContextNotLoaded := by
  intro t k s hs ht hst hloops h
  obtain ⟨u, hexec, hstop, hcode, hsame⟩ := ctx_stops hs ht (by rw [hst]; decide) h
  exact ⟨u, hexec, hstop, hcode.trans (if_pos hloops), hsame⟩

/-- Settles O59: both faults are a tile's faults, which add nothing to a vector queue. -/
theorem vectorQueueFull : Obligations.VectorQueueFull := by
  intro t s a hs ht hst p hp
  have fault {code : Nat} (hcode : code < 2 ^ 16) (h : vecIssue p.1 t a s = faultTile t code 0 0 s) :
      ∃ u, exec (p.2 t a) s = .next u ∧ (getWalker u (t / 16)).st = .stopped ∧ regF u (clusterBase (t / 16) + 0x148) 31 16 = code ∧
        ∀ e ∈ (getTile u t).vq, e ∈ (getTile s t).vq := by
    obtain ⟨hframe, -, hstop, -, -⟩ := faultTile_stops hs hst code 0 0
    obtain ⟨hrec, -, -⟩ := faultTile_record hs hst hcode 0 0
    exact ⟨_, (exec_vecCommand a p hp).trans (onTile_eq ht h), hstop, hrec, (hframe.tile t).vq⟩
  exact ⟨fun h => fault (by decide) (vecIssue_of_reserved h), fun h hfull => fault (by decide) (vecIssue_of_full h hfull)⟩

end

end Sys2Proof.Machine

/-! The unit counts of the receive queues (R175 to R178, R290): what leaves every queue's registers alone, the two ways in which units move,
and what reaches the queues by a command, a SEND or a COMPLETE descriptor. -/

namespace Sys2Proof.Machine

/-- Every enabled queue's units add up (R175). -/
def QueuesSum (s : State) : Prop := ∀ c q, c < 64 → q < 16 → rqSound s c q

/-! ### What leaves the queues' registers alone -/

/-- From a sound state to a sound one, with every register of a receive queue as it was. -/
structure QueueFrame (s u : State) : Prop where
  sound_next : sound s = true → sound u = true
  reg : sound s = true → ∀ a, QueueReg a → reg u a = reg s a

theorem QueueFrame.refl (s : State) : QueueFrame s s := ⟨id, fun _ _ _ => rfl⟩

theorem QueueFrame.trans {s u v : State} (h : QueueFrame s u) (k : QueueFrame u v) : QueueFrame s v :=
  ⟨fun hs => k.sound_next (h.sound_next hs), fun hs a ha => (k.reg (h.sound_next hs) a ha).trans (h.reg hs a ha)⟩

theorem carafeBase_mod (c : Nat) : carafeBase c % 4096 = 0 := by
  have := clusterBase_mod c
  unfold carafeBase
  omega

theorem dmaBase_mod (c : Nat) : dmaBase c % 4096 = 0 := by
  have := clusterBase_mod c
  unfold dmaBase
  omega

/-- The four registers of a queue. -/
theorem queueReg_rqAddr (c : Nat) {q i : Nat} (hq : q < 16) (hi : i < 32) : QueueReg (rqAddr c q + i) := by
  unfold QueueReg rqAddr carafeBase clusterBase spineBase
  omega

/-- The registers of two queues differ. -/
theorem rqAddr_inj {c d p q i j : Nat} (hp : p < 16) (hq : q < 16) (hi : i < 32) (hj : j < 32) (h : rqAddr c p + i = rqAddr d q + j) :
    c = d ∧ p = q := by
  unfold rqAddr carafeBase clusterBase spineBase at h
  omega

section
variable {s u v : State}

/-- A change of parts of the state that are not registers. -/
theorem QueueFrame.of_keeps (h : QueueFrame s u) (m : Nat) (hk : Keeps m u v) (hm : m.testBit 4 = false) : QueueFrame s v := by
  refine h.trans ⟨hk.sound, fun _ a _ => ?_⟩
  have hregs : v.regs = u.regs := hk.same .regs hm
  unfold Machine.reg
  rw [hregs]

theorem QueueFrame.of_fault (h : QueueFrame s u) (hf : sound u = true → FaultFrame u v) : QueueFrame s v :=
  h.trans ⟨fun hu => (hf hu).sound_next hu, fun hu => (hf hu).queue⟩

theorem QueueFrame.withReg (h : QueueFrame s u) {a : Nat} (w : Word) (ha : ¬ QueueReg a) : QueueFrame s (setReg u a w) := by
  refine h.trans ⟨(keeps_setReg (k := 16) rfl (.refl _ u)).sound, fun hu b hb => ?_⟩
  rw [reg_setReg u a b w (sound_regs hu), if_neg fun he : b = a => ha (he ▸ hb)]

theorem QueueFrame.withCtr (h : QueueFrame s u) {a : Nat} (n : Nat) (ha : ¬ QueueReg a) : QueueFrame s (addCtr u a n) := by
  unfold addCtr
  split
  · exact h
  · exact h.withReg _ ha

theorem QueueFrame.withRecord (h : QueueFrame s u) {a : Nat} (w : Word) (ha : ¬ QueueReg a) : QueueFrame s (recordFirst u a w) := by
  unfold recordFirst
  split
  · exact h.withReg w ha
  · exact h

theorem QueueFrame.loop {α : Type} {l : List α} {f : α → State → State} (h : QueueFrame s u) (hf : ∀ x v, QueueFrame v (f x v)) :
    QueueFrame s (forAll l u f) := by
  induction l generalizing u with
  | nil => exact h
  | cons x l ih => exact ih (h.trans (hf x u))

theorem QueueFrame.ite {p : Prop} [Decidable p] (h : QueueFrame s u) (k : QueueFrame s v) : QueueFrame s (if p then u else v) := by
  split
  · exact h
  · exact k

/-- A counter or record past the queues' registers, or before them, on a page. -/
theorem not_queueReg_page {p off : Nat} (hp : p % 4096 = 0) (hoff : off < 0x200 ∨ 0x400 ≤ off) (hlt : off < 4096) : ¬ QueueReg (p + off) :=
  not_queueReg_of_offset (by omega)

theorem QueueFrame.withPageCtr (h : QueueFrame s u) {p off : Nat} (n : Nat) (hp : p % 4096 = 0) (hoff : off < 0x200 ∨ 0x400 ≤ off)
    (hlt : off < 4096) : QueueFrame s (addCtr u (p + off) n) := h.withCtr n (not_queueReg_page hp hoff hlt)

theorem QueueFrame.withFault (h : QueueFrame s u) {page : Nat} (hp : page % 4096 = 0) (code : Nat) (tag : Option (BitVec 12)) :
    QueueFrame s (raiseFault page code tag u) := h.of_fault fun hu => faultFrame_raiseFault hu hp code tag

theorem QueueFrame.withFaultCar (h : QueueFrame s u) (c code ta tb bank : Nat) : QueueFrame s (faultCar c code ta tb bank u) :=
  (h.withRecord _ (not_queueReg_page (carafeBase_mod c) (by decide) (by decide))).withFault (carafeBase_mod c) code _

theorem QueueFrame.withRinse (h : QueueFrame s u) (code : Nat) : QueueFrame s (rinseCount code u) :=
  .ite (h.withPageCtr 1 (p := devicePage) (by decide) (by decide) (by decide)) h

/-! ### Completion and answer of a message (R316) -/

theorem queueFrame_portSend (p vc : Nat) (l : List Byte) (s : State) : QueueFrame s (portSend p vc l s) := by
  have hpage : fabPortPage p % 4096 = 0 := by unfold fabPortPage; omega
  unfold portSend portFlit
  dsimp only
  split
  · exact (((QueueFrame.refl s).of_keeps 16777216 (keeps_putPort rfl (.refl _ _)) (by decide)).of_keeps 16777216
      (keeps_putPort rfl (.refl _ _)) (by decide)).withPageCtr 1 hpage (by decide) (by decide)
  · exact (QueueFrame.refl s).of_keeps 16777216 (keeps_putPort rfl (.refl _ s)) (by decide)

theorem QueueFrame.withMsg (h : QueueFrame s u) (m : Msg) : QueueFrame s (emitMsg m u) := by
  unfold emitMsg
  split
  · exact h.withPageCtr _ (p := fabricPage) (by decide) (by decide) (by decide)
  · exact .ite h (.loop (h.of_keeps 8388608 (Keeps.put_out (m := 8388608) rfl (.refl _ u)) (by decide)) fun l v => queueFrame_portSend _ _ l v)

theorem QueueFrame.withAnswer (h : QueueFrame s u) (at_ src shub cls : Nat) (psn : BitVec 32) (code : Nat) :
    QueueFrame s (answerMsg at_ src shub cls psn code u) := by
  unfold answerMsg fabFault
  dsimp only
  split
  · exact h.withMsg _
  · exact (((h.withPageCtr 1 (p := fabricPage) (by decide) (by decide) (by decide)).withRecord _
      (not_queueReg_page (p := fabricPage) (by decide) (by decide) (by decide))).of_keeps 2097152
      (keeps_putRx rfl (.refl _ _)) (by decide)).withMsg _

/-- A message whose counter is one of a cluster's sixteen. -/
theorem QueueFrame.withSettle (h : QueueFrame s u) (m : Nat) (hctr : ∀ p, (getMsg u m).counter = some p → p.2 < 16) :
    QueueFrame s (msgSettle m u) := by
  have hput : QueueFrame s (putMsg u m WinMsg.reset) := h.of_keeps 1024 (keeps_putMsg rfl (.refl _ u)) (by decide)
  unfold msgSettle
  dsimp only
  generalize putMsg u m WinMsg.reset = v at hput ⊢
  have hcount : QueueFrame s (match (getMsg u m).counter with
      | some p => if (getMsg u m).refused then v else bump v (clusterBase p.1 + 0x180 + 8 * p.2)
      | none => v) := by
    split
    next p hp =>
      have hlt := hctr p hp
      have hbase := clusterBase_mod p.1
      exact .ite hput (hput.withCtr 1 (not_queueReg_of_offset (by omega)))
    next => exact hput
  refine .ite (.ite hput ?_) h
  split
  · exact hcount.withAnswer _ _ _ _ _ _
  · exact hcount

/-! ### Failure and landing of a descriptor (R296) -/

theorem queueFrame_descAbandon (c r : Nat) (d : Desc) (s : State) : QueueFrame s (descAbandon c r d s) := by
  unfold descAbandon
  extract_lets o s1 s2 s3 s4
  have h1 : QueueFrame s s1 := .withPageCtr (.refl s) _ (dmaBase_mod c) (by decide) (by decide)
  have h2 : QueueFrame s s2 := h1.of_keeps 20480 (keeps_dropWrites rfl (.refl _ _)) (by decide)
  have h3 : QueueFrame s s3 := by
    show QueueFrame s (match d.walk with | some w => _ | none => _)
    split
    next w _ =>
      have hholds : QueueFrame s (forAll (w.holds.map (·.2)) s2 giveHold) :=
        h2.loop fun k v => (QueueFrame.refl v).of_keeps 4096 (keeps_giveHold rfl (.refl _ v)) (by decide)
      exact .ite (hholds.of_keeps 8800387989504 (keeps_tensorStore rfl (.refl _ _)) (by decide)) hholds
    next => exact h2
  have h4 : QueueFrame s s4 := h3.of_keeps 64 (keeps_ctxLoadEnd rfl (.refl _ _)) (by decide)
  exact h4.of_keeps 4456448 (Keeps.put_awaited_colls (m := 4456448) rfl (.refl _ _)) (by decide)

theorem QueueFrame.withDescFail (h : QueueFrame s u) (c r : Nat) (n : BitVec 32) (code sub : Nat) (raised : Bool) :
    QueueFrame s (descFail c r n code sub raised u) := by
  unfold descFail
  extract_lets g tag later s1 g1 err s2 s3
  have h1 : QueueFrame s s1 := h.loop fun d v => queueFrame_descAbandon c r d v
  have h2 : QueueFrame s s2 := h1.of_keeps 128 (keeps_putRing rfl (.refl _ _)) (by decide)
  have h3 : QueueFrame s s3 := h2.withPageCtr 1 (dmaBase_mod c) (by decide) (by decide)
  exact .ite h (.ite h3 (h3.withFault (dmaBase_mod c) code _))

theorem QueueFrame.withLand (h : QueueFrame s u) (c r : Nat) (n : BitVec 32) : QueueFrame s (descLand c r n u) :=
  h.of_keeps 128 (keeps_descLand rfl (.refl _ u)) (by decide)

theorem queueFrame_withDesc (c r : Nat) (n : BitVec 32) (b : List Byte) : QueueFrame s (withDesc s c r n b) := by
  unfold withDesc carWait
  exact ((((QueueFrame.refl s).of_keeps 128 (keeps_putRing rfl (.refl _ s)) (by decide)).withPageCtr _ (carafeBase_mod c) (by decide)
    (by decide))).of_keeps 128 (keeps_reqTake rfl (.refl _ _)) (by decide)

end

/-! ### Units that move (R175 to R178) -/

section
variable {s u : State}

theorem QueuesSum.of_frame (h : QueuesSum s) (hs : sound s = true) (hf : QueueFrame s u) : QueuesSum u := by
  intro c q hc hq
  have hreg (i : Nat) (hi : i < 32) : reg u (rqAddr c q + i) = reg s (rqAddr c q + i) := hf.reg hs _ (queueReg_rqAddr c hq hi)
  have hcfg : reg u (rqAddr c q) = reg s (rqAddr c q) := hreg 0 (by decide)
  have hold := h c q hc hq
  unfold rqSound regF at hold ⊢
  rw [hcfg, hreg 8 (by decide), hreg 16 (by decide)]
  exact hold

/-- A change of one queue's registers after which that queue's units add up. -/
theorem QueuesSum.of_edit (h : QueuesSum s) {c q : Nat} (hq : q < 16)
    (hother : ∀ b, b ≠ rqAddr c q → b ≠ rqAddr c q + 8 → b ≠ rqAddr c q + 16 → reg u b = reg s b) (hsum : c < 64 → rqSound u c q) :
    QueuesSum u := by
  intro d p hd hp
  by_cases he : d = c ∧ p = q
  · obtain ⟨rfl, rfl⟩ := he
    exact hsum hd
  · have hne {i j : Nat} (hi : i < 32) (hj : j < 32) : rqAddr d p + i ≠ rqAddr c q + j := fun heq => he (rqAddr_inj hp hq hi hj heq)
    have hreg (i : Nat) (hi : i < 32) : reg u (rqAddr d p + i) = reg s (rqAddr d p + i) :=
      hother _ (hne hi (j := 0) (by decide)) (hne hi (by decide)) (hne hi (by decide))
    have hcfg : reg u (rqAddr d p) = reg s (rqAddr d p) := hreg 0 (by decide)
    have hold := h d p hd hp
    unfold rqSound regF at hold ⊢
    rw [hcfg, hreg 8 (by decide), hreg 16 (by decide)]
    exact hold

theorem wfld_pair {x y : Nat} (hx : x < 2 ^ 32) (hy : y < 2 ^ 32) :
    wfld (packWord [(32, x), (0, y)]) 63 32 = x ∧ wfld (packWord [(32, x), (0, y)]) 31 0 = y := by
  have hword : (packWord [(32, x), (0, y)]).toNat = x * 2 ^ 32 + y := by
    simp only [packWord, List.foldl_cons, List.foldl_nil, BitVec.toNat_ofNat]
    omega
  unfold wfld
  rw [hword]
  simp only [fld, Nat.reducePow, Nat.reduceAdd, Nat.reduceSub] at *
  omega

theorem wfld_size_lt (w : Word) : wfld w 34 18 < 2 ^ 17 := fld_lt _ 34 18

/-- Writes of a queue's two unit registers (R175). -/
def setUnits (c q rp wp grant avail : Nat) (s : State) : State :=
  setReg (setReg s (rqAddr c q + 8) (packWord [(32, rp), (0, wp)])) (rqAddr c q + 16) (packWord [(32, grant), (0, avail)])

theorem reg_setUnits (hs : sound s = true) (c q rp wp grant avail b : Nat) :
    reg (setUnits c q rp wp grant avail s) b =
      if b = rqAddr c q + 16 then packWord [(32, grant), (0, avail)]
      else if b = rqAddr c q + 8 then packWord [(32, rp), (0, wp)] else reg s b := by
  unfold setUnits
  rw [reg_setReg _ _ _ _ (setReg_regsWf _ _ _ (sound_regs hs)), reg_setReg _ _ _ _ (sound_regs hs)]

/-- Units that add up again in their queue. -/
theorem QueuesSum.setUnits (h : QueuesSum s) (hs : sound s = true) {c q rp wp grant avail : Nat} (hq : q < 16) (hrp : rp < 2 ^ 32)
    (hwp : wp < 2 ^ 32) (hsum : c < 64 → wbit (reg s (rqAddr c q)) 63 = true →
      avail + grant + (wp + 2 ^ 32 - rp) % 2 ^ 32 = wfld (reg s (rqAddr c q)) 34 18 + 1) :
    QueuesSum (setUnits c q rp wp grant avail s) := by
  refine h.of_edit (c := c) hq (fun b _ h8 h16 => ?_) fun hc hen => ?_
  · rw [reg_setUnits hs, if_neg h16, if_neg h8]
  · have hcfg : reg (Machine.setUnits c q rp wp grant avail s) (rqAddr c q) = reg s (rqAddr c q) := by
      rw [reg_setUnits hs, if_neg (by omega), if_neg (by omega)]
    rw [hcfg] at hen
    have hsize := wfld_size_lt (reg s (rqAddr c q))
    have hall := hsum hc hen
    obtain ⟨hg, ha⟩ := wfld_pair (x := grant) (y := avail) (by omega) (by omega)
    obtain ⟨hr, hw⟩ := wfld_pair hrp hwp
    unfold regF
    rw [hcfg, reg_setUnits hs, if_pos rfl, reg_setUnits hs, if_neg (by omega), if_pos rfl, hg, ha, hr, hw]
    exact hall

theorem units_lt (w : Word) : wfld w 63 32 < 2 ^ 32 ∧ wfld w 31 0 < 2 ^ 32 := ⟨fld_lt _ 63 32, fld_lt _ 31 0⟩

/-- A claim moves units from AVAIL to GRANT (R176). -/
theorem queuesSum_rqClaim (h : QueuesSum s) (hs : sound s = true) {c q : Nat} (hq : q < 16) (n : Nat) : QueuesSum (rqClaim c q n s).2 := by
  by_cases hb : cluBlocked s c = true
  · rw [rqClaim_of_blocked n hb]
    exact h.of_frame hs ((QueueFrame.refl s).withPageCtr 1 (p := devicePage) (by decide) (by decide) (by decide))
  have hb : cluBlocked s c = false := by simpa using hb
  by_cases he : wbit (reg s (rqAddr c q)) 63 = true
  · rw [rqClaim_of_enabled n hb he]
    dsimp only
    split
    next hn =>
      refine h.of_edit (c := c) hq (fun b _ _ h16 => ?_) fun hc hen => ?_
      · rw [reg_setReg _ _ _ _ (sound_regs hs), if_neg h16]
      · have hold := h c q hc hq he
        have hsize := wfld_size_lt (reg s (rqAddr c q))
        unfold regF at hold ⊢
        obtain ⟨hg, ha⟩ := wfld_pair (x := wfld (reg s (rqAddr c q + 16)) 63 32 + n) (y := wfld (reg s (rqAddr c q + 16)) 31 0 - n)
          (by omega) (by omega)
        simp only [reg_setReg _ _ _ _ (sound_regs hs), if_true]
        rw [if_neg (by omega), if_neg (by omega), hg, ha]
        omega
    next => exact h
  · rw [rqClaim_of_disabled n hb (by simpa using he)]
    exact h

/-- A return moves units that lie between RP and WP to AVAIL; any other faults (R178). -/
theorem queuesSum_rqGive (h : QueuesSum s) (hs : sound s = true) {c q : Nat} (hq : q < 16) (v : Word) : QueuesSum (rqGive c q v s) := by
  obtain ⟨hrp, hwp⟩ := units_lt (reg s (rqAddr c q + 8))
  by_cases hn : wfld v 31 0 ≤ (wfld (reg s (rqAddr c q + 8)) 31 0 + 2 ^ 32 - wfld (reg s (rqAddr c q + 8)) 63 32) % 2 ^ 32
  · rw [rqGive_of_units hn]
    refine h.setUnits hs hq (Nat.mod_lt _ (by decide)) hwp fun hc hen => ?_
    have hold := h c q hc hq hen
    unfold regF at hold
    omega
  · rw [rqGive_of_underrun (Nat.lt_of_not_le hn)]
    exact h.of_frame hs (((QueueFrame.refl s).withPageCtr 1 (carafeBase_mod c) (by decide) (by decide)).withFaultCar c 0x2003 0 0 0)

/-- A configuration that leaves its queue disabled. -/
theorem QueuesSum.disable (h : QueuesSum s) (hs : sound s = true) {c q : Nat} (hq : q < 16) {w : Word} (hw : wbit w 63 = false) :
    QueuesSum (setReg s (rqAddr c q) w) := by
  refine h.of_edit (c := c) hq (fun b hb _ _ => ?_) fun _ hen => ?_
  · rw [reg_setReg _ _ _ _ (sound_regs hs), if_neg hb]
  · rw [reg_setReg _ _ _ _ (sound_regs hs), if_pos rfl, hw] at hen
    exact absurd hen Bool.false_ne_true

theorem wbit_wput_enable (w : Word) : wbit (wput w 63 63 0) 63 = false := by
  have h := w.isLt
  have hput : putFld w.toNat 63 63 0 = w.toNat % 2 ^ 63 := by
    unfold putFld
    omega
  have hlt : w.toNat % 2 ^ 63 < 2 ^ 63 := Nat.mod_lt _ (by decide)
  unfold wbit wput
  rw [hput, BitVec.getLsbD_ofNat, Nat.testBit_lt_two_pow hlt, Bool.and_false]

/-- A configuration disables its queue, or fills one that it enables (R175, R178, R180). -/
theorem queuesSum_rqConfig (h : QueuesSum s) (hs : sound s = true) {c q : Nat} (hq : q < 16) (v : Word) : QueuesSum (rqConfig c q v s) := by
  by_cases he : wbit (reg s (rqAddr c q)) 63 = true ∧ wbit (rqWord v) 63 = true
  · rw [rqConfig_of_enabled he.1 he.2]
    exact h
  have hset : sound (setReg s (rqAddr c q) (wput (rqWord v) 63 63 0)) = true := (keeps_setReg (k := 16) rfl (.refl _ s)).sound hs
  rw [rqConfig_of_taken (by simpa only [Decidable.not_and_iff_not_or_not, Bool.not_eq_true] using he)]
  split
  · exact (h.disable hs hq (wbit_wput_enable _)).of_frame hset ((QueueFrame.refl _).withFaultCar c 0x2001 0 0 0)
  split
  next hdis => exact h.disable hs hq hdis
  split
  · have hbase := clusterBase_mod c
    exact h.of_frame hs ((QueueFrame.refl s).withPageCtr 1 hbase (by decide) (by decide))
  · have hwf := sound_regs hs
    have hreg (b : Nat) : reg (setReg (setReg (setReg s (rqAddr c q) (rqWord v)) (rqAddr c q + 8) 0) (rqAddr c q + 16)
        (packWord [(0, wfld (rqWord v) 34 18 + 1)])) b =
        if b = rqAddr c q + 16 then packWord [(0, wfld (rqWord v) 34 18 + 1)]
        else if b = rqAddr c q + 8 then 0 else if b = rqAddr c q then rqWord v else reg s b := by
      rw [reg_setReg _ _ _ _ (setReg_regsWf _ _ _ (setReg_regsWf _ _ _ hwf)), reg_setReg _ _ _ _ (setReg_regsWf _ _ _ hwf), reg_setReg _ _ _ _ hwf]
    refine h.of_edit (c := c) hq (fun b hb h8 h16 => ?_) fun _ _ => ?_
    · rw [hreg, if_neg h16, if_neg h8, if_neg hb]
    · have hsize := wfld_size_lt (rqWord v)
      obtain ⟨hg, ha⟩ := wfld_pair (x := 0) (y := wfld (rqWord v) 34 18 + 1) (by decide) (by omega)
      have hpack : packWord [(0, wfld (rqWord v) 34 18 + 1)] = packWord [(32, 0), (0, wfld (rqWord v) 34 18 + 1)] := by
        simp [packWord]
      unfold regF
      rw [hreg, if_pos rfl, hreg, if_neg (by omega), if_pos rfl, hreg, if_neg (by omega), if_neg (by omega), if_pos rfl, hpack, hg, ha]
      rfl

end

/-! ### A SEND to a queue (R176, R177) -/

section
variable {s : State} (from_ : MsgFrom) (c q : Nat) (credited : Bool) (tag : BitVec 12) (cls : WClass) (jepoch : BitVec 16)
  (key : BitVec 24) (l : List Byte)

theorem queueFrame_enterBanks (a : Store) (l : List AsyncRow) (v : State) :
    QueueFrame v (forAll l v (enterBank a)) ∧ (forAll l v (enterBank a)).msgs = v.msgs := by
  have hk : Keeps 192 v (forAll l v (enterBank a)) := by
    induction l generalizing v with
    | nil => exact .refl _ v
    | cons w l ih => exact (keeps_enterBank (k := 192) rfl (.refl _ v)).trans (ih _)
  exact ⟨(QueueFrame.refl v).of_keeps 192 hk (by decide), hk.same .msgs (by decide)⟩

theorem not_queueReg_refuseCtr (a : Store) : ¬ QueueReg (refuseCtr a) := by
  cases a with
  | sp t => exact not_queueReg_tileBase t 0x880 (by decide)
  | car c => exact not_queueReg_page (carafeBase_mod c) (by decide) (by decide)

/-- A SEND is refused, or takes units from GRANT where it is credited and from AVAIL where it is not. -/
theorem rqSend_cases :
    let u := (rqSend from_ c q credited tag cls jepoch key l s).2
    let p := reg s (rqAddr c q + 8)
    let w := reg s (rqAddr c q + 16)
    QueueFrame s u ∨ ∃ n, n ≤ (if credited then wfld w 63 32 else wfld w 31 0) ∧
      QueueFrame (setUnits c q (wfld p 63 32) ((wfld p 31 0 + n) % 2 ^ 32) (if credited then wfld w 63 32 - n else wfld w 63 32)
        (if credited then wfld w 31 0 else wfld w 31 0 - n) s) u := by
  intro u p w
  have hu : u = (rqSend from_ c q credited tag cls jepoch key l s).2 := rfl
  clear_value u
  unfold rqSend at hu
  extract_lets a cfg at_ size n p' w' wp unitOff pieces spans parts late on code s1 s2 s3 m ref rows blank s4 at hu
  by_cases hcode : code ≠ 0
  · left
    rw [if_pos hcode] at hu
    have h1 : QueueFrame s s1 := .withRinse (.ite ((QueueFrame.refl s).withPageCtr 1 (carafeBase_mod c) (by decide) (by decide)) (.refl s)) _
    rw [hu]
    exact .ite (h1.withCtr _ (not_queueReg_refuseCtr _)) (h1.withPageCtr _ (carafeBase_mod c) (by decide) (by decide))
  · right
    rw [if_neg hcode] at hu
    have hcode : code = 0 := Classical.not_not.mp hcode
    have hw : w' = w := rfl
    have hroom : n ≤ (if credited then wfld w 63 32 else wfld w 31 0) := by
      cases credited
      · simp only [code, hw, Bool.false_eq_true, if_false] at hcode ⊢
        repeat' split at hcode
        all_goals omega
      · simp only [code, hw, if_true] at hcode ⊢
        repeat' split at hcode
        all_goals omega
    refine ⟨n, hroom, ?_⟩
    have hunits : s3 = setUnits c q (wfld p 63 32) ((wfld p 31 0 + n) % 2 ^ 32) (if credited then wfld w 63 32 - n else wfld w 63 32)
        (if credited then wfld w 31 0 else wfld w 31 0 - n) s := by
      cases credited <;> rfl
    rw [← hunits, hu]
    have h4 : QueueFrame s3 s4 := (QueueFrame.refl s3).of_keeps 1024 (keeps_putMsg rfl (.refl _ s3)) (by decide)
    obtain ⟨hrows, hmsgs⟩ := queueFrame_enterBanks at_ rows s4
    refine (h4.trans hrows).withSettle m fun k hk => ?_
    have hmsg : (getMsg (forAll rows s4 (enterBank at_)) m).counter = some (c, wfld cfg 38 35) := by
      unfold getMsg
      rw [hmsgs]
      exact congrArg WinMsg.counter (tblGet_tblSet_of_ne fun he => Option.some_ne_none _ (congrArg WinMsg.counter he))
    rw [hmsg] at hk
    cases hk
    exact fld_lt _ 38 35

variable {from_ c q credited tag cls jepoch key l}

theorem queuesSum_rqSend (h : QueuesSum s) (hs : sound s = true) (hq : q < 16) :
    QueuesSum (rqSend from_ c q credited tag cls jepoch key l s).2 := by
  obtain ⟨hrp, hwp⟩ := units_lt (reg s (rqAddr c q + 8))
  rcases rqSend_cases (s := s) from_ c q credited tag cls jepoch key l with hf | ⟨n, hn, hf⟩
  · exact h.of_frame hs hf
  · refine QueuesSum.of_frame (h.setUnits hs hq hrp (Nat.mod_lt _ (by decide)) fun hc hen => ?_) ?_ hf
    · have hold := h c q hc hq hen
      have hsize := wfld_size_lt (reg s (rqAddr c q))
      unfold regF at hold
      cases credited
      all_goals
        simp only [Bool.false_eq_true, if_false, if_true] at hn ⊢
        omega
    · exact (keeps_setReg (k := 16) rfl (keeps_setReg rfl (.refl _ s))).sound hs

end

/-! ### Register writes to a queue's page (R5, R180, R351) -/

section
variable {s u : State}

/-- The registers of a queue between its configuration and RETURN are read only. -/
theorem queueRow_ro {k : Nat} (hk : k < 64) (hmid : k % 4 = 1 ∨ k % 4 = 2) :
    (regRow .carafe (0x200 + 8 * k)).all (fun r => r.acc == .ro) = true := by
  revert hmid
  revert k
  decide

theorem plainWrite_ro {base addr : Nat} {r : RegRow} {v : Word} (h : r.acc = .ro) : plainWrite base addr r v s = s := by
  unfold plainWrite
  dsimp only
  rw [h]

theorem pageOf_carafeBase : ∀ c < 64, pageOf (carafeBase c) = some (.carafe, 16 * c) := by
  decide

theorem pageWrite_carafe (m : Master) (i base off : Nat) (v : Word) :
    pageWrite m .carafe i base off v s = carafeWrite (i / 16) off v (rowWrite .carafe base off v) s := rfl

theorem rowWrite_ro {p : PageType} {base off : Nat} {v : Word} (h : (regRow p off).all (fun r => r.acc == .ro) = true) :
    rowWrite p base off v s = s := by
  cases hr : regRow p off with
  | none => exact rowWrite_none hr
  | some r =>
    rw [hr] at h
    exact (rowWrite_some hr).trans (plainWrite_ro (by simpa using h))

/-- A write to a queue's registers configures it, returns units to it, or changes nothing. -/
theorem queuesSum_carafeWrite (h : QueuesSum s) (hs : sound s = true) {c off base : Nat} (v : Word) (hlo : 0x200 ≤ off) (hhi : off < 0x400)
    (hal : off % 8 = 0) : QueuesSum (carafeWrite c off v (rowWrite .carafe base off v) s) := by
  have hq : (off - 0x200) / 32 < 16 := by omega
  unfold carafeWrite
  rw [if_neg (by omega), if_pos ⟨hlo, hhi⟩]
  split
  next => exact queuesSum_rqConfig h hs hq v
  next => exact queuesSum_rqGive h hs hq v
  next h0 h24 =>
    have h0 : (off - 0x200) % 32 ≠ 0 := h0
    have h24 : (off - 0x200) % 32 ≠ 24 := h24
    have hro := queueRow_ro (k := (off - 0x200) / 8) (by omega) (by omega)
    rw [show 0x200 + 8 * ((off - 0x200) / 8) = off by omega] at hro
    rw [rowWrite_ro hro]
    exact h

end

section
variable {s u : State}

/-- An access that reaches no register changes counters only. -/
theorem queueFrame_of_ctlAccess_none {m : Master} {a : Nat} (h : ctlAccess m false a s = .none u) : QueueFrame s u := by
  have bumped {p off : Nat} (hp : p % 4096 = 0) (hoff : 0x400 ≤ off) (hlt : off < 4096) : QueueFrame s (bump s (p + off)) :=
    (QueueFrame.refl s).withPageCtr 1 hp (.inr hoff) hlt
  by_cases ha : a % 8 = 0
  · cases hp : pageOf a with
    | none =>
      rw [ctlAccess_unmapped ha hp] at h
      cases h
      exact bumped (p := devicePage) (by decide) (by decide) (by decide)
    | some x =>
      obtain ⟨p, i⟩ := x
      rw [ctlAccess_write ha hp] at h
      split at h
      · cases h; exact .refl s
      split at h
      · cases h; exact bumped (p := mgmtPage) (by decide) (by decide) (by decide)
      split at h
      · cases h; exact bumped (p := devicePage) (by decide) (by decide) (by decide)
      · cases h
  · rw [ctlAccess_unaligned ha] at h
    cases h
    exact .refl s

theorem queuesSum_ctlWrite (h : QueuesSum s) (hs : sound s = true) {c a : Nat} (hc : c < 64) (hlo : carafeBase c + 0x200 ≤ a)
    (hhi : a < carafeBase c + 0x400) (m : Master) (v : Word) : QueuesSum (ctlWrite m a v s) := by
  have hbase := carafeBase_mod c
  have hoff : a % 4096 = a - carafeBase c := by omega
  have hpage : pageOf a = some (.carafe, 16 * c) := by
    have hadd := pageOf_add (off := a - carafeBase c) (by omega) hbase
    rw [Nat.add_sub_cancel' (by omega)] at hadd
    rw [hadd, pageOf_carafeBase c hc]
  cases hacc : ctlAccess m false a s with
  | none t =>
    rw [ctlWrite_of_none hacc (clkReaches_of_offset (by omega))]
    exact h.of_frame hs (queueFrame_of_ctlAccess_none hacc)
  | apply p i =>
    obtain ⟨hal, hp, -⟩ := ctlAccess_apply hacc
    obtain ⟨rfl, rfl⟩ : p = .carafe ∧ i = 16 * c := by simpa using (hp.symm.trans hpage)
    rw [ctlWrite_of_apply hacc, if_neg (by omega)]
    rw [pageWrite_carafe]
    exact queuesSum_carafeWrite h hs v (by omega) (by omega) (by omega)

/-! ### A COMPLETE that writes RETURN (R290) -/

theorem descStart_of_busy {mine : List Byte → Bool} {act : Nat → Nat → BitVec 32 → List Byte → State → State} {c r : Nat} {n : BitVec 32}
    (hstart : startsWith s c r n) (hmine : mine (descBytes s c r n) = true) (hop : recF (descBytes s c r n) 0 1 = 4)
    (hbusy : (getRing s c r).flight ≠ []) : descStart mine act c r s = s := by
  obtain ⟨hnext, hon, hok, hecc⟩ := hstart
  have hgo : ¬ (getRing s c r).flight.isEmpty = true := fun he => hbusy (List.isEmpty_iff.mp he)
  unfold descStart
  simp only [hnext, hon, if_true, hok, hecc, hmine, Bool.and_false, not_true_eq_false, and_false, if_false, hop, hgo, Bool.false_eq_true]
  simp

theorem returnAt_lt {a : Nat} {x : Nat × Nat} (h : returnAt a = some x) : x.2 < 16 := by
  unfold returnAt at h
  split at h
  · dsimp only at h
    split at h
    next hoff =>
      cases h
      dsimp only
      omega
    next => cases h
  · cases h

theorem queuesSum_completeBody (h : QueuesSum s) (hs : sound s = true) {c r : Nat} {n : BitVec 32} {b : List Byte}
    (hctl : wfld (BitVec.ofNat 64 (recF b 8 8)) 63 60 = 4) {x : Nat × Nat} (hx : returnAt (wfld (BitVec.ofNat 64 (recF b 8 8)) 25 0) = some x) :
    QueuesSum (completeBody c r n b s) := by
  have fails (code sub : Nat) : QueuesSum (descFail c r n code sub false s) :=
    h.of_frame hs ((QueueFrame.refl s).withDescFail c r n code sub false)
  unfold completeBody
  extract_lets w v tag ctl a
  rw [if_pos (show ctl from hctl)]
  split
  · exact fails _ _
  split
  · exact fails _ _
  rw [hx]
  dsimp only
  split
  · exact fails _ _
  split
  · exact h.of_frame hs (((QueueFrame.refl s).withRinse 0x2006).withDescFail c r n 0x2006 0 false)
  split
  · have hgive : sound (rqGive x.1 x.2 (BitVec.ofNat 64 v) s) = true := (keeps_rqGive (k := 18141941924304) rfl (.refl _ s)).sound hs
    exact (queuesSum_rqGive h hs (returnAt_lt hx) _).of_frame hgive ((QueueFrame.refl _).withLand c r n)
  · exact fails _ _

/-! ### The commands -/

/-- A command on a cluster's pages answers what its meaning makes, or leaves every queue alone. -/
theorem cluCommand_queue {c : Nat} {f : State → State} (h : cluCommand c s f = .next u) : u = f s ∨ QueueFrame s u := by
  have bumped {p off : Nat} (hp : p % 4096 = 0) (hoff : 0x400 ≤ off) (hlt : off < 4096) : QueueFrame s (bump s (p + off)) :=
    (QueueFrame.refl s).withPageCtr 1 hp (.inr hoff) hlt
  by_cases hc : c < 64
  · have hu : (cluRefused s c).getD (f s) = u := Host.Outcome.next.inj ((cluCommand_eq hc).symm.trans h)
    unfold cluRefused at hu
    split at hu
    · exact .inr (hu ▸ bumped (p := mgmtPage) (by decide) (by decide) (by decide))
    split at hu
    · exact .inr (hu ▸ bumped (p := devicePage) (by decide) (by decide) (by decide))
    · exact .inl hu.symm
  · have hu : (if c < 64 then cluWrite c f s else unmapped s) = u := Host.Outcome.next.inj h
    rw [if_neg hc] at hu
    exact .inr (hu ▸ bumped (p := devicePage) (by decide) (by decide) (by decide))

theorem queuesSum_creditClaim (h : QueuesSum s) (hs : sound s = true) {c n : Nat} {q : BitVec 4} (he : exec (.creditClaim c q n) s = .next u) :
    QueuesSum u := by
  have he : execCreditClaim c q n s = .next u := he
  unfold execCreditClaim onCluster onUnit at he
  have hu := Host.Outcome.next.inj he
  split at hu
  · dsimp only at hu
    split at hu
    · exact hu ▸ h
    · have hclaim : sound (rqClaim c q.toNat n s).2 = true := (keeps_rqClaim (k := 16) rfl (.refl _ s)).sound hs
      rw [← hu]
      exact (queuesSum_rqClaim h hs q.isLt n).of_frame hclaim
        ((QueueFrame.refl _).of_keeps 128 (keeps_putClu rfl (.refl _ _)) (by decide))
  · exact hu ▸ h

/-- Settles O60: a claim, a return, a configuration, a SEND and a COMPLETE each move units within their queue or touch none. -/
theorem receiveQueueSum : Obligations.ReceiveQueueSum := by
  intro s hs hk kept
  have h : QueuesSum s := hk
  refine ⟨fun c n q v u he => ?commands, fun m c addr v u hm hc hlo hhi he => ?write, fun from_ c q credited tag cls jepoch key l hc hq =>
    queuesSum_rqSend h hs hq, fun c ring n u hc hstart => ?complete⟩
  case commands =>
    rcases he with he | he | he
    · exact queuesSum_creditClaim h hs he
    · rcases cluCommand_queue he with rfl | hf
      · exact queuesSum_rqGive h hs q.isLt v
      · exact h.of_frame hs hf
    · rcases cluCommand_queue he with rfl | hf
      · exact queuesSum_rqConfig h hs q.isLt v
      · exact h.of_frame hs hf
  case write =>
    have hb : (∀ d, m ≠ .barista d) ∧ ∀ d k, m ≠ .baristaPart d k := by rcases hm with rfl | ⟨port, rfl⟩ <;> simp
    rw [exec_registerWrite hb.1 hb.2] at he
    cases he
    exact queuesSum_ctlWrite h hs hc hlo hhi m v
  case complete =>
    intro b w hop hctl hret he
    obtain ⟨x, hx⟩ := Option.isSome_iff_exists.mp hret
    have hmine : (recF (descBytes s c ring.toNat n) 0 1 == 4) = true := beq_iff_eq.mpr hop
    have he : execComplete c ring s = .next u := he
    unfold execComplete onCluster at he
    rw [onUnit_of hc] at he
    have hu := Host.Outcome.next.inj he
    by_cases hfree : (getRing s c ring.toNat).flight = []
    · rw [descStart_of_startsWith hstart hmine fun _ => hfree] at hu
      have hdesc := queueFrame_withDesc (s := s) c ring.toNat n (descBytes s c ring.toNat n)
      rw [← hu]
      exact queuesSum_completeBody (h.of_frame hs hdesc) (hdesc.sound_next hs) hctl hx
    · rw [descStart_of_busy hstart hmine hop hfree] at hu
      exact hu ▸ h

end

end Sys2Proof.Machine
